-- ==== Sys2Proof/Word.lean ====
section
/-!
DEFINITION. The word types of the STX9600 model, the small fixed families (two Ridges, four streams,
six Spurs) and sparse tables as plain lists.
-/
namespace Sys2Proof

/-- A register of the block bus (R440). -/
abbrev Word := BitVec 32

/-- A port's 64 bits (R64), a general register (R20), an Angle Count (R2). -/
abbrev DWord := BitVec 64

abbrev Byte := BitVec 8

/-- A control-store address (Table 2.2): 19 bits, and the sums that run past 0x7_FFFF, whose fetch raises FETCH (R26,
R55). -/
abbrev CsAddr := BitVec 20

/-- A sparse table: keys strictly rising, no entry equal to what an unlisted key reads as. -/
abbrev Sparse (α : Type) := List (Nat × α)

/-- One of two: Ridge A or B, actuator A or B, link A or B, port 0 or 1, DRAM channel A or B. -/
inductive Side where
  | a
  | b
deriving DecidableEq, Repr

/-- One of four: stream A0, A1, B0, B1; context 0–3; a tick series; a trace buffer. -/
inductive Quad where
  | q0
  | q1
  | q2
  | q3
deriving DecidableEq, Repr

/-- The Spurs of a Ridge in the order of their index (R24, Table 1.2). -/
inductive SpurId where
  | h
  | m0
  | m1
  | c
  | p
  | k
deriving DecidableEq, Repr

structure Two (α : Type) where
  a : α
  b : α
deriving DecidableEq, Repr

structure Four (α : Type) where
  q0 : α
  q1 : α
  q2 : α
  q3 : α
deriving DecidableEq, Repr

structure Six (α : Type) where
  h : α
  m0 : α
  m1 : α
  c : α
  p : α
  k : α
deriving DecidableEq, Repr

def Side.peer : Side → Side
  | .a => .b
  | .b => .a

def Side.idx : Side → Nat
  | .a => 0
  | .b => 1

def sideOf (n : Nat) : Side := if n % 2 = 0 then .a else .b

def Quad.idx : Quad → Nat
  | .q0 => 0
  | .q1 => 1
  | .q2 => 2
  | .q3 => 3

def quadOf (n : Nat) : Quad :=
  match n % 4 with
  | 0 => .q0
  | 1 => .q1
  | 2 => .q2
  | _ => .q3

/-- The actuator of a stream, and the other stream of the same actuator (R9, Table 1.1). -/
def Quad.act : Quad → Side
  | .q0 => .a
  | .q1 => .a
  | .q2 => .b
  | .q3 => .b

def Quad.mate : Quad → Quad
  | .q0 => .q1
  | .q1 => .q0
  | .q2 => .q3
  | .q3 => .q2

/-- The slot (0 or 1) of a stream on its actuator's link. -/
def Quad.slot : Quad → Side
  | .q0 => .a
  | .q1 => .b
  | .q2 => .a
  | .q3 => .b

/-- Stream `slot` of actuator `x`. -/
def Quad.ofSlot (x slot : Side) : Quad :=
  match x, slot with
  | .a, .a => .q0
  | .a, .b => .q1
  | .b, .a => .q2
  | .b, .b => .q3

def SpurId.idx : SpurId → Nat
  | .h => 0
  | .m0 => 1
  | .m1 => 2
  | .c => 3
  | .p => 4
  | .k => 5

/-- A Spur field that holds 6 or more names no Spur (R49). -/
def spurOf? : Nat → Option SpurId
  | 0 => some .h
  | 1 => some .m0
  | 2 => some .m1
  | 3 => some .c
  | 4 => some .p
  | 5 => some .k
  | _ => none

def SpurId.all : List SpurId := [.h, .m0, .m1, .c, .p, .k]

def Quad.all : List Quad := [.q0, .q1, .q2, .q3]

def Side.all : List Side := [.a, .b]

def Two.get {α : Type} (t : Two α) : Side → α
  | .a => t.a
  | .b => t.b

def Two.set {α : Type} (t : Two α) (x : Side) (v : α) : Two α :=
  match x with
  | .a => { t with a := v }
  | .b => { t with b := v }

def Two.all {α : Type} (v : α) : Two α := ⟨v, v⟩

def Two.map {α β : Type} (t : Two α) (f : α → β) : Two β := ⟨f t.a, f t.b⟩

def Four.get {α : Type} (t : Four α) : Quad → α
  | .q0 => t.q0
  | .q1 => t.q1
  | .q2 => t.q2
  | .q3 => t.q3

def Four.set {α : Type} (t : Four α) (x : Quad) (v : α) : Four α :=
  match x with
  | .q0 => { t with q0 := v }
  | .q1 => { t with q1 := v }
  | .q2 => { t with q2 := v }
  | .q3 => { t with q3 := v }

def Four.all {α : Type} (v : α) : Four α := ⟨v, v, v, v⟩

def Four.map {α β : Type} (t : Four α) (f : α → β) : Four β := ⟨f t.q0, f t.q1, f t.q2, f t.q3⟩

def Six.get {α : Type} (t : Six α) : SpurId → α
  | .h => t.h
  | .m0 => t.m0
  | .m1 => t.m1
  | .c => t.c
  | .p => t.p
  | .k => t.k

def Six.set {α : Type} (t : Six α) (x : SpurId) (v : α) : Six α :=
  match x with
  | .h => { t with h := v }
  | .m0 => { t with m0 := v }
  | .m1 => { t with m1 := v }
  | .c => { t with c := v }
  | .p => { t with p := v }
  | .k => { t with k := v }

def Six.all {α : Type} (v : α) : Six α := ⟨v, v, v, v, v, v⟩

/-- A context: Ridge, Spur and number (R20, R42). -/
structure CtxId where
  ridge : Side
  spur : SpurId
  no : Quad
deriving DecidableEq, Repr

/-- A microword (R51). -/
abbrev MicroWord := BitVec 128

/-- Who makes a block-bus or port access: the Ridge, the context when a word makes it, the port it uses (P_BB_DATA,
P_BB_DATA_N or a port of the block), and whether the word was fetched from ROM (R28, R380, R396). -/
structure Accessor where
  ridge : Side
  ctx : Option CtxId
  port : Nat
  rom : Bool
deriving DecidableEq, Repr

/-- The ALU part of a word (Table 3.1): immediate form, DST, SRCA, SRCB and IMM. -/
structure AluForm where
  imm : Bool
  dst : BitVec 6
  a : BitVec 6
  b : BitVec 6
  immv : Word
deriving DecidableEq, Repr

/-- The kinds of envelope span of R100. -/
inductive FreezeKind where
  | asperity
  | dropout
deriving DecidableEq, Repr

/-- One sample of a read: the equalized sample and its hard decision (R103, R128). -/
structure Smp where
  y : Int
  hard : Bool
deriving DecidableEq, Repr

/-- What comes of a decode besides its bits: the destination took the data, the delivery is poisoned (R110, R373). -/
structure DecodeOut where
  destOk : Bool
  poison : Bool
deriving DecidableEq, Repr

/-- One guide sample as the guide reader delivers it (R112, R113): clock phase, position in 1/16,384 of a track pitch
before the PES scale, the signal's amplitude, and whether a thermal asperity covers the reader. -/
structure GuideIn where
  phase : BitVec 12
  pos : Int
  amp : Nat
  asperity : Bool
deriving DecidableEq, Repr

/-- A wedge field as the data reader delivers it: its wedge bits in their order (Tables 6.4 and 20.1), and in
wedge-servo mode the two burst amplitudes (R415). -/
structure WedgeIn where
  field : List Bool
  burstA : Nat
  burstB : Nat
deriving DecidableEq, Repr

/-- Levels of the strap balls (R403). -/
structure Straps where
  wscEn : Bool
  portmode : Bool
  clkmode : Nat
  bootsrc : Nat
deriving DecidableEq, Repr

/-- A duplicate check that disagrees (R10): the control engine, the stripe engine with the buffer concerned, or
the Saddle halves with the half that reports its own error. -/
inductive DupKind where
  | cen (r : Side)
  | ste (r : Side) (buf : Nat)
  | saddle (aErr bErr : Bool)
deriving DecidableEq, Repr

/-- A submission queue entry as the host wrote it: opcode, CID, NSID and command dwords 10 to 15, and whether its write
data passed the protection check, was poisoned, and the LBA and field that failed (R307, R316). -/
structure Sqe where
  opc : Byte
  cid : BitVec 16
  nsid : Word
  c10 : Word
  c11 : Word
  c12 : Word
  c13 : Word
  c14 : Word
  c15 : Word
deriving DecidableEq, Repr

/-- How the transfer of a command's data went (R307): good, or with a poisoned TLP. -/
inductive DataIn where
  | good
  | poisoned
deriving DecidableEq, Repr

/-- A copy of a sector in a staging band group, as the staging index lists it (R243): namespace, home entry and place in
the home, staging entry and data sector index there, and the ASN of the write whose data it is. -/
structure StgCopy where
  ns : Nat
  home : Nat
  off : Nat
  stg : Nat
  pos : Nat
  asn : DWord
deriving DecidableEq, Repr, Inhabited

/-- What a STAGE record changes in the staging index (Table 13.3). -/
structure StgDelta where
  add : List StgCopy
  drop : List StgCopy
deriving DecidableEq, Repr, Inhabited

/-- An entry of the conventional map (R241): where an LBA lies, and the ASN of the write whose data it is. -/
structure MapEnt where
  ns : Nat
  lba : Nat
  entry : Nat
  idx : Nat
  asn : DWord
deriving DecidableEq, Repr, Inhabited

/-- What a MAP record changes in the conventional map: entries set, and LBAs deallocated. -/
structure MapDelta where
  put : List MapEnt
  clear : List (Nat × Nat)
deriving DecidableEq, Repr, Inhabited

/-- What one attempt to read a sector from the medium delivers (R135, R252, R253): at a level other than L3 whether it
decoded, and the payload; at L3 the erased indices and the sectors that take part (index, decoded, payload). -/
inductive ReadTry where
  | level (n : Nat) (ok : Bool) (payload : List Byte)
  | rebuild (er : List Nat) (parts : List (Nat × Bool × List Byte))
deriving DecidableEq, Repr

/-- Values of the Drive Configuration Block that the boot puts in force: wedges per revolution (R412), assist kinds
(R156), counts of reserved band groups (Table 11.5), REB_FREEMIN (R265), REB_FLOOR in percent (R266), L5REV (R135),
GPD_DBGCTL (R437), and the thresholds of Table 12.2: write faults, SNR collapse and severe collapse in dB, repeated
reconstructions (R255). -/
structure Dcb where
  wscN : Nat
  l5rev : Nat
  kinds : Two Nat
  staging : Two Nat
  emergency : Two Nat
  cairn : Two Nat
  gcres : Two Nat
  freemin : Nat
  floor : Nat
  dbgCtl : BitVec 3
  triggers : Four Nat
deriving DecidableEq, Repr

/-- A Drive Configuration Block copy as the boot finds it (R405): its sequence, the cause it fails verification for
(Table 18.4; none where it verifies), digest, length and content. -/
structure DcbIn where
  seq : Word
  fail : Option Nat
  digest : BitVec 384
  size : Nat
  content : Dcb
deriving DecidableEq, Repr

/-- A firmware slot as the boot finds it (R387, R388): the SPDM index that fails and the cause, digests and lengths of
the boot block, writable-store image, patch image and whole slot, security version, and what is loaded: words, match
registers with their enables, image tag. -/
structure SlotIn where
  fail : Option (Nat × Nat)
  digests : Four (BitVec 384)
  sizes : Four Nat
  svn : Word
  words : List (Nat × MicroWord)
  patches : List (Nat × Word)
  matchEn : DWord
  imgtag : Byte
deriving DecidableEq, Repr

/-- What the boot ROM measures and verifies: ROM and fuse configuration, the slots 1 to 3 (a pushed image alone where
one is booted), the two Drive Configuration Block copies. -/
structure BootIn where
  rom : BitVec 384 × Nat
  fuses : BitVec 384 × Nat
  slots : List SlotIn
  dcb : Two DcbIn
deriving DecidableEq, Repr

/-- A piece of the window index as a compaction image gives it (R288, R293). -/
structure PieceIn where
  asn : DWord
  ns : Nat
  lba : Nat
  blocks : Nat
  slot : Nat
  home : Nat
  host : BitVec 128
deriving DecidableEq, Repr

/-- The rebuild checkpoint of an actuator (R267): the target generation and D, the SUSPECT members that leave, and of a
migration the zone's entry, the entry and band slot it goes to and the stripe it has come to. -/
structure RebuildIn where
  gT : Nat
  dT : Nat
  leaving : List Nat
  zone : Option (Nat × Nat × Nat × Nat)
deriving DecidableEq, Repr

/-- What replay reads from the medium (Table 13.4): which copies of the newest and of the previous image are readable
(own actuator's, mirror), the image with the records of library layout applied (Zone Table, member states, poison lists,
committed generations, window index, staging index, conventional map, rebuild checkpoints), and the payloads of the
flushed sectors in flush order, none where a sector can be neither read nor reconstructed. -/
structure ImageIn where
  new : Bool × Bool
  old : Bool × Bool
  zt : List (Nat × DWord × DWord × DWord × DWord)
  members : List (Nat × Nat)
  poison : List (Nat × Nat × Nat × Nat)
  gens : Two Nat
  pieces : List PieceIn
  staged : List StgCopy
  map : List MapEnt
  moves : Two (Option RebuildIn)
  flushed : Two (List (Option (List Byte)))
deriving DecidableEq, Repr

/-- A protected memory: one of a Ridge's memories of Table 17.2 by index, or a DRAM channel. -/
inductive MemRef where
  | ridge (r : Side) (i : Nat)
  | dram (ch : Side)
deriving DecidableEq, Repr

/-- Bits of a stored word that read inverted: data and check bits (R364). -/
abbrev Flips := DWord × BitVec 16

/-- What the control engine's inputs deliver to a pass (Table 8.6): voice-coil currents and back-EMF velocities of
actuators A and B, and guide velocities of the four streams. -/
structure PassIn where
  vcCur : Two (BitVec 16)
  vcVolt : Two (BitVec 16)
  guideVel : Four Word
deriving DecidableEq, Repr

end Sys2Proof
end

