-- ==== Sys2Proof/Syntax.lean ====
section
/-!
DEFINITION. The commands of the block: one constructor per row of spec/opcode_table.json, in the table's order.
An operand is what the row's sender or the world outside the block says: the context, the Ridge, the register's
data, the angle reached, the frame received, the quantity measured.
-/
namespace Sys2Proof

inductive Instr where
  /-- HEARTBEAT_LOSS (R210). The power die finds no heartbeat for 100 µs while heads are loaded, retracts any actuator
  not PARKED, then brakes or turns the spindle FETs off. -/
  | heartbeatLoss
  /-- HEARTBEAT (R186). The MTR sends one heartbeat frame to the power die every 1 µs while its conditions hold. -/
  | heartbeat
  /-- HEARTBEAT_KICK (R186). A write of MTR_HBKICK restarts the HBTO count. -/
  | heartbeatKick (x : Accessor)
  /-- HBTO_EXPIRY (R186). MTR_HBKICK has not been written within HBTO, so heartbeats stop. -/
  | hbtoExpiry
  /-- FLUSH_SPEED_STOP (R18). The spindle falls below 75 % of nominal speed during a flush; writing stops and unwritten
  chunks become deferred errors. -/
  | flushSpeedStop (act : Side)
  /-- FENCE (R355). A fence cause fences a Ridge within 0.2 µs, completes its outstanding transfers with errors and
  latches the cause. -/
  | fence (r : Side) (cause : Nat)
  /-- LOCKSTEP_MISMATCH (R45). The lockstep pair of a Spur disagrees on an effect; the effect is not released, SPU_LSERR
  is set and the Ridge is fenced. -/
  | lockstepMismatch (r : Side) (sp : SpurId)
  /-- DUPLICATE_MISMATCH (R10). A control-engine or stripe-engine duplicate check, or a Saddle half comparison,
  disagrees and the Ridge or Saddle half is fenced. -/
  | duplicateMismatch (k : DupKind)
  /-- CST_PEER_REFETCH (R25). After an uncorrectable fetch error, the word is fetched again from the peer control store
  and written back, or the context takes FETCHUE. -/
  | cstPeerRefetch (c : CtxId)
  /-- PORT_READ_RETURN (R22). The data of a port read returns, writes the destination register and releases a context
  stalled on that register. -/
  | portReadReturn (c : CtxId) (port : Nat)
  /-- PORT_TIMEOUT (R23). A port has not responded to a transfer within 4,096 cycles and raises PORTTO in the issuing
  context. -/
  | portTimeout (c : CtxId) (port : Nat)
  /-- WAIT_RELEASE (R57). The condition of a WAIT becomes true and the waiting context continues at the next word. -/
  | waitRelease (c : CtxId)
  /-- WAIT_TIMEOUT (R57). The timeout of a WAIT expires and line 3 becomes pending; the WAIT is taken as URGENT or
  DEFER. -/
  | waitTimeout (c : CtxId)
  /-- WAIT_CYCLE_BOUND (R58). A WAIT in AU form reaches 2^26 cycles and expires whatever the angle does. -/
  | waitCycleBound (c : CtxId)
  /-- URGENT_ENTRY (R31). A pending URGENT line is taken at a word boundary: its bit is cleared, the snapshot is
  restored, the restart address is pushed and the handler starts. -/
  | urgentEntry (c : CtxId)
  /-- SEGMENT_WARNING (R41). A context's segment counter exceeds SEG_MAX and its bit in SPU_SEGWARN is set, at most once
  per segment. -/
  | segmentWarning (c : CtxId)
  /-- SNAPSHOT_RECEIVE (R42). A snapshot from the peer context arrives; it is stored in an ADOPT context or discarded
  with SPU_INTSTAT bit 3, and is acknowledged. -/
  | snapshotReceive (c : CtxId)
  /-- SNAPSHOT_ACK (R42). The peer acknowledges a snapshot and releases a context stalled on its third unacknowledged
  COMMIT. -/
  | snapshotAck (c : CtxId)
  /-- CONTEXT_START (R50). SPU_CTL or P_CTXCMD START starts a context in IDLE, HALT or FAULT at ADDR. -/
  | contextStart (c : CtxId) (addr : CsAddr)
  /-- CONTEXT_STOP (R50). STOP brings a running, waiting or handler context to HALT at the next permitted word boundary.
  -/
  | contextStop (c : CtxId)
  /-- CONTEXT_RESUME (R48). RESUME restarts a context in HALT or FAULT from its snapshot. -/
  | contextResume (c : CtxId)
  /-- SPUR_STEP (R50). STEP runs one word of a halted context while DBGEN is 1. -/
  | spurStep (c : CtxId) (w : MicroWord) (ce : Bool)
  /-- CONTEXT_RELEASE (R50). RELEASE moves a halted context to IDLE and discards its snapshot; contexts 2 and 3 may then
  enter ADOPT. -/
  | contextRelease (c : CtxId)
  /-- CONTEXT_CMD_RESERVED (R50). A context command code 0b110 or 0b111, or a command given in a state where it does not
  apply, is ignored and sets SPU_INTSTAT bit 2. -/
  | contextCmdReserved (c : CtxId) (cmd : BitVec 3)
  /-- DEBUG_DATA_WRITE (R49). A write of SPU_DBGDATA_HI stores both halves into the selected register when DBGEN is 1
  and the context is halted or faulted, otherwise it is ignored. -/
  | debugDataWrite (r : Side) (hi : Word)
  /-- LOAD_WORD_STORE (R28). A write of CST_LDDATA[3] stores the assembled word with check bits at the load address when
  the load conditions hold, then auto-increments the address. -/
  | loadWordStore (x : Accessor) (data : Word)
  /-- LOAD_ADDRESS_WRITE (R28). A write of CST_LDADDR is accepted only when LOADEN, lock or quiescence and ROM origin
  hold, otherwise LOADREJ is set. -/
  | loadAddressWrite (x : Accessor) (data : Word)
  /-- MATCH_WRITE (R27). A write of CST_MATCH or CST_MATCHEN takes effect only while QUIESCED is 1, otherwise it is
  ignored and sets MATCHREJ. -/
  | matchWrite (r : Side) (off : Nat) (data : Word)
  /-- BOOTLOCK_SET (R445). Setting CST_LOCK.BOOTLOCK locks the Ridge's RWL fields, the Saddle lock on its first setting,
  and makes the Ridge IN_SERVICE. -/
  | bootlockSet (r : Side)
  /-- NEXT (R55). The sequencer continues at the next address. -/
  | next (c : CtxId) (w : MicroWord) (ce : Bool)
  /-- JUMP (R55). The sequencer continues at TARGET. -/
  | jump (c : CtxId) (w : MicroWord) (ce : Bool)
  /-- CALL (R55). The next address is pushed and the sequencer continues at TARGET, with a STACK fault if 16 entries are
  held. -/
  | call (c : CtxId) (w : MicroWord) (ce : Bool)
  /-- RET (R55). The sequencer pops the return stack and continues there, with a STACK fault if the stack is empty. -/
  | ret (c : CtxId) (w : MicroWord) (ce : Bool)
  /-- BRT (R55). The sequencer continues at TARGET if the condition is true, otherwise at the next address. -/
  | brt (c : CtxId) (w : MicroWord) (ce : Bool)
  /-- BRF (R55). The sequencer continues at TARGET if the condition is false, otherwise at the next address. -/
  | brf (c : CtxId) (w : MicroWord) (ce : Bool)
  /-- WAIT (R57). The context stalls until its condition is true or its timeout expires. -/
  | wait (c : CtxId) (w : MicroWord) (ce : Bool)
  /-- POLL (R30). A pending unmasked DEFER line is taken, otherwise the sequencer continues at the next address. -/
  | poll (c : CtxId) (w : MicroWord) (ce : Bool)
  /-- DISP (R55). The sequencer continues at TARGET plus bits [7:0] of the SRCA register. -/
  | disp (c : CtxId) (w : MicroWord) (ce : Bool)
  /-- YIELD (R55). The sequencer continues at the next address and the context is not ready for 16 cycles. -/
  | yield (c : CtxId) (w : MicroWord) (ce : Bool)
  /-- HALT (R55). The context enters HALT. -/
  | halt (c : CtxId) (w : MicroWord) (ce : Bool)
  /-- LOOP (R59). If the loop counter is nonzero it is decremented and the sequencer continues at TARGET, otherwise at
  the next address. -/
  | loop (c : CtxId) (w : MicroWord) (ce : Bool)
  /-- ILLSEQ (R55). A SEQ encoding 0xC to 0xF raises an ILLSEQ fault and the word is not executed. -/
  | illseq (c : CtxId) (w : MicroWord) (ce : Bool)
  /-- NOP (R61). The ALU produces no result and leaves the flags unchanged. -/
  | nop (c : CtxId) (f : AluForm)
  /-- MOV (R61). The ALU writes operand b to the destination. -/
  | mov (c : CtxId) (f : AluForm)
  /-- MOVH (R61). The ALU writes IMM or b[31:0] to bits [63:32] of the destination and keeps its low half. -/
  | movh (c : CtxId) (f : AluForm)
  /-- ADD (R62). The ALU writes a + b and sets N, Z, C and V. -/
  | add (c : CtxId) (f : AluForm)
  /-- ADC (R62). The ALU writes a + b + C and sets N, Z, C and V. -/
  | adc (c : CtxId) (f : AluForm)
  /-- SUB (R62). The ALU writes a − b and sets N, Z, C and V, with C = 1 meaning no borrow. -/
  | sub (c : CtxId) (f : AluForm)
  /-- SBC (R62). The ALU writes a − b − (1 − C) and sets N, Z, C and V. -/
  | sbc (c : CtxId) (f : AluForm)
  /-- CMP (R62). The ALU sets the flags of a − b and writes no register. -/
  | cmp (c : CtxId) (f : AluForm)
  /-- CMN (R62). The ALU sets the flags of a + b and writes no register. -/
  | cmn (c : CtxId) (f : AluForm)
  /-- NEG (R62). The ALU writes −a with the flags of 0 − a. -/
  | neg (c : CtxId) (f : AluForm)
  /-- ABS (R62). The ALU writes the signed absolute value of a with the flags R62 gives. -/
  | abs (c : CtxId) (f : AluForm)
  /-- AND (R61). The ALU writes a & b and sets N and Z. -/
  | and (c : CtxId) (f : AluForm)
  /-- OR (R61). The ALU writes a | b and sets N and Z. -/
  | or (c : CtxId) (f : AluForm)
  /-- XOR (R61). The ALU writes a ^ b and sets N and Z. -/
  | xor (c : CtxId) (f : AluForm)
  /-- ANDN (R61). The ALU writes a & ~b and sets N and Z. -/
  | andn (c : CtxId) (f : AluForm)
  /-- ORN (R61). The ALU writes a | ~b and sets N and Z. -/
  | orn (c : CtxId) (f : AluForm)
  /-- NOT (R61). The ALU writes ~a and sets N and Z. -/
  | not (c : CtxId) (f : AluForm)
  /-- TST (R61). The ALU sets the flags of a & b and writes no register. -/
  | tst (c : CtxId) (f : AluForm)
  /-- SHL (R62). The ALU shifts a left by b[5:0], sets N and Z, and sets C to the last bit shifted out. -/
  | shl (c : CtxId) (f : AluForm)
  /-- SHR (R62). The ALU shifts a right logically by b[5:0] with the shift flags. -/
  | shr (c : CtxId) (f : AluForm)
  /-- SAR (R62). The ALU shifts a right arithmetically by b[5:0] with the shift flags. -/
  | sar (c : CtxId) (f : AluForm)
  /-- ROL (R62). The ALU rotates a left by b[5:0] with the shift flags. -/
  | rol (c : CtxId) (f : AluForm)
  /-- ROR (R62). The ALU rotates a right by b[5:0] with the shift flags. -/
  | ror (c : CtxId) (f : AluForm)
  /-- MIN (R61). The ALU writes the signed minimum of a and b. -/
  | min (c : CtxId) (f : AluForm)
  /-- MAX (R61). The ALU writes the signed maximum of a and b. -/
  | max (c : CtxId) (f : AluForm)
  /-- MINU (R61). The ALU writes the unsigned minimum of a and b. -/
  | minu (c : CtxId) (f : AluForm)
  /-- MAXU (R61). The ALU writes the unsigned maximum of a and b. -/
  | maxu (c : CtxId) (f : AluForm)
  /-- MUL (R61). The ALU writes the unsigned 64-bit product of a[31:0] and b[31:0]. -/
  | mul (c : CtxId) (f : AluForm)
  /-- MULS (R61). The ALU writes the signed 64-bit product of a[31:0] and b[31:0]. -/
  | muls (c : CtxId) (f : AluForm)
  /-- ADDSU (R62). The ALU writes the unsigned saturating sum a + b, with C and V as before saturation. -/
  | addsu (c : CtxId) (f : AluForm)
  /-- SUBSU (R62). The ALU writes the unsigned saturating difference a − b, floored at 0. -/
  | subsu (c : CtxId) (f : AluForm)
  /-- BFX (R63). The ALU writes the field of a named by b, zero-extended. -/
  | bfx (c : CtxId) (f : AluForm)
  /-- BFXS (R63). The ALU writes the field of a named by b, sign-extended. -/
  | bfxs (c : CtxId) (f : AluForm)
  /-- BFI (R63). The ALU replaces the field of the destination named by b with the low bits of a. -/
  | bfi (c : CtxId) (f : AluForm)
  /-- BFC (R63). The ALU writes a with the field named by b cleared. -/
  | bfc (c : CtxId) (f : AluForm)
  /-- POPC (R61). The ALU writes the count of ones in a. -/
  | popc (c : CtxId) (f : AluForm)
  /-- CLZ (R61). The ALU writes the count of leading zeros of a, 64 for zero. -/
  | clz (c : CtxId) (f : AluForm)
  /-- CTZ (R61). The ALU writes the count of trailing zeros of a, 64 for zero. -/
  | ctz (c : CtxId) (f : AluForm)
  /-- BSWAP (R61). The ALU writes a with its bytes reversed. -/
  | bswap (c : CtxId) (f : AluForm)
  /-- SXT (R61). The ALU writes a sign-extended above bit b[5:0]. -/
  | sxt (c : CtxId) (f : AluForm)
  /-- ZXT (R61). The ALU writes a zero-extended above bit b[5:0]. -/
  | zxt (c : CtxId) (f : AluForm)
  /-- CRC (R61). The ALU steps the CRC-32C in a[31:0] over the 8 bytes of b, lowest byte first. -/
  | crc (c : CtxId) (f : AluForm)
  /-- CRCB (R61). The ALU steps the CRC-32C in a[31:0] over byte b[7:0] only. -/
  | crcb (c : CtxId) (f : AluForm)
  /-- GFMUL (R61). The ALU multiplies each byte lane of a by b[7:0] in GF(2^8) with polynomial 0x11D. -/
  | gfmul (c : CtxId) (f : AluForm)
  /-- GFMAC (R61). The ALU XORs GFMUL(a, b) into the destination. -/
  | gfmac (c : CtxId) (f : AluForm)
  /-- SELZ (R61). The ALU writes a if Z = 1, otherwise b. -/
  | selz (c : CtxId) (f : AluForm)
  /-- SELC (R61). The ALU writes a if C = 1, otherwise b. -/
  | selc (c : CtxId) (f : AluForm)
  /-- TSTB (R62). The ALU sets Z to the inverse of bit b[5:0] of a. -/
  | tstb (c : CtxId) (f : AluForm)
  /-- ILLALU (R61). An ALU OP[5:0] of 0x30 to 0x3F raises an ILLALU fault. -/
  | illalu (c : CtxId) (op : BitVec 6)
  /-- EVENT_ACK (R30). A write of P_EVACK clears the pending event lines whose bits are 1. -/
  | eventAck (c : CtxId) (data : DWord)
  /-- SIG0 (R49). A write of P_SIG0 raises line 13 in the named context of the same Ridge. -/
  | sig0 (c : CtxId) (data : DWord)
  /-- SIG1 (R68). A write of P_SIG1 raises line 14 in the named context of the peer Ridge, or is refused with reason 5
  while the peer is in reset, self-test or fenced. -/
  | sig1 (c : CtxId) (data : DWord)
  /-- FF_SET (R20). A write of P_FFSET sets the Spur's firmware flags whose data bits are 1. -/
  | ffSet (c : CtxId) (data : DWord)
  /-- FF_CLEAR (R20). A write of P_FFCLR clears the Spur's firmware flags whose data bits are 1. -/
  | ffClear (c : CtxId) (data : DWord)
  /-- ARM (R87). ANG ARM clears a comparator's hit and arms it with this context's P_ANG_CMPVAL. -/
  | arm (c : CtxId) (n : BitVec 5)
  /-- DISARM (R68). ANG DISARM disarms a comparator and clears its hit. -/
  | disarm (c : CtxId) (n : BitVec 5)
  /-- POST (R69). ANG POST appends this context's staged stamp and action to a stream's AEQ, refused if the stream is
  not owned or the AEQ is full. -/
  | post (c : CtxId) (t : Quad)
  /-- ANG_READ (R68). ANG READ latches the own, peer or stream Angle Count into P_ANG_SNAP, refused with reason 5 for an
  unavailable peer. -/
  | angRead (c : CtxId) (src : BitVec 3)
  /-- AEQ_FLUSH (R91). ANG FLUSH removes every unexecuted entry of a stream's AEQ, drives its gates low and closes an
  open sync window. -/
  | aeqFlush (c : CtxId) (t : Quad)
  /-- CLOCK_MARK (R73). A clock-track mark reaches the synthesizer and advances the Angle Count by the rule of the
  current source. -/
  | clockMark (r : Side) (absent : Nat) (phase : Int) (rate : Word) (idx : Bool)
  /-- FLYWHEEL_ENTRY (R81). The MISS-th successive absent mark, or a phase error above 16 AU, moves the angle source to
  FLYWHEEL. -/
  | flywheelEntry (r : Side)
  /-- FLYWR_EXPIRY (R82). The source has been in FLYWHEEL for more than FLYWR mark periods and write inhibit begins. -/
  | flywrExpiry (r : Side) (periods : Nat)
  /-- FLYWHEEL_FALLBACK (R81). FBMARKS mark periods pass without marks or without an index; IDXOK is cleared and the
  source falls back to OBSERVER or NONE. -/
  | flywheelFallback (r : Side) (periods : Nat)
  /-- REFERENCE_STREAM_CHANGE (R75). The reference stream stops being usable and the synthesizer moves to the next
  usable stream between two marks. -/
  | referenceStreamChange (r : Side)
  /-- OBSERVER_VALID_CHANGE (R191). The back-EMF observer becomes valid or invalid at 1 % of target speed, changing the
  OBSERVER source and speed input. -/
  | observerValidChange (rpm : BitVec 16)
  /-- ANGLE_CROSSCHECK_FAULT (R84). The difference between the own and peer Angle Counts exceeds LIMIT for 16 successive
  ticks and XERR is set. -/
  | angleCrosscheckFault (r : Side)
  /-- SAMPLE_TICK (R93). The synthesizer emits a sample tick of one of the four series at its fixed angle, carrying its
  Angle Count. -/
  | sampleTick (r : Side) (series : Quad) (now : DWord) (g : Four GuideIn) (rpm : BitVec 16)
  /-- COMPARATOR_HIT (R87). The Ridge's Angle Count reaches an armed comparator value; the hit is set, line 4 is raised
  where routed, and the comparator disarms. -/
  | comparatorHit (r : Side) (n : BitVec 5) (now : DWord)
  /-- SKEW_WRITE (R86). A write of ANG_SKEWDATA stores a saturated head skew that takes effect when any active gate on a
  stream using the head goes low. -/
  | skewWrite (r : Side) (data : Word)
  /-- AEQ_NOP (R89). An AEQ_NOP entry reaches its stamp at the head of the queue and does nothing. -/
  | aeqNop (t : Quad) (now : DWord)
  /-- AEQ_WG_ON (R114). The write gate rises at the entry's bit boundary and the settling tone and fragment begin,
  unless a lateness, conflict, forcing or arming rule drops the action. -/
  | aeqWgOn (t : Quad) (now : DWord)
  /-- AEQ_WG_OFF (R114). The write gate falls at the entry's bit boundary. -/
  | aeqWgOff (t : Quad) (now : DWord)
  /-- AEQ_RD_ON (R127). The read gate rises and the tagged sector or its next fragment begins, after any pending bank
  swap, unless a drop rule applies. -/
  | aeqRdOn (t : Quad) (now : DWord)
  /-- AEQ_RD_OFF (R89). The read gate falls and any open sync window closes. -/
  | aeqRdOff (t : Quad) (now : DWord) (smps : List Smp)
  /-- AEQ_AS_PRE (R158). The assist gate rises at the preheat level, within the interlock of R159. -/
  | aeqAsPre (t : Quad) (now : DWord)
  /-- AEQ_AS_ON (R158). The assist gate rises, within the interlock of R159. -/
  | aeqAsOn (t : Quad) (now : DWord)
  /-- AEQ_AS_OFF (R158). The assist gate falls. -/
  | aeqAsOff (t : Quad) (now : DWord)
  /-- AEQ_SYNC_OPEN (R128). A sync-mark or resync-mark search window opens and sets the predicted mark position. -/
  | aeqSyncOpen (t : Quad) (now : DWord) (smps : List Smp)
  /-- AEQ_SYNC_CLOSE (R129). The sync window closes; without a match the fragment flywheels at offset 0 with SYNCMISS
  set. -/
  | aeqSyncClose (t : Quad) (now : DWord) (smps tail : List Smp)
  /-- AEQ_HSW (R153). A head switch binds the slot to a local head, moves the stream Angle Count by the skew difference
  and sends HSEL, or is discarded with HSWERR. -/
  | aeqHsw (t : Quad) (now : DWord)
  /-- AEQ_GSAMP (R112). The guide channel delivers an extra guide sample carrying the entry's tag. -/
  | aeqGsamp (t : Quad) (now : DWord) (g : GuideIn)
  /-- AEQ_AS_LVL (R157). An ASLV frame is sent for the bound head with entry i of the level table, clamped to QLK_ASMAX.
  -/
  | aeqAsLvl (t : Quad) (now : DWord)
  /-- AEQ_ILLEGAL_ACTION (R88). An entry with an unlisted code reaches the head of the queue, is discarded and sets
  ILLACT. -/
  | aeqIllegalAction (t : Quad) (now : DWord)
  /-- ANG_AC_LATCH (R439). A read of ANG_AC_LO returns AC bits [31:0] and latches the whole Angle Count for ANG_AC_HI.
  -/
  | angAcLatch (x : Accessor)
  /-- COUNTER_READ_CLEAR (R6). A read of an RS counter register returns its value and clears it, or clears its
  high-water or worst field. -/
  | counterReadClear (x : Accessor) (addr : Word)
  /-- CLOCK_RANGE_FAULT (R95). The bit clock leaves its range, is not produced, or RATIO is 0; the tile forces its gates
  low and drops read and write open actions. -/
  | clockRangeFault (t : Quad)
  /-- BANK_SWAP_REQUEST (R97). Writing 1 to STT_BANKCTL.SWAP arms a bank swap at the next read or write open action. -/
  | bankSwapRequest (x : Accessor) (t : Quad)
  /-- BANK_WORD_WRITE (R96). A write of a channel parameter bank word stores it in the standby bank, or is ignored with
  STT_CHN_INTSTAT bit 3 for the active bank. -/
  | bankWordWrite (x : Accessor) (t : Quad) (sel : BitVec 9) (data : Word)
  /-- SPARE_STEP_START (R98). STT_ADCCTL.GO starts a spare-slice calibration step, refused while the spare domain is
  off. -/
  | spareStepStart (x : Accessor) (t : Quad) (slice : BitVec 3)
  /-- SPARE_TAKEOVER (R98). At a read-gate-low interval the spare slice takes over the position of the slice under
  calibration. -/
  | spareTakeover (t : Quad)
  /-- SPARE_RETURN (R98). At a read-gate-low interval the calibrated slice returns to its position and the spare becomes
  idle. -/
  | spareReturn (t : Quad)
  /-- FREEZE_SPAN_START (R100). A thermal asperity, dropout or defect span begins and the four adaptive loops freeze. -/
  | freezeSpanStart (t : Quad) (level : Nat) (smps : List Smp)
  /-- FREEZE_SPAN_END (R102). A freeze span ends and the loops resume, with acquisition gain after a span longer than
  4,096 bits. -/
  | freezeSpanEnd (t : Quad) (level : Nat) (smps : List Smp)
  /-- RECORD_RELEASE (R104). A write of STT_SMPREL frees the named held sample records, deferred while a record is being
  decoded. -/
  | recordRelease (x : Accessor) (t : Quad) (mask : BitVec 16)
  /-- SECTOR_COMPLETE (R127). The codeword bits of a sector's last fragment and its pad are transferred and the sector
  ends. -/
  | sectorComplete (t : Quad) (now : DWord) (smps : List Smp)
  /-- SOURCE_UNDERRUN (R127). The payload source of a write cannot supply a bit in time; the gates are forced low and
  the sector ends WABORT. -/
  | sourceUnderrun (t : Quad)
  /-- DECODE_COMPLETE (R110). An on-the-fly decode or a decoder request ends, writes its payload if it succeeded, and
  posts its status or result. -/
  | decodeComplete (r : Side) (slot : BitVec 4) (res : DecodeOut)
  /-- WRITE_ENABLE_WRITE (R153). A write of STT_WRCTL.EN enables or disables the write path and resends HSEL for the
  slot's head with the resulting mode. -/
  | writeEnableWrite (x : Accessor) (t : Quad) (en : Bool)
  /-- DECODER_SUBMIT (R111). P_DEC_SUBMIT submits the staged decoder request to a free request slot, refused with reason
  3 or 2. -/
  | decoderSubmit (c : CtxId)
  /-- DECODER_RESULT_POP (R111). A read of P_DEC_RESULT pops this context's next decoder result, or returns 0. -/
  | decoderResultPop (c : CtxId) (reg : BitVec 6)
  /-- WEDGE_READ (R123). The formatter reads a sync wedge and compares its number, track identity and CRC, or in WSC
  mode decodes its bursts into a PES sample. -/
  | wedgeRead (t : Quad) (now : DWord) (w : WedgeIn)
  /-- KEEPOUT_ENTRY (R124). The stream Angle Count enters a wedge keep-out with the write gate high; the gates are
  forced low and the sector ends WABORT. -/
  | keepoutEntry (t : Quad) (now : DWord)
  /-- SYNC_MATCH (R128). The search matches the sync or resync mark within threshold, ends the search and fixes the
  fragment's offset. -/
  | syncMatch (t : Quad) (now : DWord) (smps : List Smp)
  /-- SKIP_ENTRY_APPLY (R131). A skip-list entry reaches its start angle during a transfer and pauses the codeword or
  erases its span. -/
  | skipEntryApply (t : Quad) (now : DWord)
  /-- SKIP_LIST_SELECT (R130). Naming a skip list through P_FMT_SKIP_x or FMT_SKIPADDR accepts it only if its header
  matches the track and its count is in range. -/
  | skipListSelect (x : Accessor) (t : Quad) (addr : DWord)
  /-- SECTOR_STATUS_POP (R133). A read of P_FMT_SSTAT_x, FMT_SSTAT_LO or LG_SSTAT0 pops the oldest sector status, or
  returns 0 when none is posted. -/
  | sectorStatusPop (c : CtxId) (t : Quad) (reg : BitVec 6)
  /-- DESCRIPTOR_WORD_WRITE (R137). Formatter command 0x1 writes one word of a descriptor slot, ignored for the slot in
  progress. -/
  | descriptorWordWrite (x : Accessor) (t : Quad) (slot : BitVec 6) (word : BitVec 2) (data : Word)
  /-- TRACKID_WRITE (R137). Formatter command 0x2 writes FMT_TRACKID. -/
  | trackidWrite (x : Accessor) (t : Quad) (v : BitVec 24)
  /-- FORMATTER_CMD_IGNORED (R137). A P_FMT_CTL_x command code 0x0 or 0x3 to 0xF is ignored. -/
  | formatterCmdIgnored (x : Accessor) (t : Quad) (w : DWord)
  /-- FRAME_SLOT (R140). A 32 ns frame slot begins on Quaxlink and the device sends the highest-priority due downstream
  frame, a retransmission or IDLE. -/
  | frameSlot (l : Side)
  /-- IDLE (R141). A good upstream IDLE frame arrives and carries the NAK for a downstream frame. -/
  | idle (l : Side) (w : BitVec 40)
  /-- RDRSP (R143). A good upstream RDRSP frame completes a pending preamplifier register read. -/
  | rdrsp (l : Side) (w : BitVec 40)
  /-- STATUS (R150). A good upstream STATUS frame updates QLK_PSTAT, and on SAFE going to 0 the device resends HSEL,
  ASLV and HTLV. -/
  | status (l : Side) (w : BitVec 40)
  /-- FAULT (R143). A good upstream FAULT frame reports a preamplifier fault in QLK_PFLT and QLK_INTSTAT bit 3. -/
  | fault (l : Side) (w : BitVec 40)
  /-- UPSTREAM_IGNORED_TYPE (R143). An upstream frame of an unused type is ignored and counted as an upstream error. -/
  | upstreamIgnoredType (l : Side) (w : BitVec 40)
  /-- UPSTREAM_LOCK (R141). Eight successive good upstream frames lock the receiver. -/
  | upstreamLock (l : Side)
  /-- UPSTREAM_LOCK_LOSS (R141). Four successive failing upstream frames lose lock. -/
  | upstreamLockLoss (l : Side)
  /-- UPSTREAM_SILENCE (R146). No good upstream frame has arrived for 1 µs and a link fault follows. -/
  | upstreamSilence (l : Side)
  /-- RETRIES_EXHAUSTED (R146). An HSEL, ASLV or HTLV runs out of retransmissions and a link fault follows, or a
  register access ends with an error. -/
  | retriesExhausted (l : Side) (w : BitVec 40)
  /-- REGISTER_ACCESS_TIMEOUT (R146). No RDRSP arrives within 1 µs of an acknowledged REGRD and the access ends with
  ERR. -/
  | registerAccessTimeout (l : Side)
  /-- LINK_START (R148). QLK_CTL.EN going from 0 to 1 starts CK, trains the UP phase and reads preamplifier register
  0x00 to reach RUN. -/
  | linkStart (x : Accessor) (l : Side)
  /-- LINK_START_TIMEOUT (R148). RUN is not reached within 100 µs of link start; the link enters FAULT and event 0x0301
  cause 3 is written. -/
  | linkStartTimeout (l : Side)
  /-- LINK_STOP (R148). QLK_CTL.EN going to 0 drives the gates low, sends SAFE reason 0x02, stops CK and enters OFF. -/
  | linkStop (x : Accessor) (l : Side)
  /-- PREAMP_REGISTER_READ (R460). A QLK_REGCMD write with the read bit sends REGRD, or waits in TRAIN, or ends at once
  with ERR outside RUN. -/
  | preampRegisterRead (x : Accessor) (l : Side) (addr : Byte)
  /-- PREAMP_REGISTER_WRITE (R460). A QLK_REGCMD write with the write bit sends REGWR, or waits in TRAIN, or ends at
  once with ERR outside RUN. -/
  | preampRegisterWrite (x : Accessor) (l : Side) (addr : Byte) (val : BitVec 16)
  /-- HEATER_COMMAND (R161). A write of QLK_HTRCMD sends an HTLV frame for the named head, or records the level outside
  RUN. -/
  | heaterCommand (x : Accessor) (l : Side) (head : BitVec 4) (level : BitVec 12)
  /-- SAFE_COMMAND (R142). Writing 0xA55A to QLK_SAFECMD sends a SAFE frame with reason 0x00. -/
  | safeCommand (x : Accessor) (l : Side) (data : Word)
  /-- PAIR_MAP_WRITE (R154). A write of QLK_PAIRDATA sets a pairing-map row and its mirrored bits. -/
  | pairMapWrite (x : Accessor) (l : Side) (data : Word)
  /-- PREAMP_FAULT_LINE (R151). PAFLTx_N goes low beyond the glitch filter; both slots' write and assist gates are
  forced low and event 0x0302 is written. -/
  | preampFaultLine (l : Side)
  /-- PREAMP_FAULT_RELEASE (R459). PAFLTx_N is released and its persisting gate forcing ends. -/
  | preampFaultRelease (l : Side)
  /-- ASSIST_LEAD_LIMIT (R159). ASSIST_LEAD_MAX AU pass with the assist gate high and no write gate since it rose; the
  assist gate is forced low. -/
  | assistLeadLimit (t : Quad) (now : DWord)
  /-- ASSIST_TAIL_LIMIT (R159). ASSIST_TAIL_MAX AU pass after the write gate fell with the assist gate still high; the
  assist gate is forced low. -/
  | assistTailLimit (t : Quad) (now : DWord)
  /-- TASK_PASS (R163). A tick, or a held tick after the current pass ends, starts one pass of the task's descriptors in
  index order. -/
  | taskPass (r : Side) (q : Quad) (blocks : Nat) (inp : PassIn)
  /-- STALE_LIMIT_EXPIRY (R174). An OUT hold lasts longer than the stale limit; the actuator's or spindle's CEN_FLT bit
  and CEN_INTSTAT bit 0 are set. -/
  | staleLimitExpiry (r : Side) (dest : BitVec 4)
  /-- NODE_WRITE (R170). A write of P_CEN_NODE stores the selected node's value and clears its stale bit between blocks.
  -/
  | nodeWrite (c : CtxId) (data : DWord)
  /-- COEF_WRITE (R170). A write of P_CEN_COEF stores the selected coefficient's shift and value in one step, ignored
  during a ramp of that entry. -/
  | coefWrite (c : CtxId) (data : DWord)
  /-- MODE_REQUEST (R176). A P_CEN_MODE write is mirrored to the peer engine and held pending, or rejected under Table
  8.8. -/
  | modeRequest (c : CtxId) (data : DWord)
  /-- MODE_SWITCH (R176). At the first voice-coil tick 512 AU after the request both engines write MODE, PMODE and SW
  and update the park state. -/
  | modeSwitch (act : Side)
  /-- SEEK_REQUEST (R177). A P_CEN_SEEK word starts a seek in SEEK mode, is held pending behind a running seek, or is
  rejected. -/
  | seekRequest (c : CtxId) (data : DWord)
  /-- RAMP_GO (R178). CEN_RAMPCTL.GO starts a coefficient ramp, refused with ERR on a shift mismatch or overlap. -/
  | rampGo (r : Side) (data : Word)
  /-- OUTPUT_CROSSCHECK_FAULT (R182). Sixteen successive output differences against the peer exceed LIMIT and
  CEN_INTSTAT bit 9 is set. -/
  | outputCrosscheckFault (r : Side)
  /-- NODE_SYNC (R183). Setting CEN_CTL.SYNC copies all peer nodes and stale bits at the next voice-coil tick, or fails
  with SYNCFAIL. -/
  | nodeSync (r : Side)
  /-- NODE_SYNC_DONE (R183). The node copy from the peer completes and SYNC clears. -/
  | nodeSyncDone (r : Side)
  /-- TRACE_ARM (R184). CEN_TRCCFG.ARM clears and arms the selected trace buffer. -/
  | traceArm (r : Side) (data : Word)
  /-- TRACE_FORCE (R184). CEN_TRCCFG.FORCE triggers the selected trace buffer at its next append. -/
  | traceForce (r : Side) (data : Word)
  /-- SPINDLE_START (R192). START in OFF retracts any loaded actuator and then probes, brakes, detects and kicks or
  catches the spindle toward RUN. -/
  | spindleStart (x : Accessor)
  /-- SPINDLE_STOP (R195). STOP retracts any actuator not PARKED, brakes below 0.5 % and reaches OFF, cancelling a
  latched START. -/
  | spindleStop (x : Accessor)
  /-- SPINDLE_STEP (R196). STEP moves the spindle to a new target in RUN or by regenerative or shorted-winding braking.
  -/
  | spindleStep (x : Accessor)
  /-- COAST (R195). COAST turns the spindle to OFF at once when every actuator is PARKED. -/
  | coast (x : Accessor)
  /-- CLRFLT (R195). CLRFLT moves the spindle from FAULT to OFF. -/
  | clrflt (x : Accessor)
  /-- SPINDLE_CMD_IGNORED (R195). A spindle command code 6 to 15, or a command in a state where it is not accepted, is
  ignored with MTR_INTSTAT bit 3. -/
  | spindleCmdIgnored (x : Accessor) (data : Word)
  /-- PROBE_END (R192). The 4 ms back-EMF probe ends and the measured speed selects CATCH, REVBRK or IPD. -/
  | probeEnd (rev : Bool) (rpm : BitVec 16)
  /-- IPD_DONE (R192). The 12 initial-position test pulses complete and KICK begins. -/
  | ipdDone
  /-- KICK_OBSERVER_VALID (R192). The observer has been valid for 16 successive PWM periods in KICK and the spindle
  enters RUN. -/
  | kickObserverValid
  /-- KICK_TIMEOUT (R193). The observer is not valid within KICKT; the spindle brakes and retries IPD and KICK, or ends
  in FAULT after TRIES. -/
  | kickTimeout
  /-- AT_SPEED_SET (R194). The speed stays within ±1 % of target for 64 spindle ticks and AT_SPEED is set. -/
  | atSpeedSet
  /-- AT_SPEED_CLEAR (R194). The speed leaves ±2 % of target and AT_SPEED is cleared. -/
  | atSpeedClear
  /-- SPINUP_TIMEOUT (R194). AT_SPEED is not reached within SPUPTO and the spindle enters FAULT. -/
  | spinupTimeout
  /-- STEP_COMPLETE (R196). The speed comes within 1 % of the new target and the state returns to RUN. -/
  | stepComplete
  /-- BRAKE_COMPLETE (R197). Shorted-winding braking brings the speed below 0.5 % and the spindle enters OFF or
  continues its start. -/
  | brakeComplete
  /-- CHOPPER_ENGAGE (R198). VMOT rises above the ON threshold and the brake chopper turns on. -/
  | chopperEngage (vmot : BitVec 16)
  /-- CHOPPER_RELEASE (R198). VMOT falls below the OFF threshold and the brake chopper turns off. -/
  | chopperRelease (vmot : BitVec 16)
  /-- CHOPPER_SELFTEST (R199). A write of MTR_CHOPTEST.GO switches the chopper on for 20 µs to test it, refused in GEN
  and STEP. -/
  | chopperSelftest (x : Accessor)
  /-- CHOPPER_SELFTEST_DONE (R199). The chopper self-test completes; DONE and PASS are set and REGENOK is set on a pass.
  -/
  | chopperSelftestDone (vmot on off : BitVec 16)
  /-- CHOPPER_FAULT (R200). The chopper fails its rise or current check; braking becomes shorted-winding, REGENOK clears
  and GEN turns conservative. -/
  | chopperFault (rising : Bool) (vmot cur : BitVec 16)
  /-- OVERVOLTAGE_CLAMP (R201). VMOT reaches 15.0 V and all low-side FETs turn on whatever the state. -/
  | overvoltageClamp (vmot : BitVec 16)
  /-- CLAMP_RELEASE (R201). VMOT falls below 14.5 V after the clamp; the spindle goes to BRAKE and GEN ends. -/
  | clampRelease (vmot : BitVec 16)
  /-- OVERCURRENT_TRIP (R202). A phase current above 6.0 A turns every FET off for the PWM period; eight successive
  trips put the spindle in FAULT. -/
  | overcurrentTrip (succ : Bool) (cur : BitVec 16)
  /-- POWER_LOSS (R203). VMOT below PFTH for 5 µs or PFAIL_N low for 2 µs opens the isolation FET and enters GEN, or
  only opens the FET in OFF or FAULT. -/
  | powerLoss (pfail : Bool) (vmot : BitVec 16)
  /-- ISOLATION_FET_CLOSE (R203). VMOT has stayed above 10.8 V for 1 ms with PFAIL_N high and the power die closes the
  isolation FET. -/
  | isolationFetClose (vmot : BitVec 16)
  /-- GEN_LOW_VMOT_RETRACT (R206). In GEN, VMOT below 8.5 V for 10 µs or speed below 60 % starts a retract of every
  actuator not PARKED. -/
  | genLowVmotRetract (vmot : BitVec 16)
  /-- VMOT_COLLAPSE (R206). VMOT falls below 5.0 V and the power die turns all FETs off so the spindle coasts. -/
  | vmotCollapse (vmot : BitVec 16)
  /-- POWER_RETURN (R207). PFAIL_N has been high for 10 ms in GEN with no retract started; after the seal the FET closes
  and the spindle returns to RUN. -/
  | powerReturn
  /-- RETRACT_COMMAND (R209). A write of MTR_RETCMD starts a back-EMF retract of the named actuators. -/
  | retractCommand (x : Accessor) (data : Word)
  /-- RETRACT_DONE (R209). A retract ends by ramp detection and the actuator becomes PARKED. -/
  | retractDone (act : Side) (emf cur : BitVec 16)
  /-- RETRACT_TIMEOUT (R209). A retract is still running after RETT; coil current goes to 0 and the actuator becomes
  UNKNOWN. -/
  | retractTimeout (act : Side) (ms : BitVec 16)
  /-- POWER_DIE_THERMAL_TRIP (R211). A power-die junction above 125 °C is handled as a heartbeat loss. -/
  | powerDieThermalTrip
  /-- CURRENT_SENSE_SPARE (R190). MTR_ISENSE.GO makes the spare shunt channel stand in for a channel at a PWM period
  centre. -/
  | currentSenseSpare (x : Accessor) (ch : BitVec 2)
  /-- CALIBRATION_START (R212). The runner starts a calibration descriptor on request or at its PERIOD, or refuses it
  with a REASON code. -/
  | calibrationStart (r : Side) (addr : BitVec 48) (t : Quad) (request : Bool)
  /-- CALIBRATION_RESULT (R216). A measured result is accepted or rejected against LO, HI and MAXDELTA and recorded in
  the descriptor. -/
  | calibrationResult (addr : BitVec 48) (res given : Word) (pairs : List (BitVec 12))
  /-- CALIBRATION_APPLY_STEP (R217). One apply step moves the value in use toward the accepted result by at most RATE.
  -/
  | calibrationApplyStep (addr : BitVec 48)
  /-- CALIBRATION_ABORT (R218). A fence, entry to GEN or STOPPING of the target's domain aborts a running calibration
  and returns its covers. -/
  | calibrationAbort (addr : BitVec 48)
  /-- VC_CAL_WINDOW (R222). MON_VCCAL.GO opens a voice-coil current-sense offset window of WIN µs. -/
  | vcCalWindow (x : Accessor) (data : Word)
  /-- VC_CAL_DONE (R222). The voice-coil calibration window ends, or a retract or GEN ends it early and discards the
  measurement. -/
  | vcCalDone (act : Side) (ofs : BitVec 12) (us : BitVec 8)
  /-- THERMAL_WARNING (R225). A logic-die sensor passes MON_TWARN.TH, sets MON_INTSTAT bit 0 and writes event 0x0420. -/
  | thermalWarning (n : BitVec 4) (t : BitVec 16)
  /-- THERMAL_TRIP (R226). A logic-die sensor at 125 °C for 10 µs drives every gate low, asserts THERMTRIP_N and enters
  the thermal-trip reset. -/
  | thermalTrip (n : BitVec 4) (t : BitVec 16)
  /-- THERMAL_TRIP_RELEASE (R226). Every logic-die sensor reads below 110 °C and THERMTRIP_N and the reset are released.
  -/
  | thermalTripRelease (temps : List (BitVec 16))
  /-- VOLTAGE_FAULT (R227). A voltage monitor is beyond its limit for 16 successive samples and its MON_VUV or MON_VOV
  bit is set. -/
  | voltageFault (n : BitVec 5) (mv : BitVec 16)
  /-- AVS_UPDATE (R228). The adaptive VCORE request is recomputed from the ring oscillators and sensors within its rise
  and fall limits. -/
  | avsUpdate (rosc : List (BitVec 16)) (ms : Bool)
  /-- AVS_CLAMP (R228). The VCORE request is held at a clamp for 1 s; MON_INTSTAT bit 3 is set and event 0x0422 is
  written. -/
  | avsClamp
  /-- POWER_DIE_SENSOR_READ (R224). Every 100 µs the power-die sensors are read over the die-to-die link or marked
  invalid. -/
  | powerDieSensorRead (t0 t1 t2 t3 : BitVec 16)
  /-- STRIPE_BUFFER_ACQUIRE (R235). A read of P_STE_BUFACQ returns the lowest FREE buffer in SEAL mode and binds a
  buffer credit, or is refused. -/
  | stripeBufferAcquire (c : CtxId) (reg : BitVec 6)
  /-- STRIPE_BUFFER_RELEASE (R240). A write of P_STE_BUFREL frees a buffer, deferred while a sector transfer reads it.
  -/
  | stripeBufferRelease (c : CtxId) (data : DWord)
  /-- CHUNK_MOVE (R236). A P_STE_MOVE word queues a landing of window sectors into a buffer. -/
  | chunkMove (c : CtxId) (w : DWord)
  /-- SECTOR_LANDING (R236). A queued sector lands and accumulates into P and Q, or into A and B in RECON or SCRUB,
  marking poison where present. -/
  | sectorLanding (r : Side)
  /-- RECONSTRUCTION_REQUEST (R238). A P_STE_RECON word turns an empty SEAL buffer into RECON for one or two erased
  indices. -/
  | reconstructionRequest (c : CtxId) (w : DWord)
  /-- SCRUB_CHECK (R239). A P_STE_SCRUB starts a parity check of one stripe in buffer 41. -/
  | scrubCheck (c : CtxId) (data : DWord)
  /-- SCRUB_RESULT_POP (R239). A read of P_STE_SCRUBRES or STE_SCRUBRES_LO pops a scrub result, or returns 0 when the
  FIFO is empty. -/
  | scrubResultPop (c : CtxId) (reg : BitVec 6)
  /-- ZTB_WINDOW_WRITE (R249). A block-bus write to the Zone Table window is applied to a FREE entry or word 3, binding
  the entry when its high half makes USE nonzero. -/
  | ztbWindowWrite (x : Accessor) (off : BitVec 22) (data : Word)
  /-- ZTB_STATE (R250). Zone Table update STATE sets a new state when the current one equals the expected. -/
  | ztbState (c : CtxId) (w : DWord)
  /-- ZTB_WP (R250). Zone Table update WP raises the stripes-recorded pointer. -/
  | ztbWp (c : CtxId) (w : DWord)
  /-- ZTB_HWP (R250). Zone Table update HWP raises the host write pointer, setting FULL at capacity for zones. -/
  | ztbHwp (c : CtxId) (w : DWord)
  /-- ZTB_STGADD (R250). Zone Table update STGADD adds a signed delta to STGCNT within range. -/
  | ztbStgadd (c : CtxId) (w : DWord)
  /-- ZTB_RESET (R250). Zone Table update RESET raises WGEN and clears WP and HWP to EMPTY when STGCNT is 0. -/
  | ztbReset (c : CtxId) (w : DWord)
  /-- ZTB_DEGSET (R250). Zone Table update DEGSET sets DEG bits of a bound entry's members. -/
  | ztbDegset (c : CtxId) (w : DWord)
  /-- ZTB_FREE (R250). Zone Table update FREE unbinds an EMPTY entry with STGCNT 0. -/
  | ztbFree (c : CtxId) (w : DWord)
  /-- ZTB_UPDATE_REFUSED (R250). A Zone Table update with an unlisted code is refused with reason 5 and recorded in
  ZTB_LASTREF. -/
  | ztbUpdateRefused (c : CtxId) (w : DWord)
  /-- ZONE_SCAN (R249). ZTB_SCAN.GO searches upward for the first entry matching USE and optionally ACT. -/
  | zoneScan (x : Accessor) (data : Word)
  /-- ZONE_SCAN_DONE (R249). The Zone Table search completes and ZTB_SCANRES becomes valid. -/
  | zoneScanDone
  /-- MEMBER_STATE_CHANGE (R255). A failure trigger or diagnosis moves a member between ONLINE, SUSPECT, FAILED and
  RETIRED and writes event 0x0501. -/
  | memberStateChange (act : Side) (h trig : BitVec 4) (n : Nat)
  /-- REBUILD_BAND_GROUP (R260). Rebuild handles the next affected band group by its path in the order of Table 12.3. -/
  | rebuildBandGroup (act : Side) (call : Option (Nat × List Nat))
  /-- MIGRATION_CUTOVER (R261). A single Cairn record binds a migrated zone to its new band group. -/
  | migrationCutover (act : Side)
  /-- REBUILD_WAIT (R265). Free band groups fall to REB_FREEMIN and rebuild stops with event 0x0505 until the free count
  rises. -/
  | rebuildWait (act : Side)
  /-- REBUILD_CHECKPOINT (R267). Rebuild progress is checkpointed in Cairn every 16 stripes and at each band-group
  change. -/
  | rebuildCheckpoint (act : Side)
  /-- MEDIA_WINDOW_SHARE (R266). A window of 256 revolutions begins and rebuild is guaranteed its floor share of
  stream-revolutions. -/
  | mediaWindowShare (act : Side)
  /-- LBA_POISON (R269). A sector offset with three erasures has its LBAs poisoned, event 0x0506 written and the event
  C1h posted. -/
  | lbaPoison (n : BitVec 17) (stripe off : Nat) (er conv : List Nat)
  /-- GENERATION_SWITCH (R272). The last old-generation band group is freed or rebound and a Cairn record sets G_C to
  G_T, retiring unnamed members. -/
  | generationSwitch (act : Side)
  /-- ACTUATOR_LOSS (R274). An actuator is lost; it is parked if possible, its zones go OFFLINE and its window contents
  go to the other actuator's staging. -/
  | actuatorLoss (act : Side) (cause : Nat)
  /-- SCRUB_STRIPE (R276). Background scrub reads one stripe and acts on its outcome by Table 12.4. -/
  | scrubStripe (act : Side) (out m : BitVec 4) (gen bitmap : Word) (off : Nat) (er conv : List Nat)
  /-- SCRUB_PASS_LATE (R275). A scrub pass runs more than 25 % past its period and event 0x0509 is written. -/
  | scrubPassLate (act : Side) (days : Nat)
  /-- CAIRN_APPEND (R284). P_CRN_APPEND assigns the next JSEQ, writes the staged record to both banks, commits it and
  completes, or is refused by the reserve rule. -/
  | cairnAppend (c : CtxId)
  /-- REPLAY (R289). At power-on the K context replays the Cairn in the order of Table 13.4, rebuilding the Zone Table
  and window. -/
  | replay (r : Side) (img : ImageIn)
  /-- CAIRN_BANK_LOSS (R302). A Cairn bank is lost and appends write the surviving bank only, with event 0x0514. -/
  | cairnBankLoss (r : Side)
  /-- CAIRN_RESYNC (R302). CRN_CTL.RESYNC copies the peer bank into the own bank. -/
  | cairnResync (x : Accessor)
  /-- CAIRN_RESYNC_DONE (R302). The bank copy ends and CRN_INTSTAT bit 7 is set. -/
  | cairnResyncDone (r : Side)
  /-- WINDOW_ADMIT (R296). A read of P_LDG_WINDOW grants window bytes when the energy ledger, cap and actuator limit
  allow, otherwise the context waits on line 9. -/
  | windowAdmit (c : CtxId) (reg : BitVec 6)
  /-- EMERGENCY_FLUSH (R298). On entering GEN each actuator's window sectors are written in fixed order to the EMERGENCY
  band groups and a FLUSH record follows. -/
  | emergencyFlush (act : Side) (n : Nat)
  /-- DEFERRED_ERROR (R301). A window piece that cannot reach the medium becomes a deferred error with a DEFER record
  and event 0x0515. -/
  | deferredError (asn : DWord) (lba cause : Nat)
  /-- PCIE_LINK_DOWN (R307). A PCIe link-down resets the controllers of the port. -/
  | pcieLinkDown (p : Side)
  /-- HOT_RESET (R307). A hot reset received from the link resets all functions of the port. -/
  | hotReset (p : Side)
  /-- PERST (R307). PERSTx_N assertion resets the port block, its lanes and controllers. -/
  | perst (p : Side)
  /-- FLR (R307). A Function Level Reset resets one function's controller within 100 ms. -/
  | flr (p : Side) (f : BitVec 6)
  /-- POISONED_TLP (R307). A poisoned TLP with write data completes its command with Data Transfer Error and is not
  admitted. -/
  | poisonedTlp (p : Side) (n : Nat)
  /-- RETRAIN (R304). HPT_LINKCTL retrain bit restarts link training. -/
  | retrain (x : Accessor) (p : Side) (speed width : Nat)
  /-- REEQUALIZE (R304). HPT_LINKCTL re-equalize bit re-runs lane equalization. -/
  | reequalize (x : Accessor) (p : Side)
  /-- SQ_TAIL_DOORBELL (R310). A submission-queue tail doorbell write makes commands available for fetching. -/
  | sqTailDoorbell (n q tail : Nat)
  /-- CQ_HEAD_DOORBELL (R312). A completion-queue head doorbell frees queue space and releases staged completions. -/
  | cqHeadDoorbell (n q head : Nat)
  /-- COMMAND_FETCH (R311). With a command context and Hedge entry available, the NVE fetches a command and stamps its
  admission sequence number. -/
  | commandFetch (n q : Nat) (sqe : Sqe)
  /-- HEDGE_ENTRY_GRANT (R325). A Hedge entry becomes free and a waiting command is admitted into the Hedge table. -/
  | hedgeEntryGrant (n : Nat)
  /-- HOST_COMMAND_POP (R65). A read of P_HQ_POP pops the next admitted command for this Spur. -/
  | hostCommandPop (c : CtxId) (reg : BitVec 6)
  /-- COMPLETION_POST (R312). A write of P_HQ_CPL posts a completion entry, waiting in staging while its queue is full.
  -/
  | completionPost (c : CtxId) (data : DWord)
  /-- HEDGE_LOOKUP (R330). A read of P_HDG_LOOKUP returns the overlap word for the held command from one state of the
  table. -/
  | hedgeLookup (c : CtxId) (reg : BitVec 6)
  /-- HEDGE_REMOVE (R329). A write of P_HDG_REMOVE removes a Hedge entry, refused for a FREE entry. -/
  | hedgeRemove (c : CtxId) (data : DWord)
  /-- HEDGE_UNBLOCK (R328). A blocking entry commits or is removed and line 9 is raised in each waiting context. -/
  | hedgeUnblock (e : BitVec 14)
  /-- ZONE_WRITE_CASCADE (R333). A zoned write ends without committing; younger uncommitted writes to the zone complete
  with Zone Invalid Write and the AWP returns. -/
  | zoneWriteCascade (n cause : Nat)
  /-- CONTROLLER_ENABLE (R313). CC.EN going to 1 makes the controller ready within CAP.TO. -/
  | controllerEnable (n asqs acqs : Nat) (wrr : Bool)
  /-- CONTROLLER_RESET (R397). CC.EN going from 1 to 0 resets the controller's queues and state. -/
  | controllerReset (n : Nat)
  /-- NORMAL_SHUTDOWN (R313). CC.SHN = 01b completes when the controller is idle, and for the last one after draining
  the window and compacting Cairn. -/
  | normalShutdown (n : Nat)
  /-- ABRUPT_SHUTDOWN (R313). An abrupt shutdown completes at once with the window still protected. -/
  | abruptShutdown (n : Nat)
  /-- DELETE_IO_SQ (R314). Admin command 00h deletes an I/O submission queue. -/
  | deleteIoSq (n : Nat)
  /-- CREATE_IO_SQ (R309). Admin command 01h creates an I/O submission queue. -/
  | createIoSq (n : Nat)
  /-- GET_LOG_PAGE (R314). Admin command 02h returns a standard or vendor log page. -/
  | getLogPage (n : Nat)
  /-- DELETE_IO_CQ (R314). Admin command 04h deletes an I/O completion queue. -/
  | deleteIoCq (n : Nat)
  /-- CREATE_IO_CQ (R309). Admin command 05h creates an I/O completion queue. -/
  | createIoCq (n : Nat)
  /-- IDENTIFY (R314). Admin command 06h returns the named Identify structure. -/
  | identify (n : Nat)
  /-- ABORT (R338). Admin command 08h aborts its target if ABORTREQ is set before COMMITTED, otherwise reports not
  aborted. -/
  | abort (n : Nat)
  /-- SET_FEATURES (R314). Admin command 09h sets a supported feature. -/
  | setFeatures (n : Nat) (hid : BitVec 128) (ts : BitVec 48)
  /-- GET_FEATURES (R314). Admin command 0Ah returns a supported feature. -/
  | getFeatures (n : Nat)
  /-- ASYNCHRONOUS_EVENT_REQUEST (R318). Admin command 0Ch is held until an enabled asynchronous event completes it. -/
  | asynchronousEventRequest (n : Nat)
  /-- ASYNC_EVENT_POST (R318). A vendor asynchronous event completes a held Asynchronous Event Request and is masked
  until its page is read. -/
  | asyncEventPost (n : Nat)
  /-- NAMESPACE_MANAGEMENT (R315). Admin command 0Dh creates or deletes a namespace within capacity limits. -/
  | namespaceManagement (n : Nat) (zoned : Bool) (size lbaf : Nat)
  /-- NAMESPACE_ATTACHMENT (R315). Admin command 15h attaches or detaches a namespace. -/
  | namespaceAttachment (n : Nat) (cs : List Nat)
  /-- FIRMWARE_COMMIT (R322). Admin command 10h commits a firmware image, with action 011b running the live activation.
  -/
  | firmwareCommit (n : Nat) (ok : Bool)
  /-- FIRMWARE_IMAGE_DOWNLOAD (R322). Admin command 11h downloads part of a firmware image. -/
  | firmwareImageDownload (n : Nat) (data : List Byte)
  /-- DEVICE_SELF_TEST (R314). Admin command 14h runs a short or extended self-test. -/
  | deviceSelfTest (n : Nat)
  /-- VIRTUALIZATION_MANAGEMENT (R308). Admin command 1Ch assigns queue pairs to virtual functions. -/
  | virtualizationManagement (n : Nat)
  /-- NVME_MI_SEND (R314). Admin command 1Dh carries an NVMe-MI request in band. -/
  | nvmeMiSend (n : Nat)
  /-- NVME_MI_RECEIVE (R314). Admin command 1Eh returns an NVMe-MI response in band. -/
  | nvmeMiReceive (n : Nat)
  /-- FORMAT_NVM (R320). Admin command 80h formats a namespace, with crypto erase zeroizing its key slot and resetting
  its zones. -/
  | formatNvm (n : Nat)
  /-- SECURITY_SEND (R314). Admin command 81h sends a security protocol request. -/
  | securitySend (n : Nat)
  /-- SECURITY_RECEIVE (R314). Admin command 82h returns a security protocol response. -/
  | securityReceive (n : Nat)
  /-- SANITIZE (R320). Admin command 84h runs Crypto Erase, other actions completing with Invalid Field. -/
  | sanitize (n : Nat)
  /-- INVALID_OPCODE (R314). An unsupported opcode completes with Invalid Command Opcode. -/
  | invalidOpcode (n : Nat)
  /-- FLUSH (R335). I/O command 00h completes when every older write-kind command has committed or ended. -/
  | flush (n : Nat)
  /-- WRITE (R293). I/O command 01h admits data to the window and commits it piece by piece. -/
  | write (n : Nat) (din : DataIn) (data : List (List Byte))
  /-- READ (R327). I/O command 02h returns data from the window or the medium, fixed when it leaves its last wait. -/
  | read (n : Nat) (tries : List (List ReadTry))
  /-- WRITE_ZEROES (R331). I/O command 08h writes zeros, in zoned namespaces only at the write pointer. -/
  | writeZeroes (n : Nat)
  /-- DATASET_MANAGEMENT (R325). I/O command 09h deallocates ranges span by span on conventional namespaces. -/
  | datasetManagement (n : Nat) (ranges : List (Nat × Nat))
  /-- VERIFY (R314). I/O command 0Ch runs the full ladder and PI check without a data transfer. -/
  | verify (n : Nat) (tries : List (List ReadTry))
  /-- RESERVATION_REGISTER (R340). I/O command 0Dh changes a reservation registration at its admission. -/
  | reservationRegister (n : Nat) (nrkey crkey : DWord)
  /-- RESERVATION_REPORT (R340). I/O command 0Eh returns the reservation state. -/
  | reservationReport (n : Nat)
  /-- RESERVATION_ACQUIRE (R340). I/O command 11h acquires or preempts a reservation, aborting with Preempt and Abort
  where requested. -/
  | reservationAcquire (n : Nat) (crkey prkey : DWord)
  /-- RESERVATION_RELEASE (R340). I/O command 15h releases or clears a reservation. -/
  | reservationRelease (n : Nat) (crkey : DWord)
  /-- ZONE_MANAGEMENT_SEND (R326). I/O command 79h changes zone state after older conflicting commands have left
  ADMITTED. -/
  | zoneManagementSend (n : Nat)
  /-- ZONE_MANAGEMENT_RECEIVE (R314). I/O command 7Ah returns zone descriptors. -/
  | zoneManagementReceive (n : Nat)
  /-- ZONE_APPEND (R332). I/O command 7Dh is assigned its LBAs at the AWP on admission and returns the first LBA. -/
  | zoneAppend (n : Nat) (din : DataIn) (data : List (List Byte))
  /-- NVME_MI_BASIC_COMMAND (R314). An SMBus NVMe-MI basic management command is answered at address 0x6A. -/
  | nvmeMiBasicCommand (addr : BitVec 7)
  /-- GET_VERSION (R321). SPDM GET_VERSION returns the supported versions. -/
  | getVersion
  /-- GET_CAPABILITIES (R321). SPDM GET_CAPABILITIES returns the device capabilities. -/
  | getCapabilities
  /-- NEGOTIATE_ALGORITHMS (R321). SPDM NEGOTIATE_ALGORITHMS selects P-384 and SHA-384. -/
  | negotiateAlgorithms (p384 sha384 : Bool)
  /-- GET_DIGESTS (R321). SPDM GET_DIGESTS returns certificate chain digests. -/
  | getDigests
  /-- GET_CERTIFICATE (R389). SPDM GET_CERTIFICATE returns the root, DeviceID and alias chain. -/
  | getCertificate (slot : BitVec 4)
  /-- CHALLENGE (R395). SPDM CHALLENGE is signed with the current alias key, or answered Busy during a span. -/
  | challenge (nonce : BitVec 256)
  /-- GET_MEASUREMENTS (R395). SPDM GET_MEASUREMENTS returns the measurement indices, or Busy during a span. -/
  | getMeasurements (idx : Byte)
  /-- KEY_EXCHANGE (R321). SPDM KEY_EXCHANGE receives ERROR UnsupportedRequest. -/
  | keyExchange
  /-- ASN_WRITE (R311). A write of NVE_ASN_HI sets the next ASN only while fetching is off and the value rises. -/
  | asnWrite (x : Accessor) (data : Word)
  /-- ASN_LIMIT_WRITE (R311). A write of NVE_ASNLIM_HI applies a new ASN limit, ignoring a lower one. -/
  | asnLimitWrite (x : Accessor) (data : Word)
  /-- QUEUE_ALLOCATION_WRITE (R308). A write of NVE_QALLOC sets a controller's I/O queue pairs, ignored if the total or
  CC.EN forbids it. -/
  | queueAllocationWrite (x : Accessor) (data : Word)
  /-- NAMESPACE_CONFIG_WRITE (R290). A write of NVE_NSCFG sets namespace readiness and format, ignored for format or key
  changes while ready. -/
  | namespaceConfigWrite (x : Accessor) (data : Word)
  /-- CREDIT_ACQUIRE (R346). A read of P_LDG_ACQ grants the staged amount whole and returns a lease, or returns lease 0
  and waits. -/
  | creditAcquire (c : CtxId) (reg : BitVec 6)
  /-- CREDIT_RELEASE (R347). A write of P_LDG_REL releases an amount from a lease, refused for a foreign or invalid
  lease. -/
  | creditRelease (c : CtxId) (data : DWord)
  /-- MEDIA_RESERVE (R346). A read of P_LDG_MEDIA reserves a stripe and returns its media token, or 0. -/
  | mediaReserve (c : CtxId) (reg : BitVec 6)
  /-- CREDIT_AVAILABLE (R348). A waited amount becomes grantable by drain-class order and line 9 is raised in the
  waiting context. -/
  | creditAvailable (c : CtxId)
  /-- LEDGER_AUDIT (R349). Every audit period the ledger checks each pool's counts and leases and corrects the free
  count when AUDFIX is 1. -/
  | ledgerAudit
  /-- TAKEOVER (R356). After a fence the survivor takes the leases, flushes AEQs, drives outputs, adopts contexts and
  serves all queues within 40 µs. -/
  | takeover (r : Side) (t6 : BitVec 16) (t8 : BitVec 16)
  /-- SWITCH (R360). RLG_CMD SWITCH gives all of a Ridge's work to the peer without forcing gates, or is abandoned on an
  IMGTAG difference. -/
  | switch (r : Side)
  /-- HANDBACK (R360). RLG_CMD HANDBACK gives the named actuator work to the peer. -/
  | handback (r : Side) (work : BitVec 2)
  /-- REJOIN (R359). RLG_CMD REJOIN resyncs Cairn, syncs control-engine nodes and checks IMGTAG to put a STANDBY Ridge
  in service. -/
  | rejoin (r : Side) (syncOk : Bool)
  /-- TEST_FENCE (R353). RLG_CMD test fence fences a Ridge with cause 6 while DBGEN is 1. -/
  | testFence (x : Accessor)
  /-- LEDGER_CMD_IGNORED (R353). An unlisted RLG_CMD code is ignored and sets RLG_INTSTAT bit 5. -/
  | ledgerCmdIgnored (x : Accessor) (data : Word)
  /-- SWITCH_TIMEOUT (R360). A giving context has not stopped within SWTO and is stopped where it stands and adopted
  from its last snapshot. -/
  | switchTimeout (c : CtxId)
  /-- LAST_RIDGE_FENCE (R363). The last Ridge in service is fenced; gates go low, heartbeats stop, DRAM enters
  self-refresh and event 0x0015 is written. -/
  | lastRidgeFence (r : Side) (cause : Nat)
  /-- RIDGE_SELFTEST_DONE (R398). A Ridge finishes its self-test after reset and enters STANDBY, issuing REJOIN when
  AUTOREJOIN is 1. -/
  | ridgeSelftestDone (r : Side) (syncOk : Bool)
  /-- MEMORY_SCRUB_STEP (R370). A scrubber reads its next word, writes back corrections or poison, and advances at the
  pace of its pass period. -/
  | memoryScrubStep (m : MemRef) (es : List Flips) (stored last : Bool) (part : Nat)
  /-- BUCKET_LEAK (R371). Every LEAK period a memory's leaky bucket loses one count. -/
  | bucketLeak (m : MemRef)
  /-- DRAM_PARTIAL_WRITE (R368). A write of less than a DRAM line is a read-modify-write that holds the line until
  complete. -/
  | dramPartialWrite (x : Side) (addr : BitVec 48) (data : List Byte) (es : List Flips)
  /-- EVENT_POST (R379). P_EVR_POST posts a staged event record, opening or continuing a continuation group. -/
  | eventPost (c : CtxId) (rom : Bool)
  /-- GROUP_EXPIRY (R379). An open continuation group is not completed within 20 µs and is discarded whole. -/
  | groupExpiry (c : CtxId)
  /-- TOKEN_REFILL (R381). A rate-limit bucket gains a token each PERIOD, writing a suppressed summary when it has
  suppressions. -/
  | tokenRefill (bucket : BitVec 11)
  /-- RECORD_WRITE (R384). The EVR writes one record into its ring line in both banks in three steps. -/
  | recordWrite
  /-- OT_CHECKPOINT (R375). OTCKPT minutes pass with no record and the EVR writes an OT checkpoint record. -/
  | otCheckpoint
  /-- RING_SCAN (R375). After power-on reset the EVR scans both banks and continues SEQ, OT and PCC from the newest
  valid record. -/
  | ringScan
  /-- CALENDAR_SET (R377). A write of EVR_CALSET_HI applies a new calendar value and writes TIMESTAMP_SET or CLOCK_STEP.
  -/
  | calendarSet (data : Word)
  /-- EVR_OT_LATCH (R439). A read of EVR_OT_LO returns OT bits [31:0] and latches the whole OT for EVR_OT_HI. -/
  | evrOtLatch (x : Accessor)
  /-- SEAL_SIGN (R391). After a SEAL the EVR writes H, has CRY sign it with the alias key and writes SEAL_SIG, or sets
  the signing-failed bit. -/
  | sealSign (ok : Bool)
  /-- HASH (R396). CRY command 0x1 writes the SHA-384 of LEN source bytes to DST. -/
  | hash (x : Accessor)
  /-- VERIFY_SIGNATURE (R396). CRY command 0x2 verifies a P-384 signature and reports the result in bit 0. -/
  | verifySignature (x : Accessor)
  /-- DRBG (R396). CRY command 0x3 writes LEN random bytes to DST. -/
  | drbg (x : Accessor)
  /-- DERIVE (R389). CRY command 0x4, from ROM only, derives CDI_1, the alias key and its certificate. -/
  | derive (x : Accessor)
  /-- SIGN (R396). CRY command 0x5, from ROM only, signs a 48-byte digest. -/
  | sign (x : Accessor)
  /-- KEYLOAD (R320). CRY command 0x6 loads a key slot and zeroes the source, refused while the slot is in use. -/
  | keyload (x : Accessor) (slot : BitVec 6)
  /-- ZEROIZE (R320). CRY command 0x7 zeroizes a key slot, refused while the slot is in use. -/
  | zeroize (x : Accessor) (slot : BitVec 6)
  /-- DEVPUB (R396). CRY command 0x8 writes the DeviceID public key to DST. -/
  | devpub (x : Accessor)
  /-- CRYPTO_CMD_IGNORED (R396). A CRY command while busy or with an unlisted code is ignored with error 1. -/
  | cryptoCmdIgnored (x : Accessor) (data : Word)
  /-- CRYPTO_DONE (R396). A CRY operation completes and sets its done or error status. -/
  | cryptoDone
  /-- DRBG_READ (R396). A read of CRY_DRBG returns and consumes 32 fresh random bits. -/
  | drbgRead (x : Accessor)
  /-- POWER_ON_RESET (R397). A rail group below 90 % for 1 µs resets the whole logic die and records the fallen groups.
  -/
  | powerOnReset (groups : BitVec 4)
  /-- RESET_N (R401). RESET_N low for 1 µs causes a FULL reset, latched while the spindle is in GEN. -/
  | resetN
  /-- VMOT_UNDERVOLTAGE_RESET (R397). VMOT below 5.0 V for 10 µs causes a FULL reset. -/
  | vmotUndervoltageReset
  /-- SOFTWARE_FULL_RESET (R401). Writing 0xA5 to RCP_SWRST with RCP_CTL[4] set requests a FULL reset, latched in GEN.
  -/
  | softwareFullReset (x : Accessor) (data : Word)
  /-- SOFTWARE_BLOCK_RESET (R398). RCP_BLKRST GO resets one block through its isolation wrapper. -/
  | softwareBlockReset (x : Accessor) (data : Word)
  /-- BLOCK_RESET_DONE (R398). A block reset completes and RCP_INTSTAT bit 0 is set. -/
  | blockResetDone
  /-- BLOCK_WATCHDOG (R400). A block holds a transfer longer than its period and is reset, writing event 0x0021. -/
  | blockWatchdog (r : Side) (blk : BitVec 9)
  /-- RIDGE_WATCHDOG (R400). A Ridge watchdog expires; the Ridge is fenced with cause 4 and reset. -/
  | ridgeWatchdog (r : Side)
  /-- WATCHDOG_KICK (R400). A write of RCP_RWDKICK restarts that Ridge's watchdog. -/
  | watchdogKick (x : Accessor) (r : Side)
  /-- RIDGE_RESET (R398). A RIDGE-scope reset clears one Ridge's blocks and starts its self-test. -/
  | ridgeReset (r : Side)
  /-- FULL_RESET (R399). A FULL reset holds DRAM in self-refresh and clears the logic die except the retained items. -/
  | fullReset
  /-- RESET_RELEASE (R402). After a FULL or POWER-ON reset the device re-links the power die, loads fuses, releases the
  Saddle and Ridges and starts the boot ROM. -/
  | resetRelease (straps : Straps) (fuse0 fuse1 : List Word)
  /-- NOXTAL (R402). XTAL_IN shows no oscillation within 10 ms of release and the device stays at fuse load with NOXTAL
  set. -/
  | noxtal
  /-- MEASURED_BOOT (R387). The boot ROM measures and verifies the boot chain and seals the span. -/
  | measuredBoot (r : Side) (b : BootIn)
  /-- DOMAIN_ON (R408). An RCP_PDCTL ON request starts a power domain, refused by parent, state or power-state rules. -/
  | domainOn (x : Accessor)
  /-- DOMAIN_OFF (R408). An RCP_PDCTL OFF request stops a power domain. -/
  | domainOff (x : Accessor)
  /-- DOMAIN_RET (R408). An RCP_PDCTL RET request stops a domain with retention, or as OFF if not retainable. -/
  | domainRet (x : Accessor)
  /-- DOMAIN_STARTED (R408). A starting domain reaches ON and any latched disable is acted on. -/
  | domainStarted (d : BitVec 7)
  /-- DOMAIN_STOPPED (R408). A stopping domain's wrapper and deferrals clear and it reaches OFF or RET. -/
  | domainStopped (d : BitVec 7)
  /-- POWER_STATE_SELECT (R409). A write of RCP_PSTATE selects the device power state, refused while an excluded domain
  is not off. -/
  | powerStateSelect (x : Accessor) (v : BitVec 3)
  /-- WEDGE_COUNT_MISMATCH (R412). In WSC mode the wedge count of one revolution differs from N and the actuator is
  parked and treated as lost. -/
  | wedgeCountMismatch (x : Side) (count : Nat)
  /-- LEGACY_WINDOW_WRITE (R423). A write through the legacy formatter window changes the viewed formatter field at
  once. -/
  | legacyWindowWrite (x : Accessor) (addr : Word) (data : Word)
  /-- GPIO_EDGE (R436). A filtered edge on a GPIO input sets its bit in GPD_INTSTAT according to EDGE. -/
  | gpioEdge (n : BitVec 4) (rising : Bool)
  /-- PWRDIS_RISE (R434). A rising edge on PWRDIS sets its bit and the ROM library runs a normal shutdown. -/
  | pwrdisRise
  /-- PWRDIS_FALL (R434). A falling edge on PWRDIS sets its bit and the ROM library starts the drive again. -/
  | pwrdisFall
  /-- JTAG_INSTRUCTION (R437). A TAP instruction runs BYPASS or IDCODE, or boundary scan while JTAG is 1. -/
  | jtagInstruction (ir : Nat)
  /-- REGISTER_WRITE (R440). A block-bus or port write to a register without its own row stores the field by its access
  type, or completes with an error response. -/
  | registerWrite (x : Accessor) (addr : Word) (data : Word)
  /-- POWER_DIE_POWER_ON (R187). The power die comes up from VMOT and V5 and sets every actuator's park state to
  UNKNOWN. -/
  | powerDiePowerOn
  /-- V5_UNDERVOLTAGE (R454). V5 falls below 4.5 V and the power die sets MTR_PDFLT bit 7. -/
  | v5Undervoltage (v5 : BitVec 16)
  /-- CURRENT_SENSE_SPARE_RETURN (R190). At a PWM period centre the spare current-sense channel hands back the covered
  channel and SPAREFOR returns to 15. -/
  | currentSenseSpareReturn
  /-- UPSTREAM_FRAME_FAILURE (R141). An upstream Quaxlink frame fails its SYNC or CRC check; it is not acted on, it is
  counted in QLK_ERRCNT, and the NAK is set two slots later. -/
  | upstreamFrameFailure (l : Side) (w : BitVec 40)
  /-- PERST_RELEASE (R306). PERSTx_N is released and the port leaves reset, answering configuration requests with Retry
  Status until CFGRDY is set. -/
  | perstRelease (p : Side) (speed width : Nat)
  /-- SMBUS_TIMEOUT (R456). SMB_CLK has been low for 25 ms to 35 ms and the device releases the SMBus. -/
  | smbusTimeout
  /-- HOST_PUSH_LENGTH (R403). Under BOOTSRC 1 or 2 the host writes the upper half of the image length at BAR0 +
  0x7F_FFF8, which starts verification of the pushed slot image. -/
  | hostPushLength (p : Side) (len : Word)
  /-- UART_IMAGE_RECEIVED (R403). Under BOOTSRC 3 or in recovery-only mode, an XMODEM-1K transfer of a slot image over
  the UART completes and the image is verified as a NOR slot. -/
  | uartImageReceived (len : Word)
  /-- ACT_N_BLINK (R436). In ACT_N modes 2 or 3 the BLINK half-period expires and ACT_N toggles. -/
  | actNBlink
deriving DecidableEq, Repr

end Sys2Proof
end

