-- ==== Sys2Proof/Config.lean ====
section
/-!
DEFINITION. What the spec leaves open: uninterpreted constants with no body. A claim holds whatever they are.
-/
namespace Sys2Proof

/-- A free value of `w` bits; the step reads and advances `State.freeCtr` (DESIGN CHOICE, log 2). -/
opaque Config.freeValue (w : Nat) (n : Nat) : BitVec w

/-- A parameter word of an event record for which the spec gives no content (DESIGN CHOICE, log 5). -/
opaque Config.eventParam (code : BitVec 16) (k : Nat) (n : Nat) : Word

/-- Codes of the events that R13 and R84 write without naming a code (DESIGN CHOICE, log 5). -/
opaque Config.eventRefusedTile : BitVec 16

opaque Config.eventAngleCross : BitVec 16

opaque Config.eventOutputCross : BitVec 16

/-- The circulant shifts of the decoder ROM (R105); the spec gives none (DESIGN CHOICE, log 6). -/
opaque Config.ldpcShift (n : Nat) : BitVec 16

/-- The 3,840 parity bits that back substitution gives for the information bits (R105), and whether a circulant shift
moves the columns up or down (Table 5.4); the shifts that define them are not given (DESIGN CHOICE, log 6). -/
opaque Config.ldpcParity (info : List Bool) (k : Nat) : Bool

opaque Config.circulantUp : Bool

/-- The soft output of the 16-state detector for a sample before it is clipped (R103): of the window length, the ideal
sample and the noise-prediction condition (three taps, inverse variance) of the five most recent bits, the LLR scale,
the samples, and the a priori value of each sample's bit (DESIGN CHOICE, log 6). -/
opaque Config.soft (window : Nat) (ideal : BitVec 5 → Int) (cond : BitVec 5 → List Int × Nat) (scale : Nat)
  (smps : List Int) (prior : Int → Int) (i : Nat) : Int

/-- The extrinsic value of a codeword bit after `local` layered normalized min-sum iterations on the LLRs and the last
extrinsic values (Table 5.4, R108); the bit decided where a sum of LLRs is 0 (DESIGN CHOICE, log 6). -/
opaque Config.layered (loc : Nat) (llr ext : List Int) (j : Nat) : Int

opaque Config.llrTie (j : Nat) : Bool

/-- One adaptation step of the gain, baseline, asymmetry and fine timing loop on a sample: of the bank words that hold
the loop gains, acquisition or tracking, and the loop's value (R100, R102, DESIGN CHOICE, log 116). -/
opaque Config.loopStep (loop : Nat) (gains : List Word) (acquire : Bool) (value : Int) (y : Int) : Int

/-- The seek generator decelerates, where v·v or 2·a·r does not fit the 48-bit arithmetic of R177 (DESIGN CHOICE,
DESIGN CHOICE, log 62). -/
opaque Config.seekBrakes (a r v : Nat) : Bool

/-- The guide amplitude for a gain code and a signal, in the units of STT_GQTH (R113, DESIGN CHOICE, log 117). -/
opaque Config.guideAmp (gain : Int) (signal : Nat) : BitVec 16

/-- A scaled PES that falls between two numbers is rounded up (R112, DESIGN CHOICE, log 13). -/
opaque Config.pesScaleUp (n : Int) : Bool

/-- The trim of a monitor in the fuse words 41 to 200, whose layout the spec does not give (DESIGN CHOICE, log 14). -/
opaque Config.fusedTrim (n : Nat) (words : List Word) : Byte

/-- Cryptographic primitives, named and not defined by the spec (DESIGN CHOICE, log 7). -/
opaque Config.sha384 (m : List Byte) : BitVec 384

opaque Config.hmac384 (key : BitVec 384) (m : List Byte) : BitVec 384

opaque Config.ecKey (cdi : BitVec 384) : BitVec 384

opaque Config.ecPub (key : BitVec 384) : BitVec 768

opaque Config.ecSign (key : BitVec 384) (digest : BitVec 384) : BitVec 768

opaque Config.ecVerify (bytes : List Byte) : Bool

opaque Config.aliasCert (deviceKey aliasKey : BitVec 384) (digests : List Byte) : List Byte

/-- The Ehroth root and DeviceID certificates stored in NOR (R389, DESIGN CHOICE, log 7). -/
opaque Config.rootChain : List Byte

/-- The fused device secret, readable only inside CRY (R389). -/
opaque Config.uds : BitVec 384

/-- AES-256-XTS of a block with the key slot's key and the LBA as tweak (R319, DESIGN CHOICE, log 7). -/
opaque Config.aesXts (key : BitVec 512) (lba : Nat) (m : List Byte) : List Byte

/-- The inverse of `aesXts` (R319, DESIGN CHOICE, log 7). -/
opaque Config.aesXtsInv (key : BitVec 512) (lba : Nat) (m : List Byte) : List Byte

/-- The 16-bit and the 64-bit guard of a block, which the NVMe standard defines (R316, DESIGN CHOICE, log 7). -/
opaque Config.guard16 (data : List Byte) : BitVec 16

opaque Config.guard64 (data : List Byte) : BitVec 64

/-- What the body of a STAGE or MAP record says; the ROM library defines the layouts (R285, DESIGN CHOICE, log 20). -/
opaque Config.stageDelta (body : BitVec 400) : StgDelta

opaque Config.mapDelta (body : BitVec 400) : MapDelta

/-- The DNR bit of a status (type, code) for which the spec gives none (DESIGN CHOICE, log 16). -/
opaque Config.dnr (typ code : Nat) : Bool

/-- The DRAM offset of the protected window's slot array (R291, DESIGN CHOICE, log 17). -/
opaque Config.winBase : Nat

/-- The power-domain bank that holds a control-store word, a Zone Table entry (Table 19.5, DESIGN CHOICE, log 29). -/
opaque Config.cstBank (a : Nat) : Nat

opaque Config.ztbBank (n : Nat) : Nat

/-- The status and dwords that a word written to P_HQ_CPL carries; the spec gives no layout (DESIGN CHOICE, log 18). -/
opaque Config.cplStatus (w : DWord) : BitVec 15

opaque Config.cplDw0 (w : DWord) : Word

opaque Config.cplDw1 (w : DWord) : Word

/-- What one of several equals is taken of, where the spec does not say which (DESIGN CHOICE, log 8 and 22). -/
inductive Pick where
  | record
  | command
  | hedge
  | request
  | lease
  | firmware
  | member
  | staging
  | actuator
  | entry
  | band
  | engine
deriving DecidableEq, Repr

/-- The position of the one taken among those that are free, given their numbers (DESIGN CHOICE, log 8 and 22). -/
opaque Config.pick (k : Pick) (free : List Nat) : Nat

/-- The scale of inputs 0x0A and 0x0B, from a voltage in units of 1/32,767,000 mV (DESIGN CHOICE, log 134). -/
opaque Config.emfScale : Int → Word

/-- The VCORE request in mV that the fused table gives for the slowest ring oscillator and the hottest logic-die sensor
(R228; the spec does not give the table, DESIGN CHOICE, log 139). -/
opaque Config.avsVolt (fuses : List Word) (slowest : Nat) (hottest : Int) : Nat

/-- The level table entry that KIND 0x05 adjusts for a local head and METHOD, and whether it is the on level (Table
10.2; not stated, DESIGN CHOICE, log 137). -/
opaque Config.assistEntry (head method : Nat) : BitVec 8

opaque Config.assistOn (head method : Nat) : Bool

/-- The unit of a microactuator stroke result: units per track pitch (Table 10.2; not stated, DESIGN CHOICE, log 137).
-/
opaque Config.strokeUnit : Nat

/-- An exact half in the PES of R415 rounds up (DESIGN CHOICE, log 13). -/
opaque Config.pesHalfUp (a b : Nat) : Bool

/-- The Saddle half that is fenced when neither Ridge holds the spindle lease is half A (DESIGN CHOICE, log 25). -/
opaque Config.fencedHalfIsA : Bool

end Sys2Proof
end

