-- ==== Sys2Proof/Machine/Bits.lean ====
section
/-!
DEFINITION. Bit fields of a register word, saturating counters, sparse-table access. Every later file reads
and writes fields through these.
-/
namespace Sys2Proof.Machine

/-- Bits [hi:lo] of a word, as a number. -/
def fld {n : Nat} (w : BitVec n) (hi lo : Nat) : Nat :=
  (w.toNat >>> lo) % 2 ^ (hi + 1 - lo)

/-- One bit. -/
def bit {n : Nat} (w : BitVec n) (i : Nat) : Bool := w.getLsbD i

/-- The word with bits [hi:lo] replaced by `v` (the low bits of `v`). -/
def putFld {n : Nat} (w : BitVec n) (hi lo v : Nat) : BitVec n :=
  let m : BitVec n := BitVec.ofNat n ((2 ^ (hi + 1 - lo) - 1) <<< lo)
  (w &&& ~~~m) ||| (BitVec.ofNat n (v <<< lo) &&& m)

/-- A word with only bit `i` set. -/
def bitMask (n i : Nat) : BitVec n := BitVec.ofNat n (2 ^ i)

def setBit {n : Nat} (w : BitVec n) (i : Nat) : BitVec n := w ||| bitMask n i

def clrBit {n : Nat} (w : BitVec n) (i : Nat) : BitVec n := w &&& ~~~(bitMask n i)

def putBit {n : Nat} (w : BitVec n) (i : Nat) (v : Bool) : BitVec n :=
  if v then setBit w i else clrBit w i

def b2n (b : Bool) : Nat := if b then 1 else 0

/-- Field [hi:lo] raised by `k`, saturating at all ones (the counters of the block tables). -/
def bumpFld {n : Nat} (w : BitVec n) (hi lo k : Nat) : BitVec n :=
  putFld w hi lo (min (fld w hi lo + k) (2 ^ (hi + 1 - lo) - 1))

/-- A signed field. -/
def sfld {n : Nat} (w : BitVec n) (hi lo : Nat) : Int :=
  let v := fld w hi lo
  if v < 2 ^ (hi - lo) then (v : Int) else (v : Int) - 2 ^ (hi + 1 - lo)

/-- `x` narrowed to `n` bits two's complement. -/
def ofI (n : Nat) (x : Int) : BitVec n := BitVec.ofInt n x

/-- `x` held between `lo` and `hi`. -/
def clampN (lo hi x : Nat) : Nat := max lo (min hi x)

def clampI (lo hi x : Int) : Int := max lo (min hi x)

/-- `x` saturated to a signed `n`-bit number. -/
def satI (n : Nat) (x : Int) : Int := clampI (-(2 ^ (n - 1))) (2 ^ (n - 1) - 1) x

/-- A field whose 0 is treated as 1. -/
def atLeast1 (n : Nat) : Nat := if n = 0 then 1 else n

/-- Read a sparse table: the entry, or what an unlisted key reads as. -/
def sget {α : Type} (d : Nat → α) : Sparse α → Nat → α
  | [], k => d k
  | (i, v) :: t, k => if i = k then v else if k < i then d k else sget d t k

/-- Put an entry in its place, dropping the old one. -/
def sins {α : Type} (k : Nat) (v : α) : Sparse α → Sparse α
  | [] => [(k, v)]
  | (i, w) :: t => if i = k then (k, v) :: t else if k < i then (k, v) :: (i, w) :: t else (i, w) :: sins k v t

/-- Drop the entry of a key. -/
def sdel {α : Type} (k : Nat) : Sparse α → Sparse α
  | [] => []
  | (i, w) :: t => if i = k then t else if k < i then (i, w) :: t else (i, w) :: sdel k t

/-- Write a sparse table: the value an unlisted key reads as removes the entry. -/
def sput {α : Type} [DecidableEq α] (d : Nat → α) (m : Sparse α) (k : Nat) (v : α) : Sparse α :=
  if v = d k then sdel k m else sins k v m

/-- Keys at least `lo`, strictly rising, no entry equal to its default. -/
def swfFrom {α : Type} [DecidableEq α] (d : Nat → α) : Nat → Sparse α → Bool
  | _, [] => true
  | lo, (i, v) :: t => decide (lo ≤ i) && (!decide (v = d i) && swfFrom d (i + 1) t)

/-- The canonical form of a sparse table. -/
def swf {α : Type} [DecidableEq α] (d : Nat → α) (m : Sparse α) : Bool := swfFrom d 0 m

/-- What an unlisted key reads as, where it is the same value for every key. -/
def kconst {α : Type} (v : α) : Nat → α := fun _ => v

/-- Read and write with one default value. -/
def sg {α : Type} (v : α) (m : Sparse α) (k : Nat) : α := sget (kconst v) m k

def sp {α : Type} [DecidableEq α] (v : α) (m : Sparse α) (k : Nat) (x : α) : Sparse α := sput (kconst v) m k x

/-- The element at a place of a list, or a default. -/
def lget {α : Type} (d : α) : List α → Nat → α
  | [], _ => d
  | x :: _, 0 => x
  | _ :: t, n + 1 => lget d t n

/-- Replace the first element that meets a test. -/
def lmodFirst {α : Type} (p : α → Bool) (f : α → α) : List α → List α
  | [] => []
  | x :: t => if p x then f x :: t else x :: lmodFirst p f t

/-- Replace every element that meets a test. -/
def lmod {α : Type} (p : α → Bool) (f : α → α) (l : List α) : List α :=
  l.map (fun x => if p x then f x else x)

/-- The 64-bit words as bytes, little-endian (Table 3.6, P_DRM_DATA). -/
def bytesLE {n : Nat} (k : Nat) (w : BitVec n) : List Byte :=
  (List.range k).map (fun i => BitVec.ofNat 8 (w.toNat >>> (8 * i)))

/-- A number from bytes, little-endian. -/
def ofBytesLE : List Byte → Nat
  | [] => 0
  | b :: t => b.toNat + 256 * ofBytesLE t

/-- Apply a state change when a condition holds. -/
def when_ {σ : Type} (c : Bool) (f : σ → σ) (s : σ) : σ := if c then f s else s

/-- One of the free ones, none where there is none. Which one is open (DESIGN CHOICE, log 8 and 22). -/
def pickOf (k : Pick) (free : List Nat) : Option Nat := free[Config.pick k free % free.length]?

/-- `n` different ones of the free ones. -/
def pickSome (k : Pick) : Nat → List Nat → List Nat
  | 0, _ => []
  | n + 1, free =>
    match pickOf k free with
    | some x => x :: pickSome k n (free.filter (fun y => y != x))
    | none => []

end Sys2Proof.Machine
end

