-- ==== Sys2Proof/Machine/Gf.lean ====
section
/-!
DEFINITION. CRC-32C (R121; its polynomial is the standard's, PRESUMED, log 15) and GF(2^8) with polynomial 0x11D (R61, R232).
-/
namespace Sys2Proof.Machine

/-- One bit of the reflected CRC-32C. -/
def crcBit (c : Word) : Word := if bit c 0 then (c >>> 1) ^^^ 0x82F63B78#32 else c >>> 1

def crcBits : Nat → Word → Word
  | 0, c => c
  | n + 1, c => crcBits n (crcBit c)

/-- Step a CRC state over a byte. -/
def crcByte (c : Word) (b : Byte) : Word := crcBits 8 (c ^^^ b.setWidth 32)

def crcStep (c : Word) (bs : List Byte) : Word := bs.foldl crcByte c

/-- CRC-32C with initial value and final XOR 0xFFFF_FFFF (R121). -/
def crc32c (bs : List Byte) : Word := crcStep 0xFFFFFFFF#32 bs ^^^ 0xFFFFFFFF#32

/-- Twice a byte in GF(2^8). -/
def gfDouble (a : Byte) : Byte := if bit a 7 then (a <<< 1) ^^^ 0x1D#8 else a <<< 1

/-- The products of `a` with the bits of `b` from bit `i`, `n` of them. -/
def gfMulFrom : Nat → Nat → Byte → Byte → Byte
  | 0, _, _, _ => 0
  | n + 1, i, a, b => (if bit b i then a else 0) ^^^ gfMulFrom n (i + 1) (gfDouble a) b

def gfMul (a b : Byte) : Byte := gfMulFrom 8 0 a b

/-- g^n, g = 2. -/
def gfPow : Nat → Byte
  | 0 => 1
  | n + 1 => gfDouble (gfPow n)

/-- The inverse: a^254; 0 for 0. -/
def gfInv (a : Byte) : Byte :=
  let p2 := gfMul a a
  let p4 := gfMul p2 p2
  let p8 := gfMul p4 p4
  let p16 := gfMul p8 p8
  let p32 := gfMul p16 p16
  let p64 := gfMul p32 p32
  let p128 := gfMul p64 p64
  gfMul p2 (gfMul p4 (gfMul p8 (gfMul p16 (gfMul p32 (gfMul p64 p128)))))

/-- Bytes XORed; the shorter list reads as zero beyond its end. -/
def xorBytes : List Byte → List Byte → List Byte
  | [], ys => ys
  | xs, [] => xs
  | x :: xs, y :: ys => (x ^^^ y) :: xorBytes xs ys

def scaleBytes (k : Byte) (xs : List Byte) : List Byte := xs.map (gfMul k)

end Sys2Proof.Machine
end

