-- ==== Sys2Proof/Machine/RegMap.lean ====
section
/-!
DEFINITION. The register map (chapter 22): the registers of the block tables with their offsets, access masks
and reset values (Tables 2.6, 2.11, 4.5, 5.7, 5.11, 6.9, 7.9, 8.9, 9.5, 10.5, 11.8, 11.11, 13.7, 14.9, 14.11,
15.8, 16.7, 17.4, 17.5, 18.10, 18.12, 19.9, 19.10, 21.8), each under its name. A key is the block-bus address as
Ridge A sees it (R438); Ridge B's own blocks lie at 0x0100_0000 above.
-/
namespace Sys2Proof.Machine

/-- Access types of R6. -/
inductive Access where
  | ro
  | rw
  | wo
  | w1c
  | w1s
  | rs
  | rwl
deriving DecidableEq, Repr

/-- One row of a block table: first offset, elements, access, masks of its RW, W1C, W1S and RWL bits, reset. -/
structure RegRow where
  off : Nat
  n : Nat
  acc : Access
  rw : Nat
  w1c : Nat
  w1s : Nat
  rwl : Nat
  init : Nat
deriving DecidableEq, Repr

/-! ### SPU -/

def R_SPU_ID : Nat := 0x0
def R_SPU_GCTL : Nat := 0x4
def R_SPU_SEGMAX : Nat := 0x8
def R_SPU_SEGWARN : Nat := 0xc
def R_SPU_LSERR : Nat := 0x10
def R_SPU_INTSTAT : Nat := 0x14
def R_SPU_INTEN : Nat := 0x18
def R_SPU_DBGSEL : Nat := 0x1c
def R_SPU_DBGDATA_LO : Nat := 0x20
def R_SPU_DBGDATA_HI : Nat := 0x24
def R_SPU_CTL : Nat := 0x40
def R_SPU_STAT : Nat := 0x60
def R_SPU_FLT : Nat := 0x80
def R_SPU_FLTADDR : Nat := 0xa0
def R_SPU_RSTCNT : Nat := 0xc0

def rowsSPU0 : List RegRow := [
  ⟨0x0, 1, .ro, 0x0, 0x0, 0x0, 0x0, 0x960000b0⟩,
  ⟨0x4, 1, .rw, 0x11, 0x0, 0x0, 0x100, 0x1⟩,
  ⟨0x8, 1, .rw, 0xffff, 0x0, 0x0, 0x0, 0x800⟩,
  ⟨0xc, 1, .w1c, 0x0, 0xffffff, 0x0, 0x0, 0x0⟩,
  ⟨0x10, 1, .w1c, 0x0, 0x107, 0x0, 0x0, 0x0⟩,
  ⟨0x14, 1, .w1c, 0x0, 0xf, 0x0, 0x0, 0x0⟩,
  ⟨0x18, 1, .rw, 0xf, 0x0, 0x0, 0x0, 0x1⟩,
  ⟨0x1c, 1, .rw, 0x733f, 0x0, 0x0, 0x0, 0x0⟩,
  ⟨0x20, 1, .rw, 0xffffffff, 0x0, 0x0, 0x0, 0x0⟩,
  ⟨0x24, 1, .rw, 0xffffffff, 0x0, 0x0, 0x0, 0x0⟩,
  ⟨0x40, 6, .rw, 0x1fffff, 0x0, 0x0, 0x0, 0x0⟩,
  ⟨0x60, 6, .ro, 0x0, 0x0, 0x0, 0x0, 0x1⟩,
  ⟨0x80, 6, .w1c, 0x0, 0x1ff, 0x0, 0x0, 0x0⟩,
  ⟨0xa0, 6, .ro, 0x0, 0x0, 0x0, 0x0, 0x0⟩,
  ⟨0xc0, 6, .rs, 0x0, 0x0, 0x0, 0x0, 0x0⟩]

def rowsSPU : List RegRow := rowsSPU0

/-! ### CST -/

def R_CST_ID : Nat := 0x10000
def R_CST_CTL : Nat := 0x10004
def R_CST_LOCK : Nat := 0x10008
def R_CST_ERRSTAT : Nat := 0x1000c
def R_CST_ERRADDR : Nat := 0x10010
def R_CST_MATCHEN_LO : Nat := 0x10014
def R_CST_MATCHEN_HI : Nat := 0x10018
def R_CST_LDADDR : Nat := 0x10020
def R_CST_LDDATA : Nat := 0x10030
def R_CST_MATCH : Nat := 0x10100

def rowsCST0 : List RegRow := [
  ⟨0x0, 1, .ro, 0x0, 0x0, 0x0, 0x0, 0x960100b0⟩,
  ⟨0x4, 1, .rw, 0xff06, 0x0, 0x0, 0x0, 0x4⟩,
  ⟨0x8, 1, .w1s, 0x0, 0x0, 0x1, 0x0, 0x0⟩,
  ⟨0xc, 1, .w1c, 0x0, 0x1f, 0x0, 0x0, 0x0⟩,
  ⟨0x10, 1, .ro, 0x0, 0x0, 0x0, 0x0, 0x0⟩,
  ⟨0x14, 1, .rw, 0xffffffff, 0x0, 0x0, 0x0, 0x0⟩,
  ⟨0x18, 1, .rw, 0xffffffff, 0x0, 0x0, 0x0, 0x0⟩,
  ⟨0x20, 1, .rw, 0x8007ffff, 0x0, 0x0, 0x0, 0x0⟩,
  ⟨0x30, 4, .wo, 0x0, 0x0, 0x0, 0x0, 0x0⟩,
  ⟨0x100, 64, .rw, 0x3ffff, 0x0, 0x0, 0x0, 0x0⟩]

def rowsCST : List RegRow := rowsCST0

/-! ### ANG -/

def R_ANG_ID : Nat := 0x20000
def R_ANG_CTL : Nat := 0x20004
def R_ANG_STAT : Nat := 0x20008
def R_ANG_INTSTAT : Nat := 0x2000c
def R_ANG_INTEN : Nat := 0x20010
def R_ANG_AC_LO : Nat := 0x20014
def R_ANG_AC_HI : Nat := 0x20018
def R_ANG_RATE : Nat := 0x2001c
def R_ANG_HOCFG : Nat := 0x20020
def R_ANG_FLYCFG : Nat := 0x20024
def R_ANG_LOCKCFG : Nat := 0x20028
def R_ANG_XCHK : Nat := 0x2002c
def R_ANG_IDXERR : Nat := 0x20030
def R_ANG_OBSERR : Nat := 0x20034
def R_ANG_LATEMAX : Nat := 0x20038
def R_ANG_TICKCFG : Nat := 0x2003c
def R_ANG_SKEWSEL : Nat := 0x20040
def R_ANG_SKEWDATA : Nat := 0x20044
def R_ANG_CMPHIT : Nat := 0x20048
def R_ANG_CMPARMED : Nat := 0x2004c
def R_ANG_AEQCFG : Nat := 0x20060
def R_ANG_AEQSTAT : Nat := 0x20070
def R_ANG_AEQCNT : Nat := 0x20080

def rowsANG0 : List RegRow := [
  ⟨0x0, 1, .ro, 0x0, 0x0, 0x0, 0x0, 0x960200b0⟩,
  ⟨0x4, 1, .rw, 0x7, 0x0, 0x0, 0x0, 0x1⟩,
  ⟨0x8, 1, .ro, 0x0, 0x0, 0x0, 0x0, 0x0⟩,
  ⟨0xc, 1, .w1c, 0x0, 0x7f, 0x0, 0x0, 0x0⟩,
  ⟨0x10, 1, .rw, 0x7f, 0x0, 0x0, 0x0, 0x7e⟩,
  ⟨0x14, 1, .rs, 0x0, 0x0, 0x0, 0x0, 0x0⟩,
  ⟨0x18, 1, .ro, 0x0, 0x0, 0x0, 0x0, 0x0⟩,
  ⟨0x1c, 1, .ro, 0x0, 0x0, 0x0, 0x0, 0x0⟩,
  ⟨0x20, 1, .rw, 0xffffff0f, 0x0, 0x0, 0x0, 0x10001⟩,
  ⟨0x24, 1, .rw, 0xffffffff, 0x0, 0x0, 0x0, 0x10001003⟩,
  ⟨0x28, 1, .rw, 0xffffffff, 0x0, 0x0, 0x0, 0x640014⟩,
  ⟨0x2c, 1, .rw, 0xff, 0x0, 0x0, 0x0, 0x8⟩,
  ⟨0x30, 1, .rs, 0x0, 0x0, 0x0, 0x0, 0x0⟩,
  ⟨0x34, 1, .ro, 0x0, 0x0, 0x0, 0x0, 0x0⟩,
  ⟨0x38, 1, .rw, 0xfff, 0x0, 0x0, 0x0, 0x40⟩,
  ⟨0x3c, 1, .rw, 0xf, 0x0, 0x0, 0x0, 0xf⟩,
  ⟨0x40, 1, .rw, 0x1f, 0x0, 0x0, 0x0, 0x0⟩,
  ⟨0x44, 1, .rw, 0xffff, 0x0, 0x0, 0x0, 0x0⟩,
  ⟨0x48, 1, .ro, 0x0, 0x0, 0x0, 0x0, 0x0⟩,
  ⟨0x4c, 1, .ro, 0x0, 0x0, 0x0, 0x0, 0x0⟩]

def rowsANG1 : List RegRow := [
  ⟨0x60, 4, .rw, 0xf31f7ff, 0x0, 0x0, 0x0, 0x20⟩,
  ⟨0x70, 4, .ro, 0x0, 0x0, 0x0, 0x0, 0x0⟩,
  ⟨0x80, 4, .rs, 0x0, 0x0, 0x0, 0x0, 0x0⟩]

def rowsANG : List RegRow := rowsANG0 ++ rowsANG1

/-! ### STT -/

def R_STT_ID : Nat := 0x2000000
def R_STT_CHN_CTL : Nat := 0x2000004
def R_STT_CHN_STAT : Nat := 0x2000008
def R_STT_CHN_INTSTAT : Nat := 0x200000c
def R_STT_CHN_INTEN : Nat := 0x2000010
def R_STT_PARSEL : Nat := 0x2000014
def R_STT_PARDATA : Nat := 0x2000018
def R_STT_BANKCTL : Nat := 0x200001c
def R_STT_VGA : Nat := 0x2000020
def R_STT_BLO : Nat := 0x2000024
def R_STT_MRA : Nat := 0x2000028
def R_STT_TLOOP : Nat := 0x200002c
def R_STT_FRZCFG : Nat := 0x2000030
def R_STT_FRZCNT : Nat := 0x2000034
def R_STT_ADCCTL : Nat := 0x2000038
def R_STT_ADCSTAT : Nat := 0x200003c
def R_STT_ADCTRIM : Nat := 0x2000040
def R_STT_DETCTL : Nat := 0x2000064
def R_STT_SMPBUF : Nat := 0x2000068
def R_STT_SMPREL : Nat := 0x200006c
def R_STT_GDCCTL : Nat := 0x2000070
def R_STT_GDCSTAT : Nat := 0x2000074
def R_STT_GDCPES : Nat := 0x2000078
def R_STT_GDCTAG : Nat := 0x200007c
def R_STT_GQTH : Nat := 0x2000080
def R_STT_WRCTL : Nat := 0x2000084
def R_STT_WRSTAT : Nat := 0x2000088
def R_STT_BCLK : Nat := 0x200008c
def R_STT_SCRSEED : Nat := 0x2000090
def R_STT_QUAL : Nat := 0x2000094
def R_STT_ERRCNT : Nat := 0x2000098
def R_STT_ERACNT : Nat := 0x200009c
def R_STT_PWRSTAT : Nat := 0x20000a0
def R_STT_SMPCAP : Nat := 0x20000a4
def R_STT_DBGSEL : Nat := 0x20000a8
def R_STT_DBGDATA : Nat := 0x20000ac
def R_FMT_CTL : Nat := 0x2000800
def R_FMT_STAT : Nat := 0x2000804
def R_FMT_INTSTAT : Nat := 0x2000808
def R_FMT_INTEN : Nat := 0x200080c
def R_FMT_SYNCPAT : Nat := 0x2000810
def R_FMT_RSYNCPAT : Nat := 0x2000814
def R_FMT_SYNCCFG : Nat := 0x2000818
def R_FMT_PADPAT : Nat := 0x200081c
def R_FMT_WEDGECFG : Nat := 0x2000820
def R_FMT_TRACKID : Nat := 0x2000824
def R_FMT_WEDGEID : Nat := 0x2000828
def R_FMT_WEDGECNT : Nat := 0x200082c
def R_FMT_DESCSEL : Nat := 0x2000830
def R_FMT_DESCDATA : Nat := 0x2000834
def R_FMT_SKIPADDR_LO : Nat := 0x2000838
def R_FMT_SKIPADDR_HI : Nat := 0x200083c
def R_FMT_SKIPSTAT : Nat := 0x2000840
def R_FMT_SSTAT_LO : Nat := 0x2000844
def R_FMT_SSTAT_HI : Nat := 0x2000848
def R_FMT_SPEEK_LO : Nat := 0x200084c
def R_FMT_SPEEK_HI : Nat := 0x2000850
def R_FMT_SLEVEL : Nat := 0x2000854
def R_FMT_CURTAG : Nat := 0x2000858
def R_FMT_CURPOS : Nat := 0x200085c
def R_FMT_SYNCCNT : Nat := 0x2000860
def R_FMT_SECTCNT : Nat := 0x2000864
def R_FMT_OUTCNT : Nat := 0x2000868
def R_FMT_DESCERR : Nat := 0x200086c
def R_FMT_LASTOFF : Nat := 0x2000870
def R_FMT_TESTCTL : Nat := 0x2000874
def R_FMT_TESTDATA : Nat := 0x2000878
def R_FMT_SKIPERR : Nat := 0x200087c

def rowsSTT0 : List RegRow := [
  ⟨0x0, 1, .ro, 0x0, 0x0, 0x0, 0x0, 0x962000b0⟩,
  ⟨0x4, 1, .rw, 0x13f, 0x0, 0x0, 0x0, 0x11e⟩,
  ⟨0x8, 1, .ro, 0x0, 0x0, 0x0, 0x0, 0x0⟩,
  ⟨0xc, 1, .w1c, 0x0, 0x1f, 0x0, 0x0, 0x0⟩,
  ⟨0x10, 1, .rw, 0x1f, 0x0, 0x0, 0x0, 0xd⟩,
  ⟨0x14, 1, .rw, 0x1ff, 0x0, 0x0, 0x0, 0x0⟩,
  ⟨0x18, 1, .rw, 0xffffffff, 0x0, 0x0, 0x0, 0x0⟩,
  ⟨0x1c, 1, .rw, 0x0, 0x0, 0x4, 0x0, 0x0⟩,
  ⟨0x20, 1, .ro, 0x0, 0x0, 0x0, 0x0, 0x0⟩,
  ⟨0x24, 1, .ro, 0x0, 0x0, 0x0, 0x0, 0x0⟩,
  ⟨0x28, 1, .ro, 0x0, 0x0, 0x0, 0x0, 0x0⟩,
  ⟨0x2c, 1, .ro, 0x0, 0x0, 0x0, 0x0, 0x0⟩,
  ⟨0x30, 1, .rw, 0xfffffff0, 0x0, 0x0, 0x0, 0x10200880⟩,
  ⟨0x34, 1, .rs, 0x0, 0x0, 0x0, 0x0, 0x0⟩,
  ⟨0x38, 1, .rw, 0x7, 0x0, 0x10, 0x0, 0xf000⟩,
  ⟨0x3c, 1, .ro, 0x0, 0x0, 0x0, 0x0, 0x0⟩,
  ⟨0x40, 9, .rw, 0xffffff, 0x0, 0x0, 0x0, 0x0⟩,
  ⟨0x64, 1, .rw, 0xf, 0x0, 0x0, 0x0, 0x8⟩,
  ⟨0x68, 1, .ro, 0x0, 0x0, 0x0, 0x0, 0x0⟩,
  ⟨0x6c, 1, .wo, 0x0, 0x0, 0x0, 0x0, 0x0⟩]

def rowsSTT1 : List RegRow := [
  ⟨0x70, 1, .rw, 0xff01, 0x0, 0x0, 0x0, 0x1⟩,
  ⟨0x74, 1, .ro, 0x0, 0x0, 0x0, 0x0, 0x0⟩,
  ⟨0x78, 1, .ro, 0x0, 0x0, 0x0, 0x0, 0x0⟩,
  ⟨0x7c, 1, .ro, 0x0, 0x0, 0x0, 0x0, 0x0⟩,
  ⟨0x80, 1, .rw, 0xffff, 0x0, 0x0, 0x0, 0x100⟩,
  ⟨0x84, 1, .rw, 0x1, 0x0, 0x0, 0x0, 0x0⟩,
  ⟨0x88, 1, .ro, 0x0, 0x0, 0x0, 0x0, 0x0⟩,
  ⟨0x8c, 1, .ro, 0x0, 0x0, 0x0, 0x0, 0x0⟩,
  ⟨0x90, 1, .rw, 0xffff, 0x0, 0x0, 0x0, 0xace1⟩,
  ⟨0x94, 1, .ro, 0x0, 0x0, 0x0, 0x0, 0x0⟩,
  ⟨0x98, 1, .rs, 0x0, 0x0, 0x0, 0x0, 0x0⟩,
  ⟨0x9c, 1, .rs, 0x0, 0x0, 0x0, 0x0, 0x0⟩,
  ⟨0xa0, 1, .ro, 0x0, 0x0, 0x0, 0x0, 0x0⟩,
  ⟨0xa4, 1, .rw, 0x1, 0x0, 0x0, 0x0, 0x0⟩,
  ⟨0xa8, 1, .rw, 0xff, 0x0, 0x0, 0x0, 0x0⟩,
  ⟨0xac, 1, .ro, 0x0, 0x0, 0x0, 0x0, 0x0⟩,
  ⟨0x800, 1, .rw, 0x1f, 0x0, 0x0, 0x0, 0x1e⟩,
  ⟨0x804, 1, .ro, 0x0, 0x0, 0x0, 0x0, 0x0⟩,
  ⟨0x808, 1, .w1c, 0x0, 0x1ff, 0x0, 0x0, 0x0⟩,
  ⟨0x80c, 1, .rw, 0x1ff, 0x0, 0x0, 0x0, 0x1ff⟩]

def rowsSTT2 : List RegRow := [
  ⟨0x810, 1, .rw, 0xffffffff, 0x0, 0x0, 0x0, 0x4e1b6fa3⟩,
  ⟨0x814, 1, .rw, 0xffff, 0x0, 0x0, 0x0, 0x9a7c⟩,
  ⟨0x818, 1, .rw, 0x3f0f0f, 0x0, 0x0, 0x0, 0x180203⟩,
  ⟨0x81c, 1, .rw, 0xffff, 0x0, 0x0, 0x0, 0xf0f0⟩,
  ⟨0x820, 1, .rw, 0xffffffff, 0x0, 0x0, 0x0, 0x780690⟩,
  ⟨0x824, 1, .rw, 0xffffff, 0x0, 0x0, 0x0, 0x0⟩,
  ⟨0x828, 1, .ro, 0x0, 0x0, 0x0, 0x0, 0x0⟩,
  ⟨0x82c, 1, .rs, 0x0, 0x0, 0x0, 0x0, 0x0⟩,
  ⟨0x830, 1, .rw, 0xff, 0x0, 0x0, 0x0, 0x0⟩,
  ⟨0x834, 1, .rw, 0xffffffff, 0x0, 0x0, 0x0, 0x0⟩,
  ⟨0x838, 1, .rw, 0xffffffff, 0x0, 0x0, 0x0, 0x0⟩,
  ⟨0x83c, 1, .rw, 0xffff, 0x0, 0x0, 0x0, 0x0⟩,
  ⟨0x840, 1, .ro, 0x0, 0x0, 0x0, 0x0, 0x0⟩,
  ⟨0x844, 1, .rs, 0x0, 0x0, 0x0, 0x0, 0x0⟩,
  ⟨0x848, 1, .ro, 0x0, 0x0, 0x0, 0x0, 0x0⟩,
  ⟨0x84c, 1, .ro, 0x0, 0x0, 0x0, 0x0, 0x0⟩,
  ⟨0x850, 1, .ro, 0x0, 0x0, 0x0, 0x0, 0x0⟩,
  ⟨0x854, 1, .ro, 0x0, 0x0, 0x0, 0x0, 0x0⟩,
  ⟨0x858, 1, .ro, 0x0, 0x0, 0x0, 0x0, 0x0⟩,
  ⟨0x85c, 1, .ro, 0x0, 0x0, 0x0, 0x0, 0x0⟩]

def rowsSTT3 : List RegRow := [
  ⟨0x860, 1, .rs, 0x0, 0x0, 0x0, 0x0, 0x0⟩,
  ⟨0x864, 1, .rs, 0x0, 0x0, 0x0, 0x0, 0x0⟩,
  ⟨0x868, 1, .rs, 0x0, 0x0, 0x0, 0x0, 0x0⟩,
  ⟨0x86c, 1, .ro, 0x0, 0x0, 0x0, 0x0, 0x0⟩,
  ⟨0x870, 1, .ro, 0x0, 0x0, 0x0, 0x0, 0x0⟩,
  ⟨0x874, 1, .rw, 0x1, 0x0, 0x0, 0x0, 0x0⟩,
  ⟨0x878, 1, .ro, 0x0, 0x0, 0x0, 0x0, 0x0⟩,
  ⟨0x87c, 1, .rs, 0x0, 0x0, 0x0, 0x0, 0x0⟩]

def rowsSTT : List RegRow := rowsSTT0 ++ rowsSTT1 ++ rowsSTT2 ++ rowsSTT3

/-! ### DEC -/

def R_DEC_ID : Nat := 0x30000
def R_DEC_CTL : Nat := 0x30004
def R_DEC_STAT : Nat := 0x30008
def R_DEC_INTSTAT : Nat := 0x3000c
def R_DEC_INTEN : Nat := 0x30010
def R_DEC_STRMAP : Nat := 0x30014
def R_DEC_ITERCFG : Nat := 0x30018
def R_DEC_HSEL : Nat := 0x3001c
def R_DEC_HDATA : Nat := 0x30020
def R_DEC_SLOTS : Nat := 0x30024
def R_DEC_SYNDW : Nat := 0x30028
def R_DEC_PWRCTL : Nat := 0x3002c
def R_DEC_ESTAT : Nat := 0x30030
def R_DEC_ECNT : Nat := 0x30040

def rowsDEC0 : List RegRow := [
  ⟨0x0, 1, .ro, 0x0, 0x0, 0x0, 0x0, 0x960300b0⟩,
  ⟨0x4, 1, .rw, 0x10f, 0x0, 0x0, 0x0, 0x10f⟩,
  ⟨0x8, 1, .ro, 0x0, 0x0, 0x0, 0x0, 0x0⟩,
  ⟨0xc, 1, .w1c, 0x0, 0xf, 0x0, 0x0, 0x0⟩,
  ⟨0x10, 1, .rw, 0xf, 0x0, 0x0, 0x0, 0x2⟩,
  ⟨0x14, 1, .rw, 0xbbbb, 0x0, 0x0, 0x0, 0x9988⟩,
  ⟨0x18, 1, .rw, 0x3f0f001f, 0x0, 0x0, 0x0, 0x28020008⟩,
  ⟨0x1c, 1, .rw, 0xfff, 0x0, 0x0, 0x0, 0x0⟩,
  ⟨0x20, 1, .ro, 0x0, 0x0, 0x0, 0x0, 0x0⟩,
  ⟨0x24, 1, .ro, 0x0, 0x0, 0x0, 0x0, 0x0⟩,
  ⟨0x28, 1, .ro, 0x0, 0x0, 0x0, 0x0, 0x0⟩,
  ⟨0x2c, 1, .rw, 0xf, 0x0, 0x0, 0x0, 0xf⟩,
  ⟨0x30, 4, .ro, 0x0, 0x0, 0x0, 0x0, 0x0⟩,
  ⟨0x40, 4, .rs, 0x0, 0x0, 0x0, 0x0, 0x0⟩]

def rowsDEC : List RegRow := rowsDEC0

/-! ### QLK -/

def R_QLK_ID : Nat := 0x2040000
def R_QLK_CTL : Nat := 0x2040004
def R_QLK_STAT : Nat := 0x2040008
def R_QLK_INTSTAT : Nat := 0x204000c
def R_QLK_INTEN : Nat := 0x2040010
def R_QLK_LINKCFG : Nat := 0x2040014
def R_QLK_REGCMD : Nat := 0x2040018
def R_QLK_REGRSP : Nat := 0x204001c
def R_QLK_GATECFG : Nat := 0x2040020
def R_QLK_ASMAX : Nat := 0x2040024
def R_QLK_ASTSEL : Nat := 0x2040028
def R_QLK_ASTDATA : Nat := 0x204002c
def R_QLK_HTRCMD : Nat := 0x2040030
def R_QLK_SAFECMD : Nat := 0x2040034
def R_QLK_SLOT : Nat := 0x2040038
def R_QLK_PAIRSEL : Nat := 0x204003c
def R_QLK_PAIRDATA : Nat := 0x2040040
def R_QLK_ERRCNT : Nat := 0x2040044
def R_QLK_PSTAT : Nat := 0x2040048
def R_QLK_PFLT : Nat := 0x204004c

def rowsQLK0 : List RegRow := [
  ⟨0x0, 1, .ro, 0x0, 0x0, 0x0, 0x0, 0x964000b0⟩,
  ⟨0x4, 1, .rw, 0x11, 0x0, 0x0, 0x300, 0x10⟩,
  ⟨0x8, 1, .ro, 0x0, 0x0, 0x0, 0x0, 0x0⟩,
  ⟨0xc, 1, .w1c, 0x0, 0xff, 0x0, 0x0, 0x0⟩,
  ⟨0x10, 1, .rw, 0xff, 0x0, 0x0, 0x0, 0xff⟩,
  ⟨0x14, 1, .rw, 0xf, 0x0, 0x0, 0x0, 0x3⟩,
  ⟨0x18, 1, .rw, 0x40ffffff, 0x0, 0x0, 0x0, 0x0⟩,
  ⟨0x1c, 1, .ro, 0x0, 0x0, 0x0, 0x0, 0x0⟩,
  ⟨0x20, 1, .rw, 0xffffffff, 0x0, 0x0, 0x0, 0x10000200⟩,
  ⟨0x24, 1, .rw, 0xff, 0x0, 0x0, 0x0, 0x0⟩,
  ⟨0x28, 1, .rw, 0xff, 0x0, 0x0, 0x0, 0x0⟩,
  ⟨0x2c, 1, .rw, 0xffff, 0x0, 0x0, 0x0, 0x0⟩,
  ⟨0x30, 1, .wo, 0x0, 0x0, 0x0, 0x0, 0x0⟩,
  ⟨0x34, 1, .wo, 0x0, 0x0, 0x0, 0x0, 0x0⟩,
  ⟨0x38, 1, .ro, 0x0, 0x0, 0x0, 0x0, 0x0⟩,
  ⟨0x3c, 1, .rw, 0xf, 0x0, 0x0, 0x0, 0x0⟩,
  ⟨0x40, 1, .rw, 0xfff, 0x0, 0x0, 0x0, 0x0⟩,
  ⟨0x44, 1, .rs, 0x0, 0x0, 0x0, 0x0, 0x0⟩,
  ⟨0x48, 1, .ro, 0x0, 0x0, 0x0, 0x0, 0x0⟩,
  ⟨0x4c, 1, .ro, 0x0, 0x0, 0x0, 0x0, 0x0⟩]

def rowsQLK : List RegRow := rowsQLK0

/-! ### CEN -/

def R_CEN_ID : Nat := 0x40000
def R_CEN_CTL : Nat := 0x40004
def R_CEN_STAT : Nat := 0x40008
def R_CEN_INTSTAT : Nat := 0x4000c
def R_CEN_INTEN : Nat := 0x40010
def R_CEN_FLT : Nat := 0x40014
def R_CEN_MODE : Nat := 0x40018
def R_CEN_SEEKSTAT : Nat := 0x4001c
def R_CEN_TASK : Nat := 0x40020
def R_CEN_TASKLOAD : Nat := 0x40030
def R_CEN_OVRCNT : Nat := 0x40040
def R_CEN_STALECFG : Nat := 0x40044
def R_CEN_STALESTAT : Nat := 0x40048
def R_CEN_SATSUM : Nat := 0x4004c
def R_CEN_BANDCTL : Nat := 0x40050
def R_CEN_BAND : Nat := 0x40060
def R_CEN_RAMPSEL : Nat := 0x40080
def R_CEN_RAMPCFG : Nat := 0x40084
def R_CEN_RAMPCTL : Nat := 0x40088
def R_CEN_TRCSEL : Nat := 0x4008c
def R_CEN_TRCCFG : Nat := 0x40090
def R_CEN_TRCSTAT : Nat := 0x40094
def R_CEN_XCHK : Nat := 0x40098

def rowsCEN0 : List RegRow := [
  ⟨0x0, 1, .ro, 0x0, 0x0, 0x0, 0x0, 0x960400b0⟩,
  ⟨0x4, 1, .rw, 0x11, 0x0, 0x100, 0x0, 0x10⟩,
  ⟨0x8, 1, .ro, 0x0, 0x0, 0x0, 0x0, 0x0⟩,
  ⟨0xc, 1, .w1c, 0x0, 0x7ff, 0x0, 0x0, 0x0⟩,
  ⟨0x10, 1, .rw, 0x7ff, 0x0, 0x0, 0x0, 0x263⟩,
  ⟨0x14, 1, .w1c, 0x0, 0x2f, 0x0, 0x0, 0x0⟩,
  ⟨0x18, 1, .ro, 0x0, 0x0, 0x0, 0x0, 0x0⟩,
  ⟨0x1c, 1, .ro, 0x0, 0x0, 0x0, 0x0, 0x0⟩,
  ⟨0x20, 4, .rw, 0x3ff07ff, 0x0, 0x0, 0x0, 0x0⟩,
  ⟨0x30, 4, .rs, 0x0, 0x0, 0x0, 0x0, 0x0⟩,
  ⟨0x40, 1, .rs, 0x0, 0x0, 0x0, 0x0, 0x0⟩,
  ⟨0x44, 1, .rw, 0x1ff, 0x0, 0x0, 0x0, 0x190⟩,
  ⟨0x48, 1, .ro, 0x0, 0x0, 0x0, 0x0, 0x0⟩,
  ⟨0x4c, 1, .ro, 0x0, 0x0, 0x0, 0x0, 0x0⟩,
  ⟨0x50, 1, .rw, 0xfffffc70, 0x0, 0x0, 0x0, 0x4000000⟩,
  ⟨0x60, 8, .rw, 0x1fffffff, 0x0, 0x0, 0x0, 0x0⟩,
  ⟨0x80, 1, .rw, 0x7, 0x0, 0x0, 0x0, 0x0⟩,
  ⟨0x84, 1, .rw, 0x1fff007f, 0x0, 0x0, 0x0, 0x0⟩,
  ⟨0x88, 1, .rw, 0xfffefff, 0x0, 0x80000000, 0x0, 0x0⟩,
  ⟨0x8c, 1, .rw, 0x3, 0x0, 0x0, 0x0, 0x0⟩]

def rowsCEN1 : List RegRow := [
  ⟨0x90, 1, .rw, 0x3fffffff, 0x0, 0xc0000000, 0x0, 0x0⟩,
  ⟨0x94, 1, .ro, 0x0, 0x0, 0x0, 0x0, 0x0⟩,
  ⟨0x98, 1, .rw, 0xffff, 0x0, 0x0, 0x0, 0x10⟩]

def rowsCEN : List RegRow := rowsCEN0 ++ rowsCEN1

/-! ### MTR -/

def R_MTR_ID : Nat := 0x20e0000
def R_MTR_CTL : Nat := 0x20e0004
def R_MTR_STAT : Nat := 0x20e0008
def R_MTR_INTSTAT : Nat := 0x20e000c
def R_MTR_INTEN : Nat := 0x20e0010
def R_MTR_SPCMD : Nat := 0x20e0014
def R_MTR_SPSTAT : Nat := 0x20e0018
def R_MTR_SPEED : Nat := 0x20e001c
def R_MTR_TARGET : Nat := 0x20e0020
def R_MTR_ILIM : Nat := 0x20e0024
def R_MTR_PWMCFG : Nat := 0x20e0028
def R_MTR_MODCFG : Nat := 0x20e002c
def R_MTR_IPDCFG : Nat := 0x20e0030
def R_MTR_KICKCFG : Nat := 0x20e0034
def R_MTR_OBSCFG : Nat := 0x20e0038
def R_MTR_MOTPAR : Nat := 0x20e003c
def R_MTR_BRKCFG : Nat := 0x20e0040
def R_MTR_CHOPCFG : Nat := 0x20e0044
def R_MTR_CHOPTEST : Nat := 0x20e0048
def R_MTR_RBRK : Nat := 0x20e004c
def R_MTR_PFCFG : Nat := 0x20e0050
def R_MTR_PFSTAT : Nat := 0x20e0054
def R_MTR_VMOT : Nat := 0x20e0058
def R_MTR_IPHASE : Nat := 0x20e005c
def R_MTR_ISENSE : Nat := 0x20e0060
def R_MTR_ISOFS : Nat := 0x20e0064
def R_MTR_HBCFG : Nat := 0x20e0074
def R_MTR_HBKICK : Nat := 0x20e0078
def R_MTR_VCCTL : Nat := 0x20e007c
def R_MTR_VCSTAT : Nat := 0x20e0080
def R_MTR_VCRES : Nat := 0x20e0088
def R_MTR_RETCFG : Nat := 0x20e0090
def R_MTR_RETCMD : Nat := 0x20e0094
def R_MTR_PDFLT : Nat := 0x20e0098
def R_MTR_ERRCNT : Nat := 0x20e009c

def rowsMTR0 : List RegRow := [
  ⟨0x0, 1, .ro, 0x0, 0x0, 0x0, 0x0, 0x960e00b0⟩,
  ⟨0x4, 1, .rw, 0x111, 0x0, 0x0, 0x0, 0x10⟩,
  ⟨0x8, 1, .ro, 0x0, 0x0, 0x0, 0x0, 0x0⟩,
  ⟨0xc, 1, .w1c, 0x0, 0x1fff, 0x0, 0x0, 0x0⟩,
  ⟨0x10, 1, .rw, 0x1fff, 0x0, 0x0, 0x0, 0x1ffe⟩,
  ⟨0x14, 1, .wo, 0x0, 0x0, 0x0, 0x0, 0x0⟩,
  ⟨0x18, 1, .ro, 0x0, 0x0, 0x0, 0x0, 0x0⟩,
  ⟨0x1c, 1, .ro, 0x0, 0x0, 0x0, 0x0, 0x0⟩,
  ⟨0x20, 1, .rw, 0xff00ffff, 0x0, 0x0, 0x0, 0x2d001c20⟩,
  ⟨0x24, 1, .rw, 0xffffffff, 0x0, 0x0, 0x0, 0x7d007d0⟩,
  ⟨0x28, 1, .rw, 0x3ff, 0x0, 0x0, 0x0, 0xc8⟩,
  ⟨0x2c, 1, .rw, 0xffffffff, 0x0, 0x0, 0x0, 0x49e7517c⟩,
  ⟨0x30, 1, .rw, 0xffffff, 0x0, 0x0, 0x0, 0x1e00aa⟩,
  ⟨0x34, 1, .rw, 0xffff0f00, 0x0, 0x0, 0x0, 0x1f40300⟩,
  ⟨0x38, 1, .rw, 0xffffffff, 0x0, 0x0, 0x0, 0x400010⟩,
  ⟨0x3c, 1, .rw, 0xffffffff, 0x0, 0x0, 0x0, 0x0⟩,
  ⟨0x40, 1, .rw, 0xffffffff, 0x0, 0x0, 0x0, 0x3e80bb8⟩,
  ⟨0x44, 1, .rw, 0xffffffff, 0x0, 0x0, 0x0, 0x33903200⟩,
  ⟨0x48, 1, .rw, 0x0, 0x0, 0x80000000, 0x0, 0x0⟩,
  ⟨0x4c, 1, .rw, 0xffff, 0x0, 0x0, 0x0, 0x2710⟩]

def rowsMTR1 : List RegRow := [
  ⟨0x50, 1, .rw, 0xffffffff, 0x0, 0x0, 0x0, 0x27d82af8⟩,
  ⟨0x54, 1, .ro, 0x0, 0x0, 0x0, 0x0, 0x0⟩,
  ⟨0x58, 1, .ro, 0x0, 0x0, 0x0, 0x0, 0x0⟩,
  ⟨0x5c, 1, .ro, 0x0, 0x0, 0x0, 0x0, 0x0⟩,
  ⟨0x60, 1, .rw, 0x3, 0x0, 0x10, 0x0, 0xf000⟩,
  ⟨0x64, 4, .rw, 0xfff, 0x0, 0x0, 0x0, 0x0⟩,
  ⟨0x74, 1, .rw, 0x7f, 0x0, 0x0, 0x0, 0xa⟩,
  ⟨0x78, 1, .wo, 0x0, 0x0, 0x0, 0x0, 0x0⟩,
  ⟨0x7c, 1, .rw, 0x3, 0x0, 0x0, 0x0, 0x0⟩,
  ⟨0x80, 2, .ro, 0x0, 0x0, 0x0, 0x0, 0x0⟩,
  ⟨0x88, 2, .rw, 0xffff, 0x0, 0x0, 0x0, 0x2ee0⟩,
  ⟨0x90, 1, .rw, 0xffffffff, 0x0, 0x0, 0x0, 0x12c2814⟩,
  ⟨0x94, 1, .wo, 0x0, 0x0, 0x0, 0x0, 0x0⟩,
  ⟨0x98, 1, .w1c, 0x0, 0x3ff, 0x0, 0x0, 0x0⟩,
  ⟨0x9c, 1, .rs, 0x0, 0x0, 0x0, 0x0, 0x0⟩]

def rowsMTR : List RegRow := rowsMTR0 ++ rowsMTR1

/-! ### MON -/

def R_MON_ID : Nat := 0x20d0000
def R_MON_CTL : Nat := 0x20d0004
def R_MON_STAT : Nat := 0x20d0008
def R_MON_INTSTAT : Nat := 0x20d000c
def R_MON_INTEN : Nat := 0x20d0010
def R_MON_TEMP : Nat := 0x20d0020
def R_MON_TWARN : Nat := 0x20d0060
def R_MON_TMAX : Nat := 0x20d0064
def R_MON_TRIMSEL : Nat := 0x20d0068
def R_MON_TRIMDATA : Nat := 0x20d006c
def R_MON_VSEL : Nat := 0x20d0070
def R_MON_VDATA : Nat := 0x20d0074
def R_MON_VLIM : Nat := 0x20d0078
def R_MON_VUV : Nat := 0x20d007c
def R_MON_VOV : Nat := 0x20d0080
def R_MON_ROSCSEL : Nat := 0x20d0084
def R_MON_ROSCDATA : Nat := 0x20d0088
def R_MON_AVSCFG : Nat := 0x20d008c
def R_MON_AVSREQ : Nat := 0x20d0090
def R_MON_VCOFS : Nat := 0x20d0094
def R_MON_VCCAL : Nat := 0x20d009c
def R_MON_CALACT : Nat := 0x20d00a0

def rowsMON0 : List RegRow := [
  ⟨0x0, 1, .ro, 0x0, 0x0, 0x0, 0x0, 0x960d00b0⟩,
  ⟨0x4, 1, .rw, 0x11, 0x0, 0x0, 0x0, 0x1⟩,
  ⟨0x8, 1, .ro, 0x0, 0x0, 0x0, 0x0, 0x0⟩,
  ⟨0xc, 1, .w1c, 0x0, 0x7f, 0x0, 0x0, 0x0⟩,
  ⟨0x10, 1, .rw, 0x7f, 0x0, 0x0, 0x0, 0x6f⟩,
  ⟨0x20, 16, .ro, 0x0, 0x0, 0x0, 0x0, 0x0⟩,
  ⟨0x60, 1, .rw, 0xffff, 0x0, 0x0, 0x0, 0x569⟩,
  ⟨0x64, 1, .rs, 0x0, 0x0, 0x0, 0x0, 0x0⟩,
  ⟨0x68, 1, .rw, 0x3f, 0x0, 0x0, 0x0, 0x0⟩,
  ⟨0x6c, 1, .rw, 0xff, 0x0, 0x0, 0x0, 0x0⟩,
  ⟨0x70, 1, .rw, 0x1f, 0x0, 0x0, 0x0, 0x0⟩,
  ⟨0x74, 1, .ro, 0x0, 0x0, 0x0, 0x0, 0x0⟩,
  ⟨0x78, 1, .rw, 0xffffffff, 0x0, 0x0, 0x0, 0x0⟩,
  ⟨0x7c, 1, .w1c, 0x0, 0xffffff, 0x0, 0x0, 0x0⟩,
  ⟨0x80, 1, .w1c, 0x0, 0xffffff, 0x0, 0x0, 0x0⟩,
  ⟨0x84, 1, .rw, 0x7, 0x0, 0x0, 0x0, 0x0⟩,
  ⟨0x88, 1, .ro, 0x0, 0x0, 0x0, 0x0, 0x0⟩,
  ⟨0x8c, 1, .rw, 0x8000ff00, 0x0, 0x0, 0x0, 0xa00⟩,
  ⟨0x90, 1, .rw, 0xffff0000, 0x0, 0x0, 0x0, 0x3200320⟩,
  ⟨0x94, 2, .rw, 0xfff, 0x0, 0x0, 0x0, 0x0⟩]

def rowsMON1 : List RegRow := [
  ⟨0x9c, 1, .rw, 0x11f0000, 0x0, 0x80000000, 0x0, 0x80000⟩,
  ⟨0xa0, 1, .ro, 0x0, 0x0, 0x0, 0x0, 0x0⟩]

def rowsMON : List RegRow := rowsMON0 ++ rowsMON1

/-! ### STE -/

def R_STE_ID : Nat := 0x50000
def R_STE_CTL : Nat := 0x50004
def R_STE_STAT : Nat := 0x50008
def R_STE_INTSTAT : Nat := 0x5000c
def R_STE_INTEN : Nat := 0x50010
def R_STE_BUFSEL : Nat := 0x50014
def R_STE_BUFSTAT : Nat := 0x50018
def R_STE_BUFKEY : Nat := 0x5001c
def R_STE_BUFOWN : Nat := 0x50020
def R_STE_SCRUBCFG : Nat := 0x50024
def R_STE_SCRUBSTAT : Nat := 0x50028
def R_STE_SCRUBRES_LO : Nat := 0x5002c
def R_STE_SCRUBRES_HI : Nat := 0x50030
def R_STE_MOVECNT : Nat := 0x50034
def R_STE_SEALCNT : Nat := 0x50038
def R_STE_RECONCNT : Nat := 0x5003c
def R_STE_REFUSE : Nat := 0x50040
def R_STE_BANKERR : Nat := 0x50044
def R_STE_ROUTE : Nat := 0x50048
def R_STE_MOVEQ : Nat := 0x5004c
def R_STE_PWRSTAT : Nat := 0x50050
def R_STE_DUPSTAT : Nat := 0x50054
def R_STE_DBGSEL : Nat := 0x50058
def R_STE_DBGDATA : Nat := 0x5005c

def rowsSTE0 : List RegRow := [
  ⟨0x0, 1, .ro, 0x0, 0x0, 0x0, 0x0, 0x960500b0⟩,
  ⟨0x4, 1, .rw, 0x3, 0x0, 0x0, 0x0, 0x1⟩,
  ⟨0x8, 1, .ro, 0x0, 0x0, 0x0, 0x0, 0x29⟩,
  ⟨0xc, 1, .w1c, 0x0, 0x7f, 0x0, 0x0, 0x0⟩,
  ⟨0x10, 1, .rw, 0x7f, 0x0, 0x0, 0x0, 0x66⟩,
  ⟨0x14, 1, .rw, 0x3f, 0x0, 0x0, 0x0, 0x0⟩,
  ⟨0x18, 1, .ro, 0x0, 0x0, 0x0, 0x0, 0x0⟩,
  ⟨0x1c, 1, .ro, 0x0, 0x0, 0x0, 0x0, 0x0⟩,
  ⟨0x20, 1, .ro, 0x0, 0x0, 0x0, 0x0, 0x0⟩,
  ⟨0x24, 1, .rw, 0x1ffff, 0x0, 0x0, 0x0, 0x0⟩,
  ⟨0x28, 1, .ro, 0x0, 0x0, 0x0, 0x0, 0x0⟩,
  ⟨0x2c, 1, .rs, 0x0, 0x0, 0x0, 0x0, 0x0⟩,
  ⟨0x30, 1, .ro, 0x0, 0x0, 0x0, 0x0, 0x0⟩,
  ⟨0x34, 1, .rs, 0x0, 0x0, 0x0, 0x0, 0x0⟩,
  ⟨0x38, 1, .rs, 0x0, 0x0, 0x0, 0x0, 0x0⟩,
  ⟨0x3c, 1, .rs, 0x0, 0x0, 0x0, 0x0, 0x0⟩,
  ⟨0x40, 1, .ro, 0x0, 0x0, 0x0, 0x0, 0x0⟩,
  ⟨0x44, 1, .rs, 0x0, 0x0, 0x0, 0x0, 0x0⟩,
  ⟨0x48, 1, .ro, 0x0, 0x0, 0x0, 0x0, 0x0⟩,
  ⟨0x4c, 1, .ro, 0x0, 0x0, 0x0, 0x0, 0x0⟩]

def rowsSTE1 : List RegRow := [
  ⟨0x50, 1, .ro, 0x0, 0x0, 0x0, 0x0, 0x0⟩,
  ⟨0x54, 1, .ro, 0x0, 0x0, 0x0, 0x0, 0x0⟩,
  ⟨0x58, 1, .rw, 0xff, 0x0, 0x0, 0x0, 0x0⟩,
  ⟨0x5c, 1, .ro, 0x0, 0x0, 0x0, 0x0, 0x0⟩]

def rowsSTE : List RegRow := rowsSTE0 ++ rowsSTE1

/-! ### ZTB -/

def R_ZTB_ID : Nat := 0x2090000
def R_ZTB_CTL : Nat := 0x2090004
def R_ZTB_STAT : Nat := 0x2090008
def R_ZTB_INTSTAT : Nat := 0x209000c
def R_ZTB_INTEN : Nat := 0x2090010
def R_ZTB_LASTREF : Nat := 0x2090014
def R_ZTB_GEN : Nat := 0x2090018
def R_ZTB_SCAN : Nat := 0x209001c
def R_ZTB_SCANRES : Nat := 0x2090020
def R_ZTB_ERRCNT : Nat := 0x2090024
def R_ZTB_ZONECNT : Nat := 0x2090028
def R_ZTB_FREECNT : Nat := 0x209002c

def rowsZTB0 : List RegRow := [
  ⟨0x0, 1, .ro, 0x0, 0x0, 0x0, 0x0, 0x960900b0⟩,
  ⟨0x4, 1, .rwl, 0x0, 0x0, 0x0, 0x1ffff, 0x0⟩,
  ⟨0x8, 1, .ro, 0x0, 0x0, 0x0, 0x0, 0x0⟩,
  ⟨0xc, 1, .w1c, 0x0, 0xf, 0x0, 0x0, 0x0⟩,
  ⟨0x10, 1, .rw, 0xf, 0x0, 0x0, 0x0, 0xe⟩,
  ⟨0x14, 1, .ro, 0x0, 0x0, 0x0, 0x0, 0x0⟩,
  ⟨0x18, 1, .ro, 0x0, 0x0, 0x0, 0x0, 0x0⟩,
  ⟨0x1c, 1, .rw, 0x7e01ffff, 0x0, 0x80000000, 0x0, 0x0⟩,
  ⟨0x20, 1, .ro, 0x0, 0x0, 0x0, 0x0, 0x0⟩,
  ⟨0x24, 1, .rs, 0x0, 0x0, 0x0, 0x0, 0x0⟩,
  ⟨0x28, 1, .ro, 0x0, 0x0, 0x0, 0x0, 0x0⟩,
  ⟨0x2c, 1, .rw, 0xc0000000, 0x0, 0x0, 0x0, 0x20000⟩]

def rowsZTB : List RegRow := rowsZTB0

/-! ### CRN -/

def R_CRN_ID : Nat := 0x70000
def R_CRN_CTL : Nat := 0x70004
def R_CRN_STAT : Nat := 0x70008
def R_CRN_INTSTAT : Nat := 0x7000c
def R_CRN_INTEN : Nat := 0x70010
def R_CRN_CFG : Nat := 0x70014
def R_CRN_HEAD : Nat := 0x70018
def R_CRN_TAIL : Nat := 0x7001c
def R_CRN_FILL : Nat := 0x70020
def R_CRN_ERRCNT : Nat := 0x70024

def rowsCRN0 : List RegRow := [
  ⟨0x0, 1, .ro, 0x0, 0x0, 0x0, 0x0, 0x960700b0⟩,
  ⟨0x4, 1, .rw, 0x3, 0x0, 0x100, 0x10, 0x3⟩,
  ⟨0x8, 1, .ro, 0x0, 0x0, 0x0, 0x0, 0x0⟩,
  ⟨0xc, 1, .w1c, 0x0, 0xff, 0x0, 0x0, 0x0⟩,
  ⟨0x10, 1, .rw, 0xff, 0x0, 0x0, 0x0, 0xdb⟩,
  ⟨0x14, 1, .rw, 0xffff00ff, 0x0, 0x0, 0x0, 0x10000046⟩,
  ⟨0x18, 1, .ro, 0x0, 0x0, 0x0, 0x0, 0x0⟩,
  ⟨0x1c, 1, .ro, 0x0, 0x0, 0x0, 0x0, 0x0⟩,
  ⟨0x20, 1, .ro, 0x0, 0x0, 0x0, 0x0, 0x0⟩,
  ⟨0x24, 1, .rs, 0x0, 0x0, 0x0, 0x0, 0x0⟩]

def rowsCRN : List RegRow := rowsCRN0

/-! ### HPT -/

def R_HPT_ID : Nat := 0x2050000
def R_HPT_CTL : Nat := 0x2050004
def R_HPT_STAT : Nat := 0x2050008
def R_HPT_INTSTAT : Nat := 0x205000c
def R_HPT_INTEN : Nat := 0x2050010
def R_HPT_LINKCAP : Nat := 0x2050014
def R_HPT_LINKCTL : Nat := 0x2050018
def R_HPT_ASPMCFG : Nat := 0x205001c
def R_HPT_CFGID : Nat := 0x2050020
def R_HPT_SRIOV : Nat := 0x2050024
def R_HPT_VFSTAT : Nat := 0x2050028
def R_HPT_AERCNT_C : Nat := 0x205002c
def R_HPT_AERCNT_U : Nat := 0x2050030
def R_HPT_LTSSM : Nat := 0x2050034
def R_HPT_REFCLK : Nat := 0x2050038
def R_HPT_PERST : Nat := 0x205003c
def R_HPT_FLRPEND_LO : Nat := 0x2050040
def R_HPT_FLRPEND_HI : Nat := 0x2050044
def R_HPT_POISCNT : Nat := 0x2050048
def R_HPT_CPLTOCNT : Nat := 0x205004c
def R_HPT_TLPCNT_RX : Nat := 0x2050050
def R_HPT_TLPCNT_TX : Nat := 0x2050054
def R_HPT_DBGSEL : Nat := 0x2050058
def R_HPT_DBGDATA : Nat := 0x205005c
def R_HPT_LANESTAT : Nat := 0x2050060
def R_HPT_LANECNT : Nat := 0x2050070

def rowsHPT0 : List RegRow := [
  ⟨0x0, 1, .ro, 0x0, 0x0, 0x0, 0x0, 0x965000b0⟩,
  ⟨0x4, 1, .rw, 0x1f, 0x0, 0x0, 0x0, 0x7⟩,
  ⟨0x8, 1, .ro, 0x0, 0x0, 0x0, 0x0, 0x0⟩,
  ⟨0xc, 1, .w1c, 0x0, 0x7f, 0x0, 0x0, 0x0⟩,
  ⟨0x10, 1, .rw, 0x7f, 0x0, 0x0, 0x0, 0x6f⟩,
  ⟨0x14, 1, .rwl, 0x0, 0x0, 0x0, 0x77, 0x45⟩,
  ⟨0x18, 1, .rw, 0x0, 0x0, 0x3, 0x0, 0x0⟩,
  ⟨0x1c, 1, .rw, 0xffff, 0x0, 0x0, 0x0, 0x20⟩,
  ⟨0x20, 1, .rwl, 0x0, 0x0, 0x0, 0xffffffff, 0x9600e7a5⟩,
  ⟨0x24, 1, .rwl, 0x0, 0x0, 0x0, 0x3f, 0x3f⟩,
  ⟨0x28, 1, .ro, 0x0, 0x0, 0x0, 0x0, 0x0⟩,
  ⟨0x2c, 1, .rs, 0x0, 0x0, 0x0, 0x0, 0x0⟩,
  ⟨0x30, 1, .rs, 0x0, 0x0, 0x0, 0x0, 0x0⟩,
  ⟨0x34, 1, .ro, 0x0, 0x0, 0x0, 0x0, 0x0⟩,
  ⟨0x38, 1, .ro, 0x0, 0x0, 0x0, 0x0, 0x0⟩,
  ⟨0x3c, 1, .ro, 0x0, 0x0, 0x0, 0x0, 0x0⟩,
  ⟨0x40, 1, .ro, 0x0, 0x0, 0x0, 0x0, 0x0⟩,
  ⟨0x44, 1, .ro, 0x0, 0x0, 0x0, 0x0, 0x0⟩,
  ⟨0x48, 1, .rs, 0x0, 0x0, 0x0, 0x0, 0x0⟩,
  ⟨0x4c, 1, .rs, 0x0, 0x0, 0x0, 0x0, 0x0⟩]

def rowsHPT1 : List RegRow := [
  ⟨0x50, 1, .rs, 0x0, 0x0, 0x0, 0x0, 0x0⟩,
  ⟨0x54, 1, .rs, 0x0, 0x0, 0x0, 0x0, 0x0⟩,
  ⟨0x58, 1, .rw, 0xff, 0x0, 0x0, 0x0, 0x0⟩,
  ⟨0x5c, 1, .ro, 0x0, 0x0, 0x0, 0x0, 0x0⟩,
  ⟨0x60, 4, .ro, 0x0, 0x0, 0x0, 0x0, 0x0⟩,
  ⟨0x70, 4, .rs, 0x0, 0x0, 0x0, 0x0, 0x0⟩]

def rowsHPT : List RegRow := rowsHPT0 ++ rowsHPT1

/-! ### NVE -/

def R_NVE_ID : Nat := 0x2060000
def R_NVE_CTL : Nat := 0x2060004
def R_NVE_STAT : Nat := 0x2060008
def R_NVE_INTSTAT : Nat := 0x206000c
def R_NVE_INTEN : Nat := 0x2060010
def R_NVE_ASN_LO : Nat := 0x2060014
def R_NVE_ASN_HI : Nat := 0x2060018
def R_NVE_ASNLIM_LO : Nat := 0x206001c
def R_NVE_ASNLIM_HI : Nat := 0x2060020
def R_NVE_QALLOCSEL : Nat := 0x2060024
def R_NVE_QALLOC : Nat := 0x2060028
def R_NVE_QFREE : Nat := 0x206002c
def R_NVE_CTXSTAT : Nat := 0x2060030
def R_NVE_FETCHCFG : Nat := 0x2060034
def R_NVE_KSLOTSEL : Nat := 0x2060038
def R_NVE_KSLOT : Nat := 0x206003c
def R_NVE_NSSEL : Nat := 0x2060040
def R_NVE_NSCFG : Nat := 0x2060044
def R_NVE_CQSTALL : Nat := 0x2060048
def R_NVE_ABORTCNT : Nat := 0x206004c
def R_NVE_DBERRCNT : Nat := 0x2060050
def R_NVE_PIERRCNT : Nat := 0x2060054
def R_NVE_DBGSEL : Nat := 0x2060058
def R_NVE_DBGDATA : Nat := 0x206005c

def rowsNVE0 : List RegRow := [
  ⟨0x0, 1, .ro, 0x0, 0x0, 0x0, 0x0, 0x960600b0⟩,
  ⟨0x4, 1, .rw, 0x3, 0x0, 0x0, 0x0, 0x0⟩,
  ⟨0x8, 1, .ro, 0x0, 0x0, 0x0, 0x0, 0x0⟩,
  ⟨0xc, 1, .w1c, 0x0, 0x1f, 0x0, 0x0, 0x0⟩,
  ⟨0x10, 1, .rw, 0x1f, 0x0, 0x0, 0x0, 0x1f⟩,
  ⟨0x14, 1, .ro, 0x0, 0x0, 0x0, 0x0, 0x0⟩,
  ⟨0x18, 1, .rw, 0x0, 0x0, 0x0, 0x0, 0x0⟩,
  ⟨0x1c, 1, .rw, 0xffffffff, 0x0, 0x0, 0x0, 0x0⟩,
  ⟨0x20, 1, .rw, 0x0, 0x0, 0x0, 0x0, 0x0⟩,
  ⟨0x24, 1, .rw, 0x7f, 0x0, 0x0, 0x0, 0x0⟩,
  ⟨0x28, 1, .rw, 0x1fff, 0x0, 0x0, 0x0, 0x0⟩,
  ⟨0x2c, 1, .ro, 0x0, 0x0, 0x0, 0x0, 0xc00⟩,
  ⟨0x30, 1, .rs, 0x0, 0x0, 0x0, 0x0, 0x0⟩,
  ⟨0x34, 1, .rw, 0x7f, 0x0, 0x0, 0x0, 0x40⟩,
  ⟨0x38, 1, .rw, 0x3f, 0x0, 0x0, 0x0, 0x0⟩,
  ⟨0x3c, 1, .ro, 0x0, 0x0, 0x0, 0x0, 0x0⟩,
  ⟨0x40, 1, .rw, 0x7f, 0x0, 0x0, 0x0, 0x0⟩,
  ⟨0x44, 1, .rw, 0xff3f0000, 0x0, 0x0, 0x0, 0x0⟩,
  ⟨0x48, 1, .rs, 0x0, 0x0, 0x0, 0x0, 0x0⟩,
  ⟨0x4c, 1, .rs, 0x0, 0x0, 0x0, 0x0, 0x0⟩]

def rowsNVE1 : List RegRow := [
  ⟨0x50, 1, .rs, 0x0, 0x0, 0x0, 0x0, 0x0⟩,
  ⟨0x54, 1, .rs, 0x0, 0x0, 0x0, 0x0, 0x0⟩,
  ⟨0x58, 1, .rw, 0xff, 0x0, 0x0, 0x0, 0x0⟩,
  ⟨0x5c, 1, .ro, 0x0, 0x0, 0x0, 0x0, 0x0⟩]

def rowsNVE : List RegRow := rowsNVE0 ++ rowsNVE1

/-! ### HDG -/

def R_HDG_ID : Nat := 0x2080000
def R_HDG_CTL : Nat := 0x2080004
def R_HDG_STAT : Nat := 0x2080008
def R_HDG_INTSTAT : Nat := 0x208000c
def R_HDG_INTEN : Nat := 0x2080010
def R_HDG_FILL : Nat := 0x2080014
def R_HDG_ENTSEL : Nat := 0x2080018
def R_HDG_ENTDATA_LO : Nat := 0x208001c
def R_HDG_ENTDATA_HI : Nat := 0x2080020
def R_HDG_WAITCNT : Nat := 0x2080024

def rowsHDG0 : List RegRow := [
  ⟨0x0, 1, .ro, 0x0, 0x0, 0x0, 0x0, 0x960800b0⟩,
  ⟨0x4, 1, .rw, 0x101, 0x0, 0x0, 0x0, 0x1⟩,
  ⟨0x8, 1, .ro, 0x0, 0x0, 0x0, 0x0, 0x0⟩,
  ⟨0xc, 1, .w1c, 0x0, 0x1f, 0x0, 0x0, 0x0⟩,
  ⟨0x10, 1, .rw, 0x1f, 0x0, 0x0, 0x0, 0x1d⟩,
  ⟨0x14, 1, .rs, 0x0, 0x0, 0x0, 0x0, 0x0⟩,
  ⟨0x18, 1, .rw, 0x3fff, 0x0, 0x0, 0x0, 0x0⟩,
  ⟨0x1c, 1, .ro, 0x0, 0x0, 0x0, 0x0, 0x0⟩,
  ⟨0x20, 1, .ro, 0x0, 0x0, 0x0, 0x0, 0x0⟩,
  ⟨0x24, 1, .rs, 0x0, 0x0, 0x0, 0x0, 0x0⟩]

def rowsHDG : List RegRow := rowsHDG0

/-! ### RLG -/

def R_RLG_ID : Nat := 0x2070000
def R_RLG_CTL : Nat := 0x2070004
def R_RLG_STAT : Nat := 0x2070008
def R_RLG_INTSTAT : Nat := 0x207000c
def R_RLG_INTEN : Nat := 0x2070010
def R_RLG_FENCE : Nat := 0x2070014
def R_RLG_TKTIME : Nat := 0x2070018
def R_RLG_CMD : Nat := 0x207001c
def R_RLG_SWCFG : Nat := 0x2070020
def R_RLG_LEASE : Nat := 0x2070024
def R_RLG_POOLSEL : Nat := 0x2070028
def R_RLG_POOLSIZE : Nat := 0x207002c
def R_RLG_POOLFREE : Nat := 0x2070030
def R_RLG_POOLHELD : Nat := 0x2070034
def R_RLG_POOLXIT : Nat := 0x2070038
def R_RLG_AUDCFG : Nat := 0x207003c
def R_RLG_AUDERR : Nat := 0x2070040
def R_RLG_AUDCNT : Nat := 0x2070044
def R_RLG_EAVAIL : Nat := 0x2070048
def R_RLG_EFLUSH : Nat := 0x207004c
def R_RLG_WIN : Nat := 0x2070050
def R_RLG_JCUR : Nat := 0x2070054
def R_RLG_EPWR : Nat := 0x2070058
def R_RLG_EFIX : Nat := 0x207005c

def rowsRLG0 : List RegRow := [
  ⟨0x0, 1, .ro, 0x0, 0x0, 0x0, 0x0, 0x960700b0⟩,
  ⟨0x4, 1, .rw, 0x101, 0x0, 0x0, 0x0, 0x101⟩,
  ⟨0x8, 1, .ro, 0x0, 0x0, 0x0, 0x0, 0x0⟩,
  ⟨0xc, 1, .w1c, 0x0, 0xff, 0x0, 0x0, 0x0⟩,
  ⟨0x10, 1, .rw, 0xff, 0x0, 0x0, 0x0, 0xff⟩,
  ⟨0x14, 1, .ro, 0x0, 0x0, 0x0, 0x0, 0x0⟩,
  ⟨0x18, 1, .ro, 0x0, 0x0, 0x0, 0x0, 0x0⟩,
  ⟨0x1c, 1, .wo, 0x0, 0x0, 0x0, 0x0, 0x0⟩,
  ⟨0x20, 1, .rw, 0xffff, 0x0, 0x0, 0x0, 0xc8⟩,
  ⟨0x24, 1, .ro, 0x0, 0x0, 0x0, 0x0, 0x0⟩,
  ⟨0x28, 1, .rw, 0x3f, 0x0, 0x0, 0x0, 0x0⟩,
  ⟨0x2c, 1, .ro, 0x0, 0x0, 0x0, 0x0, 0x28⟩,
  ⟨0x30, 1, .ro, 0x0, 0x0, 0x0, 0x0, 0x28⟩,
  ⟨0x34, 1, .ro, 0x0, 0x0, 0x0, 0x0, 0x0⟩,
  ⟨0x38, 1, .ro, 0x0, 0x0, 0x0, 0x0, 0x0⟩,
  ⟨0x3c, 1, .rw, 0xffff, 0x0, 0x0, 0x0, 0x3e8⟩,
  ⟨0x40, 1, .ro, 0x0, 0x0, 0x0, 0x0, 0x0⟩,
  ⟨0x44, 1, .rs, 0x0, 0x0, 0x0, 0x0, 0x0⟩,
  ⟨0x48, 1, .ro, 0x0, 0x0, 0x0, 0x0, 0x0⟩,
  ⟨0x4c, 1, .ro, 0x0, 0x0, 0x0, 0x0, 0x0⟩]

def rowsRLG1 : List RegRow := [
  ⟨0x50, 1, .ro, 0x0, 0x0, 0x0, 0x0, 0x0⟩,
  ⟨0x54, 1, .rw, 0xffff, 0x0, 0x0, 0x0, 0x1388⟩,
  ⟨0x58, 1, .rwl, 0x0, 0x0, 0x0, 0xffffffff, 0xa00050⟩,
  ⟨0x5c, 1, .rwl, 0x0, 0x0, 0x0, 0xffffffff, 0x50076c⟩]

def rowsRLG : List RegRow := rowsRLG0 ++ rowsRLG1

/-! ### MEM -/

def R_MEM_ID : Nat := 0x60000
def R_MEM_CTL : Nat := 0x60004
def R_MEM_INTSTAT : Nat := 0x60008
def R_MEM_INTEN : Nat := 0x6000c
def R_MEM_SEL : Nat := 0x60010
def R_MEM_SCRCFG : Nat := 0x60014
def R_MEM_LEAKCFG : Nat := 0x60018
def R_MEM_BUCKET : Nat := 0x6001c
def R_MEM_CECNT : Nat := 0x60020
def R_MEM_UECNT : Nat := 0x60024
def R_MEM_ERRADDR : Nat := 0x60028
def R_MEM_SCRPOS : Nat := 0x6002c

def rowsMEM0 : List RegRow := [
  ⟨0x0, 1, .ro, 0x0, 0x0, 0x0, 0x0, 0x960600b0⟩,
  ⟨0x4, 1, .rw, 0x7f, 0x0, 0x0, 0x0, 0x7f⟩,
  ⟨0x8, 1, .w1c, 0x0, 0x17f, 0x0, 0x0, 0x0⟩,
  ⟨0xc, 1, .rw, 0x17f, 0x0, 0x0, 0x0, 0x17f⟩,
  ⟨0x10, 1, .rw, 0x7, 0x0, 0x0, 0x0, 0x0⟩,
  ⟨0x14, 1, .rw, 0xfffff, 0x0, 0x0, 0x0, 0x0⟩,
  ⟨0x18, 1, .rw, 0xffffffff, 0x0, 0x0, 0x0, 0x3e80110⟩,
  ⟨0x1c, 1, .ro, 0x0, 0x0, 0x0, 0x0, 0x0⟩,
  ⟨0x20, 1, .rs, 0x0, 0x0, 0x0, 0x0, 0x0⟩,
  ⟨0x24, 1, .rs, 0x0, 0x0, 0x0, 0x0, 0x0⟩,
  ⟨0x28, 1, .ro, 0x0, 0x0, 0x0, 0x0, 0x0⟩,
  ⟨0x2c, 1, .ro, 0x0, 0x0, 0x0, 0x0, 0x0⟩]

def rowsMEM : List RegRow := rowsMEM0

/-! ### DRC -/

def R_DRC_ID : Nat := 0x20a0000
def R_DRC_CTL : Nat := 0x20a0004
def R_DRC_STAT : Nat := 0x20a0008
def R_DRC_INTSTAT : Nat := 0x20a000c
def R_DRC_INTEN : Nat := 0x20a0010
def R_DRC_SIZE : Nat := 0x20a0014
def R_DRC_DSIZE : Nat := 0x20a001c
def R_DRC_MIRBASE : Nat := 0x20a0024
def R_DRC_MIRSIZE : Nat := 0x20a0028
def R_DRC_SCRCFG : Nat := 0x20a002c
def R_DRC_SCRPOS : Nat := 0x20a0034
def R_DRC_BUCKET : Nat := 0x20a003c
def R_DRC_LEAKCFG : Nat := 0x20a0044
def R_DRC_CECNT : Nat := 0x20a0048
def R_DRC_UECNT : Nat := 0x20a0050
def R_DRC_ERRADDR : Nat := 0x20a0058

def rowsDRC0 : List RegRow := [
  ⟨0x0, 1, .ro, 0x0, 0x0, 0x0, 0x0, 0x960a00b0⟩,
  ⟨0x4, 1, .rw, 0x33, 0x0, 0x0, 0x0, 0x0⟩,
  ⟨0x8, 1, .ro, 0x0, 0x0, 0x0, 0x0, 0x0⟩,
  ⟨0xc, 1, .w1c, 0x0, 0xf, 0x0, 0x0, 0x0⟩,
  ⟨0x10, 1, .rw, 0xf, 0x0, 0x0, 0x0, 0xf⟩,
  ⟨0x14, 2, .rwl, 0x0, 0x0, 0x0, 0xffff, 0x0⟩,
  ⟨0x1c, 2, .ro, 0x0, 0x0, 0x0, 0x0, 0x0⟩,
  ⟨0x24, 1, .rw, 0xffff, 0x0, 0x0, 0x0, 0x0⟩,
  ⟨0x28, 1, .rw, 0xffff, 0x0, 0x0, 0x0, 0x0⟩,
  ⟨0x2c, 2, .rw, 0xfffff, 0x0, 0x0, 0x0, 0xe10⟩,
  ⟨0x34, 2, .ro, 0x0, 0x0, 0x0, 0x0, 0x0⟩,
  ⟨0x3c, 2, .ro, 0x0, 0x0, 0x0, 0x0, 0x0⟩,
  ⟨0x44, 1, .rw, 0xffffffff, 0x0, 0x0, 0x0, 0x3e80110⟩,
  ⟨0x48, 2, .rs, 0x0, 0x0, 0x0, 0x0, 0x0⟩,
  ⟨0x50, 2, .rs, 0x0, 0x0, 0x0, 0x0, 0x0⟩,
  ⟨0x58, 2, .ro, 0x0, 0x0, 0x0, 0x0, 0x0⟩]

def rowsDRC : List RegRow := rowsDRC0

/-! ### EVR -/

def R_EVR_ID : Nat := 0x20b0000
def R_EVR_CTL : Nat := 0x20b0004
def R_EVR_STAT : Nat := 0x20b0008
def R_EVR_INTSTAT : Nat := 0x20b000c
def R_EVR_INTEN : Nat := 0x20b0010
def R_EVR_SEQ : Nat := 0x20b0014
def R_EVR_OT_LO : Nat := 0x20b0018
def R_EVR_OT_HI : Nat := 0x20b001c
def R_EVR_CALSET_LO : Nat := 0x20b0020
def R_EVR_CALSET_HI : Nat := 0x20b0024
def R_EVR_BKTSEL : Nat := 0x20b0028
def R_EVR_BKTCFG : Nat := 0x20b002c

def rowsEVR0 : List RegRow := [
  ⟨0x0, 1, .ro, 0x0, 0x0, 0x0, 0x0, 0x960b00b0⟩,
  ⟨0x4, 1, .rw, 0xffffff03, 0x0, 0x0, 0x0, 0x3e80a03⟩,
  ⟨0x8, 1, .ro, 0x0, 0x0, 0x0, 0x0, 0x0⟩,
  ⟨0xc, 1, .w1c, 0x0, 0x7f, 0x0, 0x0, 0x0⟩,
  ⟨0x10, 1, .rw, 0x7f, 0x0, 0x0, 0x0, 0x7f⟩,
  ⟨0x14, 1, .ro, 0x0, 0x0, 0x0, 0x0, 0x0⟩,
  ⟨0x18, 1, .rs, 0x0, 0x0, 0x0, 0x0, 0x0⟩,
  ⟨0x1c, 1, .ro, 0x0, 0x0, 0x0, 0x0, 0x0⟩,
  ⟨0x20, 1, .wo, 0x0, 0x0, 0x0, 0x0, 0x0⟩,
  ⟨0x24, 1, .wo, 0x0, 0x0, 0x0, 0x0, 0x0⟩,
  ⟨0x28, 1, .rw, 0x7ff, 0x0, 0x0, 0x0, 0x0⟩,
  ⟨0x2c, 1, .rw, 0xffffff, 0x0, 0x0, 0x0, 0x20000a20⟩]

def rowsEVR : List RegRow := rowsEVR0

/-! ### CRY -/

def R_CRY_ID : Nat := 0x2100000
def R_CRY_CTL : Nat := 0x2100004
def R_CRY_STAT : Nat := 0x2100008
def R_CRY_INTSTAT : Nat := 0x210000c
def R_CRY_INTEN : Nat := 0x2100010
def R_CRY_CMD : Nat := 0x2100014
def R_CRY_SRC_LO : Nat := 0x2100018
def R_CRY_SRC_HI : Nat := 0x210001c
def R_CRY_LEN : Nat := 0x2100020
def R_CRY_DST_LO : Nat := 0x2100024
def R_CRY_DST_HI : Nat := 0x2100028
def R_CRY_RESULT : Nat := 0x210002c
def R_CRY_DRBG : Nat := 0x2100030
def R_CRY_KSTAT_LO : Nat := 0x2100034
def R_CRY_KSTAT_HI : Nat := 0x2100038
def R_CRY_SVN : Nat := 0x210003c

def rowsCRY0 : List RegRow := [
  ⟨0x0, 1, .ro, 0x0, 0x0, 0x0, 0x0, 0x961000b0⟩,
  ⟨0x4, 1, .rw, 0x1, 0x0, 0x0, 0x0, 0x1⟩,
  ⟨0x8, 1, .ro, 0x0, 0x0, 0x0, 0x0, 0x0⟩,
  ⟨0xc, 1, .w1c, 0x0, 0xf, 0x0, 0x0, 0x0⟩,
  ⟨0x10, 1, .rw, 0xf, 0x0, 0x0, 0x0, 0xf⟩,
  ⟨0x14, 1, .wo, 0x0, 0x0, 0x0, 0x0, 0x0⟩,
  ⟨0x18, 1, .rw, 0xffffffff, 0x0, 0x0, 0x0, 0x0⟩,
  ⟨0x1c, 1, .rw, 0xffff, 0x0, 0x0, 0x0, 0x0⟩,
  ⟨0x20, 1, .rw, 0xffffffff, 0x0, 0x0, 0x0, 0x0⟩,
  ⟨0x24, 1, .rw, 0xffffffff, 0x0, 0x0, 0x0, 0x0⟩,
  ⟨0x28, 1, .rw, 0xffff, 0x0, 0x0, 0x0, 0x0⟩,
  ⟨0x2c, 1, .ro, 0x0, 0x0, 0x0, 0x0, 0x0⟩,
  ⟨0x30, 1, .rs, 0x0, 0x0, 0x0, 0x0, 0x0⟩,
  ⟨0x34, 1, .ro, 0x0, 0x0, 0x0, 0x0, 0x0⟩,
  ⟨0x38, 1, .ro, 0x0, 0x0, 0x0, 0x0, 0x0⟩,
  ⟨0x3c, 1, .ro, 0x0, 0x0, 0x0, 0x0, 0x0⟩]

def rowsCRY : List RegRow := rowsCRY0

/-! ### RCP -/

def R_RCP_ID : Nat := 0x20c0000
def R_RCP_CTL : Nat := 0x20c0004
def R_RCP_STAT : Nat := 0x20c0008
def R_RCP_INTSTAT : Nat := 0x20c000c
def R_RCP_INTEN : Nat := 0x20c0010
def R_RST_CAUSE : Nat := 0x20c0014
def R_RCP_STRAP : Nat := 0x20c0018
def R_RCP_SWRST : Nat := 0x20c001c
def R_RCP_BLKRST : Nat := 0x20c0020
def R_RCP_BLKRSTAT : Nat := 0x20c0024
def R_RCP_RWDCFG : Nat := 0x20c0028
def R_RCP_RWDKICK : Nat := 0x20c0030
def R_RCP_BWDSEL : Nat := 0x20c0038
def R_RCP_BWDCFG : Nat := 0x20c003c
def R_RCP_PDSEL : Nat := 0x20c0040
def R_RCP_PDCTL : Nat := 0x20c0044
def R_RCP_PDSTAT : Nat := 0x20c0048
def R_RCP_PDSUM : Nat := 0x20c004c
def R_RCP_PSTATE : Nat := 0x20c0058
def R_RCP_BOOTTIME : Nat := 0x20c005c

def rowsRCP0 : List RegRow := [
  ⟨0x0, 1, .ro, 0x0, 0x0, 0x0, 0x0, 0x960c00b0⟩,
  ⟨0x4, 1, .rw, 0x11, 0x0, 0x0, 0x0, 0x1⟩,
  ⟨0x8, 1, .ro, 0x0, 0x0, 0x0, 0x0, 0x0⟩,
  ⟨0xc, 1, .w1c, 0x0, 0x3f, 0x0, 0x0, 0x0⟩,
  ⟨0x10, 1, .rw, 0x3f, 0x0, 0x0, 0x0, 0x1e⟩,
  ⟨0x14, 1, .w1c, 0x0, 0x7ffff, 0x0, 0x0, 0xf⟩,
  ⟨0x18, 1, .ro, 0x0, 0x0, 0x0, 0x0, 0x0⟩,
  ⟨0x1c, 1, .wo, 0x0, 0x0, 0x0, 0x0, 0x0⟩,
  ⟨0x20, 1, .wo, 0x0, 0x0, 0x0, 0x0, 0x0⟩,
  ⟨0x24, 1, .ro, 0x0, 0x0, 0x0, 0x0, 0x0⟩,
  ⟨0x28, 2, .rw, 0x80003fff, 0x0, 0x0, 0x0, 0x800003e8⟩,
  ⟨0x30, 2, .wo, 0x0, 0x0, 0x0, 0x0, 0x0⟩,
  ⟨0x38, 1, .rw, 0x13f, 0x0, 0x0, 0x0, 0x0⟩,
  ⟨0x3c, 1, .rw, 0x80003fff, 0x0, 0x0, 0x0, 0x80000064⟩,
  ⟨0x40, 1, .rw, 0x7f, 0x0, 0x0, 0x0, 0x0⟩,
  ⟨0x44, 1, .wo, 0x0, 0x0, 0x0, 0x0, 0x0⟩,
  ⟨0x48, 1, .ro, 0x0, 0x0, 0x0, 0x0, 0x0⟩,
  ⟨0x4c, 3, .ro, 0x0, 0x0, 0x0, 0x0, 0x0⟩,
  ⟨0x58, 1, .rw, 0x7, 0x0, 0x0, 0x0, 0x0⟩,
  ⟨0x5c, 1, .ro, 0x0, 0x0, 0x0, 0x0, 0x0⟩]

def rowsRCP : List RegRow := rowsRCP0

/-! ### FUS -/

def R_FUS_ID : Nat := 0x20f0000
def R_FUS_STAT : Nat := 0x20f0004
def R_FUS_INTSTAT : Nat := 0x20f0008
def R_FUS_INTEN : Nat := 0x20f000c
def R_FUS_SEL : Nat := 0x20f0010
def R_FUS_DATA : Nat := 0x20f0014
def R_FUS_CRC : Nat := 0x20f0018
def R_FUS_PROG : Nat := 0x20f001c

def rowsFUS0 : List RegRow := [
  ⟨0x0, 1, .ro, 0x0, 0x0, 0x0, 0x0, 0x960f00b0⟩,
  ⟨0x4, 1, .ro, 0x0, 0x0, 0x0, 0x0, 0x0⟩,
  ⟨0x8, 1, .w1c, 0x0, 0x7, 0x0, 0x0, 0x0⟩,
  ⟨0xc, 1, .rw, 0x7, 0x0, 0x0, 0x0, 0x7⟩,
  ⟨0x10, 1, .rw, 0x3ff, 0x0, 0x0, 0x0, 0x0⟩,
  ⟨0x14, 1, .ro, 0x0, 0x0, 0x0, 0x0, 0x0⟩,
  ⟨0x18, 1, .ro, 0x0, 0x0, 0x0, 0x0, 0x0⟩,
  ⟨0x1c, 1, .wo, 0x0, 0x0, 0x0, 0x0, 0x0⟩]

def rowsFUS : List RegRow := rowsFUS0

/-! ### GPD -/

def R_GPD_ID : Nat := 0x2110000
def R_GPD_CTL : Nat := 0x2110004
def R_GPD_STAT : Nat := 0x2110008
def R_GPD_INTSTAT : Nat := 0x211000c
def R_GPD_INTEN : Nat := 0x2110010
def R_GPD_DIR : Nat := 0x2110014
def R_GPD_OUT : Nat := 0x2110018
def R_GPD_IN : Nat := 0x211001c
def R_GPD_PULL : Nat := 0x2110020
def R_GPD_ALT : Nat := 0x2110024
def R_GPD_ACTCFG : Nat := 0x2110028
def R_GPD_DBGCTL : Nat := 0x211002c

def rowsGPD0 : List RegRow := [
  ⟨0x0, 1, .ro, 0x0, 0x0, 0x0, 0x0, 0x961100b0⟩,
  ⟨0x4, 1, .rw, 0xffff0001, 0x0, 0x0, 0x0, 0x0⟩,
  ⟨0x8, 1, .ro, 0x0, 0x0, 0x0, 0x0, 0x0⟩,
  ⟨0xc, 1, .w1c, 0x0, 0x7ffff, 0x0, 0x0, 0x0⟩,
  ⟨0x10, 1, .rw, 0x7ffff, 0x0, 0x0, 0x0, 0x70000⟩,
  ⟨0x14, 1, .rw, 0xffff, 0x0, 0x0, 0x0, 0x0⟩,
  ⟨0x18, 1, .rw, 0xffff, 0x0, 0x0, 0x0, 0x0⟩,
  ⟨0x1c, 1, .ro, 0x0, 0x0, 0x0, 0x0, 0x0⟩,
  ⟨0x20, 1, .rw, 0xffffffff, 0x0, 0x0, 0x0, 0xffff⟩,
  ⟨0x24, 1, .rw, 0xff80, 0x0, 0x0, 0x0, 0x0⟩,
  ⟨0x28, 1, .rw, 0xff03, 0x0, 0x0, 0x0, 0xa02⟩,
  ⟨0x2c, 1, .rwl, 0x0, 0x0, 0x0, 0x7, 0x3⟩]

def rowsGPD : List RegRow := rowsGPD0

/-- The rows of the block at a base address (Tables 22.2, 22.3). -/
def blockRows (base : Nat) : Option (List RegRow) :=
  match base with
  | 0x0 => some rowsSPU
  | 0x10000 => some rowsCST
  | 0x20000 => some rowsANG
  | 0x2000000 => some rowsSTT
  | 0x2010000 => some rowsSTT
  | 0x2020000 => some rowsSTT
  | 0x2030000 => some rowsSTT
  | 0x30000 => some rowsDEC
  | 0x2040000 => some rowsQLK
  | 0x2048000 => some rowsQLK
  | 0x40000 => some rowsCEN
  | 0x20e0000 => some rowsMTR
  | 0x20d0000 => some rowsMON
  | 0x50000 => some rowsSTE
  | 0x2090000 => some rowsZTB
  | 0x70000 => some rowsCRN
  | 0x2050000 => some rowsHPT
  | 0x2058000 => some rowsHPT
  | 0x2060000 => some rowsNVE
  | 0x2080000 => some rowsHDG
  | 0x2070000 => some rowsRLG
  | 0x60000 => some rowsMEM
  | 0x20a0000 => some rowsDRC
  | 0x20b0000 => some rowsEVR
  | 0x2100000 => some rowsCRY
  | 0x20c0000 => some rowsRCP
  | 0x20f0000 => some rowsFUS
  | 0x2110000 => some rowsGPD
  | _ => none

/-- The row that holds an offset of a block. -/
def rowAt : List RegRow → Nat → Option RegRow
  | [], _ => none
  | r :: t, o => if r.off ≤ o ∧ o < r.off + 4 * r.n then some r else rowAt t o

/-- The base of the block of a key: 32 KiB regions for QLK and HPT, 64 KiB for the others. -/
def blockBase (key : Nat) : Nat :=
  let k := if key < 0x2000000 then key % 0x1000000 else key
  if 0x2040000 ≤ k ∧ k < 0x2060000 then k / 0x8000 * 0x8000 else k / 0x10000 * 0x10000

/-- The offset of a key in its block, word-aligned (R440). -/
def blockOff (key : Nat) : Nat :=
  let k := if key < 0x2000000 then key % 0x1000000 else key
  (k - blockBase key) / 4 * 4

/-- The table row of a key. -/
def regRow (key : Nat) : Option RegRow :=
  match blockRows (blockBase key) with
  | none => none
  | some rows => rowAt rows (blockOff key)

/-- Reset values that differ between copies of a block: the identity digit of STT, QLK and HPT, and DEC_STRMAP of
Ridge B. -/
def resetFix (key : Nat) : Option Nat :=
  match key with
  | 0x2010000 => some 0x962010B0
  | 0x2020000 => some 0x962020B0
  | 0x2030000 => some 0x962030B0
  | 0x2048000 => some 0x964010B0
  | 0x2058000 => some 0x965010B0
  | 0x1030014 => some 0xBBAA
  | _ => none

/-- What a register reads at reset: the table's value (R398). -/
def regInit (key : Nat) : Word :=
  match resetFix key with
  | some v => BitVec.ofNat 32 v
  | none =>
    match regRow key with
    | some r => BitVec.ofNat 32 r.init
    | none => 0

end Sys2Proof.Machine
end

