-- ==== Sys2Proof/Machine/StateStripe.lean ====
section
/-!
DEFINITION. The stripe engine, the Zone Table, members and their rebuild, the Cairn banks and the protected window
(chapters 11 to 13).
-/
namespace Sys2Proof.Machine

/-- Modes of a stripe buffer (R235). -/
inductive BufMode where
  | free
  | seal
  | sealed
  | recon
  | scrub
deriving DecidableEq, Repr

structure StripeBuf where
  mode : BufMode
  /-- Last acquirer (STE_BUFOWN). -/
  owner : Option CtxId
  poison : Bool
  /-- Sectors landed per index (0–9, 14 P, 15 Q). -/
  landed : Sparse Word
  d : Nat
  x : Nat
  y : Nat
  first : Nat
  count : Nat
  addr : Nat
  key : BitVec 26
  /-- Sector contents, empty for zeros, and poisoned sectors, keyed by 32 · slot + sector. -/
  secs : Sparse (List Byte)
  bad : Sparse Bool
  /-- Line 8 has been raised for the data of this stripe. -/
  told : Bool
  req : Option CtxId
  /-- A release that waits for the sector that reads the buffer (R240). -/
  relWait : Bool
deriving DecidableEq, Repr

def StripeBuf.default : StripeBuf := ⟨.free, none, false, [], 0, 0, 0, 0, 0, 0, 0, [], [], false, none, false⟩

/-- A MOVE whose sectors land one by one (R236). -/
structure MoveOp where
  ctx : CtxId
  buf : Nat
  idx : Nat
  sector : Nat
  left : Nat
  addr : Nat
deriving DecidableEq, Repr

structure Ste where
  bufs : Sparse StripeBuf
  moves : List MoveOp
  results : List DWord
  resHi : Word
  scrubStripe : Nat
  scrubBg : Nat
  refused : Word
deriving DecidableEq, Repr

/-- A Zone Table entry (Table 11.6). -/
structure ZEntry where
  w0 : DWord
  w1 : DWord
  w2 : DWord
  w3 : DWord
deriving DecidableEq, Repr

def ZEntry.default : ZEntry := ⟨0, 0, 0, 0⟩

/-- The Zone Table; both copies hold the same content (R14, R248). -/
structure Ztb where
  entries : Sparse ZEntry
  gen : Word
  scanBusy : Bool
  /-- Arguments of the search under way, taken at GO. -/
  scanArg : Word
  scanRes : Word
  lastRef : Word
deriving DecidableEq, Repr

/-- Member states, Table 12.1. -/
inductive MemberSt where
  | online
  | suspect
  | failed
  | retired
deriving DecidableEq, Repr

/-- A member record: its state and last trigger, the operating times in ms at which its sectors were recovered at L3
(R255), and one more than the operating time of its last change of state, 0 before any. -/
structure Member where
  st : MemberSt
  trigger : Nat
  l3 : List Nat
  since : Nat
deriving DecidableEq, Repr

def Member.default : Member := ⟨.online, 0, [], 0⟩

/-- A poisoned range (R270). -/
structure Poison where
  ns : Nat
  lba : Nat
  count : Nat
deriving DecidableEq, Repr

/-- A line of log page C2h (R343). -/
structure Deferred where
  ns : Nat
  lba : Nat
  count : Nat
  asn : DWord
  cause : Nat
  /-- LBAs of the range not yet written over (R343). -/
  left : List (Nat × Nat)
deriving DecidableEq, Repr

/-- Redundancy state of an actuator (R260–R274). -/
structure Redun where
  gC : Nat
  gT : Nat
  dT : Nat
  reshape : Bool
  waiting : Bool
  lost : Bool
  /-- The band group in rebuild and the stripe last checkpointed (R267). -/
  cur : Option Nat
  /-- Entry and member band slot that a migration fills (R261). -/
  target : Option (Nat × Nat)
  stripe : Nat
  ckpt : Nat
  /-- Entries already rebuilt to the present target. -/
  doneList : List Nat
  /-- Entries cut over whose STGCNT is not yet 0 (R261), and zones that carry Zone Finished by Controller (R263) and
  Reset Zone Recommended (R264). -/
  oldEnts : List Nat
  finished : List Nat
  resetRec : List Nat
  /-- Media window of R266: stream-revolutions that rebuild is owed in it. -/
  winOwed : Nat
  poison : List Poison
  /-- Operating times in ms of the last two retracts that ended by timeout, the latest first (R274). -/
  retTimes : List Nat
  /-- Operating time in ms at which the rebuild or reshape began (Table 12.5). -/
  startOt : Nat
  /-- Stripes of N written and not checkpointed at an interruption: dead space in it (R267). -/
  dead : Nat
  /-- Scrub: the entry and stripe it reads next, and passes that ran late. -/
  scrubEntry : Nat
  scrubStripe : Nat
  relogged : Nat
  /-- SUSPECT members that a reshape retires ahead of failure (R273). -/
  leaving : List Nat
  /-- Entries sent OFFLINE because the poison list was full (R270). -/
  flooded : List Nat
deriving DecidableEq, Repr

/-- Where a read finds an LBA's data (R327): a window slot, a data sector of a band group with its entry, the reference
expected of it and the write generation, a sector filled with zeros by a Zone Finish (R245), never written, or poisoned
(R270). -/
inductive RdSrc where
  | slot (n : Nat)
  | media (entry k : Nat) (ref : DWord) (wgen : Nat)
  | zeros
  | blank
  | poisoned
deriving DecidableEq, Repr

/-- A piece in the protected window (R291–R293). -/
structure Piece where
  asn : DWord
  ns : Nat
  lba : Nat
  blocks : Nat
  slot : Nat
  home : Nat
  hostId : BitVec 128
  cmd : Option Nat
  /-- Sectors of the piece released so far, by their offset in it (R16). -/
  gone : List Nat
deriving DecidableEq, Repr

/-- The Cairn (R279–R302). Both banks are kept; `line` contents are those of a written line. -/
structure Crn where
  banks : Two (Sparse (BitVec 512))
  head : Nat
  tail : Nat
  lastCut : Nat
  /-- Image sequence of the newest COMPACT record. -/
  image : Nat
  usable : Two Bool
  resync : Two Bool
  replayed : Bool
  halted : Bool
deriving DecidableEq, Repr

/-- The protected window: pieces held, pending deferred reports. -/
structure Win where
  pieces : List Piece
  deferred : List Deferred
  deferGen : Nat
  reports : List (Nat × BitVec 128)
  /-- Sectors written in the emergency flush of each actuator, and whether it has stopped (R298). -/
  flushed : Two Nat
  flushing : Two Bool
  stopCause : Nat
  /-- Places in the flush order whose sector both DRAM copies hold poisoned (R19, R301). -/
  unread : Two (List Nat)
  /-- The staging index (R243) and the conventional map (R241), which firmware keeps in mirrored DRAM. -/
  staged : List StgCopy
  map : List MapEnt
  /-- Stripes recorded on media by an ONMEDIA record: seal key, and the entry's write generation (R16, R244). -/
  recorded : List (Nat × Nat)
  /-- Zones finished with a partial last stripe: entry, first zero-filled sector, count (R245). -/
  fills : List (Nat × Nat × Nat)
  /-- Pieces named by DEFER records, by ASN and first LBA (R301), and those to be reported after the next power-on
  (R18). -/
  defers : List (DWord × Nat)
  unsaid : List (Deferred × BitVec 128)
  /-- A FLUSH record stands that no replay has processed (Table 13.4, step 5). -/
  flushRec : Bool
  /-- A power loss has cleared the DRAM since the last replay. -/
  dramLost : Bool
deriving DecidableEq, Repr

def Ste.reset : Ste := ⟨[], [], [], 0, 0, 0, 0⟩

def Ztb.reset : Ztb := ⟨[], 0, false, 0, 0, 0⟩

def Redun.reset : Redun where
  gC := 0
  gT := 0
  dT := 10
  reshape := false
  waiting := false
  lost := false
  cur := none
  target := none
  stripe := 0
  ckpt := 0
  doneList := []
  oldEnts := []
  finished := []
  resetRec := []
  winOwed := 0
  poison := []
  retTimes := []
  startOt := 0
  dead := 0
  scrubEntry := 0
  scrubStripe := 0
  relogged := 0
  leaving := []
  flooded := []

def Crn.reset : Crn where
  banks := ⟨[], []⟩
  head := 0
  tail := 0
  lastCut := 0
  image := 0
  usable := ⟨false, false⟩
  resync := ⟨false, false⟩
  replayed := false
  halted := false

def Win.reset : Win where
  pieces := []
  deferred := []
  deferGen := 0
  reports := []
  flushed := ⟨0, 0⟩
  flushing := ⟨false, false⟩
  stopCause := 0
  unread := ⟨[], []⟩
  staged := []
  map := []
  recorded := []
  fills := []
  defers := []
  unsaid := []
  flushRec := false
  dramLost := false

end Sys2Proof.Machine
end

