-- ==== Sys2Proof/Machine/StateHost.lean ====
section
/-!
DEFINITION. The host ports, the admission engine with its controllers, queues and command contexts, the Hedge, the
management interfaces and the pins (chapters 14, 15 and 21).
-/
namespace Sys2Proof.Machine

/-- A completion queue entry: the status is [14:11] DNR and type, [10:3] code as `DNR·2^14 + type·2^8 + code`. -/
structure Cpl where
  cid : BitVec 16
  sqid : Nat
  status : Nat
  dw0 : Word
  dw1 : Word
deriving DecidableEq, Repr

structure Sq where
  qid : Nat
  size : Nat
  head : Nat
  tail : Nat
  cqid : Nat
  /-- Priority class under weighted round robin: 0 urgent, 1 high, 2 medium, 3 low. -/
  prio : Nat
deriving DecidableEq, Repr

/-- A completion queue: entries posted and not consumed by the host, oldest first, and the host's head. -/
structure Cq where
  qid : Nat
  size : Nat
  head : Nat
  entries : List Cpl
deriving DecidableEq, Repr

structure Ctrl where
  en : Bool
  rdy : Bool
  shst : Nat
  /-- CC.AMS is weighted round robin. -/
  wrr : Bool
  hostId : BitVec 128
  features : Sparse Word
  /-- Feature values saved for the next reset (Table 14.2). -/
  saved : Sparse Word
  sqs : List Sq
  cqs : List Cq
  qalloc : Nat
  /-- Asynchronous Event Requests held, oldest first, by context index. -/
  aers : List Nat
  /-- Vendor asynchronous events masked until their page is read (R318). -/
  masked : List Nat
  /-- Vendor events raised while no request was outstanding. -/
  events : List Nat
  /-- The I/O submission queue served last, and how many commands in a row (R310). -/
  turn : Option (Nat × Nat)
deriving DecidableEq, Repr

/-- A command in flight, in its command context (R310, R338). -/
structure Cmd where
  idx : Nat
  asn : DWord
  ctrl : Nat
  sq : Nat
  sqe : Sqe
  /-- Host Identifier of its controller at admission (R341). -/
  host : BitVec 128
  /-- The Hedge entry taken; and that it waits for one (R325). -/
  hedge : Option Nat
  hedgeWait : Bool
  /-- It has passed its admission checks. -/
  checked : Bool
  slba : Nat
  blocks : Nat
  /-- Ranges still to take after the present one (DSM spans, zones of Select All). -/
  spans : List (Nat × Nat)
  committed : Bool
  abortReq : Bool
  /-- The status an aborted command completes with. -/
  abortStat : Nat
  /-- Blocks committed so far (R293). -/
  done : Nat
  /-- Waits in the queue of P_HQ_POP; and the context that popped it. -/
  ready : Bool
  holder : Option CtxId
  /-- Read: sources are fixed (R327). -/
  released : Bool
  /-- The Abort that completes after this command (R338). -/
  abortedBy : Option Nat
  /-- The preempted commands it completes after (R340). -/
  waitsFor : List Nat
  /-- Blocks with their metadata: to write, as they come from the host with any PI inserted; of a read, as they leave.
  -/
  data : List (List Byte)
  /-- The pieces still to commit (R293). -/
  pieces : List (Nat × Nat)
  /-- Read: the source of each block, fixed at its release (R327); and that every block passed its checks (R17). -/
  srcs : List RdSrc
  readOk : Bool
deriving DecidableEq, Repr

/-- Hedge kinds, Table 15.2. -/
inductive HKind where
  | read
  | write
  | zone
  | dsm
deriving DecidableEq, Repr

structure HEntry where
  committed : Bool
  kind : HKind
  ns : Nat
  slba : Nat
  count : Nat
  cmd : Nat
  asn : DWord
deriving DecidableEq, Repr

/-- Reservation state of a namespace (R340). -/
structure Resv where
  rtype : Nat
  holder : Option (BitVec 128)
  regs : List (BitVec 128 × DWord)
  gen : Nat
  ptpl : Bool
deriving DecidableEq, Repr

structure Ns where
  size : Nat
  attached : List Nat
  resv : Resv
  /-- Its NVE_NSCFG but READY, as the journal keeps it. -/
  cfg : Word
deriving DecidableEq, Repr

/-- A staged completion, waiting for its queue (R312). -/
structure Staged where
  ctrl : Nat
  cqid : Nat
  cpl : Cpl
deriving DecidableEq, Repr

structure Nve where
  /-- By CNTLID (R308); an unlisted one stands as after reset. -/
  ctrls : Sparse Ctrl
  cmds : List Cmd
  asn : DWord
  limit : DWord
  limLo : Word
  cfg : Sparse Word
  nss : Sparse (Option Ns)
  /-- Admitted write pointers, keyed by 131,072 · (NSID − 1) + zone (R331). -/
  awp : Sparse (Option Nat)
  staging : List Staged
  highCtx : Nat
  /-- The last limit journaled (R311). -/
  asnLast : DWord
  /-- Firmware: the image being downloaded, the slots and the slot in use (R322). -/
  fwStage : List Byte
  fwSlots : Sparse (Option (List Byte))
  fwActive : Nat
  fwNext : Option Nat
  selfTest : Option Nat
  sanitized : Nat
  /-- Time stamp set by Feature 0Eh, in ms. -/
  timestamp : Nat
  /-- The Error Information log, newest first: controller, status, LBA (R317). -/
  errors : List (Nat × Nat × Nat)
  /-- The data that the last Get Log Page or Identify returned. -/
  dataIn : List Byte
deriving DecidableEq, Repr

structure Hdg where
  entries : Sparse (Option HEntry)
  high : Nat
  /-- Contexts that wait on an entry (R328). -/
  blocked : Sparse (List CtxId)
deriving DecidableEq, Repr

/-- A host port. -/
structure Hpt where
  dlUp : Bool
  speed : Nat
  width : Nat
  inL1 : Bool
  perstCount : Nat
  numVfs : Nat
  vfEn : Bool
  inReset : Bool
  /-- Counters of errors and TLPs (by offset) read since the port last moved anything: they read 0 (R6). -/
  seen : List Nat
deriving DecidableEq, Repr

/-- Answers of the management interfaces: the NVMe-MI basic command, and the SPDM messages of R321 with the errors that
R321 and R395 name (or the SPDM standard gives). -/
inductive MgmtReply where
  | basic (w : DWord)
  | version
  | capabilities
  | algorithms
  | digests (d : BitVec 384)
  | certificate (chain : List Byte)
  | challengeAuth (sig : BitVec 768)
  | measurements (ms : List (Nat × BitVec 384))
  | busy
  | unsupported
  | unexpected
  | invalid
deriving DecidableEq, Repr

/-- SMBus and MCTP: the last answer, the SPDM negotiation so far (R321), and that the device holds the SMBus. -/
structure Mgmt where
  reply : Option MgmtReply
  spdmVersion : Bool
  spdmCaps : Bool
  spdmAlgs : Bool
  smbBusy : Bool
deriving DecidableEq, Repr

/-- Pins of the logic die (chapter 21). -/
structure Pins where
  gpioIn : BitVec 16
  pwrdis : Bool
  resetN : Bool
  thermTrip : Bool
  /-- The TAP instruction in force: 0 BYPASS, 1 IDCODE, 2 and up boundary scan; and its data register (R437). -/
  jtagIr : Nat
  jtagDr : Word
  /-- Phase of a blinking ACT_N (R436). -/
  blinkLow : Bool
  /-- The last record of the debug trace stream (R72, R435): context, TAG and word address. -/
  traceRec : Option (CtxId × Byte × CsAddr)
deriving DecidableEq, Repr

def Ctrl.reset (q : Nat) : Ctrl where
  en := false
  rdy := false
  shst := 0
  wrr := false
  hostId := 0
  features := []
  saved := []
  sqs := []
  cqs := []
  qalloc := q
  aers := []
  masked := []
  events := []
  turn := none

/-- Each PF holds 512 I/O queue pairs, each VF none (R308). -/
def Ctrl.init (n : Nat) : Ctrl := Ctrl.reset (if n % 64 = 0 then 512 else 0)

def Nve.reset : Nve where
  ctrls := []
  cmds := []
  asn := 0
  limit := 0
  limLo := 0
  cfg := []
  nss := []
  awp := []
  staging := []
  highCtx := 0
  asnLast := 0
  fwStage := []
  fwSlots := []
  fwActive := 1
  fwNext := none
  selfTest := none
  sanitized := 0
  timestamp := 0
  errors := []
  dataIn := []

def Hdg.reset : Hdg := ⟨[], 0, []⟩

def Hpt.reset : Hpt := ⟨false, 0, 0, false, 0, 0, false, true, []⟩

def Mgmt.reset : Mgmt := ⟨none, false, false, false, false⟩

def Pins.reset : Pins := ⟨0, false, true, false, 0, 0, false, none⟩

end Sys2Proof.Machine
end

