-- ==== Sys2Proof/Machine/StateMedia.lean ====
section
/-!
DEFINITION. The angle time base, the stream tiles with their formatters, the decoder clusters and the Quaxlink
controllers (chapters 4 to 7).
-/
namespace Sys2Proof.Machine

/-- Angle sources, Table 4.1. -/
inductive AngSrc where
  | none
  | observer
  | handover
  | track
  | flywheel
deriving DecidableEq, Repr

/-- An angle comparator (R87): its route is a Spur field and a context field. -/
structure Cmp where
  armed : Bool
  hit : Bool
  value : DWord
  route : Option (Nat × Nat)
deriving DecidableEq, Repr

def Cmp.default : Cmp := ⟨false, false, 0, none⟩

/-- The synthesizer of one Ridge. -/
structure Ang where
  ac : DWord
  /-- The AC at the last clock-track mark. -/
  markAc : DWord
  src : AngSrc
  idxOk : Bool
  /-- Mark periods since the last index signature that counts (R74); none before the first. -/
  sight : Option Nat
  /-- Mark periods since a signature was seen away from its prediction (first half of an index slip, R74). -/
  offAge : Option Nat
  /-- The next mark computes e (R78). -/
  handPending : Bool
  /-- Error still to remove in HANDOVER. -/
  err : Int
  /-- FLYWHEEL has lasted longer than FLYWR (R82). -/
  flyExpired : Bool
  /-- In FLYWHEEL, ambiguous marks have returned and the index is looked for (R81). -/
  flySearch : Bool
  /-- Mark periods in FLYWHEEL up to the last mark (R82), and in the search (R81). -/
  flyMarks : Nat
  seekMarks : Nat
  /-- The stream whose marks are counted, and the skew of its head at the last mark (R75). -/
  ref : Option Quad
  refSkew : Int
  /-- Skews as written, and as in use, by global head (R86). -/
  skew : Sparse (BitVec 16)
  skewUse : Sparse (BitVec 16)
  skewSat : Bool
  cmps : Sparse Cmp
  /-- Successive guide ticks over, and within, the cross-check limit (R84). -/
  xOver : Nat
  xIn : Nat
  xerr : Bool
  acLatch : DWord
  /-- A forward step owes one tick of a series, at the AC after the step (R79). -/
  owed : Four (Option DWord)
  /-- AC of the last tick of each series. -/
  lastTick : Four DWord
deriving DecidableEq, Repr

/-- An AEQ entry (R88). -/
structure AeqEntry where
  stamp : DWord
  action : Word
deriving DecidableEq, Repr

/-- Bits [lo, hi) of a gate interval, counted from the gate's rise. -/
structure BitSpan where
  lo : Int
  hi : Int
deriving DecidableEq, Repr

/-- What a tile holds of the gate interval of one fragment: stream AC at the gate's rise, the samples of a read up to
now, the first codeword bit where the formatter knows it, the pauses of skip entries, the freeze spans (R100), and the
skip entries considered. -/
structure FragRun where
  rise : DWord
  smps : List Smp
  start : Option Nat
  pauses : List BitSpan
  frozen : List BitSpan
  seen : List Nat
deriving DecidableEq, Repr

/-- A fragment in a sample record (R104, R129, R134): equalized samples, the predicted first codeword bit, the offset
found, the codeword bits, the pauses, and the spans whose bits are erasures. -/
structure RecFrag where
  smps : List Int
  start : Nat
  offset : Int
  miss : Bool
  bits : Nat
  pauses : List BitSpan
  erased : List BitSpan
deriving DecidableEq, Repr

/-- A sample record with what its decode takes from the tile: the bank's words and the descrambler's seed. -/
structure SampleRec where
  frags : List RecFrag
  par : Sparse Word
  seed : Option (BitVec 16)
deriving DecidableEq, Repr

/-- Values of the four adaptive loops (Table 5.3): gain code, baseline in 1/16 ADC step, asymmetry in 1/16,384, timing
in 1/4,096 bit. -/
structure Loops where
  vga : Int
  blo : Int
  mra : Int
  tl : Int
deriving DecidableEq, Repr

/-- Buffer, slot and sector of the 13-bit form (R234). -/
structure BufAddr where
  buf : Nat
  slot : Nat
  sector : Nat
deriving DecidableEq, Repr

/-- The climb of the recovery ladder for a sector (R135, R136): the context and transfer tag, the record, the detected
offset of fragment 1 unless it flywheeled, the syndrome weights found so far in the order of the list, the level, and
the tries of the level. Level 6 is the failure of every level. -/
structure Ladder where
  owner : CtxId
  tag : BitVec 16
  record : Nat
  det : Option Int
  weights : List Nat
  level : Nat
  tries : Nat
deriving DecidableEq, Repr

/-- A sector in progress (R127). -/
structure Sector where
  isWrite : Bool
  tag : BitVec 16
  frags : Nat
  /-- Fragment being transferred, from 1, and whether its gate is open. -/
  frag : Nat
  gateOpen : Bool
  /-- Codeword bits transferred. -/
  pos : Nat
  /-- All bits are transferred; a write waits for its gate to fall (R132). -/
  done : Bool
  record : Option Nat
  syncMiss : BitVec 4
  offs : Four Int
  erased : Bool
  skips : Nat
  /-- Source bytes of a write as they stood at its first open action, and CRCGEN, and the scrambler seed of the
  codeword, none where scrambling is off. -/
  src : List Byte
  crcGen : Bool
  seed : Option (BitVec 16)
  /-- The gate interval of the present fragment, and the fragments read before it. -/
  run : FragRun
  past : List RecFrag
deriving DecidableEq, Repr

/-- An open sync window (R128): the pattern and its length, the threshold, HALFWIN, the bit at which it opened, whether
the mark was found. -/
structure SyncWin where
  pat : Word
  len : Nat
  th : Nat
  half : Nat
  openAt : Nat
  found : Bool
deriving DecidableEq, Repr

/-- A slice calibration in SPARE mode (R98); `run`: a calibration run holds the cover (R214). -/
inductive SpareStep where
  | idle
  | waitTake (slice : Nat) (run : Bool)
  | standing (slice : Nat) (run : Bool)
  | waitReturn (slice : Nat) (run : Bool)
deriving DecidableEq, Repr

structure Tile where
  banks : Two (Sparse Word)
  active : Side
  swapPend : Bool
  wg : Bool
  ag : Bool
  rg : Bool
  /-- Forced low under R124 or R127; reads in STT_WRSTAT until the next AEQ_WG_ON executes (R459). -/
  forcedOnce : Bool
  /-- Stream AC at the assist gate's rise, whether the write gate has been high since, and at the write
  gate's fall with the assist gate still high (R159). -/
  agRose : DWord
  wgSinceAg : Bool
  wgFell : Option DWord
  aeq : List AeqEntry
  illact : Bool
  missed : Bool
  hswerr : Bool
  /-- Held sample records, oldest first (R104); records in use by a sector or a decode; records to free when
  their decode completes. -/
  heldRecs : List Nat
  busyRecs : List Nat
  freeAfter : List Nat
  recs : Sparse (Option SampleRec)
  spare : SpareStep
  /-- An envelope span that has not ended, and the bit at which it began. -/
  freeze : Option (FreezeKind × Int)
  /-- The adaptive loops; the gain starts from bank word 1 at the next rise of the read gate (Table 5.3). -/
  loops : Loops
  gainInit : Bool
  tlSat : Bool
  /-- Data sent in the last interval of the write gate: each bit with the delay of its edge in 1/64 bit (R114, R115). -/
  sent : List (Bool × Nat)
  desc : Sparse Word
  /-- Sectors ended whose status is not yet in the FIFO, in the order of their ends, by sample record; the status once
  it is known (R132). -/
  ended : List (Nat × Option DWord)
  posted : List DWord
  reserved : Nat
  ladder : Option Ladder
  sector : Option Sector
  lastTag : Option (BitVec 16)
  win : Option SyncWin
  /-- Successive wedges with a foreign number; inhibit is in force at two (R82). -/
  wedgeRun : Nat
  wedgeInh : Bool
  trackBad : Bool
  wedgeActive : Bool
  skipOk : Bool
  skipList : List DWord
  /-- Entries read from the list (FMT_SKIPSTAT). -/
  skipRead : Nat
  ssLatch : DWord
  /-- Guide sample words (R112) and, in wedge-servo mode, the count of R423. -/
  gdcPes : DWord
  ignored : Nat
  /-- Of each head of the actuator, the last 1,000 write sectors that ended, the latest first: of one whose abort counts
  toward a write fault its operating time in ms (R255). The log of both streams stands in the actuator's first. -/
  wrLog : Sparse (List (Option Nat))
  /-- Ridge AC of the first of the successive stale guide samples of the bound head (R255). -/
  staleFrom : Option DWord
deriving DecidableEq, Repr

/-- Work of a decoder slot (R107): the on-the-fly decode of a sector, or a submitted request. -/
inductive DecJob where
  | otf (stream : Quad) (rec : Nat) (status : DWord) (dest : BufAddr ⊕ Nat)
  | req (owner : CtxId) (w0 w1 w2 w3 : DWord)
deriving DecidableEq, Repr

structure Dec where
  /-- Busy slots, keyed by 4·engine + slot. -/
  jobs : List (Nat × DecJob)
  /-- Results not yet popped, oldest first. -/
  results : List (CtxId × DWord)
  /-- The on-the-fly slot each engine takes next (R107). -/
  turn : Four Side
deriving DecidableEq, Repr

/-- Link states, Table 7.11. -/
inductive LinkState where
  | off
  | train
  | run
  | fault
deriving DecidableEq, Repr

/-- Downstream frame types, Table 7.4. -/
inductive FrameType where
  | idle
  | regwr
  | regrd
  | hsel
  | aslv
  | htlv
  | mact
  | safe
deriving DecidableEq, Repr

/-- A downstream frame: type, data, retransmissions made, and whether it is the read of register 0x00 at link start. -/
structure Frame where
  typ : FrameType
  data : BitVec 24
  retries : Nat
  start : Bool
deriving DecidableEq, Repr

/-- The device's record of a slot (R153, R155, R157, R460): mode and head of the last HSEL, whether a head is bound,
whether it has been bound since link start, and mode and head of the last acknowledged HSEL. -/
structure SlotRec where
  mode : Nat
  head : Nat
  bound : Bool
  sinceStart : Bool
  ack : Option (Nat × Nat)
deriving DecidableEq, Repr

/-- A register access in progress (R146, R460). -/
structure RegAcc where
  isRead : Bool
  addr : Nat
  value : Nat
  acked : Bool
deriving DecidableEq, Repr

structure Link where
  st : LinkState
  ulock : Bool
  /-- Successive upstream frames that pass, and that fail, both checks (R141); slots since the last good frame, up to
  31 (R146). -/
  goodRun : Nat
  badRun : Nat
  quiet : Nat
  /-- Whether the last slots brought good frames: the latest first (R141). -/
  rxHist : List Bool
  /-- Frames waiting to be sent, in request order; frames sent and not resolved, oldest first. -/
  txq : List Frame
  flight : List Frame
  /-- The last frame sent, as the bits of Table 7.3. -/
  dn : BitVec 40
  slots : Two SlotRec
  /-- Assist levels (preheat, on) and heater level last recorded per head (R157, R460). -/
  levels : Sparse (Option (BitVec 16))
  heaters : Sparse (Option (BitVec 12))
  ast : Sparse (BitVec 16)
  pair : Sparse (BitVec 12)
  regAcc : Option RegAcc
  /-- The read of register 0x00 that ends link start has been requested (R148). -/
  startRd : Bool
  paflt : Bool
  psafe : Bool
  /-- Slots since the last STATUS frame, up to 128. -/
  statusAge : Nat
  /-- Entries into FAULT since the link was last in RUN (R274). -/
  faults : Nat
  /-- FAULT frames that name a head, with their operating times in ms, the latest first (R255). -/
  faultLog : List (Nat × Nat)
deriving DecidableEq, Repr

def Ang.reset : Ang where
  ac := 0
  markAc := 0
  src := .none
  idxOk := false
  sight := Option.none
  offAge := Option.none
  handPending := false
  err := 0
  flyExpired := false
  flySearch := false
  flyMarks := 0
  seekMarks := 0
  ref := Option.none
  refSkew := 0
  skew := []
  skewUse := []
  skewSat := false
  cmps := []
  xOver := 0
  xIn := 0
  xerr := false
  acLatch := 0
  owed := Four.all Option.none
  lastTick := Four.all 0

def Tile.reset : Tile where
  banks := ⟨[], []⟩
  active := .a
  swapPend := false
  wg := false
  ag := false
  rg := false
  forcedOnce := false
  agRose := 0
  wgSinceAg := false
  wgFell := none
  aeq := []
  illact := false
  missed := false
  hswerr := false
  heldRecs := []
  busyRecs := []
  freeAfter := []
  recs := []
  spare := .idle
  freeze := none
  loops := ⟨0, 0, 0, 0⟩
  gainInit := true
  tlSat := false
  sent := []
  desc := []
  ended := []
  posted := []
  reserved := 0
  ladder := none
  sector := none
  lastTag := none
  win := none
  wedgeRun := 0
  wedgeInh := false
  trackBad := false
  wedgeActive := false
  skipOk := false
  skipList := []
  skipRead := 0
  ssLatch := 0
  gdcPes := 0
  ignored := 0
  wrLog := []
  staleFrom := none

def Dec.reset : Dec where
  jobs := []
  results := []
  turn := Four.all .a

def SlotRec.reset : SlotRec := ⟨0, 0, false, false, none⟩

def Link.reset : Link where
  st := .off
  ulock := false
  goodRun := 0
  badRun := 0
  quiet := 0
  rxHist := []
  txq := []
  flight := []
  dn := 0
  slots := Two.all SlotRec.reset
  levels := []
  heaters := []
  ast := []
  pair := []
  regAcc := none
  startRd := false
  paflt := false
  psafe := false
  statusAge := 128
  faults := 0
  faultLog := []

end Sys2Proof.Machine
end

