-- ==== Sys2Proof/Machine/StateMem.lean ====
section
/-!
DEFINITION. The DRAM channels and the scrubbers of the protected memories (chapter 17).
-/
namespace Sys2Proof.Machine

/-- A DRAM channel: its data region, the 64-bit words that hold the poison marker, whether it is in self-refresh,
and the scrubber's standing (R367–R372). -/
structure DramCh where
  bytes : Sparse Byte
  poison : Sparse Bool
  selfRefresh : Bool
  pos : Nat
  bucket : Nat
  above : Bool
deriving DecidableEq, Repr

/-- Scrubber, bucket and counters of one memory of Table 17.2. -/
structure ScrubMem where
  scrcfg : Word
  leakcfg : Word
  bucket : Nat
  above : Bool
  ce : Word
  ue : Word
  errAddr : Word
  pos : Nat
  /-- Words that hold the poison marker (R370, R372). -/
  marks : Sparse Bool
deriving DecidableEq, Repr

def DramCh.reset : DramCh := ⟨[], [], false, 0, 0, false⟩

/-- Reset values by memory index (Tables 17.2, 17.4). -/
def ScrubMem.init (i : Nat) : ScrubMem :=
  ⟨if i = 5 then 86400 else 10, 0x03E80110#32, 0, false, 0, 0, 0, 0, []⟩

end Sys2Proof.Machine
end

