-- ==== Sys2Proof/Machine/StateSaddle.lean ====
section
/-!
DEFINITION. The Saddle's ledger, event recorder, crypto block, fuses, reset and power control
(chapters 16, 18 and 19).
-/
namespace Sys2Proof.Machine

/-- The owner of a lease (chapter 16): a context, or a command's entry of the context table. -/
inductive LeaseOwner where
  | ctx (c : CtxId)
  | cmd (n : Nat)
deriving DecidableEq, Repr

/-- One holding. `amount` counts bytes for WIN and credits elsewhere, `bound` lists the stripe
buffers bound to BUF or ESC credits (R347), `key` is the seal key of a media token (R346). -/
structure Lease where
  num : Nat
  owner : LeaseOwner
  pool : Nat
  inst : Nat
  amount : Nat
  esc : Bool
  bound : List Nat
  key : Nat
deriving DecidableEq, Repr

structure Ledger where
  leases : List Lease
  /-- Credits not free of the pools 0, 1, 5, 8 and 9, keyed by 4·pool + instance. Pool 9 has instances 0 and 1 for the
  Ridges' buffers and 2 and 3 for the actuators' staging stripes. -/
  used : Sparse Nat
  /-- Credits in transit, same keys (R345). -/
  transit : Sparse Nat
  /-- Size of the GCR pool of each actuator (Table 11.5). -/
  gcrSize : Two Nat
  /-- A count that orders waiters (R348). -/
  clock : Nat
  unit : Two (Option Side)
  spindle : Option Side
  /-- The giver and the work of a SWITCH or HANDBACK in progress (R360). -/
  switching : Option (Side × Nat)
  sfence : Option Side
  /-- The fenced Ridge whose work the survivor has still to take over (R356). -/
  tkDue : Option Side
  singleWin : Bool
  /-- The staging stripe sealed under an actuator's ESC lease whose ONMEDIA record has not committed (R344). -/
  escKey : Two (Option Nat)
  short : Bool
  /-- E_avail in mJ and E_flush (R294, R295). -/
  eAvail : Nat
deriving DecidableEq, Repr

/-- One event record before its SEQ and CRC (Table 18.1). -/
structure EvRec where
  code : BitVec 16
  cls : Bool
  flags : Byte
  source : BitVec 16
  ot : DWord
  pcc : Word
  cal : DWord
  params : List Word
deriving DecidableEq, Repr

/-- Intake entries of one post: its records so far, the continuations still to come and who posts them (R379). -/
structure EvGroup where
  recs : List EvRec
  left : Nat
  owner : Option CtxId
deriving DecidableEq, Repr

/-- A rate-limit bucket (R381, R382). -/
structure Bucket where
  period : Nat
  burst : Nat
  tokens : Nat
  supp : Word
  lastCode : BitVec 16
  firstOt : DWord
  lastOt : DWord
deriving DecidableEq, Repr

def Bucket.default : Bucket := ⟨10, 32, 32, 0, 0, 0, 0⟩

/-- An open span (R390). -/
structure Span where
  kind : Nat
  startSeq : BitVec 48
  count : Nat
  h : BitVec 384
  slot : Nat
deriving DecidableEq, Repr

/-- A closed span kept in the boot seal area (R393). -/
structure SealedSpan where
  startSeq : BitVec 48
  kind : Nat
  isSealed : Bool
  recs : List (BitVec 512)
  cert : List Byte
deriving DecidableEq, Repr

structure Evr where
  scanDone : Bool
  seq : BitVec 48
  ot : DWord
  pcc : Word
  cal : Option DWord
  calStaged : Word
  otLatch : DWord
  intake : List EvGroup
  buckets : Sparse Bucket
  span : Option Span
  /-- A SEAL has been written and its signature has not (R391): the SEAL's SEQ and H. -/
  sealPend : Option (BitVec 48 × BitVec 384)
  /-- The span that a SEAL closed, until its signature. -/
  sealSpan : Option Span
  /-- A MEAS record whose continuation is to come: its index and digest bytes 0–23. -/
  meas : Option (Nat × List Byte)
  /-- H of the last sealed span (Table 18.9, index 7). -/
  lastH : BitVec 384
  sealArea : List SealedSpan
  openArea : List (BitVec 512)
  /-- Newest SEQ of the last complete read of log page C0h (R386). -/
  readMark : BitVec 48
  pageNewest : BitVec 48
  /-- The header of log page C0h as it was last taken, none where it has not been, and the oldest SEQ it names. -/
  pageHead : List Byte
  pageOldest : Nat
  /-- OT when the last record was written (R375). -/
  recOt : DWord
deriving DecidableEq, Repr

/-- A CRY operation in progress (R396). -/
structure CryOp where
  op : Nat
  slot : Nat
  src : Nat
  len : Nat
  dst : Nat
  /-- The SEAL whose signature goes first: its request was there before the operation (R391, R396). -/
  behind : Option (BitVec 48)
deriving DecidableEq, Repr

structure Cry where
  busy : Option CryOp
  keys : Sparse (Option (BitVec 512))
  cdi0 : Option (BitVec 384)
  cdi1 : Option (BitVec 384)
  aliasKey : Option (BitVec 384)
  /-- Measured digests by SPDM index (Table 18.9). -/
  digests : Sparse (BitVec 384)
  /-- The alias certificate written by the last DERIVE. -/
  cert : List Byte
  udsLocked : Bool
  drbgOk : Bool
deriving DecidableEq, Repr

inductive DomState where
  | off
  | starting
  | on
  | stopping
  | ret
deriving DecidableEq, Repr

/-- A power domain (R407, R408): its state, latched requests and, while it stops, whether to RET. -/
structure Dom where
  st : DomState
  enLatched : Bool
  disLatched : Bool
  toRet : Bool
deriving DecidableEq, Repr

def Dom.default : Dom := ⟨.off, false, false, false⟩

/-- RCP_STAT.PHASE. -/
inductive Phase where
  | reset
  | pdsafe
  | fuse
  | saddle
  | ridges
  | boot
  | locked
  | recovery
deriving DecidableEq, Repr

structure Rcp where
  phase : Phase
  warm : Bool
  noxtal : Bool
  /-- RESET_N or RCP_SWRST held back while the spindle is in GEN (R401). -/
  latchedN : Bool
  latchedSw : Bool
  /-- A FULL or POWER-ON reset is asserted and not released. -/
  asserted : Bool
  thermHold : Bool
  /-- No slot or no Drive Configuration Block verified (R388). -/
  limited : Bool
  straps : Straps
  /-- The wedge count of the Drive Configuration Block (R412). -/
  wscN : Nat
  /-- L5REV of the Drive Configuration Block (R135). -/
  l5rev : Nat
  /-- Counts of STAGING, EMERGENCY, CAIRN and GCRES band groups per actuator (Table 11.5). -/
  reserved : Two (Four Nat)
  /-- REB_FREEMIN and REB_FLOOR of that block (R265, R266). -/
  freemin : Nat
  floor : Nat
  /-- Thresholds of Table 12.2: write faults, SNR collapse and severe collapse in dB, reconstructions (R255). -/
  triggers : Four Nat
  doms : Sparse Dom
  bwdCfg : Sparse Word
  blkBusy : Option Nat
  saddleLock : Bool
  /-- Length of an image pushed by the host or received by the UART and not yet verified (R403). -/
  pushLen : Option Nat
  /-- Milliseconds since each Ridge's watchdog was kicked (R400). -/
  rwdMs : Two Nat
  /-- PERST levels: true is asserted (low). -/
  perst : Two Bool
deriving DecidableEq, Repr

structure Fus where
  shadow : Sparse Word
  trimValid : Bool
  good0 : Bool
  good1 : Bool
  inUse : Nat
  recovery : Bool
  prodTest : Bool
deriving DecidableEq, Repr

def Ledger.reset : Ledger where
  leases := []
  used := []
  transit := []
  gcrSize := Two.all 8
  clock := 0
  unit := ⟨none, none⟩
  spindle := none
  switching := none
  sfence := none
  tkDue := none
  singleWin := false
  escKey := ⟨none, none⟩
  short := false
  eAvail := 0

def Evr.reset : Evr where
  scanDone := false
  seq := 0
  ot := 0
  pcc := 0
  cal := none
  calStaged := 0
  otLatch := 0
  intake := []
  buckets := []
  span := none
  sealPend := none
  sealSpan := none
  meas := none
  lastH := 0
  sealArea := []
  openArea := []
  readMark := 0
  pageNewest := 0
  pageHead := []
  pageOldest := 1
  recOt := 0

def Cry.reset : Cry where
  busy := none
  keys := []
  cdi0 := none
  cdi1 := none
  aliasKey := none
  digests := []
  cert := []
  udsLocked := false
  drbgOk := false

def Rcp.reset : Rcp where
  phase := .reset
  warm := false
  noxtal := false
  latchedN := false
  latchedSw := false
  asserted := true
  thermHold := false
  limited := false
  straps := ⟨false, false, 0, 0⟩
  wscN := 256
  l5rev := 24
  reserved := ⟨⟨4, 2, 4, 8⟩, ⟨4, 2, 4, 8⟩⟩
  freemin := 8
  floor := 15
  triggers := ⟨3, 3, 6, 16⟩
  doms := [(0, ⟨.on, false, false, false⟩), (1, ⟨.on, false, false, false⟩)]
  bwdCfg := []
  blkBusy := none
  saddleLock := false
  pushLen := none
  rwdMs := Two.all 0
  perst := ⟨true, true⟩

def Fus.reset : Fus where
  shadow := []
  trimValid := false
  good0 := false
  good1 := false
  inUse := 0
  recovery := false
  prodTest := false

end Sys2Proof.Machine
end

