-- ==== Sys2Proof/Machine/StateServo.lean ====
section
/-!
DEFINITION. The control engine, the spindle drive and power die, the calibration runner and the monitors
(chapters 8 to 10).
-/
namespace Sys2Proof.Machine

/-- A coefficient ramp (R178, R180): values at its start, targets, entries concerned and the step reached. -/
structure Ramp where
  dest : Nat
  count : Nat
  series : Nat
  steps : Nat
  k : Nat
  v0 : List Word
  vT : List Word
deriving DecidableEq, Repr

/-- A ramp channel: its registers, the error bits of the last GO, and the ramp while it runs. -/
structure RampCh where
  cfg : Word
  ctl : Word
  err : Bool
  cancel : Bool
  run : Option Ramp
deriving DecidableEq, Repr

def RampCh.default : RampCh := ⟨0, 0, false, false, none⟩

/-- A running seek (R177): direction, remaining distance and speed in Q16.16 tracks, samples so far. -/
structure Seek where
  neg : Bool
  r : Nat
  v : Nat
  samples : Nat
  endSettle : Bool
  prof : Nat
deriving DecidableEq, Repr

/-- Servo mode of an actuator in one engine (R175–R177). -/
structure ServoMode where
  mode : Nat
  pmode : Nat
  /-- SW, and the AC of the tick that set it (R176). -/
  sw : Bool
  swAc : DWord
  /-- The last request taken, by mode (Table 3.6). -/
  last : Option Nat
  /-- Requested mode, least AC of the switching tick, and the seek word that asks for it. -/
  pend : Option (Nat × DWord × Option DWord)
  rej : Bool
  seek : Option Seek
  seekNext : Option DWord
  rem : Word
  vel : Word
  acc : Word
deriving DecidableEq, Repr

/-- What an OUT destination last saw (R172, R174, R182): value sent, whether stale, the AC of its tick. -/
structure OutVal where
  value : Word
  stale : Bool
  tick : DWord
deriving DecidableEq, Repr

/-- A trace buffer (R184). -/
structure Trace where
  st : Nat
  full : Bool
  trigIdx : Nat
  wr : Nat
  left : Nat
  force : Bool
  cfg : Word
  above : Option Bool
  /-- A SAT flag has been set since the buffer was armed or last appended to (trigger kind 6). -/
  newSat : Bool
  words : Sparse Word
deriving DecidableEq, Repr

/-- A pass that runs or is preempted (R163): descriptors left, nodes preset in it (R166), cycles so far with the time
preempted (R164). -/
structure PassRun where
  left : List Nat
  preset : List Nat
  cycles : Nat
deriving DecidableEq, Repr

/-- Node copy from the peer (R183). -/
inductive SyncSt where
  | idle
  | armed
  | copying
deriving DecidableEq, Repr

structure Cen where
  nodes : Sparse Word
  stale : Sparse Bool
  coefs : Sparse Word
  shifts : Sparse (BitVec 6)
  descs : Sparse Word
  sat : Sparse Bool
  /-- Passes to run or running, held ticks, the AC of the tick of the pass due and of the tick held (R163, R164). -/
  due : Four Bool
  held : Four Bool
  tickAc : Four DWord
  heldAc : Four DWord
  pass : Four (Option PassRun)
  modes : Two ServoMode
  band : Nat
  bandRamp : Option Ramp
  ramps : Sparse RampCh
  outs : Sparse (Option OutVal)
  /-- Last fresh value driven to each destination of Table 8.7. -/
  driven : Sparse Word
  /-- Destinations held because their source is stale or their task has had no pass (R174). -/
  hold : Sparse Bool
  sync : SyncSt
  /-- Successive output differences (R182). -/
  xRun : Nat
  traces : Four Trace
  modeDone : Bool
  seekDone : Bool
deriving DecidableEq, Repr

/-- Park states (R187). -/
inductive Park where
  | unknown
  | parked
  | loaded
deriving DecidableEq, Repr

/-- Spindle states, Table 9.2. -/
inductive Spindle where
  | off
  | probe
  | revbrk
  | ipd
  | kick
  | catching
  | run
  | step
  | brake
  | gen
  | retract
  | fault
deriving DecidableEq, Repr

/-- What follows a retract of the spindle sequence. -/
inductive After where
  | none
  | probe
  | brake
  | brakeAuto
deriving DecidableEq, Repr

/-- Spindle drive and power die. `park` and the fault causes MTR_PDFLT outlive a reset of the logic die. -/
structure Mtr where
  sp : Spindle
  attempt : Nat
  startLatched : Bool
  /-- The first AT_SPEED since START has come (R188, R189). -/
  reached : Bool
  atSpeed : Bool
  /-- A start continues with IPD when braking ends (R192, R193). -/
  toIpd : Bool
  after : After
  park : Two Park
  retracting : Two Bool
  /-- A retract of the present start or stop ended by timeout. -/
  retFailed : Bool
  regenOk : Bool
  chopFlt : Bool
  chopOn : Bool
  clamp : Bool
  cons : Bool
  isoClosed : Bool
  pfailN : Bool
  /-- PFAIL_N went low during this power loss (R207), and a retract has started in it. -/
  pfailSeen : Bool
  genRetract : Bool
  hbRun : Bool
  hbKick : Bool
  linkUp : Bool
  obsValid : Bool
  /-- A step-down in progress brakes by shorted windings (R196, R200). -/
  shortBrake : Bool
  trips : Nat
  spareFor : Option Nat
  spareReq : Option Nat
  target : Nat
  vcCmd : Two (BitVec 16)
  qCmd : BitVec 16
  /-- Successive spindle ticks with the speed within ±1 % of the target, up to 64 (R194). -/
  inBand : Nat
  /-- The power die's copy of MTR_RETCFG (R209). -/
  retCfg : Word
  /-- The voice-coil command whose PWM duty is held for a calibration window (R222). -/
  duty : Two (Option (BitVec 16))
  /-- From power-loss detection until power has returned or the isolation FET has closed again (R296). -/
  loss : Bool
  /-- Milliseconds in GEN, and the step of Table 9.4 (MTR_PFSTAT). -/
  genMs : Nat
  pfStep : Nat
deriving DecidableEq, Repr

/-- A calibration in progress (R212–R218): its descriptor's address, Ridge, kind, target, cover and method, the result
and the value in use while it moves. -/
structure CalRun where
  ridge : Side
  addr : Nat
  kind : Nat
  target : Nat
  tile : Quad
  cover : Nat
  method : Nat
  measuring : Bool
  applying : Bool
  /-- The cover is to be handed back after an apply step (R217). -/
  returning : Bool
  result : Int
  inUse : Int
  /-- The tick, revolution or hand-back of the last apply step (RATEUNIT). -/
  mark : Option Nat
  /-- STT_CHN_CTL.EN as it was before a HOLD of KIND 0x01 (Table 10.2). -/
  en : Bool
  /-- The pairing map of a result of KIND 0x08, a row for each head (R222). -/
  pairs : List (BitVec 12)
  /-- Aborted with this reason, which is not recorded yet (R218). -/
  ended : Option Nat
deriving DecidableEq, Repr

structure Mon where
  trims : Sparse Byte
  vread : Sparse Word
  vlim : Sparse Word
  rosc : Sparse Word
  /-- Open voice-coil windows (R222). -/
  vcOpen : Two Bool
  calRuns : List CalRun
  /-- The larger J result that waits for the next spin-up (R223). -/
  jWait : Option Nat
  /-- One more than the operating time at which a descriptor last started (R212). -/
  sched : Sparse Nat
  /-- Hand-backs of spares so far (R217). -/
  handBacks : Nat
  /-- Sensors in thermal warning (R225). -/
  warm : Sparse Bool
  /-- Global heads whose assist calibration has failed: REJCNT 3 (R219), or a ring calibrated at QLK_ASMAX (R255). -/
  assistBad : List Nat
deriving DecidableEq, Repr

def ServoMode.reset : ServoMode := ⟨0, 0, false, 0, none, none, false, none, none, 0, 0, 0⟩

def Trace.reset : Trace := ⟨0, false, 0, 0, 0, false, 0, none, false, []⟩

def Cen.reset : Cen where
  nodes := []
  stale := []
  coefs := []
  shifts := []
  descs := []
  sat := []
  due := Four.all false
  held := Four.all false
  tickAc := Four.all 0
  heldAc := Four.all 0
  pass := Four.all none
  modes := Two.all ServoMode.reset
  band := 0
  bandRamp := none
  ramps := []
  outs := []
  driven := []
  hold := []
  sync := .idle
  xRun := 0
  traces := Four.all Trace.reset
  modeDone := false
  seekDone := false

def Mtr.reset : Mtr where
  sp := .off
  attempt := 0
  startLatched := false
  reached := false
  atSpeed := false
  toIpd := false
  after := .none
  park := Two.all .unknown
  retracting := Two.all false
  retFailed := false
  regenOk := false
  chopFlt := false
  chopOn := false
  clamp := false
  cons := false
  isoClosed := false
  pfailN := true
  pfailSeen := false
  genRetract := false
  hbRun := false
  hbKick := false
  linkUp := false
  obsValid := false
  shortBrake := false
  trips := 0
  spareFor := none
  spareReq := none
  target := 7200
  vcCmd := Two.all 0
  qCmd := 0
  inBand := 0
  retCfg := 0x012C2814
  duty := Two.all none
  loss := false
  genMs := 0
  pfStep := 0

def Mon.reset : Mon where
  trims := []
  vread := []
  vlim := []
  rosc := []
  vcOpen := Two.all false
  calRuns := []
  jWait := none
  sched := []
  handBacks := 0
  warm := []
  assistBad := []

end Sys2Proof.Machine
end

