-- ==== Sys2Proof/Machine/StateSpur.lean ====
section
/-!
DEFINITION. The Spurs, their contexts, the control store and the Ridge's standing (chapters 2, 3 and 16).
-/
namespace Sys2Proof.Machine

/-- Context states, Table 2.9. -/
inductive CtxState where
  | idle
  | run
  | wait
  | halt
  | fault
  | adopt
  | handler
deriving DecidableEq, Repr

structure Flags where
  n : Bool
  z : Bool
  c : Bool
  v : Bool
deriving DecidableEq, Repr

/-- What a COMMIT keeps (R35, R37, R56): registers, flags, return stack (top first), loop counter,
restart address and restart class; and the DEFER handlers entered, by their stack depth (HNDFLT, Table 2.5). -/
structure Snapshot where
  regs : Sparse DWord
  flags : Flags
  stack : List CsAddr
  lcnt : BitVec 24
  restart : CsAddr
  rclass : BitVec 2
  defers : List Nat
deriving DecidableEq, Repr

/-- A snapshot on its way to, or held by, the peer context (R42). -/
structure MirrorMsg where
  snap : Snapshot
  csn : Word
  imgtag : Byte
deriving DecidableEq, Repr

/-- The answer of a port (R65–R67): data, a completed write, or a refusal with its reason (Table 3.7). -/
inductive PortResp where
  | data (v : DWord)
  | ok
  | refused (reason : Nat)
deriving DecidableEq, Repr

/-- A port read whose data has not returned (R22), with the address of its word; `commit` is the restart address and
class of a word that also commits (R32, R37), and whether that word holds (R71). -/
structure ReadOut where
  addr : CsAddr
  port : Nat
  reg : Nat
  data : DWord
  commit : Option (CsAddr × BitVec 2 × Bool)
deriving DecidableEq, Repr

/-- A WAIT in progress (R57), with the flags as they stood before its word (R53). -/
structure WaitInfo where
  cond : Nat
  flags : Flags
  inAu : Bool
  count : Nat
  startAc : DWord
  next : CsAddr
deriving DecidableEq, Repr

/-- A credit request that was not granted and is waited for (R346, R348). -/
structure CreditWait where
  pool : Nat
  inst : Nat
  amount : Nat
  cls : Nat
  since : Nat
deriving DecidableEq, Repr

structure Ctx where
  st : CtxState
  pc : CsAddr
  regs : Sparse DWord
  flags : Flags
  stack : List CsAddr
  lcnt : BitVec 24
  snap : Option Snapshot
  csn : Word
  segWarned : Bool
  pend : BitVec 16
  urgentCls : BitVec 16
  masks : Four (BitVec 16)
  mset : Quad
  hvec : Sparse CsAddr
  adoptVec : Option CsAddr
  hold : Bool
  /-- Stack depth under which the URGENT handler has returned (R33, R34). -/
  urgentDepth : Option Nat
  /-- The same for each DEFER handler entered by POLL, innermost first (R30). -/
  deferDepths : List Nat
  wait : Option WaitInfo
  /-- Outstanding port reads, oldest first (R22). -/
  reads : List ReadOut
  /-- The word that last wrote each port, by port number, from its issue until the port has timed out (R23). -/
  wrote : Sparse (Option CsAddr)
  /-- Snapshots sent and not acknowledged (R42). -/
  unacked : Nat
  ackStall : Bool
  /-- Snapshots on their way to this context, oldest first; acknowledgements on their way to it (R42). -/
  inbox : List MirrorMsg
  acks : Nat
  /-- The snapshot an ADOPT context holds for its peer (R42). -/
  held : Option MirrorMsg
  /-- Runs adopted work (R42, R357). -/
  adopted : Bool
  perr : DWord
  statsel : Byte
  /-- Values staged through the per-context ports, keyed by port number (R39). -/
  staged : Sparse DWord
  /-- The last transfers that the Saddle services answered: port (0x100 for POST), CSN and answer, newest first, two
  of each kind (R40). -/
  served : List (Nat × Word × PortResp)
  creditWait : Option CreditWait
  /-- The command context whose command this context holds (Table 2.3 line 1). -/
  heldCmd : Option Nat
  stopReq : Bool
  /-- STEP has been given: one word runs in HALT (R50). -/
  stepReq : Bool
  /-- Giving its work away at a SWITCH or HANDBACK (R360), and whether it has stopped. -/
  giving : Option Bool
deriving DecidableEq, Repr

structure Spur where
  ctx : Four Ctx
  ff : DWord
deriving DecidableEq, Repr

/-- Ridge states, Table 16.9. -/
inductive RidgeState where
  | reset
  | selftest
  | standby
  | inService
  | quiesced
  | fenced
deriving DecidableEq, Repr

/-- A stored control-store word: two halves of 64 bits, each with its 16 lattice check bits (R52). -/
structure CstWord where
  hi : DWord
  hiChk : BitVec 16
  lo : DWord
  loChk : BitVec 16
deriving DecidableEq, Repr

def CstWord.zero : CstWord := ⟨0, 0, 0, 0⟩

def CstWord.word (w : CstWord) : MicroWord := w.hi ++ w.lo

/-- The Spur side of one Ridge. `coldBoot`: the boot after a FULL or POWER-ON reset has not set BOOTLOCK (R43);
`quiesced`: CST_CTL.QUIESCED (R28). -/
structure Core where
  spurs : Six Spur
  store : Sparse CstWord
  ldData : BitVec 128
  st : RidgeState
  coldBoot : Bool
  quiesced : Bool
deriving DecidableEq, Repr

def Flags.zero : Flags := ⟨false, false, false, false⟩

/-- Classes after reset, Table 2.3: lines 0, 1, 2, 3 and 15 URGENT. -/
def Ctx.resetClasses : BitVec 16 := 0x800F#16

def Ctx.reset : Ctx where
  st := .idle
  pc := 0
  regs := []
  flags := Flags.zero
  stack := []
  lcnt := 0
  snap := none
  csn := 0
  segWarned := false
  pend := 0
  urgentCls := Ctx.resetClasses
  masks := Four.all 0xFFFF#16
  mset := .q0
  hvec := []
  adoptVec := none
  hold := false
  urgentDepth := none
  deferDepths := []
  wait := none
  reads := []
  wrote := []
  unacked := 0
  ackStall := false
  inbox := []
  acks := 0
  held := none
  adopted := false
  perr := 0
  statsel := 0
  staged := []
  served := []
  creditWait := none
  heldCmd := none
  stopReq := false
  stepReq := false
  giving := none

/-- Context 0 after a Ridge reset: running from ROM address 0 with g1 the Spur index (R24). -/
def Ctx.bootReset (i : Nat) : Ctx :=
  let regs : Sparse DWord := if i = 0 then [] else [(1, BitVec.ofNat 64 i)]
  { Ctx.reset with
    st := .run
    regs := regs
    snap := some { regs := regs, flags := Flags.zero, stack := [], lcnt := 0, restart := 0, rclass := 0, defers := [] } }

def Spur.reset (i : Nat) : Spur := ⟨⟨Ctx.bootReset i, Ctx.reset, Ctx.reset, Ctx.reset⟩, 0⟩

def Core.reset : Core where
  spurs := ⟨Spur.reset 0, Spur.reset 1, Spur.reset 2, Spur.reset 3, Spur.reset 4, Spur.reset 5⟩
  store := []
  ldData := 0
  st := .reset
  coldBoot := true
  quiesced := false

end Sys2Proof.Machine
end

