-- ==== Sys2Proof/Machine/State.lean ====
section
/-!
DEFINITION. The state of the block, the reasons a command can stop, and the state at reset.
-/
namespace Sys2Proof.Machine

/-- The machine. Registers of the block tables that hold a value of their own are in `regs`, keyed by block-bus
address as Ridge A sees it; a register that shows other state is computed when it is read. -/
structure State where
  /-- Commands waiting, first in, first out. -/
  pending : List Instr
  /-- Selects the next free value (the model's own). -/
  freeCtr : Nat
  regs : Sparse Word
  core : Two Core
  ang : Two Ang
  tile : Four Tile
  dec : Two Dec
  link : Two Link
  rlg : Ledger
  evr : Evr
  cry : Cry
  rcp : Rcp
  fus : Fus
  mem : Two (Sparse ScrubMem)
  dram : Two DramCh
  cen : Two Cen
  mtr : Mtr
  mon : Mon
  ste : Two Ste
  ztb : Ztb
  member : Sparse Member
  redun : Two Redun
  crn : Crn
  win : Win
  nve : Nve
  hdg : Hdg
  hpt : Two Hpt
  mgmt : Mgmt
  pins : Pins
deriving DecidableEq, Repr

/-- No command of the block faults: every rule of the spec gives a next state (an error is a bit, a refusal code
or an event in the state). The constructor is here for the interface alone; no meaning raises it. Safe. -/
inductive Fault where
  | unreachable
deriving DecidableEq, Repr

/-- `notModelled`: an arm of Dispatch.lean whose command has no meaning yet. Safe. -/
inductive Refusal where
  | notModelled (mnemonic : String)
deriving DecidableEq, Repr

/-- The answer of a meaning. -/
abbrev Out := Host.Outcome State Fault Refusal

/-- The machine in power-on reset, before its release (R397, R402): the reset values of the block tables, contexts
0 at the boot address (R24), every switchable power domain OFF. -/
def State.reset : State where
  pending := []
  freeCtr := 0
  regs := []
  core := Two.all Core.reset
  ang := Two.all Ang.reset
  tile := Four.all Tile.reset
  dec := Two.all Dec.reset
  link := Two.all Link.reset
  rlg := Ledger.reset
  evr := Evr.reset
  cry := Cry.reset
  rcp := Rcp.reset
  fus := Fus.reset
  mem := Two.all []
  dram := Two.all DramCh.reset
  cen := Two.all Cen.reset
  mtr := Mtr.reset
  mon := Mon.reset
  ste := Two.all Ste.reset
  ztb := Ztb.reset
  member := []
  redun := Two.all Redun.reset
  crn := Crn.reset
  win := Win.reset
  nve := Nve.reset
  hdg := Hdg.reset
  hpt := Two.all Hpt.reset
  mgmt := Mgmt.reset
  pins := Pins.reset

end Sys2Proof.Machine
end

