-- ==== Sys2Proof/Machine/Bitstream.lean ====
section
/-!
DEFINITION. Bits of the medium: codeword order and scrambler (R105, R106), channel bits of a fragment and their edge
delays (R114, R115, R118, R125), wedge fields (R122, R414), references (R120), and the detector and decoder on a sample
record (R103, R105, R108, R134).
-/
namespace Sys2Proof.Machine

/-! ### Bits and bytes -/

/-- The low `n` bits of a number, most significant first. -/
def bitsMsb (n v : Nat) : List Bool := (List.range n).map (fun i => v.testBit (n - 1 - i))

def ofBitsMsb (l : List Bool) : Nat := l.foldl (fun a b => 2 * a + b2n b) 0

/-- `n` bytes from bits, most significant bit of each byte first (R105). -/
def bytesOfBits : Nat → List Bool → List Byte
  | 0, _ => []
  | n + 1, l => BitVec.ofNat 8 (ofBitsMsb (l.take 8)) :: bytesOfBits n (l.drop 8)

/-- CRC-8 with polynomial 0x07, most significant bit first (R122, R140). -/
def crc8 (init : Byte) (l : List Bool) : Byte :=
  l.foldl (fun c b => if c.msb != b then (c <<< 1) ^^^ 0x07#8 else c <<< 1) init

/-- The binary number of a Gray code, most significant bit first. -/
def ofGray (l : List Bool) : Nat := (l.foldl (fun (p : Nat × Bool) b => (2 * p.1 + b2n (p.2 != b), p.2 != b)) (0, false)).1

/-! ### Codeword and scrambler -/

/-- The codeword of a payload: information bits in byte order, then parity (R105). -/
def codeword (payload : List Byte) : List Bool :=
  let info := payload.flatMap (fun b => bitsMsb 8 b.toNat)
  info ++ (List.range 3840).map (Config.ldpcParity info)

/-- A step of the LFSR x^16 + x^14 + x^13 + x^11 + 1 (R106), which shifts right and gives its lowest bit (PRESUMED,
PRESUMED, log 118). -/
def lfsrStep (r : BitVec 16) : BitVec 16 :=
  let x := (bit r 0 != bit r 2) != (bit r 3 != bit r 5)
  putBit (r >>> 1) 15 x

def lfsrBits : Nat → BitVec 16 → List Bool
  | 0, _ => []
  | n + 1, r => bit r 0 :: lfsrBits n (lfsrStep r)

/-- The scrambler's output over a codeword; none is all zeros, a seed of 0 is 0xACE1. -/
def scrBits (seed : Option (BitVec 16)) (n : Nat) : List Bool :=
  match seed with
  | some v => lfsrBits n (if v = 0 then 0xACE1#16 else v)
  | none => List.replicate n false

def scramble (seed : Option (BitVec 16)) (l : List Bool) : List Bool := l.zipWith (· != ·) (scrBits seed l.length)

/-- The payload with the Media Tag CRC in place (R121). -/
def withCrc (payload : List Byte) : List Byte :=
  let body := payload.take 4124
  body ++ bytesLE 4 (crc32c body)

/-! ### Channel bits of a write -/

/-- The settling tone: 4 bits high, 4 bits low (R114). -/
def toneBits (n : Nat) : List Bool := (List.range n).map (fun i => i / 4 % 2 == 0)

/-- The preamble of wedge-servo mode: 0b1100 again and again, the last four bits before the mark whole (R420). -/
def preambleBits (n : Nat) : List Bool := (List.range n).map (fun i => decide (2 ≤ (n - 1 - i) % 4))

/-- Bits with the tone put in over the pauses; `i` is the place of the next bit in the gate interval. -/
def insertPauses : Int → List Bool → List BitSpan → List Bool
  | _, [], _ => []
  | _, b :: l, [] => b :: l
  | i, b :: l, p :: ps =>
    if i = p.lo then toneBits (p.hi - p.lo).toNat ++ b :: insertPauses (p.hi + 1) l ps
    else b :: insertPauses (i + 1) l (p :: ps)

/-- The first `n` channel bits of a gate interval: its lead, the mark, the fragment's codeword bits with its
pauses, the pad of the last fragment, then tone (R114, R118, R125, R131). -/
def fragStream (lead mark code pad : List Bool) (pauses : List BitSpan) (n : Nat) : List Bool :=
  (lead ++ insertPauses lead.length (mark ++ code ++ pad) pauses ++ toneBits n).take n

/-- Transitions: a bit differs from the one before it. -/
def edges (l : List Bool) : List Bool := false :: (l.drop 1).zipWith (· != ·) l

/-- The delay of each edge in 1/64 bit, by its class 4·t2 + 2·t1 + t0 (R115). -/
def edgeDelays (w : Word) : Bool → Bool → List Bool → List Nat
  | _, _, [] => []
  | t2, t1, t :: rest =>
    let c := 4 * b2n t2 + 2 * b2n t1 + b2n (rest.headD false)
    (if t then fld w (4 * c + 3) (4 * c) else 0) :: edgeDelays w t1 t rest

/-! ### Spans -/

def inSpans (l : List BitSpan) (i : Int) : Bool := l.any (fun p => decide (p.lo ≤ i ∧ i < p.hi))

def BitSpan.len (p : BitSpan) : Nat := (p.hi - p.lo).toNat

def spanSum (l : List BitSpan) : Nat := (l.map BitSpan.len).sum

def BitSpan.touches (p q : BitSpan) : Bool := decide (p.lo < q.hi ∧ q.lo < p.hi)

/-- Add a span: spans that overlap merge into one (R100). The merged span comes first. -/
def addSpan (l : List BitSpan) (p : BitSpan) : List BitSpan :=
  (l.filter (fun q => q.touches p)).foldl (fun a q => ⟨min a.lo q.lo, max a.hi q.hi⟩) p :: l.filter (fun q => !q.touches p)

/-- The places of `n` codeword bits from place `i`, with the pauses left out (R131). -/
def codePlaces (pauses : List BitSpan) (n : Nat) (i : Int) : List Int :=
  (((List.range (n + spanSum pauses)).map (fun (k : Nat) => i + (k : Int))).filter (fun k => !inSpans pauses k)).take n

/-! ### Sync search (R128, R129) -/

def hamming (l m : List Bool) : Nat := (l.zip m).countP (fun p => p.1 != p.2)

/-- The first starting bit from `pos` at which the pattern lies within the threshold, `n` starting bits examined. -/
def syncSearch (bits pat : List Bool) (th : Nat) : Nat → Nat → Option Nat
  | _, 0 => none
  | pos, n + 1 =>
    let got := (bits.drop pos).take pat.length
    if got.length = pat.length ∧ hamming got pat ≤ th then some pos else syncSearch bits pat th (pos + 1) n

/-! ### Wedge fields (R122, R414) -/

/-- A wedge field read: mark found and CRC good, identity, number. -/
structure Wedge where
  good : Bool
  track : BitVec 24
  number : Nat
deriving DecidableEq, Repr

/-- Read a field whose mark `mark` has `m` bits from bit 16 and whose number has `k` bits. The CRC is taken over the
bits as they are written (DEDUCED, log 119). -/
def wedgeField (m mark k : Nat) (l : List Bool) : Wedge :=
  let id := (l.drop (16 + m)).take 24
  let num := (l.drop (40 + m)).take k
  let crc := (l.drop (40 + m + k)).take 8
  ⟨decide (48 + m + k ≤ l.length) && decide (ofBitsMsb ((l.drop 16).take m) = mark) &&
      decide (crc8 0 (id ++ num) = BitVec.ofNat 8 (ofBitsMsb crc)),
    BitVec.ofNat 24 (ofGray id), ofBitsMsb num⟩

def wedgeOf (wsc : Bool) (l : List Bool) : Wedge := if wsc then wedgeField 16 0xE56A 9 l else wedgeField 12 0xB27 8 l

/-! ### Media Tag references (R119, R120, Table 6.3) -/

def mediaRef (kind sector zone ns : Nat) : DWord :=
  BitVec.ofNat 64 (kind % 4 * 2 ^ 42 + sector % 2 ^ 18 * 2 ^ 24 + zone % 2 ^ 17 * 2 ^ 7 + ns % 128)

/-- Host data of a zoned namespace: the LBA's offset in the zone. -/
def refZoned (off zone nsid : Nat) : DWord := mediaRef 0 off zone (nsid - 1)

/-- Host data of a conventional namespace: data sector index in the band group. -/
def refConv (stripe chunk sector zone nsid : Nat) : DWord := mediaRef 0 (stripe * 320 + chunk * 32 + sector) zone (nsid - 1)

def refStaging (off home nsid : Nat) : DWord := mediaRef 2 off home (nsid - 1)

def refParity (stripe : Nat) (q : Bool) (sector zone : Nat) : DWord := mediaRef 1 (stripe * 64 + 32 * b2n q + sector) zone 0

def refMeta (sector zone : Nat) : DWord := mediaRef 3 sector zone 0

/-- The Media Tag of a payload's first 4,112 bytes (Table 6.2). -/
def withTag (body : List Byte) (ref : DWord) (wgen : Word) : List Byte :=
  withCrc ((body ++ bytesLE 8 ref ++ bytesLE 4 wgen).take 4124)

/-- The reference and the write generation of a payload. -/
def tagRef (payload : List Byte) : DWord := BitVec.ofNat 64 (ofBytesLE ((payload.drop 4112).take 8))

def tagWgen (payload : List Byte) : Nat := ofBytesLE ((payload.drop 4120).take 4)

def tagCrcOk (payload : List Byte) : Bool :=
  decide ((crc32c (payload.take 4124)).toNat = ofBytesLE ((payload.drop 4124).take 4))

/-- The reference check: the fields agree, and none of bits [63:44] is set (R120). -/
def refOk (expected got : DWord) : Bool := decide (fld got 63 44 = 0) && decide (got = expected)

/-- A payload passes its Media Tag check (R251); where no index names its home, KIND 2 alone is expected. -/
def tagPass (ref : Option DWord) (wgen : Nat) (payload : List Byte) : Bool :=
  tagCrcOk payload && decide (tagWgen payload = wgen) &&
    (match ref with
     | some r => refOk r (tagRef payload)
     | none => decide (fld (tagRef payload) 63 44 = 0 ∧ fld (tagRef payload) 43 42 = 2))

/-! ### Detector (R103) -/

/-- A bank word of a sample record. -/
def SampleRec.word (x : SampleRec) (k : Nat) : Word := sg 0 x.par k

/-- The five target taps T0–T4. -/
def SampleRec.taps (x : SampleRec) : List Int :=
  [sfld (x.word 5) 7 0, sfld (x.word 5) 15 8, sfld (x.word 5) 23 16, sfld (x.word 5) 31 24, sfld (x.word 6) 7 0]

/-- The ideal sample of the five most recent bits, the newest in bit 0 (DESIGN CHOICE, log 6). -/
def SampleRec.ideal (x : SampleRec) (b : BitVec 5) : Int :=
  ((List.range 5).zipWith (fun i (t : Int) => if bit b i then t else -t) x.taps).sum

/-- The noise-prediction condition of the five most recent bits: three predictor taps and the inverse variance. -/
def SampleRec.cond (x : SampleRec) (b : BitVec 5) : List Int × Nat :=
  let k := 64 + 4 * b.toNat
  ([sfld (x.word k) 15 0, sfld (x.word (k + 1)) 15 0, sfld (x.word (k + 2)) 15 0], fld (x.word (k + 3)) 15 0)

/-- LLRs of a fragment's codeword bits from place `i` on; `ext` holds the decoder's extrinsic values of these bits. The
bits outside the samples and in the erased spans have LLR 0 (R101, R134). -/
def SampleRec.fragLlr (x : SampleRec) (win : Nat) (f : RecFrag) (i : Int) (ext : List Int) : List Int :=
  let pl := codePlaces f.pauses f.bits i
  let prior (k : Int) : Int := (((pl.zip ext).find? (fun p => decide (p.1 = k))).map Prod.snd).getD 0
  let soft := Config.soft win x.ideal x.cond (fld (x.word 6) 15 8) f.smps prior
  pl.map (fun k =>
    if k < 0 ∨ (f.smps.length : Int) ≤ k ∨ inSpans f.erased k = true then 0 else clampI (-31) 31 (soft k.toNat))

/-- LLRs of fragments in order, the first of them from `off` bits after its predicted start, the others from their
recorded positions. -/
def SampleRec.llrs (x : SampleRec) (win : Nat) : Option Int → List RecFrag → List Int → List Int
  | _, [], _ => []
  | off, f :: rest, ext =>
    x.fragLlr win f (f.start + off.getD f.offset) (ext.take f.bits) ++ x.llrs win none rest (ext.drop f.bits)

def codeBits : Nat := 36864

/-- `codeBits` values, 0 where the list has none. -/
def padCode (l : List Int) : List Int := (l ++ List.replicate codeBits 0).take codeBits

/-- Signs inverted where the scrambler gave a 1 (R106). -/
def flipSigns (seed : Option (BitVec 16)) (l : List Int) : List Int :=
  l.zipWith (fun v b => if b then -v else v) (scrBits seed l.length)

/-- A detector pass: the descrambled LLRs of the codeword. -/
def SampleRec.pass (x : SampleRec) (win : Nat) (off : Option Int) (extra : BitSpan) (ext : List Int) : List Int :=
  let l := flipSigns x.seed (padCode (x.llrs win off x.frags (flipSigns x.seed (padCode ext))))
  l.zipIdx.map (fun p => if decide (extra.lo ≤ (p.2 : Int) ∧ (p.2 : Int) < extra.hi) then 0 else p.1)

/-! ### Decoder (R105, R108) -/

/-- Hard decisions: a negative LLR is a 1 (DESIGN CHOICE, log 6). -/
def hardBits (l : List Int) : List Bool :=
  l.zipIdx.map (fun p => if p.1 < 0 then true else if 0 < p.1 then false else Config.llrTie p.2)

/-- Parity check `n` of the code: row `n % 256` of block row `n / 256`. -/
def parityCheck (code : List Bool) (n : Nat) : Bool :=
  (List.range 144).foldl (fun a j =>
    let sh := Config.ldpcShift (n / 256 * 144 + j)
    if sh = 0xFFFF#16 then a
    else
      let col := if Config.circulantUp then (n % 256 + sh.toNat) % 256 else (n % 256 + 256 - sh.toNat % 256) % 256
      a != (code.getD (256 * j + col) false)) false

/-- The checks that fail, of 3,840. -/
def syndromeWeight (code : List Bool) : Nat := (List.range 3840).countP (parityCheck code)

/-- Up to `n` global iterations: a detector pass, then the layered iterations (R108). The pair is the iterations run and
the bits decided. -/
def globalIters (pass : List Int → List Int) (loc : Nat) (early : Bool) : Nat → Nat → List Int → List Bool → Nat × List Bool
  | 0, k, _, hard => (k, hard)
  | n + 1, k, ext, _ =>
    let llr := pass ext
    let ext' := (List.range codeBits).map (Config.layered loc llr ext)
    let hard := hardBits (llr.zipWith (· + ·) ext')
    if early && syndromeWeight hard == 0 then (k + 1, hard) else globalIters pass loc early n (k + 1) ext' hard

/-- The outcome of a decode (R110, Table 5.6). -/
structure Decoded where
  iters : Nat
  weight : Nat
  changed : Nat
  payload : List Byte
deriving DecidableEq, Repr

def Decoded.ok (d : Decoded) : Bool := d.weight == 0

def SampleRec.decode (x : SampleRec) (win loc limit : Nat) (early : Bool) (off : Option Int) (extra : BitSpan) : Decoded :=
  let pass := x.pass win off extra
  let (k, hard) := globalIters pass loc early limit 0 [] []
  ⟨k, syndromeWeight hard, hamming hard (hardBits (pass [])), bytesOfBits 4128 hard⟩

end Sys2Proof.Machine
end

