-- ==== Sys2Proof/Machine/Ops.lean ====
section
/-!
DEFINITION. The named operations over State: registers, contexts and their event lines, power domains, ownership,
free values, and the recorder's intake (R378–R383).
-/
namespace Sys2Proof.Machine

/-! ### Registers -/

def State.reg (s : State) (k : Nat) : Word := sget regInit s.regs k

def State.setReg (s : State) (k : Nat) (v : Word) : State := { s with regs := sput regInit s.regs k v }

/-- Only the registers that meet a test keep their value; the others are back at their reset values. -/
def State.keepRegs (s : State) (p : Nat × Word → Bool) : State := { s with regs := s.regs.filter p }

def State.modReg (s : State) (k : Nat) (f : Word → Word) : State := s.setReg k (f (s.reg k))

/-- Set a status bit: hardware sets it whatever it was (R444). -/
def State.setStat (s : State) (k i : Nat) : State := s.modReg k (fun w => setBit w i)

/-- Raise a saturating counter field. -/
def State.bump (s : State) (k hi lo n : Nat) : State := s.modReg k (fun w => bumpFld w hi lo n)

def State.regF (s : State) (k hi lo : Nat) : Nat := fld (s.reg k) hi lo

def State.regB (s : State) (k i : Nat) : Bool := bit (s.reg k) i

/-- A Ridge-local register's key (R438). -/
def rk (r : Side) (k : Nat) : Nat :=
  match r with
  | .a => k
  | .b => k + 0x1000000

/-- A stream tile's register key (Table 22.3). -/
def tk (t : Quad) (k : Nat) : Nat := k + 0x10000 * t.idx

/-- A Quaxlink's or host port's register key (Table 22.3). -/
def lk (l : Side) (k : Nat) : Nat := k + 0x8000 * l.idx

/-! ### Parts of the state -/

def State.modCore (s : State) (r : Side) (f : Core → Core) : State := { s with core := s.core.set r (f (s.core.get r)) }

def State.modAng (s : State) (r : Side) (f : Ang → Ang) : State := { s with ang := s.ang.set r (f (s.ang.get r)) }

def State.modTile (s : State) (t : Quad) (f : Tile → Tile) : State := { s with tile := s.tile.set t (f (s.tile.get t)) }

def State.modDec (s : State) (r : Side) (f : Dec → Dec) : State := { s with dec := s.dec.set r (f (s.dec.get r)) }

def State.modLink (s : State) (l : Side) (f : Link → Link) : State := { s with link := s.link.set l (f (s.link.get l)) }

def State.modEvr (s : State) (f : Evr → Evr) : State := { s with evr := f s.evr }

def State.modRlg (s : State) (f : Ledger → Ledger) : State := { s with rlg := f s.rlg }

def State.modRcp (s : State) (f : Rcp → Rcp) : State := { s with rcp := f s.rcp }

def State.modCen (s : State) (r : Side) (f : Cen → Cen) : State := { s with cen := s.cen.set r (f (s.cen.get r)) }

def State.modMtr (s : State) (f : Mtr → Mtr) : State := { s with mtr := f s.mtr }

def State.modMon (s : State) (f : Mon → Mon) : State := { s with mon := f s.mon }

def State.modSte (s : State) (r : Side) (f : Ste → Ste) : State := { s with ste := s.ste.set r (f (s.ste.get r)) }

def State.modZtb (s : State) (f : Ztb → Ztb) : State := { s with ztb := f s.ztb }

def State.modRedun (s : State) (x : Side) (f : Redun → Redun) : State := { s with redun := s.redun.set x (f (s.redun.get x)) }

def State.modCrn (s : State) (f : Crn → Crn) : State := { s with crn := f s.crn }

def State.modWin (s : State) (f : Win → Win) : State := { s with win := f s.win }

def State.modNve (s : State) (f : Nve → Nve) : State := { s with nve := f s.nve }

def State.modHdg (s : State) (f : Hdg → Hdg) : State := { s with hdg := f s.hdg }

def State.modHpt (s : State) (p : Side) (f : Hpt → Hpt) : State := { s with hpt := s.hpt.set p (f (s.hpt.get p)) }

def State.modDram (s : State) (x : Side) (f : DramCh → DramCh) : State := { s with dram := s.dram.set x (f (s.dram.get x)) }

def State.modMem (s : State) (r : Side) (f : Sparse ScrubMem → Sparse ScrubMem) : State :=
  { s with mem := s.mem.set r (f (s.mem.get r)) }

def State.modCry (s : State) (f : Cry → Cry) : State := { s with cry := f s.cry }

def State.modFus (s : State) (f : Fus → Fus) : State := { s with fus := f s.fus }

def State.modMember (s : State) (f : Sparse Member → Sparse Member) : State := { s with member := f s.member }

def State.modMgmt (s : State) (f : Mgmt → Mgmt) : State := { s with mgmt := f s.mgmt }

def State.modPins (s : State) (f : Pins → Pins) : State := { s with pins := f s.pins }

def State.ctx (s : State) (c : CtxId) : Ctx := ((s.core.get c.ridge).spurs.get c.spur).ctx.get c.no

def State.setCtx (s : State) (c : CtxId) (x : Ctx) : State :=
  s.modCore c.ridge (fun m =>
    let p := m.spurs.get c.spur
    { m with spurs := m.spurs.set c.spur { p with ctx := p.ctx.set c.no x } })

def State.modCtx (s : State) (c : CtxId) (f : Ctx → Ctx) : State := s.setCtx c (f (s.ctx c))

def State.ridgeSt (s : State) (r : Side) : RidgeState := (s.core.get r).st

/-- A free value, and the counter moved on (DESIGN CHOICE, log 2). -/
def State.free (s : State) (w : Nat) : BitVec w := Config.freeValue w s.freeCtr

def State.freeBy (s : State) (n : Nat) : State := { s with freeCtr := s.freeCtr + n }

def State.freeNext (s : State) : State := s.freeBy 1

/-! ### General registers (R20) -/

/-- g0 reads as zero. -/
def Ctx.rd (x : Ctx) (n : Nat) : DWord := if n = 0 then 0 else sg 0 x.regs n

/-- Writes to g0 are discarded. -/
def Ctx.wr (x : Ctx) (n : Nat) (v : DWord) : Ctx := if n = 0 then x else { x with regs := sp 0 x.regs n v }

/-- A value staged through a per-context port (R39). -/
def Ctx.stagedAt (x : Ctx) (port : Nat) : DWord := sg 0 x.staged port

def Ctx.stage (x : Ctx) (port : Nat) (v : DWord) : Ctx := { x with staged := sp 0 x.staged port v }

/-! ### Event lines (R29) -/

def Ctx.raise (x : Ctx) (n : Nat) : Ctx := { x with pend := setBit x.pend n }

def State.raiseLine (s : State) (c : CtxId) (n : Nat) : State := s.modCtx c (fun x => x.raise n)

/-- Context 0 of the K Spur. -/
def kCtx0 (r : Side) : CtxId := ⟨r, .k, .q0⟩

/-- A line for the context that a Spur field and a context field name; 6 or more names none (R49). -/
def State.raiseRoute (s : State) (r : Side) (spur ctx n : Nat) : State :=
  match spurOf? spur with
  | some sp => s.raiseLine ⟨r, sp, quadOf ctx⟩ n
  | none => s

/-- A bit of SPU_INTSTAT, and line 15 of K context 0 where SPU_INTEN enables it (Table 2.6). -/
def State.spuInt (s : State) (r : Side) (i : Nat) : State :=
  let s := s.setStat (rk r R_SPU_INTSTAT) i
  if s.regB (rk r R_SPU_INTEN) i then s.raiseLine (kCtx0 r) 15 else s

/-! ### Power domains (Table 19.5, R441) -/

def State.dom (s : State) (d : Nat) : Dom := sg Dom.default s.rcp.doms d

def State.domOn (s : State) (d : Nat) : Bool := decide ((s.dom d).st = .on)

/-- Domains under the Saddle fabric depend on either half (chapter 19). -/
def State.fabricOn (s : State) : Bool := s.domOn 90 || s.domOn 91

def State.guideOn (s : State) (t : Quad) : Bool := s.domOn (34 + t.idx)

def State.detectorOn (s : State) (t : Quad) : Bool := s.domOn (30 + t.idx)

def State.writePathOn (s : State) (t : Quad) : Bool := s.domOn (38 + t.idx)


/-! ### Ownership (R13, R138) -/

/-- The Ridge that holds the unit of a stream. -/
def State.owner (s : State) (t : Quad) : Option Side := s.rlg.unit.get t.act

def State.owns (s : State) (r : Side) (t : Quad) : Bool := decide (s.owner t = some r)

def State.ownsLink (s : State) (r l : Side) : Bool := decide (s.rlg.unit.get l = some r)

/-- The Ridge boot lock (R445). -/
def State.ridgeLock (s : State) (r : Side) : Bool := s.regB (rk r R_CST_LOCK) 0

/-- The block of a key is reachable (R441): its power domain is ON. Ridge always-on blocks and RCP always are
(DEDUCED, log 9 names the domain taken for each block). -/
def State.blockUp (s : State) (key : Nat) : Bool :=
  let r := if key < 0x1000000 then 0 else 1
  match blockBase key with
  | 0x20000 => s.domOn (52 + r)
  | 0x40000 => s.domOn (50 + r)
  | 0x50000 => s.domOn (57 + r)
  | 0x0 => true
  | 0x10000 => true
  | 0x30000 => true
  | 0x60000 => true
  | 0x70000 => true
  | 0x2040000 => s.domOn 55
  | 0x2048000 => s.domOn 56
  | 0x2050000 => s.domOn 85
  | 0x2058000 => s.domOn 86
  | 0x2080000 => s.domOn 67 && s.domOn 68 && s.domOn 69 && s.domOn 70
  | 0x2090000 => (List.range 8).all (fun i => s.domOn (59 + i))
  | 0x20A0000 => s.domOn 79 || s.domOn 80
  | 0x20B0000 => s.domOn 89
  | 0x20C0000 => true
  | 0x20D0000 => s.domOn 89
  | 0x2100000 => s.domOn 87 || s.domOn 88
  | _ => s.fabricOn

/-- A Ridge that releases effects: neither fenced nor held in reset (R355). -/
def State.ridgeLive (s : State) (r : Side) : Bool := decide (s.ridgeSt r ≠ .fenced ∧ s.ridgeSt r ≠ .reset)

def State.engineOn (s : State) (r : Side) (e : Nat) : Bool := s.domOn (42 + 4 * r.idx + e) && s.ridgeLive r

/-- What a context does at a port; nothing leaves a fenced Ridge (R355). -/
def State.byCtx (s : State) (c : CtxId) (f : State → State) : State := if s.ridgeLive c.ridge then f s else s

/-! ### Refused transfers (R67) -/

/-- A refused transfer of a context: line 2, and P_PERR with the port and the reason. -/
def State.refuseCtx (s : State) (c : CtxId) (port reason : Nat) : State :=
  s.modCtx c (fun x => { x.raise 2 with perr := BitVec.ofNat 64 (port * 2 ^ 32 + reason) })

def State.refuse (s : State) (x : Accessor) (reason : Nat) : State :=
  match x.ctx with
  | some c => s.refuseCtx c x.port reason
  | none => s

/-- An access to a block: none leaves a fenced Ridge (R355); refused with reason 5 while its domain is not ON (R441),
with reason 2 where the accessor does not own it. -/
def State.access (s : State) (x : Accessor) (key : Nat) (owned : Bool) (f : State → State) : State :=
  if s.ridgeLive x.ridge = false then s
  else if s.blockUp key = false then s.refuse x 5
  else if owned = false then s.refuse x 2
  else f s

/-! ### The event recorder's intake (R378–R383) -/

/-- The class of a code outside 0x8000–0xFFFF (Table 18.3). -/
def evClass1 (code : BitVec 16) : Bool := decide (0x0100 ≤ code.toNat ∧ code.toNat ≤ 0x02FF)

/-- Codes that take no token (R381). -/
def evExempt (code : BitVec 16) : Bool :=
  decide (code.toNat = 1 ∨ code.toNat = 3) || decide (0x0100 ≤ code.toNat ∧ code.toNat ≤ 0x01FF)

/-- SOURCE of a block: bits [30:16] of its address (Table 18.1). -/
def srcBlock (k : Nat) : BitVec 16 := BitVec.ofNat 16 (k / 0x10000 % 0x8000)

/-- SOURCE of a Spur context (Table 18.1). -/
def srcCtx (c : CtxId) : BitVec 16 :=
  BitVec.ofNat 16 (0x8000 + 0x800 * c.ridge.idx + 0x100 * c.spur.idx + c.no.idx)

def EvGroup.entries (g : EvGroup) : Nat := g.recs.length + g.left

def Evr.used (e : Evr) : Nat := (e.intake.map EvGroup.entries).sum

def Evr.bucket (e : Evr) (code : BitVec 16) : Bucket := sg Bucket.default e.buckets (code.toNat % 2048)

/-- Count a suppression (R381). -/
def Evr.suppress (e : Evr) (code : BitVec 16) : Evr :=
  let b := e.bucket code
  let b' : Bucket := { b with
    supp := bumpFld b.supp 31 0 1
    lastCode := code
    firstOt := if b.supp = 0 then e.ot else b.firstOt
    lastOt := e.ot }
  { e with buckets := sp Bucket.default e.buckets (code.toNat % 2048) b' }

/-- Take a token, where the code needs one. -/
def Evr.takeToken (e : Evr) (code : BitVec 16) : Evr :=
  let b := e.bucket code
  if evExempt code || b.burst == 0 then e
  else { e with buckets := sp Bucket.default e.buckets (code.toNat % 2048) { b with tokens := b.tokens - 1 } }

def Evr.hasToken (e : Evr) (code : BitVec 16) : Bool :=
  let b := e.bucket code
  evExempt code || b.burst == 0 || decide (0 < b.tokens)

/-- A record as it enters the intake: OT, PCC and CAL of that moment (R374, R376). -/
def Evr.mkRec (e : Evr) (code : BitVec 16) (cls : Bool) (flags : Nat) (src : BitVec 16) (ps : List Word) : EvRec where
  code := code
  cls := cls
  flags := BitVec.ofNat 8 (flags + (if cls && e.cal.isSome then 4 else 0))
  source := src
  ot := e.ot
  pcc := e.pcc
  cal := if cls then e.cal.getD 0 else 0
  params := ps

/-- Answers of an attempt to post. -/
inductive PostAns where
  | taken
  | suppressed
  | full
deriving DecidableEq, Repr

/-- Post a group of `n` records whose first is `g` (R379, R381, R383). -/
def State.postGroup (s : State) (code : BitVec 16) (g : EvGroup) : State × PostAns :=
  if s.regB R_EVR_CTL 0 = false then (s.modEvr (fun e => e.suppress code), .suppressed)
  else if 64 < s.evr.used + g.entries then
    ((s.modEvr (fun e => e.suppress code)).setStat R_EVR_INTSTAT 0, .full)
  else if s.regB R_EVR_CTL 1 && !s.evr.hasToken code then (s.modEvr (fun e => e.suppress code), .suppressed)
  else
    let e := if s.regB R_EVR_CTL 1 then s.evr.takeToken code else s.evr
    (s.modEvr (fun _ => { e with intake := e.intake ++ [g] }), .taken)

/-- The seven parameters of a record: those the spec gives, and free words for the others (DESIGN CHOICE, log 5). -/
def State.evParams (s : State) (code : BitVec 16) (ps : List (Nat × Word)) : List Word :=
  (List.range 7).map (fun k =>
    match ps.lookup k with
    | some v => v
    | none => Config.eventParam code k s.freeCtr)

/-- A hardware source posts an event (R380: sources post through the intake directly), while the recorder is powered. -/
def State.event (s : State) (code : BitVec 16) (src : BitVec 16) (ps : List (Nat × Word)) : State :=
  if s.domOn 89 then
    let cls := evClass1 code
    let r := s.evr.mkRec code cls 0 src (s.evParams code ps)
    ((s.postGroup code ⟨[r], 0, none⟩).1).freeNext
  else s

/-- A write to a tile the Ridge does not own: refused with reason 2 and recorded as an event (R13). -/
def State.refuseTile (s : State) (x : Accessor) (t : Quad) : State :=
  (s.refuse x 2).event Config.eventRefusedTile (srcBlock (tk t R_STT_ID)) []

/-- A write to a tile's channel, formatter or legacy registers or ports (R13, R441). -/
def State.tileAccess (s : State) (x : Accessor) (t : Quad) (f : State → State) : State :=
  if s.ridgeLive x.ridge = false then s
  else if s.fabricOn = false then s.refuse x 5
  else if s.owns x.ridge t = false then s.refuseTile x t
  else f s

end Sys2Proof.Machine
end

