-- ==== Sys2Proof/Machine/TileOps.lean ====
section
/-!
DEFINITION. Shared operations of a stream tile: stream angle, inhibits and forcings, gates, sectors and their
status words (R82, R85, R95, R116, R124–R133, R159, R459).
-/
namespace Sys2Proof.Machine

def State.tl (s : State) (t : Quad) : Tile := s.tile.get t

def State.wsc (s : State) : Bool := s.rcp.straps.wscEn

/-- The Ridge whose synthesizer drives a stream: its owner, and the actuator's own Ridge while no unit lease is held. -/
def State.angSide (s : State) (t : Quad) : Side := (s.owner t).getD t.act

/-- The local head bound to a stream's slot. -/
def State.slotHead (s : State) (t : Quad) : Option Nat :=
  let r := (s.link.get t.act).slots.get t.slot
  if r.bound then some r.head else none

/-- The global head of a local head of an actuator (R86). -/
def globalHead (x : Side) (h : Nat) : Nat := h + 12 * x.idx

/-- The skew in use on a stream, 0 with no head bound or in wedge-servo mode (R85, R417). -/
def State.streamSkew (s : State) (t : Quad) : Int :=
  if s.wsc then 0
  else
    match s.slotHead t with
    | some h => (sg 0 (s.ang.get (s.angSide t)).skewUse (globalHead t.act h)).toInt
    | none => 0

/-- The stream AC for a Ridge AC (R85). -/
def State.streamAcAt (s : State) (t : Quad) (ac : DWord) : Int := (ac.toNat : Int) + s.streamSkew t

def State.streamAc (s : State) (t : Quad) : Int := s.streamAcAt t (s.ang.get (s.angSide t)).ac

/-- The angle field of a stream AC, 0 to 2^24 − 1 (R2). -/
def angleOf (a : Int) : Nat := (a % 16777216).toNat

/-! ### Inhibits and forcings -/

/-- Write inhibit of a Ridge's streams (R82). -/
def State.wrInhibit (s : State) (r : Side) : Bool :=
  let g := s.ang.get r
  !(decide (g.src = .track) || decide (g.src = .flywheel)) || (decide (g.src = .flywheel) && g.flyExpired) || !g.idxOk ||
    Quad.all.any (fun t => s.owns r t && (s.tl t).wedgeInh)

/-- A word of the active bank. -/
def State.bankNow (s : State) (t : Quad) (k : Nat) : Word := sg 0 ((s.tl t).banks.get (s.tl t).active) k

/-- RATIO of the active bank (Table 5.2). -/
def State.ratio (s : State) (t : Quad) : Nat := fld (s.bankNow t 0) 23 0

/-- Mark rate × RATIO in units of 2^−37 bits per µs (R94): ANG_RATE is AU per µs in Q16.16, a mark is 32 AU. -/
def State.bitRate (s : State) (t : Quad) : Nat := (s.reg (rk (s.angSide t) R_ANG_RATE)).toNat * s.ratio t

/-- The clock-range fault of R95: no bit clock, RATIO 0, or outside 0.8 to 5.8 Gbit/s. -/
def State.clkFault (s : State) (t : Quad) : Bool :=
  let src := (s.ang.get (s.angSide t)).src
  !(decide (src = .track) || decide (src = .handover) || decide (src = .flywheel)) || decide (s.ratio t = 0) ||
    decide (s.bitRate t < 800 * 2 ^ 37) || decide (5800 * 2 ^ 37 < s.bitRate t)

/-- The first bit boundary at or after a stream AC, in bits: one revolution holds 8 × RATIO bits (R94). -/
def State.bitIndex (s : State) (t : Quad) (a : Int) : Int := (a * s.ratio t + 2097151) / 2097152

/-- Bits of the gate interval that began at `rise`, up to a stream AC. -/
def State.bitsFrom (s : State) (t : Quad) (rise : DWord) (a : Int) : Int := s.bitIndex t a - s.bitIndex t (rise.toNat : Int)

def State.wrEn (s : State) (t : Quad) : Bool := s.regB (tk t R_STT_WRCTL) 0

/-- The persisting forcings of R459. -/
def State.forcing (s : State) (t : Quad) : Bool :=
  let l := s.link.get t.act
  s.wrInhibit (s.angSide t) || s.clkFault t || !s.wrEn t || decide (l.st = .fault) || l.paflt ||
    (match s.owner t with
     | some r => decide (s.ridgeSt r = .fenced)
     | none => false)

/-- Confirmed write-armed: the last acknowledged HSEL has mode 2 for the bound head (R155). -/
def SlotRec.confirmed (r : SlotRec) : Bool := r.bound && decide (r.ack = some (2, r.head))

/-- Confirmed write-armed, and no forcing persists (R155, R459). -/
def State.writeArmed (s : State) (t : Quad) : Bool :=
  ((s.link.get t.act).slots.get t.slot).confirmed && !s.forcing t

/-! ### Wedge keep-out (R124, R415) -/

def State.wedgeCount (s : State) : Nat := if s.wsc then s.rcp.wscN else 256

/-- Where wedge `w` begins. -/
def State.wedgeAt (s : State) (w : Nat) : Nat := w * 16777216 / s.wedgeCount

def State.keepPre (s : State) (t : Quad) : Nat := s.regF (tk t R_FMT_WEDGECFG) 31 16

def State.keepPost (s : State) (t : Quad) : Nat :=
  max (s.regF (tk t R_FMT_WEDGECFG) 15 0) (if s.wsc then 1800 else 1600)

/-- The wedge whose start lies at or before an angle. -/
def State.wedgeBefore (s : State) (a : Nat) : Nat := (a * s.wedgeCount + s.wedgeCount - 1) / 16777216 % s.wedgeCount

/-- Inside some keep-out: the wedges around the angle are examined. -/
def State.inKeepout (s : State) (t : Quad) (a : Nat) : Bool :=
  let n := s.wedgeCount
  let w := a * n / 16777216
  [w, w + 1, w + 2, w + n - 1].any (fun v =>
    let d : Int := (((a : Int) - (s.wedgeAt (v % n) : Int) + 8388608) % 16777216) - 8388608
    decide (-(s.keepPre t : Int) ≤ d ∧ d < (s.keepPost t : Int)))

/-- A write gate may not be high: keep-out, or a foreign track identity while TRKCHK is 1 (R124). -/
def State.keptOut (s : State) (t : Quad) (a : Nat) : Bool :=
  s.inKeepout t a || (s.regB (tk t R_FMT_CTL) 3 && (s.tl t).trackBad)

/-! ### Descriptors (R126) -/

def bufAddr (a : Nat) : BufAddr := ⟨a / 128 % 64, a / 32 % 4, a % 32⟩

def State.descWord (s : State) (t : Quad) (slot w : Nat) : Word := sg 0 (s.tl t).desc (4 * slot + w)

def tagSlot (tag : BitVec 16) : Nat := tag.toNat % 64

/-- Fragment count and codeword bits of the fragments of a tag's descriptor. -/
def State.fragBits (s : State) (t : Quad) (tag : BitVec 16) : List Nat :=
  let w0 := s.descWord t (tagSlot tag) 0
  let w1 := s.descWord t (tagSlot tag) 1
  let n := fld w1 17 16 + 1
  let given := [fld w0 15 0, fld w0 31 16, fld w1 15 0].take (n - 1)
  given ++ [36864 - given.sum]

/-- A descriptor is invalid when a fragment has fewer than 512 bits, or in wedge-servo mode more than two fragments
are named (R126, R420). -/
def State.descValid (s : State) (t : Quad) (tag : BitVec 16) : Bool :=
  (s.fragBits t tag).all (fun b => decide (512 ≤ b)) && !(s.wsc && decide (2 < (s.fragBits t tag).length))

/-- Where a descriptor points: a stripe buffer place (R234), or a DRAM byte address. -/
def State.descPlace (s : State) (t : Quad) (tag : BitVec 16) : BufAddr ⊕ Nat :=
  let w2 := s.descWord t (tagSlot tag) 2
  let w3 := s.descWord t (tagSlot tag) 3
  if bit w3 31 then .inl (bufAddr (fld w2 12 0))
  else .inr ((fld w3 15 0 * 2 ^ 32 + w2.toNat) / 64 * 64)

def State.descFrags (s : State) (t : Quad) (tag : BitVec 16) : Nat := (s.fragBits t tag).length

/-- Codeword bits up to the end of fragment `k` (from 1). -/
def State.fragEnd (s : State) (t : Quad) (tag : BitVec 16) (k : Nat) : Nat := ((s.fragBits t tag).take k).sum

/-! ### Sector status (R132, R133) -/

/-- Outcomes of Table 6.7. -/
inductive SecOut where
  | ok
  | fail
  | nodec
  | missed
  | wabort
  | short
  | descerr
deriving DecidableEq, Repr

def SecOut.code : SecOut → Nat
  | .ok => 0
  | .fail => 1
  | .nodec => 2
  | .missed => 3
  | .wabort => 4
  | .short => 5
  | .descerr => 6

/-- The status word of Table 6.7. -/
def statusWord (tag : BitVec 16) (out : SecOut) (rec frags : Nat) (crcOk erased : Bool) (miss : BitVec 4)
    (offs : Four Int) (iter skips : Nat) : DWord :=
  let o (x : Int) (sh : Nat) : Nat := (ofI 6 x).toNat <<< sh
  BitVec.ofNat 64 (tag.toNat <<< 48 + out.code <<< 44 + rec <<< 40 + (frags - 1) <<< 38 + b2n crcOk <<< 37 +
    b2n erased <<< 36 + miss.toNat <<< 32 + o offs.q0 26 + o offs.q1 20 + o offs.q2 14 + o offs.q3 8 +
    (min iter 15) <<< 4 + min skips 15)

/-- Free entries of the status FIFO (R132). -/
def Tile.statusRoom (x : Tile) : Bool := decide (x.posted.length + x.reserved < 32)

/-- A status enters the FIFO in its reserved slot; line 6 and the counters follow (R92, R132). -/
def State.enterStatus (s : State) (t : Quad) (w : DWord) : State :=
  let s := s.modTile t (fun x => { x with posted := x.posted ++ [w], reserved := x.reserved - 1 })
  let s := s.bump (tk t R_FMT_SECTCNT) 31 0 1
  let s :=
    match fld w 47 44 with
    | 4 => s.bump (tk t R_FMT_OUTCNT) 31 24 1
    | 5 => s.bump (tk t R_FMT_OUTCNT) 23 16 1
    | 6 => s.bump (tk t R_FMT_OUTCNT) 15 8 1
    | 1 => s.bump (tk t R_FMT_OUTCNT) 7 0 1
    | _ => s
  match s.owner t with
  | none => s
  | some r =>
    let c := s.reg (rk r (R_ANG_AEQCFG + 4 * t.idx))
    if bit c 10 then s.raiseRoute r (fld c 15 12) (fld c 9 8) 6 else s

/-- The statuses known up to the first sector that still decodes enter the FIFO, in the order of the ends (R132). -/
def State.drainStatus (s : State) (t : Quad) : List (Nat × Option DWord) → State
  | [] => s.modTile t (fun x => { x with ended := [] })
  | (n, none) :: rest => s.modTile t (fun x => { x with ended := (n, none) :: rest })
  | (_, some w) :: rest => (s.enterStatus t w).drainStatus t rest

/-- A sector ends: its status stands behind those of the sectors that ended before it. -/
def State.endStatus (s : State) (t : Quad) (n : Nat) (w : Option DWord) : State := s.drainStatus t ((s.tl t).ended ++ [(n, w)])

/-- Post the status of a tag that reserved a slot and needs no decode (R132). -/
def State.postStatus (s : State) (t : Quad) (w : DWord) : State := s.endStatus t 16 (some w)

/-- The on-the-fly decode of record `n` gives its sector's status. -/
def State.decidedStatus (s : State) (t : Quad) (n : Nat) (w : DWord) : State :=
  s.drainStatus t (lmodFirst (fun p => p.1 == n && p.2.isNone) (fun p => (p.1, some w)) (s.tl t).ended)

/-- The status of a sector that ends without a decode. -/
def State.sectorWord (s : State) (t : Quad) (x : Sector) (out : SecOut) : DWord :=
  statusWord x.tag out (x.record.getD 15) (s.descFrags t x.tag) (x.isWrite && x.crcGen) x.erased x.syncMiss x.offs 0 x.skips

/-- Hold a sample record; the oldest is freed when a ninth would be held (R104). -/
def Tile.hold (x : Tile) (r : Nat) : Tile :=
  let h := x.heldRecs.filter (fun n => n != r)
  { x with
    heldRecs := (if h.length < 8 then h else h.drop 1) ++ [r]
    busyRecs := x.busyRecs.filter (fun n => n != r) }

def Tile.freeRec (x : Tile) (r : Nat) : Tile :=
  { x with
    heldRecs := x.heldRecs.filter (fun n => n != r)
    busyRecs := x.busyRecs.filter (fun n => n != r)
    freeAfter := x.freeAfter.filter (fun n => n != r) }

/-- A sample record neither held nor in use (DESIGN CHOICE, log 8). -/
def Tile.pickRec (x : Tile) : Option Nat :=
  pickOf .record ((List.range 16).filter (fun n => !x.heldRecs.contains n && !x.busyRecs.contains n))

/-! ### On-the-fly assignment (R107) -/

def Dec.slotBusy (d : Dec) (n : Nat) : Bool := d.jobs.any (fun j => j.1 == n)

/-- Engine `e` takes the sectors of stream `t`: mapped, owned, enabled and powered (R107, Table 5.13). -/
def State.mapped (s : State) (r : Side) (e : Quad) (t : Quad) : Bool :=
  let m := s.reg (rk r R_DEC_STRMAP)
  bit m (4 * e.idx + 3) && decide (fld m (4 * e.idx + 1) (4 * e.idx) = t.idx) && s.owns r t &&
    s.regB (rk r R_DEC_PWRCTL) e.idx && s.engineOn r e.idx

/-- Engine `e` is mapped to a stream its Ridge owns. -/
def State.mappedAny (s : State) (r : Side) (e : Quad) : Bool := Quad.all.any (fun t => s.mapped r e t)

/-- The on-the-fly slot of an engine that takes the next sector: the slots take turns. -/
def Dec.freeTurn (d : Dec) (e : Quad) : Option Side :=
  let u := d.turn.get e
  if !d.slotBusy (4 * e.idx + u.idx) then some u else if !d.slotBusy (4 * e.idx + u.peer.idx) then some u.peer else none

/-- The engine and slot that take a sector of a stream that ends now. Which of several engines takes it is open
(DESIGN CHOICE, log 8). -/
def State.otfSlot (s : State) (r : Side) (t : Quad) : Option (Quad × Side) :=
  let d := s.dec.get r
  let can := Quad.all.filter (fun e => s.mapped r e t && s.regB (rk r R_DEC_CTL) e.idx && (d.freeTurn e).isSome)
  match pickOf .engine (can.map Quad.idx) with
  | none => none
  | some n => (d.freeTurn (quadOf n)).map (fun u => (quadOf n, u))

/-- FMT_LASTOFF of a read that ends. -/
def State.lastOff (s : State) (t : Quad) (x : Sector) : State :=
  let o (q : Quad) : Nat := (ofI 6 (x.offs.get q)).toNat
  s.setReg (tk t R_FMT_LASTOFF) (BitVec.ofNat 32 (o .q0 * 2 ^ 18 + o .q1 * 2 ^ 12 + o .q2 * 2 ^ 6 + o .q3))

/-- The sample record of a sector that ends (R104); the bank's words are those at the end (DESIGN CHOICE, log 120). -/
def State.sampleRec (s : State) (t : Quad) (x : Sector) : SampleRec :=
  ⟨x.past, (s.tl t).banks.get (s.tl t).active, x.seed⟩

/-- The record `n` of a sector that ended goes to an on-the-fly slot, or is held and the status says that no decode ran
(R107). The decode destination is taken here (DESIGN CHOICE, log 120). -/
def State.toDecode (s : State) (t : Quad) (x : Sector) (out : SecOut) (n : Nat) : State :=
  let r := s.angSide t
  match s.otfSlot r t with
  | some (e, u) =>
    (s.modDec r (fun d => { d with
      jobs := d.jobs ++ [(4 * e.idx + u.idx, DecJob.otf t n (s.sectorWord t x out) (s.descPlace t x.tag))]
      turn := d.turn.set e u.peer })).endStatus t n none
  | none =>
    ((s.setStat (rk r R_DEC_INTSTAT) 1).modTile t (fun y => y.hold n)).postStatus t
      (s.sectorWord t x (if out = .ok then .nodec else out))

/-- A read sector ends (R107, R127, R132). `out` is SHORT for an incomplete sector, OK otherwise. -/
def State.endRead (s : State) (t : Quad) (x : Sector) (out : SecOut) : State :=
  let s := s.lastOff t x
  let y := s.sampleRec t x
  let s := s.modTile t (fun z => { z with sector := none, lastTag := some x.tag, win := none, freeze := none })
  match x.record with
  | none => s.postStatus t (s.sectorWord t x (if out = .ok then .nodec else out))
  | some n => (s.modTile t (fun z => { z with recs := sp none z.recs n (some y) })).toDecode t x out n

/-- An abort that does not count toward a write fault: keep-out, write inhibit, a fence (R255; STT_WRCTL.EN at 0 is taken
as write inhibit, DEDUCED, log 161). -/
def State.abortExcused (s : State) (t : Quad) : Bool :=
  s.wrInhibit (s.angSide t) || s.inKeepout t (angleOf (s.streamAc t)) || !s.wrEn t ||
    (match s.owner t with
     | some r => decide (s.ridgeSt r = .fenced)
     | none => false)

/-- A write sector of the bound head has ended: it enters the head's log (R255). -/
def State.logWrite (s : State) (t : Quad) (out : SecOut) : State :=
  match s.slotHead t with
  | none => s
  | some h =>
    let e := if out = .wabort ∧ s.abortExcused t = false then some s.evr.ot.toNat else none
    s.modTile (Quad.ofSlot t.act .a) (fun y => { y with wrLog := sp [] y.wrLog h ((e :: sg [] y.wrLog h).take 1000) })

/-- A write sector ends with an outcome and posts its status. -/
def State.endWrite (s : State) (t : Quad) (x : Sector) (out : SecOut) : State :=
  ((s.logWrite t out).modTile t (fun y => { y with sector := none, lastTag := some x.tag })).postStatus t (s.sectorWord t x out)

/-! ### The present fragment (R114, R125, R127, R131) -/

/-- Length of the present fragment's mark; in wedge-servo mode 20 bits (R420). -/
def State.markLen (s : State) (x : Sector) : Nat := if s.wsc then 20 else if x.frag = 1 then 32 else 16

/-- The mark of the present fragment, most significant bit first (R118, R125, R420). -/
def State.markBits (s : State) (t : Quad) (x : Sector) : List Bool :=
  if s.wsc then bitsMsb 20 (s.regF (tk t R_FMT_SYNCPAT) 19 0)
  else if x.frag = 1 then bitsMsb 32 (s.reg (tk t R_FMT_SYNCPAT)).toNat else bitsMsb 16 (s.regF (tk t R_FMT_RSYNCPAT) 15 0)

/-- Codeword bits of the present fragment, and those before it. -/
def State.fragLen (s : State) (t : Quad) (x : Sector) : Nat := (s.fragBits t x.tag).getD (x.frag - 1) 0

def State.fragBase (s : State) (t : Quad) (x : Sector) : Nat := s.fragEnd t x.tag (x.frag - 1)

/-- The first codeword bit of the fragment in its gate interval, as it was sent or found. -/
def State.codeFrom (x : Sector) : Option Int :=
  x.run.start.map (fun n => (n : Int) + if x.isWrite then 0 else x.offs.get (quadOf (x.frag - 1)))

/-- Codeword bits among the first `n` bits of the gate interval. -/
def State.codeGot (s : State) (t : Quad) (x : Sector) (n : Int) : Nat :=
  match State.codeFrom x with
  | none => 0
  | some i => (codePlaces x.run.pauses (s.fragLen t x) i).countP (fun k => decide (k < n))

/-- The channel bits up to the fragment's last codeword bit, and the pad of the last fragment (R125, R127). -/
def State.fragNeed (s : State) (t : Quad) (x : Sector) : Option Int :=
  (State.codeFrom x).map (fun i => i + s.fragLen t x + spanSum x.run.pauses + if x.frags ≤ x.frag then 16 else 0)

/-- The gate interval closes after `n` bits: the sector with its count, whether the fragment's codeword bits are all
transferred, and whether the sector is complete with its pad (R127). -/
def State.closeFrag (s : State) (t : Quad) (x : Sector) (n : Int) : Sector × Bool × Bool :=
  let got := s.codeGot t x n
  let frag := x.done || decide (got = s.fragLen t x)
  ({ x with gateOpen := false, pos := if x.done then 36864 else s.fragBase t x + got }, frag,
    x.done || (decide (x.frags ≤ x.frag) && (s.fragNeed t x).any (fun k => decide (k ≤ n))))

/-! #### Write -/

/-- The payload source as bytes (R127). -/
def State.sourceBytes (s : State) (t : Quad) (tag : BitVec 16) : List Byte :=
  let r := s.angSide t
  let bs :=
    match s.descPlace t tag with
    | .inl b => sg [] (sg StripeBuf.default (s.ste.get r).bufs b.buf).secs (32 * b.slot + b.sector)
    | .inr a =>
      (List.range 4128).map (fun i =>
        let c := s.dram.get r
        let p := s.dram.get r.peer
        if sg false c.poison ((a + i) / 8) then sg 0 p.bytes (a + i) else sg 0 c.bytes (a + i))
  (bs ++ List.replicate 4128 0).take 4128

/-- The bytes written: those of the source, a free value where it was changed while in use (R127, DESIGN CHOICE, log
121). -/
def State.sentBytes (s : State) (t : Quad) (x : Sector) : List Byte :=
  let v : BitVec 33024 := s.free 33024
  ((x.src.zip (s.sourceBytes t x.tag)).zipIdx).map (fun p =>
    if p.1.1 = p.1.2 then p.1.1 else BitVec.ofNat 8 (fld v (8 * p.2 + 7) (8 * p.2)))

/-- The scrambled codeword bits of a write (R106, R118, R121). -/
def State.writeCode (s : State) (t : Quad) (x : Sector) : List Bool :=
  let bs := s.sentBytes t x
  scramble x.seed (codeword (if x.crcGen then withCrc bs else bs))

/-- WGLEAD of the active bank (Table 5.2). -/
def State.wgLead (s : State) (t : Quad) : Nat := fld (s.bankNow t 8) 7 0

/-- The first `n` channel bits of the write gate's interval, each with the delay of its edge (R114, R115, R118). In
wedge-servo mode the preamble takes the WGLEAD bits of tone (R420, DEDUCED, log 154). -/
def State.sendBits (s : State) (t : Quad) (x : Sector) (n : Nat) : List (Bool × Nat) :=
  let code := ((s.writeCode t x).drop (s.fragBase t x)).take (s.fragLen t x)
  let pad := if x.frags ≤ x.frag then bitsMsb 16 (s.regF (tk t R_FMT_PADPAT) 15 0) else []
  let k := x.run.start.getD 0 - s.markLen x
  let l := fragStream (if s.wsc then preambleBits k else toneBits k) (s.markBits t x) code pad x.run.pauses n
  l.zip (edgeDelays (s.bankNow t 7) false false (edges l))

/-- The write data of the interval that ends now goes out on the WDx_P/N balls. -/
def State.sendData (s : State) (t : Quad) : State :=
  match (s.tl t).sector with
  | some x =>
    if (s.tl t).wg && x.isWrite && x.gateOpen then
      let l := s.sendBits t x (s.bitsFrom t x.run.rise (s.streamAc t)).toNat
      (s.modTile t (fun y => { y with sent := l })).freeNext
    else s
  | none => s

/-! #### Read -/

def State.putSector (s : State) (t : Quad) (x : Sector) : State := s.modTile t (fun y => { y with sector := some x })

/-- The spans of a read's fragment that are erasures: the freeze spans with ERAM bits on each side (R101); with HOLD the
whole read is a span (R100). -/
def State.erasedSpans (s : State) (t : Quad) (f : FragRun) : List BitSpan :=
  let m : Int := s.regF (tk t R_STT_FRZCFG) 7 4
  (if s.regB (tk t R_STT_CHN_CTL) 5 then [⟨0, f.smps.length⟩] else []) ++ f.frozen.map (fun p => ⟨p.lo - m, p.hi + m⟩)

/-- The span still open at the end of a read. -/
def State.openFreeze (s : State) (t : Quad) (f : FragRun) : FragRun :=
  match (s.tl t).freeze with
  | some (_, lo) => { f with frozen := addSpan f.frozen ⟨lo, f.smps.length⟩ }
  | none => f

/-- The fragment of a read that closes, for the sample record (R104, R129). -/
def State.recFrag (s : State) (t : Quad) (x : Sector) : RecFrag :=
  let f := s.openFreeze t x.run
  let k := quadOf (x.frag - 1)
  { smps := if f.start.isSome then f.smps.map Smp.y else []
    start := f.start.getD 0
    offset := x.offs.get k
    miss := bit x.syncMiss (x.frag - 1)
    bits := s.fragLen t x
    pauses := f.pauses
    erased := s.erasedSpans t f }

/-- Codeword bits of a fragment that are erasures by R101. -/
def RecFrag.erasures (f : RecFrag) : Nat :=
  (codePlaces f.pauses f.bits (f.start + f.offset)).countP (fun k =>
    decide (0 ≤ k ∧ k < (f.smps.length : Int)) && inSpans f.erased k)

/-- The fragment of a read joins the record; its erasures are counted (R101). -/
def State.takeFrag (s : State) (t : Quad) (x : Sector) : State × Sector :=
  let f := s.recFrag t x
  ((s.bump (tk t R_STT_ERACNT) 31 0 f.erasures).modTile t (fun y => { y with freeze := none }),
    { x with past := x.past ++ [f], erased := x.erased || decide (0 < f.erasures) })

/-- Starting bits examined by a search with `n` bits received: up to the last bit at which the mark lies whole in them,
the closing bit and HALFWIN bits after the prediction (R128). -/
def SyncWin.tries (w : SyncWin) (close n : Nat) : Nat := min (min close (w.openAt + 2 * w.half)) (n - w.len) + 1 - w.openAt

def SyncWin.search (w : SyncWin) (bits : List Bool) (close : Nat) : Option Nat :=
  if bits.length < w.len then none else syncSearch bits (bitsMsb w.len w.pat.toNat) w.th w.openAt (w.tries close bits.length)

/-- The mark is found at a bit: the fragment's offset and its first codeword bit (R129). -/
def State.syncFound (s : State) (t : Quad) (w : SyncWin) (pos : Nat) : State :=
  let off : Int := (pos : Int) - (w.openAt + w.half : Nat)
  let s := s.modTile t (fun y =>
    { y with
      win := some { w with found := true }
      sector := y.sector.map (fun x =>
        { x with
          offs := x.offs.set (quadOf (x.frag - 1)) off
          run := { x.run with start := some (w.openAt + w.half + w.len) } }) })
  if off = 0 then s else s.bump (tk t R_FMT_SYNCCNT) 15 0 1

/-- The window closes without a match: the fragment flywheels at offset 0 (R129). -/
def State.flywheelFrag (s : State) (t : Quad) (w : SyncWin) : State :=
  let s := s.bump (tk t R_FMT_SYNCCNT) 31 16 1
  s.modTile t (fun y =>
    { y with
      sector := y.sector.map (fun x =>
        { x with
          syncMiss := setBit x.syncMiss (x.frag - 1)
          offs := x.offs.set (quadOf (x.frag - 1)) 0
          run := { x.run with start := some (w.openAt + w.half + w.len) } }) })

/-- An open window closes at bit `close` of the samples received (R128, R129). -/
def State.closeWin (s : State) (t : Quad) (close : Nat) : State :=
  match (s.tl t).win, (s.tl t).sector with
  | some w, some x =>
    let s :=
      if w.found then s
      else
        match w.search (x.run.smps.map Smp.hard) close with
        | some p => s.syncFound t w p
        | none => s.flywheelFrag t w
    s.modTile t (fun y => { y with win := none })
  | _, _ => s.modTile t (fun y => { y with win := none })

/-- Samples of the read at hand since the last ones received, free values where no event brought them (DESIGN CHOICE,
DESIGN CHOICE, log 2). -/
def State.freeSmps (s : State) (n : Nat) : List Smp :=
  (List.range n).map (fun i => ⟨(Config.freeValue 8 (s.freeCtr + i)).toInt, bit (Config.freeValue 1 (s.freeCtr + n + i)) 0⟩)

/-- A read in progress ends where it is: the bits received up to the stream AC stand, the others are erasures (R127). -/
def State.cutRead (s : State) (t : Quad) (x : Sector) : State :=
  let n := (s.bitsFrom t x.run.rise (s.streamAc t)).toNat - x.run.smps.length
  let s :=
    if x.gateOpen then
      ((s.freeBy (2 * n)).putSector t { x with run := { x.run with smps := x.run.smps ++ s.freeSmps n } }).closeWin t
        (x.run.smps.length + n)
    else s
  match (s.tl t).sector with
  | some y =>
    if y.gateOpen then
      let (z, frag, whole) := s.closeFrag t y y.run.smps.length
      let (s, z) := s.takeFrag t z
      if whole then s.endRead t z .ok
      else if frag && decide (z.frag < z.frags) then s.putSector t z
      else s.endRead t { z with erased := true } .short
    else s.endRead t { y with erased := true } .short
  | none => s

/-- A sector in progress is cut off: SHORT, or the outcome of a write whose bits are all sent (R127, R132). -/
def State.cutSector (s : State) (t : Quad) : State :=
  match (s.tl t).sector with
  | none => s
  | some x =>
    if x.isWrite then s.endWrite t x (if x.done then .ok else .short)
    else
      let s := s.cutRead t x
      match (s.tl t).sector with
      | some y => s.endRead t { y with erased := true } .short
      | none => s

/-- A gate falls before its action (R91): a fragment whose codeword bits are complete stands, any other sector ends. -/
def State.cutGate (s : State) (t : Quad) : State :=
  match (s.tl t).sector with
  | none => s
  | some x =>
    if x.isWrite = false then (if (s.tl t).rg then s.cutRead t x else s)
    else if (s.tl t).wg then
      let n := s.bitsFrom t x.run.rise (s.streamAc t)
      let (y, frag, whole) := s.closeFrag t x n
      let s := s.sendData t
      if whole then s.endWrite t y .ok else if frag && decide (y.frag < y.frags) then s.putSector t y else s.endWrite t y .short
    else s

/-! ### Gates -/

/-- A skew written while a gate was active takes effect when the gate goes low (R86). -/
def State.settleSkew (s : State) (t : Quad) : State :=
  match s.slotHead t with
  | none => s
  | some h =>
    let g := globalHead t.act h
    let f (a : Ang) : Ang := { a with skewUse := sp 0 a.skewUse g (sg 0 a.skew g) }
    (s.modAng .a f).modAng .b f

/-- The write gate falls; an assist gate still high starts its tail (R159). -/
def State.dropWg (s : State) (t : Quad) : State :=
  if (s.tl t).wg then
    let a := s.streamAc t
    let s := s.modTile t (fun x => { x with wg := false, wgFell := if x.ag then some (ofI 64 a) else none })
    let s := if (s.tl t).rg then s else s.settleSkew t
    if (s.tl t).ag && decide (s.regF (lk t.act R_QLK_GATECFG) 15 0 = 0) then
      (s.modTile t (fun x => { x with ag := false, wgFell := none })).setStat (lk t.act R_QLK_INTSTAT) 5
    else s
  else s

def State.dropRg (s : State) (t : Quad) : State :=
  if (s.tl t).rg then
    let s := s.modTile t (fun x => { x with rg := false, win := none })
    if (s.tl t).wg then s else s.settleSkew t
  else s

/-- Force the write and assist gates low (R116, R124, R147, R151): a sector whose gate was high ends WABORT. -/
def State.forceLow (s : State) (t : Quad) (once : Bool) : State :=
  let was := (s.tl t).wg
  let s := s.sendData t
  let s := s.modTile t (fun x => { x with wg := false, ag := false, wgFell := none, forcedOnce := x.forcedOnce || once })
  let s := if was && !(s.tl t).rg then s.settleSkew t else s
  match (s.tl t).sector with
  | some x => if was && x.isWrite then s.endWrite t x .wabort else s
  | none => s

/-- Force low the owned streams of a Ridge while write inhibit holds (R82). -/
def State.applyInhibit (s : State) (r : Side) : State :=
  if s.wrInhibit r then
    Quad.all.foldl (fun s t => if s.owns r t && ((s.tl t).wg || (s.tl t).ag) then s.forceLow t false else s) s
  else s

/-- Line 5 when the unexecuted entries of an AEQ fall below LOWMARK (R92). `n` is the number before. -/
def State.lowMark (s : State) (t : Quad) (n : Nat) : State :=
  match s.owner t with
  | none => s
  | some r =>
    let c := s.reg (rk r (R_ANG_AEQCFG + 4 * t.idx))
    let m := fld c 7 0
    if bit c 16 && decide (m ≤ n) && decide ((s.tl t).aeq.length < m) then s.raiseRoute r (fld c 27 24) (fld c 21 20) 5
    else s

/-- FLUSH (R91): every entry leaves, the gates go low, an open window closes, the error flags clear (Table 4.9). -/
def State.flushAeq (s : State) (t : Quad) : State :=
  let n := (s.tl t).aeq.length
  let s := s.modTile t (fun x => { x with aeq := [], illact := false, missed := false, hswerr := false })
  let s := s.cutGate t
  let s := (s.dropWg t).dropRg t
  let s := s.modTile t (fun x => { x with ag := false, wgFell := none, win := none })
  s.lowMark t n

end Sys2Proof.Machine
end

