-- ==== Sys2Proof/Machine/Quaxlink.lean ====
section
/-!
DEFINITION. Quaxlink, heads and the assist interlock (chapter 7): frames, retries, link states, head switches,
preamplifier register accesses.
-/
namespace Sys2Proof.Machine

def State.lnk (s : State) (l : Side) : Link := s.link.get l

/-- Priority of a frame type, 0 first (R145). -/
def FrameType.prio : FrameType → Nat
  | .safe => 0
  | .hsel => 1
  | .aslv => 2
  | .mact => 3
  | .htlv => 4
  | .regwr => 5
  | .regrd => 5
  | .idle => 6

/-- TYPE codes of Table 7.4. -/
def FrameType.code : FrameType → Nat
  | .idle => 0
  | .regwr => 1
  | .regrd => 2
  | .hsel => 3
  | .aslv => 4
  | .htlv => 5
  | .mact => 6
  | .safe => 7

/-- The head or slot a frame is for; frames of one type and key leave in request order (R145). -/
def Frame.key (f : Frame) : Nat :=
  match f.typ with
  | .hsel => fld f.data 23 23
  | .aslv => fld f.data 19 16
  | .htlv => fld f.data 19 16
  | .mact => fld f.data 19 16
  | _ => 0

def hselFrame (slot : Side) (mode head : Nat) : Frame :=
  ⟨.hsel, BitVec.ofNat 24 (slot.idx * 2 ^ 23 + mode * 2 ^ 20 + head * 2 ^ 16), 0, false⟩

def aslvFrame (head : Nat) (lv : BitVec 16) : Frame := ⟨.aslv, BitVec.ofNat 24 (head * 2 ^ 16 + lv.toNat), 0, false⟩

def htlvFrame (head : Nat) (lv : BitVec 12) : Frame := ⟨.htlv, BitVec.ofNat 24 (head * 2 ^ 16 + lv.toNat), 0, false⟩

def mactFrame (head : Nat) (cmd : BitVec 16) : Frame := ⟨.mact, BitVec.ofNat 24 (head * 2 ^ 16 + cmd.toNat), 0, false⟩

def safeFrame (reason : Nat) : Frame := ⟨.safe, BitVec.ofNat 24 (0xA55A * 2 ^ 8 + reason), 0, false⟩

def regFrame (isRead : Bool) (addr value : Nat) : Frame :=
  if isRead then ⟨.regrd, BitVec.ofNat 24 (addr * 2 ^ 16), 0, false⟩
  else ⟨.regwr, BitVec.ofNat 24 (addr * 2 ^ 16 + value), 0, false⟩

/-- The read of register 0x00 that ends link start (R148). -/
def startFrame : Frame := { regFrame true 0 0 with start := true }

/-- A frame's bits (Table 7.3): SYNC, NAK, TYPE, DATA and the CRC-8 over bits [36:8] (R140). -/
def frameBits (nak : Bool) (typ : Nat) (data : BitVec 24) : BitVec 40 :=
  let body := b2n nak * 2 ^ 28 + typ * 2 ^ 24 + data.toNat
  BitVec.ofNat 40 (5 * 2 ^ 37 + body * 2 ^ 8 + (crc8 0xFF#8 (bitsMsb 29 body)).toNat)

/-- SYNC and CRC of a frame are right (R140, R141). -/
def frameOk (w : BitVec 40) : Bool := decide (w = frameBits (bit w 36) (fld w 35 32) (BitVec.ofNat 24 (fld w 31 8)))

/-- Request a frame while the link is in RUN; in every other state nothing is sent (R460). -/
def State.sendRun (s : State) (l : Side) (f : Frame) : State :=
  if (s.lnk l).st = .run then s.modLink l (fun x => { x with txq := x.txq ++ [f] }) else s

/-- A MACT for a head replaces one not yet sent (R145). -/
def State.sendMact (s : State) (l : Side) (f : Frame) : State :=
  if (s.lnk l).st = .run then
    s.modLink l (fun x =>
      { x with txq := x.txq.filter (fun g => !(decide (g.typ = .mact) && decide (g.key = f.key))) ++ [f] })
  else s

/-! ### Head selection (R153, R154) -/

def State.pairRow (s : State) (l : Side) (h : Nat) : BitVec 12 := sg 0 (s.lnk l).pair h

/-- The pairing check: the map pairs the heads, or the other slot is deselected. -/
def State.pairOk (s : State) (l slot : Side) (head : Nat) : Bool :=
  let o := (s.lnk l).slots.get slot.peer
  !s.regB (lk l R_QLK_CTL) 4 || s.wsc || !o.bound || o.mode == 0 || bit (s.pairRow l head) o.head

/-- Send HSEL for a slot bound to `head`, with the mode that results; the record stands in every link state. -/
def State.sendHsel (s : State) (l slot : Side) (head : Nat) : State :=
  if s.wsc && decide (slot = .b) then s
  else
    let t := Quad.ofSlot l slot
    let pair := s.pairOk l slot head
    let mode := if s.wrEn t && pair then 2 else 1
    let s := if s.wrEn t && !pair then s.setStat (lk l R_QLK_INTSTAT) 6 else s
    let s := s.modLink l (fun x =>
      { x with slots := x.slots.set slot ⟨mode, head, true, true, if x.st = .run then (x.slots.get slot).ack else none⟩ })
    s.sendRun l (hselFrame slot mode head)

/-- HSEL again for the slot's current head (R153); a slot bound to no head has none. -/
def State.resendHsel (s : State) (l slot : Side) : State :=
  let r := (s.lnk l).slots.get slot
  if r.bound then s.sendHsel l slot r.head else s

/-- A pair of assist levels, each clamped to QLK_ASMAX (R157). -/
def State.clampLevels (s : State) (l : Side) (v : BitVec 16) : BitVec 16 :=
  let m := s.regF (lk l R_QLK_ASMAX) 7 0
  BitVec.ofNat 16 (min m (fld v 15 8) * 256 + min m (fld v 7 0))

/-- The resend of R150: HSEL for both slots, ASLV and HTLV for the bound heads; a slot bound to no head is deselected.
-/
def State.resendAll (s : State) (l : Side) : State :=
  let one (s : State) (slot : Side) : State :=
    let r := (s.lnk l).slots.get slot
    let s := if r.bound then s.sendHsel l slot r.head
             else if s.wsc && decide (slot = .b) then s else s.sendRun l (hselFrame slot 0 0)
    if r.bound then
      let s := match sg none (s.lnk l).levels r.head with
        | some v => s.sendRun l (aslvFrame r.head (s.clampLevels l v))
        | none => s
      match sg none (s.lnk l).heaters r.head with
      | some v => s.sendRun l (htlvFrame r.head v)
      | none => s
    else s
  one (one s .a) .b

/-! ### Link faults (R147) -/

/-- A register access ends: QLK_REGRSP with VALID, and ERR and INTSTAT bit 1 on an error (Table 7.6). -/
def State.endReg (s : State) (l : Side) (err : Bool) (addr value : Nat) : State :=
  let s := s.modLink l (fun x => { x with regAcc := none })
  let s := s.setReg (lk l R_QLK_REGRSP)
    (BitVec.ofNat 32 (0x80000000 + (if err then 0x40000000 else 0) + addr * 0x10000 + value))
  if err then s.setStat (lk l R_QLK_INTSTAT) 1 else s

/-- An access that is waiting or running ends with an error (R460; DEDUCED, log 10). -/
def State.failReg (s : State) (l : Side) : State :=
  match (s.lnk l).regAcc with
  | some a => s.endReg l true a.addr a.value
  | none => s

/-- Both slots' gates forced low. -/
def State.forceSlots (s : State) (l : Side) : State :=
  (s.forceLow (Quad.ofSlot l .a) false).forceLow (Quad.ofSlot l .b) false

def idleFrame : Frame := ⟨.idle, 0, 0, false⟩

def Link.unconfirm (x : Link) : Link := { x with slots := x.slots.map (fun r => { r with ack := none }) }

/-- Nothing waits or is unresolved but SAFE frames; the frame slots under way stay counted (R141, R147). -/
def Link.clearTx (x : Link) : Link :=
  { x with
    txq := x.txq.filter (fun f => decide (f.typ = .safe))
    flight := x.flight.map (fun f => if f.typ = .safe then f else idleFrame) }

/-- A link fault (R147, Table 7.12). -/
def State.linkFault (s : State) (l : Side) (cause typ : Nat) : State :=
  let s := s.forceSlots l
  let s := s.modLink l (fun x => { x.unconfirm.clearTx with st := .fault, faults := x.faults + 1, txq := x.clearTx.txq ++ [safeFrame 1], startRd := false })
  let s := s.failReg l
  let s := s.setStat (lk l R_QLK_INTSTAT) 0
  s.event 0x0301 (srcBlock (lk l R_QLK_ID))
    [(0, BitVec.ofNat 32 l.idx), (1, BitVec.ofNat 32 cause), (2, BitVec.ofNat 32 typ)]

/-! ### Sending and acknowledging (R145, R146) -/

def State.retryMax (s : State) (l : Side) : Nat := s.regF (lk l R_QLK_LINKCFG) 3 0

/-- A frame may be sent now: the link state allows its type, and no earlier frame of its type and key is unacknowledged.
-/
def Link.sendable (x : Link) (f : Frame) : Bool :=
  (match x.st with
   | .run => true
   | .fault => decide (f.typ = .safe)
   | .train => decide (f.typ = .regrd ∨ f.typ = .safe)
   | .off => false) &&
  (decide (f.typ = .mact) || !x.flight.any (fun g => decide (g.typ = f.typ) && decide (g.key = f.key)))

/-- A frame goes before another: higher priority, and slot 0's HSEL before slot 1's (R145). -/
def Frame.before (f g : Frame) : Bool :=
  decide (f.typ.prio < g.typ.prio) || (decide (f.typ = .hsel ∧ g.typ = .hsel) && decide (f.key < g.key))

/-- The next frame: the sendable one that goes before the others, the earliest of equals. -/
def Link.pick (x : Link) : Option Frame :=
  x.txq.foldl (fun best f =>
    if x.sendable f then
      match best with
      | none => some f
      | some g => if f.before g then some f else best
    else best) none

def eraseFirst (f : Frame) : List Frame → List Frame
  | [] => []
  | g :: t => if g = f then t else g :: eraseFirst f t

/-- One frame slot downstream (R140, R145). Each slot has its upstream frame: the next slot comes after the frame of the
third slot under way. -/
def State.frameSlot (s : State) (l : Side) : State :=
  if (s.lnk l).st = .off ∨ 3 ≤ (s.lnk l).flight.length then s
  else
    s.modLink l (fun x =>
      let f := x.pick.getD idleFrame
      { x with
        txq := eraseFirst f x.txq
        flight := x.flight ++ [f]
        dn := frameBits (!lget false x.rxHist 1) f.typ.code f.data })

/-- A frame has been acknowledged. -/
def State.acked (s : State) (l : Side) (f : Frame) : State :=
  match f.typ with
  | .hsel =>
    let slot := sideOf f.key
    s.modLink l (fun x =>
      { x with slots := x.slots.set slot { x.slots.get slot with ack := some (fld f.data 21 20, fld f.data 19 16) } })
  | .regwr =>
    match (s.lnk l).regAcc with
    | some a => s.endReg l false a.addr a.value
    | none => s
  | .regrd =>
    if f.start then s else s.modLink l (fun x => { x with regAcc := x.regAcc.map (fun a => { a with acked := true }) })
  | _ => s

/-- A frame has not been acknowledged: it is sent again within its retries (DOWNSTREAM_NAK), or ends as Table 7.6 says.
The read at link start that has no retry left ends with the start's own timeout (DEDUCED, log 10). -/
def State.naked (s : State) (l : Side) (f : Frame) : State :=
  let again (s : State) : State := s.modLink l (fun x => { x with txq := { f with retries := f.retries + 1 } :: x.txq })
  match f.typ with
  | .idle => s
  | .mact => s
  | .safe => if (s.lnk l).st = .run ∨ (s.lnk l).st = .fault then again s else s
  | .hsel => if f.retries < s.retryMax l then again s else s.linkFault l 1 f.typ.code
  | .aslv => if f.retries < s.retryMax l then again s else s.linkFault l 1 f.typ.code
  | .htlv => if f.retries < s.retryMax l then again s else s.linkFault l 1 f.typ.code
  | .regwr => if f.retries < s.retryMax l then again s else s.failReg l
  | .regrd => if f.retries < s.retryMax l then again s else if f.start then s else s.failReg l

/-- The frame sent two slots earlier is resolved by the upstream frame of this slot (R141). -/
def State.resolve (s : State) (l : Side) (nak count : Bool) : State :=
  match (s.lnk l).flight with
  | f :: g :: h :: t =>
    let s := s.modLink l (fun x => { x with flight := g :: h :: t })
    let s := if nak && count then s.bump (lk l R_QLK_ERRCNT) 31 16 1 else s
    if nak then s.naked l f else s.acked l f
  | _ => s

/-- The receiver's lock changes before the next frame: 8 frames have passed, or 4 have failed (R141). -/
def Link.lockDue (x : Link) : Bool := !x.ulock && decide (8 ≤ x.goodRun)

def Link.lossDue (x : Link) : Bool := x.ulock && decide (4 ≤ x.badRun)

/-- An upstream frame can come: CK runs, and a change of lock has taken place. -/
def Link.listens (x : Link) : Bool := decide (x.st ≠ .off) && !x.lockDue && !x.lossDue

/-- An upstream slot passes: DLOCK ages, and the frame sent two slots before is resolved. -/
def State.upSlot (s : State) (l : Side) (good nak count : Bool) : State :=
  (s.modLink l (fun x =>
    { x with
      goodRun := x.goodRun + 1
      badRun := 0
      quiet := if good then 0 else min 31 (x.quiet + 1)
      rxHist := (good :: x.rxHist).take 2
      statusAge := min 128 (x.statusAge + 1) })).resolve l nak count

/-- An upstream frame of a type listed in `typ` (R141, R143). While unlocked it is not good and is not acted on, and
what it would have acknowledged is taken as not acknowledged (DEDUCED, log 11). -/
def State.onUp (s : State) (l : Side) (w : BitVec 40) (typ : Nat → Bool) (f : State → State) : State :=
  if frameOk w && typ (fld w 35 32) && (s.lnk l).listens then
    if (s.lnk l).ulock then f (s.upSlot l true (bit w 36) true) else s.upSlot l false true false
  else s

/-- RDRSP (R143): completes a pending read, or link start (R148), which then sends a waiting access (R460). -/
def State.rdrsp (s : State) (l : Side) (addr val : Nat) : State :=
  let x := s.lnk l
  if x.st = .train ∧ x.startRd ∧ addr = 0 then
    let s := s.modLink l (fun x => { x with st := .run, faults := 0, startRd := false })
    match (s.lnk l).regAcc with
    | some a => s.sendRun l (regFrame a.isRead a.addr a.value)
    | none => s
  else
    match x.regAcc with
    | some a => if a.isRead && a.addr == addr && decide (x.st = .run) then s.endReg l false addr val else s
    | none => s

/-- STATUS (R150): QLK_PSTAT, DLOCK, and the resend when SAFE goes from 1 to 0. -/
def State.statusFrame (s : State) (l : Side) (data : BitVec 24) : State :=
  let was := (s.lnk l).psafe
  let s := s.modLink l (fun x => { x with psafe := bit data 23, statusAge := 0 })
  let s := s.setReg (lk l R_QLK_PSTAT) (data.setWidth 32)
  if was && !bit data 23 then s.resendAll l else s

/-! ### Register commands -/

/-- QLK_REGCMD (R460, Table 7.9). -/
def State.regCmd (s : State) (l : Side) (isRead : Bool) (addr value : Nat) : State :=
  let x := s.lnk l
  if x.regAcc.isSome then s.setStat (lk l R_QLK_INTSTAT) 1
  else
    let s := s.setReg (lk l R_QLK_REGCMD)
      (BitVec.ofNat 32 ((if isRead then 0x40000000 else 0) + addr * 0x10000 + value))
    let s := s.setReg (lk l R_QLK_REGRSP) 0
    let a : RegAcc := ⟨isRead, addr, value, false⟩
    match x.st with
    | .run => (s.modLink l (fun x => { x with regAcc := some a })).sendRun l (regFrame isRead addr value)
    | .train => s.modLink l (fun x => { x with regAcc := some a })
    | .off => s.endReg l true addr value
    | .fault => s.endReg l true addr value

def State.linkStart (s : State) (l : Side) : State :=
  let s := s.modReg (lk l R_QLK_CTL) (fun w => setBit w 0)
  if (s.lnk l).st = .off then
    s.modLink l (fun x =>
      { x.unconfirm with
        st := .train, ulock := false, goodRun := 0, badRun := 0, quiet := 0, rxHist := [], txq := [], flight := [],
        startRd := false, slots := x.unconfirm.slots.map (fun r => { r with sinceStart := false }) })
  else s

def State.linkStop (s : State) (l : Side) : State :=
  let s := s.modReg (lk l R_QLK_CTL) (fun w => clrBit w 0)
  if (s.lnk l).st = .off then s
  else
    let s := s.forceSlots l
    let s := s.failReg l
    s.modLink l (fun x =>
      { x.unconfirm with
        st := .off, ulock := false, txq := [], flight := [], startRd := false
        dn := frameBits (!lget false x.rxHist 1) 7 (safeFrame 2).data })

def State.heater (s : State) (l : Side) (head : Nat) (lv : BitVec 12) : State :=
  if 12 ≤ head then s
  else
    let s := s.modLink l (fun x => { x with heaters := sp none x.heaters head (some lv) })
    s.sendRun l (htlvFrame head lv)

/-- QLK_SAFECMD; with CK stopped no frame can be sent (DEDUCED, log 10). -/
def State.safeCmd (s : State) (l : Side) (data : Word) : State :=
  if fld data 15 0 = 0xA55A ∧ (s.lnk l).st ≠ .off then
    s.modLink l (fun x => { x with txq := x.txq ++ [safeFrame 0] })
  else s

/-- A pairing row and its mirrored bits (Table 7.9). -/
def State.pairWrite (s : State) (l : Side) (data : Word) : State :=
  let h := min 11 (s.regF (lk l R_QLK_PAIRSEL) 3 0)
  s.modLink l (fun x =>
    let row : BitVec 12 := clrBit (data.setWidth 12) h
    let m := sp 0 x.pair h row
    { x with pair := (List.range 12).foldl (fun m k =>
        if k = h then m else sp 0 m k (putBit (sg 0 m k) h (bit row k))) m })

/-! ### Rows -/

def execFrameSlot (l : Side) (s : State) : Out := .next (s.frameSlot l)

def execIdle (l : Side) (w : BitVec 40) (s : State) : Out := .next (s.onUp l w (fun n => n == 0) (fun s => s))

def execRdrsp (l : Side) (w : BitVec 40) (s : State) : Out :=
  .next (s.onUp l w (fun n => n == 8) (fun s => s.rdrsp l (fld w 31 24) (fld w 23 8)))

def execStatus (l : Side) (w : BitVec 40) (s : State) : Out :=
  .next (s.onUp l w (fun n => n == 9) (fun s => s.statusFrame l (BitVec.ofNat 24 (fld w 31 8))))

/-- A FAULT frame that names a head enters the log of the link (R255). -/
def State.logFault (s : State) (l : Side) (head : Nat) : State :=
  if head < 12 then s.modLink l (fun x => { x with faultLog := ((head, s.evr.ot.toNat) :: x.faultLog).take 24 }) else s

def execFault (l : Side) (w : BitVec 40) (s : State) : Out :=
  .next (s.onUp l w (fun n => n == 10) (fun s =>
    ((s.logFault l (fld w 23 20)).setReg (lk l R_QLK_PFLT) (BitVec.ofNat 32 (0x80000000 + fld w 31 8))).setStat (lk l R_QLK_INTSTAT) 3))

/-- Types 0x1–0x7 and 0xB–0xF are ignored and counted (R143); another type is no such frame. -/
def execUpstreamIgnoredType (l : Side) (w : BitVec 40) (s : State) : Out :=
  .next (s.onUp l w (fun n => n != 0 && (decide (n < 8) || decide (10 < n))) (fun s => s.bump (lk l R_QLK_ERRCNT) 15 0 1))

/-- Eight frames have passed: the receiver is locked; link start then reads register 0x00 (R141, R148). -/
def execUpstreamLock (l : Side) (s : State) : Out :=
  .next (
    if (s.lnk l).st = .off ∨ (s.lnk l).lockDue = false then s
    else
      let s := s.modLink l (fun x => { x with ulock := true, badRun := 0 })
      if (s.lnk l).st = .train ∧ !(s.lnk l).startRd then
        s.modLink l (fun x => { x with startRd := true, txq := x.txq ++ [startFrame] })
      else s)

def execUpstreamLockLoss (l : Side) (s : State) : Out :=
  .next (if (s.lnk l).lossDue then s.modLink l (fun x => { x with ulock := false, goodRun := 0 }) else s)

/-- 1 µs is 31.25 slots (R146). -/
def execUpstreamSilence (l : Side) (s : State) : Out :=
  .next (if (s.lnk l).st = .run ∧ 31 ≤ (s.lnk l).quiet then s.linkFault l 2 0 else s)

/-- An IDLE frame NAKs the frame sent two slots before, whose retransmissions are used up (Table 7.6). -/
def execRetriesExhausted (l : Side) (w : BitVec 40) (s : State) : Out :=
  .next (
    match (s.lnk l).flight with
    | f :: _ :: _ :: _ =>
      if f.retries < s.retryMax l ∨ f.typ = .idle ∨ f.typ = .mact ∨ f.typ = .safe ∨ bit w 36 = false then s
      else s.onUp l w (fun n => n == 0) (fun s => s)
    | _ => s)

def execRegisterAccessTimeout (l : Side) (s : State) : Out :=
  .next (
    match (s.lnk l).regAcc with
    | some a => if a.isRead && a.acked then s.failReg l else s
    | none => s)

def execLinkStart (x : Accessor) (l : Side) (s : State) : Out :=
  .next (s.access x (lk l R_QLK_CTL) (s.ownsLink x.ridge l) (fun s => s.linkStart l))

def execLinkStartTimeout (l : Side) (s : State) : Out :=
  .next (
    if (s.lnk l).st = .train then
      let s := s.modLink l (fun x => { x.clearTx with st := .fault, faults := x.faults + 1, startRd := false })
      let s := s.failReg l
      (s.setStat (lk l R_QLK_INTSTAT) 7).event 0x0301 (srcBlock (lk l R_QLK_ID))
        [(0, BitVec.ofNat 32 l.idx), (1, 3), (2, 0)]
    else s)

def execLinkStop (x : Accessor) (l : Side) (s : State) : Out :=
  .next (s.access x (lk l R_QLK_CTL) (s.ownsLink x.ridge l) (fun s => s.linkStop l))

def execPreampRegisterRead (x : Accessor) (l : Side) (addr : Byte) (s : State) : Out :=
  .next (s.access x (lk l R_QLK_CTL) (s.ownsLink x.ridge l) (fun s => s.regCmd l true addr.toNat 0))

def execPreampRegisterWrite (x : Accessor) (l : Side) (addr : Byte) (val : BitVec 16) (s : State) : Out :=
  .next (s.access x (lk l R_QLK_CTL) (s.ownsLink x.ridge l) (fun s => s.regCmd l false addr.toNat val.toNat))

def execHeaterCommand (x : Accessor) (l : Side) (head : BitVec 4) (level : BitVec 12) (s : State) : Out :=
  .next (s.access x (lk l R_QLK_CTL) (s.ownsLink x.ridge l) (fun s => s.heater l head.toNat level))

def execSafeCommand (x : Accessor) (l : Side) (data : Word) (s : State) : Out :=
  .next (s.access x (lk l R_QLK_CTL) (s.ownsLink x.ridge l) (fun s => s.safeCmd l data))

def execPairMapWrite (x : Accessor) (l : Side) (data : Word) (s : State) : Out :=
  .next (s.access x (lk l R_QLK_CTL) (s.ownsLink x.ridge l) (fun s => s.pairWrite l data))

def execPreampFaultLine (l : Side) (s : State) : Out :=
  .next (
    if (s.lnk l).paflt then s
    else
      let s := (s.forceSlots l).modLink l (fun x => { x with paflt := true })
      (s.setStat (lk l R_QLK_INTSTAT) 2).event 0x0302 (srcBlock (lk l R_QLK_ID))
        [(0, BitVec.ofNat 32 l.idx), (1, s.reg (lk l R_QLK_PFLT))])

def execPreampFaultRelease (l : Side) (s : State) : Out := .next (s.modLink l (fun x => { x with paflt := false }))

/-- A failing upstream frame (R141): counted; what it would have acknowledged is taken as not acknowledged (DEDUCED, log
11). -/
def execUpstreamFrameFailure (l : Side) (w : BitVec 40) (s : State) : Out :=
  .next (
    if frameOk w = true ∨ (s.lnk l).listens = false then s
    else
      ((s.upSlot l false true false).modLink l (fun x => { x with goodRun := 0, badRun := (s.lnk l).badRun + 1 })).bump
        (lk l R_QLK_ERRCNT) 15 0 1)

/-- The stream AC reached `now` on the AC of the stream's synthesizer; the AC never decreases (R77). -/
def State.reach (s : State) (t : Quad) (now : DWord) : State :=
  s.modAng (s.angSide t) (fun a => if a.src ≠ .none ∧ a.ac.toNat < now.toNat then { a with ac := now } else a)

/-- A mode switch that the last voice-coil tick brings (R176): it comes before anything else of that tick. -/
def State.switchDue (s : State) (r x : Side) : Bool :=
  ((s.cen.get r).modes.get x).pend.any (fun p => decide (p.2.1.toNat ≤ ((s.ang.get r).lastTick.get .q2).toNat))

/-- A forward step owes a tick at the present AC (R79), or a mode switch is due: it comes before the AC moves on. -/
def State.owes (s : State) (r : Side) : Bool :=
  let a := s.ang.get r
  (decide (a.src ≠ .none) &&
    Quad.all.any (fun q => s.regB (rk r R_ANG_TICKCFG) q.idx && decide (a.owed.get q = some a.ac))) ||
    s.switchDue r .a || s.switchDue r .b

def State.canReach (s : State) (r : Side) (now : DWord) : Bool :=
  let a := s.ang.get r
  decide (now = a.ac) || (decide (a.src ≠ .none) && decide (a.ac.toNat ≤ now.toNat) && !s.owes r)

def execAssistLeadLimit (t : Quad) (now : DWord) (s : State) : Out :=
  .next (
    let x := s.tl t
    if s.canReach (s.angSide t) now && x.ag && !x.wg && !x.wgSinceAg &&
        decide (x.agRose.toInt + s.regF (lk t.act R_QLK_GATECFG) 31 16 ≤ s.streamAcAt t now) then
      ((s.reach t now).modTile t (fun x => { x with ag := false, wgFell := none })).setStat (lk t.act R_QLK_INTSTAT) 4
    else s)

def execAssistTailLimit (t : Quad) (now : DWord) (s : State) : Out :=
  .next (
    let x := s.tl t
    match x.wgFell with
    | some a =>
      if s.canReach (s.angSide t) now && x.ag && !x.wg &&
          decide (a.toInt + s.regF (lk t.act R_QLK_GATECFG) 15 0 ≤ s.streamAcAt t now) then
        ((s.reach t now).modTile t (fun x => { x with ag := false, wgFell := none })).setStat (lk t.act R_QLK_INTSTAT) 5
      else s
    | none => s)

end Sys2Proof.Machine
end

