-- ==== Sys2Proof/Machine/Angle.lean ====
section
/-!
DEFINITION. The angle synthesizer and its comparators (R73–R87, R416, R417).
-/
namespace Sys2Proof.Machine

def State.an (s : State) (r : Side) : Ang := s.ang.get r

/-! ### Reference stream (R75) -/

def State.streamUsable (s : State) (t : Quad) : Bool :=
  let sl := (s.link.get t.act).slots.get t.slot
  decide (s.mtr.park.get t.act = .loaded) && sl.bound && decide (sl.mode = 1 ∨ sl.mode = 2) &&
    (s.wsc || (s.guideOn t && s.regB (tk t R_STT_GDCCTL) 0))

/-- The order in which streams are tried; in wedge-servo mode only stream 0 of the own actuator (R416). -/
def State.refOrder (s : State) (r : Side) : List Quad :=
  if s.wsc then [Quad.ofSlot r .a]
  else
    let f := Quad.ofSlot r (if s.regB (rk r R_ANG_CTL) 1 then .b else .a)
    [f, f.mate, Quad.ofSlot r.peer .a, Quad.ofSlot r.peer .b]

def State.pickRef (s : State) (r : Side) : Option Quad := (s.refOrder r).find? (fun t => s.streamUsable t)

/-- The skew in use of the head that the reference stream has selected (R75); none in wedge-servo mode (R417). -/
def State.refSkewNow (s : State) (r : Side) : Int :=
  match s.pickRef r with
  | none => 0
  | some t =>
    match s.slotHead t with
    | some h => if s.wsc then 0 else (sg 0 (s.an r).skewUse (globalHead t.act h)).toInt
    | none => 0

/-- A mark rate, in AU per µs as Q16.16, inside the range of ANG_LOCKCFG (R76). -/
def State.rateOk (s : State) (r : Side) (rate : Word) : Bool :=
  let k := rk r R_ANG_LOCKCFG
  let lo := clampN 20 100 (s.regF k 15 0)
  let hi := clampN 20 100 (s.regF k 31 16)
  decide (lo * 2097152 ≤ rate.toNat ∧ rate.toNat ≤ hi * 2097152)

def State.angUp (s : State) (r : Side) : Bool := s.domOn (52 + r.idx)

def State.angEn (s : State) (r : Side) : Bool := s.angUp r && s.regB (rk r R_ANG_CTL) 0

/-! ### Sources -/

/-- The index is no longer confirmed (R74). -/
def Ang.dropIndex (a : Ang) : Ang :=
  { a with idxOk := false, sight := none, offAge := none, handPending := false, err := 0 }

/-- A change of source; NONE and OBSERVER clear IDXOK (R74), FLYWHEEL starts its own count (R82). -/
def State.setSrc (s : State) (r : Side) (x : AngSrc) : State :=
  if (s.an r).src = x then s
  else
    let s := s.modAng r (fun a =>
      let a := { a with src := x, flyExpired := false, flySearch := false, flyMarks := 0, seekMarks := 0 }
      if x = .none ∨ x = .observer then a.dropIndex else a)
    s.setStat (rk r R_ANG_INTSTAT) 0

/-- A hit (R87): the bit is set, the comparator disarms, line 4 goes to the routed context. -/
def State.cmpHit (s : State) (r : Side) (n : Nat) : State :=
  let c := sg Cmp.default (s.an r).cmps n
  let s := s.modAng r (fun a => { a with cmps := sp Cmp.default a.cmps n { c with armed := false, hit := true } })
  match c.route with
  | some (spur, cx) => s.raiseRoute r spur cx 4
  | none => s

/-- Tick angles passed up to an AC, by series of Table 4.3; in wedge-servo mode the first three fall at wedges (R419).
-/
def State.ticksTo (s : State) (q : Quad) (ac : Nat) : Nat :=
  let wedge := ((ac + 1) * s.rcp.wscN + 16777215) / 16777216 - 1
  match q with
  | .q0 => if s.wsc then wedge else ac / 2048
  | .q1 => if s.wsc then wedge else ac / 16384
  | .q2 => if s.wsc then wedge else ac / 32768
  | .q3 => ac / 262144

/-- A forward step (R78, R79): comparators inside it hit, each crossed tick series owes one tick at the AC it reaches.
-/
def State.stepAc (s : State) (r : Side) (d : Nat) : State :=
  let old := (s.an r).ac.toNat
  let new := old + d
  let s := s.modAng r (fun a => { a with ac := BitVec.ofNat 64 new, markAc := BitVec.ofNat 64 new })
  let hits := (List.range 32).filter (fun n =>
    let c := sg Cmp.default (s.an r).cmps n
    c.armed && decide (c.value.toNat ≤ new))
  let s := hits.foldl (fun s n => s.cmpHit r n) s
  Quad.all.foldl (fun s q =>
    if s.regB (rk r R_ANG_TICKCFG) q.idx && decide (s.ticksTo q old < s.ticksTo q new) then
      s.modAng r (fun a => { a with owed := a.owed.set q (some a.ac) })
    else s) s

/-- Enter TRACK; the lower revolution field of the two synthesizers in TRACK is raised to the higher (R80). -/
def State.toTrack (s : State) (r : Side) : State :=
  let s := s.setSrc r .track
  if (s.an r.peer).src = .track then
    let a := (s.an r).ac.toNat / 16777216
    let b := (s.an r.peer).ac.toNat / 16777216
    if a < b then s.stepAc r ((b - a) * 16777216)
    else if b < a then s.stepAc r.peer ((a - b) * 16777216)
    else s
  else s

/-- Remove an offset `e` (R78). -/
def State.handover (s : State) (r : Side) (e : Int) : State :=
  let s := s.setReg (rk r R_ANG_OBSERR) (ofI 32 e)
  if e.natAbs ≤ s.regF (rk r R_ANG_HOCFG) 31 8 * 256 then
    if e = 0 then (s.modAng r (fun a => { a with err := 0 })).toTrack r
    else (s.modAng r (fun a => { a with err := e })).setSrc r .handover
  else
    let s := s.stepAc r (if 0 < e then e.toNat else (16777216 + e).toNat)
    (s.modAng r (fun a => { a with err := 0 })).toTrack r

def State.slew (s : State) (r : Side) : Nat := clampN 1 8 (s.regF (rk r R_ANG_HOCFG) 3 0)

/-- Marks per revolution, and the angle of a mark: a wedge counts as a mark in wedge-servo mode (R416, R417). -/
def State.marksPerRev (s : State) : Nat := if s.wsc then s.rcp.wscN else 524288

def State.markAngle (s : State) (m : Nat) : Nat := if s.wsc then m * 16777216 / s.rcp.wscN else 32 * m

/-- AU from the mark at an AC to the mark `k` periods later. -/
def State.markSpan (s : State) (ac : DWord) (k : Nat) : Nat :=
  if s.wsc then
    let a := ac.toNat % 16777216
    let w := (a * s.rcp.wscN + 16777215) / 16777216
    s.markAngle (w + k) - s.markAngle w
  else 32 * k

/-- e of R78 at mark `m`: the common angle of the mark, which is its angle in the head's frame less the head's skew
(R75), less the AC. -/
def State.angleErr (s : State) (r : Side) (m : Nat) : Int :=
  let a := (s.an r).ac.toNat % 16777216
  (((s.markAngle m : Int) - (s.an r).refSkew - a + 8388608) % 16777216) - 8388608

/-- The AC moves to a mark; it never decreases (R77). -/
def Ang.toMark (a : Ang) (ac : Nat) : Ang :=
  let n := max a.ac.toNat ac
  { a with ac := BitVec.ofNat 64 n, markAc := BitVec.ofNat 64 n }

/-- Advance of the AC at a mark `k` periods after the last, by source (Table 4.1); `dev` is the mark's phase error. -/
def State.advance (s : State) (r : Side) (k : Nat) (dev : Int) : State :=
  let g := s.an r
  let base := g.markAc.toNat + s.markSpan g.markAc k
  match g.src with
  | .none => s.modAng r (fun a => { a with markAc := a.ac })
  | .observer => s.modAng r (fun a => { a with markAc := a.ac })
  | .track => s.modAng r (fun a => a.toMark base)
  | .flywheel => s.modAng r (fun a => a.toMark ((base : Int) - dev).toNat)
  | .handover =>
    let c := min g.err.natAbs (s.slew r * k)
    let d : Int := if g.err < 0 then -(c : Int) else c
    let s := s.modAng r (fun a => { a.toMark ((base : Int) + d).toNat with err := g.err - d })
    if g.err - d = 0 then s.toTrack r else s

/-- What a mark says of the index (R74). -/
inductive Sighting where
  | nothing
  | first
  | confirmed
  | off
  | slip
deriving DecidableEq, Repr

/-- A mark as the index sees it: what it says, the marks since the index that counts, and the mark periods since a
signature away from its prediction. A signature one mark off its prediction counts as found there: the mark number
starts again at 0, and the AC is not moved (DESIGN CHOICE, log 112). Two signatures away from their predictions are in
successive revolutions when more than half and at most one and a half revolutions lie between them (DEDUCED, log 158).
-/
structure Sight where
  what : Sighting
  count : Option Nat
  age : Option Nat
deriving DecidableEq, Repr

def State.sighting (s : State) (r : Side) (k : Nat) (sig : Bool) : Sight :=
  let g := s.an r
  let p := s.marksPerRev
  let tol := if s.wsc then 0 else 1
  let age := (g.offAge.map (fun a => a + k)).filter (fun a => decide (2 * a ≤ 3 * p))
  match g.sight with
  | none => if sig then ⟨.first, some 0, none⟩ else ⟨.nothing, none, none⟩
  | some n0 =>
    let n := n0 + k
    let m := n % p
    let near := decide (m ≤ tol ∨ p ≤ m + tol) && (g.idxOk || decide (p ≤ n + tol ∧ n ≤ p + tol))
    if sig = false then ⟨.nothing, if g.idxOk then some m else if n ≤ p + tol then some n else none, age⟩
    else if near then ⟨.confirmed, some 0, none⟩
    else if g.idxOk = false then ⟨.first, some 0, none⟩
    else
      match age with
      | none => ⟨.off, some m, some 0⟩
      | some a => if p < 2 * a then ⟨.slip, some 0, none⟩ else ⟨.off, some m, some a⟩

/-- Enter FLYWHEEL from TRACK or HANDOVER (R76, R81). -/
def State.flyEntry (s : State) (r : Side) : State :=
  match (s.an r).src with
  | .track => s.setSrc r .flywheel
  | .handover => s.setSrc r .flywheel
  | _ => s

/-- Marks that return ambiguous start the search for the index (R81). -/
def State.flyAmbiguous (s : State) (r : Side) : State :=
  s.modAng r (fun a => { a.dropIndex with flySearch := true, seekMarks := 0 })

def AngSrc.tracking (x : AngSrc) : Bool := decide (x = .track ∨ x = .handover)

/-- Fields of ANG_FLYCFG, 0 treated as 1. -/
def State.flyMiss (s : State) (r : Side) : Nat := atLeast1 (s.regF (rk r R_ANG_FLYCFG) 3 0)

def State.flyWr (s : State) (r : Side) : Nat := atLeast1 (s.regF (rk r R_ANG_FLYCFG) 15 4)

def State.fbMarks (s : State) (r : Side) : Nat := atLeast1 (s.regF (rk r R_ANG_FLYCFG) 31 16)

/-- The source after a fallback, and while nothing else drives the AC (Table 4.1, R81). -/
def State.idleSrc (s : State) (r : Side) : AngSrc :=
  if s.angEn r && s.regB (rk r R_ANG_CTL) 2 && s.mtr.obsValid then .observer else .none

/-- A fallback from FLYWHEEL (R81). -/
def State.flyFallback (s : State) (r : Side) : State :=
  ((s.setStat (rk r R_ANG_INTSTAT) 4).setSrc r (s.idleSrc r)).applyInhibit r

/-- FLYWHEEL has lasted `n` mark periods: writes are inhibited beyond FLYWR (R82). -/
def State.flyLasts (s : State) (r : Side) (n : Nat) : State :=
  let s := s.modAng r (fun a => { a with flyMarks := n, flyExpired := a.flyExpired || decide (s.flyWr r < n) })
  if (s.an r).flyExpired then s.applyInhibit r else s

/-- A mark `k` periods after the last ends a run of `absent` marks in FLYWHEEL: its time there counts, and marks absent
for FBMARKS periods have brought the fallback (R81). `n` is the count of periods up to this mark. -/
def State.flyRun (s : State) (r : Side) (absent n : Nat) : State :=
  if (s.an r).src ≠ .flywheel then s
  else
    let s := s.flyLasts r n
    if (s.an r).flySearch = false ∧ s.fbMarks r ≤ absent then
      let g := s.an r
      (s.modAng r (fun a => a.toMark (g.markAc.toNat + s.markSpan g.markAc (s.fbMarks r)))).flyFallback r
    else s

/-- Marks that are missing, or a phase too far off, end tracking; the index gap is bridged as a normal part of the
revolution (R73, R80). -/
def State.markLoss (s : State) (r : Side) (absent : Nat) (gap far : Bool) : State :=
  let tracking := (s.an r).src.tracking
  let s :=
    if tracking = false then s.flyRun r absent ((s.an r).flyMarks + absent + 1)
    else if !gap && decide (s.flyMiss r ≤ absent) then (s.flyEntry r).flyRun r absent (absent + 1 - s.flyMiss r)
    else if !gap && decide (0 < absent) then s.bump (rk r R_ANG_IDXERR) 31 16 1
    else s
  if (s.an r).src.tracking && far then s.flyEntry r else s

/-- Return from FLYWHEEL: by the phase, or by the index signature where the marks came back ambiguous, which is looked
for through FBMARKS mark periods (R81). -/
def State.markReturn (s : State) (r : Side) (k : Nat) (phase : Int) (far sig : Bool) : State :=
  if (s.an r).src ≠ .flywheel then s
  else
    let s :=
      if (s.an r).flySearch then s.modAng r (fun a => { a with seekMarks := a.seekMarks + k })
      else if far then s.flyAmbiguous r
      else s.handover r phase
    if !decide ((s.an r).src = .flywheel) || !(s.an r).flySearch then s
    else if sig then (s.modAng r (fun a => { a with sight := some 0 })).handover r (s.angleErr r 0)
    else if s.fbMarks r ≤ (s.an r).seekMarks then s.flyFallback r
    else s

/-- What the sighting says of the index (R74, R78). -/
def State.markIndex (s : State) (r : Side) (what : Sighting) : State :=
  match what with
  | .confirmed =>
    s.modAng r (fun a =>
      { a with idxOk := true, handPending := a.handPending || decide (a.src = AngSrc.none ∨ a.src = AngSrc.observer) })
  | .slip =>
    let s := s.modAng r (fun a => { a with idxOk := false })
    let s := (s.setStat (rk r R_ANG_INTSTAT) 1).bump (rk r R_ANG_IDXERR) 15 8 1
    s.handover r (s.angleErr r 0)
  | _ => s

/-- The marks of this reference stream and head are counted from here: the mark number moves by the difference of the
skews, which keeps the AC continuous (R75; the rounding to a mark: DEDUCED, log 113). -/
def State.newFrame (s : State) (r : Side) : State :=
  let sk := s.refSkewNow r
  let d : Int := (sk - (s.an r).refSkew + 16) / 32
  let move (n : Nat) : Nat :=
    if (s.an r).idxOk then (((n : Int) + d) % (s.marksPerRev : Int)).toNat else ((n : Int) + d).toNat
  s.modAng r (fun a => { a with ref := s.pickRef r, refSkew := sk, sight := a.sight.map move })

/-- A clock-track mark: `absent` marks before it are missing, `phase` is the clock-track angle less the AC, `rate` the
angle rate, `idx` (wedge-servo mode) that it carries wedge number 0. The mark's phase error is `phase` less the offset
that a HANDOVER has still to remove. -/
def State.clockMark (s : State) (r : Side) (absent : Nat) (phase : Int) (rate : Word) (idx : Bool) : State :=
  let s := (s.setReg (rk r R_ANG_RATE) rate).newFrame r
  let k := absent + 1
  let sig := if s.wsc then idx else absent == 4
  let seen := s.sighting r k sig
  let dev := phase - (s.an r).err
  let far := decide (16 < dev.natAbs)
  let s := s.markLoss r absent (decide (seen.what = .confirmed) && !s.wsc) far
  let pend := (s.an r).handPending
  let s := s.advance r k dev
  let s := s.modAng r (fun a => { a with sight := seen.count, offAge := seen.age })
  let s := s.markReturn r k phase far sig
  -- a pending handover is computed at the first mark after the confirmation (R78)
  let s :=
    match seen.count with
    | some m =>
      if pend then (s.modAng r (fun a => { a with handPending := false })).handover r (s.angleErr r (m % s.marksPerRev))
      else s
    | none => s
  (s.markIndex r seen.what).applyInhibit r

/-! ### Rows -/

/-- A mark whose rate lies outside ANG_LOCKCFG removes the clock track as a source (R76). -/
def execClockMark (r : Side) (absent : Nat) (phase : Int) (rate : Word) (idx : Bool) (s : State) : Out :=
  .next (
    if s.angEn r && (s.pickRef r).isSome && !s.owes r then
      if s.rateOk r rate then s.clockMark r absent phase rate idx else (s.flyEntry r).applyInhibit r
    else s)

def execFlywheelEntry (r : Side) (s : State) : Out :=
  .next (if (s.an r).src.tracking then (s.flyEntry r).applyInhibit r else s)

/-- `periods`: mark periods since the last mark (DESIGN CHOICE, log 114). -/
def execFlywrExpiry (r : Side) (periods : Nat) (s : State) : Out :=
  .next (
    let n := (s.an r).flyMarks + periods
    if (s.an r).src = .flywheel ∧ s.flyWr r < n then (s.modAng r (fun a => { a with flyExpired := true })).applyInhibit r
    else s)

/-- The marks have been absent, or have come back without an index, for FBMARKS mark periods. -/
def execFlywheelFallback (r : Side) (periods : Nat) (s : State) : Out :=
  .next (
    let n := if (s.an r).flySearch then (s.an r).seekMarks + periods else periods
    if (s.an r).src = .flywheel ∧ s.fbMarks r ≤ n then s.flyFallback r else s)

/-- The reference stream changes between two marks: the first usable one of the order (R75). -/
def execReferenceStreamChange (r : Side) (s : State) : Out := .next (if s.angUp r then s.newFrame r else s)

/-- NONE or OBSERVER as the enables and the observer say. -/
def State.settleIdle (s : State) (r : Side) : State :=
  match (s.an r).src with
  | .none => s.setSrc r (s.idleSrc r)
  | .observer => s.setSrc r (s.idleSrc r)
  | _ => s

/-- The observer becomes valid or invalid. -/
def State.setObserver (s : State) (valid : Bool) : State :=
  ((s.modMtr (fun m => { m with obsValid := valid })).settleIdle .a).settleIdle .b

/-- A measured speed: the observer is valid from 1 % of the target upward, and needs MTR_MOTPAR (R191). -/
def State.observe (s : State) (rpm : Nat) : State :=
  let valid := decide (s.reg R_MTR_MOTPAR ≠ 0) && decide (s.mtr.target ≤ 100 * rpm)
  (if valid then s.setReg R_MTR_SPEED (BitVec.ofNat 32 (rpm % 65536)) else s).setObserver valid

def execObserverValidChange (rpm : BitVec 16) (s : State) : Out := .next (s.observe rpm.toNat)

/-- A write of ANG_CTL (Table 4.6, R74). -/
def State.angCtl (s : State) (r : Side) (data : Word) : State :=
  let s := s.setReg (rk r R_ANG_CTL) (data &&& 0x7#32)
  let s := if s.angEn r then s.settleIdle r else (s.setSrc r .none).modAng r Ang.dropIndex
  s.applyInhibit r

/-- The cross-check fault of R84, for both Ridges. -/
def execAngleCrosscheckFault (r : Side) (s : State) : Out :=
  .next (
    if 16 ≤ (s.an r).xOver ∧ !(s.an r).xerr then
      let one (s : State) (x : Side) : State :=
        (s.modAng x (fun a => { a with xerr := true, xIn := 0 })).setStat (rk x R_ANG_INTSTAT) 3
      (one (one s .a) .b).event Config.eventAngleCross (srcBlock (rk r R_ANG_ID)) []
    else s)

def execComparatorHit (r : Side) (n : BitVec 5) (now : DWord) (s : State) : Out :=
  .next (
    let c := sg Cmp.default (s.an r).cmps n.toNat
    if c.armed && s.canReach r now && decide (c.value.toNat ≤ now.toNat) then
      (s.modAng r (fun a => { a with ac := now })).cmpHit r n.toNat
    else s)

/-- A gate is active on a stream whose bound head is the global head `h`. -/
def State.headBusy (s : State) (h : Nat) : Bool :=
  Quad.all.any (fun t =>
    ((s.tl t).wg || (s.tl t).rg) &&
      (match s.slotHead t with
       | some l => globalHead t.act l == h
       | none => false))

/-- A write of ANG_SKEWDATA (R86). -/
def State.skewWrite (s : State) (r : Side) (data : Word) : State :=
  let h := min 23 (s.regF (rk r R_ANG_SKEWSEL) 4 0)
  let v := sfld data 15 0
  let w := clampI (-1024) 1024 v
  s.modAng r (fun a =>
    { a with
      skew := sp 0 a.skew h (ofI 16 w)
      skewUse := if s.headBusy h then a.skewUse else sp 0 a.skewUse h (ofI 16 w)
      skewSat := decide (v ≠ w) })

def execSkewWrite (r : Side) (data : Word) (s : State) : Out :=
  .next (if s.ridgeLive r && s.angUp r then s.skewWrite r data else s)

/-- ANG_STAT (Table 4.7). -/
def State.angStat (s : State) (r : Side) : Word :=
  let a := s.an r
  let src : Nat :=
    match a.src with
    | .none => 0
    | .observer => 1
    | .handover => 2
    | .track => 3
    | .flywheel => 4
  BitVec.ofNat 32 (src + 16 * b2n a.idxOk + 32 * b2n (s.wrInhibit r) + 64 * b2n a.xerr + 128 * b2n a.skewSat)

/-- Hit and armed bits of the comparators. -/
def State.cmpBits (s : State) (r : Side) (f : Cmp → Bool) : Word :=
  BitVec.ofNat 32 ((List.range 32).map (fun n => if f (sg Cmp.default (s.an r).cmps n) then 2 ^ n else 0)).sum

end Sys2Proof.Machine
end

