-- ==== Sys2Proof/Machine/Dram.lean ====
section
/-!
DEFINITION. DRAM accesses (R366–R369, R372): bytes of a channel's data region, poison marks, mirrored writes.
-/
namespace Sys2Proof.Machine

/-- DSIZE in MiB: floor(0.8 × N) (R367). -/
def State.dsize (s : State) (x : Side) : Nat := s.regF (R_DRC_SIZE + 4 * x.idx) 15 0 * 4 / 5

/-- A channel in service: enabled, sized, powered, out of self-refresh, its Saddle half not fenced (R358). -/
def State.chanUp (s : State) (x : Side) : Bool :=
  s.regB R_DRC_CTL x.idx && decide (s.regF (R_DRC_SIZE + 4 * x.idx) 15 0 ≠ 0) && s.domOn (79 + x.idx) &&
    !(s.dram.get x).selfRefresh && decide (s.rlg.sfence ≠ some x)

/-- An address in the mirrored region (R369). -/
def State.mirrored (s : State) (addr : Nat) : Bool :=
  let b := s.regF R_DRC_MIRBASE 15 0 * 0x100000
  let n := s.regF R_DRC_MIRSIZE 15 0 * 0x100000
  decide (b ≤ addr ∧ addr < b + n)

/-- The channel's controller cleared: the DRAM keeps its contents. -/
def DramCh.logicReset (c : DramCh) : DramCh := { DramCh.reset with bytes := c.bytes, poison := c.poison }

def DramCh.byte (c : DramCh) (a : Nat) : Byte := sg 0 c.bytes a

def DramCh.poisoned (c : DramCh) (a : Nat) : Bool := sg false c.poison (a / 8)

def DramCh.putByte (c : DramCh) (a : Nat) (v : Byte) : DramCh := { c with bytes := sp 0 c.bytes a v }

def DramCh.putBytes (c : DramCh) : Nat → List Byte → DramCh
  | _, [] => c
  | a, b :: t => (c.putByte a b).putBytes (a + 1) t

def DramCh.setPoison (c : DramCh) (w : Nat) (v : Bool) : DramCh := { c with poison := sp false c.poison w v }

/-- Clear or set the marker of every 64-bit word that lies whole in `n` bytes from `a`; a word stored only in part
keeps its poison (R368). -/
def DramCh.markWords (c : DramCh) (a n : Nat) (v : Bool) : DramCh :=
  (List.range ((a + n) / 8 - (a + 7) / 8)).foldl (fun c i => c.setPoison ((a + 7) / 8 + i) v) c

def DramCh.write (c : DramCh) (a : Nat) (bs : List Byte) : DramCh := (c.putBytes a bs).markWords a bs.length false

def DramCh.read (c : DramCh) (a n : Nat) : List Byte := (List.range n).map (fun i => c.byte (a + i))

/-- Some word of `n` bytes from `a` is poisoned. -/
def DramCh.anyPoison (c : DramCh) (a n : Nat) : Bool :=
  (List.range (n / 8 + 2)).any (fun i => sg false c.poison (a / 8 + i) && decide ((a / 8 + i) * 8 < a + n))

/-- An access lies in the data region of a channel in service (R367). -/
def State.dramOk (s : State) (x : Side) (a n : Nat) : Bool := s.chanUp x && decide (a + n ≤ s.dsize x * 0x100000)

/-- Write bytes for Ridge `x`: its own channel, and in the mirrored region both channels in service (R14, R369). -/
def State.dramWrite (s : State) (x : Side) (a : Nat) (bs : List Byte) : State :=
  if s.mirrored a then
    let s := if s.dramOk .a a bs.length then s.modDram .a (fun c => c.write a bs) else s
    if s.dramOk .b a bs.length then s.modDram .b (fun c => c.write a bs) else s
  else s.modDram x (fun c => c.write a bs)

/-- The channel that serves an access of Ridge `x`: its own, or in the mirrored region the other one while its own
is out of service (R358, R369). -/
def State.dramChan (s : State) (x : Side) (a n : Nat) : Option Side :=
  if s.dramOk x a n then some x
  else if s.mirrored a && s.dramOk x.peer a n then some x.peer
  else none

/-- A read (R369): the bytes, or none where the delivery is poisoned; a poisoned line of the mirrored region is
delivered from the other channel and written back. -/
def State.dramRead (s : State) (x : Side) (a n : Nat) : State × Option (List Byte) :=
  let c := s.dram.get x
  if c.anyPoison a n = false then (s, some (c.read a n))
  else if s.mirrored a && s.dramOk x.peer a n && !(s.dram.get x.peer).anyPoison a n then
    let bs := (s.dram.get x.peer).read a n
    ((s.modDram x (fun c => c.write a bs)).setStat R_DRC_INTSTAT 2, some bs)
  else (s, none)

end Sys2Proof.Machine
end

