-- ==== Sys2Proof/Machine/Aeq.lean ====
section
/-!
DEFINITION. The Angle Event Queue actions (R88–R92, R95, R97, R112, R117, R127–R132, R153–R159, R459).
-/
namespace Sys2Proof.Machine

/-! ### Stripe buffers as payload sources (R240) -/

/-- A sector of a stream of Ridge `r` that reads buffer `n` as its payload source. -/
def State.sectorReads (s : State) (r : Side) (n : Nat) : Bool :=
  Quad.all.any (fun t =>
    decide (s.angSide t = r) &&
      (match (s.tl t).sector with
       | some x =>
         x.isWrite &&
           (match s.descPlace t x.tag with
            | .inl b => b.buf == n
            | .inr _ => false)
       | none => false))

/-- A stripe buffer; one whose release waited for a sector is FREE once the sector has ended (R240). -/
def State.sbuf (s : State) (r : Side) (n : Nat) : StripeBuf :=
  let b := sg StripeBuf.default (s.ste.get r).bufs n
  if b.relWait && !s.sectorReads r n then { StripeBuf.default with owner := b.owner } else b

/-- The payload source of a write can supply data: R240 for a stripe buffer, a good copy in DRAM otherwise (R373). -/
def State.sourceOk (s : State) (t : Quad) (tag : BitVec 16) : Bool :=
  let r := s.angSide t
  match s.descPlace t tag with
  | .inl b =>
    let m := (s.sbuf r b.buf).mode
    decide (b.buf < 42) && !(sg false (s.sbuf r b.buf).bad (32 * b.slot + b.sector)) &&
      (if b.slot < 2 then decide (m = .sealed) else decide (m ≠ .free))
  | .inr a =>
    match s.dramChan r a 4128 with
    | some x => !(s.dram.get x).anyPoison a 4128 || (s.mirrored a && s.dramOk x.peer a 4128 && !(s.dram.get x.peer).anyPoison a 4128)
    | none => false

/-! ### Taking an entry -/

/-- The ANG registers of a stream's queue are those of the Ridge whose angle drives it. -/
def State.aeqKey (s : State) (t : Quad) (k : Nat) : Nat := rk (s.angSide t) (k + 4 * t.idx)

def State.aeqInt (s : State) (t : Quad) (i : Nat) : State := s.setStat (rk (s.angSide t) R_ANG_INTSTAT) i

/-- Run `f` on the parameter and lateness of the head entry when it has the action code and the stream AC has reached
its stamp at `now` (R89); the entry leaves the queue first (R92). -/
def State.withHead (s : State) (t : Quad) (now : DWord) (code : Nat → Bool) (f : State → BitVec 24 → Int → State) : State :=
  match (s.tl t).aeq with
  | [] => s
  | e :: rest =>
    if code (fld e.action 31 24) && s.canReach (s.angSide t) now && decide ((e.stamp.toNat : Int) ≤ s.streamAcAt t now) then
      let late := s.streamAcAt t now - e.stamp.toNat
      let s := s.reach t now
      let s := s.modTile t (fun x => { x with aeq := rest })
      let s := s.lowMark t (rest.length + 1)
      f s (e.action.setWidth 24) late
    else s

def State.lateMax (s : State) (t : Quad) : Nat := s.regF (rk (s.angSide t) R_ANG_LATEMAX) 11 0

/-- A late execution within ANG_LATEMAX is counted (R90). -/
def State.countLate (s : State) (t : Quad) (late : Int) : State :=
  if 0 < late ∧ late ≤ s.lateMax t then s.bump (s.aeqKey t R_ANG_AEQCNT) 31 16 1 else s

/-- A dropped open action: MISSED, the count, and the status bit of each cause: bit 6 for lateness, bits 2 and 0 of
STT_CHN_INTSTAT for R117 and R95 (R90). -/
def State.dropOpen (s : State) (t : Quad) (late conflict clock : Bool) : State :=
  let s := s.modTile t (fun x => { x with missed := true })
  let s := s.bump (s.aeqKey t R_ANG_AEQCNT) 15 0 1
  let s := if late then s.aeqInt t 6 else s
  let s := if conflict then s.setStat (tk t R_STT_CHN_INTSTAT) 2 else s
  if clock then s.setStat (tk t R_STT_CHN_INTSTAT) 0 else s

/-- Causes of R117, R147 and the enables that act as R117. -/
def State.conflict (s : State) (t : Quad) (isWrite : Bool) : Bool :=
  let x := s.tl t
  (if isWrite then x.rg else x.wg) ||
    (!s.wsc && (!s.guideOn t || !s.detectorOn t || !s.writePathOn t)) ||
    decide ((s.lnk t.act).st = .fault) ||
    (!isWrite && !s.regB (tk t R_STT_CHN_CTL) 0)

/-- The swap of R97, before the action. -/
def State.takeSwap (s : State) (t : Quad) : State :=
  if (s.tl t).swapPend then s.modTile t (fun x => { x with swapPend := false, active := x.active.peer, gainInit := true }) else s

/-- The sector in progress goes on with this action: same kind, same tag, not yet complete (R127). -/
def State.continues (s : State) (t : Quad) (isWrite : Bool) (tag : BitVec 16) : Bool :=
  match (s.tl t).sector with
  | some x => decide (x.isWrite = isWrite ∧ x.tag = tag) && !x.done
  | none => false

/-- Arrival of an open action (R127): an incomplete sector of another tag, or of the same tag and the other kind, ends
SHORT; a complete one ends. After an early end the tag starts anew (DESIGN CHOICE, log 122). -/
def State.arrive (s : State) (t : Quad) (isWrite : Bool) (tag : BitVec 16) : State :=
  match (s.tl t).sector with
  | some x => if x.tag = tag ∧ x.isWrite = isWrite ∧ !x.done then s else s.cutSector t
  | none => s

/-- The scrambler seed at a codeword's first bit, none with SCREN 0 (R106). -/
def State.scrSeed (s : State) (t : Quad) : Option (BitVec 16) :=
  if s.regB (tk t R_STT_CHN_CTL) 8 then some (BitVec.ofNat 16 (s.regF (tk t R_STT_SCRSEED) 15 0)) else none

/-- The sector that a first open action starts. -/
def State.newSector (s : State) (t : Quad) (isWrite : Bool) (tag : BitVec 16) (rec : Option Nat) : Sector where
  isWrite := isWrite
  tag := tag
  frags := s.descFrags t tag
  frag := 1
  gateOpen := true
  pos := 0
  done := false
  record := rec
  syncMiss := 0
  offs := Four.all 0
  erased := false
  skips := 0
  src := if isWrite then s.sourceBytes t tag else []
  crcGen := s.regB (tk t R_FMT_CTL) 2
  seed := s.scrSeed t
  run := ⟨0, [], none, [], [], []⟩
  past := []

/-- The status word of a tag that never became a sector. -/
def State.bareWord (s : State) (t : Quad) (tag : BitVec 16) (isWrite : Bool) (out : SecOut) : DWord :=
  statusWord tag out 15 (s.descFrags t tag) (isWrite && s.regB (tk t R_FMT_CTL) 2) false 0 (Four.all 0) 0 0

/-- A dropped AEQ_RD_ON or AEQ_WG_ON: MISSED for its tag, ending the sector it would have gone on with. -/
def State.dropMedia (s : State) (t : Quad) (isWrite : Bool) (tag : BitVec 16) (cont : Bool) : State :=
  if cont then
    match (s.tl t).sector with
    | some x =>
      let s := s.modTile t (fun y =>
        { y with
          sector := none
          lastTag := some tag
          win := none
          busyRecs := y.busyRecs.filter (fun n => some n != x.record) })
      s.postStatus t (s.bareWord t tag isWrite .missed)
    | none => s
  else s.postStatus t (s.bareWord t tag isWrite .missed)

/-- An invalid descriptor (R126). -/
def State.descErr (s : State) (t : Quad) (isWrite : Bool) (tag : BitVec 16) : State :=
  let s := s.setStat (tk t R_FMT_INTSTAT) 4
  let s := s.setReg (tk t R_FMT_DESCERR) (tag.setWidth 32)
  s.postStatus t (s.bareWord t tag isWrite .descerr)

/-- The next fragment of the sector in progress. -/
def State.nextFrag (s : State) (t : Quad) : State :=
  s.modTile t (fun y =>
    { y with sector := y.sector.map (fun x =>
        { x with frag := x.frag + 1, gateOpen := true, pos := s.fragEnd t x.tag x.frag }) })

/-- A gate rises: the gate interval of the fragment begins. The mark of a write follows WGLEAD bits of tone (R114). -/
def State.startRun (s : State) (t : Quad) : State :=
  let a := s.streamAc t
  s.modTile t (fun y =>
    { y with
      win := none
      freeze := none
      sector := y.sector.map (fun x =>
        { x with run := ⟨ofI 64 a, [], if x.isWrite then some (s.wgLead t + s.markLen x) else none, [], [], []⟩ }) })

/-- The write gate rises (R114): the action executes, so a forcing of R124 or R127 no longer shows (R459). Inside a
keep-out, or over a foreign track, or with a source that cannot supply, it is forced low at once. -/
def State.raiseWg (s : State) (t : Quad) : State :=
  let s := (s.startRun t).modTile t (fun x => { x with wg := true, forcedOnce := false, wgSinceAg := true, wgFell := none })
  let a := angleOf (s.streamAc t)
  if s.keptOut t a then (s.forceLow t true).setStat (tk t R_FMT_INTSTAT) 0
  else
    match (s.tl t).sector with
    | some x => if s.sourceOk t x.tag then s else s.forceLow t true
    | none => s

/-- The read gate rises; the loops take their starting values (Table 5.3). -/
def State.raiseRg (s : State) (t : Quad) : State :=
  let g : Int := fld (s.bankNow t 1) 15 0
  let m := sfld (s.bankNow t 3) 31 16
  (s.startRun t).modTile t (fun x =>
    { x with rg := true, loops := ⟨if x.gainInit then g else x.loops.vga, 0, clampI (-8192) 8192 m, 0⟩, gainInit := false, tlSat := false })

/-- The sample record of a read that starts. -/
def State.takeRec (s : State) (t : Quad) (r : Option Nat) : State :=
  match r with
  | some n => s.modTile t (fun x => { x with busyRecs := x.busyRecs ++ [n], recs := sp none x.recs n none })
  | none => s

/-- AEQ_WG_ON and AEQ_RD_ON (R97, R117, R126, R127, R132). -/
def State.openAction (s : State) (t : Quad) (isWrite : Bool) (tag : BitVec 16) (late : Int) : State :=
  let s := s.takeSwap t
  let s := s.arrive t isWrite tag
  let cont := s.continues t isWrite tag
  let tooLate := decide ((s.lateMax t : Int) < late)
  let confl := s.conflict t isWrite
  let clock := s.clkFault t
  let drop := tooLate || confl || clock || !s.regB (tk t R_FMT_CTL) 0 ||
    (isWrite && (s.forcing t || !s.writeArmed t))
  if !cont && !(s.tl t).statusRoom then
    (s.dropOpen t tooLate confl clock).setStat (tk t R_FMT_INTSTAT) 5
  else
    let s := if cont then s else s.modTile t (fun x => { x with reserved := x.reserved + 1 })
    if drop then (s.dropOpen t tooLate confl clock).dropMedia t isWrite tag cont
    else
      let s := s.countLate t late
      if cont then
        let s := s.nextFrag t
        if isWrite then s.raiseWg t else s.raiseRg t
      else if s.descValid t tag = false then s.descErr t isWrite tag
      else if isWrite then (s.modTile t (fun x => { x with sector := some (s.newSector t true tag none) })).raiseWg t
      else
        let r := (s.tl t).pickRec
        ((s.takeRec t r).modTile t (fun x => { x with sector := some (s.newSector t false tag r) })).raiseRg t

/-! ### Adaptive loops and freeze spans (R100–R102) -/

/-- A freeze span of the read in progress; STT_CHN_INTSTAT bit 4 past 4,096 bits (R102). -/
def State.addFrozen (s : State) (t : Quad) (p : BitSpan) : State :=
  match (s.tl t).sector with
  | some x =>
    let l := addSpan x.run.frozen p
    let s := s.putSector t { x with run := { x.run with frozen := l } }
    if l.head?.any (fun q => decide (4096 < q.len)) then s.setStat (tk t R_STT_CHN_INTSTAT) 4 else s
  | none => s

/-- A bit of a read lies in a freeze span, the one still open with them, or STT_CHN_CTL.HOLD is 1. -/
def State.frozenAt (s : State) (t : Quad) (f : FragRun) (i : Int) : Bool :=
  s.regB (tk t R_STT_CHN_CTL) 5 || inSpans f.frozen i ||
    (match (s.tl t).freeze with
     | some (_, lo) => decide (lo ≤ i)
     | none => false)

/-- A bit of the 256 after a span longer than 4,096 bits: acquisition gain (R102). -/
def FragRun.acquires (f : FragRun) (i : Int) : Bool :=
  f.frozen.any (fun p => decide (4096 < p.len ∧ p.hi ≤ i ∧ i < p.hi + 256))

/-- The loops on one sample: those enabled adapt and hold their range (Table 5.3, Table 5.8); the baseline's upper limit
is the largest value of STT_BLO. -/
def loopsStep (ctl : Word) (gains : List Word) (acq acqT : Bool) (l : Loops) (y : Int) : Loops :=
  let f (k : Nat) (a : Bool) (v : Int) : Int := if bit ctl (k + 1) then Config.loopStep k gains a v y else v
  ⟨clampI 0 65535 (f 0 acq l.vga), clampI (-128) 127 (f 1 acq l.blo), clampI (-8192) 8192 (f 2 false l.mra),
    clampI (-1024) 1024 (f 3 acqT l.tl)⟩

/-- The timing loop stands at ±0.25 bit. -/
def Loops.tlAtLimit (l : Loops) : Bool := decide (l.tl.natAbs = 1024)

/-- A bit of a read before its mark, in wedge-servo mode one of the preamble: the timing loop acquires (R421). -/
def State.inPreamble (s : State) (f : FragRun) (i : Int) : Bool :=
  s.wsc && f.start.all (fun c => decide (i + 20 < (c : Int)))

/-- The loops act on sample `i`, unless it lies in a freeze span (R100, R102). -/
def State.loopSample (s : State) (t : Quad) (f : FragRun) (p : Smp × Nat) : State :=
  if s.frozenAt t f p.2 then s
  else
    let l := (s.tl t).loops
    let m := loopsStep (s.reg (tk t R_STT_CHN_CTL)) [s.bankNow t 1, s.bankNow t 3, s.bankNow t 4] (f.acquires p.2) (s.inPreamble f p.2) l p.1.y
    let s := s.modTile t (fun x => { x with loops := m, tlSat := x.tlSat || m.tlAtLimit })
    if m.tlAtLimit && !l.tlAtLimit then s.bump (tk t R_STT_ERRCNT) 15 0 1 else s

/-- Samples arrive, one a bit. The loops act on them 64 bits later, so that a freeze reaches them first (R100). -/
def State.takeSmps (s : State) (t : Quad) (smps : List Smp) : State :=
  match (s.tl t).sector with
  | some x =>
    if (s.tl t).rg && !x.isWrite && x.gateOpen then
      let n := x.run.smps.length
      let f := { x.run with smps := x.run.smps ++ smps }
      let ready := (f.smps.zipIdx.drop (n - 64)).take (f.smps.length - 64 - (n - 64))
      ready.foldl (fun (s : State) p => s.loopSample t f p) (s.putSector t { x with run := f })
    else s
  | none => s

/-! ### Skip entries (R131) -/

def skipStart (e : DWord) : Nat := fld e 23 0

/-- Entries of a list with their numbers, in the order in which an angle passes them from `rise` on, each with its
distance in AU. -/
def skipOrder (rise : Nat) (l : List DWord) : List (Nat × Nat × DWord) :=
  let q := l.zipIdx.map (fun p => (p.2, (skipStart p.1 + 16777216 - rise) % 16777216, p.1))
  q.filter (fun p => decide (rise ≤ skipStart p.2.2)) ++ q.filter (fun p => decide (skipStart p.2.2 < rise))

/-- Where a bit of the gate interval lies. -/
inductive BitPlace where
  | code
  | mark
  | other
deriving DecidableEq, Repr

/-- Bit `i`: a codeword bit, one of a mark, of an open window or of a preamble, or none of these (R131, R421). -/
def State.placeOf (s : State) (t : Quad) (x : Sector) (i : Int) : BitPlace :=
  if !x.isWrite && (s.tl t).win.any (fun w => !w.found) then .mark
  else
    match State.codeFrom x with
    | none => if s.wsc then .mark else .other
    | some c =>
      if i < c then (if s.wsc ∨ c - s.markLen x ≤ i then .mark else .other)
      else if inSpans x.run.pauses i || decide (c + s.fragLen t x + spanSum x.run.pauses ≤ i) then .other
      else .code

/-- An entry reaches its start angle, `d` AU after the gate's rise: it pauses the codeword, erases its bits, or, inside
a mark or an open window, erases and sets FMT_INTSTAT bit 6. -/
def State.applySkip (s : State) (t : Quad) (k d : Nat) (e : DWord) : State :=
  match (s.tl t).sector with
  | none => s
  | some x =>
    let i := s.bitsFrom t x.run.rise ((x.run.rise.toNat : Int) + d)
    let p : BitSpan := ⟨i, i + clampN 8 4096 (fld e 39 24)⟩
    let seen (y : Sector) : Sector := { y with run := { y.run with seen := k :: y.run.seen } }
    let plc := s.placeOf t x i
    if plc = .other then s.putSector t (seen x)
    else
      let x := seen { x with skips := x.skips + 1 }
      let x := if bit e 40 && plc == .code then { x with run := { x.run with pauses := x.run.pauses ++ [p] } } else x
      let s := s.putSector t x
      let s := if plc = .mark then s.setStat (tk t R_FMT_INTSTAT) 6 else s
      if x.isWrite then s else s.addFrozen t p

/-- Entries due at a stream AC, not yet considered in this gate interval. -/
def State.skipsDueList (s : State) (t : Quad) (a : Int) : List (Nat × Nat × DWord) :=
  match (s.tl t).sector with
  | some x =>
    if s.regB (tk t R_FMT_CTL) 4 && (s.tl t).skipOk && x.gateOpen && !x.done then
      (skipOrder (angleOf x.run.rise.toNat) (s.tl t).skipList).filter (fun p =>
        decide ((p.2.1 : Int) ≤ a - x.run.rise.toNat) && !x.run.seen.contains p.1)
    else []
  | none => []

def State.skipsDue (s : State) (t : Quad) (a : Int) : State :=
  (s.skipsDueList t a).foldl (fun (s : State) p => s.applySkip t p.1 p.2.1 p.2.2) s

/-! ### Close actions -/

/-- AEQ_WG_OFF (R114, R127). -/
def State.wgOff (s : State) (t : Quad) : State :=
  let s := s.skipsDue t (s.streamAc t)
  let was := (s.tl t).wg
  let s := s.sendData t
  let s := s.dropWg t
  match (s.tl t).sector with
  | some x =>
    if was && x.isWrite then
      let (y, frag, whole) := s.closeFrag t x (s.bitsFrom t x.run.rise (s.streamAc t))
      if whole then s.endWrite t y .ok
      else if frag && decide (y.frag < y.frags) then s.putSector t y
      else s.endWrite t y .short
    else s
  | none => s

/-- AEQ_RD_OFF with the samples received since the last ones (R127, R128). -/
def State.rdOff (s : State) (t : Quad) (smps : List Smp) : State :=
  let s := (s.takeSmps t smps).skipsDue t (s.streamAc t)
  let was := (s.tl t).rg
  let n := ((s.tl t).sector.map (fun x => x.run.smps.length)).getD 0
  let s := s.closeWin t n
  let s := s.dropRg t
  match (s.tl t).sector with
  | some x =>
    if was && !x.isWrite then
      let (y, frag, whole) := s.closeFrag t x n
      let (s, y) := s.takeFrag t y
      if whole then s.endRead t y .ok
      else if frag && decide (y.frag < y.frags) then s.putSector t y
      else s.endRead t { y with erased := true } .short
    else s
  | none => s

/-! ### Assist and head actions -/

def State.assistKind (s : State) (l : Side) : Nat :=
  let k := s.regF (lk l R_QLK_CTL) 9 8
  if k = 3 then 0 else k

/-- AEQ_AS_PRE and AEQ_AS_ON (R90, R156, R158, R159, R459). -/
def State.assistOn (s : State) (t : Quad) (late : Int) : State :=
  let tooLate := decide ((s.lateMax t : Int) < late)
  let zeroLead := decide (s.regF (lk t.act R_QLK_GATECFG) 31 16 = 0) && !(s.tl t).wg
  if tooLate || s.forcing t || (zeroLead && decide (s.assistKind t.act ≠ 0)) then s.dropOpen t tooLate false (s.clkFault t)
  else
    let s := s.countLate t late
    if s.assistKind t.act = 0 then s
    else
      let a := s.streamAc t
      s.modTile t (fun x => if x.ag then x else { x with ag := true, agRose := ofI 64 a, wgSinceAg := x.wg, wgFell := none })

/-- AEQ_AS_LVL (R156, R157, R460). -/
def State.assistLevel (s : State) (t : Quad) (i : Nat) : State :=
  let l := t.act
  let r := (s.lnk l).slots.get t.slot
  if s.assistKind l = 0 ∨ r.bound = false ∨ r.sinceStart = false ∨ r.mode = 0 then s
  else
    let v := s.clampLevels l (sg 0 (s.lnk l).ast i)
    let s := s.modLink l (fun x => { x with levels := sp none x.levels r.head (some v) })
    s.sendRun l (aslvFrame r.head v)

/-- AEQ_HSW (R88, R90, R153, R417). -/
def State.headSwitch (s : State) (t : Quad) (head : Nat) (late : Int) : State :=
  let l := t.act
  let o := (s.lnk l).slots.get t.slot.peer
  if 12 ≤ head then (s.modTile t (fun x => { x with illact := true })).aeqInt t 5
  else if (s.tl t).wg || (s.tl t).rg || (o.bound && decide (o.mode ≠ 0) && o.head == head) then
    s.modTile t (fun x => { x with hswerr := true })
  else
    let s := (s.countLate t late).sendHsel l t.slot head
    if s.wsc then
      (s.modAng (s.angSide t) (fun a => { a with handPending := true })).modTile t (fun x => { x with wedgeInh := true })
    else s

/-! ### Guide samples (R112, R113) -/

/-- The guide amplitude: gain code of bank word 9, and the write-mode offset while the write gate is high (R113). -/
def State.guideAmp (s : State) (t : Quad) (g : GuideIn) : BitVec 16 :=
  let off := if (s.tl t).wg then sfld (s.reg (tk t R_STT_GDCCTL)) 15 8 else 0
  Config.guideAmp ((fld (s.bankNow t 9) 15 0 : Nat) + off) g.amp

def State.guideStale (s : State) (t : Quad) (g : GuideIn) : Bool :=
  g.asperity || !s.guideOn t || decide ((s.guideAmp t g).toNat < s.regF (tk t R_STT_GQTH) 15 0)

/-- The position scaled by PES scale (Q2.14) and saturated at ±2 track pitches (R112). -/
def State.guidePes (s : State) (t : Quad) (pos : Int) : BitVec 16 :=
  let v := pos * (fld (s.bankNow t 9) 31 16 : Nat)
  ofI 16 (satI 16 (v / 16384 + if v % 16384 ≠ 0 ∧ Config.pesScaleUp v then 1 else 0))

/-- Deliver a guide sample, tagged or not; the tag field of an untagged one is open (DESIGN CHOICE, log 123). -/
def State.guideSample (s : State) (t : Quad) (ac : DWord) (tag : Option (BitVec 16)) (g : GuideIn) : State :=
  let stale := s.guideStale t g
  let pes := s.guidePes t g.pos
  let amp := s.guideAmp t g
  let w : DWord := BitVec.ofNat 64 (fld ac 26 11 * 2 ^ 48 + (tag.getD (s.free 16)).toNat * 2 ^ 32 + b2n tag.isSome * 2 ^ 29 +
    b2n stale * 2 ^ 28 + g.phase.toNat * 2 ^ 16 + pes.toNat)
  let s := (s.modTile t (fun x =>
    { x with gdcPes := w, staleFrom := if stale && (s.slotHead t).isSome then some (x.staleFrom.getD ac) else none })).freeNext
  let s := s.setReg (tk t R_STT_GDCSTAT) (BitVec.ofNat 32 (amp.toNat + 65536 * b2n stale))
  match tag with
  | some v => s.setReg (tk t R_STT_GDCTAG) (BitVec.ofNat 32 (v.toNat * 65536 + pes.toNat))
  | none => s

/-! ### Rows -/

def execAeqNop (t : Quad) (now : DWord) (s : State) : Out :=
  .next (s.withHead t now (fun c => c == 0) (fun s _ late => s.countLate t late))

def execAeqWgOn (t : Quad) (now : DWord) (s : State) : Out :=
  .next (s.withHead t now (fun c => c == 1) (fun s p late => s.openAction t true (p.setWidth 16) late))

def execAeqWgOff (t : Quad) (now : DWord) (s : State) : Out :=
  .next (s.withHead t now (fun c => c == 2) (fun s _ late => (s.countLate t late).wgOff t))

def execAeqRdOn (t : Quad) (now : DWord) (s : State) : Out :=
  .next (s.withHead t now (fun c => c == 3) (fun s p late => s.openAction t false (p.setWidth 16) late))

def execAeqRdOff (t : Quad) (now : DWord) (smps : List Smp) (s : State) : Out :=
  .next (s.withHead t now (fun c => c == 4) (fun s _ late => (s.countLate t late).rdOff t smps))

def execAeqAsPre (t : Quad) (now : DWord) (s : State) : Out :=
  .next (s.withHead t now (fun c => c == 5) (fun s _ late => s.assistOn t late))

def execAeqAsOn (t : Quad) (now : DWord) (s : State) : Out :=
  .next (s.withHead t now (fun c => c == 6) (fun s _ late => s.assistOn t late))

def execAeqAsOff (t : Quad) (now : DWord) (s : State) : Out :=
  .next (s.withHead t now (fun c => c == 7) (fun s _ late =>
    (s.countLate t late).modTile t (fun x => { x with ag := false, wgFell := none })))

/-- The window that an open action names: its pattern, threshold and HALFWIN are those of now (R128, R129, R421). -/
def State.newWin (s : State) (t : Quad) (resync : Bool) (at_ : Nat) : SyncWin :=
  let c := s.reg (tk t R_FMT_SYNCCFG)
  let h := min 31 (fld c 21 16)
  if s.wsc then ⟨s.reg (tk t R_FMT_SYNCPAT) &&& 0xFFFFF#32, 20, min 8 (fld c 3 0), h, at_, false⟩
  else if resync then ⟨s.reg (tk t R_FMT_RSYNCPAT) &&& 0xFFFF#32, 16, min 4 (fld c 11 8), h, at_, false⟩
  else ⟨s.reg (tk t R_FMT_SYNCPAT), 32, min 8 (fld c 3 0), h, at_, false⟩

/-- A search window (R128): only on a read in progress with its gate open; late open actions are dropped (R90). `smps`
are the samples received since the last ones; the window opens at the next bit. -/
def execAeqSyncOpen (t : Quad) (now : DWord) (smps : List Smp) (s : State) : Out :=
  .next (s.withHead t now (fun c => c == 8) (fun s p late =>
    if (s.lateMax t : Int) < late then s.dropOpen t true false false
    else
      let s := (s.countLate t late).takeSmps t smps
      match (s.tl t).sector with
      | some x =>
        if (s.tl t).rg && !x.isWrite && x.gateOpen then
          let n := x.run.smps.length
          let w := s.newWin t (!s.wsc && bit p 0) n
          (s.closeWin t n).modTile t (fun y => { y with win := some w })
        else s
      | none => s))

/-- The window closes after the samples `smps`. A mark may begin up to the closing bit: `tail` are the samples behind it
that the search still compares, at most one less than the mark has (R128, DEDUCED, log 124). -/
def execAeqSyncClose (t : Quad) (now : DWord) (smps tail : List Smp) (s : State) : Out :=
  .next (s.withHead t now (fun c => c == 9) (fun s _ late =>
    let s := (s.countLate t late).takeSmps t smps
    let n := ((s.tl t).sector.map (fun x => x.run.smps.length)).getD 0
    let k := ((s.tl t).win.map (fun w => if w.found then 0 else w.len - 1)).getD 0
    (s.takeSmps t (tail.take k)).closeWin t n))

def execAeqHsw (t : Quad) (now : DWord) (s : State) : Out :=
  .next (s.withHead t now (fun c => c == 10) (fun s p late => s.headSwitch t (fld p 3 0) late))

def execAeqGsamp (t : Quad) (now : DWord) (g : GuideIn) (s : State) : Out :=
  .next (s.withHead t now (fun c => c == 11) (fun s p late =>
    (s.countLate t late).guideSample t now (some (p.setWidth 16)) g))

def execAeqAsLvl (t : Quad) (now : DWord) (s : State) : Out :=
  .next (s.withHead t now (fun c => c == 12) (fun s p late => (s.countLate t late).assistLevel t (fld p 7 0)))

/-- An entry with an unlisted code is discarded when it reaches the head, whatever its stamp (R88). -/
def execAeqIllegalAction (t : Quad) (now : DWord) (s : State) : Out :=
  .next (
    match (s.tl t).aeq with
    | [] => s
    | e :: rest =>
      if decide (13 ≤ fld e.action 31 24) && s.canReach (s.angSide t) now then
        ((((s.reach t now).modTile t (fun x => { x with aeq := rest })).lowMark t (rest.length + 1)).modTile t
          (fun x => { x with illact := true })).aeqInt t 5
      else s)

end Sys2Proof.Machine
end

