-- ==== Sys2Proof/Machine/Channel.lean ====
section
/-!
DEFINITION. The channel, the formatter and the decoder cluster (R94–R137, R412–R421) but for the AEQ actions.
-/
namespace Sys2Proof.Machine

/-! ### Decoder clusters (R107–R111) -/

/-- Request slots of an engine: 2 and 3 where it is mapped, all four otherwise. -/
def State.reqSlots (s : State) (r : Side) (e : Quad) : List Nat :=
  (if s.mappedAny r e then [2, 3] else [0, 1, 2, 3]).map (fun k => 4 * e.idx + k)

def State.decSize (s : State) (r : Side) : Nat := (Quad.all.map (fun e => (s.reqSlots r e).length)).sum

def DecJob.isReq : DecJob → Bool
  | .otf .. => false
  | .req .. => true

/-- DEC credits held: requests that run and results not yet popped (Table 16.1). -/
def State.decHeld (s : State) (r : Side) : Nat :=
  ((s.dec.get r).jobs.filter (fun j => j.2.isReq)).length + (s.dec.get r).results.length

/-- DEC credits that leases of other contexts hold (R346). -/
def State.decLeased (s : State) (c : CtxId) : Nat :=
  ((s.rlg.leases.filter (fun l => decide (l.pool = 5 ∧ l.inst = c.ridge.idx ∧ l.owner ≠ .ctx c))).map Lease.amount).sum

/-- The free request slots of the enabled engines, none while the credits are all held. An engine without power has all
its slots serve requests (R107); they run when it has power. -/
def State.freeReqs (s : State) (c : CtxId) : List Nat :=
  let r := c.ridge
  if s.decSize r ≤ s.decHeld r + s.decLeased c then []
  else
    (Quad.all.flatMap (fun e =>
      if s.regB (rk r R_DEC_CTL) e.idx then s.reqSlots r e else [])).filter
      (fun n => !(s.dec.get r).slotBusy n)

/-- The slot a submission takes (DESIGN CHOICE, log 8). -/
def State.reqSlot (s : State) (c : CtxId) : Option Nat := pickOf .request (s.freeReqs c)

/-- Submit the staged request (R111). -/
def State.decSubmit (s : State) (c : CtxId) : State :=
  let x := s.ctx c
  let w0 := x.stagedAt 0x60
  let t := quadOf (fld w0 63 62)
  if s.owns c.ridge t = false then s.refuseCtx c 0x64 2
  else
    match s.reqSlot c with
    | none => s.refuseCtx c 0x64 3
    | some n =>
      s.modDec c.ridge (fun d =>
        { d with jobs := d.jobs ++ [(n, .req c w0 (x.stagedAt 0x61) (x.stagedAt 0x62) (x.stagedAt 0x63))] })

/-- The next result of a context, 0 where none is ready. -/
def State.decPeek (s : State) (c : CtxId) : DWord :=
  match (s.dec.get c.ridge).results.find? (fun p => decide (p.1 = c)) with
  | some (_, w) => w
  | none => 0

def dropResult (c : CtxId) : List (CtxId × DWord) → List (CtxId × DWord)
  | [] => []
  | p :: t => if p.1 = c then t else p :: dropResult c t

def State.decPop (s : State) (c : CtxId) : State × DWord :=
  (s.modDec c.ridge (fun d => { d with results := dropResult c d.results }), s.decPeek c)

/-- A record that a job of either cluster works on. -/
def State.recBusy (s : State) (t : Quad) (n : Nat) : Bool :=
  Side.all.any (fun r => (s.dec.get r).jobs.any (fun j =>
    match j.2 with
    | .otf u k _ _ => decide (u = t) && k == n
    | .req _ w0 _ _ _ => decide (quadOf (fld w0 63 62) = t) && fld w0 59 56 == n))

/-- Free records that were to be freed at the end of their decode (R104). -/
def State.settleRec (s : State) (t : Quad) (n : Nat) : State :=
  if (s.tl t).freeAfter.contains n && !s.recBusy t n then s.modTile t (fun x => x.freeRec n) else s

/-- Where a decode writes (R110, R240): the place, or none where it cannot be written. -/
def State.decDest (s : State) (r : Side) (place : BufAddr ⊕ Nat) : Option (BufAddr ⊕ Nat) :=
  match place with
  | .inl b => if b.buf < 42 ∧ 2 ≤ b.slot ∧ (s.sbuf r b.buf).mode ≠ .free then some place else none
  | .inr a => if (s.dramChan r a 4128).isSome then some place else none

def State.setSbuf (s : State) (r : Side) (n : Nat) (b : StripeBuf) : State :=
  s.modSte r (fun e => { e with bufs := sp StripeBuf.default e.bufs n b })

/-- Write a payload at a place; a poisoned delivery is stored with the marker (R373). -/
def State.putPayload (s : State) (r : Side) (place : BufAddr ⊕ Nat) (bs : List Byte) (poison : Bool) : State :=
  match place with
  | .inl b =>
    let x := s.sbuf r b.buf
    s.setSbuf r b.buf
      { x with
        secs := sp [] x.secs (32 * b.slot + b.sector) bs
        bad := sp false x.bad (32 * b.slot + b.sector) poison }
  | .inr a =>
    let s := s.dramWrite r a bs
    if poison then
      if s.mirrored a then
        (s.modDram .a (fun c => c.markWords a bs.length true)).modDram .b (fun c => c.markWords a bs.length true)
      else s.modDram r (fun c => c.markWords a bs.length true)
    else s

/-- Counters of an engine and the last syndrome weight. -/
def State.decCount (s : State) (r : Side) (n : Nat) (ok : Bool) (weight : Nat) : State :=
  let k := rk r (R_DEC_ECNT + 4 * (n / 4))
  let s := if ok then s.bump k 15 0 1 else s.bump k 31 16 1
  s.setReg (rk r R_DEC_SYNDW) (BitVec.ofNat 32 (min 3840 weight))

/-! ### Decodes (R108–R111, R134) -/

/-- Limits of DEC_ITERCFG (Table 5.14). -/
def State.otfMax (s : State) (r : Side) : Nat := clampN 1 8 (s.regF (rk r R_DEC_ITERCFG) 4 0)

def State.recMax (s : State) (r : Side) : Nat := clampN 1 40 (s.regF (rk r R_DEC_ITERCFG) 29 24)

/-- The limit of a request: 0 is OTFMAX (Table 5.5). -/
def State.reqLimit (s : State) (r : Side) (w1 : DWord) : Nat :=
  if fld w1 5 0 = 0 then s.otfMax r else min (s.recMax r) (fld w1 5 0)

/-- The decode of record `n` of a stream by a cluster, `limit` global iterations at the most. -/
def State.decodeRec (s : State) (r : Side) (t : Quad) (n limit : Nat) (off : Option Int) (extra : BitSpan) : Decoded :=
  ((sg none (s.tl t).recs n).getD ⟨[], [], none⟩).decode (64 * atLeast1 (s.regF (tk t R_STT_DETCTL) 3 0))
    (clampN 1 4 (s.regF (rk r R_DEC_ITERCFG) 19 16)) limit (s.regB (rk r R_DEC_CTL) 8) off extra

/-- The end of an on-the-fly decode (R104, R107, R110, R132). A sector cut short keeps its outcome; a destination that
cannot be written counts as a failure (DEDUCED, log 12). -/
def State.otfDone (s : State) (r : Side) (n : Nat) (t : Quad) (rec : Nat) (status : DWord) (place : BufAddr ⊕ Nat)
    (o : DecodeOut) : State :=
  let d := s.decodeRec r t rec (s.otfMax r) none ⟨0, 0⟩
  let dest := if o.destOk then s.decDest r place else none
  let ok := d.ok && dest.isSome
  let s := s.decCount r n ok d.weight
  let s :=
    match dest with
    | some p => if d.ok then s.putPayload r p d.payload o.poison else s
    | none => if d.ok then s.setStat (rk r R_DEC_INTSTAT) 3 else s
  let keep := !ok || s.recBusy t rec
  let s := s.modTile t (fun x => if keep then x.hold rec else x.freeRec rec)
  let s := s.settleRec t rec
  let s := if ok then s else (s.setStat (rk r R_DEC_INTSTAT) 0).bump (tk t R_STT_ERRCNT) 31 16 1
  let out := if fld status 47 44 = 5 then 5 else if ok then 0 else 1
  let w := putFld (putFld status 47 44 out) 7 4 d.iters
  s.decidedStatus t rec (putBit w 37 (d.ok && tagCrcOk d.payload))

/-- The result word of a request (Table 5.6). -/
def resultWord (tag iters weight slot out : Nat) (crc : Bool) (changed : Nat) : DWord :=
  BitVec.ofNat 64 (tag * 2 ^ 48 + iters * 2 ^ 40 + weight * 2 ^ 24 + slot / 4 * 2 ^ 22 + slot % 4 * 2 ^ 20 + out * 2 ^ 16 +
    b2n crc * 2 ^ 15 + min changed 0x7FFF)

/-- A record that was freed before its request (R104): no decode runs, and what the result's decode fields hold is not
said (free values, DESIGN CHOICE, log 125). -/
def State.recGone (s : State) (r : Side) (n : Nat) (c : CtxId) (w0 : DWord) : State :=
  let v : DWord := s.free 64
  let w := resultWord (fld w0 47 32) (fld v 47 40) (fld v 39 24) n 3 (bit v 15) (fld v 14 0)
  let s := ((s.setStat (rk r R_DEC_INTSTAT) 2).modDec r (fun d => { d with results := d.results ++ [(c, w)] })).freeNext
  s.raiseLine c 7

/-- The end of a request (R104, R111, R134): its result word and line 7. -/
def State.reqDone (s : State) (r : Side) (n : Nat) (c : CtxId) (w0 w1 w2 w3 : DWord) (o : DecodeOut) : State :=
  let t := quadOf (fld w0 63 62)
  let rn := fld w0 59 56
  let d := s.decodeRec r t rn (s.reqLimit r w1) (some (clampI (-64) 64 (sfld w0 15 0)))
    ⟨fld w3 15 0, fld w3 15 0 + fld w3 31 16⟩
  let synonly := bit w1 16
  let place : BufAddr ⊕ Nat := if bit w2 63 then .inl (bufAddr (fld w2 12 0)) else .inr (fld w2 47 0 / 64 * 64)
  let dest := if o.destOk then s.decDest r place else none
  let out : Nat := if synonly then 2 else if !d.ok then 1 else if dest.isSome then 0 else 4
  let s := if out = 4 then s.setStat (rk r R_DEC_INTSTAT) 3 else s
  let s := s.decCount r n (out == 0 || (out == 2 && d.ok)) d.weight
  let s :=
    match (if out = 0 then dest else none) with
    | some p =>
      let s := s.putPayload r p d.payload o.poison
      if o.poison then s.raiseLine c 12 else s
    | none => s
  let s := if bit w1 17 then s.modTile t (fun x => x.freeRec rn) else s
  let s := s.settleRec t rn
  let w := resultWord (fld w0 47 32) d.iters d.weight n out (tagCrcOk d.payload) d.changed
  let s := s.modDec r (fun d => { d with results := d.results ++ [(c, w)] })
  s.raiseLine c 7

/-- The record of a sector still being read: a request that names it waits for the sector's end (DESIGN CHOICE, log
125). -/
def State.inTransfer (s : State) (t : Quad) (n : Nat) : Bool := (s.tl t).sector.any (fun x => x.record == some n)

/-- A record that the request names is there (R104). -/
def State.recHere (s : State) (t : Quad) (n : Nat) : Bool := (s.tl t).heldRecs.contains n || (s.tl t).busyRecs.contains n

/-- A job may end: its engine has power, on-the-fly work of the engine goes before a request (R108, DESIGN CHOICE, log
125), and the record of a request is complete. -/
def State.jobReady (s : State) (r : Side) (n : Nat) (j : DecJob) : Bool :=
  s.engineOn r (n / 4) &&
    (match j with
     | .otf .. => true
     | .req _ w0 _ _ _ =>
       !((s.dec.get r).jobs.any (fun k => k.1 / 4 == n / 4 && !k.2.isReq)) &&
         !s.inTransfer (quadOf (fld w0 63 62)) (fld w0 59 56))

/-! ### Rows: channel -/

def execClockRangeFault (t : Quad) (s : State) : Out :=
  .next (if s.clkFault t then (s.forceLow t false).setStat (tk t R_STT_CHN_INTSTAT) 0 else s)

def execBankSwapRequest (x : Accessor) (t : Quad) (s : State) : Out :=
  .next (s.tileAccess x t (fun s => s.modTile t (fun y => { y with swapPend := true })))

/-- A write of a bank word (R96); selector bit 8 names the bank. -/
def State.bankWrite (s : State) (t : Quad) (sel : BitVec 9) (data : Word) : State :=
  let bk := sideOf (fld sel 8 8)
  if bk = (s.tl t).active then s.setStat (tk t R_STT_CHN_INTSTAT) 3
  else s.modTile t (fun y => { y with banks := y.banks.set bk (sp 0 (y.banks.get bk) (fld sel 7 0) data) })

def State.bankRead (s : State) (t : Quad) (sel : BitVec 9) : Word :=
  sg 0 ((s.tl t).banks.get (sideOf (fld sel 8 8))) (fld sel 7 0)

def execBankWordWrite (x : Accessor) (t : Quad) (sel : BitVec 9) (data : Word) (s : State) : Out :=
  .next (s.tileAccess x t (fun s => s.bankWrite t sel data))

/-- A spare step begins (R98, R99); `run`: for a calibration run. -/
def State.spareTake (s : State) (t : Quad) (slice : Nat) (run : Bool) : State :=
  if (s.tl t).spare = .idle ∧ s.domOn (26 + t.idx) then
    let s := s.modTile t (fun y => { y with spare := .waitTake slice run })
    if (s.tl t).rg then s.setStat (tk t R_STT_CHN_INTSTAT) 1 else s
  else s

/-- GO of STT_ADCCTL. While a step runs GO has no effect; the CAL field takes the value written (DESIGN CHOICE, log
126). -/
def State.spareGo (s : State) (t : Quad) (slice : Nat) : State :=
  (s.modReg (tk t R_STT_ADCCTL) (fun w => putFld w 2 0 slice)).spareTake t slice false

def execSpareStepStart (x : Accessor) (t : Quad) (slice : BitVec 3) (s : State) : Out :=
  .next (s.tileAccess x t (fun s => s.spareGo t slice.toNat))

def execSpareTakeover (t : Quad) (s : State) : Out :=
  .next (
    match (s.tl t).spare with
    | .waitTake k u =>
      if (s.tl t).rg then s.setStat (tk t R_STT_CHN_INTSTAT) 1 else s.modTile t (fun y => { y with spare := .standing k u })
    | _ => s)

/-- A hand-back (R217): the runs of the covered target go on. -/
def State.handBack (s : State) (p : CalRun → Bool) : State :=
  s.modMon (fun m =>
    { m with handBacks := m.handBacks + 1, calRuns := lmod p (fun x => { x with returning := false }) m.calRuns })

/-- The slice returns with the trims measured; it is the last slice calibrated (STT_ADCSTAT). A calibration run has
applied its own result (R214); else the values measured are free (DESIGN CHOICE, log 126). -/
def State.spareBack (s : State) (t : Quad) (k : Nat) (run : Bool) : State :=
  let s := (s.modTile t (fun y => { y with spare := .idle })).modReg (tk t R_STT_ADCSTAT) (fun w => putFld w 15 12 k)
  if run then s.handBack (fun x => x.kind == 1 && x.tile == t && x.target == k)
  else (s.setReg (tk t R_STT_ADCTRIM + 4 * k) ((s.free 24).setWidth 32)).freeNext

/-- While a calibration run holds the cover, the slice returns only when the run has handed it back. -/
def execSpareReturn (t : Quad) (s : State) : Out :=
  .next (
    match (s.tl t).spare with
    | .standing k false =>
      if (s.tl t).rg then (s.modTile t (fun y => { y with spare := .waitReturn k false })).setStat (tk t R_STT_CHN_INTSTAT) 1
      else s.spareBack t k false
    | .waitReturn k u => if (s.tl t).rg then s.setStat (tk t R_STT_CHN_INTSTAT) 1 else s.spareBack t k u
    | _ => s)

/-- The kind of span that an envelope level begins: the target is in bank word 6 (R100). -/
def State.envelopeKind (s : State) (t : Quad) (level : Nat) : Option FreezeKind :=
  let target := fld (s.bankNow t 6) 21 16
  let c := s.reg (tk t R_STT_FRZCFG)
  if (32 + fld c 31 24) * target < 32 * level then some .asperity
  else if 64 * level < fld c 23 16 * target then some .dropout
  else none

/-- The envelope leaves its limits after the samples `smps`: the span begins 64 bits before (R100). A crossing while a
span is open, or that merges into one that has ended, is counted like any other (DESIGN CHOICE, log 127). -/
def execFreezeSpanStart (t : Quad) (level : Nat) (smps : List Smp) (s : State) : Out :=
  .next (
    match s.envelopeKind t level, (s.tl t).sector with
    | some k, some x =>
      if (s.tl t).rg && !x.isWrite && x.gateOpen then
        let at_ : Int := ((x.run.smps.length + smps.length : Nat) : Int) - 64
        let s := (s.modTile t (fun y => { y with freeze := some (k, (y.freeze.map (fun p => min p.2 at_)).getD at_) })).takeSmps t smps
        match k with
        | .asperity => s.bump (tk t R_STT_FRZCNT) 31 16 1
        | .dropout => s.bump (tk t R_STT_FRZCNT) 15 0 1
      else s
    | _, _ => s)

/-- The envelope is back within its limits after the samples `smps`: the span ends HANG × 8 bits later (R100, R102). -/
def execFreezeSpanEnd (t : Quad) (level : Nat) (smps : List Smp) (s : State) : Out :=
  .next (
    match (s.tl t).freeze, (s.tl t).sector with
    | some (_, lo), some x =>
      if (s.tl t).rg && (s.envelopeKind t level).isNone then
        let hi : Int := ((x.run.smps.length + smps.length + 8 * s.regF (tk t R_STT_FRZCFG) 15 8 : Nat) : Int)
        ((s.takeSmps t smps).modTile t (fun y => { y with freeze := none })).addFrozen t ⟨lo, hi⟩
      else s
    | _, _ => s)

/-- STT_SMPREL (R104). -/
def State.releaseRecs (s : State) (t : Quad) (mask : BitVec 16) : State :=
  ((List.range 16).filter (fun n => bit mask n)).foldl (fun s n =>
    if s.recBusy t n then s.modTile t (fun y => { y with freeAfter := y.freeAfter.filter (fun k => k != n) ++ [n] })
    else if (s.tl t).heldRecs.contains n then s.modTile t (fun y => y.freeRec n)
    else s) s

def execRecordRelease (x : Accessor) (t : Quad) (mask : BitVec 16) (s : State) : Out :=
  .next (s.tileAccess x t (fun s => s.releaseRecs t mask))

/-- The sector is complete at `now`: its last codeword bit and the pad are transferred, on a read with the samples
`smps` received since the last ones (R127). -/
def execSectorComplete (t : Quad) (now : DWord) (smps : List Smp) (s : State) : Out :=
  .next (
    let s1 := ((s.reach t now).takeSmps t smps).skipsDue t (s.streamAcAt t now)
    match (s1.tl t).sector with
    | some x =>
      let n : Int := if x.isWrite then s1.bitsFrom t x.run.rise (s.streamAcAt t now) else x.run.smps.length
      if s.canReach (s.angSide t) now && x.gateOpen && !x.done && (s1.closeFrag t x n).2.2 then
        if x.isWrite then s1.putSector t { x with done := true, pos := 36864 }
        else
          let s2 := s1.closeWin t x.run.smps.length
          match (s2.tl t).sector with
          | some y =>
            let (s3, z) := s2.takeFrag t { y with pos := 36864 }
            s3.endRead t z .ok
          | none => s2
      else s
    | none => s)

def execSourceUnderrun (t : Quad) (s : State) : Out :=
  .next (
    match (s.tl t).sector with
    | some x => if x.isWrite && x.gateOpen && !x.done && (s.tl t).wg then s.forceLow t true else s
    | none => s)

def execDecodeComplete (r : Side) (slot : BitVec 4) (res : DecodeOut) (s : State) : Out :=
  .next (
    match (s.dec.get r).jobs.find? (fun j => j.1 == slot.toNat && s.jobReady r j.1 j.2) with
    | none => s
    | some (n, job) =>
      let s := s.modDec r (fun d => { d with jobs := d.jobs.filter (fun j => j.1 != n) })
      match job with
      | .otf t rec status dest => s.otfDone r n t rec status dest res
      | .req c w0 w1 w2 w3 =>
        if s.recHere (quadOf (fld w0 63 62)) (fld w0 59 56) then s.reqDone r n c w0 w1 w2 w3 res else s.recGone r n c w0)

/-- STT_WRCTL.EN (R116, R153). -/
def State.writeEnable (s : State) (t : Quad) (en : Bool) : State :=
  let s := s.modReg (tk t R_STT_WRCTL) (fun w => putBit w 0 en)
  let s := if en then s else s.forceLow t false
  s.resendHsel t.act t.slot

def execWriteEnableWrite (x : Accessor) (t : Quad) (en : Bool) (s : State) : Out :=
  .next (s.tileAccess x t (fun s => s.writeEnable t en))

def execDecoderSubmit (c : CtxId) (s : State) : Out :=
  .next (
    s.byCtx c (fun s =>
      s.decSubmit c))

/-! ### The recovery ladder (R135, R136) -/

/-- The candidate offsets of L1: the detected offset unless fragment 1 flywheeled, then 0, −1, +1 and so on to ±8. -/
def ladderCands (det : Option Int) : List Int :=
  let l : List Int := 0 :: (List.range 8).flatMap (fun (k : Nat) => [-((k : Int) + 1), (k : Int) + 1])
  match det with
  | some d => d :: l.filter (fun x => x ≠ d)
  | none => l

/-- The candidate with the lowest weight; on equal weights the earlier one. -/
def ladderPick : List Int → List Nat → Int × Nat → Int × Nat
  | c :: cs, w :: ws, b => ladderPick cs ws (if w < b.2 then (c, w) else b)
  | _, _, b => b

def Ladder.best (l : Ladder) : Int :=
  let c := ladderCands l.det
  (ladderPick c l.weights (c.headD 0, 3841)).1

/-- What the library does next (Table 6.8): a SYNONLY request at an offset, a full decode at an offset with a limit,
reconstruction, a re-read at an offset in percent of a track pitch, a deep retry, or nothing more (R17). -/
inductive LadderAct where
  | synTry (off : Int)
  | full (off : Int) (limit : Nat)
  | rebuild
  | reread (percent : Int)
  | deep
  | failed
deriving DecidableEq, Repr

def Ladder.next (l : Ladder) (otfMax recMax : Nat) : LadderAct :=
  match l.level with
  | 1 => match (ladderCands l.det)[l.weights.length]? with
    | some c => .synTry c
    | none => .full l.best otfMax
  | 2 => .full l.best recMax
  | 3 => .rebuild
  | 4 => .reread (([5, -5, 10, -10] : List Int).getD l.tries 0)
  | 5 => .deep
  | _ => .failed

/-- REQ0 of a request on the held record: the offset counts from the predicted start of fragment 1 (R134). -/
def Ladder.req0 (l : Ladder) (t : Quad) (off : Int) : DWord :=
  BitVec.ofNat 64 (t.idx * 2 ^ 62 + l.record * 2 ^ 56 + l.tag.toNat * 2 ^ 32 + (ofI 16 off).toNat)

/-- The words REQ0 and REQ1 of an action on the held record (R136). -/
def Ladder.request (l : Ladder) (t : Quad) : LadderAct → Option (DWord × DWord)
  | .synTry off => some (l.req0 t off, BitVec.ofNat 64 (2 ^ 16 + 2))
  | .full off n => some (l.req0 t off, BitVec.ofNat 64 n)
  | _ => none

/-- The stripe has two erasures: two members of the actuator have failed (R135). -/
def State.twoErasures (s : State) (x : Side) : Bool :=
  decide (2 ≤ (List.range 12).countP (fun h => decide ((sg Member.default s.member (12 * x.idx + h)).st = .failed)))

/-- The level failed: the next one, L3 left out where the stripe has two erasures, L5 where L5REV is 0. -/
def State.ladderUp (s : State) (x : Side) (l : Ladder) : Ladder :=
  let n := l.level + 1
  let n := if n = 3 ∧ s.twoErasures x = true then 4 else n
  let n := if n = 5 ∧ s.rcp.l5rev = 0 then 6 else n
  { l with level := n, tries := 0 }

def State.setLadder (s : State) (t : Quad) (l : Option Ladder) : State := s.modTile t (fun x => { x with ladder := l })

/-- A re-read of the sector failed too: the next try of L4 or L5, or the next level. -/
def State.ladderTry (s : State) (x : Side) (l : Ladder) : Ladder :=
  let most := if l.level = 4 then 4 else if l.level = 5 then s.rcp.l5rev else 0
  if l.tries + 1 < most then { l with tries := l.tries + 1 } else if l.level < 6 then s.ladderUp x l else l

/-- The M context that owns the sector pops its status: a read that failed starts to climb at L1, one that has no held
record at L3; a re-read of a sector that climbs ends the climb or goes on with it (R135, DEDUCED, log 128). -/
def State.ladderStatus (s : State) (c : CtxId) (t : Quad) (w : DWord) : State :=
  let tag : BitVec 16 := BitVec.ofNat 16 (fld w 63 48)
  let good := decide (fld w 47 44 = 0) && bit w 37
  if !(decide (c.spur = .m0) || decide (c.spur = .m1)) || decide (fld w 43 40 = 15) then s
  else
    match (s.tl t).ladder.filter (fun l => decide (l.tag = tag) && decide (3 ≤ l.level)) with
    | some l => s.setLadder t (if good then none else some (s.ladderTry t.act l))
    | none =>
      if good then s
      else
        let det := if bit w 32 then none else some (sfld w 31 26)
        let l : Ladder := ⟨c, tag, fld w 43 40, det, [], 1, 0⟩
        s.setLadder t (some (if (s.tl t).heldRecs.contains (fld w 43 40) then l else s.ladderUp t.act { l with level := 2 }))

/-- A result for the sector that climbs (R136): a weight of a candidate, a decode that ends the climb, or the failure of
L1 or L2; without its record the climb goes on at L3. -/
def State.ladderResult (s : State) (c : CtxId) (w : DWord) : State :=
  Quad.all.foldl (fun (s : State) t =>
    match (s.tl t).ladder with
    | some l =>
      if l.owner = c ∧ l.tag.toNat = fld w 63 48 ∧ w ≠ 0 ∧ l.level < 3 then
        match fld w 19 16 with
        | 2 => s.setLadder t (some { l with weights := l.weights ++ [fld w 39 24] })
        | 3 => s.setLadder t (some (s.ladderUp t.act { l with level := 2 }))
        | 0 => if bit w 15 then s.setLadder t none else s.setLadder t (some (s.ladderUp t.act l))
        | _ => s.setLadder t (some (s.ladderUp t.act l))
      else s
    | none => s) s

/-- Pop a decoder result. -/
def State.decTake (s : State) (c : CtxId) : State × DWord :=
  let (s, w) := s.decPop c
  (s.ladderResult c w, w)

def execDecoderResultPop (c : CtxId) (reg : BitVec 6) (s : State) : Out :=
  .next (
    s.byCtx c (fun s =>
      let (s, w) := s.decTake c; s.modCtx c (fun x => x.wr reg.toNat w)))

/-! ### Rows: formatter -/

/-- The predicted wedge number: AC[23:16] (R123), or the nearest wedge to the angle less 512 AU (R415). -/
def State.wedgePredict (s : State) (t : Quad) : Nat :=
  let a := angleOf (s.streamAc t)
  if s.wsc then ((angleOf (s.streamAc t - 512)) * s.wedgeCount + 8388608) / 16777216 % s.wedgeCount
  else a / 65536

/-- A wedge number that matches or differs (R82, R123). -/
def State.wedgeNumber (s : State) (t : Quad) (same : Bool) : State :=
  if same then s.modTile t (fun y => { y with wedgeRun := 0, wedgeInh := false })
  else
    let r := s.angSide t
    let s := s.modTile t (fun y => { y with wedgeRun := y.wedgeRun + 1, wedgeInh := y.wedgeInh || decide (1 ≤ y.wedgeRun) })
    let s := (s.setStat (tk t R_FMT_INTSTAT) 1).bump (tk t R_FMT_WEDGECNT) 15 0 1
    (s.setStat (rk r R_ANG_INTSTAT) 2).bump (rk r R_ANG_IDXERR) 7 0 1

/-- A track identity that matches or differs (R123, R124). -/
def State.wedgeTrack (s : State) (t : Quad) (track : BitVec 24) : State :=
  let bad := decide (track.toNat ≠ s.regF (tk t R_FMT_TRACKID) 23 0)
  let s := s.modTile t (fun y => { y with trackBad := bad })
  if s.regB (tk t R_FMT_CTL) 3 = false then s
  else
    if bad then
      let s := (s.setStat (tk t R_FMT_INTSTAT) 2).bump (tk t R_FMT_WEDGECNT) 15 0 1
      if (s.tl t).wg then (s.forceLow t true).setStat (tk t R_FMT_INTSTAT) 0 else s
    else s

/-- The PES of a legacy wedge (R415), saturated; none where a + b is 0. Which way an exact half rounds is open
(DESIGN CHOICE, log 13). -/
def wedgePes (track t0 : Nat) (a b : Nat) : Option Int :=
  if a + b = 0 then none
  else
    let d : Int := ((a + b : Nat) : Int)
    let n : Int := 8192 * ((b : Int) - a)
    let r := n % d
    let q : Int := n / d + (if d < 2 * r ∨ (2 * r = d ∧ Config.pesHalfUp a b) then 1 else 0)
    some (clampI (-32767) 32767 (16384 * ((track : Int) - t0) + q))

/-- The PES sample of the wedge tick in wedge-servo mode (R415, R419); there is no clock-track phase. -/
def State.wedgeSample (s : State) (t : Quad) (v : Wedge) (w : WedgeIn) : State :=
  let pes := if v.good then wedgePes v.track.toNat (s.regF (tk t R_FMT_TRACKID) 23 0) w.burstA w.burstB else none
  let ac := (s.ang.get (s.angSide t)).ac
  let v : DWord := BitVec.ofNat 64 (fld ac 26 11 * 2 ^ 48 + b2n pes.isNone * 2 ^ 28 + (s.free 12).toNat * 2 ^ 16 +
    (ofI 16 (pes.getD 0)).toNat)
  (s.modTile t (fun y => { y with gdcPes := v })).freeNext

/-- A wedge read (R123, R412, R415). -/
def State.wedgeRead (s : State) (t : Quad) (w : WedgeIn) : State :=
  let v := wedgeOf s.wsc w.field
  let s := if s.wsc then s.wedgeSample t v w else s
  let s :=
    if v.good = false then (s.setStat (tk t R_FMT_INTSTAT) 3).bump (tk t R_FMT_WEDGECNT) 31 16 1
    else
      let s := s.setReg (tk t R_FMT_WEDGEID) (BitVec.ofNat 32 (v.track.toNat * 256 + v.number % 256))
      (s.wedgeNumber t (v.number == s.wedgePredict t)).wedgeTrack t v.track
  s.applyInhibit (s.angSide t)

def execWedgeRead (t : Quad) (now : DWord) (w : WedgeIn) (s : State) : Out :=
  .next (
    if s.canReach (s.angSide t) now && s.regB (tk t R_FMT_CTL) 1 && (s.slotHead t).isSome then (s.reach t now).wedgeRead t w
    else s)

def execKeepoutEntry (t : Quad) (now : DWord) (s : State) : Out :=
  .next (
    if s.canReach (s.angSide t) now && (s.tl t).wg && s.inKeepout t (angleOf (s.streamAcAt t now)) then
      ((s.reach t now).forceLow t true).setStat (tk t R_FMT_INTSTAT) 0
    else s)

/-- The first match in the samples received up to now, `smps` the last of them, ends the search (R128). -/
def execSyncMatch (t : Quad) (now : DWord) (smps : List Smp) (s : State) : Out :=
  .next (
    match (s.tl t).win with
    | some w =>
      let s1 := (s.reach t now).takeSmps t smps
      let bits := ((s1.tl t).sector.map (fun x => x.run.smps.map Smp.hard)).getD []
      match (if s.canReach (s.angSide t) now && !w.found then w.search bits bits.length else none) with
      | some p => s1.syncFound t w p
      | none => s
    | none => s)

/-! ### Skip lists (R130) -/

/-- Entries that stand, and how many are ignored for starting below their predecessor. -/
def skipFilter : Nat → List DWord → List DWord × Nat
  | _, [] => ([], 0)
  | prev, e :: t =>
    let (l, n) := skipFilter (skipStart e) t
    if skipStart e < prev then (l, n + 1) else (e :: l, n)

def dwordsLE : Nat → List Byte → List DWord
  | 0, _ => []
  | n + 1, bs => BitVec.ofNat 64 (ofBytesLE (bs.take 8)) :: dwordsLE n (bs.drop 8)

/-- Bytes of a list, where a channel serves them. -/
def State.skipLoad (s : State) (r : Side) (a n : Nat) : State × Option (List Byte) :=
  match s.dramChan r a n with
  | some x => s.dramRead x a n
  | none => (s, none)

/-- No list stands. -/
def State.noSkips (s : State) (t : Quad) : State := s.modTile t (fun y => { y with skipOk := false, skipList := [], skipRead := 0 })

/-- Name a skip list for Ridge `r` (R130). A list whose bytes cannot be read is rejected like one whose header does not
match (DESIGN CHOICE, log 129). -/
def State.skipSelect (s : State) (r : Side) (t : Quad) (addr : Nat) : State :=
  let s := s.setReg (tk t R_FMT_SKIPADDR_LO) (BitVec.ofNat 32 addr)
  let s := s.setReg (tk t R_FMT_SKIPADDR_HI) (BitVec.ofNat 32 (addr / 2 ^ 32 % 65536))
  let a := addr % 2 ^ 48 / 8 * 8
  if a = 0 then s.noSkips t
  else
    match s.skipLoad r a 8 with
    | (s, none) => (s.noSkips t).setStat (tk t R_FMT_INTSTAT) 7
    | (s, some hb) =>
      let h := BitVec.ofNat 64 (ofBytesLE hb)
      let n := fld h 15 0
      if fld h 39 16 ≠ s.regF (tk t R_FMT_TRACKID) 23 0 ∨ 1024 < n then (s.noSkips t).setStat (tk t R_FMT_INTSTAT) 7
      else
        match s.skipLoad r a (8 + 8 * n) with
        | (s, none) => (s.noSkips t).setStat (tk t R_FMT_INTSTAT) 7
        | (s, some bs) =>
          let (l, bad) := skipFilter 0 (dwordsLE n (bs.drop 8))
          (s.modTile t (fun y => { y with skipOk := true, skipList := l, skipRead := n })).bump (tk t R_FMT_SKIPERR) 31 0 bad

def execSkipEntryApply (t : Quad) (now : DWord) (s : State) : Out :=
  .next (if s.canReach (s.angSide t) now then (s.reach t now).skipsDue t (s.streamAcAt t now) else s)

def execSkipListSelect (x : Accessor) (t : Quad) (addr : DWord) (s : State) : Out :=
  .next (s.tileAccess x t (fun s => s.skipSelect x.ridge t addr.toNat))

/-- Pop the oldest sector status (R133): 0 where none is posted. -/
def State.statusPop (s : State) (t : Quad) : State × DWord :=
  match (s.tl t).posted with
  | [] => (s, 0)
  | w :: rest => (s.modTile t (fun y => { y with posted := rest, ssLatch := w }), w)

/-- A context pops a status: the recovery ladder takes note. -/
def State.statusTake (s : State) (c : CtxId) (t : Quad) : State × DWord :=
  let (s, w) := s.statusPop t
  (s.ladderStatus c t w, w)

def State.statusPeek (s : State) (t : Quad) : DWord :=
  match (s.tl t).posted with
  | [] => 0
  | w :: _ => w

def execSectorStatusPop (c : CtxId) (t : Quad) (reg : BitVec 6) (s : State) : Out :=
  .next (
    s.byCtx c (fun s =>
      if s.fabricOn then (let (s, w) := s.statusTake c t; s.modCtx c (fun x => x.wr reg.toNat w))
      else s.refuseCtx c (0x40 + 8 * t.idx) 5))

/-- A descriptor word (R126): ignored for the slot of the sector in progress. -/
def State.descWrite (s : State) (t : Quad) (slot word : Nat) (data : Word) : State :=
  let busy :=
    match (s.tl t).sector with
    | some x => tagSlot x.tag == slot
    | none => false
  if busy then s.setStat (tk t R_FMT_INTSTAT) 8
  else s.modTile t (fun y => { y with desc := sp 0 y.desc (4 * slot + word) data })

def execDescriptorWordWrite (x : Accessor) (t : Quad) (slot : BitVec 6) (word : BitVec 2) (data : Word) (s : State) : Out :=
  .next (s.tileAccess x t (fun s => s.descWrite t slot.toNat word.toNat data))

def execTrackidWrite (x : Accessor) (t : Quad) (v : BitVec 24) (s : State) : Out :=
  .next (s.tileAccess x t (fun s => s.setReg (tk t R_FMT_TRACKID) (v.setWidth 32)))

/-- P_FMT_CTL_x (R137). -/
def State.fmtCtl (s : State) (t : Quad) (w : DWord) : State :=
  match fld w 63 60 with
  | 1 => s.descWrite t (fld w 57 52) (fld w 49 48) (BitVec.ofNat 32 (fld w 31 0))
  | 2 => s.setReg (tk t R_FMT_TRACKID) (BitVec.ofNat 32 (fld w 23 0))
  | _ => s

/-- A formatter command code other than 1 and 2 is ignored (R137). -/
def execFormatterCmdIgnored (x : Accessor) (t : Quad) (w : DWord) (s : State) : Out :=
  .next (s.tileAccess x t (fun s => if fld w 63 60 = 1 ∨ fld w 63 60 = 2 then s else s.fmtCtl t w))

end Sys2Proof.Machine
end

