-- ==== Sys2Proof/Machine/Energy.lean ====
section
/-!
DEFINITION. Changes of spindle state (Table 9.2), the energy ledger (R294–R297) and the speed it uses.
-/
namespace Sys2Proof.Machine

/-! ### Spindle state -/

def State.mtrInt (s : State) (i : Nat) : State := s.setStat R_MTR_INTSTAT i

/-- A fault cause latched in MTR_PDFLT (Table 9.8). -/
def State.pdflt (s : State) (i : Nat) : State := (s.setStat R_MTR_PDFLT i).mtrInt 11

/-- A change of spindle state. -/
def State.setSp (s : State) (x : Spindle) : State :=
  if s.mtr.sp = x then s else (s.modMtr (fun m => { m with sp := x })).mtrInt 0

def Mtr.allParked (m : Mtr) : Bool := decide (m.park = ⟨.parked, .parked⟩)

def Mtr.anyRetract (m : Mtr) : Bool := m.retracting.a || m.retracting.b

/-- In GEN, every actuator PARKED ends GEN in BRAKE (R206). -/
def State.genParked (s : State) : State :=
  if s.mtr.sp = .gen ∧ s.mtr.allParked then (s.modMtr (fun m => { m with pfStep := 8 })).setSp .brake else s

/-! ### Bridge, speed and currents (R188–R197, R204–R209) -/

/-- Dead time in ns: MTR_PWMCFG at the nearer limit of 50–800 (R188). -/
def State.deadTime (s : State) : Nat := clampN 50 800 (s.regF R_MTR_PWMCFG 9 0)

/-- Limit of the modulation index, Q2.14: SPUPMAX from START until the first AT_SPEED, RUNMAX after that (R188). -/
def State.modMax (s : State) : Nat :=
  min 20860 (if s.mtr.reached then s.regF R_MTR_MODCFG 31 16 else s.regF R_MTR_MODCFG 15 0)

/-- Six-step is allowed: in the spin-up phase, with MTR_CTL.SIXSTEP (R188). -/
def State.sixStep (s : State) : Bool := !s.mtr.reached && s.regB R_MTR_CTL 4

/-- ILIM in mA: SPUP until the first AT_SPEED after a START, RUN after that (R189). -/
def State.iLim (s : State) : Nat :=
  min 3500 (if s.mtr.reached then s.regF R_MTR_ILIM 31 16 else s.regF R_MTR_ILIM 15 0)

/-- STEPI and BRKI in mA (R196, R197, Table 9.5). -/
def State.stepI (s : State) : Nat := min 3500 (s.regF R_MTR_BRKCFG 31 16)

def State.brkI (s : State) : Nat := min 3500 (s.regF R_MTR_BRKCFG 15 0)

/-- Milliamperes in the scale of output 0x08, where 32,767 = 3.5 A. -/
def qScale (ma : Nat) : Nat := ma * 32767 / 3500

/-- The q-axis current command (R189, R196): the command held, within ILIM; negative only in a regenerative
step-down, and there within STEPI. -/
def State.qCommand (s : State) : Int :=
  let lo : Nat := if s.mtr.sp = .step ∧ s.mtr.shortBrake = false then min s.stepI s.iLim else 0
  clampI (-(qScale lo : Int)) (qScale s.iLim) s.mtr.qCmd.toInt

/-- What the power die makes the spindle bridge do. Currents in mA, `foc` in the scale of output 0x08. -/
inductive Bridge where
  | off
  /-- All low-side FETs on (R201). -/
  | clamped
  | shorted (limit : Nat)
  | pulses (width space : Nat)
  | vector (limit : Nat)
  | preset
  | foc (q : Int) (modMax dead : Nat) (sixStep : Bool)
  /-- Regulated voltage in mV, loop bandwidth in Hz and, in conservative mode, the current limit (R204, R205). -/
  | rectifier (vreg bandwidth : Nat) (limit : Option Nat)
deriving DecidableEq, Repr

/-- The bridge in each spindle state (Table 9.2). -/
def State.bridge (s : State) : Bridge :=
  if s.mtr.clamp then .clamped
  else
    match s.mtr.sp with
    | .off => .off
    | .probe => .off
    | .revbrk => .shorted s.brkI
    | .ipd => .pulses (max 1 (s.regF R_MTR_IPDCFG 23 16)) (max 1 (s.regF R_MTR_IPDCFG 15 0))
    | .kick => .vector (min 3500 (s.regF R_MTR_ILIM 15 0))
    | .catching => .preset
    | .run => .foc s.qCommand s.modMax s.deadTime s.sixStep
    | .step => if s.mtr.shortBrake then .shorted s.brkI else .foc s.qCommand s.modMax s.deadTime s.sixStep
    | .brake => .shorted s.brkI
    | .gen =>
      .rectifier (s.regF R_MTR_PFCFG 15 0) (if s.mtr.cons then 200 else 2000) (if s.mtr.cons then some 2500 else none)
    | .retract => .off
    | .fault => .off

/-- Retract parameters in the power die: RETVEL in mV, RETI in mA, RETT in ms (R209, Table 9.5). -/
def Mtr.retVel (m : Mtr) : Nat := max 1 (fld m.retCfg 31 16)

def Mtr.retI (m : Mtr) : Nat := 10 * max 1 (fld m.retCfg 15 8)

def Mtr.retT (m : Mtr) : Nat := 10 * max 1 (fld m.retCfg 7 0)

/-- The actuator is enabled by MTR_VCCTL; both motors stay off in recovery-only mode and after a LIMITED boot (R388,
R404). -/
def State.vcOn (s : State) (a : Side) : Bool :=
  s.regB R_MTR_VCCTL a.idx && decide (s.rcp.phase ≠ .recovery) && !s.rcp.limited

/-- Coil current as measured, 32,767 = 1.6 A: none while disabled without a retract, within RETI in a retract (R208,
R209). -/
def State.coilCurrent (s : State) (a : Side) (measured : Int) : Int :=
  if s.mtr.retracting.get a then
    let l : Int := s.mtr.retI * 32767 / 1600
    clampI (-l) l measured
  else if s.vcOn a then measured
  else 0

/-- The speed of MTR_SPEED is within `pct` per cent of the target in force. -/
def State.nearTarget (s : State) (pct : Nat) : Bool :=
  let v := s.regF R_MTR_SPEED 15 0
  s.mtr.obsValid && !s.regB R_MTR_SPEED 31 &&
    decide (100 * v ≤ (100 + pct) * s.mtr.target ∧ (100 - pct) * s.mtr.target ≤ 100 * v)

/-- The speed is below `per` thousandths of the target; below the observer's range it is (R191). -/
def State.slowerThan (s : State) (per : Nat) : Bool :=
  !s.mtr.obsValid || decide (1000 * s.regF R_MTR_SPEED 15 0 < per * s.mtr.target)

/-- A spindle tick counts toward AT_SPEED (R194). -/
def State.bandCount (s : State) : State :=
  let near := s.nearTarget 1
  s.modMtr (fun m => { m with inBand := if near then min 64 (m.inBand + 1) else 0 })

/-! ### Energy -/

/-- MTR_TARGET with values outside 5,400–10,000 rpm at the nearer limit (R196). -/
def State.targetReg (s : State) : Nat := clampN 5400 10000 (s.regF R_MTR_TARGET 15 0)

/-- Speed in AU per µs, Q16.16: of the synthesizer, or of the observer in OBSERVER (Table 8.6). -/
def State.speedWord (s : State) (r : Side) : Word :=
  if (s.an r).src = .observer then BitVec.ofNat 32 (s.regF R_MTR_SPEED 15 0 * 1099511627776 / 60000000)
  else s.reg (rk r R_ANG_RATE)

/-- Speed in rpm, rounded down. -/
def State.speedRpm (s : State) (r : Side) : Nat := (s.speedWord r).toNat * 60000000 / 1099511627776

/-- π² in units of 10⁻³⁷. -/
def piSquared : Nat := 98696044010893586188344909998761511353

/-- The Ridge whose synthesizer and leases serve the spindle: its holder, and A while none holds it. -/
def State.spinSide (s : State) : Side := s.rlg.spindle.getD .a

/-- E_fixed and the flush rate; a rate above 80 or an E_fixed below 1,900 is the default (Table 16.7). -/
def State.eFixed (s : State) : Nat := let v := s.regF R_RLG_EFIX 15 0; if v < 1900 then 1900 else v

def State.flushRate (s : State) : Nat := let v := s.regF R_RLG_EFIX 31 16; if 80 < v then 80 else v

/-- Flush power plus windage, in 0.1 W. -/
def State.flushPower (s : State) : Nat := max 160 (s.regF R_RLG_EPWR 31 16) + max 80 (s.regF R_RLG_EPWR 15 0)

/-- E_avail in mJ (R294): ω is the lesser of the measured speed and the target, ω_min 75 % of the target. -/
def State.energyAvail (s : State) (r : Side) : Nat :=
  if (s.an r).src = .none then 0
  else
    let d := 1099511627776
    let t := s.targetReg * d
    let w := 4 * min ((s.speedWord r).toNat * 60000000) t
    let m := 3 * t
    if w < m then 0
    else
      let eta := if s.mtr.regenOk then 85 else 50
      s.regF R_RLG_JCUR 15 0 * piSquared * (w * w - m * m) * eta / (1800000000 * 10 ^ 37 * 16 * d * d) - s.eFixed

/-- E_flush in mJ, rounded up, of `w` bytes on the fuller actuator (R295). -/
def State.energyFlush (s : State) (w : Nat) : Nat :=
  if s.flushRate = 0 then (if w = 0 then 0 else 0xFFFFFFFF)
  else (s.flushPower * 100 * w + (s.flushRate * 10000000 - 1)) / (s.flushRate * 10000000)

/-- User bytes held in the window bound for an actuator: the amounts of its WIN leases (R295, R346). -/
def State.winHeld (s : State) (a : Side) : Nat :=
  ((s.rlg.leases.filter (fun l => decide (l.pool = 1 ∧ l.inst = a.idx))).map Lease.amount).sum

def State.winMax (s : State) : Nat := max (s.winHeld .a) (s.winHeld .b)

/-- Ledger-short status (R297): no grant while it holds, and event 0x0511 when it begins. -/
def State.energyShort (s : State) : State :=
  let short := decide (s.rlg.eAvail < s.energyFlush s.winMax)
  let was := s.rlg.short
  let s := s.modRlg (fun l => { l with short := short })
  if short && !was then (s.setStat R_RLG_INTSTAT 6).event 0x0511 (srcBlock R_RLG_ID)
    [(0, BitVec.ofNat 32 s.rlg.eAvail), (1, BitVec.ofNat 32 (s.energyFlush s.winMax))] else s

/-- The ledger at a spindle tick of the Ridge that serves the spindle. -/
def State.energyTick (s : State) (r : Side) : State :=
  if s.spinSide = r then ((s.bandCount).modRlg (fun l => { l with eAvail := s.energyAvail r })).energyShort else s

end Sys2Proof.Machine
end

