-- ==== Sys2Proof/Machine/Servo.lean ====
section
/-!
DEFINITION. Sample ticks (R84, R93, R162) and the servo control engine (R163–R184).
-/
namespace Sys2Proof.Machine

def State.ce (s : State) (r : Side) : Cen := s.cen.get r

def State.cenUp (s : State) (r : Side) : Bool := s.domOn (50 + r.idx) && s.ridgeLive r

def State.cenInt (s : State) (r : Side) (i : Nat) : State := s.setStat (rk r R_CEN_INTSTAT) i

/-! ### Numbers (R168) -/

/-- Saturation to 32 bits, and whether it limited. -/
def sat32 (x : Int) : Int × Bool := let y := satI 32 x; (y, decide (y ≠ x))

/-- Rounding, arithmetic shift and saturation of an exact sum. -/
def roundSat (x : Int) (sh : Nat) : Int × Bool :=
  sat32 ((x + (if 0 < sh then 2 ^ (sh - 1) else 0)) / 2 ^ sh)

/-- clamp(v, lo, hi) = min(max(v, lo), hi) (R166). -/
def clampC (v lo hi : Int) : Int := min (max v lo) hi

/-! ### Nodes (R171) -/

def State.modeOf (s : State) (r x : Side) : ServoMode := (s.ce r).modes.get x

/-- What the engine writes to a system node at a tick (Table 8.5). -/
def State.sysNode (s : State) (r : Side) (n : Nat) : Word :=
  let a := s.modeOf r .a
  let b := s.modeOf r .b
  match n with
  | 1 => BitVec.ofNat 32 a.mode
  | 2 => BitVec.ofNat 32 b.mode
  | 3 => BitVec.ofNat 32 a.pmode
  | 4 => BitVec.ofNat 32 b.pmode
  | 5 => BitVec.ofNat 32 (b2n a.sw)
  | 6 => BitVec.ofNat 32 (b2n b.sw)
  | 7 => BitVec.ofNat 32 (s.ce r).band
  | 8 => s.reg (rk r R_ANG_RATE)
  | 9 => a.rem
  | 10 => a.vel
  | 11 => a.acc
  | 12 => b.rem
  | 13 => b.vel
  | 14 => b.acc
  | _ => 0

/-- The system nodes as of now (R171). -/
def State.writeSys (s : State) (r : Side) : State :=
  (List.range 14).foldl (fun (s : State) i =>
    let v := s.sysNode r (i + 1)
    s.modCen r (fun e => { e with nodes := sp 0 e.nodes (i + 1) v })) s

/-- A node: its value and stale bit. -/
def State.node (s : State) (r : Side) (n : Nat) : Word × Bool :=
  let n := n % 4096
  (sg 0 (s.ce r).nodes n, sg false (s.ce r).stale n)

/-- Write a node; a system node keeps its value (R165; for a firmware write, DESIGN CHOICE, log 131). -/
def State.putNode (s : State) (r : Side) (n : Nat) (v : Word) (st : Bool) : State :=
  let n := n % 4096
  if n < 64 then s
  else s.modCen r (fun e => { e with nodes := sp 0 e.nodes n v, stale := sp false e.stale n st })

def State.markStale (s : State) (r : Side) (n : Nat) : State :=
  let n := n % 4096
  if n < 64 then s else s.modCen r (fun e => { e with stale := sp false e.stale n true })

def State.coef (s : State) (r : Side) (k : Nat) : Int := (sg 0 (s.ce r).coefs (k % 8192)).toInt

def State.shift (s : State) (r : Side) (k : Nat) : Nat := (sg 0 (s.ce r).shifts (k % 8192)).toNat

/-! ### Inputs (Table 8.6) -/

/-- MTR_VCRES is held while it is measured (KIND 0x04): the estimate it feeds is stale (R215). -/
def State.resHold (s : State) (a : Side) : Bool :=
  s.mon.calRuns.any (fun x => x.kind == 4 && sideOf x.target == a && x.measuring)

/-- The voice-coil command in force; a calibration window keeps the last PWM duty (R222). -/
def State.coilCommand (s : State) (a : Side) : BitVec 16 :=
  if s.vcOn a then (s.mtr.duty.get a).getD (s.mtr.vcCmd.get a) else 0

/-- The back-EMF velocity estimate (R208): coil voltage in mV less current times MTR_VCRES, exact in units of
1/32,767,000 mV; the spec does not state the scale of the input (DESIGN CHOICE, log 134). -/
def State.backEmf (s : State) (a : Side) (volt cur : BitVec 16) : Word :=
  Config.emfScale (volt.toInt * 32767000 - cur.toInt * 1600 * ((s.regF (R_MTR_VCRES + 4 * a.idx) 15 0 : Nat) : Int))

/-- The PES inputs of a stream are stale: flagged, unbound, or older than two tick spacings. -/
def State.pesStale (s : State) (r : Side) (t : Quad) : Bool :=
  let w := (s.tl t).gdcPes
  let now := fld (s.an r).ac 26 11
  let age := (now + 65536 - fld w 63 48) % 65536
  let two := if s.wsc then 2 * 8192 / atLeast1 s.rcp.wscN else 2
  bit w 28 || (s.slotHead t).isNone || decide (two < age) || (s.wsc && decide (t.slot = .b))

def State.input (s : State) (r : Side) (inp : PassIn) (p : Nat) : Word × Bool :=
  let noLink := !s.mtr.linkUp
  if p < 4 then (ofI 32 (sfld (s.tl (quadOf p)).gdcPes 15 0), s.pesStale r (quadOf p))
  else if p = 8 ∨ p = 9 then
    (ofI 32 (inp.vcCur.get (sideOf p)).toInt, noLink || s.mon.vcOpen.get (sideOf p))
  else if p = 10 ∨ p = 11 then (s.backEmf (sideOf p) (inp.vcVolt.get (sideOf p)) (inp.vcCur.get (sideOf p)), noLink || s.resHold (sideOf p))
  else if p = 12 then (s.speedWord r, decide ((s.an r).src = .none))
  else if 16 ≤ p ∧ p < 20 then (inp.guideVel.get (quadOf p), s.wsc || s.pesStale r (quadOf p))
  else (0, true)

/-! ### Outputs (R172, R174, R181, R182) -/

/-- The actuator of a destination of Table 8.7, none for the spindle. -/
def destAct (d : Nat) : Option Side :=
  match d with
  | 1 => some .a
  | 2 => some .b
  | 4 => some .a
  | 5 => some .a
  | 6 => some .b
  | 7 => some .b
  | _ => none

def isDest (d : Nat) : Bool := (destAct d).isSome || d == 8

/-- The Ridge holds the destination's lease. -/
def State.destLease (s : State) (r : Side) (d : Nat) : Bool :=
  match destAct d with
  | some x => s.ownsLink r x
  | none => decide (s.rlg.spindle = some r)

def State.destIdle (s : State) (r : Side) (d : Nat) : Bool :=
  match destAct d with
  | some x => (s.modeOf r x).mode == 0
  | none => false

/-- A voice-coil command reaches the power die over the link, for an actuator that MTR_VCCTL enables (R8, R208). -/
def State.coil (s : State) (a : Side) (v : BitVec 16) : State :=
  if s.mtr.linkUp && s.vcOn a then s.modMtr (fun m => { m with vcCmd := m.vcCmd.set a v }) else s

/-- Hand a value to the hardware behind a destination; a microactuator command waits for its tick (R162). -/
def State.toDest (s : State) (d : Nat) (v : BitVec 16) : State :=
  match d with
  | 1 => s.coil .a v
  | 2 => s.coil .b v
  | 8 => if s.mtr.linkUp then s.modMtr (fun m => { m with qCmd := v }) else s
  | _ => s

/-- Compare a driven output with the peer's node for the same destination and tick (R182). -/
def State.crossCheck (s : State) (r : Side) (d : Nat) : State :=
  match sg none (s.ce r).outs d, sg none (s.ce r.peer).outs d with
  | some a, some b =>
    if a.tick = b.tick ∧ s.regB (rk r R_CEN_CTL) 4 ∧ s.ridgeSt r = .inService ∧ s.ridgeSt r.peer = .inService then
      if s.regF (rk r R_CEN_XCHK) 15 0 < (a.value.toInt - b.value.toInt).natAbs then
        (s.bump (rk r R_CEN_XCHK) 31 16 1).modCen r (fun e => { e with xRun := e.xRun + 1 })
      else s.modCen r (fun e => { e with xRun := 0 })
    else s
  | _, _ => s

/-- An OUT (R172, R174): the value it sends at the tick of its pass. -/
def State.outDrive (s : State) (r : Side) (d : Nat) (v : Word) (stale : Bool) (tick : DWord) : State :=
  if !isDest d then s
  else
    let s := s.modCen r (fun e => { e with outs := sp none e.outs d (some ⟨v, stale, tick⟩) })
    let s :=
      if stale then s.modCen r (fun e => { e with hold := sp false e.hold d true })
      else
        let s := s.modCen r (fun e => { e with hold := sp false e.hold d false, driven := sp 0 e.driven d v })
        if s.destLease r d then s.toDest d (v.setWidth 16) else s
    let s := if s.destLease r d then s.crossCheck r d else s
    if s.destLease r.peer d then s.crossCheck r.peer d else s

/-! ### Trace buffers (R184) -/

def State.modTrace (s : State) (r : Side) (k : Quad) (f : Trace → Trace) : State :=
  s.modCen r (fun e => { e with traces := e.traces.set k (f (e.traces.get k)) })

/-- The trigger of a buffer holds (Table 8.11); the second value is whether the node lies above the threshold. -/
def State.trigger (s : State) (r : Side) (x : Trace) : Bool × Bool :=
  let n := fld x.cfg 26 15
  let v := (s.node r n).1.toInt
  let th := (s.node r (n + 1)).1.toInt
  let above := decide (th < v)
  let hit :=
    match fld x.cfg 29 27 with
    | 1 => above
    | 2 => decide (v < th)
    | 3 => above && decide (x.above = some false)
    | 4 => (s.modeOf r .a).sw
    | 5 => (s.modeOf r .b).sw
    | 6 => x.newSat
    | 7 => !(s.ce r).hold.isEmpty
    | _ => false
  (hit || x.force, above)

def State.traceAppend (s : State) (r : Side) (k : Quad) (v : Word) : State :=
  let x := (s.ce r).traces.get k
  if !s.domOn 54 || !(x.st == 1 || x.st == 2) then s
  else
    let (hit, above) := s.trigger r x
    let y := { x with
      words := sp 0 x.words x.wr v
      wr := (x.wr + 1) % 16384
      full := x.full || x.wr == 16383
      above := some above
      newSat := false }
    let post := min 16383 (fld x.cfg 14 0)
    let y :=
      if x.st = 1 then
        if hit then { y with trigIdx := x.wr, force := false, left := post, st := if post = 0 then 3 else 2 } else y
      else { y with left := x.left - 1, st := if x.left ≤ 1 then 3 else 2 }
    let s := s.modTrace r k (fun _ => y)
    if y.st = 3 then s.cenInt r 8 else s

/-! ### Blocks (Table 8.3) -/

/-- A block's cycles. -/
def blockCycles (opc : Nat) : Nat :=
  match opc with
  | 6 => 3
  | 7 => 5
  | 8 => 2
  | 13 => 2
  | _ => 1

/-- Set a descriptor's SAT flag (R169). -/
def State.setSat (s : State) (r : Side) (i : Nat) (lim : Bool) : State :=
  if lim && !(sg false (s.ce r).sat i) then
    let s := if (s.ce r).sat.isEmpty then s.cenInt r 7 else s
    s.modCen r (fun e => { e with sat := sp false e.sat i true, traces := e.traces.map (fun x => { x with newSat := true }) })
  else s

/-- A stateless block: result and limit, stale where a source is (R173). -/
def State.plain (s : State) (r : Side) (i dst : Nat) (v : Int × Bool) (stale : Bool) : State :=
  (s.putNode r dst (ofI 32 v.1) stale).setSat r i v.2

/-- A sum in the 72-bit accumulator (R165); past its range it wraps (DESIGN CHOICE, log 130). -/
def acc72 (x : Int) : Int := (ofI 72 x).toInt

/-- What an OUT sends (R172, R174): 0 in IDLE, the last fresh value while the source is stale, else the source narrowed
to 16 bits; and whether the narrowing limited it. With no destination the source itself. -/
def State.outValue (s : State) (r : Side) (p : Nat) (a : Int) (stale : Bool) : Int × Bool :=
  if p = 0 then (a, false)
  else if s.destIdle r p then (0, false)
  else if stale then ((sg 0 (s.ce r).driven p).toInt, false)
  else (satI 16 a, decide (satI 16 a ≠ a))

/-- Run descriptor `i`; `pre` lists the nodes preset in this pass, `tick` is the AC of its tick. -/
def State.block (s : State) (r : Side) (i : Nat) (inp : PassIn) (tick : DWord) (pre : List Nat) : State × List Nat :=
  let w0 := sg 0 (s.ce r).descs (4 * i)
  let w1 := sg 0 (s.ce r).descs (4 * i + 1)
  let w2 := sg 0 (s.ce r).descs (4 * i + 2)
  let d := fld w0 23 12
  let p := fld w1 31 24
  let k := fld w2 12 0
  let (av, aS) := s.node r (fld w0 11 0)
  let (bv, bS) := s.node r (fld w1 11 0)
  let (xv, xS) := s.node r (fld w1 23 12)
  let (dv, _) := s.node r d
  let a := av.toInt
  let b := bv.toInt
  let x := xv.toInt
  let c (j : Nat) : Int := s.coef r (k + j)
  let sh := s.shift r k
  match fld w0 31 27 with
  | 0 => (s, pre)
  | 1 => let (v, st) := s.input r inp p; (s.putNode r d v st, pre)
  | 2 =>
    let p := if isDest p then p else 0
    let n := s.outValue r p a aS
    ((s.plain r i d n aS).outDrive r p (ofI 32 n.1) (aS && !s.destIdle r p) tick, pre)
  | 3 => (s.plain r i d (sat32 (a + b)) (aS || bS), pre)
  | 4 => (s.plain r i d (sat32 (a - b)) (aS || bS), pre)
  | 5 => (s.plain r i d (roundSat (a * c 0) sh) aS, pre)
  | 6 => (s.plain r i d (roundSat (a * c 0 + b * c 1 + x * c 2) sh) (aS || bS || xS), pre)
  | 7 =>
    let (z2v, z2S) := s.node r (fld w1 11 0 + 1)
    if xS || bS || z2S then (s.markStale r d, pre)
    else
      let y := roundSat (acc72 (c 0 * x + b * 2 ^ sh)) sh
      let z1 := roundSat (acc72 (c 1 * x - c 3 * y.1 + z2v.toInt * 2 ^ sh)) sh
      let z2 := roundSat (acc72 (c 2 * x - c 4 * y.1)) sh
      let s := s.putNode r (fld w1 11 0) (ofI 32 z1.1) false
      let s := s.putNode r (fld w1 11 0 + 1) (ofI 32 z2.1) false
      (s.plain r i d (y.1, y.2 || z1.2 || z2.2) false, pre)
  | 8 =>
    if aS then (s.markStale r d, pre)
    else
      let q := if pre.contains d then (0, false) else roundSat (a * c 0) sh
      let v := clampC (dv.toInt + q.1) (c 1) (c 2)
      (s.plain r i d (v, q.2 || decide (v ≠ dv.toInt + q.1)) false, pre)
  | 9 => let v := clampC a (c 0) (c 1); (s.plain r i d (v, decide (v ≠ a)) aS, pre)
  | 10 =>
    if aS then (s.markStale r d, pre)
    else
      let m : Int := (c 0).natAbs
      let e := clampC (a - dv.toInt) (-m) m
      let q := sat32 (dv.toInt + e)
      (s.plain r i d (q.1, q.2 || decide (e ≠ a - dv.toInt)) false, pre)
  | 11 =>
    let t := decide (x = (BitVec.ofNat 8 p).toInt)
    (s.plain r i d (if t then a else b, false) (xS || (if t then aS else bS)), pre)
  | 12 =>
    if x = 0 ∨ aS ∨ bS then (s, pre)
    else (s.plain r i d (sat32 (a - b)) xS, d :: pre)
  | 13 =>
    if aS || bS then (s.markStale r d, pre)
    else
      let q := sat32 (a - b)
      let v := roundSat (q.1 * c 0) sh
      let s := s.plain r i d (v.1, q.2 || v.2) false
      (s.putNode r (fld w1 11 0) av false, pre)
  | 14 => (s.traceAppend r (quadOf p) av, pre)
  | _ =>
    let s := s.modReg (rk r R_CEN_FLT) (fun w => putFld (setBit w 3) 31 22 i)
    (s.cenInt r 0, pre)

/-- Up to `n` blocks of a pass, in index order (R163, R165). -/
def State.blocks (s : State) (r : Side) (inp : PassIn) (tick : DWord) : Nat → PassRun → State × PassRun
  | 0, p => (s, p)
  | n + 1, p =>
    match p.left with
    | [] => (s, p)
    | i :: rest =>
      let k := blockCycles (fld (sg 0 (s.ce r).descs (4 * i)) 31 27)
      let (s, pre) := s.block r i inp tick p.preset
      s.blocks r inp tick n ⟨rest, pre, p.cycles + k⟩

/-- The descriptors of task `q`; a range that runs past 1,023 ends there. -/
def State.taskRange (s : State) (r : Side) (q : Quad) : List Nat :=
  let w := s.reg (rk r (R_CEN_TASK + 4 * q.idx))
  let st := fld w 25 16
  (List.range (min (min 1024 (fld w 10 0)) (1024 - st))).map (fun i => st + i)

def quadsBelow (q : Quad) : List Quad := Quad.all.filter (fun p => decide (p.idx < q.idx))

/-- Passes of higher-numbered tasks that have started spend these cycles preempted (R164). -/
def addWait (q : Quad) (cyc : Nat) (p : Four (Option PassRun)) : Four (Option PassRun) :=
  Quad.all.foldl (fun (p : Four (Option PassRun)) k =>
    if q.idx < k.idx then p.set k ((p.get k).map (fun x => { x with cycles := x.cycles + cyc })) else p) p

/-- The pass has run to its last descriptor: its cycles, and the tick that was held starts the next one (R164). -/
def State.passEnd (s : State) (r : Side) (q : Quad) (cyc : Nat) : State :=
  let n := min 0xFFFF cyc
  let s := s.modReg (rk r (R_CEN_TASKLOAD + 4 * q.idx)) (fun w => BitVec.ofNat 32 (max (fld w 31 16) n * 65536 + n))
  let go := s.regB (rk r R_CEN_CTL) 0
  s.modCen r (fun e =>
    { e with
      pass := e.pass.set q none
      due := e.due.set q (e.held.get q && go)
      held := e.held.set q false
      tickAc := if e.held.get q then e.tickAc.set q (e.heldAc.get q) else e.tickAc })

/-- Up to `n` blocks of the pass of task `q`, which starts if it has not; between two blocks anything else may happen,
the pass of a lower-numbered task first (R163, R167). -/
def State.runPass (s : State) (r : Side) (q : Quad) (n : Nat) (inp : PassIn) : State :=
  let p := ((s.ce r).pass.get q).getD ⟨s.taskRange r q, [], 0⟩
  let (s, p') := s.blocks r inp ((s.ce r).tickAc.get q) n p
  let s := s.modCen r (fun e => { e with pass := (addWait q (p'.cycles - p.cycles) e.pass).set q (some p') })
  if p'.left.isEmpty then s.passEnd r q p'.cycles else s

/-- A pass of the task may run now: due, started or allowed to start, no lower task due, no node copy, no mode switch
due first (R163, R176, R183, Table 8.10). -/
def State.passReady (s : State) (r : Side) (q : Quad) : Bool :=
  let e := s.ce r
  s.cenUp r && e.due.get q && (s.regB (rk r R_CEN_CTL) 0 || (e.pass.get q).isSome) &&
    !((quadsBelow q).any (fun p => e.due.get p && (s.regB (rk r R_CEN_CTL) 0 || (e.pass.get p).isSome))) &&
    decide (e.sync ≠ .copying) && !s.switchDue r .a && !s.switchDue r .b

def execTaskPass (r : Side) (q : Quad) (blocks : Nat) (inp : PassIn) (s : State) : Out :=
  .next (if s.passReady r q then s.runPass r q blocks inp else s)

/-! ### Coefficient ramps (R178–R180) -/

/-- The value of an entry at step `k` of `n`. -/
def rampAt (v0 vT : Word) (k n : Nat) : Word :=
  ofI 32 (v0.toInt + ((vT.toInt - v0.toInt) * k + ((n / 2 : Nat) : Int)) / n)

/-- Write the entries of a ramp at its step. -/
def rampWrite (m : Sparse Word) (dest k n : Nat) : List Word → List Word → Sparse Word
  | v :: vs, t :: ts => rampWrite (sp 0 m (dest % 8192) (rampAt v t k n)) (dest + 1) k n vs ts
  | _, _ => m

/-- One step: the coefficients, and the ramp while it goes on. -/
def rampStep (m : Sparse Word) (x : Ramp) : Sparse Word × Option Ramp :=
  (rampWrite m x.dest (x.k + 1) x.steps x.v0 x.vT,
    if x.k + 1 < x.steps then some { x with k := x.k + 1 } else none)

def Cen.coefList (e : Cen) (k n : Nat) : List Word := (List.range n).map (fun i => sg 0 e.coefs ((k + i) % 8192))

/-- Two ranges of entries have one in common; entry indices are modulo 8,192. -/
def overlap (a m b n : Nat) : Bool := (List.range m).any (fun i => decide ((a + i + 8192 - b % 8192) % 8192 < n))

def State.bandLen (s : State) (r : Side) : Nat := min 512 (s.regF (rk r R_CEN_BANDCTL) 19 10)

/-- An entry that a running ramp writes. -/
def State.rampHas (s : State) (r : Side) (k : Nat) : Bool :=
  (List.range 8).any (fun i =>
    match (sg RampCh.default (s.ce r).ramps i).run with
    | some x => (List.range x.count).any (fun j => (x.dest + j) % 8192 == k)
    | none => false) ||
  ((s.ce r).bandRamp.isSome && decide (k < s.bandLen r))

/-- GO of a ramp channel (R178, R179). -/
def State.rampGo (s : State) (r : Side) (ch : Nat) (data : Word) : State :=
  let e := s.ce r
  let x := sg RampCh.default e.ramps ch
  let dest := fld x.cfg 28 16 % 8192
  let n := clampN 1 64 (fld x.cfg 6 0)
  let src := fld data 25 13
  let steps := if fld data 11 0 = 0 then 4096 else fld data 11 0
  let x := { x with ctl := data &&& 0x0FFFEFFF#32 }
  let shiftBad := (List.range n).any (fun i => s.shift r (dest + i) != s.shift r (src + i))
  let clash := (List.range 8).any (fun i =>
      match (sg RampCh.default e.ramps i).run with
      | some y => overlap dest n y.dest y.count
      | none => false) ||
    (e.bandRamp.isSome && overlap dest n 0 (s.bandLen r))
  if shiftBad || clash then
    (s.modCen r (fun e => { e with ramps := sp RampCh.default e.ramps ch { x with err := true } })).cenInt r 5
  else
    let run : Ramp := ⟨dest, n, fld data 27 26, steps, 0, e.coefList dest n, e.coefList src n⟩
    let y := { x with err := false, cancel := false, run := some run }
    s.modCen r (fun e => { e with ramps := sp RampCh.default e.ramps ch y })

def execRampGo (r : Side) (data : Word) (s : State) : Out :=
  .next (if s.cenUp r then s.rampGo r (s.regF (rk r R_CEN_RAMPSEL) 2 0) data else s)

/-- Step the ramps of a series at its tick, before any pass. -/
def State.rampTick (s : State) (r : Side) (q : Quad) : State :=
  let one (s : State) (i : Nat) : State :=
    let x := sg RampCh.default (s.ce r).ramps i
    match x.run with
    | some y =>
      if y.series = q.idx then
        let (m, nxt) := rampStep (s.ce r).coefs y
        let s := s.modCen r (fun e => { e with coefs := m, ramps := sp RampCh.default e.ramps i { x with run := nxt } })
        if nxt.isNone then s.cenInt r 4 else s
      else s
    | none => s
  let s := (List.range 8).foldl one s
  match q, (s.ce r).bandRamp with
  | .q2, some y =>
    let (m, nxt) := rampStep (s.ce r).coefs y
    let s := s.modCen r (fun e => { e with coefs := m, bandRamp := nxt })
    if nxt.isNone then s.cenInt r 4 else s
  | _, _ => s

/-! ### Speed bands (R180) -/

def State.bandTh (s : State) (r : Side) (b : Nat) : Nat := s.regF (rk r (R_CEN_BAND + 4 * b)) 15 0

/-- The band at a speed in rpm. -/
def State.bandAt (s : State) (r : Side) (rpm : Nat) : Nat :=
  let n := s.regF (rk r R_CEN_BANDCTL) 6 4
  let cur := (s.ce r).band
  let up := (List.range n).foldl (fun b i => if s.bandTh r (i + 1) ≤ rpm then i + 1 else b) 0
  if cur < up then up
  else (List.range cur).foldl (fun b _ => if 0 < b ∧ 100 * rpm < 99 * s.bandTh r b then b - 1 else b) cur

/-- Stop the channels that overlap the live band region. -/
def State.bandCancel (s : State) (r : Side) : State :=
  (List.range 8).foldl (fun s i =>
    let x := sg RampCh.default (s.ce r).ramps i
    match x.run with
    | some y =>
      if overlap y.dest y.count 0 (s.bandLen r) then
        (s.modCen r (fun e => { e with ramps := sp RampCh.default e.ramps i { x with run := none, cancel := true } })).cenInt r 5
      else s
    | none => s) s

/-- The band is evaluated at a spindle tick; with a stale speed it is held. -/
def State.bandTick (s : State) (r : Side) : State :=
  if s.regF (rk r R_CEN_BANDCTL) 6 4 = 0 ∨ (s.an r).src = .none then s
  else
    let b := s.bandAt r (s.speedRpm r)
    if b = (s.ce r).band then s
    else
      let s := (s.modCen r (fun e => { e with band := b })).cenInt r 3
      let n := s.bandLen r
      if n = 0 then s
      else
        let s := s.bandCancel r
        let src := s.regF (rk r (R_CEN_BAND + 4 * b)) 28 16
        let steps := atLeast1 (s.regF (rk r R_CEN_BANDCTL) 31 20)
        s.modCen r (fun e => { e with bandRamp := some ⟨0, n, 2, steps, 0, e.coefList 0 n, e.coefList src n⟩ })

/-! ### Modes and seeks (R175–R177) -/

/-- Table 8.8. -/
def modeAllowed (cur nxt : Nat) : Bool :=
  match cur with
  | 0 => nxt == 1
  | 1 => nxt == 3 || nxt == 5
  | 2 => nxt == 3 || nxt == 5
  | 3 => nxt == 4 || nxt == 2 || nxt == 5
  | 4 => nxt == 2 || nxt == 3 || nxt == 5
  | 5 => nxt == 0
  | _ => false

def State.modMode (s : State) (r x : Side) (f : ServoMode → ServoMode) : State :=
  s.modCen r (fun e => { e with modes := e.modes.set x (f (e.modes.get x)) })

/-- A request for a mode of an actuator, with the seek word that asks for it; mirrored to the peer engine. -/
def State.modeReq (s : State) (r x : Side) (mode : Nat) (sk : Option DWord) : State :=
  let m := s.modeOf r x
  if modeAllowed m.mode mode then
    let due : DWord := (s.an r).ac + 512
    let last : Option Nat := if sk.isSome then none else some mode
    let s := s.modMode r x (fun m => { m with pend := some (mode, due, sk), rej := false, last := last })
    let s := s.modMode r.peer x (fun m => { m with pend := some (mode, due, sk), last := last })
    s.modCen r (fun e => { e with modeDone := false, seekDone := e.seekDone && sk.isNone })
  else
    let s := s.modMode r x (fun m => { m with rej := true })
    (s.modCen r (fun e => { e with modeDone := true })).cenInt r 1

/-- P_CEN_MODE (R176): repeating the current request has no effect (Table 3.6): the last request taken, while it is
pending or its mode is in force (DEDUCED, log 63). -/
def State.modeRequest (s : State) (c : CtxId) (data : DWord) : State :=
  let x := sideOf (fld data 8 8)
  let m := s.modeOf c.ridge x
  let mode := fld data 2 0
  if s.cenUp c.ridge = false then s.refuseCtx c 0xA4 5
  else if s.ownsLink c.ridge x = false then s.refuseCtx c 0xA4 2
  else if m.last = some mode ∧ (m.pend.map (fun p => p.1)).getD m.mode = mode then s
  else s.modeReq c.ridge x mode none

def execModeRequest (c : CtxId) (data : DWord) (s : State) : Out :=
  .next (
    s.byCtx c (fun s =>
      s.modeRequest c data))

/-- Start a seek from its word (R177). -/
def seekOf (w : DWord) : Seek where
  neg := bit w 31
  r := (sfld w 31 0).natAbs * 256
  v := 0
  samples := 0
  endSettle := bit w 62
  prof := fld w 59 56

/-- The mode of an actuator changes in one engine: MODE, PMODE and SW are written; the power die's park state follows
(R176, R187). -/
def State.setMode (s : State) (r x : Side) (mode : Nat) : State :=
  let old := (s.modeOf r x).mode
  let now := (s.an r).lastTick.get .q2
  let s := (s.modMode r x (fun m => { m with mode := mode, pmode := old, sw := true, swAc := now })).writeSys r
  let s := if mode = 1 then s.modMtr (fun m => { m with park := m.park.set x .loaded })
           else if mode = 0 ∧ old = 5 then s.modMtr (fun m => { m with park := m.park.set x .parked }) else s
  if mode = 0 ∧ s.ownsLink r x then s.coil x 0 else s

/-- A request is applied: its mode, and the seek that it asks for; another mode ends a seek and drops the one pending.
-/
def State.applyMode (s : State) (r x : Side) (mode : Nat) (sk : Option DWord) : State :=
  let s := s.modMode r x (fun m =>
    { m with
      pend := none
      seek := match sk with
        | some w => some (seekOf w)
        | none => if mode = 2 then m.seek else none
      seekNext := if mode = 2 then m.seekNext else none })
  (s.modCen r (fun e => { e with modeDone := true })).setMode r x mode

/-- The switching tick has come (R176): each engine that has reached it switches. -/
def execModeSwitch (act : Side) (s : State) : Out :=
  .next (
    if s.switchDue .a act || s.switchDue .b act then
      let one (s : State) (r : Side) : State :=
        match s.switchDue r act, (s.modeOf r act).pend with
        | true, some (m, _, sk) => s.applyMode r act m sk
        | _, _ => s
      (one (one s .a) .b).genParked
    else s)

/-- P_CEN_SEEK (R177). -/
def State.seekRequest (s : State) (c : CtxId) (data : DWord) : State :=
  let r := c.ridge
  let x := if bit data 63 then Side.b else Side.a
  if s.cenUp r = false then s.refuseCtx c 0xA5 5
  else if s.ownsLink r x = false then s.refuseCtx c 0xA5 2
  else if (s.modeOf r x).seek.isSome then
    let s := s.modMode r x (fun m => { m with seekNext := some data, rej := false })
    let s := s.modMode r.peer x (fun m => { m with seekNext := some data })
    s.modCen r (fun e => { e with seekDone := false })
  else s.modeReq r x 2 (some data)

def execSeekRequest (c : CtxId) (data : DWord) (s : State) : Out :=
  .next (
    s.byCtx c (fun s =>
      s.seekRequest c data))

/-- v·v ≥ 2·a·r, in Q16.16; open where a product does not fit 48 bits. -/
def seekBrake (a r v : Nat) : Bool :=
  if v * v < 2 ^ 63 ∧ 2 * a * r < 2 ^ 63 then decide (2 * a * r ≤ v * v) else Config.seekBrakes a r v

/-- One sample of the trajectory generator: acceleration and the new seek; none at its end (R177). -/
def seekStep (a vmax endwin : Nat) (k : Seek) : Int × Option Seek :=
  let acc : Int :=
    if seekBrake a k.r k.v then -(a : Int)
    else if k.v + a ≤ vmax then (a : Int)
    else (vmax : Int) - k.v
  let v := ((k.v : Int) + acc).toNat
  let r := k.r - v
  if r ≤ endwin * 256 then (0, none)
  else (acc, some { k with r := r, v := v, samples := k.samples + 1 })

/-- The pending seek starts at the voice-coil tick after the running one has ended; after ENDSETTLE the mode is SEEK
again (R177). -/
def State.seekStart (s : State) (r x : Side) : State :=
  let m := s.modeOf r x
  match m.seek, m.seekNext with
  | none, some w =>
    let s := s.modMode r x (fun m => { m with seek := some (seekOf w), seekNext := none })
    if m.mode = 2 then s else s.setMode r x 2
  | _, _ => s

/-- The generator of an actuator at a voice-coil tick. -/
def State.seekTick (s : State) (r x : Side) : State :=
  let s := s.seekStart r x
  match (s.modeOf r x).seek with
  | none => s
  | some k =>
    let base := 8064 + 8 * k.prof
    let a := (s.coef r base).toNat
    let vmax := (s.coef r (base + 1)).toNat
    let w := (s.coef r (base + 2)).toNat
    let sgn (v : Int) : Int := if k.neg then -v else v
    match seekStep a vmax w k with
    | (acc, some k2) =>
      s.modMode r x (fun m =>
        { m with seek := some k2, rem := ofI 32 (sgn (k2.r / 256 : Nat)), vel := ofI 32 (sgn k2.v), acc := ofI 32 (sgn acc) })
    | (_, none) =>
      let more := (s.modeOf r x).seekNext.isSome
      let s := s.modMode r x (fun m => { m with seek := none, rem := 0, vel := 0, acc := 0 })
      let s := s.setReg (rk r R_CEN_SEEKSTAT) (BitVec.ofNat 32 (x.idx * 65536 + min 0xFFFF (k.samples + 1)))
      let s := (s.modCen r (fun e => { e with seekDone := !more })).cenInt r 2
      if k.endSettle then s.setMode r x 3 else s

/-! ### Ticks (R84, R93, R162, R163, R183) -/

/-- Cross-check of the two synthesizers at a guide tick (R84). A difference that does not fit the 16 bits of ANG_XCHK
shows saturated (DESIGN CHOICE, log 115). -/
def State.angCheck (s : State) (r : Side) : State :=
  let d : Int := ((s.an r).ac.toNat : Int) - (s.an r.peer).ac.toNat
  let k := rk r R_ANG_XCHK
  let s := s.modReg k (fun w => putFld w 31 16 (ofI 16 (satI 16 d)).toNat)
  let isOver := decide (s.regF k 7 0 < d.natAbs)
  s.modAng r (fun a =>
    if isOver then { a with xOver := a.xOver + 1, xIn := 0 }
    else { a with xOver := 0, xIn := min 16 (a.xIn + 1), xerr := a.xerr && decide (a.xIn < 15) })

/-- MACT frames of the links a Ridge holds (R162). -/
def State.mactTick (s : State) (r : Side) : State :=
  Quad.all.foldl (fun s t =>
    let sl := (s.lnk t.act).slots.get t.slot
    if s.ownsLink r t.act && s.ridgeLive r && sl.bound && decide (sl.mode = 1 ∨ sl.mode = 2) then
      let v : Word := if (s.modeOf r t.act).mode = 0 then 0 else sg 0 (s.ce r).driven (4 + t.idx)
      s.sendMact t.act (mactFrame sl.head (v.setWidth 16))
    else s) s

/-- A tick reaches its task (R163, R164). -/
def State.taskTick (s : State) (r : Side) (q : Quad) (now : DWord) : State :=
  if !s.cenUp r || !s.regB (rk r R_CEN_CTL) 0 then s
  else
    let e := s.ce r
    if e.due.get q = false then s.modCen r (fun e => { e with due := e.due.set q true, tickAc := e.tickAc.set q now })
    else if e.held.get q = false then s.modCen r (fun e => { e with held := e.held.set q true, heldAc := e.heldAc.set q now })
    else (s.bump (rk r R_CEN_OVRCNT) (8 * q.idx + 7) (8 * q.idx) 1).cenInt r 6

/-- The engine fails to copy (R183). -/
def State.syncFail (s : State) (r : Side) : State :=
  ((s.modCen r (fun e => { e with sync := .idle })).setStat (rk r R_CEN_FLT) 5).cenInt r 0

/-- The copy of R183 begins at the tick if the peer is in service; else it fails. -/
def State.syncTick (s : State) (r : Side) : State :=
  if (s.ce r).sync ≠ .armed then s
  else if s.ridgeSt r.peer = .inService then s.modCen r (fun e => { e with sync := .copying })
  else s.syncFail r

/-- SW is 1 for the passes of the switching tick only (R176). -/
def ServoMode.atTick (m : ServoMode) (now : DWord) : ServoMode := { m with sw := m.sw && decide (m.swAc = now) }

/-- What happens at a tick of a series, before its passes. -/
def State.tick (s : State) (r : Side) (q : Quad) (now : DWord) (g : Four GuideIn) (rpm : BitVec 16) : State :=
  let s := if s.mtr.obsValid then s.setReg R_MTR_SPEED (rpm.setWidth 32) else s
  let s := s.modAng r (fun a => { a with ac := now, owed := a.owed.set q none, lastTick := a.lastTick.set q now })
  let s := (s.modMode r .a (fun m => m.atTick now)).modMode r .b (fun m => m.atTick now)
  let s :=
    match q with
    | .q0 =>
      let s := Quad.all.foldl (fun (s : State) t =>
        if s.angSide t = r ∧ !s.wsc then s.guideSample t now none (g.get t) else s) s
      s.angCheck r
    | .q1 => s.mactTick r
    | .q2 => ((s.syncTick r).seekTick r .a).seekTick r .b
    | .q3 => (s.bandTick r).energyTick r
  ((s.rampTick r q).writeSys r).taskTick r q now

/-- The AC of the tick: at one of its angles, after the last tick of the series, or owed by a step (R79, R93, R419). -/
def State.tickDue (s : State) (r : Side) (q : Quad) (now : DWord) : Bool :=
  let a := s.an r
  let n := now.toNat
  (decide (a.owed.get q = some a.ac) && decide (now = a.ac)) ||
    (decide ((a.lastTick.get q).toNat < n) && decide (0 < n) && decide (s.ticksTo q (n - 1) < s.ticksTo q n))

def execSampleTick (r : Side) (series : Quad) (now : DWord) (g : Four GuideIn) (rpm : BitVec 16) (s : State) : Out :=
  .next (
    if s.angUp r && decide ((s.an r).src ≠ .none) && s.regB (rk r R_ANG_TICKCFG) series.idx && s.canReach r now &&
        s.tickDue r series now then s.tick r series now g rpm
    else s)

/-! ### Other rows -/

/-- The bit of CEN_FLT of a destination (R174). -/
def staleBit (d : Nat) : Nat :=
  match destAct d with
  | some .a => 0
  | some .b => 1
  | none => 2

/-- The stale limit has passed for a destination (R174): its OUT's task has had no pass for so long, and the output is
held from now on; or the hold has lasted so long, which faults and holds on. In IDLE the limit does not count. -/
def execStaleLimitExpiry (r : Side) (dest : BitVec 4) (s : State) : Out :=
  .next (
    let d := dest.toNat
    if s.cenUp r && (sg none (s.ce r).outs d).isSome then
      if sg false (s.ce r).hold d = false then s.modCen r (fun e => { e with hold := sp false e.hold d true })
      else if s.destIdle r d then s
      else (s.setStat (rk r R_CEN_FLT) (staleBit d)).cenInt r 0
    else s)

/-- P_CEN_NODE (R167, R170). -/
def State.nodeWrite (s : State) (c : CtxId) (data : DWord) : State :=
  if s.cenUp c.ridge then
    s.putNode c.ridge (fld ((s.ctx c).stagedAt 0xA0) 11 0) (data.setWidth 32) false
  else s.refuseCtx c 0xA1 5

def execNodeWrite (c : CtxId) (data : DWord) (s : State) : Out :=
  .next (
    s.byCtx c (fun s =>
      s.nodeWrite c data))

/-- P_CEN_COEF (R170, R178). -/
def State.coefWrite (s : State) (c : CtxId) (data : DWord) : State :=
  let r := c.ridge
  if s.cenUp r = false then s.refuseCtx c 0xA3 5
  else
    let k := fld ((s.ctx c).stagedAt 0xA2) 12 0
    if s.rampHas r k then s.cenInt r 10
    else s.modCen r (fun e =>
      { e with coefs := sp 0 e.coefs k (data.setWidth 32), shifts := sp 0 e.shifts k (BitVec.ofNat 6 (fld data 37 32)) })

def execCoefWrite (c : CtxId) (data : DWord) (s : State) : Out :=
  .next (
    s.byCtx c (fun s =>
      s.coefWrite c data))

def execOutputCrosscheckFault (r : Side) (s : State) : Out :=
  .next (
    if 16 ≤ (s.ce r).xRun then
      ((s.modCen r (fun e => { e with xRun := 0 })).cenInt r 9).event Config.eventOutputCross (srcBlock (rk r R_CEN_ID)) []
    else s)

/-- CEN_CTL.SYNC (R183). The peer's service is looked at here, at the tick and at the end of the copy (DESIGN CHOICE,
DESIGN CHOICE, log 131). -/
def State.nodeSync (s : State) (r : Side) : State :=
  if s.ridgeSt r.peer = .inService then s.modCen r (fun e => { e with sync := .armed }) else s.syncFail r

def execNodeSync (r : Side) (s : State) : Out := .next (if s.cenUp r then s.nodeSync r else s)

/-- All nodes and stale bits of the peer: the mode, seek and band behind the system nodes come with them (R183). -/
def State.copyNodes (s : State) (r : Side) : State :=
  let p := s.ce r.peer
  s.modCen r (fun e =>
    { e with
      nodes := p.nodes, stale := p.stale, band := p.band, sync := .idle
      modes := ⟨{ p.modes.a with rej := e.modes.a.rej }, { p.modes.b with rej := e.modes.b.rej }⟩ })

def execNodeSyncDone (r : Side) (s : State) : Out :=
  .next (
    if (s.ce r).sync = .copying then (if s.ridgeSt r.peer = .inService then s.copyNodes r else s.syncFail r)
    else s)

/-- CEN_TRCCFG of a buffer (Table 8.11): ARM clears and arms it, FORCE triggers at the next append. -/
def State.traceCfg (s : State) (r : Side) (k : Quad) (data : Word) : State :=
  let s := s.modTrace r k (fun x => { x with cfg := data &&& 0x3FFFFFFF#32, force := x.force || bit data 30 })
  if bit data 31 && s.domOn 54 then
    s.modTrace r k (fun x =>
      { x with st := 1, full := false, trigIdx := 0, wr := 0, left := 0, above := none, newSat := false, words := [] })
  else s

def State.trcSel (s : State) (r : Side) : Quad := quadOf (s.regF (rk r R_CEN_TRCSEL) 1 0)

def execTraceArm (r : Side) (data : Word) (s : State) : Out :=
  .next (if s.cenUp r then s.traceCfg r (s.trcSel r) (setBit data 31) else s)

def execTraceForce (r : Side) (data : Word) (s : State) : Out :=
  .next (if s.cenUp r then s.traceCfg r (s.trcSel r) (setBit (clrBit data 31) 30) else s)

/-- The OUT blocks of the engine's tasks, as destination and node (R181). -/
def State.outBlocks (s : State) (r : Side) : List (Nat × Nat) :=
  let used := Quad.all.flatMap (fun q => s.taskRange r q)
  ((List.range 1024).filter (fun i => used.contains i && decide (fld (sg 0 (s.ce r).descs (4 * i)) 31 27 = 2))).map (fun i =>
    (fld (sg 0 (s.ce r).descs (4 * i + 1)) 31 24, fld (sg 0 (s.ce r).descs (4 * i)) 23 12))

/-- One OUT block under a lease that arrives drives the value in its node at once (R181): 0 in IDLE; from a stale node
the last fresh value is held. -/
def State.adoptOut (s : State) (r : Side) (p : Nat × Nat) : State :=
  let (v, st) := s.node r p.2
  let stale := st && !s.destIdle r p.1
  let n : BitVec 16 := ofI 16 (s.outValue r p.1 v.toInt stale).1
  let s := s.modCen r (fun e =>
    { e with hold := sp false e.hold p.1 stale, driven := if stale then e.driven else sp 0 e.driven p.1 (n.signExtend 32) })
  s.toDest p.1 n

/-- Outputs under a lease that arrives. -/
def State.adoptOutputs (s : State) (r : Side) (x : Option Side) : State :=
  ((s.outBlocks r).filter (fun p => isDest p.1 && decide (destAct p.1 = x))).foldl (fun (s : State) p => s.adoptOut r p) s

end Sys2Proof.Machine
end

