-- ==== Sys2Proof/Machine/Motor.lean ====
section
/-!
DEFINITION. Spindle drive, braking, power loss, voice coils and the power die (chapter 9).
-/
namespace Sys2Proof.Machine

/-! ### Shared operations -/

/-- MTR_CTL.EN and a Ridge in service and the kick within HBTO (R186). -/
def State.hbOk (s : State) : Bool :=
  s.regB R_MTR_CTL 0 && s.mtr.hbKick && decide (s.ridgeSt .a = .inService ∨ s.ridgeSt .b = .inService)

/-- An MTR register write: the spindle lease holder alone (R185). -/
def State.mtrAccess (s : State) (x : Accessor) (f : State → State) : State :=
  s.access x R_MTR_ID (decide (s.rlg.spindle = some x.ridge)) f

/-- A voice-coil calibration window ends and its measurement is discarded (R222). -/
def State.dropWindow (s : State) (a : Side) : State :=
  (s.modMon (fun m => { m with vcOpen := m.vcOpen.set a false })).modMtr (fun m => { m with duty := m.duty.set a none })

/-- A retract starts (R209); one in progress goes on. -/
def State.retract (s : State) (a : Side) : State :=
  let s := s.dropWindow a
  s.modMtr (fun m =>
    { m with
      retracting := m.retracting.set a true
      genRetract := m.genRetract || decide (m.sp = .gen)
      pfStep := if m.sp = .gen then 7 else m.pfStep })

def State.retractLoaded (s : State) : State :=
  Side.all.foldl (fun s a => if s.mtr.park.get a = .parked then s else s.retract a) s

/-- A retract the power die starts by itself (Table 9.8, bit 1). -/
def State.autoRetract (s : State) : State := if s.mtr.allParked then s else s.retractLoaded.pdflt 1

/-- Table 9.2: the states a start passes through before RUN. -/
def Mtr.starting (m : Mtr) : Bool :=
  match m.sp with
  | .probe => true
  | .revbrk => true
  | .ipd => true
  | .kick => true
  | .catching => true
  | .retract => decide (m.after = .probe)
  | _ => false

/-- START in OFF (R192, R191). -/
def State.spStart (s : State) : State :=
  if s.reg R_MTR_MOTPAR = 0 then s.mtrInt 3
  else
    let s := s.modMtr (fun m =>
      { m with
        attempt := 0
        startLatched := false
        reached := false
        atSpeed := false
        inBand := 0
        toIpd := false
        retFailed := false
        target := s.targetReg })
    if s.mtr.allParked then s.setSp .probe
    else ((s.modMtr (fun m => { m with after := .probe })).retractLoaded).setSp .retract

/-- The spindle reaches OFF; a latched START is then executed (R195). -/
def State.spOff (s : State) : State :=
  let l := s.mtr.startLatched
  let s := (s.modMtr (fun m => { m with startLatched := false, atSpeed := false, after := .none, toIpd := false })).setSp .off
  if l then s.spStart else s

/-- A start or spin-up ends in FAULT (R192–R194). -/
def State.spFail (s : State) : State :=
  ((s.modMtr (fun m => { m with after := .none, toIpd := false, atSpeed := false })).setSp .fault).mtrInt 2

/-- STOP (R195). -/
def State.spStop (s : State) : State :=
  let s := s.modMtr (fun m => { m with startLatched := false, toIpd := false, atSpeed := false, shortBrake := false })
  if s.mtr.allParked then s.setSp .brake
  else ((s.modMtr (fun m => { m with after := .brake })).retractLoaded).setSp .retract

/-- STEP (R196). -/
def State.spStep (s : State) : State :=
  let t := s.targetReg
  let down := decide (t < s.mtr.target)
  let regen := s.mtr.regenOk && s.regB R_MTR_CTL 8
  (s.modMtr (fun m => { m with target := t, inBand := 0, shortBrake := down && !regen })).setSp (if down then .step else .run)

/-- What a command does in the present state: `none` is ignored with bit 3 (R195, R191, Table 9.6). No command reaches
the power die while the link is down (R8, DEDUCED, log 133). -/
def State.spCmd (s : State) (code : Nat) : Option State :=
  let sp := s.mtr.sp
  let en := s.regB R_MTR_CTL 0 && decide (s.rcp.phase ≠ .recovery) && !s.rcp.limited
  let moving := decide (sp ≠ .off ∧ sp ≠ .brake ∧ sp ≠ .gen ∧ sp ≠ .fault)
  if sp = .gen || !s.mtr.linkUp then (if code = 0 then some s else none)
  else
    match code with
    | 0 => some s
    | 1 =>
      if !en || decide (s.reg R_MTR_MOTPAR = 0) then none
      else
        match sp with
        | .off => some s.spStart
        | .brake => some (s.modMtr (fun m => { m with startLatched := true }))
        | .run => some s
        | .step => some s
        | _ => none
    | 2 =>
      if !en then none
      else if moving then some s.spStop
      else if sp = .brake ∧ s.mtr.startLatched then some (s.modMtr (fun m => { m with startLatched := false }))
      else none
    | 3 => if en && decide (sp = .run ∨ sp = .step) then some s.spStep else none
    | 4 =>
      if (moving || decide (sp = .brake)) && s.mtr.allParked then
        some (s.modMtr (fun m => { m with startLatched := false })).spOff
      else none
    | 5 => if en && decide (sp = .fault) then some s.spOff else none
    | _ => none

/-- A write of MTR_SPCMD. -/
def State.spWrite (s : State) (code : Nat) : State := (s.spCmd code).getD (s.mtrInt 3)

/-- All retracts of a spindle sequence have ended: what follows (R192, R195, R206, R210). -/
def State.afterRetract (s : State) : State :=
  if s.mtr.anyRetract then s
  else if s.mtr.sp = .retract then
    let a := s.mtr.after
    let s := s.modMtr (fun m => { m with after := .none })
    match a with
    | .probe => if s.mtr.retFailed then s.spFail else s.setSp .probe
    | _ => s.setSp .brake
  else if s.mtr.sp = .gen ∧ s.mtr.after = .brakeAuto then (s.modMtr (fun m => { m with after := .none })).setSp .brake
  else s.genParked

/-- The power die on the loss of heartbeats (R210). -/
def State.hbLost (s : State) : State :=
  let s := (s.modMtr (fun m => { m with hbRun := false })).pdflt 0
  if s.mtr.allParked then (if s.mtr.sp = .fault then s else (s.modMtr (fun m => { m with startLatched := false })).spOff)
  else
    let gen := decide (s.mtr.sp = .gen)
    let s := (s.modMtr (fun m => { m with after := .brakeAuto, startLatched := false, toIpd := false, atSpeed := false })).autoRetract
    if gen then s else s.setSp .retract

/-- REGENOK falls; in GEN the rectifier turns conservative (R205). -/
def Mtr.regenLost (m : Mtr) : Mtr :=
  { m with
    regenOk := false
    cons := m.cons || decide (m.sp = .gen)
    shortBrake := m.shortBrake || decide (m.sp = .step) }

def State.regenLost (s : State) : State := s.modMtr Mtr.regenLost

/-- Heartbeats arrive at the power die (R186). -/
def State.beating (s : State) : Bool := s.hbOk && s.mtr.linkUp

/-- No heartbeat arrives, and the loss action is due: after the last one, or while heads are loaded or the spindle does
not yet stand in the state that action ends in (R8, R186, R210). -/
def State.hbDue (s : State) : Bool :=
  !s.beating &&
    (s.mtr.hbRun || Side.all.any (fun a => decide (s.mtr.park.get a = .loaded) && !s.mtr.retracting.get a) ||
      !decide (s.mtr.sp = .off ∨ s.mtr.sp = .brake ∨ s.mtr.after = .brakeAuto))

/-! ### Heartbeat -/

def execHeartbeat (s : State) : Out :=
  .next (if s.beating then s.modMtr (fun m => { m with hbRun := true }) else s)

def execHeartbeatKick (x : Accessor) (s : State) : Out :=
  .next (s.mtrAccess x (fun s => s.modMtr (fun m => { m with hbKick := true })))

def execHbtoExpiry (s : State) : Out := .next (s.modMtr (fun m => { m with hbKick := false }))

def execHeartbeatLoss (s : State) : Out :=
  .next (if s.hbDue then s.hbLost else s)

/-! ### Commands -/

def execSpindleStart (x : Accessor) (s : State) : Out := .next (s.mtrAccess x (fun s => s.spWrite 1))

def execSpindleStop (x : Accessor) (s : State) : Out := .next (s.mtrAccess x (fun s => s.spWrite 2))

def execSpindleStep (x : Accessor) (s : State) : Out := .next (s.mtrAccess x (fun s => s.spWrite 3))

def execCoast (x : Accessor) (s : State) : Out := .next (s.mtrAccess x (fun s => s.spWrite 4))

def execClrflt (x : Accessor) (s : State) : Out := .next (s.mtrAccess x (fun s => s.spWrite 5))

def execSpindleCmdIgnored (x : Accessor) (data : Word) (s : State) : Out :=
  .next (s.mtrAccess x (fun s => if (s.spCmd (fld data 31 28)).isNone then s.mtrInt 3 else s))

/-- MTR_RETCMD: each bit by the holder of that actuator's Quaxlink lease, over the link (R8, R185, R209). -/
def State.retCmd (s : State) (r : Side) (data : Word) : State :=
  Side.all.foldl (fun s a => if s.mtr.linkUp && bit data a.idx && s.ownsLink r a then s.retract a else s) s

def execRetractCommand (x : Accessor) (data : Word) (s : State) : Out :=
  .next (s.access x R_MTR_ID true (fun s => s.retCmd x.ridge data))

/-! ### The start sequence -/

/-- The probe's measured speed and direction select the way on; CATCH presets the observer (R192). -/
def State.probeEnd (s : State) (rev : Bool) (rpm : Nat) : State :=
  let s := s.setReg R_MTR_SPEED (BitVec.ofNat 32 (b2n rev * 2 ^ 31 + rpm % 65536))
  let t := s.mtr.target
  if !rev && decide (2 * t ≤ 100 * rpm) then (s.observe rpm).setSp .catching
  else if 5 * t ≤ 1000 * rpm then (s.modMtr (fun m => { m with toIpd := true })).setSp .revbrk
  else s.setSp .ipd

def execProbeEnd (rev : Bool) (rpm : BitVec 16) (s : State) : Out :=
  .next (if s.mtr.sp = .probe then s.probeEnd rev rpm.toNat else s)

def execIpdDone (s : State) : Out := .next (if s.mtr.sp = .ipd then s.setSp .kick else s)

def execKickObserverValid (s : State) : Out :=
  .next (if (s.mtr.sp = .kick ∨ s.mtr.sp = .catching) ∧ s.mtr.obsValid then s.setSp .run else s)

def execKickTimeout (s : State) : Out :=
  .next (
    if s.mtr.sp = .kick then
      let s := s.modMtr (fun m => { m with attempt := m.attempt + 1 })
      if atLeast1 (s.regF R_MTR_KICKCFG 11 8) ≤ s.mtr.attempt then s.spFail
      else (s.modMtr (fun m => { m with toIpd := true })).setSp .revbrk
    else s)

def execAtSpeedSet (s : State) : Out :=
  .next (
    if (s.mtr.sp = .run ∨ s.mtr.sp = .step) ∧ s.mtr.atSpeed = false ∧ 64 ≤ s.mtr.inBand then
      (s.modMtr (fun m => { m with atSpeed := true, reached := true })).mtrInt 1
    else s)

def execAtSpeedClear (s : State) : Out :=
  .next (if s.nearTarget 2 then s else s.modMtr (fun m => { m with atSpeed := false, inBand := 0 }))

def execSpinupTimeout (s : State) : Out :=
  .next (
    if s.mtr.reached = false ∧ (s.mtr.starting ∨ s.mtr.sp = .run ∨ s.mtr.sp = .step) then s.spFail else s)

def execStepComplete (s : State) : Out :=
  .next (
    if s.mtr.sp = .step ∧ s.nearTarget 1 then (s.modMtr (fun m => { m with shortBrake := false })).setSp .run else s)

def execBrakeComplete (s : State) : Out :=
  .next (
    if !s.slowerThan 5 then s
    else
      match s.mtr.sp with
      | .revbrk => (s.modMtr (fun m => { m with toIpd := false })).setSp .ipd
      | .brake => s.spOff
      | _ => s)

/-! ### Chopper, clamp and overcurrent -/

/-- ON at the nearer limit of 12,500–14,500 mV, and OFF at most ON − 200 (R198). -/
def State.chopOnMv (s : State) : Nat := clampN 12500 14500 (s.regF R_MTR_CHOPCFG 31 16)

def State.chopOffMv (s : State) : Nat := min (s.regF R_MTR_CHOPCFG 15 0) (s.chopOnMv - 200)

def execChopperEngage (vmot : BitVec 16) (s : State) : Out :=
  .next (
    if s.mtr.chopOn = false ∧ s.chopOnMv < vmot.toNat then
      (s.modMtr (fun m => { m with chopOn := true })).bump R_MTR_ERRCNT 15 0 1
    else s)

def execChopperRelease (vmot : BitVec 16) (s : State) : Out :=
  .next (if vmot.toNat < s.chopOffMv then s.modMtr (fun m => { m with chopOn := false }) else s)

/-- GO of MTR_CHOPTEST (R199); it reads 1 while the test runs. -/
def State.chopTest (s : State) : State :=
  if s.mtr.sp = .gen ∨ s.mtr.sp = .step then s.setReg R_MTR_CHOPTEST 0
  else s.setReg R_MTR_CHOPTEST 0x80000000

def execChopperSelftest (x : Accessor) (s : State) : Out := .next (s.mtrAccess x (fun s => s.chopTest))

/-- The current is within ±30 % of VMOT / RBRK. -/
def State.chopCurrentOk (s : State) (vmot cur : Nat) : Bool :=
  let r := s.regF R_MTR_RBRK 15 0
  let r := if r = 0 then 10000 else r
  decide (7 * vmot * 1000 ≤ 10 * cur * r ∧ 10 * cur * r ≤ 13 * vmot * 1000)

/-- It is, and with the chopper off the current is below 50 mA. -/
def State.chopPass (s : State) (vmot on off : Nat) : Bool := s.chopCurrentOk vmot on && decide (off < 50)

def execChopperSelftestDone (vmot on off : BitVec 16) (s : State) : Out :=
  .next (
    if s.regB R_MTR_CHOPTEST 31 then
      let pass := s.chopPass vmot.toNat on.toNat off.toNat
      let s := s.setReg R_MTR_CHOPTEST (BitVec.ofNat 32 (2 ^ 30 + b2n pass * 2 ^ 29 + on.toNat))
      (s.modMtr (fun m => { m with regenOk := m.regenOk || pass })).mtrInt 12
    else s)

/-- `rising`: VMOT still rises 4 µs after the chopper engaged; else its current has been `cur` for 2 µs (R200). -/
def execChopperFault (rising : Bool) (vmot cur : BitVec 16) (s : State) : Out :=
  .next (
    if s.mtr.chopOn && (rising || !s.chopCurrentOk vmot.toNat cur.toNat) then
      let s := (s.modMtr (fun m => { m with chopOn := false, chopFlt := true })).regenLost
      (s.pdflt 3).mtrInt 6
    else s)

def execOvervoltageClamp (vmot : BitVec 16) (s : State) : Out :=
  .next (
    if s.mtr.clamp || decide (vmot.toNat < 15000) then s
    else (((s.modMtr (fun m => { m with clamp := true })).regenLost).pdflt 2).mtrInt 7)

def execClampRelease (vmot : BitVec 16) (s : State) : Out :=
  .next (
    if s.mtr.clamp ∧ vmot.toNat < 14500 then
      (s.modMtr (fun m => { m with clamp := false, after := .none, toIpd := false, atSpeed := false })).setSp .brake
    else s)

/-- `succ`: the trip follows one in the PWM period before (R202). -/
def execOvercurrentTrip (succ : Bool) (cur : BitVec 16) (s : State) : Out :=
  .next (
    if cur.toNat ≤ 6000 then s
    else
    let s := (s.modMtr (fun m => { m with trips := if succ then m.trips + 1 else 1 })).bump R_MTR_ERRCNT 31 16 1
    if 8 ≤ s.mtr.trips then
      let s := s.modMtr (fun m => { m with trips := 0, after := .none, toIpd := false, atSpeed := false })
      ((s.setSp .fault).pdflt 4).mtrInt 8
    else s)

/-! ### Power loss -/

def execIsolationFetClose (vmot : BitVec 16) (s : State) : Out :=
  .next (
    if (s.mtr.sp = .off ∨ s.mtr.sp = .fault) ∧ s.mtr.isoClosed = false ∧ 10800 < vmot.toNat then
      s.modMtr (fun m => { m with isoClosed := true, pfailN := true, loss := false })
    else s)

/-- VMOT below 8.5 V, or the speed below 60 % of the target (R206). -/
def execGenLowVmotRetract (vmot : BitVec 16) (s : State) : Out :=
  .next (
    if s.mtr.sp = .gen ∧ (vmot.toNat < 8500 ∨ s.slowerThan 600) then ((s.pdflt 9).autoRetract).genParked else s)

/-- VMOT below 5.0 V: every FET is off, so nothing drives the spindle or a coil (R206). -/
def execVmotCollapse (vmot : BitVec 16) (s : State) : Out :=
  .next (
    if 5000 ≤ vmot.toNat then s
    else
    let s := (s.modMtr (fun m => { m with retracting := Two.all false, after := .none })).pdflt 6
    if s.mtr.sp = .fault then s else (s.modMtr (fun m => { m with startLatched := false })).spOff)

/-- Power returns through PFAIL_N alone, before any retract and after the seal (R207). -/
def execPowerReturn (s : State) : Out :=
  .next (
    if s.mtr.sp = .gen ∧ s.mtr.genRetract = false ∧ s.mtr.pfailSeen ∧ !s.win.flushing.a ∧ !s.win.flushing.b then
      let s := s.modMtr (fun m =>
        { m with isoClosed := true, pfailN := true, loss := false, cons := false, pfailSeen := false, pfStep := 0 })
      (s.setSp .run).mtrInt 5
    else s)

/-! ### Retracts and the power die -/

/-- Ramp detection (R209): the back-EMF in mV below 10 % of RETVEL for 2 ms, with the current in mA at RETI. -/
def execRetractDone (a : Side) (emf cur : BitVec 16) (s : State) : Out :=
  .next (
    if s.mtr.retracting.get a ∧ 10 * emf.toNat < s.mtr.retVel ∧ s.mtr.retI ≤ cur.toNat then
      let s := s.modMtr (fun m => { m with retracting := m.retracting.set a false, park := m.park.set a .parked })
      (s.mtrInt 9).afterRetract
    else s)

/-- The retract has run `ms` milliseconds (R209). -/
def execRetractTimeout (a : Side) (ms : BitVec 16) (s : State) : Out :=
  .next (
    if s.mtr.retracting.get a ∧ s.mtr.retT ≤ ms.toNat then
      let s := s.modMtr (fun m =>
        { m with
          retracting := m.retracting.set a false
          park := m.park.set a .unknown
          vcCmd := m.vcCmd.set a 0
          retFailed := true })
      let s := s.modRedun a (fun r => { r with retTimes := (s.evr.ot.toNat :: r.retTimes).take 2 })
      ((s.pdflt 5).mtrInt 10).afterRetract
    else s)

def execPowerDieThermalTrip (s : State) : Out := .next ((s.pdflt 8).hbLost)

def execPowerDiePowerOn (s : State) : Out :=
  .next (
    let s := s.setReg R_MTR_PDFLT 0
    s.modMtr (fun m =>
      { m with
        sp := .off
        park := Two.all .unknown
        retracting := Two.all false
        after := .none
        isoClosed := false
        clamp := false
        chopOn := false
        hbRun := false
        obsValid := false
        retCfg := Mtr.reset.retCfg
        vcCmd := Two.all 0
        qCmd := 0
        trips := 0 }))

def execV5Undervoltage (v5 : BitVec 16) (s : State) : Out := .next (if v5.toNat < 4500 then s.pdflt 7 else s)

/-! ### Current sense (R190) -/

/-- The spare stands in for a channel at a PWM period centre; while it is in use the request waits for its return
(DESIGN CHOICE, log 135). -/
def State.sparePlace (s : State) (ch : Nat) : State :=
  if ch = 3 then s
  else if s.mtr.spareFor.isSome then s.modMtr (fun m => { m with spareReq := some ch })
  else s.modMtr (fun m => { m with spareFor := some ch })

def execCurrentSenseSpare (x : Accessor) (ch : BitVec 2) (s : State) : Out :=
  .next (s.mtrAccess x (fun s => (s.modReg R_MTR_ISENSE (fun w => putFld w 1 0 ch.toNat)).sparePlace ch.toNat))

/-- A calibration run holds the cover of a channel. -/
def State.senseHeld (s : State) (ch : Nat) : Bool :=
  s.mon.calRuns.any (fun x =>
    x.kind == 2 && x.cover == 0 && x.target == ch && (x.measuring || x.applying) && !x.returning && x.ended.isNone)

/-- The spare hands back, unless a run still holds it; a request that waits is then served. -/
def execCurrentSenseSpareReturn (s : State) : Out :=
  .next (
    match s.mtr.spareFor with
    | some ch =>
      if s.senseHeld ch then s
      else
        (s.modMtr (fun m => { m with spareFor := m.spareReq, spareReq := none })).handBack
          (fun x => x.kind == 2 && x.target == ch)
    | none => s)

end Sys2Proof.Machine
end

