-- ==== Sys2Proof/Machine/Monitor.lean ====
section
/-!
DEFINITION. Calibration and the monitors (chapter 10).
-/
namespace Sys2Proof.Machine

def State.monInt (s : State) (i : Nat) : State := s.setStat R_MON_INTSTAT i

/-- The trim of a monitor: the safe default before TRIM_VALID, the fused trim until it is adjusted (R229). -/
def State.monTrim (s : State) (n : Nat) : Byte :=
  let d : Byte := if s.fus.trimValid then Config.fusedTrim n ((List.range 160).map (fun i => sg 0 s.fus.shadow (41 + i))) else 0
  match s.mon.trims.find? (fun p => p.1 == n) with
  | some (_, v) => v
  | none => d

def State.setTrim (s : State) (n : Nat) (v : Byte) : State := s.modMon (fun m => { m with trims := sins n v m.trims })

/-- A write of MON_TRIMDATA (R229). -/
def State.trimWrite (s : State) (data : Word) : State :=
  if s.fus.trimValid then s.setTrim (min 47 (s.regF R_MON_TRIMSEL 5 0)) (data.setWidth 8) else s.monInt 6

/-! ### Descriptors (Table 10.1) -/

structure CalDesc where
  kind : Nat
  target : Nat
  cover : Nat
  method : Nat
  period : Nat
  lo : Int
  hi : Int
  maxDelta : Int
  rate : Int
  unit : Nat
  rejCnt : Nat
deriving DecidableEq, Repr

def calInt (b : List Byte) (k : Nat) : Int := (BitVec.ofNat 32 (ofBytesLE ((b.drop k).take 4))).toInt

def calNat (b : List Byte) (k n : Nat) : Nat := ofBytesLE ((b.drop k).take n)

def calDesc (b : List Byte) : CalDesc where
  kind := calNat b 0 2
  target := calNat b 2 1
  cover := calNat b 3 1
  method := calNat b 4 2
  period := calNat b 6 2
  lo := calInt b 8
  hi := calInt b 12
  maxDelta := calInt b 16
  rate := calInt b 20
  unit := calNat b 24 1
  rejCnt := calNat b 27 1

/-- The descriptor of an address, where it can be read. -/
def State.calRead (s : State) (r : Side) (addr : Nat) : Option CalDesc :=
  match s.dramChan r addr 32 with
  | some x => ((s.dramRead x addr 32).2).map calDesc
  | none => none

def State.calWrite (s : State) (r : Side) (addr : Nat) (bs : List Byte) : State :=
  match s.dramChan r addr 32 with
  | some x => s.dramWrite x addr bs
  | none => s

/-- OUTCOME and REASON of a descriptor. -/
def State.calOutcome (s : State) (r : Side) (addr outcome reason : Nat) : State :=
  s.calWrite r (addr + 25) [BitVec.ofNat 8 outcome, BitVec.ofNat 8 reason]

/-- The actuator of a target: of a global head, or of an actuator index. -/
def calAct (kind target : Nat) : Side :=
  if kind = 5 ∨ kind = 6 ∨ kind = 7 then (if target < 12 then .a else .b) else sideOf target

/-- The Ridge holds the lease of the target. -/
def State.calLease (s : State) (r : Side) (kind target : Nat) (t : Quad) : Bool :=
  match kind with
  | 1 => s.owns r t
  | 2 => decide (s.rlg.spindle = some r)
  | 9 => true
  | 10 => decide (s.rlg.spindle = some r)
  | 11 => true
  | _ => s.ownsLink r (calAct kind target)

/-- COVER is allowed for KIND, and can be provided (R99, Table 10.2): the spare slice itself is calibrated in HOLD. -/
def State.calCover (s : State) (kind cover target : Nat) (t : Quad) : Bool :=
  match cover with
  | 0 =>
    match kind with
    | 1 => decide (target < 8) && s.domOn (26 + t.idx) && decide ((s.tl t).spare = .idle)
    | 2 => s.mtr.spareFor.isNone
    | _ => false
  | 1 => decide (kind ≠ 1) || s.domOn (26 + t.idx)
  | _ => false

/-- HOLD is not allowed in the present state (R221; KIND 0x04 needs the actuator PARKED, the spare slice must be idle).
-/
def State.calBarred (s : State) (kind cover target : Nat) (t : Quad) : Bool :=
  match kind with
  | 1 => decide (target = 8 ∧ (s.tl t).spare ≠ .idle)
  | 2 => decide (cover = 1) && !decide (s.mtr.sp = .off ∨ s.mtr.sp = .fault)
  | 4 => decide (s.mtr.park.get (sideOf target) ≠ .parked)
  | _ => false

/-- The run holds the target: its kind and index, and for a slice its stream (R213). -/
def CalRun.holds (x : CalRun) (kind target : Nat) (t : Quad) : Bool :=
  x.kind == kind && x.target == target && (kind != 1 || x.tile == t)

/-- The REASON for which a descriptor cannot start (R213, R422); 0 where it starts. -/
def State.calReason (s : State) (r : Side) (addr : Nat) (d : CalDesc) (t : Quad) : Nat :=
  if d.kind = 0 ∨ 11 < d.kind then 1
  else if s.calCover d.kind d.cover d.target t = false then 2
  else if s.mon.calRuns.any (fun x => x.holds d.kind d.target t && x.addr != addr) then 3
  else if s.calLease r d.kind d.target t = false then 4
  else if s.mtr.sp = .gen then 5
  else if s.calBarred d.kind d.cover d.target t then 6
  else if s.wsc && (decide (d.kind = 7 ∨ d.kind = 8) || (decide (d.kind = 1) && decide (t.slot = .b))) then 7
  else 0

/-- The start is due: on request, or PERIOD minutes after the last start while REJCNT is below 3 (R212, R219). -/
def State.calDue (s : State) (addr : Nat) (d : CalDesc) (request : Bool) : Bool :=
  let last := sg 0 s.mon.sched addr
  request || decide (d.period ≠ 0 ∧ last ≠ 0 ∧ d.rejCnt < 3 ∧ last + d.period * 60000 ≤ s.evr.ot.toNat + 1)

/-! ### Covers (R214, R215, R222) -/

/-- A voice-coil window opens, unless a retract or GEN would end it at once. -/
def State.openWindow (s : State) (a : Side) : State :=
  if s.mtr.sp = .gen ∨ s.mtr.retracting.get a then s
  else
    (s.modMon (fun m => { m with vcOpen := m.vcOpen.set a true })).modMtr
      (fun m => { m with duty := m.duty.set a (some (m.vcCmd.get a)) })

/-- The cover of a run: the spare stands in, the voice-coil window opens, or the read path goes off (R98, R190, R222,
Table 10.2). -/
def State.calTakeCover (s : State) (x : CalRun) : State :=
  match x.kind, x.cover with
  | 1, 0 => s.spareTake x.tile x.target true
  | 1, _ => s.modReg (tk x.tile R_STT_CHN_CTL) (fun w => clrBit w 0)
  | 2, 0 => s.sparePlace x.target
  | 3, _ =>
    (s.modReg R_MON_VCCAL (fun w => putBit (w &&& 0x001F0000#32) 24 (decide (sideOf x.target = .b)))).openWindow (sideOf x.target)
  | _, _ => s

/-- The target is out of service, where the cover takes it out. -/
def State.calCovered (s : State) (x : CalRun) : Bool :=
  match x.kind, x.cover with
  | 1, 0 => decide ((s.tl x.tile).spare = .standing x.target true)
  | 1, _ => !s.regB (tk x.tile R_STT_CHN_CTL) 0
  | 2, 0 => decide (s.mtr.spareFor = some x.target)
  | _, _ => true

/-- The cover returns: a spare at its next permitted instant, a window at once (R218). The read path of a HOLD takes up
the enable it had before (DESIGN CHOICE, log 136). -/
def State.calReturnCover (s : State) (x : CalRun) : State :=
  match x.kind, x.cover with
  | 1, 0 =>
    s.modTile x.tile (fun y =>
      { y with spare := match y.spare with
          | .standing k true => .waitReturn k true
          | .waitTake _ true => .idle
          | z => z })
  | 1, _ => s.modReg (tk x.tile R_STT_CHN_CTL) (fun w => putBit w 0 x.en)
  | 2, 0 => s.modMtr (fun m => { m with spareReq := if m.spareReq = some x.target then none else m.spareReq })
  | 3, _ => s.dropWindow (sideOf x.target)
  | _, _ => s

def State.modRun (s : State) (addr : Nat) (f : CalRun → CalRun) : State :=
  s.modMon (fun m => { m with calRuns := lmod (fun y => y.addr == addr) f m.calRuns })

/-- A run is over. -/
def State.calEnd (s : State) (x : CalRun) : State :=
  (s.calReturnCover x).modMon (fun m => { m with calRuns := m.calRuns.filter (fun y => y.addr != x.addr) })

/-- The descriptor starts. One whose last result still moves measures again, and the move goes on (R217). -/
def State.calBegin (s : State) (r : Side) (addr : Nat) (d : CalDesc) (t : Quad) : State :=
  let en := s.regB (tk t R_STT_CHN_CTL) 0
  let new : CalRun := ⟨r, addr, d.kind, d.target, t, d.cover, d.method, true, false, false, 0, 0, none, en, [], none⟩
  let s := (s.calOutcome r addr 1 0).modMon (fun m => { m with sched := sp 0 m.sched addr (s.evr.ot.toNat + 1) })
  match s.mon.calRuns.find? (fun x => x.addr == addr) with
  | some x => (s.modRun addr (fun y => { y with measuring := true })).calTakeCover x
  | none => (s.modMon (fun m => { m with calRuns := m.calRuns ++ [new] })).calTakeCover new

/-- The runner takes up the descriptor at `addr`; `t` is the stream of the slices of KIND 0x01 (R212, R213). A request
for a descriptor that is measured at that moment changes nothing (DESIGN CHOICE, log 136). -/
def execCalibrationStart (r : Side) (addr : BitVec 48) (t : Quad) (request : Bool) (s : State) : Out :=
  .next (
    match s.calRead r addr.toNat with
    | none => s
    | some d =>
      if !s.calDue addr.toNat d request || s.mon.calRuns.any (fun x => x.addr == addr.toNat && x.measuring) then s
      else
        match s.calReason r addr.toNat d t with
        | 0 => s.calBegin r addr.toNat d t
        | n => (s.calOutcome r addr.toNat 4 n).event 0x0702 (srcBlock R_MON_ID) [(0, BitVec.ofNat 32 n)])

/-! ### Values in use -/

/-- The entry of the level table that KIND 0x05 adjusts (Table 10.2). -/
def assistSlot (x : CalRun) : Nat := (Config.assistEntry (x.target % 12) x.method).toNat

def State.assistWord (s : State) (x : CalRun) : BitVec 16 := sg 0 (s.lnk (calAct 5 x.target)).ast (assistSlot x)

/-- The value in use of a target that the state shows; the others are what the run reports. The three trims of a slice
stand side by side, as in STT_ADCTRIM (DESIGN CHOICE, log 137). -/
def State.calValue (s : State) (x : CalRun) (given : Int) : Int :=
  match x.kind with
  | 1 => s.regF (tk x.tile R_STT_ADCTRIM + 4 * x.target) 23 0
  | 2 => sfld (s.reg (R_MTR_ISOFS + 4 * (x.target % 4))) 11 0
  | 3 => sfld (s.reg (R_MON_VCOFS + 4 * (x.target % 2))) 11 0
  | 4 => s.regF (R_MTR_VCRES + 4 * (x.target % 2)) 15 0
  | 5 => if Config.assistOn (x.target % 12) x.method then fld (s.assistWord x) 7 0 else fld (s.assistWord x) 15 8
  | 6 =>
    match sg none (s.lnk (calAct 6 x.target)).heaters (x.target % 12) with
    | some v => v.toNat
    | none => given
  | 7 => (sg 0 (s.an x.ridge).skew x.target).toInt
  | 10 => s.regF R_RLG_JCUR 15 0
  | 11 => (s.monTrim x.target).toInt
  | _ => given

/-- Put a value into use. -/
def State.calPut (s : State) (x : CalRun) (v : Int) : State :=
  match x.kind with
  | 1 => s.setReg (tk x.tile R_STT_ADCTRIM + 4 * x.target) ((ofI 24 v).setWidth 32)
  | 2 => s.setReg (R_MTR_ISOFS + 4 * (x.target % 4)) ((ofI 12 v).setWidth 32)
  | 3 => s.setReg (R_MON_VCOFS + 4 * (x.target % 2)) ((ofI 12 v).setWidth 32)
  | 4 => s.setReg (R_MTR_VCRES + 4 * (x.target % 2)) ((ofI 16 v).setWidth 32)
  | 5 =>
    let w :=
      if Config.assistOn (x.target % 12) x.method then putFld (s.assistWord x) 7 0 (ofI 8 v).toNat
      else putFld (s.assistWord x) 15 8 (ofI 8 v).toNat
    s.modLink (calAct 5 x.target) (fun l => { l with ast := sp 0 l.ast (assistSlot x) w })
  | 6 => s.heater (calAct 6 x.target) (x.target % 12) (ofI 12 v)
  | 7 =>
    s.modAng x.ridge (fun a =>
      { a with
        skew := sp 0 a.skew x.target (ofI 16 v)
        skewUse := if s.headBusy x.target then a.skewUse else sp 0 a.skewUse x.target (ofI 16 v) })
  | 10 => s.setReg R_RLG_JCUR ((ofI 16 v).setWidth 32)
  | 11 => if s.fus.trimValid then s.setTrim x.target (ofI 8 v) else s.monInt 6
  | _ => s

/-- The trims in a value: three of a slice, else the value itself. -/
def calParts (kind : Nat) (v : Int) : List Int :=
  if kind = 1 then
    let w := ofI 24 v
    [sfld w 7 0, sfld w 15 8, sfld w 23 16]
  else [v]

def calJoin : List Int → Int
  | [a, b, c] => (((ofI 8 c ++ ofI 8 b) ++ ofI 8 a : BitVec 24).toNat : Int)
  | [v] => v
  | _ => 0

/-- Limits and rate of a descriptor, with the ROM library's defaults for fields that are 0 (R220). -/
def State.calLimits (s : State) (d : CalDesc) (cur : Int) : Int × Int × Int × Int :=
  let tenth : Int := (cur.natAbs / 10 : Nat)
  let big : Int := 2147483647
  let (lo, hi, dl, rt) : Int × Int × Int × Int :=
    match d.kind with
    | 1 => (-100, 100, 16, 2)
    | 2 => (-512, 512, 64, 8)
    | 3 => (-512, 512, 64, 4)
    | 4 => (5000, 30000, tenth, 100)
    | 5 => (0, s.regF (lk (calAct 5 d.target) R_QLK_ASMAX) 7 0, 8, 1)
    | 6 => (0, 4095, 256, 16)
    | 7 => (-1024, 1024, 64, 2)
    | 8 => ((Config.strokeUnit / 2 : Nat), (4 * Config.strokeUnit : Nat), big, big)
    | 9 => (-big, big, (cur.natAbs * 15 / 100 : Nat), big)
    | 10 => (2000, 9000, tenth, big)
    | _ => (-64, 64, 8, 1)
  (if d.lo = 0 then lo else d.lo, if d.hi = 0 then hi else d.hi, if d.maxDelta = 0 then dl else d.maxDelta,
   if d.rate = 0 then rt else d.rate)

/-- RATEUNIT, that of the default rate where RATE is 0; 3 sets no bound on how often a step comes. Heater and assist
steps come at most once a revolution (Table 10.2). -/
def CalDesc.stepUnit (d : CalDesc) : Nat :=
  if d.kind = 5 ∨ d.kind = 6 then 1
  else if d.rate ≠ 0 then d.unit
  else
    match d.kind with
    | 1 => 2
    | 3 => 0
    | 4 => 1
    | 7 => 1
    | _ => 3

/-- The tick series of the loop that a target belongs to (DEDUCED, log 138). -/
def loopSeries (kind : Nat) : Quad :=
  match kind with
  | 1 => .q0
  | 2 => .q3
  | 8 => .q1
  | 10 => .q3
  | _ => .q2

/-- What must have moved on since the last apply step. -/
def State.stepMark (s : State) (x : CalRun) (unit : Nat) : Option Nat :=
  match unit with
  | 0 => some ((s.an x.ridge).lastTick.get (loopSeries x.kind)).toNat
  | 1 => some ((s.an x.ridge).ac.toNat / 16777216)
  | 2 => some s.mon.handBacks
  | _ => none

/-- A result of J (R223): a smaller one at once, a larger one when the next spin-up's agrees within 3 %. -/
def State.calInertia (s : State) (x : CalRun) (v : Int) : State :=
  let cur : Int := s.regF R_RLG_JCUR 15 0
  if v ≤ cur then (s.calPut x v).modMon (fun m => { m with jWait := none })
  else
    match s.mon.jWait with
    | some w =>
      if (v - w).natAbs * 100 ≤ 3 * w then (s.calPut x v).modMon (fun m => { m with jWait := none })
      else s.modMon (fun m => { m with jWait := some v.toNat })
    | none => s.modMon (fun m => { m with jWait := some v.toNat })

/-! ### Pairing map (R222) -/

/-- Neither head is bound in mode 2. -/
def State.pairFree (s : State) (l : Side) (h k : Nat) : Bool :=
  let x := (s.lnk l).slots
  [x.a, x.b].all (fun (y : SlotRec) => !(y.bound && y.mode == 2 && (y.head == h || y.head == k)))

/-- A pair of heads in a result's map. -/
def pairIn (rows : List (BitVec 12)) (h k : Nat) : Bool := bit (lget 0 rows h) k && bit (lget 0 rows k) h && h != k

/-- Pairs that a result removes are cleared at once; a pair that it adds is set while neither head is bound in mode 2.
-/
def State.pairApply (s : State) (l : Side) (rows : List (BitVec 12)) : State :=
  let old (h k : Nat) : Bool := bit (sg 0 (s.lnk l).pair h) k
  let new (h k : Nat) : Bool := pairIn rows h k && (old h k || s.pairFree l h k)
  let row (h : Nat) : BitVec 12 := BitVec.ofNat 12 ((List.range 12).map (fun k => if new h k then 2 ^ k else 0)).sum
  s.modLink l (fun x => { x with pair := (List.range 12).foldl (fun m h => sp 0 m h (row h)) x.pair })

/-- Every pair of the result is in the map. -/
def State.pairsDone (s : State) (l : Side) (rows : List (BitVec 12)) : Bool :=
  (List.range 12).all (fun h => (List.range 12).all (fun k => !pairIn rows h k || bit (sg 0 (s.lnk l).pair h) k))

/-! ### Results -/

def calBytes (v : Int) : List Byte := bytesLE 4 (ofI 32 v)

/-- A result outside its limits, or too far from the value in use; each trim of a slice by itself (R216). -/
def calRejects (kind : Nat) (v cur lo hi dl : Int) : Bool :=
  ((calParts kind v).zip (calParts kind cur)).any
    (fun p => decide (p.1 < lo) || decide (hi < p.1) || decide (dl < ((p.1 - p.2).natAbs : Int)))

/-- An assist calibration of a head that has failed, or has come to QLK_ASMAX (R255). -/
def State.assistFails (s : State) (x : CalRun) : State :=
  if x.kind = 5 then s.modMon (fun m => { m with assistBad := (x.target :: m.assistBad).eraseDups }) else s

/-- The measured result of a running descriptor (R216, R219); `given` is the value in use where no register shows it. A
result of KIND 0x09 is applied by the ramps of R178, which the runner starts (RAMP_GO). -/
def State.calResult (s : State) (x : CalRun) (d : CalDesc) (v given : Int) (pairs : List (BitVec 12)) : State :=
  let cur := s.calValue x given
  let (lo, hi, dl, _) := s.calLimits d cur
  let s := (s.calWrite x.ridge (x.addr + 28) (calBytes v)).modRun x.addr (fun y => { y with measuring := false })
  if calRejects d.kind v cur lo hi dl then
    let n := min 255 (d.rejCnt + 1)
    let s := if x.applying then s else s.calEnd x
    let s := (s.calOutcome x.ridge x.addr 3 0).calWrite x.ridge (x.addr + 27) [BitVec.ofNat 8 n]
    let s := s.event 0x0701 (srcBlock R_MON_ID) []
    if n = 3 then (s.event 0x0704 (srcBlock R_MON_ID) []).assistFails x else s
  else
    let s := (s.calOutcome x.ridge x.addr 2 0).calWrite x.ridge (x.addr + 27) [0]
    match d.kind with
    | 8 =>
      let l := calAct 8 x.target
      let s := s.pairApply l pairs
      if s.pairsDone l pairs then s.calEnd x else s.modRun x.addr (fun y => { y with applying := true, pairs := pairs })
    | 9 => s.calEnd x
    | 10 => (s.calEnd x).calInertia x v
    | _ =>
      let s := if (s.regF (lk (calAct 5 x.target) R_QLK_ASMAX) 7 0 : Int) ≤ v then s.assistFails x else s
      s.modRun x.addr (fun y => { y with applying := true, result := v, inUse := if y.applying then y.inUse else cur })

def execCalibrationResult (addr : BitVec 48) (res given : Word) (pairs : List (BitVec 12)) (s : State) : Out :=
  .next (
    match s.mon.calRuns.find? (fun x => x.addr == addr.toNat && x.measuring && x.ended.isNone) with
    | some x =>
      match s.calRead x.ridge x.addr with
      | some d => if s.calCovered x then s.calResult x d res.toInt given.toInt pairs else s
      | none => s
    | none => s)

/-- `v` moved toward `w` by at most `n`. -/
def moveTo (v w n : Int) : Int := if v ≤ w then min w (v + n) else max w (v - n)

/-- A value moved toward another, each trim of a slice by itself. -/
def moveParts (kind : Nat) (v w n : Int) : Int :=
  calJoin (((calParts kind v).zip (calParts kind w)).map (fun p => moveTo p.1 p.2 n))

/-- A step toward the result, while the cover has the target out of service (R214, R217). For RATEUNIT 2 the cover is
handed back after it. -/
def State.calStep (s : State) (x : CalRun) (d : CalDesc) : State :=
  let (_, _, _, rate) := s.calLimits d x.inUse
  let v := moveParts x.kind x.inUse x.result rate.natAbs
  let m := s.stepMark x d.stepUnit
  let s := s.calPut x v
  if calParts x.kind v = calParts x.kind x.result ∧ x.measuring = false then s.calEnd x
  else
    let back := decide (d.stepUnit = 2)
    let s := s.modRun x.addr (fun y => { y with inUse := v, mark := m, returning := back })
    if back then s.calReturnCover x else s

/-- An apply step is due; without its cover the run takes the cover again, and goes on when it has it. -/
def State.calApply (s : State) (x : CalRun) (d : CalDesc) : State :=
  if x.kind = 8 then
    let l := calAct 8 x.target
    let s := s.pairApply l x.pairs
    if s.pairsDone l x.pairs then s.calEnd x else s
  else if x.returning then s
  else if s.calCovered x = false then s.calTakeCover x
  else if (s.stepMark x d.stepUnit).isSome ∧ s.stepMark x d.stepUnit = x.mark then s
  else s.calStep x d

/-- One apply step (R217). -/
def execCalibrationApplyStep (addr : BitVec 48) (s : State) : Out :=
  .next (
    match s.mon.calRuns.find? (fun x => x.addr == addr.toNat && x.applying && x.ended.isNone) with
    | some x =>
      match s.calRead x.ridge x.addr with
      | some d => s.calApply x d
      | none => s
    | none => s)

/-! ### Aborts (R218) -/

/-- The power domain of a target. -/
def calDom (x : CalRun) : Nat :=
  match x.kind with
  | 1 => 22 + x.tile.idx
  | 2 => 93
  | 3 => 94 + (sideOf x.target).idx
  | 4 => 94 + (sideOf x.target).idx
  | 7 => 52 + x.ridge.idx
  | 9 => 50 + x.ridge.idx
  | 10 => 93
  | 11 => 89
  | _ => 55 + (calAct x.kind x.target).idx

/-- Why a running calibration ends here, if it does. -/
def State.calAbortReason (s : State) (x : CalRun) : Option Nat :=
  if x.ended.isSome then x.ended
  else if s.ridgeSt x.ridge = .fenced then some 1
  else if s.mtr.sp = .gen then some 2
  else if (s.dom (calDom x)).st = .stopping then some 3
  else none

/-- The runner of Ridge `r` records the abort; a move in progress stops at its value. -/
def State.calAbort (s : State) (r : Side) (x : CalRun) (n : Nat) : State :=
  let s := (s.calOutcome r x.addr 5 n).calEnd x
  s.event 0x0703 (srcBlock R_MON_ID) [(0, BitVec.ofNat 32 n)]

/-- The runs of a group end, each recorded by its own Ridge's runner. -/
def State.calAbortAll (s : State) (p : CalRun → Bool) (n : Nat) : State :=
  (s.mon.calRuns.filter (fun x => p x && x.ended.isNone)).foldl (fun (s : State) x => s.calAbort x.ridge x n) s

/-- A fence: the hardware returns the covers, and the survivor's runner will record the abort. -/
def State.calFence (s : State) (r : Side) : State :=
  let l := s.mon.calRuns.filter (fun x => x.ridge == r && x.ended.isNone)
  let s := l.foldl (fun (s : State) x => s.calReturnCover x) s
  s.modMon (fun m => { m with calRuns := lmod (fun x => x.ridge == r && x.ended.isNone) (fun x => { x with ended := some 1 }) m.calRuns })

def execCalibrationAbort (addr : BitVec 48) (s : State) : Out :=
  .next (
    match s.mon.calRuns.find? (fun x => x.addr == addr.toNat) with
    | some x =>
      match s.calAbortReason x with
      | some n => s.calAbort (if s.ridgeSt x.ridge = .fenced then x.ridge.peer else x.ridge) x n
      | none => s
    | none => s)

/-! ### Voice-coil window (R222) -/

/-- WIN in µs, at the nearer limit of 2–20. -/
def State.winUs (s : State) : Nat := clampN 2 20 (s.regF R_MON_VCCAL 20 16)

/-- A write of MON_VCCAL with GO. -/
def State.vcCal (s : State) (data : Word) : State :=
  (s.setReg R_MON_VCCAL (data &&& 0x011F0000#32)).openWindow (sideOf (fld data 24 24))

def execVcCalWindow (x : Accessor) (data : Word) (s : State) : Out :=
  .next (s.access x R_MON_ID (s.ownsLink x.ridge (sideOf (fld data 24 24))) (fun s => s.vcCal data))

/-- The window ends after WIN µs, with the offset measured in it. -/
def execVcCalDone (act : Side) (ofs : BitVec 12) (us : BitVec 8) (s : State) : Out :=
  .next (
    if s.mon.vcOpen.get act ∧ s.winUs ≤ us.toNat then
      let s := s.dropWindow act
      (s.modReg R_MON_VCCAL (fun w => putFld (setBit w 30) 11 0 ofs.toNat)).monInt 4
    else s)

/-! ### Sensors and rails -/

/-- A reading enters MON_TEMP and MON_TMAX. -/
def State.tempIn (s : State) (n : Nat) (t : BitVec 16) : State :=
  let s := s.setReg (R_MON_TEMP + 4 * n) (BitVec.ofNat 32 (2 ^ 31 + t.toNat))
  s.modReg R_MON_TMAX (fun w =>
    if n < 12 then (if sfld w 31 16 < t.toInt then putFld w 31 16 t.toNat else w)
    else if sfld w 15 0 < t.toInt then putFld w 15 0 t.toNat else w)

/-- MON_TWARN.TH, at most 120 °C (Table 10.5). -/
def State.warnAt (s : State) : Nat := min 120 (s.regF R_MON_TWARN 7 0)

/-- The warning ends when the sensor falls below TH − HYST (R225). -/
def State.warnEnd (s : State) : Int := s.warnAt - s.regF R_MON_TWARN 15 8

/-- A reading of a logic-die sensor: the warning begins above TH, once until it has ended (R225). -/
def execThermalWarning (n : BitVec 4) (t : BitVec 16) (s : State) : Out :=
  .next (
    if n.toNat < 12 ∧ s.regB R_MON_CTL 0 then
      let s := s.tempIn n.toNat t
      let warm (s : State) (b : Bool) : State := s.modMon (fun m => { m with warm := sp false m.warm n.toNat b })
      if sg false s.mon.warm n.toNat then (if t.toInt < s.warnEnd * 16 then warm s false else s)
      else if (s.warnAt * 16 : Int) < t.toInt then ((warm s true).monInt 0).event 0x0420 (srcBlock R_MON_ID) []
      else s
    else s)

/-- Sensors 12 to 15 are read over the die-to-die link; with the link down they are invalid (R224). -/
def execPowerDieSensorRead (t0 t1 t2 t3 : BitVec 16) (s : State) : Out :=
  .next (
    if s.regB R_MON_CTL 0 = false then s
    else if s.mtr.linkUp then (((s.tempIn 12 t0).tempIn 13 t1).tempIn 14 t2).tempIn 15 t3
    else
      ((List.range 4).foldl (fun s i => s.modReg (R_MON_TEMP + 4 * (12 + i)) (fun w => clrBit w 31)) s).monInt 5)

/-- Default limits of Table 10.4: OV and UV in mV. -/
def defaultLim (n : Nat) : Word :=
  let w (uv ov : Nat) : Word := BitVec.ofNat 32 (ov * 65536 + uv)
  match n with
  | 0 => w 10800 14000
  | 1 => w 4750 5250
  | 6 => w 760 840
  | 7 => w 760 840
  | 14 => w 1710 1890
  | 15 => w 1710 1890
  | 16 => w 810 890
  | 17 => w 810 890
  | 20 => w 1000 1100
  | 21 => w 1000 1100
  | 22 => w 475 525
  | 23 => w 475 525
  | _ => w 1140 1260

/-- Limits in use of a voltage monitor: VCORE follows the request (Table 10.4). -/
def State.voltLim (s : State) (n : Nat) : Word :=
  let q := s.regF R_MON_AVSREQ 15 0
  if 2 ≤ n ∧ n ≤ 5 then BitVec.ofNat 32 ((q + 25) * 65536 + (q - 25)) else sget defaultLim s.mon.vlim n

def execVoltageFault (n : BitVec 5) (mv : BitVec 16) (s : State) : Out :=
  .next (
    if n.toNat < 24 ∧ s.regB R_MON_CTL 0 then
      let l := s.voltLim n.toNat
      let s := s.modMon (fun m => { m with vread := sp 0 m.vread n.toNat (mv.setWidth 32) })
      if mv.toNat < fld l 15 0 then ((s.setStat R_MON_VUV n.toNat).monInt 1).event 0x0421 (srcBlock R_MON_ID) []
      else if fld l 31 16 < mv.toNat then ((s.setStat R_MON_VOV n.toNat).monInt 2).event 0x0421 (srcBlock R_MON_ID) []
      else s
    else s)

/-! ### Adaptive core voltage (R228) -/

def State.avsManual (s : State) : Nat := clampN 650 850 (s.regF R_MON_AVSREQ 31 16)

def State.avsOn (s : State) : Bool := s.regB R_MON_AVSCFG 31 && s.fus.trimValid

/-- Falls are suspended while a domain is STARTING or a VCORE monitor reports undervoltage. -/
def State.avsHold (s : State) : Bool :=
  s.rcp.doms.any (fun d => decide (d.2.st = .starting)) || decide (s.regF R_MON_VUV 5 2 ≠ 0)

/-- What the fused table gives for the slowest of the 8 ring oscillators and the hottest logic-die sensor. -/
def State.avsWant (s : State) : Nat :=
  let slow := (List.range 8).foldl (fun m n => min m (fld (sg 0 s.mon.rosc n) 15 0)) 65535
  let hot := (List.range 12).foldl (fun m n =>
    let w := s.reg (R_MON_TEMP + 4 * n)
    if bit w 31 then max m (sfld w 15 0) else m) (-32768)
  Config.avsVolt ((List.range 160).map (fun i => sg 0 s.fus.shadow (41 + i))) slow hot

/-- The request after 100 µs toward `want`; `ms`: a millisecond has passed since the last fall. -/
def State.avsNext (s : State) (want : Nat) (ms : Bool) : Nat :=
  let cur := s.regF R_MON_AVSREQ 15 0
  let w := clampN 650 850 want
  let step := clampN 1 50 (s.regF R_MON_AVSCFG 15 8)
  if s.avsOn = false then s.avsManual
  else if cur ≤ w then min w (cur + 10)
  else if ms && !s.avsHold then max w (cur - step)
  else cur

/-- `rosc`: the readings of the ring oscillators. -/
def execAvsUpdate (rosc : List (BitVec 16)) (ms : Bool) (s : State) : Out :=
  .next (
    let s := s.modMon (fun m =>
      { m with rosc := (rosc.take 8).zipIdx.foldl (fun t p => sp 0 t p.2 (p.1.setWidth 32)) m.rosc })
    s.modReg R_MON_AVSREQ (fun w => putFld w 15 0 (s.avsNext s.avsWant ms)))

def execAvsClamp (s : State) : Out :=
  .next (
    let q := s.regF R_MON_AVSREQ 15 0
    if s.avsOn ∧ (q = 650 ∨ q = 850) then (s.monInt 3).event 0x0422 (srcBlock R_MON_ID) [] else s)

end Sys2Proof.Machine
end

