-- ==== Sys2Proof/Machine/ZoneTable.lean ====
section
/-!
DEFINITION. The Zone Table (R248–R250) and its search.
-/
namespace Sys2Proof.Machine

/-! ### Entries (Table 11.6) -/

def ZEntry.use (e : ZEntry) : Nat := fld e.w0 63 60
def ZEntry.state (e : ZEntry) : Nat := fld e.w0 59 56
def ZEntry.act (e : ZEntry) : Side := sideOf (fld e.w0 55 55)
def ZEntry.d (e : ZEntry) : Nat := fld e.w0 54 51
def ZEntry.ggen (e : ZEntry) : Nat := fld e.w0 47 40
def ZEntry.members (e : ZEntry) : BitVec 12 := BitVec.ofNat 12 (fld e.w0 39 28)
def ZEntry.deg (e : ZEntry) : BitVec 12 := BitVec.ofNat 12 (fld e.w0 27 16)
def ZEntry.band (e : ZEntry) : Nat := fld e.w0 15 0
def ZEntry.wgen (e : ZEntry) : Nat := fld e.w1 63 32
def ZEntry.hwp (e : ZEntry) : Nat := fld e.w1 27 10
def ZEntry.wp (e : ZEntry) : Nat := fld e.w1 9 0
def ZEntry.ns (e : ZEntry) : Nat := fld e.w2 63 57
def ZEntry.zone (e : ZEntry) : Nat := fld e.w2 56 40
def ZEntry.stgcnt (e : ZEntry) : Nat := fld e.w2 39 22

def ZEntry.setState (e : ZEntry) (v : Nat) : ZEntry := { e with w0 := putFld e.w0 59 56 v }

def ZEntry.bound (e : ZEntry) : Bool := decide (e.use ≠ 0)

/-- Zone capacity in LBAs (Table 11.4). -/
def ZEntry.cap (e : ZEntry) : Nat := e.d * 16384

def popc {n : Nat} (w : BitVec n) : Nat := ((List.range n).filter (fun i => bit w i)).length

/-- The listed zone states. -/
def stateOk (v : Nat) : Bool := decide (v = 1 ∨ v = 2 ∨ v = 3 ∨ v = 4 ∨ v = 13 ∨ v = 14 ∨ v = 15)

/-- Valid for binding (R249). -/
def ZEntry.valid (e : ZEntry) (nslot : Nat) : Bool :=
  let cairn := decide (e.use = 5)
  let dOk := if cairn then decide (1 ≤ e.d ∧ e.d ≤ 12) else decide (6 ≤ e.d ∧ e.d ≤ 10)
  decide (1 ≤ e.use ∧ e.use ≤ 7) && stateOk e.state && dOk &&
    decide (popc e.members = if cairn then e.d else e.d + 2) &&
    decide (e.deg &&& ~~~e.members = 0) && decide (e.band < nslot)

def ZEntry.word (e : ZEntry) (w : Nat) : DWord :=
  match w with
  | 0 => e.w0
  | 1 => e.w1
  | 2 => e.w2
  | _ => e.w3

/-- The bits of a word that lie in a field of Table 11.6; the others read as zero (R7). -/
def zwordMask (w : Nat) : DWord :=
  match w with
  | 0 => 0xFFF8FFFFFFFFFFFF#64
  | 1 => 0xFFFFFFFF0FFFFFFF#64
  | 2 => 0xFFFFFFFFFFC00000#64
  | _ => 0xFFFFFFFFFFFFFFFF#64

def ZEntry.setWord (e : ZEntry) (w : Nat) (v : DWord) : ZEntry :=
  let v := v &&& zwordMask w
  match w with
  | 0 => { e with w0 := v }
  | 1 => { e with w1 := v }
  | 2 => { e with w2 := v }
  | _ => { e with w3 := v }

/-- An entry from its four words. -/
def ZEntry.ofWords (a b c d : DWord) : ZEntry := ⟨a &&& zwordMask 0, b &&& zwordMask 1, c &&& zwordMask 2, d⟩

/-! ### Placement (R231, R233, R241) -/

def ZEntry.names (e : ZEntry) (h : Nat) : Bool := bit e.members h

/-- W, the number of positions. -/
def ZEntry.width (e : ZEntry) : Nat := popc e.members

/-- The members in ascending order of local head: the positions. -/
def ZEntry.heads (e : ZEntry) : List Nat := (List.range 12).filter (fun h => e.names h)

/-- Position of an index of a stripe (data 0–9, P 14, Q 15). A CAIRN band group has no parity: data lies from position
0. -/
def ZEntry.position (e : ZEntry) (stripe idx : Nat) : Nat :=
  if e.use = 5 then idx
  else if idx = 14 then stripe % e.width
  else if idx = 15 then (stripe + 1) % e.width
  else (stripe + 2 + idx) % e.width

/-- The member that holds an index of a stripe. -/
def ZEntry.headOf (e : ZEntry) (stripe idx : Nat) : Nat := lget 12 e.heads (e.position stripe idx)

/-- Indices of a stripe: the D data chunks, P and Q. -/
def ZEntry.indices (e : ZEntry) : List Nat := List.range e.d ++ (if e.use = 5 then [] else [14, 15])

/-- Data sectors from one stripe to the next in the numbering of data sectors: 320 in a conventional band group
(Table 6.3), D · 32 elsewhere (R241). -/
def ZEntry.pitch (e : ZEntry) : Nat := if e.use = 2 ∨ e.use = 6 then 320 else e.d * 32

/-- Stripe, data chunk and sector of a data sector. -/
def ZEntry.stripeAt (e : ZEntry) (k : Nat) : Nat := k / e.pitch

def ZEntry.chunkAt (e : ZEntry) (k : Nat) : Nat := k % e.pitch / 32

/-- SECTOR of a Media Tag of a CAIRN band group (R247). -/
def cairnSector (stripe position sector : Nat) : Nat := stripe * 384 + position * 32 + sector

def State.zent (s : State) (n : Nat) : ZEntry := sg ZEntry.default s.ztb.entries (n % 131072)

def State.putZent (s : State) (n : Nat) (e : ZEntry) : State :=
  s.modZtb (fun z => { z with entries := sp ZEntry.default z.entries (n % 131072) e })

/-- An applied update or a binding write (ZTB_GEN). -/
def State.bumpGen (s : State) : State := s.modZtb (fun z => { z with gen := z.gen + 1 })

def State.ztbInt (s : State) (i : Nat) : State := s.setStat R_ZTB_INTSTAT i

def State.ztbUp (s : State) : Bool := s.blockUp R_ZTB_ID

/-- Entries that are bound, with their index. -/
def State.boundEnts (s : State) : List (Nat × ZEntry) := s.ztb.entries.filter (fun p => p.2.bound)

/-- Member band slots of an actuator named by no bound entry (ZTB_FREECNT). -/
def State.freeBands (s : State) (x : Side) : Nat :=
  let used := ((s.boundEnts.filter (fun p => decide (p.2.act = x))).map (fun p => p.2.band)).eraseDups
  s.regF R_ZTB_CTL 16 0 - used.length

/-! ### The table window (R249) -/

def putHalf (w : DWord) (high : Bool) (data : Word) : DWord :=
  if high then putFld w 63 32 data.toNat else putFld w 31 0 data.toNat

/-- A block-bus write at byte offset `off` of the window. -/
def State.ztbWindow (s : State) (off : Nat) (data : Word) : State :=
  let n := off / 32 % 131072
  let w := off / 8 % 4
  let high := decide (off / 4 % 2 = 1)
  let e := s.zent n
  let e' := e.setWord w (putHalf (e.word w) high data)
  if w = 3 then s.putZent n e'
  else if e.bound then s.ztbInt 0
  else if e'.bound = false then s.putZent n e'
  else if e'.valid (s.regF R_ZTB_CTL 16 0) then (s.putZent n e').bumpGen
  else s.ztbInt 0

def execZtbWindowWrite (x : Accessor) (off : BitVec 22) (data : Word) (s : State) : Out :=
  .next (s.access x R_ZTB_ID true (fun s => s.ztbWindow off.toNat data))

/-! ### Updates (R250, Table 11.7) -/

/-- STGADD on an entry, held to its range. -/
def State.stgAdd (s : State) (i : Nat) (n : Int) : State :=
  let e := s.zent i
  let v := clampI 0 163840 ((e.stgcnt : Int) + n)
  (s.putZent i { e with w2 := putFld e.w2 39 22 v.toNat }).bumpGen

/-- The entry after an update; none where its condition fails or its code is not listed. -/
def ztbApply (e : ZEntry) (w : DWord) : Option ZEntry :=
  match fld w 63 60 with
  | 1 => if e.state = fld w 55 52 ∧ stateOk (fld w 59 56) then some (e.setState (fld w 59 56)) else none
  | 2 => if e.wp < fld w 41 32 ∧ fld w 41 32 ≤ 512 then some { e with w1 := putFld e.w1 9 0 (fld w 41 32) } else none
  | 3 =>
    let v := fld w 49 32
    if e.hwp < v ∧ v ≤ e.cap then
      let e1 := { e with w1 := putFld e.w1 27 10 v }
      some (if e.use = 1 ∧ v = e.cap then e1.setState 14 else e1)
    else none
  | 4 =>
    let v : Int := e.stgcnt + sfld w 49 32
    if 0 ≤ v ∧ v ≤ 163840 then some { e with w2 := putFld e.w2 39 22 v.toNat } else none
  | 5 =>
    if e.stgcnt = 0 then
      let e1 := { e with w1 := BitVec.ofNat 64 ((e.wgen + 1) % 2 ^ 32 * 2 ^ 32) }
      some (e1.setState 1)
    else none
  | 6 =>
    if e.bound then
      let m := (e.deg ||| (BitVec.ofNat 12 (fld w 43 32) &&& e.members)).toNat
      some { e with w0 := putFld e.w0 27 16 m }
    else none
  | 7 => if e.state = 1 ∧ e.stgcnt = 0 then some { e with w0 := putFld e.w0 63 60 0 } else none
  | _ => none

/-! ### Poison and deferred ranges (R270, R343) -/

/-- What is left of a range when another is taken away: start and length. -/
def subRange (a n b m : Nat) : List (Nat × Nat) :=
  (if a < b then [(a, min n (b - a))] else []) ++ (if b + m < a + n then [(max a (b + m), a + n - max a (b + m))] else [])

def subRanges (l : List (Nat × Nat)) (b m : Nat) : List (Nat × Nat) := l.flatMap (fun p => subRange p.1 p.2 b m)

/-- LBAs written by a committed write, or covered by a zone reset, leave the deferred page (R343). -/
def State.deferCover (s : State) (ns b m : Nat) : State :=
  let l := s.win.deferred.map (fun d => if d.ns = ns then { d with left := subRanges d.left b m } else d)
  let l' := l.filter (fun d => !d.left.isEmpty)
  s.modWin (fun w =>
    { w with deferred := l', deferGen := if l'.length = l.length then w.deferGen else w.deferGen + 1 })

/-- Poisoned LBAs that were written over or reset (R270). -/
def State.poisonClear (s : State) (ns b m : Nat) : State :=
  let f (r : Redun) : Redun :=
    { r with
      poison := r.poison.flatMap (fun p => if p.ns = ns then (subRange p.lba p.count b m).map (fun q => ⟨ns, q.1, q.2⟩) else [p]) }
  (s.modRedun .a f).modRedun .b f

/-- A zone reset covers its LBAs: deferred ranges, poison and zero-filled sectors of the zone go. -/
def State.zoneCleared (s : State) (i : Nat) (e : ZEntry) : State :=
  let s := s.modWin (fun w => { w with fills := w.fills.filter (fun f => f.1 != i) })
  let s := s.modRedun e.act (fun r => { r with flooded := r.flooded.filter (fun j => j != i) })
  if e.use = 1 then (s.deferCover e.ns (e.zone * 262144) 262144).poisonClear e.ns (e.zone * 262144) 262144 else s

/-- ZTB_LASTREF of a refused update word: the operation and the entry (R250). -/
def ztbRef (w : DWord) : Word := BitVec.ofNat 32 (fld w 63 60 * 2 ^ 28 + fld w 16 0)

/-- An update word acts on entry `i`, whose contents are `e`; one that is refused changes nothing. -/
def State.ztbDo (s : State) (i : Nat) (e : ZEntry) (w : DWord) : State :=
  match ztbApply e w with
  | some f => (s.putZent i f).bumpGen
  | none => s

/-- A write of P_ZTB_UPDATE. -/
def State.ztbUpdate (s : State) (c : CtxId) (w : DWord) : State :=
  let n := fld w 16 0
  if s.ztbUp = false then s.refuseCtx c 0xC9 5
  else
    match ztbApply (s.zent n) w with
    | some e => when_ (decide (fld w 63 60 = 5)) (fun s => s.zoneCleared n e) (s.putZent n e).bumpGen
    | none =>
      let s := s.modZtb (fun z => { z with lastRef := ztbRef w })
      (s.ztbInt 1).refuseCtx c 0xC9 5

/-- The update word with its operation. -/
def ztbOp (op : Nat) (w : DWord) : DWord := putFld w 63 60 op

def execZtbState (c : CtxId) (w : DWord) (s : State) : Out :=
  .next (
    s.byCtx c (fun s =>
      s.ztbUpdate c (ztbOp 1 w)))

def execZtbWp (c : CtxId) (w : DWord) (s : State) : Out :=
  .next (
    s.byCtx c (fun s =>
      s.ztbUpdate c (ztbOp 2 w)))

def execZtbHwp (c : CtxId) (w : DWord) (s : State) : Out :=
  .next (
    s.byCtx c (fun s =>
      s.ztbUpdate c (ztbOp 3 w)))

def execZtbStgadd (c : CtxId) (w : DWord) (s : State) : Out :=
  .next (
    s.byCtx c (fun s =>
      s.ztbUpdate c (ztbOp 4 w)))

def execZtbReset (c : CtxId) (w : DWord) (s : State) : Out :=
  .next (
    s.byCtx c (fun s =>
      s.ztbUpdate c (ztbOp 5 w)))

def execZtbDegset (c : CtxId) (w : DWord) (s : State) : Out :=
  .next (
    s.byCtx c (fun s =>
      s.ztbUpdate c (ztbOp 6 w)))

def execZtbFree (c : CtxId) (w : DWord) (s : State) : Out :=
  .next (
    s.byCtx c (fun s =>
      s.ztbUpdate c (ztbOp 7 w)))

/-- An update with an unlisted code. -/
def execZtbUpdateRefused (c : CtxId) (w : DWord) (s : State) : Out :=
  .next (
    s.byCtx c (fun s =>
      if 1 ≤ fld w 63 60 ∧ fld w 63 60 ≤ 7 then s else s.ztbUpdate c w))

/-! ### Search (Table 11.12) -/

/-- A write of ZTB_SCAN with GO: the search takes its arguments. While a search runs the fields are still stored, and GO
has no effect. -/
def State.scanGo (s : State) (data : Word) : State :=
  let v := data &&& 0x7E01FFFF#32
  let s := s.setReg R_ZTB_SCAN v
  if s.ztb.scanBusy then s else s.modZtb (fun z => { z with scanBusy := true, scanRes := 0, scanArg := v })

def execZoneScan (x : Accessor) (data : Word) (s : State) : Out :=
  .next (s.access x R_ZTB_ID true (fun s => s.scanGo data))

/-- The first entry from `k` up that matches. -/
def scanFrom (t : Sparse ZEntry) (f : ZEntry → Bool) : Nat → Nat → Option Nat
  | 0, _ => none
  | n + 1, k => if f (sg ZEntry.default t k) then some k else scanFrom t f n (k + 1)

def State.scanFind (s : State) : Option Nat :=
  let w := s.ztb.scanArg
  let u := fld w 28 25
  if 8 ≤ u then none
  else
    scanFrom s.ztb.entries (fun e => decide (e.use = u) && (!bit w 30 || decide (e.act.idx = fld w 29 29)))
      (131072 - fld w 16 0) (fld w 16 0)

def execZoneScanDone (s : State) : Out :=
  .next (
    if s.ztb.scanBusy then
      let r : Word :=
        match s.scanFind with
        | some n => BitVec.ofNat 32 (2 ^ 31 + 2 ^ 30 + n)
        | none => 0x40000000
      s.modZtb (fun z => { z with scanBusy := false, scanRes := r })
    else s)

/-- P_ZTB_READ: the word of the entry that the context's P_ZTB_SEL names. -/
def State.ztbRead (s : State) (c : CtxId) : DWord :=
  let v := (s.ctx c).stagedAt 0xC7
  (s.zent (fld v 16 0)).word (fld v 18 17)

end Sys2Proof.Machine
end

