-- ==== Sys2Proof/Machine/Ledger.lean ====
section
/-!
DEFINITION. The Resource Ledger: pools, leases, waiters, window admission and the audit (R296, R344–R350).
-/
namespace Sys2Proof.Machine

def State.rlgInt (s : State) (i : Nat) : State := s.setStat R_RLG_INTSTAT i

/-! ### Pools (Table 16.1) -/

/-- Slots or credits that an amount takes from its pool: WIN counts 4 KiB slots (R291). -/
def poolUnits (pool amount : Nat) : Nat := if pool = 1 then (amount + 4095) / 4096 else amount

def poolKey (pool inst : Nat) : Nat := 4 * pool + inst

/-- The instance a pool register shows: WIN has one, per-Ridge and per-actuator pools two, AEQ and ESC four. -/
def poolInst (pool inst : Nat) : Nat :=
  match pool with
  | 0 => inst % 2
  | 4 => inst
  | 5 => inst % 2
  | 8 => inst % 2
  | 9 => inst
  | _ => 0

def Lease.units (l : Lease) : Nat := poolUnits l.pool l.amount

def leasePoolInst (l : Lease) : Nat := if l.pool = 1 then 0 else l.inst

/-- Held according to the leases, or to the entries that hold them (R349). -/
def State.poolHeld (s : State) (pool inst : Nat) : Nat :=
  let leased := ((s.rlg.leases.filter (fun l => decide (l.pool = pool ∧ leasePoolInst l = inst))).map Lease.units).sum
  match pool with
  | 2 => s.nve.cmds.length
  | 3 => (s.hdg.entries.filter (fun p => p.2.isSome)).length
  | 4 => (s.tl (quadOf inst)).aeq.length
  | 5 => s.decHeld (sideOf inst) + leased
  | 6 => s.nve.staging.length
  | 7 => s.crn.head - s.crn.tail
  | _ => leased

/-- The least number of GCRES band groups: 2 when a conventional namespace exists, otherwise 0 (Table 11.5). -/
def State.gcresMin (s : State) : Nat :=
  if s.nve.nss.any (fun p => p.2.isSome && !bit (sg 0 s.nve.cfg p.1) 30) then 2 else 0

/-- Sizes; DEC shrinks only as held slots return (R344). -/
def State.poolSize (s : State) (pool inst : Nat) : Nat :=
  match pool with
  | 0 => 40
  | 1 => 262144
  | 2 => 16384
  | 3 => 16384
  | 4 => 256
  | 5 => max (s.decSize (sideOf inst)) (s.poolHeld 5 inst)
  | 6 => 1024
  | 7 => 195584
  | 8 => max s.gcresMin (s.rlg.gcrSize.get (sideOf inst))
  | _ => 1

/-- Pools whose free count is kept by itself. -/
def poolKept (pool : Nat) : Bool := decide (pool = 0 ∨ pool = 1 ∨ pool = 8 ∨ pool = 9)

def State.poolTransit (s : State) (pool inst : Nat) : Nat := sg 0 s.rlg.transit (poolKey pool inst)

def State.poolFree (s : State) (pool inst : Nat) : Nat :=
  if poolKept pool then s.poolSize pool inst - sg 0 s.rlg.used (poolKey pool inst)
  else s.poolSize pool inst - s.poolHeld pool inst

/-- Credits leave, or return to, the free count. -/
def Ledger.use (l : Ledger) (pool inst n : Nat) : Ledger :=
  if poolKept pool then { l with used := sp 0 l.used (poolKey pool inst) (sg 0 l.used (poolKey pool inst) + n) } else l

def Ledger.unuse (l : Ledger) (pool inst n : Nat) : Ledger :=
  if poolKept pool then { l with used := sp 0 l.used (poolKey pool inst) (sg 0 l.used (poolKey pool inst) - n) } else l

def Ledger.addTransit (l : Ledger) (pool inst n : Nat) : Ledger :=
  { l with transit := sp 0 l.transit (poolKey pool inst) (sg 0 l.transit (poolKey pool inst) + n) }

/-! ### Leases -/

/-- A lease number of 1 to 32,767 that is not in use (DESIGN CHOICE, log 8). -/
def Ledger.nextLease (l : Ledger) : Option Nat :=
  pickOf .lease ((List.range' 1 32767).filter (fun k => !l.leases.any (fun x => x.num == k)))

/-- A request of R346. Pool 0 and 5 mean the context's own Ridge. -/
structure CreditReq where
  pool : Nat
  inst : Nat
  cls : Nat
  amount : Nat
deriving DecidableEq, Repr

/-- The request staged in P_LDG_SEL; none where it names no acquirable pool (R346). An amount of 0, or an actuator that
does not exist, is no request either (DESIGN CHOICE, log 148). -/
def State.creditReq (s : State) (c : CtxId) (window : Bool) : Option CreditReq :=
  let w := (s.ctx c).stagedAt 0xC0
  let pool := if window then 1 else fld w 63 60
  let k := fld w 58 56
  let cls := if k = 0 ∨ 5 < k then 5 else k
  let inst := fld w 49 48
  let amount := fld w 31 0
  if amount = 0 then none
  else
    match pool with
    | 0 => some ⟨0, c.ridge.idx, cls, amount⟩
    | 1 => if inst < 2 then some ⟨1, inst, cls, amount⟩ else none
    | 5 => some ⟨5, c.ridge.idx, cls, amount⟩
    | 8 => if inst < 2 then some ⟨8, inst, cls, amount⟩ else none
    | 9 => if inst < 2 then some ⟨9, 2 + inst, cls, amount⟩ else none
    | _ => none

/-! ### The energy, cap and actuator limits (R296, R259) -/

/-- Members of an actuator in a state. -/
def State.memberAt (s : State) (x : Side) (h : Nat) : Member := sg Member.default s.member (12 * x.idx + h)

/-- A sector of a member has been recovered at L3 (R255): the times of the last 256. -/
def State.logL3 (s : State) (x : Side) (h : Nat) : State :=
  s.modMember (fun t =>
    let m := sg Member.default t (12 * x.idx + h)
    sp Member.default t (12 * x.idx + h) { m with l3 := (s.evr.ot.toNat :: m.l3).take 256 })

def State.anyFailed (s : State) (x : Side) : Bool :=
  (List.range 12).any (fun h => decide ((s.memberAt x h).st = .failed))

/-- Data capacity of the EMERGENCY band groups of an actuator, in bytes (R259). -/
def State.emergencyCap (s : State) (x : Side) : Nat :=
  (((s.boundEnts.filter (fun p => decide (p.2.use = 4 ∧ p.2.act = x))).map (fun p => p.2.d)).sum) * 67108864

/-- The cap of R291. -/
def State.winCap (s : State) : Nat := if s.wsc then 67108864 else 1073741824

/-- A window request for `b` bytes bound for actuator `x` may be granted (R296, R297). -/
def State.winOk (s : State) (x : Side) (b : Nat) : Bool :=
  let e := s.rlg.eAvail
  let w := s.winHeld x + b
  !s.mtr.loss && decide (s.energyFlush s.winMax ≤ e) && decide (s.energyFlush (max w (s.winHeld x.peer)) ≤ e) &&
    decide (w + s.winHeld x.peer ≤ s.winCap) && (!s.anyFailed x || decide (w ≤ s.emergencyCap x))

/-! ### Grants (R346, R348) -/

def allCtx : List CtxId :=
  Side.all.flatMap (fun r => SpurId.all.flatMap (fun sp => Quad.all.map (fun q => ⟨r, sp, q⟩)))

/-- Other contexts that wait on a pool. -/
def State.waitersOn (s : State) (c : CtxId) (q : CreditReq) : List CreditWait :=
  (allCtx.filter (fun d => decide (d ≠ c))).filterMap (fun d =>
    match (s.ctx d).creditWait with
    | some w => if w.pool = q.pool ∧ (if q.pool = 1 then True else w.inst = q.inst) then some w else none
    | none => none)

/-- Free staging stripes of an actuator. -/
def State.stagingFree (s : State) (x : Side) : Nat :=
  ((s.boundEnts.filter (fun p => decide (p.2.use = 3 ∧ p.2.act = x))).map (fun p => 512 - p.2.wp)).sum

/-- The amount is there: from the pool itself (`false`), or from the Ridge's ESC buffer (`true`). ESC grants only to
class 1 or 2, and only while BUF or the actuator's free staging stripes are exhausted (R348). -/
def State.creditThere (s : State) (pool inst cls amount : Nat) : Option Bool :=
  let u := poolUnits pool amount
  let i := if pool = 1 then 0 else inst
  if pool = 1 ∧ s.winOk (sideOf inst) amount = false then none
  else if pool = 9 ∧ (2 < cls ∨ s.stagingFree (sideOf (inst - 2)) ≠ 0) then none
  else if u ≤ s.poolFree pool i then some false
  else if pool = 0 ∧ cls ≤ 2 ∧ s.poolFree 0 i = 0 ∧ u ≤ s.poolFree 9 inst then some true
  else none

/-- The order of waiters: drain class, then time waited. -/
def CreditWait.before (w : CreditWait) (cls since : Nat) : Bool :=
  decide (w.cls < cls) || (decide (w.cls = cls) && decide (w.since < since))

/-- A request can be granted now (R348): `since` orders it among the waiters. -/
def State.creditFits (s : State) (c : CtxId) (q : CreditReq) (since : Nat) : Option Bool :=
  let ws := s.waitersOn c q
  if q.cls = 5 ∧ ws.any (fun w => decide (w.cls < 5)) then none
  else if ws.any (fun w => w.before q.cls since && (s.creditThere w.pool w.inst w.cls w.amount).isSome) then none
  else s.creditThere q.pool q.inst q.cls q.amount

/-- The context's place among the waiters: its own, or the last. -/
def State.waitSince (s : State) (c : CtxId) (q : CreditReq) : Nat :=
  match (s.ctx c).creditWait with
  | some w => if w.pool = q.pool ∧ w.inst = q.inst then w.since else s.rlg.clock
  | none => s.rlg.clock

/-- Grant a request: a new lease. -/
def State.grant (s : State) (c : CtxId) (q : CreditReq) (esc : Bool) (n : Nat) : State :=
  let pool := if esc then 9 else q.pool
  let isEsc := esc || decide (q.pool = 9)
  let l : Lease := ⟨n, .ctx c, pool, q.inst, q.amount, isEsc, [], 0⟩
  let s := s.modRlg (fun r => { (r.use pool (leasePoolInst l) l.units) with leases := r.leases ++ [l] })
  s.modCtx c (fun x => { x with creditWait := none })

/-- The context waits on line 9 (R346). -/
def State.creditWaitOn (s : State) (c : CtxId) (q : CreditReq) : State :=
  let since := s.waitSince c q
  let s := s.modCtx c (fun x => { x with creditWait := some ⟨q.pool, q.inst, q.amount, q.cls, since⟩ })
  s.modRlg (fun r => { r with clock := r.clock + 1 })

/-- P_LDG_ACQ and P_LDG_WINDOW: the word returned is 0 where no lease is granted. -/
def State.acquire (s : State) (c : CtxId) (window : Bool) : State × DWord :=
  match s.creditReq c window with
  | none => (s.rlgInt 5, 0)
  | some q =>
    match s.creditFits c q (s.waitSince c q) with
    | none => (s.creditWaitOn c q, 0)
    | some esc =>
      match s.rlg.nextLease with
      | none => (s.rlgInt 7, 0)
      | some n =>
        let isEsc := esc || decide (q.pool = 9)
        (s.grant c q esc n, BitVec.ofNat 64 (q.amount * 2 ^ 32 + b2n isEsc * 65536 + n))

def State.creditReady (s : State) (c : CtxId) : Bool :=
  match s.creditReq c false with
  | some q => (s.creditFits c q (s.waitSince c q)).isSome
  | none => false

/-- P_LDG_MEDIA (R346): the media token of the stripe that the key names. -/
def State.mediaReserve (s : State) (c : CtxId) : State × DWord :=
  let w := (s.ctx c).stagedAt 0xC0
  let key := fld w 25 0
  if fld w 63 60 ≠ 15 then (s.rlgInt 5, 0)
  else if key / 131072 < (s.zent (key % 131072)).wp ∨ s.rlg.leases.any (fun l => decide (l.pool = 15 ∧ l.key = key)) then (s, 0)
  else
    match s.rlg.nextLease with
    | none => (s.rlgInt 7, 0)
    | some n =>
      let l : Lease := ⟨n, .ctx c, 15, 0, 1, false, [], key⟩
      (s.modRlg (fun r => { r with leases := r.leases ++ [l] }), BitVec.ofNat 64 n)

/-! ### Release (R345, R347, R348) -/

/-- Slots of the window that hold a sector. -/
def State.winSectors (s : State) : Nat := (s.win.pieces.map (fun p => p.blocks - p.gone.length)).sum

/-- Of `u` units that leave a lease, those whose release depends on a record not yet committed (Table 16.1, R345): WIN
slots still needed for the sectors in the window, whose WREL records are to come, and an ESC staging stripe that is
sealed and not yet on media. -/
def State.inTransit (s : State) (l : Lease) (u : Nat) : Nat :=
  if l.pool = 1 then min u (s.winSectors - (s.poolHeld 1 0 - u + s.poolTransit 1 0))
  else if l.pool = 9 ∧ 2 ≤ l.inst ∧ (s.rlg.escKey.get (sideOf (l.inst - 2))).isSome then u
  else 0

/-- `amount` leaves a lease: its units return to the free count, or stay in transit. -/
def State.leaseDrop (s : State) (l : Lease) (amount : Nat) : State :=
  let rest := l.amount - amount
  let u := l.units - poolUnits l.pool rest
  let t := s.inTransit l u
  s.modRlg (fun r =>
    let r1 := (r.addTransit l.pool (leasePoolInst l) t).unuse l.pool (leasePoolInst l) (u - t)
    { r1 with
      leases :=
        if rest = 0 then r.leases.filter (fun x => x.num != l.num)
        else lmod (fun x => x.num == l.num) (fun x => { x with amount := rest }) r.leases })

/-- A buffer credit: BUF, or an ESC buffer of a Ridge. -/
def Lease.isBuffer (l : Lease) : Bool := decide (l.pool = 0) || (decide (l.pool = 9) && decide (l.inst < 2))

/-- P_LDG_REL. -/
def State.creditRelease (s : State) (c : CtxId) (data : DWord) : State :=
  match s.rlg.leases.find? (fun l => l.num == fld data 47 32) with
  | none => s.refuseCtx c 0xC2 5
  | some l =>
    if l.owner ≠ .ctx c ∨ l.amount < fld data 31 0 ∨ l.isBuffer then s.refuseCtx c 0xC2 5
    else s.leaseDrop l (fld data 31 0)

/-- Bind a buffer to an unbound BUF or ESC credit of the context (R347). -/
def State.bindBuffer (s : State) (c : CtxId) (buf : Nat) : Option State :=
  match s.rlg.leases.find? (fun l => decide (l.owner = .ctx c) && l.isBuffer && decide (l.inst = c.ridge.idx) &&
      decide (l.bound.length < l.amount)) with
  | none => none
  | some l =>
    some (s.modRlg (fun r =>
      { r with leases := lmod (fun x => x.num == l.num) (fun x => { x with bound := x.bound ++ [buf] }) r.leases }))

/-- The credit of a buffer that becomes FREE returns. -/
def State.unbindBuffer (s : State) (r : Side) (buf : Nat) : State :=
  match s.rlg.leases.find? (fun l => l.isBuffer && decide (l.inst = r.idx) && l.bound.contains buf) with
  | none => s
  | some l =>
    let l' := { l with bound := l.bound.filter (fun b => b != buf) }
    let s := s.modRlg (fun g => { g with leases := lmod (fun x => x.num == l.num) (fun _ => l') g.leases })
    s.leaseDrop l' 1

/-- Units in transit return to the free count. -/
def Ledger.land (r : Ledger) (pool inst n : Nat) : Ledger :=
  let t := sg 0 r.transit (poolKey pool inst)
  ({ r with transit := sp 0 r.transit (poolKey pool inst) (t - min n t) }).unuse pool inst (min n t)

/-- A WREL record commits: its slots return to free (R345). -/
def State.winReturn (s : State) (slots : Nat) : State := s.modRlg (fun r => r.land 1 0 slots)

/-- A context that holds an ESC staging lease of an actuator seals a stripe there. -/
def State.escSeal (s : State) (c : CtxId) (x : Side) (key : Nat) : State :=
  if s.rlg.leases.any (fun l => decide (l.owner = .ctx c ∧ l.pool = 9 ∧ l.inst = 2 + x.idx)) then
    s.modRlg (fun r => { r with escKey := r.escKey.set x (some key) })
  else s

/-- The ONMEDIA record of that stripe commits: the reserve of its actuator is whole again (Table 16.1). -/
def State.escReturn (s : State) (x : Side) (key : Nat) : State :=
  if s.rlg.escKey.get x = some key then
    s.modRlg (fun r => { (r.land 9 (2 + x.idx) 1) with escKey := r.escKey.set x none })
  else s

/-! ### Rows -/

def State.rlgUp (s : State) : Bool := s.blockUp R_RLG_ID

def execCreditAcquire (c : CtxId) (reg : BitVec 6) (s : State) : Out :=
  .next (
    s.byCtx c (fun s =>
      if s.rlgUp then (let (s, w) := s.acquire c false; s.modCtx c (fun x => x.wr reg.toNat w))
      else s.refuseCtx c 0xC1 5))

def execWindowAdmit (c : CtxId) (reg : BitVec 6) (s : State) : Out :=
  .next (
    s.byCtx c (fun s =>
      if s.rlgUp then (let (s, w) := s.acquire c true; s.modCtx c (fun x => x.wr reg.toNat w))
      else s.refuseCtx c 0xC4 5))

def execMediaReserve (c : CtxId) (reg : BitVec 6) (s : State) : Out :=
  .next (
    s.byCtx c (fun s =>
      if s.rlgUp then (let (s, w) := s.mediaReserve c; s.modCtx c (fun x => x.wr reg.toNat w))
      else s.refuseCtx c 0xC3 5))

def execCreditRelease (c : CtxId) (data : DWord) (s : State) : Out :=
  .next (
    s.byCtx c (fun s =>
      if s.rlgUp then s.creditRelease c data else s.refuseCtx c 0xC2 5))

/-- The amount a context waits for could be granted: line 9 (R346, R348). -/
def execCreditAvailable (c : CtxId) (s : State) : Out :=
  .next (
    match (s.ctx c).creditWait with
    | some w =>
      if (s.creditFits c ⟨w.pool, w.inst, w.cls, w.amount⟩ w.since).isSome then s.raiseLine c 9 else s
    | none => s)

/-! ### Audit (R349) -/

/-- Counted sum less size of a pool. -/
def State.auditDiff (s : State) (pool inst : Nat) : Int :=
  ((s.poolFree pool inst + s.poolHeld pool inst + s.poolTransit pool inst : Nat) : Int) - s.poolSize pool inst

/-- The pools and instances audited. -/
def auditList : List (Nat × Nat) :=
  [(0, 0), (0, 1), (1, 0), (2, 0), (3, 0), (4, 0), (4, 1), (4, 2), (4, 3), (5, 0), (5, 1), (6, 0), (7, 0), (8, 0), (8, 1),
   (9, 0), (9, 1), (9, 2), (9, 3)]

/-- AUDFIX: free = size − held − in transit. -/
def State.auditFix (s : State) (pool inst : Nat) : State :=
  if poolKept pool then
    let n := min (s.poolSize pool inst) (s.poolHeld pool inst + s.poolTransit pool inst)
    s.modRlg (fun r => { r with used := sp 0 r.used (poolKey pool inst) n })
  else s

def State.auditOne (s : State) (p : Nat × Nat) : State :=
  let d := s.auditDiff p.1 p.2
  if d = 0 then s
  else
    let w := 2 ^ 31 + p.1 * 2 ^ 24 + p.2 * 2 ^ 20 + (ofI 20 d).toNat
    let s := s.setReg R_RLG_AUDERR (BitVec.ofNat 32 w)
    let s := (s.bump R_RLG_AUDCNT 15 0 1).rlgInt 2
    let s := s.event 0x0013 (srcBlock R_RLG_ID) [(0, BitVec.ofNat 32 p.1), (1, BitVec.ofNat 32 p.2)]
    if s.regB R_RLG_CTL 0 then s.auditFix p.1 p.2 else s

def State.audit (s : State) : State := auditList.foldl State.auditOne (s.bump R_RLG_AUDCNT 31 16 1)

def execLedgerAudit (s : State) : Out := .next (if s.rlgUp then s.audit else s)

/-- The pool registers of the selected pool: size, free, held, in transit. -/
def State.poolView (s : State) : Nat × Nat × Nat × Nat :=
  let p := min 9 (s.regF R_RLG_POOLSEL 3 0)
  let i := poolInst p (s.regF R_RLG_POOLSEL 5 4)
  (s.poolSize p i, s.poolFree p i, s.poolHeld p i, s.poolTransit p i)

end Sys2Proof.Machine
end

