-- ==== Sys2Proof/Machine/Stripe.lean ====
section
/-!
DEFINITION. The stripe engine: buffers, landings, seal, reconstruction and the scrub check (R232–R240).
-/
namespace Sys2Proof.Machine

def State.steInt (s : State) (r : Side) (i : Nat) : State := s.setStat (rk r R_STE_INTSTAT) i

/-- Port numbers of STE_REFUSE and of Table 3.6. -/
inductive StePort where
  | move
  | recon
  | seal
  | scrub
  | bufrel
  | bufacq
deriving DecidableEq, Repr

def StePort.code : StePort → Nat
  | .move => 0
  | .recon => 1
  | .seal => 2
  | .scrub => 3
  | .bufrel => 4
  | .bufacq => 5

def StePort.port : StePort → Nat
  | .move => 0x84
  | .recon => 0x85
  | .seal => 0xD4
  | .scrub => 0x86
  | .bufrel => 0x83
  | .bufacq => 0x82

/-- A refusal at the engine is recorded in STE_REFUSE (R235). -/
def State.steNote (s : State) (r : Side) (p : StePort) (reason buf : Nat) : State :=
  let s := s.modSte r (fun e => { e with refused := BitVec.ofNat 32 (p.code * 2 ^ 28 + reason * 2 ^ 24 + buf % 64) })
  s.steInt r (if p = .seal then 1 else 0)

def State.steRefuse (s : State) (c : CtxId) (p : StePort) (reason buf : Nat) : State :=
  (s.steNote c.ridge p reason buf).refuseCtx c p.port reason

/-- The engine takes port transfers: its domain is ON and STE_CTL.EN is 1 (Table 11.9). -/
def State.steOn (s : State) (r : Side) : Bool := s.domOn (57 + r.idx) && s.regB (rk r R_STE_CTL) 0 && s.ridgeLive r

def State.stePort (s : State) (c : CtxId) (p : StePort) (f : State → State) : State :=
  if s.steOn c.ridge then f s else s.refuseCtx c p.port 5

/-! ### Acquire and release -/

/-- The lowest FREE buffer of 0 to 40. -/
def State.freeBuf (s : State) (r : Side) : Option Nat :=
  (List.range 41).find? (fun n => decide ((s.sbuf r n).mode = .free))

/-- P_STE_BUFACQ (R235, R347): the buffer's number, none where it is refused. -/
def State.bufAcquire (s : State) (c : CtxId) : State × Option DWord :=
  let r := c.ridge
  if s.regB (rk r R_STE_CTL) 1 then (s.steRefuse c .bufacq 3 0, none)
  else
    match s.freeBuf r with
    | none => (s.steRefuse c .bufacq 3 0, none)
    | some n =>
      match s.bindBuffer c n with
      | none => (s.steRefuse c .bufacq 3 n, none)
      | some s => (s.setSbuf r n { StripeBuf.default with mode := .seal, owner := some c }, some (BitVec.ofNat 64 n))

/-- P_STE_BUFREL (R240). -/
def State.bufRelease (s : State) (c : CtxId) (data : DWord) : State :=
  let r := c.ridge
  let n := fld data 5 0
  if 41 ≤ n ∨ (s.sbuf r n).mode = .free ∨ (s.sbuf r n).relWait then s.steRefuse c .bufrel 5 n
  else
    let busy := s.sectorReads r n
    let s := s.unbindBuffer r n
    let s := s.modSte r (fun e => { e with moves := e.moves.filter (fun m => m.buf != n) })
    if busy then (s.setSbuf r n { s.sbuf r n with relWait := true }).steInt r 3
    else s.setSbuf r n { StripeBuf.default with owner := (s.sbuf r n).owner }

/-! ### MOVE (R236) -/

/-- Bitmap of `n` sectors from `first`. -/
def secMask (first n : Nat) : Word := BitVec.ofNat 32 ((2 ^ n - 1) * 2 ^ first)

def StripeBuf.landedAt (b : StripeBuf) (i : Nat) : Word := sg 0 b.landed i

/-- Sectors of an index that are queued and have not landed. -/
def Ste.queued (e : Ste) (buf idx : Nat) : Word :=
  e.moves.foldl (fun w m => if m.buf = buf ∧ m.idx = idx then w ||| secMask m.sector m.left else w) 0

/-- An index of RECON or SCRUB that may land. -/
def idxIn (d i : Nat) : Bool := decide (i < d) || decide (i = 14) || decide (i = 15)

/-- The named sectors may land at the index in the buffer's mode. -/
def StripeBuf.mayLand (b : StripeBuf) (idx : Nat) (m : Word) : Bool :=
  match b.mode with
  | .seal => decide (idx ≤ 9)
  | .scrub => idxIn b.d idx
  | .recon => idxIn b.d idx && idx != b.x && idx != b.y && decide (m &&& ~~~(secMask b.first b.count) = 0)
  | _ => false

def State.chunkMove (s : State) (c : CtxId) (w : DWord) : State :=
  let r := c.ridge
  let n := fld w 63 58
  let idx := fld w 57 54
  let first := fld w 53 49
  let count := min (fld w 48 44 + 1) (32 - first)
  let b := s.sbuf r n
  let m := secMask first count
  let e := s.ste.get r
  if 42 ≤ n ∨ b.relWait ∨ b.mayLand idx m = false ∨ (b.landedAt idx ||| e.queued n idx) &&& m ≠ 0 then s.steRefuse c .move 5 n
  else if 128 ≤ e.moves.length then s.steRefuse c .move 3 n
  else s.modSte r (fun e => { e with moves := e.moves ++ [⟨c, n, idx, first, count, fld w 33 0 * 64⟩] })

/-! ### Landing -/

def StripeBuf.sec (b : StripeBuf) (slot k : Nat) : List Byte := sg [] b.secs (32 * slot + k)

/-- The factor of an index in the Q accumulation, none where it is not added there; and whether it is added to P. -/
def qFactor (idx : Nat) : Option Byte := if idx < 10 then some (gfPow idx) else if idx = 15 then some 1 else none

def toP (idx : Nat) : Bool := decide (idx < 10) || decide (idx = 14)

/-- A sector lands: accumulation over bytes 0 to 4,111 (R232, R236, R238). -/
def StripeBuf.land (b : StripeBuf) (idx k : Nat) (bs : List Byte) (poison : Bool) : StripeBuf :=
  let d := bs.take 4112
  let secs := if toP idx then sp [] b.secs k (xorBytes (b.sec 0 k) d) else b.secs
  let secs :=
    match qFactor idx with
    | some g => sp [] secs (32 + k) (xorBytes (sg [] secs (32 + k)) (scaleBytes g d))
    | none => secs
  { b with
    secs := secs
    landed := sp 0 b.landed idx (b.landedAt idx ||| secMask k 1)
    poison := b.poison || poison
    bad := if poison then sp false (sp false b.bad k true) (32 + k) true else b.bad }

/-- Every index of a list has all sectors of a mask landed. -/
def StripeBuf.full (b : StripeBuf) (is : List Nat) (m : Word) : Bool := is.all (fun i => decide (b.landedAt i &&& m = m))

/-- The data of a SEAL buffer is complete: indices 0 to 9, or all D once the owner's seal key names a bound entry. -/
def State.dataDone (s : State) (b : StripeBuf) : Bool :=
  b.full (List.range 10) 0xFFFFFFFF#32 ||
    (match b.owner with
     | some c =>
       let e := s.zent (fld ((s.ctx c).stagedAt 0x80) 16 0)
       e.bound && decide (6 ≤ e.d ∧ e.d ≤ 10) && b.full (List.range e.d) 0xFFFFFFFF#32
     | none => false)

/-! ### Reconstruction (R238, Table 11.3) -/

def StripeBuf.erased (b : StripeBuf) : List Nat := if b.y = 13 then [b.x] else [b.x, b.y]

/-- Indices that must land. -/
def StripeBuf.needs (b : StripeBuf) : List Nat :=
  let er := b.erased
  let data := er.filter (fun i => decide (i ≤ 9))
  let rest := (List.range b.d).filter (fun i => !er.contains i)
  match data with
  | [] => rest
  | [_] => rest ++ [if er.contains 14 then 15 else 14]
  | _ => rest ++ [14, 15]

/-- The result of each erased index at a sector offset, in the order x, y. -/
def StripeBuf.results (b : StripeBuf) (k : Nat) : List (List Byte) :=
  let pa := b.sec 0 k
  let pb := b.sec 1 k
  let one (x y : Nat) : List Byte × List Byte :=
    if y ≤ 9 then
      let g := gfInv (gfPow x ^^^ gfPow y)
      let dx := scaleBytes g (xorBytes (scaleBytes (gfPow y) pa) pb)
      (dx, xorBytes pa dx)
    else if y = 14 then
      let dx := scaleBytes (gfInv (gfPow x)) pb
      (dx, xorBytes pa dx)
    else (pa, xorBytes pb (scaleBytes (gfPow x) pa))
  let par (i : Nat) : List Byte := if i = 14 then pa else pb
  match b.erased with
  | [x] => if x ≤ 9 then [pa] else [par x]
  | [x, y] =>
    if x ≤ 9 then [(one x y).1, (one x y).2]
    else if y ≤ 9 then [(one y x).2, (one y x).1]
    else [par x, par y]
  | _ => []

/-- A payload sector: 4,112 bytes and zero tag bytes. -/
def padSector (bs : List Byte) : List Byte := (bs ++ List.replicate 4128 0).take 4112 ++ List.replicate 16 0

def State.reconStore (s : State) (r : Side) (b : StripeBuf) (k : Nat) : State :=
  let one (s : State) (p : Nat × List Byte) : State :=
    s.putPayload r (.inr (b.addr + (p.1 * b.count + k) * 4160)) (padSector p.2) (sg false b.bad (b.first + k))
  ((List.range 2).zip (b.results (b.first + k))).foldl one s

/-- All needed sectors have landed: the results go to DRAM, line 8, and the buffer is an empty SEAL buffer again. -/
def State.reconDone (s : State) (r : Side) (n : Nat) (b : StripeBuf) : State :=
  let s := (List.range b.count).foldl (fun s k => s.reconStore r b k) s
  let s := s.setSbuf r n { StripeBuf.default with mode := .seal, owner := b.owner }
  let s := (s.steInt r 4).bump (rk r R_STE_RECONCNT) 31 0 1
  match b.req with
  | some c => s.raiseLine c 8
  | none => s

/-! ### Scrub (R239) -/

/-- A sector offset at which A or B is not zero. -/
def StripeBuf.mismatch (b : StripeBuf) (k : Nat) : Bool := (b.sec 0 k).any (fun v => v != 0) || (b.sec 1 k).any (fun v => v != 0)

def StripeBuf.mismatches (b : StripeBuf) : Nat :=
  ((List.range 32).map (fun k => if b.mismatch k then 2 ^ k else 0)).sum

def State.scrubDone (s : State) (r : Side) (b : StripeBuf) : State :=
  let e := s.ste.get r
  let m := b.mismatches
  let w : DWord := BitVec.ofNat 64 (e.scrubStripe * 2 ^ 55 + e.scrubBg * 2 ^ 38 + b2n b.poison * 2 ^ 37 + 2 ^ 32 + m)
  let s := s.modSte r (fun e => { e with results := e.results ++ [w] })
  let s := s.setSbuf r 41 StripeBuf.default
  let s := if m = 0 then s else s.steInt r 5
  match b.req with
  | some c => s.raiseLine c 8
  | none => s

/-- What a landing completes. -/
def State.stripeProgress (s : State) (r : Side) (n : Nat) : State :=
  let b := s.sbuf r n
  match b.mode with
  | .seal =>
    if !b.told && s.dataDone b then
      let s := s.setSbuf r n { b with told := true }
      match b.owner with
      | some c => s.raiseLine c 8
      | none => s
    else s
  | .recon => if b.full b.needs (secMask b.first b.count) then s.reconDone r n b else s
  | .scrub => if b.full (List.range b.d ++ [14, 15]) 0xFFFFFFFF#32 then s.scrubDone r b else s
  | _ => s

/-- The next sector of the oldest MOVE lands. -/
def State.landNext (s : State) (r : Side) : State :=
  match (s.ste.get r).moves with
  | [] => s
  | m :: rest =>
    let next : List MoveOp :=
      if m.left ≤ 1 then rest else { m with sector := m.sector + 1, left := m.left - 1, addr := m.addr + 4160 } :: rest
    let s := s.modSte r (fun e => { e with moves := next })
    let (s, got) : State × Option (List Byte) :=
      match s.dramChan r m.addr 4112 with
      | some x => s.dramRead x m.addr 4112
      | none => (s, none)
    let poison := got.isNone
    let s := s.setSbuf r m.buf ((s.sbuf r m.buf).land m.idx m.sector (got.getD []) poison)
    let s := s.bump (rk r R_STE_MOVECNT) 31 0 1
    let s := if poison then (s.steInt r 2).raiseLine m.ctx 12 else s
    s.stripeProgress r m.buf

/-! ### RECON and SCRUB words -/

def reconValid (d x y : Nat) : Bool :=
  decide (6 ≤ d ∧ d ≤ 10) && x != y && idxIn d x && (decide (y = 13) || idxIn d y)

def StripeBuf.isEmpty (b : StripeBuf) : Bool := decide (b.mode = .seal) && b.landed.isEmpty

def State.reconRequest (s : State) (c : CtxId) (w : DWord) : State :=
  let r := c.ridge
  let n := fld w 63 58
  let x := fld w 57 54
  let y := fld w 53 50
  let d := fld w 49 46
  let first := fld w 45 41
  let count := min (fld w 40 36 + 1) (32 - first)
  let b := s.sbuf r n
  if 41 ≤ n ∨ b.isEmpty = false ∨ (s.ste.get r).moves.any (fun m => m.buf == n) ∨ reconValid d x y = false then
    s.steRefuse c .recon 5 n
  else
    s.setSbuf r n
      { StripeBuf.default with
        mode := .recon, owner := b.owner, d := d, x := x, y := y, first := first, count := count,
        addr := fld w 33 0 * 64, req := some c }

/-- P_STE_SCRUB (R239); an entry without parity is an invalid field. -/
def State.scrubStart (s : State) (c : CtxId) (data : DWord) : State :=
  let r := c.ridge
  let e := s.ste.get r
  let bg := s.regF (rk r R_STE_SCRUBCFG) 16 0
  let z := s.zent bg
  if (s.sbuf r 41).mode = .scrub ∨ 16 ≤ e.results.length then s.steRefuse c .scrub 3 41
  else if z.bound = false ∨ z.d < 6 ∨ 10 < z.d then s.steRefuse c .scrub 5 41
  else
    let s := s.setSbuf r 41 { StripeBuf.default with mode := .scrub, d := z.d, req := some c }
    s.modSte r (fun e => { e with scrubStripe := fld data 8 0, scrubBg := bg })

/-- Pop a scrub result; 0 where the FIFO is empty. -/
def State.scrubPop (s : State) (r : Side) : State × DWord :=
  match (s.ste.get r).results with
  | [] => (s, 0)
  | w :: rest => (s.modSte r (fun e => { e with results := rest }), w)

/-- A read of STE_SCRUBRES_LO latches the high half. -/
def State.scrubPopLo (s : State) (r : Side) : State × Word :=
  let (s, w) := s.scrubPop r
  (s.modSte r (fun e => { e with resHi := BitVec.ofNat 32 (fld w 63 32) }), BitVec.ofNat 32 (fld w 31 0))

/-! ### Seal (R237) -/

/-- The reason for which a seal is refused; none where all conditions hold. -/
def State.sealReason (s : State) (r : Side) (key : Nat) (n : Nat) : Option Nat :=
  let b := s.sbuf r n
  let e := s.zent (key % 131072)
  let stripe := key / 131072 % 512
  let ok := s.steOn r && decide (b.mode = .seal) && !b.relWait &&
    decide (e.use ≠ 0 ∧ e.use ≠ 5 ∧ e.use ≠ 7) && decide (e.wp ≤ stripe) &&
    b.full (List.range e.d) 0xFFFFFFFF#32 &&
    ((List.range 10).filter (fun i => decide (e.d ≤ i)) ++ [14, 15]).all (fun i => decide (b.landedAt i = 0))
  if ok = false then some 5 else if b.poison then some 6 else none

/-- The parity sector with its Media Tag: KIND 1, SECTOR, ZONE, NS 0, WGEN and the CRC of R121. -/
def tagged (bs : List Byte) (sector zone wgen : Nat) : List Byte :=
  let ref := BitVec.ofNat 64 (2 ^ 42 + sector * 2 ^ 24 + zone * 128)
  let body := (bs ++ List.replicate 4112 0).take 4112 ++ bytesLE 8 ref ++ bytesLE 4 (BitVec.ofNat 32 wgen)
  body ++ bytesLE 4 (crc32c body)

/-- The buffer becomes SEALED with the tags of its 64 parity sectors. -/
def State.sealBuf (s : State) (r : Side) (key n : Nat) : State :=
  let b := s.sbuf r n
  let z := key % 131072
  let e := s.zent z
  let stripe := key / 131072 % 512
  let one (m : Sparse (List Byte)) (i : Nat) : Sparse (List Byte) :=
    sp [] m i (tagged (sg [] m i) (stripe * 64 + i) z e.wgen)
  let secs := (List.range 64).foldl one b.secs
  let s := s.setSbuf r n { b with mode := .sealed, secs := secs, key := BitVec.ofNat 26 key, d := e.d }
  let s := s.modSte r (fun e => { e with moves := e.moves.filter (fun m => m.buf != n) })
  s.bump (rk r R_STE_SEALCNT) 31 0 1

/-! ### Rows -/

/-- The answer of a port read enters the register; a refused read leaves it. -/
def State.ansReg (s : State × Option DWord) (c : CtxId) (reg : BitVec 6) : State :=
  match s.2 with
  | some w => s.1.modCtx c (fun x => x.wr reg.toNat w)
  | none => s.1

def execStripeBufferAcquire (c : CtxId) (reg : BitVec 6) (s : State) : Out :=
  .next (
    s.byCtx c (fun s =>
      if s.steOn c.ridge then State.ansReg (s.bufAcquire c) c reg else s.refuseCtx c 0x82 5))

def execStripeBufferRelease (c : CtxId) (data : DWord) (s : State) : Out :=
  .next (s.byCtx c (fun s => s.stePort c .bufrel (fun s => s.bufRelease c data)))

def execChunkMove (c : CtxId) (w : DWord) (s : State) : Out :=
  .next (
    s.byCtx c (fun s =>
      s.stePort c .move (fun s => s.chunkMove c w)))

def execSectorLanding (r : Side) (s : State) : Out :=
  .next (if s.domOn (57 + r.idx) && s.regB (rk r R_STE_CTL) 0 && s.ridgeLive r then s.landNext r else s)

def execReconstructionRequest (c : CtxId) (w : DWord) (s : State) : Out :=
  .next (s.byCtx c (fun s => s.stePort c .recon (fun s => s.reconRequest c w)))

def execScrubCheck (c : CtxId) (data : DWord) (s : State) : Out :=
  .next (s.byCtx c (fun s => s.stePort c .scrub (fun s => s.scrubStart c data)))

def execScrubResultPop (c : CtxId) (reg : BitVec 6) (s : State) : Out :=
  .next (
    s.byCtx c (fun s =>
      if s.steOn c.ridge then (let (s, w) := s.scrubPop c.ridge; s.modCtx c (fun x => x.wr reg.toNat w))
      else s.refuseCtx c 0x87 5))

end Sys2Proof.Machine
end

