-- ==== Sys2Proof/Machine/HostOps.lean ====
section
/-!
DEFINITION. Shared operations of the host side: namespaces, controllers, completions, the Hedge, asynchronous events
(R307–R318, R324–R330, R337–R342). Bit positions of NVMe structures are those of the NVMe standard (PRESUMED, log 19).
-/
namespace Sys2Proof.Machine

def State.nveInt (s : State) (i : Nat) : State := s.setStat R_NVE_INTSTAT i

def State.hdgInt (s : State) (i : Nat) : State := s.setStat R_HDG_INTSTAT i

def State.nveUp (s : State) : Bool := s.blockUp R_NVE_ID

/-! ### Statuses -/

/-- DNR, type and code of a status. -/
def mkStat (dnr : Bool) (typ code : Nat) : Nat := b2n dnr * 16384 + typ * 256 + code

/-- A status whose DNR bit the spec does not give. -/
def stat (typ code : Nat) : Nat := mkStat (Config.dnr typ code) typ code

def stSuccess : Nat := 0

def stInvalidField : Nat := stat 0 0x02

/-! ### Namespaces -/

/-- NVE_NSCFG of NSID `n + 1`. -/
def State.nscfg (s : State) (n : Nat) : Word := sg 0 s.nve.cfg n

def State.nsReady (s : State) (n : Nat) : Bool := bit (s.nscfg n) 31

def State.nsZoned (s : State) (n : Nat) : Bool := bit (s.nscfg n) 30

def State.nsSlot (s : State) (n : Nat) : Option Nat := if bit (s.nscfg n) 25 then some (fld (s.nscfg n) 21 16) else none

def State.ns (s : State) (n : Nat) : Option Ns := sg none s.nve.nss n

def State.setNs (s : State) (n : Nat) (x : Option Ns) : State := s.modNve (fun v => { v with nss := sp none v.nss n x })

/-- NVE_NSCFG of a namespace changes, and what the journal keeps of it. -/
def State.putCfg (s : State) (n : Nat) (v : Word) : State :=
  let s := s.modNve (fun k => { k with cfg := sp 0 k.cfg n v })
  match s.ns n with
  | some x => s.setNs n (some { x with cfg := clrBit v 31 })
  | none => s

/-- NSID − 1 of a command. -/
def Cmd.ns (c : Cmd) : Nat := c.sqe.nsid.toNat - 1

def allNs : Word := 0xFFFFFFFF#32

/-- Zone of an LBA (R241): 2^18 LBAs each. -/
def zoneOf (lba : Nat) : Nat := lba / 262144

/-- The entry is one that a zone has been cut over from, or the target of a migration not yet cut over (R261). -/
def State.notServing (s : State) (i : Nat) (e : ZEntry) : Bool :=
  let r := s.redun.get e.act
  r.oldEnts.contains i || decide (r.target.map Prod.fst = some i)

/-- The entry bound to a zone of a namespace: never the old one after a cutover, nor the new one before it (R261). -/
def State.zoneEnt (s : State) (n z : Nat) : Option (Nat × ZEntry) :=
  s.ztb.entries.find? (fun p =>
    decide (p.2.use = 1 ∧ p.2.ns = n ∧ p.2.zone = z) && !s.notServing p.1 p.2)

/-! ### Controllers and commands -/

def State.ctrl (s : State) (n : Nat) : Ctrl := sget Ctrl.init s.nve.ctrls n

def State.setCtrl (s : State) (n : Nat) (c : Ctrl) : State :=
  s.modNve (fun v => { v with ctrls := sput Ctrl.init v.ctrls n c })

def State.modCtrl (s : State) (n : Nat) (f : Ctrl → Ctrl) : State := s.setCtrl n (f (s.ctrl n))

/-- Controllers offered: 64 in single ×4 mode (R304). -/
def State.ctrlCount (s : State) : Nat := if s.rcp.straps.portmode then 64 else 128

def State.cmd (s : State) (n : Nat) : Option Cmd := s.nve.cmds.find? (fun c => c.idx == n)

def State.modCmd (s : State) (n : Nat) (f : Cmd → Cmd) : State :=
  s.modNve (fun v => { v with cmds := lmodFirst (fun c => c.idx == n) f v.cmds })

def Ctrl.sqOf (c : Ctrl) (q : Nat) : Option Sq := c.sqs.find? (fun x => x.qid == q)

def Ctrl.cqOf (c : Ctrl) (q : Nat) : Option Cq := c.cqs.find? (fun x => x.qid == q)

/-! ### Hedge table (R325–R330) -/

def State.hent (s : State) (e : Nat) : Option HEntry := sg none s.hdg.entries e

def State.setHent (s : State) (e : Nat) (x : Option HEntry) : State :=
  s.modHdg (fun h => { h with entries := sp none h.entries e x })

def State.hdgUsed (s : State) : Nat := s.hdg.entries.length

def HKind.isWrite : HKind → Bool
  | .write => true
  | .dsm => true
  | _ => false

def HKind.code : HKind → Nat
  | .read => 0
  | .write => 1
  | .zone => 2
  | .dsm => 3

/-- Two entries conflict: shared LBAs, or write-kind in one zone of a zoned namespace. -/
def State.hconflict (s : State) (a b : HEntry) : Bool :=
  decide (a.ns = b.ns) &&
    (decide (a.slba < b.slba + b.count ∧ b.slba < a.slba + a.count) ||
      (s.nsZoned a.ns && a.kind.isWrite && b.kind.isWrite && decide (zoneOf a.slba = zoneOf b.slba)))

/-- An older conflicting entry blocks a younger one (Table 15.3). -/
def kindBlocks : HKind → HKind → Bool
  | _, .zone => true
  | .zone, _ => true
  | .read, _ => false
  | .write, _ => true
  | .dsm, .read => false
  | .dsm, _ => true

def HEntry.blocks (older younger : HEntry) : Bool := !older.committed && kindBlocks older.kind younger.kind

/-- Older conflicting entries of an entry, with their numbers. -/
def State.olderConf (s : State) (e : Nat) (x : HEntry) : List (Nat × HEntry) :=
  s.hdg.entries.filterMap (fun p =>
    match p.2 with
    | some y => if p.1 ≠ e ∧ y.asn < x.asn ∧ s.hconflict y x then some (p.1, y) else none
    | none => none)

def State.blockers (s : State) (e : Nat) (x : HEntry) : List (Nat × HEntry) :=
  (s.olderConf e x).filter (fun p => p.2.blocks x)

/-- The entry with the lowest ASN. -/
def oldest : List (Nat × HEntry) → Option (Nat × HEntry)
  | [] => none
  | p :: t =>
    match oldest t with
    | some q => if q.2.asn < p.2.asn then some q else some p
    | none => some p

/-- The context waits on every entry that blocks it (R328). -/
def State.waitOn (s : State) (c : CtxId) (bs : List (Nat × HEntry)) : State :=
  s.modHdg (fun h =>
    { h with
      blocked := bs.foldl (fun m p => sp [] m p.1 (if (sg [] m p.1).contains c then sg [] m p.1 else sg [] m p.1 ++ [c]))
        h.blocked })

/-- Line 9 in each context that waits on an entry (R328). -/
def State.hdgWake (s : State) (e : Nat) : State :=
  let ws := sg [] s.hdg.blocked e
  let s := s.modHdg (fun h => { h with blocked := sp [] h.blocked e [] })
  ws.foldl (fun s c => s.raiseLine c 9) s

/-- A free entry (DESIGN CHOICE, log 8). -/
def State.freeHent (s : State) : Option Nat :=
  pickOf .hedge ((List.range 16384).filter (fun k => (sg none s.hdg.entries k).isNone))

/-- The command takes an entry, or waits for one; none is granted while HDG_CTL.EN is 0 (Table 15.9). -/
def State.takeHent (s : State) (n : Nat) (kind : HKind) (ns slba count : Nat) (asn : DWord) : State :=
  match (if s.blockUp R_HDG_ID && s.regB R_HDG_CTL 0 then s.freeHent else none) with
  | none => (s.hdgInt 0).modCmd n (fun c => { c with hedgeWait := true })
  | some e =>
    let s := s.hdgWake e
    let s := s.setHent e (some ⟨false, kind, ns, slba, count, n, asn⟩)
    let s := s.modHdg (fun h => { h with high := max h.high s.hdgUsed })
    let s := if s.hdgUsed = 16384 then s.hdgInt 0 else s
    s.modCmd n (fun c => { c with hedge := some e, hedgeWait := false })

/-- A command's entry leaves the table. -/
def State.dropHent (s : State) (c : Cmd) : State :=
  match c.hedge with
  | none => s
  | some e => s.setHent e none

/-- The word of P_HDG_LOOKUP (Table 15.4), and the entries that block. -/
def State.lookupWord (s : State) (e : Nat) (x : HEntry) : DWord × List (Nat × HEntry) :=
  let conf := s.olderConf e x
  let bs := conf.filter (fun p => p.2.blocks x)
  let fwd := conf.any (fun p => p.2.committed && decide (p.2.kind = .write))
  let w := b2n bs.isEmpty * 2 ^ 63 + b2n fwd * 2 ^ 62 +
    (match oldest bs with
     | some p => 2 ^ 61 + p.1 * 2 ^ 16
     | none => 0) + e * 2 ^ 32 + min conf.length 4095
  (BitVec.ofNat 64 w, bs)

/-- The command a context holds, with its entry. -/
def State.heldEntry (s : State) (c : CtxId) : Option (Cmd × Nat × HEntry) :=
  match (s.ctx c).heldCmd with
  | none => none
  | some n =>
    match s.cmd n with
    | none => none
    | some m =>
      match m.hedge with
      | none => none
      | some e =>
        match s.hent e with
        | some x => some (m, e, x)
        | none => none

/-- The word of P_HDG_LOOKUP; a context whose entry is blocked waits on line 9 (R328, R330). -/
def State.hedgeLookup (s : State) (c : CtxId) : State × DWord :=
  match s.heldEntry c with
  | none => (s.hdgInt 1, 0)
  | some (_, e, x) =>
    let (w, bs) := s.lookupWord e x
    if bs.isEmpty then (s, w)
    else ((s.bump R_HDG_WAITCNT 31 0 1).waitOn c bs, w)

/-- The entry is released; a command with further ranges waits for the next one's entry (R325). -/
def Cmd.nextSpan (c : Cmd) : Cmd :=
  match c.spans with
  | [] => { c with hedge := none }
  | (a, n) :: t => { c with hedge := none, hedgeWait := true, slba := a, blocks := n, spans := t }

/-- P_HDG_REMOVE names the entry in [13:0]; one that is FREE is refused (R329). -/
def State.hedgeRemove (s : State) (c : CtxId) (data : DWord) : State :=
  let e := fld data 13 0
  match s.hent e with
  | none => (s.hdgInt 2).refuseCtx c 0xC6 5
  | some x => (s.setHent e none).modCmd x.cmd (fun k => if k.hedge = some e then k.nextSpan else k)

/-! ### Completions (R312, R323) -/

/-- Room in a completion queue: one place stays empty. -/
def Cq.room (q : Cq) : Bool := decide (q.entries.length + 1 < q.size)

def State.cqStaged (s : State) (n q : Nat) : Bool := s.nve.staging.any (fun x => x.ctrl == n && x.cqid == q)

/-- The completion queue of a command; none where its queues are gone (R307). -/
def State.cqOfCmd (s : State) (c : Cmd) : Option Cq :=
  match (s.ctrl c.ctrl).sqOf c.sq with
  | none => none
  | some q => (s.ctrl c.ctrl).cqOf q.cqid

/-- A completion can be taken: its queue or completion staging has room (R312, Table 16.1). -/
def State.cplRoom (s : State) (c : Cmd) : Bool :=
  match s.cqOfCmd c with
  | none => true
  | some q => (q.room && !s.cqStaged c.ctrl q.qid) || decide (s.nve.staging.length < 1024)

def Cq.push (q : Cq) (e : Cpl) : Cq := { q with entries := q.entries ++ [e] }

def Ctrl.modCq (c : Ctrl) (q : Nat) (f : Cq → Cq) : Ctrl := { c with cqs := lmodFirst (fun x => x.qid == q) f c.cqs }

def State.postCpl (s : State) (c : Cmd) (status dw0 dw1 : Nat) : State :=
  match s.cqOfCmd c with
  | none => s
  | some q =>
    let e : Cpl := ⟨c.sqe.cid, c.sq, status, BitVec.ofNat 32 dw0, BitVec.ofNat 32 dw1⟩
    if q.room && !s.cqStaged c.ctrl q.qid then s.modCtrl c.ctrl (fun k => k.modCq q.qid (fun x => x.push e))
    else
      (s.modNve (fun v => { v with staging := v.staging ++ [⟨c.ctrl, q.qid, e⟩] })).bump R_NVE_CQSTALL 31 0 1

/-- The command leaves its context: its entry goes unless it is a committed WRITE (R329), and the context that held
it holds it no longer. -/
def State.finish (s : State) (c : Cmd) : State :=
  let stays : Bool :=
    match c.hedge with
    | some e =>
      (match s.hent e with
       | some x => decide (x.kind = .write) && x.committed
       | none => false)
    | none => false
  let s := if stays then s else s.dropHent c
  let s :=
    match c.holder with
    | some k => s.modCtx k (fun x => { x with heldCmd := none })
    | none => s
  s.modNve (fun v =>
    { v with
      cmds := (v.cmds.filter (fun k => k.idx != c.idx)).map
        (fun k => { k with waitsFor := k.waitsFor.filter (fun i => i != c.idx) }) })

/-- The command completes; an Abort that waited for it completes after it with bit 0 = 0 (R338). -/
def State.complete (s : State) (c : Cmd) (status dw0 dw1 : Nat) : State :=
  if s.cplRoom c = false then s
  else
    let s := (s.postCpl c status dw0 dw1).finish c
    match c.abortedBy.bind s.cmd with
    | some a => ((s.postCpl a stSuccess 0 0).finish a).bump R_NVE_ABORTCNT 31 16 1
    | none => s

def State.completeOk (s : State) (c : Cmd) : State := s.complete c stSuccess 0 0

/-- Staged completions move to their queues while there is room, oldest first. -/
def State.drainStage : Nat → State → Nat → Nat → State
  | 0, s, _, _ => s
  | k + 1, s, n, q =>
    match s.nve.staging.find? (fun x => x.ctrl == n && x.cqid == q), (s.ctrl n).cqOf q with
    | some x, some cq =>
      if cq.room then
        let s := s.modNve (fun v => { v with staging := v.staging.erase x })
        (s.modCtrl n (fun c => c.modCq q (fun y => y.push x.cpl))).drainStage k n q
      else s
    | _, _ => s

/-! ### Asynchronous events (R318) -/

/-- A feature's default: the vendor events enabled (Table 14.4), an Arbitration Burst of no limit (DESIGN CHOICE, log
159). -/
def featureInit (f : Nat) : Word := if f = 0x0B then 0xE0000000#32 else if f = 1 then 7#32 else 0#32

/-- Enable of a vendor event in Feature 0Bh: bits 29, 30, 31 for C0h, C1h, C2h. -/
def Ctrl.feature (c : Ctrl) (f : Nat) : Word := sg (featureInit f) c.features f

/-- Kind 0 is C0h, 1 is C1h, 2 is C2h. -/
def Ctrl.asyncOn (c : Ctrl) (k : Nat) : Bool := c.en && bit (c.feature 0x0B) (29 + k) && !c.masked.contains k

/-- The event waits on a controller that enables it, until ASYNC_EVENT_POST. -/
def Ctrl.addEvent (c : Ctrl) (k : Nat) : Ctrl :=
  if c.asyncOn k && !c.events.contains k then { c with events := c.events ++ [k] } else c

def State.asyncTo (s : State) (k : Nat) (f : Ctrl → Bool) : State :=
  s.nve.ctrls.foldl (fun s p => if f p.2 then s.modCtrl p.1 (fun c => c.addEvent k) else s) s

/-! ### Zoned write position (R331–R333) -/

def awpKey (n z : Nat) : Nat := 131072 * n + z

/-- Write-kind commands of a zone in flight that have been admitted and not committed. -/
def State.zoneWrites (s : State) (n z : Nat) : List Cmd :=
  s.nve.cmds.filter (fun c =>
    decide (c.ns = n ∧ zoneOf c.slba = z ∧ (c.sqe.opc = 0x01 ∨ c.sqe.opc = 0x08 ∨ c.sqe.opc = 0x7D)) && c.checked && c.sq != 0)

/-- The AWP: the stored pointer while a write to the zone is in flight, else the HWP. -/
def State.awp (s : State) (n z : Nat) : Nat :=
  let hwp :=
    match s.zoneEnt n z with
    | some p => z * 262144 + p.2.hwp
    | none => z * 262144
  if (s.zoneWrites n z).isEmpty then hwp else (sg none s.nve.awp (awpKey n z)).getD hwp

def State.setAwp (s : State) (n z : Nat) (v : Nat) : State :=
  s.modNve (fun w => { w with awp := sp none w.awp (awpKey n z) (some v) })

def cmdBefore (a b : Cmd) : Bool := decide (a.asn < b.asn)

/-- A write-kind command ends without committing: it completes with a status, every younger uncommitted write of the
zone completes with Zone Invalid Write, and the AWP returns to its first LBA (R333). -/
def State.endUncommitted (s : State) (c : Cmd) (status : Nat) : State :=
  let z := zoneOf c.slba
  let isZ := s.nsZoned c.ns && decide (c.sqe.opc = 0x01 ∨ c.sqe.opc = 0x08 ∨ c.sqe.opc = 0x7D)
  let young := if isZ then (s.zoneWrites c.ns z).filter (fun k => cmdBefore c k && !k.committed) else []
  let s := s.complete c status 0 0
  let s := young.foldl (fun s k => s.complete k (mkStat true 1 0xBC) 0 0) s
  if isZ then s.setAwp c.ns z c.slba else s

/-! ### Reservations (R340) -/

def writeGroup (e : Sqe) : Bool :=
  decide (e.opc = 0x00 ∨ e.opc = 0x01 ∨ e.opc = 0x08 ∨ e.opc = 0x09 ∨ e.opc = 0x79 ∨ e.opc = 0x7D)

def Resv.registered (r : Resv) (h : BitVec 128) : Bool := r.regs.any (fun p => p.1 == h)

/-- The reservation permits a command of a host: types 1 to 6 of NVMe. -/
def Resv.permits (r : Resv) (h : BitVec 128) (e : Sqe) : Bool :=
  if e.opc = 0x0D ∨ e.opc = 0x0E then true
  else if e.opc = 0x11 ∨ e.opc = 0x15 then r.registered h
  else
    let me := decide (r.holder = some h) || (decide (3 ≤ r.rtype) && r.registered h)
    if r.rtype = 0 then true
    else if r.rtype = 1 ∨ r.rtype = 3 ∨ r.rtype = 5 then me || !writeGroup e
    else me

/-! ### Encryption and payloads (R319) -/

/-- The key that a namespace's blocks are encrypted with. -/
def State.nsKey (s : State) (n : Nat) : Option (BitVec 512) := (s.nsSlot n).bind (fun k => sg none s.cry.keys k)

/-- A block as it enters the window: 4,096 bytes, encrypted where the namespace has a key slot, and its metadata in
bytes 4,096–4,111. -/
def State.payload (s : State) (n lba : Nat) (b : List Byte) : List Byte :=
  let d := (b ++ List.replicate 4096 0).take 4096
  let d :=
    match s.nsKey n with
    | some key => Config.aesXts key lba d
    | none => d
  d ++ (b.drop 4096 ++ List.replicate 16 0).take 16

/-- A block as it leaves: decrypted, with its 16 metadata bytes. -/
def State.plaintext (s : State) (n lba : Nat) (payload : List Byte) : List Byte :=
  let d := payload.take 4096
  let d :=
    match s.nsKey n with
    | some key => Config.aesXtsInv key lba d
    | none => d
  d ++ (payload.drop 4096).take 16

/-! ### Protection information (R252, R316)

The field layouts, PRINFO and the tags of a command are those of the NVMe standard (PRESUMED, log 19); the guards are
uninterpreted (DESIGN CHOICE, log 7). -/

/-- LBA format: 3 is treated as 0 (Table 14.12). -/
def State.lbaf (s : State) (n : Nat) : Nat := fld (s.nscfg n) 29 28 % 3

/-- Protection type; with format 0 there is none. -/
def State.piType (s : State) (n : Nat) : Nat := if s.lbaf n = 0 then 0 else fld (s.nscfg n) 27 26

/-- Metadata bytes of a block. -/
def metaLen (lbaf : Nat) : Nat := if lbaf = 2 then 16 else if lbaf = 1 then 8 else 0

/-- Guard, application tag and reference tag. -/
structure Pi where
  guard : Nat
  app : Nat
  ref : Nat
deriving DecidableEq, Repr

/-- A number from bytes, most significant first; and its bytes. -/
def ofBE (l : List Byte) : Nat := ofBytesLE l.reverse

def toBE (k v : Nat) : List Byte := (bytesLE k (BitVec.ofNat (8 * k) v)).reverse

/-- The PI field of metadata: 64-bit guard with format 2, else 16-bit guard. -/
def piOf (lbaf : Nat) (m : List Byte) : Pi :=
  if lbaf = 2 then ⟨ofBE (m.take 8), ofBE ((m.drop 8).take 2), ofBE ((m.drop 10).take 6)⟩
  else ⟨ofBE (m.take 2), ofBE ((m.drop 2).take 2), ofBE ((m.drop 4).take 4)⟩

def Pi.bytes (p : Pi) (lbaf : Nat) : List Byte :=
  if lbaf = 2 then toBE 8 p.guard ++ toBE 2 p.app ++ toBE 6 p.ref else toBE 2 p.guard ++ toBE 2 p.app ++ toBE 4 p.ref

def guardOf (lbaf : Nat) (data : List Byte) : Nat :=
  if lbaf = 2 then (Config.guard64 data).toNat else (Config.guard16 data).toNat

/-- Width of the reference tag. -/
def refMod (lbaf : Nat) : Nat := if lbaf = 2 then 2 ^ 48 else 2 ^ 32

/-- No check applies: application tag FFFFh, with type 3 the reference tag all ones besides. -/
def Pi.escapes (p : Pi) (lbaf typ : Nat) : Bool := decide (p.app = 0xFFFF) && (decide (typ ≠ 3) || decide (p.ref + 1 = refMod lbaf))

/-- The reference tag expected of block `i` of a command: the LBA with type 1, else from Dword 14; of a Zone Append,
whose LBAs the host cannot know, always from Dword 14. -/
def Cmd.refTag (c : Cmd) (lbaf typ lba i : Nat) : Nat :=
  (if typ = 1 ∧ c.sqe.opc ≠ 0x7D then lba else c.sqe.c14.toNat + i) % refMod lbaf

/-- PRINFO: PRACT, and the checks of guard, application tag and reference tag. -/
def Cmd.pract (c : Cmd) : Bool := bit c.sqe.c12 29

/-- The first failing field of a block that arrives: 0 guard, 1 application, 2 reference (R316). -/
def Cmd.piIn (c : Cmd) (lbaf typ lba i : Nat) (b : List Byte) : Option Nat :=
  let p := piOf lbaf (b.drop 4096)
  let mask := fld c.sqe.c15 31 16
  if typ = 0 ∨ c.pract = true ∨ p.escapes lbaf typ = true then none
  else if bit c.sqe.c12 28 ∧ p.guard ≠ guardOf lbaf (b.take 4096) then some 0
  else if bit c.sqe.c12 27 ∧ p.app &&& mask ≠ fld c.sqe.c15 15 0 &&& mask then some 1
  else if bit c.sqe.c12 26 ∧ typ ≠ 3 ∧ p.ref ≠ c.refTag lbaf typ lba i then some 2
  else none

/-- The block as it is kept: with PRACT = 1 the port has inserted its PI. -/
def Cmd.piInsert (c : Cmd) (lbaf typ lba i : Nat) (b : List Byte) : List Byte :=
  if typ = 0 ∨ c.pract = false then b
  else
    let d := (b ++ List.replicate 4096 0).take 4096
    d ++ (⟨guardOf lbaf d, fld c.sqe.c15 15 0, c.refTag lbaf typ lba i⟩ : Pi).bytes lbaf

/-- PIREMAP of a Zone Append: its reference tags move with its first LBA. -/
def Cmd.piRemap (c : Cmd) (lbaf typ : Nat) (b : List Byte) : List Byte :=
  let zslba := c.sqe.c11.toNat * 2 ^ 32 + c.sqe.c10.toNat
  if c.sqe.opc = 0x7D ∧ bit c.sqe.c12 25 = true ∧ (typ = 1 ∨ typ = 2) then
    let p := piOf lbaf (b.drop 4096)
    b.take 4096 ++ { p with ref := (p.ref + (c.slba - zslba)) % refMod lbaf }.bytes lbaf
  else b

/-- A block of a Write Zeroes: zeros, and unless PI is inserted a PI field of ones, which no check applies to. -/
def Cmd.zeroBlock (c : Cmd) (lbaf typ : Nat) : List Byte :=
  List.replicate 4096 0 ++ List.replicate (metaLen lbaf) (if typ = 0 ∨ c.pract = true then 0 else 0xFF)

/-- The egress check of a block (R252): the guard, and with types 1 and 2 the reference tag; with type 2, whose expected
tag only the command gives, where the command asks for it (DESIGN CHOICE, log 144). -/
def Cmd.piOut (c : Cmd) (lbaf typ lba i : Nat) (b : List Byte) : Bool :=
  let p := piOf lbaf (b.drop 4096)
  decide (typ = 0) || p.escapes lbaf typ ||
    (decide (p.guard = guardOf lbaf (b.take 4096)) &&
      (decide (typ = 3) || (decide (typ = 2) && !bit c.sqe.c12 26) || decide (p.ref = c.refTag lbaf typ lba i)))

/-- The block as the host gets it: without its PI where PRACT = 1 strips it. -/
def Cmd.piStrip (c : Cmd) (lbaf typ : Nat) (b : List Byte) : List Byte :=
  if typ ≠ 0 ∧ c.pract then b.take 4096 else b.take (4096 + metaLen lbaf)

/-- Admitted commands that still need a key slot (R320). -/
def State.slotUse (s : State) (k : Nat) : Nat :=
  (s.nve.cmds.filter (fun c => decide (c.sq ≠ 0) && c.checked && decide (s.nsSlot c.ns = some k))).length

end Sys2Proof.Machine
end

