-- ==== Sys2Proof/Machine/Cairn.lean ====
section
/-!
DEFINITION. The Cairn journal, the protected window's pieces, the emergency flush, deferred errors and replay
(R279–R303).
-/
namespace Sys2Proof.Machine

def State.crnInt (s : State) (r : Side) (i : Nat) : State := s.setStat (rk r R_CRN_INTSTAT) i

/-- Lines of the journal, and the first lines of the boot seal area and the event ring (Table 13.1). -/
def crnLines : Nat := 195584

def sealLine : Nat := 195584

def ringLine : Nat := 196608

/-! ### Records (Table 13.2) -/

/-- Bytes [lo..hi] of a line, as a number. -/
def lineF (w : BitVec 512) (lo hi : Nat) : Nat := fld w (8 * hi + 7) (8 * lo)

/-- The line with its CRC over bytes 0–59, byte 9 taken as 0xC3. -/
def mkLine (jseq typ src body : Nat) : BitVec 512 :=
  let n := jseq % 2 ^ 48 + typ % 65536 * 2 ^ 48 + src % 256 * 2 ^ 64 + 0xC3 * 2 ^ 72 + body % 2 ^ 400 * 2 ^ 80
  BitVec.ofNat 512 (n + (crc32c (bytesLE 60 (BitVec.ofNat 480 n))).toNat * 2 ^ 480)

/-- A valid record (R282). -/
def lineValid (w : BitVec 512) : Bool :=
  decide (lineF w 9 9 = 0xC3) && decide (lineF w 60 63 = (crc32c (bytesLE 60 w)).toNat)

def lineSeq (w : BitVec 512) : Nat := lineF w 0 5
def lineTyp (w : BitVec 512) : Nat := lineF w 6 7

/-- SRC of a context. -/
def srcByte (c : CtxId) : Nat := c.ridge.idx * 128 + c.spur.idx * 16 + c.no.idx

/-- The staged body (R283): STAGE0[47:0], STAGE1–5, STAGE6[31:0]. -/
def Ctx.crnBody (x : Ctx) : Nat :=
  fld (x.stagedAt 0xCC) 47 0 + ((List.range 5).map (fun k => (x.stagedAt (0xCD + k)).toNat * 2 ^ (48 + 64 * k))).sum +
    fld (x.stagedAt 0xD2) 31 0 * 2 ^ 368

/-- Bytes [lo..hi] of a record, from its body. -/
def bodyF (body lo hi : Nat) : Nat := body / 2 ^ (8 * (lo - 10)) % 2 ^ (8 * (hi + 1 - lo))

/-! ### Banks (R302) -/

def bankDoms (r : Side) : List Nat := (List.range 4).map (fun i => 71 + 4 * r.idx + i)

/-- The bank's Ridge is not fenced or in reset, and its domains are ON. -/
def State.bankUp (s : State) (r : Side) : Bool :=
  decide (s.ridgeSt r ≠ .fenced ∧ s.ridgeSt r ≠ .reset) && (bankDoms r).all s.domOn

/-- Usable: up, and holding the journal's content. -/
def State.bankOk (s : State) (r : Side) : Bool := s.bankUp r && s.crn.usable.get r

/-- Appends made during a resync reach both banks. -/
def State.bankTakes (s : State) (r : Side) : Bool := s.bankUp r && (s.crn.usable.get r || s.crn.resync.get r)

def State.putBank (s : State) (r : Side) (n : Nat) (w : BitVec 512) : State :=
  s.modCrn (fun c => { c with banks := c.banks.set r (sp 0 (c.banks.get r) n w) })

/-- Write a line to the banks that take it, or to the writer's own bank alone. -/
def State.putLine (s : State) (r : Side) (mirror : Bool) (n : Nat) (w : BitVec 512) : State :=
  let one (s : State) (x : Side) : State := if s.bankTakes x && (mirror || decide (x = r)) then s.putBank x n w else s
  one (one s .a) .b

/-- A bank is lost (R302): the surviving Ridge's CRN_INTSTAT bit 0 and event 0x0514. -/
def State.crnLose (s : State) (r : Side) : State :=
  if s.crn.usable.get r || s.crn.resync.get r then
    let s := s.modCrn (fun c => { c with usable := c.usable.set r false, resync := c.resync.set r false })
    (s.crnInt r.peer 0).event 0x0514 (srcBlock R_CRN_ID) [(0, BitVec.ofNat 32 r.idx)]
  else s

/-! ### Fill (R285, R287) -/

def State.crnHeld (s : State) : Nat := s.crn.head - s.crn.tail

def State.crnFree (s : State) : Nat := crnLines - s.crnHeld

def State.crnResv (s : State) (r : Side) : Nat := min 16384 (s.regF (rk r R_CRN_CFG) 31 16)

def State.crnMark (s : State) (r : Side) : Nat := clampN 1 95 (s.regF (rk r R_CRN_CFG) 7 0)

def State.crnFill (s : State) : Nat := s.crnHeld * 100 / crnLines

/-- The context holds an ESC lease. -/
def State.hasEsc (s : State) (c : CtxId) : Bool := s.rlg.leases.any (fun l => decide (l.owner = .ctx c) && l.esc)

/-- Types accepted at or below RESV. -/
def resvType (typ : Nat) (esc : Bool) : Bool :=
  decide (typ = 2 ∨ typ = 4 ∨ typ = 0xB ∨ typ = 0xE ∨ typ = 0xF) || (esc && decide (typ = 1 ∨ typ = 7))

/-- The journal takes a record of this type. -/
def State.crnRoom (s : State) (r : Side) (typ : Nat) (esc : Bool) : Bool :=
  decide (0 < s.crnFree) && (decide (s.crnResv r < s.crnFree) || resvType typ esc || decide (s.mtr.sp = .gen))

/-- Marks reached by the append that moved the fill. -/
def State.crnMarks (s : State) (fill0 free0 : Nat) : State :=
  Side.all.foldl
    (fun (s : State) r =>
      if s.ridgeSt r = .inService then
        let s := if s.crnMark r ≤ s.crnFill ∧ fill0 < s.crnMark r then (s.crnInt r 1).raiseLine (kCtx0 r) 11 else s
        if s.crnFree ≤ s.crnResv r ∧ s.crnResv r < free0 then s.crnInt r 2 else s
      else s) s

/-- The record is written and committed (R284). -/
def State.crnWrite (s : State) (c : CtxId) (typ body : Nat) : State :=
  let fill0 := s.crnFill
  let free0 := s.crnFree
  let j := s.crn.head
  let s := s.putLine c.ridge (s.regB (rk c.ridge R_CRN_CTL) 1) (j % crnLines) (mkLine j typ (srcByte c) body)
  (s.modCrn (fun k => { k with head := j + 1 })).crnMarks fill0 free0

/-- A record that the ROM library appends from K context 0; the spec gives no layout of its body (DESIGN CHOICE, log
20). -/
def State.libAppend (s : State) (r : Side) (typ : Nat) : State :=
  if s.crnRoom r typ false && s.regB (rk r R_CRN_CTL) 0 then
    ((s.crnWrite (kCtx0 r) typ (s.free 400).toNat)).freeNext
  else s.crnInt r 3

/-- The Ridge whose K context runs the library: A, or B while A is not in service. -/
def State.kSide (s : State) : Side := if s.ridgeSt .a = .inService then .a else if s.ridgeSt .b = .inService then .b else .a

/-! ### Pieces (R291–R293) -/

/-- The DRAM address of a slot. -/
def slotAddr (slot : Nat) : Nat := Config.winBase + slot * 4160

/-- Every copy of the window can take `n` slots: each DRAM channel but one that the fence of its Saddle half has taken
out of service, and both halves of the context table but a fenced one (R14, R358). -/
def State.mirrorsTake (s : State) (slot n : Nat) : Bool :=
  Side.all.all (fun x => decide (s.rlg.sfence = some x) || s.dramOk x (slotAddr slot) (n * 4160)) && s.nveUp

/-- A slot's payload, from the Ridge's own channel or where that holds it poisoned or is out of service from the other.
-/
def State.slotRead (s : State) (r : Side) (slot : Nat) : Option (List Byte) :=
  let a := slotAddr slot
  let one (x : Side) : Option (List Byte) :=
    if s.dramOk x a 4128 && !(s.dram.get x).anyPoison a 4128 then some ((s.dram.get x).read a 4128) else none
  match one r with
  | some b => some b
  | none => one r.peer

/-- A slot of 4,160 bytes, written to both DRAM channels in service (R14, R291). -/
def State.putSlot (s : State) (slot : Nat) (bs : List Byte) : State :=
  let a := slotAddr slot
  let d := (bs ++ List.replicate 4160 0).take 4160
  let one (s : State) (x : Side) : State := if s.dramOk x a 4160 then s.modDram x (fun c => c.write a d) else s
  one (one s .a) .b

/-- The sectors of a piece enter the window; bytes 4,112–4,127 are firmware's to write before the write gate
(chapter 11), and the spec does not say what they hold until then (DESIGN CHOICE, log 21). -/
def State.putPiece (s : State) (c : Cmd) (lba n slot : Nat) : State :=
  (List.range n).foldl
    (fun (s : State) i =>
      let p := s.payload c.ns (lba + i) (lget [] c.data (lba + i - c.slba))
      (s.putSlot (slot + i) (p ++ bytesLE 16 (s.free 128))).freeNext) s

/-- The fields of a WINDOW record (Table 13.3), with what the device keeps of the command. -/
def pieceOf (c : Option Cmd) (body : Nat) : Piece where
  asn := BitVec.ofNat 64 (bodyF body 10 17)
  ns := bodyF body 18 18
  lba := bodyF body 20 27
  blocks := bodyF body 28 29 + 1
  slot := bodyF body 32 35
  home := bodyF body 36 39
  hostId := (c.map Cmd.host).getD 0
  cmd := c.map Cmd.idx
  gone := []

/-- The Zone Table command that moves a host write pointer to LBA `lba` (Table 11.7). -/
def hwpWord (lba : Nat) : DWord := BitVec.ofNat 64 (3 * 2 ^ 60 + (lba - zoneOf (lba - 1) * 262144) * 2 ^ 32)

/-- The zone's host write pointer advances to the end of a committed piece (R331, Table 11.7). -/
def State.hwpTo (s : State) (ns lba : Nat) : State :=
  match s.zoneEnt ns (zoneOf (lba - 1)) with
  | none => s
  | some (i, e) => s.ztbDo i e (hwpWord lba)

/-- A piece enters the window. -/
def State.addPiece (s : State) (p : Piece) : State :=
  let s := s.modWin (fun w => { w with pieces := w.pieces ++ [p] })
  let s := s.deferCover p.ns p.lba p.blocks
  if s.nsZoned p.ns then s.hwpTo p.ns (p.lba + p.blocks) else s.poisonClear p.ns p.lba p.blocks

/-- What a committed WINDOW record does to its command and the tables, where it names a piece of its command (R293). At
replay it only puts the piece back: the Zone Table, poison and page are those of the image operand. -/
def State.windowCommit (s : State) (c : Option Cmd) (body : Nat) : State :=
  let p := pieceOf c body
  match c with
  | none => s.modWin (fun w => { w with pieces := w.pieces ++ [p] })
  | some k =>
    if k.pieces.contains (p.lba, p.blocks) then
      let s := (s.addPiece p).putPiece k p.lba p.blocks p.slot
      let rest := k.pieces.erase (p.lba, p.blocks)
      let s := s.modCmd k.idx (fun x => { x with committed := true, done := x.done + p.blocks, pieces := rest })
      match (if rest.isEmpty then k.hedge else none) with
      | some e => s.setHent e ((s.hent e).map (fun x => { x with committed := true }))
      | none => s
    else s

/-! ### Release of window space (R16, R244) -/

/-- The stripe of a data sector is recorded on media: below WP (Table 11.6), or by an ONMEDIA record. -/
def State.stripeRecorded (s : State) (i k : Nat) : Bool :=
  let e := s.zent i
  decide (e.stripeAt k < e.wp) || s.win.recorded.contains (e.stripeAt k * 131072 + i, e.wgen)

/-- The staged copy of a sector that stands for a piece's data, or newer data. -/
def State.stagedOf (s : State) (ns home off : Nat) : Option StgCopy :=
  s.win.staged.find? (fun c => decide (c.ns = ns ∧ c.home = home ∧ c.off = off))

/-- The map's place of a conventional LBA. -/
def State.mapOf (s : State) (ns lba : Nat) : Option MapEnt := s.win.map.find? (fun m => decide (m.ns = ns ∧ m.lba = lba))

/-- A younger piece covers the LBA. -/
def State.superseded (s : State) (p : Piece) (lba : Nat) : Bool :=
  s.win.pieces.any (fun q => decide (q.ns = p.ns ∧ p.asn < q.asn ∧ q.lba ≤ lba ∧ lba < q.lba + q.blocks))

/-- A piece's sector is recorded on media, in place or in staging; or its data belongs to no stripe any more: its zone
was reset since, or a younger write covers the LBA (DESIGN CHOICE, log 143). -/
def State.sectorRecorded (s : State) (p : Piece) (lba : Nat) : Bool :=
  s.superseded p lba ||
    (if s.nsZoned p.ns then
      match s.zoneEnt p.ns (zoneOf lba) with
      | none => true
      | some (i, e) =>
        let off := lba % 262144
        decide (e.hwp ≤ off) || s.stripeRecorded i off ||
          (match s.stagedOf p.ns i off with
           | some c => s.stripeRecorded c.stg c.pos
           | none => false)
    else
      match s.mapOf p.ns lba with
      | some m => decide (p.asn ≤ m.asn) && s.stripeRecorded m.entry m.idx
      | none => false)

/-- An admitted read forwards data from the slot. -/
def State.slotForwarding (s : State) (slot : Nat) : Bool :=
  s.nve.cmds.any (fun k => k.srcs.contains (.slot slot))

/-- A write older than the piece that overlaps the LBA is still in the Hedge table. -/
def State.olderWriteOut (s : State) (p : Piece) (lba : Nat) : Bool :=
  s.hdg.entries.any (fun q =>
    match q.2 with
    | some x => x.kind.isWrite && decide (x.ns = p.ns ∧ x.asn < p.asn ∧ x.slba ≤ lba ∧ lba < x.slba + x.count)
    | none => false)

/-- The three conditions of R16 for a sector of a piece. -/
def State.mayRelease (s : State) (p : Piece) (j : Nat) : Bool :=
  s.sectorRecorded p (p.lba + j) && !s.slotForwarding (p.slot + j) && !s.olderWriteOut p (p.lba + j)

/-- Sectors of a piece, by their offset, that lie in `n` slots from `first`. -/
def Piece.inSlots (p : Piece) (first n : Nat) : List Nat :=
  (List.range p.blocks).filter (fun j => decide (first ≤ p.slot + j ∧ p.slot + j < first + n) && !p.gone.contains j)

/-- Sectors leave the window; a piece goes with its last one. -/
def Win.dropSectors (w : Win) (f : Piece → List Nat) : Win :=
  let l := w.pieces.map (fun p => { p with gone := p.gone ++ f p })
  { w with pieces := l.filter (fun p => decide (p.gone.length < p.blocks)) }

/-- A WREL record: of its slots those leave the window that R16 lets go; the others stay held. -/
def State.windowRelease (s : State) (first n : Nat) : State :=
  let stay := (s.win.pieces.map (fun p => ((p.inSlots first n).filter (fun j => !s.mayRelease p j)).length)).sum
  (s.modWin (fun w => w.dropSectors (fun p => (p.inSlots first n).filter (fun j => s.mayRelease p j)))).winReturn (n - stay)

/-- A WREL record of replay, whose release took place before: no condition is tested again. -/
def State.windowRereleased (s : State) (first n : Nat) : State :=
  s.modWin (fun w => w.dropSectors (fun p => p.inSlots first n))

/-- A staged copy leaves the index, and both counts fall (R244, R246). -/
def State.unstage (s : State) (cs : List StgCopy) : State :=
  let s := cs.foldl (fun (s : State) c => (s.stgAdd c.home (-1)).stgAdd c.stg (-1)) s
  s.modWin (fun w => { w with staged := w.staged.filter (fun c => !cs.contains c) })

/-- Staged copies of a home stripe. -/
def State.stagedIn (s : State) (i stripe : Nat) : List StgCopy :=
  s.win.staged.filter (fun c => decide (c.home = i ∧ (s.zent i).stripeAt c.off = stripe))

/-- An ONMEDIA record: the stripe is recorded, and the staged copies of its sectors are released (R244). -/
def State.onMedia (s : State) (body : Nat) : State :=
  let key := bodyF body 10 13 % 2 ^ 26
  let i := key % 131072
  let g := (s.zent i).wgen
  let s := s.modWin (fun w =>
    { w with recorded := (w.recorded.filter (fun p => decide (p.1 % 131072 ≠ i ∨ p.2 = g))) ++ [(key, g)] })
  let s := s.escReturn (s.zent i).act key
  match s.stagedIn i (key / 131072) with
  | [] => s
  | c :: cs => (s.unstage (c :: cs)).libAppend s.kSide 0x0007

/-- A STAGE record changes the staging index; STGADD updates change the counts (R243, DEDUCED, log 140). -/
def State.stageRecord (s : State) (body : Nat) : State :=
  let d := Config.stageDelta (BitVec.ofNat 400 body)
  s.modWin (fun w => { w with staged := (w.staged.filter (fun c => !d.drop.contains c)) ++ d.add })

/-- A MAP record changes the conventional map. -/
def State.mapRecord (s : State) (body : Nat) : State :=
  let d := Config.mapDelta (BitVec.ofNat 400 body)
  let dead (m : MapEnt) : Bool := d.clear.contains (m.ns, m.lba) || d.put.any (fun x => decide (x.ns = m.ns ∧ x.lba = m.lba))
  s.modWin (fun w => { w with map := (w.map.filter (fun m => !dead m)) ++ d.put })

/-! ### P_CRN_APPEND -/

/-- The buffer that an append seals: staged as its distance from the reset value 63. -/
def Ctx.sealBuf (x : Ctx) : Nat := 63 - fld (x.stagedAt 0x81) 5 0

def Ctx.sealKey (x : Ctx) : Nat := fld (x.stagedAt 0x80) 25 0

/-- The command whose commit point the record is (Table 15.7): of a WINDOW record by its ASN, of a MAP or ZTB record
the one the context holds. -/
def State.commitCmd (s : State) (c : CtxId) (typ body : Nat) : Option Cmd :=
  if typ = 3 then s.nve.cmds.find? (fun k => decide (k.asn.toNat = bodyF body 10 17))
  else
    match (s.ctx c).heldCmd.bind s.cmd with
    | some k => if (typ = 6 ∧ k.sqe.opc = 0x09) ∨ (typ = 5 ∧ k.sqe.opc = 0x79) then some k else none
    | none => none

/-- A commit-point transfer is refused: its command's Abort came first (R338), or an older conflicting entry is still
ADMITTED (R328). -/
inductive CommitBar where
  | open
  | aborted
  | older (bs : List (Nat × HEntry))
deriving DecidableEq, Repr

def State.commitBar (s : State) (typ : Nat) (k : Option Cmd) : CommitBar :=
  match k with
  | none => .open
  | some k =>
    if k.abortReq && !k.committed then .aborted
    else
      match k.hedge with
      | none => .open
      | some e =>
        match s.hent e with
        | none => .open
        | some x =>
          let bs := s.blockers e x
          if typ = 3 ∧ bs ≠ [] then .older bs else .open

/-- What the commit of a record does besides. How many bytes a compaction image has is open (DESIGN CHOICE, log 20). -/
def State.recordEffect (s : State) (typ body : Nat) (k : Option Cmd) : State :=
  match typ with
  | 2 => s.onMedia body
  | 3 => s.windowCommit k body
  | 4 => s.windowRelease (bodyF body 10 13) (bodyF body 14 17)
  | 6 =>
    let s := s.mapRecord body
    (match k with
     | some k => s.modCmd k.idx (fun x => { x with committed := true })
     | none => s)
  | 7 => s.stageRecord body
  | 14 =>
    let s := s.modCrn (fun c => { c with tail := c.lastCut, lastCut := bodyF body 16 21, image := bodyF body 10 13 })
    (s.event 0x0510 (srcBlock R_CRN_ID)
      [(0, BitVec.ofNat 32 (bodyF body 10 13)), (1, BitVec.ofNat 32 (bodyF body 16 21)), (2, s.free 32)]).freeNext
  | _ =>
    match k with
    | some k => s.modCmd k.idx (fun x => { x with committed := true })
    | none => s

/-- The CAIRN band group of an actuator that image `n` goes to: the one of rank n mod 4 (R288). -/
def State.cairnGroup (s : State) (x : Side) (n : Nat) : Nat :=
  lget 0 ((s.boundEnts.filter (fun p => decide (p.2.use = 5 ∧ p.2.act = x))).map Prod.fst) (n % 4)

/-- The ROM library's COMPACT record, whose image takes in everything so far (R288). -/
def State.libCompact (s : State) : State :=
  let r := s.kSide
  let n := (s.crn.image + 1) % 2 ^ 32
  let body := n + s.crn.head * 2 ^ 48 + s.cairnGroup .a n * 2 ^ 112 + s.cairnGroup .b n * 2 ^ 144
  if s.crnRoom r 0x000E false && s.regB (rk r R_CRN_CTL) 0 then
    (s.crnWrite (kCtx0 r) 0x000E body).recordEffect 0x000E body none
  else s.crnInt r 3

/-- An append without a seal. A WINDOW record of a command waits while a copy cannot take its slots (R14, DEDUCED, log
141). -/
def State.plainAppend (s : State) (c : CtxId) (typ body : Nat) : State :=
  let cut := bodyF body 16 21
  if typ = 14 ∧ (cut < s.crn.tail ∨ s.crn.head < cut) then (s.crnInt c.ridge 6).refuseCtx c 0xD4 5
  else
    let k := s.commitCmd c typ body
    match s.commitBar typ k with
    | .aborted =>
      let s := s.refuseCtx c 0xD4 5
      match k.bind Cmd.holder with
      | some h => s.raiseLine h 1
      | none => s
    | .older bs => (s.refuseCtx c 0xD4 5).waitOn c bs
    | .open =>
      if typ = 3 ∧ k.isSome ∧ s.mirrorsTake (bodyF body 32 35) (bodyF body 28 29 + 1) = false then s
      else (s.crnWrite c typ body).recordEffect typ body k

/-- An append that seals a stripe (R237): BODY bytes 24–27 receive WGEN. -/
def State.sealAppend (s : State) (c : CtxId) (n body : Nat) : State :=
  let key := (s.ctx c).sealKey
  match s.sealReason c.ridge key n with
  | some reason => s.steRefuse c .seal reason n
  | none =>
    let body := body - bodyF body 24 27 * 2 ^ 112 + (s.zent (key % 131072)).wgen * 2 ^ 112
    let s := (s.sealBuf c.ridge key n).crnWrite c 1 body
    let e := s.zent (key % 131072)
    let s := if e.use = 3 then s.escSeal c e.act key else s
    s.modCtx c (fun x => x.stage 0x81 0)

def State.crnAppend (s : State) (c : CtxId) : State :=
  let x := s.ctx c
  let n := x.sealBuf
  let body := x.crnBody
  let typ := if n ≤ 40 then 1 else fld (x.stagedAt 0xCC) 63 48
  if s.regB (rk c.ridge R_CRN_CTL) 0 = false ∨ (s.bankTakes .a || s.bankTakes .b) = false then s.refuseCtx c 0xD4 5
  else if s.crnRoom c.ridge typ (s.hasEsc c) = false then (s.crnInt c.ridge 3).refuseCtx c 0xD4 3
  else if n ≤ 40 then s.sealAppend c n body
  else s.plainAppend c typ body

def execCairnAppend (c : CtxId) (s : State) : Out :=
  .next (
    s.byCtx c (fun s =>
      s.crnAppend c))

/-! ### Bank loss and resync (R302) -/

def execCairnBankLoss (r : Side) (s : State) : Out := .next (if s.bankUp r then s else s.crnLose r)

/-- CRN_CTL.RESYNC of a Ridge; it reads 1 while the copy runs. -/
def State.resyncStart (s : State) (r : Side) : State :=
  if s.bankUp r then s.modCrn (fun c => { c with resync := c.resync.set r true }) else s

def execCairnResync (x : Accessor) (s : State) : Out := .next (if s.ridgeLive x.ridge then s.resyncStart x.ridge else s)

/-- The copy ends: the own bank holds the peer bank's content. -/
def State.resyncEnd (s : State) (r : Side) : State :=
  if s.crn.resync.get r then
    let s := s.modCrn (fun c =>
      { c with
        banks := if s.crn.usable.get r.peer then c.banks.set r (c.banks.get r.peer) else c.banks
        resync := c.resync.set r false
        usable := c.usable.set r true })
    s.crnInt r 7
  else s

def execCairnResyncDone (r : Side) (s : State) : Out := .next (s.resyncEnd r)

/-! ### Deferred errors (R301, R341–R343) -/

/-- The page holds 4,096 entries; a further range widens the nearest entry of its namespace. -/
def dist (d : Deferred) (lba : Nat) : Nat := (lba - d.lba) + (d.lba - lba)

def nearest (ns lba : Nat) : List Deferred → Option Deferred
  | [] => none
  | d :: t =>
    match nearest ns lba t with
    | none => if d.ns = ns then some d else none
    | some e => if d.ns = ns ∧ dist d lba ≤ dist e lba then some d else some e

def widen (d x : Deferred) : Deferred :=
  let lo := min d.lba x.lba
  let hi := max (d.lba + d.count) (x.lba + x.count)
  { d with lba := lo, count := hi - lo, left := d.left ++ x.left }

def Win.addDeferred (w : Win) (d : Deferred) : Win :=
  let l :=
    if w.deferred.length < 4096 then w.deferred ++ [d]
    else
      match nearest d.ns d.lba w.deferred with
      | some e => lmodFirst (fun y => y == e) (fun y => widen y d) w.deferred
      | none => w.deferred
  { w with deferred := l, deferGen := w.deferGen + 1 }

/-- A poison range is listed and journaled; a list of 65,536 ranges sends the zone OFFLINE instead, and every LBA of it
then reads as poisoned (R270). -/
def State.poisonAdd (s : State) (x : Side) (ns lba n : Nat) : State :=
  if (s.redun.get x).poison.length < 65536 then
    (s.modRedun x (fun r => { r with poison := r.poison ++ [⟨ns, lba, n⟩] })).libAppend s.kSide 0x000A
  else
    match s.zoneEnt ns (zoneOf lba) with
    | some p =>
      let s := (s.putZent p.1 (p.2.setState 15)).bumpGen
      s.modRedun x (fun r => { r with flooded := r.flooded ++ [p.1] })
    | none => s

/-- The report of a deferred error: event 0x0515, and the asynchronous event to controllers of the recorded host. -/
def State.deferSay (s : State) (d : Deferred) (host : BitVec 128) : State :=
  let s := s.event 0x0515 (srcBlock R_CRN_ID)
    [(0, BitVec.ofNat 32 (d.ns + 1)), (1, BitVec.ofNat 32 d.lba), (2, BitVec.ofNat 32 d.count), (3, BitVec.ofNat 32 d.cause)]
  s.asyncTo 0 (fun c => c.hostId == host)

/-- What the DEFER record of a piece brings with it: page, poison, pending report (R270, R301, R341, R343). -/
def State.deferRecord (s : State) (p : Piece) (d : Deferred) : State :=
  let s := s.libAppend s.kSide 0x000B
  let s := if s.nsZoned p.ns then s.poisonAdd (s.zent p.home).act p.ns p.lba p.blocks else s
  s.modWin (fun w =>
    let w := w.addDeferred d
    { w with
      pieces := w.pieces.filter (fun q => q != p)
      defers := w.defers ++ [(p.asn, p.lba)]
      reports := if w.reports.contains (p.ns, p.hostId) then w.reports else w.reports ++ [(p.ns, p.hostId)] })

def Piece.deferred (p : Piece) (cause : Nat) : Deferred := ⟨p.ns, p.lba, p.blocks, p.asn, cause, [(p.lba, p.blocks)]⟩

/-- The whole piece becomes a deferred error. -/
def State.deferPiece (s : State) (p : Piece) (cause : Nat) : State :=
  (s.deferRecord p (p.deferred cause)).deferSay (p.deferred cause) p.hostId

/-- The same at a flush that stops: it is reported after the next power-on (R18). -/
def State.deferSilent (s : State) (p : Piece) (cause : Nat) : State :=
  (s.deferRecord p (p.deferred cause)).modWin (fun w => { w with unsaid := w.unsaid ++ [(p.deferred cause, p.hostId)] })

/-- The reports left from the power cycle before. -/
def State.saySilent (s : State) : State :=
  let l := s.win.unsaid
  l.foldl (fun (s : State) d => s.deferSay d.1 d.2) (s.modWin (fun w => { w with unsaid := [] }))

/-- A window piece that cannot reach the medium: both DRAM copies of one of its sectors are poisoned, or the sector
can be neither read nor reconstructed. -/
def execDeferredError (asn : DWord) (lba : Nat) (cause : Nat) (s : State) : Out :=
  .next (
    match s.win.pieces.find? (fun p => decide (p.asn = asn ∧ p.lba ≤ lba ∧ lba < p.lba + p.blocks)) with
    | some p => if 1 ≤ cause ∧ cause ≤ 3 then s.deferPiece p cause else s
    | none => s)

/-! ### Emergency flush (R298, R18) -/

/-- Order of the flush: ascending ASN, then LBA. -/
def flushBefore (a b : Piece) : Bool := decide (a.asn < b.asn) || (decide (a.asn = b.asn) && decide (a.lba ≤ b.lba))

def insPiece (p : Piece) : List Piece → List Piece
  | [] => [p]
  | q :: t => if flushBefore p q then p :: q :: t else q :: insPiece p t

/-- Pieces bound for an actuator, in flush order. -/
def State.flushList (s : State) (x : Side) : List Piece :=
  (s.win.pieces.filter (fun p => decide ((s.zent p.home).act = x))).foldr insPiece []

/-- Offsets of the sectors of a piece still held. -/
def Piece.held (p : Piece) : List Nat := (List.range p.blocks).filter (fun j => !p.gone.contains j)

/-- A piece's place in its home: the LBA offset in its zone, or of a conventional LBA the LBA. -/
def State.pieceOff (s : State) (p : Piece) (j : Nat) : Nat := if s.nsZoned p.ns then (p.lba + j) % 262144 else p.lba + j

def Piece.heldCount (p : Piece) : Nat := p.held.length

/-- A piece leaves the window with a WREL record of the library, and its credits return. -/
def State.pieceOut (s : State) (p : Piece) : State :=
  let s := s.crnWrite (kCtx0 s.kSide) 4 (p.slot + p.blocks * 2 ^ 32)
  (s.modWin (fun w => { w with pieces := w.pieces.filter (fun q => q != p) })).winReturn p.heldCount

def pieceSectors (l : List Piece) : Nat := (l.map Piece.heldCount).sum

/-- Pieces that hold a sector at or past `n` of the flush order, or one of a list. -/
def beyond : List Piece → Nat → Nat → List Nat → List Piece
  | [], _, _, _ => []
  | p :: t, k, n, bad =>
    let hit := decide (n < k + p.heldCount) || bad.any (fun b => decide (k ≤ b ∧ b < k + p.heldCount))
    (if hit then [p] else []) ++ beyond t (k + p.heldCount) n bad

/-- The sequence of Table 9.4 has come to a step; it never goes back (MTR_PFSTAT). -/
def State.pfAt (s : State) (n : Nat) : State :=
  s.modMtr (fun m => { m with pfStep := if m.sp = .gen then max m.pfStep n else m.pfStep })

/-- Both flushes have ended: the K context appends the FLUSH record. -/
def State.flushSeal (s : State) : State :=
  if s.win.flushing.a || s.win.flushing.b then s else ((s.libAppend s.kSide 0x000F).modWin (fun w => { w with flushRec := true })).pfAt 6

/-- Writes of stripes in place that are in progress are abandoned (R298). -/
def State.abandonWrites (s : State) : State :=
  Quad.all.foldl (fun (s : State) t => if (s.tl t).wg then s.forceLow t false else s) s

/-- Entry into GEN (R203, R205, R218, R222): both actuators' flushes begin, and one with nothing to write ends at once
(R204, R298). -/
def State.enterGen (s : State) : State :=
  let s := ((s.dropWindow .a).dropWindow .b).abandonWrites
  let s := s.modMtr (fun m =>
    { m with
      cons := !m.regenOk
      genRetract := m.anyRetract
      after := if m.after = .brakeAuto then .brakeAuto else .none
      startLatched := false
      toIpd := false
      shortBrake := false
      genMs := 0
      pfStep := 2 })
  let todo : Two Bool := ⟨!(s.flushList .a).isEmpty, !(s.flushList .b).isEmpty⟩
  let s := s.modWin (fun w => { w with flushed := Two.all 0, flushing := todo, unread := Two.all [], stopCause := 0 })
  let s := (s.mtrInt 4).setSp .gen
  let s := if todo.a || todo.b then s else s.flushSeal
  (s.calAbortAll (fun _ => true) 2).genParked

/-- Power loss is detected (R203); `pfail` says that PFAIL_N is low. -/
def State.powerLoss (s : State) (pfail : Bool) : State :=
  let gen := decide (s.mtr.sp = .gen)
  let s := if pfail && s.mtr.pfailN then s.setStat R_GPD_INTSTAT 18 else s
  let s := s.modMtr (fun m =>
    { m with
      isoClosed := false
      loss := true
      pfailN := m.pfailN && !pfail
      pfailSeen := pfail || !m.pfailN || (gen && m.pfailSeen) })
  match s.mtr.sp with
  | .off => s
  | .fault => s
  | .gen => s
  | _ => s.enterGen

/-- VMOT below PFTH, or PFAIL_N low. -/
def execPowerLoss (pfail : Bool) (vmot : BitVec 16) (s : State) : Out :=
  .next (if pfail || decide (vmot.toNat < s.regF R_MTR_PFCFG 31 16) then s.powerLoss pfail else s)

/-- Below 75 % of nominal speed, where writing stops (R18). -/
def State.tooSlow (s : State) : Bool := decide (s.speedRpm s.spinSide * 4 < s.targetReg * 3)

/-- The slot of place `k` of a flush order. -/
def slotOfPlace : List Piece → Nat → Option Nat
  | [], _ => none
  | p :: t, k => if k < p.heldCount then some (p.slot + lget 0 p.held k) else slotOfPlace t (k - p.heldCount)

/-- Places from `a` up to `b` whose sector cannot be read from either DRAM copy. -/
def State.unreadable (s : State) (r : Side) (l : List Piece) (a b : Nat) : List Nat :=
  (List.range' a (b - a)).filter (fun k => ((slotOfPlace l k).bind (s.slotRead r)).isNone)

/-- An actuator's flush ends: pieces with a sector that neither DRAM copy holds whole become deferred errors (R301). -/
def State.flushEnd (s : State) (x : Side) (lost : List Piece) : State :=
  let bad := beyond (s.flushList x) 0 (pieceSectors (s.flushList x)) (s.win.unread.get x)
  let s := s.modWin (fun w => { w with flushing := w.flushing.set x false, unread := w.unread.set x [] })
  let s := (bad.filter (fun p => !lost.contains p)).foldl (fun (s : State) p => s.deferPiece p 2) s
  (lost.foldl (fun (s : State) p => s.deferSilent p 1) s).flushSeal

/-- `n` more sectors of an actuator's share are written, by the Ridge in service that holds the actuator's Quaxlink: its
own, or after a fence the survivor, each from its own mirror copy (R19, R298). None is written below 75 % speed. -/
def execEmergencyFlush (x : Side) (n : Nat) (s : State) : Out :=
  .next (
    match s.rlg.unit.get x with
    | none => s
    | some r =>
      if s.mtr.sp = .gen ∧ s.win.flushing.get x = true ∧ s.ridgeSt r = .inService ∧ s.tooSlow = false then
        let l := s.flushList x
        let k := min (pieceSectors l) (s.win.flushed.get x + n)
        let bad := s.unreadable r l (s.win.flushed.get x) k
        let s := s.modWin (fun w =>
          { w with flushed := w.flushed.set x k, unread := w.unread.set x (w.unread.get x ++ bad) })
        let s := s.pfAt 5
        if k = pieceSectors l then s.flushEnd x [] else s
      else s)

/-- Writing stops below 75 % of nominal speed, or because generation has ended (R18, R201); unwritten pieces become
deferred errors. -/
def execFlushSpeedStop (x : Side) (s : State) : Out :=
  .next (
    if s.win.flushing.get x ∧ (s.mtr.sp ≠ .gen ∨ s.tooSlow = true) then
      let lost := beyond (s.flushList x) 0 (s.win.flushed.get x) []
      (s.modWin (fun w => { w with stopCause := 1 })).flushEnd x lost
    else s)

/-! ### Replay (Table 13.4, R289, R290, R299) -/

/-- A bank's line, or where it is not valid the other bank's. -/
def mergeLine (a b : Sparse (BitVec 512)) (n : Nat) : BitVec 512 :=
  let x := sg 0 a n
  if lineValid x then x else if lineValid (sg 0 b n) then sg 0 b n else x

/-- Step 1: each bank takes the records valid in the other only. -/
def State.mergeBanks (s : State) : State :=
  let b := s.crn.banks
  let up (x y : Sparse (BitVec 512)) : Sparse (BitVec 512) :=
    y.foldl (fun m p => if p.1 < crnLines then sp 0 m p.1 (mergeLine m y p.1) else m) x
  s.modCrn (fun c => { c with banks := ⟨if s.bankTakes .a then up b.a b.b else b.a, if s.bankTakes .b then up b.b b.a else b.b⟩ })

def insLine (w : BitVec 512) : List (BitVec 512) → List (BitVec 512)
  | [] => [w]
  | v :: t => if lineSeq w ≤ lineSeq v then w :: v :: t else v :: insLine w t

/-- The valid records in JSEQ order, of bank A or while it is out of use of bank B. -/
def State.journal (s : State) : List (BitVec 512) :=
  let b := if s.bankTakes .a then s.crn.banks.a else s.crn.banks.b
  ((b.filter (fun p => decide (p.1 < crnLines) && lineValid p.2)).map (fun p => p.2)).foldr insLine []

/-- The first JSEQ from `k` up that has no record although a later one has. -/
def firstGap : Nat → List (BitVec 512) → Option Nat
  | _, [] => none
  | k, w :: t => if lineSeq w = k then firstGap (k + 1) t else some k

def lastSeq : List (BitVec 512) → Nat
  | [] => 0
  | [w] => lineSeq w + 1
  | _ :: t => lastSeq t

def lineCut (w : BitVec 512) : Nat := lineF w 16 21

/-- The image that replay uses: its record, and that the mirror was taken (step 2). -/
def pickImage (img : ImageIn) : List (BitVec 512) → Option (BitVec 512 × Bool)
  | [] => none
  | w :: t =>
    if img.new.1 then some (w, false)
    else if img.new.2 then some (w, true)
    else
      match t with
      | v :: _ => if img.old.1 then some (v, false) else if img.old.2 then some (v, true) else none
      | [] => none

/-- Replay halts (R290): every namespace not ready, with NRDNR. -/
def State.replayHalt (s : State) (code : BitVec 16) (p : Nat) : State :=
  let s := s.modCrn (fun c => { c with halted := true })
  let s := s.event code (srcBlock R_CRN_ID) [(0, BitVec.ofNat 32 p)]
  (List.range 128).foldl
    (fun (s : State) n =>
      if (s.ns n).isSome then s.modNve (fun v => { v with cfg := sp 0 v.cfg n (setBit (clrBit (s.nscfg n) 31) 24) }) else s) s

/-- Step 3: the image is loaded. -/
def State.loadImage (s : State) (img : ImageIn) : State :=
  let s := img.zt.foldl
    (fun (s : State) e => s.putZent e.1 (ZEntry.ofWords e.2.1 e.2.2.1 e.2.2.2.1 e.2.2.2.2)) s
  let s := img.members.foldl
    (fun (s : State) m =>
      let st : MemberSt :=
        match m.2 with
        | 0 => .online
        | 1 => .suspect
        | 2 => .failed
        | _ => .retired
      s.modMember (fun t => sp Member.default t m.1 { sg Member.default t m.1 with st := st })) s
  let s := img.poison.foldl
    (fun (s : State) p => s.modRedun (sideOf p.1) (fun r => { r with poison := r.poison ++ [⟨p.2.1, p.2.2.1, p.2.2.2⟩] })) s
  let s := (s.modRedun .a (fun r => { r with gC := img.gens.a })).modRedun .b (fun r => { r with gC := img.gens.b })
  let f (p : PieceIn) : Piece := ⟨p.asn, p.ns, p.lba, p.blocks, p.slot, p.home, p.host, none, []⟩
  s.modWin (fun w =>
    { w with
      pieces := (img.pieces.map f).filter (fun p => !w.defers.contains (p.asn, p.lba))
      staged := img.staged
      map := img.map })

/-- A rebuild that was interrupted resumes at its last checkpoint (R267): the stripes of N written since, fewer than
sixteen, are dead space. How many there are no command tells (DESIGN CHOICE, log 162). -/
def State.resumeMove (s : State) (x : Side) : State :=
  let r := s.redun.get x
  if r.cur.isSome && r.target.isSome then
    (s.modRedun x (fun r => { r with stripe := r.ckpt, dead := r.dead + (s.free 4).toNat })).freeNext
  else s

/-- Rebuild resumes at its last checkpoint (R267). -/
def State.loadMove (s : State) (x : Side) (m : Option RebuildIn) : State :=
  match m with
  | none => s
  | some m =>
    (s.modRedun x (fun r =>
      let r := { r with gT := m.gT, dT := m.dT, leaving := m.leaving }
      match m.zone with
      | none => r
      | some z => { r with cur := some z.1, target := some (z.2.1, z.2.2.1), stripe := z.2.2.2, ckpt := z.2.2.2 })).resumeMove x

/-- Step 4: the ONMEDIA, WINDOW and WREL records from CUT upward; a piece that a DEFER record names does not come back.
Bodies of library layout are in the image operand (DESIGN CHOICE, log 20). -/
def State.replayLine (s : State) (w : BitVec 512) : State :=
  let body := w.toNat / 2 ^ 80 % 2 ^ 400
  match lineTyp w with
  | 2 =>
    let key := bodyF body 10 13 % 2 ^ 26
    s.modWin (fun v => { v with recorded := v.recorded ++ [(key, (s.zent (key % 131072)).wgen)] })
  | 3 => if s.win.defers.contains ((pieceOf none body).asn, (pieceOf none body).lba) then s else s.windowCommit none body
  | 4 => s.windowRereleased (bodyF body 10 13) (bodyF body 14 17)
  | _ => s

/-- A flushed sector passes its Media Tag check: KIND 2 with its home reference, and the write generation of an
EMERGENCY band group of the actuator (R251, R298). -/
def State.flushedOk (s : State) (x : Side) (p : Piece) (j : Nat) (payload : List Byte) : Bool :=
  s.boundEnts.any (fun e => decide (e.2.use = 4 ∧ e.2.act = x) &&
    tagPass (some (refStaging (s.pieceOff p j) p.home (p.ns + 1))) e.2.wgen payload)

/-- The sectors of a piece come back into their slots; it is whole where each of them does. -/
def State.pieceBack (s : State) (x : Side) (p : Piece) (l : List (Option (List Byte))) : Option State :=
  (p.held.zip (l ++ List.replicate p.blocks none)).foldl
    (fun (t : Option State) q =>
      match t, q.2 with
      | some t, some b => if s.flushedOk x p q.1 b then some (t.putSlot (p.slot + q.1) b) else none
      | _, _ => none)
    (some s)

/-- The flushed pieces of an actuator in flush order; one that cannot be had whole becomes a deferred error (R299,
R301). -/
def State.piecesBack (s : State) (x : Side) : List Piece → List (Option (List Byte)) → State
  | [], _ => s
  | p :: t, l =>
    let s := match s.pieceBack x p l with
      | some s => s
      | none => s.deferPiece p 3
    s.piecesBack x t (l.drop p.heldCount)

/-- The EMERGENCY band groups of an actuator are reset (R299). -/
def State.emergencyReset (s : State) (x : Side) : State :=
  (s.boundEnts.filter (fun p => decide (p.2.use = 4 ∧ p.2.act = x))).foldl
    (fun (s : State) p => s.ztbDo p.1 p.2 0x5000000000000000#64) s

/-- The flushed sectors of an actuator are read back into their slots; those past the flush writing are lost. -/
def State.flushBack (s : State) (img : ImageIn) (x : Side) : State :=
  let l := s.flushList x
  let late := beyond l 0 (s.win.flushed.get x) []
  let s := late.foldl (fun (s : State) p => s.deferPiece p 1) s
  (s.piecesBack x (l.filter (fun p => !late.contains p)) (img.flushed.get x)).emergencyReset x

/-- Step 5: the flushed sectors are read back into their slots, and the EMERGENCY band groups are reset (R299). -/
def State.replayFlush (s : State) (img : ImageIn) : State :=
  let s := ((s.flushBack img .a).flushBack img .b).modWin (fun w => { w with flushRec := false })
  s.event 0x0516 (srcBlock R_CRN_ID) [(0, BitVec.ofNat 32 s.win.flushed.a), (1, BitVec.ofNat 32 s.win.flushed.b),
    (2, BitVec.ofNat 32 s.win.stopCause)]

/-- The window was lost with the DRAM and no flush has written it out: every piece left becomes a deferred error (R363).
-/
def State.windowLost (s : State) : State := s.win.pieces.foldl (fun (s : State) p => s.deferPiece p 1) s

/-- A window that survived in DRAM: a piece with a slot that neither copy holds readable becomes a deferred error (R399,
R301). -/
def State.windowKept (s : State) (r : Side) : State :=
  (s.win.pieces.filter (fun p => p.held.any (fun j => (s.slotRead r (p.slot + j)).isNone))).foldl
    (fun (s : State) p => s.deferPiece p 2) s

/-- Step 6: a stripe sealed and not recorded keeps its position (R300): its media token is held again. -/
def State.replaySeals (s : State) (r : Side) (l : List (BitVec 512)) : State :=
  let key (w : BitVec 512) : Nat := lineF w 10 13 % 2 ^ 26
  let done := (l.filter (fun w => decide (lineTyp w = 2))).map key
  let open_ := ((l.filter (fun w => decide (lineTyp w = 1))).map key).filter (fun k => !done.contains k)
  open_.eraseDups.foldl
    (fun (s : State) k =>
      match s.rlg.nextLease with
      | some n => s.modRlg (fun g => { g with leases := g.leases ++ [⟨n, .ctx (kCtx0 r), 15, 0, 1, false, [], k⟩] })
      | none => s) s

/-- The rebuilt window is held against the ledger. -/
def State.replayLeases (s : State) (r : Side) : State :=
  Side.all.foldl
    (fun (s : State) x =>
      let b := pieceSectors (s.flushList x) * 4096
      match s.rlg.nextLease with
      | some n =>
        if b = 0 then s
        else
          s.modRlg (fun g =>
            { (g.use 1 0 (b / 4096)) with leases := g.leases ++ [⟨n, .ctx (kCtx0 r), 1, x.idx, b, false, [], 0⟩] })
      | none => s) s

/-- The configuration of every namespace, not ready yet. -/
def State.nsRestore (s : State) : State :=
  (List.range 128).foldl
    (fun (s : State) n =>
      match s.ns n with
      | some x => s.modNve (fun v => { v with cfg := sp 0 v.cfg n x.cfg })
      | none => s) s

/-- Step 7: the namespaces become ready: their entries are complete, and the map of the conventional ones is loaded. -/
def State.nsBecomeReady (s : State) : State :=
  (List.range 128).foldl
    (fun (s : State) n =>
      if (s.ns n).isSome then s.modNve (fun v => { v with cfg := sp 0 v.cfg n (setBit (s.nscfg n) 31) })
      else s) s

def State.replay (s : State) (r : Side) (img : ImageIn) : State :=
  let s := s.mergeBanks.nsRestore
  let l := s.journal
  let compacts := (l.filter (fun w => decide (lineTyp w = 14))).reverse
  let s := s.modCrn (fun c => { c with head := lastSeq l, replayed := true })
  match pickImage img compacts with
  | none => s.replayHalt 0x0513 (((compacts.head?).map (fun w => lineF w 10 13)).getD 0)
  | some (w, mirror) =>
    let s := s.modCrn (fun c =>
      { c with
        lastCut := ((compacts.head?).map lineCut).getD 0
        image := ((compacts.head?).map (fun w => lineF w 10 13)).getD 0
        tail := (((compacts.drop 1).head?).map lineCut).getD (lineCut w) })
    let s :=
      if mirror then
        s.event 0x0517 (srcBlock R_CRN_ID) [(0, BitVec.ofNat 32 (lineF w 10 13)), (1, BitVec.ofNat 32 r.idx)]
      else s
    let l := l.filter (fun v => decide (lineCut w ≤ lineSeq v))
    let s := ((s.loadImage img).loadMove .a img.moves.a).loadMove .b img.moves.b
    match firstGap (lineCut w) l with
    | some k => s.replayHalt 0x0512 k
    | none =>
      let s := (l.foldl State.replayLine s).saySilent
      let s := if s.win.flushRec && l.any (fun v => decide (lineTyp v = 15)) then s.replayFlush img
        else if s.win.dramLost then s.windowLost else s.windowKept r
      let s := s.modWin (fun w => { w with dramLost := false })
      ((s.replaySeals r l).replayLeases r).nsBecomeReady

/-- The K context of Ridge A, or of the one Ridge in service, once after power-on. -/
def execReplay (r : Side) (img : ImageIn) (s : State) : Out :=
  .next (
    if s.ridgeSt r = .inService ∧ (r = .a ∨ s.ridgeSt .a ≠ .inService) ∧ s.crn.replayed = false then s.replay r img else s)

end Sys2Proof.Machine
end

