-- ==== Sys2Proof/Machine/Members.lean ====
section
/-!
DEFINITION. Members, rebuild, reshape, poison, actuator loss and background scrub (R254–R278).
-/
namespace Sys2Proof.Machine

def memberIdx (x : Side) (h : Nat) : Nat := 12 * x.idx + h

def State.setMember (s : State) (x : Side) (h : Nat) (m : Member) : State :=
  s.modMember (fun t => sp Member.default t (memberIdx x h) m)

def MemberSt.code : MemberSt → Nat
  | .online => 0
  | .suspect => 1
  | .failed => 2
  | .retired => 3

def MemberSt.live : MemberSt → Bool
  | .online => true
  | .suspect => true
  | _ => false

/-- The address block that the redundancy events name as their source: the Zone Table. -/
def redSrc : BitVec 16 := srcBlock R_ZTB_ID

/-- Post a vendor asynchronous event to every controller that enables it. -/
def State.asyncAll (s : State) (k : Nat) : State := s.asyncTo k (fun _ => true)

/-- A change of member state: record, event 0x0501, asynchronous event C1h (R254). -/
def State.memberTo (s : State) (x : Side) (h : Nat) (st : MemberSt) (trig : Nat) : State :=
  let m := s.memberAt x h
  let s := (s.setMember x h { m with st := st, trigger := trig, since := s.evr.ot.toNat + 1 }).libAppend s.kSide 0x0009
  let s := s.event 0x0501 redSrc
    [(0, BitVec.ofNat 32 (memberIdx x h)), (1, BitVec.ofNat 32 m.st.code), (2, BitVec.ofNat 32 st.code), (3, BitVec.ofNat 32 trig)]
  s.asyncAll 1

/-- Bound entries of an actuator, in entry order. -/
def State.actEnts (s : State) (x : Side) : List (Nat × ZEntry) := s.boundEnts.filter (fun p => decide (p.2.act = x))

/-- DEGSET of a member on every bound entry that names it (R258). -/
def State.degsetAll (s : State) (x : Side) (h : Nat) : State :=
  ((s.actEnts x).filter (fun p => p.2.names h)).foldl
    (fun (s : State) p => s.ztbDo p.1 p.2 (BitVec.ofNat 64 (6 * 2 ^ 60 + 2 ^ (32 + h)))) s

/-- Members in ONLINE or SUSPECT. -/
def State.liveHeads (s : State) (x : Side) : List Nat := (List.range 12).filter (fun h => (s.memberAt x h).st.live)

/-- Members that a new binding may name: live, and not on the way out (R273). -/
def State.newHeads (s : State) (x : Side) : List Nat :=
  (s.liveHeads x).filter (fun h => !(s.redun.get x).leaving.contains h)

/-- Rebuild or reshape is running. -/
def Redun.moving (r : Redun) : Bool := decide (r.gT ≠ r.gC)

/-- D_T after a failure: the default 10 less the members in FAILED or RETIRED, or where a reshape has named a lower one
that one lowered to suit the members left (R268, R273); never below 6. -/
def State.dTarget (s : State) (x : Side) : Nat :=
  let r := s.redun.get x
  let f := 12 - (s.liveHeads x).length
  let d := min (10 - f) ((s.newHeads x).length - 2)
  max 6 (if r.moving then min r.dT d else d)

/-- Rebuild or reshape toward `d` starts, or its target is lowered (R268, R273): event 0x0502 at its start. -/
def State.moveStart (s : State) (x : Side) (d : Nat) : State :=
  let r := s.redun.get x
  let s := s.modRedun x (fun r =>
    { r with gT := (r.gC + 1) % 256, dT := d, doneList := [], startOt := if r.moving then r.startOt else s.evr.ot.toNat })
  if r.moving then s
  else s.event 0x0502 redSrc [(0, BitVec.ofNat 32 x.idx), (1, BitVec.ofNat 32 d), (2, BitVec.ofNat 32 ((r.gC + 1) % 256))]

def State.rebuildStart (s : State) (x : Side) : State := s.moveStart x (s.dTarget x)

/-- A member fails (R257, R258): RETIRED at once where no bound band group names it. A fresh compaction is started at
once where an image has a chunk on it (R271). -/
def State.memberFail (s : State) (x : Side) (h trig : Nat) : State :=
  if (s.actEnts x).any (fun p => p.2.names h) then
    let s := (((s.memberTo x h .failed trig).degsetAll x h)).rebuildStart x
    if (s.actEnts x).any (fun p => decide (p.2.use = 5) && p.2.names h) then s.libCompact else s
  else s.memberTo x h .retired trig

/-- A ROM library call names a new D, and SUSPECT members to retire ahead of failure (R273). -/
def State.reshapeCall (s : State) (x : Side) (d : Nat) (out : List Nat) : State :=
  let r := s.redun.get x
  let out := (out.filter (fun h => decide (h < 12 ∧ (s.memberAt x h).st = .suspect))).eraseDups
  if 6 ≤ d ∧ d ≤ ((s.liveHeads x).filter (fun h => !out.contains h)).length - 2 ∧ r.moving = false then
    (s.modRedun x (fun r => { r with leaving := out })).moveStart x d
  else s

/-! ### Triggers (R255, R256) -/

/-- Thresholds in force, within the ranges of Table 12.2. -/
def State.trigLimits (s : State) : Four Nat :=
  let t := s.rcp.triggers
  ⟨clampN 2 16 t.q0, clampN 1 6 t.q1, clampN 3 12 t.q2, clampN 4 256 t.q3⟩

def dayMs : Nat := 86400000

/-- Times of a log in the last 24 h that an earlier change of the member's state has not used up (DEDUCED, log
161). -/
def State.recent (s : State) (m : Member) (l : List Nat) : Nat :=
  l.countP (fun t => decide (s.evr.ot.toNat < t + dayMs ∧ m.since ≤ t))

/-- The head is bound, and its guide samples have been stale for 64 revolutions. -/
def State.guideLost (s : State) (t : Quad) (h : Nat) : Bool :=
  decide (s.slotHead t = some h) &&
    (match (s.tl t).staleFrom with
     | some a => decide (a.toNat + 64 * 16777216 ≤ (s.an (s.angSide t)).ac.toNat)
     | none => false)

/-- The condition of a trigger, numbered in the order of Table 12.2 from 0, then 8: the diagnosis of R256 finds two
sectors at L3, 9: 72 hours without a finding or a trigger. `n` is what firmware has measured where no state shows it: by
how many 1/256 dB the averaged STT_QUAL lies below the format baseline (3, 4), the sectors that needed L3 (8). -/
def State.trigHolds (s : State) (x : Side) (h trig n : Nat) : Bool :=
  let m := s.memberAt x h
  let k := s.trigLimits
  match trig with
  | 0 => decide (k.q0 ≤ (sg [] (s.tl (Quad.ofSlot x .a)).wrLog h).countP (fun e => e.any (fun t => decide (m.since ≤ t))))
  | 1 => decide (2 ≤ s.recent m (((s.lnk x).faultLog.filter (fun p => p.1 == h)).map Prod.snd))
  | 2 => s.mon.assistBad.contains (globalHead x h)
  | 3 => decide (256 * k.q1 ≤ n)
  | 4 => decide (256 * k.q2 ≤ n)
  | 5 => decide (k.q3 ≤ s.recent m m.l3)
  | 6 => s.guideLost (Quad.ofSlot x .a) h || s.guideLost (Quad.ofSlot x .b) h
  | 7 => true
  | 8 => decide (2 ≤ n)
  | 9 => decide (m.since + 3 * dayMs ≤ s.evr.ot.toNat + 1)
  | _ => false

/-- A trigger, a finding of the diagnosis or its end moves the member (Table 12.2, R256, R257). -/
def State.memberTrigger (s : State) (x : Side) (h trig n : Nat) : State :=
  if 12 ≤ h ∨ s.trigHolds x h trig n = false then s
  else
    let hard := decide (trig = 2 ∨ trig = 4 ∨ trig = 6 ∨ trig = 7)
    match (s.memberAt x h).st with
    | .online =>
      if hard then s.memberFail x h trig else if trig ≤ 7 then s.memberTo x h .suspect trig else s
    | .suspect => if trig = 9 then s.memberTo x h .online trig else s.memberFail x h trig
    | _ => s

def execMemberStateChange (x : Side) (h trig : BitVec 4) (n : Nat) (s : State) : Out :=
  .next (s.memberTrigger x h.toNat trig.toNat n)

/-! ### Rebuild (Table 12.3) -/

/-- Members of a new binding: `n` of the live members (DESIGN CHOICE, log 22). -/
def State.pickMembers (s : State) (x : Side) (n : Nat) : BitVec 12 :=
  (pickSome .member n (s.newHeads x)).foldl (fun w h => setBit w h) 0

/-- A band group bound with D_T and G_T, empty. -/
def State.freshEntry (s : State) (x : Side) (use band wgen : Nat) : ZEntry :=
  let r := s.redun.get x
  let n := r.dT + 2
  let d := if use = 5 then n else r.dT
  let m := s.pickMembers x n
  { w0 := BitVec.ofNat 64 (use * 2 ^ 60 + 2 ^ 56 + x.idx * 2 ^ 55 + d * 2 ^ 51 + r.gT % 256 * 2 ^ 40 + m.toNat * 2 ^ 28 + band)
    w1 := BitVec.ofNat 64 (wgen * 2 ^ 32)
    w2 := 0
    w3 := 0 }

/-- A reshape starts with the first binding of the new generation (R272). -/
def State.reshapeFirst (s : State) (x : Side) : State :=
  let r := s.redun.get x
  if r.reshape then s
  else
    let s := s.modRedun x (fun r => { r with reshape := true })
    (s.event 0x050A redSrc [(0, BitVec.ofNat 32 x.idx), (1, BitVec.ofNat 32 r.gC), (2, BitVec.ofNat 32 r.gT)]).asyncAll 2

/-- The band group is bound again at its slot; it keeps its namespace and zone, and its write generation rises as at a
reset. -/
def State.rebind (s : State) (x : Side) (i : Nat) (e : ZEntry) : State :=
  let f := s.freshEntry x e.use e.band ((e.wgen + 1) % 2 ^ 32)
  ((s.putZent i { f with w2 := putFld (putFld f.w2 63 57 e.ns) 56 40 e.zone, w3 := e.w3 }).bumpGen).reshapeFirst x

/-- The priority of a band group's path, and 7 for the rest. -/
def State.pathOf (s : State) (x : Side) (e : ZEntry) : Nat :=
  match e.use with
  | 4 => 1
  | 5 => 2
  | 3 => 3
  | 1 => if e.state = 1 then 4 else if e.hwp ≤ (s.redun.get x).dT * 16384 then 5 else 6
  | _ => 7

/-- Affected band groups of an actuator: not yet rebuilt to the present target, and a member erased or of an older
generation. -/
def State.affected (s : State) (x : Side) : List (Nat × ZEntry) :=
  let r := s.redun.get x
  if r.moving = false then []
  else
    (s.actEnts x).filter (fun p =>
      decide (p.2.use ≠ 7) && !r.doneList.contains p.1 && !s.notServing p.1 p.2 &&
        (decide (p.2.deg ≠ 0) || decide (p.2.ggen ≠ r.gT)))

/-- The order of R260. -/
def State.nextAffected (s : State) (x : Side) : List (Nat × ZEntry) → Option (Nat × ZEntry)
  | [] => none
  | p :: t =>
    match s.nextAffected x t with
    | none => some p
    | some q =>
      let a := s.pathOf x p.2
      let b := s.pathOf x q.2
      if b < a ∨ (a = b ∧ popc p.2.deg < popc q.2.deg) then some q else some p

def State.freeMin (s : State) : Nat := clampN 2 64 s.rcp.freemin

def State.roomToMove (s : State) (x : Side) : Bool := decide (s.freeMin < s.freeBands x)

/-- A free entry of the table, and a free member band slot of the actuator (DESIGN CHOICE, log 22). -/
def State.freeEntry (s : State) : Option Nat :=
  pickOf .entry ((List.range 131072).filter (fun i => decide ((s.zent i).use = 0)))

def State.freeBand (s : State) (x : Side) : Option Nat :=
  let used := (s.actEnts x).map (fun p => p.2.band)
  pickOf .band ((List.range (s.regF R_ZTB_CTL 16 0)).filter (fun b => !used.contains b))

/-- Event 0x0503 and the checkpoint at the change of band group (R267, R278). -/
def State.bgDone (s : State) (x : Side) (i path : Nat) : State :=
  let s := s.modRedun x (fun r => { r with doneList := r.doneList ++ [i], cur := none, target := none, stripe := 0, ckpt := 0, dead := 0 })
  (s.event 0x0503 redSrc [(0, BitVec.ofNat 32 i), (1, BitVec.ofNat 32 path)]).libAppend s.kSide 0x0008

/-- The data sectors of a data chunk of a stripe. -/
def ZEntry.chunkSectors (e : ZEntry) (stripe chunk : Nat) : List Nat :=
  (List.range 32).map (fun k => stripe * e.pitch + chunk * 32 + k)

/-- The data sectors that staged repair re-logs: of each stripe below WP the data chunks that lie on an erased member
(R264). -/
def ZEntry.repairSectors (e : ZEntry) : List Nat :=
  (List.range e.wp).flatMap (fun st =>
    ((List.range e.d).filter (fun i => bit e.deg (e.headOf st i))).flatMap (fun i => e.chunkSectors st i))

/-- The staging band group in use: one that is bound on the actuator (DESIGN CHOICE, log 22). -/
def State.stagingEnt (s : State) (x : Side) : Option Nat :=
  pickOf .staging (((s.actEnts x).filter (fun p => decide (p.2.use = 3))).map (fun p => p.1))

/-- Sectors enter a staging band group: they take its data sectors from its write pointer upward, in full stripes
(DESIGN CHOICE, log 144); its count rises. -/
def State.logStaged (s : State) (k : Nat) (l : List StgCopy) : State :=
  let e := s.zent k
  let wp := min 512 (e.wp + (l.length + e.pitch - 1) / e.pitch)
  let l := l.zipIdx.map (fun p => { p.1 with stg := k, pos := e.wp * e.pitch + p.2 })
  let s := s.putZent k { e with w1 := putFld e.w1 9 0 wp }
  (s.modWin (fun w => { w with staged := w.staged ++ l })).stgAdd k l.length

/-- Sectors go to staging with their home references (R243): an older copy leaves the index, both counts rise. -/
def State.stage (s : State) (x : Side) (ns home : Nat) (asn : DWord) (offs : List Nat) : State :=
  match (if offs = [] then none else s.stagingEnt x) with
  | none => s
  | some k =>
    let s := s.unstage (s.win.staged.filter (fun c => decide (c.ns = ns ∧ c.home = home) && offs.contains c.off))
    let s := (s.logStaged k (offs.map (fun o => ⟨ns, home, o, k, 0, asn⟩))).stgAdd home offs.length
    s.libAppend s.kSide 0x0007

/-- The staging band group that takes the live sectors of another: one of the target generation before any other. -/
def State.stagingOther (s : State) (x : Side) (i : Nat) : Option Nat :=
  let l := (s.actEnts x).filter (fun p => decide (p.2.use = 3 ∧ p.1 ≠ i))
  match l.find? (fun p => decide (p.2.ggen = (s.redun.get x).gT)) with
  | some p => some p.1
  | none => l.head?.map Prod.fst

/-- Live sectors of a staging band group are logged again into another one (Table 12.3). -/
def State.restage (s : State) (x : Side) (i : Nat) : State :=
  let l := s.win.staged.filter (fun c => decide (c.stg = i))
  match (if l = [] then none else s.stagingOther x i) with
  | none => s
  | some k =>
    let s := s.modWin (fun w => { w with staged := w.staged.filter (fun c => decide (c.stg ≠ i)) })
    ((s.stgAdd i (-(l.length : Int))).logStaged k l).libAppend s.kSide 0x0007

/-- A zone that shrinks below its HWP is finished by the device (R263). -/
def State.finishZone (s : State) (x : Side) (i : Nat) : State :=
  let e := s.zent i
  if (e.state = 2 ∨ e.state = 3 ∨ e.state = 4) ∧ (s.redun.get x).dT * 16384 < e.hwp then
    ((s.putZent i (e.setState 14)).bumpGen).modRedun x (fun r => { r with finished := r.finished ++ [i] })
  else s

/-- A read in flight has a source in the band group of an entry: its place is held until the read completes (R327). -/
def State.readsFrom (s : State) (i : Nat) : Bool :=
  s.nve.cmds.any (fun c => c.srcs.any (fun x =>
    match x with
    | .media e _ _ _ => decide (e = i)
    | _ => false))

/-- The path of one band group. Migration only takes its target here; MIGRATION_CUTOVER ends it. -/
def State.rebuildOne (s : State) (x : Side) (i : Nat) (e : ZEntry) : State :=
  match s.pathOf x e with
  | 5 =>
    match s.freeEntry, s.freeBand x with
    | some n, some b =>
      let f := s.freshEntry x 1 b (((s.zent n).wgen + 1) % 2 ^ 32)
      let s := (s.putZent n { f with w2 := BitVec.ofNat 64 (e.ns * 2 ^ 57 + e.zone * 2 ^ 40) }).bumpGen
      (s.reshapeFirst x).modRedun x (fun r => { r with cur := some i, target := some (n, b), stripe := 0, ckpt := 0 })
    | _, _ => s
  | 6 =>
    let s := (s.finishZone x i).stage x e.ns i 0 e.repairSectors
    (s.modRedun x (fun r => { r with resetRec := r.resetRec ++ [i] })).bgDone x i 6
  | 3 =>
    let s := s.restage x i
    if (s.zent i).stgcnt = 0 ∧ s.readsFrom i = false then ((s.rebind x i (s.zent i))).bgDone x i 3 else s
  | 2 => ((s.libCompact).rebind x i e).bgDone x i 2
  | p => if s.readsFrom i then s else (s.rebind x i e).bgDone x i p

/-- Old entries of cut-over zones are freed once their STGCNT is 0 (R261) and no read holds them. -/
def State.freeOld (s : State) (x : Side) : State :=
  let l := (s.redun.get x).oldEnts.filter (fun i => decide ((s.zent i).stgcnt = 0) && !s.readsFrom i)
  let s := l.foldl (fun (s : State) i => (s.putZent i { s.zent i with w0 := putFld (s.zent i).w0 63 60 0 }).bumpGen) s
  s.modRedun x (fun r => { r with oldEnts := r.oldEnts.filter (fun i => !l.contains i) })

/-- Rebuild handles the next affected band group, after replay and while no migration is under way. `call` is a library
call that starts a reshape first: the new D, and members to retire (R273). -/
def execRebuildBandGroup (x : Side) (call : Option (Nat × List Nat)) (s : State) : Out :=
  .next (
    let s :=
      match call with
      | some c => if s.crn.replayed ∧ (s.redun.get x).lost = false then s.reshapeCall x c.1 c.2 else s
      | none => s
    let s := s.freeOld x
    let r := s.redun.get x
    if s.crn.replayed = false ∨ s.crn.halted ∨ r.lost ∨ r.cur ≠ none then s
    else
      match s.nextAffected x (s.affected x) with
      | none => s
      | some (i, e) =>
        let path := s.pathOf x e
        if (path = 5 ∨ path = 6) ∧ s.roomToMove x = false then s
        else (s.modRedun x (fun r => { r with waiting := false })).rebuildOne x i e)

/-- Rebuild meets a path that needs a free band group, and only the reserve is left (R265). -/
def execRebuildWait (x : Side) (s : State) : Out :=
  .next (
    let r := s.redun.get x
    match s.nextAffected x (s.affected x) with
    | none => s
    | some (_, e) =>
      if 5 ≤ s.pathOf x e ∧ s.pathOf x e ≤ 6 ∧ s.roomToMove x = false ∧ r.waiting = false then
        (s.modRedun x (fun r => { r with waiting := true })).event 0x0505 redSrc
          [(0, BitVec.ofNat 32 x.idx), (1, BitVec.ofNat 32 (s.freeBands x))]
      else s)

/-- Sixteen more stripes are written (R267). -/
def execRebuildCheckpoint (x : Side) (s : State) : Out :=
  .next (
    match (s.redun.get x).cur with
    | none => s
    | some i =>
      let n := min (s.zent i).wp ((s.redun.get x).stripe + 16)
      (s.modRedun x (fun r => { r with stripe := n, ckpt := n })).libAppend s.kSide 0x0008)

/-- The CUTOVER record commits: the zone is bound to its new band group (R261). -/
def State.cutover (s : State) (x : Side) (i n : Nat) : State :=
  let e := s.zent i
  let f := s.zent n
  let wp := e.hwp / (f.d * 32)
  let st := if e.state = 2 ∨ e.state = 3 ∨ e.state = 4 ∨ e.state = 13 ∨ e.state = 14 then e.state else 1
  let f' : ZEntry :=
    { w0 := putFld f.w0 59 56 st
      w1 := BitVec.ofNat 64 (f.wgen * 2 ^ 32 + e.hwp * 2 ^ 10 + wp)
      w2 := BitVec.ofNat 64 (e.ns * 2 ^ 57 + e.zone * 2 ^ 40)
      w3 := e.w3 }
  let s := (s.libAppend s.kSide 0x000C).putZent n f'
  let tail := (List.range (e.hwp - wp * (f.d * 32))).map (fun k => wp * (f.d * 32) + k)
  let s := s.stage x e.ns n 0 tail
  let s :=
    if (s.zent i).stgcnt = 0 then s.putZent i { s.zent i with w0 := putFld e.w0 63 60 0 }
    else s.modRedun x (fun r => { r with oldEnts := r.oldEnts ++ [i] })
  (s.bumpGen).bgDone x i 5

def execMigrationCutover (x : Side) (s : State) : Out :=
  .next (
    match (s.redun.get x).cur, (s.redun.get x).target with
    | some i, some (n, _) => if (s.zent i).wp ≤ (s.redun.get x).stripe then s.cutover x i n else s
    | _, _ => s)

/-- A window of 256 revolutions begins: rebuild is owed ceil(REB_FLOOR × 512) stream-revolutions of it (R266). -/
def execMediaWindowShare (x : Side) (s : State) : Out :=
  .next (
    let n := if (s.affected x).isEmpty then 0 else (clampN 5 50 s.rcp.floor * 512 + 99) / 100
    s.modRedun x (fun r => { r with winOwed := n }))

/-! ### Poison (R269) -/

/-- LBAs of the erased data chunks at a sector offset of a stripe: of a zone by R241, of a conventional band group as
the map gives them. -/
def ZEntry.erasedLbas (e : ZEntry) (stripe off : Nat) (data : List Nat) (conv : List Nat) : List Nat :=
  if e.use = 1 then data.map (fun i => e.zone * 262144 + stripe * (e.d * 32) + i * 32 + off) else conv

def State.poisonLbas (s : State) (i stripe off : Nat) (er conv : List Nat) : State :=
  let e := s.zent i
  let s := (e.erasedLbas stripe off (er.filter (fun k => decide (k < e.d))) conv).foldl
    (fun (s : State) lba =>
      (s.poisonAdd e.act e.ns lba 1).event 0x0506 redSrc
        [(0, BitVec.ofNat 32 (e.ns + 1)), (1, BitVec.ofNat 32 lba), (2, 1)]) s
  s.asyncAll 1

/-- `er` lists the erased indices at the offset, data 0–9, P 14, Q 15; fewer than three can be reconstructed. -/
def execLbaPoison (i : BitVec 17) (stripe off : Nat) (er conv : List Nat) (s : State) : Out :=
  .next (
    let e := s.zent i.toNat
    if e.bound && e.use != 5 && decide (3 ≤ ((er.eraseDups).filter (fun k => idxIn e.d k)).length) && decide (off < 32 ∧ stripe < 512) then
      s.poisonLbas i.toNat stripe off er.eraseDups conv
    else s)

/-! ### Generations (R272) -/

/-- The last band group of the old generation is freed or rebound: G_C becomes G_T. -/
def execGenerationSwitch (x : Side) (s : State) : Out :=
  .next (
    let r := s.redun.get x
    if r.gT = r.gC ∨ (s.actEnts x).any (fun p => decide (p.2.ggen ≠ r.gT)) then s
    else
      let secs := (s.evr.ot.toNat - r.startOt) / 1000
      let s := (s.libAppend s.kSide 0x000D).modRedun x (fun r => { r with gC := r.gT, reshape := false, doneList := [], leaving := [] })
      let s := (List.range 12).foldl
        (fun (s : State) h =>
          if (s.memberAt x h).st ≠ .retired ∧ (s.actEnts x).all (fun p => !p.2.names h) then
            s.memberTo x h .retired (s.memberAt x h).trigger
          else s) s
      let s := s.event 0x050A redSrc [(0, BitVec.ofNat 32 x.idx), (1, BitVec.ofNat 32 r.gT), (2, BitVec.ofNat 32 r.gT)]
      let s := s.event 0x0504 redSrc [(0, BitVec.ofNat 32 x.idx), (1, BitVec.ofNat 32 secs)]
      s.asyncAll 2)

/-! ### Actuator loss (R274) -/

/-- Causes: 0 fewer than 8 members live, 1 the Quaxlink stays in FAULT after 3 restarts, 2 two retract timeouts within
an hour, 3 the voice-coil current does not follow. -/
def State.lossHolds (s : State) (x : Side) (cause : Nat) : Bool :=
  match cause with
  | 0 => decide (((List.range 12).filter (fun h => (s.memberAt x h).st.live)).length < 8)
  | 1 => decide ((s.link.get x).st = .fault ∧ 4 ≤ (s.link.get x).faults)
  | 2 =>
    (match (s.redun.get x).retTimes with
     | [a, b] => decide (a < b + 3600000)
     | _ => false)
  | 3 => decide (s.mtr.park.get x = .loaded)
  | _ => false

/-- A window piece is written to an actuator's staging with its home references; its slots are released with a WREL
record, and their credits return. -/
def State.pieceMoves (s : State) (x : Side) (p : Piece) : State :=
  (s.stage x p.ns p.home p.asn (p.held.map (s.pieceOff p))).pieceOut p

/-- The window contents of a lost actuator go to the other one's staging (R274). -/
def State.windowMoves (s : State) (x : Side) : State :=
  if (s.stagingEnt x.peer).isNone then s
  else (s.flushList x).foldl (fun (s : State) p => s.pieceMoves x.peer p) s

def State.actuatorLost (s : State) (x : Side) (cause : Nat) : State :=
  if (s.redun.get x).lost then s
  else
    let s := s.modRedun x (fun r => { r with lost := true })
    let s := if s.mtr.park.get x = .parked then s else s.retract x
    let s := s.event 0x050B redSrc [(0, BitVec.ofNat 32 x.idx), (1, BitVec.ofNat 32 cause)]
    let s := ((s.actEnts x).filter (fun p => decide (p.2.use = 1))).foldl
      (fun (s : State) p => (s.putZent p.1 (p.2.setState 15)).bumpGen) s
    s.windowMoves x

def execActuatorLoss (x : Side) (cause : Nat) (s : State) : Out :=
  .next (if s.lossHolds x cause then s.actuatorLost x cause else s)

/-! ### Scrub (R275–R277) -/

/-- Bound entries that scrub reads: no DEG bit, something written. -/
def State.scrubEnts (s : State) (x : Side) : List (Nat × ZEntry) :=
  (s.actEnts x).filter (fun p => decide (p.2.deg = 0 ∧ 0 < p.2.wp ∧ p.2.use ≠ 7))

/-- The entry and stripe read next: the remembered one, or the next entry from its first stripe. -/
def State.scrubNext (s : State) (x : Side) : Option (Nat × ZEntry × Nat) :=
  let r := s.redun.get x
  match (s.scrubEnts x).find? (fun p => decide (r.scrubEntry ≤ p.1)) with
  | none => none
  | some (i, e) =>
    if i = r.scrubEntry then
      if r.scrubStripe < e.wp then some (i, e, r.scrubStripe)
      else
        match (s.scrubEnts x).find? (fun p => decide (i < p.1)) with
        | some (j, f) => some (j, f, 0)
        | none => none
    else some (i, e, 0)

/-- The stripe's data sectors are re-logged as one staging stripe (Table 12.4). -/
def State.relog (s : State) (x : Side) (i : Nat) (e : ZEntry) (stripe : Nat) (bitmap : Word) : State :=
  let s := (s.stage x e.ns i 0 ((List.range e.d).flatMap (fun c => e.chunkSectors stripe c))).modRedun x (fun r => { r with relogged := r.relogged + 1 })
  s.event 0x0508 redSrc [(0, BitVec.ofNat 32 i), (1, BitVec.ofNat 32 stripe), (2, bitmap)]

/-- Outcomes of Table 12.4 in its order from 0. `m` is the member concerned, `er` and `off` the erasures at an offset
that cannot be reconstructed. -/
def State.scrubOutcome (s : State) (x : Side) (i : Nat) (e : ZEntry) (stripe out m : Nat) (bitmap : Word) (off : Nat)
    (er conv : List Nat) : State :=
  match out with
  | 2 =>
    (s.logL3 x m).relog x i e stripe bitmap
  | 3 => s.relog x i e stripe bitmap
  | 4 => s.poisonLbas i stripe off er conv
  | _ => s

/-- One stripe is read; past the last one the pass is complete (event 0x0507). `gen` is the WGEN of the band group when
its SCRUB was issued: a result of another binding or generation is discarded (R277). -/
def execScrubStripe (x : Side) (out m : BitVec 4) (gen bitmap : Word) (off : Nat) (er conv : List Nat) (s : State) : Out :=
  .next (
    match s.scrubNext x with
    | none =>
      let r := s.redun.get x
      let s := s.modRedun x (fun r => { r with scrubEntry := 0, scrubStripe := 0, relogged := 0 })
      s.event 0x0507 redSrc
        [(0, BitVec.ofNat 32 x.idx), (1, BitVec.ofNat 32 (s.scrubEnts x).length), (2, BitVec.ofNat 32 r.relogged)]
    | some (i, e, stripe) =>
      let s := s.modRedun x (fun r => { r with scrubEntry := i, scrubStripe := stripe + 1 })
      if e.use = 5 ∨ e.wgen ≠ gen.toNat then s else s.scrubOutcome x i e stripe out.toNat m.toNat bitmap off er conv)

/-- A pass is more than 25 % past its period; `days` over. -/
def execScrubPassLate (x : Side) (days : Nat) (s : State) : Out :=
  .next (s.event 0x0509 redSrc [(0, BitVec.ofNat 32 x.idx), (1, BitVec.ofNat 32 days)])

end Sys2Proof.Machine
end

