-- ==== Sys2Proof/Machine/Recorder.lean ====
section
/-!
DEFINITION. The event recorder: posts, records, ring, calendar, spans and seals (R374–R394).
-/
namespace Sys2Proof.Machine

def State.evrInt (s : State) (i : Nat) : State := s.setStat R_EVR_INTSTAT i

def State.evrUp (s : State) : Bool := s.blockUp R_EVR_ID

/-! ### Records (Table 18.1) -/

/-- The 64 bytes of a record. -/
def recLine (seq : BitVec 48) (r : EvRec) : BitVec 512 :=
  let ps := ((List.range 7).map (fun k => (lget 0 r.params k).toNat * 2 ^ (256 + 32 * k))).sum
  let n := seq.toNat + r.code.toNat * 2 ^ 48 + b2n r.cls * 2 ^ 64 + r.flags.toNat * 2 ^ 72 + r.source.toNat * 2 ^ 80 +
    r.ot.toNat * 2 ^ 96 + r.pcc.toNat * 2 ^ 160 + r.cal.toNat * 2 ^ 192 + ps
  BitVec.ofNat 512 (n + (crc32c (bytesLE 60 (BitVec.ofNat 480 n))).toNat * 2 ^ 480)

/-- A ring line holds a record: its CRC matches and its SEQ is assigned (R384, R385). -/
def recValid (w : BitVec 512) : Bool :=
  decide (fld w 47 0 ≠ 2 ^ 48 - 1) && decide (fld w 511 480 = (crc32c (bytesLE 60 w)).toNat)

/-- Bytes of a hash or a signature, most significant first. -/
def bytesBE {n : Nat} (k : Nat) (w : BitVec n) : List Byte := (bytesLE k w).reverse

/-- Seven parameters of 28 payload bytes. -/
def payloadParams (bs : List Byte) : List Word :=
  (List.range 7).map (fun k => BitVec.ofNat 32 (ofBytesLE (((bs ++ List.replicate 28 0).drop (4 * k)).take 4)))

/-- A continuation repeats the record it continues (R374). -/
def EvRec.cont (r : EvRec) (ps : List Word) : EvRec := { r with flags := r.flags ||| 8#8, params := ps }

/-! ### Posts (R379–R383) -/

/-- The open group of a context. -/
def Evr.groupOf (e : Evr) (c : CtxId) : Option EvGroup := e.intake.find? (fun g => decide (g.owner = some c) && decide (0 < g.left))

/-- The group of a context is discarded whole. -/
def State.dropGroup (s : State) (c : CtxId) : State :=
  match s.evr.groupOf c with
  | none => s
  | some g =>
    let s := s.modEvr (fun e => { e with intake := e.intake.erase g })
    let s :=
      match g.recs with
      | r :: _ => s.modEvr (fun e => e.suppress r.code)
      | [] => s
    s.evrInt 1

/-- The staged parameters (Table 18.5). -/
def Ctx.evParams (x : Ctx) : List Word :=
  [BitVec.ofNat 32 (fld (x.stagedAt 0xD5) 63 32), BitVec.ofNat 32 (fld (x.stagedAt 0xD6) 31 0),
    BitVec.ofNat 32 (fld (x.stagedAt 0xD6) 63 32), BitVec.ofNat 32 (fld (x.stagedAt 0xD7) 31 0),
    BitVec.ofNat 32 (fld (x.stagedAt 0xD7) 63 32), BitVec.ofNat 32 (fld (x.stagedAt 0xD8) 31 0),
    BitVec.ofNat 32 (fld (x.stagedAt 0xD8) 63 32)]

def chainCode (code : Nat) : Bool := decide (0x0100 ≤ code ∧ code ≤ 0x01FF)

/-- A SPAN_START is written or waits in the intake, and no SEAL after it. -/
def Evr.spanOpen (e : Evr) : Bool :=
  (e.intake.flatMap (fun g => g.recs)).foldl
    (fun b r => if r.code = 0x0100 then true else if r.code = 0x01F0 then false else b) e.span.isSome

/-- A first record (CONTREC 0). -/
def State.postFirst (s : State) (c : CtxId) (code : BitVec 16) (cont : Nat) (cls : Bool) (ps : List Word) : State :=
  let s := s.dropGroup c
  if chainCode code.toNat && decide (64 < s.evr.used + cont + 1) then (s.evrInt 6).refuseCtx c 0xD9 3
  else
    let r := s.evr.mkRec code cls 0 (srcCtx c) ps
    (s.postGroup code ⟨[r], cont, some c⟩).1

/-- A continuation joins the open group, or is ignored. -/
def State.postCont (s : State) (c : CtxId) (ps : List Word) : State :=
  match s.evr.groupOf c with
  | none => s.evrInt 1
  | some g =>
    match g.recs with
    | [] => s.evrInt 1
    | r :: _ =>
      let g' : EvGroup := { g with recs := g.recs ++ [r.cont ps], left := g.left - 1 }
      s.modEvr (fun e => { e with intake := lmodFirst (fun x => x == g) (fun _ => g') e.intake })

/-- P_EVR_POST; `rom` says that the word was fetched from ROM. -/
def State.evrPost (s : State) (c : CtxId) (rom : Bool) : State :=
  let x := s.ctx c
  let w := x.stagedAt 0xD5
  let code := fld w 15 0
  if s.evrUp = false then s.refuseCtx c 0xD9 5
  else if s.regB R_EVR_CTL 0 = false then (s.modEvr (fun e => e.suppress (BitVec.ofNat 16 code))).refuseCtx c 0xD9 5
  else if (0x0800 ≤ code ∧ code ≤ 0x7FFF) ∨ (chainCode code ∧ rom = false) ∨ (code = 0x01F0 ∧ bit w 19 = false ∧ s.evr.spanOpen = false) then
    s.refuseCtx c 0xD9 5
  else if bit w 19 then s.postCont c x.evParams
  else
    let cls := if 0x8000 ≤ code then bit w 20 else evClass1 (BitVec.ofNat 16 code)
    s.postFirst c (BitVec.ofNat 16 code) (fld w 18 16) cls x.evParams

def execEventPost (c : CtxId) (rom : Bool) (s : State) : Out :=
  .next (
    s.byCtx c (fun s =>
      s.evrPost c rom))

/-- 20 µs pass with the group open. -/
def execGroupExpiry (c : CtxId) (s : State) : Out := .next (s.dropGroup c)

/-- The suppressed summary of a bucket (R382). -/
def State.summary (s : State) (n : Nat) : State :=
  let b := sg Bucket.default s.evr.buckets n
  let ps := s.evParams 0x0003
    [(0, BitVec.ofNat 32 (n + b.lastCode.toNat * 65536)), (1, b.supp), (2, BitVec.ofNat 32 b.firstOt.toNat),
      (3, BitVec.ofNat 32 b.lastOt.toNat)]
  let r := s.evr.mkRec 0x0003 false 1 (srcBlock R_EVR_ID) ps
  let s := s.modEvr (fun e =>
    { e with
      intake := e.intake ++ [⟨[r], 0, none⟩]
      buckets := sp Bucket.default e.buckets n { b with supp := 0 } })
  s.freeNext

/-- A bucket gains a token; a summary that is due uses it. A bucket without a limit writes its summary as soon as the
intake has room (R381, R382). -/
def execTokenRefill (bucket : BitVec 11) (s : State) : Out :=
  .next (
    let n := bucket.toNat
    let b := sg Bucket.default s.evr.buckets n
    if b.supp ≠ 0 ∧ s.evr.used < 64 then s.summary n
    else s.modEvr (fun e => { e with buckets := sp Bucket.default e.buckets n { b with tokens := min b.burst (b.tokens + 1) } }))

/-! ### The ring (R384) -/

/-- The boot seal area is open for writing on some Ridge. -/
def State.sealWen (s : State) : Bool := s.regB (rk .a R_CRN_CTL) 4 || s.regB (rk .b R_CRN_CTL) 4

/-- Records that a span absorbs besides SPAN_START and SEAL (R390). -/
def absorbed (code : Nat) : Bool := decide (0x0101 ≤ code ∧ code ≤ 0x01EF)

/-- H after a record. -/
def chainH (h : BitVec 384) (line : BitVec 512) : BitVec 384 := Config.sha384 (bytesBE 48 h ++ bytesLE 64 line)

/-- A line copied to the boot seal area while it is open (R393). -/
def State.copySeal (s : State) (line : BitVec 512) : State :=
  if s.sealWen then s.modEvr (fun e => { e with openArea := e.openArea ++ [line] }) else s

/-- The spans of the boot seal area as lines: a head line, the records, the certificate. -/
def SealedSpan.lines (p : SealedSpan) : List (BitVec 512) :=
  let head : BitVec 512 := BitVec.ofNat 512
    (p.startSeq.toNat + p.recs.length * 2 ^ 48 + p.cert.length * 2 ^ 64 + p.kind * 2 ^ 80 + b2n p.isSealed * 2 ^ 88)
  let certLines := (List.range ((p.cert.length + 63) / 64)).map
    (fun k => BitVec.ofNat 512 (ofBytesLE ((p.cert.drop (64 * k)).take 64)))
  head :: p.recs ++ certLines

/-- The oldest activation span leaves while the spans do not fit in 1,023 lines. -/
def trimSpans : Nat → List SealedSpan → List SealedSpan
  | 0, l => l
  | n + 1, l =>
    if (l.map (fun p => p.lines.length)).sum ≤ 1023 then l
    else
      match l.find? (fun p => p.kind == 1) with
      | some p => trimSpans n (l.erase p)
      | none => l

/-- Lines of the area with its header. -/
def areaLines (l : List SealedSpan) : List (BitVec 512) :=
  let body := l.flatMap SealedSpan.lines
  (BitVec.ofNat 512 (l.length + (body.length + 1) * 2 ^ 32)) :: body

/-- The area is written to both banks. -/
def State.writeArea (s : State) : State :=
  let ls := (areaLines s.evr.sealArea).take 1024
  ((List.range ls.length).zip ls).foldl (fun (s : State) p => s.putLine .a true (sealLine + p.1) p.2) s

/-- A span that has ended is kept in the area; a power-on span replaces the one before. -/
def State.keepSpan (s : State) (p : Span) (isSealed : Bool) : State :=
  let n : SealedSpan := ⟨p.startSeq, p.kind, isSealed, s.evr.openArea, s.cry.cert⟩
  let old := if p.kind = 0 then [] else s.evr.sealArea
  (s.modEvr (fun e => { e with sealArea := trimSpans (old.length + 1) (old ++ [n]), openArea := [], sealSpan := none })).writeArea

/-- Bytes of parameters, PARAMi first. -/
def paramBytes (ps : List Word) : List Byte := ps.flatMap (fun w => bytesLE 4 w)

/-- A MEAS record and its continuation give the digest of an index (Table 18.4). -/
def State.measStep (s : State) (r : EvRec) : State :=
  if r.code ≠ 0x0101 then s
  else if bit r.flags 3 = false then
    s.modEvr (fun e => { e with meas := some (fld (lget 0 r.params 0) 7 0, (paramBytes (r.params.drop 1)).take 24) })
  else
    match s.evr.meas with
    | none => s
    | some (i, bs) =>
      let d : BitVec 384 := BitVec.ofNat 384 (ofBytesLE ((bs ++ (paramBytes r.params).take 24).reverse))
      let s := s.modEvr (fun e => { e with meas := none })
      s.modCry (fun k => { k with digests := sp 0 k.digests i d })

/-- What a written record does to the span. -/
def State.spanStep (s : State) (seq : BitVec 48) (r : EvRec) (line : BitVec 512) : State :=
  let code := r.code.toNat
  let isCont := bit r.flags 3
  if code = 0x0100 ∧ isCont = false then
    let s :=
      match s.evr.span with
      | some p => (if s.sealWen && !s.evr.openArea.isEmpty then s.keepSpan p false else s).evrInt 2
      | none => s
    let k := fld (lget 0 r.params 2) 7 0
    let slot := s.nve.fwActive
    (s.modEvr (fun e => { e with span := some ⟨k, seq, 1, chainH 0 line, slot⟩, openArea := [] })).copySeal line
  else
    match s.evr.span with
    | none => if code = 0x01F0 ∨ code = 0x01F1 then s.copySeal line else s
    | some p =>
      if absorbed code then (s.modEvr (fun e => { e with span := some { p with count := p.count + 1, h := chainH p.h line } })).copySeal line
      else if code = 0x01F0 ∧ isCont = false then
        let h := chainH p.h line
        (s.modEvr (fun e => { e with span := none, sealPend := some (seq, h), lastH := h, sealSpan := some { p with count := p.count + 1, h := h } })).copySeal line
      else s

/-- The parameters of SPAN_START name the start of a span it closes unsealed (R392). -/
def Evr.fixStart (e : Evr) (r : EvRec) : EvRec :=
  if r.code = 0x0100 ∧ bit r.flags 3 = false then
    let v : Word :=
      match e.span with
      | some p => BitVec.ofNat 32 p.startSeq.toNat
      | none => 0
    { r with params := r.params.set 3 v }
  else r

/-- A SEAL is followed by two continuations that hold H (Table 18.8). -/
def sealConts (r : EvRec) (h : BitVec 384) : List EvRec :=
  let bs := bytesBE 48 h
  [r.cont (payloadParams (bs.take 28)), r.cont (payloadParams (bs.drop 28))]

/-- The SEAL_SIG group is written: the span is kept in the area. -/
def State.sigDone (s : State) : State :=
  match s.evr.sealSpan with
  | some p => if s.sealWen then s.keepSpan p true else s
  | none => s

/-- The next record of the front group is written to its line in both banks; an open group waits. -/
def State.recordWrite (s : State) : State :=
  match s.evr.intake with
  | [] => s
  | g :: t =>
    match g.recs with
    | [] => s.modEvr (fun e => { e with intake := t })
    | r :: rest =>
      if g.left ≠ 0 ∨ s.evr.scanDone = false then s
      else
        let r := s.evr.fixStart r
        let seq := s.evr.seq
        let line := recLine seq r
        let s := ((s.putLine .a true (ringLine + seq.toNat % 65536) line).spanStep seq r line).measStep r
        let rest := if r.code = 0x01F0 ∧ bit r.flags 3 = false then sealConts r s.evr.lastH ++ rest else rest
        let s := if rest.isEmpty && decide (r.code = 0x01F1) then s.sigDone else s
        s.modEvr (fun e => { e with seq := seq + 1, recOt := e.ot, intake := if rest.isEmpty then t else { g with recs := rest } :: t })

def execRecordWrite (s : State) : Out := .next (if s.evrUp then s.recordWrite else s)

/-- OTCKPT minutes without a record (R375). -/
def execOtCheckpoint (s : State) : Out :=
  .next (
    let m := s.regF R_EVR_CTL 15 8
    if m = 0 ∨ s.evrUp = false ∨ s.evr.ot.toNat < s.evr.recOt.toNat + m * 60000 then s
    else s.event 0x0001 (srcBlock R_EVR_ID) [])

/-! ### Scan (R375) -/

/-- The line with the higher SEQ. -/
def newer (a : Option (BitVec 512)) (w : BitVec 512) : Option (BitVec 512) :=
  match a with
  | none => some w
  | some v => if fld v 47 0 < fld w 47 0 then some w else some v

def newestIn (m : Sparse (BitVec 512)) (a : Option (BitVec 512)) (f : BitVec 512 → Bool) : Option (BitVec 512) :=
  (m.filter (fun p => decide (ringLine ≤ p.1) && recValid p.2 && f p.2)).foldl (fun a p => newer a p.2) a

def State.newestRec (s : State) (f : BitVec 512 → Bool) : Option (BitVec 512) :=
  newestIn s.crn.banks.b (newestIn s.crn.banks.a none f) f

def firstOf (code : Nat) (w : BitVec 512) : Bool := decide (fld w 63 48 = code) && !bit w 75

/-- A span that had no SEAL when power was lost is open still (R392). -/
def State.openSpanFound (s : State) : Option Span :=
  match s.newestRec (firstOf 0x0100) with
  | none => none
  | some w =>
    let sealed_ :=
      match s.newestRec (firstOf 0x01F0) with
      | some v => decide (fld w 47 0 < fld v 47 0)
      | none => false
    if sealed_ then none else some ⟨fld w 327 320, BitVec.ofNat 48 (fld w 47 0), 1, 0, 0⟩

/-- The recorder goes on from what the scan found; records that wait in the intake take the OT and the PCC found
(DEDUCED, log 152). -/
def Evr.scanned (e : Evr) (seq : BitVec 48) (ot : DWord) (pcc : Word) (sp : Option Span) : Evr :=
  { e with
    scanDone := true
    seq := seq
    ot := ot
    recOt := ot
    pcc := pcc
    span := sp
    intake := e.intake.map (fun g => { g with recs := g.recs.map (fun r => { r with ot := ot, pcc := pcc }) }) }

def execRingScan (s : State) : Out :=
  .next (
    if s.evr.scanDone then s
    else
      match s.newestRec (fun _ => true) with
      | none => s.modEvr (fun e => e.scanned 1 0 1 none)
      | some w =>
        s.modEvr (fun e =>
          e.scanned (BitVec.ofNat 48 (fld w 47 0 + 1)) (BitVec.ofNat 64 (fld w 159 96)) (BitVec.ofNat 32 (fld w 191 160 + 1))
            s.openSpanFound))

/-! ### Log pages C0h and C3h (R386, R393) -/

/-- The oldest SEQ that the ring keeps. -/
def Evr.oldest (e : Evr) : Nat := max 1 (e.seq.toNat - 65536)

/-- The header of page C0h (Table 18.6). -/
def Evr.header (e : Evr) : List Byte :=
  bytesLE 6 (BitVec.ofNat 48 e.oldest) ++ bytesLE 6 (e.seq - 1) ++
    bytesLE 8 (BitVec.ofNat 64 (e.oldest - e.readMark.toNat - 1)) ++ bytesLE 4 e.pcc ++ bytesLE 8 e.ot ++ List.replicate 32 0

/-- The header is taken. -/
def Evr.takeHeader (e : Evr) : Evr :=
  { e with pageNewest := e.seq - 1, pageOldest := e.oldest, pageHead := e.header }

/-- A line of the ring as it stands, of a bank in use. -/
def State.ringAt (s : State) (seq : Nat) : BitVec 512 :=
  sg 0 (if s.crn.usable.a then s.crn.banks.a else s.crn.banks.b) (ringLine + seq % 65536)

/-- A byte of page C0h. -/
def State.pageC0 (s : State) (i : Nat) : Option Byte :=
  if i < 64 then s.evr.pageHead[i]?
  else if i < 64 + 65536 * 64 then
    some (BitVec.ofNat 8 ((s.ringAt (s.evr.pageOldest + (i - 64) / 64)).toNat / 256 ^ (i % 64) % 256))
  else none

/-- Page C3h: the lines of the boot seal area. -/
def Evr.pageC3 (e : Evr) : List Byte := (areaLines e.sealArea).flatMap (fun w => bytesLE 64 w)

/-! ### Calendar (R376, R377) -/

/-- A record of the recorder itself, with FLAGS bits given. -/
def State.ownRecord (s : State) (code : BitVec 16) (flags : Nat) (ps : List (Nat × Word)) : State :=
  let r := s.evr.mkRec code (evClass1 code) flags (srcBlock R_EVR_ID) (s.evParams code ps)
  ((s.postGroup code ⟨[r], 0, none⟩).1).freeNext

/-- A write of EVR_CALSET_HI. -/
def State.calendarSet (s : State) (data : Word) : State :=
  let v := fld data 15 0 * 2 ^ 32 + s.evr.calStaged.toNat
  let id : Word := if bit data 31 then BitVec.ofNat 32 (fld data 30 24) else 0xFFFFFFFF
  let lo : Word := BitVec.ofNat 32 v
  let hi : Word := BitVec.ofNat 32 (v / 2 ^ 32)
  let s1 := s.modEvr (fun e => { e with cal := some (BitVec.ofNat 64 v) })
  match s.evr.cal with
  | none => s1.ownRecord 0x0200 0 [(2, lo), (3, hi), (4, id)]
  | some o =>
    if v < o.toNat ∨ o.toNat + s.regF R_EVR_CTL 31 16 < v then
      (s1.ownRecord 0x0201 2
        [(0, BitVec.ofNat 32 o.toNat), (1, BitVec.ofNat 32 (o.toNat / 2 ^ 32)), (2, lo), (3, hi), (4, id)]).evrInt 5
    else s1

def execCalendarSet (data : Word) (s : State) : Out := .next (if s.evrUp then s.calendarSet data else s)

/-- A read of EVR_OT_LO (R439). -/
def execEvrOtLatch (x : Accessor) (s : State) : Out :=
  .next (s.access x R_EVR_ID true (fun s => s.modEvr (fun e => { e with otLatch := e.ot })))

/-! ### Seal (R391, R393) -/

/-- The SEAL_SIG group (Table 18.8). -/
def sigGroup (e : Evr) (seq : BitVec 48) (sig : List Byte) : EvGroup :=
  let ps : List Word := BitVec.ofNat 32 seq.toNat :: (payloadParams (sig.take 24)).take 6
  let r := e.mkRec 0x01F1 true 0 (srcBlock R_EVR_ID) ps
  let c (k : Nat) : EvRec := r.cont (payloadParams ((sig.drop (24 + 28 * k)).take 28))
  ⟨[r, c 0, c 1, c 2], 0, none⟩

/-- The recorder's request was there before the operation: it runs first (R391, R396; DEDUCED, log 163). -/
def State.sealFirst (s : State) (o : CryOp) : Bool := s.evr.sealPend.isSome && (o.behind == s.evr.sealPend.map Prod.fst)

/-- CRY signs SHA-384(H) for the recorder, or fails; an operation that was running before the request ends first. -/
def execSealSign (ok : Bool) (s : State) : Out :=
  .next (
    match s.evr.sealPend with
    | none => s
    | some (seq, h) =>
      if s.cry.busy.any (fun o => !s.sealFirst o) then s
      else
        let s := s.modEvr (fun e => { e with sealPend := none })
        match (if ok then s.cry.aliasKey else none) with
        | none => s.evrInt 4
        | some k =>
          let sig := bytesBE 96 (Config.ecSign k (Config.sha384 (bytesBE 48 h)))
          let s := s.modEvr (fun e => { e with intake := e.intake ++ [sigGroup e seq sig] })
          s.evrInt 3)

/-! ### Time (R375, R376) -/

/-- A millisecond: the operating time, the running calendar, the Ridge watchdogs (R400) and the milliseconds in GEN
(MTR_PFSTAT) count. In GEN VMOT is regulated after the first, and the seeks to the flush begin with the next (Table 9.4,
DEDUCED, log 133). -/
def State.millisecond (s : State) : State :=
  let s := s.modEvr (fun e => { e with ot := e.ot + 1, cal := e.cal.map (fun c => c + 1) })
  let s := s.modRcp (fun p => { p with rwdMs := ⟨p.rwdMs.a + 1, p.rwdMs.b + 1⟩ })
  if s.mtr.sp = .gen then
    s.modMtr (fun m => { m with genMs := m.genMs + 1, pfStep := if m.pfStep < 4 then m.pfStep + 1 else m.pfStep })
  else s

end Sys2Proof.Machine
end

