-- ==== Sys2Proof/Machine/Crypto.lean ====
section
/-!
DEFINITION. The crypto block CRY: commands, completion and random reads (R389, R396). The primitives are the
uninterpreted constants of Config (DESIGN CHOICE, log 7).
-/
namespace Sys2Proof.Machine

def State.cryInt (s : State) (i : Nat) : State := s.setStat R_CRY_INTSTAT i

/-- CRY_RESULT: bytes written, error code, VERIFY result. -/
def State.cryResult (s : State) (n err : Nat) (pass : Bool) : State :=
  s.setReg R_CRY_RESULT (BitVec.ofNat 32 (n % 65536 * 2 ^ 16 + err * 2 ^ 8 + b2n pass))

/-- An ignored command. -/
def State.cryIgnore (s : State) (err : Nat) : State := (s.cryResult 0 err false).cryInt 1

def cryOpListed (op : Nat) : Bool := decide (1 ≤ op ∧ op ≤ 8)

/-- A write of CRY_CMD (R396). -/
def State.cryCmd (s : State) (x : Accessor) (op slot : Nat) : State :=
  if s.regB R_CRY_CTL 0 = false ∨ s.cry.busy.isSome ∨ cryOpListed op = false then s.cryIgnore 1
  else if (op = 4 ∨ op = 5) ∧ x.rom = false then s.cryIgnore 2
  else if (op = 6 ∨ op = 7) ∧ s.slotUse slot ≠ 0 then s.cryIgnore 3
  else
    let a (lo hi : Nat) : Nat := s.regF hi 15 0 * 2 ^ 32 + (s.reg lo).toNat
    let o : CryOp := ⟨op, slot, a R_CRY_SRC_LO R_CRY_SRC_HI, (s.reg R_CRY_LEN).toNat, a R_CRY_DST_LO R_CRY_DST_HI,
      s.evr.sealPend.map Prod.fst⟩
    s.modCry (fun k => { k with busy := some o })

def State.cryRow (s : State) (x : Accessor) (op slot : Nat) : State :=
  s.access x R_CRY_ID true (fun s => s.cryCmd x op slot)

def execHash (x : Accessor) (s : State) : Out := .next (s.cryRow x 1 0)

def execVerifySignature (x : Accessor) (s : State) : Out := .next (s.cryRow x 2 0)

def execDrbg (x : Accessor) (s : State) : Out := .next (s.cryRow x 3 0)

def execDerive (x : Accessor) (s : State) : Out := .next (s.cryRow x 4 0)

def execSign (x : Accessor) (s : State) : Out := .next (s.cryRow x 5 0)

def execKeyload (x : Accessor) (slot : BitVec 6) (s : State) : Out := .next (s.cryRow x 6 slot.toNat)

def execZeroize (x : Accessor) (slot : BitVec 6) (s : State) : Out := .next (s.cryRow x 7 slot.toNat)

def execDevpub (x : Accessor) (s : State) : Out := .next (s.cryRow x 8 0)

/-- A code that is not listed, or a command while CRY is busy. -/
def execCryptoCmdIgnored (x : Accessor) (data : Word) (s : State) : Out :=
  .next (
    if cryOpListed (fld data 31 28) && s.cry.busy.isNone && s.regB R_CRY_CTL 0 then s
    else s.cryRow x (fld data 31 28) (fld data 5 0))

/-! ### Completion -/

/-- The channel that holds an operand: A, or B while A does not serve it. -/
def State.cryChan (s : State) (a n : Nat) : Side := if s.dramOk .a a n then .a else .b

/-- An operand; an error where it does not lie in DRAM (6) or is poisoned (5). -/
def State.crySrc (s : State) (a n : Nat) : State × Except Nat (List Byte) :=
  let x := s.cryChan a n
  if s.dramOk x a n = false then (s, .error 6)
  else
    match s.dramRead x a n with
    | (s, some bs) => (s, .ok bs)
    | (s, none) => (s, .error 5)

/-- The operation ends with an error. -/
def State.cryFail (s : State) (err : Nat) : State := ((s.modCry (fun k => { k with busy := none })).cryResult 0 err false).cryInt 1

def State.cryOk (s : State) (n : Nat) (pass : Bool) : State :=
  ((s.modCry (fun k => { k with busy := none })).cryResult n 0 pass).cryInt 0

/-- A result is written at the destination. -/
def State.cryOut (s : State) (o : CryOp) (bs : List Byte) : State :=
  if s.dramOk (s.cryChan o.dst bs.length) o.dst bs.length = false then s.cryFail 6
  else (s.dramWrite (s.cryChan o.dst bs.length) o.dst bs).cryOk bs.length false

/-- An operation on a source operand of `n` bytes. -/
def State.cryFrom (s : State) (o : CryOp) (n : Nat) (f : State → List Byte → State) : State :=
  match s.crySrc o.src n with
  | (s, .error e) => s.cryFail e
  | (s, .ok bs) => f s bs

def ofBytesBE (bs : List Byte) : Nat := ofBytesLE bs.reverse

/-- DERIVE (R389). -/
def State.cryDerive (s : State) (o : CryOp) (bs : List Byte) : State :=
  match s.cry.cdi0 with
  | none => s.cryFail 4
  | some c0 =>
    let c1 := Config.hmac384 c0 bs
    let alias_ := Config.ecKey c1
    let cert := Config.aliasCert (Config.ecKey c0) alias_ bs
    (s.modCry (fun k => { k with cdi1 := some c1, aliasKey := some alias_, cert := cert })).cryOut o cert

def State.crySign (s : State) (o : CryOp) (bs : List Byte) : State :=
  match s.cry.aliasKey with
  | none => s.cryFail 4
  | some k => s.cryOut o (bytesBE 96 (Config.ecSign k (BitVec.ofNat 384 (ofBytesBE bs))))

/-- KEYLOAD: the source is overwritten with zeros; event 0x0202. -/
def State.keyLoad (s : State) (o : CryOp) (bs : List Byte) : State :=
  let s := s.modCry (fun k => { k with keys := sp none k.keys o.slot (some (BitVec.ofNat 512 (ofBytesLE bs))) })
  let s := s.dramWrite (s.cryChan o.src 64) o.src (List.replicate 64 0)
  (s.event 0x0202 (srcBlock R_CRY_ID) [(0, BitVec.ofNat 32 o.slot)]).cryOk 0 false

/-- A slot is zeroized; event 0x0203. -/
def State.slotZeroize (s : State) (n : Nat) : State :=
  ((s.modCry (fun k => { k with keys := sp none k.keys n none })).cryInt 3).event 0x0203 (srcBlock R_CRY_ID)
    [(0, BitVec.ofNat 32 n)]

/-- Random bytes, fresh each time. -/
def State.cryRandom (s : State) (o : CryOp) : State :=
  let bs := (List.range o.len).map (fun i => Config.freeValue 8 (s.freeCtr + i))
  (s.freeBy o.len).cryOut o bs

def State.cryRun (s : State) (o : CryOp) : State :=
  match o.op with
  | 1 => s.cryFrom o o.len (fun s bs => s.cryOut o (bytesBE 48 (Config.sha384 bs)))
  | 2 => s.cryFrom o 240 (fun s bs => s.cryOk 0 (Config.ecVerify bs))
  | 3 => s.cryRandom o
  | 4 => s.cryFrom o 192 (fun s bs => s.cryDerive o bs)
  | 5 => s.cryFrom o 48 (fun s bs => s.crySign o bs)
  | 6 => s.cryFrom o 64 (fun s bs => s.keyLoad o bs)
  | 7 => (s.slotZeroize o.slot).cryOk 0 false
  | _ =>
    match s.cry.cdi0 with
    | none => s.cryFail 4
    | some c0 => s.cryOut o (bytesBE 96 (Config.ecPub (Config.ecKey c0)))

/-- The operation ends; one that came after a signing request of the recorder waits for the signature. -/
def execCryptoDone (s : State) : Out :=
  .next (
    match s.cry.busy with
    | some o => if s.sealFirst o then s else s.cryRun o
    | none => s)

/-- A read of CRY_DRBG draws 32 new bits. -/
def execDrbgRead (x : Accessor) (s : State) : Out := .next (s.access x R_CRY_ID true (fun s => s.freeNext))

end Sys2Proof.Machine
end

