-- ==== Sys2Proof/Machine/ReadPath.lean ====
section
/-!
DEFINITION. The read path: where the data of an LBA lies, the Media Tag check, reconstruction at L3, the egress check
and what a read completes with (R17, R251–R253, R317, R327).
-/
namespace Sys2Proof.Machine

/-! ### Media Tag check (R251, Table 6.3) -/

/-- The home reference of a staged copy. -/
def copyRef (c : StgCopy) : DWord := refStaging c.off c.home (c.ns + 1)

/-- The reference expected at an index and sector of a stripe; of a staged or emergency sector the staging index gives
it, none where no index names the sector. -/
def State.expectRef (s : State) (i stripe idx sec : Nat) : Option DWord :=
  let e := s.zent i
  let k := stripe * e.pitch + idx * 32 + sec
  if e.use = 5 then some (refMeta (cairnSector stripe (e.position stripe idx) sec) i)
  else if 14 ≤ idx then some (refParity stripe (idx == 15) sec i)
  else if e.use = 3 ∨ e.use = 4 then (s.win.staged.find? (fun c => decide (c.stg = i ∧ c.pos = k))).map copyRef
  else some (refZoned k i (e.ns + 1))

/-- The chunk lies on a member that is not read: its DEG bit is set, or it is FAILED or RETIRED (R253). -/
def State.erasedAt (s : State) (e : ZEntry) (stripe idx : Nat) : Bool :=
  bit e.deg (e.headOf stripe idx) || !(s.memberAt e.act (e.headOf stripe idx)).st.live

/-! ### Reconstruction at L3 (R251, R253, Table 11.3) -/

/-- A stripe buffer in RECON for one sector. -/
def reconBuf (d x y : Nat) : StripeBuf :=
  { StripeBuf.default with mode := .recon, d := d, x := x, y := y, first := 0, count := 1 }

/-- The sector of a data chunk rebuilt from the sectors that took part: each of them was read, passed its own check, and
none is missing. Bytes 4,112–4,127 of the result are zero (R238). -/
def State.rebuilt (s : State) (i stripe idx sec : Nat) (er : List Nat) (parts : List (Nat × Bool × List Byte)) : Option (List Byte) :=
  let e := s.zent i
  let y := (er.filter (fun k => k != idx)).headD 13
  let b := reconBuf e.d idx y
  let ok (p : Nat × Bool × List Byte) : Bool :=
    p.2.1 && !s.erasedAt e stripe p.1 && tagPass (s.expectRef i stripe p.1 sec) e.wgen p.2.2
  if er.contains idx && decide (er.eraseDups.length ≤ 2 ∧ e.use ≠ 5) && reconValid e.d idx y &&
      b.needs.all (fun k => parts.any (fun p => p.1 == k)) && parts.all ok then
    let b := (b.needs.filterMap (fun k => parts.find? (fun p => p.1 == k))).foldl (fun (b : StripeBuf) p => b.land p.1 0 p.2.2 false) b
    some (padSector ((b.results 0).headD []))
  else none

/-! ### One sector (R135, R252) -/

/-- Where the recovery of a sector stands: it climbs the ladder; it is read once more at L0, or then reconstructed,
after its egress check failed; it is ready to leave; or nothing is left. -/
inductive ReadPhase where
  | climb
  | again
  | last
  | ready (block : List Byte)
  | failed
deriving DecidableEq, Repr

/-- The phase, and the egress checks that failed. -/
structure ReadRun where
  phase : ReadPhase
  piBad : Nat
deriving DecidableEq, Repr

/-- A payload that has passed its Media Tag check meets the egress check. -/
def ReadRun.egress (r : ReadRun) (ok : Bool) (block : List Byte) (next : ReadPhase) : ReadRun :=
  if ok then ⟨.ready block, r.piBad⟩ else ⟨next, r.piBad + 1⟩

/-- A payload that passes its Media Tag check at a location, from one attempt. -/
def State.tryPayload (s : State) (i k : Nat) (ref : DWord) (wgen : Nat) (t : ReadTry) : Option (List Byte) :=
  let e := s.zent i
  let st := e.stripeAt k
  match t with
  | .level n ok p => if n ≠ 3 ∧ ok = true ∧ s.erasedAt e st (e.chunkAt k) = false ∧ tagPass (some ref) wgen p = true then some p else none
  | .rebuild er parts => if e.wgen = wgen then s.rebuilt i st (e.chunkAt k) (k % 32) er parts else none

def tryL0 : ReadTry → Bool
  | .level 0 _ _ => true
  | _ => false

def tryL3 : ReadTry → Bool
  | .rebuild _ _ => true
  | _ => false

/-- One attempt: `get` gives the payload that passed its tag, `out` the egress check. -/
def ReadRun.step (get : ReadTry → Option (List Byte)) (out : List Byte → Bool) (r : ReadRun) (t : ReadTry) : ReadRun :=
  match r.phase with
  | .climb =>
    (match get t with
     | some b => r.egress (out b) b (if tryL3 t then .failed else .again)
     | none => r)
  | .again =>
    if tryL0 t then
      (match get t with
       | some b => r.egress (out b) b .last
       | none => ⟨.last, r.piBad⟩)
    else r
  | .last =>
    if tryL3 t then
      (match get t with
       | some b => r.egress (out b) b .failed
       | none => ⟨.failed, r.piBad⟩)
    else r
  | _ => r

/-! ### Sources (R327) -/

/-- The youngest older committed write that covers an LBA. -/
def youngest : List Piece → Option Piece
  | [] => none
  | p :: t =>
    match youngest t with
    | some q => if q.asn < p.asn then some p else some q
    | none => some p

/-- The window's piece that holds an LBA for a read of that ASN; in a zone none beyond its HWP, whose data a reset has
ended. -/
def State.pieceFor (s : State) (ns lba : Nat) (asn : DWord) : Option Piece :=
  let live := match (if s.nsZoned ns then s.zoneEnt ns (zoneOf lba) else none) with
    | some (_, e) => decide (lba % 262144 < e.hwp)
    | none => !s.nsZoned ns
  if live then
    youngest (s.win.pieces.filter (fun p =>
      decide (p.ns = ns ∧ p.asn < asn ∧ p.lba ≤ lba ∧ lba < p.lba + p.blocks) && !p.gone.contains (lba - p.lba)))
  else none

/-- A place on the medium. -/
def State.mediaSrc (s : State) (i k : Nat) (ref : DWord) : RdSrc := .media i k ref (s.zent i).wgen

/-- Where an LBA outside the window lies: its staged copy, else its home. -/
def State.homeSrc (s : State) (ns lba : Nat) : RdSrc :=
  if s.nsZoned ns then
    match s.zoneEnt ns (zoneOf lba) with
    | none => .blank
    | some (i, e) =>
      let off := lba % 262144
      match s.stagedOf ns i off with
      | some c => s.mediaSrc c.stg c.pos (copyRef c)
      | none =>
        if s.win.fills.any (fun f => decide (f.1 = i ∧ f.2.1 ≤ off ∧ off < f.2.1 + f.2.2)) then .zeros
        else if e.hwp ≤ off then .blank
        else s.mediaSrc i off (refZoned off i (ns + 1))
  else
    match s.mapOf ns lba with
    | none => .blank
    | some m =>
      (match s.stagedOf ns m.entry lba with
       | some c => if m.asn ≤ c.asn then s.mediaSrc c.stg c.pos (copyRef c) else s.mediaSrc m.entry m.idx (refZoned m.idx m.entry (ns + 1))
       | none => s.mediaSrc m.entry m.idx (refZoned m.idx m.entry (ns + 1)))

def State.poisonedAt (s : State) (ns lba n : Nat) : Bool :=
  Side.all.any (fun x => (s.redun.get x).poison.any (fun p => decide (p.ns = ns ∧ p.lba < lba + n ∧ lba < p.lba + p.count)))

/-- The LBA lies in a zone that the full poison list sent OFFLINE (R270). -/
def State.floodedAt (s : State) (ns lba : Nat) : Bool :=
  match s.zoneEnt ns (zoneOf lba) with
  | some (i, e) => s.nsZoned ns && (s.redun.get e.act).flooded.contains i
  | none => false

/-- The source of an LBA: the poison list comes before any media access (R270). -/
def State.srcOf (s : State) (c : Cmd) (lba : Nat) : RdSrc :=
  if s.poisonedAt c.ns lba 1 || s.floodedAt c.ns lba then .poisoned
  else
    match s.pieceFor c.ns lba c.asn with
    | some p => .slot (p.slot + (lba - p.lba))
    | none => s.homeSrc c.ns lba

/-! ### The whole read -/

/-- The Ridge that runs the command's context. -/
def State.cmdSide (s : State) (c : Cmd) : Side :=
  match c.holder with
  | some k => k.ridge
  | none => s.kSide

/-- What becomes of block `i` of a read: the block as it leaves or the status it fails with, and the egress checks
failed. The spec states no content for an LBA that was never written: a free value (DESIGN CHOICE, log 2). -/
def State.readBlock (s : State) (c : Cmd) (i : Nat) (src : RdSrc) (tries : List ReadTry) : (List Byte ⊕ Nat) × Nat :=
  let lba := c.slba + i
  let f := s.lbaf c.ns
  let t := s.piType c.ns
  let out (p : List Byte) : Bool := c.piOut f t lba i (s.plaintext c.ns lba p)
  let bad : List Byte ⊕ Nat := .inr (mkStat true 2 0x81)
  let leave (p : List Byte) : List Byte ⊕ Nat := .inl (c.piStrip f t (s.plaintext c.ns lba p))
  match src with
  | .poisoned => (.inr (mkStat true 7 0xC2), 0)
  | .zeros => (.inl (List.replicate (4096 + metaLen f) 0), 0)
  | .blank => (.inl (bytesLE (4096 + metaLen f) (Config.freeValue (8 * (4096 + metaLen f)) (s.freeCtr + i))), 0)
  | .slot n =>
    (match s.slotRead (s.cmdSide c) n with
     | some p => if out p then (leave p, 0) else (bad, 1)
     | none => (bad, 0))
  | .media e k ref g =>
    let r := tries.foldl (ReadRun.step (s.tryPayload e k ref g) out) ⟨.climb, 0⟩
    match r.phase with
    | .ready p => (leave p, r.piBad)
    | _ => (bad, r.piBad)

/-- The blocks of a read in LBA order up to the first that fails: those ready, the failure with its offset, and the
egress checks failed. -/
def State.readBlocks (s : State) (c : Cmd) : Nat → List (RdSrc × List ReadTry) → List (List Byte) × Option (Nat × Nat) × Nat
  | _, [] => ([], none, 0)
  | i, p :: rest =>
    match s.readBlock c i p.1 p.2 with
    | (.inr st, n) => ([], some (i, st), n)
    | (.inl b, n) =>
      let r := s.readBlocks c (i + 1) rest
      (b :: r.1, r.2.1, n + r.2.2)

/-- The member whose sector a read recovered at L3: the attempt that delivered it was the reconstruction, and the member
is read (R255). -/
def State.l3Head (s : State) (c : Cmd) (i : Nat) (p : RdSrc × List ReadTry) : Option (Side × Nat) :=
  match p.1 with
  | .media e k _ _ =>
    let st := (s.zent e).stripeAt k
    let idx := (s.zent e).chunkAt k
    let whole := (s.readBlock c i p.1 p.2).1.isLeft
    let without := (s.readBlock c i p.1 (p.2.filter (fun t => !tryL3 t))).1.isLeft
    if whole && !without && !s.erasedAt (s.zent e) st idx then some ((s.zent e).act, (s.zent e).headOf st idx) else none
  | _ => none

/-- The Error Information log of the command's controller gets an entry (R317). -/
def State.logError (s : State) (c : Cmd) (status lba : Nat) : State :=
  s.modNve (fun v => { v with errors := (c.ctrl, status, lba) :: v.errors })

/-- A window slot that both DRAM copies hold poisoned: nothing is sent for its block, and line 12 is raised in the H
context that holds the command (Table 17.3). -/
def State.slotLost (s : State) (r : Side) (src : RdSrc) : Bool :=
  match src with
  | .slot n => (s.slotRead r n).isNone
  | _ => false

/-- The ladders of a released read have ended: it holds the data that leaves, or completes with the status of its lowest
failing LBA (R17, R317). Its commit point is the first data that leaves (Table 15.7). -/
def State.readMedia (s : State) (c : Cmd) (xfer : Bool) (tries : List (List ReadTry)) : State :=
  let r := s.readBlocks c 0 (c.srcs.zip tries)
  let l3 := (c.srcs.zip tries).zipIdx.filterMap (fun p => s.l3Head c p.2 p.1)
  let s := l3.foldl (fun (s : State) p => s.logL3 p.1 p.2) s
  let s := (s.bump R_NVE_PIERRCNT 31 16 r.2.2).freeBy c.blocks
  let s := if c.srcs.any (s.slotLost (s.cmdSide c)) then (match c.holder with | some k => s.raiseLine k 12 | none => s) else s
  match r.2.1 with
  | some (i, st) => (s.logError c st (c.slba + i)).complete c st 0 0
  | none => s.modCmd c.idx (fun k => { k with readOk := true, committed := xfer, data := if xfer then r.1 else [] })

/-- The read leaves its last wait: its sources are fixed; one whose lowest LBA is poisoned is answered from the list. -/
def State.releaseRead (s : State) (c : Cmd) : State :=
  let srcs := (List.range c.blocks).map (fun i => s.srcOf c (c.slba + i))
  if srcs.head? = some .poisoned then (s.logError c (mkStat true 7 0xC2) c.slba).complete c (mkStat true 7 0xC2) 0 0
  else s.modCmd c.idx (fun k => { k with released := true, srcs := srcs })

/-- A read of P_HDG_LOOKUP; a read command whose entry is clear is released (R327, R330). -/
def State.hedgeRead (s : State) (c : CtxId) : State × DWord :=
  let (t, w) := s.hedgeLookup c
  match (t.ctx c).heldCmd.bind t.cmd with
  | some k =>
    if bit w 63 && !k.released && decide (k.sq ≠ 0 ∧ (k.sqe.opc = 0x02 ∨ k.sqe.opc = 0x0C)) then (t.releaseRead k, w) else (t, w)
  | none => (t, w)

end Sys2Proof.Machine
end

