-- ==== Sys2Proof/Machine/Admission.lean ====
section
/-!
DEFINITION. The NVE: queues, fetch, admission checks, the I/O commands and their completions (R307–R312, R323–R343).
-/
namespace Sys2Proof.Machine

/-! ### Doorbells (R310, R312) -/

def portOf (n : Nat) : Side := if n < 64 then .a else .b

/-- A port moves TLPs: its counters show anew (DESIGN CHOICE, log 146). -/
def State.traffic (s : State) (p : Side) : State := s.modHpt p (fun h => { h with seen := [] })

def State.badDoorbell (s : State) : State := (s.nveInt 4).bump R_NVE_DBERRCNT 31 0 1

def Ctrl.modSq (c : Ctrl) (q : Nat) (f : Sq → Sq) : Ctrl := { c with sqs := lmodFirst (fun x => x.qid == q) f c.sqs }

def execSqTailDoorbell (n q tail : Nat) (s : State) : Out :=
  .next (
    if s.nveUp = false then s
    else
      match (s.ctrl n).sqOf q with
      | some x => if tail < x.size then (s.traffic (portOf n)).modCtrl n (fun c => c.modSq q (fun y => { y with tail := tail })) else s.badDoorbell
      | none => s.badDoorbell)

/-- The host has consumed entries up to a head; staged completions follow. -/
def execCqHeadDoorbell (n q head : Nat) (s : State) : Out :=
  .next (
    if s.nveUp = false then s
    else
      match (s.ctrl n).cqOf q with
      | none => s.badDoorbell
      | some x =>
        let k := (head + x.size - x.head) % x.size
        if x.size ≤ head ∨ x.entries.length < k then s.badDoorbell
        else
          let s := (s.traffic (portOf n)).modCtrl n (fun c => c.modCq q (fun y => { y with head := head, entries := y.entries.drop k }))
          s.drainStage s.nve.staging.length n q)

/-! ### Fetch (R310, R311, R325) -/

/-- Opcodes that take a Hedge entry (Table 15.2). -/
def namesLbas (opc : Byte) : Bool :=
  decide (opc = 0x01 ∨ opc = 0x02 ∨ opc = 0x08 ∨ opc = 0x09 ∨ opc = 0x0C ∨ opc = 0x79 ∨ opc = 0x7D)

/-- A free command context (DESIGN CHOICE, log 8). -/
def State.freeCmd (s : State) : Nat :=
  (pickOf .command ((List.range 16384).filter (fun k => !s.nve.cmds.any (fun c => c.idx == k)))).getD 0

def Sq.some_ (q : Sq) : Bool := q.head != q.tail

/-- I/O queues of a queue's class that have commands: all of them under round robin, else those of its priority. -/
def Ctrl.rivals (c : Ctrl) (q : Sq) : List Nat :=
  (c.sqs.filter (fun x => decide (x.qid ≠ 0) && x.some_ && (!c.wrr || decide (x.prio = q.prio)))).map Sq.qid

/-- The queue that follows another in the round. -/
def nextQueue (k : Nat) (l : List Nat) : Option Nat :=
  match (l.filter (fun q => decide (k < q))).min? with
  | some q => some q
  | none => l.min?

/-- Commands fetched from a queue in its turn: NVE_FETCHCFG, within the Arbitration Burst, where no limit is 64. -/
def State.burst (s : State) (c : Ctrl) : Nat :=
  let ab := fld (c.feature 1) 2 0
  min (clampN 1 64 (s.regF R_NVE_FETCHCFG 6 0)) (if ab = 7 then 64 else 2 ^ ab)

/-- It is the queue's turn in the round of its class (R310): the queue served last until its burst is used, then the
next one. -/
def State.inTurn (s : State) (c : Ctrl) (q : Sq) : Bool :=
  let l := c.rivals q
  match c.turn with
  | none => true
  | some (k, n) =>
    if k = q.qid then decide (n < s.burst c) || decide (l = [k])
    else decide (q.qid = 0) || (c.wrr && !l.contains k && (c.sqs.any (fun x => decide (x.qid = k ∧ x.prio ≠ q.prio)))) ||
      decide (nextQueue k l = some q.qid)

def Ctrl.took (c : Ctrl) (q : Nat) : Ctrl :=
  if q = 0 then c
  else
    { c with
      turn := match c.turn with
        | some (k, n) => if k = q then some (q, n + 1) else some (q, 1)
        | none => some (q, 1) }

/-- The queue is the one whose turn it may be: admin before I/O, urgent before the weighted classes (R310). -/
def Ctrl.mayServe (c : Ctrl) (q : Sq) : Bool :=
  q.some_ && (decide (q.qid = 0) ||
    (!c.sqs.any (fun x => decide (x.qid = 0) && x.some_) &&
      (!c.wrr || decide (q.prio = 0) || !c.sqs.any (fun x => decide (x.prio = 0 ∧ x.qid ≠ 0) && x.some_))))

/-- Fetching may go on. -/
def State.fetchOn (s : State) (sq : Nat) (opc : Byte) : Bool :=
  s.nveUp && s.regB R_NVE_CTL 0 && !s.regB R_NVE_CTL 1 && decide (s.nve.cmds.length < 16384 ∧ s.hdgUsed < 16384) &&
    (s.regB R_HDG_CTL 0 || decide (sq = 0) || !namesLbas opc)

/-- ASNSTOP (R311): the next ASN has come to the limit. -/
def State.asnStop (s : State) : Bool := decide (s.nve.limit ≤ s.nve.asn)

def Cmd.new (n : Nat) (asn : DWord) (ctrl sq : Nat) (sqe : Sqe) (host : BitVec 128) : Cmd where
  idx := n
  asn := asn
  ctrl := ctrl
  sq := sq
  sqe := sqe
  host := host
  hedge := none
  hedgeWait := false
  checked := false
  slba := 0
  blocks := 0
  spans := []
  committed := false
  abortReq := false
  abortStat := 0
  done := 0
  ready := decide (sq = 0)
  holder := none
  released := false
  abortedBy := none
  waitsFor := []
  data := []
  pieces := []
  srcs := []
  readOk := false

/-- Line 10 in the contexts of the H Spur of every Ridge in service: a command waits for that Spur (Table 2.3; which of
its contexts: DESIGN CHOICE, log 110). -/
def State.hostqLine (s : State) : State :=
  (Side.all.filter (fun r => decide (s.ridgeSt r = .inService))).foldl
    (fun (s : State) r => Quad.all.foldl (fun (s : State) q => s.raiseLine ⟨r, .h, q⟩ 10) s) s

/-- The command is stamped and stands in its context; an admin command waits in the H queue at once. -/
def State.fetch (s : State) (n : Nat) (q : Sq) (sqe : Sqe) : State :=
  let c := Cmd.new s.freeCmd s.nve.asn n q.qid sqe (s.ctrl n).hostId
  let s := (s.traffic (portOf n)).modCtrl n (fun k => (k.modSq q.qid (fun x => { x with head := (x.head + 1) % x.size })).took q.qid)
  let s := s.modNve (fun v =>
    { v with cmds := v.cmds ++ [c], asn := v.asn + 1, highCtx := max v.highCtx (v.cmds.length + 1) })
  let s := if q.qid = 0 then s.hostqLine else s
  let s := if s.nve.limit ≤ s.nve.asn + 2 ^ 20 then s.nveInt 0 else s
  if s.asnStop then s.nveInt 1 else s

def execCommandFetch (n q : Nat) (sqe : Sqe) (s : State) : Out :=
  .next (
    match (s.ctrl n).sqOf q with
    | none => s
    | some x =>
      if s.fetchOn q sqe.opc && (s.ctrl n).en && (s.ctrl n).rdy && (s.ctrl n).mayServe x && s.inTurn (s.ctrl n) x then
        if s.asnStop then s.nveInt 1 else s.fetch n x sqe
      else s)

/-! ### NVE registers with a rule of their own -/

/-- NVE_ASN_HI (R311). -/
def State.asnWrite (s : State) (data : Word) : State :=
  let v : DWord := BitVec.ofNat 64 (data.toNat * 2 ^ 32 + s.nve.asn.toNat % 2 ^ 32)
  if s.regB R_NVE_CTL 0 = false ∧ s.nve.asn < v then s.modNve (fun k => { k with asn := v }) else s

def execAsnWrite (x : Accessor) (data : Word) (s : State) : Out := .next (s.access x R_NVE_ID true (fun s => s.asnWrite data))

/-- NVE_ASNLIM_HI: the staged limit, which is journaled before, applies; a lower one is ignored. -/
def State.asnLimit (s : State) (data : Word) : State :=
  let v : DWord := BitVec.ofNat 64 (data.toNat * 2 ^ 32 + s.nve.limLo.toNat)
  if v < s.nve.limit then s else s.modNve (fun k => { k with limit := v, asnLast := if k.asnLast < v then v else k.asnLast })

def execAsnLimitWrite (x : Accessor) (data : Word) (s : State) : Out :=
  .next (s.access x R_NVE_ID true (fun s => s.asnLimit data))

/-- Queue pairs allocated to all controllers. -/
def State.qTotal (s : State) : Nat := ((List.range s.ctrlCount).map (fun n => (s.ctrl n).qalloc)).sum

/-- An allocation (R308); none where it is ignored. -/
def State.allocQ (s : State) (n pairs : Nat) : Option State :=
  if (s.ctrl n).en ∨ s.ctrlCount ≤ n ∨ 4096 < s.qTotal - (s.ctrl n).qalloc + pairs then none
  else some (s.modCtrl n (fun c => { c with qalloc := pairs }))

def State.qallocWrite (s : State) (data : Word) : State :=
  (s.allocQ (s.regF R_NVE_QALLOCSEL 6 0) (fld data 12 0)).getD (s.nveInt 2)

def execQueueAllocationWrite (x : Accessor) (data : Word) (s : State) : Out :=
  .next (s.access x R_NVE_ID true (fun s => s.qallocWrite data))

/-- NVE_NSCFG: a change of bits [30:16] while READY is ignored (Table 14.12); reserved bits stay 0. -/
def State.nscfgWrite (s : State) (data : Word) : State :=
  let n := s.regF R_NVE_NSSEL 6 0
  let old := s.nscfg n
  let v := data &&& 0xFF3F0000#32
  if bit old 31 ∧ fld old 30 16 ≠ fld v 30 16 then s.nveInt 3
  else s.putCfg n v

def execNamespaceConfigWrite (x : Accessor) (data : Word) (s : State) : Out :=
  .next (s.access x R_NVE_ID true (fun s => s.nscfgWrite data))

/-! ### Admission checks (Table 15.1) -/

/-- An unchecked I/O command of the same namespace with a lower ASN (R324). -/
def State.olderUnchecked (s : State) (c : Cmd) : Bool :=
  s.nve.cmds.any (fun k => decide (k.sq ≠ 0 ∧ k.asn < c.asn) && !k.checked &&
    (decide (k.sqe.nsid = c.sqe.nsid) || decide (c.sqe.nsid = allNs) || decide (k.sqe.nsid = allNs)))

/-- Pending deferred-error reports that the command consumes (R342). -/
def State.myReports (s : State) (c : Cmd) : List (Nat × BitVec 128) :=
  s.win.reports.filter (fun p => p.2 == c.host && (decide (p.1 = c.ns) || decide (c.sqe.nsid = allNs)))

/-- Steps 1 to 4: the state with any report consumed, and the status of the step that fails. -/
def State.checkSteps (s : State) (c : Cmd) : State × Option Nat :=
  let all := decide (c.sqe.nsid = allNs) && decide (c.sqe.opc = 0x00)
  let attached :=
    match (if c.sqe.nsid = 0 ∨ 128 < c.sqe.nsid.toNat then none else s.ns c.ns) with
    | some x => x.attached.contains c.ctrl
    | none => false
  if all = false ∧ attached = false then (s, some (stat 0 0x0B))
  else if all = false ∧ s.nsReady c.ns = false then (s, some (mkStat (bit (s.nscfg c.ns) 24) 0 0x82))
  else
    let rs := s.myReports c
    if rs ≠ [] then (s.modWin (fun w => { w with reports := w.reports.filter (fun p => !rs.contains p) }), some (mkStat false 7 0xC0))
    else
      match s.ns c.ns with
      | some x => if all = false ∧ x.resv.permits c.host c.sqe = false then (s, some (stat 0 0x18)) else (s, none)
      | none => (s, none)

/-- An I/O command at its admission: `f` runs where steps 1 to 4 pass. -/
def State.ioCmd (s : State) (n : Nat) (opc : Byte) (f : State → Cmd → State) : State :=
  match s.cmd n with
  | none => s
  | some c =>
    if c.sqe.opc ≠ opc ∨ c.sq = 0 ∨ c.checked ∨ s.olderUnchecked c ∨ s.cplRoom c = false then s
    else
      match s.checkSteps c with
      | (s, some st) => s.complete c st 0 0
      | (s, none) => f s c

def Cmd.slbaF (c : Cmd) : Nat := c.sqe.c11.toNat * 2 ^ 32 + c.sqe.c10.toNat

def Cmd.nlb (c : Cmd) : Nat := fld c.sqe.c12 15 0 + 1

def State.nsSize (s : State) (n : Nat) : Nat := ((s.ns n).map (fun x => x.size)).getD 0

/-- Step 5: the range, and for commands that transfer data the size limit of 2 MiB. -/
def State.rangeBad (s : State) (c : Cmd) (lba n : Nat) (xfer : Bool) : Option Nat :=
  if xfer ∧ 512 < n then some stInvalidField
  else if s.nsSize c.ns < lba + n then some (stat 0 0x80)
  else none

/-- The actuator that holds a zone is lost (R274). -/
def State.lostZone (s : State) (n z : Nat) : Bool :=
  match s.zoneEnt n z with
  | some p => (s.redun.get p.2.act).lost
  | none => false

/-- Zones of a namespace that are open, or will be: those with writes in flight; and those that are active. -/
def State.openZones (s : State) (n : Nat) : Nat :=
  (s.ztb.entries.filter (fun p => decide (p.2.use = 1 ∧ p.2.ns = n) &&
    (decide (p.2.state = 2 ∨ p.2.state = 3) || !(s.zoneWrites n p.2.zone).isEmpty))).length

def State.activeZones (s : State) (n : Nat) : Nat :=
  (s.ztb.entries.filter (fun p => decide (p.2.use = 1 ∧ p.2.ns = n) &&
    (decide (p.2.state = 2 ∨ p.2.state = 3 ∨ p.2.state = 4) || !(s.zoneWrites n p.2.zone).isEmpty))).length

/-- Step 6 for a write at `lba` of `n` blocks (Table 15.6). -/
def State.zonedBad (s : State) (ns lba n : Nat) (append : Bool) : Option Nat :=
  let z := zoneOf lba
  match s.zoneEnt ns z with
  | none => some (mkStat true 1 0xB8)
  | some (_, e) =>
    let fresh := (s.zoneWrites ns z).isEmpty
    if e.state = 14 then some (mkStat true 1 0xB9)
    else if e.state = 13 then some (mkStat true 1 0xBA)
    else if e.state = 15 then some (mkStat true 1 0xBB)
    else if append = false ∧ lba ≠ s.awp ns z then some (mkStat true 1 0xBC)
    else if z * 262144 + e.cap < lba + n then some (mkStat true 1 0xB8)
    else if fresh ∧ e.state ≠ 2 ∧ e.state ≠ 3 ∧ 1024 ≤ s.openZones ns then some (mkStat true 1 0xBE)
    else if fresh ∧ e.state = 1 ∧ 4096 ≤ s.activeZones ns then some (mkStat true 1 0xBD)
    else none

/-- The command has passed: it takes its entry and waits in the H queue. -/
def State.admitCmd (s : State) (c : Cmd) (kind : HKind) (lba n : Nat) (spans : List (Nat × Nat)) : State :=
  let s := s.modCmd c.idx (fun k => { k with checked := true, ready := true, slba := lba, blocks := n, spans := spans })
  s.hostqLine.takeHent c.idx kind c.ns lba n c.asn

/-- A write-kind range passes steps 5 and 6, or the command completes with the status of the step. -/
def State.writeCheck (s : State) (c : Cmd) (lba n : Nat) (append xfer : Bool) : Option Nat :=
  match s.rangeBad c lba n xfer with
  | some st => some st
  | none =>
    if s.nsZoned c.ns then
      if s.lostZone c.ns (zoneOf lba) then some (mkStat true 7 0xC1) else s.zonedBad c.ns lba n append
    else none

/-- The pieces of a write: it is divided at every multiple of 512 LBAs (R293). -/
def piecesOf : Nat → Nat → Nat → List (Nat × Nat)
  | 0, _, _ => []
  | k + 1, lba, n =>
    if n = 0 then []
    else
      let m := min n (512 - lba % 512)
      (lba, m) :: piecesOf k (lba + m) (n - m)

def State.admitWrite (s : State) (c : Cmd) (lba n : Nat) : State :=
  let s := (s.admitCmd c .write lba n []).modCmd c.idx (fun k => { k with pieces := piecesOf (n / 512 + 2) lba n })
  if s.nsZoned c.ns then s.setAwp c.ns (zoneOf lba) (lba + n) else s

/-- The PI statuses of R316: guard, application tag, reference tag. -/
def piStatus (field : Nat) : Nat := stat 2 (0x82 + min field 2)

/-- The blocks of a command with their places in it. -/
def Cmd.placed (c : Cmd) (data : List (List Byte)) : List (Nat × List Byte) := (List.range c.blocks).map (fun i => (i, lget [] data i))

/-- The data of an admitted write arrives (R252, R307, R316): it is kept for the window with any PI inserted, or the
command ends with the field that fails first, guard before application before reference tag. -/
def State.dataArrives (s : State) (n : Nat) (din : DataIn) (data : List (List Byte)) : State :=
  match s.cmd n with
  | none => s
  | some c =>
    let f := s.lbaf c.ns
    let t := s.piType c.ns
    let bad := (c.placed data).filterMap (fun p => c.piIn f t (c.slba + p.1) p.1 p.2)
    match din, bad with
    | .poisoned, _ => s.endUncommitted c (stat 0 0x04)
    | .good, b :: _ => (s.endUncommitted c (piStatus b)).bump R_NVE_PIERRCNT 15 0 1
    | .good, [] =>
      s.modCmd n (fun k =>
        { k with data := (c.placed data).map (fun p => c.piRemap f t (c.piInsert f t (c.slba + p.1) p.1 p.2)) })

def State.write (s : State) (c : Cmd) (xfer : Bool) (din : DataIn) (data : List (List Byte)) : State :=
  match s.writeCheck c c.slbaF c.nlb false xfer with
  | some st => s.complete c st 0 0
  | none => (s.admitWrite c c.slbaF c.nlb).dataArrives c.idx din data

def execWrite (n : Nat) (din : DataIn) (data : List (List Byte)) (s : State) : Out :=
  .next (s.ioCmd n 0x01 (fun s c => s.write c true din data))

def execWriteZeroes (n : Nat) (s : State) : Out :=
  .next (s.ioCmd n 0x08 (fun s c =>
    s.write c false .good (List.replicate c.nlb (c.zeroBlock (s.lbaf c.ns) (s.piType c.ns)))))

/-- Zone Append: its LBAs start at the AWP (R332). -/
def State.append (s : State) (c : Cmd) (din : DataIn) (data : List (List Byte)) : State :=
  let z := zoneOf c.slbaF
  let lba := s.awp c.ns z
  if s.nsZoned c.ns = false ∨ c.slbaF % 262144 ≠ 0 then s.complete c stInvalidField 0 0
  else
    match s.writeCheck c lba c.nlb true true with
    | some st => s.complete c st 0 0
    | none => (s.admitWrite c lba c.nlb).dataArrives c.idx din data

def execZoneAppend (n : Nat) (din : DataIn) (data : List (List Byte)) (s : State) : Out :=
  .next (s.ioCmd n 0x7D (fun s c => s.append c din data))

/-! ### Read and Verify (R327, R270) -/

/-- Nothing blocks the command's entry. -/
def State.entryClear (s : State) (c : Cmd) : Bool :=
  match c.hedge with
  | none => false
  | some e =>
    match s.hent e with
    | some x => (s.blockers e x).isEmpty
    | none => false

/-- Some LBA of a read lies only on a lost actuator: neither in the window nor in the other actuator's staging (R274).
-/
def State.lostRead (s : State) (c : Cmd) (lba n : Nat) : Bool :=
  (List.range n).any (fun k =>
    match s.zoneEnt c.ns (zoneOf (lba + k)) with
    | none => false
    | some (i, e) =>
      (s.redun.get e.act).lost && (s.pieceFor c.ns (lba + k) c.asn).isNone &&
        (match s.stagedOf c.ns i ((lba + k) % 262144) with
         | some x => (s.redun.get (s.zent x.stg).act).lost
         | none => true))

def State.readCheck (s : State) (c : Cmd) (xfer : Bool) : Option Nat :=
  match s.rangeBad c c.slbaF c.nlb xfer with
  | some st => some st
  | none =>
    if s.nsZoned c.ns then
      if s.lostZone c.ns (zoneOf c.slbaF) then (if s.lostRead c c.slbaF c.nlb then some (mkStat true 7 0xC1) else none)
      else
        match s.zoneEnt c.ns (zoneOf c.slbaF) with
        | some p => if p.2.state = 15 ∧ s.floodedAt c.ns c.slbaF = false then some (mkStat true 1 0xBB) else none
        | none => none
    else none

/-- Admission; for a command admitted before, its release once nothing blocks it; and for a released one what comes of
its blocks, once `tries` gives for each of them the attempts at the medium (none where the window holds it). An Abort
that came first stops it (R338). -/
def State.readRow (s : State) (n : Nat) (opc : Byte) (xfer : Bool) (tries : List (List ReadTry)) : State :=
  let s := s.ioCmd n opc (fun s c =>
    match s.readCheck c xfer with
    | some st => s.complete c st 0 0
    | none => s.admitCmd c .read c.slbaF c.nlb [])
  let s :=
    match s.cmd n with
    | some c => if c.checked && decide (c.sqe.opc = opc ∧ c.sq ≠ 0) && !c.released && s.entryClear c then s.releaseRead c else s
    | none => s
  match s.cmd n with
  | some c =>
    if c.released && decide (c.sqe.opc = opc ∧ c.sq ≠ 0 ∧ tries.length = c.blocks) && !c.readOk && !c.abortReq then
      s.readMedia c xfer tries
    else s
  | none => s

def execRead (n : Nat) (tries : List (List ReadTry)) (s : State) : Out := .next (s.readRow n 0x02 true tries)

def execVerify (n : Nat) (tries : List (List ReadTry)) (s : State) : Out := .next (s.readRow n 0x0C false tries)

/-! ### Dataset Management (Table 15.2) -/

/-- A range in spans of at most 2^18 LBAs. -/
def spansOf : Nat → Nat → Nat → List (Nat × Nat)
  | 0, _, _ => []
  | k + 1, a, n => if n = 0 then [] else (a, min n 262144) :: spansOf k (a + 262144) (n - 262144)

def State.dsm (s : State) (c : Cmd) (ranges : List (Nat × Nat)) : State :=
  if bit c.sqe.c11 2 = false ∨ s.nsZoned c.ns then s.completeOk c
  else if ranges.any (fun r => decide (s.nsSize c.ns < r.1 + r.2)) then s.complete c (stat 0 0x80) 0 0
  else
    match ranges.flatMap (fun r => spansOf (r.2 / 262144 + 1) r.1 r.2) with
    | [] => s.completeOk c
    | (a, n) :: t => s.admitCmd c .dsm a n t

def execDatasetManagement (n : Nat) (ranges : List (Nat × Nat)) (s : State) : Out :=
  .next (s.ioCmd n 0x09 (fun s c => s.dsm c ranges))

/-! ### Flush (R335) -/

/-- Nothing older is left to wait for. -/
def State.flushDone (s : State) (c : Cmd) : Bool :=
  let mine (n : Nat) : Bool := decide (n = c.ns) || decide (c.sqe.nsid = allNs)
  let isW (o : Byte) : Bool := decide (o = 0x01 ∨ o = 0x08 ∨ o = 0x7D ∨ o = 0x09)
  !s.nve.cmds.any (fun k => decide (k.sq ≠ 0 ∧ k.asn < c.asn) && mine k.ns && isW k.sqe.opc &&
      (!k.committed || (decide (k.sqe.opc ≠ 0x09) && decide (k.done < k.blocks)))) &&
    (!s.regB R_HDG_CTL 8 ||
      !s.win.pieces.any (fun p => decide (p.asn < c.asn) && mine p.ns && p.held.any (fun j => !s.sectorRecorded p (p.lba + j))))

/-- Admission; and completion once every older write-kind command has committed or ended. -/
def execFlush (n : Nat) (s : State) : Out :=
  .next (
    let s := s.ioCmd n 0x00 (fun s c => s.modCmd c.idx (fun k => { k with checked := true, committed := true }))
    match s.cmd n with
    | some c => if c.checked && decide (c.sqe.opc = 0x00 ∧ c.sq ≠ 0) && s.flushDone c then s.completeOk c else s
    | none => s)

/-! ### Zone management -/

/-- Every zone of a namespace, as spans in ascending order. -/
def State.allZones (s : State) (n : Nat) : List (Nat × Nat) :=
  (List.range (s.nsSize n / 262144)).map (fun z => (z * 262144, 262144))

/-- The zone's sectors in one staging band group leave the index with a STAGE record, and both counts fall (R246). -/
def State.dropStaged (s : State) (i k : Nat) : State :=
  (s.unstage (s.win.staged.filter (fun c => decide (c.home = i ∧ c.stg = k)))).libAppend s.kSide 0x0007

/-- A reset abandons the zone's migration: the new band group is freed (R262). -/
def State.migrationEnds (s : State) (x : Side) (i : Nat) : State :=
  match (s.redun.get x).cur, (s.redun.get x).target with
  | some j, some (n, _) =>
    if i = j then
      let s := (s.putZent n { s.zent n with w0 := putFld (s.zent n).w0 63 60 0 }).bumpGen
      s.modRedun x (fun r => { r with cur := none, target := none, stripe := 0, ckpt := 0, dead := 0 })
    else s
  | _, _ => s

/-- A device or host reset of a zone (R246): its staged sectors are dropped, one staging band group after the other;
when its STGCNT has reached 0 the RESET update applies. -/
def State.zoneReset (s : State) (i : Nat) : State :=
  let x := (s.zent i).act
  let ks := ((s.win.staged.filter (fun c => decide (c.home = i))).map StgCopy.stg).eraseDups
  let s := ks.foldl (fun (s : State) k => s.dropStaged i k) s
  match ztbApply (s.zent i) 0x5000000000000000#64 with
  | some f =>
    let s := (((s.putZent i f).bumpGen).zoneCleared i f).migrationEnds x i
    s.modRedun x (fun r =>
      { r with resetRec := r.resetRec.filter (fun j => j != i), finished := r.finished.filter (fun j => j != i) })
  | none => s

/-- A Zone Finish completes a partial last stripe with zero-filled sectors (R245). -/
def State.finishFill (s : State) (i : Nat) : State :=
  let e := s.zent i
  let n := (e.d * 32 - e.hwp % (e.d * 32)) % (e.d * 32)
  if n = 0 ∨ e.state = 14 then s else s.modWin (fun w => { w with fills := w.fills ++ [(i, e.hwp, n)] })

/-- The state after an action of Zone Management Send; none where the transition is not allowed. -/
def zoneAction (action st : Nat) : Option Nat :=
  match action with
  | 1 => if st = 2 ∨ st = 3 ∨ st = 4 then some 4 else none
  | 2 => if st = 1 ∨ st = 2 ∨ st = 3 ∨ st = 4 ∨ st = 14 then some 14 else none
  | 3 => if st = 1 ∨ st = 2 ∨ st = 3 ∨ st = 4 then some 3 else none
  | 4 => if st = 1 ∨ st = 2 ∨ st = 3 ∨ st = 4 ∨ st = 14 then some 1 else none
  | 5 => if st = 13 ∨ st = 15 then some 15 else none
  | _ => none

def Cmd.zsa (c : Cmd) : Nat := fld c.sqe.c13 7 0

/-- The zone operation runs on the zone of its entry and commits (Table 15.7). -/
def State.zoneOp (s : State) (c : Cmd) : State × Bool :=
  match s.zoneEnt c.ns (zoneOf c.slba) with
  | none => (s, false)
  | some (i, e) =>
    match zoneAction c.zsa e.state with
    | none => (s, false)
    | some st =>
      let s := if c.zsa = 2 then s.finishFill i else s
      let s := if c.zsa = 4 then s.zoneReset i else (s.putZent i (e.setState st)).bumpGen
      ((s.libAppend s.kSide 0x0005).modCmd c.idx (fun k => { k with committed := true }), true)

/-- The entry is released, and the next zone of Select All waits for its own. -/
def State.zoneNext (s : State) (c : Cmd) : State :=
  (s.dropHent c).modCmd c.idx (fun k => k.nextSpan)

/-- Admission with the zone's entry; and the operation once every older conflicting entry has left ADMITTED. -/
def execZoneManagementSend (n : Nat) (s : State) : Out :=
  .next (
    let s := s.ioCmd n 0x79 (fun s c =>
      let all := bit c.sqe.c13 8
      if s.nsZoned c.ns = false ∨ c.zsa = 0 ∨ 5 < c.zsa ∨ (all = false ∧ c.slbaF % 262144 ≠ 0) then s.complete c stInvalidField 0 0
      else if all = false ∧ s.nsSize c.ns < c.slbaF + 262144 then s.complete c (stat 0 0x80) 0 0
      else if all then
        match s.allZones c.ns with
        | [] => s.completeOk c
        | (a, k) :: t => s.admitCmd c .zone a k t
      else if s.lostZone c.ns (zoneOf c.slbaF) then s.complete c (mkStat true 7 0xC1) 0 0
      else s.admitCmd c .zone c.slbaF 262144 [])
    match s.cmd n with
    | none => s
    | some c =>
      if c.checked && decide (c.sqe.opc = 0x79 ∧ c.sq ≠ 0) && !(c.abortReq && !c.committed) && s.entryClear c then
        let (t, ok) := s.zoneOp c
        if c.spans ≠ [] then t.zoneNext c
        else if ok ∨ bit c.sqe.c13 8 then
          match t.cmd n with
          | some d => t.completeOk d
          | none => t
        else t.complete c (stat 1 0xBF) 0 0
      else s)

def execZoneManagementReceive (n : Nat) (s : State) : Out :=
  .next (s.ioCmd n 0x7A (fun s c =>
    if s.nsZoned c.ns then (if s.nsSize c.ns < c.slbaF then s.complete c (stat 0 0x80) 0 0 else s.completeOk c)
    else s.complete c stInvalidField 0 0))

/-! ### Reservations (R340) -/

def State.modResv (s : State) (n : Nat) (f : Resv → Resv) : State :=
  match s.ns n with
  | some x => s.setNs n (some { x with resv := f x.resv })
  | none => s

def Resv.keyOf (r : Resv) (h : BitVec 128) : Option DWord := (r.regs.find? (fun p => p.1 == h)).map (fun p => p.2)

def Resv.ofNs (x : Option Ns) : Resv := (x.map (fun y => y.resv)).getD ⟨0, none, [], 0, false⟩

/-- Remove registrations; a reservation whose holder goes is released. -/
def Resv.drop (r : Resv) (p : BitVec 128 × DWord → Bool) : Resv :=
  let regs := r.regs.filter (fun q => !p q)
  let gone :=
    match r.holder with
    | some h => !regs.any (fun q => q.1 == h)
    | none => false
  { r with regs := regs, holder := if gone then none else r.holder, rtype := if gone then 0 else r.rtype, gen := r.gen + 1 }

/-- CPTPL: 2 clears, 3 sets. -/
def Resv.cptpl (r : Resv) (v : Nat) : Resv := if v = 2 then { r with ptpl := false } else if v = 3 then { r with ptpl := true } else r

def State.resvRegister (s : State) (c : Cmd) (nrkey crkey : DWord) : State :=
  let r := Resv.ofNs (s.ns c.ns)
  let cur := r.keyOf c.host
  let conflict := s.complete c (stat 0 0x18) 0 0
  let keyOk := decide (cur = some crkey) || bit c.sqe.c10 3
  let put (k : DWord) (x : Resv) : Resv :=
    { x with regs := x.regs.filter (fun q => q.1 != c.host) ++ [(c.host, k)], gen := x.gen + 1 }
  let cp (x : Resv) : Resv := x.cptpl (fld c.sqe.c10 31 30)
  match fld c.sqe.c10 2 0 with
  | 0 =>
    if cur.isSome && decide (cur ≠ some nrkey) then conflict
    else (s.modResv c.ns (fun x => cp (put nrkey x))).completeOk c
  | 1 =>
    if cur.isNone || !keyOk then conflict else (s.modResv c.ns (fun x => cp (x.drop (fun q => q.1 == c.host)))).completeOk c
  | 2 => if cur.isNone || !keyOk then conflict else (s.modResv c.ns (fun x => cp (put nrkey x))).completeOk c
  | _ => s.complete c stInvalidField 0 0

def execReservationRegister (n : Nat) (nrkey crkey : DWord) (s : State) : Out :=
  .next (s.ioCmd n 0x0D (fun s c => s.resvRegister c nrkey crkey))

def execReservationReport (n : Nat) (s : State) : Out := .next (s.ioCmd n 0x0E (fun s c => s.completeOk c))

/-- Commands of preempted hosts that Preempt and Abort aborts: lower ASN, before their commit point. -/
def State.preempted (s : State) (c : Cmd) (hosts : List (BitVec 128)) : List Cmd :=
  s.nve.cmds.filter (fun k => decide (k.sq ≠ 0 ∧ k.ns = c.ns ∧ k.asn < c.asn) && hosts.contains k.host && !k.committed && namesLbas k.sqe.opc)

/-- The command stands until the commands it aborted have completed. -/
def State.abortAll (s : State) (c : Cmd) (l : List Cmd) : State :=
  let s := l.foldl (fun (s : State) k => s.modCmd k.idx (fun x => { x with abortReq := true, abortStat := stat 0 0x1B })) s
  s.modCmd c.idx (fun x => { x with checked := true, committed := true, waitsFor := l.map (fun k => k.idx) })

/-- The other hosts registered with a key. -/
def Resv.others (r : Resv) (key : DWord) (host : BitVec 128) : List (BitVec 128) :=
  (r.regs.filter (fun q => q.2 == key && q.1 != host)).map (fun q => q.1)

/-- Preempt: hosts leave, and the reservation passes to the preempting host where its holder leaves or PRKEY 0 takes an
all-registrants reservation. -/
def Resv.preempt (r : Resv) (out : List (BitVec 128)) (prkey : DWord) (t : Nat) (host : BitVec 128) : Resv :=
  let y := r.drop (fun q => out.contains q.1)
  if r.holder.any out.contains || decide (prkey = 0 ∧ 5 ≤ r.rtype) then { y with rtype := t, holder := some host } else y

def State.resvAcquire (s : State) (c : Cmd) (crkey prkey : DWord) : State :=
  let r := Resv.ofNs (s.ns c.ns)
  let t := fld c.sqe.c10 15 8
  let conflict := s.complete c (stat 0 0x18) 0 0
  if r.keyOf c.host ≠ some crkey then conflict
  else if t = 0 ∨ 6 < t then s.complete c stInvalidField 0 0
  else
    match fld c.sqe.c10 2 0 with
    | 0 =>
      if r.rtype ≠ 0 ∧ (r.holder ≠ some c.host ∨ r.rtype ≠ t) then conflict
      else (s.modResv c.ns (fun x => { x with rtype := t, holder := some c.host })).completeOk c
    | m =>
      if 2 < m then s.complete c stInvalidField 0 0
      else
        let out := r.others prkey c.host
        let s := s.modResv c.ns (fun x => x.preempt out prkey t c.host)
        let l := s.preempted c out
        if m = 1 ∨ l = [] then s.completeOk c else s.abortAll c l

/-- Admission; and the completion of Preempt and Abort after the commands it aborted. -/
def execReservationAcquire (n : Nat) (crkey prkey : DWord) (s : State) : Out :=
  .next (
    match s.cmd n with
    | none => s
    | some c =>
      if c.checked then (if c.sqe.opc = 0x11 ∧ c.sq ≠ 0 ∧ c.waitsFor = [] then s.completeOk c else s)
      else s.ioCmd n 0x11 (fun s c => s.resvAcquire c crkey prkey))

def State.resvRelease (s : State) (c : Cmd) (crkey : DWord) : State :=
  let r := Resv.ofNs (s.ns c.ns)
  if r.keyOf c.host ≠ some crkey then s.complete c (stat 0 0x18) 0 0
  else
    match fld c.sqe.c10 2 0 with
    | 0 =>
      if r.holder = some c.host ∧ r.rtype ≠ fld c.sqe.c10 15 8 then s.complete c stInvalidField 0 0
      else if r.holder = some c.host then (s.modResv c.ns (fun x => { x with rtype := 0, holder := none })).completeOk c
      else s.completeOk c
    | 1 => (s.modResv c.ns (fun x => { x with rtype := 0, holder := none, regs := [], gen := x.gen + 1 })).completeOk c
    | _ => s.complete c stInvalidField 0 0

def execReservationRelease (n : Nat) (crkey : DWord) (s : State) : Out :=
  .next (s.ioCmd n 0x15 (fun s c => s.resvRelease c crkey))

/-! ### Hedge ports and completions -/

/-- A waiting command takes an entry that has become free (R325). -/
def execHedgeEntryGrant (n : Nat) (s : State) : Out :=
  .next (
    match s.cmd n with
    | none => s
    | some c =>
      if c.hedgeWait then
        let kind : HKind :=
          if c.sqe.opc = 0x09 then .dsm else if c.sqe.opc = 0x79 then .zone
          else if c.sqe.opc = 0x02 ∨ c.sqe.opc = 0x0C then .read else .write
        s.takeHent n kind c.ns c.slba c.blocks c.asn
      else s)

def State.hdgUp (s : State) : Bool := s.blockUp R_HDG_ID

def execHedgeLookup (c : CtxId) (reg : BitVec 6) (s : State) : Out :=
  .next (
    s.byCtx c (fun s =>
      if s.hdgUp then (let (s, w) := s.hedgeRead c; s.modCtx c (fun x => x.wr reg.toNat w))
      else s.refuseCtx c 0xC5 5))

def execHedgeRemove (c : CtxId) (data : DWord) (s : State) : Out :=
  .next (
    s.byCtx c (fun s =>
      if s.hdgUp then s.hedgeRemove c data else s.refuseCtx c 0xC6 5))

/-- An entry that has committed or left the table wakes the contexts it blocked (R328). -/
def execHedgeUnblock (e : BitVec 14) (s : State) : Out :=
  .next (
    let free :=
      match s.hent e.toNat with
      | some x => x.committed
      | none => true
    if free then s.hdgWake e.toNat else s)

/-- A zoned write ends without committing (R333): 0 abort, 1–3 a PI failure, 4 a transfer error. -/
def execZoneWriteCascade (n cause : Nat) (s : State) : Out :=
  .next (
    match s.cmd n with
    | none => s
    | some c =>
      if c.checked && !c.committed && s.nsZoned c.ns && decide (c.sq ≠ 0 ∧ (c.sqe.opc = 0x01 ∨ c.sqe.opc = 0x08 ∨ c.sqe.opc = 0x7D)) then
        match cause with
        | 0 => if c.abortReq then s.endUncommitted c c.abortStat else s
        | 1 => s.endUncommitted c (piStatus 0)
        | 2 => s.endUncommitted c (piStatus 1)
        | 3 => s.endUncommitted c (piStatus 2)
        | 4 => s.endUncommitted c (stat 0 0x04)
        | _ => s
      else s)

/-- The oldest admitted command not yet popped. -/
def oldestCmd : List Cmd → Option Cmd
  | [] => none
  | c :: t =>
    match oldestCmd t with
    | some d => if d.asn < c.asn then some d else some c
    | none => some c

/-- P_HQ_POP: an H context takes the oldest admitted command; the spec gives the word no layout (DESIGN CHOICE, log 18).
-/
def State.hqPop (s : State) (c : CtxId) : State × DWord :=
  let w := s.free 64
  let s := s.freeNext
  if c.spur ≠ .h then (s, w)
  else
    match oldestCmd (s.nve.cmds.filter (fun k => k.ready)) with
    | none => (s, w)
    | some k =>
      let s := s.modCmd k.idx (fun x => { x with ready := false, holder := some c })
      (s.modCtx c (fun x => { x with heldCmd := some k.idx }), w)

def execHostCommandPop (c : CtxId) (reg : BitVec 6) (s : State) : Out :=
  .next (
    s.byCtx c (fun s =>
      if s.nveUp then (let (s, w) := s.hqPop c; s.modCtx c (fun x => x.wr reg.toNat w))
      else s.refuseCtx c 0xCA 5))

def isWriteOpc (o : Byte) : Bool := decide (o = 0x01 ∨ o = 0x08 ∨ o = 0x7D)

/-- P_HQ_CPL: the held command completes; one whose Abort came first with the abort's status (R338). A read none of
whose blocks is ready is refused: no completion of it follows a failed check (R17, DEDUCED, log 142). -/
def State.hqCpl (s : State) (c : CtxId) (data : DWord) : State :=
  match (s.ctx c).heldCmd.bind s.cmd with
  | none => s.refuseCtx c 0xCB 5
  | some k =>
    if s.cplRoom k = false then s.refuseCtx c 0xCB 3
    else if k.abortReq && !k.committed then
      (if isWriteOpc k.sqe.opc && decide (k.sq ≠ 0) then s.endUncommitted k k.abortStat else s.complete k k.abortStat 0 0).raiseLine c 1
    else if decide (k.sq ≠ 0 ∧ (k.sqe.opc = 0x02 ∨ k.sqe.opc = 0x0C)) && !k.readOk then s.refuseCtx c 0xCB 5
    else if isWriteOpc k.sqe.opc && decide (k.sq ≠ 0) && !k.committed then s.endUncommitted k (Config.cplStatus data).toNat
    else
      let lba := decide (k.sqe.opc = 0x7D ∧ k.sq ≠ 0)
      let dw0 := if lba then k.slba % 2 ^ 32 else (Config.cplDw0 data).toNat
      let dw1 := if lba then k.slba / 2 ^ 32 else (Config.cplDw1 data).toNat
      s.complete k (Config.cplStatus data).toNat dw0 dw1

def execCompletionPost (c : CtxId) (data : DWord) (s : State) : Out :=
  .next (s.byCtx c (fun s => if s.nveUp then s.hqCpl c data else s.refuseCtx c 0xCB 5))

end Sys2Proof.Machine
end

