-- ==== Sys2Proof/Machine/Admin.lean ====
section
/-!
DEFINITION. Controllers and the admin commands (R308, R309, R313–R322, R336, R338, R388). Statuses and field places
that the spec leaves to NVMe are those of the NVMe standard (PRESUMED, log 19).
-/
namespace Sys2Proof.Machine

/-! ### Controller enable, reset and shutdown (R307, R313) -/

/-- The function stands: its port is out of reset, and of virtual functions the port has that many (HPT_SRIOV). -/
def State.fnOn (s : State) (n : Nat) : Bool :=
  let h := s.hpt.get (portOf n)
  decide (n < s.ctrlCount) && !h.inReset &&
    (decide (n % 64 = 0) || decide (n % 64 ≤ s.regF (lk (portOf n) R_HPT_SRIOV) 5 0))

/-- The host has enabled the virtual functions up to `f`: it does so in configuration space, for which the command table
has no row, so enabling the controller of one stands for it (DESIGN CHOICE, log 147). -/
def State.vfUse (s : State) (p : Side) (f : Nat) : State :=
  if f = 0 then s else s.modHpt p (fun h => { h with vfEn := true, numVfs := max h.numVfs f })

/-- CC.EN 0 to 1: the admin queues of the given sizes stand, and the controller is ready. -/
def execControllerEnable (n asqs acqs : Nat) (wrr : Bool) (s : State) : Out :=
  .next (
    if s.nveUp && s.fnOn n && !(s.ctrl n).en then
      (s.vfUse (portOf n) (n % 64)).modCtrl n (fun c =>
        { c with
          en := true, rdy := true, shst := 0, wrr := wrr
          sqs := [⟨0, clampN 2 4096 asqs, 0, 0, 0, 0⟩]
          cqs := [⟨0, clampN 2 4096 acqs, 0, []⟩] })
    else s)

/-- A command is destroyed with its queues: no completion is posted (R307), the cascade rule for zones applies. -/
def State.destroyCmd (s : State) (n : Nat) : State :=
  match s.cmd n with
  | none => s
  | some c =>
    if isWriteOpc c.sqe.opc && decide (c.sq ≠ 0) && c.checked && !c.committed then s.endUncommitted c 0 else s.complete c 0 0 0

/-- A controller is reset: its queues go first, then its commands; committed writes stay committed. -/
def State.ctrlReset (s : State) (n : Nat) : State :=
  let mine := (s.nve.cmds.filter (fun c => c.ctrl == n)).map (fun c => c.idx)
  let v := (s.ctrl n).saved
  let s := s.setCtrl n { Ctrl.reset (s.ctrl n).qalloc with features := v, saved := v }
  let s := s.modNve (fun v => { v with staging := v.staging.filter (fun x => x.ctrl != n) })
  mine.foldl State.destroyCmd s

def execControllerReset (n : Nat) (s : State) : Out :=
  .next (if (s.ctrl n).en then (s.ctrlReset n).setStat R_RST_CAUSE 9 else s)

/-- Commands in flight of a controller, held Asynchronous Event Requests apart. -/
def State.inFlight (s : State) (n : Nat) : Bool :=
  s.nve.cmds.any (fun c => c.ctrl == n && !(s.ctrl n).aers.contains c.idx)

def State.lastEnabled (s : State) (n : Nat) : Bool := s.nve.ctrls.all (fun p => p.1 == n || !p.2.en)

/-- CC.SHN = 01b; the last enabled controller waits for the window and compacts the Cairn. -/
def execNormalShutdown (n : Nat) (s : State) : Out :=
  .next (
    if (s.ctrl n).en = false then s
    else if s.inFlight n then s.modCtrl n (fun c => { c with shst := 1 })
    else if s.lastEnabled n = false then s.modCtrl n (fun c => { c with shst := 2 })
    else if s.win.pieces ≠ [] then s.modCtrl n (fun c => { c with shst := 1 })
    else (s.libCompact).modCtrl n (fun c => { c with shst := 2 }))

def execAbruptShutdown (n : Nat) (s : State) : Out :=
  .next (if (s.ctrl n).en then s.modCtrl n (fun c => { c with shst := 2 }) else s)

/-! ### Admin commands -/

/-- Opcodes served while the boot is LIMITED (R388). -/
def limitedOpc (o : Byte) : Bool := decide (o = 0x06 ∨ o = 0x02 ∨ o = 0x11 ∨ o = 0x10)

/-- An admin command in flight that may complete. -/
def State.adminCmd (s : State) (n : Nat) (opc : Byte) (f : State → Cmd → State) : State :=
  match s.cmd n with
  | none => s
  | some c =>
    if c.sqe.opc ≠ opc ∨ c.sq ≠ 0 ∨ s.cplRoom c = false ∨ (s.rcp.limited ∧ limitedOpc opc = false) then s else f s c

def State.bad (s : State) (c : Cmd) (typ code : Nat) : State := s.complete c (stat typ code) 0 0

def Cmd.qid (c : Cmd) : Nat := fld c.sqe.c10 15 0

/-- Queue size of a create command: 0's based. -/
def Cmd.qsize (c : Cmd) : Nat := fld c.sqe.c10 31 16 + 1

/-- The completions of a deleted submission queue; it waits for commands past their commit point. -/
def State.deleteSq (s : State) (c : Cmd) : State :=
  let k := s.ctrl c.ctrl
  if c.qid = 0 ∨ (k.sqOf c.qid).isNone then s.bad c 1 0x01
  else
    let mine := s.nve.cmds.filter (fun x => x.ctrl == c.ctrl && x.sq == c.qid)
    if mine.any (fun x => x.committed) then s
    else
      let s := mine.foldl
        (fun (s : State) x =>
          if isWriteOpc x.sqe.opc && x.checked then s.endUncommitted x (stat 0 0x08) else s.complete x (stat 0 0x08) 0 0) s
      let s := s.modCtrl c.ctrl (fun k => { k with sqs := k.sqs.filter (fun q => q.qid != c.qid) })
      s.completeOk c

def execDeleteIoSq (n : Nat) (s : State) : Out := .next (s.adminCmd n 0x00 State.deleteSq)

def State.createSq (s : State) (c : Cmd) : State :=
  let k := s.ctrl c.ctrl
  let cq := fld c.sqe.c11 31 16
  if c.qid = 0 ∨ k.qalloc < c.qid ∨ (k.sqOf c.qid).isSome then s.bad c 1 0x01
  else if c.qsize < 2 ∨ 4096 < c.qsize then s.bad c 1 0x02
  else if bit c.sqe.c11 0 = false then s.complete c stInvalidField 0 0
  else if cq = 0 ∨ (k.cqOf cq).isNone then s.bad c 1 0x00
  else
    let q : Sq := ⟨c.qid, c.qsize, 0, 0, cq, fld c.sqe.c11 2 1⟩
    (s.modCtrl c.ctrl (fun k => { k with sqs := k.sqs ++ [q] })).completeOk c

def execCreateIoSq (n : Nat) (s : State) : Out := .next (s.adminCmd n 0x01 State.createSq)

def State.deleteCq (s : State) (c : Cmd) : State :=
  let k := s.ctrl c.ctrl
  if c.qid = 0 ∨ (k.cqOf c.qid).isNone then s.bad c 1 0x01
  else if k.sqs.any (fun q => q.cqid == c.qid) then s.bad c 1 0x0C
  else
    let s := s.modCtrl c.ctrl (fun k => { k with cqs := k.cqs.filter (fun q => q.qid != c.qid) })
    (s.modNve (fun v => { v with staging := v.staging.filter (fun x => !(x.ctrl == c.ctrl && x.cqid == c.qid)) })).completeOk c

def execDeleteIoCq (n : Nat) (s : State) : Out := .next (s.adminCmd n 0x04 State.deleteCq)

def State.createCq (s : State) (c : Cmd) : State :=
  let k := s.ctrl c.ctrl
  if c.qid = 0 ∨ k.qalloc < c.qid ∨ (k.cqOf c.qid).isSome then s.bad c 1 0x01
  else if c.qsize < 2 ∨ 4096 < c.qsize then s.bad c 1 0x02
  else if bit c.sqe.c11 0 = false then s.complete c stInvalidField 0 0
  else (s.modCtrl c.ctrl (fun k => { k with cqs := k.cqs ++ [⟨c.qid, c.qsize, 0, []⟩] })).completeOk c

def execCreateIoCq (n : Nat) (s : State) : Out := .next (s.adminCmd n 0x05 State.createCq)

/-- Standard pages of NVMe, and the vendor pages of Table 14.6. -/
def logListed (lid : Nat) : Bool := decide (lid ≤ 6 ∨ lid = 0x80 ∨ lid = 0xBF ∨ (0xC0 ≤ lid ∧ lid ≤ 0xC3))

/-- A vendor event whose page is read with RAE = 0 is no longer masked (R318). -/
def Ctrl.unmask (c : Ctrl) (lid : Nat) : Ctrl :=
  { c with masked := c.masked.filter (fun k => !((lid == 0xC2 && k == 0) || (lid == 0xC1 && (k == 1 || k == 2)))) }

/-- Page C2h: its header, then its entries (Table 14.8). -/
def State.pageC2 (s : State) : List Byte :=
  bytesLE 8 (BitVec.ofNat 64 s.win.deferGen) ++ bytesLE 4 (BitVec.ofNat 32 s.win.deferred.length) ++ List.replicate 52 0 ++
    s.win.deferred.flatMap (fun d =>
      bytesLE 4 (BitVec.ofNat 32 d.ns) ++ bytesLE 8 (BitVec.ofNat 64 d.lba) ++ bytesLE 4 (BitVec.ofNat 32 d.count) ++
        bytesLE 8 d.asn ++ [BitVec.ofNat 8 d.cause] ++ List.replicate 7 0)

/-- Byte `i` of a log page. What the standard pages and page C1h hold has no layout in the spec, nor has anything past a
page's end (free values, PRESUMED, log 19). -/
def State.logByte (s : State) (lid i : Nat) : Option Byte :=
  match lid with
  | 0xC0 => s.pageC0 i
  | 0xC2 => s.pageC2[i]?
  | 0xC3 => s.evr.pageC3[i]?
  | _ => none

/-- Data goes back to the host: `n` bytes, a free value where the spec gives none. -/
def State.dataBack (s : State) (n : Nat) (f : Nat → Option Byte) : State :=
  let bs := (List.range n).map (fun k => (f k).getD (Config.freeValue 8 (s.freeCtr + k)))
  (s.modNve (fun v => { v with dataIn := bs })).freeBy n

/-- Page C0h: a transfer of byte 0 takes the header, as does the first transfer of all; a later one of the last byte
completes the read (R386, DESIGN CHOICE, log 153). -/
def State.recorderPage (s : State) (off n : Nat) : State :=
  let had := !s.evr.pageHead.isEmpty
  if off = 0 || !had then s.modEvr Evr.takeHeader
  else if off < 64 + 65536 * 64 ∧ 64 + 65536 * 64 ≤ off + n then s.modEvr (fun e => { e with readMark := e.pageNewest })
  else s

/-- The transfer of a Get Log Page: its offset and its length in bytes (NVMe's Dwords 10 to 13, PRESUMED, log 19). -/
def Cmd.logOff (c : Cmd) : Nat := c.sqe.c12.toNat + c.sqe.c13.toNat * 2 ^ 32

def Cmd.logLen (c : Cmd) : Nat := (fld c.sqe.c10 31 16 + fld c.sqe.c11 15 0 * 65536 + 1) * 4

def State.getLog (s : State) (c : Cmd) : State :=
  let lid := fld c.sqe.c10 7 0
  if logListed lid = false then s.complete c stInvalidField 0 0
  else if s.rcp.limited ∧ lid ≠ 0xC0 ∧ lid ≠ 0xC3 then s
  else
    let s := if bit c.sqe.c10 15 then s else s.modCtrl c.ctrl (fun k => k.unmask lid)
    let s := if lid = 0xC0 then s.recorderPage c.logOff c.logLen else s
    (s.dataBack c.logLen (fun k => s.logByte lid (c.logOff + k))).completeOk c

def execGetLogPage (n : Nat) (s : State) : Out := .next (s.adminCmd n 0x02 State.getLog)

/-- CNS values of Table 14.2. -/
def cnsListed (n : Nat) : Bool :=
  decide (n ≤ 3 ∨ n = 5 ∨ n = 6 ∨ n = 8 ∨ (0x10 ≤ n ∧ n ≤ 0x15) ∨ n = 0x1C)

/-- What Identify reports of Tables 14.3 and 14.5, at NVMe's places (PRESUMED, log 19): CNS 00h, the LBA formats 0 to 2
(metadata size, data size 2^12) and the atomic units; CNS 01h, MDTS; CNS 06h of the zoned command set, ZASL. -/
def idByte (cns csi i : Nat) : Option Byte :=
  if cns = 0 then
    if i = 25 then some 2
    else if [34, 36, 40, 44].contains i then some 0xFF
    else if [35, 37, 41, 45].contains i then some 1
    else if i = 42 ∨ i = 43 then some 0
    else if 128 ≤ i ∧ i < 140 then some ([0, 0, 12, 0, 8, 0, 12, 0, 16, 0, 12, 0].getD (i - 128) 0)
    else none
  else if cns = 1 ∧ i = 77 then some 9
  else if cns = 6 ∧ csi = 2 ∧ i = 0 then some 9
  else none

def State.identify (s : State) (c : Cmd) : State :=
  let cns := fld c.sqe.c10 7 0
  if cnsListed cns then (s.dataBack 4096 (idByte cns (fld c.sqe.c11 31 24))).completeOk c
  else s.complete c stInvalidField 0 0

def execIdentify (n : Nat) (s : State) : Out := .next (s.adminCmd n 0x06 State.identify)

/-! ### Abort (R336–R338) -/

/-- Commands that can be aborted (Table 15.7). -/
def abortable (c : Cmd) : Bool := if c.sq = 0 then decide (c.sqe.opc = 0x0C) else namesLbas c.sqe.opc

def highest : List Cmd → Option Cmd
  | [] => none
  | c :: t =>
    match highest t with
    | some d => if c.asn < d.asn then some d else some c
    | none => some c

def State.abortTarget (s : State) (a : Cmd) : Option Cmd :=
  highest (s.nve.cmds.filter (fun c =>
    c.ctrl == a.ctrl && decide (c.sq = fld a.sqe.c10 15 0 ∧ c.sqe.cid.toNat = fld a.sqe.c10 31 16 ∧ c.asn < a.asn)))

/-- Not aborted: bit 0 of Dword 0 is 1. -/
def State.notAborted (s : State) (a : Cmd) : State := (s.complete a stSuccess 1 0).bump R_NVE_ABORTCNT 15 0 1

/-- Aborts of the controller outstanding, this one included. -/
def State.abortsOut (s : State) (n : Nat) : Nat :=
  (s.nve.cmds.filter (fun c => c.ctrl == n && decide (c.sq = 0 ∧ c.sqe.opc = 0x08))).length

def State.abort (s : State) (a : Cmd) : State :=
  if a.checked then s
  else if 16 < s.abortsOut a.ctrl then s.bad a 1 0x03
  else
    match s.abortTarget a with
    | none => s.complete a stSuccess 1 0
    | some c =>
      if c.committed || c.abortReq || !abortable c then s.notAborted a
      else if c.sq = 0 then
        let s := s.modCtrl c.ctrl (fun k => { k with aers := k.aers.filter (fun i => i != c.idx) })
        s.complete { c with abortedBy := some a.idx } (stat 0 0x07) 0 0
      else
        let s := s.modCmd c.idx (fun k => { k with abortReq := true, abortStat := stat 0 0x07, abortedBy := some a.idx })
        s.modCmd a.idx (fun k => { k with checked := true })

def execAbort (n : Nat) (s : State) : Out := .next (s.adminCmd n 0x08 State.abort)

/-! ### Features (Table 14.4) -/

def featureListed (f : Nat) : Bool :=
  decide (f = 1 ∨ f = 2 ∨ f = 4 ∨ f = 5 ∨ f = 7 ∨ f = 8 ∨ f = 9 ∨ f = 0x0A ∨ f = 0x0B ∨ f = 0x0E ∨ (0x81 ≤ f ∧ f ≤ 0x83))

/-- Number of Queues: the lesser of the request and the allocation, 0's based, for both kinds. -/
def State.numQueues (s : State) (c : Cmd) : Nat :=
  let a := (s.ctrl c.ctrl).qalloc - 1
  min (fld c.sqe.c11 15 0) a + min (fld c.sqe.c11 31 16) a * 2 ^ 16

/-- A feature takes a value; with SV it is saved besides. -/
def Ctrl.putFeature (c : Ctrl) (sv : Bool) (f : Nat) (w : Word) : Ctrl :=
  let c := { c with features := sp (featureInit f) c.features f w }
  if sv then { c with saved := sp (featureInit f) c.saved f w } else c

/-- `hid` and `ts` are the data of Host Identifier and Timestamp. -/
def State.setFeature (s : State) (c : Cmd) (hid : BitVec 128) (ts : BitVec 48) : State :=
  let f := fld c.sqe.c10 7 0
  let sv := bit c.sqe.c10 31
  if featureListed f = false then s.complete c stInvalidField 0 0
  else
    match f with
    | 7 =>
      let v := s.numQueues c
      (s.modCtrl c.ctrl (fun k => k.putFeature sv 7 (BitVec.ofNat 32 v))).complete c stSuccess v 0
    | 0x0E =>
      let s := s.modNve (fun v => { v with timestamp := ts.toNat })
      let s := s.modEvr (fun e => { e with calStaged := BitVec.ofNat 32 ts.toNat })
      let s := s.calendarSet (BitVec.ofNat 32 (2 ^ 31 + c.ctrl * 2 ^ 24 + ts.toNat / 2 ^ 32))
      s.completeOk c
    | 0x81 =>
      if bit c.sqe.c11 0 then (s.modCtrl c.ctrl (fun k => { k with hostId := hid })).completeOk c
      else s.complete c stInvalidField 0 0
    | _ => (s.modCtrl c.ctrl (fun k => k.putFeature sv f c.sqe.c11)).completeOk c

def execSetFeatures (n : Nat) (hid : BitVec 128) (ts : BitVec 48) (s : State) : Out :=
  .next (s.adminCmd n 0x09 (fun s c => s.setFeature c hid ts))

/-- A feature by Select: 0 current, 1 default, 2 saved, 3 its capabilities (saveable and changeable). -/
def Ctrl.selected (c : Ctrl) (f sel : Nat) : Word :=
  match sel with
  | 1 => featureInit f
  | 2 => sg (featureInit f) c.saved f
  | 3 => 5#32
  | _ => c.feature f

def execGetFeatures (n : Nat) (s : State) : Out :=
  .next (s.adminCmd n 0x0A (fun s c =>
    let f := fld c.sqe.c10 7 0
    if featureListed f then s.complete c stSuccess ((s.ctrl c.ctrl).selected f (fld c.sqe.c10 10 8)).toNat 0
    else s.complete c stInvalidField 0 0))

/-! ### Asynchronous events (R318) -/

def execAsynchronousEventRequest (n : Nat) (s : State) : Out :=
  .next (s.adminCmd n 0x0C (fun s c =>
    if c.checked then s
    else if 16 ≤ (s.ctrl c.ctrl).aers.length then s.bad c 1 0x05
    else
      (s.modCmd n (fun k => { k with checked := true, ready := false })).modCtrl c.ctrl (fun k => { k with aers := k.aers ++ [n] })))

/-- Page of a vendor event. -/
def eventPage (k : Nat) : Nat := if k = 0 then 0xC2 else 0xC1

/-- The oldest event waiting completes the oldest request; its kind is then masked. -/
def execAsyncEventPost (n : Nat) (s : State) : Out :=
  .next (
    match (s.ctrl n).events, (s.ctrl n).aers with
    | k :: ks, a :: as_ =>
      (match s.cmd a with
       | none => s
       | some c =>
         if s.cplRoom c = false then s
         else
           let s := s.modCtrl n (fun x => { x with events := ks, aers := as_, masked := x.masked ++ [k] })
           s.complete c stSuccess (7 + (0xC0 + k) * 2 ^ 8 + eventPage k * 2 ^ 16) 0)
    | _, _ => s)

/-! ### Namespaces (R315) -/

def State.freeNs (s : State) : Option Nat := (List.range 128).find? (fun n => (s.ns n).isNone)

def State.convBlocks (s : State) : Nat :=
  ((List.range 128).map (fun n => if (s.ns n).isSome && !s.nsZoned n then s.nsSize n else 0)).sum

/-- A free band group for a new zone: an actuator with a free band slot that is not lost (DESIGN CHOICE, log 22). -/
def State.zoneSide (s : State) : Option Side :=
  (pickOf .actuator ((Side.all.filter (fun x => decide (0 < s.freeBands x) && !(s.redun.get x).lost)).map Side.idx)).map sideOf

/-- The entry of zone `z` of namespace `n`, bound to a fresh band group (Table 11.6). -/
def State.zoneEntry (s : State) (x : Side) (n z i b : Nat) : ZEntry :=
  { s.freshEntry x 1 b ((s.zent i).wgen) with w2 := BitVec.ofNat 64 (n * 2 ^ 57 + z * 2 ^ 40) }

/-- A zone is bound to a band group, at the actuator's default or target geometry (R241). -/
def State.bindZone (s : State) (n z : Nat) : State :=
  match s.zoneSide, s.freeEntry with
  | some x, some i =>
    match s.freeBand x with
    | some b => (s.putZent i (s.zoneEntry x n z i b)).bumpGen
    | none => s
  | _, _ => s

/-- The zones of a new namespace are bound in order, as long as entries and slots are free. -/
def State.bindZones (s : State) (n count : Nat) : State := (List.range count).foldl (fun (s : State) z => s.bindZone n z) s

def State.freeTotal (s : State) : Nat := s.freeBands .a + s.freeBands .b

/-- Band groups that the data of a new namespace needs, at the geometry of new bindings. -/
def State.groupsFor (s : State) (zoned : Bool) (size : Nat) : Nat :=
  let d := max 1 (min s.redun.a.dT s.redun.b.dT) * 16384
  if zoned then size / 262144 else (size + d - 1) / d

/-- `zoned`, `size` in blocks and `lbaf` are in the host's data structure. -/
def State.nsCreate (s : State) (c : Cmd) (zoned : Bool) (size lbaf : Nat) : State :=
  match s.freeNs with
  | none => s.bad c 1 0x16
  | some n =>
    if 2 < lbaf ∨ size = 0 ∨ (zoned ∧ size % 262144 ≠ 0) then s.complete c stInvalidField 0 0
    else if s.freeTotal < s.groupsFor zoned size ∨ (zoned = false ∧ 2 ^ 29 < s.convBlocks + size) then s.bad c 1 0x15
    else
      let s := s.setNs n (some ⟨size, [], ⟨0, none, [], 0, false⟩, 0⟩)
      let s := if zoned then s.bindZones n (size / 262144) else s
      let cfg := 2 ^ 31 + b2n zoned * 2 ^ 30 + lbaf * 2 ^ 28
      (s.putCfg n (BitVec.ofNat 32 cfg)).complete c stSuccess (n + 1) 0

/-- Every zone of a namespace is reset (R250). -/
def State.resetZones (s : State) (n : Nat) : State :=
  ((s.ztb.entries.filter (fun p => decide (p.2.use = 1 ∧ p.2.ns = n))).map (fun p => p.1)).foldl State.zoneReset s

/-- The data of a conventional namespace goes: its pieces leave the window, its map and staged copies are dropped. -/
def State.forgetConv (s : State) (n : Nat) : State :=
  if s.nsZoned n then s
  else
    let s := (s.win.pieces.filter (fun p => decide (p.ns = n))).foldl (fun (s : State) p => s.pieceOut p) s
    let s := s.unstage (s.win.staged.filter (fun c => decide (c.ns = n)))
    s.modWin (fun w => { w with map := w.map.filter (fun m => decide (m.ns ≠ n)) })

/-- Its data is gone: a zoned namespace's zones are reset. -/
def State.nsClear (s : State) (n : Nat) : State := (s.resetZones n).forgetConv n

/-- A deleted namespace: its data goes, its entries are freed and its pending reports discarded (R342). -/
def State.nsDelete (s : State) (n : Nat) : State :=
  let s := s.nsClear n
  let s := (s.ztb.entries.filter (fun p => decide (p.2.use = 1 ∧ p.2.ns = n))).foldl
    (fun (s : State) p => (s.putZent p.1 { p.2 with w0 := putFld p.2.w0 63 60 0 }).bumpGen) s
  let s := s.modWin (fun w => { w with reports := w.reports.filter (fun p => p.1 != n) })
  (s.setNs n none).modNve (fun v => { v with cfg := sp 0 v.cfg n 0 })

def State.nsManage (s : State) (c : Cmd) (zoned : Bool) (size lbaf : Nat) : State :=
  if c.ctrl % 64 ≠ 0 then s.bad c 0 0x01
  else
    match fld c.sqe.c10 3 0 with
    | 0 => s.nsCreate c zoned size lbaf
    | 1 =>
      if c.sqe.nsid = allNs then ((List.range 128).foldl (fun (s : State) n => if (s.ns n).isSome then s.nsDelete n else s) s).completeOk c
      else if c.sqe.nsid = 0 ∨ (s.ns c.ns).isNone then s.bad c 0 0x0B
      else (s.nsDelete c.ns).completeOk c
    | _ => s.complete c stInvalidField 0 0

def execNamespaceManagement (n : Nat) (zoned : Bool) (size lbaf : Nat) (s : State) : Out :=
  .next (s.adminCmd n 0x0D (fun s c => s.nsManage c zoned size lbaf))

/-- `cs` is the controller list in the host's data. -/
def State.nsAttach (s : State) (c : Cmd) (cs : List Nat) : State :=
  match (if c.sqe.nsid = 0 then none else s.ns c.ns) with
  | none => s.bad c 0 0x0B
  | some x =>
    if c.ctrl % 64 ≠ 0 then s.bad c 0 0x01
    else if cs.any (fun k => decide (s.ctrlCount ≤ k)) then s.bad c 1 0x1C
    else
      match fld c.sqe.c10 3 0 with
      | 0 =>
        if cs.any (fun k => x.attached.contains k) then s.bad c 1 0x18
        else (s.setNs c.ns (some { x with attached := x.attached ++ cs })).completeOk c
      | 1 =>
        if cs.any (fun k => !x.attached.contains k) then s.bad c 1 0x1A
        else (s.setNs c.ns (some { x with attached := x.attached.filter (fun k => !cs.contains k) })).completeOk c
      | _ => s.complete c stInvalidField 0 0

def execNamespaceAttachment (n : Nat) (cs : List Nat) (s : State) : Out :=
  .next (s.adminCmd n 0x15 (fun s c => s.nsAttach c cs))

/-! ### Firmware (R322) -/

/-- The slot whose image a commit writes: FS, or where it is 0 a slot not active (DESIGN CHOICE, log 8). -/
def State.commitSlot (s : State) (fs : Nat) : Nat :=
  if fs ≠ 0 then fs else (pickOf .firmware ([1, 2, 3].filter (fun k => k != s.nve.fwActive))).getD 1

/-- `ok` says that the signature verifies. A live activation needs both Ridges IN_SERVICE (R362, which the model reads
of action 011b alone: DEDUCED, log 149). -/
def State.fwCommit (s : State) (c : Cmd) (ok : Bool) : State :=
  let fs := fld c.sqe.c10 2 0
  let ca := fld c.sqe.c10 5 3
  if 3 < ca ∨ (ca = 3 ∧ s.rcp.limited) then s.complete c stInvalidField 0 0
  else if 3 < fs ∨ (ca = 2 ∧ fs = 0) then s.bad c 1 0x06
  else if ok = false ∨ (ca = 3 ∧ (s.ridgeSt .a ≠ .inService ∨ s.ridgeSt .b ≠ .inService)) then s.bad c 1 0x07
  else
    let k := s.commitSlot fs
    let fresh := decide (ca = 0 ∨ ca = 1) || (decide (ca = 3) && !s.nve.fwStage.isEmpty)
    let s := if fresh then s.modNve (fun v => { v with fwSlots := sp none v.fwSlots k (some v.fwStage), fwStage := [] }) else s
    let s := if ca = 1 ∨ ca = 2 then s.modNve (fun v => { v with fwNext := some k }) else s
    let s := if ca = 3 then s.modNve (fun v => { v with fwActive := k, fwNext := none }) else s
    s.completeOk c

def execFirmwareCommit (n : Nat) (ok : Bool) (s : State) : Out := .next (s.adminCmd n 0x10 (fun s c => s.fwCommit c ok))

/-- Granularity 4 KiB; NUMD and OFST count dwords. -/
def State.fwDownload (s : State) (c : Cmd) (data : List Byte) : State :=
  let n := (c.sqe.c10.toNat + 1) * 4
  let o := c.sqe.c11.toNat * 4
  if n % 4096 ≠ 0 ∨ o % 4096 ≠ 0 then s.complete c stInvalidField 0 0
  else
    let d := (data ++ List.replicate n 0).take n
    let old := s.nve.fwStage
    let new := (old ++ List.replicate (o - old.length) 0).take o ++ d ++ old.drop (o + n)
    (s.modNve (fun v => { v with fwStage := new })).completeOk c

def execFirmwareImageDownload (n : Nat) (data : List Byte) (s : State) : Out :=
  .next (s.adminCmd n 0x11 (fun s c => s.fwDownload c data))

/-! ### The other admin commands -/

def State.selfTestCmd (s : State) (c : Cmd) : State :=
  match fld c.sqe.c10 3 0 with
  | 1 => if s.nve.selfTest.isSome then s.bad c 1 0x1D else (s.modNve (fun v => { v with selfTest := some 1 })).completeOk c
  | 2 => if s.nve.selfTest.isSome then s.bad c 1 0x1D else (s.modNve (fun v => { v with selfTest := some 2 })).completeOk c
  | 15 => (s.modNve (fun v => { v with selfTest := none })).completeOk c
  | _ => s.complete c stInvalidField 0 0

def execDeviceSelfTest (n : Nat) (s : State) : Out := .next (s.adminCmd n 0x14 State.selfTestCmd)

/-- Queue pairs of a virtual function, through R308. -/
def State.virtMgmt (s : State) (c : Cmd) : State :=
  let act := fld c.sqe.c10 3 0
  let k := fld c.sqe.c10 31 16
  if c.ctrl % 64 ≠ 0 then s.bad c 0 0x01
  else if (act ≠ 1 ∧ act ≠ 7 ∧ act ≠ 8 ∧ act ≠ 9) ∨ s.ctrlCount ≤ k ∨ k % 64 = 0 then s.complete c stInvalidField 0 0
  else if act = 8 ∧ fld c.sqe.c10 10 8 = 0 then
    match s.allocQ k (fld c.sqe.c11 15 0) with
    | some t => t.completeOk c
    | none => (s.nveInt 2).bad c 1 0x21
  else s.completeOk c

def execVirtualizationManagement (n : Nat) (s : State) : Out := .next (s.adminCmd n 0x1C State.virtMgmt)

def execNvmeMiSend (n : Nat) (s : State) : Out := .next (s.adminCmd n 0x1D State.completeOk)

def execNvmeMiReceive (n : Nat) (s : State) : Out := .next (s.adminCmd n 0x1E State.completeOk)

def secpListed (p : Nat) : Bool := decide (p ≤ 2 ∨ p = 0xE8)

def State.security (s : State) (c : Cmd) : State :=
  if secpListed (fld c.sqe.c10 31 24) then s.completeOk c else s.complete c stInvalidField 0 0

def execSecuritySend (n : Nat) (s : State) : Out := .next (s.adminCmd n 0x81 State.security)

def execSecurityReceive (n : Nat) (s : State) : Out := .next (s.adminCmd n 0x82 State.security)

/-- Crypto erase of a namespace: its slot is zeroized, then its zones are reset (R320). -/
def State.cryptoErase (s : State) (n : Nat) : State :=
  let s :=
    match s.nsSlot n with
    | some k => s.slotZeroize k
    | none => s
  s.nsClear n

def State.slotBusy (s : State) (n : Nat) : Bool :=
  match s.nsSlot n with
  | some k => decide (s.slotUse k ≠ 0)
  | none => false

/-- NSIDs that a Format or Sanitize names. -/
def State.named (s : State) (c : Cmd) : List Nat :=
  if c.sqe.nsid = allNs ∨ c.sqe.opc = 0x84 then (List.range 128).filter (fun n => (s.ns n).isSome)
  else if c.sqe.nsid = 0 ∨ (s.ns c.ns).isNone then [] else [c.ns]

/-- A reserved band group of a use is bound, empty and in the default geometry, where an entry and a slot are free; a
CAIRN band group has D = members and no parity (R247, Table 11.5). -/
def State.bindReserved (s : State) (x : Side) (use : Nat) : State :=
  match s.freeEntry, s.freeBand x with
  | some i, some b => (s.putZent i (s.freshEntry x use b ((s.zent i).wgen))).bumpGen
  | _, _ => s

/-- Reserved band groups of a use are bound until there are `n`, as long as entries and slots are free. -/
def State.fillReserved (s : State) (x : Side) (use n : Nat) : State :=
  (List.range (n - ((s.actEnts x).filter (fun q => decide (q.2.use = use))).length)).foldl
    (fun (s : State) _ => s.bindReserved x use) s

/-- The reserved band groups of an actuator: the counts of the Drive Configuration Block, and at least the minimum. -/
def State.reservedGroups (s : State) (x : Side) : State :=
  let c := s.rcp.reserved.get x
  (((s.fillReserved x 3 (max 2 c.q0)).fillReserved x 4 (max 2 c.q1)).fillReserved x 5 (max 4 c.q2)).fillReserved x 6
    (max s.gcresMin c.q3)

/-- Format NVM: SES 0 or 2; it waits while a key slot is in use. A halted replay ends here (R290). -/
def State.formatOne (s : State) (c : Cmd) (n : Nat) : State :=
  let s := if fld c.sqe.c10 11 9 = 2 then s.cryptoErase n else s.nsClear n
  let v := putFld (setBit (clrBit (s.nscfg n) 24) 31) 29 28 (fld c.sqe.c10 3 0)
  let v := putFld v 27 26 (fld c.sqe.c10 7 5)
  s.putCfg n v

def State.format (s : State) (c : Cmd) : State :=
  let ses := fld c.sqe.c10 11 9
  let ns := s.named c
  if ns = [] then s.bad c 0 0x0B
  else if ses ≠ 0 ∧ ses ≠ 2 then s.complete c stInvalidField 0 0
  else if 2 < fld c.sqe.c10 3 0 then s.bad c 1 0x0A
  else if ses = 2 ∧ ns.any s.slotBusy then s
  else
    let s := ns.foldl (fun (s : State) n => s.formatOne c n) s
    let s := (s.reservedGroups .a).reservedGroups .b
    (s.modCrn (fun k => { k with halted := false })).completeOk c

def execFormatNvm (n : Nat) (s : State) : Out := .next (s.adminCmd n 0x80 State.format)

/-- Sanitize: Crypto Erase (action 4) only. -/
def State.sanitize (s : State) (c : Cmd) : State :=
  if fld c.sqe.c10 2 0 ≠ 4 then s.complete c stInvalidField 0 0
  else if (s.named c).any s.slotBusy then s
  else
    let s := (s.named c).foldl State.cryptoErase s
    (s.modNve (fun v => { v with sanitized := v.sanitized + 1 })).completeOk c

def execSanitize (n : Nat) (s : State) : Out := .next (s.adminCmd n 0x84 State.sanitize)

/-- Opcodes of Tables 14.2 and 14.3. -/
def adminOpc (o : Nat) : Bool :=
  [0x00, 0x01, 0x02, 0x04, 0x05, 0x06, 0x08, 0x09, 0x0A, 0x0C, 0x0D, 0x10, 0x11, 0x14, 0x15, 0x1C, 0x1D, 0x1E, 0x80, 0x81, 0x82, 0x84].contains o

def ioOpc (o : Nat) : Bool := [0x00, 0x01, 0x02, 0x08, 0x09, 0x0C, 0x0D, 0x0E, 0x11, 0x15, 0x79, 0x7A, 0x7D].contains o

/-- Any other opcode (R314). -/
def execInvalidOpcode (n : Nat) (s : State) : Out :=
  .next (
    match s.cmd n with
    | none => s
    | some c =>
      if (if c.sq = 0 then adminOpc c.sqe.opc.toNat else ioOpc c.sqe.opc.toNat) then s else s.complete c (stat 0 0x01) 0 0)

end Sys2Proof.Machine
end

