-- ==== Sys2Proof/Machine/HostPort.lean ====
section
/-!
DEFINITION. The PCIe ports (R304–R307) and the management interfaces: SMBus, NVMe-MI, SPDM (R321, R395, R456).
-/
namespace Sys2Proof.Machine

def State.hptInt (s : State) (p : Side) (i : Nat) : State := s.setStat (lk p R_HPT_INTSTAT) i

/-- HPT1 is inert in single ×4 mode (R304). -/
def State.portOn (s : State) (p : Side) : Bool := decide (p = .a) || !s.rcp.straps.portmode

def State.modRcpPerst (s : State) (p : Side) (v : Bool) : State := s.modRcp (fun r => { r with perst := r.perst.set p v })

/-- Every controller of a port is reset. -/
def State.portCtrls (s : State) (p : Side) : State :=
  (List.range 64).foldl (fun (s : State) f => if (s.ctrl (64 * p.idx + f)).en then s.ctrlReset (64 * p.idx + f) else s) s

def execPcieLinkDown (p : Side) (s : State) : Out :=
  .next (
    if s.portOn p && (s.hpt.get p).dlUp then
      ((s.modHpt p (fun h => { h with dlUp := false, speed := 0, width := 0, inL1 := false })).hptInt p 0).portCtrls p
    else s)

/-- A hot reset: all functions of the port, and with them SR-IOV. -/
def execHotReset (p : Side) (s : State) : Out :=
  .next (
    if s.portOn p && (s.hpt.get p).dlUp then
      (((s.modHpt p (fun h => { h with numVfs := 0, vfEn := false })).hptInt p 1).portCtrls p).setStat R_RST_CAUSE (7 + p.idx)
    else s)

/-- Registers of a port, back at their reset values. -/
def State.portRegs (s : State) (p : Side) : State :=
  s.keepRegs (fun e => decide (e.1 < lk p R_HPT_ID ∨ lk p R_HPT_ID + 0x1000 ≤ e.1))

/-- PERSTx_N falls: the port block, its lanes and its controllers. -/
def execPerst (p : Side) (s : State) : Out :=
  .next (
    if s.portOn p && !s.rcp.perst.get p then
      let n := min 65535 ((s.hpt.get p).perstCount + 1)
      let s := (((s.portCtrls p).portRegs p).modRcpPerst p true).setStat R_RST_CAUSE (5 + p.idx)
      s.modHpt p (fun _ => { Hpt.reset with perstCount := n })
    else s)

/-- Width and speed a link may train to: larger values of HPT_LINKCAP stand for the strap width and Gen5. -/
def State.capWidth (s : State) (p : Side) : Nat :=
  let strap := if s.rcp.straps.portmode then 4 else 2
  let v := s.regF (lk p R_HPT_LINKCAP) 6 4
  if strap < v ∨ v = 0 then strap else v

def State.capSpeed (s : State) (p : Side) : Nat :=
  let v := s.regF (lk p R_HPT_LINKCAP) 2 0
  if 5 < v ∨ v = 0 then 5 else v

/-- The link trains to a speed and a width, where the port is enabled and not held in Detect. -/
def State.linkTrain (s : State) (p : Side) (speed width : Nat) : State :=
  if s.regB (lk p R_HPT_CTL) 0 && !s.regB (lk p R_HPT_CTL) 3 && !(s.hpt.get p).inReset then
    (s.traffic p).modHpt p (fun h =>
      { h with dlUp := true, speed := clampN 1 (s.capSpeed p) speed, width := clampN 1 (s.capWidth p) width, inL1 := false })
  else s

/-- The boot ROM sets HPT_CTL.CFGRDY of a port out of reset (R306). -/
def State.cfgReady (s : State) (p : Side) : State :=
  if s.portOn p && !(s.hpt.get p).inReset then s.setStat (lk p R_HPT_CTL) 4 else s

/-- PERSTx_N rises: the port leaves reset and its link trains; once the boot has run, or where the image is pushed
through it, the ROM sets CFGRDY (R306, R403). -/
def execPerstRelease (p : Side) (speed width : Nat) (s : State) : Out :=
  .next (
    if s.portOn p && s.rcp.perst.get p && !s.rcp.asserted then
      let s := ((s.modRcpPerst p false).modHpt p (fun h => { h with inReset := false })).linkTrain p speed width
      if s.cry.cdi1.isSome || (decide (s.rcp.phase = .boot) && decide (s.rcp.straps.bootsrc = 1 + p.idx)) then s.cfgReady p
      else s
    else s)

/-- HPT_LINKCTL bit 0. -/
def State.retrain (s : State) (p : Side) (speed width : Nat) : State :=
  if (s.hpt.get p).dlUp then s.linkTrain p speed width else s

def State.hptAccess (s : State) (x : Accessor) (p : Side) (f : State → State) : State :=
  s.access x (lk p R_HPT_ID) true (fun s => if s.portOn p then f s else s)

def execRetrain (x : Accessor) (p : Side) (speed width : Nat) (s : State) : Out :=
  .next (s.hptAccess x p (fun s => s.retrain p speed width))

/-- HPT_LINKCTL bit 1: the presets in use afterwards are measured values (HPT_LANESTAT), read as free values. -/
def execReequalize (x : Accessor) (p : Side) (s : State) : Out := .next (s.hptAccess x p (fun s => s.freeNext))

/-- A Function Level Reset of one function. -/
def execFlr (p : Side) (f : BitVec 6) (s : State) : Out :=
  .next (if s.portOn p && !(s.hpt.get p).inReset then
      ((s.hptInt p 2).ctrlReset (64 * p.idx + f.toNat)).setStat R_RST_CAUSE (7 + p.idx)
    else s)

/-- A poisoned TLP with write data of command `n` (R307). -/
def execPoisonedTlp (p : Side) (n : Nat) (s : State) : Out :=
  .next (
    if s.portOn p then
      let s := ((s.traffic p).hptInt p 5).bump (lk p R_HPT_POISCNT) 31 0 1
      match s.cmd n with
      | some c =>
        if isWriteOpc c.sqe.opc && decide (c.sq ≠ 0 ∧ portOf c.ctrl = p) && c.checked && !c.committed then
          s.endUncommitted c (stat 0 0x04)
        else s
      | none => s
    else s)

/-! ### SMBus and SPDM -/

def State.answer (s : State) (r : MgmtReply) : State := s.modMgmt (fun m => { m with reply := some r })

/-- The basic management command answers at address 0x6A alone; its content is that of NVMe-MI (DESIGN CHOICE, log 23).
-/
def execNvmeMiBasicCommand (addr : BitVec 7) (s : State) : Out :=
  .next (
    if addr = 0x6A then ((s.answer (.basic (s.free 64))).modMgmt (fun m => { m with smbBusy := true })).freeNext else s)

/-- SMB_CLK has been low for 25 to 35 ms: the device releases the bus. -/
def execSmbusTimeout (s : State) : Out := .next (s.modMgmt (fun m => { m with smbBusy := false }))

def execGetVersion (s : State) : Out :=
  .next ((s.answer .version).modMgmt (fun m => { m with spdmVersion := true, spdmCaps := false, spdmAlgs := false }))

def execGetCapabilities (s : State) : Out :=
  .next (if s.mgmt.spdmVersion then (s.answer .capabilities).modMgmt (fun m => { m with spdmCaps := true }) else s.answer .unexpected)

/-- The requester offers P-384 and SHA-384, or the request is refused. -/
def execNegotiateAlgorithms (p384 sha384 : Bool) (s : State) : Out :=
  .next (
    if s.mgmt.spdmCaps = false then s.answer .unexpected
    else if p384 && sha384 then (s.answer .algorithms).modMgmt (fun m => { m with spdmAlgs := true })
    else s.answer .invalid)

/-- The chain of slot 0: Ehroth root, DeviceID, alias (R389). -/
def State.certChain (s : State) : List Byte := Config.rootChain ++ s.cry.cert

def State.spdm (s : State) (f : State → State) : State := if s.mgmt.spdmAlgs then f s else s.answer .unexpected

def execGetDigests (s : State) : Out := .next (s.spdm (fun s => s.answer (.digests (Config.sha384 s.certChain))))

def execGetCertificate (slot : BitVec 4) (s : State) : Out :=
  .next (s.spdm (fun s => if slot = 0 then s.answer (.certificate s.certChain) else s.answer .invalid))

/-- From a SPAN_START until its SEAL_SIG (R395). -/
def State.spanBusy (s : State) : Bool :=
  s.evr.spanOpen || s.evr.sealPend.isSome ||
    s.evr.intake.any (fun g => g.recs.any (fun r => decide (r.code = 0x01F0 ∨ r.code = 0x01F1)))

def execChallenge (nonce : BitVec 256) (s : State) : Out :=
  .next (s.spdm (fun s =>
    if s.spanBusy then s.answer .busy
    else
      match s.cry.aliasKey with
      | some k => s.answer (.challengeAuth (Config.ecSign k (Config.sha384 (bytesLE 32 nonce))))
      | none => s.answer .unexpected))

/-- Index 7 is H of the last sealed span; 0xFF asks for all eight (Table 18.9). -/
def State.measurement (s : State) (i : Nat) : BitVec 384 := if i = 7 then s.evr.lastH else sg 0 s.cry.digests i

def execGetMeasurements (idx : Byte) (s : State) : Out :=
  .next (s.spdm (fun s =>
    if s.spanBusy then s.answer .busy
    else if idx = 0xFF then s.answer (.measurements ((List.range 8).map (fun i => (i + 1, s.measurement (i + 1)))))
    else if 1 ≤ idx.toNat ∧ idx.toNat ≤ 8 then s.answer (.measurements [(idx.toNat, s.measurement idx.toNat)])
    else s.answer .invalid))

def execKeyExchange (s : State) : Out := .next (s.answer .unsupported)

end Sys2Proof.Machine
end

