-- ==== Sys2Proof/Machine/Package.lean ====
section
/-!
DEFINITION. Pins of the package: GPIO, PWRDIS, the test access port and the activity indicator (R434–R437).
-/
namespace Sys2Proof.Machine

def State.gpdUp (s : State) : Bool := s.blockUp R_GPD_ID

/-- The trace output holds the ball: GPIO7 to GPIO15 with their alternate function (R435). -/
def State.gpioTrace (s : State) (n : Nat) : Bool := decide (7 ≤ n) && s.regB R_GPD_ALT n && s.regB R_GPD_DBGCTL 2

/-- A ball used as an input: no output, no alternate function, no AVS_PWM (R435). -/
def State.gpioInput (s : State) (n : Nat) : Bool :=
  !s.gpioTrace n && !(decide (n = 0) && s.regB R_MON_CTL 4) && !s.regB R_GPD_DIR n

/-- GPD_IN: levels of the balls; a ball that carries an alternate function toggles, so it shows a free value. -/
def State.gpioLevel (s : State) (n : Nat) : Bool :=
  if s.gpioTrace n || (decide (n = 0) && s.regB R_MON_CTL 4) then bit (s.free 16) n
  else if s.regB R_GPD_DIR n then s.regB R_GPD_OUT n
  else bit s.pins.gpioIn n

/-- A filtered edge on an input that is sampled (R436). -/
def execGpioEdge (n : BitVec 4) (rising : Bool) (s : State) : Out :=
  .next (
    if s.gpdUp && s.gpioInput n.toNat && s.regB R_GPD_CTL 0 && (bit s.pins.gpioIn n.toNat != rising) then
      let s := s.modPins (fun p => { p with gpioIn := putBit p.gpioIn n.toNat rising })
      if s.regB R_GPD_CTL (16 + n.toNat) = rising then s.setStat R_GPD_INTSTAT n.toNat else s
    else s)

/-- The library's sequence of a normal shutdown: with the window drained, the Cairn is compacted, the heads are parked
and the spindle is stopped (R434, R313). -/
def State.libShutdown (s : State) : State :=
  if s.win.pieces ≠ [] then s
  else
    match s.mtr.sp with
    | .off => s
    | .fault => s
    | .brake => s
    | .gen => s
    | _ => s.libCompact.spWrite 2

/-- While the window still drains, the row comes again (DESIGN CHOICE, log 24). -/
def execPwrdisRise (s : State) : Out :=
  .next (
    if s.pins.pwrdis then s.libShutdown
    else ((s.modPins (fun p => { p with pwrdis := true })).setStat R_GPD_INTSTAT 16).libShutdown)

def execPwrdisFall (s : State) : Out :=
  .next (
    if s.pins.pwrdis then ((s.modPins (fun p => { p with pwrdis := false })).setStat R_GPD_INTSTAT 17).spWrite 1
    else s)

/-- The TAP's identification (R437). -/
def jtagId : Word := 0x19600A5D

/-- A TAP instruction: 0 BYPASS, 1 IDCODE, 2 and up a boundary-scan instruction. A scan captures the signal balls,
whose levels outside the block are free. -/
def execJtagInstruction (ir : Nat) (s : State) : Out :=
  .next (
    if ir = 1 then s.modPins (fun p => { p with jtagIr := 1, jtagDr := jtagId })
    else if ir = 0 ∨ s.regB R_GPD_DBGCTL 0 = false then s.modPins (fun p => { p with jtagIr := 0, jtagDr := 0 })
    else (s.modPins (fun p => { p with jtagIr := ir, jtagDr := s.free 32 })).freeNext)

/-- Media work runs for rebuild or scrub. -/
def State.mediaWork (s : State) : Bool :=
  s.redun.a.cur.isSome || s.redun.b.cur.isSome ||
    Side.all.any (fun r => (s.ste.get r).bufs.any (fun p => decide (p.2.mode = .scrub)))

def State.memberFailed (s : State) : Bool := s.anyFailed .a || s.anyFailed .b

/-- ACT_N blinks (Table 21.9). -/
def State.actBlinks (s : State) : Bool :=
  match s.regF R_GPD_ACTCFG 1 0 with
  | 2 => s.mediaWork
  | 3 => s.memberFailed
  | _ => false

/-- ACT_N is driven low. -/
def State.actLow (s : State) : Bool :=
  match s.regF R_GPD_ACTCFG 1 0 with
  | 0 => false
  | 1 => true
  | 2 => if s.mediaWork then s.pins.blinkLow else s.nve.cmds.any (fun c => decide (c.sq ≠ 0))
  | _ => s.memberFailed && s.pins.blinkLow

def execActNBlink (s : State) : Out :=
  .next (if s.actBlinks then s.modPins (fun p => { p with blinkLow := !p.blinkLow }) else s)

end Sys2Proof.Machine
end

