-- ==== Sys2Proof/Machine/Memory.lean ====
section
/-!
DEFINITION. Memory protection: the lattice code, the scrubbers, the leaky buckets and partial DRAM writes
(R364–R372). The content of the SRAMs is good in every part of the state; a word's errors are an operand.
-/
namespace Sys2Proof.Machine

/-! ### The lattice code (R364, R365) -/

def parityOf (l : List Bool) : Bool := l.foldl (fun a b => a != b) false

/-- Data bit 8r + c. -/
def latBit (d : DWord) (r c : Nat) : Bool := d.getLsbD (8 * r + c)

def rowParity (d : DWord) (r : Nat) : Bool := parityOf ((List.range 8).map (fun c => latBit d r c))

def colParity (d : DWord) (c : Nat) : Bool := parityOf ((List.range 8).map (fun r => latBit d r c))

/-- A byte from eight bits, bit 0 first. -/
def byteOf (f : Nat → Bool) : Byte := BitVec.ofNat 8 (((List.range 8).map (fun i => b2n (f i) * 2 ^ i)).sum)

/-- The 16 check bits of a word: column parities in [7:0], row parities in [15:8]. -/
def latticeCheck (d : DWord) : BitVec 16 := byteOf (rowParity d) ++ byteOf (colParity d)

inductive Lattice where
  | good
  | corrected
  | poison
  | uncorrectable
deriving DecidableEq, Repr

/-- The only bit of a syndrome. -/
def oneBit (s : Byte) : Option Nat :=
  match (List.range 8).filter (fun i => s.getLsbD i) with
  | [i] => some i
  | _ => none

/-- Table 17.1: the outcome, and the data delivered. -/
def latticeDecode (d : DWord) (chk : BitVec 16) : Lattice × DWord :=
  let syn := latticeCheck d ^^^ chk
  let sr : Byte := syn.extractLsb' 8 8
  let sc : Byte := syn.extractLsb' 0 8
  if sr = 0 ∧ sc = 0 then (.good, d)
  else if sr = 0xFF ∧ sc = 0xFF then (.poison, d)
  else
    match oneBit sr, oneBit sc with
    | some r, some c => (.corrected, d ^^^ bitMask 64 (8 * r + c))
    | some _, none => if sc = 0 then (.corrected, d) else (.uncorrectable, d)
    | none, some _ => if sr = 0 then (.corrected, d) else (.uncorrectable, d)
    | none, none => (.uncorrectable, d)

/-- A stored word read with some of its bits inverted. The poison marker has every check bit inverted (R372). -/
def latticeRead (d : DWord) (poisoned : Bool) (e : Flips) : Lattice × DWord :=
  let chk := latticeCheck d
  latticeDecode (d ^^^ e.1) ((if poisoned then ~~~chk else chk) ^^^ e.2)

/-! ### Error accounting (R371) -/

def State.scrubMem (s : State) (r : Side) (i : Nat) : ScrubMem := sget ScrubMem.init (s.mem.get r) i

def State.modScrub (s : State) (r : Side) (i : Nat) (f : ScrubMem → ScrubMem) : State :=
  s.modMem r (fun t => sput ScrubMem.init t i (f (s.scrubMem r i)))

/-- INC of a LEAKCFG word, 0 treated as 1. -/
def leakInc (w : Word) : Nat := atLeast1 (fld w 15 8)

def memSrc (r : Side) : BitVec 16 := srcBlock (rk r R_MEM_ID)

/-- `n` corrected errors. -/
def State.memCe (s : State) (r : Side) (i n : Nat) : State :=
  if n = 0 then s
  else
    let m := s.scrubMem r i
    let b := min 255 (m.bucket + n * leakInc m.leakcfg)
    let isOver := decide (fld m.leakcfg 7 0 < b) && !m.above
    let s := s.modScrub r i (fun m =>
      { m with
        ce := bumpFld m.ce 31 0 n
        errAddr := BitVec.ofNat 32 (m.pos % 2 ^ 28)
        bucket := b
        above := m.above || isOver })
    if isOver then (s.setStat (rk r R_MEM_INTSTAT) i).event 0x0601 (memSrc r) [] else s

def State.memUe (s : State) (r : Side) (i : Nat) : State :=
  let s := s.modScrub r i (fun m =>
    { m with ue := bumpFld m.ue 31 0 1, errAddr := BitVec.ofNat 32 (2 ^ 31 + m.pos % 2 ^ 28) })
  (s.setStat (rk r R_MEM_INTSTAT) 8).event 0x0602 (memSrc r) []

def State.dramCe (s : State) (x : Side) (line n : Nat) : State :=
  if n = 0 then s
  else
    let c := s.dram.get x
    let w := s.reg R_DRC_LEAKCFG
    let b := min 255 (c.bucket + n * leakInc w)
    let isOver := decide (fld w 7 0 < b) && !c.above
    let s := s.modDram x (fun c => { c with bucket := b, above := c.above || isOver })
    let s := s.bump (R_DRC_CECNT + 4 * x.idx) 31 0 n
    let s := s.setReg (R_DRC_ERRADDR + 4 * x.idx) (BitVec.ofNat 32 (line % 2 ^ 28))
    if isOver then (s.setStat R_DRC_INTSTAT x.idx).event 0x0601 (srcBlock R_DRC_ID) [] else s

def State.dramUe (s : State) (x : Side) (line : Nat) : State :=
  let s := s.bump (R_DRC_UECNT + 4 * x.idx) 31 0 1
  let s := s.setReg (R_DRC_ERRADDR + 4 * x.idx) (BitVec.ofNat 32 (2 ^ 31 + line % 2 ^ 28))
  (s.setStat R_DRC_INTSTAT 3).event 0x0602 (srcBlock R_DRC_ID) []

/-! ### Ridge memories (Table 17.2) -/

/-- Both Saddle halves are in service: each holds a copy of the Saddle memories. -/
def State.bothHalves (s : State) : Bool := decide (s.rlg.sfence = none) && s.domOn 90 && s.domOn 91

/-- A word that cannot be corrected: repaired from the other Cairn bank or Saddle half, otherwise marked. `part` names
the Saddle memory: 1 Zone Table, 2 Hedge. -/
def State.memRepair (s : State) (r : Side) (i part : Nat) : State :=
  let pos := (s.scrubMem r i).pos
  if i = 5 then
    if s.bankOk r.peer then (s.putBank r (pos / 8) (sg 0 (s.crn.banks.get r.peer) (pos / 8))).crnInt r 4
    else (s.putBank r (pos / 8) 0).modScrub r i (fun m => { m with marks := sp false m.marks pos true })
  else
    let s := if i = 6 ∧ part = 1 then s.setStat R_ZTB_INTSTAT 2 else if i = 6 ∧ part = 2 then s.hdgInt 3 else s
    if i = 6 ∧ s.bothHalves then s
    else s.modScrub r i (fun m => { m with marks := sp false m.marks pos true })

/-- Counters of the blocks whose memory it is: stripe banks, Cairn bank, Zone Table. -/
def State.memCount (s : State) (r : Side) (i part : Nat) (ue : Bool) : State :=
  match i with
  | 1 => if ue then (s.bump (rk r R_STE_BANKERR) 31 16 1).steInt r 6 else s.bump (rk r R_STE_BANKERR) 15 0 1
  | 5 => if ue then s.bump (rk r R_CRN_ERRCNT) 31 16 1 else s.bump (rk r R_CRN_ERRCNT) 15 0 1
  | 6 => if part = 1 ∧ !ue then s.bump R_ZTB_ERRCNT 31 0 1 else s
  | _ => s

/-- The scrubber's next word. `stored`: a functional write has stored the word since it was read. -/
def State.memStep (s : State) (r : Side) (i : Nat) (e : Flips) (stored : Bool) (part : Nat) : State :=
  let m := s.scrubMem r i
  let s :=
    match (latticeRead 0 (sg false m.marks m.pos) e).1 with
    | .good => s
    | .poison => s
    | .corrected => (s.memCe r i 1).memCount r i part false
    | .uncorrectable =>
      (fun (t : State) => if stored then t else t.memRepair r i part) ((s.memUe r i).memCount r i part true)
  if stored then s.modScrub r i (fun m => { m with marks := sp false m.marks m.pos false }) else s

/-! ### DRAM lines (R367–R369) -/

/-- A line's eight words as read: outcome and data of each. -/
def DramCh.lineRead (c : DramCh) (a : Nat) (es : List Flips) : List (Lattice × DWord) :=
  (List.range 8).map (fun k =>
    latticeRead (BitVec.ofNat 64 (ofBytesLE (c.read (a + 8 * k) 8))) (c.poisoned (a + 8 * k)) (lget (0, 0) es k))

/-- Write back what was read: the data of good and corrected words, the marker on the others. -/
def DramCh.lineWrite (c : DramCh) (a : Nat) (ws : List (Lattice × DWord)) : DramCh :=
  ((List.range 8).zip ws).foldl
    (fun c p =>
      let at_ := a + 8 * p.1
      if p.2.1 = .good ∨ p.2.1 = .corrected then c.write at_ (bytesLE 8 p.2.2) else c.setPoison (at_ / 8) true) c

/-- Read the line at `a` (a multiple of 64), count its errors, and write it back corrected, repaired from the other
channel, or marked. -/
def State.dramLine (s : State) (x : Side) (a : Nat) (es : List Flips) (stored : Bool) : State :=
  let ws := (s.dram.get x).lineRead a es
  let s := s.dramCe x (a / 64) (ws.filter (fun p => decide (p.1 = .corrected))).length
  let s := if ws.any (fun p => decide (p.1 = .uncorrectable)) then s.dramUe x (a / 64) else s
  let bad := ws.any (fun p => decide (p.1 = .uncorrectable ∨ p.1 = .poison))
  if stored then s
  else if bad && s.mirrored a && s.dramOk x.peer a 64 && !(s.dram.get x.peer).anyPoison a 64 then
    let bs := (s.dram.get x.peer).read a 64
    (s.modDram x (fun c => c.write a bs)).setStat R_DRC_INTSTAT 2
  else s.modDram x (fun c => c.lineWrite a ws)

/-! ### Rows -/

def State.scrubOn (s : State) (m : MemRef) : Bool :=
  match m with
  | .ridge r i => decide (i ≤ 6) && s.regB (rk r R_MEM_CTL) i && decide (fld (s.scrubMem r i).scrcfg 19 0 ≠ 0)
  | .dram x => s.chanUp x && s.regB R_DRC_CTL (4 + x.idx) && decide (s.regF (R_DRC_SCRCFG + 4 * x.idx) 19 0 ≠ 0)

/-- `last`: the word is the last of a Ridge memory; a channel ends at DSIZE. -/
def execMemoryScrubStep (m : MemRef) (es : List Flips) (stored last : Bool) (part : Nat) (s : State) : Out :=
  .next (
    if s.scrubOn m = false then s
    else
      match m with
      | .ridge r i =>
        (s.memStep r i (lget (0, 0) es 0) stored part).modScrub r i (fun m => { m with pos := if last then 0 else m.pos + 1 })
      | .dram x =>
        let p := (s.dram.get x).pos
        (s.dramLine x (64 * p) es stored).modDram x (fun c => { c with pos := if s.dsize x * 16384 ≤ p + 1 then 0 else p + 1 }))

/-- A bucket at 0 lets its bit be set again (R371). -/
def execBucketLeak (m : MemRef) (s : State) : Out :=
  .next (
    match m with
    | .ridge r i =>
      if i ≤ 6 then s.modScrub r i (fun m => { m with bucket := m.bucket - 1, above := m.above && decide (1 < m.bucket) }) else s
    | .dram x => s.modDram x (fun c => { c with bucket := c.bucket - 1, above := c.above && decide (1 < c.bucket) }))

/-- A write of less than a line (R368); at or above DSIZE it has no effect (R367). -/
def execDramPartialWrite (x : Side) (addr : BitVec 48) (data : List Byte) (es : List Flips) (s : State) : Out :=
  .next (
    let a := addr.toNat
    if data.length ≠ 0 ∧ a % 64 + data.length < 65 ∧ s.dramOk x a data.length then
      (s.dramLine x (a / 64 * 64) es false).dramWrite x a data
    else s)

end Sys2Proof.Machine
end

