-- ==== Sys2Proof/Machine/Fence.lean ====
section
/-!
DEFINITION. Context faults, fencing, the reset of a Ridge, adoption of contexts and leases, takeover, switch,
hand-back and rejoin (R42–R48, R353–R363, R398).
-/
namespace Sys2Proof.Machine

/-! ### Contexts -/

/-- The context of the peer Ridge that stands by for this one, or that this one stands by for (R42, R357). -/
def mateOf (c : CtxId) : CtxId := ⟨c.ridge.peer, c.spur, quadOf (c.no.idx + 2)⟩

def ridgeCtxs (r : Side) : List CtxId := SpurId.all.flatMap (fun sp => Quad.all.map (fun q => ⟨r, sp, q⟩))

def State.modCtxs (s : State) (cs : List CtxId) (f : Ctx → Ctx) : State := cs.foldl (fun (s : State) c => s.modCtx c f) s

/-- CST_CTL.IMGTAG of a Ridge. -/
def State.imgtag (s : State) (r : Side) : Byte := BitVec.ofNat 8 (s.regF (rk r R_CST_CTL) 15 8)

/-- The context starts from a snapshot (R35): its registers and its restart address. -/
def Ctx.enter (x : Ctx) (sn : Snapshot) : Ctx :=
  { x with
    st := .run
    pc := sn.restart
    regs := sn.regs
    flags := sn.flags
    stack := sn.stack
    lcnt := sn.lcnt
    snap := some sn
    segWarned := false
    hold := false
    urgentDepth := none
    deferDepths := sn.defers
    wait := none
    reads := []
    wrote := []
    stopReq := false
    stepReq := false
    ackStall := false
    giving := none }

def Ctx.inHandler (x : Ctx) : Bool := x.urgentDepth.isSome || !x.deferDepths.isEmpty

/-! ### Fences (R353–R355, R363) -/

def State.fenceCount (s : State) : Nat := min 65535 (s.regF R_RLG_FENCE 15 0 + 1)

/-- RST_CAUSE: bits 10 and 11 for the watchdogs, 12 and 13 for mismatches (Table 19.1). -/
def State.fenceCause (s : State) (r : Side) (cause : Nat) : State :=
  if cause = 4 then s.setStat R_RST_CAUSE (10 + r.idx)
  else if cause ≤ 3 then s.setStat R_RST_CAUSE (12 + r.idx)
  else s

def State.setRidge (s : State) (r : Side) (st : RidgeState) : State := s.modCore r (fun c => { c with st := st })

def State.selfRefresh (s : State) : State :=
  (s.modDram .a (fun c => { c with selfRefresh := true })).modDram .b (fun c => { c with selfRefresh := true })

/-- The last Ridge in service is fenced (R363): gates low, DRAM in self-refresh, event 0x0015. -/
def State.safeStop (s : State) : State :=
  let s := Quad.all.foldl (fun (s : State) t => (s.forceLow t false).flushAeq t) s
  s.selfRefresh.event 0x0015 (srcBlock R_RLG_ID) []

/-- Snapshots to a Ridge that no longer answers are not waited for (R42). -/
def Ctx.unmirror (x : Ctx) : Ctx := { x with unacked := 0, acks := 0, ackStall := false }

/-- A switch in progress ends without a move. -/
def State.dropSwitch (s : State) : State :=
  ((s.modRlg (fun g => { g with switching := none })).modCtxs (ridgeCtxs .a ++ ridgeCtxs .b) (fun x => { x with giving := none }))

/-- The Saddle half of a Ridge is fenced; its DRAM channel goes with it (R354, R358). -/
def State.fenceHalf (s : State) (r : Side) : State := s.modRlg (fun g => { g with sfence := some r, singleWin := true })

/-- A fence (R353, R355): the cause is latched, event 0x0010 is written, the write and assist gates of the Ridge's
streams fall, its Cairn bank is lost, and with cause 3 its Saddle half is fenced with it. A Ridge held already only
shows the cause in RST_CAUSE (R397). -/
def State.fence (s : State) (r : Side) (cause : Nat) : State :=
  if s.ridgeLive r = false then s.fenceCause r cause
  else
    let was := s.ridgeSt r
    let s := s.setReg R_RLG_FENCE (BitVec.ofNat 32 (2 ^ 31 + r.idx * 2 ^ 24 + cause * 2 ^ 16 + s.fenceCount))
    let s := (((s.rlgInt 0).event 0x0010 (srcBlock R_RLG_ID) []).fenceCause r cause).setRidge r .fenced
    let s := Quad.all.foldl (fun (s : State) t => if s.owns r t then s.forceLow t true else s) s
    let s := (s.crnLose r).calFence r
    let s := s.dropSwitch.modCtxs (ridgeCtxs r.peer) Ctx.unmirror
    let s := if cause = 3 then s.fenceHalf r else s
    if was ≠ .inService then s
    else if s.ridgeSt r.peer = .inService then s.modRlg (fun g => { g with tkDue := some r })
    else s.safeStop

/-- A cause of Table 16.4 that stands. -/
def State.fenceHolds (s : State) (r : Side) (cause : Nat) : Bool :=
  match cause with
  | 1 => true
  | 2 => true
  | 3 => true
  | 4 => true
  | 5 => s.regB (rk r R_SPU_GCTL) 4
  | 6 => s.regB (rk r R_SPU_GCTL) 8
  | _ => false

def execFence (r : Side) (cause : Nat) (s : State) : Out :=
  .next (if s.fenceHolds r cause then s.fence r cause else s)

/-- The last Ridge in service (R362): its peer is fenced, in reset, self-testing, in STANDBY or quiesced. -/
def State.lastRidge (s : State) (r : Side) : Bool := decide (s.ridgeSt r = .inService ∧ s.ridgeSt r.peer ≠ .inService)

def execLastRidgeFence (r : Side) (cause : Nat) (s : State) : Out :=
  .next (if s.lastRidge r && s.fenceHolds r cause then s.fence r cause else s)

/-- SPU_LSERR keeps the Spur of the first mismatch (Table 2.6). -/
def execLockstepMismatch (r : Side) (sp : SpurId) (s : State) : Out :=
  .next (
    if s.ridgeLive r = false then s.fenceCause r 1
    else
      let k := rk r R_SPU_LSERR
      let s := if s.regB k 8 then s else s.setReg k (BitVec.ofNat 32 (256 + sp.idx))
      s.fence r 1)

/-- The half chosen after a mismatch of the Saddle halves (R354); which one with no spindle lease held is open
(DESIGN CHOICE, log 25). -/
def State.saddleHalf (s : State) (aErr bErr : Bool) : Side :=
  if aErr && !bErr then .a else if bErr && !aErr then .b else (s.rlg.spindle.getD (if Config.fencedHalfIsA then .b else .a)).peer

def execDuplicateMismatch (k : DupKind) (s : State) : Out :=
  .next (
    match k with
    | .cen r => s.fence r 2
    | .ste r buf =>
      if s.ridgeLive r then (s.setReg (rk r R_STE_DUPSTAT) (BitVec.ofNat 32 (2 ^ 31 + buf % 64))).fence r 2
      else s.fenceCause r 2
    | .saddle aErr bErr =>
      let r := s.saddleHalf aErr bErr
      if s.rlg.sfence.isSome then s else if s.ridgeLive r then s.fence r 3 else s.fenceHalf r)

def execTestFence (x : Accessor) (s : State) : Out :=
  .next (s.access x R_RLG_ID true (fun s => if s.fenceHolds x.ridge 6 then s.fence x.ridge 6 else s.rlgInt 5))

def execLedgerCmdIgnored (x : Accessor) (data : Word) (s : State) : Out :=
  .next (s.access x R_RLG_ID true (fun s => if 1 ≤ fld data 31 28 ∧ fld data 31 28 ≤ 4 then s else s.rlgInt 5))

/-! ### Context faults (R46–R48) -/

/-- Causes of Table 2.5 by their bits of SPU_FLT. -/
structure FaultSet where
  illseq : Bool
  illalu : Bool
  nidemnc : Bool
  nidemreq : Bool
  fetch : Bool
  fetchue : Bool
  stack : Bool
  portto : Bool
deriving DecidableEq, Repr

def FaultSet.none : FaultSet := ⟨false, false, false, false, false, false, false, false⟩

def FaultSet.any (f : FaultSet) : Bool :=
  f.illseq || f.illalu || f.nidemnc || f.nidemreq || f.fetch || f.fetchue || f.stack || f.portto

def FaultSet.bits (f : FaultSet) : Nat :=
  b2n f.illseq + 2 * b2n f.illalu + 4 * b2n f.nidemnc + 8 * b2n f.nidemreq + 16 * b2n f.fetch + 32 * b2n f.fetchue +
    64 * b2n f.stack + 128 * b2n f.portto

/-- A context takes the faults of the word at `addr`: it enters FAULT with its snapshot kept, the causes and the address
are latched, line 15 follows SPU_INTEN, and FLTFENCE fences the Ridge. Port reads of earlier words stay outstanding
(R22). -/
def State.ctxFault (s : State) (c : CtxId) (addr : CsAddr) (f : FaultSet) : State :=
  let x := s.ctx c
  let bits := f.bits + 256 * b2n x.inHandler
  let k := rk c.ridge (R_SPU_FLT + 4 * c.spur.idx)
  let s := s.modReg k (fun w => putFld (w ||| BitVec.ofNat 32 bits) 31 30 c.no.idx)
  let s := s.setReg (rk c.ridge (R_SPU_FLTADDR + 4 * c.spur.idx)) ((addr.setWidth 19).setWidth 32)
  let s := s.modCtx c (fun x =>
    { x with
      st := .fault
      wait := Option.none
      stopReq := false
      stepReq := false
      urgentDepth := Option.none
      deferDepths := [] })
  let s := s.spuInt c.ridge 0
  if s.regB (rk c.ridge R_SPU_GCTL) 4 then s.fence c.ridge 5 else s

/-! ### ADOPT (R43, R44, R361) -/

/-- A context takes ADOPT: it holds nothing until a snapshot arrives. -/
def Ctx.toAdopt (x : Ctx) : Ctx :=
  { x with
    st := .adopt
    snap := none
    held := none
    adopted := false
    heldCmd := none
    creditWait := none
    wait := none
    reads := []
    wrote := []
    urgentDepth := none
    deferDepths := []
    hold := false
    giving := none
    served := []
    unacked := 0
    acks := 0
    ackStall := false }

/-- Contexts 2 and 3 in IDLE enter ADOPT while both Ridges are IN_SERVICE. -/
def State.adoptEntry (s : State) : State :=
  if s.ridgeSt .a = .inService ∧ s.ridgeSt .b = .inService then
    ((ridgeCtxs .a ++ ridgeCtxs .b).filter (fun c => decide (2 ≤ c.no.idx) && decide ((s.ctx c).st = .idle))).foldl
      (fun (s : State) c => s.modCtx c Ctx.toAdopt) s
  else s

/-- The newest snapshot that a context has received or that is on its way to it. -/
def Ctx.newestHeld (x : Ctx) : Option MirrorMsg :=
  match x.inbox.getLast? with
  | some m => some m
  | none => x.held

/-- An ADOPT context leaves ADOPT (R44); it goes on with the CSN and the answers kept for its mate (R40). A REDIRECT
with no vector takes FETCH with no word fetched: SPU_FLTADDR shows the snapshot's restart address (DESIGN CHOICE, log
109). -/
def State.adopt (s : State) (d : CtxId) : State :=
  let x := s.ctx d
  if x.st ≠ .adopt then s
  else
    match x.newestHeld with
    | none => s.modCtx d (fun x => { x with st := .idle, inbox := [] })
    | some m =>
      let y := s.ctx (mateOf d)
      let same := decide (m.imgtag = s.imgtag d.ridge)
      let sn := m.snap
      let base : Ctx :=
        { x with csn := m.csn, adopted := true, held := none, inbox := [], served := y.served, heldCmd := y.heldCmd }
      if same && decide (sn.rclass.toNat < 2) then
        let z := base.enter sn
        s.setCtx d (if sn.rclass = 1 then z.raise 0 else z)
      else
        let regs := if same then sn.regs else sp 0 (sp 0 sn.regs 63 (sn.restart.setWidth 64)) 62 (sn.rclass.setWidth 64)
        match x.adoptVec with
        | some v => s.setCtx d (base.enter { sn with regs := regs, restart := v })
        | none =>
          (s.setCtx d { (base.enter { sn with regs := regs }) with st := .adopt }).ctxFault d sn.restart
            { FaultSet.none with fetch := true }

/-! ### Leases (R357) -/

/-- Resources of the Saddle, whose leases pass to the adopter. -/
def Lease.saddle (l : Lease) : Bool :=
  decide (l.pool ≠ 0 ∧ l.pool ≠ 5) && !(decide (l.pool = 9) && decide (l.inst < 2))

/-- A revoked lease: its credit returns. -/
def Ledger.revoke (g : Ledger) (l : Lease) : Ledger :=
  { (g.unuse l.pool (leasePoolInst l) l.units) with leases := g.leases.filter (fun x => x.num != l.num) }

/-- What becomes of a lease of a giving context: `took` says whether its mate has adopted. -/
def Ledger.moveLease (g : Ledger) (took : CtxId → Bool) (cs : List CtxId) (l : Lease) : Ledger :=
  match l.owner with
  | .cmd _ => g
  | .ctx c =>
    if cs.contains c = false then g
    else if l.saddle && took c then
      { g with leases := lmod (fun x => x.num == l.num) (fun x => { x with owner := .ctx (mateOf c) }) g.leases }
    else g.revoke l

def State.moveLeases (s : State) (cs : List CtxId) : State :=
  let took (c : CtxId) : Bool := (s.ctx (mateOf c)).adopted
  let s1 := s.modRlg (fun g => s.rlg.leases.foldl (fun g l => g.moveLease took cs l) g)
  let re (c : CtxId) : CtxId := if cs.contains c && took c then mateOf c else c
  let s2 := s1.modNve (fun n => { n with cmds := n.cmds.map (fun k => { k with holder := k.holder.map re }) })
  s2.modHdg (fun h => { h with blocked := h.blocked.map (fun p => (p.1, p.2.map re)) })

/-- The actuator units named move to Ridge `r`; their AEQs are flushed and their outputs driven at once (Table 16.5,
steps 4 and 5). -/
def State.moveUnits (s : State) (r : Side) (units : List Side) (spindle : Bool) : State :=
  let s := s.modRlg (fun g =>
    { g with
      unit := units.foldl (fun u x => u.set x (some r)) g.unit
      spindle := if spindle then some r else g.spindle })
  let s := (Quad.all.filter (fun t => units.contains t.act)).foldl (fun (s : State) t => s.flushAeq t) s
  let s := units.foldl (fun (s : State) x => s.adoptOutputs r (some x)) s
  if spindle then s.adoptOutputs r none else s

/-! ### Takeover (R356) -/

def State.unitsOf (s : State) (r : Side) : List Side := Side.all.filter (fun x => decide (s.rlg.unit.get x = some r))

/-- Ridge `r` takes the work of its fenced peer; `t6` and `t8` are the times of steps 6 and 8 in 0.1 µs. -/
def State.takeover (s : State) (r : Side) (t6 t8 : BitVec 16) : State :=
  let s := s.moveUnits r (s.unitsOf r.peer) (decide (s.rlg.spindle = some r.peer))
  let s := (ridgeCtxs r).foldl (fun (s : State) d => s.adopt d) s
  let s := (s.moveLeases (ridgeCtxs r.peer)).modCtxs (ridgeCtxs r.peer)
    (fun x => { x with served := [], heldCmd := none, creditWait := none })
  let s := ((s.setReg R_RLG_TKTIME (t8 ++ t6)).resumeMove .a).resumeMove .b
  (s.modRlg (fun g => { g with tkDue := none })).rlgInt 1

def execTakeover (r : Side) (t6 t8 : BitVec 16) (s : State) : Out :=
  .next (if s.rlg.tkDue = some r.peer ∧ s.ridgeSt r = .inService then s.takeover r t6 t8 else s)

/-! ### Switch and hand-back (R360) -/

/-- Units and contexts that a SWITCH (work 0) or HANDBACK of Ridge `g` gives. Contexts 0 and 1 run the Ridge's own
actuator, 2 and 3 the adopted work of the other. -/
def givenUnits (g : Side) (work : Nat) : List Side :=
  match work with
  | 1 => [.a]
  | 2 => [.b]
  | 3 => [.a, .b]
  | _ => [g, g.peer]

def State.givers (s : State) (g : Side) (work : Nat) : List CtxId :=
  let us := givenUnits g work
  (ridgeCtxs g).filter (fun c =>
    decide ((s.ctx c).st ≠ .adopt) && (if c.no.idx < 2 then us.contains g else us.contains g.peer))

/-- Stopped at once: IDLE, WAIT, HALT and FAULT. -/
def CtxState.still (x : CtxState) : Bool :=
  match x with
  | .idle => true
  | .wait => true
  | .halt => true
  | .fault => true
  | _ => false

/-- The moved streams have no gate active. -/
def State.gatesIdle (s : State) (units : List Side) : Bool :=
  Quad.all.all (fun t => !units.contains t.act || (!(s.tl t).wg && !(s.tl t).rg && !(s.tl t).ag))

def State.setQuiesced (s : State) (r : Side) (q : Bool) : State := s.modCore r (fun c => { c with quiesced := q })

/-- The work moves once every giving context has stopped and no gate is active: the peer adopts it, the leases move, the
givers enter ADOPT, and a Ridge that has given everything is quiesced. The peer, which has work again, is not (R28). -/
def State.trySwitch (s : State) : State :=
  match s.rlg.switching with
  | none => s
  | some (g, work) =>
    let cs := s.givers g work
    let us := (givenUnits g work).filter (fun x => decide (s.rlg.unit.get x = some g))
    if cs.all (fun c => decide ((s.ctx c).giving = some true)) && s.gatesIdle us then
      let all := decide (work = 0 ∨ work = 3)
      let s := s.moveUnits g.peer us (all && decide (s.rlg.spindle = some g))
      let s := cs.foldl (fun (s : State) c => s.adopt (mateOf c)) s
      let s := (s.moveLeases cs).modCtxs cs Ctx.toAdopt
      let s := s.modRlg (fun l => { l with switching := none })
      let s := s.setQuiesced g.peer false
      if all then (s.setRidge g .quiesced).setQuiesced g true else s
    else s

/-- A context of the giver stops at once, or is told by line 0 and stops after its next COMMIT (Table 2.3, R360; which
contexts line 0 reaches at a hand-back or a quiesce: DESIGN CHOICE, log 110). -/
def Ctx.give (x : Ctx) : Ctx :=
  if x.st.still then { x with giving := some true } else { x.raise 0 with giving := some false }

def State.startSwitch (s : State) (g : Side) (work : Nat) : State :=
  let cs := s.givers g work
  let s := s.modCtxs cs Ctx.give
  (s.modRlg (fun l => { l with switching := some (g, work) })).trySwitch

def State.bothInService (s : State) : Bool := decide (s.ridgeSt .a = .inService ∧ s.ridgeSt .b = .inService)

/-- A SWITCH in progress comes again when what it waits for may have ended (DESIGN CHOICE, log 26). -/
def State.switchCmd (s : State) (r : Side) : State :=
  match s.rlg.switching with
  | some p => if p = (r, 0) then s.trySwitch else s.rlgInt 5
  | none => if s.bothInService then s.startSwitch r 0 else s.rlgInt 5

def execSwitch (r : Side) (s : State) : Out := .next (if s.ridgeLive r && s.rlgUp then s.switchCmd r else s)

def State.handback (s : State) (r : Side) (work : Nat) : State :=
  match s.rlg.switching with
  | some p => if p = (r, work) ∧ work ≠ 0 then s.trySwitch else s.rlgInt 5
  | none =>
    if s.bothInService && decide (s.rlg.unit = ⟨some r, some r⟩ ∧ work ≠ 0) then s.startSwitch r work else s.rlgInt 5

def execHandback (r : Side) (work : BitVec 2) (s : State) : Out :=
  .next (if s.ridgeLive r && s.rlgUp then s.handback r work.toNat else s)

/-- SWTO passes with the context not stopped: it is stopped where it stands, or with different images the switch is
abandoned. -/
def execSwitchTimeout (c : CtxId) (s : State) : Out :=
  .next (
    if s.rlg.switching.isSome && decide ((s.ctx c).giving = some false) then
      if s.imgtag .a = s.imgtag .b then (s.modCtx c (fun x => { x with giving := some true })).trySwitch
      else (s.dropSwitch.rlgInt 3).event 0x0014 (srcBlock R_RLG_ID) []
    else s)

/-! ### Rejoin (R359, R43) -/

/-- May send snapshots to the peer (R42). -/
def State.mirrorOn (s : State) (r : Side) : Bool :=
  s.regB (rk r R_SPU_GCTL) 0 && decide (s.ridgeSt r.peer = .inService ∨ s.ridgeSt r.peer = .quiesced)

/-- A context's work is mirrored: contexts 0 and 1, and 2 and 3 while they run adopted work. -/
def State.mirrors (s : State) (c : CtxId) : Bool :=
  s.mirrorOn c.ridge && (decide (c.no.idx < 2) || (s.ctx c).adopted)

/-- The latest snapshot of a context goes to the peer. -/
def State.sendSnap (s : State) (c : CtxId) : State :=
  match (s.ctx c).snap with
  | none => s
  | some sn =>
    if s.mirrors c then
      let m : MirrorMsg := ⟨sn, (s.ctx c).csn, s.imgtag c.ridge⟩
      (s.modCtx c (fun x => { x with unacked := x.unacked + 1 })).modCtx (mateOf c) (fun x => { x with inbox := x.inbox ++ [m] })
    else s

/-- Working: the context has a routine. -/
def CtxState.working (x : CtxState) : Bool :=
  match x with
  | .run => true
  | .wait => true
  | .handler => true
  | _ => false

/-- The fenced Saddle half of a Ridge comes back with it: the ROM library copies the window into its DRAM channel from
the other one, and then SINGLE is cleared (R358; that REJOIN is the time: DESIGN CHOICE, log 150). -/
def State.halfBack (s : State) (r : Side) : State :=
  if s.rlg.sfence = some r then
    let inWin (a : Nat) : Bool := decide (Config.winBase ≤ a ∧ a < Config.winBase + 262144 * 4160)
    let p := s.dram.get r.peer
    let s := s.modDram r (fun c =>
      { c with
        bytes := (p.bytes.filter (fun e => inWin e.1)).foldl (fun m e => sp 0 m e.1 e.2) (c.bytes.filter (fun e => !inWin e.1))
        poison := (p.poison.filter (fun e => inWin (8 * e.1))).foldl (fun m e => sp false m e.1 e.2)
          (c.poison.filter (fun e => !inWin (8 * e.1))) })
    s.modRlg (fun g => { g with sfence := none, singleWin := false })
  else s

/-- Steps 1 and 2 need a peer in service; with none the Ridge is the first in service again and replays (R363). -/
def State.rejoin (s : State) (r : Side) (syncOk : Bool) : State :=
  if s.ridgeSt r ≠ .standby ∧ s.ridgeSt r ≠ .quiesced then s.rlgInt 5
  else
    let peerIn := decide (s.ridgeSt r.peer = .inService)
    let s := if s.bankOk r || !peerIn then s else (s.resyncStart r).resyncEnd r
    let s := if peerIn then s.nodeSync r else s
    if (peerIn && (!syncOk || !s.bankOk r || !s.cenUp r)) || decide (s.imgtag r = 0) then s.rlgInt 4
    else if peerIn then
      let s := (s.copyNodes r).halfBack r
      let s := ((s.setRidge r .inService).modCtxs (ridgeCtxs r) Ctx.toAdopt).adoptEntry
      ((ridgeCtxs r.peer).filter (fun c => (s.ctx c).st.working)).foldl (fun (s : State) c => s.sendSnap c) s
    else
      let s := ((s.setRidge r .inService).halfBack r).modCrn (fun c => { c with usable := c.usable.set r true, replayed := false })
      s.modRlg (fun g => { g with unit := ⟨some r, some r⟩, spindle := some r })

def execRejoin (r : Side) (syncOk : Bool) (s : State) : Out :=
  .next (if s.ridgeLive r && s.rlgUp then s.rejoin r syncOk else s)

/-! ### Reset of a Ridge (R398) -/

/-- Registers of a block return to their reset values, but for those named. -/
def State.clearBlock (s : State) (base : Nat) (keep : List Nat) : State :=
  s.keepRegs (fun p => decide (p.1 < base ∨ base + 0x10000 ≤ p.1) || keep.contains p.1)

/-- A decode cut off by the reset: its record is held and its status says that no decode ran. -/
def State.dropJob (s : State) (j : DecJob) : State :=
  match j with
  | .req _ _ _ _ _ => s
  | .otf t n w _ =>
    let w := if fld w 47 44 = 5 then w else putFld w 47 44 2
    (s.modTile t (fun x => x.hold n)).decidedStatus t n w

/-- Leases and held work of a Ridge that no peer takes over end. -/
def State.dropWork (s : State) (r : Side) : State :=
  if s.rlg.tkDue = some r then s
  else
    let s := s.modRlg (fun g =>
      { (g.leases.foldl (fun g l => g.moveLease (fun _ => false) (ridgeCtxs r) l) g) with
        unit := g.unit.map (fun u => if u = some r then none else u)
        spindle := if g.spindle = some r then none else g.spindle })
    s.modNve (fun n => { n with cmds := n.cmds.map (fun k => { k with holder := k.holder.filter (fun c => c.ridge != r) }) })

/-- The reset state of the Ridge's Spurs, started at the boot address (R24). The answers kept for its contexts stay for
a takeover that is still due. -/
def Core.restart (old : Core) (keep : Bool) (st : RidgeState) : Core :=
  let f (o n : Ctx) : Ctx := if keep then { n with served := o.served, heldCmd := o.heldCmd } else n
  let g (o n : Spur) : Spur :=
    { n with ctx := ⟨f o.ctx.q0 n.ctx.q0, f o.ctx.q1 n.ctx.q1, f o.ctx.q2 n.ctx.q2, f o.ctx.q3 n.ctx.q3⟩ }
  let o := old.spurs
  let n := Core.reset.spurs
  { Core.reset with
    spurs := ⟨g o.h n.h, g o.m0 n.m0, g o.m1 n.m1, g o.c n.c, g o.p n.p, g o.k n.k⟩
    st := st
    coldBoot := false }

/-- After a Ridge reset the AC is 0, the source NONE (R80), and no comparator is routed (R87). -/
def Ang.restart (a : Ang) : Ang :=
  { a.dropIndex with
    ac := 0
    markAc := 0
    src := .none
    flyExpired := false
    flySearch := false
    flyMarks := 0
    seekMarks := 0
    owed := Four.all none
    lastTick := Four.all 0
    cmps := a.cmps.map (fun p => (p.1, { p.2 with route := none })) }

/-- A RIDGE-scope reset: Spurs, control store, control engine, decoders, stripe engine, MEM and CRN registers; the
contents of the Cairn bank stay. The Ridge's self-test starts. -/
def State.ridgeReset (s : State) (r : Side) : State :=
  let s := (s.dec.get r).jobs.foldl (fun (s : State) j => s.dropJob j.2) s
  let s := (s.dropWork r).crnLose r
  let s := [0x0, 0x10000, 0x30000, 0x40000, 0x50000, 0x60000, 0x70000].foldl
    (fun (s : State) b => s.clearBlock (rk r b) [rk r R_SPU_LSERR, rk r R_STE_DUPSTAT]) s
  let keep := decide (s.rlg.tkDue = some r)
  let s := s.modCore r (fun c => c.restart keep .selftest)
  let s := s.modAng r Ang.restart
  let s := s.modMem r (fun _ => [])
  ((s.modDec r (fun _ => Dec.reset)).modCen r (fun _ => Cen.reset)).modSte r (fun _ => Ste.reset)

def execRidgeReset (r : Side) (s : State) : Out := .next (if s.ridgeSt r = .fenced then s.ridgeReset r else s)

/-- The self-test ends in STANDBY; REJOIN follows where AUTOREJOIN asks for it (R359). A Ridge in its boot after a FULL
reset becomes IN_SERVICE by its boot lock (R43). -/
def execRidgeSelftestDone (r : Side) (syncOk : Bool) (s : State) : Out :=
  .next (
    if s.ridgeSt r = .selftest then
      let s := s.setRidge r .standby
      if s.regB R_RLG_CTL 8 && !(s.core.get r).coldBoot && s.rlgUp then s.rejoin r syncOk else s
    else s)

end Sys2Proof.Machine
end

