-- ==== Sys2Proof/Machine/Spur.lean ====
section
/-!
DEFINITION. The contexts of a Spur: commits, port reads that return, URGENT entry, waits, snapshots, context commands,
debug access, and the control store's load path (chapter 2).
-/
namespace Sys2Proof.Machine

/-- The 19-bit address in the low bits of a word. -/
def csAddr {n : Nat} (w : BitVec n) : CsAddr := (w.setWidth 19).setWidth 20

/-! ### Commit (R35–R37, R42) -/

def Ctx.snapAt (x : Ctx) (restart : CsAddr) (rclass : BitVec 2) : Snapshot :=
  ⟨x.regs, x.flags, x.stack, x.lcnt, restart, rclass, x.deferDepths⟩

/-- A COMMIT: the snapshot is taken, the CSN rises, the hold of an earlier word ends, the snapshot goes to the peer, and
a giving context stops (R360). -/
def State.commit (s : State) (c : CtxId) (restart : CsAddr) (rclass : BitVec 2) : State :=
  let s := s.modCtx c (fun x =>
    { x with
      snap := some (x.snapAt restart rclass)
      csn := x.csn + 1
      segWarned := false
      hold := false })
  let s := s.sendSnap c
  if (s.ctx c).giving = some false then (s.modCtx c (fun x => { x with giving := some true })).trySwitch else s

/-- A third snapshot would be unacknowledged (R42). -/
def State.commitStalls (s : State) (c : CtxId) : Bool := s.mirrors c && decide (2 ≤ (s.ctx c).unacked)

/-! ### Port reads (R22, R32) -/

/-- A read of an indivisible or committing word is under way. -/
def Ctx.committing (x : Ctx) : Bool := x.reads.any (fun o => o.commit.isSome)

def dropRead (o : ReadOut) : List ReadOut → List ReadOut
  | [] => []
  | p :: t => if p = o then t else p :: dropRead o t

/-- STOP takes effect: HALT. Outstanding port reads stay so (R22). -/
def Ctx.halted (x : Ctx) : Ctx :=
  { x with st := .halt, wait := none, stopReq := false, stepReq := false, urgentDepth := none, deferDepths := [] }

/-- A read ends: its data reaches the register, a refused one leaves it; the commit of its word is then taken, and a
STOP that waited for it takes effect. -/
def State.readEnds (s : State) (c : CtxId) (o : ReadOut) (got : Bool) : State :=
  let s := s.modCtx c (fun x =>
    let y := { x with reads := dropRead o x.reads }
    if got then y.wr o.reg o.data else y)
  let s :=
    match o.commit with
    | some (a, k, h) => (s.commit c a k).modCtx c (fun x => { x with hold := x.hold || h })
    | none => s
  if (s.ctx c).stopReq && !(s.ctx c).committing then s.modCtx c Ctx.halted else s

/-- The oldest read of a port returns. -/
def execPortReadReturn (c : CtxId) (port : Nat) (s : State) : Out :=
  .next (
    s.byCtx c (fun s =>
      match (s.ctx c).reads.find? (fun o => o.port == port) with
      | some o => s.readEnds c o true
      | none => s))

/-- The port stays silent to a transfer: the oldest read of it, else the word that last wrote it. The transfer is over:
no data comes, and no snapshot is taken for its word (DEDUCED, log 111). -/
def State.portSilent (s : State) (c : CtxId) (port : Nat) : State :=
  let x := s.ctx c
  let fault (s : State) (a : CsAddr) : State := s.ctxFault c a { FaultSet.none with portto := true }
  match x.reads.find? (fun o => o.port == port), sg none x.wrote port with
  | some o, _ => fault (s.modCtx c (fun x => { x with reads := dropRead o x.reads })) o.addr
  | none, some a => fault (s.modCtx c (fun x => { x with wrote := sp none x.wrote port none })) a
  | none, none => s

def execPortTimeout (c : CtxId) (port : Nat) (s : State) : Out := .next (s.byCtx c (fun s => s.portSilent c port))

/-! ### Lines (R29, R31–R34) -/

def Ctx.unmasked (x : Ctx) (n : Nat) : Bool := decide (n = 0) || bit (x.masks.get x.mset) n

/-- Pending and URGENT, neither masked nor held; none in an URGENT handler. -/
def Ctx.urgentReady (x : Ctx) (n : Nat) : Bool :=
  bit x.pend n && bit x.urgentCls n && x.unmasked n && (decide (n = 0) || !x.hold) && x.urgentDepth.isNone

/-- The URGENT line taken at the next word boundary: the lowest-numbered. -/
def Ctx.urgentLine (x : Ctx) : Option Nat := (List.range 16).find? (fun n => x.urgentReady n)

/-- The DEFER line that POLL takes. -/
def Ctx.deferLine (x : Ctx) : Option Nat :=
  (List.range 16).find? (fun n => bit x.pend n && !bit x.urgentCls n && x.unmasked n && !x.hold)

def CtxState.runs (x : CtxState) : Bool :=
  match x with
  | .run => true
  | .wait => true
  | .handler => true
  | _ => false

/-- The context has a word to fetch: in RUN, in HANDLER, or in HALT for a STEP. -/
def Ctx.fetches (x : Ctx) : Bool :=
  decide (x.st = .run) || decide (x.st = .handler) || (decide (x.st = .halt) && x.stepReq)

/-- The power domain of a Spur (Table 19.5). -/
def State.spurOn (s : State) (c : CtxId) : Bool := s.domOn (2 + c.spur.idx + 6 * c.ridge.idx)

/-- A running context at a word boundary with no URGENT line to take. -/
def Ctx.atWord (x : Ctx) : Bool :=
  (decide (x.st = .run) || decide (x.st = .handler)) && (x.urgentLine.isNone || x.snap.isNone)

def Ctx.vector (x : Ctx) (n : Nat) : CsAddr := sg 0 x.hvec n

/-- URGENT entry (R31): the bit is cleared, the snapshot restored, the restart address pushed, the handler started. An
entry refused for a full stack counts as a fault inside the handler: HNDFLT is latched beside STACK, and SPU_FLTADDR
shows the handler's vector (DESIGN CHOICE, log 51). -/
def State.urgentEntry (s : State) (c : CtxId) (n : Nat) (sn : Snapshot) : State :=
  let s := s.modCtx c (fun x =>
    { x with
      pend := clrBit x.pend n
      hold := x.hold && decide (n ≠ 0)
      regs := sn.regs
      flags := sn.flags
      stack := sn.stack
      lcnt := sn.lcnt
      deferDepths := sn.defers
      wait := none
      reads := []
      wrote := []
      pc := x.vector n })
  let s := s.bump (rk c.ridge (R_SPU_RSTCNT + 4 * c.spur.idx)) 31 0 1
  if 16 ≤ sn.stack.length then
    (s.modCtx c (fun x => { x with urgentDepth := some 16 })).ctxFault c ((s.ctx c).vector n) { FaultSet.none with stack := true }
  else
    s.modCtx c (fun x => { x with st := .handler, stack := sn.restart :: sn.stack, urgentDepth := some sn.stack.length })

def execUrgentEntry (c : CtxId) (s : State) : Out :=
  .next (
    s.byCtx c (fun s =>
      let x := s.ctx c
      if x.st.runs && !x.committing && decide (x.giving ≠ some true) then
        match x.urgentLine, x.snap with
        | some n, some sn => s.urgentEntry c n sn
        | _, _ => s
      else s))

/-- The counter rises in a cycle in which the context issues or is stalled on port data: not in a WAIT. -/
def execSegmentWarning (c : CtxId) (s : State) : Out :=
  .next (
    s.byCtx c (fun s =>
      let x := s.ctx c
      if s.regF (rk c.ridge R_SPU_SEGMAX) 15 0 = 0 ∨ x.segWarned ∨ x.fetches = false then s
      else
        let s := s.modCtx c (fun x => { x with segWarned := true })
        (s.setStat (rk c.ridge R_SPU_SEGWARN) (4 * c.spur.idx + c.no.idx)).spuInt c.ridge 1))

/-! ### Waits (R57, R58) -/

/-- The WAIT ends and the context goes on at the next word. -/
def Ctx.waitEnds (x : Ctx) : Ctx :=
  match x.wait with
  | some w => { x with st := if x.urgentDepth.isSome then .handler else .run, pc := w.next, wait := none }
  | none => x

/-- A timeout raises line 3: an URGENT line is taken from the WAIT, otherwise the WAIT ends (R57; a line 3 that cannot
be taken counts as the latter, DEDUCED, log 27). -/
def State.waitExpires (s : State) (c : CtxId) : State :=
  let s := s.raiseLine c 3
  if (s.ctx c).urgentReady 3 then s else s.modCtx c Ctx.waitEnds

/-- The AU form has run its count of the own synthesizer. -/
def State.waitSpent (s : State) (c : CtxId) (w : WaitInfo) : Bool :=
  !w.inAu || decide (w.startAc.toNat + w.count ≤ (s.an c.ridge).ac.toNat)

def Ctx.waiting (x : Ctx) : Option WaitInfo := if x.st = .wait ∧ x.giving ≠ some true then x.wait else none

def execWaitTimeout (c : CtxId) (s : State) : Out :=
  .next (
    s.byCtx c (fun s =>
      match (s.ctx c).waiting with
      | some w => if s.waitSpent c w then s.waitExpires c else s
      | none => s))

def execWaitCycleBound (c : CtxId) (s : State) : Out :=
  .next (
    s.byCtx c (fun s =>
      match (s.ctx c).waiting with
      | some w => if w.inAu then s.waitExpires c else s
      | none => s))

/-! ### Snapshots on the mirror link (R42) -/

/-- The oldest snapshot on its way arrives: stored in ADOPT, discarded elsewhere, acknowledged always. -/
def execSnapshotReceive (c : CtxId) (s : State) : Out :=
  .next (
    if s.ridgeLive c.ridge = false then s
    else
      match (s.ctx c).inbox with
      | [] => s
      | m :: t =>
        let ad := decide ((s.ctx c).st = .adopt)
        let s := s.modCtx c (fun x => { x with inbox := t, held := if ad then some m else x.held })
        let s := if ad then s else s.spuInt c.ridge 3
        s.modCtx (mateOf c) (fun x => { x with acks := x.acks + 1 }))

def execSnapshotAck (c : CtxId) (s : State) : Out :=
  .next (
    if (s.ctx c).acks = 0 then s
    else s.modCtx c (fun x => { x with acks := x.acks - 1, unacked := x.unacked - 1, ackStall := false }))

/-! ### Context commands (R50) -/

/-- START: the registers as they stand form the snapshot (R35). -/
def Ctx.start (x : Ctx) (addr : CsAddr) : Ctx :=
  let y := { x with deferDepths := [], adopted := false }
  y.enter (y.snapAt addr 0)

/-- A command in a state where it applies; none where it is ignored. -/
def State.ctxCmd? (s : State) (c : CtxId) (cmd : Nat) (addr : CsAddr) : Option State :=
  let x := s.ctx c
  let stopped := decide (x.st = .halt ∨ x.st = .fault)
  match cmd with
  | 0 => some s
  | 1 => if stopped || decide (x.st = .idle) then some (s.setCtx c (x.start addr)) else none
  | 2 =>
    if x.st = .adopt then none
    else if x.st.runs then some (s.modCtx c (fun x => if x.committing then { x with stopReq := true } else x.halted))
    else some s
  | 3 =>
    match x.snap with
    | some sn => if stopped then some (s.setCtx c (x.enter sn)) else none
    | none => none
  | 4 => if x.st = .halt ∧ s.regB (rk c.ridge R_SPU_GCTL) 8 then some (s.modCtx c (fun x => { x with stepReq := true })) else none
  | 5 =>
    if x.st = .halt then
      some (s.setCtx c { x with st := .idle, snap := none, adopted := false, stepReq := false }).adoptEntry
    else none
  | _ => none

/-- An ignored command sets SPU_INTSTAT bit 2. -/
def State.ctxCmd (s : State) (c : CtxId) (cmd : Nat) (addr : CsAddr) : State :=
  (s.ctxCmd? c cmd addr).getD (s.spuInt c.ridge 2)

/-- A command word in SPU_CTL format (Table 2.8). -/
def State.ctlWord (s : State) (r : Side) (sp : SpurId) (w : Word) : State :=
  s.ctxCmd ⟨r, sp, quadOf (fld w 20 19)⟩ (fld w 23 21) (csAddr w)

def execContextStart (c : CtxId) (addr : CsAddr) (s : State) : Out := .next (s.byCtx c (fun s => s.ctxCmd c 1 (csAddr addr)))

def execContextStop (c : CtxId) (s : State) : Out := .next (s.byCtx c (fun s => s.ctxCmd c 2 0))

def execContextResume (c : CtxId) (s : State) : Out := .next (s.byCtx c (fun s => s.ctxCmd c 3 0))

def execContextRelease (c : CtxId) (s : State) : Out := .next (s.byCtx c (fun s => s.ctxCmd c 5 0))

/-- A code or a state in which the command is ignored. -/
def execContextCmdReserved (c : CtxId) (cmd : BitVec 3) (s : State) : Out :=
  .next (s.byCtx c (fun s => if (s.ctxCmd? c cmd.toNat 0).isSome then s else s.spuInt c.ridge 2))

/-! ### Debug access (R49) -/

/-- The context that SPU_DBGSEL names. -/
def State.dbgCtx (s : State) (r : Side) : Option CtxId :=
  (spurOf? (s.regF (rk r R_SPU_DBGSEL) 14 12)).map (fun sp => ⟨r, sp, quadOf (s.regF (rk r R_SPU_DBGSEL) 9 8)⟩)

def State.dbgReg (s : State) (r : Side) : DWord :=
  match s.dbgCtx r with
  | some c => (s.ctx c).rd (s.regF (rk r R_SPU_DBGSEL) 5 0)
  | none => 0

/-- A write of SPU_DBGDATA_HI. -/
def State.dbgWrite (s : State) (r : Side) (hi : Word) : State :=
  match s.dbgCtx r with
  | some c =>
    let st := (s.ctx c).st
    if s.regB (rk r R_SPU_GCTL) 8 && decide (st = .halt ∨ st = .fault) then
      s.modCtx c (fun x => x.wr (s.regF (rk r R_SPU_DBGSEL) 5 0) (hi ++ s.reg (rk r R_SPU_DBGDATA_LO)))
    else s.spuInt r 2
  | none => s.spuInt r 2

def execDebugDataWrite (r : Side) (hi : Word) (s : State) : Out :=
  .next (if s.ridgeLive r then s.dbgWrite r hi else s)

/-! ### Control store (R25–R28) -/

def inWstore (a : Nat) : Bool := decide (0x40000 ≤ a ∧ a < 0x60000)

def inPatch (a : Nat) : Bool := decide (0x7F800 ≤ a ∧ a < 0x80000)

def inRom (a : Nat) : Bool := decide (a < 0x40000)

/-- A fetch outside the regions of Table 2.2. -/
def badFetch (a : CsAddr) : Bool := !inRom a.toNat && !inWstore a.toNat && !inPatch a.toNat

/-- CST_CTL.QUIESCED: set when the peer has adopted all of the Ridge's work, cleared at hand-back (R28). -/
def State.quiesced (s : State) (r : Side) : Bool := (s.core.get r).quiesced

def State.matchEn (s : State) (r : Side) (n : Nat) : Bool :=
  if n < 32 then s.regB (rk r R_CST_MATCHEN_LO) n else s.regB (rk r R_CST_MATCHEN_HI) (n - 32)

/-- The address fetched after the match registers (R26): the lowest-numbered enabled match wins. -/
def State.fetchAddr (s : State) (r : Side) (a : CsAddr) : CsAddr :=
  if inRom a.toNat then
    match (List.range 64).find? (fun n => s.matchEn r n && decide (s.regF (rk r (R_CST_MATCH + 4 * n)) 17 0 = a.toNat)) with
    | some n => BitVec.ofNat 20 (0x7F800 + 32 * n)
    | none => a
  else a

/-- A word with its generated check bits (R52). -/
def cstWord (w : MicroWord) : CstWord :=
  let hi := w.extractLsb' 64 64
  let lo := w.extractLsb' 0 64
  ⟨hi, latticeCheck hi, lo, latticeCheck lo⟩

def State.storeWord (s : State) (r : Side) (a : CsAddr) : MicroWord := (sg CstWord.zero (s.core.get r).store a.toNat).word

/-- A half of the word holds the poison marker: the scrubber's words 2a and 2a + 1 are the halves of word a (DESIGN
CHOICE, log 151). -/
def State.storeMarked (s : State) (r : Side) (a : Nat) : Bool :=
  let m := (s.scrubMem r 0).marks
  sg false m (2 * a) || sg false m (2 * a + 1)

/-- Both halves are stored anew. -/
def State.unmarkStore (s : State) (r : Side) (a : Nat) : State :=
  if s.storeMarked r a then s.modScrub r 0 (fun m => { m with marks := sp false (sp false m.marks (2 * a) false) (2 * a + 1) false })
  else s

def State.putStore (s : State) (r : Side) (a : Nat) (w : MicroWord) : State :=
  (s.modCore r (fun m => { m with store := sp CstWord.zero m.store a (cstWord w) })).unmarkStore r a

def State.cstErr (s : State) (r : Side) (i : Nat) : State := s.setStat (rk r R_CST_ERRSTAT) i

/-- The three conditions of a load-path write. -/
def State.loadOk (s : State) (x : Accessor) : Bool :=
  s.regB (rk x.ridge R_CST_CTL) 1 && (!s.ridgeLock x.ridge || s.quiesced x.ridge) && x.rom

/-- A write of CST_LDDATA[i]. Index 3 stores the word where its address lies in the writable store or patch memory. -/
def State.loadData (s : State) (x : Accessor) (i : Nat) (data : Word) : State :=
  let r := x.ridge
  if s.loadOk x = false then s.cstErr r 3
  else
    let w := putFld (s.core.get r).ldData (32 * i + 31) (32 * i) data.toNat
    let s := s.modCore r (fun m => { m with ldData := w })
    if i ≠ 3 then s
    else
      let a := s.regF (rk r R_CST_LDADDR) 18 0
      if inWstore a || inPatch a then
        let s := s.putStore r a w
        if s.regB (rk r R_CST_LDADDR) 31 then s.modReg (rk r R_CST_LDADDR) (fun v => putFld v 18 0 (a + 1)) else s
      else s.cstErr r 3

def State.loadAddr (s : State) (x : Accessor) (data : Word) : State :=
  if s.loadOk x then s.setReg (rk x.ridge R_CST_LDADDR) (data &&& 0x8007FFFF#32) else s.cstErr x.ridge 3

def execLoadWordStore (x : Accessor) (data : Word) (s : State) : Out :=
  .next (s.access x (rk x.ridge R_CST_ID) true (fun s => s.loadData x 3 data))

def execLoadAddressWrite (x : Accessor) (data : Word) (s : State) : Out :=
  .next (s.access x (rk x.ridge R_CST_ID) true (fun s => s.loadAddr x data))

/-- An offset of CST_MATCHEN_LO, CST_MATCHEN_HI or CST_MATCH, and the register's bits. -/
def matchMask (off : Nat) : Option Word :=
  if off = 0x14 ∨ off = 0x18 then some 0xFFFFFFFF#32
  else if 0x100 ≤ off ∧ off < 0x200 ∧ off % 4 = 0 then some 0x3FFFF#32
  else none

/-- A write of a match register or its enables (R27). -/
def State.matchWrite (s : State) (r : Side) (off : Nat) (data : Word) : State :=
  match matchMask off with
  | some m => if s.quiesced r then s.setReg (rk r (R_CST_ID + off)) (data &&& m) else s.cstErr r 4
  | none => s

def execMatchWrite (r : Side) (off : Nat) (data : Word) (s : State) : Out :=
  .next (if s.ridgeLive r then s.matchWrite r off data else s)

/-- The peer's copy may serve (R25). -/
def State.peerFixes (s : State) (r : Side) : Bool :=
  let p := s.ridgeSt r.peer
  s.regB (rk r R_CST_CTL) 2 && decide (s.imgtag r = s.imgtag r.peer ∧ s.imgtag r ≠ 0) &&
    decide (p = .standby ∨ p = .inService ∨ p = .quiesced)

/-- An uncorrectable fetch of the context's word; one that reads the poison marker is not counted again (R372). -/
def State.fetchUe (s : State) (c : CtxId) : State :=
  let r := c.ridge
  let a := s.fetchAddr r (s.ctx c).pc
  let s := (s.cstErr r 1).setReg (rk r R_CST_ERRADDR) (a.setWidth 32)
  let s := if s.storeMarked r a.toNat then s else s.memUe r 0
  if s.peerFixes r then
    let s := s.cstErr r 2
    if inRom a.toNat then s.unmarkStore r a.toNat else s.putStore r a.toNat (s.storeWord r.peer a)
  else s.ctxFault c a { FaultSet.none with fetchue := true }

/-- A corrected fetch (R25). -/
def State.fetchCe (s : State) (r : Side) : State :=
  ((s.cstErr r 0).bump (rk r R_CST_ERRSTAT) 31 16 1).memCe r 0 1

def execCstPeerRefetch (c : CtxId) (s : State) : Out :=
  .next (s.byCtx c (fun s => if (s.ctx c).fetches && !badFetch (s.ctx c).pc then s.fetchUe c else s))

/-! ### Boot lock (R43, R445) -/

/-- A Ridge whose boot ends becomes IN_SERVICE with its own actuator, and the other while the peer is not there; the
spindle goes to Ridge A when it comes, or to the first in service (DEDUCED, log 28). -/
def State.enterService (s : State) (r : Side) : State :=
  let absent := decide (s.ridgeSt r.peer = .reset ∨ s.ridgeSt r.peer = .fenced)
  let s := (s.setRidge r .inService).modCore r (fun m => { m with coldBoot := false })
  let s := s.modRlg (fun g =>
    let u := g.unit.set r (some r)
    { g with
      unit := if absent && (g.unit.get r.peer).isNone then u.set r.peer (some r) else u
      spindle := if r = .a ∨ g.spindle.isNone then some r else g.spindle })
  s.adoptEntry

/-- BOOTLOCK is set: the Ridge's lock, the Saddle's on its first setting, and service after a boot. Event 0x0022 follows
a boot whose copy 0 of the fuses failed (R404). -/
def State.bootLock (s : State) (r : Side) : State :=
  if s.ridgeLock r then s
  else
    let s := s.setReg (rk r R_CST_LOCK) 1
    let s :=
      if s.rcp.saddleLock then s
      else
        let s := s.modRcp (fun p => { p with saddleLock := true, phase := if p.phase = .recovery then .recovery else .locked })
        let t := s.free 16
        let s := (s.modReg R_RCP_BOOTTIME (fun w => putFld w 31 16 t.toNat)).freeNext
        if !s.fus.good0 && (s.fus.good1 || s.fus.recovery) then s.event 0x0022 (srcBlock R_FUS_ID) [] else s
    if (s.core.get r).coldBoot then s.enterService r else s

def execBootlockSet (r : Side) (s : State) : Out := .next (if s.ridgeLive r then s.bootLock r else s)

end Sys2Proof.Machine
end

