-- ==== Sys2Proof/Machine/Flags.lean ====
section
/-!
DEFINITION. The flags of the ALU (R61, R62).
-/
namespace Sys2Proof.Machine

/-- N and Z from a result; C and V stay. -/
def Flags.nz (f : Flags) (r : DWord) : Flags := { f with n := r.msb, z := decide (r = 0) }

/-- A signed sum that does not fit in 64 bits. -/
def overflows (x : Int) : Bool := decide (x < -(2 ^ 63) ∨ 2 ^ 63 ≤ x)

/-- C and V of a + b + cin. -/
def addCV (a b : DWord) (cin : Bool) : Bool × Bool :=
  (decide (2 ^ 64 ≤ a.toNat + b.toNat + b2n cin), overflows (a.toInt + b.toInt + b2n cin))

/-- C and V of a − b − bin: C = 1 means no borrow. -/
def subCV (a b : DWord) (bin : Bool) : Bool × Bool :=
  (decide (b.toNat + b2n bin ≤ a.toNat), overflows (a.toInt - b.toInt - b2n bin))

/-- All four flags: N and Z of a result, C and V as given. -/
def Flags.of (r : DWord) (cv : Bool × Bool) : Flags := ⟨r.msb, decide (r = 0), cv.1, cv.2⟩

/-- Flags of a shift or rotation by `n` whose last bit out is bit `out` of `a`. -/
def Flags.shift (f : Flags) (a r : DWord) (n out : Nat) : Flags :=
  let g := f.nz r
  if n = 0 then g else { g with c := bit a out }

end Sys2Proof.Machine
end

