-- ==== Sys2Proof/Machine/Operands.lean ====
section
/-!
DEFINITION. The ALU operations over their operands (Table 3.5, R61–R63), and the ALU part of a word.
-/
namespace Sys2Proof.Machine

/-- Operands of an operation: a, b, the old value of DST, and the flags as they stand. -/
structure AluIn where
  a : DWord
  b : DWord
  d : DWord
  fl : Flags
deriving DecidableEq, Repr

/-- Its outcome: what DST receives, if anything, and the flags. -/
structure AluOut where
  res : Option DWord
  fl : Flags
deriving DecidableEq, Repr

/-- A result that sets N and Z. -/
def AluIn.put (x : AluIn) (r : DWord) : AluOut := ⟨some r, x.fl.nz r⟩

/-- A result that leaves the flags. -/
def AluIn.keep (x : AluIn) (r : DWord) : AluOut := ⟨some r, x.fl⟩

def aluNop (x : AluIn) : AluOut := ⟨none, x.fl⟩

def aluMov (x : AluIn) : AluOut := x.keep x.b

/-- The low half of b is IMM in the immediate form. -/
def aluMovh (x : AluIn) : AluOut := x.keep (x.b.extractLsb' 0 32 ++ x.d.extractLsb' 0 32)

def sumOut (a b : DWord) (cin : Bool) : AluOut :=
  let r := a + b + BitVec.ofNat 64 (b2n cin)
  ⟨some r, Flags.of r (addCV a b cin)⟩

def diffOut (a b : DWord) (bin : Bool) : AluOut :=
  let r := a - b - BitVec.ofNat 64 (b2n bin)
  ⟨some r, Flags.of r (subCV a b bin)⟩

/-- The flags alone. -/
def AluOut.test (o : AluOut) : AluOut := { o with res := none }

def aluAdd (x : AluIn) : AluOut := sumOut x.a x.b false

def aluAdc (x : AluIn) : AluOut := sumOut x.a x.b x.fl.c

def aluSub (x : AluIn) : AluOut := diffOut x.a x.b false

def aluSbc (x : AluIn) : AluOut := diffOut x.a x.b !x.fl.c

def aluCmp (x : AluIn) : AluOut := (aluSub x).test

def aluCmn (x : AluIn) : AluOut := (aluAdd x).test

def aluNeg (x : AluIn) : AluOut := diffOut 0 x.a false

def aluAbs (x : AluIn) : AluOut := if x.a.msb then diffOut 0 x.a false else sumOut x.a 0 false

def aluAnd (x : AluIn) : AluOut := x.put (x.a &&& x.b)

def aluOr (x : AluIn) : AluOut := x.put (x.a ||| x.b)

def aluXor (x : AluIn) : AluOut := x.put (x.a ^^^ x.b)

def aluAndn (x : AluIn) : AluOut := x.put (x.a &&& ~~~x.b)

def aluOrn (x : AluIn) : AluOut := x.put (x.a ||| ~~~x.b)

def aluNot (x : AluIn) : AluOut := x.put (~~~x.a)

def aluTst (x : AluIn) : AluOut := (aluAnd x).test

/-- b[5:0]. -/
def AluIn.count (x : AluIn) : Nat := x.b.toNat % 64

def AluIn.shifted (x : AluIn) (r : DWord) (out : Nat) : AluOut := ⟨some r, x.fl.shift x.a r x.count out⟩

def aluShl (x : AluIn) : AluOut := x.shifted (x.a <<< x.count) (64 - x.count)

def aluShr (x : AluIn) : AluOut := x.shifted (x.a >>> x.count) (x.count - 1)

def aluSar (x : AluIn) : AluOut := x.shifted (x.a.sshiftRight x.count) (x.count - 1)

def aluRol (x : AluIn) : AluOut := x.shifted (x.a.rotateLeft x.count) (64 - x.count)

def aluRor (x : AluIn) : AluOut := x.shifted (x.a.rotateRight x.count) (x.count - 1)

def aluMin (x : AluIn) : AluOut := x.put (if x.a.toInt ≤ x.b.toInt then x.a else x.b)

def aluMax (x : AluIn) : AluOut := x.put (if x.b.toInt ≤ x.a.toInt then x.a else x.b)

def aluMinu (x : AluIn) : AluOut := x.put (if x.a.toNat ≤ x.b.toNat then x.a else x.b)

def aluMaxu (x : AluIn) : AluOut := x.put (if x.b.toNat ≤ x.a.toNat then x.a else x.b)

def aluMul (x : AluIn) : AluOut := x.put (BitVec.ofNat 64 ((x.a.setWidth 32).toNat * (x.b.setWidth 32).toNat))

def aluMuls (x : AluIn) : AluOut := x.put (BitVec.ofInt 64 ((x.a.setWidth 32).toInt * (x.b.setWidth 32).toInt))

/-- C and V are those of the plain sum, N and Z those of the saturated one. -/
def aluAddsu (x : AluIn) : AluOut :=
  let r : DWord := if 2 ^ 64 ≤ x.a.toNat + x.b.toNat then 0xFFFFFFFFFFFFFFFF#64 else x.a + x.b
  ⟨some r, Flags.of r (addCV x.a x.b false)⟩

def aluSubsu (x : AluIn) : AluOut :=
  let r : DWord := if x.a.toNat < x.b.toNat then 0 else x.a - x.b
  ⟨some r, Flags.of r (subCV x.a x.b false)⟩

/-- A field specification (R63): lowest bit, and width up to bit 63. -/
def AluIn.lo (x : AluIn) : Nat := x.b.toNat % 64

def AluIn.width (x : AluIn) : Nat := min (x.b.toNat / 64 % 64 + 1) (64 - x.lo)

/-- Ones over the field. -/
def AluIn.fieldMask (x : AluIn) : DWord := BitVec.ofNat 64 ((2 ^ x.width - 1) <<< x.lo)

/-- The field of a, at bit 0. -/
def AluIn.field (x : AluIn) : Nat := x.a.toNat >>> x.lo % 2 ^ x.width

/-- The low `n` bits of a number, sign-extended. -/
def signExt (n v : Nat) : DWord :=
  if v.testBit (n - 1) then BitVec.ofInt 64 ((v : Int) - 2 ^ n) else BitVec.ofNat 64 v

def aluBfx (x : AluIn) : AluOut := x.put (BitVec.ofNat 64 x.field)

def aluBfxs (x : AluIn) : AluOut := x.put (signExt x.width x.field)

def aluBfi (x : AluIn) : AluOut := x.keep ((x.d &&& ~~~x.fieldMask) ||| ((x.a <<< x.lo) &&& x.fieldMask))

def aluBfc (x : AluIn) : AluOut := x.keep (x.a &&& ~~~x.fieldMask)

def aluPopc (x : AluIn) : AluOut := x.put (BitVec.ofNat 64 ((List.range 64).filter (fun i => bit x.a i)).length)

def aluClz (x : AluIn) : AluOut :=
  x.put (BitVec.ofNat 64 (((List.range 64).find? (fun i => bit x.a (63 - i))).getD 64))

def aluCtz (x : AluIn) : AluOut := x.put (BitVec.ofNat 64 (((List.range 64).find? (fun i => bit x.a i)).getD 64))

def aluBswap (x : AluIn) : AluOut := x.put (BitVec.ofNat 64 (ofBytesLE (bytesLE 8 x.a).reverse))

def aluSxt (x : AluIn) : AluOut := x.put (signExt (x.count + 1) (x.a.toNat % 2 ^ (x.count + 1)))

def aluZxt (x : AluIn) : AluOut := x.put (BitVec.ofNat 64 (x.a.toNat % 2 ^ (x.count + 1)))

def aluCrc (x : AluIn) : AluOut := x.keep ((crcStep (x.a.setWidth 32) (bytesLE 8 x.b)).setWidth 64)

def aluCrcb (x : AluIn) : AluOut := x.keep ((crcStep (x.a.setWidth 32) (bytesLE 1 x.b)).setWidth 64)

/-- Each byte lane of a times b[7:0]. -/
def gfLanes (a b : DWord) : DWord :=
  BitVec.ofNat 64 (ofBytesLE ((bytesLE 8 a).map (fun v => gfMul (b.setWidth 8) v)))

def aluGfmul (x : AluIn) : AluOut := x.keep (gfLanes x.a x.b)

def aluGfmac (x : AluIn) : AluOut := x.keep (x.d ^^^ gfLanes x.a x.b)

def aluSelz (x : AluIn) : AluOut := x.keep (if x.fl.z then x.a else x.b)

def aluSelc (x : AluIn) : AluOut := x.keep (if x.fl.c then x.a else x.b)

def aluTstb (x : AluIn) : AluOut := ⟨none, { x.fl with z := !bit x.a x.count }⟩

/-- Table 3.5 by OP[5:0]; none for 0x30–0x3F. -/
def aluOf (op : Nat) : Option (AluIn → AluOut) :=
  match op with
  | 0x00 => some aluNop
  | 0x01 => some aluMov
  | 0x02 => some aluMovh
  | 0x03 => some aluAdd
  | 0x04 => some aluAdc
  | 0x05 => some aluSub
  | 0x06 => some aluSbc
  | 0x07 => some aluCmp
  | 0x08 => some aluCmn
  | 0x09 => some aluNeg
  | 0x0A => some aluAbs
  | 0x0B => some aluAnd
  | 0x0C => some aluOr
  | 0x0D => some aluXor
  | 0x0E => some aluAndn
  | 0x0F => some aluOrn
  | 0x10 => some aluNot
  | 0x11 => some aluTst
  | 0x12 => some aluShl
  | 0x13 => some aluShr
  | 0x14 => some aluSar
  | 0x15 => some aluRol
  | 0x16 => some aluRor
  | 0x17 => some aluMin
  | 0x18 => some aluMax
  | 0x19 => some aluMinu
  | 0x1A => some aluMaxu
  | 0x1B => some aluMul
  | 0x1C => some aluMuls
  | 0x1D => some aluAddsu
  | 0x1E => some aluSubsu
  | 0x1F => some aluBfx
  | 0x20 => some aluBfxs
  | 0x21 => some aluBfi
  | 0x22 => some aluBfc
  | 0x23 => some aluPopc
  | 0x24 => some aluClz
  | 0x25 => some aluCtz
  | 0x26 => some aluBswap
  | 0x27 => some aluSxt
  | 0x28 => some aluZxt
  | 0x29 => some aluCrc
  | 0x2A => some aluCrcb
  | 0x2B => some aluGfmul
  | 0x2C => some aluGfmac
  | 0x2D => some aluSelz
  | 0x2E => some aluSelc
  | 0x2F => some aluTstb
  | _ => none

/-- The operands an ALU part names (R61): b is IMM sign-extended in the immediate form. -/
def Ctx.aluIn (x : Ctx) (f : AluForm) : AluIn :=
  ⟨x.rd f.a.toNat, if f.imm then f.immv.signExtend 64 else x.rd f.b.toNat, x.rd f.dst.toNat, x.flags⟩

/-- The result reaches DST and the flags (R53 step 4). -/
def Ctx.aluWrite (x : Ctx) (dst : BitVec 6) (o : AluOut) : Ctx :=
  let y := { x with flags := o.fl }
  match o.res with
  | some r => y.wr dst.toNat r
  | none => y

/-- The ALU part of a word of a context. -/
def State.alu (s : State) (c : CtxId) (op : AluIn → AluOut) (f : AluForm) : State :=
  s.byCtx c (fun s => s.modCtx c (fun x => x.aluWrite f.dst (op (x.aluIn f))))

end Sys2Proof.Machine
end

