-- ==== Sys2Proof/Machine/Alu.lean ====
section
/-!
DEFINITION. The commands of the ALU: one operation of Table 3.5 on a context's registers (R61–R63).
-/
namespace Sys2Proof.Machine

def execNop (c : CtxId) (f : AluForm) (s : State) : Out := .next (s.alu c aluNop f)

def execMov (c : CtxId) (f : AluForm) (s : State) : Out := .next (s.alu c aluMov f)

def execMovh (c : CtxId) (f : AluForm) (s : State) : Out := .next (s.alu c aluMovh f)

def execAdd (c : CtxId) (f : AluForm) (s : State) : Out := .next (s.alu c aluAdd f)

def execAdc (c : CtxId) (f : AluForm) (s : State) : Out := .next (s.alu c aluAdc f)

def execSub (c : CtxId) (f : AluForm) (s : State) : Out := .next (s.alu c aluSub f)

def execSbc (c : CtxId) (f : AluForm) (s : State) : Out := .next (s.alu c aluSbc f)

def execCmp (c : CtxId) (f : AluForm) (s : State) : Out := .next (s.alu c aluCmp f)

def execCmn (c : CtxId) (f : AluForm) (s : State) : Out := .next (s.alu c aluCmn f)

def execNeg (c : CtxId) (f : AluForm) (s : State) : Out := .next (s.alu c aluNeg f)

def execAbs (c : CtxId) (f : AluForm) (s : State) : Out := .next (s.alu c aluAbs f)

def execAnd (c : CtxId) (f : AluForm) (s : State) : Out := .next (s.alu c aluAnd f)

def execOr (c : CtxId) (f : AluForm) (s : State) : Out := .next (s.alu c aluOr f)

def execXor (c : CtxId) (f : AluForm) (s : State) : Out := .next (s.alu c aluXor f)

def execAndn (c : CtxId) (f : AluForm) (s : State) : Out := .next (s.alu c aluAndn f)

def execOrn (c : CtxId) (f : AluForm) (s : State) : Out := .next (s.alu c aluOrn f)

def execNot (c : CtxId) (f : AluForm) (s : State) : Out := .next (s.alu c aluNot f)

def execTst (c : CtxId) (f : AluForm) (s : State) : Out := .next (s.alu c aluTst f)

def execShl (c : CtxId) (f : AluForm) (s : State) : Out := .next (s.alu c aluShl f)

def execShr (c : CtxId) (f : AluForm) (s : State) : Out := .next (s.alu c aluShr f)

def execSar (c : CtxId) (f : AluForm) (s : State) : Out := .next (s.alu c aluSar f)

def execRol (c : CtxId) (f : AluForm) (s : State) : Out := .next (s.alu c aluRol f)

def execRor (c : CtxId) (f : AluForm) (s : State) : Out := .next (s.alu c aluRor f)

def execMin (c : CtxId) (f : AluForm) (s : State) : Out := .next (s.alu c aluMin f)

def execMax (c : CtxId) (f : AluForm) (s : State) : Out := .next (s.alu c aluMax f)

def execMinu (c : CtxId) (f : AluForm) (s : State) : Out := .next (s.alu c aluMinu f)

def execMaxu (c : CtxId) (f : AluForm) (s : State) : Out := .next (s.alu c aluMaxu f)

def execMul (c : CtxId) (f : AluForm) (s : State) : Out := .next (s.alu c aluMul f)

def execMuls (c : CtxId) (f : AluForm) (s : State) : Out := .next (s.alu c aluMuls f)

def execAddsu (c : CtxId) (f : AluForm) (s : State) : Out := .next (s.alu c aluAddsu f)

def execSubsu (c : CtxId) (f : AluForm) (s : State) : Out := .next (s.alu c aluSubsu f)

def execBfx (c : CtxId) (f : AluForm) (s : State) : Out := .next (s.alu c aluBfx f)

def execBfxs (c : CtxId) (f : AluForm) (s : State) : Out := .next (s.alu c aluBfxs f)

def execBfi (c : CtxId) (f : AluForm) (s : State) : Out := .next (s.alu c aluBfi f)

def execBfc (c : CtxId) (f : AluForm) (s : State) : Out := .next (s.alu c aluBfc f)

def execPopc (c : CtxId) (f : AluForm) (s : State) : Out := .next (s.alu c aluPopc f)

def execClz (c : CtxId) (f : AluForm) (s : State) : Out := .next (s.alu c aluClz f)

def execCtz (c : CtxId) (f : AluForm) (s : State) : Out := .next (s.alu c aluCtz f)

def execBswap (c : CtxId) (f : AluForm) (s : State) : Out := .next (s.alu c aluBswap f)

def execSxt (c : CtxId) (f : AluForm) (s : State) : Out := .next (s.alu c aluSxt f)

def execZxt (c : CtxId) (f : AluForm) (s : State) : Out := .next (s.alu c aluZxt f)

def execCrc (c : CtxId) (f : AluForm) (s : State) : Out := .next (s.alu c aluCrc f)

def execCrcb (c : CtxId) (f : AluForm) (s : State) : Out := .next (s.alu c aluCrcb f)

def execGfmul (c : CtxId) (f : AluForm) (s : State) : Out := .next (s.alu c aluGfmul f)

def execGfmac (c : CtxId) (f : AluForm) (s : State) : Out := .next (s.alu c aluGfmac f)

def execSelz (c : CtxId) (f : AluForm) (s : State) : Out := .next (s.alu c aluSelz f)

def execSelc (c : CtxId) (f : AluForm) (s : State) : Out := .next (s.alu c aluSelc f)

def execTstb (c : CtxId) (f : AluForm) (s : State) : Out := .next (s.alu c aluTstb f)

/-- An undefined opcode. -/
def execIllalu (c : CtxId) (op : BitVec 6) (s : State) : Out :=
  .next (
    s.byCtx c (fun s =>
      let x := s.ctx c
      if (aluOf op.toNat).isNone && s.spurOn c && decide (x.giving ≠ some true) && !x.committing &&
          (x.atWord || (decide (x.st = .halt) && x.stepReq)) then
        s.ctxFault c (s.fetchAddr c.ridge x.pc) { FaultSet.none with illalu := true }
      else s))

end Sys2Proof.Machine
end

