-- ==== Sys2Proof/Machine/Reset.lean ====
section
/-!
DEFINITION. Resets and start-up: the FULL and POWER-ON scopes, block resets, watchdogs, release, fuse load and measured
boot (R226, R387–R389, R397–R405, R411, R412).
-/
namespace Sys2Proof.Machine

/-! ### FULL and POWER-ON scopes (R398, R399) -/

/-- Registers that outlive a FULL reset: the RCP block, RLG_FENCE, SPU_LSERR and STE_DUPSTAT, and MTR_PDFLT, which is
the power die's; with `mon` also the monitors (R226). -/
def keptReg (mon : Bool) (k : Nat) : Bool :=
  decide (blockBase k = R_RCP_ID ∧ 0x2000000 ≤ k) || k == R_RLG_FENCE || k == R_MTR_PDFLT ||
    k == R_SPU_LSERR || k == rk .b R_SPU_LSERR || k == R_STE_DUPSTAT || k == rk .b R_STE_DUPSTAT ||
    (mon && decide (blockBase k = R_MON_ID ∧ 0x2000000 ≤ k))

/-- What stays of the recorder: the running calendar and OT, with the SEQ and PCC that go on from them (R375, R376), and
the spans kept in the Cairn bank. -/
def Evr.fullClear (e : Evr) : Evr :=
  { Evr.reset with
    scanDone := e.scanDone
    seq := e.seq
    ot := e.ot
    pcc := e.pcc
    cal := e.cal
    span := e.span
    sealArea := e.sealArea
    readMark := e.readMark
    pageNewest := e.pageNewest
    recOt := e.recOt }

/-- CDI_0 is kept, and the UDS locked, until power-on reset (R389). -/
def Cry.fullClear (c : Cry) : Cry := { Cry.reset with cdi0 := c.cdi0, udsLocked := c.udsLocked }

/-- What NOR and the media keep of a namespace: reservations go unless they persist through power loss (R340). -/
def Ns.nonvolatile (n : Ns) : Ns := if n.resv.ptpl then n else { n with resv := { rtype := 0, holder := none, regs := [], gen := 0, ptpl := false } }

/-- Namespaces and firmware slots outlive every reset; a slot committed for the next reset is active after it. -/
def Nve.nonvolatile (v : Nve) : Nve :=
  { Nve.reset with
    ctrls := (v.ctrls.filter (fun p => p.2.saved != [])).map (fun p =>
      (p.1, { Ctrl.init p.1 with features := p.2.saved, saved := p.2.saved }))
    asnLast := v.asnLast
    nss := v.nss.map (fun p => (p.1, p.2.map Ns.nonvolatile))
    fwSlots := v.fwSlots
    fwActive := v.fwNext.getD v.fwActive }

/-- What a reset of the MTR block ends: the heartbeat's kick, a latched START, REGENOK (R199), and the observer, whose
MTR_MOTPAR it clears. -/
def Mtr.blockReset (m : Mtr) : Mtr :=
  { m.regenLost with
    hbKick := false
    startLatched := false
    chopFlt := false
    obsValid := false
    spareFor := none
    spareReq := none }

/-- No reset of the logic die reaches the power die (R398): the link to it ends. -/
def Mtr.logicReset (m : Mtr) : Mtr := { m.blockReset with linkUp := false }

/-- RCP through a FULL reset: domains go to their reset state, WARM is set, requests held back are spent. -/
def Rcp.fullClear (p : Rcp) : Rcp :=
  { p with
    phase := .reset
    warm := true
    noxtal := false
    latchedN := false
    latchedSw := false
    asserted := true
    limited := false
    doms := Rcp.reset.doms
    blkBusy := none
    saddleLock := false
    pushLen := none }

def Win.nonvolatile (w : Win) : Win :=
  { Win.reset with
    deferred := w.deferred
    deferGen := w.deferGen
    reports := w.reports
    stopCause := w.stopCause
    flushed := w.flushed
    defers := w.defers
    unsaid := w.unsaid
    flushRec := w.flushRec
    dramLost := w.dramLost }

/-- A FULL reset. `mon`: the monitors go on running. -/
def State.fullReset (s : State) (mon : Bool) : State :=
  { State.reset with
    pending := s.pending
    freeCtr := s.freeCtr
    regs := s.regs.filter (fun p => keptReg mon p.1)
    evr := s.evr.fullClear
    cry := s.cry.fullClear
    rcp := s.rcp.fullClear
    dram := s.dram.map (fun c => { c.logicReset with selfRefresh := true })
    mtr := s.mtr.logicReset
    mon := if mon then { s.mon with calRuns := [], vcOpen := Two.all false } else Mon.reset
    crn := { Crn.reset with banks := s.crn.banks }
    win := s.win.nonvolatile
    nve := s.nve.nonvolatile
    pins := s.pins }

/-- A POWER-ON reset clears the logic die; RST_CAUSE holds the groups that fell (R397). -/
def State.powerOn (s : State) (groups : BitVec 4) : State :=
  { State.reset with
    pending := s.pending
    freeCtr := s.freeCtr
    regs := sput regInit (s.regs.filter (fun p => p.1 == R_MTR_PDFLT)) R_RST_CAUSE (groups.setWidth 32)
    evr := { Evr.reset with sealArea := s.evr.sealArea, readMark := s.evr.readMark }
    rcp := { Rcp.reset with perst := s.rcp.perst }
    mtr := s.mtr.logicReset
    crn := { Crn.reset with banks := s.crn.banks }
    win := { s.win.nonvolatile with dramLost := true }
    nve := s.nve.nonvolatile
    pins := { s.pins with jtagIr := 1, jtagDr := 0, thermTrip := false } }

def execPowerOnReset (groups : BitVec 4) (s : State) : Out := .next (if groups = 0 then s else s.powerOn groups)

/-- A request of a source that R401 holds back in GEN. -/
def State.requestFull (s : State) (cause : Nat) (latch : Rcp → Rcp) : State :=
  let s := s.setStat R_RST_CAUSE cause
  if s.mtr.sp = .gen then s.modRcp latch else s.fullReset false

def execResetN (s : State) : Out :=
  .next (
    let s := s.modPins (fun p => { p with resetN := false })
    s.requestFull 4 (fun p => { p with latchedN := true }))

def execVmotUndervoltageReset (s : State) : Out := .next ((s.setStat R_RST_CAUSE 15).fullReset false)

def State.rcpInt (s : State) (i : Nat) : State := s.setStat R_RCP_INTSTAT i

/-- A write of RCP_SWRST. -/
def State.swReset (s : State) (data : Word) : State :=
  if fld data 7 0 = 0xA5 ∧ s.regB R_RCP_CTL 4 then s.requestFull 16 (fun p => { p with latchedSw := true })
  else s.rcpInt 2

def execSoftwareFullReset (x : Accessor) (data : Word) (s : State) : Out :=
  .next (s.access x R_RCP_ID true (fun s => s.swReset data))

/-- The spindle is not in GEN: a request held back there takes effect (R401). -/
def execFullReset (s : State) : Out := .next (if s.mtr.sp = .gen then s else s.fullReset false)

/-- 125 °C, in 1/16 °C (R226). -/
def execThermalTrip (n : BitVec 4) (t : BitVec 16) (s : State) : Out :=
  .next (
    if n.toNat < 12 ∧ 2000 ≤ t.toInt then
      let s := (s.tempIn n.toNat t).modPins (fun p => { p with thermTrip := true })
      ((s.setStat R_RST_CAUSE 14).fullReset true).modRcp (fun p => { p with thermHold := true })
    else s)

/-- Every logic-die sensor reads below 110 °C: a reading of each, in 1/16 °C (R226). -/
def execThermalTripRelease (temps : List (BitVec 16)) (s : State) : Out :=
  .next (
    if s.rcp.thermHold ∧ temps.length = 12 ∧ temps.all (fun t => decide (t.toInt < 1760)) then
      let s := temps.zipIdx.foldl (fun (s : State) p => s.tempIn p.2 p.1) s
      (s.modPins (fun p => { p with thermTrip := false })).modRcp (fun p => { p with thermHold := false })
    else s)

/-! ### Block scope (R398) -/

/-- The block of each port (Table 3.6): its base as Ridge A sees it; the block bus is the block of P_BB_ADDR. -/
def State.portBase (s : State) (c : CtxId) (port : Nat) : Option Nat :=
  if port ≤ 0x12 then some (rk c.ridge R_SPU_ID)
  else if 0x20 ≤ port ∧ port ≤ 0x26 then some (rk c.ridge R_ANG_ID)
  else if 0x40 ≤ port ∧ port < 0x60 then some (tk (quadOf ((port - 0x40) / 8)) R_STT_ID)
  else if 0x60 ≤ port ∧ port ≤ 0x6B then some (rk c.ridge R_DEC_ID)
  else if 0x80 ≤ port ∧ port ≤ 0x88 then some (rk c.ridge R_STE_ID)
  else if 0xA0 ≤ port ∧ port ≤ 0xA7 then some (rk c.ridge R_CEN_ID)
  else if 0xC0 ≤ port ∧ port ≤ 0xC4 then some R_RLG_ID
  else if 0xC5 ≤ port ∧ port ≤ 0xC6 then some R_HDG_ID
  else if 0xC7 ≤ port ∧ port ≤ 0xC9 then some R_ZTB_ID
  else if 0xCA ≤ port ∧ port ≤ 0xCB then some R_NVE_ID
  else if 0xCC ≤ port ∧ port ≤ 0xD4 then some (rk c.ridge R_CRN_ID)
  else if 0xD5 ≤ port ∧ port ≤ 0xD9 then some R_EVR_ID
  else if 0xDA ≤ port ∧ port ≤ 0xDB then some R_DRC_ID
  else if 0xE0 ≤ port ∧ port ≤ 0xE2 then
    let a := ((s.ctx c).stagedAt 0xE0).toNat % 2 ^ 32
    some (blockBase (if a < 0x1000000 then rk c.ridge a else a))
  else none

def bothCtxs : List CtxId := ridgeCtxs .a ++ ridgeCtxs .b

/-- The outstanding reads of a context at ports of a block. -/
def State.readsAt (s : State) (base : Nat) (c : CtxId) : List ReadOut :=
  (s.ctx c).reads.filter (fun o => decide (s.portBase c o.port = some base))

/-- Every outstanding read at a block completes with an error response: reason 5. -/
def State.failReads (s : State) (base : Nat) : State :=
  bothCtxs.foldl
    (fun (s : State) c => (s.readsAt base c).foldl (fun (s : State) o => (s.readEnds c o false).refuseCtx c o.port 5) s) s

/-- Blocks of a Ridge, by the offset of their base. -/
def State.ridgeBlock (s : State) (r : Side) (off : Nat) : State :=
  match off with
  | 0x0 => s.modCore r (fun m => { m with spurs := Core.reset.spurs })
  | 0x10000 => s.modCore r (fun m => { m with store := [], ldData := 0 })
  | 0x20000 => ((Quad.all.filter (fun t => s.owns r t)).foldl (fun (s : State) t => s.flushAeq t) s).modAng r (fun _ => Ang.reset)
  | 0x30000 => ((s.dec.get r).jobs.foldl (fun (s : State) j => s.dropJob j.2) s).modDec r (fun _ => Dec.reset)
  | 0x40000 => s.modCen r (fun _ => Cen.reset)
  | 0x50000 => s.modSte r (fun _ => Ste.reset)
  | 0x60000 => s.modMem r (fun _ => [])
  | _ => s

/-- A stream tile: gates fall, the tile is as after reset; its AEQ belongs to the synthesizer and stays. -/
def State.tileBlock (s : State) (t : Quad) : State :=
  ((s.forceLow t true).dropRg t).modTile t (fun x =>
    { Tile.reset with aeq := x.aeq, illact := x.illact, missed := x.missed, hswerr := x.hswerr })

def State.hptBlock (s : State) (p : Side) : State :=
  (s.portCtrls p).modHpt p (fun _ => { Hpt.reset with inReset := s.rcp.perst.get p })

/-- Blocks of the Saddle. -/
def State.saddleBlock (s : State) (base : Nat) : State :=
  match base with
  | 0x2000000 => s.tileBlock .q0
  | 0x2010000 => s.tileBlock .q1
  | 0x2020000 => s.tileBlock .q2
  | 0x2030000 => s.tileBlock .q3
  | 0x2040000 => (s.forceSlots .a).modLink .a (fun _ => Link.reset)
  | 0x2048000 => (s.forceSlots .b).modLink .b (fun _ => Link.reset)
  | 0x2050000 => s.hptBlock .a
  | 0x2058000 => s.hptBlock .b
  | 0x2060000 => s.modNve (fun v => { v.nonvolatile with fwActive := v.fwActive, fwNext := v.fwNext })
  | 0x2070000 => s.modRlg (fun _ => Ledger.reset)
  | 0x2080000 => s.modHdg (fun _ => Hdg.reset)
  | 0x2090000 => s.modZtb (fun _ => Ztb.reset)
  | 0x20A0000 => (s.modDram .a DramCh.logicReset).modDram .b DramCh.logicReset
  | 0x20B0000 => s.modEvr Evr.fullClear
  | 0x20D0000 => s.modMon (fun _ => Mon.reset)
  | 0x20E0000 => ((s.modMtr Mtr.blockReset).settleIdle .a).settleIdle .b
  | 0x2100000 => s.modCry Cry.fullClear
  | _ => s

/-- One block is cleared through its isolation wrapper. `base` is the block's key. -/
def State.blockReset (s : State) (base : Nat) : State :=
  let s := s.failReads base
  let s :=
    s.keepRegs (fun p =>
      decide (blockBase p.1 + (if p.1 < 0x1000000 ∨ 0x2000000 ≤ p.1 then 0 else 0x1000000) ≠ base) || keptReg false p.1)
  if base < 0x1000000 then s.ridgeBlock .a base
  else if base < 0x2000000 then s.ridgeBlock .b (base - 0x1000000)
  else s.saddleBlock base

/-- The block that RCP_BLKRST and RCP_BWDSEL name; RCP and FUS, the Saddle fabric and values that name no block are
none. -/
def selBase (r : Side) (w : Nat) : Option Nat :=
  let k := w % 64 * 0x8000
  if w / 256 % 2 = 0 then (if k < 0x80000 ∧ (blockRows k).isSome then some (rk r k) else none)
  else
    let b := 0x2000000 + k
    if (blockRows b).isSome ∧ b ≠ R_RCP_ID ∧ b ≠ R_FUS_ID then some b else none

/-- The reset of a block starts: it reads busy until BLOCK_RESET_DONE. -/
def State.startBlockReset (s : State) (w base : Nat) : State :=
  let s := s.setReg R_RCP_BLKRSTAT (BitVec.ofNat 32 (w % 512))
  (s.modRcp (fun p => { p with blkBusy := some (w % 512) })).blockReset base

/-- A write of RCP_BLKRST. -/
def State.blkReset (s : State) (r : Side) (data : Word) : State :=
  if bit data 31 = false then s
  else
    match selBase r (fld data 8 0) with
    | some b => (s.setStat R_RST_CAUSE 17).startBlockReset (fld data 8 0) b
    | none => s.rcpInt 2

def execSoftwareBlockReset (x : Accessor) (data : Word) (s : State) : Out :=
  .next (s.access x R_RCP_ID true (fun s => s.blkReset x.ridge data))

def execBlockResetDone (s : State) : Out :=
  .next (if s.rcp.blkBusy.isSome then (s.modRcp (fun p => { p with blkBusy := none })).rcpInt 0 else s)

/-! ### Watchdogs (R400) -/

/-- The register of a block: a Ridge has its own for its blocks, the Saddle one for both. -/
def bwdKey (r : Side) (w : Nat) : Nat := if 256 ≤ w % 512 then w % 512 else r.idx * 512 + w % 512

/-- RCP_BWDCFG of a block as a Ridge names it. -/
def State.bwdCfg (s : State) (r : Side) (w : Nat) : Word := sg 0x80000064#32 s.rcp.bwdCfg (bwdKey r w)

def execBlockWatchdog (r : Side) (blk : BitVec 9) (s : State) : Out :=
  .next (
    match selBase r blk.toNat with
    | some b =>
      if bit (s.bwdCfg r blk.toNat) 31 && s.blockUp b then
        (((s.setStat R_RST_CAUSE 18).rcpInt 1).event 0x0021 (srcBlock R_RCP_ID) []).startBlockReset blk.toNat b
      else s
    | none => s)

/-- A Ridge watchdog's period starts again. -/
def State.kickRidge (s : State) (r : Side) : State := s.modRcp (fun p => { p with rwdMs := p.rwdMs.set r 0 })

/-- RCP_RWDCFG: the watchdog is enabled, and its period of 1 to 10,000 ms has passed. -/
def State.ridgeExpired (s : State) (r : Side) : Bool :=
  let k := R_RCP_RWDCFG + 4 * r.idx
  s.regB k 31 && decide (clampN 1 10000 (s.regF k 13 0) ≤ s.rcp.rwdMs.get r)

/-- Expiry fences and resets the Ridge; one held in reset already only shows the cause (R397). -/
def execRidgeWatchdog (r : Side) (s : State) : Out :=
  .next (
    if s.ridgeExpired r = false then s
    else if s.ridgeLive r then ((s.fence r 4).ridgeReset r).kickRidge r
    else (s.fence r 4).kickRidge r)

/-- RCP_RWDKICK. -/
def execWatchdogKick (x : Accessor) (r : Side) (s : State) : Out := .next (s.access x R_RCP_ID true (fun s => s.kickRidge r))

/-! ### Release (R402–R404, R411) -/

/-- CRC-32 (reflected, polynomial 0x04C11DB7). -/
def crc32Bits : Nat → Word → Word
  | 0, c => c
  | n + 1, c => crc32Bits n (if bit c 0 then (c >>> 1) ^^^ 0xEDB88320#32 else c >>> 1)

def crc32 (bs : List Byte) : Word :=
  bs.foldl (fun c b => crc32Bits 8 (c ^^^ b.setWidth 32)) 0xFFFFFFFF#32 ^^^ 0xFFFFFFFF#32

/-- A fuse copy of 1,024 words whose word 1,023 is the CRC of the others. -/
def fuseCrc (ws : List Word) : Word := crc32 ((ws.take 1023).flatMap (fun w => bytesLE 4 w))

def fuseGood (ws : List Word) : Bool := decide (ws.length = 1024) && decide (lget 0 ws 1023 = fuseCrc ws)

/-- The shadow registers. -/
def fuseShadow (ws : List Word) : Sparse Word :=
  ((List.range ws.length).zip ws).filter (fun p => decide (p.2 ≠ 0))

/-- The fuse load: copy 0, or copy 1 where 0 fails; recovery-only mode where both fail. -/
def State.fuseLoad (s : State) (f0 f1 : List Word) : State :=
  let g0 := fuseGood f0
  let g1 := fuseGood f1
  let s := if g0 then s else s.setStat R_FUS_INTSTAT 0
  if g0 || g1 then
    let ws := if g0 then f0 else f1
    let fu : Fus :=
      { Fus.reset with shadow := fuseShadow ws, trimValid := true, good0 := g0, good1 := g1, inUse := if g0 then 0 else 1 }
    (s.modFus (fun _ => fu)).setReg R_FUS_CRC (fuseCrc ws)
  else
    (s.modFus (fun _ => { Fus.reset with recovery := true })).setStat R_FUS_INTSTAT 1

/-- Domains that hardware sets ON (Table 19.2 step 4): all but the stream tiles and the motors. -/
def startDoms : Sparse Dom :=
  ((List.range 96).filter (fun d => decide (d < 22 ∨ (42 ≤ d ∧ d < 93)))).map (fun d => (d, ⟨.on, false, false, false⟩))

/-- Straps are sampled at the release of power-on reset and at a release of RESET_N, WSC_EN at the former only. -/
def State.sampleStraps (s : State) (x : Straps) : State :=
  let clk := if x.clkmode = 3 then 2 else x.clkmode
  let y : Straps := { x with clkmode := clk }
  if s.rcp.warm = false then s.modRcp (fun p => { p with straps := y })
  else if s.pins.resetN = false then s.modRcp (fun p => { p with straps := { y with wscEn := p.straps.wscEn } })
  else s

/-- A Ridge that is released from a FULL or POWER-ON reset. -/
def Core.selftest : Core := { Core.reset with st := .selftest }

/-- The order of Table 19.2: the link to the power die, the fuses, the Saddle, the Ridges, the boot ROM, which
makes the port of a host push ready (R403). -/
def State.release (s : State) (x : Straps) (f0 f1 : List Word) : State :=
  let s := (s.sampleStraps x).modPins (fun p => { p with resetN := true })
  let s := (s.modMtr (fun m => { m with linkUp := true })).fuseLoad f0 f1
  let s := s.modRcp (fun p =>
    { p with rwdMs := Two.all 0, asserted := false, noxtal := false, phase := if s.fus.recovery then .recovery else .boot, doms := startDoms })
  let t := s.free 16
  let s := (s.setReg R_RCP_BOOTTIME (t.setWidth 32)).freeNext
  let s := Side.all.foldl
    (fun (s : State) x =>
      ((s.modCore x (fun _ => Core.selftest)).modDram x (fun c => { c with selfRefresh := false })).modHpt x
        (fun _ => { Hpt.reset with inReset := s.rcp.perst.get x })) s
  let s := s.modCrn (fun c => { c with usable := Two.all true, replayed := false })
  if s.fus.recovery then s
  else if s.rcp.straps.bootsrc = 1 then s.cfgReady .a
  else if s.rcp.straps.bootsrc = 2 then s.cfgReady .b
  else s

def execResetRelease (straps : Straps) (fuse0 fuse1 : List Word) (s : State) : Out :=
  .next (if s.rcp.asserted && !s.rcp.thermHold then s.release straps fuse0 fuse1 else s)

/-- No oscillation on XTAL_IN: the device stays at the fuse load. -/
def execNoxtal (s : State) : Out :=
  .next (
    if s.rcp.asserted && !s.rcp.thermHold then s.modRcp (fun p => { p with asserted := false, noxtal := true, phase := .fuse })
    else s)

/-! ### Measured boot (R387–R389, R405, R412) -/

/-- An image is to be pushed: BOOTSRC 1 to 3, or recovery-only mode (R403, R404). -/
def State.pushedBoot (s : State) : Bool := decide (s.rcp.straps.bootsrc ≠ 0) || s.fus.recovery

/-- The host writes the image length through port `p` (BOOTSRC 1 and 2). -/
def execHostPushLength (p : Side) (len : Word) (s : State) : Out :=
  .next (
    if s.rcp.phase = .boot ∧ s.rcp.straps.bootsrc = 1 + p.idx then s.modRcp (fun r => { r with pushLen := some len.toNat }) else s)

/-- A transfer over the UART ends (BOOTSRC 3, recovery-only mode). UART_RX is ignored while GPD_DBGCTL.UART is 0, but in
recovery-only mode (R437). -/
def execUartImageReceived (len : Word) (s : State) : Out :=
  .next (
    if s.rcp.phase = .recovery ∨ (s.rcp.phase = .boot ∧ s.rcp.straps.bootsrc = 3 ∧ s.regB R_GPD_DBGCTL 1 = true) then
      s.modRcp (fun r => { r with pushLen := some len.toNat })
    else s)

/-- RCP_STRAP. -/
def State.strapWord (s : State) : Word :=
  let x := s.rcp.straps
  BitVec.ofNat 32 (b2n x.wscEn * 256 + b2n x.portmode * 64 + x.clkmode % 4 * 16 + x.bootsrc % 4)

/-- A record of the boot ROM, a context of Ridge `r`. -/
def State.bootRec (s : State) (r : Side) (code : BitVec 16) (ps : List Word) : EvRec :=
  s.evr.mkRec code true 0 (srcCtx (kCtx0 r)) ps

def State.bootPost (s : State) (code : BitVec 16) (g : List EvRec) : State := (s.postGroup code ⟨g, 0, none⟩).1

/-- A MEAS record and its continuation (Table 18.4); indices 4 to 6 name the loading Ridge. -/
def State.meas (s : State) (r : Side) (idx slot : Nat) (d : BitVec 384) (size : Nat) : State :=
  let by_ := if 4 ≤ idx ∧ idx ≤ 6 then r.idx else 0xFF
  let bs := bytesBE 48 d
  let x := s.bootRec r 0x0101 (BitVec.ofNat 32 (idx + by_ * 256 + slot * 65536) :: (payloadParams (bs.take 24)).take 6)
  s.bootPost 0x0101 [x, x.cont ((payloadParams (bs.drop 24)).take 6 ++ [BitVec.ofNat 32 size])]

def word7 (ps : List Nat) : List Word := ((ps ++ List.replicate 7 0).take 7).map (fun n => BitVec.ofNat 32 n)

def State.verifyFail (s : State) (r : Side) (idx slot cause : Nat) : State :=
  s.bootPost 0x0102 [s.bootRec r 0x0102 (word7 [idx + slot * 65536, cause])]

/-- The boot gives up (R388, R412): the device serves the commands of R388 only. -/
def State.limit (s : State) (r : Side) (code : BitVec 16) (p : Nat) : State :=
  (s.bootPost code [s.bootRec r code (word7 [p])]).modRcp (fun p => { p with limited := true })

/-- The order in which slots are tried (R388): the active one, then the others rising. -/
def State.slotOrder (s : State) : List Nat :=
  if s.pushedBoot then [0] else s.nve.fwActive :: [1, 2, 3].filter (fun n => n != s.nve.fwActive)

def slotIn (b : BootIn) (n : Nat) : Option SlotIn := if n = 0 then b.slots.head? else (b.slots.drop (n - 1)).head?

/-- The minimum security version: fuse word 40 (Table 19.3, CRY_SVN). -/
def State.minSvn (s : State) : Nat := fld (sg 0 s.fus.shadow 40) 15 0

/-- The object of a slot that fails, and why: an image older than CRY_SVN allows fails with cause 3. -/
def State.slotFail (s : State) (x : SlotIn) : Option (Nat × Nat) :=
  match x.fail with
  | some (i, c) => if x.svn.toNat < s.minSvn ∧ 4 < i then some (4, 3) else some (i, c)
  | none => if x.svn.toNat < s.minSvn then some (4, 3) else none

/-- An object measured where it comes before a failing one. -/
def State.measBelow (s : State) (r : Side) (upTo slot idx : Nat) (d : BitVec 384) (size : Nat) : State :=
  if idx < upTo then s.meas r idx slot d size else s

/-- Steps 4 to 6 for one slot: objects before a failing one are measured. -/
def State.trySlot (s : State) (r : Side) (n : Nat) (x : SlotIn) : State :=
  let bad := s.slotFail x
  let upTo := (bad.map (fun p => p.1)).getD 9
  let s := s.measBelow r upTo n 3 x.digests.q0 x.sizes.q0
  let s := s.measBelow r upTo n 4 x.digests.q1 x.sizes.q1
  let s := s.measBelow r upTo n 5 x.digests.q2 x.sizes.q2
  match bad with
  | some (i, c) => s.verifyFail r i n c
  | none => s

/-- Slots are tried until one verifies. -/
def State.trySlots (s : State) (r : Side) (b : BootIn) : List Nat → State × Option (Nat × SlotIn)
  | [] => (s, none)
  | n :: t =>
    match slotIn b n with
    | none => s.trySlots r b t
    | some x =>
      let s := s.trySlot r n x
      if (s.slotFail x).isNone then (s, some (n, x)) else s.trySlots r b t

/-- The copy in force (R405): the one whose sequence is later as a serial number; equal sequences take copy 0. -/
def pickDcb (d : Two DcbIn) : Option DcbIn :=
  match d.a.fail, d.b.fail with
  | none, none => if 0 < (d.b.seq - d.a.seq).toInt then some d.b else some d.a
  | none, some _ => some d.a
  | some _, none => some d.b
  | some _, some _ => none

def State.dcbFails (s : State) (r : Side) (slot : Nat) (d : Two DcbIn) : State :=
  let one (s : State) (x : DcbIn) : State :=
    match x.fail with
    | some c => s.verifyFail r 6 slot c
    | none => s
  one (one s d.a) d.b

/-- The image goes into both Ridges: words, match registers, tag (R26–R28). -/
def State.loadImageTo (s : State) (x : SlotIn) (q : Side) : State :=
  let s := x.words.foldl
    (fun (s : State) p => if inWstore p.1 || inPatch p.1 then s.putStore q p.1 p.2 else s) s
  let s := x.patches.foldl
    (fun (s : State) p => if p.1 < 64 then s.setReg (rk q (R_CST_MATCH + 4 * p.1)) (p.2 &&& 0x3FFFF#32) else s) s
  let s := (s.setReg (rk q R_CST_MATCHEN_LO) (x.matchEn.setWidth 32)).setReg (rk q R_CST_MATCHEN_HI) ((x.matchEn >>> 32).setWidth 32)
  s.modReg (rk q R_CST_CTL) (fun w => putFld w 15 8 x.imgtag.toNat)

/-- Values of the Drive Configuration Block take effect (step 7). -/
def State.useDcb (s : State) (d : Dcb) : State :=
  let s := s.modRcp (fun p => { p with wscN := d.wscN, l5rev := min 120 d.l5rev, freemin := d.freemin, floor := d.floor, triggers := d.triggers })
  let four (x : Side) : Four Nat := ⟨d.staging.get x, d.emergency.get x, d.cairn.get x, d.gcres.get x⟩
  let s := s.modRcp (fun p => { p with reserved := ⟨four .a, four .b⟩ })
  let s := (s.modRlg (fun g => { g with gcrSize := d.gcres })).setReg R_GPD_DBGCTL (d.dbgCtl.setWidth 32)
  let k (s : State) (l : Side) : State := s.modReg (lk l R_QLK_CTL) (fun w => putFld w 9 8 (d.kinds.get l))
  k (k s .a) .b

/-- The UDS gives CDI_0 once after power-on, and is then locked (R389). -/
def State.deriveCdi0 (s : State) (rom fuses : BitVec 384) : State :=
  if s.cry.udsLocked then s
  else
    s.modCry (fun k => { k with cdi0 := some (Config.hmac384 Config.uds (bytesBE 48 rom ++ bytesBE 48 fuses)), udsLocked := true })

/-- CDI_1, the alias key and its certificate (step 9). -/
def State.deriveAlias (s : State) (ds : List (BitVec 384)) : State :=
  match s.cry.cdi0 with
  | none => s
  | some c0 =>
    let bs := ds.flatMap (fun d => bytesBE 48 d)
    let c1 := Config.hmac384 c0 bs
    let k := Config.ecKey c1
    s.modCry (fun y => { y with cdi1 := some c1, aliasKey := some k, cert := Config.aliasCert (Config.ecKey c0) k bs })

/-- The SEAL record (Table 18.8): `start` is the SEQ of SPAN_START, `n` the records absorbed before. -/
def State.seal (s : State) (r : Side) (start n slot svn : Nat) : State :=
  s.bootPost 0x01F0 [s.bootRec r 0x01F0
    (word7 [n, start % 2 ^ 32, start / 2 ^ 32 + slot * 2 ^ 24, (s.imgtag .a).toNat + (s.imgtag .b).toNat * 256, svn])]

def wscListed (n : Nat) : Bool := [256, 320, 384, 448, 512].contains n

/-- Steps 7 and 8, for a slot that has verified; gives the digest of the block measured. -/
def State.bootDcb (s : State) (r : Side) (n : Nat) (x : SlotIn) (b : BootIn) : State × BitVec 384 :=
  let s := s.dcbFails r n b.dcb
  match pickDcb b.dcb with
  | none => ((s.limit r 0x0103 2).freeNext, s.free 384)
  | some d =>
    let s := (s.meas r 6 n d.digest d.size).useDcb d.content
    if s.rcp.straps.wscEn && !wscListed d.content.wscN then (s.limit r 0x0104 d.content.wscN, d.digest)
    else (s.meas r 8 n x.digests.q3 x.sizes.q3, d.digest)

/-- Digests that enter the derivation for objects that were not measured: free values (DESIGN CHOICE, log 31). -/
def State.freeDigest (s : State) (k : Nat) : BitVec 384 := Config.freeValue 384 (s.freeCtr + k)

/-- Steps 4 to 9: the slot tried last and its security version. -/
def State.bootChain (s : State) (r : Side) (b : BootIn) : State × Nat × Nat :=
  match s.trySlots r b s.slotOrder with
  | (s, none) => (((s.limit r 0x0103 1).deriveAlias ((List.range 4).map s.freeDigest)).freeNext, 0, 0)
  | (s, some (n, x)) =>
    let s := (s.loadImageTo x .a).loadImageTo x .b
    let s := if n = 0 then s else s.modNve (fun v => { v with fwActive := n })
    let (s, d6) := s.bootDcb r n x b
    (s.deriveAlias [x.digests.q0, x.digests.q1, x.digests.q2, d6], n, x.svn.toNat)

/-- The boot of Table 18.7 on Ridge `r`, up to its SEAL record. -/
def State.boot (s : State) (r : Side) (b : BootIn) : State :=
  let used := s.evr.used
  let start := s.evr.seq.toNat + used
  let ps : List Word := [s.reg R_RST_CAUSE, s.strapWord] ++ word7 [0, 0, 0, 0, 0]
  let s := s.bootPost 0x0100 [s.bootRec r 0x0100 (ps.take 7)]
  let s := (s.meas r 1 0 b.rom.1 b.rom.2).meas r 2 0 b.fuses.1 b.fuses.2
  let s := s.deriveCdi0 b.rom.1 b.fuses.1
  let (s, slot, svn) := s.bootChain r b
  let s := (s.setStat (rk .a R_CRN_CTL) 4).setStat (rk .b R_CRN_CTL) 4
  let s := s.seal r start (s.evr.used - used) slot svn
  let s := (s.cfgReady .a).cfgReady .b
  (s.modRcp (fun p => { p with pushLen := none })).modNve (fun v => { v with asn := v.asnLast })

/-- The boot runs once after a release: on Ridge A, or B when A is held in reset, with the recorder scanned and room for
its records in the intake. -/
def State.bootReady (s : State) (r : Side) : Bool :=
  decide (s.rcp.phase = .boot ∨ s.rcp.phase = .recovery) && s.ridgeLive r && (s.core.get r).coldBoot &&
    (decide (r = .a) || !s.ridgeLive .a) && s.cry.cdi1.isNone && s.evr.scanDone && s.evrUp &&
    decide (s.evr.used ≤ 24) && (!s.pushedBoot || s.rcp.pushLen.isSome)

def execMeasuredBoot (r : Side) (b : BootIn) (s : State) : Out := .next (if s.bootReady r then s.boot r b else s)

end Sys2Proof.Machine
end

