-- ==== Sys2Proof/Machine/Domain.lean ====
section
/-!
DEFINITION. Power domains, device power states (R407–R409, R413), and the wedge count check (R412).
-/
namespace Sys2Proof.Machine

/-! ### Parents (Table 19.5) -/

/-- The domains a domain's parent names; it depends on any of them. -/
def domParents (single : Bool) (d : Nat) : List Nat :=
  if d < 2 then []
  else if d < 14 then [(d - 2) / 6]
  else if d < 22 then [(d - 14) / 4]
  else if d < 26 then [90, 91]
  else if d < 30 then [d - 4]
  else if d < 42 then [90, 91]
  else if d < 50 then [(d - 42) / 4]
  else if d < 54 then [d % 2]
  else if d = 54 then [50, 51]
  else if d = 57 then [0]
  else if d = 58 then [1]
  else if d < 71 then [90, 91]
  else if d < 79 then [(d - 71) / 4]
  else if d < 81 then [90, 91]
  else if d < 85 then [if single ∨ d < 83 then 85 else 86]
  else if d < 90 then [90, 91]
  else if d < 92 then [d - 90]
  else if d = 92 then [90, 91]
  else []

def State.parentsOf (s : State) (d : Nat) : List Nat := domParents s.rcp.straps.portmode d

/-- The parent is ON. The power die is not switched: its domains need the link to it. -/
def State.parentOn (s : State) (d : Nat) : Bool :=
  if 93 ≤ d then s.mtr.linkUp else (s.parentsOf d).any s.domOn

/-- Some domain that depends on this one alone is ON or STARTING. -/
def State.childLive (s : State) (d : Nat) : Bool :=
  (List.range 93).any (fun k =>
    (s.parentsOf k).contains d && decide ((s.dom k).st = .on ∨ (s.dom k).st = .starting) &&
      !((s.parentsOf k).any (fun p => p != d && s.domOn p)))

def retainable (d : Nat) : Bool := decide ((14 ≤ d ∧ d < 22) ∨ (59 ≤ d ∧ d < 71))

/-! ### Power states (R409) -/

/-- Neither OFF nor in RET. -/
def State.domLive (s : State) (d : Nat) : Bool := decide ((s.dom d).st ≠ .off ∧ (s.dom d).st ≠ .ret)

/-- A stream tile's domain, and its stream. -/
def tileDom (d : Nat) : Option Quad := if 22 ≤ d ∧ d < 42 then some (quadOf (d - 22)) else none

def spareDom (d : Nat) : Bool := decide (26 ≤ d ∧ d < 30)

/-- Streams with a live tile domain, besides the one named. -/
def State.otherStreams (s : State) (t : Quad) : List Quad :=
  Quad.all.filter (fun q => q != t && (List.range 5).any (fun i => s.domLive (22 + 4 * i + q.idx)))

/-- The LDPC engines of the same Ridge that are live, besides the one named. -/
def State.otherEngines (s : State) (d : Nat) : Nat :=
  ((List.range 8).filter (fun e => decide (e / 4 = (d - 42) / 4) && (42 + e != d) && s.domLive (42 + e))).length

def engineDom (d : Nat) : Bool := decide (42 ≤ d ∧ d < 50)

/-- Domains of the Standby row: the H and K Spurs, one control-store bank per Ridge, Cairn banks, lanes and port
controllers, crypto, and those allowed in every state. -/
def State.standbyOk (s : State) (d : Nat) : Bool :=
  decide (d = 0 ∨ d = 1 ∨ d = 89 ∨ d = 90 ∨ d = 91) || decide (d = 2 ∨ d = 7 ∨ d = 8 ∨ d = 13) ||
    (decide (14 ≤ d ∧ d < 22) &&
      (List.range 8).all (fun k => (14 + k == d) || decide (k / 4 ≠ (d - 14) / 4) || !s.domLive (14 + k))) ||
    decide ((71 ≤ d ∧ d < 79) ∨ (81 ≤ d ∧ d < 89))

/-- A domain lies within the allowance of a power state (Table 19.6). -/
def State.allowed (s : State) (ps d : Nat) : Bool :=
  match ps with
  | 0 => true
  | 1 =>
    match tileDom d with
    | some t => decide ((s.otherStreams t).length < 2)
    | none => !engineDom d || decide (s.otherEngines d < 2)
  | 2 =>
    match tileDom d with
    | some t => !spareDom d && !(s.otherStreams t).contains t.mate
    | none => decide (d ≠ 54) && (!engineDom d || decide (s.otherEngines d < 1))
  | 3 =>
    match tileDom d with
    | some _ => decide (d = 34 ∨ d = 36 ∨ d = 22 ∨ d = 24)
    | none => !engineDom d
  | _ => s.standbyOk d

def State.pstate (s : State) : Nat := s.regF R_RCP_PSTATE 2 0

/-- A write of RCP_PSTATE; a larger code is a lower state. -/
def State.pstateWrite (s : State) (v : Nat) : State :=
  if 5 ≤ v then s.rcpInt 4
  else if s.pstate < v ∧ (List.range 96).any (fun d => s.domLive d && !s.allowed v d) then s.rcpInt 4
  else s.setReg R_RCP_PSTATE (BitVec.ofNat 32 v)

def execPowerStateSelect (x : Accessor) (v : BitVec 3) (s : State) : Out :=
  .next (s.access x R_RCP_ID true (fun s => s.pstateWrite v.toNat))

/-! ### Requests (R407, R408) -/

/-- Domains that wedge-servo mode keeps OFF (R413). -/
def wscOff (d : Nat) : Bool := [23, 25, 27, 29, 31, 33, 39, 41, 34, 35, 36, 37].contains d

/-- The motor function of a power-die domain is OFF; FAULT counts as OFF (R407). -/
def State.motorOff (s : State) (d : Nat) : Bool :=
  if d = 93 then decide (s.mtr.sp = .off ∨ s.mtr.sp = .fault)
  else !(s.mtr.retracting.get (sideOf (d - 94))) && !s.regB R_MTR_VCCTL (d - 94)

/-- RCP_PDSEL: 96 to 127 stand for 95. -/
def State.pdsel (s : State) : Nat := min 95 (s.regF R_RCP_PDSEL 6 0)

/-- The cases in which a request is refused. -/
def State.domRefused (s : State) (d : Nat) (on : Bool) : Bool :=
  decide (d < 2) || !s.parentOn d || (!on && s.childLive d) ||
    (on && (!s.allowed s.pstate d || (s.wsc && wscOff d))) || (decide (93 ≤ d) && !s.motorOff d)

def State.modDom (s : State) (d : Nat) (f : Dom → Dom) : State :=
  s.modRcp (fun p => { p with doms := sp Dom.default p.doms d (f (sg Dom.default p.doms d)) })

/-- An enable or a disable reaches a domain. -/
def Dom.request (x : Dom) (on ret : Bool) : Dom :=
  match x.st with
  | .off => if on then { x with st := .starting } else x
  | .ret => if on then { x with st := .starting } else if ret then x else { x with st := .off }
  | .starting => if on then x else { x with disLatched := true, toRet := ret }
  | .on => if on then x else { x with st := .stopping, toRet := ret }
  | .stopping => if on then { x with enLatched := true } else { x with enLatched := false }

/-! ### What a domain holds -/

/-- The blocks whose transfers a domain's wrapper completes. -/
def domBlocks (d : Nat) : List Nat :=
  if 2 ≤ d ∧ d < 14 then []
  else if 42 ≤ d ∧ d < 50 then [rk (sideOf ((d - 42) / 4)) R_DEC_ID]
  else
    match d with
    | 50 => [R_CEN_ID]
    | 51 => [rk .b R_CEN_ID]
    | 52 => [R_ANG_ID]
    | 53 => [rk .b R_ANG_ID]
    | 55 => [R_QLK_ID]
    | 56 => [lk .b R_QLK_ID]
    | 57 => [R_STE_ID]
    | 58 => [rk .b R_STE_ID]
    | 85 => [R_HPT_ID]
    | 86 => [lk .b R_HPT_ID]
    | 89 => [R_MON_ID, R_EVR_ID]
    | _ => if 59 ≤ d ∧ d < 67 then [R_ZTB_ID] else if 67 ≤ d ∧ d < 71 then [R_HDG_ID] else if d = 79 ∨ d = 80 then [R_DRC_ID] else []

/-- Spur `i` of a Ridge, initialised and empty: every context in IDLE. -/
def State.spurOff (s : State) (r : Side) (i : Nat) : State :=
  match spurOf? i with
  | some sp => s.modCore r (fun m => { m with spurs := m.spurs.set sp ⟨Four.all Ctx.reset, 0⟩ })
  | none => s

/-- A domain that has been switched OFF holds nothing (R408). Cairn banks are non-volatile; the DRAM of a channel whose
controller is OFF is in self-refresh. -/
def State.domClear (s : State) (d : Nat) : State :=
  let both (a b : Nat) : Bool := decide ((s.dom a).st = .off) && decide ((s.dom b).st = .off)
  if 2 ≤ d ∧ d < 14 then s.spurOff (sideOf ((d - 2) / 6)) ((d - 2) % 6)
  else if 14 ≤ d ∧ d < 22 then
    s.modCore (sideOf ((d - 14) / 4)) (fun m =>
      { m with store := m.store.filter (fun p => Config.cstBank p.1 != (d - 14) % 4) })
  else if 26 ≤ d ∧ d < 30 then s.modTile (quadOf (d - 26)) (fun x => { x with spare := .idle })
  else if 59 ≤ d ∧ d < 67 then
    s.modZtb (fun z => { z with entries := z.entries.filter (fun p => Config.ztbBank p.1 != d - 59) })
  else if 67 ≤ d ∧ d < 71 then s.modHdg (fun _ => Hdg.reset)
  else
    match d with
    | 54 => (s.modCen .a (fun e => { e with traces := Four.all Trace.reset })).modCen .b (fun e => { e with traces := Four.all Trace.reset })
    | 79 => s.modDram .a (fun c => { c with selfRefresh := true })
    | 80 => s.modDram .b (fun c => { c with selfRefresh := true })
    | 87 => if both 87 88 then s.blockReset R_CRY_ID else s
    | 88 => if both 87 88 then s.blockReset R_CRY_ID else s
    | 90 => if both 90 91 then [R_NVE_ID, R_RLG_ID, R_MTR_ID, R_GPD_ID].foldl State.blockReset s else s
    | 91 => if both 90 91 then [R_NVE_ID, R_RLG_ID, R_MTR_ID, R_GPD_ID].foldl State.blockReset s else s
    | _ => if 42 ≤ d ∧ d < 50 then s else (domBlocks d).foldl State.blockReset s

/-- What a domain's stop waits for (R99, R408): outstanding reads, a spare slice standing in, decodes of the engine,
calibrations of its targets. -/
def State.stopWaits (s : State) (d : Nat) : Bool :=
  (domBlocks d).any (fun b => bothCtxs.any (fun c => !(s.readsAt b c).isEmpty)) ||
    (decide (26 ≤ d ∧ d < 30) && decide ((s.tl (quadOf (d - 26))).spare ≠ .idle)) ||
    (decide (42 ≤ d ∧ d < 50) &&
      (s.dec.get (sideOf ((d - 42) / 4))).jobs.any (fun j => decide (j.1 / 4 = (d - 42) % 4))) ||
    s.mon.calRuns.any (fun x => decide (calDom x = d))

/-- Calibrations whose target's domain starts STOPPING are aborted (R218). -/
def State.calStopping (s : State) (d : Nat) : State :=
  if (s.dom d).st = .stopping then s.calAbortAll (fun x => decide (calDom x = d)) 3 else s

/-- A write of RCP_PDCTL for the selected domain. A domain that leaves RET for OFF loses its contents at once. -/
def State.domReq (s : State) (d : Nat) (on ret : Bool) : State :=
  if s.domRefused d on then s.rcpInt 3
  else
    let was := (s.dom d).st
    let s := s.modDom d (fun x => x.request on (ret && retainable d))
    let s := s.calStopping d
    if was = .ret ∧ (s.dom d).st = .off then s.domClear d else s

/-- RCP_PDCTL: 0 OFF, 1 ON, 2 RET. -/
def State.pdCtl (s : State) (v : Nat) : State :=
  match v with
  | 0 => s.domReq s.pdsel false false
  | 1 => s.domReq s.pdsel true false
  | 2 => s.domReq s.pdsel false true
  | _ => s

def execDomainOn (x : Accessor) (s : State) : Out := .next (s.access x R_RCP_ID true (fun s => s.pdCtl 1))

def execDomainOff (x : Accessor) (s : State) : Out := .next (s.access x R_RCP_ID true (fun s => s.pdCtl 0))

def execDomainRet (x : Accessor) (s : State) : Out := .next (s.access x R_RCP_ID true (fun s => s.pdCtl 2))

/-- A starting domain reaches ON; a latched disable is acted on. -/
def State.domStarted (s : State) (d : Nat) : State :=
  let s := s.modDom d (fun x => if x.disLatched then { x with st := .stopping, disLatched := false } else { x with st := .on })
  let s := if d = 79 ∨ d = 80 then s.modDram (sideOf (d - 79)) (fun c => { c with selfRefresh := false }) else s
  (s.calStopping d).rcpInt 5

def execDomainStarted (d : BitVec 7) (s : State) : Out :=
  .next (if (s.dom d.toNat).st = .starting then s.domStarted d.toNat else s)

/-- A stopping domain reaches OFF or RET; a latched enable is acted on. -/
def State.domStopped (s : State) (d : Nat) : State :=
  let x := s.dom d
  let s := s.modDom d (fun y => { y with st := if y.toRet then .ret else .off, toRet := false })
  let s := if x.toRet then s else s.domClear d
  let s := if x.enLatched then s.modDom d (fun y => { y with st := .starting, enLatched := false }) else s
  s.rcpInt 5

def execDomainStopped (d : BitVec 7) (s : State) : Out :=
  .next (if (s.dom d.toNat).st = .stopping ∧ s.stopWaits d.toNat = false then s.domStopped d.toNat else s)

/-! ### Wedge count (R412) -/

/-- The formatter has counted the wedges of one revolution: a count other than N parks the actuator and loses it. -/
def execWedgeCountMismatch (x : Side) (count : Nat) (s : State) : Out :=
  .next (
    if s.wsc && decide (count ≠ s.rcp.wscN) then
      ((s.retract x).event 0x0305 (srcBlock (tk (Quad.ofSlot x .a) R_STT_ID))
        [(0, BitVec.ofNat 32 s.rcp.wscN), (1, BitVec.ofNat 32 count)]).actuatorLost x 4
    else s)

end Sys2Proof.Machine
end

