-- ==== Sys2Proof/Machine/RegRead.lean ====
section
/-!
DEFINITION. What the registers read (chapter 22): the stored register, or the state a status register shows. Each
block's function takes the offset in the block and answers none where the register is a stored one. A measured value
that no command brings is free.
-/
namespace Sys2Proof.Machine

/-- A word from fields: lowest bit and value. -/
def packW (l : List (Nat × Nat)) : Word := BitVec.ofNat 32 ((l.map (fun p => p.2 * 2 ^ p.1)).sum)

def lo32 (w : DWord) : Word := w.extractLsb' 0 32

def hi32 (w : DWord) : Word := w.extractLsb' 32 32

/-- Bits 0 to n − 1 from a function. -/
def packBits (n : Nat) (f : Nat → Bool) : Nat := ((List.range n).map (fun i => b2n (f i) * 2 ^ i)).sum

/-! ### Ridge blocks -/

def CtxState.code : CtxState → Nat
  | .idle => 0
  | .run => 1
  | .wait => 2
  | .halt => 3
  | .fault => 4
  | .adopt => 5
  | .handler => 6

/-- SPU_STAT of a Spur (Table 2.9). -/
def State.spuStat (s : State) (r : Side) (sp : SpurId) : Word :=
  packW (Quad.all.map (fun q => (4 * q.idx, (s.ctx ⟨r, sp, q⟩).st.code)))

/-- SPU block. -/
def State.readSpu (s : State) (r : Side) (o : Nat) : Option Word :=
  if o = 0x20 then some (lo32 (s.dbgReg r))
  else if o = 0x24 then some (hi32 (s.dbgReg r))
  else if 0x60 ≤ o ∧ o < 0x78 then (spurOf? ((o - 0x60) / 4)).map (fun sp => s.spuStat r sp)
  else none

/-- CST block: CST_CTL shows QUIESCED. -/
def State.readCst (s : State) (r : Side) (o : Nat) : Option Word :=
  if o = 0x4 then some (putBit (s.reg (rk r R_CST_CTL)) 0 (s.quiesced r)) else none

/-- ANG_AEQSTAT of a stream (Table 4.9). -/
def State.aeqStat (s : State) (t : Quad) : Word :=
  let x := s.tl t
  packW [(0, x.aeq.length), (16, b2n x.illact), (17, b2n x.missed), (18, b2n x.hswerr)]

/-- The selected head of ANG_SKEWSEL. -/
def State.skewSel (s : State) (r : Side) : Nat := min 23 (s.regF (rk r R_ANG_SKEWSEL) 4 0)

def State.readAng (s : State) (r : Side) (o : Nat) : Option Word :=
  let a := s.an r
  match o with
  | 0x8 => some (s.angStat r)
  | 0x14 => some (lo32 a.ac)
  | 0x18 => some (hi32 a.acLatch)
  | 0x44 => some ((sg 0 a.skew (s.skewSel r)).setWidth 32)
  | 0x48 => some (s.cmpBits r (fun c => c.hit))
  | 0x4C => some (s.cmpBits r (fun c => c.armed))
  | 0x70 => some (s.aeqStat .q0)
  | 0x74 => some (s.aeqStat .q1)
  | 0x78 => some (s.aeqStat .q2)
  | 0x7C => some (s.aeqStat .q3)
  | _ => none

/-- Free on-the-fly slots: 0 and 1 of the mapped engines. -/
def State.otfFree (s : State) (r : Side) : Nat :=
  ((Quad.all.filter (fun e => s.mappedAny r e)).map (fun e =>
    ([0, 1].filter (fun k => !(s.dec.get r).slotBusy (4 * e.idx + k))).length)).sum

def State.reqFree (s : State) (r : Side) : Nat :=
  ((Quad.all.flatMap (fun e => s.reqSlots r e)).filter (fun n => !(s.dec.get r).slotBusy n)).length

def State.decStat (s : State) (r : Side) : Word := packW [(0, packBits 16 (fun n => (s.dec.get r).slotBusy n))]

def State.decSlots (s : State) (r : Side) : Word := packW [(0, s.reqFree r), (16, s.otfFree r)]

def DomState.code : DomState → Nat
  | .off => 0
  | .starting => 1
  | .on => 2
  | .stopping => 3
  | .ret => 4

/-- DEC_ESTAT of an engine: busy slots, and its power state coded as RCP_PDSTAT. -/
def State.decEstat (s : State) (r : Side) (e : Nat) : Word :=
  packW [(0, (s.dom (42 + 4 * r.idx + e)).st.code), (4, packBits 4 (fun k => (s.dec.get r).slotBusy (4 * e + k)))]

/-- DEC_HDATA: the circulant shift of the selected block. -/
def State.decHdata (s : State) (r : Side) : Word :=
  (Config.ldpcShift (min 2159 (s.regF (rk r R_DEC_HSEL) 11 0))).setWidth 32

def State.readDec (s : State) (r : Side) (o : Nat) : Option Word :=
  match o with
  | 0x8 => some (s.decStat r)
  | 0x20 => some (s.decHdata r)
  | 0x24 => some (s.decSlots r)
  | 0x30 => some (s.decEstat r 0)
  | 0x34 => some (s.decEstat r 1)
  | 0x38 => some (s.decEstat r 2)
  | 0x3C => some (s.decEstat r 3)
  | _ => none

/-- CEN_STAT (Table 8.9). -/
def State.cenStat (s : State) (r : Side) : Word :=
  let e := s.ce r
  packW [(0, packBits 4 (fun i => e.due.get (quadOf i))), (7, b2n (decide (e.sync ≠ .idle))),
    (15, b2n (decide (s.regF (rk r R_CEN_FLT) 5 0 ≠ 0))), (16, e.band % 8), (20, b2n e.bandRamp.isSome),
    (24, packBits 8 (fun i => (sg RampCh.default e.ramps i).run.isSome))]

/-- CEN_MODE: mode, pending mode and its valid bit of each actuator, rejections. -/
def State.cenMode (s : State) (r : Side) : Word :=
  let one (x : Side) : List (Nat × Nat) :=
    let m := s.modeOf r x
    [(8 * x.idx, m.mode), (8 * x.idx + 4, (m.pend.map (fun p => p.1)).getD 0), (8 * x.idx + 7, b2n m.pend.isSome),
     (16 + x.idx, b2n m.rej)]
  packW (one .a ++ one .b)

/-- A seek that waits for the one that runs, or for its switching tick. -/
def ServoMode.seekPending (m : ServoMode) : Bool := m.seekNext.isSome || m.pend.any (fun p => p.2.2.isSome)

def State.cenSeek (s : State) (r : Side) : Word :=
  let a := s.modeOf r .a
  let b := s.modeOf r .b
  s.reg (rk r R_CEN_SEEKSTAT) ||| packW [(31, b2n a.seek.isSome), (30, b2n a.seekPending), (29, b2n b.seek.isSome),
    (28, b2n b.seekPending)]

/-- CEN_STALESTAT: held destinations. -/
def State.cenStale (s : State) (r : Side) : Word :=
  let h (d : Nat) : Nat := b2n (sg false (s.ce r).hold d)
  packW [(0, h 1), (1, h 2), (2, h 4), (3, h 5), (4, h 6), (5, h 7), (6, h 8)]

def State.cenSat (s : State) (r : Side) : Word :=
  let l := (s.ce r).sat
  packW [(0, l.length), (16, (l.head?.map (fun p => p.1)).getD 0), (31, b2n (!l.isEmpty))]

def State.rampSel (s : State) (r : Side) : RampCh := sg RampCh.default (s.ce r).ramps (s.regF (rk r R_CEN_RAMPSEL) 2 0)

def RampCh.word (x : RampCh) : Word :=
  (x.ctl &&& 0x0FFFFFFF#32) ||| packW [(29, b2n x.cancel), (30, b2n x.err), (31, b2n x.run.isSome)]

/-- CEN_TRCCFG: ARM reads 1 while ARMED or TRIGGERED, FORCE 0. -/
def Trace.cfgWord (x : Trace) : Word := putBit (x.cfg &&& 0x3FFFFFFF#32) 31 (x.st == 1 || x.st == 2)

def Trace.statWord (x : Trace) : Word := packW [(0, x.wr), (14, x.trigIdx), (29, b2n x.full), (30, x.st % 4)]

def State.readCen (s : State) (r : Side) (o : Nat) : Option Word :=
  match o with
  | 0x4 => some (putBit (s.reg (rk r R_CEN_CTL)) 8 (decide ((s.ce r).sync ≠ .idle)))
  | 0x8 => some (s.cenStat r)
  | 0x18 => some (s.cenMode r)
  | 0x1C => some (s.cenSeek r)
  | 0x48 => some (s.cenStale r)
  | 0x4C => some (s.cenSat r)
  | 0x50 => some (putFld (s.reg (rk r R_CEN_BANDCTL)) 2 0 (s.ce r).band)
  | 0x84 => some (s.rampSel r).cfg
  | 0x88 => some (s.rampSel r).word
  | 0x90 => some ((s.ce r).traces.get (s.trcSel r)).cfgWord
  | 0x94 => some ((s.ce r).traces.get (s.trcSel r)).statWord
  | _ => none

/-- The engine's memories (Table 8.4) by offset from 0x0010_0000. -/
def State.readCenMem (s : State) (r : Side) (o : Nat) : Word :=
  let e := s.ce r
  let n := o / 4
  if o < 0x4000 then (s.node r n).1
  else if o < 0x4200 then BitVec.ofNat 32 (packBits 32 (fun i => (s.node r (32 * (n - 0x1000) + i)).2))
  else if o < 0x8000 then 0
  else if o < 0x10000 then sg 0 e.coefs (n - 0x2000)
  else if o < 0x18000 then (sg 0 e.shifts (n - 0x4000)).setWidth 32
  else if o < 0x20000 then 0
  else if o < 0x24000 then
    let k := n - 0x8000
    if k % 4 = 3 then BitVec.ofNat 32 (b2n (sg false e.sat (k / 4))) else sg 0 e.descs k
  else if o < 0x40000 then 0
  else sg 0 (e.traces.get (quadOf ((o - 0x40000) / 0x10000))).words ((o - 0x40000) / 4 % 16384)

/-! ### Stripe engine and memories -/

def BufMode.code : BufMode → Nat
  | .free => 0
  | .seal => 1
  | .sealed => 2
  | .recon => 3
  | .scrub => 4

def State.countBufs (s : State) (r : Side) (m : BufMode) : Nat :=
  ((List.range 41).filter (fun n => decide ((s.sbuf r n).mode = m))).length

def State.scrubBusy (s : State) (r : Side) : Bool := decide ((s.sbuf r 41).mode = .scrub)

/-- STE_STAT (Table 11.8). -/
def State.steStat (s : State) (r : Side) : Word :=
  packW [(0, s.countBufs r .free), (8, s.countBufs r .sealed), (16, s.countBufs r .recon), (24, b2n (s.scrubBusy r)),
    (25, (s.ste.get r).results.length)]

/-- STE_BUFSTAT (Table 11.10). -/
def StripeBuf.statWord (b : StripeBuf) : Word :=
  let done (i : Nat) : Bool := decide (b.landedAt i = 0xFFFFFFFF#32)
  packW [(0, packBits 10 done), (10, b2n (done 14)), (11, b2n (done 15)), (12, b.x % 16), (24, b.d % 16), (28, b2n b.poison),
    (29, b.mode.code)]

def State.bufSel (s : State) (r : Side) : StripeBuf := s.sbuf r (min 41 (s.regF (rk r R_STE_BUFSEL) 5 0))

def ctxCode (c : Option CtxId) : Nat :=
  match c with
  | some c => c.ridge.idx * 256 + c.spur.idx * 16 + c.no.idx
  | none => 0

/-- The oldest scrub result, 0 where none is held. -/
def Ste.oldest (e : Ste) : DWord := e.results.headD 0

def State.readSte (s : State) (r : Side) (o : Nat) : Option Word :=
  let e := s.ste.get r
  let b := s.bufSel r
  match o with
  | 0x8 => some (s.steStat r)
  | 0x18 => some b.statWord
  | 0x1C => some (if b.mode = .sealed then b.key.setWidth 32 else 0)
  | 0x20 => some (BitVec.ofNat 32 (ctxCode b.owner))
  | 0x28 => some (packW [(0, e.results.length), (8, b2n (s.scrubBusy r)), (16, e.scrubStripe % 512)])
  | 0x2C => some (lo32 e.oldest)
  | 0x30 => some e.resHi
  | 0x40 => some e.refused
  | 0x48 => some ((s.free 32) &&& 0xFFFFFF#32)
  | 0x4C => some (BitVec.ofNat 32 e.moves.length)
  | 0x50 => some (BitVec.ofNat 32 (b2n (s.domOn (57 + r.idx))))
  | 0x5C => some (s.free 32)
  | _ => none

/-- The memory of MEM_SEL; 7 is treated as 6. -/
def State.memSel (s : State) (r : Side) : Nat := min 6 (s.regF (rk r R_MEM_SEL) 2 0)

def State.readMem (s : State) (r : Side) (o : Nat) : Option Word :=
  let m := s.scrubMem r (s.memSel r)
  match o with
  | 0x14 => some m.scrcfg
  | 0x18 => some m.leakcfg
  | 0x1C => some (BitVec.ofNat 32 m.bucket)
  | 0x20 => some m.ce
  | 0x24 => some m.ue
  | 0x28 => some m.errAddr
  | 0x2C => some (BitVec.ofNat 32 (m.pos % 2 ^ 28))
  | _ => none

/-- CRN_STAT (Table 13.9). -/
def State.crnStat (s : State) (r : Side) : Word :=
  packW [(0, b2n (s.bankOk r)), (1, b2n (s.bankOk r.peer)), (2, b2n (decide (s.crnMark r ≤ s.crnFill))),
    (3, b2n (decide (s.crnFree ≤ s.crnResv r))), (4, b2n (s.crn.resync.get r)), (8, b2n (decide (s.mtr.sp = .gen)))]

def State.readCrn (s : State) (r : Side) (o : Nat) : Option Word :=
  match o with
  | 0x4 => some (putBit (s.reg (rk r R_CRN_CTL)) 8 (s.crn.resync.get r))
  | 0x8 => some (s.crnStat r)
  | 0x18 => some (BitVec.ofNat 32 s.crn.head)
  | 0x1C => some (BitVec.ofNat 32 s.crn.tail)
  | 0x20 => some (packW [(0, s.crnHeld), (24, s.crnFill)])
  | _ => none

/-! ### Stream tiles -/

def State.chnStat (s : State) (t : Quad) : Word :=
  let x := s.tl t
  packW [(0, b2n (s.clkFault t)), (1, b2n x.rg), (2, b2n (decide (x.spare ≠ .idle))), (3, b2n x.tlSat)]

/-- A gate forced low (R459): by a standing forcing, or once, until the next AEQ_WG_ON. -/
def State.wrStat (s : State) (t : Quad) : Word :=
  let x := s.tl t
  packW [(0, b2n x.wg), (1, b2n x.ag), (2, b2n (s.forcing t || x.forcedOnce))]

/-- Bit clock in units of 100 kHz; none in OBSERVER and NONE (R94). -/
def State.bclk (s : State) (t : Quad) : Word :=
  let src := (s.ang.get (s.angSide t)).src
  if src = .track ∨ src = .handover ∨ src = .flywheel then BitVec.ofNat 32 (s.bitRate t * 10 / 2 ^ 37) else 0

def State.tilePower (s : State) (t : Quad) : Word :=
  BitVec.ofNat 32 (packBits 5 (fun i => s.domOn (22 + 4 * i + t.idx)))

/-- The slice that the spare stands in for, 15 when it is idle (R98). -/
def Tile.spareFor (x : Tile) : Nat :=
  match x.spare with
  | .standing k _ => k
  | .waitReturn k _ => k
  | _ => 15

def State.smpBuf (s : State) (t : Quad) : Word :=
  let l := (s.tl t).heldRecs
  packW [(0, packBits 16 (fun n => l.contains n)), (16, l.length)]

/-- Channel registers of a tile. -/
def State.readChn (s : State) (t : Quad) (o : Nat) : Option Word :=
  let x := s.tl t
  match o with
  | 0x8 => some (s.chnStat t)
  | 0x18 => some (s.bankRead t (BitVec.ofNat 9 (s.regF (tk t R_STT_PARSEL) 8 0)))
  | 0x1C => some (packW [(0, x.active.idx), (2, b2n x.swapPend)])
  | 0x20 => some ((ofI 16 x.loops.vga).setWidth 32)
  | 0x24 => some ((ofI 8 x.loops.blo).setWidth 32)
  | 0x28 => some ((ofI 16 x.loops.mra).setWidth 32)
  | 0x2C => some ((ofI 12 x.loops.tl).setWidth 32)
  | 0x38 => some (putFld (putBit (s.reg (tk t R_STT_ADCCTL)) 4 (decide (x.spare ≠ .idle))) 15 12 x.spareFor)
  | 0x3C =>
    let covered : Word := if x.spareFor < 9 then bitMask 32 x.spareFor else 0
    let held := s.mon.calRuns.foldl (fun (w : Word) c =>
      if c.kind == 1 && c.tile == t && decide (c.target < 9) then setBit w c.target else w) covered
    some (s.reg (tk t R_STT_ADCSTAT) ||| held)
  | 0x68 => some (s.smpBuf t)
  | 0x78 => some (lo32 x.gdcPes)
  | 0x88 => some (s.wrStat t)
  | 0x8C => some (s.bclk t)
  | 0x94 => some ((s.free 32) &&& 0xFFFF#32)
  | 0xA0 => some (s.tilePower t)
  | 0xAC => some (s.free 32)
  | _ => none

/-- FMT_STAT. -/
def State.fmtStat (s : State) (t : Quad) : Word :=
  let x := s.tl t
  packW [(0, b2n x.wedgeActive), (1, b2n x.win.isSome), (4, (x.sector.map (fun y => y.frag % 16)).getD 0),
    (8, b2n x.sector.isSome)]

/-- The selected descriptor word. -/
def State.descSel (s : State) (t : Quad) : Word :=
  s.descWord t (s.regF (tk t R_FMT_DESCSEL) 7 2) (s.regF (tk t R_FMT_DESCSEL) 1 0)

/-- Formatter registers, by offset in the tile. -/
def State.readFmt (s : State) (t : Quad) (o : Nat) : Option Word :=
  let x := s.tl t
  match o with
  | 0x804 => some (s.fmtStat t)
  | 0x834 => some (s.descSel t)
  | 0x840 => some (packW [(0, x.skipRead), (16, b2n x.skipOk)])
  | 0x844 => some (lo32 (s.statusPeek t))
  | 0x848 => some (hi32 x.ssLatch)
  | 0x84C => some (lo32 (s.statusPeek t))
  | 0x850 => some (hi32 (s.statusPeek t))
  | 0x854 => some (packW [(0, x.posted.length), (8, x.reserved)])
  | 0x858 => some ((x.sector.map (fun y => y.tag.setWidth 32)).getD 0)
  | 0x85C => some (packW [(0, (x.sector.map (fun y => y.pos % 65536)).getD 0)])
  | 0x878 => some (if s.wsc then packW [(0, min 65535 x.ignored)] else s.free 32)
  | _ => none

/-- The 16-bit views of the legacy window (Table 20.3), by offset; 0 where no register lies. -/
def State.readLegacy (s : State) (t : Quad) (o : Nat) : Word :=
  let f (k hi lo : Nat) : Word := BitVec.ofNat 32 (s.regF (tk t k) hi lo)
  let d (w : DWord) (i : Nat) : Word := BitVec.ofNat 32 (fld w (16 * i + 15) (16 * i))
  if s.wsc = false then 0
  else
    match o with
    | 0xC00 => f R_FMT_CTL 15 0
    | 0xC02 => (s.fmtStat t) &&& 0xFFFF#32
    | 0xC04 => f R_FMT_INTSTAT 15 0
    | 0xC06 => f R_FMT_SYNCPAT 15 0
    | 0xC08 => f R_FMT_SYNCPAT 19 16
    | 0xC0A => packW [(0, s.regF (tk t R_FMT_SYNCCFG) 3 0), (8, s.regF (tk t R_FMT_SYNCCFG) 21 16)]
    | 0xC0C => f R_FMT_WEDGECFG 31 16
    | 0xC0E => f R_FMT_WEDGECFG 15 0
    | 0xC10 => f R_FMT_TRACKID 15 0
    | 0xC12 => f R_FMT_TRACKID 23 16
    | 0xC14 => f R_FMT_DESCSEL 15 0
    | 0xC16 => (s.descSel t) &&& 0xFFFF#32
    | 0xC18 => (s.descSel t) >>> 16
    | 0xC1A => d (s.statusPeek t) 0
    | 0xC1C => d (s.tl t).ssLatch 1
    | 0xC1E => d (s.tl t).ssLatch 2
    | 0xC20 => d (s.tl t).ssLatch 3
    | 0xC22 => packW [(0, min 65535 (s.tl t).ignored)]
    | _ => 0

/-! ### Quaxlink -/

def LinkState.code : LinkState → Nat
  | .off => 0
  | .train => 1
  | .run => 2
  | .fault => 3

def State.qlkStat (s : State) (l : Side) : Word :=
  let x := s.lnk l
  packW [(0, b2n (decide (x.statusAge < 128))), (1, b2n x.ulock), (2, b2n x.psafe), (3, b2n x.paflt), (4, x.st.code)]

def State.pairSel (s : State) (l : Side) : Nat := min 11 (s.regF (lk l R_QLK_PAIRSEL) 3 0)

def SlotRec.word (x : SlotRec) : Nat := b2n x.confirmed * 2 ^ 15 + x.mode % 4 * 2 ^ 12 + x.head % 16 * 2 ^ 8

def State.readQlk (s : State) (l : Side) (o : Nat) : Option Word :=
  let x := s.lnk l
  match o with
  | 0x8 => some (s.qlkStat l)
  | 0x18 => some (putBit (s.reg (lk l R_QLK_REGCMD)) 31 x.regAcc.isSome)
  | 0x2C => some ((sg 0 x.ast (s.regF (lk l R_QLK_ASTSEL) 7 0)).setWidth 32)
  | 0x38 => some (packW [(0, x.slots.a.word), (16, x.slots.b.word)])
  | 0x40 => some ((s.pairRow l (s.pairSel l)).setWidth 32)
  | _ => none

/-! ### Motor and monitors -/

def sideCode (x : Option Side) : Nat :=
  match x with
  | none => 0
  | some .a => 1
  | some .b => 2

/-- MTR_STAT (Table 9.5). -/
def State.mtrStat (s : State) : Word :=
  let m := s.mtr
  packW [(24, b2n m.clamp), (25, b2n (decide (m.sp = .gen))), (26, b2n m.atSpeed), (27, b2n m.linkUp),
    (28, sideCode s.rlg.spindle), (30, b2n m.chopFlt), (31, b2n m.regenOk)]

/-- STATE codes of Table 9.2. -/
def Spindle.code : Spindle → Nat
  | .off => 0
  | .probe => 1
  | .revbrk => 2
  | .ipd => 3
  | .kick => 4
  | .catching => 5
  | .run => 6
  | .step => 7
  | .brake => 8
  | .gen => 9
  | .retract => 10
  | .fault => 11

def Park.code : Park → Nat
  | .unknown => 0
  | .parked => 1
  | .loaded => 2

/-- MTR_VCSTAT; the coil current is measured (R208). -/
def State.vcStat (s : State) (x : Side) : Word :=
  ((ofI 16 (s.coilCurrent x (s.free 16).toInt)).setWidth 32) ||| packW [(29, b2n (s.mtr.retracting.get x)), (30, (s.mtr.park.get x).code)]

def State.readMtr (s : State) (o : Nat) : Option Word :=
  let m := s.mtr
  match o with
  | 0x8 => some s.mtrStat
  | 0x18 => some (packW [(0, m.sp.code), (4, m.attempt % 4), (8, b2n m.startLatched)])
  | 0x54 => some (packW [(0, m.pfStep % 16), (4, b2n m.pfailN), (8, b2n m.cons), (16, min 65535 m.genMs)])
  | 0x58 => some (s.free 32)
  | 0x5C => some (s.free 32)
  | 0x60 => some ((putFld (s.reg R_MTR_ISENSE) 15 12 (m.spareFor.getD 15)) ||| packW [(4, b2n m.spareReq.isSome)])
  | 0x80 => some (s.vcStat .a)
  | 0x84 => some (s.vcStat .b)
  | _ => none

def State.monTemp (s : State) (n : Nat) : Word := s.reg (R_MON_TEMP + 4 * n)

/-- The hottest sensor with a valid reading, the lowest-numbered of equals. -/
def State.hottest (s : State) : Option Nat :=
  (List.range 16).foldl (fun b n =>
    if bit (s.monTemp n) 31 then
      match b with
      | none => some n
      | some k => if sfld (s.monTemp k) 15 0 < sfld (s.monTemp n) 15 0 then some n else b
    else b) none

def State.monStat (s : State) : Word :=
  let t := b2n s.fus.trimValid
  match s.hottest with
  | some n => packW [(0, fld (s.monTemp n) 15 0), (16, n), (31, t)]
  | none => packW [(31, t)]

def State.vSel (s : State) : Nat := min 23 (s.regF R_MON_VSEL 4 0)

def State.calAct (s : State) : Word :=
  let sp (t : Quad) : Bool :=
    match (s.tl t).spare with
    | .idle => false
    | .waitTake _ _ => false
    | _ => true
  packW [(0, packBits 4 (fun i => sp (quadOf i))), (4, b2n s.mtr.spareFor.isSome), (5, b2n s.mon.vcOpen.a), (6, b2n s.mon.vcOpen.b)]

def State.readMon (s : State) (o : Nat) : Option Word :=
  match o with
  | 0x8 => some s.monStat
  | 0x6C => some ((s.monTrim (min 47 (s.regF R_MON_TRIMSEL 5 0))).setWidth 32)
  | 0x74 => some (sg 0 s.mon.vread s.vSel)
  | 0x78 => some (s.voltLim s.vSel)
  | 0x88 => some (sg 0 s.mon.rosc (s.regF R_MON_ROSCSEL 2 0))
  | 0x9C => some (putBit (s.reg R_MON_VCCAL) 31 (s.mon.vcOpen.a || s.mon.vcOpen.b))
  | 0xA0 => some s.calAct
  | _ => none

/-! ### Zone Table -/

/-- Entries of a zone in one of the states of a list. -/
def State.zonesIn (s : State) (l : List Nat) : Nat :=
  (s.ztb.entries.filter (fun p => decide (p.2.use = 1) && l.contains p.2.state)).length

/-- The count that ZTB_FREECNT selects. -/
def State.freeCnt (s : State) : Nat :=
  match s.regF R_ZTB_FREECNT 31 30 with
  | 1 => s.freeBands .a
  | 2 => s.freeBands .b
  | _ => 131072 - s.boundEnts.length

def State.readZtb (s : State) (o : Nat) : Option Word :=
  match o with
  | 0x8 => some (BitVec.ofNat 32 s.boundEnts.length)
  | 0x14 => some s.ztb.lastRef
  | 0x18 => some s.ztb.gen
  | 0x1C => some (putBit (s.reg R_ZTB_SCAN) 31 s.ztb.scanBusy)
  | 0x20 => some s.ztb.scanRes
  | 0x28 => some (packW [(0, s.zonesIn [2, 3, 4]), (16, s.zonesIn [2, 3])])
  | 0x2C => some (putFld (s.reg R_ZTB_FREECNT) 17 0 s.freeCnt)
  | _ => none

/-- The Zone Table window (R249): word `off / 8 % 4` of entry `off / 32`, low half first. -/
def State.readZtbMem (s : State) (o : Nat) : Word :=
  let w := (s.zent (o / 32)).word (o / 8 % 4)
  if o / 4 % 2 = 0 then lo32 w else hi32 w

/-! ### Host ports, admission, Hedge -/

/-- Counters of errors and TLPs, whose counts come from outside the block; entries 2 and 3 of a lane array stand in
single ×4 mode only. -/
def hptCounter (o : Nat) : Bool := decide (o = 0x2C ∨ o = 0x30 ∨ o = 0x4C ∨ o = 0x50 ∨ o = 0x54 ∨ (0x70 ≤ o ∧ o < 0x80))

def State.readPort (s : State) (p : Side) (o : Nat) : Option Word :=
  let h := s.hpt.get p
  match o with
  | 0x8 => some (packW [(0, b2n h.inL1), (1, b2n h.dlUp), (4, h.width % 8), (8, h.speed % 8)])
  | 0x28 => some (packW [(0, b2n h.vfEn), (16, h.numVfs % 64)])
  | 0x34 => some ((s.free 32) &&& 0x3F#32)
  | 0x38 => some (packW [(0, s.rcp.straps.clkmode % 4), (4, b2n s.rcp.straps.portmode)])
  | 0x3C => some (packW [(0, min 65535 h.perstCount), (31, b2n (!(s.rcp.perst.get p)))])
  | 0x5C => some (s.free 32)
  | _ =>
    if 0x60 ≤ o ∧ o < 0x80 ∧ 8 ≤ o % 16 ∧ s.rcp.straps.portmode = false then some 0
    else if hptCounter o then some (if h.seen.contains o then 0 else s.free 32)
    else if 0x60 ≤ o ∧ o < 0x70 then some ((s.free 32) &&& 0xFFFF#32)
    else none

/-- An inert HPT1 reads as its HPT_ID, and 0 elsewhere (R304). -/
def State.readHpt (s : State) (p : Side) (o : Nat) : Option Word :=
  if s.portOn p then s.readPort p o else if o = 0 then none else some 0

def State.nveStat (s : State) : Word :=
  packW [(0, b2n (decide (16384 ≤ s.nve.cmds.length))), (1, b2n (s.regB R_NVE_CTL 1)), (2, b2n s.asnStop)]

def State.kslotStat (s : State) : Word :=
  let k := s.regF R_NVE_KSLOTSEL 5 0
  packW [(0, min 65535 (s.slotUse k)), (31, b2n (sg none s.cry.keys k).isSome)]

def State.readNve (s : State) (o : Nat) : Option Word :=
  match o with
  | 0x8 => some s.nveStat
  | 0x14 => some (lo32 s.nve.asn)
  | 0x18 => some (hi32 s.nve.asn)
  | 0x1C => some s.nve.limLo
  | 0x20 => some (hi32 s.nve.limit)
  | 0x28 => some (BitVec.ofNat 32 (s.ctrl (s.regF R_NVE_QALLOCSEL 6 0)).qalloc)
  | 0x2C => some (BitVec.ofNat 32 (4096 - s.qTotal))
  | 0x30 => some (packW [(0, s.nve.cmds.length), (16, s.nve.highCtx)])
  | 0x3C => some s.kslotStat
  | 0x44 => some (s.nscfg (s.regF R_NVE_NSSEL 6 0))
  | 0x5C => some (s.free 32)
  | _ => none

def State.hdgStat (s : State) : Word := packW [(0, s.hdgUsed), (31, b2n (decide (16384 ≤ s.hdgUsed)))]

/-- A Hedge entry as HDG_ENTDATA shows it (Table 15.10); 0 where it is FREE. -/
def hentWord (x : Option HEntry) : DWord :=
  match x with
  | some e =>
    BitVec.ofNat 64 ((if e.committed then 2 else 1) * 2 ^ 62 + e.kind.code % 4 * 2 ^ 60 + e.ns % 128 * 2 ^ 53 +
      (e.count - 1) % 2 ^ 18 * 2 ^ 35 + e.slba % 2 ^ 35)
  | none => 0

def State.hdgSel (s : State) : Option HEntry := s.hent (s.regF R_HDG_ENTSEL 13 0)

def State.readHdg (s : State) (o : Nat) : Option Word :=
  match o with
  | 0x8 => some s.hdgStat
  | 0x14 => some (packW [(0, s.hdgUsed), (16, s.hdg.high)])
  | 0x18 => some (putFld (s.reg R_HDG_ENTSEL) 29 16 ((s.hdgSel.map (fun e => e.cmd)).getD 0))
  | 0x1C => some (lo32 (hentWord s.hdgSel))
  | _ => none

/-! ### Ledger, DRAM, recorder, crypto -/

def RidgeState.code : RidgeState → Nat
  | .reset => 0
  | .selftest => 1
  | .standby => 2
  | .inService => 3
  | .quiesced => 4
  | .fenced => 5

/-- RLG_STAT (Table 16.9). -/
def State.rlgStat (s : State) : Word :=
  packW [(0, (s.ridgeSt .a).code), (4, (s.ridgeSt .b).code), (8, b2n s.rlg.sfence.isSome), (9, b2n s.rlg.singleWin),
    (10, b2n s.rlg.short)]

def sat32N (n : Nat) : Word := BitVec.ofNat 32 (min n 0xFFFFFFFF)

def State.readRlg (s : State) (o : Nat) : Option Word :=
  let v := s.poolView
  match o with
  | 0x8 => some s.rlgStat
  | 0x24 => some (packW [(0, sideCode s.rlg.unit.a), (2, sideCode s.rlg.unit.b), (4, sideCode s.rlg.spindle)])
  | 0x2C => some (sat32N v.1)
  | 0x30 => some (sat32N v.2.1)
  | 0x34 => some (sat32N v.2.2.1)
  | 0x38 => some (sat32N v.2.2.2)
  | 0x48 => some (sat32N s.rlg.eAvail)
  | 0x4C => some (sat32N (s.energyFlush s.winMax))
  | 0x50 => some (packW [(0, min 65535 ((s.winHeld .a + 65535) / 65536)), (16, min 65535 ((s.winHeld .b + 65535) / 65536))])
  | _ => none

def State.readDrc (s : State) (o : Nat) : Option Word :=
  match o with
  | 0x8 =>
    some (packW [(0, b2n (s.chanUp .a)), (1, b2n (s.chanUp .b)), (4, b2n s.dram.a.selfRefresh), (5, b2n s.dram.b.selfRefresh)])
  | 0x1C => some (BitVec.ofNat 32 (s.dsize .a))
  | 0x20 => some (BitVec.ofNat 32 (s.dsize .b))
  | 0x34 => some (BitVec.ofNat 32 s.dram.a.pos)
  | 0x38 => some (BitVec.ofNat 32 s.dram.b.pos)
  | 0x3C => some (BitVec.ofNat 32 s.dram.a.bucket)
  | 0x40 => some (BitVec.ofNat 32 s.dram.b.bucket)
  | _ => none

/-- EVR_STAT; both banks take records while both are usable. -/
def State.evrStat (s : State) : Word :=
  let e := s.evr
  packW [(0, b2n e.scanDone), (1, b2n (s.bankOk .a && s.bankOk .b)), (2, b2n e.cal.isSome), (3, b2n e.span.isSome),
    (4, b2n (e.intake.any (fun g => decide (0 < g.left)))), (8, min 127 e.used), (16, fld e.seq 47 32)]

def State.readEvr (s : State) (o : Nat) : Option Word :=
  let e := s.evr
  match o with
  | 0x8 => some s.evrStat
  | 0x14 => some (e.seq.setWidth 32)
  | 0x18 => some (lo32 e.ot)
  | 0x1C => some (hi32 e.otLatch)
  | 0x2C =>
    let b := sg Bucket.default e.buckets (s.regF R_EVR_BKTSEL 10 0)
    some (packW [(0, b.burst % 256), (8, b.period % 65536), (24, min 255 b.tokens)])
  | _ => none

def State.cryStat (s : State) : Word :=
  let c := s.cry
  packW [(0, b2n c.busy.isSome), (1, b2n c.cdi0.isSome), (2, b2n c.aliasKey.isSome), (3, b2n c.udsLocked), (4, b2n c.drbgOk)]

def State.keyBits (s : State) (base : Nat) : Word :=
  BitVec.ofNat 32 (packBits 32 (fun i => (sg none s.cry.keys (base + i)).isSome))

def State.readCry (s : State) (o : Nat) : Option Word :=
  match o with
  | 0x8 => some s.cryStat
  | 0x30 => some (s.free 32)
  | 0x34 => some (s.keyBits 0)
  | 0x38 => some (s.keyBits 32)
  | 0x3C => some ((sg 0 s.fus.shadow 40) &&& 0xFFFF#32)
  | _ => none

/-! ### RCP, FUS, GPD -/

def Phase.code : Phase → Nat
  | .reset => 0
  | .pdsafe => 1
  | .fuse => 2
  | .saddle => 3
  | .ridges => 4
  | .boot => 5
  | .locked => 6
  | .recovery => 7

def State.rcpStat (s : State) : Word :=
  let p := s.rcp
  packW [(0, p.phase.code), (6, b2n (p.latchedN || p.latchedSw)), (7, b2n p.noxtal), (8, b2n p.warm)]

def State.pdStat (s : State) : Word :=
  let d := s.dom s.pdsel
  packW [(0, d.st.code), (4, b2n d.enLatched), (5, b2n d.disLatched)]

def State.pdSum (s : State) (w : Nat) : Word := BitVec.ofNat 32 (packBits 32 (fun i => s.domOn (32 * w + i)))

/-- The block that RCP_BWDSEL names, as RCP_BLKRST codes it. -/
def State.bwdSel (s : State) : Nat := s.regF R_RCP_BWDSEL 8 8 * 256 + s.regF R_RCP_BWDSEL 5 0

def State.readRcp (s : State) (r : Side) (o : Nat) : Option Word :=
  match o with
  | 0x8 => some s.rcpStat
  | 0x18 => some s.strapWord
  | 0x24 => some (putBit (s.reg R_RCP_BLKRSTAT) 31 s.rcp.blkBusy.isSome)
  | 0x3C => some (s.bwdCfg r s.bwdSel)
  | 0x48 => some s.pdStat
  | 0x4C => some (s.pdSum 0)
  | 0x50 => some (s.pdSum 1)
  | 0x54 => some (s.pdSum 2)
  | _ => none

def State.fusStat (s : State) : Word :=
  let f := s.fus
  packW [(0, f.inUse % 2), (4, b2n f.good0), (5, b2n f.good1), (8, b2n f.recovery), (31, b2n f.trimValid)]

def State.fusData (s : State) : Word :=
  let n := s.regF R_FUS_SEL 9 0
  if 16 ≤ n ∧ n ≤ 27 then 0 else sg 0 s.fus.shadow n

def State.readFus (s : State) (o : Nat) : Option Word :=
  match o with
  | 0x4 => some s.fusStat
  | 0x14 => some s.fusData
  | _ => none

def State.gpdStat (s : State) : Word :=
  packW [(0, b2n s.pins.resetN), (1, b2n s.mtr.pfailN), (2, b2n s.pins.pwrdis), (3, b2n s.pins.thermTrip), (4, b2n s.actLow)]

def State.readGpd (s : State) (o : Nat) : Option Word :=
  match o with
  | 0x8 => some s.gpdStat
  | 0x1C => some (BitVec.ofNat 32 (packBits 16 (fun n => s.gpioLevel n)))
  | 0x24 => some (putBit (s.reg R_GPD_ALT) 0 (s.regB R_MON_CTL 4))
  | _ => none

/-! ### All blocks -/

/-- What the register of a key shows where it is not a stored one; `r` is the Ridge that asks. -/
def State.readSpecial (s : State) (r : Side) (key : Nat) : Option Word :=
  let o := blockOff key
  let own : Side := if key < 0x1000000 then .a else .b
  match blockBase key with
  | 0x0 => s.readSpu own o
  | 0x10000 => s.readCst own o
  | 0x20000 => s.readAng own o
  | 0x30000 => s.readDec own o
  | 0x40000 => s.readCen own o
  | 0x50000 => s.readSte own o
  | 0x60000 => s.readMem own o
  | 0x70000 => s.readCrn own o
  | 0x2000000 => if o < 0x800 then s.readChn .q0 o else s.readFmt .q0 o
  | 0x2010000 => if o < 0x800 then s.readChn .q1 o else s.readFmt .q1 o
  | 0x2020000 => if o < 0x800 then s.readChn .q2 o else s.readFmt .q2 o
  | 0x2030000 => if o < 0x800 then s.readChn .q3 o else s.readFmt .q3 o
  | 0x2040000 => s.readQlk .a o
  | 0x2048000 => s.readQlk .b o
  | 0x2050000 => s.readHpt .a o
  | 0x2058000 => s.readHpt .b o
  | 0x2060000 => s.readNve o
  | 0x2070000 => s.readRlg o
  | 0x2080000 => s.readHdg o
  | 0x2090000 => s.readZtb o
  | 0x20A0000 => s.readDrc o
  | 0x20B0000 => s.readEvr o
  | 0x20C0000 => s.readRcp r o
  | 0x20D0000 => s.readMon o
  | 0x20E0000 => s.readMtr o
  | 0x20F0000 => s.readFus o
  | 0x2100000 => s.readCry o
  | 0x2110000 => s.readGpd o
  | _ => none

/-- A register's value (R440): 0 where no register lies or the register is write-only. -/
def State.peekReg (s : State) (r : Side) (key : Nat) : Word :=
  match regRow key with
  | none => 0
  | some row =>
    match row.acc with
    | .wo => 0
    | _ => (s.readSpecial r key).getD (s.reg (key / 4 * 4))

end Sys2Proof.Machine
end

