-- ==== Sys2Proof/Machine/Bus.lean ====
section
/-!
DEFINITION. The block bus (R64–R67, R438–R445): reads with their side effects, writes by access type, the windows, and
the commands REGISTER_WRITE, COUNTER_READ_CLEAR, ANG_AC_LATCH and LEGACY_WINDOW_WRITE.
-/
namespace Sys2Proof.Machine

/-! ### The address space (Table 22.1) -/

/-- What an address names for a Ridge: a register's key, a byte of a legacy window, an engine memory, a Cairn bank line,
the Zone Table; `peer` marks the peer window. -/
inductive Place where
  | reg (key : Nat)
  | peerReg (key : Nat)
  | legacy (t : Quad) (off : Nat)
  | cenMem (r : Side) (off : Nat) (peer : Bool)
  | ztbMem (off : Nat)
  | crnMem (r : Side) (off : Nat)
  | unmapped
deriving DecidableEq, Repr

/-- Decoding of an address (R438, R440): bits [1:0] are ignored, in a legacy window bit 0 alone. -/
def place (r : Side) (addr : Word) : Place :=
  let a := addr.toNat / 4 * 4
  if a < 0x80000 then .reg (rk r a)
  else if 0x100000 ≤ a ∧ a < 0x180000 then .cenMem r (a - 0x100000) false
  else if 0x1000000 ≤ a ∧ a < 0x1080000 then .peerReg (rk r.peer (a - 0x1000000))
  else if 0x1100000 ≤ a ∧ a < 0x1180000 then .cenMem r.peer (a - 0x1100000) true
  else if 0x2000000 ≤ a ∧ a < 0x2040000 then
    if 0xC00 ≤ a % 0x10000 ∧ a % 0x10000 < 0xC24 then
      .legacy (quadOf ((a - 0x2000000) / 0x10000)) (addr.toNat % 0x10000 / 2 * 2)
    else .reg a
  else if 0x2040000 ≤ a ∧ a < 0x2120000 then .reg a
  else if 0x2800000 ≤ a ∧ a < 0x2C00000 then .ztbMem (a - 0x2800000)
  else if 0x3000000 ≤ a ∧ a < 0x4000000 then .crnMem r (a - 0x3000000)
  else if 0x4000000 ≤ a ∧ a < 0x5000000 then .crnMem r.peer (a - 0x4000000)
  else .unmapped

/-- The peer window answers (R443). -/
def State.peerServes (s : State) (r : Side) : Bool :=
  decide (s.ridgeSt r.peer ≠ .reset ∧ s.ridgeSt r.peer ≠ .selftest)

/-- The power domains of a place are ON (R441). -/
def State.placeUp (s : State) (p : Place) : Bool :=
  match p with
  | .reg k => s.blockUp k
  | .peerReg k => s.blockUp k
  | .legacy t _ => s.blockUp (tk t R_STT_ID)
  | .cenMem r _ _ => s.domOn (50 + r.idx)
  | .ztbMem _ => s.ztbUp
  | .crnMem r _ => s.bankUp r
  | .unmapped => false

/-- The access completes with an error response. -/
def State.placeFails (s : State) (r : Side) (p : Place) : Bool :=
  !s.placeUp p ||
    (match p with
     | .peerReg _ => !s.peerServes r
     | .cenMem _ _ peer => peer && !s.peerServes r
     | _ => false)

/-! ### Side effects of reads (R6) -/

/-- Clear a counter. -/
def State.clearReg (s : State) (key : Nat) : State := s.setReg key 0

/-- The side effect of a read in a stream tile. -/
def State.rsTile (s : State) (t : Quad) (key : Nat) : State :=
  if key % 0x10000 = 0x844 then (s.statusPop t).1 else s.clearReg key

/-- The side effect of a read in a Ridge's block. -/
def State.rsRidge (s : State) (r : Side) (key : Nat) : State :=
  let o := key % 0x1000000
  if o = R_ANG_AC_LO then s.modAng r (fun a => { a with acLatch := a.ac })
  else if R_CEN_TASKLOAD ≤ o ∧ o < R_CEN_TASKLOAD + 16 then s.modReg key (fun w => putFld w 31 16 0)
  else if o = R_STE_SCRUBRES_LO then (s.scrubPopLo r).1
  else if o = R_MEM_CECNT then s.modScrub r (s.memSel r) (fun m => { m with ce := 0 })
  else if o = R_MEM_UECNT then s.modScrub r (s.memSel r) (fun m => { m with ue := 0 })
  else s.clearReg key

/-- The side effect of a read in the other Saddle blocks. -/
def State.rsSaddle (s : State) (key : Nat) : State :=
  if key = R_NVE_CTXSTAT then s.modNve (fun n => { n with highCtx := 0 })
  else if key = R_HDG_FILL then s.modHdg (fun h => { h with high := 0 })
  else if key = R_EVR_OT_LO then s.modEvr (fun e => { e with otLatch := e.ot })
  else if key = R_CRY_DRBG then s
  else if R_HPT_ID ≤ key ∧ key < R_HPT_ID + 0x10000 ∧ hptCounter (key % 0x8000) then
    (s.modHpt (sideOf ((key - R_HPT_ID) / 0x8000)) (fun h => { h with seen := key % 0x8000 :: h.seen })).freeNext
  else s.clearReg key

/-- The side effect of a read of an RS register. -/
def State.rsEffect (s : State) (key : Nat) : State :=
  if key < 0x1000000 then s.rsRidge .a key
  else if key < 0x2000000 then s.rsRidge .b key
  else if key < 0x2040000 then s.rsTile (quadOf ((key - 0x2000000) / 0x10000)) key
  else s.rsSaddle key

/-- A register of access type RS. -/
def isRs (key : Nat) : Bool :=
  match regRow key with
  | some row => decide (row.acc = .rs)
  | none => false

/-- The side effect of a read in the legacy window. -/
def State.rsLegacy (s : State) (t : Quad) (o : Nat) : State :=
  if s.wsc = false then s
  else if o = 0xC1A then (s.statusPop t).1
  else if o = 0xC22 then s.modTile t (fun x => { x with ignored := 0 })
  else s

/-- A read of HDG_ENTDATA_LO keeps the high half of the same state. -/
def State.readNote (s : State) (key : Nat) : State :=
  if key = R_HDG_ENTDATA_LO then s.setReg R_HDG_ENTDATA_HI (hi32 (hentWord s.hdgSel)) else s

/-- The 32-bit word of a Cairn bank at a byte offset. -/
def State.readBank (s : State) (r : Side) (o : Nat) : Word :=
  BitVec.ofNat 32 (fld (sg 0 (s.crn.banks.get r) (o / 64)) (32 * (o / 4 % 16) + 31) (32 * (o / 4 % 16)))

/-- A peer register as it reads there (R442): a latch register shows what its Ridge last latched. -/
def State.peekPeer (s : State) (r : Side) (key : Nat) : Word :=
  if key % 0x1000000 = R_ANG_AC_LO then lo32 (s.an r.peer).acLatch else s.peekReg r key

/-- What a place reads. -/
def State.peekAt (s : State) (r : Side) (p : Place) : Word :=
  match p with
  | .reg k => s.peekReg r k
  | .peerReg k => s.peekPeer r k
  | .legacy t o => s.readLegacy t o
  | .cenMem q o _ => s.readCenMem q o
  | .ztbMem o => s.readZtbMem o
  | .crnMem q o => s.readBank q o
  | .unmapped => 0

/-- A place whose read has a side effect (RS): it needs P_BB_DATA_N (R66). -/
def State.placeRs (s : State) (p : Place) : Bool :=
  match p with
  | .reg k => isRs k
  | .legacy _ o => s.wsc && decide (o = 0xC1A ∨ o = 0xC22)
  | _ => false

def State.readEffect (s : State) (p : Place) : State :=
  match p with
  | .reg k => if isRs k then s.rsEffect k else s.readNote k
  | .legacy t o => s.rsLegacy t o
  | _ => s

/-- A read through the block bus: the word, none where it is refused. Measured values are fresh at each read. -/
def State.busRead (s : State) (x : Accessor) (addr : Word) : State × Option Word :=
  let p := place x.ridge addr
  if s.placeFails x.ridge p then (s.refuse x 5, none)
  else if s.placeRs p && decide (x.port = 0xE1) then (s.refuse x 4, none)
  else ((s.readEffect p).freeNext, some (s.peekAt x.ridge p))

/-! ### Writes by access type (R6, R440) -/

/-- The lock that an RWL field of a register follows (Table 22.4). -/
def State.lockOf (s : State) (key : Nat) : Bool :=
  if key < 0x1000000 then s.ridgeLock .a else if key < 0x2000000 then s.ridgeLock .b else s.rcp.saddleLock

/-- A stored register written by the access types of its bits. -/
def State.storeReg (s : State) (key : Nat) (data : Word) : State :=
  match regRow key with
  | none => s
  | some row =>
    let m : Word := BitVec.ofNat 32 (if s.lockOf key then row.rw else row.rw ||| row.rwl)
    let old := s.reg key
    let w := (old &&& ~~~m) ||| (data &&& m)
    let w := w &&& ~~~(data &&& BitVec.ofNat 32 row.w1c)
    s.setReg key (w ||| (data &&& BitVec.ofNat 32 row.w1s))

/-! ### Ridge blocks -/

def State.writeSpu (s : State) (r : Side) (o : Nat) (data : Word) : Option State :=
  if o = 0x24 then some (s.dbgWrite r data)
  else if 0x40 ≤ o ∧ o < 0x58 then
    match spurOf? ((o - 0x40) / 4) with
    | some sp => some ((s.storeReg (rk r o) data).ctlWord r sp data)
    | none => none
  else none

/-- CST_ERRSTAT: CECNT clears with CE (Table 2.13). -/
def State.writeErrstat (s : State) (r : Side) (data : Word) : State :=
  let s := s.storeReg (rk r R_CST_ERRSTAT) data
  if bit data 0 then s.modReg (rk r R_CST_ERRSTAT) (fun w => putFld w 31 16 0) else s

def State.writeCst (s : State) (x : Accessor) (o : Nat) (data : Word) : Option State :=
  let r := x.ridge
  if o = 0x8 then some (if bit data 0 then s.bootLock r else s)
  else if o = 0xC then some (s.writeErrstat r data)
  else if o = 0x20 then some (s.loadAddr x data)
  else if 0x30 ≤ o ∧ o < 0x40 then some (s.loadData x ((o - 0x30) / 4) data)
  else if (matchMask o).isSome then some (s.matchWrite r o data)
  else none

def State.writeAng (s : State) (r : Side) (o : Nat) (data : Word) : Option State :=
  match o with
  | 0x4 => some (s.angCtl r data)
  | 0x44 => some (s.skewWrite r data)
  | _ => none

/-- DEC_PWRCTL: a bit that changes is a request for its engine's power domain (Table 5.11, R408). -/
def State.enginePower (s : State) (r : Side) (data : Word) : State :=
  let old := s.reg (rk r R_DEC_PWRCTL)
  let s := s.storeReg (rk r R_DEC_PWRCTL) data
  (List.range 4).foldl (fun (s : State) e =>
    if bit old e = bit data e then s else s.domReq (42 + 4 * r.idx + e) (bit data e) false) s

def State.writeDec (s : State) (r : Side) (o : Nat) (data : Word) : Option State :=
  if o = 0x2C then some (s.enginePower r data) else none

def State.modRamp (s : State) (r : Side) (f : RampCh → RampCh) : State :=
  let ch := s.regF (rk r R_CEN_RAMPSEL) 2 0
  s.modCen r (fun e => { e with ramps := sp RampCh.default e.ramps ch (f (sg RampCh.default e.ramps ch)) })

/-- CEN_CTL: EN and XCHKEN are stored, SYNC starts a node copy (R183). -/
def State.cenCtl (s : State) (r : Side) (data : Word) : State :=
  let s := s.setReg (rk r R_CEN_CTL) (data &&& 0x11#32)
  if bit data 8 then s.nodeSync r else s

/-- CEN_RAMPCTL: GO starts a ramp (R178), otherwise the fields are stored. -/
def State.rampCtl (s : State) (r : Side) (data : Word) : State :=
  if bit data 31 then s.rampGo r (s.regF (rk r R_CEN_RAMPSEL) 2 0) data
  else s.modRamp r (fun x => { x with ctl := data &&& 0x0FFFEFFF#32 })

def State.writeCen (s : State) (r : Side) (o : Nat) (data : Word) : Option State :=
  match o with
  | 0x4 => some (s.cenCtl r data)
  | 0x84 => some (s.modRamp r (fun x => { x with cfg := data &&& 0x1FFF007F#32 }))
  | 0x88 => some (s.rampCtl r data)
  | 0x90 => some (s.traceCfg r (s.trcSel r) data)
  | 0x98 => some (s.setReg (rk r R_CEN_XCHK) (data &&& 0xFFFF#32))
  | _ => none

/-- A coefficient or shift of the memory window; an entry that a ramp writes keeps its value (R178). -/
def State.coefMem (s : State) (r : Side) (k : Nat) (f : Cen → Cen) : State :=
  if s.rampHas r k then s.cenInt r 10 else s.modCen r f

/-- A write of the engine's memories (Table 8.4). -/
def State.writeCenMem (s : State) (r : Side) (o : Nat) (data : Word) : State :=
  let n := o / 4
  if o < 0x4000 then s.putNode r n data false
  else if o < 0x8000 then s
  else if o < 0x10000 then s.coefMem r (n - 0x2000) (fun e => { e with coefs := sp 0 e.coefs (n - 0x2000) data })
  else if o < 0x18000 then
    s.coefMem r (n - 0x4000) (fun e =>
      { e with shifts := sp 0 e.shifts (n - 0x4000) (BitVec.ofNat 6 (min 63 data.toNat)) })
  else if o < 0x20000 then s
  else if o < 0x24000 then
    let k := n - 0x8000
    match k % 4 with
    | 0 => s.modCen r (fun e => { e with descs := sp 0 e.descs k (data &&& 0xF8FFFFFF#32) })
    | 1 => s.modCen r (fun e => { e with descs := sp 0 e.descs k data })
    | 2 => s.modCen r (fun e => { e with descs := sp 0 e.descs k (data &&& 0x1FFF#32) })
    | _ => if bit data 0 then s.modCen r (fun e => { e with sat := sp false e.sat (k / 4) false }) else s
  else s

def State.writeMem (s : State) (r : Side) (o : Nat) (data : Word) : Option State :=
  match o with
  | 0x14 => some (s.modScrub r (s.memSel r) (fun m => { m with scrcfg := data &&& 0xFFFFF#32 }))
  | 0x18 => some (s.modScrub r (s.memSel r) (fun m => { m with leakcfg := data }))
  | _ => none

/-- CRN_CTL: RESYNC starts the copy (R302). -/
def State.crnCtl (s : State) (r : Side) (data : Word) : State :=
  let s := s.storeReg (rk r R_CRN_CTL) (clrBit data 8)
  if bit data 8 then s.resyncStart r else s

def State.writeCrn (s : State) (r : Side) (o : Nat) (data : Word) : Option State :=
  if o = 0x4 then some (s.crnCtl r data) else none

/-- A write to a Cairn window (R280): ignored, but for the boot seal area while SEALWEN is 1, where both banks take it.
-/
def State.writeBank (s : State) (r : Side) (o : Nat) (data : Word) : State :=
  let n := o / 64
  let one (s : State) (q : Side) : State :=
    if s.bankTakes q then
      s.putBank q n (putFld (sg 0 (s.crn.banks.get q) n) (32 * (o / 4 % 16) + 31) (32 * (o / 4 % 16)) data.toNat)
    else s
  if sealLine ≤ n ∧ n < ringLine ∧ s.regB (rk r R_CRN_CTL) 4 then one (one s .a) .b else s.crnInt r 5

/-! ### Stream tiles -/

/-- STT_ADCCTL: GO starts a spare step for slice CAL. -/
def State.adcCtl (s : State) (t : Quad) (data : Word) : State :=
  if bit data 4 then s.spareGo t (fld data 2 0)
  else s.modReg (tk t R_STT_ADCCTL) (fun w => putFld w 2 0 (fld data 2 0))

def State.writeChn (s : State) (t : Quad) (o : Nat) (data : Word) : Option State :=
  match o with
  | 0x18 => some (s.bankWrite t (BitVec.ofNat 9 (s.regF (tk t R_STT_PARSEL) 8 0)) data)
  | 0x1C => some (if bit data 2 then s.modTile t (fun y => { y with swapPend := true }) else s)
  | 0x38 => some (s.adcCtl t data)
  | 0x6C => some (s.releaseRecs t (data.setWidth 16))
  | 0x84 => some (s.writeEnable t (bit data 0))
  | _ => none

/-- The skip list address in force. -/
def State.skipAddr (s : State) (t : Quad) : Nat :=
  s.regF (tk t R_FMT_SKIPADDR_HI) 15 0 * 2 ^ 32 + (s.reg (tk t R_FMT_SKIPADDR_LO)).toNat

/-- FMT_CTL: with TRKCHK set over a foreign track, a write gate that is high is forced low (R124). -/
def State.fmtCtlWrite (s : State) (t : Quad) (data : Word) : State :=
  let s := s.storeReg (tk t R_FMT_CTL) data
  if bit data 3 && (s.tl t).trackBad && (s.tl t).wg then (s.forceLow t true).setStat (tk t R_FMT_INTSTAT) 0 else s

def State.writeFmt (s : State) (r : Side) (t : Quad) (o : Nat) (data : Word) : Option State :=
  match o with
  | 0x834 => some (s.descWrite t (s.regF (tk t R_FMT_DESCSEL) 7 2) (s.regF (tk t R_FMT_DESCSEL) 1 0) data)
  | 0x838 => some (s.skipSelect r t (s.skipAddr t / 2 ^ 32 * 2 ^ 32 + data.toNat))
  | 0x800 => some (s.fmtCtlWrite t data)
  | 0x83C => some (s.skipSelect r t (fld data 15 0 * 2 ^ 32 + s.skipAddr t % 2 ^ 32))
  | _ => none

/-- A write to a tile's registers. In wedge-servo mode the formatter's are ignored and counted (R423). -/
def State.writeTile (s : State) (r : Side) (t : Quad) (o : Nat) (data : Word) : Option State :=
  if o < 0x800 then s.writeChn t o data
  else if o < 0x880 then
    if s.wsc then some (s.modTile t (fun x => { x with ignored := min 65535 (x.ignored + 1) })) else s.writeFmt r t o data
  else none

/-- A halfword of the selected descriptor word. -/
def State.descHalf (s : State) (t : Quad) (i : Nat) (data : Word) : State :=
  let w := putFld (s.descSel t) (16 * i + 15) (16 * i) (fld data 15 0)
  s.descWrite t (s.regF (tk t R_FMT_DESCSEL) 7 2) (s.regF (tk t R_FMT_DESCSEL) 1 0) w

/-- A legacy register written into the field of the tile's register that it stands for. -/
def State.putLegacy (s : State) (t : Quad) (data : Word) (k hi lo n : Nat) : State :=
  s.storeReg (tk t k) (putFld (s.reg (tk t k)) hi lo (fld data n 0))

/-- A write to the legacy window: bits [15:0] reach the viewed field (R423, Table 20.3). -/
def State.writeLegacy (s : State) (t : Quad) (o : Nat) (data : Word) : State :=
  if s.wsc = false then s
  else
    match o with
    | 0xC00 => s.fmtCtlWrite t (putFld (s.reg (tk t R_FMT_CTL)) 15 0 (fld data 15 0))
    | 0xC04 => s.storeReg (tk t R_FMT_INTSTAT) (data &&& 0xFFFF#32)
    | 0xC06 => s.putLegacy t data R_FMT_SYNCPAT 15 0 15
    | 0xC08 => s.putLegacy t data R_FMT_SYNCPAT 19 16 3
    | 0xC0A =>
      s.storeReg (tk t R_FMT_SYNCCFG)
        (putFld (putFld (s.reg (tk t R_FMT_SYNCCFG)) 3 0 (fld data 3 0)) 21 16 (fld data 13 8))
    | 0xC0C => s.putLegacy t data R_FMT_WEDGECFG 31 16 15
    | 0xC0E => s.putLegacy t data R_FMT_WEDGECFG 15 0 15
    | 0xC10 => s.putLegacy t data R_FMT_TRACKID 15 0 15
    | 0xC12 => s.putLegacy t data R_FMT_TRACKID 23 16 7
    | 0xC14 => s.putLegacy t data R_FMT_DESCSEL 15 0 15
    | 0xC16 => s.descHalf t 0 data
    | 0xC18 => s.descHalf t 1 data
    | _ => s

/-! ### Quaxlink, motor, monitors -/

/-- QLK_CTL: KIND and PAIRCHK are stored; EN starts or stops the link (R148). -/
def State.qlkCtl (s : State) (l : Side) (data : Word) : State :=
  let was := s.regB (lk l R_QLK_CTL) 0
  let s := s.storeReg (lk l R_QLK_CTL) (putBit data 0 was)
  if bit data 0 = was then s else if was then s.linkStop l else s.linkStart l

def State.writeQlk (s : State) (l : Side) (o : Nat) (data : Word) : Option State :=
  match o with
  | 0x4 => some (s.qlkCtl l data)
  | 0x18 => some (s.regCmd l (bit data 30) (fld data 23 16) (fld data 15 0))
  | 0x2C =>
    some (s.modLink l (fun x => { x with ast := sp 0 x.ast (s.regF (lk l R_QLK_ASTSEL) 7 0) (data.setWidth 16) }))
  | 0x30 => some (s.heater l (fld data 19 16) (data.setWidth 12))
  | 0x34 => some (s.safeCmd l data)
  | 0x40 => some (s.pairWrite l data)
  | _ => none

/-- MTR_VCCTL: each actuator's bit by the holder of its Quaxlink lease (R185); disabling ends its command (R208). -/
def State.vcCtl (s : State) (r : Side) (data : Word) : State :=
  Side.all.foldl (fun (s : State) a =>
    if s.ownsLink r a then
      let s := s.modReg R_MTR_VCCTL (fun w => putBit w a.idx (bit data a.idx))
      if bit data a.idx then s else s.modMtr (fun m => { m with vcCmd := m.vcCmd.set a 0 })
    else s) s

def State.vcRes (s : State) (r a : Side) (data : Word) : State :=
  if s.ownsLink r a then s.storeReg (R_MTR_VCRES + 4 * a.idx) data else s

/-- The MTR registers that the Quaxlink leases govern. -/
def State.writeVc (s : State) (r : Side) (o : Nat) (data : Word) : Option State :=
  match o with
  | 0x7C => some (s.vcCtl r data)
  | 0x88 => some (s.vcRes r .a data)
  | 0x8C => some (s.vcRes r .b data)
  | 0x94 => some (s.retCmd r data)
  | _ => none

/-- MTR_ISENSE: GO lets the spare stand in (R190). -/
def State.isense (s : State) (data : Word) : State :=
  let s := s.modReg R_MTR_ISENSE (fun w => putFld w 1 0 (fld data 1 0))
  if bit data 4 then s.sparePlace (fld data 1 0) else s

def State.writeMtr (s : State) (o : Nat) (data : Word) : Option State :=
  match o with
  | 0x14 => some (if fld data 31 28 = 0 then s else s.spWrite (fld data 31 28))
  | 0x3C => some (let s := s.storeReg R_MTR_MOTPAR data; if data = 0 then s.setObserver false else s)
  | 0x48 => some (if bit data 31 then s.chopTest else s)
  | 0x60 => some (s.isense data)
  | 0x78 => some (s.modMtr (fun m => { m with hbKick := true }))
  | 0x90 =>
    let s := s.storeReg R_MTR_RETCFG data
    some (if s.mtr.linkUp then s.modMtr (fun m => { m with retCfg := data }) else s)
  | _ => none

def State.writeMon (s : State) (o : Nat) (data : Word) : Option State :=
  match o with
  | 0x6C => some (s.trimWrite data)
  | 0x78 =>
    some (if 2 ≤ s.vSel ∧ s.vSel ≤ 5 then s
      else s.modMon (fun m => { m with vlim := sput defaultLim m.vlim s.vSel data }))
  | 0x9C => some (if bit data 31 then s.vcCal data else s.modReg R_MON_VCCAL (fun w => (w &&& 0x40000FFF#32) ||| (data &&& 0x011F0000#32)))
  | _ => none

/-- The actuator whose lease a MON register follows (MON_VCOFS, MON_VCCAL). -/
def monLease (o : Nat) (data : Word) : Option Side :=
  match o with
  | 0x94 => some .a
  | 0x98 => some .b
  | 0x9C => some (sideOf (fld data 24 24))
  | _ => none

/-! ### Other Saddle blocks -/

def State.writeZtb (s : State) (o : Nat) (data : Word) : Option State :=
  if o = 0x1C then
    some (if bit data 31 then s.scanGo data else s.setReg R_ZTB_SCAN (data &&& 0x7E01FFFF#32))
  else none

/-- HPT_LINKCTL: the speed and width a retraining ends at come from the link, and are free here. -/
def State.linkCtl (s : State) (p : Side) (data : Word) : State :=
  let s := if bit data 0 then (s.retrain p (s.free 3).toNat (s.free 4).toNat).freeNext else s
  if bit data 1 then s.freeNext else s

def State.writeHpt (s : State) (p : Side) (o : Nat) (data : Word) : Option State :=
  if s.portOn p = false then some s else if o = 0x18 then some (s.linkCtl p data) else none

def State.writeNve (s : State) (o : Nat) (data : Word) : Option State :=
  match o with
  | 0x18 => some (s.asnWrite data)
  | 0x1C => some (s.modNve (fun n => { n with limLo := data }))
  | 0x20 => some (s.asnLimit data)
  | 0x28 => some (s.qallocWrite data)
  | 0x44 => some (s.nscfgWrite data)
  | _ => none

/-- RLG_CMD (Table 16.7): 1 SWITCH, 2 HANDBACK, 3 REJOIN, 4 test fence; other codes set bit 5. Whether the node copy of
a REJOIN succeeds is free here. -/
def State.rlgCmd (s : State) (r : Side) (data : Word) : State :=
  match fld data 31 28 with
  | 1 => s.switchCmd r
  | 2 => s.handback r (fld data 1 0)
  | 3 => (s.rejoin r (bit (s.free 1) 0)).freeNext
  | 4 => if s.fenceHolds r 6 then s.fence r 6 else s.rlgInt 5
  | _ => s.rlgInt 5

def State.writeRlg (s : State) (x : Accessor) (o : Nat) (data : Word) : Option State :=
  match o with
  | 0x1C => some (s.rlgCmd x.ridge data)
  | 0x54 => if s.rlg.spindle = some x.ridge then none else some (s.refuse x 2)
  | _ => none

/-- EVR_BKTCFG: PERIOD and BURST of the selected bucket; it holds at most BURST tokens (R381). -/
def State.bktCfg (s : State) (data : Word) : State :=
  let n := s.regF R_EVR_BKTSEL 10 0
  s.modEvr (fun e =>
    let b := sg Bucket.default e.buckets n
    let k := fld data 7 0
    let b' : Bucket := { b with period := fld data 23 8, burst := k, tokens := min k b.tokens }
    { e with buckets := sp Bucket.default e.buckets n b' })

def State.writeEvr (s : State) (o : Nat) (data : Word) : Option State :=
  match o with
  | 0x20 => some (s.modEvr (fun e => { e with calStaged := data }))
  | 0x24 => some (s.calendarSet data)
  | 0x2C => some (s.bktCfg data)
  | _ => none

def State.writeCry (s : State) (x : Accessor) (o : Nat) (data : Word) : Option State :=
  if o = 0x14 then some (s.cryCmd x (fld data 31 28) (fld data 5 0)) else none

def State.bwdWrite (s : State) (r : Side) (data : Word) : State :=
  s.modRcp (fun p => { p with bwdCfg := sp 0x80000064#32 p.bwdCfg (bwdKey r s.bwdSel) (data &&& 0x80003FFF#32) })

def State.writeRcp (s : State) (r : Side) (o : Nat) (data : Word) : Option State :=
  match o with
  | 0x1C => some (s.swReset data)
  | 0x20 => some (s.blkReset r data)
  | 0x30 => some (s.kickRidge .a)
  | 0x34 => some (s.kickRidge .b)
  | 0x3C => some (s.bwdWrite r data)
  | 0x44 => some (s.pdCtl (fld data 1 0))
  | 0x58 => some (s.pstateWrite (fld data 2 0))
  | _ => none

/-- FUS_PROG outside production test mode. -/
def State.writeFus (s : State) (o : Nat) (_data : Word) : Option State :=
  if o = 0x1C then some (if s.fus.prodTest then s else s.setStat R_FUS_INTSTAT 2) else none

/-! ### The write -/

/-- A write that a block handles by its own rule; none for a stored register. -/
def State.writeSpecial (s : State) (x : Accessor) (key : Nat) (data : Word) : Option State :=
  let o := blockOff key
  let r := x.ridge
  match blockBase key with
  | 0x0 => s.writeSpu r o data
  | 0x10000 => s.writeCst x o data
  | 0x20000 => s.writeAng r o data
  | 0x30000 => s.writeDec r o data
  | 0x40000 => s.writeCen r o data
  | 0x60000 => s.writeMem r o data
  | 0x70000 => s.writeCrn r o data
  | 0x2000000 => s.writeTile r .q0 o data
  | 0x2010000 => s.writeTile r .q1 o data
  | 0x2020000 => s.writeTile r .q2 o data
  | 0x2030000 => s.writeTile r .q3 o data
  | 0x2040000 => s.writeQlk .a o data
  | 0x2048000 => s.writeQlk .b o data
  | 0x2050000 => s.writeHpt .a o data
  | 0x2058000 => s.writeHpt .b o data
  | 0x2060000 => s.writeNve o data
  | 0x2070000 => s.writeRlg x o data
  | 0x2090000 => s.writeZtb o data
  | 0x20B0000 => s.writeEvr o data
  | 0x20C0000 => s.writeRcp r o data
  | 0x20D0000 => s.writeMon o data
  | 0x20E0000 => if (s.writeVc r o data).isSome then s.writeVc r o data else s.writeMtr o data
  | 0x20F0000 => s.writeFus o data
  | 0x2100000 => s.writeCry x o data
  | _ => none

/-- The refusal of a write to a tile that the Ridge does not own (R13). -/
def State.notOwnedTile (s : State) (x : Accessor) (t : Quad) : Option State :=
  if s.owns x.ridge t then none else some (s.refuseTile x t)

def State.notOwned (s : State) (x : Accessor) (owned : Bool) : Option State := if owned then none else some (s.refuse x 2)

/-- Who may write a register (R13, R138, R185): the tile or link it belongs to, or none. -/
def State.writeRefused (s : State) (x : Accessor) (key : Nat) (data : Word) : Option State :=
  let r := x.ridge
  let o := blockOff key
  match blockBase key with
  | 0x2000000 => s.notOwnedTile x .q0
  | 0x2010000 => s.notOwnedTile x .q1
  | 0x2020000 => s.notOwnedTile x .q2
  | 0x2030000 => s.notOwnedTile x .q3
  | 0x2040000 => s.notOwned x (s.ownsLink r .a)
  | 0x2048000 => s.notOwned x (s.ownsLink r .b)
  | 0x20D0000 =>
    match monLease o data with
    | some a => s.notOwned x (s.ownsLink r a)
    | none => none
  | 0x20E0000 => s.notOwned x (decide (s.rlg.spindle = some r) || [0x7C, 0x88, 0x8C, 0x94].contains o)
  | _ => none

/-- A write to a register that is reachable. -/
def State.regWrite (s : State) (x : Accessor) (key : Nat) (data : Word) : State :=
  match s.writeRefused x key data with
  | some t => t
  | none =>
    match s.writeSpecial x key data with
    | some t => t
    | none => s.storeReg key data

/-- A write through the block bus (R440–R445). -/
def State.busWrite (s : State) (x : Accessor) (addr data : Word) : State :=
  let p := place x.ridge addr
  if s.placeFails x.ridge p then s.refuse x 5
  else
    match p with
    | .reg k => s.regWrite x k data
    | .peerReg _ => s.refuse x 5
    | .legacy t o => if s.owns x.ridge t then s.writeLegacy t o data else s.refuseTile x t
    | .cenMem r o peer => if peer then s.refuse x 5 else s.writeCenMem r o data
    | .ztbMem o => s.ztbWindow o data
    | .crnMem _ o => s.writeBank x.ridge o data
    | .unmapped => s.refuse x 5

/-- What an accessor does on the bus; nothing leaves a fenced Ridge (R355). -/
def State.byRidge (s : State) (r : Side) (f : State → State) : State := if s.ridgeLive r then f s else s

/-! ### Rows -/

def execRegisterWrite (x : Accessor) (addr data : Word) (s : State) : Out :=
  .next (s.byRidge x.ridge (fun s => s.busWrite x addr data))

/-- A read of an RS register. -/
def execCounterReadClear (x : Accessor) (addr : Word) (s : State) : Out :=
  .next (s.byRidge x.ridge (fun s => (s.busRead x addr).1))

def execAngAcLatch (x : Accessor) (s : State) : Out :=
  .next (s.byRidge x.ridge (fun s => (s.busRead x (BitVec.ofNat 32 R_ANG_AC_LO)).1))

/-- A write to a tile's legacy window; another address is no such write. -/
def execLegacyWindowWrite (x : Accessor) (addr data : Word) (s : State) : Out :=
  .next (
    s.byRidge x.ridge (fun s =>
      match place x.ridge addr with
      | .legacy _ _ => s.busWrite x addr data
      | _ => s))

end Sys2Proof.Machine
end

