-- ==== Sys2Proof/Machine/Ports.lean ====
section
/-!
DEFINITION. The transfer ports (Table 3.6, R39, R40, R64–R69), the conditions and the status words (Table 3.4, Table 3.11,
R60, R462), the ANG operations (Table 3.8), and the commands SIG0, SIG1, FF_SET, FF_CLEAR, EVENT_ACK, ARM, DISARM, POST,
ANG_READ, AEQ_FLUSH and WAIT_RELEASE.
-/
namespace Sys2Proof.Machine

/-! ### Direction and class (Table 3.6) -/

def streamPort (p : Nat) : Bool := decide (0x40 ≤ p ∧ p < 0x60)

def portReads (p : Nat) : Bool :=
  [0x01, 0x07, 0x08, 0x0A, 0x0D, 0x10, 0x11, 0x12, 0x23, 0x25, 0x26, 0x65, 0x66, 0x67, 0x68, 0x69, 0x6A, 0x6B, 0x82, 0x87, 0x88,
   0xA1, 0xA3, 0xA6, 0xC1, 0xC3, 0xC4, 0xC5, 0xC8, 0xCA, 0xDB, 0xDC, 0xE1, 0xE2].contains p ||
    (streamPort p && [0, 1, 4, 5].contains (p % 8))

def portWrites (p : Nat) : Bool :=
  [0x00, 0x02, 0x03, 0x04, 0x05, 0x06, 0x08, 0x09, 0x0B, 0x0C, 0x0E, 0x0F, 0x20, 0x21, 0x22, 0x24, 0x60, 0x61, 0x62, 0x63, 0x64,
   0x80, 0x81, 0x83, 0x84, 0x85, 0x86, 0xA0, 0xA1, 0xA2, 0xA3, 0xA4, 0xA5, 0xA7, 0xC0, 0xC2, 0xC6, 0xC7, 0xC9, 0xCB, 0xCC, 0xCD,
   0xCE, 0xCF, 0xD0, 0xD1, 0xD2, 0xD3, 0xD4, 0xD5, 0xD6, 0xD7, 0xD8, 0xD9, 0xDA, 0xDB, 0xE0, 0xE1, 0xE2].contains p ||
    (streamPort p && [2, 3, 4, 6].contains (p % 8))

/-- Class N. -/
def portN (p : Nat) : Bool :=
  [0x00, 0x04, 0x0E, 0x0F, 0x64, 0x65, 0x82, 0x83, 0x84, 0x85, 0x86, 0x87, 0xA5, 0xC1, 0xC2, 0xC3, 0xC4, 0xC6, 0xC9, 0xCA, 0xCB,
   0xD4, 0xD9, 0xE2].contains p || (streamPort p && p % 8 == 0)

/-- The block-bus address staged by a context. -/
def Ctx.busAddr (x : Ctx) : Word := (x.stagedAt 0xE0).setWidth 32

/-- The class N ports whose effect lies in the Saddle (R40). -/
def Ctx.saddlePort (x : Ctx) (p : Nat) : Bool :=
  [0xC1, 0xC2, 0xC3, 0xC4, 0xC6, 0xC9, 0xCA, 0xCB, 0xD4, 0xD9].contains p || (streamPort p && p % 8 == 0) ||
    (decide (p = 0xE2) && decide (0x2000000 ≤ x.busAddr.toNat ∧ x.busAddr.toNat < 0x2C00000))

/-! ### Status words (R462) -/

/-- The register that a selector shows. -/
def statKey (r : Side) (sel : Nat) : Option Nat :=
  match sel with
  | 0x01 => some (rk r R_ANG_STAT)
  | 0x02 => some (rk r R_CEN_STAT)
  | 0x03 => some (rk r R_STE_STAT)
  | 0x04 => some (rk r R_DEC_STAT)
  | 0x05 => some (rk r R_CRN_STAT)
  | 0x07 => some (rk r R_DEC_SLOTS)
  | 0x08 => some R_MTR_STAT
  | 0x09 => some R_RLG_STAT
  | 0x0A => some R_NVE_STAT
  | 0x0B => some R_HDG_STAT
  | 0x0C => some R_EVR_STAT
  | 0x0D => some (rk r R_CST_CTL)
  | 0x1C => some (lk .a R_QLK_STAT)
  | 0x1D => some (lk .b R_QLK_STAT)
  | _ =>
    if 0x10 ≤ sel ∧ sel < 0x14 then some (tk (quadOf (sel - 0x10)) R_STT_CHN_STAT)
    else if 0x14 ≤ sel ∧ sel < 0x18 then some (tk (quadOf (sel - 0x14)) R_FMT_STAT)
    else if 0x18 ≤ sel ∧ sel < 0x1C then some (tk (quadOf (sel - 0x18)) R_STT_WRSTAT)
    else none

/-- P_AEQ_LVL: free entries of the four streams. -/
def State.aeqLvl (s : State) : DWord :=
  BitVec.ofNat 64 ((Quad.all.map (fun t => (256 - (s.tl t).aeq.length) * 2 ^ (16 * t.idx))).sum)

/-- The status word that a context has selected: 0 while its source's domain is not ON. -/
def State.statWord (s : State) (c : CtxId) : DWord :=
  let sel := (s.ctx c).statsel.toNat
  if sel = 6 then (if s.fabricOn then s.aeqLvl else 0)
  else
    match statKey c.ridge sel with
    | some k => if s.blockUp k then (s.peekReg c.ridge k).setWidth 64 else 0
    | none => 0

/-! ### Conditions (Table 3.4) -/

/-- Conditions on the flags, 0x00–0x0F. -/
def Flags.cond (f : Flags) (n : Nat) : Bool :=
  match n with
  | 0x0 => true
  | 0x1 => f.z
  | 0x2 => !f.z
  | 0x3 => f.c
  | 0x4 => !f.c
  | 0x5 => f.n
  | 0x6 => !f.n
  | 0x7 => f.v
  | 0x8 => !f.v
  | 0x9 => f.c && !f.z
  | 0xA => !f.c || f.z
  | 0xB => f.n == f.v
  | 0xC => f.n != f.v
  | 0xD => !f.z && f.n == f.v
  | 0xE => f.z || f.n != f.v
  | _ => false

/-- Conditions on the streams, 0x40–0x4F: group and stream. -/
def State.streamCond (s : State) (g : Nat) (t : Quad) : Bool :=
  let x := s.tl t
  match g with
  | 0 => decide (x.aeq.length ≤ 240)
  | 1 => x.aeq.isEmpty
  | 2 => !x.posted.isEmpty
  | _ => !x.wg && !x.ag && !x.rg

/-- Conditions on the blocks, 0x50–0x5B. -/
def State.blockCond (s : State) (c : CtxId) (n : Nat) : Bool :=
  let r := c.ridge
  match n with
  | 0x50 => !(s.freeReqs c).isEmpty
  | 0x51 => (s.dec.get r).results.any (fun p => decide (p.1 = c))
  | 0x52 => (s.freeBuf r).isSome
  | 0x53 => !(s.ste.get r).results.isEmpty
  | 0x54 => (s.ce r).modeDone
  | 0x55 => (s.ce r).seekDone
  | 0x56 => s.creditReady c
  | 0x57 => decide (c.spur = .h) && s.nve.cmds.any (fun k => k.ready)
  | 0x58 => decide (s.nve.staging.length < 1024)
  | 0x59 => decide (s.crnResv r < s.crnFree)
  | 0x5A => decide (s.evr.used < 64)
  | 0x5B => !((s.ctx c).reads.any (fun o => o.port == 0xDB))
  | _ => false

/-- A condition of a context with the flags as sampled. -/
def State.cond (s : State) (c : CtxId) (f : Flags) (n : Nat) : Bool :=
  if n < 0x10 then f.cond n
  else if n < 0x20 then bit (s.ctx c).pend (n - 0x10)
  else if n < 0x40 then (sg Cmp.default (s.an c.ridge).cmps (n - 0x20)).hit
  else if n < 0x50 then s.streamCond ((n - 0x40) / 4) (quadOf n)
  else if n < 0x80 then s.blockCond c n
  else if n < 0xC0 then bit (s.statWord c) (n - 0x80)
  else bit ((s.core.get c.ridge).spurs.get c.spur).ff (n - 0xC0)

/-! ### Reads -/

/-- Access to what lies behind a port: refused with reason 5 while its domain is not ON. -/
def State.portGet (s : State) (c : CtxId) (p : Nat) (up : Bool) (f : State → State × DWord) : State × Option DWord :=
  if up then ((f s).1, some (f s).2) else (s.refuseCtx c p 5, none)

/-- A value that has no side effect. -/
def State.portPeek (s : State) (c : CtxId) (p : Nat) (up : Bool) (v : DWord) : State × Option DWord :=
  s.portGet c p up (fun s => (s, v))

/-- P_SPURID. -/
def spurWord (c : CtxId) : DWord := BitVec.ofNat 64 (c.no.idx * 16 + c.ridge.idx * 8 + c.spur.idx)

/-- A read of P_DRM_DATA (R373): poisoned data is refused with reason 6. -/
def State.drmRead (s : State) (c : CtxId) : State × Option DWord :=
  let a := fld ((s.ctx c).stagedAt 0xDA) 47 0
  match s.dramChan c.ridge a 8 with
  | none => (s.refuseCtx c 0xDB 5, none)
  | some x =>
    match s.dramRead x a 8 with
    | (s, some bs) => (s, some (BitVec.ofNat 64 (ofBytesLE bs)))
    | (s, none) => (s.refuseCtx c 0xDB 6, none)

/-- A port of a stream. -/
def State.streamRead (s : State) (c : CtxId) (p : Nat) : State × Option DWord :=
  let t := quadOf ((p - 0x40) / 8)
  let x := s.ctx c
  match p % 8 with
  | 0 => s.portGet c p s.fabricOn (fun s => s.statusTake c t)
  | 1 => s.portPeek c p s.fabricOn (s.statusPeek t)
  | 4 => s.portPeek c p s.fabricOn ((s.bankRead t ((x.stagedAt (0x43 + 8 * t.idx)).setWidth 9)).setWidth 64)
  | _ => s.portPeek c p s.fabricOn (s.tl t).gdcPes

/-- P_CEN_NODE and P_CEN_COEF (R170). -/
def State.nodeRead (s : State) (c : CtxId) : DWord :=
  let v := s.node c.ridge (fld ((s.ctx c).stagedAt 0xA0) 11 0)
  BitVec.ofNat 64 (b2n v.2 * 2 ^ 32 + v.1.toNat)

def State.coefRead (s : State) (c : CtxId) : DWord :=
  let k := fld ((s.ctx c).stagedAt 0xA2) 12 0
  BitVec.ofNat 64 ((sg 0 (s.ce c.ridge).shifts k).toNat * 2 ^ 32 + (sg 0 (s.ce c.ridge).coefs k).toNat)

/-- The read of a port that takes reads. -/
def State.portRead (s : State) (c : CtxId) (p : Nat) (rom : Bool) : State × Option DWord :=
  let r := c.ridge
  let x := s.ctx c
  let ste := s.domOn (57 + r.idx)
  match p with
  | 0x01 => (s, some ((s.spuStat r c.spur).setWidth 64))
  | 0x07 => (s, some x.perr)
  | 0x08 => (s, some (x.lcnt.setWidth 64))
  | 0x0A => (s, some (s.statWord c))
  | 0x0D => (s, some ((s.core.get r).spurs.get c.spur).ff)
  | 0x10 => (s, some (x.csn.setWidth 64))
  | 0x11 => (s.freeNext, some (s.free 64))
  | 0x12 => (s, some (spurWord c))
  | 0x23 => (s, some (x.stagedAt 0x23))
  | 0x25 => s.portPeek c p (s.angUp r) ((s.cmpBits r (fun k => k.hit)).setWidth 64)
  | 0x26 => s.portPeek c p s.fabricOn s.aeqLvl
  | 0x65 => s.portGet c p true (fun s => s.decTake c)
  | 0x66 => (s, some (s.decPeek c))
  | 0x67 => (s, some ((s.decSlots r).setWidth 64))
  | 0x68 => (s, some ((s.decEstat r 0).setWidth 64))
  | 0x69 => (s, some ((s.decEstat r 1).setWidth 64))
  | 0x6A => (s, some ((s.decEstat r 2).setWidth 64))
  | 0x6B => (s, some ((s.decEstat r 3).setWidth 64))
  | 0x82 => if s.steOn r then s.bufAcquire c else (s.refuseCtx c p 5, none)
  | 0x87 => s.portGet c p (s.steOn r) (fun s => s.scrubPop r)
  | 0x88 => s.portPeek c p ste ((s.steStat r).setWidth 64)
  | 0xA1 => s.portPeek c p (s.cenUp r) (s.nodeRead c)
  | 0xA3 => s.portPeek c p (s.cenUp r) (s.coefRead c)
  | 0xA6 => s.portPeek c p (s.cenUp r) ((s.cenStat r).setWidth 64)
  | 0xC1 => s.portGet c p s.rlgUp (fun s => s.acquire c false)
  | 0xC3 => s.portGet c p s.rlgUp (fun s => s.mediaReserve c)
  | 0xC4 => s.portGet c p s.rlgUp (fun s => s.acquire c true)
  | 0xC5 => s.portGet c p s.hdgUp (fun s => s.hedgeRead c)
  | 0xC8 => s.portPeek c p s.ztbUp (s.ztbRead c)
  | 0xCA => s.portGet c p s.nveUp (fun s => s.hqPop c)
  | 0xDB => s.drmRead c
  | 0xDC => s.portGet c p s.fabricOn (fun s => (s.freeNext, s.free 64))
  | 0xE1 => let a := s.busRead ⟨r, some c, p, rom⟩ x.busAddr; (a.1, a.2.map (fun w => w.setWidth 64))
  | 0xE2 => let a := s.busRead ⟨r, some c, p, rom⟩ x.busAddr; (a.1, a.2.map (fun w => w.setWidth 64))
  | _ => s.streamRead c p

/-! ### Writes -/

def State.stageAt (s : State) (c : CtxId) (p : Nat) (v : DWord) : State := s.modCtx c (fun x => x.stage p v)

/-- P_CTXCMD. A STOP of the writing context itself takes effect at the end of its word. -/
def State.ctxPort (s : State) (c : CtxId) (data : DWord) : State :=
  if fld data 23 21 = 2 ∧ quadOf (fld data 20 19) = c.no then s.modCtx c (fun x => { x with stopReq := x.stopReq || x.st.runs })
  else s.ctlWord c.ridge c.spur (data.setWidth 32)

/-- P_EVMASK: bit 0 stays enabled. -/
def Ctx.setMask (x : Ctx) (data : DWord) : Ctx :=
  { x with masks := x.masks.set (quadOf (fld data 63 62)) (setBit (data.setWidth 16) 0) }

/-- P_EVCLASS: lines 0 and 2 stay URGENT. -/
def Ctx.setClass (x : Ctx) (data : DWord) : Ctx := { x with urgentCls := setBit (setBit (data.setWidth 16) 0) 2 }

/-- P_EVACK: line 0 is not cleared. -/
def Ctx.evAck (x : Ctx) (data : DWord) : Ctx := { x with pend := x.pend &&& ~~~(clrBit (data.setWidth 16) 0) }

def State.modSpur (s : State) (c : CtxId) (f : Spur → Spur) : State :=
  s.modCore c.ridge (fun m => { m with spurs := m.spurs.set c.spur (f (m.spurs.get c.spur)) })

/-- P_FFSET and P_FFCLR (R20). -/
def State.ffSet (s : State) (c : CtxId) (data : DWord) : State := s.modSpur c (fun p => { p with ff := p.ff ||| data })

def State.ffClear (s : State) (c : CtxId) (data : DWord) : State := s.modSpur c (fun p => { p with ff := p.ff &&& ~~~data })

def State.sig0 (s : State) (c : CtxId) (data : DWord) : State := s.raiseRoute c.ridge (fld data 4 2) (fld data 1 0) 13

/-- The peer takes READ and P_SIG1 (R68). -/
def State.peerUp (s : State) (r : Side) : Bool :=
  let p := s.ridgeSt r.peer
  decide (p = .standby ∨ p = .inService ∨ p = .quiesced)

def State.sig1 (s : State) (c : CtxId) (data : DWord) : State :=
  if s.peerUp c.ridge then s.raiseRoute c.ridge.peer (fld data 4 2) (fld data 1 0) 14 else s.refuseCtx c 0x0F 5

/-- P_ANG_CMPROUTE (R87). -/
def State.cmpRoute (s : State) (c : CtxId) (data : DWord) : State :=
  if s.angUp c.ridge then
    s.modAng c.ridge (fun a =>
      let n := fld data 4 0
      let k : Cmp := { sg Cmp.default a.cmps n with route := some (fld data 10 8, fld data 13 12) }
      { a with cmps := sp Cmp.default a.cmps n k })
  else s.refuseCtx c 0x24 5

def State.drmWrite (s : State) (c : CtxId) (data : DWord) : State :=
  let a := fld ((s.ctx c).stagedAt 0xDA) 47 0
  match s.dramChan c.ridge a 8 with
  | none => s.refuseCtx c 0xDB 5
  | some x => s.dramWrite x a (bytesLE 8 data)

def State.streamWrite (s : State) (c : CtxId) (p : Nat) (data : DWord) (rom : Bool) : State :=
  let t := quadOf ((p - 0x40) / 8)
  s.tileAccess ⟨c.ridge, some c, p, rom⟩ t (fun s =>
    match p % 8 with
    | 2 => s.fmtCtl t data
    | 3 => s.stageAt c p data
    | 4 => s.bankWrite t (((s.ctx c).stagedAt (0x43 + 8 * t.idx)).setWidth 9) (data.setWidth 32)
    | _ => s.skipSelect c.ridge t data.toNat)

/-- P_CEN_TRACE: the buffer in [33:32], its CEN_TRCCFG word in [31:0] (R184). -/
def State.tracePort (s : State) (c : CtxId) (data : DWord) : State :=
  if s.cenUp c.ridge then s.traceCfg c.ridge (quadOf (fld data 33 32)) (data.setWidth 32) else s.refuseCtx c 0xA7 5

/-- The write of a port that takes writes. -/
def State.portWrite (s : State) (c : CtxId) (p : Nat) (data : DWord) (rom : Bool) : State :=
  let r := c.ridge
  match p with
  | 0x00 => s.ctxPort c data
  | 0x02 => s.modCtx c (fun x => x.setMask data)
  | 0x03 => s.modCtx c (fun x => x.setClass data)
  | 0x04 => s.modCtx c (fun x => x.evAck data)
  | 0x05 => s.modCtx c (fun x => { x with hvec := sp 0 x.hvec (fld data 35 32) (csAddr data) })
  | 0x06 => s.modCtx ⟨r, c.spur, quadOf (fld data 37 36)⟩ (fun x => { x with adoptVec := some (csAddr data) })
  | 0x08 => s.modCtx c (fun x => { x with lcnt := data.setWidth 24 })
  | 0x09 => s.modCtx c (fun x => { x with statsel := data.setWidth 8 })
  | 0x0B => s.ffSet c data
  | 0x0C => s.ffClear c data
  | 0x0E => s.sig0 c data
  | 0x0F => s.sig1 c data
  | 0x24 => s.cmpRoute c data
  | 0x64 => s.decSubmit c
  | 0x81 => s.stageAt c p (BitVec.ofNat 64 (63 - fld data 5 0))
  | 0x83 => s.stePort c .bufrel (fun s => s.bufRelease c data)
  | 0x84 => s.stePort c .move (fun s => s.chunkMove c data)
  | 0x85 => s.stePort c .recon (fun s => s.reconRequest c data)
  | 0x86 => s.stePort c .scrub (fun s => s.scrubStart c data)
  | 0xA1 => s.nodeWrite c data
  | 0xA3 => s.coefWrite c data
  | 0xA4 => s.modeRequest c data
  | 0xA5 => s.seekRequest c data
  | 0xA7 => s.tracePort c data
  | 0xC2 => if s.rlgUp then s.creditRelease c data else s.refuseCtx c p 5
  | 0xC6 => if s.hdgUp then s.hedgeRemove c data else s.refuseCtx c p 5
  | 0xC9 => s.ztbUpdate c data
  | 0xCB => if s.nveUp then s.hqCpl c data else s.refuseCtx c p 5
  | 0xD4 => s.crnAppend c
  | 0xD9 => s.evrPost c rom
  | 0xDB => s.drmWrite c data
  | 0xE1 => s.busWrite ⟨r, some c, p, rom⟩ (s.ctx c).busAddr (data.setWidth 32)
  | 0xE2 => s.busWrite ⟨r, some c, p, rom⟩ (s.ctx c).busAddr (data.setWidth 32)
  | _ => if streamPort p then s.streamWrite c p data rom else s.stageAt c p data

/-! ### The replay filter (R40) -/

/-- The answer of a transfer: P_PERR tells whether it was refused, and keeps its value where it was not. -/
def State.answered (s : State) (c : CtxId) (f : State → State × Option DWord) : State × PortResp :=
  let old := (s.ctx c).perr
  let (s, a) := f (s.modCtx c (fun x => { x with perr := 0 }))
  let e := fld (s.ctx c).perr 3 0
  if e ≠ 0 then (s, .refused e)
  else
    let s := s.modCtx c (fun x => { x with perr := old })
    (s,
      match a with
      | some v => .data v
      | none => .ok)

/-- An ANG POST. -/
def postKind : Nat := 0x100

/-- The last two transfers of a kind, POST or a port. -/
def servedKeep (e : Nat × Word × PortResp) (l : List (Nat × Word × PortResp)) : List (Nat × Word × PortResp) :=
  let same (x : Nat × Word × PortResp) : Bool := (x.1 == postKind) == (e.1 == postKind)
  e :: ((l.filter same).take 1 ++ l.filter (fun x => !same x))

/-- A transfer to a Saddle service: one whose CSN has been served is not executed again, and its answer is repeated. -/
def State.serve (s : State) (c : CtxId) (kind port : Nat) (f : State → State × Option DWord) : State × PortResp :=
  let csn := (s.ctx c).csn + 1
  match (s.ctx c).served.find? (fun e => (e.1 == postKind) == (kind == postKind) && decide (e.2.1 = csn)) with
  | some e =>
    match e.2.2 with
    | .refused k => (s.refuseCtx c port k, .refused k)
    | a => (s, a)
  | none =>
    let (s, a) := s.answered c f
    (s.modCtx c (fun x => { x with served := servedKeep (kind, csn, a) x.served }), a)

/-- An XR (R65): the answer, `refused` where the port does not take reads. P_PERR shows the last refusal before it. -/
def State.xferRead (s : State) (c : CtxId) (p : Nat) (rom : Bool) : State × PortResp :=
  if portReads p = false then (s.refuseCtx c p 1, .refused 1)
  else if p = 0x07 then (s, .data (s.ctx c).perr)
  else if (s.ctx c).saddlePort p then s.serve c p p (fun s => s.portRead c p rom)
  else s.answered c (fun s => s.portRead c p rom)

/-- An XW or XWI. -/
def State.xferWrite (s : State) (c : CtxId) (p : Nat) (data : DWord) (rom : Bool) : State :=
  if portWrites p = false then s.refuseCtx c p 1
  else if (s.ctx c).saddlePort p then (s.serve c p p (fun s => (s.portWrite c p data rom, none))).1
  else s.portWrite c p data rom

/-! ### ANG operations (R68, R69, Table 3.8) -/

/-- A refused ANG operation (R67). The spec gives P_PERR no port for it: the field is free. -/
def State.refuseAng (s : State) (c : CtxId) (reason : Nat) : State := (s.refuseCtx c (s.free 8).toNat reason).freeNext

/-- ARM (R87). -/
def State.arm (s : State) (c : CtxId) (n : Nat) : State :=
  if s.angUp c.ridge then
    s.modAng c.ridge (fun a =>
      let k : Cmp := { sg Cmp.default a.cmps n with armed := true, hit := false, value := (s.ctx c).stagedAt 0x22 }
      { a with cmps := sp Cmp.default a.cmps n k })
  else s.refuseAng c 5

def State.disarm (s : State) (c : CtxId) (n : Nat) : State :=
  if s.angUp c.ridge then
    s.modAng c.ridge (fun a =>
      let k : Cmp := { sg Cmp.default a.cmps n with armed := false, hit := false }
      { a with cmps := sp Cmp.default a.cmps n k })
  else s.refuseAng c 5

/-- POST and FLUSH act on a stream that the Ridge owns. In wedge-servo mode A1 and B1 take no entry (R413). -/
def State.aeqAccess (s : State) (c : CtxId) (t : Quad) (f : State → State) : State :=
  if s.fabricOn = false then s.refuseAng c 5
  else if s.owns c.ridge t = false then (s.refuseTile ⟨c.ridge, some c, (s.free 8).toNat, false⟩ t).freeNext
  else f s

def State.post (s : State) (c : CtxId) (t : Quad) : State :=
  s.aeqAccess c t (fun s =>
    if s.wsc ∧ t.slot = .b then s.refuseAng c 2
    else if 256 ≤ (s.tl t).aeq.length then s.refuseAng c 3
    else
      let e : AeqEntry := ⟨(s.ctx c).stagedAt 0x20, ((s.ctx c).stagedAt 0x21).setWidth 32⟩
      s.modTile t (fun x => { x with aeq := x.aeq ++ [e] }))

def State.flush (s : State) (c : CtxId) (t : Quad) : State := s.aeqAccess c t (fun s => s.flushAeq t)

/-- READ: the Angle Count of a source. -/
def State.angRead (s : State) (c : CtxId) (src : Nat) : State :=
  let r := c.ridge
  if src = 1 then
    if s.peerUp r && s.angUp r.peer then s.stageAt c 0x23 (s.an r.peer).ac else s.refuseAng c 5
  else if src < 4 then (if s.angUp r then s.stageAt c 0x23 (s.an r).ac else s.refuseAng c 5)
  else s.stageAt c 0x23 (ofI 64 (s.streamAc (quadOf src)))

/-- The ANG part of a word. -/
def State.angOp (s : State) (c : CtxId) (op sel : Nat) : State :=
  match op with
  | 1 => s.arm c sel
  | 2 => s.disarm c sel
  | 3 => (s.serve c postKind 0 (fun s => (s.post c (quadOf sel), none))).1
  | 4 => s.angRead c (sel % 8)
  | 5 => s.flush c (quadOf sel)
  | _ => s

/-! ### Rows -/

def execSig0 (c : CtxId) (data : DWord) (s : State) : Out := .next (s.byCtx c (fun s => s.sig0 c data))

def execSig1 (c : CtxId) (data : DWord) (s : State) : Out := .next (s.byCtx c (fun s => s.sig1 c data))

def execFfSet (c : CtxId) (data : DWord) (s : State) : Out := .next (s.byCtx c (fun s => s.ffSet c data))

def execFfClear (c : CtxId) (data : DWord) (s : State) : Out := .next (s.byCtx c (fun s => s.ffClear c data))

def execEventAck (c : CtxId) (data : DWord) (s : State) : Out :=
  .next (s.byCtx c (fun s => s.modCtx c (fun x => x.evAck data)))

def execArm (c : CtxId) (n : BitVec 5) (s : State) : Out := .next (s.byCtx c (fun s => s.arm c n.toNat))

def execDisarm (c : CtxId) (n : BitVec 5) (s : State) : Out := .next (s.byCtx c (fun s => s.disarm c n.toNat))

def execPost (c : CtxId) (t : Quad) (s : State) : Out := .next (s.byCtx c (fun s => s.post c t))

def execAngRead (c : CtxId) (src : BitVec 3) (s : State) : Out := .next (s.byCtx c (fun s => s.angRead c src.toNat))

def execAeqFlush (c : CtxId) (t : Quad) (s : State) : Out := .next (s.byCtx c (fun s => s.flush c t))

/-- The condition of a WAIT holds. -/
def execWaitRelease (c : CtxId) (s : State) : Out :=
  .next (
    s.byCtx c (fun s =>
      match (s.ctx c).waiting with
      | some w => if s.cond c w.flags w.cond then s.modCtx c Ctx.waitEnds else s
      | none => s))

end Sys2Proof.Machine
end

