-- ==== Sys2Proof/Machine/Words.lean ====
section
/-!
DEFINITION. The execution of one microword (R51–R72, Table 3.1, Table 3.2): its fields, its faults, the order of its parts,
and the commands of the SEQ encodings. A word is an operand of its command (DESIGN CHOICE, log 32); where its address lies in the writable
store or the patch memory it must be the word stored there.
-/
namespace Sys2Proof.Machine

/-! ### Fields (Table 3.1) -/

def wSeq (w : MicroWord) : Nat := fld w 127 124

def wCond (w : MicroWord) : Nat := fld w 123 116

def wTarget (w : MicroWord) : CsAddr := csAddr (w >>> 97)

def wAluOp (w : MicroWord) : Nat := fld w 95 90

/-- The ALU part with IMM. -/
def wAlu (w : MicroWord) : AluForm :=
  ⟨bit w 96, w.extractLsb' 84 6, w.extractLsb' 78 6, w.extractLsb' 72 6, w.extractLsb' 40 32⟩

def wImm (w : MicroWord) : Word := w.extractLsb' 40 32

def wPort (w : MicroWord) : Nat := fld w 39 32

def wMode (w : MicroWord) : Nat := fld w 31 30

def wReg (w : MicroWord) : Nat := fld w 29 24

def wAng (w : MicroWord) : Nat := fld w 23 21

def wSel (w : MicroWord) : Nat := fld w 20 16

def wCommit (w : MicroWord) : Bool := bit w 15

def wNidem (w : MicroWord) : Bool := bit w 14

def wClass (w : MicroWord) : BitVec 2 := w.extractLsb' 12 2

def wHold (w : MicroWord) : Bool := bit w 11

def wMsel (w : MicroWord) : Bool := bit w 10

def wSet (w : MicroWord) : Quad := quadOf (fld w 9 8)

def wTag (w : MicroWord) : Byte := w.extractLsb' 0 8

/-! ### Faults of a word (R46, Table 2.5) -/

/-- A non-idempotent effect (R36): a transfer to a class N port, or a POST. -/
def wNonIdem (w : MicroWord) : Bool := (wMode w != 0 && portN (wPort w)) || wAng w == 3

/-- HOLD as a POLL of this word sees it (R33, R71): a COMMIT ends an earlier hold. -/
def Ctx.pollView (x : Ctx) (w : MicroWord) : Ctx := { x with hold := wHold w || (x.hold && !wCommit w) }

/-- CALL, or a POLL that takes a line, with 16 entries held; RET with none. -/
def Ctx.stackFault (x : Ctx) (w : MicroWord) : Bool :=
  let full := decide (16 ≤ x.stack.length)
  match wSeq w with
  | 2 => full
  | 3 => x.stack.isEmpty
  | 7 => full && (x.pollView w).deferLine.isSome
  | _ => false

/-- Every cause that a word meets. A fetch outside the regions of Table 2.2 yields no word. -/
def Ctx.wordFaults (x : Ctx) (w : MicroWord) : FaultSet :=
  if badFetch x.pc then { FaultSet.none with fetch := true }
  else
    { FaultSet.none with
      illseq := decide (12 ≤ wSeq w)
      illalu := (aluOf (wAluOp w)).isNone
      nidemnc := wNidem w && !wCommit w
      nidemreq := wNonIdem w && !wNidem w
      stack := x.stackFault w }

/-! ### Readiness (R21, R22, R31) -/

/-- Operations with no result. -/
def aluTests (op : Nat) : Bool := [0x00, 0x07, 0x08, 0x11, 0x2F].contains op

/-- The registers that a word reads or writes. -/
def wRegs (w : MicroWord) : List Nat :=
  let f := wAlu w
  let op := wAluOp w
  (if [0x00, 0x01, 0x02].contains op then [] else [f.a.toNat]) ++
    (if f.imm || [0x00, 0x09, 0x0A, 0x10, 0x23, 0x24, 0x25, 0x26].contains op then [] else [f.b.toNat]) ++
    (if aluTests op then [] else [f.dst.toNat]) ++
    (if wMode w = 1 ∨ wMode w = 2 then [wReg w] else []) ++ (if wSeq w = 8 then [f.a.toNat] else [])

/-- A register of the word awaits port data (R22). -/
def Ctx.awaits (x : Ctx) (w : MicroWord) : Bool := x.reads.any (fun o => (wRegs w).contains o.reg)

/-- The word is the one fetched: any word of the ROM, whose contents the spec does not give. A poisoned word is not
delivered: CST_PEER_REFETCH handles it (R25, Table 17.3). -/
def State.fetched (s : State) (c : CtxId) (w : MicroWord) : Bool :=
  let a := s.fetchAddr c.ridge (s.ctx c).pc
  !s.storeMarked c.ridge a.toNat && (inRom a.toNat || badFetch a || decide (s.storeWord c.ridge a = w))

/-- The context issues this word now, but for its state. -/
def State.canIssue (s : State) (c : CtxId) (w : MicroWord) : Bool :=
  let x := s.ctx c
  s.ridgeLive c.ridge && s.spurOn c && decide (x.giving ≠ some true) && !x.committing && !x.awaits w && s.fetched c w

/-! ### The sequencer (R55–R59) -/

/-- The outcome of the sequencer: the context, and the address it goes on at. -/
structure SeqOut where
  ctx : Ctx
  next : CsAddr
deriving DecidableEq, Repr

/-- A return to a stack of this depth ends the URGENT handler and the DEFER handlers entered above it (R30, R33). -/
def Ctx.returned (x : Ctx) (depth : Nat) : Ctx :=
  let out := x.urgentDepth.any (fun d => decide (depth ≤ d))
  { x with
    st := if out then .run else x.st
    urgentDepth := if out then none else x.urgentDepth
    deferDepths := x.deferDepths.filter (fun d => decide (d < depth)) }

/-- A return address on a stack of 16 entries (a full stack raises STACK before the word has any effect). -/
def Ctx.push (x : Ctx) (a : CsAddr) : Ctx := { x with stack := (a :: x.stack).take 16 }

/-- POLL (R30): the handler of the lowest pending DEFER line is entered as by a CALL. -/
def Ctx.poll (x : Ctx) (w : MicroWord) (nxt : CsAddr) : SeqOut :=
  match (x.pollView w).deferLine with
  | some n => ⟨{ x.push nxt with deferDepths := x.stack.length :: x.deferDepths }, x.vector n⟩
  | none => ⟨x, nxt⟩

/-- Stack, loop counter and successor of a word other than WAIT and HALT; `sampled` is the context as the word began,
`pc` the address the word was fetched from. -/
def State.seqStep (s : State) (c : CtxId) (w : MicroWord) (sampled : Ctx) (pc : CsAddr) : SeqOut :=
  let x := s.ctx c
  let nxt := pc + 1
  let tgt := wTarget w
  match wSeq w with
  | 1 => ⟨x, tgt⟩
  | 2 => ⟨x.push nxt, tgt⟩
  | 3 =>
    match x.stack with
    | a :: t => ⟨({ x with stack := t }).returned t.length, a⟩
    | [] => ⟨x, nxt⟩
  | 4 => ⟨x, if s.cond c sampled.flags (wCond w) then tgt else nxt⟩
  | 5 => ⟨x, if s.cond c sampled.flags (wCond w) then nxt else tgt⟩
  | 7 => x.poll w nxt
  | 8 => ⟨x, tgt + BitVec.ofNat 20 (fld (sampled.rd (wAlu w).a.toNat) 7 0)⟩
  | 11 => if x.lcnt = 0 then ⟨x, nxt⟩ else ⟨{ x with lcnt := x.lcnt - 1 }, tgt⟩
  | _ => ⟨x, nxt⟩

/-- Timeout of a WAIT (Table 3.3). -/
def wCount (w : MicroWord) : Nat := let n := fld (wImm w) 23 0; if n = 0 then 16777216 else n

/-- A WAIT whose condition does not hold: the context waits at the word. A word run by STEP does not leave HALT. -/
def State.startWait (s : State) (c : CtxId) (w : MicroWord) (fl : Flags) (pc nxt : CsAddr) : State :=
  let ac := (s.an c.ridge).ac
  s.modCtx c (fun x =>
    if x.st = .halt then { x with pc := pc }
    else { x with st := .wait, pc := pc, wait := some ⟨wCond w, fl, bit (wImm w) 31, wCount w, ac, nxt⟩ })

/-! ### One word (R53) -/

/-- A port write is remembered by its word until the port has timed out (R23). -/
def Ctx.noteWrite (x : Ctx) (w : MicroWord) (pc : CsAddr) : Ctx :=
  if wMode w = 2 ∨ wMode w = 3 then { x with wrote := sp none x.wrote (wPort w) (some pc) } else x

/-- ANG and XFER parts, the ALU result and the note of a port write: the state, and the data of a read. -/
def State.wordParts (s : State) (c : CtxId) (w : MicroWord) (x : Ctx) : State × Option DWord :=
  let pc := s.fetchAddr c.ridge x.pc
  let rom := inRom pc.toNat
  let s := s.angOp c (wAng w) (wSel w)
  let (s, got) : State × Option DWord :=
    match wMode w with
    | 1 =>
      match s.xferRead c (wPort w) rom with
      | (s, .data v) => (s, some v)
      | (s, _) => (s, none)
    | 2 => (s.xferWrite c (wPort w) (x.rd (wReg w)) rom, none)
    | 3 => (s.xferWrite c (wPort w) ((wImm w).setWidth 64) rom, none)
    | _ => (s, none)
  let s :=
    match aluOf (wAluOp w) with
    | some f => s.modCtx c (fun y => y.aluWrite (wAlu w).dst (f (x.aluIn (wAlu w))))
    | none => s
  (s.modCtx c (fun y => y.noteWrite w pc), got)

/-- COMMIT with the restart address: at once, or when the data of the word's read returns (R37). -/
def State.wordCommit (s : State) (c : CtxId) (w : MicroWord) (got : Option DWord) (pc restart : CsAddr) : State :=
  let com := if wCommit w then some (restart, wClass w, wHold w) else none
  match got with
  | some v => s.modCtx c (fun x => { x with reads := x.reads ++ [⟨pc, wPort w, wReg w, v, com⟩] })
  | none => if wCommit w then s.commit c restart (wClass w) else s

/-- HOLD, MSEL and TAG (R71, R72), and a STOP that the word itself wrote. -/
def State.wordEnd (s : State) (c : CtxId) (w : MicroWord) (pc : CsAddr) : State :=
  let s := s.modCtx c (fun x =>
    let y := { x with hold := x.hold || wHold w, mset := if wMsel w then wSet w else x.mset }
    if y.stopReq && !y.committing then y.halted else y)
  if wTag w = 0 then s else s.modPins (fun p => { p with traceRec := some (c, wTag w, pc) })

/-- A word without a fault. It goes on from the address it was fetched from: a word of a patch slot is followed by the
next word of the slot (R26). -/
def State.runWord (s : State) (c : CtxId) (w : MicroWord) : State :=
  let x := s.ctx c
  let pc := s.fetchAddr c.ridge x.pc
  let nxt := pc + 1
  let (s, got) := s.wordParts c w x
  if s.ridgeLive c.ridge = false then s
  else
    match wSeq w with
    | 6 =>
      let hit := s.cond c x.flags (wCond w)
      let s := s.wordCommit c w got pc pc
      let s := if hit then s.modCtx c (fun y => { y with pc := nxt }) else s.startWait c w x.flags pc nxt
      s.wordEnd c w pc
    | 10 =>
      let s := s.wordCommit c w got pc nxt
      let s := s.modCtx c (fun y => { y with pc := nxt, st := .halt, urgentDepth := none, deferDepths := [] })
      s.wordEnd c w pc
    | _ =>
      let o := s.seqStep c w x pc
      let s := (s.setCtx c { o.ctx with pc := o.next }).wordCommit c w got pc o.next
      s.wordEnd c w pc

/-- The context issues a word: its faults before any effect (R46, R48), else a COMMIT waits while two snapshots are
unacknowledged (R42), else the word runs. -/
def State.issue (s : State) (c : CtxId) (w : MicroWord) (ce : Bool) : State :=
  let s := if ce && !badFetch (s.ctx c).pc then s.fetchCe c.ridge else s
  let f := (s.ctx c).wordFaults w
  if f.any then s.ctxFault c (s.fetchAddr c.ridge (s.ctx c).pc) f
  else if wCommit w && s.commitStalls c then s.modCtx c (fun x => { x with ackStall := true })
  else s.runWord c w

/-- A word of a SEQ encoding issued by a running context. -/
def State.seqRow (s : State) (c : CtxId) (w : MicroWord) (ce : Bool) (seq : Nat → Bool) : State :=
  if seq (wSeq w) && s.canIssue c w && (s.ctx c).atWord then s.issue c w ce else s

/-! ### Rows -/

def execNext (c : CtxId) (w : MicroWord) (ce : Bool) (s : State) : Out := .next (s.seqRow c w ce (fun q => q == 0))

def execJump (c : CtxId) (w : MicroWord) (ce : Bool) (s : State) : Out := .next (s.seqRow c w ce (fun q => q == 1))

def execCall (c : CtxId) (w : MicroWord) (ce : Bool) (s : State) : Out := .next (s.seqRow c w ce (fun q => q == 2))

def execRet (c : CtxId) (w : MicroWord) (ce : Bool) (s : State) : Out := .next (s.seqRow c w ce (fun q => q == 3))

def execBrt (c : CtxId) (w : MicroWord) (ce : Bool) (s : State) : Out := .next (s.seqRow c w ce (fun q => q == 4))

def execBrf (c : CtxId) (w : MicroWord) (ce : Bool) (s : State) : Out := .next (s.seqRow c w ce (fun q => q == 5))

def execWait (c : CtxId) (w : MicroWord) (ce : Bool) (s : State) : Out := .next (s.seqRow c w ce (fun q => q == 6))

def execPoll (c : CtxId) (w : MicroWord) (ce : Bool) (s : State) : Out := .next (s.seqRow c w ce (fun q => q == 7))

def execDisp (c : CtxId) (w : MicroWord) (ce : Bool) (s : State) : Out := .next (s.seqRow c w ce (fun q => q == 8))

/-- The 16 cycles in which the context is not ready are not timed. -/
def execYield (c : CtxId) (w : MicroWord) (ce : Bool) (s : State) : Out := .next (s.seqRow c w ce (fun q => q == 9))

def execHalt (c : CtxId) (w : MicroWord) (ce : Bool) (s : State) : Out := .next (s.seqRow c w ce (fun q => q == 10))

def execLoop (c : CtxId) (w : MicroWord) (ce : Bool) (s : State) : Out := .next (s.seqRow c w ce (fun q => q == 11))

def execIllseq (c : CtxId) (w : MicroWord) (ce : Bool) (s : State) : Out := .next (s.seqRow c w ce (fun q => decide (12 ≤ q)))

/-- STEP (R50): one word of a context in HALT; ignored where it does not apply. -/
def execSpurStep (c : CtxId) (w : MicroWord) (ce : Bool) (s : State) : Out :=
  .next (
    s.byCtx c (fun s =>
      let x := s.ctx c
      if x.st = .halt ∧ (x.stepReq ∨ s.regB (rk c.ridge R_SPU_GCTL) 8) then
        if s.canIssue c w then (s.modCtx c (fun y => { y with stepReq := false })).issue c w ce else s
      else s.spuInt c.ridge 2))

end Sys2Proof.Machine
end

