-- ==== Sys2Proof/Machine/Dispatch.lean ====
section
/-!
DEFINITION. One arm per command.
-/
namespace Sys2Proof.Machine

def exec (i : Instr) (s : State) : Host.Outcome State Fault Refusal :=
  match i with
  | .heartbeatLoss => Sys2Proof.Machine.execHeartbeatLoss s
  | .heartbeat => Sys2Proof.Machine.execHeartbeat s
  | .heartbeatKick x => Sys2Proof.Machine.execHeartbeatKick x s
  | .hbtoExpiry => Sys2Proof.Machine.execHbtoExpiry s
  | .flushSpeedStop act => Sys2Proof.Machine.execFlushSpeedStop act s
  | .fence r cause => Sys2Proof.Machine.execFence r cause s
  | .lockstepMismatch r sp => Sys2Proof.Machine.execLockstepMismatch r sp s
  | .duplicateMismatch k => Sys2Proof.Machine.execDuplicateMismatch k s
  | .cstPeerRefetch c => Sys2Proof.Machine.execCstPeerRefetch c s
  | .portReadReturn c port => Sys2Proof.Machine.execPortReadReturn c port s
  | .portTimeout c port => Sys2Proof.Machine.execPortTimeout c port s
  | .waitRelease c => Sys2Proof.Machine.execWaitRelease c s
  | .waitTimeout c => Sys2Proof.Machine.execWaitTimeout c s
  | .waitCycleBound c => Sys2Proof.Machine.execWaitCycleBound c s
  | .urgentEntry c => Sys2Proof.Machine.execUrgentEntry c s
  | .segmentWarning c => Sys2Proof.Machine.execSegmentWarning c s
  | .snapshotReceive c => Sys2Proof.Machine.execSnapshotReceive c s
  | .snapshotAck c => Sys2Proof.Machine.execSnapshotAck c s
  | .contextStart c addr => Sys2Proof.Machine.execContextStart c addr s
  | .contextStop c => Sys2Proof.Machine.execContextStop c s
  | .contextResume c => Sys2Proof.Machine.execContextResume c s
  | .spurStep c w ce => Sys2Proof.Machine.execSpurStep c w ce s
  | .contextRelease c => Sys2Proof.Machine.execContextRelease c s
  | .contextCmdReserved c cmd => Sys2Proof.Machine.execContextCmdReserved c cmd s
  | .debugDataWrite r hi => Sys2Proof.Machine.execDebugDataWrite r hi s
  | .loadWordStore x data => Sys2Proof.Machine.execLoadWordStore x data s
  | .loadAddressWrite x data => Sys2Proof.Machine.execLoadAddressWrite x data s
  | .matchWrite r off data => Sys2Proof.Machine.execMatchWrite r off data s
  | .bootlockSet r => Sys2Proof.Machine.execBootlockSet r s
  | .next c w ce => Sys2Proof.Machine.execNext c w ce s
  | .jump c w ce => Sys2Proof.Machine.execJump c w ce s
  | .call c w ce => Sys2Proof.Machine.execCall c w ce s
  | .ret c w ce => Sys2Proof.Machine.execRet c w ce s
  | .brt c w ce => Sys2Proof.Machine.execBrt c w ce s
  | .brf c w ce => Sys2Proof.Machine.execBrf c w ce s
  | .wait c w ce => Sys2Proof.Machine.execWait c w ce s
  | .poll c w ce => Sys2Proof.Machine.execPoll c w ce s
  | .disp c w ce => Sys2Proof.Machine.execDisp c w ce s
  | .yield c w ce => Sys2Proof.Machine.execYield c w ce s
  | .halt c w ce => Sys2Proof.Machine.execHalt c w ce s
  | .loop c w ce => Sys2Proof.Machine.execLoop c w ce s
  | .illseq c w ce => Sys2Proof.Machine.execIllseq c w ce s
  | .nop c f => Sys2Proof.Machine.execNop c f s
  | .mov c f => Sys2Proof.Machine.execMov c f s
  | .movh c f => Sys2Proof.Machine.execMovh c f s
  | .add c f => Sys2Proof.Machine.execAdd c f s
  | .adc c f => Sys2Proof.Machine.execAdc c f s
  | .sub c f => Sys2Proof.Machine.execSub c f s
  | .sbc c f => Sys2Proof.Machine.execSbc c f s
  | .cmp c f => Sys2Proof.Machine.execCmp c f s
  | .cmn c f => Sys2Proof.Machine.execCmn c f s
  | .neg c f => Sys2Proof.Machine.execNeg c f s
  | .abs c f => Sys2Proof.Machine.execAbs c f s
  | .and c f => Sys2Proof.Machine.execAnd c f s
  | .or c f => Sys2Proof.Machine.execOr c f s
  | .xor c f => Sys2Proof.Machine.execXor c f s
  | .andn c f => Sys2Proof.Machine.execAndn c f s
  | .orn c f => Sys2Proof.Machine.execOrn c f s
  | .not c f => Sys2Proof.Machine.execNot c f s
  | .tst c f => Sys2Proof.Machine.execTst c f s
  | .shl c f => Sys2Proof.Machine.execShl c f s
  | .shr c f => Sys2Proof.Machine.execShr c f s
  | .sar c f => Sys2Proof.Machine.execSar c f s
  | .rol c f => Sys2Proof.Machine.execRol c f s
  | .ror c f => Sys2Proof.Machine.execRor c f s
  | .min c f => Sys2Proof.Machine.execMin c f s
  | .max c f => Sys2Proof.Machine.execMax c f s
  | .minu c f => Sys2Proof.Machine.execMinu c f s
  | .maxu c f => Sys2Proof.Machine.execMaxu c f s
  | .mul c f => Sys2Proof.Machine.execMul c f s
  | .muls c f => Sys2Proof.Machine.execMuls c f s
  | .addsu c f => Sys2Proof.Machine.execAddsu c f s
  | .subsu c f => Sys2Proof.Machine.execSubsu c f s
  | .bfx c f => Sys2Proof.Machine.execBfx c f s
  | .bfxs c f => Sys2Proof.Machine.execBfxs c f s
  | .bfi c f => Sys2Proof.Machine.execBfi c f s
  | .bfc c f => Sys2Proof.Machine.execBfc c f s
  | .popc c f => Sys2Proof.Machine.execPopc c f s
  | .clz c f => Sys2Proof.Machine.execClz c f s
  | .ctz c f => Sys2Proof.Machine.execCtz c f s
  | .bswap c f => Sys2Proof.Machine.execBswap c f s
  | .sxt c f => Sys2Proof.Machine.execSxt c f s
  | .zxt c f => Sys2Proof.Machine.execZxt c f s
  | .crc c f => Sys2Proof.Machine.execCrc c f s
  | .crcb c f => Sys2Proof.Machine.execCrcb c f s
  | .gfmul c f => Sys2Proof.Machine.execGfmul c f s
  | .gfmac c f => Sys2Proof.Machine.execGfmac c f s
  | .selz c f => Sys2Proof.Machine.execSelz c f s
  | .selc c f => Sys2Proof.Machine.execSelc c f s
  | .tstb c f => Sys2Proof.Machine.execTstb c f s
  | .illalu c op => Sys2Proof.Machine.execIllalu c op s
  | .eventAck c data => Sys2Proof.Machine.execEventAck c data s
  | .sig0 c data => Sys2Proof.Machine.execSig0 c data s
  | .sig1 c data => Sys2Proof.Machine.execSig1 c data s
  | .ffSet c data => Sys2Proof.Machine.execFfSet c data s
  | .ffClear c data => Sys2Proof.Machine.execFfClear c data s
  | .arm c n => Sys2Proof.Machine.execArm c n s
  | .disarm c n => Sys2Proof.Machine.execDisarm c n s
  | .post c t => Sys2Proof.Machine.execPost c t s
  | .angRead c src => Sys2Proof.Machine.execAngRead c src s
  | .aeqFlush c t => Sys2Proof.Machine.execAeqFlush c t s
  | .clockMark r absent phase rate idx => Sys2Proof.Machine.execClockMark r absent phase rate idx s
  | .flywheelEntry r => Sys2Proof.Machine.execFlywheelEntry r s
  | .flywrExpiry r periods => Sys2Proof.Machine.execFlywrExpiry r periods s
  | .flywheelFallback r periods => Sys2Proof.Machine.execFlywheelFallback r periods s
  | .referenceStreamChange r => Sys2Proof.Machine.execReferenceStreamChange r s
  | .observerValidChange rpm => Sys2Proof.Machine.execObserverValidChange rpm s
  | .angleCrosscheckFault r => Sys2Proof.Machine.execAngleCrosscheckFault r s
  | .sampleTick r series now g rpm => Sys2Proof.Machine.execSampleTick r series now g rpm s
  | .comparatorHit r n now => Sys2Proof.Machine.execComparatorHit r n now s
  | .skewWrite r data => Sys2Proof.Machine.execSkewWrite r data s
  | .aeqNop t now => Sys2Proof.Machine.execAeqNop t now s
  | .aeqWgOn t now => Sys2Proof.Machine.execAeqWgOn t now s
  | .aeqWgOff t now => Sys2Proof.Machine.execAeqWgOff t now s
  | .aeqRdOn t now => Sys2Proof.Machine.execAeqRdOn t now s
  | .aeqRdOff t now smps => Sys2Proof.Machine.execAeqRdOff t now smps s
  | .aeqAsPre t now => Sys2Proof.Machine.execAeqAsPre t now s
  | .aeqAsOn t now => Sys2Proof.Machine.execAeqAsOn t now s
  | .aeqAsOff t now => Sys2Proof.Machine.execAeqAsOff t now s
  | .aeqSyncOpen t now smps => Sys2Proof.Machine.execAeqSyncOpen t now smps s
  | .aeqSyncClose t now smps tail => Sys2Proof.Machine.execAeqSyncClose t now smps tail s
  | .aeqHsw t now => Sys2Proof.Machine.execAeqHsw t now s
  | .aeqGsamp t now g => Sys2Proof.Machine.execAeqGsamp t now g s
  | .aeqAsLvl t now => Sys2Proof.Machine.execAeqAsLvl t now s
  | .aeqIllegalAction t now => Sys2Proof.Machine.execAeqIllegalAction t now s
  | .angAcLatch x => Sys2Proof.Machine.execAngAcLatch x s
  | .counterReadClear x addr => Sys2Proof.Machine.execCounterReadClear x addr s
  | .clockRangeFault t => Sys2Proof.Machine.execClockRangeFault t s
  | .bankSwapRequest x t => Sys2Proof.Machine.execBankSwapRequest x t s
  | .bankWordWrite x t sel data => Sys2Proof.Machine.execBankWordWrite x t sel data s
  | .spareStepStart x t slice => Sys2Proof.Machine.execSpareStepStart x t slice s
  | .spareTakeover t => Sys2Proof.Machine.execSpareTakeover t s
  | .spareReturn t => Sys2Proof.Machine.execSpareReturn t s
  | .freezeSpanStart t level smps => Sys2Proof.Machine.execFreezeSpanStart t level smps s
  | .freezeSpanEnd t level smps => Sys2Proof.Machine.execFreezeSpanEnd t level smps s
  | .recordRelease x t mask => Sys2Proof.Machine.execRecordRelease x t mask s
  | .sectorComplete t now smps => Sys2Proof.Machine.execSectorComplete t now smps s
  | .sourceUnderrun t => Sys2Proof.Machine.execSourceUnderrun t s
  | .decodeComplete r slot res => Sys2Proof.Machine.execDecodeComplete r slot res s
  | .writeEnableWrite x t en => Sys2Proof.Machine.execWriteEnableWrite x t en s
  | .decoderSubmit c => Sys2Proof.Machine.execDecoderSubmit c s
  | .decoderResultPop c reg => Sys2Proof.Machine.execDecoderResultPop c reg s
  | .wedgeRead t now w => Sys2Proof.Machine.execWedgeRead t now w s
  | .keepoutEntry t now => Sys2Proof.Machine.execKeepoutEntry t now s
  | .syncMatch t now smps => Sys2Proof.Machine.execSyncMatch t now smps s
  | .skipEntryApply t now => Sys2Proof.Machine.execSkipEntryApply t now s
  | .skipListSelect x t addr => Sys2Proof.Machine.execSkipListSelect x t addr s
  | .sectorStatusPop c t reg => Sys2Proof.Machine.execSectorStatusPop c t reg s
  | .descriptorWordWrite x t slot word data => Sys2Proof.Machine.execDescriptorWordWrite x t slot word data s
  | .trackidWrite x t v => Sys2Proof.Machine.execTrackidWrite x t v s
  | .formatterCmdIgnored x t w => Sys2Proof.Machine.execFormatterCmdIgnored x t w s
  | .frameSlot l => Sys2Proof.Machine.execFrameSlot l s
  | .idle l w => Sys2Proof.Machine.execIdle l w s
  | .rdrsp l w => Sys2Proof.Machine.execRdrsp l w s
  | .status l w => Sys2Proof.Machine.execStatus l w s
  | .fault l w => Sys2Proof.Machine.execFault l w s
  | .upstreamIgnoredType l w => Sys2Proof.Machine.execUpstreamIgnoredType l w s
  | .upstreamLock l => Sys2Proof.Machine.execUpstreamLock l s
  | .upstreamLockLoss l => Sys2Proof.Machine.execUpstreamLockLoss l s
  | .upstreamSilence l => Sys2Proof.Machine.execUpstreamSilence l s
  | .retriesExhausted l w => Sys2Proof.Machine.execRetriesExhausted l w s
  | .registerAccessTimeout l => Sys2Proof.Machine.execRegisterAccessTimeout l s
  | .linkStart x l => Sys2Proof.Machine.execLinkStart x l s
  | .linkStartTimeout l => Sys2Proof.Machine.execLinkStartTimeout l s
  | .linkStop x l => Sys2Proof.Machine.execLinkStop x l s
  | .preampRegisterRead x l addr => Sys2Proof.Machine.execPreampRegisterRead x l addr s
  | .preampRegisterWrite x l addr val => Sys2Proof.Machine.execPreampRegisterWrite x l addr val s
  | .heaterCommand x l head level => Sys2Proof.Machine.execHeaterCommand x l head level s
  | .safeCommand x l data => Sys2Proof.Machine.execSafeCommand x l data s
  | .pairMapWrite x l data => Sys2Proof.Machine.execPairMapWrite x l data s
  | .preampFaultLine l => Sys2Proof.Machine.execPreampFaultLine l s
  | .preampFaultRelease l => Sys2Proof.Machine.execPreampFaultRelease l s
  | .assistLeadLimit t now => Sys2Proof.Machine.execAssistLeadLimit t now s
  | .assistTailLimit t now => Sys2Proof.Machine.execAssistTailLimit t now s
  | .taskPass r q blocks inp => Sys2Proof.Machine.execTaskPass r q blocks inp s
  | .staleLimitExpiry r dest => Sys2Proof.Machine.execStaleLimitExpiry r dest s
  | .nodeWrite c data => Sys2Proof.Machine.execNodeWrite c data s
  | .coefWrite c data => Sys2Proof.Machine.execCoefWrite c data s
  | .modeRequest c data => Sys2Proof.Machine.execModeRequest c data s
  | .modeSwitch act => Sys2Proof.Machine.execModeSwitch act s
  | .seekRequest c data => Sys2Proof.Machine.execSeekRequest c data s
  | .rampGo r data => Sys2Proof.Machine.execRampGo r data s
  | .outputCrosscheckFault r => Sys2Proof.Machine.execOutputCrosscheckFault r s
  | .nodeSync r => Sys2Proof.Machine.execNodeSync r s
  | .nodeSyncDone r => Sys2Proof.Machine.execNodeSyncDone r s
  | .traceArm r data => Sys2Proof.Machine.execTraceArm r data s
  | .traceForce r data => Sys2Proof.Machine.execTraceForce r data s
  | .spindleStart x => Sys2Proof.Machine.execSpindleStart x s
  | .spindleStop x => Sys2Proof.Machine.execSpindleStop x s
  | .spindleStep x => Sys2Proof.Machine.execSpindleStep x s
  | .coast x => Sys2Proof.Machine.execCoast x s
  | .clrflt x => Sys2Proof.Machine.execClrflt x s
  | .spindleCmdIgnored x data => Sys2Proof.Machine.execSpindleCmdIgnored x data s
  | .probeEnd rev rpm => Sys2Proof.Machine.execProbeEnd rev rpm s
  | .ipdDone => Sys2Proof.Machine.execIpdDone s
  | .kickObserverValid => Sys2Proof.Machine.execKickObserverValid s
  | .kickTimeout => Sys2Proof.Machine.execKickTimeout s
  | .atSpeedSet => Sys2Proof.Machine.execAtSpeedSet s
  | .atSpeedClear => Sys2Proof.Machine.execAtSpeedClear s
  | .spinupTimeout => Sys2Proof.Machine.execSpinupTimeout s
  | .stepComplete => Sys2Proof.Machine.execStepComplete s
  | .brakeComplete => Sys2Proof.Machine.execBrakeComplete s
  | .chopperEngage vmot => Sys2Proof.Machine.execChopperEngage vmot s
  | .chopperRelease vmot => Sys2Proof.Machine.execChopperRelease vmot s
  | .chopperSelftest x => Sys2Proof.Machine.execChopperSelftest x s
  | .chopperSelftestDone vmot on off => Sys2Proof.Machine.execChopperSelftestDone vmot on off s
  | .chopperFault rising vmot cur => Sys2Proof.Machine.execChopperFault rising vmot cur s
  | .overvoltageClamp vmot => Sys2Proof.Machine.execOvervoltageClamp vmot s
  | .clampRelease vmot => Sys2Proof.Machine.execClampRelease vmot s
  | .overcurrentTrip succ cur => Sys2Proof.Machine.execOvercurrentTrip succ cur s
  | .powerLoss pfail vmot => Sys2Proof.Machine.execPowerLoss pfail vmot s
  | .isolationFetClose vmot => Sys2Proof.Machine.execIsolationFetClose vmot s
  | .genLowVmotRetract vmot => Sys2Proof.Machine.execGenLowVmotRetract vmot s
  | .vmotCollapse vmot => Sys2Proof.Machine.execVmotCollapse vmot s
  | .powerReturn => Sys2Proof.Machine.execPowerReturn s
  | .retractCommand x data => Sys2Proof.Machine.execRetractCommand x data s
  | .retractDone act emf cur => Sys2Proof.Machine.execRetractDone act emf cur s
  | .retractTimeout act ms => Sys2Proof.Machine.execRetractTimeout act ms s
  | .powerDieThermalTrip => Sys2Proof.Machine.execPowerDieThermalTrip s
  | .currentSenseSpare x ch => Sys2Proof.Machine.execCurrentSenseSpare x ch s
  | .calibrationStart r addr t request => Sys2Proof.Machine.execCalibrationStart r addr t request s
  | .calibrationResult addr res given pairs => Sys2Proof.Machine.execCalibrationResult addr res given pairs s
  | .calibrationApplyStep addr => Sys2Proof.Machine.execCalibrationApplyStep addr s
  | .calibrationAbort addr => Sys2Proof.Machine.execCalibrationAbort addr s
  | .vcCalWindow x data => Sys2Proof.Machine.execVcCalWindow x data s
  | .vcCalDone act ofs us => Sys2Proof.Machine.execVcCalDone act ofs us s
  | .thermalWarning n t => Sys2Proof.Machine.execThermalWarning n t s
  | .thermalTrip n t => Sys2Proof.Machine.execThermalTrip n t s
  | .thermalTripRelease temps => Sys2Proof.Machine.execThermalTripRelease temps s
  | .voltageFault n mv => Sys2Proof.Machine.execVoltageFault n mv s
  | .avsUpdate rosc ms => Sys2Proof.Machine.execAvsUpdate rosc ms s
  | .avsClamp => Sys2Proof.Machine.execAvsClamp s
  | .powerDieSensorRead t0 t1 t2 t3 => Sys2Proof.Machine.execPowerDieSensorRead t0 t1 t2 t3 s
  | .stripeBufferAcquire c reg => Sys2Proof.Machine.execStripeBufferAcquire c reg s
  | .stripeBufferRelease c data => Sys2Proof.Machine.execStripeBufferRelease c data s
  | .chunkMove c w => Sys2Proof.Machine.execChunkMove c w s
  | .sectorLanding r => Sys2Proof.Machine.execSectorLanding r s
  | .reconstructionRequest c w => Sys2Proof.Machine.execReconstructionRequest c w s
  | .scrubCheck c data => Sys2Proof.Machine.execScrubCheck c data s
  | .scrubResultPop c reg => Sys2Proof.Machine.execScrubResultPop c reg s
  | .ztbWindowWrite x off data => Sys2Proof.Machine.execZtbWindowWrite x off data s
  | .ztbState c w => Sys2Proof.Machine.execZtbState c w s
  | .ztbWp c w => Sys2Proof.Machine.execZtbWp c w s
  | .ztbHwp c w => Sys2Proof.Machine.execZtbHwp c w s
  | .ztbStgadd c w => Sys2Proof.Machine.execZtbStgadd c w s
  | .ztbReset c w => Sys2Proof.Machine.execZtbReset c w s
  | .ztbDegset c w => Sys2Proof.Machine.execZtbDegset c w s
  | .ztbFree c w => Sys2Proof.Machine.execZtbFree c w s
  | .ztbUpdateRefused c w => Sys2Proof.Machine.execZtbUpdateRefused c w s
  | .zoneScan x data => Sys2Proof.Machine.execZoneScan x data s
  | .zoneScanDone => Sys2Proof.Machine.execZoneScanDone s
  | .memberStateChange act h trig n => Sys2Proof.Machine.execMemberStateChange act h trig n s
  | .rebuildBandGroup act call => Sys2Proof.Machine.execRebuildBandGroup act call s
  | .migrationCutover act => Sys2Proof.Machine.execMigrationCutover act s
  | .rebuildWait act => Sys2Proof.Machine.execRebuildWait act s
  | .rebuildCheckpoint act => Sys2Proof.Machine.execRebuildCheckpoint act s
  | .mediaWindowShare act => Sys2Proof.Machine.execMediaWindowShare act s
  | .lbaPoison n stripe off er conv => Sys2Proof.Machine.execLbaPoison n stripe off er conv s
  | .generationSwitch act => Sys2Proof.Machine.execGenerationSwitch act s
  | .actuatorLoss act cause => Sys2Proof.Machine.execActuatorLoss act cause s
  | .scrubStripe act out m gen bitmap off er conv => Sys2Proof.Machine.execScrubStripe act out m gen bitmap off er conv s
  | .scrubPassLate act days => Sys2Proof.Machine.execScrubPassLate act days s
  | .cairnAppend c => Sys2Proof.Machine.execCairnAppend c s
  | .replay r img => Sys2Proof.Machine.execReplay r img s
  | .cairnBankLoss r => Sys2Proof.Machine.execCairnBankLoss r s
  | .cairnResync x => Sys2Proof.Machine.execCairnResync x s
  | .cairnResyncDone r => Sys2Proof.Machine.execCairnResyncDone r s
  | .windowAdmit c reg => Sys2Proof.Machine.execWindowAdmit c reg s
  | .emergencyFlush act n => Sys2Proof.Machine.execEmergencyFlush act n s
  | .deferredError asn lba cause => Sys2Proof.Machine.execDeferredError asn lba cause s
  | .pcieLinkDown p => Sys2Proof.Machine.execPcieLinkDown p s
  | .hotReset p => Sys2Proof.Machine.execHotReset p s
  | .perst p => Sys2Proof.Machine.execPerst p s
  | .flr p f => Sys2Proof.Machine.execFlr p f s
  | .poisonedTlp p n => Sys2Proof.Machine.execPoisonedTlp p n s
  | .retrain x p speed width => Sys2Proof.Machine.execRetrain x p speed width s
  | .reequalize x p => Sys2Proof.Machine.execReequalize x p s
  | .sqTailDoorbell n q tail => Sys2Proof.Machine.execSqTailDoorbell n q tail s
  | .cqHeadDoorbell n q head => Sys2Proof.Machine.execCqHeadDoorbell n q head s
  | .commandFetch n q sqe => Sys2Proof.Machine.execCommandFetch n q sqe s
  | .hedgeEntryGrant n => Sys2Proof.Machine.execHedgeEntryGrant n s
  | .hostCommandPop c reg => Sys2Proof.Machine.execHostCommandPop c reg s
  | .completionPost c data => Sys2Proof.Machine.execCompletionPost c data s
  | .hedgeLookup c reg => Sys2Proof.Machine.execHedgeLookup c reg s
  | .hedgeRemove c data => Sys2Proof.Machine.execHedgeRemove c data s
  | .hedgeUnblock e => Sys2Proof.Machine.execHedgeUnblock e s
  | .zoneWriteCascade n cause => Sys2Proof.Machine.execZoneWriteCascade n cause s
  | .controllerEnable n asqs acqs wrr => Sys2Proof.Machine.execControllerEnable n asqs acqs wrr s
  | .controllerReset n => Sys2Proof.Machine.execControllerReset n s
  | .normalShutdown n => Sys2Proof.Machine.execNormalShutdown n s
  | .abruptShutdown n => Sys2Proof.Machine.execAbruptShutdown n s
  | .deleteIoSq n => Sys2Proof.Machine.execDeleteIoSq n s
  | .createIoSq n => Sys2Proof.Machine.execCreateIoSq n s
  | .getLogPage n => Sys2Proof.Machine.execGetLogPage n s
  | .deleteIoCq n => Sys2Proof.Machine.execDeleteIoCq n s
  | .createIoCq n => Sys2Proof.Machine.execCreateIoCq n s
  | .identify n => Sys2Proof.Machine.execIdentify n s
  | .abort n => Sys2Proof.Machine.execAbort n s
  | .setFeatures n hid ts => Sys2Proof.Machine.execSetFeatures n hid ts s
  | .getFeatures n => Sys2Proof.Machine.execGetFeatures n s
  | .asynchronousEventRequest n => Sys2Proof.Machine.execAsynchronousEventRequest n s
  | .asyncEventPost n => Sys2Proof.Machine.execAsyncEventPost n s
  | .namespaceManagement n zoned size lbaf => Sys2Proof.Machine.execNamespaceManagement n zoned size lbaf s
  | .namespaceAttachment n cs => Sys2Proof.Machine.execNamespaceAttachment n cs s
  | .firmwareCommit n ok => Sys2Proof.Machine.execFirmwareCommit n ok s
  | .firmwareImageDownload n data => Sys2Proof.Machine.execFirmwareImageDownload n data s
  | .deviceSelfTest n => Sys2Proof.Machine.execDeviceSelfTest n s
  | .virtualizationManagement n => Sys2Proof.Machine.execVirtualizationManagement n s
  | .nvmeMiSend n => Sys2Proof.Machine.execNvmeMiSend n s
  | .nvmeMiReceive n => Sys2Proof.Machine.execNvmeMiReceive n s
  | .formatNvm n => Sys2Proof.Machine.execFormatNvm n s
  | .securitySend n => Sys2Proof.Machine.execSecuritySend n s
  | .securityReceive n => Sys2Proof.Machine.execSecurityReceive n s
  | .sanitize n => Sys2Proof.Machine.execSanitize n s
  | .invalidOpcode n => Sys2Proof.Machine.execInvalidOpcode n s
  | .flush n => Sys2Proof.Machine.execFlush n s
  | .write n din data => Sys2Proof.Machine.execWrite n din data s
  | .read n tries => Sys2Proof.Machine.execRead n tries s
  | .writeZeroes n => Sys2Proof.Machine.execWriteZeroes n s
  | .datasetManagement n ranges => Sys2Proof.Machine.execDatasetManagement n ranges s
  | .verify n tries => Sys2Proof.Machine.execVerify n tries s
  | .reservationRegister n nrkey crkey => Sys2Proof.Machine.execReservationRegister n nrkey crkey s
  | .reservationReport n => Sys2Proof.Machine.execReservationReport n s
  | .reservationAcquire n crkey prkey => Sys2Proof.Machine.execReservationAcquire n crkey prkey s
  | .reservationRelease n crkey => Sys2Proof.Machine.execReservationRelease n crkey s
  | .zoneManagementSend n => Sys2Proof.Machine.execZoneManagementSend n s
  | .zoneManagementReceive n => Sys2Proof.Machine.execZoneManagementReceive n s
  | .zoneAppend n din data => Sys2Proof.Machine.execZoneAppend n din data s
  | .nvmeMiBasicCommand addr => Sys2Proof.Machine.execNvmeMiBasicCommand addr s
  | .getVersion => Sys2Proof.Machine.execGetVersion s
  | .getCapabilities => Sys2Proof.Machine.execGetCapabilities s
  | .negotiateAlgorithms p384 sha384 => Sys2Proof.Machine.execNegotiateAlgorithms p384 sha384 s
  | .getDigests => Sys2Proof.Machine.execGetDigests s
  | .getCertificate slot => Sys2Proof.Machine.execGetCertificate slot s
  | .challenge nonce => Sys2Proof.Machine.execChallenge nonce s
  | .getMeasurements idx => Sys2Proof.Machine.execGetMeasurements idx s
  | .keyExchange => Sys2Proof.Machine.execKeyExchange s
  | .asnWrite x data => Sys2Proof.Machine.execAsnWrite x data s
  | .asnLimitWrite x data => Sys2Proof.Machine.execAsnLimitWrite x data s
  | .queueAllocationWrite x data => Sys2Proof.Machine.execQueueAllocationWrite x data s
  | .namespaceConfigWrite x data => Sys2Proof.Machine.execNamespaceConfigWrite x data s
  | .creditAcquire c reg => Sys2Proof.Machine.execCreditAcquire c reg s
  | .creditRelease c data => Sys2Proof.Machine.execCreditRelease c data s
  | .mediaReserve c reg => Sys2Proof.Machine.execMediaReserve c reg s
  | .creditAvailable c => Sys2Proof.Machine.execCreditAvailable c s
  | .ledgerAudit => Sys2Proof.Machine.execLedgerAudit s
  | .takeover r t6 t8 => Sys2Proof.Machine.execTakeover r t6 t8 s
  | .switch r => Sys2Proof.Machine.execSwitch r s
  | .handback r work => Sys2Proof.Machine.execHandback r work s
  | .rejoin r syncOk => Sys2Proof.Machine.execRejoin r syncOk s
  | .testFence x => Sys2Proof.Machine.execTestFence x s
  | .ledgerCmdIgnored x data => Sys2Proof.Machine.execLedgerCmdIgnored x data s
  | .switchTimeout c => Sys2Proof.Machine.execSwitchTimeout c s
  | .lastRidgeFence r cause => Sys2Proof.Machine.execLastRidgeFence r cause s
  | .ridgeSelftestDone r syncOk => Sys2Proof.Machine.execRidgeSelftestDone r syncOk s
  | .memoryScrubStep m es stored last part => Sys2Proof.Machine.execMemoryScrubStep m es stored last part s
  | .bucketLeak m => Sys2Proof.Machine.execBucketLeak m s
  | .dramPartialWrite x addr data es => Sys2Proof.Machine.execDramPartialWrite x addr data es s
  | .eventPost c rom => Sys2Proof.Machine.execEventPost c rom s
  | .groupExpiry c => Sys2Proof.Machine.execGroupExpiry c s
  | .tokenRefill bucket => Sys2Proof.Machine.execTokenRefill bucket s
  | .recordWrite => Sys2Proof.Machine.execRecordWrite s
  | .otCheckpoint => Sys2Proof.Machine.execOtCheckpoint s
  | .ringScan => Sys2Proof.Machine.execRingScan s
  | .calendarSet data => Sys2Proof.Machine.execCalendarSet data s
  | .evrOtLatch x => Sys2Proof.Machine.execEvrOtLatch x s
  | .sealSign ok => Sys2Proof.Machine.execSealSign ok s
  | .hash x => Sys2Proof.Machine.execHash x s
  | .verifySignature x => Sys2Proof.Machine.execVerifySignature x s
  | .drbg x => Sys2Proof.Machine.execDrbg x s
  | .derive x => Sys2Proof.Machine.execDerive x s
  | .sign x => Sys2Proof.Machine.execSign x s
  | .keyload x slot => Sys2Proof.Machine.execKeyload x slot s
  | .zeroize x slot => Sys2Proof.Machine.execZeroize x slot s
  | .devpub x => Sys2Proof.Machine.execDevpub x s
  | .cryptoCmdIgnored x data => Sys2Proof.Machine.execCryptoCmdIgnored x data s
  | .cryptoDone => Sys2Proof.Machine.execCryptoDone s
  | .drbgRead x => Sys2Proof.Machine.execDrbgRead x s
  | .powerOnReset groups => Sys2Proof.Machine.execPowerOnReset groups s
  | .resetN => Sys2Proof.Machine.execResetN s
  | .vmotUndervoltageReset => Sys2Proof.Machine.execVmotUndervoltageReset s
  | .softwareFullReset x data => Sys2Proof.Machine.execSoftwareFullReset x data s
  | .softwareBlockReset x data => Sys2Proof.Machine.execSoftwareBlockReset x data s
  | .blockResetDone => Sys2Proof.Machine.execBlockResetDone s
  | .blockWatchdog r blk => Sys2Proof.Machine.execBlockWatchdog r blk s
  | .ridgeWatchdog r => Sys2Proof.Machine.execRidgeWatchdog r s
  | .watchdogKick x r => Sys2Proof.Machine.execWatchdogKick x r s
  | .ridgeReset r => Sys2Proof.Machine.execRidgeReset r s
  | .fullReset => Sys2Proof.Machine.execFullReset s
  | .resetRelease straps fuse0 fuse1 => Sys2Proof.Machine.execResetRelease straps fuse0 fuse1 s
  | .noxtal => Sys2Proof.Machine.execNoxtal s
  | .measuredBoot r b => Sys2Proof.Machine.execMeasuredBoot r b s
  | .domainOn x => Sys2Proof.Machine.execDomainOn x s
  | .domainOff x => Sys2Proof.Machine.execDomainOff x s
  | .domainRet x => Sys2Proof.Machine.execDomainRet x s
  | .domainStarted d => Sys2Proof.Machine.execDomainStarted d s
  | .domainStopped d => Sys2Proof.Machine.execDomainStopped d s
  | .powerStateSelect x v => Sys2Proof.Machine.execPowerStateSelect x v s
  | .wedgeCountMismatch x count => Sys2Proof.Machine.execWedgeCountMismatch x count s
  | .legacyWindowWrite x addr data => Sys2Proof.Machine.execLegacyWindowWrite x addr data s
  | .gpioEdge n rising => Sys2Proof.Machine.execGpioEdge n rising s
  | .pwrdisRise => Sys2Proof.Machine.execPwrdisRise s
  | .pwrdisFall => Sys2Proof.Machine.execPwrdisFall s
  | .jtagInstruction ir => Sys2Proof.Machine.execJtagInstruction ir s
  | .registerWrite x addr data => Sys2Proof.Machine.execRegisterWrite x addr data s
  | .powerDiePowerOn => Sys2Proof.Machine.execPowerDiePowerOn s
  | .v5Undervoltage v5 => Sys2Proof.Machine.execV5Undervoltage v5 s
  | .currentSenseSpareReturn => Sys2Proof.Machine.execCurrentSenseSpareReturn s
  | .upstreamFrameFailure l w => Sys2Proof.Machine.execUpstreamFrameFailure l w s
  | .perstRelease p speed width => Sys2Proof.Machine.execPerstRelease p speed width s
  | .smbusTimeout => Sys2Proof.Machine.execSmbusTimeout s
  | .hostPushLength p len => Sys2Proof.Machine.execHostPushLength p len s
  | .uartImageReceived len => Sys2Proof.Machine.execUartImageReceived len s
  | .actNBlink => Sys2Proof.Machine.execActNBlink s

end Sys2Proof.Machine
end

