-- ==== Sys2Proof/Machine/Outputs.lean ====
section
/-!
DEFINITION. The outputs of the package as the state drives them (Table 19.4, R406).
-/
namespace Sys2Proof.Machine

/-- The outputs of Table 19.4: those of a stream by its tile, of an actuator, a link, a port and a channel by its side.
-/
inductive Ball where
  | phases
  | coil (x : Side)
  | brk
  | isog
  | wg (t : Quad)
  | ag (t : Quad)
  | wd (t : Quad)
  | qlk (l : Side)
  | pet (p : Side)
  | clkreq (p : Side)
  | dramBus (c : Side)
  | qspiCs
  | gpio (n : BitVec 4)
  | uartTx
  | smb
  | thermtrip
  | act
  | tdo
deriving DecidableEq, Repr

/-- The pull on a GPIO: up, down, or none; with both bits set it is pulled down (R435). -/
def State.gpioPull (s : State) (n : BitVec 4) : Option Bool :=
  if s.regB R_GPD_PULL n.toNat then some false else if s.regB R_GPD_PULL (16 + n.toNat) then some true else none

/-- How an output stands. `driven`: with the levels of its function. TDO stands as between scans. -/
inductive Level where
  | off
  | low
  | high
  | hiZ
  | weakHigh
  | input
  | released
  | idle
  | stopped
  | selfRefresh
  | driven
deriving DecidableEq, Repr

def levelIf (b : Bool) (x y : Level) : Level := if b then x else y

/-- The Saddle is released (step 3 of Table 19.2). -/
def State.saddleOut (s : State) : Bool := !s.rcp.asserted && !s.rcp.noxtal

/-- A channel's bus: its device is in self-refresh, or stopped in reset until the Saddle is out. -/
def State.dramLevel (s : State) (c : Side) : Level :=
  if (s.dram.get c).selfRefresh then .selfRefresh else levelIf s.saddleOut .driven .stopped

/-- The state of an output. -/
def State.ball (s : State) : Ball → Level
  | .phases => levelIf (decide (s.bridge = .off)) .off .driven
  | .coil x => levelIf (s.mtr.retracting.get x || s.vcOn x) .driven .off
  | .brk => levelIf s.mtr.chopOn .driven .off
  | .isog => levelIf s.mtr.isoClosed .driven .off
  | .wg t => levelIf (s.tl t).wg .high .low
  | .ag t => levelIf (s.tl t).ag .high .low
  | .wd t => levelIf (s.regB (tk t R_STT_WRCTL) 0) .driven .hiZ
  | .qlk l => levelIf (decide ((s.link.get l).st = .off)) .stopped .driven
  | .pet p => levelIf (s.regB (lk p R_HPT_CTL) 0 && s.saddleOut) .driven .idle
  | .clkreq p => levelIf (s.saddleOut && !(s.hpt.get p).inL1) .low .released
  | .dramBus c => s.dramLevel c
  | .qspiCs => levelIf (decide (s.rcp.phase = .boot)) .driven .high
  | .gpio n => levelIf (s.gpioInput n.toNat) .input .driven
  | .uartTx => levelIf s.saddleOut .high .weakHigh
  | .smb => .released
  | .thermtrip => levelIf s.pins.thermTrip .low .released
  | .act => levelIf s.actLow .low .released
  | .tdo => .hiZ

/-- The outputs of the logic die whose state in reset Table 19.4 fixes whatever went before: the power die's go on, DRAM
keeps what R399 says, and THERMTRIP_N shows a trip. -/
def Ball.resetLevel : Ball → Option Level
  | .wg _ => some .low
  | .ag _ => some .low
  | .wd _ => some .hiZ
  | .qlk _ => some .stopped
  | .pet _ => some .idle
  | .clkreq _ => some .released
  | .qspiCs => some .high
  | .gpio _ => some .input
  | .uartTx => some .weakHigh
  | .smb => some .released
  | .act => some .released
  | .tdo => some .hiZ
  | _ => none

end Sys2Proof.Machine
end

