-- ==== Sys2Proof/Machine/Balls.lean ====
section
/-!
DEFINITION. The package: ball names, regions, the signals and supplies of each ball (Tables 21.1–21.7, R424–R428).
-/
namespace Sys2Proof.Machine.Balls

/-- The rows from the A1 corner (R424). -/
def rowNames : List String :=
  ["A", "B", "C", "D", "E", "F", "G", "H", "J", "K", "L", "M", "N", "P", "T", "U", "V", "W", "Y",
   "AA", "AB", "AC", "AD", "AE", "AF", "AG", "AH", "AJ", "AK", "AL", "AM", "AN"]

/-- A ball: its row from the top, from 0, and its column from the left, from 1. -/
structure At where
  row : Nat
  col : Nat
deriving DecidableEq, Repr

def At.name (b : At) : String := (rowNames.getD b.row "") ++ toString b.col

def at_ (row : String) (col : Nat) : At := ⟨rowNames.idxOf row, col⟩

inductive Region where
  | pcie
  | system
  | dram (ch : Bool)
  | actuator (b : Bool)
  | power
  | gpio
  | centre
deriving DecidableEq, Repr

def within (lo hi n : Nat) : Bool := decide (lo ≤ n ∧ n ≤ hi)

/-- The region of a ball (Table 21.2): rows 0–3 are A–D, 4 is E, 7 is H, 23 is AE, 24–27 are AF–AJ, 28–31 are AK–AN. -/
def At.region (b : At) : Region :=
  if within 0 3 b.row && within 1 12 b.col then .pcie
  else if within 0 4 b.row && within 13 20 b.col then .system
  else if (within 0 3 b.row && within 21 32 b.col) || (within 4 7 b.row && within 21 28 b.col) then .dram false
  else if within 4 23 b.row && within 1 4 b.col then .actuator false
  else if within 4 23 b.row && within 29 32 b.col then .actuator true
  else if within 24 31 b.row && within 1 12 b.col then .power
  else if within 28 31 b.row && within 13 20 b.col then .gpio
  else if (within 28 31 b.row && within 21 32 b.col) || (within 24 27 b.row && within 21 28 b.col) then .dram true
  else .centre

inductive Dir where
  | i
  | o
  | b
  | od
  | a
  | p
deriving DecidableEq, Repr

/-- A ball with its signal. -/
structure Sig where
  name : String
  ball : At
  dir : Dir
deriving DecidableEq, Repr

/-- Signals in successive columns of a row. -/
def run (row : String) (dir : Dir) (col : Nat) (names : List String) : List Sig :=
  names.zipIdx.map (fun p => ⟨p.1, at_ row (col + p.2), dir⟩)

def pn (n : String) : List String := [n ++ "_P", n ++ "_N"]

def num (n : String) (k i : Nat) : List String := (List.range k).map (fun j => n ++ toString (i + j))

/-- The PCIe region and the system region (Table 21.3). -/
def pcieSystem : List Sig :=
  (List.range 4).flatMap (fun k => run "B" .o (2 + 3 * k) (pn ("PET" ++ toString k))) ++
    (List.range 4).flatMap (fun k => run "D" .i (2 + 3 * k) (pn ("PER" ++ toString k))) ++
    run "A" .i 2 (pn "REFCLK0") ++ run "A" .i 5 (pn "REFCLK1") ++ run "A" .i 13 ["PERST0_N", "PERST1_N"] ++
    run "A" .od 15 ["CLKREQ0_N", "CLKREQ1_N"] ++ run "A" .b 17 ["SMB_CLK", "SMB_DAT"] ++ run "A" .od 19 ["SMB_ALERT_N"] ++
    run "B" .o 13 ["QSPI_CLK", "QSPI_CS_N"] ++ run "B" .b 15 (num "QSPI_IO" 4 0) ++ run "B" .o 19 ["UART_TX"] ++
    run "B" .i 20 ["UART_RX"] ++ run "C" .i 13 ["TCK", "TMS", "TDI"] ++ run "C" .o 16 ["TDO"] ++ run "C" .i 17 ["TRST_N"] ++
    run "C" .a 19 ["XTAL_IN", "XTAL_OUT"] ++ run "D" .i 13 ["RESET_N", "PWRDIS", "PFAIL_N"] ++
    run "D" .od 16 ["THERMTRIP_N", "ACT_N"] ++
    run "E" .i 13 ["BOOTSRC0", "BOOTSRC1", "CLKMODE0", "CLKMODE1", "PORTMODE", "WSC_EN"] ++
    run "AL" .b 13 (num "GPIO" 8 0) ++ run "AN" .b 13 (num "GPIO" 8 8)

/-- An actuator's region; B mirrors A in the columns (Table 21.4, R426). -/
def actuator (b : Bool) : List Sig :=
  let x := if b then "B" else "A"
  let two (row : String) (dir : Dir) (l r : String) : List Sig :=
    [⟨l, at_ row (if b then 31 else 2), dir⟩, ⟨r, at_ row (if b then 30 else 3), dir⟩]
  let pair (row : String) (dir : Dir) (n : String) : List Sig := two row dir (n ++ "_P") (n ++ "_N")
  pair "E" .o ("QLK" ++ x ++ "_CK") ++ pair "G" .o ("QLK" ++ x ++ "_DN") ++ pair "J" .i ("QLK" ++ x ++ "_UP") ++
    [⟨"PAFLT" ++ x ++ "_N", at_ "K" (if b then 31 else 2), .i⟩] ++
    two "L" .o ("WG" ++ x ++ "0") ("AG" ++ x ++ "0") ++ pair "N" .a ("RD" ++ x ++ "0") ++ pair "T" .a ("GD" ++ x ++ "0") ++
    pair "V" .o ("WD" ++ x ++ "0") ++ pair "Y" .a ("RD" ++ x ++ "1") ++ pair "AB" .a ("GD" ++ x ++ "1") ++
    pair "AD" .o ("WD" ++ x ++ "1") ++ two "AE" .o ("WG" ++ x ++ "1") ("AG" ++ x ++ "1")

/-- A DRAM channel; channel B has the same columns and the rows counted from the bottom (Table 21.5, R426). -/
def dram (b : Bool) : List Sig :=
  let n := if b then "CHB_" else "CHA_"
  let a : List Sig :=
    (List.range 4).flatMap (fun k =>
      let row := rowNames.getD k ""
      run row .b 21 (num (n ++ "DQ") 8 (8 * k)) ++ run row .b 29 [n ++ "DMI" ++ toString k] ++
        run row .b 30 (pn (n ++ "RDQS" ++ toString k))) ++
      run "E" .o 21 ((List.range 4).flatMap (fun k => pn (n ++ "WCK" ++ toString k))) ++
      run "F" .o 21 (num (n ++ "CA") 7 0 ++ [n ++ "CS0"]) ++
      run "G" .o 21 [n ++ "CS1", n ++ "CK_P", n ++ "CK_N", n ++ "RESET_N", n ++ "ZQ"]
  if b then a.map (fun s => { s with ball := ⟨31 - s.ball.row, s.ball.col⟩ }) else a

/-- Outputs of the power die (Table 21.6); PGND, VMOT and V5 are supplies. -/
def powerDie : List Sig :=
  let all (row : String) (lo hi : Nat) (n : String) : List Sig := run row .o lo (List.replicate (hi + 1 - lo) n)
  all "AF" 9 12 "BRK" ++ all "AH" 1 8 "U" ++ all "AJ" 1 8 "V" ++ all "AK" 1 8 "W" ++ all "AH" 9 12 "VCA_P" ++
    all "AJ" 9 12 "VCA_N" ++ all "AK" 9 12 "VCB_P" ++ all "AN" 1 4 "VCB_N" ++ [⟨"ISOG", at_ "AN" 5, .o⟩]

/-- Every signal ball. -/
def signals : List Sig :=
  pcieSystem ++ actuator false ++ actuator true ++ dram false ++ dram true ++ powerDie

/-- The balls that are not connected. -/
def unconnected : List At := (List.range 7).map (fun k => at_ "AN" (6 + k))

inductive Rail where
  | vmot
  | v5
  | pgnd
  | vcore
  | vsram
  | vnv
  | vana
  | vio18
  | vser
  | vserh
  | vdd2h
  | vddq
  | vss
deriving DecidableEq, Repr

/-- Balls of a rail outside the centre, and in it (Table 21.7). -/
def Rail.balls : Rail → Nat × Nat
  | .vmot => (16, 0)
  | .v5 => (4, 0)
  | .pgnd => (24, 0)
  | .vcore => (0, 120)
  | .vsram => (0, 24)
  | .vnv => (0, 16)
  | .vana => (8, 12)
  | .vio18 => (9, 8)
  | .vser => (2, 8)
  | .vserh => (2, 4)
  | .vdd2h => (8, 0)
  | .vddq => (12, 0)
  | .vss => (154, 296)

def rails : List Rail :=
  [.vmot, .v5, .pgnd, .vcore, .vsram, .vnv, .vana, .vio18, .vser, .vserh, .vdd2h, .vddq, .vss]

/-- The supply of a ball outside the centre that carries no signal (text under Tables 21.3 to 21.6). -/
def At.rail (b : At) : Option Rail :=
  if signals.any (fun s => s.ball = b) ∨ unconnected.contains b then none
  else
    match b.region with
    | .pcie => some (if b.row = 0 ∧ (b.col = 8 ∨ b.col = 9) then .vser else if b.row = 0 ∧ 11 ≤ b.col then .vserh else .vss)
    | .system => some (if [at_ "A" 20, at_ "D" 19, at_ "E" 19].contains b then .vio18 else .vss)
    | .gpio => some (if [at_ "AK" 13, at_ "AK" 20, at_ "AM" 13, at_ "AM" 20].contains b then .vio18 else .vss)
    | .actuator m =>
      let c := if m then 33 - b.col else b.col
      some (if c = 4 ∧ [at_ "N" 1, at_ "T" 1, at_ "Y" 1, at_ "AB" 1].any (fun r => r.row = b.row) then .vana
        else if c = 3 ∧ b.row = (at_ "K" 1).row then .vio18 else .vss)
    | .dram m =>
      let r := if m then 31 - b.row else b.row
      some (if b.col = 32 then .vddq else if r = 7 then (if b.col ≤ 24 then .vdd2h else if b.col ≤ 26 then .vddq else .vss) else .vss)
    | .power =>
      some (if b.row ≤ 25 then (if b.col ≤ 8 then .vmot else .v5) else .pgnd)
    | .centre => none

end Sys2Proof.Machine.Balls
end

