-- ==== Sys2Proof/Machine/Ratings.lean ====
section
/-!
DEFINITION. The electrical and thermal figures (Tables 23.1–23.12, R446–R458) and the requirements on the board
(R427–R433), as numbers. No command reads them: they bound what the device is connected to and how it performs.
-/
namespace Sys2Proof.Machine.Ratings

/-- A figure: minimum, typical and maximum, each where the table gives it. -/
structure Fig where
  what : String
  unit : String
  min : Option Int
  typ : Option Int
  max : Option Int
deriving DecidableEq, Repr

/-- A value meets a figure's bounds. -/
def Fig.meets (f : Fig) (v : Int) : Bool := f.min.all (fun m => decide (m ≤ v)) && f.max.all (fun m => decide (v ≤ m))

def mm (what unit : String) (lo hi : Int) : Fig := ⟨what, unit, some lo, none, some hi⟩

def mtm (what unit : String) (lo ty hi : Int) : Fig := ⟨what, unit, some lo, some ty, some hi⟩

def atMost (what unit : String) (hi : Int) : Fig := ⟨what, unit, none, none, some hi⟩

def least (what unit : String) (lo : Int) : Fig := ⟨what, unit, some lo, none, none⟩

def typical (what unit : String) (ty : Int) : Fig := ⟨what, unit, none, some ty, none⟩

def typMax (what unit : String) (ty hi : Int) : Fig := ⟨what, unit, none, some ty, some hi⟩

/-- Table 23.1 (R446), for the rails and balls with fixed bounds. -/
def absolute : List Fig :=
  [mm "VMOT, BRK" "mV" (-300) 16000, mm "V5" "mV" (-300) 6000, mm "VCORE, VSRAM, VSER" "mV" (-300) 950,
    mm "VNV, VANA, VSERH" "mV" (-300) 1450, mm "VDD2H" "mV" (-300) 1250, mm "VDDQ" "mV" (-300) 650,
    mm "VIO18" "mV" (-300) 2100, mm "3.6 V tolerant balls" "mV" (-300) 3800, mm "storage" "C" (-40) 125,
    mm "ESD, human body" "V" (-2000) 2000, mm "ESD, charged device, high-speed balls" "V" (-250) 250,
    mm "ESD, charged device, other balls" "V" (-500) 500, mm "latch-up" "mA" (-100) 100]

/-- The bounds of Table 23.1 that follow a rail: how far above VMOT or VIO18 a ball may go, and how far below its
ground. -/
def absoluteOver : List Fig :=
  [mm "U, V, W, VCA, VCB over VMOT, pulses" "mV" (-1000) 1000, mm "ISOG over VMOT" "mV" (-300) 12000,
    mm "1.8 V balls over VIO18" "mV" (-300) 300]

/-- Table 23.2 (R447). -/
def operating : List Fig :=
  [mtm "VMOT" "mV" 10800 12000 13200, mtm "V5" "mV" 4750 5000 5250, mm "VCORE about the request" "mV" (-25) 25,
    mtm "VCORE request" "mV" 650 750 850, mtm "VSRAM" "mV" 760 800 840, mtm "VNV, VANA, VSERH" "mV" 1140 1200 1260,
    mtm "VIO18" "mV" 1710 1800 1890, mtm "VSER" "mV" 810 850 890, mtm "VDD2H" "mV" 1000 1050 1100,
    mtm "VDDQ" "mV" 475 500 525, mm "logic-die junction" "C" 0 110, mm "power-die junction" "C" 0 115,
    mm "logic rail ramp" "us" 100 20000]

/-- VMOT while the spindle is in GEN (R431, R447). -/
def vmotInGen : Fig := mm "VMOT in GEN" "mV" 6000 16000

/-- Table 23.3 (R448), by the code of RCP_PSTATE: logic die and power die, typical and maximum, in mW. -/
def power : List (Fig × Fig) :=
  [(typMax "Active-4" "mW" 6200 8500, typMax "Active-4" "mW" 600 2000),
    (typMax "Active-2" "mW" 4400 6000, typMax "Active-2" "mW" 600 2000),
    (typMax "Active-1" "mW" 3000 4000, typMax "Active-1" "mW" 500 2000),
    (typMax "Idle-spun" "mW" 1600 2100, typMax "Idle-spun" "mW" 300 2000),
    (typMax "Standby" "mW" 120 180, typMax "Standby" "mW" 20 50)]

/-- Table 23.4 (R449). -/
def railCurrents : List Fig :=
  [typMax "VCORE" "mA" 5600 9000, typMax "VSRAM" "mA" 450 800, typMax "VNV" "mA" 100 200, typMax "VANA" "mA" 380 600,
    typMax "VIO18" "mA" 60 200, typMax "VSER" "mA" 320 500, typMax "VSERH" "mA" 120 200, typMax "VDD2H" "mA" 300 400,
    typMax "VDDQ" "mA" 450 600, atMost "V5" "mA" 300]

/-- Table 23.5 (R450); levels that follow VIO18 in thousandths of it. -/
def digital : List Fig :=
  [atMost "input low, of VIO18" "1/1000" 350, least "input high, of VIO18" "1/1000" 650,
    ⟨"Schmitt hysteresis" , "mV", some 100, some 150, none⟩, atMost "output low at 4 mA" "mV" 450,
    least "output high at -4 mA, under VIO18" "mV" (-450), mm "input leakage" "uA" (-10) 10,
    mtm "pull" "kOhm" 35 50 75, typMax "input capacitance" "pF" 3 5, least "QSPI and trace drive" "mA" 8]

/-- The Schmitt inputs (R450), besides the straps and the GPIOs. -/
def schmitt : List String :=
  ["RESET_N", "PERST0_N", "PERST1_N", "PFAIL_N", "PWRDIS", "TCK", "TMS", "TDI", "TRST_N", "UART_RX"]

/-- Table 23.6 (R451). -/
def openDrain : List Fig :=
  [atMost "SMBus output low at 20 mA" "mV" 400, atMost "CLKREQ, ACT, THERMTRIP output low at 8 mA" "mV" 400,
    atMost "SMBus input low" "mV" 800, least "SMBus input high" "mV" 1350, mm "PERST, PWRDIS input high" "mV" 1170 3600,
    atMost "leakage, released" "uA" 10]

/-- Table 23.7 (R452). -/
def readWrite : List Fig :=
  [mtm "RD, GD termination" "Ohm" 90 100 110, mm "RD, GD input range" "mV" 20 400, mm "RD, GD common mode" "mV" 300 1000,
    least "RD bandwidth" "MHz" 3000, typical "RD noise density" "nV/rtHz" 4,
    ⟨"ADC resolution at 2.8 GHz", "1/10 bit", some 45, some 48, none⟩, least "GD bandwidth" "MHz" 500,
    typical "guide converter" "bit" 7, mtm "WD amplitude" "mV" 300 400 500, mtm "WD common mode" "mV" 800 900 1000,
    atMost "WD rise and fall" "ps" 35, atMost "WD jitter at 5.6 Gbit/s" "1/100 UI" 10,
    mm "precompensation step error" "step" (-1) 1, mm "gate edge to bit boundary" "ps" (-150) 150,
    atMost "gate rise and fall" "ps" 500]

/-- Table 23.8 (R453). -/
def motors : List Fig :=
  [typMax "spindle switch on-resistance" "mOhm" 60 100, typMax "q-current limit" "mA" 2000 3500,
    mtm "overcurrent trip" "mA" 5600 6000 6400, typical "PWM" "kHz" 64, mtm "dead time" "ns" 50 200 800,
    mm "phase current error, of 3.5 A" "%" (-2) 2, typMax "shorted-winding braking" "mA" 3000 3500,
    typMax "coil switch on-resistance" "mOhm" 120 180, mm "coil current" "mA" (-1600) 1600,
    typical "coil command resolution" "nA" 48800, mm "coil current error, of 1.6 A" "%" (-1) 1,
    typical "coil loop rate" "kHz" 1000, ⟨"coil bandwidth", "kHz", some 15, some 20, none⟩]

/-- The voice-coil output saturates this far under VMOT (R453), in mV. -/
def coilHeadroom : Int := 500

/-- Table 23.9 (R454). -/
def supervisors : List Fig :=
  [typMax "chopper on-resistance" "mOhm" 100 150, atMost "chopper current" "mA" 2500, atMost "chopper peak, 10 us" "mA" 3000,
    mm "chopper measurement error" "%" (-10) 10, mm "chopper threshold error" "mV" (-150) 150,
    mtm "clamp" "mV" 14800 15000 15200, mm "PFTH error" "mV" (-150) 150, mm "VREG error" "mV" (-300) 300,
    mtm "ISOG high over VMOT" "mV" 9000 10000 11000, atMost "ISOG opening" "ns" 2000,
    mtm "V5 undervoltage" "mV" 4400 4500 4600, mtm "VMOT undervoltage" "mV" 4800 5000 5200]

/-- How the ROM reads the flash (R455): command, dummy clocks, clock in MHz, MiB addressed. -/
def flashRead : Nat × Nat × Nat × Nat := (0x6B, 8, 50, 16)

/-- Table 23.10 (R455, R397, R203). -/
def timing : List Fig :=
  [atMost "QSPI_CLK" "MHz" 100, mm "QSPI_IO output valid" "ps" 1500 5000, least "QSPI_IO setup" "ps" 2500,
    least "QSPI_IO hold" "ps" 1000, least "QSPI_CS_N high" "ns" 50, atMost "TCK" "MHz" 25, least "TMS, TDI setup" "ns" 4,
    least "TMS, TDI hold" "ns" 4, atMost "TDO valid" "ns" 12, least "RESET_N low" "ns" 1000,
    atMost "RESET_N pulse ignored" "ns" 200, least "PFAIL_N low" "ns" 2000]

/-- The serial interfaces (R456): UART bit/s, its error, the fastest rate, the SMBus clocks, stretch and release. -/
def serial : List Fig :=
  [typical "UART" "bit/s" 115200, mm "UART error" "%" (-2) 2, atMost "UART in service" "bit/s" 3000000,
    atMost "SMBus" "kHz" 1000, atMost "SMB_CLK stretch" "us" 1000, mm "SMB_CLK low until release" "ms" 25 35]

/-- Table 23.11 (R457). -/
def monitors : List Fig :=
  [mm "thermal, after trim" "C" (-3) 3, mm "thermal, default trims" "C" (-10) 10, mm "voltage" "1/1000" (-15) 15,
    mm "MTR_VMOT, V5" "1/1000" (-10) 10, mtm "thermal trip" "C" 122 125 128, typical "AVS_PWM resolution" "uV" 200,
    mm "process count" "1/1000" (-5) 5]

/-- Table 23.12 (R458): in m°C/W, the logic die and the power die. -/
def thermal : List (Fig × Fig) :=
  [(atMost "junction to lid" "mC/W" 120, atMost "junction to lid" "mC/W" 600),
    (typical "junction to board" "mC/W" 4000, typical "junction to board" "mC/W" 3500),
    (typical "coupling" "mC/W" 50, typical "coupling" "mC/W" 50), (typical "still air" "mC/W" 9500, typical "still air" "mC/W" 9500)]

/-- Junction of a die in m°C: lid temperature, its own power and the other die's, in mW (R458). -/
def junction (lid : Int) (theta own other : Int) : Int := lid + own * theta / 1000 + other * 50 / 1000

/-- The board (R427–R433): the isolation FET, the brake resistor, bulk capacitance, preamplifier routing, the crystal.
-/
def board : List Fig :=
  [least "FET drain-source" "V" 30, least "FET gate-source" "V" 20, atMost "FET on-resistance" "mOhm" 5,
    atMost "FET gate charge" "nC" 60, mm "brake resistor" "Ohm" 6 20, mm "VMOT for the logic rails" "mV" 6000 16000,
    least "bulk capacitance" "uF" 220, atMost "bulk distance" "mm" 20, mm "differential pair" "Ohm" 90 110,
    atMost "pair mismatch" "um" 500, atMost "preamplifier path" "mm" 300, atMost "CK to DN" "mm" 3,
    atMost "gates to WD" "mm" 10, least "PAFLT pull-up" "Ohm" 4700, mm "crystal tolerance" "ppm" (-50) 50,
    mm "crystal load" "pF" 8 12, atMost "crystal ESR" "Ohm" 50, atMost "ground join to AL12" "mm" 10,
    atMost "strap resistor" "Ohm" 10000]

/-- A brake resistor that MTR_RBRK may name (R430). -/
def brakeOk (ohm : Int) : Bool := (mm "brake resistor" "Ohm" 6 20).meets ohm

/-- Outline in µm (Table 21.1): body, height at most, pitch, ball diameter, coplanarity. -/
def outline : Nat × Nat × Nat × Nat × Nat := (29000, 2600, 800, 450, 150)

end Sys2Proof.Machine.Ratings
end

