-- ==== Sys2Proof/Safety.lean ====
section
/-!
DEFINITION. The terms of the claims: the canonical forms, the bounds that the spec gives the return stacks and the Angle
Event Queues, the invariant of a step, and what it means that a command completes.
-/
namespace Sys2Proof.Machine

/-- The canonical form of a DRAM channel: bytes and poison markers. -/
def Memory.wf (d : DramCh) : Bool := swf (kconst 0) d.bytes && swf (kconst false) d.poison

/-- The return stack of a snapshot holds at most 16 entries (chapter 2), and its registers are in canonical form. -/
def Snapshot.fits (n : Snapshot) : Prop := n.stack.length ≤ 16 ∧ swf (kconst 0) n.regs = true

/-- The return stacks of a context, of its snapshot and of the snapshots it holds or receives for its peer hold at most
16 entries each (chapter 2, STACK fault of Table 3.2); their registers are in canonical form. -/
structure Ctx.Fits (x : Ctx) : Prop where
  regs : swf (kconst 0) x.regs = true
  stack : x.stack.length ≤ 16
  snap : ∀ n, x.snap = some n → n.fits
  held : ∀ m, x.held = some m → m.snap.fits
  inbox : ∀ m, m ∈ x.inbox → m.snap.fits

structure Core.Fits (m : Core) : Prop where
  store : swf (kconst CstWord.zero) m.store = true
  ctx : ∀ (j : SpurId) (n : Quad), ((m.spurs.get j).ctx.get n).Fits

/-- What every command and every idle step keeps: the queue `q` behind the command, the canonical forms of the
register store, of the control store and of the DRAM, the bounds of the return stacks and of the Angle Event Queues
(R88: 256 entries a stream). -/
structure State.Inv (q : List Instr) (s : State) : Prop where
  queue : s.pending = q
  regs : swf regInit s.regs = true
  dram : ∀ ch, Memory.wf (s.dram.get ch) = true
  core : ∀ r, (s.core.get r).Fits
  aeq : ∀ t, (s.tile.get t).aeq.length ≤ 256

/-- The invariant of a state whatever its queue. -/
def State.WF (s : State) : Prop := s.Inv s.pending

/-! ### When a command has its own effect -/

/-- A register access that is not refused: the Ridge releases effects, the block's power domain is ON (R441) and the
accessor owns the unit (R13). -/
abbrev State.Granted (s : State) (x : Accessor) (key : Nat) (owned : Bool) : Prop :=
  s.ridgeLive x.ridge = true ∧ s.blockUp key = true ∧ owned = true

/-- A write to a stream tile that is not refused (R13, R441). -/
abbrev State.TileGranted (s : State) (x : Accessor) (t : Quad) : Prop :=
  s.ridgeLive x.ridge = true ∧ s.fabricOn = true ∧ s.owns x.ridge t = true

/-- An MTR register write of the spindle lease holder (R185). -/
abbrev State.MtrGranted (s : State) (x : Accessor) : Prop := s.Granted x R_MTR_ID (decide (s.rlg.spindle = some x.ridge))

/-- START, STOP, STEP and CLRFLT are taken: the die-to-die link carries them, the driver is enabled and the image is a
full one (R8, R195, R404, R412). -/
abbrev State.SpReady (s : State) (x : Accessor) : Prop :=
  s.MtrGranted x ∧ s.mtr.linkUp = true ∧ s.regB R_MTR_CTL 0 = true ∧ s.rcp.phase ≠ .recovery ∧ s.rcp.limited = false

/-- CRY takes a command (R396). -/
abbrev State.CryReady (s : State) (x : Accessor) : Prop :=
  s.Granted x R_CRY_ID true ∧ s.regB R_CRY_CTL 0 = true ∧ s.cry.busy = none

/-- CRY with a command taken: its operands are those of the operand registers (R396). -/
def State.cryTake (s : State) (op slot : Nat) : State :=
  s.modCry (fun k =>
    { k with
      busy :=
        some
          ⟨op, slot, s.regF R_CRY_SRC_HI 15 0 * 2 ^ 32 + (s.reg R_CRY_SRC_LO).toNat, (s.reg R_CRY_LEN).toNat,
            s.regF R_CRY_DST_HI 15 0 * 2 ^ 32 + (s.reg R_CRY_DST_LO).toNat, s.evr.sealPend.map Prod.fst⟩ })

/-- A bus access that reaches a place (R441–R443). -/
abbrev State.BusReaches (s : State) (x : Accessor) (addr : Word) (p : Place) : Prop :=
  s.ridgeLive x.ridge = true ∧ place x.ridge addr = p ∧ s.placeFails x.ridge p = false

/-- The head entry of a stream's queue has the action code and is due at `now` (R89). -/
abbrev State.HeadDue (s : State) (t : Quad) (now : DWord) (code : Nat) (e : AeqEntry) (rest : List AeqEntry) : Prop :=
  (s.tl t).aeq = e :: rest ∧ fld e.action 31 24 = code ∧ s.canReach (s.angSide t) now = true ∧
    (e.stamp.toNat : Int) ≤ s.streamAcAt t now

/-- The stream at `now` with the head entry gone. -/
def State.takeHead (s : State) (t : Quad) (now : DWord) (rest : List AeqEntry) : State :=
  ((s.reach t now).modTile t (fun x => { x with aeq := rest })).lowMark t (rest.length + 1)

/-- Steps by which an entry is late at `now`. -/
def State.lateBy (s : State) (t : Quad) (now : DWord) (e : AeqEntry) : Int := s.streamAcAt t now - e.stamp.toNat

/-- A live ALU part whose operands are a and b, and whose destination holds d (R61). -/
abbrev State.AluOn (s : State) (c : CtxId) (f : AluForm) (a b d : DWord) : Prop :=
  s.ridgeLive c.ridge = true ∧ a = (s.ctx c).rd f.a.toNat ∧
    b = (if f.imm then f.immv.signExtend 64 else (s.ctx c).rd f.b.toNat) ∧ d = (s.ctx c).rd f.dst.toNat

/-- A context with a result in a register and new flags. -/
def State.aluDone (s : State) (c : CtxId) (dst : BitVec 6) (r : DWord) (fl : Flags) : State :=
  s.modCtx c (fun x => { x with flags := fl }.wr dst.toNat r)

/-- A context with new flags alone. -/
def State.flagsDone (s : State) (c : CtxId) (fl : Flags) : State := s.modCtx c (fun x => { x with flags := fl })

/-- The state after the fetch of a word; `ce` is a correctable error met by it. -/
def State.afterFetch (s : State) (c : CtxId) (ce : Bool) : State :=
  if ce && !badFetch (s.ctx c).pc then s.fetchCe c.ridge else s

/-- A context issues a word of the SEQ encoding `q` that raises no fault and whose COMMIT, if any, need not wait (R42,
R46). -/
abbrev State.WordDue (s : State) (c : CtxId) (w : MicroWord) (ce : Bool) (q : Nat) : Prop :=
  wSeq w = q ∧ s.canIssue c w = true ∧ (s.ctx c).atWord = true ∧
    (((s.afterFetch c ce).ctx c).wordFaults w).any = false ∧ (wCommit w && (s.afterFetch c ce).commitStalls c) = false

/-- A fetched Admin command that NVE serves now (R335, R412). -/
abbrev State.AdminDue (s : State) (n : Nat) (opc : Byte) (c : Cmd) : Prop :=
  s.cmd n = some c ∧ c.sqe.opc = opc ∧ c.sq = 0 ∧ s.cplRoom c = true ∧ (s.rcp.limited = false ∨ limitedOpc opc = true)

/-- A fetched I/O command whose checks come next (R336). -/
abbrev State.IoDue (s : State) (n : Nat) (opc : Byte) (c : Cmd) : Prop :=
  s.cmd n = some c ∧ c.sqe.opc = opc ∧ c.sq ≠ 0 ∧ c.checked = false ∧ s.olderUnchecked c = false ∧ s.cplRoom c = true

/-- A fetched I/O command that has passed its checks. -/
abbrev State.IoChecked (s : State) (n : Nat) (opc : Byte) (c : Cmd) : Prop :=
  s.cmd n = some c ∧ c.sqe.opc = opc ∧ c.sq ≠ 0 ∧ c.checked = true

/-! ### Words -/

/-- The command that issues a word, by its SEQ encoding (Table 3.2). -/
def wordCommand (c : CtxId) (w : MicroWord) (ce : Bool) : Instr :=
  match wSeq w with
  | 0 => .next c w ce
  | 1 => .jump c w ce
  | 2 => .call c w ce
  | 3 => .ret c w ce
  | 4 => .brt c w ce
  | 5 => .brf c w ce
  | 6 => .wait c w ce
  | 7 => .poll c w ce
  | 8 => .disp c w ce
  | 9 => .yield c w ce
  | 10 => .halt c w ce
  | 11 => .loop c w ce
  | _ => .illseq c w ce

/-! ### The parts of the state -/

/-- The parts of State that the spec gives: the register store, the Ridges' contexts and control stores, the angle
synthesizers, the stream tiles, the decoder banks, the preamp links, the ledger, the recorder, CRY, RCP, the fuses, the
memory scrubs, the DRAM channels, the control engines, the spindle and retract drivers, the monitors, the stripe
engines, the Zone Table, the members, the rebuild state, Cairn, the protected window, NVE, HDG, the host ports, the
management transports and the pins. -/
inductive Part
  | regs
  | core
  | ang
  | tile
  | dec
  | link
  | rlg
  | evr
  | cry
  | rcp
  | fus
  | mem
  | dram
  | cen
  | mtr
  | mon
  | ste
  | ztb
  | member
  | redun
  | crn
  | win
  | nve
  | hdg
  | hpt
  | mgmt
  | pins
deriving DecidableEq, Repr

/-- Two states agree in a part. -/
def Part.same (s t : State) : Part → Prop
  | .regs => t.regs = s.regs
  | .core => t.core = s.core
  | .ang => t.ang = s.ang
  | .tile => t.tile = s.tile
  | .dec => t.dec = s.dec
  | .link => t.link = s.link
  | .rlg => t.rlg = s.rlg
  | .evr => t.evr = s.evr
  | .cry => t.cry = s.cry
  | .rcp => t.rcp = s.rcp
  | .fus => t.fus = s.fus
  | .mem => t.mem = s.mem
  | .dram => t.dram = s.dram
  | .cen => t.cen = s.cen
  | .mtr => t.mtr = s.mtr
  | .mon => t.mon = s.mon
  | .ste => t.ste = s.ste
  | .ztb => t.ztb = s.ztb
  | .member => t.member = s.member
  | .redun => t.redun = s.redun
  | .crn => t.crn = s.crn
  | .win => t.win = s.win
  | .nve => t.nve = s.nve
  | .hdg => t.hdg = s.hdg
  | .hpt => t.hpt = s.hpt
  | .mgmt => t.mgmt = s.mgmt
  | .pins => t.pins = s.pins

/-- The parts that a command may change; every other part it leaves as it was. The commands that issue a word, and a
register write, may reach every part, since the word's port and the address name it. -/
def mayChange : Instr → List Part
  | .referenceStreamChange .. | .skewWrite .. =>
    [.ang]
  | .traceArm .. | .traceForce .. =>
    [.cen]
  | .waitRelease .. | .waitTimeout .. | .waitCycleBound .. | .snapshotAck .. | .nop .. | .mov .. | .movh .. | .add ..
    | .adc .. | .sub .. | .sbc .. | .cmp .. | .cmn .. | .neg .. | .abs .. | .and .. | .or .. | .xor .. | .andn ..
    | .orn .. | .not .. | .tst .. | .shl .. | .shr .. | .sar .. | .rol .. | .ror .. | .min .. | .max .. | .minu ..
    | .maxu .. | .mul .. | .muls .. | .addsu .. | .subsu .. | .bfx .. | .bfxs .. | .bfi .. | .bfc .. | .popc ..
    | .clz .. | .ctz .. | .bswap .. | .sxt .. | .zxt .. | .crc .. | .crcb .. | .gfmul .. | .gfmac .. | .selz ..
    | .selc .. | .tstb .. | .eventAck .. | .sig0 .. | .sig1 .. | .ffSet .. | .ffClear .. | .angRead ..
    | .reequalize .. | .creditAvailable .. | .drbgRead .. =>
    [.core]
  | .cairnResync .. =>
    [.crn]
  | .tokenRefill .. | .ringScan .. =>
    [.evr]
  | .frameSlot .. | .upstreamLock .. | .upstreamLockLoss .. | .preampFaultRelease .. =>
    [.link]
  | .nvmeMiBasicCommand .. | .getVersion .. | .getCapabilities .. | .negotiateAlgorithms .. | .getDigests ..
    | .getCertificate .. | .challenge .. | .getMeasurements .. | .keyExchange .. | .smbusTimeout .. =>
    [.mgmt]
  | .heartbeat .. | .hbtoExpiry .. | .atSpeedClear .. | .chopperRelease .. | .isolationFetClose .. =>
    [.mtr]
  | .abruptShutdown .. =>
    [.nve]
  | .jtagInstruction .. | .actNBlink .. =>
    [.pins]
  | .noxtal .. | .hostPushLength .. | .uartImageReceived .. =>
    [.rcp]
  | .mediaWindowShare .. =>
    [.redun]
  | .matchWrite .. | .powerDieSensorRead .. | .v5Undervoltage .. =>
    [.regs]
  | .zoneScanDone .. =>
    [.ztb]
  | .arm .. | .disarm .. | .comparatorHit .. =>
    [.core, .ang]
  | .nodeWrite .. =>
    [.core, .cen]
  | .decoderSubmit .. =>
    [.core, .dec]
  | .evrOtLatch .. =>
    [.core, .evr]
  | .hedgeUnblock .. =>
    [.core, .hdg]
  | .retrain .. =>
    [.core, .hpt]
  | .heaterCommand .. | .safeCommand .. | .pairMapWrite .. =>
    [.core, .link]
  | .heartbeatKick .. =>
    [.core, .mtr]
  | .hostCommandPop .. | .asnWrite .. | .asnLimitWrite .. =>
    [.core, .nve]
  | .watchdogKick .. =>
    [.core, .rcp]
  | .creditRelease .. =>
    [.core, .rlg]
  | .scrubResultPop .. =>
    [.core, .ste]
  | .sectorStatusPop .. =>
    [.core, .tile]
  | .bucketLeak .. =>
    [.mem, .dram]
  | .currentSenseSpareReturn .. =>
    [.mtr, .mon]
  | .controllerEnable .. =>
    [.nve, .hpt]
  | .staleLimitExpiry .. | .rampGo .. | .nodeSync .. | .nodeSyncDone .. =>
    [.regs, .cen]
  | .segmentWarning .. | .snapshotReceive .. | .contextStart .. | .contextStop .. | .contextResume ..
    | .contextRelease .. | .contextCmdReserved .. | .debugDataWrite .. | .loadAddressWrite .. | .chopperSelftest ..
    | .ledgerCmdIgnored .. | .powerStateSelect .. =>
    [.regs, .core]
  | .cairnResyncDone .. =>
    [.regs, .crn]
  | .avsClamp .. | .scrubPassLate .. | .groupExpiry .. | .otCheckpoint .. | .calendarSet .. | .sealSign .. =>
    [.regs, .evr]
  | .registerAccessTimeout .. =>
    [.regs, .link]
  | .avsUpdate .. =>
    [.regs, .mon]
  | .ipdDone .. | .kickObserverValid .. | .kickTimeout .. | .atSpeedSet .. | .spinupTimeout .. | .stepComplete ..
    | .chopperEngage .. | .chopperSelftestDone .. | .chopperFault .. | .overvoltageClamp .. | .clampRelease ..
    | .overcurrentTrip .. | .powerReturn .. | .retractDone .. | .powerDiePowerOn .. =>
    [.regs, .mtr]
  | .gpioEdge .. =>
    [.regs, .pins]
  | .blockResetDone .. =>
    [.regs, .rcp]
  | .spareTakeover .. | .freezeSpanStart .. | .freezeSpanEnd .. =>
    [.regs, .tile]
  | .retractCommand .. =>
    [.core, .mtr, .mon]
  | .decoderResultPop .. =>
    [.core, .tile, .dec]
  | .angleCrosscheckFault .. =>
    [.regs, .ang, .evr]
  | .observerValidChange .. | .probeEnd .. =>
    [.regs, .ang, .mtr]
  | .syncMatch .. | .skipEntryApply .. | .assistLeadLimit .. | .assistTailLimit .. =>
    [.regs, .ang, .tile]
  | .taskPass .. | .modeSwitch .. =>
    [.regs, .cen, .mtr]
  | .coefWrite .. | .modeRequest .. | .seekRequest .. =>
    [.regs, .core, .cen]
  | .hash .. | .verifySignature .. | .drbg .. | .derive .. | .sign .. | .keyload .. | .zeroize .. | .devpub ..
    | .cryptoCmdIgnored .. =>
    [.regs, .core, .cry]
  | .trackidWrite .. | .eventPost .. =>
    [.regs, .core, .evr]
  | .linkStart .. | .preampRegisterRead .. | .preampRegisterWrite .. =>
    [.regs, .core, .link]
  | .loadWordStore .. =>
    [.regs, .core, .mem]
  | .currentSenseSpare .. =>
    [.regs, .core, .mtr]
  | .queueAllocationWrite .. | .namespaceConfigWrite .. =>
    [.regs, .core, .nve]
  | .windowAdmit .. | .creditAcquire .. | .mediaReserve .. =>
    [.regs, .core, .rlg]
  | .chunkMove .. | .reconstructionRequest .. | .scrubCheck .. =>
    [.regs, .core, .ste]
  | .ztbWindowWrite .. | .zoneScan .. =>
    [.regs, .core, .ztb]
  | .outputCrosscheckFault .. =>
    [.regs, .evr, .cen]
  | .cairnBankLoss .. =>
    [.regs, .evr, .crn]
  | .dramPartialWrite .. =>
    [.regs, .evr, .dram]
  | .thermalWarning .. | .voltageFault .. =>
    [.regs, .evr, .mon]
  | .rebuildWait .. =>
    [.regs, .evr, .redun]
  | .linkStartTimeout .. =>
    [.regs, .link, .evr]
  | .heartbeatLoss .. | .brakeComplete .. | .genLowVmotRetract .. | .vmotCollapse .. | .powerDieThermalTrip ..
    | .vcCalDone .. =>
    [.regs, .mtr, .mon]
  | .retractTimeout .. =>
    [.regs, .mtr, .redun]
  | .sqTailDoorbell .. | .cqHeadDoorbell .. =>
    [.regs, .nve, .hpt]
  | .perstRelease .. =>
    [.regs, .rcp, .hpt]
  | .thermalTripRelease .. =>
    [.regs, .rcp, .pins]
  | .ledgerAudit .. =>
    [.regs, .rlg, .evr]
  | .spareReturn .. =>
    [.regs, .tile, .mon]
  | .clockMark .. | .flywheelEntry .. | .flywrExpiry .. | .flywheelFallback .. | .aeqNop .. | .aeqWgOff ..
    | .aeqAsPre .. | .aeqAsOn .. | .aeqAsOff .. | .aeqSyncOpen .. | .aeqSyncClose .. | .aeqGsamp ..
    | .aeqIllegalAction .. | .clockRangeFault .. | .sourceUnderrun .. | .wedgeRead .. | .keepoutEntry .. =>
    [.regs, .core, .ang, .tile]
  | .sectorLanding .. =>
    [.regs, .core, .dram, .ste]
  | .spindleStart .. | .spindleStop .. | .spindleStep .. | .coast .. | .clrflt .. | .spindleCmdIgnored ..
    | .vcCalWindow .. =>
    [.regs, .core, .mtr, .mon]
  | .flr .. | .hedgeEntryGrant .. | .completionPost .. | .hedgeLookup .. | .hedgeRemove .. | .zoneWriteCascade ..
    | .controllerReset .. | .deleteIoSq .. | .createIoSq .. | .deleteIoCq .. | .createIoCq .. | .identify ..
    | .abort .. | .getFeatures .. | .asynchronousEventRequest .. | .asyncEventPost .. | .namespaceAttachment ..
    | .firmwareCommit .. | .firmwareImageDownload .. | .deviceSelfTest .. | .virtualizationManagement ..
    | .nvmeMiSend .. | .nvmeMiReceive .. | .securitySend .. | .securityReceive .. | .invalidOpcode .. =>
    [.regs, .core, .nve, .hdg]
  | .commandFetch .. =>
    [.regs, .core, .nve, .hpt]
  | .rebuildCheckpoint .. =>
    [.regs, .core, .redun, .crn]
  | .stripeBufferAcquire .. | .stripeBufferRelease .. =>
    [.regs, .core, .rlg, .ste]
  | .post .. | .bankSwapRequest .. | .bankWordWrite .. | .spareStepStart .. | .recordRelease ..
    | .descriptorWordWrite .. | .formatterCmdIgnored .. =>
    [.regs, .core, .tile, .evr]
  | .recordWrite .. =>
    [.regs, .evr, .cry, .crn]
  | .cryptoDone .. =>
    [.regs, .evr, .cry, .dram]
  | .pwrdisFall .. =>
    [.regs, .mtr, .mon, .pins]
  | .aeqWgOn .. | .aeqRdOn .. | .aeqRdOff .. | .sectorComplete .. =>
    [.regs, .core, .ang, .tile, .dec]
  | .aeqHsw .. | .aeqAsLvl .. | .linkStop .. =>
    [.regs, .core, .ang, .tile, .link]
  | .getLogPage .. | .setFeatures .. =>
    [.regs, .core, .evr, .nve, .hdg]
  | .pcieLinkDown .. | .hotReset .. | .poisonedTlp .. =>
    [.regs, .core, .nve, .hdg, .hpt]
  | .bootlockSet .. =>
    [.regs, .core, .rlg, .evr, .rcp]
  | .skipListSelect .. =>
    [.regs, .core, .tile, .evr, .dram]
  | .flush .. | .write .. | .writeZeroes .. | .datasetManagement .. | .reservationRegister ..
    | .reservationReport .. | .reservationAcquire .. | .reservationRelease .. | .zoneManagementReceive ..
    | .zoneAppend .. =>
    [.regs, .core, .win, .nve, .hdg]
  | .read .. | .verify .. =>
    [.regs, .core, .member, .win, .nve, .hdg]
  | .ztbState .. | .ztbWp .. | .ztbHwp .. | .ztbStgadd .. | .ztbReset .. | .ztbDegset .. | .ztbFree ..
    | .ztbUpdateRefused .. =>
    [.regs, .core, .ztb, .redun, .win]
  | .memoryScrubStep .. =>
    [.regs, .evr, .mem, .dram, .crn]
  | .aeqFlush .. =>
    [.regs, .core, .ang, .tile, .dec, .evr]
  | .writeEnableWrite .. | .idle .. | .rdrsp .. | .status .. | .fault .. | .upstreamIgnoredType ..
    | .upstreamSilence .. | .retriesExhausted .. | .preampFaultLine .. | .upstreamFrameFailure .. =>
    [.regs, .core, .ang, .tile, .link, .evr]
  | .perst .. =>
    [.regs, .core, .rcp, .nve, .hdg, .hpt]
  | .rejoin .. | .ridgeSelftestDone .. =>
    [.regs, .core, .rlg, .dram, .cen, .crn]
  | .decodeComplete .. =>
    [.regs, .core, .tile, .dec, .dram, .ste]
  | .calibrationStart .. | .calibrationAbort .. =>
    [.regs, .tile, .evr, .dram, .mtr, .mon]
  | .calibrationApplyStep .. =>
    [.regs, .ang, .tile, .link, .dram, .mtr, .mon]
  | .generationSwitch .. =>
    [.regs, .core, .evr, .member, .redun, .crn, .nve]
  | .lbaPoison .. =>
    [.regs, .core, .evr, .ztb, .redun, .crn, .nve]
  | .migrationCutover .. =>
    [.regs, .core, .evr, .ztb, .redun, .crn, .win]
  | .domainStarted .. =>
    [.regs, .tile, .evr, .rcp, .dram, .mtr, .mon]
  | .calibrationResult .. =>
    [.regs, .ang, .tile, .link, .evr, .dram, .mtr, .mon]
  | .sampleTick .. =>
    [.regs, .ang, .tile, .link, .rlg, .evr, .cen, .mtr]
  | .deferredError .. =>
    [.regs, .core, .evr, .ztb, .redun, .crn, .win, .nve]
  | .measuredBoot .. =>
    [.regs, .core, .rlg, .evr, .cry, .rcp, .mem, .nve]
  | .zoneManagementSend .. =>
    [.regs, .core, .ztb, .redun, .crn, .win, .nve, .hdg]
  | .flushSpeedStop .. | .emergencyFlush .. =>
    [.regs, .core, .evr, .mtr, .ztb, .redun, .crn, .win, .nve]
  | .scrubStripe .. =>
    [.regs, .core, .evr, .ztb, .member, .redun, .crn, .win, .nve]
  | .resetRelease .. =>
    [.regs, .core, .rcp, .fus, .dram, .mtr, .crn, .hpt, .pins]
  | .namespaceManagement .. =>
    [.regs, .core, .rlg, .ztb, .redun, .crn, .win, .nve, .hdg]
  | .powerLoss .. =>
    [.regs, .core, .ang, .tile, .evr, .dram, .mtr, .mon, .crn, .win]
  | .angAcLatch .. | .counterReadClear .. =>
    [.regs, .core, .ang, .tile, .evr, .mem, .ste, .nve, .hdg, .hpt]
  | .actuatorLoss .. | .wedgeCountMismatch .. =>
    [.regs, .core, .rlg, .evr, .mtr, .mon, .ztb, .redun, .crn, .win]
  | .fence .. | .lockstepMismatch .. | .duplicateMismatch .. | .portTimeout .. | .urgentEntry .. | .illalu ..
    | .testFence .. | .lastRidgeFence .. =>
    [.regs, .core, .ang, .tile, .dec, .rlg, .evr, .dram, .mtr, .mon, .crn]
  | .formatNvm .. | .sanitize .. =>
    [.regs, .core, .rlg, .evr, .cry, .ztb, .redun, .crn, .win, .nve, .hdg]
  | .rebuildBandGroup .. | .normalShutdown .. =>
    [.regs, .core, .rlg, .evr, .dram, .ztb, .redun, .crn, .win, .nve, .hdg]
  | .ridgeReset .. =>
    [.regs, .core, .ang, .tile, .dec, .rlg, .evr, .mem, .cen, .ste, .crn, .nve]
  | .cstPeerRefetch .. =>
    [.regs, .core, .ang, .tile, .dec, .rlg, .evr, .mem, .dram, .mtr, .mon, .crn]
  | .cairnAppend .. =>
    [.regs, .core, .rlg, .evr, .dram, .ste, .ztb, .redun, .crn, .win, .nve, .hdg]
  | .memberStateChange .. | .replay .. =>
    [.regs, .core, .rlg, .evr, .dram, .ztb, .member, .redun, .crn, .win, .nve, .hdg]
  | .takeover .. =>
    [.regs, .core, .ang, .tile, .dec, .rlg, .evr, .dram, .cen, .mtr, .mon, .redun, .crn, .nve, .hdg]
  | .portReadReturn .. | .switch .. | .handback .. | .switchTimeout .. =>
    [.regs, .core, .ang, .tile, .dec, .rlg, .evr, .dram, .cen, .mtr, .mon, .crn, .nve, .hdg]
  | .pwrdisRise .. =>
    [.regs, .core, .rlg, .evr, .dram, .mtr, .mon, .ztb, .redun, .crn, .win, .nve, .hdg, .pins]
  | .ridgeWatchdog .. =>
    [.regs, .core, .ang, .tile, .dec, .rlg, .evr, .rcp, .mem, .dram, .cen, .mtr, .mon, .ste, .crn, .nve]
  | .softwareBlockReset .. | .blockWatchdog .. | .domainOn .. | .domainOff .. | .domainRet .. | .domainStopped .. =>
    [.regs, .core, .ang, .tile, .dec, .link, .rlg, .evr, .cry, .rcp, .mem, .dram, .cen, .mtr, .mon, .ste, .ztb,
      .crn, .nve, .hdg, .hpt]
  | .spurStep .. | .next .. | .jump .. | .call .. | .ret .. | .brt .. | .brf .. | .wait .. | .poll .. | .disp ..
    | .yield .. | .halt .. | .loop .. | .illseq .. | .thermalTrip .. | .powerOnReset .. | .resetN ..
    | .vmotUndervoltageReset .. | .softwareFullReset .. | .fullReset .. | .legacyWindowWrite .. | .registerWrite .. =>
    [.regs, .core, .ang, .tile, .dec, .link, .rlg, .evr, .cry, .rcp, .fus, .mem, .dram, .cen, .mtr, .mon, .ste,
      .ztb, .member, .redun, .crn, .win, .nve, .hdg, .hpt, .mgmt, .pins]

end Sys2Proof.Machine
end

