-- ==== Sys2Proof/Certificates/Slice0/Obligations.lean ====
section
/-!
DEFINITION. The statements for the provers: what a step is, the invariant, what each part of the machine keeps, the rules of
the spec that say what a command does, and for every family of commands when each of its commands completes, and with what
state. In a family's statement each clause is one command, or one case of it: the hypotheses are the conditions under which
the rules give the command its own effect, and the conclusion is the state after it.
-/
open Sys2Proof Sys2Proof.Machine

/-- A step takes the command at the front of the queue and runs it with the queue's rest. The queue is the model's
interface (log 108). -/
def Obligations.StepRunsTheFrontCommand : Prop :=
  ∀ (s : State) (i : Instr) (rest : List Instr),
    s.pending = i :: rest → step s = exec i { s with pending := rest }

/-- A step on an empty queue is a millisecond of the recorder's clocks, of the Ridge watchdogs (R400), and of the
count in GEN. That an idle step is this tick is the model's choice (log 33). -/
def Obligations.EmptyQueueStepIsAMillisecond : Prop :=
  ∀ s : State, s.pending = [] →
    step s =
      .next
        { s with
          evr := { s.evr with ot := s.evr.ot + 1, cal := s.evr.cal.map (fun k => k + 1) }
          rcp := { s.rcp with rwdMs := ⟨s.rcp.rwdMs.a + 1, s.rcp.rwdMs.b + 1⟩ }
          mtr :=
            if s.mtr.sp = .gen then
              { s.mtr with
                genMs := s.mtr.genMs + 1
                pfStep := if s.mtr.pfStep < 4 then s.mtr.pfStep + 1 else s.mtr.pfStep }
            else s.mtr }

/-- No command stops the machine: an access or command that the spec refuses has the refusal as its effect, and an
event that cannot occur changes nothing (log 1). -/
def Obligations.EveryStepAnswersANextState : Prop :=
  ∀ s : State, ∃ t : State, step s = .next t

/-- The table gives its rows no bits (log 34). -/
def Obligations.NoTableRowSpellsAWord : Prop :=
  ∀ (nbits w : Nat) (s : State), decodeTableWord nbits w = none ∧ s.withFetchWord nbits w = s

/-- The state before RESET_RELEASE (log 34). That the DRAM cells read 0 is the model's choice (log 4). -/
def Obligations.ResetStandsBeforeItsRelease : Prop :=
  State.reset.pending = [] ∧ State.reset.rcp.asserted = true ∧ (∀ r, State.reset.ridgeSt r = .reset) ∧
    State.reset.mtr.sp = .off ∧ (∀ l, (State.reset.lnk l).st = .off) ∧ (∀ r, (State.reset.an r).src = .none) ∧
    (∀ t, (State.reset.tl t).aeq = [] ∧ (State.reset.tl t).wg = false ∧ (State.reset.tl t).rg = false) ∧
    (∀ ch a, (State.reset.dram.get ch).byte a = 0) ∧ State.reset.nve.cmds = [] ∧ State.reset.evr.intake = [] ∧
    State.reset.cry.busy = none ∧ (∀ r, State.reset.regF (rk r R_ANG_LATEMAX) 11 0 = 64)

/-- The invariant that every step keeps holds of State.reset. -/
def Obligations.ResetKeepsTheInvariant : Prop :=
  State.reset.WF

/-- From every state that meets the invariant, a step gives a state that meets it: the canonical forms, the 16 entries
of a return stack (running, in a snapshot, held or received for the peer) and the 256 entries of an Angle Event Queue. -/
def Obligations.EveryStepKeepsTheInvariant : Prop :=
  ∀ s t : State, s.WF → step s = .next t → t.WF

/-- What a command does is on everything but the queue (log 108). -/
def Obligations.CommandsLeaveTheQueue : Prop :=
  ∀ (i : Instr) (s t : State), s.WF → exec i s = .next t → t.pending = s.pending

/-- The frame of every command, by the parts of State. DRAM is one of the parts: a command that does not list it
leaves every byte as it was. -/
def Obligations.EveryCommandKeepsTheOtherParts : Prop :=
  ∀ (i : Instr) (s t : State) (p : Part), exec i s = .next t → p ∉ mayChange i → p.same s t

/-- Every operation of Table 3.5, at every operand: a live operation writes its result to its destination register
(aluDone) and its flags to the context (flagsDone), and changes nothing else; the flags are those of R62 and the field
specifications those of R63. -/
def Obligations.AluOperationsWriteTheirResult : Prop :=
  (∀ (s : State) (c : CtxId) (f : AluForm) (a : DWord) (b : DWord) (d : DWord),
    s.AluOn c f a b d →
    exec (.nop c f) s = .next (s.flagsDone c (s.ctx c).flags)) ∧
  (∀ (s : State) (c : CtxId) (f : AluForm) (a : DWord) (b : DWord) (d : DWord),
    s.AluOn c f a b d →
    exec (.mov c f) s = .next (s.aluDone c f.dst (b) (s.ctx c).flags)) ∧
  (∀ (s : State) (c : CtxId) (f : AluForm) (a : DWord) (b : DWord) (d : DWord),
    s.AluOn c f a b d →
    exec (.movh c f) s = .next (s.aluDone c f.dst (b.extractLsb' 0 32 ++ d.extractLsb' 0 32) (s.ctx c).flags)) ∧
  (∀ (s : State) (c : CtxId) (f : AluForm) (a : DWord) (b : DWord) (d : DWord),
    s.AluOn c f a b d →
    exec (.add c f) s = .next (s.aluDone c f.dst (a + b) ⟨(a + b).msb, decide (a + b = 0), decide (2 ^ 64 ≤ a.toNat +
      b.toNat), overflows (a.toInt + b.toInt)⟩)) ∧
  (∀ (s : State) (c : CtxId) (f : AluForm) (a : DWord) (b : DWord) (d : DWord),
    s.AluOn c f a b d →
    exec (.adc c f) s = .next (s.aluDone c f.dst (a + b + BitVec.ofNat 64 (b2n (s.ctx c).flags.c)) ⟨(a + b +
      BitVec.ofNat 64 (b2n (s.ctx c).flags.c)).msb, decide (a + b + BitVec.ofNat 64 (b2n (s.ctx c).flags.c) = 0),
      decide (2 ^ 64 ≤ a.toNat + b.toNat + b2n (s.ctx c).flags.c), overflows (a.toInt + b.toInt + b2n (s.ctx
      c).flags.c)⟩)) ∧
  (∀ (s : State) (c : CtxId) (f : AluForm) (a : DWord) (b : DWord) (d : DWord),
    s.AluOn c f a b d →
    exec (.sub c f) s = .next (s.aluDone c f.dst (a - b) ⟨(a - b).msb, decide (a - b = 0), decide (b.toNat ≤ a.toNat),
      overflows (a.toInt - b.toInt)⟩)) ∧
  (∀ (s : State) (c : CtxId) (f : AluForm) (a : DWord) (b : DWord) (d : DWord),
    s.AluOn c f a b d →
    exec (.sbc c f) s = .next (s.aluDone c f.dst (a - b - BitVec.ofNat 64 (1 - b2n (s.ctx c).flags.c)) ⟨(a - b -
      BitVec.ofNat 64 (1 - b2n (s.ctx c).flags.c)).msb, decide (a - b - BitVec.ofNat 64 (1 - b2n (s.ctx c).flags.c) =
      0), decide (b.toNat + (1 - b2n (s.ctx c).flags.c) ≤ a.toNat), overflows (a.toInt - b.toInt - ((1 - b2n (s.ctx
      c).flags.c : Nat) : Int))⟩)) ∧
  (∀ (s : State) (c : CtxId) (f : AluForm) (a : DWord) (b : DWord) (d : DWord),
    s.AluOn c f a b d →
    exec (.cmp c f) s = .next (s.flagsDone c ⟨(a - b).msb, decide (a - b = 0), decide (b.toNat ≤ a.toNat), overflows
      (a.toInt - b.toInt)⟩)) ∧
  (∀ (s : State) (c : CtxId) (f : AluForm) (a : DWord) (b : DWord) (d : DWord),
    s.AluOn c f a b d →
    exec (.cmn c f) s = .next (s.flagsDone c ⟨(a + b).msb, decide (a + b = 0), decide (2 ^ 64 ≤ a.toNat + b.toNat),
      overflows (a.toInt + b.toInt)⟩)) ∧
  (∀ (s : State) (c : CtxId) (f : AluForm) (a : DWord) (b : DWord) (d : DWord),
    s.AluOn c f a b d →
    exec (.neg c f) s = .next (s.aluDone c f.dst (0 - a) ⟨(0 - a).msb, decide (0 - a = 0), decide (a.toNat = 0),
      overflows (-a.toInt)⟩)) ∧
  (∀ (s : State) (c : CtxId) (f : AluForm) (a : DWord) (b : DWord) (d : DWord),
    s.AluOn c f a b d → a.msb = true →
    exec (.abs c f) s = .next (s.aluDone c f.dst (0 - a) ⟨(0 - a).msb, false, false, decide (a.toInt = -(2 ^ 63))⟩)) ∧
  (∀ (s : State) (c : CtxId) (f : AluForm) (a : DWord) (b : DWord) (d : DWord),
    s.AluOn c f a b d → a.msb = false →
    exec (.abs c f) s = .next (s.aluDone c f.dst (a) ⟨false, decide (a = 0), false, false⟩)) ∧
  (∀ (s : State) (c : CtxId) (f : AluForm) (a : DWord) (b : DWord) (d : DWord),
    s.AluOn c f a b d →
    exec (.and c f) s = .next (s.aluDone c f.dst (a &&& b)
      { (s.ctx c).flags with n := (a &&& b).msb, z := decide (a &&& b = 0) })) ∧
  (∀ (s : State) (c : CtxId) (f : AluForm) (a : DWord) (b : DWord) (d : DWord),
    s.AluOn c f a b d →
    exec (.or c f) s = .next (s.aluDone c f.dst (a ||| b)
      { (s.ctx c).flags with n := (a ||| b).msb, z := decide (a ||| b = 0) })) ∧
  (∀ (s : State) (c : CtxId) (f : AluForm) (a : DWord) (b : DWord) (d : DWord),
    s.AluOn c f a b d →
    exec (.xor c f) s = .next (s.aluDone c f.dst (a ^^^ b)
      { (s.ctx c).flags with n := (a ^^^ b).msb, z := decide (a ^^^ b = 0) })) ∧
  (∀ (s : State) (c : CtxId) (f : AluForm) (a : DWord) (b : DWord) (d : DWord),
    s.AluOn c f a b d →
    exec (.andn c f) s = .next (s.aluDone c f.dst (a &&& ~~~b)
      { (s.ctx c).flags with n := (a &&& ~~~b).msb, z := decide (a &&& ~~~b = 0) })) ∧
  (∀ (s : State) (c : CtxId) (f : AluForm) (a : DWord) (b : DWord) (d : DWord),
    s.AluOn c f a b d →
    exec (.orn c f) s = .next (s.aluDone c f.dst (a ||| ~~~b)
      { (s.ctx c).flags with n := (a ||| ~~~b).msb, z := decide (a ||| ~~~b = 0) })) ∧
  (∀ (s : State) (c : CtxId) (f : AluForm) (a : DWord) (b : DWord) (d : DWord),
    s.AluOn c f a b d →
    exec (.not c f) s = .next (s.aluDone c f.dst (~~~a)
      { (s.ctx c).flags with n := (~~~a).msb, z := decide (~~~a = 0) })) ∧
  (∀ (s : State) (c : CtxId) (f : AluForm) (a : DWord) (b : DWord) (d : DWord),
    s.AluOn c f a b d →
    exec (.tst c f) s = .next (s.flagsDone c { (s.ctx c).flags with n := (a &&& b).msb, z := decide (a &&& b = 0) })) ∧
  (∀ (s : State) (c : CtxId) (f : AluForm) (a : DWord) (b : DWord) (d : DWord),
    s.AluOn c f a b d →
    exec (.shl c f) s = .next (s.aluDone c f.dst (a <<< (b.toNat % 64))
      { (s.ctx c).flags with
          n := (a <<< (b.toNat % 64)).msb,
          z := decide (a <<< (b.toNat % 64) = 0),
          c := if (b.toNat % 64) = 0 then (s.ctx c).flags.c else a.getLsbD (64 - (b.toNat % 64)) })) ∧
  (∀ (s : State) (c : CtxId) (f : AluForm) (a : DWord) (b : DWord) (d : DWord),
    s.AluOn c f a b d →
    exec (.shr c f) s = .next (s.aluDone c f.dst (a >>> (b.toNat % 64))
      { (s.ctx c).flags with
          n := (a >>> (b.toNat % 64)).msb,
          z := decide (a >>> (b.toNat % 64) = 0),
          c := if (b.toNat % 64) = 0 then (s.ctx c).flags.c else a.getLsbD ((b.toNat % 64) - 1) })) ∧
  (∀ (s : State) (c : CtxId) (f : AluForm) (a : DWord) (b : DWord) (d : DWord),
    s.AluOn c f a b d →
    exec (.sar c f) s = .next (s.aluDone c f.dst (a.sshiftRight (b.toNat % 64))
      { (s.ctx c).flags with
          n := (a.sshiftRight (b.toNat % 64)).msb,
          z := decide (a.sshiftRight (b.toNat % 64) = 0),
          c := if (b.toNat % 64) = 0 then (s.ctx c).flags.c else a.getLsbD ((b.toNat % 64) - 1) })) ∧
  (∀ (s : State) (c : CtxId) (f : AluForm) (a : DWord) (b : DWord) (d : DWord),
    s.AluOn c f a b d →
    exec (.rol c f) s = .next (s.aluDone c f.dst (a.rotateLeft (b.toNat % 64))
      { (s.ctx c).flags with
          n := (a.rotateLeft (b.toNat % 64)).msb,
          z := decide (a.rotateLeft (b.toNat % 64) = 0),
          c := if (b.toNat % 64) = 0 then (s.ctx c).flags.c else a.getLsbD (64 - (b.toNat % 64)) })) ∧
  (∀ (s : State) (c : CtxId) (f : AluForm) (a : DWord) (b : DWord) (d : DWord),
    s.AluOn c f a b d →
    exec (.ror c f) s = .next (s.aluDone c f.dst (a.rotateRight (b.toNat % 64))
      { (s.ctx c).flags with
          n := (a.rotateRight (b.toNat % 64)).msb,
          z := decide (a.rotateRight (b.toNat % 64) = 0),
          c := if (b.toNat % 64) = 0 then (s.ctx c).flags.c else a.getLsbD ((b.toNat % 64) - 1) })) ∧
  (∀ (s : State) (c : CtxId) (f : AluForm) (a : DWord) (b : DWord) (d : DWord),
    s.AluOn c f a b d →
    exec (.min c f) s = .next (s.aluDone c f.dst (if a.toInt ≤ b.toInt then a else b)
      { (s.ctx c).flags with
          n := (if a.toInt ≤ b.toInt then a else b).msb,
          z := decide ((if a.toInt ≤ b.toInt then a else b) = 0) })) ∧
  (∀ (s : State) (c : CtxId) (f : AluForm) (a : DWord) (b : DWord) (d : DWord),
    s.AluOn c f a b d →
    exec (.max c f) s = .next (s.aluDone c f.dst (if b.toInt ≤ a.toInt then a else b)
      { (s.ctx c).flags with
          n := (if b.toInt ≤ a.toInt then a else b).msb,
          z := decide ((if b.toInt ≤ a.toInt then a else b) = 0) })) ∧
  (∀ (s : State) (c : CtxId) (f : AluForm) (a : DWord) (b : DWord) (d : DWord),
    s.AluOn c f a b d →
    exec (.minu c f) s = .next (s.aluDone c f.dst (if a.toNat ≤ b.toNat then a else b)
      { (s.ctx c).flags with
          n := (if a.toNat ≤ b.toNat then a else b).msb,
          z := decide ((if a.toNat ≤ b.toNat then a else b) = 0) })) ∧
  (∀ (s : State) (c : CtxId) (f : AluForm) (a : DWord) (b : DWord) (d : DWord),
    s.AluOn c f a b d →
    exec (.maxu c f) s = .next (s.aluDone c f.dst (if b.toNat ≤ a.toNat then a else b)
      { (s.ctx c).flags with
          n := (if b.toNat ≤ a.toNat then a else b).msb,
          z := decide ((if b.toNat ≤ a.toNat then a else b) = 0) })) ∧
  (∀ (s : State) (c : CtxId) (f : AluForm) (a : DWord) (b : DWord) (d : DWord),
    s.AluOn c f a b d →
    exec (.mul c f) s = .next (s.aluDone c f.dst (BitVec.ofNat 64 (a.toNat % 2 ^ 32 * (b.toNat % 2 ^ 32)))
      { (s.ctx c).flags with
          n := (BitVec.ofNat 64 (a.toNat % 2 ^ 32 * (b.toNat % 2 ^ 32))).msb,
          z := decide (BitVec.ofNat 64 (a.toNat % 2 ^ 32 * (b.toNat % 2 ^ 32)) = 0) })) ∧
  (∀ (s : State) (c : CtxId) (f : AluForm) (a : DWord) (b : DWord) (d : DWord),
    s.AluOn c f a b d →
    exec (.muls c f) s = .next (s.aluDone c f.dst (BitVec.ofInt 64 ((a.setWidth 32).toInt * (b.setWidth 32).toInt))
      { (s.ctx c).flags with
          n := (BitVec.ofInt 64 ((a.setWidth 32).toInt * (b.setWidth 32).toInt)).msb,
          z := decide (BitVec.ofInt 64 ((a.setWidth 32).toInt * (b.setWidth 32).toInt) = 0) })) ∧
  (∀ (s : State) (c : CtxId) (f : AluForm) (a : DWord) (b : DWord) (d : DWord),
    s.AluOn c f a b d →
    exec (.addsu c f) s = .next (s.aluDone c f.dst (if 2 ^ 64 ≤ a.toNat + b.toNat then 0xFFFFFFFFFFFFFFFF#64 else a +
      b) ⟨(if 2 ^ 64 ≤ a.toNat + b.toNat then 0xFFFFFFFFFFFFFFFF#64 else a + b).msb, decide ((if 2 ^ 64 ≤ a.toNat +
      b.toNat then 0xFFFFFFFFFFFFFFFF#64 else a + b) = 0), decide (2 ^ 64 ≤ a.toNat + b.toNat), overflows (a.toInt +
      b.toInt)⟩)) ∧
  (∀ (s : State) (c : CtxId) (f : AluForm) (a : DWord) (b : DWord) (d : DWord),
    s.AluOn c f a b d →
    exec (.subsu c f) s = .next (s.aluDone c f.dst (if a.toNat < b.toNat then 0#64 else a - b) ⟨(if a.toNat < b.toNat
      then 0#64 else a - b).msb, decide ((if a.toNat < b.toNat then 0#64 else a - b) = 0), decide (b.toNat ≤ a.toNat),
      overflows (a.toInt - b.toInt)⟩)) ∧
  (∀ (s : State) (c : CtxId) (f : AluForm) (a : DWord) (b : DWord) (d : DWord),
    s.AluOn c f a b d →
    exec (.bfx c f) s = .next (s.aluDone c f.dst (BitVec.ofNat 64 (a.toNat / 2 ^ (b.toNat % 64) % 2 ^ (min (b.toNat /
      64 % 64 + 1) (64 - b.toNat % 64))))
      { (s.ctx c).flags with
          n := (BitVec.ofNat 64 (a.toNat / 2 ^ (b.toNat % 64) % 2 ^ (min (b.toNat / 64 % 64 + 1) (64 - b.toNat %
            64)))).msb,
          z := decide (BitVec.ofNat 64 (a.toNat / 2 ^ (b.toNat % 64) % 2 ^ (min (b.toNat / 64 % 64 + 1) (64 - b.toNat
            % 64))) = 0) })) ∧
  (∀ (s : State) (c : CtxId) (f : AluForm) (a : DWord) (b : DWord) (d : DWord),
    s.AluOn c f a b d →
    exec (.bfxs c f) s = .next (s.aluDone c f.dst (signExt (min (b.toNat / 64 % 64 + 1) (64 - b.toNat % 64)) (a.toNat
      / 2 ^ (b.toNat % 64) % 2 ^ (min (b.toNat / 64 % 64 + 1) (64 - b.toNat % 64))))
      { (s.ctx c).flags with
          n := (signExt (min (b.toNat / 64 % 64 + 1) (64 - b.toNat % 64)) (a.toNat / 2 ^ (b.toNat % 64) % 2 ^ (min
            (b.toNat / 64 % 64 + 1) (64 - b.toNat % 64)))).msb,
          z := decide (signExt (min (b.toNat / 64 % 64 + 1) (64 - b.toNat % 64)) (a.toNat / 2 ^ (b.toNat % 64) % 2 ^
            (min (b.toNat / 64 % 64 + 1) (64 - b.toNat % 64))) = 0) })) ∧
  (∀ (s : State) (c : CtxId) (f : AluForm) (a : DWord) (b : DWord) (d : DWord),
    s.AluOn c f a b d →
    exec (.bfi c f) s = .next (s.aluDone c f.dst ((d &&& ~~~(BitVec.ofNat 64 ((2 ^ (min (b.toNat / 64 % 64 + 1) (64 -
      b.toNat % 64)) - 1) * 2 ^ (b.toNat % 64)))) ||| ((a <<< (b.toNat % 64)) &&& BitVec.ofNat 64 ((2 ^ (min (b.toNat
      / 64 % 64 + 1) (64 - b.toNat % 64)) - 1) * 2 ^ (b.toNat % 64)))) (s.ctx c).flags)) ∧
  (∀ (s : State) (c : CtxId) (f : AluForm) (a : DWord) (b : DWord) (d : DWord),
    s.AluOn c f a b d →
    exec (.bfc c f) s = .next (s.aluDone c f.dst (a &&& ~~~(BitVec.ofNat 64 ((2 ^ (min (b.toNat / 64 % 64 + 1) (64 -
      b.toNat % 64)) - 1) * 2 ^ (b.toNat % 64)))) (s.ctx c).flags)) ∧
  (∀ (s : State) (c : CtxId) (f : AluForm) (a : DWord) (b : DWord) (d : DWord),
    s.AluOn c f a b d →
    exec (.popc c f) s = .next (s.aluDone c f.dst (BitVec.ofNat 64 ((List.range 64).filter (fun i => a.getLsbD
      i)).length)
      { (s.ctx c).flags with
          n := (BitVec.ofNat 64 ((List.range 64).filter (fun i => a.getLsbD i)).length).msb,
          z := decide (BitVec.ofNat 64 ((List.range 64).filter (fun i => a.getLsbD i)).length = 0) })) ∧
  (∀ (s : State) (c : CtxId) (f : AluForm) (a : DWord) (b : DWord) (d : DWord),
    s.AluOn c f a b d →
    exec (.clz c f) s = .next (s.aluDone c f.dst (BitVec.ofNat 64 (((List.range 64).find? (fun i => a.getLsbD (63 -
      i))).getD 64))
      { (s.ctx c).flags with
          n := (BitVec.ofNat 64 (((List.range 64).find? (fun i => a.getLsbD (63 - i))).getD 64)).msb,
          z := decide (BitVec.ofNat 64 (((List.range 64).find? (fun i => a.getLsbD (63 - i))).getD 64) = 0) })) ∧
  (∀ (s : State) (c : CtxId) (f : AluForm) (a : DWord) (b : DWord) (d : DWord),
    s.AluOn c f a b d →
    exec (.ctz c f) s = .next (s.aluDone c f.dst (BitVec.ofNat 64 (((List.range 64).find? (fun i => a.getLsbD i)).getD
      64))
      { (s.ctx c).flags with
          n := (BitVec.ofNat 64 (((List.range 64).find? (fun i => a.getLsbD i)).getD 64)).msb,
          z := decide (BitVec.ofNat 64 (((List.range 64).find? (fun i => a.getLsbD i)).getD 64) = 0) })) ∧
  (∀ (s : State) (c : CtxId) (f : AluForm) (a : DWord) (b : DWord) (d : DWord),
    s.AluOn c f a b d →
    exec (.bswap c f) s = .next (s.aluDone c f.dst (BitVec.ofNat 64 (ofBytesLE (bytesLE 8 a).reverse))
      { (s.ctx c).flags with
          n := (BitVec.ofNat 64 (ofBytesLE (bytesLE 8 a).reverse)).msb,
          z := decide (BitVec.ofNat 64 (ofBytesLE (bytesLE 8 a).reverse) = 0) })) ∧
  (∀ (s : State) (c : CtxId) (f : AluForm) (a : DWord) (b : DWord) (d : DWord),
    s.AluOn c f a b d →
    exec (.sxt c f) s = .next (s.aluDone c f.dst (signExt (b.toNat % 64 + 1) (a.toNat % 2 ^ (b.toNat % 64 + 1)))
      { (s.ctx c).flags with
          n := (signExt (b.toNat % 64 + 1) (a.toNat % 2 ^ (b.toNat % 64 + 1))).msb,
          z := decide (signExt (b.toNat % 64 + 1) (a.toNat % 2 ^ (b.toNat % 64 + 1)) = 0) })) ∧
  (∀ (s : State) (c : CtxId) (f : AluForm) (a : DWord) (b : DWord) (d : DWord),
    s.AluOn c f a b d →
    exec (.zxt c f) s = .next (s.aluDone c f.dst (BitVec.ofNat 64 (a.toNat % 2 ^ (b.toNat % 64 + 1)))
      { (s.ctx c).flags with
          n := (BitVec.ofNat 64 (a.toNat % 2 ^ (b.toNat % 64 + 1))).msb,
          z := decide (BitVec.ofNat 64 (a.toNat % 2 ^ (b.toNat % 64 + 1)) = 0) })) ∧
  (∀ (s : State) (c : CtxId) (f : AluForm) (a : DWord) (b : DWord) (d : DWord),
    s.AluOn c f a b d →
    exec (.crc c f) s = .next (s.aluDone c f.dst ((crcStep (a.setWidth 32) (bytesLE 8 b)).setWidth 64) (s.ctx
      c).flags)) ∧
  (∀ (s : State) (c : CtxId) (f : AluForm) (a : DWord) (b : DWord) (d : DWord),
    s.AluOn c f a b d →
    exec (.crcb c f) s = .next (s.aluDone c f.dst ((crcStep (a.setWidth 32) (bytesLE 1 b)).setWidth 64) (s.ctx
      c).flags)) ∧
  (∀ (s : State) (c : CtxId) (f : AluForm) (a : DWord) (b : DWord) (d : DWord),
    s.AluOn c f a b d →
    exec (.gfmul c f) s = .next (s.aluDone c f.dst (gfLanes a b) (s.ctx c).flags)) ∧
  (∀ (s : State) (c : CtxId) (f : AluForm) (a : DWord) (b : DWord) (d : DWord),
    s.AluOn c f a b d →
    exec (.gfmac c f) s = .next (s.aluDone c f.dst (d ^^^ gfLanes a b) (s.ctx c).flags)) ∧
  (∀ (s : State) (c : CtxId) (f : AluForm) (a : DWord) (b : DWord) (d : DWord),
    s.AluOn c f a b d →
    exec (.selz c f) s = .next (s.aluDone c f.dst (if (s.ctx c).flags.z then a else b) (s.ctx c).flags)) ∧
  (∀ (s : State) (c : CtxId) (f : AluForm) (a : DWord) (b : DWord) (d : DWord),
    s.AluOn c f a b d →
    exec (.selc c f) s = .next (s.aluDone c f.dst (if (s.ctx c).flags.c then a else b) (s.ctx c).flags)) ∧
  (∀ (s : State) (c : CtxId) (f : AluForm) (a : DWord) (b : DWord) (d : DWord),
    s.AluOn c f a b d →
    exec (.tstb c f) s = .next (s.flagsDone c { (s.ctx c).flags with z := !a.getLsbD (b.toNat % 64) })) ∧
  (∀ (s : State) (c : CtxId) (op : BitVec 6),
    s.ridgeLive c.ridge = true → 0x30 ≤ op.toNat → s.spurOn c = true → (s.ctx c).giving ≠ some true → (s.ctx
    c).committing = false → ((s.ctx c).atWord = true ∨ ((s.ctx c).st = .halt ∧ (s.ctx c).stepReq = true)) →
    exec (.illalu c op) s = .next (s.ctxFault c (s.fetchAddr c.ridge (s.ctx c).pc)
      { FaultSet.none with illalu := true }))

/-- R20 and R61 for MOV, with its frame: g0 reads 0 and ignores writes; every other register, the flags and every
other context are unchanged. -/
def Obligations.MovWritesItsRegisterAlone : Prop :=
  ∀ (s : State) (c : CtxId) (f : AluForm) (a b d : DWord),
    s.AluOn c f a b d → swf (kconst 0) (s.ctx c).regs = true →
    ∃ t, exec (.mov c f) s = .next t ∧
      (t.ctx c).rd 0 = 0 ∧
      (f.dst = 0 → t = s) ∧
      (f.dst ≠ 0 → (t.ctx c).rd f.dst.toNat = b) ∧
      (∀ n, n ≠ f.dst.toNat → (t.ctx c).rd n = (s.ctx c).rd n) ∧
      t.ctx c = { s.ctx c with regs := (t.ctx c).regs } ∧
      (∀ e, e ≠ c → t.ctx e = s.ctx e) ∧
      t = { s with core := t.core }

/-- R46 with R36, where SPU_GCTL.FLTFENCE is 0: the word has no effect, the context stands in FAULT at it, and the
causes it meets are latched. -/
def Obligations.FaultingWordHasNoEffect : Prop :=
  ∀ (s s1 : State) (c : CtxId) (w : MicroWord) (ce : Bool) (x : Ctx),
    s1 = s.afterFetch c ce → x = s1.ctx c → swf regInit s1.regs = true →
    s.canIssue c w = true → (s.ctx c).atWord = true → badFetch x.pc = false →
    12 ≤ wSeq w ∨ 0x30 ≤ wAluOp w ∨ (wNidem w = true ∧ wCommit w = false) ∨ (wNonIdem w = true ∧ wNidem w = false) ∨
      (wSeq w = 2 ∧ 16 ≤ x.stack.length) ∨ (wSeq w = 3 ∧ x.stack = []) →
    s1.regB (rk c.ridge R_SPU_GCTL) 4 = false →
    ∃ t, exec (wordCommand c w ce) s = .next t ∧
      (t.ctx c).st = .fault ∧ (t.ctx c).pc = x.pc ∧ (t.ctx c).regs = x.regs ∧ (t.ctx c).flags = x.flags ∧
      (t.ctx c).stack = x.stack ∧ (t.ctx c).lcnt = x.lcnt ∧ (t.ctx c).snap = x.snap ∧ (t.ctx c).csn = x.csn ∧
      (12 ≤ wSeq w → t.regB (rk c.ridge (R_SPU_FLT + 4 * c.spur.idx)) 0 = true) ∧
      (0x30 ≤ wAluOp w → t.regB (rk c.ridge (R_SPU_FLT + 4 * c.spur.idx)) 1 = true) ∧
      (wNidem w = true → wCommit w = false → t.regB (rk c.ridge (R_SPU_FLT + 4 * c.spur.idx)) 2 = true) ∧
      (wNonIdem w = true → wNidem w = false → t.regB (rk c.ridge (R_SPU_FLT + 4 * c.spur.idx)) 3 = true) ∧
      t = { s1 with core := t.core, regs := t.regs }

/-- R55, Table 3.2. That conditions other than flags are evaluated after the word's ANG and XFER parts is the model's
reading (log 43); what a word does in a context that gives its work away is in chapter 16. -/
def Obligations.SequencerChoosesTheSuccessor : Prop :=
  ∀ (s s1 s2 : State) (c : CtxId) (w : MicroWord) (ce : Bool) (x y : Ctx) (p : CsAddr)
    (got : Option DWord),
    s.WordDue c w ce (wSeq w) → wSeq w < 12 → s1 = s.afterFetch c ce → x = s1.ctx c →
    p = s1.fetchAddr c.ridge x.pc →
    s1.wordParts c w x = (s2, got) → s2.ridgeLive c.ridge = true → y = s2.ctx c → y.giving = none →
    ∃ t, exec (wordCommand c w ce) s = .next t ∧
      (wSeq w = 0 ∨ wSeq w = 9 → (t.ctx c).pc = p + 1) ∧
      (wSeq w = 1 → (t.ctx c).pc = wTarget w) ∧
      (wSeq w = 2 → y.stack.length < 16 → (t.ctx c).pc = wTarget w ∧ (t.ctx c).stack = (p + 1) :: y.stack) ∧
      (wSeq w = 3 → ∀ a rest, y.stack = a :: rest → (t.ctx c).pc = a ∧ (t.ctx c).stack = rest) ∧
      (wSeq w = 4 → (t.ctx c).pc = if s2.cond c x.flags (wCond w) then wTarget w else p + 1) ∧
      (wSeq w = 5 → (t.ctx c).pc = if s2.cond c x.flags (wCond w) then p + 1 else wTarget w) ∧
      (wSeq w = 6 → (t.ctx c).pc = if s2.cond c x.flags (wCond w) then p + 1 else p) ∧
      (wSeq w = 7 → ∀ n, (y.pollView w).deferLine = some n → y.stack.length < 16 →
        (t.ctx c).pc = y.vector n ∧ (t.ctx c).stack = (p + 1) :: y.stack) ∧
      (wSeq w = 7 → (y.pollView w).deferLine = none → (t.ctx c).pc = p + 1) ∧
      (wSeq w = 8 → (t.ctx c).pc = wTarget w + BitVec.ofNat 20 (fld (x.rd (wAlu w).a.toNat) 7 0)) ∧
      (wSeq w = 10 → (t.ctx c).pc = p + 1 ∧ (t.ctx c).st = .halt) ∧
      (wSeq w = 11 → y.lcnt = 0 → (t.ctx c).pc = p + 1) ∧
      (wSeq w = 11 → y.lcnt ≠ 0 → (t.ctx c).pc = wTarget w ∧ (t.ctx c).lcnt = y.lcnt - 1)

/-- R56 and R40 for words that wait for no data. That a stack or count change of any encoding comes before the
snapshot is the model's reading (log 42). -/
def Obligations.CommitRecordsTheSuccessor : Prop :=
  ∀ (s s1 s2 : State) (c : CtxId) (w : MicroWord) (ce : Bool) (x y : Ctx) (p : CsAddr),
    s.WordDue c w ce (wSeq w) → wSeq w < 12 → s1 = s.afterFetch c ce → x = s1.ctx c →
    p = s1.fetchAddr c.ridge x.pc →
    s1.wordParts c w x = (s2, none) → s2.ridgeLive c.ridge = true → y = s2.ctx c → y.giving = none →
    wCommit w = true →
    ∃ t sn, exec (wordCommand c w ce) s = .next t ∧ (t.ctx c).snap = some sn ∧ (t.ctx c).csn = y.csn + 1 ∧
      sn.restart = (if wSeq w = 6 then p else (t.ctx c).pc) ∧ sn.rclass = wClass w ∧ sn.regs = y.regs ∧
      sn.flags = y.flags ∧ sn.stack = (t.ctx c).stack ∧ sn.lcnt = (t.ctx c).lcnt

/-- R31, steps 1 to 3, for snapshots with room for the return address (the full stack is the model's reading, log 51).
The five cycles of step 4 are not timed (log 55). -/
def Obligations.UrgentEntryRestoresTheSnapshot : Prop :=
  ∀ (s : State) (c : CtxId) (n : Nat) (sn : Snapshot),
    s.ridgeLive c.ridge = true → (s.ctx c).st.runs = true → (s.ctx c).committing = false →
    (s.ctx c).giving ≠ some true → (s.ctx c).urgentLine = some n → (s.ctx c).snap = some sn → sn.stack.length < 16 →
    ∃ t, exec (.urgentEntry c) s = .next t ∧
      n < 16 ∧ (∀ k, k < n → (s.ctx c).urgentReady k = false) ∧ bit (t.ctx c).pend n = false ∧
      (∀ k, k ≠ n → bit (t.ctx c).pend k = bit (s.ctx c).pend k) ∧ (t.ctx c).st = .handler ∧
      (t.ctx c).pc = (s.ctx c).vector n ∧ (t.ctx c).stack = sn.restart :: sn.stack ∧ (t.ctx c).regs = sn.regs ∧
      (t.ctx c).flags = sn.flags ∧ (t.ctx c).lcnt = sn.lcnt ∧ (t.ctx c).wait = none ∧ (t.ctx c).snap = some sn ∧
      t = { s with core := t.core, regs := t.regs }

/-- R35 and R50. That START keeps the flags, the stack and LCNT is the model's reading (log 94). -/
def Obligations.RoutineEntryFormsTheSnapshot : Prop :=
  (∀ (s : State) (c : CtxId) (addr : CsAddr),
    s.ridgeLive c.ridge = true → (s.ctx c).st = .idle ∨ (s.ctx c).st = .halt ∨ (s.ctx c).st = .fault →
    ∃ t sn, exec (.contextStart c addr) s = .next t ∧ (t.ctx c).st = .run ∧ (t.ctx c).pc = csAddr addr ∧
      (t.ctx c).snap = some sn ∧ sn.restart = csAddr addr ∧ sn.regs = (s.ctx c).regs ∧ sn.flags = (s.ctx c).flags ∧
      sn.stack = (s.ctx c).stack ∧ sn.lcnt = (s.ctx c).lcnt ∧ (t.ctx c).regs = sn.regs ∧ (t.ctx c).flags = sn.flags ∧
      (t.ctx c).stack = sn.stack ∧ (t.ctx c).lcnt = sn.lcnt ∧ t = { s with core := t.core }) ∧
  (∀ (s : State) (c : CtxId) (sn : Snapshot),
    s.ridgeLive c.ridge = true → (s.ctx c).st = .halt ∨ (s.ctx c).st = .fault → (s.ctx c).snap = some sn →
    ∃ t, exec (.contextResume c) s = .next t ∧ (t.ctx c).st = .run ∧ (t.ctx c).pc = sn.restart ∧
      (t.ctx c).snap = some sn ∧ (t.ctx c).regs = sn.regs ∧ (t.ctx c).flags = sn.flags ∧ (t.ctx c).stack = sn.stack ∧
      (t.ctx c).lcnt = sn.lcnt ∧ t = { s with core := t.core }) ∧
  (∀ (s : State) (c : CtxId) (addr : CsAddr),
    s.ridgeLive c.ridge = true → (s.ctx c).st.runs = true ∨ (s.ctx c).st = .adopt →
    exec (.contextStart c addr) s = .next (s.spuInt c.ridge 2) ∧
      exec (.contextResume c) s = .next (s.spuInt c.ridge 2) ∧ exec (.contextRelease c) s = .next (s.spuInt c.ridge 2))

/-- R69, with the entry that an accepted POST appends. Which reason a full queue of slot b gives in wedge-servo mode
is the model's reading (log 53). -/
def Obligations.PostAndFlushOfAnotherStreamAreRefused : Prop :=
  (∀ (s : State) (c : CtxId) (t : Quad) (i : Instr),
    i = .post c t ∨ i = .aeqFlush c t → s.ridgeLive c.ridge = true → s.fabricOn = true → s.owns c.ridge t = false →
    ∃ u, exec i s = .next u ∧ u.tile = s.tile ∧ bit (u.ctx c).pend 2 = true ∧ fld (u.ctx c).perr 3 0 = 2) ∧
  (∀ (s : State) (c : CtxId) (t : Quad),
    s.ridgeLive c.ridge = true → s.fabricOn = true → s.owns c.ridge t = true → 256 ≤ (s.tl t).aeq.length →
    ∃ u, exec (.post c t) s = .next u ∧ u.tile = s.tile ∧ bit (u.ctx c).pend 2 = true ∧
      fld (u.ctx c).perr 3 0 = if s.wsc = true ∧ t.slot = .b then 2 else 3) ∧
  (∀ (s : State) (c : CtxId) (t : Quad),
    s.ridgeLive c.ridge = true → s.fabricOn = true → s.owns c.ridge t = true → ¬ (s.wsc = true ∧ t.slot = .b) →
    (s.tl t).aeq.length < 256 →
    ∃ u e, exec (.post c t) s = .next u ∧ (u.tl t).aeq = (s.tl t).aeq ++ [e] ∧ e.stamp = (s.ctx c).stagedAt 0x20 ∧
      e.action = ((s.ctx c).stagedAt 0x21).setWidth 32 ∧ (∀ q, q ≠ t → u.tl q = s.tl q) ∧ u = { s with tile := u.tile })

/-- R91, for a FLUSH by the stream's owner. -/
def Obligations.FlushEmptiesTheQueue : Prop :=
  ∀ (s : State) (c : CtxId) (t : Quad),
    s.ridgeLive c.ridge = true → s.fabricOn = true → s.owns c.ridge t = true →
    ∃ u, exec (.aeqFlush c t) s = .next u ∧ (u.tl t).aeq = [] ∧ (u.tl t).wg = false ∧ (u.tl t).rg = false ∧
      (u.tl t).ag = false ∧ (u.tl t).win = none ∧ (u.tl t).swapPend = (s.tl t).swapPend ∧
      (u.tl t).active = (s.tl t).active ∧ (∀ q, q ≠ t → u.tl q = s.tl q)

/-- R88. That the entry is discarded whatever its stamp is the model's reading (log 54). -/
def Obligations.UnlistedActionIsDiscarded : Prop :=
  ∀ (s : State) (t : Quad) (now : DWord) (e : AeqEntry) (rest : List AeqEntry),
    (s.tl t).aeq = e :: rest → 13 ≤ fld e.action 31 24 → s.canReach (s.angSide t) now = true →
    swf regInit s.regs = true →
    ∃ u, exec (.aeqIllegalAction t now) s = .next u ∧
      u.tl t = { s.tl t with aeq := rest, illact := true } ∧ (∀ q, q ≠ t → u.tl q = s.tl q) ∧
      u.regB (rk (s.angSide t) R_ANG_INTSTAT) 5 = true ∧
      (∀ k, k ≠ rk (s.angSide t) R_ANG_INTSTAT → u.reg k = s.reg k) ∧
      u = { s with regs := u.regs, ang := u.ang, tile := u.tile, core := u.core }

/-- R441. Which domain a block depends on is the model's reading (log 9). -/
def Obligations.PoweredDownBlocksRefuseAccess : Prop :=
  (∀ (s : State) (d : Nat), s.domOn d = true ↔ (s.dom d).st = .on) ∧
  (∀ (s : State) (x : Accessor) (addr data : Word),
    s.ridgeLive x.ridge = true → s.placeUp (place x.ridge addr) = false →
    exec (.registerWrite x addr data) s = .next (s.refuse x 5) ∧ s.busRead x addr = (s.refuse x 5, none)) ∧
  (∀ (s : State) (c : CtxId) (x : Accessor), x.ctx = some c →
    s.refuse x 5 =
      s.modCtx c (fun y => { y with pend := setBit y.pend 2, perr := BitVec.ofNat 64 (x.port * 2 ^ 32 + 5) })) ∧
  (∀ (s : State) (x : Accessor), x.ctx = none → s.refuse x 5 = s) ∧
  (∀ (s : State) (r : Side),
    s.blockUp (rk r R_SPU_ID) = true ∧ s.blockUp (rk r R_CST_ID) = true ∧ s.blockUp (rk r R_DEC_ID) = true ∧
      s.blockUp (rk r R_MEM_ID) = true ∧ s.blockUp (rk r R_CRN_ID) = true ∧ s.blockUp R_RCP_ID = true)

/-- R6 with Table 0.2, and R7, for registers whose write has no effect beyond their stored bits. -/
def Obligations.StoredRegistersFollowTheirAccessTypes : Prop :=
  ∀ (s : State) (x : Accessor) (addr data : Word) (k : Nat) (row : RegRow),
    s.WF → s.BusReaches x addr (.reg k) → s.writeRefused x k data = none → s.writeSpecial x k data = none →
    regRow k = some row →
    ∃ t, exec (.registerWrite x addr data) s = .next t ∧
      (∀ i, i < 32 →
        t.regB k i =
          ((((if row.rw.testBit i || (row.rwl.testBit i && !s.lockOf k) then bit data i else s.regB k i) &&
            !(row.w1c.testBit i && bit data i)) || (row.w1s.testBit i && bit data i)))) ∧
      (∀ j, j ≠ k → t.reg j = s.reg j) ∧ t = { s with regs := t.regs }

/-- R443. The register store counter of free values is the one field that a read advances (log 2). -/
def Obligations.PeerWindowAnswersByThePeerState : Prop :=
  (∀ (s : State) (x : Accessor) (addr data : Word),
    s.ridgeLive x.ridge = true → 0x1000000 ≤ addr.toNat → addr.toNat < 0x2000000 →
    s.ridgeSt x.ridge.peer = .reset ∨ s.ridgeSt x.ridge.peer = .selftest →
    exec (.registerWrite x addr data) s = .next (s.refuse x 5) ∧ s.busRead x addr = (s.refuse x 5, none)) ∧
  (∀ (s : State) (x : Accessor) (addr data : Word),
    s.ridgeLive x.ridge = true → 0x1000000 ≤ addr.toNat → addr.toNat < 0x2000000 →
    s.placeUp (place x.ridge addr) = true →
    s.ridgeSt x.ridge.peer = .fenced ∨ s.ridgeSt x.ridge.peer = .standby ∨ s.ridgeSt x.ridge.peer = .quiesced →
    s.busRead x addr = (s.freeNext, some (s.peekAt x.ridge (place x.ridge addr))) ∧
      exec (.registerWrite x addr data) s = .next (s.refuse x 5)) ∧
  (∀ (s : State) (r : Side) (k : Nat),
    s.peekAt r (.peerReg k) =
      if k % 0x1000000 = R_ANG_AC_LO then (s.an r.peer).acLatch.setWidth 32 else s.peekReg r k)

/-- R366 to R368 for data outside the mirrored region: which bytes change, and that no other does. -/
def Obligations.DramWriteStoresItsBytesAlone : Prop :=
  (∀ (s : State) (x : Side) (a : Nat) (bs : List Byte),
    s.WF → s.mirrored a = false →
    (∀ i, i < bs.length → ((s.dramWrite x a bs).dram.get x).byte (a + i) = bs.getD i 0) ∧
    (∀ b, b < a ∨ a + bs.length ≤ b → ((s.dramWrite x a bs).dram.get x).byte b = (s.dram.get x).byte b) ∧
    (s.dramWrite x a bs).dram.get x.peer = s.dram.get x.peer ∧
    s.dramWrite x a bs = { s with dram := (s.dramWrite x a bs).dram }) ∧
  (∀ (s : State) (x : Side) (addr : BitVec 48) (data : List Byte) (es : List Flips),
    s.WF → data.length ≠ 0 → addr.toNat % 64 + data.length ≤ 64 → s.dramOk x addr.toNat data.length = true →
    (s.dramLine x (addr.toNat / 64 * 64) es false).mirrored addr.toNat = false →
    ∃ t, exec (.dramPartialWrite x addr data es) s = .next t ∧
      (∀ i, i < data.length → (t.dram.get x).byte (addr.toNat + i) = data.getD i 0) ∧
      (∀ b, b < addr.toNat ∨ addr.toNat + data.length ≤ b →
        (t.dram.get x).byte b = ((s.dramLine x (addr.toNat / 64 * 64) es false).dram.get x).byte b) ∧
      (∀ b, b / 64 ≠ addr.toNat / 64 → (t.dram.get x).byte b = (s.dram.get x).byte b) ∧
      t.dram.get x.peer = s.dram.get x.peer ∧ t.core = s.core ∧ t.tile = s.tile)

/-- Chapter 17 on the mirrored region (log 59). -/
def Obligations.MirroredDramWriteReachesBothChannels : Prop :=
  ∀ (s : State) (x ch : Side) (a : Nat) (bs : List Byte),
    s.WF → s.mirrored a = true →
    (s.dramOk ch a bs.length = true →
      ∀ i, i < bs.length → ((s.dramWrite x a bs).dram.get ch).byte (a + i) = bs.getD i 0) ∧
    (s.dramOk ch a bs.length = false → (s.dramWrite x a bs).dram.get ch = s.dram.get ch) ∧
    (∀ b, b < a ∨ a + bs.length ≤ b → ((s.dramWrite x a bs).dram.get ch).byte b = (s.dram.get ch).byte b)

/-- R380. -/
def Obligations.ChainEventsComeFromRomWords : Prop :=
  (∀ (s : State) (c : CtxId),
    s.ridgeLive c.ridge = true → 0x0100 ≤ fld ((s.ctx c).stagedAt 0xD5) 15 0 →
    fld ((s.ctx c).stagedAt 0xD5) 15 0 ≤ 0x01FF →
    ∃ t, exec (.eventPost c false) s = .next t ∧ t.evr.intake = s.evr.intake ∧ bit (t.ctx c).pend 2 = true ∧
      fld (t.ctx c).perr 39 32 = 0xD9 ∧ fld (t.ctx c).perr 3 0 = 5) ∧
  (∀ (s : State) (c : CtxId),
    s.ridgeLive c.ridge = true → s.evrUp = true → s.regB R_EVR_CTL 0 = true → s.evr.groupOf c = none →
    0x0100 ≤ fld ((s.ctx c).stagedAt 0xD5) 15 0 → fld ((s.ctx c).stagedAt 0xD5) 15 0 ≤ 0x01FF →
    fld ((s.ctx c).stagedAt 0xD5) 15 0 ≠ 0x01F0 → bit ((s.ctx c).stagedAt 0xD5) 19 = false →
    s.evr.used + fld ((s.ctx c).stagedAt 0xD5) 18 16 + 1 ≤ 64 →
    ∃ t g r, exec (.eventPost c true) s = .next t ∧ t.evr.intake = s.evr.intake ++ [g] ∧ g.recs = [r] ∧
      r.code.toNat = fld ((s.ctx c).stagedAt 0xD5) 15 0 ∧ g.owner = some c ∧ (t.ctx c) = (s.ctx c))

/-- R377's calendar value; the record that it writes is in the completion statement of the recorder's commands. -/
def Obligations.CalendarWriteSetsTheRunningCalendar : Prop :=
  ∀ (s : State) (data : Word),
    s.evrUp = true →
    ∃ t, exec (.calendarSet data) s = .next t ∧
      t.evr.cal = some (BitVec.ofNat 64 (data.toNat % 2 ^ 16 * 2 ^ 32 + s.evr.calStaged.toNat)) ∧
      t.core = s.core ∧ t.tile = s.tile ∧ t.dram = s.dram

/-- R347 for P_LDG_REL. -/
def Obligations.CreditsAreReleasedByTheirHolderAlone : Prop :=
  (∀ (s : State) (c : CtxId) (data : DWord),
    s.ridgeLive c.ridge = true → s.rlgUp = true →
    (∀ l ∈ s.rlg.leases, l.num ≠ fld data 47 32) →
    exec (.creditRelease c data) s = .next (s.refuseCtx c 0xC2 5)) ∧
  (∀ (s : State) (c : CtxId) (data : DWord) (l : Lease),
    s.ridgeLive c.ridge = true → s.rlgUp = true → s.rlg.leases.find? (fun k => k.num == fld data 47 32) = some l →
    l.owner ≠ .ctx c ∨ l.amount < fld data 31 0 ∨ l.isBuffer = true →
    exec (.creditRelease c data) s = .next (s.refuseCtx c 0xC2 5)) ∧
  (∀ (s : State) (c : CtxId) (data : DWord) (l : Lease),
    s.ridgeLive c.ridge = true → s.rlgUp = true → s.rlg.leases.find? (fun k => k.num == fld data 47 32) = some l →
    l.owner = .ctx c → fld data 31 0 ≤ l.amount → l.isBuffer = false →
    ∃ t, exec (.creditRelease c data) s = .next t ∧
      (l.amount = fld data 31 0 → ∀ k ∈ t.rlg.leases, k.num ≠ l.num) ∧
      (fld data 31 0 < l.amount →
        t.rlg.leases.find? (fun k => k.num == l.num) = some { l with amount := l.amount - fld data 31 0 }) ∧
      t = { s with rlg := t.rlg })

/-- R250, for each of the table's rows. The layout of ZTB_LASTREF is the model's reading (log 75). -/
def Obligations.RefusedZoneUpdateChangesNoEntry : Prop :=
  ∀ (s : State) (c : CtxId) (w v : DWord) (i : Instr),
    (i = .ztbUpdateRefused c w ∧ v = w ∧ (fld w 63 60 = 0 ∨ 7 < fld w 63 60)) ∨ (i = .ztbState c w ∧ v = ztbOp 1 w) ∨
      (i = .ztbWp c w ∧ v = ztbOp 2 w) ∨ (i = .ztbHwp c w ∧ v = ztbOp 3 w) ∨ (i = .ztbStgadd c w ∧ v = ztbOp 4 w) ∨
      (i = .ztbReset c w ∧ v = ztbOp 5 w) ∨ (i = .ztbDegset c w ∧ v = ztbOp 6 w) ∨ (i = .ztbFree c w ∧ v = ztbOp 7 w) →
    s.ridgeLive c.ridge = true → s.ztbUp = true → swf regInit s.regs = true →
    ztbApply (s.zent (fld v 16 0)) v = none →
    ∃ t, exec i s = .next t ∧ t.ztb.entries = s.ztb.entries ∧
      t.ztb.lastRef = BitVec.ofNat 32 (fld v 63 60 * 2 ^ 28 + fld v 16 0) ∧ t.regB R_ZTB_INTSTAT 1 = true ∧
      bit (t.ctx c).pend 2 = true ∧ fld (t.ctx c).perr 39 32 = 0xC9 ∧ fld (t.ctx c).perr 3 0 = 5 ∧
      t = { s with core := t.core, regs := t.regs, ztb := { s.ztb with lastRef := t.ztb.lastRef } }

/-- R353 and the takeover of chapter 16. -/
def Obligations.FenceTakesTheRidgeOutOfService : Prop :=
  ∀ (s : State) (r : Side) (cause : Nat),
    s.fenceHolds r cause = true → s.ridgeLive r = true →
    ∃ t, exec (.fence r cause) s = .next t ∧ t.ridgeSt r = .fenced ∧ t.ridgeSt r.peer = s.ridgeSt r.peer ∧
      t.ridgeLive r = false ∧ (cause = 3 → t.rlg.sfence = some r) ∧
      (s.ridgeSt r = .inService → s.ridgeSt r.peer = .inService → t.rlg.tkDue = some r)

/-- R311. Which queue is served next is the operand of the command (log 80). -/
def Obligations.FetchStampsTheNextAdmissionNumber : Prop :=
  ∀ (s : State) (n q : Nat) (sqe : Sqe) (x : Sq),
    (s.ctrl n).sqOf q = some x → s.fetchOn q sqe.opc = true → (s.ctrl n).en = true → (s.ctrl n).rdy = true →
    (s.ctrl n).mayServe x = true → s.inTurn (s.ctrl n) x = true → s.asnStop = false →
    ∃ t k, exec (.commandFetch n q sqe) s = .next t ∧ t.nve.asn = s.nve.asn + 1 ∧ t.nve.cmds = s.nve.cmds ++ [k] ∧
      k.asn = s.nve.asn ∧ k.sqe = sqe ∧ k.ctrl = n ∧ t.dram = s.dram ∧ t.tile = s.tile ∧
      (q ≠ 0 → t.core = s.core)

/-- R406 for the outputs whose state in reset does not depend on what went before (Ball.resetLevel). -/
def Obligations.ResetHoldsTheOutputs : Prop :=
  ∀ (s : State) (b : Ball) (l : Level), b.resetLevel = some l →
    (s.fullReset false).ball b = l ∧ (∀ groups, (s.powerOn groups).ball b = l) ∧
      (b ≠ .gpio 0 → (s.fullReset true).ball b = l)

/-- R106: what the write path scrambles the read path recovers with the same setting. The LFSR's arrangement is the
model's (log 118). -/
def Obligations.ScramblingTwiceGivesTheBitsBack : Prop :=
  ∀ (seed : Option (BitVec 16)) (l : List Bool), scramble seed (scramble seed l) = l

/-- R119 to R121 and R251: the tag that the write path makes passes the read path's check for that reference and write
generation, and for no other. -/
def Obligations.AWrittenMediaTagPassesItsCheck : Prop :=
  ∀ (body : List Byte) (ref : DWord) (wgen : Word),
    body.length = 4112 → fld ref 63 44 = 0 →
    (withTag body ref wgen).length = 4128 ∧ (withTag body ref wgen).take 4112 = body ∧
      tagPass (some ref) wgen.toNat (withTag body ref wgen) = true ∧
      (∀ (other : DWord) (g : Nat), other ≠ ref ∨ g ≠ wgen.toNat → tagPass (some other) g (withTag body ref wgen) = false)

/-- When the commands of this family complete, and the state after each: controller enable, reset and shutdown, and
the NVMe Admin commands. Outside these hypotheses a command is refused by the rules, or its event does not occur (log
1). Model choices in it: log 7, 8, 19, 22, 88, 144, 147, 149, 153. -/
def Obligations.AdminCommandsComplete : Prop :=
  (∀ (s : State) (n : Nat) (asqs : Nat) (acqs : Nat) (wrr : Bool),
    s.nveUp = true → s.fnOn n = true → (s.ctrl n).en = false →
    exec (.controllerEnable n asqs acqs wrr) s = .next ((s.vfUse (portOf n) (n % 64)).modCtrl n (fun c =>
      { c with
          en := true,
          rdy := true,
          shst := 0,
          wrr := wrr,
          sqs := [⟨0, clampN 2 4096 asqs, 0, 0, 0, 0⟩],
          cqs := [⟨0, clampN 2 4096 acqs, 0, []⟩] }))) ∧
  (∀ (s : State) (n : Nat),
    (s.ctrl n).en = true →
    exec (.controllerReset n) s = .next ((s.ctrlReset n).setStat R_RST_CAUSE 9)) ∧
  (∀ (s : State) (n : Nat),
    (s.ctrl n).en = true → s.inFlight n = false → s.lastEnabled n = true → s.win.pieces = [] →
    exec (.normalShutdown n) s = .next (s.libCompact.modCtrl n (fun c => { c with shst := 2 }))) ∧
  (∀ (s : State) (n : Nat),
    (s.ctrl n).en = true →
    exec (.abruptShutdown n) s = .next (s.modCtrl n (fun c => { c with shst := 2 }))) ∧
  (∀ (s : State) (n : Nat) (c : Cmd),
    s.AdminDue n 0x00 c →
    exec (.deleteIoSq n) s = .next (s.deleteSq c)) ∧
  (∀ (s : State) (n : Nat) (c : Cmd),
    s.AdminDue n 0x01 c →
    exec (.createIoSq n) s = .next (s.createSq c)) ∧
  (∀ (s : State) (n : Nat) (c : Cmd),
    s.AdminDue n 0x04 c →
    exec (.deleteIoCq n) s = .next (s.deleteCq c)) ∧
  (∀ (s : State) (n : Nat) (c : Cmd),
    s.AdminDue n 0x05 c →
    exec (.createIoCq n) s = .next (s.createCq c)) ∧
  (∀ (s : State) (n : Nat) (c : Cmd) (s1 : State) (s2 : State),
    s.AdminDue n 0x02 c → logListed (fld c.sqe.c10 7 0) = true → (s.rcp.limited = false ∨ fld c.sqe.c10 7 0 = 0xC0 ∨
    fld c.sqe.c10 7 0 = 0xC3) → s1 = (if bit c.sqe.c10 15 then s else s.modCtrl c.ctrl (fun k => k.unmask (fld
    c.sqe.c10 7 0))) → s2 = (if fld c.sqe.c10 7 0 = 0xC0 then s1.recorderPage c.logOff c.logLen else s1) →
    exec (.getLogPage n) s = .next ((s2.dataBack c.logLen (fun k => s2.logByte (fld c.sqe.c10 7 0) (c.logOff +
      k))).completeOk c)) ∧
  (∀ (s : State) (n : Nat) (c : Cmd),
    s.AdminDue n 0x06 c → cnsListed (fld c.sqe.c10 7 0) = true →
    exec (.identify n) s = .next ((s.dataBack 4096 (idByte (fld c.sqe.c10 7 0) (fld c.sqe.c11 31 24))).completeOk c)) ∧
  (∀ (s : State) (n : Nat) (c : Cmd),
    s.AdminDue n 0x08 c →
    exec (.abort n) s = .next (s.abort c)) ∧
  (∀ (s : State) (n : Nat) (hid : BitVec 128) (ts : BitVec 48) (c : Cmd),
    s.AdminDue n 0x09 c →
    exec (.setFeatures n hid ts) s = .next (s.setFeature c hid ts)) ∧
  (∀ (s : State) (n : Nat) (c : Cmd),
    s.AdminDue n 0x0A c → featureListed (fld c.sqe.c10 7 0) = true →
    exec (.getFeatures n) s = .next (s.complete c stSuccess ((s.ctrl c.ctrl).selected (fld c.sqe.c10 7 0) (fld
      c.sqe.c10 10 8)).toNat 0)) ∧
  (∀ (s : State) (n : Nat) (c : Cmd),
    s.AdminDue n 0x0C c → c.checked = false → (s.ctrl c.ctrl).aers.length < 16 →
    exec (.asynchronousEventRequest n) s = .next ((s.modCmd n (fun k =>
      { k with checked := true, ready := false })).modCtrl c.ctrl (fun k => { k with aers := k.aers ++ [n] }))) ∧
  (∀ (s : State) (n : Nat) (k : Nat) (ks : List Nat) (a : Nat) (as_ : List Nat) (c : Cmd),
    (s.ctrl n).events = k :: ks → (s.ctrl n).aers = a :: as_ → s.cmd a = some c → s.cplRoom c = true →
    exec (.asyncEventPost n) s = .next ((s.modCtrl n (fun x =>
      { x with events := ks, aers := as_, masked := x.masked ++ [k] })).complete c stSuccess (7 + (0xC0 + k) * 2 ^ 8 +
      eventPage k * 2 ^ 16) 0)) ∧
  (∀ (s : State) (n : Nat) (zoned : Bool) (size : Nat) (lbaf : Nat) (c : Cmd),
    s.AdminDue n 0x0D c →
    exec (.namespaceManagement n zoned size lbaf) s = .next (s.nsManage c zoned size lbaf)) ∧
  (∀ (s : State) (n : Nat) (cs : List Nat) (c : Cmd),
    s.AdminDue n 0x15 c →
    exec (.namespaceAttachment n cs) s = .next (s.nsAttach c cs)) ∧
  (∀ (s : State) (n : Nat) (ok : Bool) (c : Cmd),
    s.AdminDue n 0x10 c →
    exec (.firmwareCommit n ok) s = .next (s.fwCommit c ok)) ∧
  (∀ (s : State) (n : Nat) (data : List Byte) (c : Cmd),
    s.AdminDue n 0x11 c →
    exec (.firmwareImageDownload n data) s = .next (s.fwDownload c data)) ∧
  (∀ (s : State) (n : Nat) (c : Cmd),
    s.AdminDue n 0x14 c →
    exec (.deviceSelfTest n) s = .next (s.selfTestCmd c)) ∧
  (∀ (s : State) (n : Nat) (c : Cmd),
    s.AdminDue n 0x1C c →
    exec (.virtualizationManagement n) s = .next (s.virtMgmt c)) ∧
  (∀ (s : State) (n : Nat) (c : Cmd),
    s.AdminDue n 0x1D c →
    exec (.nvmeMiSend n) s = .next (s.completeOk c)) ∧
  (∀ (s : State) (n : Nat) (c : Cmd),
    s.AdminDue n 0x1E c →
    exec (.nvmeMiReceive n) s = .next (s.completeOk c)) ∧
  (∀ (s : State) (n : Nat) (c : Cmd),
    s.AdminDue n 0x81 c →
    exec (.securitySend n) s = .next (s.security c)) ∧
  (∀ (s : State) (n : Nat) (c : Cmd),
    s.AdminDue n 0x82 c →
    exec (.securityReceive n) s = .next (s.security c)) ∧
  (∀ (s : State) (n : Nat) (c : Cmd),
    s.AdminDue n 0x80 c →
    exec (.formatNvm n) s = .next (s.format c)) ∧
  (∀ (s : State) (n : Nat) (c : Cmd),
    s.AdminDue n 0x84 c →
    exec (.sanitize n) s = .next (s.sanitize c)) ∧
  (∀ (s : State) (n : Nat) (c : Cmd),
    s.cmd n = some c → (if c.sq = 0 then adminOpc c.sqe.opc.toNat else ioOpc c.sqe.opc.toNat) = false →
    exec (.invalidOpcode n) s = .next (s.complete c (stat 0 0x01) 0 0))

/-- When the commands of this family complete, and the state after each: doorbells, fetch, the I/O commands,
reservations, the hedge and the host command queue. Outside these hypotheses a command is refused by the rules, or its
event does not occur (log 1). Model choices in it: log 7, 8, 18, 19, 80, 87, 110, 142, 144, 146. -/
def Obligations.AdmissionAndIoCommandsComplete : Prop :=
  (∀ (s : State) (n : Nat) (q : Nat) (tail : Nat) (x : Sq),
    s.nveUp = true → (s.ctrl n).sqOf q = some x → tail < x.size →
    exec (.sqTailDoorbell n q tail) s = .next ((s.traffic (portOf n)).modCtrl n (fun c => c.modSq q (fun y =>
      { y with tail := tail })))) ∧
  (∀ (s : State) (n : Nat) (q : Nat) (upto : Nat) (x : Cq) (s1 : State),
    s.nveUp = true → (s.ctrl n).cqOf q = some x → upto < x.size → (upto + x.size - x.head) % x.size ≤ x.entries.length
    → s1 = (s.traffic (portOf n)).modCtrl n (fun c => c.modCq q (fun y =>
    { y with head := upto, entries := y.entries.drop ((upto + x.size - x.head) % x.size) })) →
    exec (.cqHeadDoorbell n q upto) s = .next (s1.drainStage s1.nve.staging.length n q)) ∧
  (∀ (s : State) (n : Nat) (q : Nat) (sqe : Sqe) (x : Sq),
    (s.ctrl n).sqOf q = some x → s.fetchOn q sqe.opc = true → (s.ctrl n).en = true → (s.ctrl n).rdy = true → (s.ctrl
    n).mayServe x = true → s.inTurn (s.ctrl n) x = true → s.asnStop = false →
    exec (.commandFetch n q sqe) s = .next (s.fetch n x sqe)) ∧
  (∀ (s : State) (x : Accessor) (data : Word),
    s.Granted x R_NVE_ID true →
    exec (.asnWrite x data) s = .next (s.asnWrite data)) ∧
  (∀ (s : State) (x : Accessor) (data : Word),
    s.Granted x R_NVE_ID true →
    exec (.asnLimitWrite x data) s = .next (s.asnLimit data)) ∧
  (∀ (s : State) (x : Accessor) (data : Word),
    s.Granted x R_NVE_ID true →
    exec (.queueAllocationWrite x data) s = .next (s.qallocWrite data)) ∧
  (∀ (s : State) (x : Accessor) (data : Word),
    s.Granted x R_NVE_ID true →
    exec (.namespaceConfigWrite x data) s = .next (s.nscfgWrite data)) ∧
  (∀ (s : State) (n : Nat) (din : DataIn) (data : List (List Byte)) (c : Cmd) (s1 : State),
    s.IoDue n 0x01 c → s.checkSteps c = (s1, none) →
    exec (.write n din data) s = .next (s1.write c true din data)) ∧
  (∀ (s : State) (n : Nat) (c : Cmd) (s1 : State),
    s.IoDue n 0x08 c → s.checkSteps c = (s1, none) →
    exec (.writeZeroes n) s = .next (s1.write c false .good (List.replicate c.nlb (c.zeroBlock (s1.lbaf c.ns)
      (s1.piType c.ns))))) ∧
  (∀ (s : State) (n : Nat) (din : DataIn) (data : List (List Byte)) (c : Cmd) (s1 : State),
    s.IoDue n 0x7D c → s.checkSteps c = (s1, none) →
    exec (.zoneAppend n din data) s = .next (s1.append c din data)) ∧
  (∀ (s : State) (n : Nat) (tries : List (List ReadTry)) (c : Cmd),
    s.IoChecked n 0x02 c → c.released = true → tries.length = c.blocks → c.readOk = false → c.abortReq = false →
    exec (.read n tries) s = .next (s.readMedia c true tries)) ∧
  (∀ (s : State) (n : Nat) (tries : List (List ReadTry)) (c : Cmd) (s1 : State),
    s.IoChecked n 0x02 c → c.released = false → s.entryClear c = true → s1 = s.releaseRead c → (s1.cmd n).all (fun k
    => tries.length != k.blocks) = true →
    exec (.read n tries) s = .next (s1)) ∧
  (∀ (s : State) (n : Nat) (tries : List (List ReadTry)) (c : Cmd),
    s.IoChecked n 0x0C c → c.released = true → tries.length = c.blocks → c.readOk = false → c.abortReq = false →
    exec (.verify n tries) s = .next (s.readMedia c false tries)) ∧
  (∀ (s : State) (n : Nat) (tries : List (List ReadTry)) (c : Cmd) (s1 : State),
    s.IoChecked n 0x0C c → c.released = false → s.entryClear c = true → s1 = s.releaseRead c → (s1.cmd n).all (fun k
    => tries.length != k.blocks) = true →
    exec (.verify n tries) s = .next (s1)) ∧
  (∀ (s : State) (n : Nat) (ranges : List (Nat × Nat)) (c : Cmd) (s1 : State),
    s.IoDue n 0x09 c → s.checkSteps c = (s1, none) →
    exec (.datasetManagement n ranges) s = .next (s1.dsm c ranges)) ∧
  (∀ (s : State) (n : Nat) (c : Cmd),
    s.IoChecked n 0x00 c → s.flushDone c = true →
    exec (.flush n) s = .next (s.completeOk c)) ∧
  (∀ (s : State) (n : Nat) (c : Cmd) (d : Cmd) (s1 : State),
    s.IoChecked n 0x79 c → c.abortReq = false → c.spans = [] → s.entryClear c = true → s.zoneOp c = (s1, true) →
    s1.cmd n = some d →
    exec (.zoneManagementSend n) s = .next (s1.completeOk d)) ∧
  (∀ (s : State) (n : Nat) (c : Cmd) (s1 : State),
    s.IoDue n 0x7A c → s.checkSteps c = (s1, none) → s1.nsZoned c.ns = true → c.slbaF ≤ s1.nsSize c.ns →
    exec (.zoneManagementReceive n) s = .next (s1.completeOk c)) ∧
  (∀ (s : State) (n : Nat) (nrkey : DWord) (crkey : DWord) (c : Cmd) (s1 : State),
    s.IoDue n 0x0D c → s.checkSteps c = (s1, none) →
    exec (.reservationRegister n nrkey crkey) s = .next (s1.resvRegister c nrkey crkey)) ∧
  (∀ (s : State) (n : Nat) (c : Cmd) (s1 : State),
    s.IoDue n 0x0E c → s.checkSteps c = (s1, none) →
    exec (.reservationReport n) s = .next (s1.completeOk c)) ∧
  (∀ (s : State) (n : Nat) (crkey : DWord) (prkey : DWord) (c : Cmd) (r : Resv),
    s.IoDue n 0x11 c → s.checkSteps c = (s, none) → r = Resv.ofNs (s.ns c.ns) → r.keyOf c.host = some crkey → 1 ≤ fld
    c.sqe.c10 15 8 → fld c.sqe.c10 15 8 ≤ 6 → fld c.sqe.c10 2 0 = 0 → (r.rtype = 0 ∨ (r.holder = some c.host ∧ r.rtype
    = fld c.sqe.c10 15 8)) →
    exec (.reservationAcquire n crkey prkey) s = .next ((s.modResv c.ns (fun x =>
      { x with rtype := fld c.sqe.c10 15 8, holder := some c.host })).completeOk c)) ∧
  (∀ (s : State) (n : Nat) (crkey : DWord) (prkey : DWord) (c : Cmd) (r : Resv) (s1 : State),
    s.IoDue n 0x11 c → s.checkSteps c = (s, none) → r = Resv.ofNs (s.ns c.ns) → r.keyOf c.host = some crkey → 1 ≤ fld
    c.sqe.c10 15 8 → fld c.sqe.c10 15 8 ≤ 6 → s1 = s.modResv c.ns (fun x => x.preempt (r.others prkey c.host) prkey
    (fld c.sqe.c10 15 8) c.host) → (fld c.sqe.c10 2 0 = 1 ∨ (fld c.sqe.c10 2 0 = 2 ∧ s1.preempted c (r.others prkey
    c.host) = [])) →
    exec (.reservationAcquire n crkey prkey) s = .next (s1.completeOk c)) ∧
  (∀ (s : State) (n : Nat) (crkey : DWord) (prkey : DWord) (c : Cmd) (r : Resv) (s1 : State),
    s.IoDue n 0x11 c → s.checkSteps c = (s, none) → r = Resv.ofNs (s.ns c.ns) → r.keyOf c.host = some crkey → 1 ≤ fld
    c.sqe.c10 15 8 → fld c.sqe.c10 15 8 ≤ 6 → s1 = s.modResv c.ns (fun x => x.preempt (r.others prkey c.host) prkey
    (fld c.sqe.c10 15 8) c.host) → fld c.sqe.c10 2 0 = 2 → s1.preempted c (r.others prkey c.host) ≠ [] →
    exec (.reservationAcquire n crkey prkey) s = .next (s1.abortAll c (s1.preempted c (r.others prkey c.host)))) ∧
  (∀ (s : State) (n : Nat) (crkey : DWord) (prkey : DWord) (c : Cmd),
    s.IoChecked n 0x11 c → c.waitsFor = [] →
    exec (.reservationAcquire n crkey prkey) s = .next (s.completeOk c)) ∧
  (∀ (s : State) (n : Nat) (crkey : DWord) (c : Cmd) (s1 : State),
    s.IoDue n 0x15 c → s.checkSteps c = (s1, none) →
    exec (.reservationRelease n crkey) s = .next (s1.resvRelease c crkey)) ∧
  (∀ (s : State) (n : Nat) (c : Cmd),
    s.cmd n = some c → c.hedgeWait = true →
    exec (.hedgeEntryGrant n) s = .next (s.takeHent n (if c.sqe.opc = 0x09 then .dsm else if c.sqe.opc = 0x79 then
      .zone else if c.sqe.opc = 0x02 ∨ c.sqe.opc = 0x0C then .read else .write) c.ns c.slba c.blocks c.asn)) ∧
  (∀ (s : State) (c : CtxId) (reg : BitVec 6),
    s.ridgeLive c.ridge = true → s.hdgUp = true →
    exec (.hedgeLookup c reg) s = .next ((s.hedgeRead c).1.modCtx c (fun x => x.wr reg.toNat (s.hedgeRead c).2))) ∧
  (∀ (s : State) (c : CtxId) (data : DWord),
    s.ridgeLive c.ridge = true → s.hdgUp = true →
    exec (.hedgeRemove c data) s = .next (s.hedgeRemove c data)) ∧
  (∀ (s : State) (e : BitVec 14) (x : HEntry),
    s.hent e.toNat = some x → x.committed = true →
    exec (.hedgeUnblock e) s = .next (s.hdgWake e.toNat)) ∧
  (∀ (s : State) (n : Nat) (cause : Nat) (c : Cmd),
    s.IoChecked n c.sqe.opc c → c.committed = false → s.nsZoned c.ns = true → (c.sqe.opc = 0x01 ∨ c.sqe.opc = 0x08 ∨
    c.sqe.opc = 0x7D) → cause = 0 → c.abortReq = true →
    exec (.zoneWriteCascade n cause) s = .next (s.endUncommitted c c.abortStat)) ∧
  (∀ (s : State) (n : Nat) (cause : Nat) (c : Cmd),
    s.IoChecked n c.sqe.opc c → c.committed = false → s.nsZoned c.ns = true → (c.sqe.opc = 0x01 ∨ c.sqe.opc = 0x08 ∨
    c.sqe.opc = 0x7D) → 1 ≤ cause → cause ≤ 4 →
    exec (.zoneWriteCascade n cause) s = .next (s.endUncommitted c (if cause = 4 then stat 0 0x04 else piStatus (cause
      - 1)))) ∧
  (∀ (s : State) (c : CtxId) (reg : BitVec 6),
    s.ridgeLive c.ridge = true → s.nveUp = true →
    exec (.hostCommandPop c reg) s = .next ((s.hqPop c).1.modCtx c (fun x => x.wr reg.toNat (s.hqPop c).2))) ∧
  (∀ (s : State) (c : CtxId) (data : DWord),
    s.ridgeLive c.ridge = true → s.nveUp = true →
    exec (.completionPost c data) s = .next (s.hqCpl c data))

/-- When the commands of this family complete, and the state after each: the actions of Table 4.2 at the head of a
stream's queue. Outside these hypotheses a command is refused by the rules, or its event does not occur (log 1). Model
choices in it: log 8, 54, 57, 120, 122, 123, 124, 154. -/
def Obligations.AngleEventActionsComplete : Prop :=
  (∀ (s : State) (t : Quad) (now : DWord) (e : AeqEntry) (rest : List AeqEntry),
    s.HeadDue t now 0 e rest →
    exec (.aeqNop t now) s = .next ((s.takeHead t now rest).countLate t (s.lateBy t now e))) ∧
  (∀ (s : State) (t : Quad) (now : DWord) (e : AeqEntry) (rest : List AeqEntry),
    s.HeadDue t now 1 e rest →
    exec (.aeqWgOn t now) s = .next ((s.takeHead t now rest).openAction t true (e.action.setWidth 16) (s.lateBy t now
      e))) ∧
  (∀ (s : State) (t : Quad) (now : DWord) (e : AeqEntry) (rest : List AeqEntry),
    s.HeadDue t now 2 e rest →
    exec (.aeqWgOff t now) s = .next (((s.takeHead t now rest).countLate t (s.lateBy t now e)).wgOff t)) ∧
  (∀ (s : State) (t : Quad) (now : DWord) (e : AeqEntry) (rest : List AeqEntry),
    s.HeadDue t now 3 e rest →
    exec (.aeqRdOn t now) s = .next ((s.takeHead t now rest).openAction t false (e.action.setWidth 16) (s.lateBy t now
      e))) ∧
  (∀ (s : State) (t : Quad) (now : DWord) (smps : List Smp) (e : AeqEntry) (rest : List AeqEntry),
    s.HeadDue t now 4 e rest →
    exec (.aeqRdOff t now smps) s = .next (((s.takeHead t now rest).countLate t (s.lateBy t now e)).rdOff t smps)) ∧
  (∀ (s : State) (t : Quad) (now : DWord) (e : AeqEntry) (rest : List AeqEntry),
    s.HeadDue t now 5 e rest →
    exec (.aeqAsPre t now) s = .next ((s.takeHead t now rest).assistOn t (s.lateBy t now e))) ∧
  (∀ (s : State) (t : Quad) (now : DWord) (e : AeqEntry) (rest : List AeqEntry),
    s.HeadDue t now 6 e rest →
    exec (.aeqAsOn t now) s = .next ((s.takeHead t now rest).assistOn t (s.lateBy t now e))) ∧
  (∀ (s : State) (t : Quad) (now : DWord) (e : AeqEntry) (rest : List AeqEntry),
    s.HeadDue t now 7 e rest →
    exec (.aeqAsOff t now) s = .next (((s.takeHead t now rest).countLate t (s.lateBy t now e)).modTile t (fun x =>
      { x with ag := false, wgFell := none }))) ∧
  (∀ (s : State) (t : Quad) (now : DWord) (smps : List Smp) (e : AeqEntry) (rest : List AeqEntry) (s1 : State) (s2 :
      State) (x : Sector),
    s.HeadDue t now 8 e rest → s1 = s.takeHead t now rest → ¬ ((s1.lateMax t : Int) < s.lateBy t now e) → s2 =
    (s1.countLate t (s.lateBy t now e)).takeSmps t smps → (s2.tl t).sector = some x → (s2.tl t).rg = true → x.isWrite
    = false → x.gateOpen = true →
    exec (.aeqSyncOpen t now smps) s = .next ((s2.closeWin t x.run.smps.length).modTile t (fun y =>
      { y with win := some (s2.newWin t (!s2.wsc && bit (e.action.setWidth 24 : BitVec 24) 0) x.run.smps.length) }))) ∧
  (∀ (s : State) (t : Quad) (now : DWord) (smps : List Smp) (tail : List Smp) (e : AeqEntry) (rest : List AeqEntry)
      (s2 : State),
    s.HeadDue t now 9 e rest → s2 = ((s.takeHead t now rest).countLate t (s.lateBy t now e)).takeSmps t smps →
    exec (.aeqSyncClose t now smps tail) s = .next ((s2.takeSmps t (tail.take (((s2.tl t).win.map (fun w => if w.found
      then 0 else w.len - 1)).getD 0))).closeWin t (((s2.tl t).sector.map (fun x => x.run.smps.length)).getD 0))) ∧
  (∀ (s : State) (t : Quad) (now : DWord) (e : AeqEntry) (rest : List AeqEntry),
    s.HeadDue t now 10 e rest →
    exec (.aeqHsw t now) s = .next ((s.takeHead t now rest).headSwitch t (fld (e.action.setWidth 24 : BitVec 24) 3 0)
      (s.lateBy t now e))) ∧
  (∀ (s : State) (t : Quad) (now : DWord) (g : GuideIn) (e : AeqEntry) (rest : List AeqEntry),
    s.HeadDue t now 11 e rest →
    exec (.aeqGsamp t now g) s = .next (((s.takeHead t now rest).countLate t (s.lateBy t now e)).guideSample t now
      (some ((e.action.setWidth 24 : BitVec 24).setWidth 16)) g)) ∧
  (∀ (s : State) (t : Quad) (now : DWord) (e : AeqEntry) (rest : List AeqEntry),
    s.HeadDue t now 12 e rest →
    exec (.aeqAsLvl t now) s = .next (((s.takeHead t now rest).countLate t (s.lateBy t now e)).assistLevel t (fld
      (e.action.setWidth 24 : BitVec 24) 7 0))) ∧
  (∀ (s : State) (t : Quad) (now : DWord) (e : AeqEntry) (rest : List AeqEntry),
    (s.tl t).aeq = e :: rest → 13 ≤ fld e.action 31 24 → s.canReach (s.angSide t) now = true →
    exec (.aeqIllegalAction t now) s = .next (((s.takeHead t now rest).modTile t (fun x =>
      { x with illact := true })).aeqInt t 5))

/-- When the commands of this family complete, and the state after each: clock marks, the flywheel, the comparators,
skew and the cross-check. Outside these hypotheses a command is refused by the rules, or its event does not occur (log
1). Model choices in it: log 60, 61, 112, 113, 114, 158. -/
def Obligations.AngleSynthesizerEventsComplete : Prop :=
  (∀ (s : State) (r : Side) (absent : Nat) (phase : Int) (rate : Word) (idx : Bool),
    s.angEn r = true → (s.pickRef r).isSome = true → s.owes r = false →
    exec (.clockMark r absent phase rate idx) s = .next (if s.rateOk r rate then s.clockMark r absent phase rate idx
      else (s.flyEntry r).applyInhibit r)) ∧
  (∀ (s : State) (r : Side),
    (s.an r).src.tracking = true →
    exec (.flywheelEntry r) s = .next ((s.flyEntry r).applyInhibit r)) ∧
  (∀ (s : State) (r : Side) (periods : Nat),
    (s.an r).src = .flywheel → s.flyWr r < ((s.an r).flyMarks + periods) →
    exec (.flywrExpiry r periods) s = .next ((s.modAng r (fun a => { a with flyExpired := true })).applyInhibit r)) ∧
  (∀ (s : State) (r : Side) (periods : Nat),
    (s.an r).src = .flywheel → s.fbMarks r ≤ (if (s.an r).flySearch then (s.an r).seekMarks + periods else periods) →
    exec (.flywheelFallback r periods) s = .next (s.flyFallback r)) ∧
  (∀ (s : State) (r : Side),
    s.angUp r = true →
    exec (.referenceStreamChange r) s = .next (s.newFrame r)) ∧
  (∀ (s : State) (rpm : BitVec 16),
    exec (.observerValidChange rpm) s = .next (s.observe rpm.toNat)) ∧
  (∀ (s : State) (r : Side),
    16 ≤ (s.an r).xOver → (s.an r).xerr = false →
    exec (.angleCrosscheckFault r) s = .next ((((((s.modAng .a (fun a => { a with xerr := true, xIn := 0 })).setStat
      (rk .a R_ANG_INTSTAT) 3).modAng .b (fun a => { a with xerr := true, xIn := 0 })).setStat (rk .b R_ANG_INTSTAT)
      3)).event Config.eventAngleCross (srcBlock (rk r R_ANG_ID)) [])) ∧
  (∀ (s : State) (r : Side) (n : BitVec 5) (now : DWord),
    (sg Cmp.default (s.an r).cmps n.toNat).armed = true → s.canReach r now = true → (sg Cmp.default (s.an r).cmps
    n.toNat).value.toNat ≤ now.toNat →
    exec (.comparatorHit r n now) s = .next ((s.modAng r (fun a => { a with ac := now })).cmpHit r n.toNat)) ∧
  (∀ (s : State) (r : Side) (data : Word),
    s.ridgeLive r = true → s.angUp r = true →
    exec (.skewWrite r data) s = .next (s.skewWrite r data))

/-- When the commands of this family complete, and the state after each: a register write, a read that latches or
clears, and the legacy window. Outside these hypotheses a command is refused by the rules, or its event does not occur
(log 1). Model choices in it: log 9, 105. -/
def Obligations.BusAccessesComplete : Prop :=
  (∀ (s : State) (x : Accessor) (addr : Word) (data : Word) (k : Nat),
    s.BusReaches x addr (.reg k) → s.writeRefused x k data = none → s.writeSpecial x k data = none →
    exec (.registerWrite x addr data) s = .next (s.storeReg k data)) ∧
  (∀ (s : State) (x : Accessor) (addr : Word) (data : Word) (k : Nat) (u : State),
    s.BusReaches x addr (.reg k) → s.writeRefused x k data = none → s.writeSpecial x k data = some u →
    exec (.registerWrite x addr data) s = .next (u)) ∧
  (∀ (s : State) (x : Accessor) (addr : Word) (k : Nat),
    s.BusReaches x addr (.reg k) → isRs k = true → x.port ≠ 0xE1 →
    exec (.counterReadClear x addr) s = .next ((s.rsEffect k).freeNext)) ∧
  (∀ (s : State) (x : Accessor) (k : Nat),
    s.BusReaches x (BitVec.ofNat 32 R_ANG_AC_LO) (.reg k) → x.port ≠ 0xE1 →
    exec (.angAcLatch x) s = .next ((s.modAng x.ridge (fun a => { a with acLatch := a.ac })).freeNext)) ∧
  (∀ (s : State) (x : Accessor) (addr : Word) (data : Word) (t : Quad) (o : Nat),
    s.BusReaches x addr (.legacy t o) → s.owns x.ridge t = true →
    exec (.legacyWindowWrite x addr data) s = .next (s.writeLegacy t o data))

/-- When the commands of this family complete, and the state after each: appends, bank loss and resynchronization, the
emergency flush and the replay. Outside these hypotheses a command is refused by the rules, or its event does not
occur (log 1). Model choices in it: log 20, 21, 73, 84, 132, 140, 141, 143, 145. -/
def Obligations.CairnCommandsComplete : Prop :=
  (∀ (s : State) (c : CtxId),
    s.ridgeLive c.ridge = true →
    exec (.cairnAppend c) s = .next (s.crnAppend c)) ∧
  (∀ (s : State) (r : Side),
    s.bankUp r = false →
    exec (.cairnBankLoss r) s = .next (s.crnLose r)) ∧
  (∀ (s : State) (x : Accessor),
    s.ridgeLive x.ridge = true →
    exec (.cairnResync x) s = .next (s.resyncStart x.ridge)) ∧
  (∀ (s : State) (r : Side),
    exec (.cairnResyncDone r) s = .next (s.resyncEnd r)) ∧
  (∀ (s : State) (asn : DWord) (lba : Nat) (cause : Nat) p,
    (s.win.pieces.find? (fun p => decide (p.asn = asn ∧ p.lba ≤ lba ∧ lba < p.lba + p.blocks)) = some p) → 1 ≤ cause →
    cause ≤ 3 →
    exec (.deferredError asn lba cause) s = .next (s.deferPiece p cause)) ∧
  (∀ (s : State) (pfail : Bool) (vmot : BitVec 16),
    pfail || decide (vmot.toNat < s.regF R_MTR_PFCFG 31 16) = true →
    exec (.powerLoss pfail vmot) s = .next (s.powerLoss pfail)) ∧
  (∀ (s : State) (x : Side) (n : Nat) (r : Side) (k : Nat) (s1 : State),
    s.rlg.unit.get x = some r → s.mtr.sp = .gen → s.win.flushing.get x = true → s.ridgeSt r = .inService → s.tooSlow =
    false → k = min (pieceSectors (s.flushList x)) (s.win.flushed.get x + n) → s1 = (s.modWin (fun w =>
    { w with
        flushed := w.flushed.set x k,
        unread := w.unread.set x (w.unread.get x ++ s.unreadable r (s.flushList x) (s.win.flushed.get x) k) })).pfAt 5
    → k < pieceSectors (s.flushList x) →
    exec (.emergencyFlush x n) s = .next (s1)) ∧
  (∀ (s : State) (x : Side) (n : Nat) (r : Side) (k : Nat) (s1 : State),
    s.rlg.unit.get x = some r → s.mtr.sp = .gen → s.win.flushing.get x = true → s.ridgeSt r = .inService → s.tooSlow =
    false → k = pieceSectors (s.flushList x) → k ≤ s.win.flushed.get x + n → s1 = (s.modWin (fun w =>
    { w with
        flushed := w.flushed.set x k,
        unread := w.unread.set x (w.unread.get x ++ s.unreadable r (s.flushList x) (s.win.flushed.get x) k) })).pfAt 5
    →
    exec (.emergencyFlush x n) s = .next (s1.flushEnd x [])) ∧
  (∀ (s : State) (x : Side),
    s.win.flushing.get x = true → (s.mtr.sp ≠ .gen ∨ s.tooSlow = true) →
    exec (.flushSpeedStop x) s = .next ((s.modWin (fun w => { w with stopCause := 1 })).flushEnd x (beyond
      (s.flushList x) 0 (s.win.flushed.get x) []))) ∧
  (∀ (s : State) (r : Side) (img : ImageIn),
    s.ridgeSt r = .inService → (r = .a ∨ s.ridgeSt .a ≠ .inService) → s.crn.replayed = false →
    exec (.replay r img) s = .next (s.replay r img))

/-- When the commands of this family complete, and the state after each: parameter banks, spares, freezes, sectors,
decodes, wedges and descriptors. Outside these hypotheses a command is refused by the rules, or its event does not
occur (log 1). Model choices in it: log 6, 8, 12, 13, 57, 58, 118, 119, 120, 125, 126, 127, 128, 129, 154. -/
def Obligations.ChannelCommandsComplete : Prop :=
  (∀ (s : State) (t : Quad),
    s.clkFault t = true →
    exec (.clockRangeFault t) s = .next ((s.forceLow t false).setStat (tk t R_STT_CHN_INTSTAT) 0)) ∧
  (∀ (s : State) (x : Accessor) (t : Quad),
    s.TileGranted x t →
    exec (.bankSwapRequest x t) s = .next (s.modTile t (fun y => { y with swapPend := true }))) ∧
  (∀ (s : State) (x : Accessor) (t : Quad) (sel : BitVec 9) (data : Word),
    s.TileGranted x t →
    exec (.bankWordWrite x t sel data) s = .next (s.bankWrite t sel data)) ∧
  (∀ (s : State) (x : Accessor) (t : Quad) (slice : BitVec 3),
    s.TileGranted x t →
    exec (.spareStepStart x t slice) s = .next (s.spareGo t slice.toNat)) ∧
  (∀ (s : State) (t : Quad) k u,
    (s.tl t).spare = .waitTake k u →
    exec (.spareTakeover t) s = .next (if (s.tl t).rg then s.setStat (tk t R_STT_CHN_INTSTAT) 1 else s.modTile t (fun
      y => { y with spare := .standing k u }))) ∧
  (∀ (s : State) (t : Quad) (k : Nat) (u : Bool),
    ((s.tl t).spare = .standing k false ∨ (s.tl t).spare = .waitReturn k u) → ((s.tl t).spare = .standing k false → u
    = false) → (s.tl t).rg = false →
    exec (.spareReturn t) s = .next (s.spareBack t k u)) ∧
  (∀ (s : State) (t : Quad) (level : Nat) (smps : List Smp) (x : Sector) (at_ : Int) (s1 : State),
    s.envelopeKind t level = some .asperity → (s.tl t).sector = some x → (s.tl t).rg = true → x.isWrite = false →
    x.gateOpen = true → at_ = ((x.run.smps.length + smps.length : Nat) : Int) - 64 → s1 = (s.modTile t (fun y =>
    { y with freeze := some (.asperity, (y.freeze.map (fun p => min p.2 at_)).getD at_) })).takeSmps t smps →
    exec (.freezeSpanStart t level smps) s = .next (s1.bump (tk t R_STT_FRZCNT) 31 16 1)) ∧
  (∀ (s : State) (t : Quad) (level : Nat) (smps : List Smp) (x : Sector) (at_ : Int) (s1 : State),
    s.envelopeKind t level = some .dropout → (s.tl t).sector = some x → (s.tl t).rg = true → x.isWrite = false →
    x.gateOpen = true → at_ = ((x.run.smps.length + smps.length : Nat) : Int) - 64 → s1 = (s.modTile t (fun y =>
    { y with freeze := some (.dropout, (y.freeze.map (fun p => min p.2 at_)).getD at_) })).takeSmps t smps →
    exec (.freezeSpanStart t level smps) s = .next (s1.bump (tk t R_STT_FRZCNT) 15 0 1)) ∧
  (∀ (s : State) (t : Quad) (level : Nat) (smps : List Smp) (k : FreezeKind) (lo : Int) (x : Sector),
    (s.tl t).freeze = some (k, lo) → (s.tl t).sector = some x → (s.tl t).rg = true → s.envelopeKind t level = none →
    exec (.freezeSpanEnd t level smps) s = .next (((s.takeSmps t smps).modTile t (fun y =>
      { y with freeze := none })).addFrozen t ⟨lo, ((x.run.smps.length + smps.length + 8 * s.regF (tk t R_STT_FRZCFG)
      15 8 : Nat) : Int)⟩)) ∧
  (∀ (s : State) (x : Accessor) (t : Quad) (mask : BitVec 16),
    s.TileGranted x t →
    exec (.recordRelease x t mask) s = .next (s.releaseRecs t mask)) ∧
  (∀ (s : State) (t : Quad) (now : DWord) (smps : List Smp) (x : Sector) (s1 : State),
    s.canReach (s.angSide t) now = true → s1 = ((s.reach t now).takeSmps t smps).skipsDue t (s.streamAcAt t now) →
    (s1.tl t).sector = some x → x.gateOpen = true → x.done = false → x.isWrite = true → (s1.closeFrag t x (s1.bitsFrom
    t x.run.rise (s.streamAcAt t now))).2.2 = true →
    exec (.sectorComplete t now smps) s = .next (s1.putSector t { x with done := true, pos := 36864 })) ∧
  (∀ (s : State) (t : Quad) (now : DWord) (smps : List Smp) (x : Sector) (y : Sector) (s1 : State) (s2 : State),
    s.canReach (s.angSide t) now = true → s1 = ((s.reach t now).takeSmps t smps).skipsDue t (s.streamAcAt t now) →
    (s1.tl t).sector = some x → x.gateOpen = true → x.done = false → x.isWrite = false → (s1.closeFrag t x
    x.run.smps.length).2.2 = true → s2 = s1.closeWin t x.run.smps.length → (s2.tl t).sector = some y →
    exec (.sectorComplete t now smps) s = .next ((s2.takeFrag t { y with pos := 36864 }).1.endRead t (s2.takeFrag t
      { y with pos := 36864 }).2 .ok)) ∧
  (∀ (s : State) (t : Quad) x,
    (s.tl t).sector = some x → x.isWrite = true → x.gateOpen = true → x.done = false → (s.tl t).wg = true →
    exec (.sourceUnderrun t) s = .next (s.forceLow t true)) ∧
  (∀ (s : State) (r : Side) (slot : BitVec 4) (res : DecodeOut) (n : Nat) (q : Quad) (k : Nat) (st : DWord) (m :
      BufAddr ⊕ Nat),
    (s.dec.get r).jobs.find? (fun j => j.1 == slot.toNat && s.jobReady r j.1 j.2) = some (n, .otf q k st m) →
    exec (.decodeComplete r slot res) s = .next ((s.modDec r (fun d =>
      { d with jobs := d.jobs.filter (fun j => j.1 != n) })).otfDone r n q k st m res)) ∧
  (∀ (s : State) (r : Side) (slot : BitVec 4) (res : DecodeOut) (n : Nat) (c : CtxId) (w0 : DWord) (w1 : DWord) (w2 :
      DWord) (w3 : DWord) (s1 : State),
    (s.dec.get r).jobs.find? (fun j => j.1 == slot.toNat && s.jobReady r j.1 j.2) = some (n, .req c w0 w1 w2 w3) → s1
    = s.modDec r (fun d => { d with jobs := d.jobs.filter (fun j => j.1 != n) }) → s1.recHere (quadOf (fld w0 63 62))
    (fld w0 59 56) = true →
    exec (.decodeComplete r slot res) s = .next (s1.reqDone r n c w0 w1 w2 w3 res)) ∧
  (∀ (s : State) (x : Accessor) (t : Quad) (en : Bool),
    s.TileGranted x t →
    exec (.writeEnableWrite x t en) s = .next (s.writeEnable t en)) ∧
  (∀ (s : State) (c : CtxId),
    s.ridgeLive c.ridge = true →
    exec (.decoderSubmit c) s = .next (s.decSubmit c)) ∧
  (∀ (s : State) (c : CtxId) (reg : BitVec 6),
    s.ridgeLive c.ridge = true →
    exec (.decoderResultPop c reg) s = .next ((s.decTake c).1.modCtx c (fun x => x.wr reg.toNat (s.decTake c).2))) ∧
  (∀ (s : State) (t : Quad) (now : DWord) (w : WedgeIn),
    s.canReach (s.angSide t) now = true → s.regB (tk t R_FMT_CTL) 1 = true → (s.slotHead t).isSome = true →
    exec (.wedgeRead t now w) s = .next ((s.reach t now).wedgeRead t w)) ∧
  (∀ (s : State) (t : Quad) (now : DWord),
    s.canReach (s.angSide t) now = true → (s.tl t).wg = true → s.inKeepout t (angleOf (s.streamAcAt t now)) = true →
    exec (.keepoutEntry t now) s = .next (((s.reach t now).forceLow t true).setStat (tk t R_FMT_INTSTAT) 0)) ∧
  (∀ (s : State) (t : Quad) (now : DWord) (smps : List Smp) (w : SyncWin) (x : Sector) (p : Nat) (s1 : State),
    (s.tl t).win = some w → s.canReach (s.angSide t) now = true → w.found = false → s1 = (s.reach t now).takeSmps t
    smps → (s1.tl t).sector = some x → w.search (x.run.smps.map Smp.hard) (x.run.smps.map Smp.hard).length = some p →
    exec (.syncMatch t now smps) s = .next (s1.syncFound t w p)) ∧
  (∀ (s : State) (t : Quad) (now : DWord),
    s.canReach (s.angSide t) now = true →
    exec (.skipEntryApply t now) s = .next ((s.reach t now).skipsDue t (s.streamAcAt t now))) ∧
  (∀ (s : State) (x : Accessor) (t : Quad) (addr : DWord),
    s.TileGranted x t →
    exec (.skipListSelect x t addr) s = .next (s.skipSelect x.ridge t addr.toNat)) ∧
  (∀ (s : State) (c : CtxId) (t : Quad) (reg : BitVec 6),
    s.ridgeLive c.ridge = true → s.fabricOn = true →
    exec (.sectorStatusPop c t reg) s = .next ((s.statusTake c t).1.modCtx c (fun x => x.wr reg.toNat (s.statusTake c
      t).2))) ∧
  (∀ (s : State) (x : Accessor) (t : Quad) (slot : BitVec 6) (word : BitVec 2) (data : Word),
    s.TileGranted x t →
    exec (.descriptorWordWrite x t slot word data) s = .next (s.descWrite t slot.toNat word.toNat data)) ∧
  (∀ (s : State) (x : Accessor) (t : Quad) (v : BitVec 24),
    s.TileGranted x t →
    exec (.trackidWrite x t v) s = .next (s.setReg (tk t R_FMT_TRACKID) (v.setWidth 32))) ∧
  (∀ (s : State) (x : Accessor) (t : Quad) (w : DWord),
    s.TileGranted x t → fld w 63 60 ≠ 1 → fld w 63 60 ≠ 2 →
    exec (.formatterCmdIgnored x t w) s = .next (s.fmtCtl t w))

/-- When the commands of this family complete, and the state after each: the CRY operations, their end and the DRBG
read. Outside these hypotheses a command is refused by the rules, or its event does not occur (log 1). Model choices
in it: log 7. -/
def Obligations.CryptoCommandsComplete : Prop :=
  (∀ (s : State) (x : Accessor),
    s.CryReady x →
    exec (.hash x) s = .next (s.cryTake 1 0)) ∧
  (∀ (s : State) (x : Accessor),
    s.CryReady x →
    exec (.verifySignature x) s = .next (s.cryTake 2 0)) ∧
  (∀ (s : State) (x : Accessor),
    s.CryReady x →
    exec (.drbg x) s = .next (s.cryTake 3 0)) ∧
  (∀ (s : State) (x : Accessor),
    s.CryReady x → x.rom = true →
    exec (.derive x) s = .next (s.cryTake 4 0)) ∧
  (∀ (s : State) (x : Accessor),
    s.CryReady x → x.rom = true →
    exec (.sign x) s = .next (s.cryTake 5 0)) ∧
  (∀ (s : State) (x : Accessor) (slot : BitVec 6),
    s.CryReady x → s.slotUse slot.toNat = 0 →
    exec (.keyload x slot) s = .next (s.cryTake 6 slot.toNat)) ∧
  (∀ (s : State) (x : Accessor) (slot : BitVec 6),
    s.CryReady x → s.slotUse slot.toNat = 0 →
    exec (.zeroize x slot) s = .next (s.cryTake 7 slot.toNat)) ∧
  (∀ (s : State) (x : Accessor),
    s.CryReady x →
    exec (.devpub x) s = .next (s.cryTake 8 0)) ∧
  (∀ (s : State) (x : Accessor) (data : Word),
    s.Granted x R_CRY_ID true → (s.regB R_CRY_CTL 0 = false ∨ s.cry.busy.isSome = true ∨ cryOpListed (fld data 31 28)
    = false) →
    exec (.cryptoCmdIgnored x data) s = .next (s.cryIgnore 1)) ∧
  (∀ (s : State) (o : CryOp),
    s.cry.busy = some o → s.sealFirst o = false →
    exec .cryptoDone s = .next (s.cryRun o)) ∧
  (∀ (s : State) (x : Accessor),
    s.Granted x R_CRY_ID true →
    exec (.drbgRead x) s = .next (s.freeNext))

/-- When the commands of this family complete, and the state after each: domain requests and their ends, power states
and the wedge count check. Outside these hypotheses a command is refused by the rules, or its event does not occur
(log 1). Model choices in it: log 98. -/
def Obligations.PowerDomainCommandsComplete : Prop :=
  (∀ (s : State) (x : Accessor) (v : BitVec 3),
    s.Granted x R_RCP_ID true →
    exec (.powerStateSelect x v) s = .next (s.pstateWrite v.toNat)) ∧
  (∀ (s : State) (x : Accessor),
    s.Granted x R_RCP_ID true →
    exec (.domainOn x) s = .next (s.pdCtl 1)) ∧
  (∀ (s : State) (x : Accessor),
    s.Granted x R_RCP_ID true →
    exec (.domainOff x) s = .next (s.pdCtl 0)) ∧
  (∀ (s : State) (x : Accessor),
    s.Granted x R_RCP_ID true →
    exec (.domainRet x) s = .next (s.pdCtl 2)) ∧
  (∀ (s : State) (d : BitVec 7),
    (s.dom d.toNat).st = .starting →
    exec (.domainStarted d) s = .next (s.domStarted d.toNat)) ∧
  (∀ (s : State) (d : BitVec 7),
    (s.dom d.toNat).st = .stopping → s.stopWaits d.toNat = false →
    exec (.domainStopped d) s = .next (s.domStopped d.toNat)) ∧
  (∀ (s : State) (x : Side) (count : Nat),
    s.wsc = true → count ≠ s.rcp.wscN →
    exec (.wedgeCountMismatch x count) s = .next (((s.retract x).event 0x0305 (srcBlock (tk (Quad.ofSlot x .a)
      R_STT_ID)) [(0, BitVec.ofNat 32 s.rcp.wscN), (1, BitVec.ofNat 32 count)]).actuatorLost x 4))

/-- When the commands of this family complete, and the state after each: fences, mismatches, takeover, switch,
handback, rejoin and Ridge reset. Outside these hypotheses a command is refused by the rules, or its event does not
occur (log 1). Model choices in it: log 25, 26, 91, 92, 110, 150. -/
def Obligations.FenceAndTakeoverCommandsComplete : Prop :=
  (∀ (s : State) (r : Side) (cause : Nat),
    s.fenceHolds r cause = true →
    exec (.fence r cause) s = .next (s.fence r cause)) ∧
  (∀ (s : State) (r : Side) (cause : Nat),
    s.lastRidge r = true → s.fenceHolds r cause = true →
    exec (.lastRidgeFence r cause) s = .next (s.fence r cause)) ∧
  (∀ (s : State) (r : Side) (sp : SpurId),
    s.ridgeLive r = true → s.regB (rk r R_SPU_LSERR) 8 = false →
    exec (.lockstepMismatch r sp) s = .next ((s.setReg (rk r R_SPU_LSERR) (BitVec.ofNat 32 (256 + sp.idx))).fence r
      1)) ∧
  (∀ (s : State) (r : Side) (sp : SpurId),
    s.ridgeLive r = true → s.regB (rk r R_SPU_LSERR) 8 = true →
    exec (.lockstepMismatch r sp) s = .next (s.fence r 1)) ∧
  (∀ (s : State) (k : DupKind) (r : Side),
    k = .cen r →
    exec (.duplicateMismatch k) s = .next (s.fence r 2)) ∧
  (∀ (s : State) (k : DupKind) (r : Side) (buf : Nat),
    k = .ste r buf → s.ridgeLive r = true →
    exec (.duplicateMismatch k) s = .next ((s.setReg (rk r R_STE_DUPSTAT) (BitVec.ofNat 32 (2 ^ 31 + buf % 64))).fence
      r 2)) ∧
  (∀ (s : State) (k : DupKind) (aErr : Bool) (bErr : Bool),
    k = .saddle aErr bErr → s.rlg.sfence = none →
    exec (.duplicateMismatch k) s = .next (if s.ridgeLive (s.saddleHalf aErr bErr) then s.fence (s.saddleHalf aErr
      bErr) 3 else s.fenceHalf (s.saddleHalf aErr bErr))) ∧
  (∀ (s : State) (x : Accessor),
    s.Granted x R_RLG_ID true → s.fenceHolds x.ridge 6 = true →
    exec (.testFence x) s = .next (s.fence x.ridge 6)) ∧
  (∀ (s : State) (x : Accessor) (data : Word),
    s.Granted x R_RLG_ID true → (fld data 31 28 = 0 ∨ 4 < fld data 31 28) →
    exec (.ledgerCmdIgnored x data) s = .next (s.rlgInt 5)) ∧
  (∀ (s : State) (r : Side) (t6 : BitVec 16) (t8 : BitVec 16),
    s.rlg.tkDue = some r.peer → s.ridgeSt r = .inService →
    exec (.takeover r t6 t8) s = .next (s.takeover r t6 t8)) ∧
  (∀ (s : State) (r : Side),
    s.ridgeLive r = true → s.rlgUp = true →
    exec (.switch r) s = .next (s.switchCmd r)) ∧
  (∀ (s : State) (r : Side) (work : BitVec 2),
    s.ridgeLive r = true → s.rlgUp = true →
    exec (.handback r work) s = .next (s.handback r work.toNat)) ∧
  (∀ (s : State) (c : CtxId),
    s.rlg.switching.isSome = true → (s.ctx c).giving = some false → s.imgtag .a = s.imgtag .b →
    exec (.switchTimeout c) s = .next ((s.modCtx c (fun x => { x with giving := some true })).trySwitch)) ∧
  (∀ (s : State) (c : CtxId),
    s.rlg.switching.isSome = true → (s.ctx c).giving = some false → s.imgtag .a ≠ s.imgtag .b →
    exec (.switchTimeout c) s = .next ((s.dropSwitch.rlgInt 3).event 0x0014 (srcBlock R_RLG_ID) [])) ∧
  (∀ (s : State) (r : Side) (syncOk : Bool),
    s.ridgeLive r = true → s.rlgUp = true →
    exec (.rejoin r syncOk) s = .next (s.rejoin r syncOk)) ∧
  (∀ (s : State) (r : Side),
    s.ridgeSt r = .fenced →
    exec (.ridgeReset r) s = .next (s.ridgeReset r)) ∧
  (∀ (s : State) (r : Side) (syncOk : Bool) (s1 : State),
    s.ridgeSt r = .selftest → s1 = s.setRidge r .standby → s1.regB R_RLG_CTL 8 = false →
    exec (.ridgeSelftestDone r syncOk) s = .next (s1)) ∧
  (∀ (s : State) (r : Side) (syncOk : Bool) (s1 : State),
    s.ridgeSt r = .selftest → s1 = s.setRidge r .standby → s1.regB R_RLG_CTL 8 = true → (s1.core.get r).coldBoot =
    false → s1.rlgUp = true →
    exec (.ridgeSelftestDone r syncOk) s = .next (s1.rejoin r syncOk))

/-- When the commands of this family complete, and the state after each: link resets, training, FLR, poisoned TLPs and
the SPDM requests. Outside these hypotheses a command is refused by the rules, or its event does not occur (log 1).
Model choices in it: log 23, 86, 102. -/
def Obligations.HostPortCommandsComplete : Prop :=
  (∀ (s : State) (p : Side),
    s.portOn p = true → (s.hpt.get p).dlUp = true →
    exec (.pcieLinkDown p) s = .next (((s.modHpt p (fun h =>
      { h with dlUp := false, speed := 0, width := 0, inL1 := false })).hptInt p 0).portCtrls p)) ∧
  (∀ (s : State) (p : Side),
    s.portOn p = true → (s.hpt.get p).dlUp = true →
    exec (.hotReset p) s = .next ((((s.modHpt p (fun h => { h with numVfs := 0, vfEn := false })).hptInt p
      1).portCtrls p).setStat R_RST_CAUSE (7 + p.idx))) ∧
  (∀ (s : State) (p : Side),
    s.portOn p = true → s.rcp.perst.get p = false →
    exec (.perst p) s = .next (((((s.portCtrls p).portRegs p).modRcpPerst p true).setStat R_RST_CAUSE (5 +
      p.idx)).modHpt p (fun _ => { Hpt.reset with perstCount := min 65535 ((s.hpt.get p).perstCount + 1) }))) ∧
  (∀ (s : State) (p : Side) (speed : Nat) (width : Nat) (s1 : State),
    s.portOn p = true → s.rcp.perst.get p = true → s.rcp.asserted = false → s1 = ((s.modRcpPerst p false).modHpt p
    (fun h => { h with inReset := false })).linkTrain p speed width →
    exec (.perstRelease p speed width) s = .next (if s1.cry.cdi1.isSome = true ∨ (s1.rcp.phase = .boot ∧
      s1.rcp.straps.bootsrc = 1 + p.idx) then s1.cfgReady p else s1)) ∧
  (∀ (s : State) (x : Accessor) (p : Side) (speed : Nat) (width : Nat),
    s.Granted x (lk p R_HPT_ID) true → s.portOn p = true →
    exec (.retrain x p speed width) s = .next (s.retrain p speed width)) ∧
  (∀ (s : State) (x : Accessor) (p : Side),
    s.Granted x (lk p R_HPT_ID) true → s.portOn p = true →
    exec (.reequalize x p) s = .next (s.freeNext)) ∧
  (∀ (s : State) (p : Side) (f : BitVec 6),
    s.portOn p = true → (s.hpt.get p).inReset = false →
    exec (.flr p f) s = .next (((s.hptInt p 2).ctrlReset (64 * p.idx + f.toNat)).setStat R_RST_CAUSE (7 + p.idx))) ∧
  (∀ (s : State) (p : Side) (n : Nat) (s1 : State),
    s.portOn p = true → s1 = ((s.traffic p).hptInt p 5).bump (lk p R_HPT_POISCNT) 31 0 1 → s1.cmd n = none →
    exec (.poisonedTlp p n) s = .next (s1)) ∧
  (∀ (s : State) (p : Side) (n : Nat) (c : Cmd) (s1 : State),
    s.portOn p = true → s1 = ((s.traffic p).hptInt p 5).bump (lk p R_HPT_POISCNT) 31 0 1 → s1.cmd n = some c →
    isWriteOpc c.sqe.opc = true → c.sq ≠ 0 → portOf c.ctrl = p → c.checked = true → c.committed = false →
    exec (.poisonedTlp p n) s = .next (s1.endUncommitted c (stat 0 0x04))) ∧
  (∀ (s : State) (addr : BitVec 7),
    addr = 0x6A →
    exec (.nvmeMiBasicCommand addr) s = .next (((s.answer (.basic (s.free 64))).modMgmt (fun m =>
      { m with smbBusy := true })).freeNext)) ∧
  (∀ (s : State),
    exec .smbusTimeout s = .next (s.modMgmt (fun m => { m with smbBusy := false }))) ∧
  (∀ (s : State),
    exec .getVersion s = .next ((s.answer .version).modMgmt (fun m =>
      { m with spdmVersion := true, spdmCaps := false, spdmAlgs := false }))) ∧
  (∀ (s : State),
    s.mgmt.spdmVersion = true →
    exec .getCapabilities s = .next ((s.answer .capabilities).modMgmt (fun m => { m with spdmCaps := true }))) ∧
  (∀ (s : State) (p384 : Bool) (sha384 : Bool),
    s.mgmt.spdmCaps = true → p384 = true → sha384 = true →
    exec (.negotiateAlgorithms p384 sha384) s = .next ((s.answer .algorithms).modMgmt (fun m =>
      { m with spdmAlgs := true }))) ∧
  (∀ (s : State),
    s.mgmt.spdmAlgs = true →
    exec .getDigests s = .next (s.answer (.digests (Config.sha384 s.certChain)))) ∧
  (∀ (s : State) (slot : BitVec 4),
    s.mgmt.spdmAlgs = true →
    exec (.getCertificate slot) s = .next (if slot = 0 then s.answer (.certificate s.certChain) else s.answer
      .invalid)) ∧
  (∀ (s : State) (nonce : BitVec 256) (k : BitVec 384),
    s.mgmt.spdmAlgs = true → s.spanBusy = false → s.cry.aliasKey = some k →
    exec (.challenge nonce) s = .next (s.answer (.challengeAuth (Config.ecSign k (Config.sha384 (bytesLE 32
      nonce)))))) ∧
  (∀ (s : State) (idx : Byte),
    s.mgmt.spdmAlgs = true → s.spanBusy = false → idx = 0xFF →
    exec (.getMeasurements idx) s = .next (s.answer (.measurements ((List.range 8).map (fun i => (i + 1, s.measurement
      (i + 1))))))) ∧
  (∀ (s : State) (idx : Byte),
    s.mgmt.spdmAlgs = true → s.spanBusy = false → 1 ≤ idx.toNat → idx.toNat ≤ 8 →
    exec (.getMeasurements idx) s = .next (s.answer (.measurements [(idx.toNat, s.measurement idx.toNat)]))) ∧
  (∀ (s : State),
    exec .keyExchange s = .next (s.answer .unsupported))

/-- When the commands of this family complete, and the state after each: acquiring, reserving and releasing credits,
waiters and the audit. Outside these hypotheses a command is refused by the rules, or its event does not occur (log
1). Model choices in it: log 8, 76, 148. -/
def Obligations.LedgerCommandsComplete : Prop :=
  (∀ (s : State) (c : CtxId) (reg : BitVec 6),
    s.ridgeLive c.ridge = true → s.rlgUp = true →
    exec (.creditAcquire c reg) s = .next ((s.acquire c false).1.modCtx c (fun x => x.wr reg.toNat (s.acquire c
      false).2))) ∧
  (∀ (s : State) (c : CtxId) (reg : BitVec 6),
    s.ridgeLive c.ridge = true → s.rlgUp = true →
    exec (.windowAdmit c reg) s = .next ((s.acquire c true).1.modCtx c (fun x => x.wr reg.toNat (s.acquire c
      true).2))) ∧
  (∀ (s : State) (c : CtxId) (reg : BitVec 6),
    s.ridgeLive c.ridge = true → s.rlgUp = true →
    exec (.mediaReserve c reg) s = .next ((s.mediaReserve c).1.modCtx c (fun x => x.wr reg.toNat (s.mediaReserve
      c).2))) ∧
  (∀ (s : State) (c : CtxId) (data : DWord) (l : Lease),
    s.ridgeLive c.ridge = true → s.rlgUp = true → s.rlg.leases.find? (fun k => k.num == fld data 47 32) = some l →
    l.owner = .ctx c → fld data 31 0 ≤ l.amount → l.isBuffer = false →
    exec (.creditRelease c data) s = .next (s.leaseDrop l (fld data 31 0))) ∧
  (∀ (s : State) (c : CtxId) (w : CreditWait),
    (s.ctx c).creditWait = some w → (s.creditFits c ⟨w.pool, w.inst, w.cls, w.amount⟩ w.since).isSome = true →
    exec (.creditAvailable c) s = .next (s.raiseLine c 9)) ∧
  (∀ (s : State),
    s.rlgUp = true →
    exec .ledgerAudit s = .next (s.audit))

/-- When the commands of this family complete, and the state after each: member states, rebuild, migration, poison,
scrub and actuator loss. Outside these hypotheses a command is refused by the rules, or its event does not occur (log
1). Model choices in it: log 22, 85, 144, 161, 162. -/
def Obligations.MemberAndRebuildCommandsComplete : Prop :=
  (∀ (s : State) (x : Side) (h : BitVec 4) (trig : BitVec 4) (n : Nat),
    h.toNat < 12 → s.trigHolds x h.toNat trig.toNat n = true → (s.memberAt x h.toNat).st = .online → (trig = 0 ∨ trig
    = 1 ∨ trig = 3 ∨ trig = 5) →
    exec (.memberStateChange x h trig n) s = .next (s.memberTo x h.toNat .suspect trig.toNat)) ∧
  (∀ (s : State) (x : Side) (h : BitVec 4) (trig : BitVec 4) (n : Nat),
    h.toNat < 12 → s.trigHolds x h.toNat trig.toNat n = true → (s.memberAt x h.toNat).st = .online → (trig = 2 ∨ trig
    = 4 ∨ trig = 6 ∨ trig = 7) →
    exec (.memberStateChange x h trig n) s = .next (s.memberFail x h.toNat trig.toNat)) ∧
  (∀ (s : State) (x : Side) (h : BitVec 4) (trig : BitVec 4) (n : Nat),
    h.toNat < 12 → s.trigHolds x h.toNat trig.toNat n = true → (s.memberAt x h.toNat).st = .suspect → trig ≠ 9 →
    exec (.memberStateChange x h trig n) s = .next (s.memberFail x h.toNat trig.toNat)) ∧
  (∀ (s : State) (x : Side) (h : BitVec 4) (trig : BitVec 4) (n : Nat),
    h.toNat < 12 → s.trigHolds x h.toNat trig.toNat n = true → (s.memberAt x h.toNat).st = .suspect → trig = 9 →
    exec (.memberStateChange x h trig n) s = .next (s.memberTo x h.toNat .online trig.toNat)) ∧
  (∀ (s : State) (x : Side) (call : Option (Nat × List Nat)) (i : Nat) (e : ZEntry) (s1 : State),
    call = none → s1 = s.freeOld x → s1.crn.replayed = true → s1.crn.halted = false → (s1.redun.get x).lost = false →
    (s1.redun.get x).cur = none → s1.nextAffected x (s1.affected x) = some (i, e) → s1.roomToMove x = true →
    exec (.rebuildBandGroup x call) s = .next ((s1.modRedun x (fun r => { r with waiting := false })).rebuildOne x i
      e)) ∧
  (∀ (s : State) (x : Side) (i : Nat) (e : ZEntry),
    s.nextAffected x (s.affected x) = some (i, e) → 5 ≤ s.pathOf x e → s.pathOf x e ≤ 6 → s.roomToMove x = false →
    (s.redun.get x).waiting = false →
    exec (.rebuildWait x) s = .next ((s.modRedun x (fun r => { r with waiting := true })).event 0x0505 redSrc [(0,
      BitVec.ofNat 32 x.idx), (1, BitVec.ofNat 32 (s.freeBands x))])) ∧
  (∀ (s : State) (x : Side) (i : Nat),
    (s.redun.get x).cur = some i →
    exec (.rebuildCheckpoint x) s = .next ((s.modRedun x (fun r =>
      { r with stripe := min (s.zent i).wp (r.stripe + 16), ckpt := min (s.zent i).wp (r.stripe + 16) })).libAppend
      s.kSide 0x0008)) ∧
  (∀ (s : State) (x : Side) (i : Nat) (n : Nat) (b : Nat),
    (s.redun.get x).cur = some i → (s.redun.get x).target = some (n, b) → (s.zent i).wp ≤ (s.redun.get x).stripe →
    exec (.migrationCutover x) s = .next (s.cutover x i n)) ∧
  (∀ (s : State) (x : Side),
    exec (.mediaWindowShare x) s = .next (s.modRedun x (fun r =>
      { r with winOwed := (if (s.affected x).isEmpty then 0 else (clampN 5 50 s.rcp.floor * 512 + 99) / 100) }))) ∧
  (∀ (s : State) (i : BitVec 17) (stripe : Nat) (off : Nat) (er : List Nat) (conv : List Nat),
    (s.zent i.toNat).bound = true → (s.zent i.toNat).use ≠ 5 → 3 ≤ ((er.eraseDups).filter (fun k => idxIn (s.zent
    i.toNat).d k)).length → off < 32 → stripe < 512 →
    exec (.lbaPoison i stripe off er conv) s = .next (s.poisonLbas i.toNat stripe off er.eraseDups conv)) ∧
  (∀ (s : State) (x : Side) (s1 : State) (s2 : State),
    (s.redun.get x).gT ≠ (s.redun.get x).gC → (s.actEnts x).any (fun p => decide (p.2.ggen ≠ (s.redun.get x).gT)) =
    false → s1 = (s.libAppend s.kSide 0x000D).modRedun x (fun r =>
    { r with gC := r.gT, reshape := false, doneList := [], leaving := [] }) → (s2 = (List.range 12).foldl (fun (u :
    State) h => if (u.memberAt x h).st ≠ .retired ∧ (u.actEnts x).all (fun p => !p.2.names h) then u.memberTo x h
    .retired (u.memberAt x h).trigger else u) s1) →
    exec (.generationSwitch x) s = .next (((s2.event 0x050A redSrc [(0, BitVec.ofNat 32 x.idx), (1, BitVec.ofNat 32
      (s.redun.get x).gT), (2, BitVec.ofNat 32 (s.redun.get x).gT)]).event 0x0504 redSrc [(0, BitVec.ofNat 32 x.idx),
      (1, BitVec.ofNat 32 ((s.evr.ot.toNat - (s.redun.get x).startOt) / 1000))]).asyncAll 2)) ∧
  (∀ (s : State) (x : Side) (cause : Nat),
    s.lossHolds x cause = true →
    exec (.actuatorLoss x cause) s = .next (s.actuatorLost x cause)) ∧
  (∀ (s : State) (x : Side) (out : BitVec 4) (m : BitVec 4) (gen : Word) (bitmap : Word) (off : Nat) (er : List Nat)
      (conv : List Nat) (i : Nat) (e : ZEntry) (stripe : Nat),
    s.scrubNext x = some (i, e, stripe) → e.use ≠ 5 → e.wgen = gen.toNat →
    exec (.scrubStripe x out m gen bitmap off er conv) s = .next ((s.modRedun x (fun r =>
      { r with scrubEntry := i, scrubStripe := stripe + 1 })).scrubOutcome x i e stripe out.toNat m.toNat bitmap off
      er conv)) ∧
  (∀ (s : State) (x : Side) (out : BitVec 4) (m : BitVec 4) (gen : Word) (bitmap : Word) (off : Nat) (er : List Nat)
      (conv : List Nat) (s1 : State),
    s.scrubNext x = none → s1 = s.modRedun x (fun r => { r with scrubEntry := 0, scrubStripe := 0, relogged := 0 }) →
    exec (.scrubStripe x out m gen bitmap off er conv) s = .next (s1.event 0x0507 redSrc [(0, BitVec.ofNat 32 x.idx),
      (1, BitVec.ofNat 32 (s1.scrubEnts x).length), (2, BitVec.ofNat 32 (s.redun.get x).relogged)])) ∧
  (∀ (s : State) (x : Side) (days : Nat),
    exec (.scrubPassLate x days) s = .next (s.event 0x0509 redSrc [(0, BitVec.ofNat 32 x.idx), (1, BitVec.ofNat 32
      days)]))

/-- When the commands of this family complete, and the state after each: a scrub step, a bucket's leak and a partial
DRAM write. Outside these hypotheses a command is refused by the rules, or its event does not occur (log 1). Model
choices in it: log 59, 90. -/
def Obligations.MemoryProtectionCommandsComplete : Prop :=
  (∀ (s : State) (m : MemRef) (es : List Flips) (stored : Bool) (last : Bool) (part : Nat) (r : Side) (i : Nat),
    m = .ridge r i → s.scrubOn m = true →
    exec (.memoryScrubStep m es stored last part) s = .next ((s.memStep r i (lget (0, 0) es 0) stored part).modScrub r
      i (fun k => { k with pos := if last then 0 else k.pos + 1 }))) ∧
  (∀ (s : State) (m : MemRef) (es : List Flips) (stored : Bool) (last : Bool) (part : Nat) (x : Side),
    m = .dram x → s.scrubOn m = true →
    exec (.memoryScrubStep m es stored last part) s = .next ((s.dramLine x (64 * (s.dram.get x).pos) es
      stored).modDram x (fun c =>
      { c with pos := if s.dsize x * 16384 ≤ (s.dram.get x).pos + 1 then 0 else (s.dram.get x).pos + 1 }))) ∧
  (∀ (s : State) (m : MemRef) (r : Side) (i : Nat),
    m = .ridge r i → i ≤ 6 →
    exec (.bucketLeak m) s = .next (s.modScrub r i (fun k =>
      { k with bucket := k.bucket - 1, above := k.above && decide (1 < k.bucket) }))) ∧
  (∀ (s : State) (m : MemRef) (x : Side),
    m = .dram x →
    exec (.bucketLeak m) s = .next (s.modDram x (fun c =>
      { c with bucket := c.bucket - 1, above := c.above && decide (1 < c.bucket) }))) ∧
  (∀ (s : State) (x : Side) (addr : BitVec 48) (data : List Byte) (es : List Flips),
    data.length ≠ 0 → addr.toNat % 64 + data.length < 65 → s.dramOk x addr.toNat data.length = true →
    exec (.dramPartialWrite x addr data es) s = .next ((s.dramLine x (addr.toNat / 64 * 64) es false).dramWrite x
      addr.toNat data))

/-- When the commands of this family complete, and the state after each: calibration records, the VCM calibration,
thermal and voltage monitors and AVS. Outside these hypotheses a command is refused by the rules, or its event does
not occur (log 1). Model choices in it: log 14, 74, 136, 137, 138, 139. -/
def Obligations.CalibrationAndMonitorCommandsComplete : Prop :=
  (∀ (s : State) (r : Side) (addr : BitVec 48) (t : Quad) (request : Bool) (d : CalDesc),
    s.calRead r addr.toNat = some d → s.calDue addr.toNat d request = true → s.mon.calRuns.any (fun x => x.addr ==
    addr.toNat && x.measuring) = false → s.calReason r addr.toNat d t = 0 →
    exec (.calibrationStart r addr t request) s = .next (s.calBegin r addr.toNat d t)) ∧
  (∀ (s : State) (addr : BitVec 48) (res : Word) (given : Word) (pairs : List (BitVec 12)) x d,
    s.mon.calRuns.find? (fun x => x.addr == addr.toNat && x.measuring && x.ended.isNone) = some x → s.calRead x.ridge
    x.addr = some d → s.calCovered x = true →
    exec (.calibrationResult addr res given pairs) s = .next (s.calResult x d res.toInt given.toInt pairs)) ∧
  (∀ (s : State) (addr : BitVec 48) (x : CalRun) (d : CalDesc),
    s.mon.calRuns.find? (fun x => x.addr == addr.toNat && x.applying && x.ended.isNone) = some x → s.calRead x.ridge
    x.addr = some d → x.kind ≠ 8 → x.returning = false → s.calCovered x = true → (s.stepMark x d.stepUnit ≠ x.mark ∨
    s.stepMark x d.stepUnit = none) →
    exec (.calibrationApplyStep addr) s = .next (s.calStep x d)) ∧
  (∀ (s : State) (addr : BitVec 48) x n,
    s.mon.calRuns.find? (fun x => x.addr == addr.toNat) = some x → s.calAbortReason x = some n →
    exec (.calibrationAbort addr) s = .next (s.calAbort (if s.ridgeSt x.ridge = .fenced then x.ridge.peer else
      x.ridge) x n)) ∧
  (∀ (s : State) (x : Accessor) (data : Word),
    s.Granted x R_MON_ID (s.ownsLink x.ridge (sideOf (fld data 24 24))) →
    exec (.vcCalWindow x data) s = .next (s.vcCal data)) ∧
  (∀ (s : State) (act : Side) (ofs : BitVec 12) (us : BitVec 8),
    s.mon.vcOpen.get act = true → s.winUs ≤ us.toNat →
    exec (.vcCalDone act ofs us) s = .next (((s.dropWindow act).modReg R_MON_VCCAL (fun w => putFld (setBit w 30) 11 0
      ofs.toNat)).monInt 4)) ∧
  (∀ (s : State) (n : BitVec 4) (t : BitVec 16) (s1 : State),
    n.toNat < 12 → s.regB R_MON_CTL 0 = true → s1 = s.tempIn n.toNat t → sg false s1.mon.warm n.toNat = false →
    (s1.warnAt * 16 : Int) < t.toInt →
    exec (.thermalWarning n t) s = .next (((s1.modMon (fun m =>
      { m with warm := sp false m.warm n.toNat true })).monInt 0).event 0x0420 (srcBlock R_MON_ID) [])) ∧
  (∀ (s : State) (n : BitVec 4) (t : BitVec 16) (s1 : State),
    n.toNat < 12 → s.regB R_MON_CTL 0 = true → s1 = s.tempIn n.toNat t → sg false s1.mon.warm n.toNat = true → t.toInt
    < s1.warnEnd * 16 →
    exec (.thermalWarning n t) s = .next (s1.modMon (fun m => { m with warm := sp false m.warm n.toNat false }))) ∧
  (∀ (s : State) (t0 : BitVec 16) (t1 : BitVec 16) (t2 : BitVec 16) (t3 : BitVec 16),
    s.regB R_MON_CTL 0 = true → s.mtr.linkUp = true →
    exec (.powerDieSensorRead t0 t1 t2 t3) s = .next ((((s.tempIn 12 t0).tempIn 13 t1).tempIn 14 t2).tempIn 15 t3)) ∧
  (∀ (s : State) (n : BitVec 5) (mv : BitVec 16) (s1 : State),
    n.toNat < 24 → s.regB R_MON_CTL 0 = true → s1 = s.modMon (fun m =>
    { m with vread := sp 0 m.vread n.toNat (mv.setWidth 32) }) → mv.toNat < fld (s.voltLim n.toNat) 15 0 →
    exec (.voltageFault n mv) s = .next (((s1.setStat R_MON_VUV n.toNat).monInt 1).event 0x0421 (srcBlock R_MON_ID)
      [])) ∧
  (∀ (s : State) (n : BitVec 5) (mv : BitVec 16) (s1 : State),
    n.toNat < 24 → s.regB R_MON_CTL 0 = true → s1 = s.modMon (fun m =>
    { m with vread := sp 0 m.vread n.toNat (mv.setWidth 32) }) → fld (s.voltLim n.toNat) 15 0 ≤ mv.toNat → fld
    (s.voltLim n.toNat) 31 16 < mv.toNat →
    exec (.voltageFault n mv) s = .next (((s1.setStat R_MON_VOV n.toNat).monInt 2).event 0x0421 (srcBlock R_MON_ID)
      [])) ∧
  (∀ (s : State) (counts : List (BitVec 16)) (ms : Bool) (s1 : State),
    s1 = s.modMon (fun m =>
    { m with rosc := (counts.take 8).zipIdx.foldl (fun t p => sp 0 t p.2 (p.1.setWidth 32)) m.rosc }) →
    exec (.avsUpdate counts ms) s = .next (s1.modReg R_MON_AVSREQ (fun w => putFld w 15 0 (s1.avsNext s1.avsWant
      ms)))) ∧
  (∀ (s : State),
    s.avsOn = true → ((s.regF R_MON_AVSREQ 15 0) = 650 ∨ (s.regF R_MON_AVSREQ 15 0) = 850) →
    exec .avsClamp s = .next ((s.monInt 3).event 0x0422 (srcBlock R_MON_ID) []))

/-- When the commands of this family complete, and the state after each: the spindle's commands and state changes,
heartbeat, chopper, power loss and retracts. Outside these hypotheses a command is refused by the rules, or its event
does not occur (log 1). Model choices in it: log 69, 70, 71, 72, 73, 106, 133, 135. -/
def Obligations.SpindleAndRetractCommandsComplete : Prop :=
  (∀ (s : State),
    s.beating = true →
    exec .heartbeat s = .next (s.modMtr (fun m => { m with hbRun := true }))) ∧
  (∀ (s : State) (x : Accessor),
    s.MtrGranted x →
    exec (.heartbeatKick x) s = .next (s.modMtr (fun m => { m with hbKick := true }))) ∧
  (∀ (s : State),
    exec .hbtoExpiry s = .next (s.modMtr (fun m => { m with hbKick := false }))) ∧
  (∀ (s : State),
    s.hbDue = true →
    exec .heartbeatLoss s = .next (s.hbLost)) ∧
  (∀ (s : State) (x : Accessor),
    s.SpReady x → s.reg R_MTR_MOTPAR ≠ 0 → s.mtr.sp = .off →
    exec (.spindleStart x) s = .next (s.spStart)) ∧
  (∀ (s : State) (x : Accessor),
    s.SpReady x → s.reg R_MTR_MOTPAR ≠ 0 → s.mtr.sp = .brake →
    exec (.spindleStart x) s = .next (s.modMtr (fun m => { m with startLatched := true }))) ∧
  (∀ (s : State) (x : Accessor),
    s.SpReady x → s.mtr.sp ≠ .off → s.mtr.sp ≠ .brake → s.mtr.sp ≠ .gen → s.mtr.sp ≠ .fault →
    exec (.spindleStop x) s = .next (s.spStop)) ∧
  (∀ (s : State) (x : Accessor),
    s.SpReady x → (s.mtr.sp = .run ∨ s.mtr.sp = .step) →
    exec (.spindleStep x) s = .next (s.spStep)) ∧
  (∀ (s : State) (x : Accessor),
    s.MtrGranted x → s.mtr.linkUp = true → s.mtr.sp ≠ .off → s.mtr.sp ≠ .gen → s.mtr.sp ≠ .fault → s.mtr.allParked =
    true →
    exec (.coast x) s = .next ((s.modMtr (fun m => { m with startLatched := false })).spOff)) ∧
  (∀ (s : State) (x : Accessor),
    s.SpReady x → s.mtr.sp = .fault →
    exec (.clrflt x) s = .next (s.spOff)) ∧
  (∀ (s : State) (x : Accessor) (data : Word),
    s.MtrGranted x → s.spCmd (fld data 31 28) = none →
    exec (.spindleCmdIgnored x data) s = .next (s.mtrInt 3)) ∧
  (∀ (s : State) (x : Accessor) (data : Word),
    s.Granted x R_MTR_ID true →
    exec (.retractCommand x data) s = .next (s.retCmd x.ridge data)) ∧
  (∀ (s : State) (rev : Bool) (rpm : BitVec 16),
    s.mtr.sp = .probe →
    exec (.probeEnd rev rpm) s = .next (s.probeEnd rev rpm.toNat)) ∧
  (∀ (s : State),
    s.mtr.sp = .ipd →
    exec .ipdDone s = .next (s.setSp .kick)) ∧
  (∀ (s : State),
    (s.mtr.sp = .kick ∨ s.mtr.sp = .catching) → s.mtr.obsValid = true →
    exec .kickObserverValid s = .next (s.setSp .run)) ∧
  (∀ (s : State) (s1 : State),
    s.mtr.sp = .kick → s1 = s.modMtr (fun m => { m with attempt := m.attempt + 1 }) → atLeast1 (s.regF R_MTR_KICKCFG
    11 8) ≤ s.mtr.attempt + 1 →
    exec .kickTimeout s = .next (s1.spFail)) ∧
  (∀ (s : State) (s1 : State),
    s.mtr.sp = .kick → s1 = s.modMtr (fun m => { m with attempt := m.attempt + 1 }) → s.mtr.attempt + 1 < atLeast1
    (s.regF R_MTR_KICKCFG 11 8) →
    exec .kickTimeout s = .next ((s1.modMtr (fun m => { m with toIpd := true })).setSp .revbrk)) ∧
  (∀ (s : State),
    (s.mtr.sp = .run ∨ s.mtr.sp = .step) → s.mtr.atSpeed = false → 64 ≤ s.mtr.inBand →
    exec .atSpeedSet s = .next ((s.modMtr (fun m => { m with atSpeed := true, reached := true })).mtrInt 1)) ∧
  (∀ (s : State),
    s.nearTarget 2 = false →
    exec .atSpeedClear s = .next (s.modMtr (fun m => { m with atSpeed := false, inBand := 0 }))) ∧
  (∀ (s : State),
    s.mtr.reached = false → (s.mtr.starting ∨ s.mtr.sp = .run ∨ s.mtr.sp = .step) →
    exec .spinupTimeout s = .next (s.spFail)) ∧
  (∀ (s : State),
    s.mtr.sp = .step → s.nearTarget 1 = true →
    exec .stepComplete s = .next ((s.modMtr (fun m => { m with shortBrake := false })).setSp .run)) ∧
  (∀ (s : State),
    s.slowerThan 5 = true → s.mtr.sp = .revbrk →
    exec .brakeComplete s = .next ((s.modMtr (fun m => { m with toIpd := false })).setSp .ipd)) ∧
  (∀ (s : State),
    s.slowerThan 5 = true → s.mtr.sp = .brake →
    exec .brakeComplete s = .next (s.spOff)) ∧
  (∀ (s : State) (vmot : BitVec 16),
    s.mtr.chopOn = false → s.chopOnMv < vmot.toNat →
    exec (.chopperEngage vmot) s = .next ((s.modMtr (fun m => { m with chopOn := true })).bump R_MTR_ERRCNT 15 0 1)) ∧
  (∀ (s : State) (vmot : BitVec 16),
    vmot.toNat < s.chopOffMv →
    exec (.chopperRelease vmot) s = .next (s.modMtr (fun m => { m with chopOn := false }))) ∧
  (∀ (s : State) (x : Accessor),
    s.MtrGranted x →
    exec (.chopperSelftest x) s = .next (s.chopTest)) ∧
  (∀ (s : State) (vmot : BitVec 16) (on : BitVec 16) (off : BitVec 16),
    s.regB R_MTR_CHOPTEST 31 = true →
    exec (.chopperSelftestDone vmot on off) s = .next (((s.setReg R_MTR_CHOPTEST (BitVec.ofNat 32 (2 ^ 30 + b2n
      (s.chopPass vmot.toNat on.toNat off.toNat) * 2 ^ 29 + on.toNat))).modMtr (fun m =>
      { m with regenOk := m.regenOk || s.chopPass vmot.toNat on.toNat off.toNat })).mtrInt 12)) ∧
  (∀ (s : State) (rising : Bool) (vmot : BitVec 16) (cur : BitVec 16),
    s.mtr.chopOn = true → (rising = true ∨ s.chopCurrentOk vmot.toNat cur.toNat = false) →
    exec (.chopperFault rising vmot cur) s = .next (((s.modMtr (fun m =>
      { m with chopOn := false, chopFlt := true })).regenLost.pdflt 3).mtrInt 6)) ∧
  (∀ (s : State) (vmot : BitVec 16),
    s.mtr.clamp = false → decide (vmot.toNat < 15000) = false →
    exec (.overvoltageClamp vmot) s = .next ((((s.modMtr (fun m => { m with clamp := true })).regenLost).pdflt
      2).mtrInt 7)) ∧
  (∀ (s : State) (vmot : BitVec 16),
    s.mtr.clamp = true → vmot.toNat < 14500 →
    exec (.clampRelease vmot) s = .next ((s.modMtr (fun m =>
      { m with clamp := false, after := .none, toIpd := false, atSpeed := false })).setSp .brake)) ∧
  (∀ (s : State) (succ : Bool) (cur : BitVec 16) (s1 : State),
    6000 < cur.toNat → s1 = (s.modMtr (fun m => { m with trips := if succ then m.trips + 1 else 1 })).bump
    R_MTR_ERRCNT 31 16 1 → s1.mtr.trips < 8 →
    exec (.overcurrentTrip succ cur) s = .next (s1)) ∧
  (∀ (s : State) (succ : Bool) (cur : BitVec 16) (s1 : State),
    6000 < cur.toNat → s1 = (s.modMtr (fun m => { m with trips := if succ then m.trips + 1 else 1 })).bump
    R_MTR_ERRCNT 31 16 1 → 8 ≤ s1.mtr.trips →
    exec (.overcurrentTrip succ cur) s = .next ((((s1.modMtr (fun m =>
      { m with trips := 0, after := .none, toIpd := false, atSpeed := false })).setSp .fault).pdflt 4).mtrInt 8)) ∧
  (∀ (s : State) (vmot : BitVec 16),
    (s.mtr.sp = .off ∨ s.mtr.sp = .fault) → s.mtr.isoClosed = false → 10800 < vmot.toNat →
    exec (.isolationFetClose vmot) s = .next (s.modMtr (fun m =>
      { m with isoClosed := true, pfailN := true, loss := false }))) ∧
  (∀ (s : State) (vmot : BitVec 16),
    s.mtr.sp = .gen → (vmot.toNat < 8500 ∨ s.slowerThan 600) →
    exec (.genLowVmotRetract vmot) s = .next (((s.pdflt 9).autoRetract).genParked)) ∧
  (∀ (s : State) (vmot : BitVec 16) (s1 : State),
    vmot.toNat < 5000 → s1 = (s.modMtr (fun m => { m with retracting := Two.all false, after := .none })).pdflt 6 →
    exec (.vmotCollapse vmot) s = .next (if s1.mtr.sp = .fault then s1 else (s1.modMtr (fun m =>
      { m with startLatched := false })).spOff)) ∧
  (∀ (s : State),
    s.mtr.sp = .gen → s.mtr.genRetract = false → s.mtr.pfailSeen = true → s.win.flushing.a = false → s.win.flushing.b
    = false →
    exec .powerReturn s = .next (((s.modMtr (fun m =>
      { m with
          isoClosed := true,
          pfailN := true,
          loss := false,
          cons := false,
          pfailSeen := false,
          pfStep := 0 })).setSp .run).mtrInt 5)) ∧
  (∀ (s : State) (a : Side) (emf : BitVec 16) (cur : BitVec 16),
    s.mtr.retracting.get a = true → 10 * emf.toNat < s.mtr.retVel → s.mtr.retI ≤ cur.toNat →
    exec (.retractDone a emf cur) s = .next (((s.modMtr (fun m =>
      { m with retracting := m.retracting.set a false, park := m.park.set a .parked })).mtrInt 9).afterRetract)) ∧
  (∀ (s : State) (a : Side) (ms : BitVec 16),
    s.mtr.retracting.get a = true → s.mtr.retT ≤ ms.toNat →
    exec (.retractTimeout a ms) s = .next (((((s.modMtr (fun m =>
      { m with
          retracting := m.retracting.set a false,
          park := m.park.set a .unknown,
          vcCmd := m.vcCmd.set a 0,
          retFailed := true })).modRedun a (fun r =>
      { r with retTimes := (s.evr.ot.toNat :: r.retTimes).take 2 })).pdflt 5).mtrInt 10).afterRetract)) ∧
  (∀ (s : State),
    exec .powerDieThermalTrip s = .next ((s.pdflt 8).hbLost)) ∧
  (∀ (s : State),
    exec .powerDiePowerOn s = .next ((s.setReg R_MTR_PDFLT 0).modMtr (fun m =>
      { m with
          sp := .off,
          park := Two.all .unknown,
          retracting := Two.all false,
          after := .none,
          isoClosed := false,
          clamp := false,
          chopOn := false,
          hbRun := false,
          obsValid := false,
          retCfg := Mtr.reset.retCfg,
          vcCmd := Two.all 0,
          qCmd := 0,
          trips := 0 }))) ∧
  (∀ (s : State) (v5 : BitVec 16),
    v5.toNat < 4500 →
    exec (.v5Undervoltage v5) s = .next (s.pdflt 7)) ∧
  (∀ (s : State) (x : Accessor) (ch : BitVec 2),
    s.MtrGranted x →
    exec (.currentSenseSpare x ch) s = .next ((s.modReg R_MTR_ISENSE (fun w => putFld w 1 0 ch.toNat)).sparePlace
      ch.toNat)) ∧
  (∀ (s : State) ch,
    s.mtr.spareFor = some ch → s.senseHeld ch = false →
    exec .currentSenseSpareReturn s = .next ((s.modMtr (fun m =>
      { m with spareFor := m.spareReq, spareReq := none })).handBack (fun x => x.kind == 2 && x.target == ch)))

/-- When the commands of this family complete, and the state after each: GPIO edges, PWRDIS, JTAG instructions and the
activity lamp. Outside these hypotheses a command is refused by the rules, or its event does not occur (log 1). Model
choices in it: log 24, 89. -/
def Obligations.PackagePinsComplete : Prop :=
  (∀ (s : State) (n : BitVec 4) (rising : Bool) (s1 : State),
    s.gpdUp = true → s.gpioInput n.toNat = true → s.regB R_GPD_CTL 0 = true → bit s.pins.gpioIn n.toNat ≠ rising → s1
    = s.modPins (fun p => { p with gpioIn := putBit p.gpioIn n.toNat rising }) →
    exec (.gpioEdge n rising) s = .next (if s1.regB R_GPD_CTL (16 + n.toNat) = rising then s1.setStat R_GPD_INTSTAT
      n.toNat else s1)) ∧
  (∀ (s : State),
    s.pins.pwrdis = false →
    exec .pwrdisRise s = .next (((s.modPins (fun p => { p with pwrdis := true })).setStat R_GPD_INTSTAT
      16).libShutdown)) ∧
  (∀ (s : State),
    s.pins.pwrdis = true →
    exec .pwrdisFall s = .next (((s.modPins (fun p => { p with pwrdis := false })).setStat R_GPD_INTSTAT 17).spWrite
      1)) ∧
  (∀ (s : State) (ir : Nat),
    ir = 1 →
    exec (.jtagInstruction ir) s = .next (s.modPins (fun p => { p with jtagIr := 1, jtagDr := jtagId }))) ∧
  (∀ (s : State) (ir : Nat),
    (ir = 0 ∨ (ir ≠ 1 ∧ s.regB R_GPD_DBGCTL 0 = false)) →
    exec (.jtagInstruction ir) s = .next (s.modPins (fun p => { p with jtagIr := 0, jtagDr := 0 }))) ∧
  (∀ (s : State) (ir : Nat),
    ir ≠ 0 → ir ≠ 1 → s.regB R_GPD_DBGCTL 0 = true →
    exec (.jtagInstruction ir) s = .next ((s.modPins (fun p =>
      { p with jtagIr := ir, jtagDr := s.free 32 })).freeNext)) ∧
  (∀ (s : State),
    s.actBlinks = true →
    exec .actNBlink s = .next (s.modPins (fun p => { p with blinkLow := !p.blinkLow })))

/-- When the commands of this family complete, and the state after each: signals, flags, comparators, POST, FLUSH,
angle reads and the release of a WAIT. Outside these hypotheses a command is refused by the rules, or its event does
not occur (log 1). Model choices in it: log 32, 35, 53. -/
def Obligations.SpurLocalPortsComplete : Prop :=
  (∀ (s : State) (c : CtxId) (data : DWord),
    s.ridgeLive c.ridge = true →
    exec (.sig0 c data) s = .next (s.sig0 c data)) ∧
  (∀ (s : State) (c : CtxId) (data : DWord),
    s.ridgeLive c.ridge = true →
    exec (.sig1 c data) s = .next (s.sig1 c data)) ∧
  (∀ (s : State) (c : CtxId) (data : DWord),
    s.ridgeLive c.ridge = true →
    exec (.ffSet c data) s = .next (s.ffSet c data)) ∧
  (∀ (s : State) (c : CtxId) (data : DWord),
    s.ridgeLive c.ridge = true →
    exec (.ffClear c data) s = .next (s.ffClear c data)) ∧
  (∀ (s : State) (c : CtxId) (data : DWord),
    s.ridgeLive c.ridge = true →
    exec (.eventAck c data) s = .next (s.modCtx c (fun x => x.evAck data))) ∧
  (∀ (s : State) (c : CtxId) (n : BitVec 5),
    s.ridgeLive c.ridge = true → s.angUp c.ridge = true →
    exec (.arm c n) s = .next (s.modAng c.ridge (fun a =>
      { a with
          cmps := sp Cmp.default a.cmps n.toNat
            { sg Cmp.default a.cmps n.toNat with armed := true, hit := false, value := (s.ctx c).stagedAt 0x22 } }))) ∧
  (∀ (s : State) (c : CtxId) (n : BitVec 5),
    s.ridgeLive c.ridge = true → s.angUp c.ridge = true →
    exec (.disarm c n) s = .next (s.modAng c.ridge (fun a =>
      { a with
          cmps := sp Cmp.default a.cmps n.toNat { sg Cmp.default a.cmps n.toNat with armed := false, hit := false }
            }))) ∧
  (∀ (s : State) (c : CtxId) (t : Quad),
    s.ridgeLive c.ridge = true → s.fabricOn = true → s.owns c.ridge t = true → (s.wsc = false ∨ t.slot ≠ .b) → (s.tl
    t).aeq.length < 256 →
    exec (.post c t) s = .next (s.modTile t (fun x =>
      { x with aeq := x.aeq ++ [⟨(s.ctx c).stagedAt 0x20, ((s.ctx c).stagedAt 0x21).setWidth 32⟩] }))) ∧
  (∀ (s : State) (c : CtxId) (src : BitVec 3),
    s.ridgeLive c.ridge = true →
    exec (.angRead c src) s = .next (s.angRead c src.toNat)) ∧
  (∀ (s : State) (c : CtxId) (t : Quad),
    s.ridgeLive c.ridge = true → s.fabricOn = true → s.owns c.ridge t = true →
    exec (.aeqFlush c t) s = .next (s.flushAeq t)) ∧
  (∀ (s : State) (c : CtxId) w,
    s.ridgeLive c.ridge = true → (s.ctx c).waiting = some w → s.cond c w.flags w.cond = true →
    exec (.waitRelease c) s = .next (s.modCtx c Ctx.waitEnds))

/-- When the commands of this family complete, and the state after each: frames down and up, lock, faults, register
accesses, heaters, pairs and the assist limits. Outside these hypotheses a command is refused by the rules, or its
event does not occur (log 1). Model choices in it: log 10, 11, 106. -/
def Obligations.PreampLinkCommandsComplete : Prop :=
  (∀ (s : State) (l : Side),
    exec (.frameSlot l) s = .next (s.frameSlot l)) ∧
  (∀ (s : State) (l : Side) (w : BitVec 40),
    frameOk w = true → fld w 35 32 = 0 → (s.lnk l).listens = true → (s.lnk l).ulock = true →
    exec (.idle l w) s = .next (s.upSlot l true (bit w 36) true)) ∧
  (∀ (s : State) (l : Side) (w : BitVec 40),
    frameOk w = true → fld w 35 32 = 8 → (s.lnk l).listens = true → (s.lnk l).ulock = true →
    exec (.rdrsp l w) s = .next ((s.upSlot l true (bit w 36) true).rdrsp l (fld w 31 24) (fld w 23 8))) ∧
  (∀ (s : State) (l : Side) (w : BitVec 40),
    frameOk w = true → fld w 35 32 = 9 → (s.lnk l).listens = true → (s.lnk l).ulock = true →
    exec (.status l w) s = .next ((s.upSlot l true (bit w 36) true).statusFrame l (BitVec.ofNat 24 (fld w 31 8)))) ∧
  (∀ (s : State) (l : Side) (w : BitVec 40),
    frameOk w = true → fld w 35 32 = 10 → (s.lnk l).listens = true → (s.lnk l).ulock = true →
    exec (.fault l w) s = .next (((s.upSlot l true (bit w 36) true).setReg (lk l R_QLK_PFLT) (BitVec.ofNat 32
      (0x80000000 + fld w 31 8))).setStat (lk l R_QLK_INTSTAT) 3)) ∧
  (∀ (s : State) (l : Side) (w : BitVec 40),
    frameOk w = true → fld w 35 32 ≠ 0 → (fld w 35 32 < 8 ∨ 10 < fld w 35 32) → (s.lnk l).listens = true → (s.lnk
    l).ulock = true →
    exec (.upstreamIgnoredType l w) s = .next ((s.upSlot l true (bit w 36) true).bump (lk l R_QLK_ERRCNT) 15 0 1)) ∧
  (∀ (s : State) (l : Side) (s1 : State),
    (s.lnk l).st ≠ .off → (s.lnk l).lockDue = true → s1 = s.modLink l (fun x => { x with ulock := true, badRun := 0 })
    →
    exec (.upstreamLock l) s = .next (if (s1.lnk l).st = .train ∧ (s1.lnk l).startRd = false then s1.modLink l (fun x
      => { x with startRd := true, txq := x.txq ++ [startFrame] }) else s1)) ∧
  (∀ (s : State) (l : Side),
    (s.lnk l).lossDue = true →
    exec (.upstreamLockLoss l) s = .next (s.modLink l (fun x => { x with ulock := false, goodRun := 0 }))) ∧
  (∀ (s : State) (l : Side),
    (s.lnk l).st = .run → 31 ≤ (s.lnk l).quiet →
    exec (.upstreamSilence l) s = .next (s.linkFault l 2 0)) ∧
  (∀ (s : State) (l : Side) (w : BitVec 40) (f : Frame) (g1 : Frame) (g2 : Frame) (rest : List Frame),
    (s.lnk l).flight = f :: g1 :: g2 :: rest → s.retryMax l ≤ f.retries → f.typ ≠ .idle → f.typ ≠ .mact → f.typ ≠
    .safe → bit w 36 = true → frameOk w = true → fld w 35 32 = 0 → (s.lnk l).listens = true → (s.lnk l).ulock = true →
    exec (.retriesExhausted l w) s = .next (s.upSlot l true true true)) ∧
  (∀ (s : State) (l : Side) a,
    (s.lnk l).regAcc = some a → a.isRead = true → a.acked = true →
    exec (.registerAccessTimeout l) s = .next (s.failReg l)) ∧
  (∀ (s : State) (x : Accessor) (l : Side),
    s.Granted x (lk l R_QLK_CTL) (s.ownsLink x.ridge l) →
    exec (.linkStart x l) s = .next (s.linkStart l)) ∧
  (∀ (s : State) (l : Side),
    (s.lnk l).st = .train →
    exec (.linkStartTimeout l) s = .next ((((s.modLink l (fun x =>
      { x.clearTx with st := .fault, faults := x.faults + 1, startRd := false })).failReg l).setStat (lk l
      R_QLK_INTSTAT) 7).event 0x0301 (srcBlock (lk l R_QLK_ID)) [(0, BitVec.ofNat 32 l.idx), (1, 3), (2, 0)])) ∧
  (∀ (s : State) (x : Accessor) (l : Side),
    s.Granted x (lk l R_QLK_CTL) (s.ownsLink x.ridge l) →
    exec (.linkStop x l) s = .next (s.linkStop l)) ∧
  (∀ (s : State) (x : Accessor) (l : Side) (addr : Byte),
    s.Granted x (lk l R_QLK_CTL) (s.ownsLink x.ridge l) →
    exec (.preampRegisterRead x l addr) s = .next (s.regCmd l true addr.toNat 0)) ∧
  (∀ (s : State) (x : Accessor) (l : Side) (addr : Byte) (val : BitVec 16),
    s.Granted x (lk l R_QLK_CTL) (s.ownsLink x.ridge l) →
    exec (.preampRegisterWrite x l addr val) s = .next (s.regCmd l false addr.toNat val.toNat)) ∧
  (∀ (s : State) (x : Accessor) (l : Side) (head : BitVec 4) (level : BitVec 12),
    s.Granted x (lk l R_QLK_CTL) (s.ownsLink x.ridge l) →
    exec (.heaterCommand x l head level) s = .next (s.heater l head.toNat level)) ∧
  (∀ (s : State) (x : Accessor) (l : Side) (data : Word),
    s.Granted x (lk l R_QLK_CTL) (s.ownsLink x.ridge l) →
    exec (.safeCommand x l data) s = .next (s.safeCmd l data)) ∧
  (∀ (s : State) (x : Accessor) (l : Side) (data : Word),
    s.Granted x (lk l R_QLK_CTL) (s.ownsLink x.ridge l) →
    exec (.pairMapWrite x l data) s = .next (s.pairWrite l data)) ∧
  (∀ (s : State) (l : Side) (s1 : State),
    (s.lnk l).paflt = false → s1 = ((s.forceSlots l).modLink l (fun x => { x with paflt := true })) →
    exec (.preampFaultLine l) s = .next ((s1.setStat (lk l R_QLK_INTSTAT) 2).event 0x0302 (srcBlock (lk l R_QLK_ID))
      [(0, BitVec.ofNat 32 l.idx), (1, s1.reg (lk l R_QLK_PFLT))])) ∧
  (∀ (s : State) (l : Side),
    exec (.preampFaultRelease l) s = .next (s.modLink l (fun x => { x with paflt := false }))) ∧
  (∀ (s : State) (l : Side) (w : BitVec 40),
    frameOk w = false → (s.lnk l).listens = true →
    exec (.upstreamFrameFailure l w) s = .next (((s.upSlot l false true false).modLink l (fun x =>
      { x with goodRun := 0, badRun := (s.lnk l).badRun + 1 })).bump (lk l R_QLK_ERRCNT) 15 0 1)) ∧
  (∀ (s : State) (t : Quad) (now : DWord),
    s.canReach (s.angSide t) now = true → (s.tl t).ag = true → (s.tl t).wg = false → (s.tl t).wgSinceAg = false →
    (s.tl t).agRose.toInt + s.regF (lk t.act R_QLK_GATECFG) 31 16 ≤ s.streamAcAt t now →
    exec (.assistLeadLimit t now) s = .next (((s.reach t now).modTile t (fun x =>
      { x with ag := false, wgFell := none })).setStat (lk t.act R_QLK_INTSTAT) 4)) ∧
  (∀ (s : State) (t : Quad) (now : DWord) a,
    (s.tl t).wgFell = some a → s.canReach (s.angSide t) now = true → (s.tl t).ag = true → (s.tl t).wg = false →
    a.toInt + s.regF (lk t.act R_QLK_GATECFG) 15 0 ≤ s.streamAcAt t now →
    exec (.assistTailLimit t now) s = .next (((s.reach t now).modTile t (fun x =>
      { x with ag := false, wgFell := none })).setStat (lk t.act R_QLK_INTSTAT) 5))

/-- When the commands of this family complete, and the state after each: posts, groups, tokens, records, scans, the
calendar and seals. Outside these hypotheses a command is refused by the rules, or its event does not occur (log 1).
Model choices in it: log 5, 52, 133, 152. -/
def Obligations.RecorderCommandsComplete : Prop :=
  (∀ (s : State) (c : CtxId) (rom : Bool),
    s.ridgeLive c.ridge = true → s.evrUp = true → s.regB R_EVR_CTL 0 = true → bit ((s.ctx c).stagedAt 0xD5) 19 = false
    → (fld ((s.ctx c).stagedAt 0xD5) 15 0 < 0x0800 ∨ 0x7FFF < fld ((s.ctx c).stagedAt 0xD5) 15 0) → (chainCode (fld
    ((s.ctx c).stagedAt 0xD5) 15 0) = false ∨ rom = true) → (fld ((s.ctx c).stagedAt 0xD5) 15 0 ≠ 0x01F0 ∨
    s.evr.spanOpen = true) →
    exec (.eventPost c rom) s = .next (s.postFirst c (BitVec.ofNat 16 (fld ((s.ctx c).stagedAt 0xD5) 15 0)) (fld
      ((s.ctx c).stagedAt 0xD5) 18 16) (if 0x8000 ≤ fld ((s.ctx c).stagedAt 0xD5) 15 0 then bit ((s.ctx c).stagedAt
      0xD5) 20 else evClass1 (BitVec.ofNat 16 (fld ((s.ctx c).stagedAt 0xD5) 15 0))) (s.ctx c).evParams)) ∧
  (∀ (s : State) (c : CtxId),
    exec (.groupExpiry c) s = .next (s.dropGroup c)) ∧
  (∀ (s : State) (bucket : BitVec 11),
    exec (.tokenRefill bucket) s = .next (if (sg Bucket.default s.evr.buckets bucket.toNat).supp ≠ 0 ∧ s.evr.used < 64
      then s.summary bucket.toNat else s.modEvr (fun e =>
      { e with
          buckets := sp Bucket.default e.buckets bucket.toNat
            { (sg Bucket.default s.evr.buckets bucket.toNat) with
                tokens := min (sg Bucket.default s.evr.buckets bucket.toNat).burst ((sg Bucket.default s.evr.buckets
                  bucket.toNat).tokens + 1) } }))) ∧
  (∀ (s : State),
    s.evrUp = true →
    exec .recordWrite s = .next (s.recordWrite)) ∧
  (∀ (s : State),
    (s.regF R_EVR_CTL 15 8) ≠ 0 → s.evrUp = true → ¬ (s.evr.ot.toNat < s.evr.recOt.toNat + (s.regF R_EVR_CTL 15 8) *
    60000) →
    exec .otCheckpoint s = .next (s.event 0x0001 (srcBlock R_EVR_ID) [])) ∧
  (∀ (s : State),
    s.evr.scanDone = false → s.newestRec (fun _ => true) = none →
    exec .ringScan s = .next (s.modEvr (fun e => e.scanned 1 0 1 none))) ∧
  (∀ (s : State) (w : BitVec 512),
    s.evr.scanDone = false → s.newestRec (fun _ => true) = some w →
    exec .ringScan s = .next (s.modEvr (fun e => e.scanned (BitVec.ofNat 48 (fld w 47 0 + 1)) (BitVec.ofNat 64 (fld w
      159 96)) (BitVec.ofNat 32 (fld w 191 160 + 1)) s.openSpanFound))) ∧
  (∀ (s : State) (data : Word),
    s.evrUp = true →
    exec (.calendarSet data) s = .next (s.calendarSet data)) ∧
  (∀ (s : State) (x : Accessor),
    s.Granted x R_EVR_ID true →
    exec (.evrOtLatch x) s = .next (s.modEvr (fun e => { e with otLatch := e.ot }))) ∧
  (∀ (s : State) (ok : Bool) (seq : BitVec 48) (h : BitVec 384) (k : BitVec 384),
    s.evr.sealPend = some (seq, h) → s.cry.busy.all (fun o => s.sealFirst o) = true → ok = true → s.cry.aliasKey =
    some k →
    exec (.sealSign ok) s = .next (((s.modEvr (fun e => { e with sealPend := none })).modEvr (fun e =>
      { e with
          intake := e.intake ++ [sigGroup e seq (bytesBE 96 (Config.ecSign k (Config.sha384 (bytesBE 48 h))))]
            })).evrInt 3)) ∧
  (∀ (s : State) (ok : Bool) (seq : BitVec 48) (h : BitVec 384),
    s.evr.sealPend = some (seq, h) → s.cry.busy.all (fun o => s.sealFirst o) = true → ok = false →
    exec (.sealSign ok) s = .next ((s.modEvr (fun e => { e with sealPend := none })).evrInt 4))

/-- When the commands of this family complete, and the state after each: power-on, full and block resets, watchdogs,
release and the measured boot. Outside these hypotheses a command is refused by the rules, or its event does not occur
(log 1). Model choices in it: log 30, 31, 34, 96, 97, 99. -/
def Obligations.ResetAndBootCommandsComplete : Prop :=
  (∀ (s : State) (groups : BitVec 4),
    groups ≠ 0 →
    exec (.powerOnReset groups) s = .next (s.powerOn groups)) ∧
  (∀ (s : State),
    exec .resetN s = .next ((s.modPins (fun p => { p with resetN := false })).requestFull 4 (fun p =>
      { p with latchedN := true }))) ∧
  (∀ (s : State),
    exec .vmotUndervoltageReset s = .next ((s.setStat R_RST_CAUSE 15).fullReset false)) ∧
  (∀ (s : State) (x : Accessor) (data : Word),
    s.Granted x R_RCP_ID true →
    exec (.softwareFullReset x data) s = .next (s.swReset data)) ∧
  (∀ (s : State),
    s.mtr.sp ≠ .gen →
    exec .fullReset s = .next (s.fullReset false)) ∧
  (∀ (s : State) (n : BitVec 4) (t : BitVec 16),
    n.toNat < 12 → 2000 ≤ t.toInt →
    exec (.thermalTrip n t) s = .next (((((s.tempIn n.toNat t).modPins (fun p =>
      { p with thermTrip := true })).setStat R_RST_CAUSE 14).fullReset true).modRcp (fun p =>
      { p with thermHold := true }))) ∧
  (∀ (s : State) (temps : List (BitVec 16)),
    s.rcp.thermHold = true → temps.length = 12 → temps.all (fun t => decide (t.toInt < 1760)) = true →
    exec (.thermalTripRelease temps) s = .next (((temps.zipIdx.foldl (fun (u : State) p => u.tempIn p.2 p.1)
      s).modPins (fun p => { p with thermTrip := false })).modRcp (fun p => { p with thermHold := false }))) ∧
  (∀ (s : State) (x : Accessor) (data : Word),
    s.Granted x R_RCP_ID true →
    exec (.softwareBlockReset x data) s = .next (s.blkReset x.ridge data)) ∧
  (∀ (s : State),
    s.rcp.blkBusy.isSome = true →
    exec .blockResetDone s = .next ((s.modRcp (fun p => { p with blkBusy := none })).rcpInt 0)) ∧
  (∀ (s : State) (r : Side) (blk : BitVec 9) (b : Nat),
    selBase r blk.toNat = some b → bit (s.bwdCfg r blk.toNat) 31 = true → s.blockUp b = true →
    exec (.blockWatchdog r blk) s = .next ((((s.setStat R_RST_CAUSE 18).rcpInt 1).event 0x0021 (srcBlock R_RCP_ID)
      []).startBlockReset blk.toNat b)) ∧
  (∀ (s : State) (r : Side),
    s.ridgeExpired r = true →
    exec (.ridgeWatchdog r) s = .next (if s.ridgeLive r then ((s.fence r 4).ridgeReset r).kickRidge r
else (s.fence r
      4).kickRidge r)) ∧
  (∀ (s : State) (x : Accessor) (r : Side),
    s.Granted x R_RCP_ID true →
    exec (.watchdogKick x r) s = .next (s.kickRidge r)) ∧
  (∀ (s : State) (straps : Straps) (fuse0 : List Word) (fuse1 : List Word),
    s.rcp.asserted = true → s.rcp.thermHold = false →
    exec (.resetRelease straps fuse0 fuse1) s = .next (s.release straps fuse0 fuse1)) ∧
  (∀ (s : State),
    s.rcp.asserted = true → s.rcp.thermHold = false →
    exec .noxtal s = .next (s.modRcp (fun p => { p with asserted := false, noxtal := true, phase := .fuse }))) ∧
  (∀ (s : State) (p : Side) (len : Word),
    s.rcp.phase = .boot → s.rcp.straps.bootsrc = 1 + p.idx →
    exec (.hostPushLength p len) s = .next (s.modRcp (fun r => { r with pushLen := some len.toNat }))) ∧
  (∀ (s : State) (len : Word),
    (s.rcp.phase = .recovery ∨ (s.rcp.phase = .boot ∧ s.rcp.straps.bootsrc = 3 ∧ s.regB R_GPD_DBGCTL 1 = true)) →
    exec (.uartImageReceived len) s = .next (s.modRcp (fun r => { r with pushLen := some len.toNat }))) ∧
  (∀ (s : State) (r : Side) (b : BootIn),
    s.bootReady r = true →
    exec (.measuredBoot r b) s = .next (s.boot r b))

/-- When the commands of this family complete, and the state after each: ticks, task passes, ramps, modes, seeks,
nodes, traces and stale limits. Outside these hypotheses a command is refused by the rules, or its event does not
occur (log 1). Model choices in it: log 62, 63, 64, 67, 115, 130, 131, 134. -/
def Obligations.ServoControlCommandsComplete : Prop :=
  (∀ (s : State) (r : Side) (q : Quad) (blocks : Nat) (inp : PassIn),
    s.passReady r q = true →
    exec (.taskPass r q blocks inp) s = .next (s.runPass r q blocks inp)) ∧
  (∀ (s : State) (r : Side) (data : Word),
    s.cenUp r = true →
    exec (.rampGo r data) s = .next (s.rampGo r (s.regF (rk r R_CEN_RAMPSEL) 2 0) data)) ∧
  (∀ (s : State) (c : CtxId) (data : DWord),
    s.ridgeLive c.ridge = true →
    exec (.modeRequest c data) s = .next (s.modeRequest c data)) ∧
  (∀ (s : State) (act : Side) (k : Nat) (ac : DWord) (sk : Option DWord) (s1 : State),
    (s.modeOf .a act).pend = some (k, ac, sk) → s.switchDue .a act = true → s1 = s.applyMode .a act k sk →
    s1.switchDue .b act = false →
    exec (.modeSwitch act) s = .next (s1.genParked)) ∧
  (∀ (s : State) (c : CtxId) (data : DWord),
    s.ridgeLive c.ridge = true →
    exec (.seekRequest c data) s = .next (s.seekRequest c data)) ∧
  (∀ (s : State) (r : Side) (series : Quad) (now : DWord) (g : Four GuideIn) (rpm : BitVec 16),
    s.angUp r = true → (s.an r).src ≠ .none → s.regB (rk r R_ANG_TICKCFG) series.idx = true → s.canReach r now = true
    → s.tickDue r series now = true →
    exec (.sampleTick r series now g rpm) s = .next (s.tick r series now g rpm)) ∧
  (∀ (s : State) (r : Side) (dest : BitVec 4),
    s.cenUp r = true → (sg none (s.ce r).outs dest.toNat).isSome = true → sg false (s.ce r).hold dest.toNat = false →
    exec (.staleLimitExpiry r dest) s = .next (s.modCen r (fun e =>
      { e with hold := sp false e.hold dest.toNat true }))) ∧
  (∀ (s : State) (r : Side) (dest : BitVec 4),
    s.cenUp r = true → (sg none (s.ce r).outs dest.toNat).isSome = true → sg false (s.ce r).hold dest.toNat = true →
    s.destIdle r dest.toNat = false →
    exec (.staleLimitExpiry r dest) s = .next ((s.setStat (rk r R_CEN_FLT) (staleBit dest.toNat)).cenInt r 0)) ∧
  (∀ (s : State) (c : CtxId) (data : DWord),
    s.ridgeLive c.ridge = true →
    exec (.nodeWrite c data) s = .next (s.nodeWrite c data)) ∧
  (∀ (s : State) (c : CtxId) (data : DWord),
    s.ridgeLive c.ridge = true →
    exec (.coefWrite c data) s = .next (s.coefWrite c data)) ∧
  (∀ (s : State) (r : Side),
    16 ≤ (s.ce r).xRun →
    exec (.outputCrosscheckFault r) s = .next (((s.modCen r (fun e => { e with xRun := 0 })).cenInt r 9).event
      Config.eventOutputCross (srcBlock (rk r R_CEN_ID)) [])) ∧
  (∀ (s : State) (r : Side),
    s.cenUp r = true →
    exec (.nodeSync r) s = .next (s.nodeSync r)) ∧
  (∀ (s : State) (r : Side),
    (s.ce r).sync = .copying →
    exec (.nodeSyncDone r) s = .next (if s.ridgeSt r.peer = .inService then s.copyNodes r else s.syncFail r)) ∧
  (∀ (s : State) (r : Side) (data : Word),
    s.cenUp r = true →
    exec (.traceArm r data) s = .next (s.traceCfg r (s.trcSel r) (setBit data 31))) ∧
  (∀ (s : State) (r : Side) (data : Word),
    s.cenUp r = true →
    exec (.traceForce r data) s = .next (s.traceCfg r (s.trcSel r) (setBit (clrBit data 31) 30)))

/-- When the commands of this family complete, and the state after each: reads that return, URGENT entry, waits,
snapshots, context commands and the control store. Outside these hypotheses a command is refused by the rules, or its
event does not occur (log 1). Model choices in it: log 27, 28, 44, 45, 51, 94, 111, 151. -/
def Obligations.SpurContextCommandsComplete : Prop :=
  (∀ (s : State) (c : CtxId) (port : Nat) o,
    s.ridgeLive c.ridge = true → (s.ctx c).reads.find? (fun o => o.port == port) = some o →
    exec (.portReadReturn c port) s = .next (s.readEnds c o true)) ∧
  (∀ (s : State) (c : CtxId) (port : Nat),
    s.ridgeLive c.ridge = true →
    exec (.portTimeout c port) s = .next (s.portSilent c port)) ∧
  (∀ (s : State) (c : CtxId) (n : Nat) (sn : Snapshot),
    s.ridgeLive c.ridge = true → (s.ctx c).st.runs = true → (s.ctx c).committing = false → (s.ctx c).giving ≠ some
    true → (s.ctx c).urgentLine = some n → (s.ctx c).snap = some sn →
    exec (.urgentEntry c) s = .next (s.urgentEntry c n sn)) ∧
  (∀ (s : State) (c : CtxId),
    s.ridgeLive c.ridge = true → s.regF (rk c.ridge R_SPU_SEGMAX) 15 0 ≠ 0 → (s.ctx c).segWarned = false → (s.ctx
    c).fetches = true →
    exec (.segmentWarning c) s = .next (((s.modCtx c (fun x => { x with segWarned := true })).setStat (rk c.ridge
      R_SPU_SEGWARN) (4 * c.spur.idx + c.no.idx)).spuInt c.ridge 1)) ∧
  (∀ (s : State) (c : CtxId) w,
    s.ridgeLive c.ridge = true → (s.ctx c).waiting = some w → s.waitSpent c w = true →
    exec (.waitTimeout c) s = .next (s.waitExpires c)) ∧
  (∀ (s : State) (c : CtxId) w,
    s.ridgeLive c.ridge = true → (s.ctx c).waiting = some w → w.inAu = true →
    exec (.waitCycleBound c) s = .next (s.waitExpires c)) ∧
  (∀ (s : State) (c : CtxId) (m : MirrorMsg) (rest : List MirrorMsg),
    s.ridgeLive c.ridge = true → (s.ctx c).inbox = m :: rest → (s.ctx c).st = .adopt →
    exec (.snapshotReceive c) s = .next ((s.modCtx c (fun x => { x with inbox := rest, held := some m })).modCtx
      (mateOf c) (fun x => { x with acks := x.acks + 1 }))) ∧
  (∀ (s : State) (c : CtxId) (m : MirrorMsg) (rest : List MirrorMsg),
    s.ridgeLive c.ridge = true → (s.ctx c).inbox = m :: rest → (s.ctx c).st ≠ .adopt →
    exec (.snapshotReceive c) s = .next (((s.modCtx c (fun x => { x with inbox := rest })).spuInt c.ridge 3).modCtx
      (mateOf c) (fun x => { x with acks := x.acks + 1 }))) ∧
  (∀ (s : State) (c : CtxId),
    (s.ctx c).acks ≠ 0 →
    exec (.snapshotAck c) s = .next (s.modCtx c (fun x =>
      { x with acks := x.acks - 1, unacked := x.unacked - 1, ackStall := false }))) ∧
  (∀ (s : State) (c : CtxId) (addr : CsAddr),
    s.ridgeLive c.ridge = true → ((s.ctx c).st = .idle ∨ (s.ctx c).st = .halt ∨ (s.ctx c).st = .fault) →
    exec (.contextStart c addr) s = .next (s.setCtx c ((s.ctx c).start (csAddr addr)))) ∧
  (∀ (s : State) (c : CtxId),
    s.ridgeLive c.ridge = true → (s.ctx c).st ≠ .adopt → (s.ctx c).st.runs = true →
    exec (.contextStop c) s = .next (s.modCtx c (fun x => if x.committing then { x with stopReq := true } else
      x.halted))) ∧
  (∀ (s : State) (c : CtxId) (sn : Snapshot),
    s.ridgeLive c.ridge = true → ((s.ctx c).st = .halt ∨ (s.ctx c).st = .fault) → (s.ctx c).snap = some sn →
    exec (.contextResume c) s = .next (s.setCtx c ((s.ctx c).enter sn))) ∧
  (∀ (s : State) (c : CtxId),
    s.ridgeLive c.ridge = true → (s.ctx c).st = .halt →
    exec (.contextRelease c) s = .next ((s.setCtx c
      { s.ctx c with st := .idle, snap := none, adopted := false, stepReq := false }).adoptEntry)) ∧
  (∀ (s : State) (c : CtxId) (cmd : BitVec 3),
    s.ridgeLive c.ridge = true → 6 ≤ cmd.toNat →
    exec (.contextCmdReserved c cmd) s = .next (s.spuInt c.ridge 2)) ∧
  (∀ (s : State) (r : Side) (hi : Word),
    s.ridgeLive r = true →
    exec (.debugDataWrite r hi) s = .next (s.dbgWrite r hi)) ∧
  (∀ (s : State) (x : Accessor) (data : Word),
    s.Granted x (rk x.ridge R_CST_ID) true →
    exec (.loadWordStore x data) s = .next (s.loadData x 3 data)) ∧
  (∀ (s : State) (x : Accessor) (data : Word),
    s.Granted x (rk x.ridge R_CST_ID) true →
    exec (.loadAddressWrite x data) s = .next (s.loadAddr x data)) ∧
  (∀ (s : State) (r : Side) (off : Nat) (data : Word),
    s.ridgeLive r = true →
    exec (.matchWrite r off data) s = .next (s.matchWrite r off data)) ∧
  (∀ (s : State) (c : CtxId),
    s.ridgeLive c.ridge = true → (s.ctx c).fetches = true → badFetch (s.ctx c).pc = false →
    exec (.cstPeerRefetch c) s = .next (s.fetchUe c)) ∧
  (∀ (s : State) (r : Side),
    s.ridgeLive r = true →
    exec (.bootlockSet r) s = .next (s.bootLock r))

/-- When the commands of this family complete, and the state after each: buffers, moves, reconstruction, scrub checks
and landings. Outside these hypotheses a command is refused by the rules, or its event does not occur (log 1). Model
choices in it: log 8, 77. -/
def Obligations.StripeEngineCommandsComplete : Prop :=
  (∀ (s : State) (c : CtxId) (reg : BitVec 6),
    s.ridgeLive c.ridge = true → s.steOn c.ridge = true →
    exec (.stripeBufferAcquire c reg) s = .next (State.ansReg (s.bufAcquire c) c reg)) ∧
  (∀ (s : State) (c : CtxId) (data : DWord),
    s.ridgeLive c.ridge = true → s.steOn c.ridge = true →
    exec (.stripeBufferRelease c data) s = .next (s.bufRelease c data)) ∧
  (∀ (s : State) (c : CtxId) (w : DWord),
    s.ridgeLive c.ridge = true → s.steOn c.ridge = true →
    exec (.chunkMove c w) s = .next (s.chunkMove c w)) ∧
  (∀ (s : State) (r : Side),
    s.domOn (57 + r.idx) = true → s.regB (rk r R_STE_CTL) 0 = true → s.ridgeLive r = true →
    exec (.sectorLanding r) s = .next (s.landNext r)) ∧
  (∀ (s : State) (c : CtxId) (w : DWord),
    s.ridgeLive c.ridge = true → s.steOn c.ridge = true →
    exec (.reconstructionRequest c w) s = .next (s.reconRequest c w)) ∧
  (∀ (s : State) (c : CtxId) (data : DWord),
    s.ridgeLive c.ridge = true → s.steOn c.ridge = true →
    exec (.scrubCheck c data) s = .next (s.scrubStart c data)) ∧
  (∀ (s : State) (c : CtxId) (reg : BitVec 6),
    s.ridgeLive c.ridge = true → s.steOn c.ridge = true →
    exec (.scrubResultPop c reg) s = .next ((s.scrubPop c.ridge).1.modCtx c (fun x => x.wr reg.toNat (s.scrubPop
      c.ridge).2)))

/-- When the commands of this family complete, and the state after each: a word of each SEQ encoding and a single
step. Outside these hypotheses a command is refused by the rules, or its event does not occur (log 1). Model choices
in it: log 32, 39, 43. -/
def Obligations.MicrowordsComplete : Prop :=
  (∀ (s : State) (c : CtxId) (w : MicroWord) (ce : Bool),
    s.WordDue c w ce 0 →
    exec (.next c w ce) s = .next ((s.afterFetch c ce).runWord c w)) ∧
  (∀ (s : State) (c : CtxId) (w : MicroWord) (ce : Bool),
    s.WordDue c w ce 1 →
    exec (.jump c w ce) s = .next ((s.afterFetch c ce).runWord c w)) ∧
  (∀ (s : State) (c : CtxId) (w : MicroWord) (ce : Bool),
    s.WordDue c w ce 2 →
    exec (.call c w ce) s = .next ((s.afterFetch c ce).runWord c w)) ∧
  (∀ (s : State) (c : CtxId) (w : MicroWord) (ce : Bool),
    s.WordDue c w ce 3 →
    exec (.ret c w ce) s = .next ((s.afterFetch c ce).runWord c w)) ∧
  (∀ (s : State) (c : CtxId) (w : MicroWord) (ce : Bool),
    s.WordDue c w ce 4 →
    exec (.brt c w ce) s = .next ((s.afterFetch c ce).runWord c w)) ∧
  (∀ (s : State) (c : CtxId) (w : MicroWord) (ce : Bool),
    s.WordDue c w ce 5 →
    exec (.brf c w ce) s = .next ((s.afterFetch c ce).runWord c w)) ∧
  (∀ (s : State) (c : CtxId) (w : MicroWord) (ce : Bool),
    s.WordDue c w ce 6 →
    exec (.wait c w ce) s = .next ((s.afterFetch c ce).runWord c w)) ∧
  (∀ (s : State) (c : CtxId) (w : MicroWord) (ce : Bool),
    s.WordDue c w ce 7 →
    exec (.poll c w ce) s = .next ((s.afterFetch c ce).runWord c w)) ∧
  (∀ (s : State) (c : CtxId) (w : MicroWord) (ce : Bool),
    s.WordDue c w ce 8 →
    exec (.disp c w ce) s = .next ((s.afterFetch c ce).runWord c w)) ∧
  (∀ (s : State) (c : CtxId) (w : MicroWord) (ce : Bool),
    s.WordDue c w ce 9 →
    exec (.yield c w ce) s = .next ((s.afterFetch c ce).runWord c w)) ∧
  (∀ (s : State) (c : CtxId) (w : MicroWord) (ce : Bool),
    s.WordDue c w ce 10 →
    exec (.halt c w ce) s = .next ((s.afterFetch c ce).runWord c w)) ∧
  (∀ (s : State) (c : CtxId) (w : MicroWord) (ce : Bool),
    s.WordDue c w ce 11 →
    exec (.loop c w ce) s = .next ((s.afterFetch c ce).runWord c w)) ∧
  (∀ (s : State) (c : CtxId) (w : MicroWord) (ce : Bool),
    12 ≤ wSeq w → s.canIssue c w = true → (s.ctx c).atWord = true →
    exec (.illseq c w ce) s = .next ((s.afterFetch c ce).ctxFault c ((s.afterFetch c ce).fetchAddr c.ridge
      ((s.afterFetch c ce).ctx c).pc) (((s.afterFetch c ce).ctx c).wordFaults w))) ∧
  (∀ (s : State) (c : CtxId) (w : MicroWord) (ce : Bool),
    s.ridgeLive c.ridge = true → (s.ctx c).st = .halt → ((s.ctx c).stepReq = true ∨ s.regB (rk c.ridge R_SPU_GCTL) 8 =
    true) → s.canIssue c w = true →
    exec (.spurStep c w ce) s = .next ((s.modCtx c (fun y => { y with stepReq := false })).issue c w ce))

/-- When the commands of this family complete, and the state after each: the window write, the updates of Table 11.7
and the search. Outside these hypotheses a command is refused by the rules, or its event does not occur (log 1). Model
choices in it: log 75. -/
def Obligations.ZoneTableCommandsComplete : Prop :=
  (∀ (s : State) (x : Accessor) (off : BitVec 22) (data : Word),
    s.Granted x R_ZTB_ID true →
    exec (.ztbWindowWrite x off data) s = .next (s.ztbWindow off.toNat data)) ∧
  (∀ (s : State) (c : CtxId) (w : DWord) (e : ZEntry),
    s.ridgeLive c.ridge = true → s.ztbUp = true → ztbApply (s.zent (fld (ztbOp 1 w) 16 0)) (ztbOp 1 w) = some e →
    exec (.ztbState c w) s = .next ((s.putZent (fld (ztbOp 1 w) 16 0) e).bumpGen)) ∧
  (∀ (s : State) (c : CtxId) (w : DWord) (e : ZEntry),
    s.ridgeLive c.ridge = true → s.ztbUp = true → ztbApply (s.zent (fld (ztbOp 2 w) 16 0)) (ztbOp 2 w) = some e →
    exec (.ztbWp c w) s = .next ((s.putZent (fld (ztbOp 2 w) 16 0) e).bumpGen)) ∧
  (∀ (s : State) (c : CtxId) (w : DWord) (e : ZEntry),
    s.ridgeLive c.ridge = true → s.ztbUp = true → ztbApply (s.zent (fld (ztbOp 3 w) 16 0)) (ztbOp 3 w) = some e →
    exec (.ztbHwp c w) s = .next ((s.putZent (fld (ztbOp 3 w) 16 0) e).bumpGen)) ∧
  (∀ (s : State) (c : CtxId) (w : DWord) (e : ZEntry),
    s.ridgeLive c.ridge = true → s.ztbUp = true → ztbApply (s.zent (fld (ztbOp 4 w) 16 0)) (ztbOp 4 w) = some e →
    exec (.ztbStgadd c w) s = .next ((s.putZent (fld (ztbOp 4 w) 16 0) e).bumpGen)) ∧
  (∀ (s : State) (c : CtxId) (w : DWord) (e : ZEntry),
    s.ridgeLive c.ridge = true → s.ztbUp = true → ztbApply (s.zent (fld (ztbOp 5 w) 16 0)) (ztbOp 5 w) = some e →
    exec (.ztbReset c w) s = .next (((s.putZent (fld (ztbOp 5 w) 16 0) e).bumpGen).zoneCleared (fld (ztbOp 5 w) 16 0)
      e)) ∧
  (∀ (s : State) (c : CtxId) (w : DWord) (e : ZEntry),
    s.ridgeLive c.ridge = true → s.ztbUp = true → ztbApply (s.zent (fld (ztbOp 6 w) 16 0)) (ztbOp 6 w) = some e →
    exec (.ztbDegset c w) s = .next ((s.putZent (fld (ztbOp 6 w) 16 0) e).bumpGen)) ∧
  (∀ (s : State) (c : CtxId) (w : DWord) (e : ZEntry),
    s.ridgeLive c.ridge = true → s.ztbUp = true → ztbApply (s.zent (fld (ztbOp 7 w) 16 0)) (ztbOp 7 w) = some e →
    exec (.ztbFree c w) s = .next ((s.putZent (fld (ztbOp 7 w) 16 0) e).bumpGen)) ∧
  (∀ (s : State) (c : CtxId) (w : DWord),
    s.ridgeLive c.ridge = true → s.ztbUp = true → (fld w 63 60 = 0 ∨ 7 < fld w 63 60) →
    exec (.ztbUpdateRefused c w) s = .next (((s.modZtb (fun z =>
      { z with lastRef := BitVec.ofNat 32 (fld w 63 60 * 2 ^ 28 + fld w 16 0) })).ztbInt 1).refuseCtx c 0xC9 5)) ∧
  (∀ (s : State) (x : Accessor) (data : Word),
    s.Granted x R_ZTB_ID true →
    exec (.zoneScan x data) s = .next (s.scanGo data)) ∧
  (∀ (s : State) (n : Nat),
    s.ztb.scanBusy = true → s.scanFind = some n →
    exec .zoneScanDone s = .next (s.modZtb (fun z =>
      { z with scanBusy := false, scanRes := BitVec.ofNat 32 (2 ^ 31 + 2 ^ 30 + n) }))) ∧
  (∀ (s : State),
    s.ztb.scanBusy = true → s.scanFind = none →
    exec .zoneScanDone s = .next (s.modZtb (fun z => { z with scanBusy := false, scanRes := 0x40000000 })))

/-- A Ridge that is fenced, or in reset, releases no effect: a command of one of its contexts or accessors leaves the
state as it is. Chapter 16 takes a fenced Ridge out of every path; that its commands answer no error either is the
model's choice (log 1). A lockstep mismatch or a watchdog expiry of such a Ridge still shows in RST_CAUSE (R397). -/
def Obligations.AFencedRidgeHasNoEffect : Prop :=
  (∀ (s : State) (x : Accessor) (data : Word), s.ridgeLive x.ridge = false → exec (.asnWrite x data) s = .next s) ∧
  (∀ (s : State) (x : Accessor) (data : Word), s.ridgeLive x.ridge = false → exec (.asnLimitWrite x data) s = .next s) ∧
  (∀ (s : State) (x : Accessor) (data : Word), s.ridgeLive x.ridge = false → exec (.queueAllocationWrite x data) s =
    .next s) ∧
  (∀ (s : State) (x : Accessor) (data : Word), s.ridgeLive x.ridge = false → exec (.namespaceConfigWrite x data) s =
    .next s) ∧
  (∀ (s : State) (c : CtxId) (reg : BitVec 6), s.ridgeLive c.ridge = false → exec (.hedgeLookup c reg) s = .next s) ∧
  (∀ (s : State) (c : CtxId) (data : DWord), s.ridgeLive c.ridge = false → exec (.hedgeRemove c data) s = .next s) ∧
  (∀ (s : State) (c : CtxId) (reg : BitVec 6), s.ridgeLive c.ridge = false → exec (.hostCommandPop c reg) s = .next s) ∧
  (∀ (s : State) (c : CtxId) (data : DWord), s.ridgeLive c.ridge = false → exec (.completionPost c data) s = .next s) ∧
  (∀ (s : State) (c : CtxId) (f : AluForm), s.ridgeLive c.ridge = false → exec (.nop c f) s = .next s) ∧
  (∀ (s : State) (c : CtxId) (f : AluForm), s.ridgeLive c.ridge = false → exec (.mov c f) s = .next s) ∧
  (∀ (s : State) (c : CtxId) (f : AluForm), s.ridgeLive c.ridge = false → exec (.movh c f) s = .next s) ∧
  (∀ (s : State) (c : CtxId) (f : AluForm), s.ridgeLive c.ridge = false → exec (.add c f) s = .next s) ∧
  (∀ (s : State) (c : CtxId) (f : AluForm), s.ridgeLive c.ridge = false → exec (.adc c f) s = .next s) ∧
  (∀ (s : State) (c : CtxId) (f : AluForm), s.ridgeLive c.ridge = false → exec (.sub c f) s = .next s) ∧
  (∀ (s : State) (c : CtxId) (f : AluForm), s.ridgeLive c.ridge = false → exec (.sbc c f) s = .next s) ∧
  (∀ (s : State) (c : CtxId) (f : AluForm), s.ridgeLive c.ridge = false → exec (.cmp c f) s = .next s) ∧
  (∀ (s : State) (c : CtxId) (f : AluForm), s.ridgeLive c.ridge = false → exec (.cmn c f) s = .next s) ∧
  (∀ (s : State) (c : CtxId) (f : AluForm), s.ridgeLive c.ridge = false → exec (.neg c f) s = .next s) ∧
  (∀ (s : State) (c : CtxId) (f : AluForm), s.ridgeLive c.ridge = false → exec (.abs c f) s = .next s) ∧
  (∀ (s : State) (c : CtxId) (f : AluForm), s.ridgeLive c.ridge = false → exec (.and c f) s = .next s) ∧
  (∀ (s : State) (c : CtxId) (f : AluForm), s.ridgeLive c.ridge = false → exec (.or c f) s = .next s) ∧
  (∀ (s : State) (c : CtxId) (f : AluForm), s.ridgeLive c.ridge = false → exec (.xor c f) s = .next s) ∧
  (∀ (s : State) (c : CtxId) (f : AluForm), s.ridgeLive c.ridge = false → exec (.andn c f) s = .next s) ∧
  (∀ (s : State) (c : CtxId) (f : AluForm), s.ridgeLive c.ridge = false → exec (.orn c f) s = .next s) ∧
  (∀ (s : State) (c : CtxId) (f : AluForm), s.ridgeLive c.ridge = false → exec (.not c f) s = .next s) ∧
  (∀ (s : State) (c : CtxId) (f : AluForm), s.ridgeLive c.ridge = false → exec (.tst c f) s = .next s) ∧
  (∀ (s : State) (c : CtxId) (f : AluForm), s.ridgeLive c.ridge = false → exec (.shl c f) s = .next s) ∧
  (∀ (s : State) (c : CtxId) (f : AluForm), s.ridgeLive c.ridge = false → exec (.shr c f) s = .next s) ∧
  (∀ (s : State) (c : CtxId) (f : AluForm), s.ridgeLive c.ridge = false → exec (.sar c f) s = .next s) ∧
  (∀ (s : State) (c : CtxId) (f : AluForm), s.ridgeLive c.ridge = false → exec (.rol c f) s = .next s) ∧
  (∀ (s : State) (c : CtxId) (f : AluForm), s.ridgeLive c.ridge = false → exec (.ror c f) s = .next s) ∧
  (∀ (s : State) (c : CtxId) (f : AluForm), s.ridgeLive c.ridge = false → exec (.min c f) s = .next s) ∧
  (∀ (s : State) (c : CtxId) (f : AluForm), s.ridgeLive c.ridge = false → exec (.max c f) s = .next s) ∧
  (∀ (s : State) (c : CtxId) (f : AluForm), s.ridgeLive c.ridge = false → exec (.minu c f) s = .next s) ∧
  (∀ (s : State) (c : CtxId) (f : AluForm), s.ridgeLive c.ridge = false → exec (.maxu c f) s = .next s) ∧
  (∀ (s : State) (c : CtxId) (f : AluForm), s.ridgeLive c.ridge = false → exec (.mul c f) s = .next s) ∧
  (∀ (s : State) (c : CtxId) (f : AluForm), s.ridgeLive c.ridge = false → exec (.muls c f) s = .next s) ∧
  (∀ (s : State) (c : CtxId) (f : AluForm), s.ridgeLive c.ridge = false → exec (.addsu c f) s = .next s) ∧
  (∀ (s : State) (c : CtxId) (f : AluForm), s.ridgeLive c.ridge = false → exec (.subsu c f) s = .next s) ∧
  (∀ (s : State) (c : CtxId) (f : AluForm), s.ridgeLive c.ridge = false → exec (.bfx c f) s = .next s) ∧
  (∀ (s : State) (c : CtxId) (f : AluForm), s.ridgeLive c.ridge = false → exec (.bfxs c f) s = .next s) ∧
  (∀ (s : State) (c : CtxId) (f : AluForm), s.ridgeLive c.ridge = false → exec (.bfi c f) s = .next s) ∧
  (∀ (s : State) (c : CtxId) (f : AluForm), s.ridgeLive c.ridge = false → exec (.bfc c f) s = .next s) ∧
  (∀ (s : State) (c : CtxId) (f : AluForm), s.ridgeLive c.ridge = false → exec (.popc c f) s = .next s) ∧
  (∀ (s : State) (c : CtxId) (f : AluForm), s.ridgeLive c.ridge = false → exec (.clz c f) s = .next s) ∧
  (∀ (s : State) (c : CtxId) (f : AluForm), s.ridgeLive c.ridge = false → exec (.ctz c f) s = .next s) ∧
  (∀ (s : State) (c : CtxId) (f : AluForm), s.ridgeLive c.ridge = false → exec (.bswap c f) s = .next s) ∧
  (∀ (s : State) (c : CtxId) (f : AluForm), s.ridgeLive c.ridge = false → exec (.sxt c f) s = .next s) ∧
  (∀ (s : State) (c : CtxId) (f : AluForm), s.ridgeLive c.ridge = false → exec (.zxt c f) s = .next s) ∧
  (∀ (s : State) (c : CtxId) (f : AluForm), s.ridgeLive c.ridge = false → exec (.crc c f) s = .next s) ∧
  (∀ (s : State) (c : CtxId) (f : AluForm), s.ridgeLive c.ridge = false → exec (.crcb c f) s = .next s) ∧
  (∀ (s : State) (c : CtxId) (f : AluForm), s.ridgeLive c.ridge = false → exec (.gfmul c f) s = .next s) ∧
  (∀ (s : State) (c : CtxId) (f : AluForm), s.ridgeLive c.ridge = false → exec (.gfmac c f) s = .next s) ∧
  (∀ (s : State) (c : CtxId) (f : AluForm), s.ridgeLive c.ridge = false → exec (.selz c f) s = .next s) ∧
  (∀ (s : State) (c : CtxId) (f : AluForm), s.ridgeLive c.ridge = false → exec (.selc c f) s = .next s) ∧
  (∀ (s : State) (c : CtxId) (f : AluForm), s.ridgeLive c.ridge = false → exec (.tstb c f) s = .next s) ∧
  (∀ (s : State) (c : CtxId) (op : BitVec 6), s.ridgeLive c.ridge = false → exec (.illalu c op) s = .next s) ∧
  (∀ (s : State) (x : Accessor) (addr : Word) (data : Word), s.ridgeLive x.ridge = false → exec (.registerWrite x addr
    data) s = .next s) ∧
  (∀ (s : State) (x : Accessor) (addr : Word), s.ridgeLive x.ridge = false → exec (.counterReadClear x addr) s = .next
    s) ∧
  (∀ (s : State) (x : Accessor), s.ridgeLive x.ridge = false → exec (.angAcLatch x) s = .next s) ∧
  (∀ (s : State) (x : Accessor) (addr : Word) (data : Word), s.ridgeLive x.ridge = false → exec (.legacyWindowWrite x
    addr data) s = .next s) ∧
  (∀ (s : State) (c : CtxId), s.ridgeLive c.ridge = false → exec (.cairnAppend c) s = .next s) ∧
  (∀ (s : State) (x : Accessor) (t : Quad), s.ridgeLive x.ridge = false → exec (.bankSwapRequest x t) s = .next s) ∧
  (∀ (s : State) (x : Accessor) (t : Quad) (sel : BitVec 9) (data : Word), s.ridgeLive x.ridge = false → exec
    (.bankWordWrite x t sel data) s = .next s) ∧
  (∀ (s : State) (x : Accessor) (t : Quad) (slice : BitVec 3), s.ridgeLive x.ridge = false → exec (.spareStepStart x t
    slice) s = .next s) ∧
  (∀ (s : State) (x : Accessor) (t : Quad) (mask : BitVec 16), s.ridgeLive x.ridge = false → exec (.recordRelease x t
    mask) s = .next s) ∧
  (∀ (s : State) (x : Accessor) (t : Quad) (en : Bool), s.ridgeLive x.ridge = false → exec (.writeEnableWrite x t en)
    s = .next s) ∧
  (∀ (s : State) (c : CtxId), s.ridgeLive c.ridge = false → exec (.decoderSubmit c) s = .next s) ∧
  (∀ (s : State) (c : CtxId) (reg : BitVec 6), s.ridgeLive c.ridge = false → exec (.decoderResultPop c reg) s = .next
    s) ∧
  (∀ (s : State) (x : Accessor) (t : Quad) (addr : DWord), s.ridgeLive x.ridge = false → exec (.skipListSelect x t
    addr) s = .next s) ∧
  (∀ (s : State) (c : CtxId) (t : Quad) (reg : BitVec 6), s.ridgeLive c.ridge = false → exec (.sectorStatusPop c t
    reg) s = .next s) ∧
  (∀ (s : State) (x : Accessor) (t : Quad) (slot : BitVec 6) (word : BitVec 2) (data : Word), s.ridgeLive x.ridge =
    false → exec (.descriptorWordWrite x t slot word data) s = .next s) ∧
  (∀ (s : State) (x : Accessor) (t : Quad) (v : BitVec 24), s.ridgeLive x.ridge = false → exec (.trackidWrite x t v) s
    = .next s) ∧
  (∀ (s : State) (x : Accessor) (t : Quad) (w : DWord), s.ridgeLive x.ridge = false → exec (.formatterCmdIgnored x t
    w) s = .next s) ∧
  (∀ (s : State) (x : Accessor), s.ridgeLive x.ridge = false → exec (.hash x) s = .next s) ∧
  (∀ (s : State) (x : Accessor), s.ridgeLive x.ridge = false → exec (.verifySignature x) s = .next s) ∧
  (∀ (s : State) (x : Accessor), s.ridgeLive x.ridge = false → exec (.drbg x) s = .next s) ∧
  (∀ (s : State) (x : Accessor), s.ridgeLive x.ridge = false → exec (.derive x) s = .next s) ∧
  (∀ (s : State) (x : Accessor), s.ridgeLive x.ridge = false → exec (.sign x) s = .next s) ∧
  (∀ (s : State) (x : Accessor) (slot : BitVec 6), s.ridgeLive x.ridge = false → exec (.keyload x slot) s = .next s) ∧
  (∀ (s : State) (x : Accessor) (slot : BitVec 6), s.ridgeLive x.ridge = false → exec (.zeroize x slot) s = .next s) ∧
  (∀ (s : State) (x : Accessor), s.ridgeLive x.ridge = false → exec (.devpub x) s = .next s) ∧
  (∀ (s : State) (x : Accessor) (data : Word), s.ridgeLive x.ridge = false → exec (.cryptoCmdIgnored x data) s = .next
    s) ∧
  (∀ (s : State) (x : Accessor), s.ridgeLive x.ridge = false → exec (.drbgRead x) s = .next s) ∧
  (∀ (s : State) (x : Accessor) (v : BitVec 3), s.ridgeLive x.ridge = false → exec (.powerStateSelect x v) s = .next
    s) ∧
  (∀ (s : State) (x : Accessor), s.ridgeLive x.ridge = false → exec (.domainOn x) s = .next s) ∧
  (∀ (s : State) (x : Accessor), s.ridgeLive x.ridge = false → exec (.domainOff x) s = .next s) ∧
  (∀ (s : State) (x : Accessor), s.ridgeLive x.ridge = false → exec (.domainRet x) s = .next s) ∧
  (∀ (s : State) (x : Accessor), s.ridgeLive x.ridge = false → exec (.testFence x) s = .next s) ∧
  (∀ (s : State) (x : Accessor) (data : Word), s.ridgeLive x.ridge = false → exec (.ledgerCmdIgnored x data) s = .next
    s) ∧
  (∀ (s : State) (r : Side), s.ridgeLive r = false → exec (.switch r) s = .next s) ∧
  (∀ (s : State) (r : Side) (work : BitVec 2), s.ridgeLive r = false → exec (.handback r work) s = .next s) ∧
  (∀ (s : State) (r : Side) (syncOk : Bool), s.ridgeLive r = false → exec (.rejoin r syncOk) s = .next s) ∧
  (∀ (s : State) (x : Accessor) (p : Side) (speed : Nat) (width : Nat), s.ridgeLive x.ridge = false → exec (.retrain x
    p speed width) s = .next s) ∧
  (∀ (s : State) (x : Accessor) (p : Side), s.ridgeLive x.ridge = false → exec (.reequalize x p) s = .next s) ∧
  (∀ (s : State) (c : CtxId) (reg : BitVec 6), s.ridgeLive c.ridge = false → exec (.creditAcquire c reg) s = .next s) ∧
  (∀ (s : State) (c : CtxId) (reg : BitVec 6), s.ridgeLive c.ridge = false → exec (.windowAdmit c reg) s = .next s) ∧
  (∀ (s : State) (c : CtxId) (reg : BitVec 6), s.ridgeLive c.ridge = false → exec (.mediaReserve c reg) s = .next s) ∧
  (∀ (s : State) (c : CtxId) (data : DWord), s.ridgeLive c.ridge = false → exec (.creditRelease c data) s = .next s) ∧
  (∀ (s : State) (x : Accessor) (data : Word), s.ridgeLive x.ridge = false → exec (.vcCalWindow x data) s = .next s) ∧
  (∀ (s : State) (x : Accessor), s.ridgeLive x.ridge = false → exec (.heartbeatKick x) s = .next s) ∧
  (∀ (s : State) (x : Accessor), s.ridgeLive x.ridge = false → exec (.spindleStart x) s = .next s) ∧
  (∀ (s : State) (x : Accessor), s.ridgeLive x.ridge = false → exec (.spindleStop x) s = .next s) ∧
  (∀ (s : State) (x : Accessor), s.ridgeLive x.ridge = false → exec (.spindleStep x) s = .next s) ∧
  (∀ (s : State) (x : Accessor), s.ridgeLive x.ridge = false → exec (.coast x) s = .next s) ∧
  (∀ (s : State) (x : Accessor), s.ridgeLive x.ridge = false → exec (.clrflt x) s = .next s) ∧
  (∀ (s : State) (x : Accessor) (data : Word), s.ridgeLive x.ridge = false → exec (.spindleCmdIgnored x data) s =
    .next s) ∧
  (∀ (s : State) (x : Accessor) (data : Word), s.ridgeLive x.ridge = false → exec (.retractCommand x data) s = .next
    s) ∧
  (∀ (s : State) (x : Accessor), s.ridgeLive x.ridge = false → exec (.chopperSelftest x) s = .next s) ∧
  (∀ (s : State) (x : Accessor) (ch : BitVec 2), s.ridgeLive x.ridge = false → exec (.currentSenseSpare x ch) s =
    .next s) ∧
  (∀ (s : State) (c : CtxId) (data : DWord), s.ridgeLive c.ridge = false → exec (.sig0 c data) s = .next s) ∧
  (∀ (s : State) (c : CtxId) (data : DWord), s.ridgeLive c.ridge = false → exec (.sig1 c data) s = .next s) ∧
  (∀ (s : State) (c : CtxId) (data : DWord), s.ridgeLive c.ridge = false → exec (.ffSet c data) s = .next s) ∧
  (∀ (s : State) (c : CtxId) (data : DWord), s.ridgeLive c.ridge = false → exec (.ffClear c data) s = .next s) ∧
  (∀ (s : State) (c : CtxId) (data : DWord), s.ridgeLive c.ridge = false → exec (.eventAck c data) s = .next s) ∧
  (∀ (s : State) (c : CtxId) (n : BitVec 5), s.ridgeLive c.ridge = false → exec (.arm c n) s = .next s) ∧
  (∀ (s : State) (c : CtxId) (n : BitVec 5), s.ridgeLive c.ridge = false → exec (.disarm c n) s = .next s) ∧
  (∀ (s : State) (c : CtxId) (t : Quad), s.ridgeLive c.ridge = false → exec (.post c t) s = .next s) ∧
  (∀ (s : State) (c : CtxId) (src : BitVec 3), s.ridgeLive c.ridge = false → exec (.angRead c src) s = .next s) ∧
  (∀ (s : State) (c : CtxId) (t : Quad), s.ridgeLive c.ridge = false → exec (.aeqFlush c t) s = .next s) ∧
  (∀ (s : State) (c : CtxId), s.ridgeLive c.ridge = false → exec (.waitRelease c) s = .next s) ∧
  (∀ (s : State) (x : Accessor) (l : Side), s.ridgeLive x.ridge = false → exec (.linkStart x l) s = .next s) ∧
  (∀ (s : State) (x : Accessor) (l : Side), s.ridgeLive x.ridge = false → exec (.linkStop x l) s = .next s) ∧
  (∀ (s : State) (x : Accessor) (l : Side) (addr : Byte), s.ridgeLive x.ridge = false → exec (.preampRegisterRead x l
    addr) s = .next s) ∧
  (∀ (s : State) (x : Accessor) (l : Side) (addr : Byte) (val : BitVec 16), s.ridgeLive x.ridge = false → exec
    (.preampRegisterWrite x l addr val) s = .next s) ∧
  (∀ (s : State) (x : Accessor) (l : Side) (head : BitVec 4) (level : BitVec 12), s.ridgeLive x.ridge = false → exec
    (.heaterCommand x l head level) s = .next s) ∧
  (∀ (s : State) (x : Accessor) (l : Side) (data : Word), s.ridgeLive x.ridge = false → exec (.safeCommand x l data) s
    = .next s) ∧
  (∀ (s : State) (x : Accessor) (l : Side) (data : Word), s.ridgeLive x.ridge = false → exec (.pairMapWrite x l data)
    s = .next s) ∧
  (∀ (s : State) (c : CtxId) (rom : Bool), s.ridgeLive c.ridge = false → exec (.eventPost c rom) s = .next s) ∧
  (∀ (s : State) (x : Accessor), s.ridgeLive x.ridge = false → exec (.evrOtLatch x) s = .next s) ∧
  (∀ (s : State) (x : Accessor) (data : Word), s.ridgeLive x.ridge = false → exec (.softwareFullReset x data) s =
    .next s) ∧
  (∀ (s : State) (x : Accessor) (data : Word), s.ridgeLive x.ridge = false → exec (.softwareBlockReset x data) s =
    .next s) ∧
  (∀ (s : State) (x : Accessor) (_r : Side), s.ridgeLive x.ridge = false → exec (.watchdogKick x _r) s = .next s) ∧
  (∀ (s : State) (c : CtxId) (data : DWord), s.ridgeLive c.ridge = false → exec (.modeRequest c data) s = .next s) ∧
  (∀ (s : State) (c : CtxId) (data : DWord), s.ridgeLive c.ridge = false → exec (.seekRequest c data) s = .next s) ∧
  (∀ (s : State) (c : CtxId) (data : DWord), s.ridgeLive c.ridge = false → exec (.nodeWrite c data) s = .next s) ∧
  (∀ (s : State) (c : CtxId) (data : DWord), s.ridgeLive c.ridge = false → exec (.coefWrite c data) s = .next s) ∧
  (∀ (s : State) (c : CtxId) (port : Nat), s.ridgeLive c.ridge = false → exec (.portReadReturn c port) s = .next s) ∧
  (∀ (s : State) (c : CtxId) (port : Nat), s.ridgeLive c.ridge = false → exec (.portTimeout c port) s = .next s) ∧
  (∀ (s : State) (c : CtxId), s.ridgeLive c.ridge = false → exec (.urgentEntry c) s = .next s) ∧
  (∀ (s : State) (c : CtxId), s.ridgeLive c.ridge = false → exec (.segmentWarning c) s = .next s) ∧
  (∀ (s : State) (c : CtxId), s.ridgeLive c.ridge = false → exec (.waitTimeout c) s = .next s) ∧
  (∀ (s : State) (c : CtxId), s.ridgeLive c.ridge = false → exec (.waitCycleBound c) s = .next s) ∧
  (∀ (s : State) (c : CtxId), s.ridgeLive c.ridge = false → exec (.snapshotReceive c) s = .next s) ∧
  (∀ (s : State) (c : CtxId) (addr : CsAddr), s.ridgeLive c.ridge = false → exec (.contextStart c addr) s = .next s) ∧
  (∀ (s : State) (c : CtxId), s.ridgeLive c.ridge = false → exec (.contextStop c) s = .next s) ∧
  (∀ (s : State) (c : CtxId), s.ridgeLive c.ridge = false → exec (.contextResume c) s = .next s) ∧
  (∀ (s : State) (c : CtxId), s.ridgeLive c.ridge = false → exec (.contextRelease c) s = .next s) ∧
  (∀ (s : State) (c : CtxId) (cmd : BitVec 3), s.ridgeLive c.ridge = false → exec (.contextCmdReserved c cmd) s =
    .next s) ∧
  (∀ (s : State) (r : Side) (hi : Word), s.ridgeLive r = false → exec (.debugDataWrite r hi) s = .next s) ∧
  (∀ (s : State) (x : Accessor) (data : Word), s.ridgeLive x.ridge = false → exec (.loadWordStore x data) s = .next s) ∧
  (∀ (s : State) (x : Accessor) (data : Word), s.ridgeLive x.ridge = false → exec (.loadAddressWrite x data) s = .next
    s) ∧
  (∀ (s : State) (r : Side) (off : Nat) (data : Word), s.ridgeLive r = false → exec (.matchWrite r off data) s = .next
    s) ∧
  (∀ (s : State) (c : CtxId), s.ridgeLive c.ridge = false → exec (.cstPeerRefetch c) s = .next s) ∧
  (∀ (s : State) (r : Side), s.ridgeLive r = false → exec (.bootlockSet r) s = .next s) ∧
  (∀ (s : State) (c : CtxId) (reg : BitVec 6), s.ridgeLive c.ridge = false → exec (.stripeBufferAcquire c reg) s =
    .next s) ∧
  (∀ (s : State) (c : CtxId) (data : DWord), s.ridgeLive c.ridge = false → exec (.stripeBufferRelease c data) s =
    .next s) ∧
  (∀ (s : State) (c : CtxId) (w : DWord), s.ridgeLive c.ridge = false → exec (.chunkMove c w) s = .next s) ∧
  (∀ (s : State) (r : Side), s.ridgeLive r = false → exec (.sectorLanding r) s = .next s) ∧
  (∀ (s : State) (c : CtxId) (w : DWord), s.ridgeLive c.ridge = false → exec (.reconstructionRequest c w) s = .next s) ∧
  (∀ (s : State) (c : CtxId) (data : DWord), s.ridgeLive c.ridge = false → exec (.scrubCheck c data) s = .next s) ∧
  (∀ (s : State) (c : CtxId) (reg : BitVec 6), s.ridgeLive c.ridge = false → exec (.scrubResultPop c reg) s = .next s) ∧
  (∀ (s : State) (c : CtxId) (w : MicroWord) (ce : Bool), s.ridgeLive c.ridge = false → exec (.next c w ce) s = .next
    s) ∧
  (∀ (s : State) (c : CtxId) (w : MicroWord) (ce : Bool), s.ridgeLive c.ridge = false → exec (.jump c w ce) s = .next
    s) ∧
  (∀ (s : State) (c : CtxId) (w : MicroWord) (ce : Bool), s.ridgeLive c.ridge = false → exec (.call c w ce) s = .next
    s) ∧
  (∀ (s : State) (c : CtxId) (w : MicroWord) (ce : Bool), s.ridgeLive c.ridge = false → exec (.ret c w ce) s = .next
    s) ∧
  (∀ (s : State) (c : CtxId) (w : MicroWord) (ce : Bool), s.ridgeLive c.ridge = false → exec (.brt c w ce) s = .next
    s) ∧
  (∀ (s : State) (c : CtxId) (w : MicroWord) (ce : Bool), s.ridgeLive c.ridge = false → exec (.brf c w ce) s = .next
    s) ∧
  (∀ (s : State) (c : CtxId) (w : MicroWord) (ce : Bool), s.ridgeLive c.ridge = false → exec (.wait c w ce) s = .next
    s) ∧
  (∀ (s : State) (c : CtxId) (w : MicroWord) (ce : Bool), s.ridgeLive c.ridge = false → exec (.poll c w ce) s = .next
    s) ∧
  (∀ (s : State) (c : CtxId) (w : MicroWord) (ce : Bool), s.ridgeLive c.ridge = false → exec (.disp c w ce) s = .next
    s) ∧
  (∀ (s : State) (c : CtxId) (w : MicroWord) (ce : Bool), s.ridgeLive c.ridge = false → exec (.yield c w ce) s = .next
    s) ∧
  (∀ (s : State) (c : CtxId) (w : MicroWord) (ce : Bool), s.ridgeLive c.ridge = false → exec (.halt c w ce) s = .next
    s) ∧
  (∀ (s : State) (c : CtxId) (w : MicroWord) (ce : Bool), s.ridgeLive c.ridge = false → exec (.loop c w ce) s = .next
    s) ∧
  (∀ (s : State) (c : CtxId) (w : MicroWord) (ce : Bool), s.ridgeLive c.ridge = false → exec (.illseq c w ce) s =
    .next s) ∧
  (∀ (s : State) (c : CtxId) (w : MicroWord) (ce : Bool), s.ridgeLive c.ridge = false → exec (.spurStep c w ce) s =
    .next s) ∧
  (∀ (s : State) (x : Accessor) (off : BitVec 22) (data : Word), s.ridgeLive x.ridge = false → exec (.ztbWindowWrite x
    off data) s = .next s) ∧
  (∀ (s : State) (c : CtxId) (w : DWord), s.ridgeLive c.ridge = false → exec (.ztbState c w) s = .next s) ∧
  (∀ (s : State) (c : CtxId) (w : DWord), s.ridgeLive c.ridge = false → exec (.ztbWp c w) s = .next s) ∧
  (∀ (s : State) (c : CtxId) (w : DWord), s.ridgeLive c.ridge = false → exec (.ztbHwp c w) s = .next s) ∧
  (∀ (s : State) (c : CtxId) (w : DWord), s.ridgeLive c.ridge = false → exec (.ztbStgadd c w) s = .next s) ∧
  (∀ (s : State) (c : CtxId) (w : DWord), s.ridgeLive c.ridge = false → exec (.ztbReset c w) s = .next s) ∧
  (∀ (s : State) (c : CtxId) (w : DWord), s.ridgeLive c.ridge = false → exec (.ztbDegset c w) s = .next s) ∧
  (∀ (s : State) (c : CtxId) (w : DWord), s.ridgeLive c.ridge = false → exec (.ztbFree c w) s = .next s) ∧
  (∀ (s : State) (c : CtxId) (w : DWord), s.ridgeLive c.ridge = false → exec (.ztbUpdateRefused c w) s = .next s) ∧
  (∀ (s : State) (x : Accessor) (data : Word), s.ridgeLive x.ridge = false → exec (.zoneScan x data) s = .next s) ∧
  (∀ (s : State) (x : Accessor), s.ridgeLive x.ridge = false → exec (.cairnResync x) s = .next s) ∧
  (∀ (s : State) (r : Side) (data : Word), s.ridgeLive r = false → exec (.skewWrite r data) s = .next s) ∧
  (∀ (s : State) (r : Side) (data : Word), s.ridgeLive r = false → exec (.rampGo r data) s = .next s) ∧
  (∀ (s : State) (r : Side) (data : Word), s.ridgeLive r = false → exec (.traceArm r data) s = .next s) ∧
  (∀ (s : State) (r : Side) (data : Word), s.ridgeLive r = false → exec (.traceForce r data) s = .next s) ∧
  (∀ (s : State) (r : Side) (q : Quad) (blocks : Nat) (inp : PassIn), s.ridgeLive r = false → exec (.taskPass r q
    blocks inp) s = .next s) ∧
  (∀ (s : State) (r : Side), s.ridgeLive r = false → exec (.nodeSync r) s = .next s) ∧
  (∀ (s : State) (r : Side) (sp : SpurId), s.ridgeLive r = false → ∃ t, exec (.lockstepMismatch r sp) s = .next t ∧ t
    = { s with regs := t.regs } ∧ (∀ k, k ≠ R_RST_CAUSE → swf regInit s.regs = true → t.reg k = s.reg k)) ∧
  (∀ (s : State) (r : Side), s.ridgeLive r = false → ∃ t, exec (.ridgeWatchdog r) s = .next t ∧ t =
    { s with regs := t.regs, rcp := t.rcp } ∧ (∀ k, k ≠ R_RST_CAUSE → swf regInit s.regs = true → t.reg k = s.reg k))
end

