-- ==== Sys2Proof/Laws/Sparse.lean ====
section
/-!
SUPPORT. Sparse tables: a read after a write, and that every operation keeps the canonical form.
-/
set_option Elab.async false
namespace Sys2Proof.Machine

section
variable {α : Type} [DecidableEq α] {d : Nat → α}

theorem swfFrom_mono {lo lo' : Nat} (hl : lo' ≤ lo) : ∀ {m : Sparse α}, swfFrom d lo m = true → swfFrom d lo' m = true
  | [], _ => rfl
  | (i, v) :: t, h => by
    simp only [swfFrom, Bool.and_eq_true, decide_eq_true_eq] at h ⊢
    exact ⟨Nat.le_trans hl h.1, h.2⟩

/-- In a canonical table no key below the bound is listed. -/
theorem sget_below {lo k : Nat} (hk : k < lo) : ∀ {m : Sparse α}, swfFrom d lo m = true → sget d m k = d k
  | [], _ => rfl
  | (i, v) :: t, h => by
    simp only [swfFrom, Bool.and_eq_true, decide_eq_true_eq] at h
    have h1 : ¬ i = k := by omega
    have h2 : k < i := by omega
    simp [sget, h1, h2]

theorem sins_wf {k : Nat} {v : α} (hv : v ≠ d k) :
    ∀ {m : Sparse α} {lo : Nat}, lo ≤ k → swfFrom d lo m = true → swfFrom d lo (sins k v m) = true
  | [], lo, hl, _ => by simp [sins, swfFrom, hl, hv]
  | (i, w) :: t, lo, hl, h => by
    simp only [swfFrom, Bool.and_eq_true, decide_eq_true_eq] at h
    by_cases h1 : i = k
    · subst h1
      simp only [sins, if_true, swfFrom, Bool.and_eq_true, decide_eq_true_eq]
      exact ⟨hl, by simpa using hv, h.2.2⟩
    · by_cases h2 : k < i
      · simp only [sins, h1, h2, if_false, if_true, swfFrom, Bool.and_eq_true, decide_eq_true_eq]
        exact ⟨hl, by simpa using hv, h2, h.2.1, h.2.2⟩
      · simp only [sins, h1, h2, if_false, swfFrom, Bool.and_eq_true, decide_eq_true_eq]
        exact ⟨h.1, h.2.1, sins_wf hv (by omega) h.2.2⟩

theorem sdel_wf {k : Nat} : ∀ {m : Sparse α} {lo : Nat}, swfFrom d lo m = true → swfFrom d lo (sdel k m) = true
  | [], _, _ => rfl
  | (i, w) :: t, lo, h => by
    simp only [swfFrom, Bool.and_eq_true, decide_eq_true_eq] at h
    by_cases h1 : i = k
    · simp only [sdel, h1, if_true]
      exact swfFrom_mono (by omega) h.2.2
    · by_cases h2 : k < i
      · simp only [sdel, h1, h2, if_false, if_true, swfFrom, Bool.and_eq_true, decide_eq_true_eq]
        exact h
      · simp only [sdel, h1, h2, if_false, swfFrom, Bool.and_eq_true, decide_eq_true_eq]
        exact ⟨h.1, h.2.1, sdel_wf h.2.2⟩

/-- A write keeps the canonical form. -/
theorem sput_wf {m : Sparse α} {k : Nat} {v : α} (h : swf d m = true) : swf d (sput d m k v) = true := by
  unfold sput swf at *
  split
  · exact sdel_wf h
  · exact sins_wf (by assumption) (Nat.zero_le _) h

theorem sp_wf {v0 : α} {m : Sparse α} {k : Nat} {v : α} (h : swf (kconst v0) m = true) :
    swf (kconst v0) (sp v0 m k v) = true := sput_wf h

theorem filter_wfFrom (p : Nat × α → Bool) :
    ∀ {m : Sparse α} {lo : Nat}, swfFrom d lo m = true → swfFrom d lo (m.filter p) = true
  | [], _, _ => rfl
  | (i, w) :: t, lo, h => by
    simp only [swfFrom, Bool.and_eq_true, decide_eq_true_eq] at h
    by_cases hp : p (i, w) = true
    · simp only [List.filter_cons, hp, if_true, swfFrom, Bool.and_eq_true, decide_eq_true_eq]
      exact ⟨h.1, h.2.1, filter_wfFrom p h.2.2⟩
    · simp only [List.filter_cons, hp]
      exact swfFrom_mono (by omega) (filter_wfFrom p h.2.2)

/-- Dropping entries keeps the canonical form. -/
theorem filter_wf {m : Sparse α} (p : Nat × α → Bool) (h : swf d m = true) : swf d (m.filter p) = true :=
  filter_wfFrom p h

omit [DecidableEq α] in
theorem sget_sins_same {k : Nat} {v : α} : ∀ {m : Sparse α}, sget d (sins k v m) k = v
  | [] => by simp [sins, sget]
  | (i, w) :: t => by
    by_cases h1 : i = k
    · simp [sins, h1, sget]
    · by_cases h2 : k < i
      · simp [sins, h1, h2, sget]
      · simp [sins, h1, h2, sget, sget_sins_same]

theorem sget_sins_other {k j : Nat} {v : α} (hj : j ≠ k) :
    ∀ {m : Sparse α} {lo : Nat}, swfFrom d lo m = true → sget d (sins k v m) j = sget d m j
  | [], _, _ => by
    have : ¬ k = j := fun h => hj h.symm
    simp [sins, sget, this]
  | (i, w) :: t, lo, h => by
    simp only [swfFrom, Bool.and_eq_true, decide_eq_true_eq] at h
    have hkj : ¬ k = j := fun h => hj h.symm
    by_cases h1 : i = k
    · subst h1
      simp only [sins, if_true, sget, hkj, if_false]
    · by_cases h2 : k < i
      · simp only [sins, h1, h2, if_false, if_true, sget, hkj]
        by_cases h3 : j < k
        · have h4 : ¬ i = j := by omega
          have h5 : j < i := by omega
          simp [h3, h4, h5]
        · simp [h3]
      · simp only [sins, h1, h2, if_false, sget]
        by_cases h3 : i = j
        · simp [h3]
        · by_cases h4 : j < i
          · simp [h3, h4]
          · simp only [h3, h4, if_false]
            exact sget_sins_other hj h.2.2

theorem sget_sdel_same {k : Nat} : ∀ {m : Sparse α} {lo : Nat}, swfFrom d lo m = true → sget d (sdel k m) k = d k
  | [], _, _ => rfl
  | (i, w) :: t, lo, h => by
    simp only [swfFrom, Bool.and_eq_true, decide_eq_true_eq] at h
    by_cases h1 : i = k
    · subst h1
      simp only [sdel, if_true]
      exact sget_below (by omega) h.2.2
    · by_cases h2 : k < i
      · simp [sdel, h1, h2, sget]
      · simp only [sdel, h1, h2, if_false, sget]
        exact sget_sdel_same h.2.2

theorem sget_sdel_other {k j : Nat} (hj : j ≠ k) :
    ∀ {m : Sparse α} {lo : Nat}, swfFrom d lo m = true → sget d (sdel k m) j = sget d m j
  | [], _, _ => rfl
  | (i, w) :: t, lo, h => by
    simp only [swfFrom, Bool.and_eq_true, decide_eq_true_eq] at h
    by_cases h1 : i = k
    · subst h1
      have hij : ¬ i = j := fun h => hj h.symm
      simp only [sdel, if_true, sget, hij, if_false]
      by_cases h2 : j < i
      · simp only [h2, if_true]
        exact sget_below (by omega) h.2.2
      · simp [h2]
    · by_cases h2 : k < i
      · simp [sdel, h1, h2]
      · simp only [sdel, h1, h2, if_false, sget]
        by_cases h3 : i = j
        · simp [h3]
        · by_cases h4 : j < i
          · simp [h3, h4]
          · simp only [h3, h4, if_false]
            exact sget_sdel_other hj h.2.2

/-- A read after a write to the same key gives the value written. -/
theorem sget_sput_same {m : Sparse α} {k : Nat} {v : α} (h : swf d m = true) : sget d (sput d m k v) k = v := by
  unfold sput
  split
  · rename_i hv
    rw [sget_sdel_same h, hv]
  · exact sget_sins_same

/-- A write leaves every other key alone. -/
theorem sget_sput_other {m : Sparse α} {k j : Nat} {v : α} (hj : j ≠ k) (h : swf d m = true) :
    sget d (sput d m k v) j = sget d m j := by
  unfold sput
  split
  · exact sget_sdel_other hj h
  · exact sget_sins_other hj h

theorem sg_sp_same {v0 v : α} {m : Sparse α} {k : Nat} (h : swf (kconst v0) m = true) : sg v0 (sp v0 m k v) k = v :=
  sget_sput_same h

theorem sg_sp_other {v0 v : α} {m : Sparse α} {k j : Nat} (hj : j ≠ k) (h : swf (kconst v0) m = true) :
    sg v0 (sp v0 m k v) j = sg v0 m j := sget_sput_other hj h

end

end Sys2Proof.Machine
end

