-- ==== Sys2Proof/Laws/Inv.lean ====
section
/-!
SUPPORT. The updates of State keep the invariant of Safety.lean: one lemma for each.
-/
set_option Elab.async false
set_option linter.unusedTactic false
set_option linter.unreachableTactic false
namespace Sys2Proof.Machine

variable {q : List Instr} {s : State}

/-! ### Families -/

theorem Two.get_set {α : Type} (t : Two α) (x y : Side) (v : α) : (t.set x v).get y = if y = x then v else t.get y := by
  cases x <;> cases y <;> rfl

theorem Four.get_set {α : Type} (t : Four α) (x y : Quad) (v : α) : (t.set x v).get y = if y = x then v else t.get y := by
  cases x <;> cases y <;> rfl

theorem Six.get_set {α : Type} (t : Six α) (x y : SpurId) (v : α) : (t.set x v).get y = if y = x then v else t.get y := by
  cases x <;> cases y <;> rfl

theorem Two.forall_set {α : Type} {P : α → Prop} {t : Two α} {x : Side} {v : α} (h : ∀ y, P (t.get y)) (hv : P v) :
    ∀ y, P ((t.set x v).get y) := by
  intro y
  rw [Two.get_set]
  split
  · exact hv
  · exact h y

theorem Four.forall_set {α : Type} {P : α → Prop} {t : Four α} {x : Quad} {v : α} (h : ∀ y, P (t.get y)) (hv : P v) :
    ∀ y, P ((t.set x v).get y) := by
  intro y
  rw [Four.get_set]
  split
  · exact hv
  · exact h y

theorem Six.forall_set {α : Type} {P : α → Prop} {t : Six α} {x : SpurId} {v : α} (h : ∀ y, P (t.get y)) (hv : P v) :
    ∀ y, P ((t.set x v).get y) := by
  intro y
  rw [Six.get_set]
  split
  · exact hv
  · exact h y

/-! ### DRAM contents -/

theorem DramCh.putByte_wf {d : DramCh} {a : Nat} {v : Byte} (h : Memory.wf d = true) : Memory.wf (d.putByte a v) = true := by
  simp only [Memory.wf, Bool.and_eq_true] at h ⊢
  exact ⟨sp_wf h.1, h.2⟩

theorem DramCh.setPoison_wf {d : DramCh} {w : Nat} {v : Bool} (h : Memory.wf d = true) :
    Memory.wf (d.setPoison w v) = true := by
  simp only [Memory.wf, Bool.and_eq_true] at h ⊢
  exact ⟨h.1, sp_wf h.2⟩

theorem DramCh.putBytes_wf : ∀ {bs : List Byte} {d : DramCh} {a : Nat}, Memory.wf d = true → Memory.wf (d.putBytes a bs) = true
  | [], _, _, h => h
  | _ :: t, _, _, h => DramCh.putBytes_wf (bs := t) (DramCh.putByte_wf h)

theorem DramCh.foldl_wf {α : Type} {f : DramCh → α → DramCh} (hf : ∀ d a, Memory.wf d = true → Memory.wf (f d a) = true) :
    ∀ (l : List α) {d : DramCh}, Memory.wf d = true → Memory.wf (l.foldl f d) = true
  | [], _, h => h
  | a :: t, _, h => DramCh.foldl_wf hf t (hf _ a h)

theorem DramCh.mark_wf {d : DramCh} {a n : Nat} {v : Bool} (h : Memory.wf d = true) : Memory.wf (d.markWords a n v) = true :=
  DramCh.foldl_wf (fun _ _ hd => DramCh.setPoison_wf hd) _ h

/-- A write to a channel keeps the canonical form. -/
theorem DramCh.write_wf {d : DramCh} {a : Nat} {bs : List Byte} (h : Memory.wf d = true) : Memory.wf (d.write a bs) = true :=
  DramCh.mark_wf (DramCh.putBytes_wf h)

/-! ### Glue -/

/-- A pair's first part. -/
theorem State.Inv.fst {α : Type} {p : State × α} {t : State} {v : α} (e : p = (t, v)) (h : p.1.Inv q) : t.Inv q := by
  subst e
  exact h

/-- An optional state. -/
structure OptInv (q : List Instr) (o : Option State) : Prop where
  all : ∀ t, o = some t → t.Inv q

theorem OptInv.none : OptInv q Option.none := ⟨fun _ h => by cases h⟩

theorem OptInv.some (h : s.Inv q) : OptInv q (Option.some s) := ⟨fun _ e => by cases e; exact h⟩

theorem OptInv.getD {o : Option State} (h : OptInv q o) (hs : s.Inv q) : (o.getD s).Inv q := by
  cases o with
  | none => exact hs
  | some t => exact h.all t rfl

theorem State.Inv.cut {s : State} {P : Prop} (h : s.Inv q) (hp : s.Inv q → P) : P := hp h

theorem State.Inv.fnCut {f : State → State} {P : Prop} (h : ∀ s, State.Inv q s → (f s).Inv q)
    (hp : (∀ s, State.Inv q s → (f s).Inv q) → P) : P := hp h

theorem State.Inv.fnCut2 {α : Type} {f : State → α → State} {P : Prop} (h : ∀ s a, State.Inv q s → (f s a).Inv q)
    (hp : (∀ s a, State.Inv q s → (f s a).Inv q) → P) : P := hp h

theorem State.Inv.foldl {α : Type} {f : State → α → State} (hf : ∀ s a, State.Inv q s → (f s a).Inv q) :
    ∀ (l : List α) {s : State}, s.Inv q → (l.foldl f s).Inv q
  | [], _, h => h
  | a :: t, _, h => State.Inv.foldl hf t (hf _ a h)

theorem State.Inv.foldlFst {α β : Type} {f : State × β → α → State × β} (hf : ∀ s a, State.Inv q s.1 → (f s a).1.Inv q) :
    ∀ (l : List α) {s : State × β}, s.1.Inv q → (l.foldl f s).1.Inv q
  | [], _, h => h
  | a :: t, _, h => State.Inv.foldlFst hf t (hf _ a h)

theorem when_inv {c : Bool} {f : State → State} (hf : ∀ s, State.Inv q s → (f s).Inv q) (h : s.Inv q) :
    (when_ c f s).Inv q := by
  unfold when_
  split
  · exact hf _ h
  · exact h

theorem State.Inv.keep {t : State} (h : s.Inv q) (h1 : t.pending = s.pending) (h2 : t.regs = s.regs) (h3 : t.dram = s.dram)
    (h4 : t.core = s.core) (h5 : t.tile = s.tile) : t.Inv q :=
  ⟨h1 ▸ h.queue, h2 ▸ h.regs, h3 ▸ h.dram, h4 ▸ h.core, h5 ▸ h.aeq⟩

theorem Ctx.Fits.keep {x y : Ctx} (h : x.Fits) (h0 : y.regs = x.regs) (h1 : y.stack = x.stack) (h2 : y.snap = x.snap)
    (h3 : y.held = x.held) (h4 : y.inbox = x.inbox) : y.Fits :=
  ⟨h0 ▸ h.regs, h1 ▸ h.stack, h2 ▸ h.snap, h3 ▸ h.held, h4 ▸ h.inbox⟩

theorem Core.Fits.keep {x y : Core} (h : x.Fits) (h1 : y.store = x.store) (h2 : y.spurs = x.spurs) : y.Fits :=
  ⟨h1 ▸ h.store, h2 ▸ h.ctx⟩

theorem DramCh.keep_wf {x y : DramCh} (h : Memory.wf x = true) (h1 : y.bytes = x.bytes) (h2 : y.poison = x.poison) :
    Memory.wf y = true := by
  simpa only [Memory.wf, h1, h2] using h

theorem Tile.keep_len {x y : Tile} (h : x.aeq.length ≤ 256) (h1 : y.aeq = x.aeq) : y.aeq.length ≤ 256 := h1 ▸ h

theorem State.Inv.ctx (h : s.Inv q) (c : CtxId) : (s.ctx c).Fits := (h.core c.ridge).ctx c.spur c.no

theorem State.Inv.mkFst {α : Type} {v : α} (h : s.Inv q) : (s, v).1.Inv q := h

theorem State.Inv.cutFst {α : Type} {p : State × α} {P : Prop} (h : p.1.Inv q) (hp : p.1.Inv q → P) : P := hp h

theorem Ctx.Fits.cut {x : Ctx} {P : Prop} (h : x.Fits) (hp : x.Fits → P) : P := hp h

theorem Ctx.Fits.snapped {x : Ctx} (h : x.Fits) : x.stack.length ≤ 16 ∧ swf (kconst 0) x.regs = true := ⟨h.stack, h.regs⟩

/-! ### Updates -/

theorem State.setReg_inv {k : Nat} {v : Word} (h : s.Inv q) : (s.setReg k v).Inv q :=
  ⟨h.queue, sput_wf h.regs, h.dram, h.core, h.aeq⟩

/-- Registers dropped back to their reset values. -/
theorem State.keepRegs_inv {p : Nat × Word → Bool} (h : s.Inv q) : (s.keepRegs p).Inv q :=
  ⟨h.queue, filter_wf p h.regs, h.dram, h.core, h.aeq⟩

theorem State.modCore_inv {r : Side} {f : Core → Core} (hf : ∀ m, m.Fits → (f m).Fits) (h : s.Inv q) :
    (s.modCore r f).Inv q :=
  ⟨h.queue, h.regs, h.dram, Two.forall_set h.core (hf _ (h.core r)), h.aeq⟩

theorem State.setCtx_inv {c : CtxId} {x : Ctx} (hx : x.Fits) (h : s.Inv q) : (s.setCtx c x).Inv q :=
  State.modCore_inv (fun m hm => ⟨hm.store, by
    intro j n
    show (((m.spurs.set c.spur { m.spurs.get c.spur with ctx := (m.spurs.get c.spur).ctx.set c.no x }).get j).ctx.get n).Fits
    rw [Six.get_set]
    split
    · rename_i hk
      subst hk
      show (((m.spurs.get c.spur).ctx.set c.no x).get n).Fits
      exact Four.forall_set (hm.ctx c.spur) hx n
    · exact hm.ctx j n⟩) h

theorem State.modCtx_inv {c : CtxId} {f : Ctx → Ctx} (hf : ∀ x, x.Fits → (f x).Fits) (h : s.Inv q) :
    (s.modCtx c f).Inv q := State.setCtx_inv (hf _ (h.ctx c)) h

theorem State.modTile_inv {t : Quad} {f : Tile → Tile}
    (hf : ∀ x : Tile, x.aeq.length ≤ 256 → (f x).aeq.length ≤ 256) (h : s.Inv q) : (s.modTile t f).Inv q :=
  ⟨h.queue, h.regs, h.dram, h.core, Four.forall_set (P := fun x : Tile => x.aeq.length ≤ 256) h.aeq (hf _ (h.aeq t))⟩

theorem State.modDram_inv {x : Side} {f : DramCh → DramCh} (hf : ∀ d, Memory.wf d = true → Memory.wf (f d) = true)
    (h : s.Inv q) : (s.modDram x f).Inv q :=
  ⟨h.queue, h.regs, Two.forall_set (P := fun d => Memory.wf d = true) h.dram (hf _ (h.dram x)), h.core, h.aeq⟩

theorem State.freeBy_inv {n : Nat} (h : s.Inv q) : (s.freeBy n).Inv q := ⟨h.queue, h.regs, h.dram, h.core, h.aeq⟩

theorem State.modAng_inv {r : Side} {f : Ang → Ang} (h : s.Inv q) : (s.modAng r f).Inv q :=
  ⟨h.queue, h.regs, h.dram, h.core, h.aeq⟩

theorem State.modDec_inv {r : Side} {f : Dec → Dec} (h : s.Inv q) : (s.modDec r f).Inv q :=
  ⟨h.queue, h.regs, h.dram, h.core, h.aeq⟩

theorem State.modLink_inv {l : Side} {f : Link → Link} (h : s.Inv q) : (s.modLink l f).Inv q :=
  ⟨h.queue, h.regs, h.dram, h.core, h.aeq⟩

theorem State.modEvr_inv {f : Evr → Evr} (h : s.Inv q) : (s.modEvr f).Inv q :=
  ⟨h.queue, h.regs, h.dram, h.core, h.aeq⟩

theorem State.modRlg_inv {f : Ledger → Ledger} (h : s.Inv q) : (s.modRlg f).Inv q :=
  ⟨h.queue, h.regs, h.dram, h.core, h.aeq⟩

theorem State.modRcp_inv {f : Rcp → Rcp} (h : s.Inv q) : (s.modRcp f).Inv q :=
  ⟨h.queue, h.regs, h.dram, h.core, h.aeq⟩

theorem State.modCen_inv {r : Side} {f : Cen → Cen} (h : s.Inv q) : (s.modCen r f).Inv q :=
  ⟨h.queue, h.regs, h.dram, h.core, h.aeq⟩

theorem State.modMtr_inv {f : Mtr → Mtr} (h : s.Inv q) : (s.modMtr f).Inv q :=
  ⟨h.queue, h.regs, h.dram, h.core, h.aeq⟩

theorem State.modMon_inv {f : Mon → Mon} (h : s.Inv q) : (s.modMon f).Inv q :=
  ⟨h.queue, h.regs, h.dram, h.core, h.aeq⟩

theorem State.modSte_inv {r : Side} {f : Ste → Ste} (h : s.Inv q) : (s.modSte r f).Inv q :=
  ⟨h.queue, h.regs, h.dram, h.core, h.aeq⟩

theorem State.modZtb_inv {f : Ztb → Ztb} (h : s.Inv q) : (s.modZtb f).Inv q :=
  ⟨h.queue, h.regs, h.dram, h.core, h.aeq⟩

theorem State.modRedun_inv {x : Side} {f : Redun → Redun} (h : s.Inv q) : (s.modRedun x f).Inv q :=
  ⟨h.queue, h.regs, h.dram, h.core, h.aeq⟩

theorem State.modCrn_inv {f : Crn → Crn} (h : s.Inv q) : (s.modCrn f).Inv q :=
  ⟨h.queue, h.regs, h.dram, h.core, h.aeq⟩

theorem State.modWin_inv {f : Win → Win} (h : s.Inv q) : (s.modWin f).Inv q :=
  ⟨h.queue, h.regs, h.dram, h.core, h.aeq⟩

theorem State.modNve_inv {f : Nve → Nve} (h : s.Inv q) : (s.modNve f).Inv q :=
  ⟨h.queue, h.regs, h.dram, h.core, h.aeq⟩

theorem State.modHdg_inv {f : Hdg → Hdg} (h : s.Inv q) : (s.modHdg f).Inv q :=
  ⟨h.queue, h.regs, h.dram, h.core, h.aeq⟩

theorem State.modHpt_inv {p : Side} {f : Hpt → Hpt} (h : s.Inv q) : (s.modHpt p f).Inv q :=
  ⟨h.queue, h.regs, h.dram, h.core, h.aeq⟩

theorem State.modMem_inv {r : Side} {f : Sparse ScrubMem → Sparse ScrubMem} (h : s.Inv q) : (s.modMem r f).Inv q :=
  ⟨h.queue, h.regs, h.dram, h.core, h.aeq⟩

theorem State.modCry_inv {f : Cry → Cry} (h : s.Inv q) : (s.modCry f).Inv q :=
  ⟨h.queue, h.regs, h.dram, h.core, h.aeq⟩

theorem State.modFus_inv {f : Fus → Fus} (h : s.Inv q) : (s.modFus f).Inv q :=
  ⟨h.queue, h.regs, h.dram, h.core, h.aeq⟩

theorem State.modMember_inv {f : Sparse Member → Sparse Member} (h : s.Inv q) : (s.modMember f).Inv q :=
  ⟨h.queue, h.regs, h.dram, h.core, h.aeq⟩

theorem State.modMgmt_inv {f : Mgmt → Mgmt} (h : s.Inv q) : (s.modMgmt f).Inv q :=
  ⟨h.queue, h.regs, h.dram, h.core, h.aeq⟩

theorem State.modPins_inv {f : Pins → Pins} (h : s.Inv q) : (s.modPins f).Inv q :=
  ⟨h.queue, h.regs, h.dram, h.core, h.aeq⟩

end Sys2Proof.Machine
end

