-- ==== Sys2Proof/Laws/InvStateSpur.lean ====
section
/-!
SUPPORT. The operations of Machine/StateSpur.lean keep the invariant.
-/
set_option Elab.async false
set_option linter.unusedTactic false
set_option linter.unreachableTactic false
namespace Sys2Proof.Machine

variable {pq : List Instr} {s : State}

theorem Ctx.fits_of {x : Ctx} (h0 : swf (kconst 0) x.regs = true) (h1 : x.stack.length ≤ 16) (h2 : ∀ n, x.snap = some n → n.fits) (h3 : x.held = none)
    (h4 : x.inbox = []) : x.Fits :=
  ⟨h0, h1, h2, fun _ e => (by rw [h3] at e; cases e), fun _ e => (by rw [h4] at e; cases e)⟩

theorem Ctx.reset_fits : Ctx.reset.Fits :=
  Ctx.fits_of rfl (Nat.zero_le _) (fun _ e => absurd (show none = some _ from e) nofun) rfl rfl

theorem Ctx.bootReset_fits {i : Nat} (hi : i < 6) : (Ctx.bootReset i).Fits := by
  have hr : swf (kconst (0 : DWord)) (Ctx.bootReset i).regs = true := by
    revert i
    decide
  exact Ctx.fits_of hr (Nat.zero_le _) (fun n e => Option.some.inj (show some _ = some n from e) ▸ ⟨Nat.zero_le _, hr⟩) rfl rfl

end Sys2Proof.Machine
end

