-- ==== Sys2Proof/Laws/InvOps.lean ====
section
/-!
SUPPORT. The operations of Machine/Ops.lean keep the invariant.
-/
set_option Elab.async false
set_option linter.unusedTactic false
set_option linter.unreachableTactic false
namespace Sys2Proof.Machine

variable {pq : List Instr} {s : State}

theorem State.modReg_inv {k : Nat} {f : Word → Word} (hI : s.Inv pq) : (State.modReg s k f).Inv pq := by
  unfold State.modReg
  repeat' first
    | with_reducible assumption
    | with_reducible apply State.setReg_inv

theorem State.setStat_inv {k : Nat} {i : Nat} (hI : s.Inv pq) : (State.setStat s k i).Inv pq := by
  unfold State.setStat
  repeat' first
    | with_reducible assumption
    | with_reducible apply State.modReg_inv

theorem State.bump_inv {k : Nat} {hi : Nat} {lo : Nat} {n : Nat} (hI : s.Inv pq) : (State.bump s k hi lo n).Inv pq := by
  unfold State.bump
  repeat' first
    | with_reducible assumption
    | with_reducible apply State.modReg_inv

theorem State.freeNext_inv (hI : s.Inv pq) : (State.freeNext s).Inv pq := by
  unfold State.freeNext
  repeat' first
    | with_reducible assumption
    | with_reducible apply State.freeBy_inv

theorem Ctx.wr_fits {x : Ctx} {n : Nat} {v : DWord} (hx : x.Fits) : (Ctx.wr x n v).Fits := by
  unfold Ctx.wr
  split
  · exact hx
  · exact ⟨sp_wf hx.regs, hx.stack, hx.snap, hx.held, hx.inbox⟩

theorem Ctx.stage_fits {x : Ctx} {port : Nat} {v : DWord} (hx : x.Fits) : (Ctx.stage x port v).Fits := by
  unfold Ctx.stage
  repeat' first
    | exact Ctx.Fits.keep hx rfl rfl rfl rfl rfl

theorem Ctx.raise_fits {x : Ctx} {n : Nat} (hx : x.Fits) : (Ctx.raise x n).Fits := by
  unfold Ctx.raise
  repeat' first
    | exact Ctx.Fits.keep hx rfl rfl rfl rfl rfl

theorem State.raiseLine_inv {c : CtxId} {n : Nat} (hI : s.Inv pq) : (State.raiseLine s c n).Inv pq := by
  unfold State.raiseLine
  repeat' first
    | with_reducible assumption
    | intro x hx
    | with_reducible apply State.modCtx_inv
    | with_reducible apply Ctx.raise_fits

theorem State.raiseRoute_inv {r : Side} {spur : Nat} {ctx : Nat} {n : Nat} (hI : s.Inv pq) : (State.raiseRoute s r spur ctx n).Inv pq := by
  unfold State.raiseRoute
  repeat' first
    | with_reducible assumption
    | with_reducible apply State.raiseLine_inv
    | split

theorem State.spuInt_inv {r : Side} {i : Nat} (hI : s.Inv pq) : (State.spuInt s r i).Inv pq := by
  unfold State.spuInt
  repeat' first
    | with_reducible assumption
    | (extract_lets +onlyGivenNames s1; refine State.Inv.cut (s := s1) (q := pq) ?_ (fun _ => ?_); rotate_left; clear_value s1; rotate_left; dsimp -zeta only [s1]; clear s1)
    | with_reducible apply State.setStat_inv
    | with_reducible apply State.raiseLine_inv
    | split

theorem State.byCtx_inv {c : CtxId} {f : State → State} (hf : ∀ s, State.Inv pq s → (f s).Inv pq) (hI : s.Inv pq) : (State.byCtx s c f).Inv pq := by
  unfold State.byCtx
  repeat' first
    | with_reducible assumption
    | with_reducible apply hf
    | split

theorem State.refuseCtx_inv {c : CtxId} {port : Nat} {reason : Nat} (hI : s.Inv pq) : (State.refuseCtx s c port reason).Inv pq := by
  unfold State.refuseCtx
  repeat' first
    | with_reducible assumption
    | intro x hx
    | with_reducible apply State.modCtx_inv
    | exact Ctx.Fits.keep hx rfl rfl rfl rfl rfl

theorem State.refuse_inv {x : Accessor} {reason : Nat} (hI : s.Inv pq) : (State.refuse s x reason).Inv pq := by
  unfold State.refuse
  repeat' first
    | with_reducible assumption
    | with_reducible apply State.refuseCtx_inv
    | split

theorem State.access_inv {x : Accessor} {key : Nat} {owned : Bool} {f : State → State} (hf : ∀ s, State.Inv pq s → (f s).Inv pq) (hI : s.Inv pq) : (State.access s x key owned f).Inv pq := by
  unfold State.access
  repeat' first
    | with_reducible assumption
    | with_reducible apply State.refuse_inv
    | with_reducible apply hf
    | split

theorem State.postGroup_inv {code : BitVec 16} {g : EvGroup} (hI : s.Inv pq) : (State.postGroup s code g).1.Inv pq := by
  unfold State.postGroup
  repeat' first
    | with_reducible assumption
    | with_reducible apply State.modEvr_inv
    | with_reducible apply State.setStat_inv
    | split

theorem State.event_inv {code : BitVec 16} {src : BitVec 16} {ps : List (Nat × Word)} (hI : s.Inv pq) : (State.event s code src ps).Inv pq := by
  unfold State.event
  repeat' first
    | with_reducible assumption
    | with_reducible apply State.postGroup_inv
    | with_reducible apply State.freeNext_inv
    | split

theorem State.refuseTile_inv {x : Accessor} {t : Quad} (hI : s.Inv pq) : (State.refuseTile s x t).Inv pq := by
  unfold State.refuseTile
  repeat' first
    | with_reducible assumption
    | with_reducible apply State.refuse_inv
    | with_reducible apply State.event_inv

theorem State.tileAccess_inv {x : Accessor} {t : Quad} {f : State → State} (hf : ∀ s, State.Inv pq s → (f s).Inv pq) (hI : s.Inv pq) : (State.tileAccess s x t f).Inv pq := by
  unfold State.tileAccess
  repeat' first
    | with_reducible assumption
    | with_reducible apply State.refuse_inv
    | with_reducible apply State.refuseTile_inv
    | with_reducible apply hf
    | split

end Sys2Proof.Machine
end

