-- ==== Sys2Proof/Laws/InvTileOps.lean ====
section
/-!
SUPPORT. The operations of Machine/TileOps.lean keep the invariant.
-/
set_option Elab.async false
set_option linter.unusedTactic false
set_option linter.unreachableTactic false
namespace Sys2Proof.Machine

variable {pq : List Instr} {s : State}

theorem State.enterStatus_inv {t : Quad} {w : DWord} (hI : s.Inv pq) : (State.enterStatus s t w).Inv pq := by
  unfold State.enterStatus
  repeat' first
    | with_reducible assumption
    | (extract_lets +onlyGivenNames s1; refine State.Inv.cut (s := s1) (q := pq) ?_ (fun _ => ?_); rotate_left; clear_value s1; rotate_left; dsimp -zeta only [s1]; clear s1)
    | (extract_lets +onlyGivenNames x1; clear_value x1)
    | (intro x hx; beta_reduce)
    | with_reducible apply State.modTile_inv
    | with_reducible apply State.bump_inv
    | with_reducible apply State.raiseRoute_inv
    | split

theorem State.drainStatus_inv {t : Quad} : ∀ {l : List (Nat × Option DWord)} {s : State}, s.Inv pq → (s.drainStatus t l).Inv pq
  | [], _, h => State.modTile_inv (fun _ hx => Tile.keep_len hx rfl) h
  | (_, none) :: _, _, h => State.modTile_inv (fun _ hx => Tile.keep_len hx rfl) h
  | (_, some _) :: rest, _, h => State.drainStatus_inv (l := rest) (State.enterStatus_inv h)

theorem State.endStatus_inv {t : Quad} {n : Nat} {w : Option DWord} (hI : s.Inv pq) : (State.endStatus s t n w).Inv pq := by
  unfold State.endStatus
  repeat' first
    | with_reducible assumption
    | with_reducible apply State.drainStatus_inv

theorem State.postStatus_inv {t : Quad} {w : DWord} (hI : s.Inv pq) : (State.postStatus s t w).Inv pq := by
  unfold State.postStatus
  repeat' first
    | with_reducible assumption
    | with_reducible apply State.endStatus_inv

theorem State.decidedStatus_inv {t : Quad} {n : Nat} {w : DWord} (hI : s.Inv pq) : (State.decidedStatus s t n w).Inv pq := by
  unfold State.decidedStatus
  repeat' first
    | with_reducible assumption
    | with_reducible apply State.drainStatus_inv

theorem State.lastOff_inv {t : Quad} {x : Sector} (hI : s.Inv pq) : (State.lastOff s t x).Inv pq := by
  unfold State.lastOff
  repeat' first
    | with_reducible assumption
    | with_reducible apply State.setReg_inv

theorem State.toDecode_inv {t : Quad} {x : Sector} {out : SecOut} {n : Nat} (hI : s.Inv pq) : (State.toDecode s t x out n).Inv pq := by
  unfold State.toDecode
  repeat' first
    | with_reducible assumption
    | (extract_lets +onlyGivenNames x1; clear_value x1)
    | (intro x hx; beta_reduce)
    | with_reducible apply State.modDec_inv
    | with_reducible apply State.endStatus_inv
    | with_reducible apply State.setStat_inv
    | with_reducible apply State.modTile_inv
    | with_reducible apply State.postStatus_inv
    | exact Tile.keep_len hx rfl
    | split

theorem State.endRead_inv {t : Quad} {x : Sector} {out : SecOut} (hI : s.Inv pq) : (State.endRead s t x out).Inv pq := by
  unfold State.endRead
  repeat' first
    | with_reducible assumption
    | (extract_lets +onlyGivenNames s1; refine State.Inv.cut (s := s1) (q := pq) ?_ (fun _ => ?_); rotate_left; clear_value s1; rotate_left; dsimp -zeta only [s1]; clear s1)
    | (extract_lets +onlyGivenNames x1; clear_value x1)
    | (intro x hx; beta_reduce)
    | with_reducible apply State.lastOff_inv
    | with_reducible apply State.modTile_inv
    | with_reducible apply State.postStatus_inv
    | with_reducible apply State.toDecode_inv
    | split

theorem State.logWrite_inv {t : Quad} {out : SecOut} (hI : s.Inv pq) : (State.logWrite s t out).Inv pq := by
  unfold State.logWrite
  repeat' first
    | with_reducible assumption
    | (extract_lets +onlyGivenNames x1; clear_value x1)
    | (intro x hx; beta_reduce)
    | with_reducible apply State.modTile_inv
    | split

theorem State.endWrite_inv {t : Quad} {x : Sector} {out : SecOut} (hI : s.Inv pq) : (State.endWrite s t x out).Inv pq := by
  unfold State.endWrite
  repeat' first
    | with_reducible assumption
    | (intro x hx; beta_reduce)
    | with_reducible apply State.logWrite_inv
    | with_reducible apply State.modTile_inv
    | with_reducible apply State.postStatus_inv

theorem State.sendData_inv {t : Quad} (hI : s.Inv pq) : (State.sendData s t).Inv pq := by
  unfold State.sendData
  repeat' first
    | with_reducible assumption
    | (extract_lets +onlyGivenNames x1; clear_value x1)
    | (intro x hx; beta_reduce)
    | with_reducible apply State.modTile_inv
    | with_reducible apply State.freeNext_inv
    | split

theorem State.putSector_inv {t : Quad} {x : Sector} (hI : s.Inv pq) : (State.putSector s t x).Inv pq := by
  unfold State.putSector
  repeat' first
    | with_reducible assumption
    | intro x hx
    | with_reducible apply State.modTile_inv

theorem State.takeFrag_inv {t : Quad} {x : Sector} (hI : s.Inv pq) : (State.takeFrag s t x).1.Inv pq := by
  unfold State.takeFrag
  repeat' first
    | with_reducible assumption
    | (extract_lets +onlyGivenNames x1; clear_value x1)
    | (intro x hx; beta_reduce)
    | with_reducible apply State.bump_inv
    | with_reducible apply State.modTile_inv

theorem State.syncFound_inv {t : Quad} {w : SyncWin} {pos : Nat} (hI : s.Inv pq) : (State.syncFound s t w pos).Inv pq := by
  unfold State.syncFound
  repeat' first
    | with_reducible assumption
    | (extract_lets +onlyGivenNames s1; refine State.Inv.cut (s := s1) (q := pq) ?_ (fun _ => ?_); rotate_left; clear_value s1; rotate_left; dsimp -zeta only [s1]; clear s1)
    | (extract_lets +onlyGivenNames x1; clear_value x1)
    | (intro x hx; beta_reduce)
    | with_reducible apply State.modTile_inv
    | with_reducible apply State.bump_inv
    | split

theorem State.flywheelFrag_inv {t : Quad} {w : SyncWin} (hI : s.Inv pq) : (State.flywheelFrag s t w).Inv pq := by
  unfold State.flywheelFrag
  repeat' first
    | with_reducible assumption
    | (extract_lets +onlyGivenNames s1; refine State.Inv.cut (s := s1) (q := pq) ?_ (fun _ => ?_); rotate_left; clear_value s1; rotate_left; dsimp -zeta only [s1]; clear s1)
    | (intro x hx; beta_reduce)
    | with_reducible apply State.bump_inv
    | with_reducible apply State.modTile_inv

theorem State.closeWin_inv {t : Quad} {close : Nat} (hI : s.Inv pq) : (State.closeWin s t close).Inv pq := by
  unfold State.closeWin
  repeat' first
    | with_reducible assumption
    | (extract_lets +onlyGivenNames s1; refine State.Inv.cut (s := s1) (q := pq) ?_ (fun _ => ?_); rotate_left; clear_value s1; rotate_left; dsimp -zeta only [s1]; clear s1)
    | (intro x hx; beta_reduce)
    | with_reducible apply State.syncFound_inv
    | with_reducible apply State.flywheelFrag_inv
    | with_reducible apply State.modTile_inv
    | split

theorem State.cutRead_inv {t : Quad} {x : Sector} (hI : s.Inv pq) : (State.cutRead s t x).Inv pq := by
  unfold State.cutRead
  repeat' first
    | with_reducible assumption
    | (extract_lets +onlyGivenNames s1; refine State.Inv.cut (s := s1) (q := pq) ?_ (fun _ => ?_); rotate_left; clear_value s1; rotate_left; dsimp -zeta only [s1]; clear s1)
    | (extract_lets +onlyGivenNames x1; clear_value x1)
    | with_reducible apply State.freeBy_inv
    | with_reducible apply State.putSector_inv
    | with_reducible apply State.closeWin_inv
    | with_reducible apply State.takeFrag_inv
    | with_reducible apply State.endRead_inv
    | with_reducible refine State.Inv.fst (by assumption) ?_
    | split

theorem State.cutSector_inv {t : Quad} (hI : s.Inv pq) : (State.cutSector s t).Inv pq := by
  unfold State.cutSector
  repeat' first
    | with_reducible assumption
    | (extract_lets +onlyGivenNames s1; refine State.Inv.cut (s := s1) (q := pq) ?_ (fun _ => ?_); rotate_left; clear_value s1; rotate_left; dsimp -zeta only [s1]; clear s1)
    | with_reducible apply State.endWrite_inv
    | with_reducible apply State.cutRead_inv
    | with_reducible apply State.endRead_inv
    | split

theorem State.cutGate_inv {t : Quad} (hI : s.Inv pq) : (State.cutGate s t).Inv pq := by
  unfold State.cutGate
  repeat' first
    | with_reducible assumption
    | (extract_lets +onlyGivenNames s1; refine State.Inv.cut (s := s1) (q := pq) ?_ (fun _ => ?_); rotate_left; clear_value s1; rotate_left; dsimp -zeta only [s1]; clear s1)
    | (extract_lets +onlyGivenNames x1; clear_value x1)
    | with_reducible apply State.cutRead_inv
    | with_reducible apply State.sendData_inv
    | with_reducible apply State.endWrite_inv
    | with_reducible apply State.putSector_inv
    | split

theorem State.settleSkew_inv {t : Quad} (hI : s.Inv pq) : (State.settleSkew s t).Inv pq := by
  unfold State.settleSkew
  repeat' first
    | with_reducible assumption
    | with_reducible apply State.modAng_inv
    | split

theorem State.dropWg_inv {t : Quad} (hI : s.Inv pq) : (State.dropWg s t).Inv pq := by
  unfold State.dropWg
  repeat' first
    | with_reducible assumption
    | (extract_lets +onlyGivenNames s1; refine State.Inv.cut (s := s1) (q := pq) ?_ (fun _ => ?_); rotate_left; clear_value s1; rotate_left; dsimp -zeta only [s1]; clear s1)
    | (extract_lets +onlyGivenNames x1; clear_value x1)
    | intro x hx
    | with_reducible apply State.modTile_inv
    | with_reducible apply State.settleSkew_inv
    | with_reducible apply State.setStat_inv
    | split

theorem State.dropRg_inv {t : Quad} (hI : s.Inv pq) : (State.dropRg s t).Inv pq := by
  unfold State.dropRg
  repeat' first
    | with_reducible assumption
    | (extract_lets +onlyGivenNames s1; refine State.Inv.cut (s := s1) (q := pq) ?_ (fun _ => ?_); rotate_left; clear_value s1; rotate_left; dsimp -zeta only [s1]; clear s1)
    | intro x hx
    | with_reducible apply State.modTile_inv
    | with_reducible apply State.settleSkew_inv
    | split

theorem State.forceLow_inv {t : Quad} {once : Bool} (hI : s.Inv pq) : (State.forceLow s t once).Inv pq := by
  unfold State.forceLow
  repeat' first
    | with_reducible assumption
    | (extract_lets +onlyGivenNames s1; refine State.Inv.cut (s := s1) (q := pq) ?_ (fun _ => ?_); rotate_left; clear_value s1; rotate_left; dsimp -zeta only [s1]; clear s1)
    | (extract_lets +onlyGivenNames x1; clear_value x1)
    | (intro x hx; beta_reduce)
    | with_reducible apply State.sendData_inv
    | with_reducible apply State.modTile_inv
    | with_reducible apply State.settleSkew_inv
    | with_reducible apply State.endWrite_inv
    | split

theorem State.applyInhibit_inv {r : Side} (hI : s.Inv pq) : (State.applyInhibit s r).Inv pq := by
  unfold State.applyInhibit
  repeat' first
    | with_reducible assumption
    | intro x y hx
    | with_reducible apply State.forceLow_inv
    | with_reducible apply State.Inv.foldl
    | split

theorem State.lowMark_inv {t : Quad} {n : Nat} (hI : s.Inv pq) : (State.lowMark s t n).Inv pq := by
  unfold State.lowMark
  repeat' first
    | with_reducible assumption
    | (extract_lets +onlyGivenNames x1; clear_value x1)
    | with_reducible apply State.raiseRoute_inv
    | split

theorem State.flushAeq_inv {t : Quad} (hI : s.Inv pq) : (State.flushAeq s t).Inv pq := by
  unfold State.flushAeq
  repeat' first
    | with_reducible assumption
    | (extract_lets +onlyGivenNames s1; refine State.Inv.cut (s := s1) (q := pq) ?_ (fun _ => ?_); rotate_left; clear_value s1; rotate_left; dsimp -zeta only [s1]; clear s1)
    | (extract_lets +onlyGivenNames x1; clear_value x1)
    | (intro x hx; beta_reduce)
    | with_reducible apply State.modTile_inv
    | with_reducible apply State.cutGate_inv
    | with_reducible apply State.dropWg_inv
    | with_reducible apply State.dropRg_inv
    | with_reducible apply State.lowMark_inv
    | exact Nat.zero_le _

end Sys2Proof.Machine
end

