-- ==== Sys2Proof/Laws/InvQuaxlink.lean ====
section
/-!
SUPPORT. The operations of Machine/Quaxlink.lean keep the invariant.
-/
set_option Elab.async false
set_option linter.unusedTactic false
set_option linter.unreachableTactic false
namespace Sys2Proof.Machine

variable {pq : List Instr} {s : State}

theorem State.sendRun_inv {l : Side} {f : Frame} (hI : s.Inv pq) : (State.sendRun s l f).Inv pq := by
  unfold State.sendRun
  repeat' first
    | with_reducible assumption
    | with_reducible apply State.modLink_inv
    | split

theorem State.sendMact_inv {l : Side} {f : Frame} (hI : s.Inv pq) : (State.sendMact s l f).Inv pq := by
  unfold State.sendMact
  repeat' first
    | with_reducible assumption
    | with_reducible apply State.modLink_inv
    | split

theorem State.sendHsel_inv {l : Side} {slot : Side} {head : Nat} (hI : s.Inv pq) : (State.sendHsel s l slot head).Inv pq := by
  unfold State.sendHsel
  repeat' first
    | with_reducible assumption
    | with_reducible apply State.setStat_inv
    | with_reducible apply State.modLink_inv
    | with_reducible apply State.sendRun_inv
    | split

theorem State.resendHsel_inv {l : Side} {slot : Side} (hI : s.Inv pq) : (State.resendHsel s l slot).Inv pq := by
  unfold State.resendHsel
  repeat' first
    | with_reducible assumption
    | (extract_lets +onlyGivenNames x1; clear_value x1)
    | with_reducible apply State.sendHsel_inv
    | split

theorem State.resendAll_inv {l : Side} (hI : s.Inv pq) : (State.resendAll s l).Inv pq := by
  unfold State.resendAll
  repeat' first
    | with_reducible assumption
    | (extract_lets +onlyGivenNames f1; refine State.Inv.fnCut2 (f := f1) (q := pq) ?_ (fun hf1 => ?_); rotate_left; clear_value f1; rotate_left; dsimp -zeta only [f1]; clear f1)
    | (extract_lets +onlyGivenNames s1; refine State.Inv.cut (s := s1) (q := pq) ?_ (fun _ => ?_); rotate_left; clear_value s1; rotate_left; dsimp -zeta only [s1]; clear s1)
    | (extract_lets +onlyGivenNames x1; clear_value x1)
    | with_reducible apply hf1
    | intro x y hx
    | with_reducible apply State.sendHsel_inv
    | with_reducible apply State.sendRun_inv
    | split

theorem State.endReg_inv {l : Side} {err : Bool} {addr : Nat} {value : Nat} (hI : s.Inv pq) : (State.endReg s l err addr value).Inv pq := by
  unfold State.endReg
  repeat' first
    | with_reducible assumption
    | with_reducible apply State.modLink_inv
    | with_reducible apply State.setReg_inv
    | with_reducible apply State.setStat_inv
    | split

theorem State.failReg_inv {l : Side} (hI : s.Inv pq) : (State.failReg s l).Inv pq := by
  unfold State.failReg
  repeat' first
    | with_reducible assumption
    | with_reducible apply State.endReg_inv
    | split

theorem State.forceSlots_inv {l : Side} (hI : s.Inv pq) : (State.forceSlots s l).Inv pq := by
  unfold State.forceSlots
  repeat' first
    | with_reducible assumption
    | with_reducible apply State.forceLow_inv

theorem State.linkFault_inv {l : Side} {cause : Nat} {typ : Nat} (hI : s.Inv pq) : (State.linkFault s l cause typ).Inv pq := by
  unfold State.linkFault
  repeat' first
    | with_reducible assumption
    | with_reducible apply State.forceSlots_inv
    | with_reducible apply State.modLink_inv
    | with_reducible apply State.failReg_inv
    | with_reducible apply State.setStat_inv
    | with_reducible apply State.event_inv

theorem State.frameSlot_inv {l : Side} (hI : s.Inv pq) : (State.frameSlot s l).Inv pq := by
  unfold State.frameSlot
  repeat' first
    | with_reducible assumption
    | with_reducible apply State.modLink_inv
    | split

theorem State.acked_inv {l : Side} {f : Frame} (hI : s.Inv pq) : (State.acked s l f).Inv pq := by
  unfold State.acked
  repeat' first
    | with_reducible assumption
    | with_reducible apply State.modLink_inv
    | with_reducible apply State.endReg_inv
    | split

theorem State.naked_inv {l : Side} {f : Frame} (hI : s.Inv pq) : (State.naked s l f).Inv pq := by
  unfold State.naked
  repeat' first
    | with_reducible assumption
    | with_reducible apply State.modLink_inv
    | with_reducible apply State.linkFault_inv
    | with_reducible apply State.failReg_inv
    | split

theorem State.resolve_inv {l : Side} {nak : Bool} {count : Bool} (hI : s.Inv pq) : (State.resolve s l nak count).Inv pq := by
  unfold State.resolve
  repeat' first
    | with_reducible assumption
    | with_reducible apply State.modLink_inv
    | with_reducible apply State.bump_inv
    | with_reducible apply State.naked_inv
    | with_reducible apply State.acked_inv
    | split

theorem State.upSlot_inv {l : Side} {good : Bool} {nak : Bool} {count : Bool} (hI : s.Inv pq) : (State.upSlot s l good nak count).Inv pq := by
  unfold State.upSlot
  repeat' first
    | with_reducible assumption
    | with_reducible apply State.modLink_inv
    | with_reducible apply State.resolve_inv

theorem State.onUp_inv {l : Side} {w : BitVec 40} {typ : Nat → Bool} {f : State → State} (hf : ∀ s, State.Inv pq s → (f s).Inv pq) (hI : s.Inv pq) : (State.onUp s l w typ f).Inv pq := by
  unfold State.onUp
  repeat' first
    | with_reducible assumption
    | with_reducible apply State.upSlot_inv
    | with_reducible apply hf
    | split

theorem State.rdrsp_inv {l : Side} {addr : Nat} {val : Nat} (hI : s.Inv pq) : (State.rdrsp s l addr val).Inv pq := by
  unfold State.rdrsp
  repeat' first
    | with_reducible assumption
    | (extract_lets +onlyGivenNames s1; refine State.Inv.cut (s := s1) (q := pq) ?_ (fun _ => ?_); rotate_left; clear_value s1; rotate_left; dsimp -zeta only [s1]; clear s1)
    | (extract_lets +onlyGivenNames x1; clear_value x1)
    | with_reducible apply State.modLink_inv
    | with_reducible apply State.sendRun_inv
    | with_reducible apply State.endReg_inv
    | split

theorem State.statusFrame_inv {l : Side} {data : BitVec 24} (hI : s.Inv pq) : (State.statusFrame s l data).Inv pq := by
  unfold State.statusFrame
  repeat' first
    | with_reducible assumption
    | (extract_lets +onlyGivenNames s1; refine State.Inv.cut (s := s1) (q := pq) ?_ (fun _ => ?_); rotate_left; clear_value s1; rotate_left; dsimp -zeta only [s1]; clear s1)
    | (extract_lets +onlyGivenNames x1; clear_value x1)
    | with_reducible apply State.modLink_inv
    | with_reducible apply State.setReg_inv
    | with_reducible apply State.resendAll_inv
    | split

theorem State.regCmd_inv {l : Side} {isRead : Bool} {addr : Nat} {value : Nat} (hI : s.Inv pq) : (State.regCmd s l isRead addr value).Inv pq := by
  unfold State.regCmd
  repeat' first
    | with_reducible assumption
    | (extract_lets +onlyGivenNames s1; refine State.Inv.cut (s := s1) (q := pq) ?_ (fun _ => ?_); rotate_left; clear_value s1; rotate_left; dsimp -zeta only [s1]; clear s1)
    | (extract_lets +onlyGivenNames x1; clear_value x1)
    | with_reducible apply State.setStat_inv
    | with_reducible apply State.setReg_inv
    | with_reducible apply State.modLink_inv
    | with_reducible apply State.sendRun_inv
    | with_reducible apply State.endReg_inv
    | split

theorem State.linkStart_inv {l : Side} (hI : s.Inv pq) : (State.linkStart s l).Inv pq := by
  unfold State.linkStart
  repeat' first
    | with_reducible assumption
    | (extract_lets +onlyGivenNames s1; refine State.Inv.cut (s := s1) (q := pq) ?_ (fun _ => ?_); rotate_left; clear_value s1; rotate_left; dsimp -zeta only [s1]; clear s1)
    | with_reducible apply State.modReg_inv
    | with_reducible apply State.modLink_inv
    | split

theorem State.linkStop_inv {l : Side} (hI : s.Inv pq) : (State.linkStop s l).Inv pq := by
  unfold State.linkStop
  repeat' first
    | with_reducible assumption
    | (extract_lets +onlyGivenNames s1; refine State.Inv.cut (s := s1) (q := pq) ?_ (fun _ => ?_); rotate_left; clear_value s1; rotate_left; dsimp -zeta only [s1]; clear s1)
    | with_reducible apply State.modReg_inv
    | with_reducible apply State.forceSlots_inv
    | with_reducible apply State.failReg_inv
    | with_reducible apply State.modLink_inv
    | split

theorem State.heater_inv {l : Side} {head : Nat} {lv : BitVec 12} (hI : s.Inv pq) : (State.heater s l head lv).Inv pq := by
  unfold State.heater
  repeat' first
    | with_reducible assumption
    | with_reducible apply State.modLink_inv
    | with_reducible apply State.sendRun_inv
    | split

theorem State.safeCmd_inv {l : Side} {data : Word} (hI : s.Inv pq) : (State.safeCmd s l data).Inv pq := by
  unfold State.safeCmd
  repeat' first
    | with_reducible assumption
    | with_reducible apply State.modLink_inv
    | split

theorem State.pairWrite_inv {l : Side} {data : Word} (hI : s.Inv pq) : (State.pairWrite s l data).Inv pq := by
  unfold State.pairWrite
  repeat' first
    | with_reducible assumption
    | with_reducible apply State.modLink_inv

theorem execFrameSlot_inv {l : Side} (hI : s.Inv pq) : ∃ s1, execFrameSlot l s = .next s1 ∧ s1.Inv pq := by
  unfold execFrameSlot
  refine ⟨_, rfl, ?_⟩
  repeat' first
    | with_reducible assumption
    | with_reducible apply State.frameSlot_inv

theorem execIdle_inv {l : Side} {w : BitVec 40} (hI : s.Inv pq) : ∃ s1, execIdle l w s = .next s1 ∧ s1.Inv pq := by
  unfold execIdle
  refine ⟨_, rfl, ?_⟩
  repeat' first
    | with_reducible assumption
    | (intro x hx; beta_reduce)
    | with_reducible apply State.onUp_inv

theorem execRdrsp_inv {l : Side} {w : BitVec 40} (hI : s.Inv pq) : ∃ s1, execRdrsp l w s = .next s1 ∧ s1.Inv pq := by
  unfold execRdrsp
  refine ⟨_, rfl, ?_⟩
  repeat' first
    | with_reducible assumption
    | (intro x hx; beta_reduce)
    | with_reducible apply State.onUp_inv
    | with_reducible apply State.rdrsp_inv

theorem execStatus_inv {l : Side} {w : BitVec 40} (hI : s.Inv pq) : ∃ s1, execStatus l w s = .next s1 ∧ s1.Inv pq := by
  unfold execStatus
  refine ⟨_, rfl, ?_⟩
  repeat' first
    | with_reducible assumption
    | (intro x hx; beta_reduce)
    | with_reducible apply State.onUp_inv
    | with_reducible apply State.statusFrame_inv

theorem State.logFault_inv {l : Side} {head : Nat} (hI : s.Inv pq) : (State.logFault s l head).Inv pq := by
  unfold State.logFault
  repeat' first
    | with_reducible assumption
    | with_reducible apply State.modLink_inv
    | split

theorem execFault_inv {l : Side} {w : BitVec 40} (hI : s.Inv pq) : ∃ s1, execFault l w s = .next s1 ∧ s1.Inv pq := by
  unfold execFault
  refine ⟨_, rfl, ?_⟩
  repeat' first
    | with_reducible assumption
    | (intro x hx; beta_reduce)
    | with_reducible apply State.onUp_inv
    | with_reducible apply State.logFault_inv
    | with_reducible apply State.setReg_inv
    | with_reducible apply State.setStat_inv

theorem execUpstreamIgnoredType_inv {l : Side} {w : BitVec 40} (hI : s.Inv pq) : ∃ s1, execUpstreamIgnoredType l w s = .next s1 ∧ s1.Inv pq := by
  unfold execUpstreamIgnoredType
  refine ⟨_, rfl, ?_⟩
  repeat' first
    | with_reducible assumption
    | (intro x hx; beta_reduce)
    | with_reducible apply State.onUp_inv
    | with_reducible apply State.bump_inv

theorem execUpstreamLock_inv {l : Side} (hI : s.Inv pq) : ∃ s1, execUpstreamLock l s = .next s1 ∧ s1.Inv pq := by
  unfold execUpstreamLock
  refine ⟨_, rfl, ?_⟩
  repeat' first
    | with_reducible assumption
    | (extract_lets +onlyGivenNames s1; refine State.Inv.cut (s := s1) (q := pq) ?_ (fun _ => ?_); rotate_left; clear_value s1; rotate_left; dsimp -zeta only [s1]; clear s1)
    | with_reducible apply State.modLink_inv
    | split

theorem execUpstreamLockLoss_inv {l : Side} (hI : s.Inv pq) : ∃ s1, execUpstreamLockLoss l s = .next s1 ∧ s1.Inv pq := by
  unfold execUpstreamLockLoss
  refine ⟨_, rfl, ?_⟩
  repeat' first
    | with_reducible assumption
    | with_reducible apply State.modLink_inv
    | split

theorem execUpstreamSilence_inv {l : Side} (hI : s.Inv pq) : ∃ s1, execUpstreamSilence l s = .next s1 ∧ s1.Inv pq := by
  unfold execUpstreamSilence
  refine ⟨_, rfl, ?_⟩
  repeat' first
    | with_reducible assumption
    | with_reducible apply State.linkFault_inv
    | split

theorem execRetriesExhausted_inv {l : Side} {w : BitVec 40} (hI : s.Inv pq) : ∃ s1, execRetriesExhausted l w s = .next s1 ∧ s1.Inv pq := by
  unfold execRetriesExhausted
  refine ⟨_, rfl, ?_⟩
  repeat' first
    | with_reducible assumption
    | (intro x hx; beta_reduce)
    | with_reducible apply State.onUp_inv
    | split

theorem execRegisterAccessTimeout_inv {l : Side} (hI : s.Inv pq) : ∃ s1, execRegisterAccessTimeout l s = .next s1 ∧ s1.Inv pq := by
  unfold execRegisterAccessTimeout
  refine ⟨_, rfl, ?_⟩
  repeat' first
    | with_reducible assumption
    | with_reducible apply State.failReg_inv
    | split

theorem execLinkStart_inv {x : Accessor} {l : Side} (hI : s.Inv pq) : ∃ s1, execLinkStart x l s = .next s1 ∧ s1.Inv pq := by
  unfold execLinkStart
  refine ⟨_, rfl, ?_⟩
  repeat' first
    | with_reducible assumption
    | intro x hx
    | with_reducible apply State.access_inv
    | with_reducible apply State.linkStart_inv

theorem execLinkStartTimeout_inv {l : Side} (hI : s.Inv pq) : ∃ s1, execLinkStartTimeout l s = .next s1 ∧ s1.Inv pq := by
  unfold execLinkStartTimeout
  refine ⟨_, rfl, ?_⟩
  repeat' first
    | with_reducible assumption
    | with_reducible apply State.modLink_inv
    | with_reducible apply State.failReg_inv
    | with_reducible apply State.setStat_inv
    | with_reducible apply State.event_inv
    | split

theorem execLinkStop_inv {x : Accessor} {l : Side} (hI : s.Inv pq) : ∃ s1, execLinkStop x l s = .next s1 ∧ s1.Inv pq := by
  unfold execLinkStop
  refine ⟨_, rfl, ?_⟩
  repeat' first
    | with_reducible assumption
    | intro x hx
    | with_reducible apply State.access_inv
    | with_reducible apply State.linkStop_inv

theorem execPreampRegisterRead_inv {x : Accessor} {l : Side} {addr : Byte} (hI : s.Inv pq) : ∃ s1, execPreampRegisterRead x l addr s = .next s1 ∧ s1.Inv pq := by
  unfold execPreampRegisterRead
  refine ⟨_, rfl, ?_⟩
  repeat' first
    | with_reducible assumption
    | intro x hx
    | with_reducible apply State.access_inv
    | with_reducible apply State.regCmd_inv

theorem execPreampRegisterWrite_inv {x : Accessor} {l : Side} {addr : Byte} {val : BitVec 16} (hI : s.Inv pq) : ∃ s1, execPreampRegisterWrite x l addr val s = .next s1 ∧ s1.Inv pq := by
  unfold execPreampRegisterWrite
  refine ⟨_, rfl, ?_⟩
  repeat' first
    | with_reducible assumption
    | intro x hx
    | with_reducible apply State.access_inv
    | with_reducible apply State.regCmd_inv

theorem execHeaterCommand_inv {x : Accessor} {l : Side} {head : BitVec 4} {level : BitVec 12} (hI : s.Inv pq) : ∃ s1, execHeaterCommand x l head level s = .next s1 ∧ s1.Inv pq := by
  unfold execHeaterCommand
  refine ⟨_, rfl, ?_⟩
  repeat' first
    | with_reducible assumption
    | intro x hx
    | with_reducible apply State.access_inv
    | with_reducible apply State.heater_inv

theorem execSafeCommand_inv {x : Accessor} {l : Side} {data : Word} (hI : s.Inv pq) : ∃ s1, execSafeCommand x l data s = .next s1 ∧ s1.Inv pq := by
  unfold execSafeCommand
  refine ⟨_, rfl, ?_⟩
  repeat' first
    | with_reducible assumption
    | intro x hx
    | with_reducible apply State.access_inv
    | with_reducible apply State.safeCmd_inv

theorem execPairMapWrite_inv {x : Accessor} {l : Side} {data : Word} (hI : s.Inv pq) : ∃ s1, execPairMapWrite x l data s = .next s1 ∧ s1.Inv pq := by
  unfold execPairMapWrite
  refine ⟨_, rfl, ?_⟩
  repeat' first
    | with_reducible assumption
    | intro x hx
    | with_reducible apply State.access_inv
    | with_reducible apply State.pairWrite_inv

theorem execPreampFaultLine_inv {l : Side} (hI : s.Inv pq) : ∃ s1, execPreampFaultLine l s = .next s1 ∧ s1.Inv pq := by
  unfold execPreampFaultLine
  refine ⟨_, rfl, ?_⟩
  repeat' first
    | with_reducible assumption
    | with_reducible apply State.forceSlots_inv
    | with_reducible apply State.modLink_inv
    | with_reducible apply State.setStat_inv
    | with_reducible apply State.event_inv
    | split

theorem execPreampFaultRelease_inv {l : Side} (hI : s.Inv pq) : ∃ s1, execPreampFaultRelease l s = .next s1 ∧ s1.Inv pq := by
  unfold execPreampFaultRelease
  refine ⟨_, rfl, ?_⟩
  repeat' first
    | with_reducible assumption
    | with_reducible apply State.modLink_inv

theorem execUpstreamFrameFailure_inv {l : Side} {w : BitVec 40} (hI : s.Inv pq) : ∃ s1, execUpstreamFrameFailure l w s = .next s1 ∧ s1.Inv pq := by
  unfold execUpstreamFrameFailure
  refine ⟨_, rfl, ?_⟩
  repeat' first
    | with_reducible assumption
    | with_reducible apply State.upSlot_inv
    | with_reducible apply State.modLink_inv
    | with_reducible apply State.bump_inv
    | split

theorem State.reach_inv {t : Quad} {now : DWord} (hI : s.Inv pq) : (State.reach s t now).Inv pq := by
  unfold State.reach
  repeat' first
    | with_reducible assumption
    | with_reducible apply State.modAng_inv

theorem execAssistLeadLimit_inv {t : Quad} {now : DWord} (hI : s.Inv pq) : ∃ s1, execAssistLeadLimit t now s = .next s1 ∧ s1.Inv pq := by
  unfold execAssistLeadLimit
  refine ⟨_, rfl, ?_⟩
  repeat' first
    | with_reducible assumption
    | (extract_lets +onlyGivenNames x1; clear_value x1)
    | intro x hx
    | with_reducible apply State.reach_inv
    | with_reducible apply State.modTile_inv
    | with_reducible apply State.setStat_inv
    | split

theorem execAssistTailLimit_inv {t : Quad} {now : DWord} (hI : s.Inv pq) : ∃ s1, execAssistTailLimit t now s = .next s1 ∧ s1.Inv pq := by
  unfold execAssistTailLimit
  refine ⟨_, rfl, ?_⟩
  repeat' first
    | with_reducible assumption
    | (extract_lets +onlyGivenNames x1; clear_value x1)
    | intro x hx
    | with_reducible apply State.reach_inv
    | with_reducible apply State.modTile_inv
    | with_reducible apply State.setStat_inv
    | split

end Sys2Proof.Machine
end

