-- ==== Sys2Proof/Laws/InvAngle.lean ====
section
/-!
SUPPORT. The operations of Machine/Angle.lean keep the invariant.
-/
set_option Elab.async false
set_option linter.unusedTactic false
set_option linter.unreachableTactic false
namespace Sys2Proof.Machine

variable {pq : List Instr} {s : State}

theorem State.setSrc_inv {r : Side} {x : AngSrc} (hI : s.Inv pq) : (State.setSrc s r x).Inv pq := by
  unfold State.setSrc
  repeat' first
    | with_reducible assumption
    | with_reducible apply State.modAng_inv
    | with_reducible apply State.setStat_inv
    | split

theorem State.cmpHit_inv {r : Side} {n : Nat} (hI : s.Inv pq) : (State.cmpHit s r n).Inv pq := by
  unfold State.cmpHit
  repeat' first
    | with_reducible assumption
    | (extract_lets +onlyGivenNames s1; refine State.Inv.cut (s := s1) (q := pq) ?_ (fun _ => ?_); rotate_left; clear_value s1; rotate_left; dsimp -zeta only [s1]; clear s1)
    | (extract_lets +onlyGivenNames x1; clear_value x1)
    | with_reducible apply State.modAng_inv
    | with_reducible apply State.raiseRoute_inv
    | split

theorem State.stepAc_inv {r : Side} {d : Nat} (hI : s.Inv pq) : (State.stepAc s r d).Inv pq := by
  unfold State.stepAc
  repeat' first
    | with_reducible assumption
    | intro x y hx
    | with_reducible apply State.modAng_inv
    | with_reducible apply State.cmpHit_inv
    | with_reducible apply State.Inv.foldl
    | split

theorem State.toTrack_inv {r : Side} (hI : s.Inv pq) : (State.toTrack s r).Inv pq := by
  unfold State.toTrack
  repeat' first
    | with_reducible assumption
    | (extract_lets +onlyGivenNames s1; refine State.Inv.cut (s := s1) (q := pq) ?_ (fun _ => ?_); rotate_left; clear_value s1; rotate_left; dsimp -zeta only [s1]; clear s1)
    | (extract_lets +onlyGivenNames x1; clear_value x1)
    | with_reducible apply State.setSrc_inv
    | with_reducible apply State.stepAc_inv
    | split

theorem State.handover_inv {r : Side} {e : Int} (hI : s.Inv pq) : (State.handover s r e).Inv pq := by
  unfold State.handover
  repeat' first
    | with_reducible assumption
    | (extract_lets +onlyGivenNames s1; refine State.Inv.cut (s := s1) (q := pq) ?_ (fun _ => ?_); rotate_left; clear_value s1; rotate_left; dsimp -zeta only [s1]; clear s1)
    | with_reducible apply State.setReg_inv
    | with_reducible apply State.modAng_inv
    | with_reducible apply State.toTrack_inv
    | with_reducible apply State.setSrc_inv
    | with_reducible apply State.stepAc_inv
    | split

theorem State.advance_inv {r : Side} {k : Nat} {phase : Int} (hI : s.Inv pq) : (State.advance s r k phase).Inv pq := by
  unfold State.advance
  repeat' first
    | with_reducible assumption
    | (extract_lets +onlyGivenNames s1; refine State.Inv.cut (s := s1) (q := pq) ?_ (fun _ => ?_); rotate_left; clear_value s1; rotate_left; dsimp -zeta only [s1]; clear s1)
    | (extract_lets +onlyGivenNames x1; clear_value x1)
    | with_reducible apply State.modAng_inv
    | with_reducible apply State.toTrack_inv
    | split

theorem State.flyEntry_inv {r : Side} (hI : s.Inv pq) : (State.flyEntry s r).Inv pq := by
  unfold State.flyEntry
  repeat' first
    | with_reducible assumption
    | with_reducible apply State.setSrc_inv
    | split

theorem State.flyAmbiguous_inv {r : Side} (hI : s.Inv pq) : (State.flyAmbiguous s r).Inv pq := by
  unfold State.flyAmbiguous
  repeat' first
    | with_reducible assumption
    | with_reducible apply State.modAng_inv

theorem State.flyFallback_inv {r : Side} (hI : s.Inv pq) : (State.flyFallback s r).Inv pq := by
  unfold State.flyFallback
  repeat' first
    | with_reducible assumption
    | with_reducible apply State.setStat_inv
    | with_reducible apply State.setSrc_inv
    | with_reducible apply State.applyInhibit_inv

theorem State.flyLasts_inv {r : Side} {n : Nat} (hI : s.Inv pq) : (State.flyLasts s r n).Inv pq := by
  unfold State.flyLasts
  repeat' first
    | with_reducible assumption
    | (extract_lets +onlyGivenNames s1; refine State.Inv.cut (s := s1) (q := pq) ?_ (fun _ => ?_); rotate_left; clear_value s1; rotate_left; dsimp -zeta only [s1]; clear s1)
    | with_reducible apply State.modAng_inv
    | with_reducible apply State.applyInhibit_inv
    | split

theorem State.flyRun_inv {r : Side} {absent : Nat} {n : Nat} (hI : s.Inv pq) : (State.flyRun s r absent n).Inv pq := by
  unfold State.flyRun
  repeat' first
    | with_reducible assumption
    | (extract_lets +onlyGivenNames s1; refine State.Inv.cut (s := s1) (q := pq) ?_ (fun _ => ?_); rotate_left; clear_value s1; rotate_left; dsimp -zeta only [s1]; clear s1)
    | (extract_lets +onlyGivenNames x1; clear_value x1)
    | with_reducible apply State.flyLasts_inv
    | with_reducible apply State.modAng_inv
    | with_reducible apply State.flyFallback_inv
    | split

theorem State.markLoss_inv {r : Side} {absent : Nat} {gap : Bool} {far : Bool} (hI : s.Inv pq) : (State.markLoss s r absent gap far).Inv pq := by
  unfold State.markLoss
  repeat' first
    | with_reducible assumption
    | (extract_lets +onlyGivenNames s1; refine State.Inv.cut (s := s1) (q := pq) ?_ (fun _ => ?_); rotate_left; clear_value s1; rotate_left; dsimp -zeta only [s1]; clear s1)
    | (extract_lets +onlyGivenNames x1; clear_value x1)
    | with_reducible apply State.flyRun_inv
    | with_reducible apply State.flyEntry_inv
    | with_reducible apply State.bump_inv
    | split

theorem State.markReturn_inv {r : Side} {k : Nat} {phase : Int} {far : Bool} {sig : Bool} (hI : s.Inv pq) : (State.markReturn s r k phase far sig).Inv pq := by
  unfold State.markReturn
  repeat' first
    | with_reducible assumption
    | (extract_lets +onlyGivenNames s1; refine State.Inv.cut (s := s1) (q := pq) ?_ (fun _ => ?_); rotate_left; clear_value s1; rotate_left; dsimp -zeta only [s1]; clear s1)
    | with_reducible apply State.modAng_inv
    | with_reducible apply State.flyAmbiguous_inv
    | with_reducible apply State.handover_inv
    | with_reducible apply State.flyFallback_inv
    | split

theorem State.markIndex_inv {r : Side} {what : Sighting} (hI : s.Inv pq) : (State.markIndex s r what).Inv pq := by
  unfold State.markIndex
  repeat' first
    | with_reducible assumption
    | with_reducible apply State.modAng_inv
    | with_reducible apply State.setStat_inv
    | with_reducible apply State.bump_inv
    | with_reducible apply State.handover_inv
    | split

theorem State.newFrame_inv {r : Side} (hI : s.Inv pq) : (State.newFrame s r).Inv pq := by
  unfold State.newFrame
  repeat' first
    | with_reducible assumption
    | (extract_lets +onlyGivenNames x1; clear_value x1)
    | with_reducible apply State.modAng_inv

theorem State.clockMark_inv {r : Side} {absent : Nat} {phase : Int} {rate : Word} {idx : Bool} (hI : s.Inv pq) : (State.clockMark s r absent phase rate idx).Inv pq := by
  unfold State.clockMark
  repeat' first
    | with_reducible assumption
    | (extract_lets +onlyGivenNames s1; refine State.Inv.cut (s := s1) (q := pq) ?_ (fun _ => ?_); rotate_left; clear_value s1; rotate_left; dsimp -zeta only [s1]; clear s1)
    | (extract_lets +onlyGivenNames x1; clear_value x1)
    | with_reducible apply State.setReg_inv
    | with_reducible apply State.newFrame_inv
    | with_reducible apply State.markLoss_inv
    | with_reducible apply State.advance_inv
    | with_reducible apply State.modAng_inv
    | with_reducible apply State.markReturn_inv
    | with_reducible apply State.handover_inv
    | with_reducible apply State.markIndex_inv
    | with_reducible apply State.applyInhibit_inv
    | split

theorem execClockMark_inv {r : Side} {absent : Nat} {phase : Int} {rate : Word} {idx : Bool} (hI : s.Inv pq) : ∃ s1, execClockMark r absent phase rate idx s = .next s1 ∧ s1.Inv pq := by
  unfold execClockMark
  refine ⟨_, rfl, ?_⟩
  repeat' first
    | with_reducible assumption
    | with_reducible apply State.clockMark_inv
    | with_reducible apply State.flyEntry_inv
    | with_reducible apply State.applyInhibit_inv
    | split

theorem execFlywheelEntry_inv {r : Side} (hI : s.Inv pq) : ∃ s1, execFlywheelEntry r s = .next s1 ∧ s1.Inv pq := by
  unfold execFlywheelEntry
  refine ⟨_, rfl, ?_⟩
  repeat' first
    | with_reducible assumption
    | with_reducible apply State.flyEntry_inv
    | with_reducible apply State.applyInhibit_inv
    | split

theorem execFlywrExpiry_inv {r : Side} {periods : Nat} (hI : s.Inv pq) : ∃ s1, execFlywrExpiry r periods s = .next s1 ∧ s1.Inv pq := by
  unfold execFlywrExpiry
  refine ⟨_, rfl, ?_⟩
  repeat' first
    | with_reducible assumption
    | (extract_lets +onlyGivenNames x1; clear_value x1)
    | with_reducible apply State.modAng_inv
    | with_reducible apply State.applyInhibit_inv
    | split

theorem execFlywheelFallback_inv {r : Side} {periods : Nat} (hI : s.Inv pq) : ∃ s1, execFlywheelFallback r periods s = .next s1 ∧ s1.Inv pq := by
  unfold execFlywheelFallback
  refine ⟨_, rfl, ?_⟩
  repeat' first
    | with_reducible assumption
    | (extract_lets +onlyGivenNames x1; clear_value x1)
    | with_reducible apply State.flyFallback_inv
    | split

theorem execReferenceStreamChange_inv {r : Side} (hI : s.Inv pq) : ∃ s1, execReferenceStreamChange r s = .next s1 ∧ s1.Inv pq := by
  unfold execReferenceStreamChange
  refine ⟨_, rfl, ?_⟩
  repeat' first
    | with_reducible assumption
    | with_reducible apply State.newFrame_inv
    | split

theorem State.settleIdle_inv {r : Side} (hI : s.Inv pq) : (State.settleIdle s r).Inv pq := by
  unfold State.settleIdle
  repeat' first
    | with_reducible assumption
    | with_reducible apply State.setSrc_inv
    | split

theorem State.setObserver_inv {valid : Bool} (hI : s.Inv pq) : (State.setObserver s valid).Inv pq := by
  unfold State.setObserver
  repeat' first
    | with_reducible assumption
    | with_reducible apply State.modMtr_inv
    | with_reducible apply State.settleIdle_inv

theorem State.observe_inv {rpm : Nat} (hI : s.Inv pq) : (State.observe s rpm).Inv pq := by
  unfold State.observe
  repeat' first
    | with_reducible assumption
    | (extract_lets +onlyGivenNames x1; clear_value x1)
    | with_reducible apply State.setReg_inv
    | with_reducible apply State.setObserver_inv
    | split

theorem execObserverValidChange_inv {rpm : BitVec 16} (hI : s.Inv pq) : ∃ s1, execObserverValidChange rpm s = .next s1 ∧ s1.Inv pq := by
  unfold execObserverValidChange
  refine ⟨_, rfl, ?_⟩
  repeat' first
    | with_reducible assumption
    | with_reducible apply State.observe_inv

theorem State.angCtl_inv {r : Side} {data : Word} (hI : s.Inv pq) : (State.angCtl s r data).Inv pq := by
  unfold State.angCtl
  repeat' first
    | with_reducible assumption
    | (extract_lets +onlyGivenNames s1; refine State.Inv.cut (s := s1) (q := pq) ?_ (fun _ => ?_); rotate_left; clear_value s1; rotate_left; dsimp -zeta only [s1]; clear s1)
    | with_reducible apply State.setReg_inv
    | with_reducible apply State.settleIdle_inv
    | with_reducible apply State.setSrc_inv
    | with_reducible apply State.modAng_inv
    | with_reducible apply State.applyInhibit_inv
    | split

theorem execAngleCrosscheckFault_inv {r : Side} (hI : s.Inv pq) : ∃ s1, execAngleCrosscheckFault r s = .next s1 ∧ s1.Inv pq := by
  unfold execAngleCrosscheckFault
  refine ⟨_, rfl, ?_⟩
  repeat' first
    | with_reducible assumption
    | with_reducible apply State.modAng_inv
    | with_reducible apply State.setStat_inv
    | with_reducible apply State.event_inv
    | split

theorem execComparatorHit_inv {r : Side} {n : BitVec 5} {now : DWord} (hI : s.Inv pq) : ∃ s1, execComparatorHit r n now s = .next s1 ∧ s1.Inv pq := by
  unfold execComparatorHit
  refine ⟨_, rfl, ?_⟩
  repeat' first
    | with_reducible assumption
    | (extract_lets +onlyGivenNames x1; clear_value x1)
    | with_reducible apply State.modAng_inv
    | with_reducible apply State.cmpHit_inv
    | split

theorem State.skewWrite_inv {r : Side} {data : Word} (hI : s.Inv pq) : (State.skewWrite s r data).Inv pq := by
  unfold State.skewWrite
  repeat' first
    | with_reducible assumption
    | with_reducible apply State.modAng_inv

theorem execSkewWrite_inv {r : Side} {data : Word} (hI : s.Inv pq) : ∃ s1, execSkewWrite r data s = .next s1 ∧ s1.Inv pq := by
  unfold execSkewWrite
  refine ⟨_, rfl, ?_⟩
  repeat' first
    | with_reducible assumption
    | with_reducible apply State.skewWrite_inv
    | split

end Sys2Proof.Machine
end

