-- ==== Sys2Proof/Laws/InvDram.lean ====
section
/-!
SUPPORT. The operations of Machine/Dram.lean keep the invariant.
-/
set_option Elab.async false
set_option linter.unusedTactic false
set_option linter.unreachableTactic false
namespace Sys2Proof.Machine

variable {pq : List Instr} {s : State}

theorem State.dramWrite_inv {x : Side} {a : Nat} {bs : List Byte} (hI : s.Inv pq) : (State.dramWrite s x a bs).Inv pq := by
  unfold State.dramWrite
  repeat' first
    | with_reducible assumption
    | (extract_lets +onlyGivenNames s1; refine State.Inv.cut (s := s1) (q := pq) ?_ (fun _ => ?_); rotate_left; clear_value s1; rotate_left; dsimp -zeta only [s1]; clear s1)
    | intro x hx
    | with_reducible apply State.modDram_inv
    | exact DramCh.write_wf hx
    | split

theorem State.dramRead_inv {x : Side} {a : Nat} {n : Nat} (hI : s.Inv pq) : (State.dramRead s x a n).1.Inv pq := by
  unfold State.dramRead
  repeat' first
    | with_reducible assumption
    | (extract_lets +onlyGivenNames x1; clear_value x1)
    | intro x hx
    | with_reducible apply State.modDram_inv
    | with_reducible apply State.setStat_inv
    | exact DramCh.write_wf hx
    | split

end Sys2Proof.Machine
end

