-- ==== Sys2Proof/Laws/InvAeq.lean ====
section
/-!
SUPPORT. The operations of Machine/Aeq.lean keep the invariant.
-/
set_option Elab.async false
set_option linter.unusedTactic false
set_option linter.unreachableTactic false
namespace Sys2Proof.Machine

variable {pq : List Instr} {s : State}

theorem State.aeqInt_inv {t : Quad} {i : Nat} (hI : s.Inv pq) : (State.aeqInt s t i).Inv pq := by
  unfold State.aeqInt
  repeat' first
    | with_reducible assumption
    | with_reducible apply State.setStat_inv

theorem State.withHead_inv {t : Quad} {now : DWord} {code : Nat → Bool} {f : State → BitVec 24 → Int → State}
    (hf : ∀ s a0 a1, State.Inv pq s → (f s a0 a1).Inv pq) (hI : s.Inv pq) : (s.withHead t now code f).Inv pq := by
  unfold State.withHead
  split
  · exact hI
  · rename_i e rest heq
    split
    · apply hf
      apply State.lowMark_inv
      refine State.modTile_inv (fun x _ => ?_) (State.reach_inv hI)
      have := hI.aeq t
      rw [show s.tile.get t = s.tl t from rfl, heq] at this
      exact Nat.le_of_succ_le this
    · exact hI

theorem State.countLate_inv {t : Quad} {late : Int} (hI : s.Inv pq) : (State.countLate s t late).Inv pq := by
  unfold State.countLate
  repeat' first
    | with_reducible assumption
    | with_reducible apply State.bump_inv
    | split

theorem State.dropOpen_inv {t : Quad} {late : Bool} {conflict : Bool} {clock : Bool} (hI : s.Inv pq) : (State.dropOpen s t late conflict clock).Inv pq := by
  unfold State.dropOpen
  repeat' first
    | with_reducible assumption
    | (extract_lets +onlyGivenNames s1; refine State.Inv.cut (s := s1) (q := pq) ?_ (fun _ => ?_); rotate_left; clear_value s1; rotate_left; dsimp -zeta only [s1]; clear s1)
    | (intro x hx; beta_reduce)
    | with_reducible apply State.modTile_inv
    | with_reducible apply State.bump_inv
    | with_reducible apply State.aeqInt_inv
    | with_reducible apply State.setStat_inv
    | split

theorem State.takeSwap_inv {t : Quad} (hI : s.Inv pq) : (State.takeSwap s t).Inv pq := by
  unfold State.takeSwap
  repeat' first
    | with_reducible assumption
    | intro x hx
    | with_reducible apply State.modTile_inv
    | split

theorem State.arrive_inv {t : Quad} {isWrite : Bool} {tag : BitVec 16} (hI : s.Inv pq) : (State.arrive s t isWrite tag).Inv pq := by
  unfold State.arrive
  repeat' first
    | with_reducible assumption
    | with_reducible apply State.cutSector_inv
    | split

theorem State.dropMedia_inv {t : Quad} {isWrite : Bool} {tag : BitVec 16} {cont : Bool} (hI : s.Inv pq) : (State.dropMedia s t isWrite tag cont).Inv pq := by
  unfold State.dropMedia
  repeat' first
    | with_reducible assumption
    | intro x hx
    | with_reducible apply State.modTile_inv
    | with_reducible apply State.postStatus_inv
    | split

theorem State.descErr_inv {t : Quad} {isWrite : Bool} {tag : BitVec 16} (hI : s.Inv pq) : (State.descErr s t isWrite tag).Inv pq := by
  unfold State.descErr
  repeat' first
    | with_reducible assumption
    | with_reducible apply State.setStat_inv
    | with_reducible apply State.setReg_inv
    | with_reducible apply State.postStatus_inv

theorem State.nextFrag_inv {t : Quad} (hI : s.Inv pq) : (State.nextFrag s t).Inv pq := by
  unfold State.nextFrag
  repeat' first
    | with_reducible assumption
    | intro x hx
    | with_reducible apply State.modTile_inv

theorem State.startRun_inv {t : Quad} (hI : s.Inv pq) : (State.startRun s t).Inv pq := by
  unfold State.startRun
  repeat' first
    | with_reducible assumption
    | (extract_lets +onlyGivenNames x1; clear_value x1)
    | (intro x hx; beta_reduce)
    | with_reducible apply State.modTile_inv

theorem State.raiseWg_inv {t : Quad} (hI : s.Inv pq) : (State.raiseWg s t).Inv pq := by
  unfold State.raiseWg
  repeat' first
    | with_reducible assumption
    | (extract_lets +onlyGivenNames s1; refine State.Inv.cut (s := s1) (q := pq) ?_ (fun _ => ?_); rotate_left; clear_value s1; rotate_left; dsimp -zeta only [s1]; clear s1)
    | (extract_lets +onlyGivenNames x1; clear_value x1)
    | (intro x hx; beta_reduce)
    | with_reducible apply State.startRun_inv
    | with_reducible apply State.modTile_inv
    | with_reducible apply State.forceLow_inv
    | with_reducible apply State.setStat_inv
    | split

theorem State.raiseRg_inv {t : Quad} (hI : s.Inv pq) : (State.raiseRg s t).Inv pq := by
  unfold State.raiseRg
  repeat' first
    | with_reducible assumption
    | (extract_lets +onlyGivenNames x1; clear_value x1)
    | (intro x hx; beta_reduce)
    | with_reducible apply State.startRun_inv
    | with_reducible apply State.modTile_inv

theorem State.takeRec_inv {t : Quad} {r : Option Nat} (hI : s.Inv pq) : (State.takeRec s t r).Inv pq := by
  unfold State.takeRec
  repeat' first
    | with_reducible assumption
    | (intro x hx; beta_reduce)
    | with_reducible apply State.modTile_inv
    | split

theorem State.openAction_inv {t : Quad} {isWrite : Bool} {tag : BitVec 16} {late : Int} (hI : s.Inv pq) : (State.openAction s t isWrite tag late).Inv pq := by
  unfold State.openAction
  repeat' first
    | with_reducible assumption
    | (extract_lets +onlyGivenNames s1; refine State.Inv.cut (s := s1) (q := pq) ?_ (fun _ => ?_); rotate_left; clear_value s1; rotate_left; dsimp -zeta only [s1]; clear s1)
    | (extract_lets +onlyGivenNames x1; clear_value x1)
    | (intro x hx; beta_reduce)
    | with_reducible apply State.takeSwap_inv
    | with_reducible apply State.arrive_inv
    | with_reducible apply State.dropOpen_inv
    | with_reducible apply State.setStat_inv
    | with_reducible apply State.modTile_inv
    | with_reducible apply State.dropMedia_inv
    | with_reducible apply State.countLate_inv
    | with_reducible apply State.nextFrag_inv
    | with_reducible apply State.raiseWg_inv
    | with_reducible apply State.raiseRg_inv
    | with_reducible apply State.descErr_inv
    | with_reducible apply State.takeRec_inv
    | split

theorem State.addFrozen_inv {t : Quad} {p : BitSpan} (hI : s.Inv pq) : (State.addFrozen s t p).Inv pq := by
  unfold State.addFrozen
  split
  · dsimp only
    split
    · exact State.setStat_inv (State.putSector_inv hI)
    · exact State.putSector_inv hI
  · exact hI

theorem State.loopSample_inv {t : Quad} {f : FragRun} {p : Smp × Nat} (hI : s.Inv pq) : (State.loopSample s t f p).Inv pq := by
  unfold State.loopSample
  repeat' first
    | with_reducible assumption
    | (extract_lets +onlyGivenNames s1; refine State.Inv.cut (s := s1) (q := pq) ?_ (fun _ => ?_); rotate_left; clear_value s1; rotate_left; dsimp -zeta only [s1]; clear s1)
    | (extract_lets +onlyGivenNames x1; clear_value x1)
    | (intro x hx; beta_reduce)
    | with_reducible apply State.modTile_inv
    | with_reducible apply State.bump_inv
    | split

theorem State.takeSmps_inv {t : Quad} {smps : List Smp} (hI : s.Inv pq) : (State.takeSmps s t smps).Inv pq := by
  unfold State.takeSmps
  repeat' first
    | with_reducible assumption
    | (extract_lets +onlyGivenNames x1; clear_value x1)
    | (intro x y hx; beta_reduce)
    | with_reducible apply State.loopSample_inv
    | with_reducible apply State.putSector_inv
    | with_reducible apply State.Inv.foldl
    | split

theorem State.applySkip_inv {t : Quad} {k : Nat} {d : Nat} {e : DWord} (hI : s.Inv pq) : (State.applySkip s t k d e).Inv pq := by
  unfold State.applySkip
  repeat' first
    | with_reducible assumption
    | (extract_lets +onlyGivenNames s1; refine State.Inv.cut (s := s1) (q := pq) ?_ (fun _ => ?_); rotate_left; clear_value s1; rotate_left; dsimp -zeta only [s1]; clear s1)
    | (extract_lets +onlyGivenNames x1; clear_value x1)
    | with_reducible apply State.putSector_inv
    | with_reducible apply State.setStat_inv
    | with_reducible apply State.addFrozen_inv
    | split

theorem State.skipsDue_inv {t : Quad} {a : Int} (hI : s.Inv pq) : (State.skipsDue s t a).Inv pq := by
  unfold State.skipsDue
  repeat' first
    | with_reducible assumption
    | (intro x y hx; beta_reduce)
    | with_reducible apply State.applySkip_inv
    | with_reducible apply State.Inv.foldl

theorem State.wgOff_inv {t : Quad} (hI : s.Inv pq) : (State.wgOff s t).Inv pq := by
  unfold State.wgOff
  repeat' first
    | with_reducible assumption
    | (extract_lets +onlyGivenNames s1; refine State.Inv.cut (s := s1) (q := pq) ?_ (fun _ => ?_); rotate_left; clear_value s1; rotate_left; dsimp -zeta only [s1]; clear s1)
    | (extract_lets +onlyGivenNames x1; clear_value x1)
    | with_reducible apply State.skipsDue_inv
    | with_reducible apply State.sendData_inv
    | with_reducible apply State.dropWg_inv
    | with_reducible apply State.endWrite_inv
    | with_reducible apply State.putSector_inv
    | split

theorem State.rdOff_inv {t : Quad} {smps : List Smp} (hI : s.Inv pq) : (State.rdOff s t smps).Inv pq := by
  unfold State.rdOff
  repeat' first
    | with_reducible assumption
    | (extract_lets +onlyGivenNames s1; refine State.Inv.cut (s := s1) (q := pq) ?_ (fun _ => ?_); rotate_left; clear_value s1; rotate_left; dsimp -zeta only [s1]; clear s1)
    | (extract_lets +onlyGivenNames x1; clear_value x1)
    | with_reducible apply State.takeSmps_inv
    | with_reducible apply State.skipsDue_inv
    | with_reducible apply State.closeWin_inv
    | with_reducible apply State.dropRg_inv
    | with_reducible apply State.takeFrag_inv
    | with_reducible apply State.endRead_inv
    | with_reducible apply State.putSector_inv
    | with_reducible refine State.Inv.fst (by assumption) ?_
    | split

theorem State.assistOn_inv {t : Quad} {late : Int} (hI : s.Inv pq) : (State.assistOn s t late).Inv pq := by
  unfold State.assistOn
  repeat' first
    | with_reducible assumption
    | (extract_lets +onlyGivenNames s1; refine State.Inv.cut (s := s1) (q := pq) ?_ (fun _ => ?_); rotate_left; clear_value s1; rotate_left; dsimp -zeta only [s1]; clear s1)
    | (extract_lets +onlyGivenNames x1; clear_value x1)
    | (intro x hx; beta_reduce)
    | with_reducible apply State.dropOpen_inv
    | with_reducible apply State.countLate_inv
    | with_reducible apply State.modTile_inv
    | split

theorem State.assistLevel_inv {t : Quad} {i : Nat} (hI : s.Inv pq) : (State.assistLevel s t i).Inv pq := by
  unfold State.assistLevel
  repeat' first
    | with_reducible assumption
    | (extract_lets +onlyGivenNames s1; refine State.Inv.cut (s := s1) (q := pq) ?_ (fun _ => ?_); rotate_left; clear_value s1; rotate_left; dsimp -zeta only [s1]; clear s1)
    | (extract_lets +onlyGivenNames x1; clear_value x1)
    | with_reducible apply State.modLink_inv
    | with_reducible apply State.sendRun_inv
    | split

theorem State.headSwitch_inv {t : Quad} {head : Nat} {late : Int} (hI : s.Inv pq) : (State.headSwitch s t head late).Inv pq := by
  unfold State.headSwitch
  repeat' first
    | with_reducible assumption
    | (extract_lets +onlyGivenNames s1; refine State.Inv.cut (s := s1) (q := pq) ?_ (fun _ => ?_); rotate_left; clear_value s1; rotate_left; dsimp -zeta only [s1]; clear s1)
    | (extract_lets +onlyGivenNames x1; clear_value x1)
    | intro x hx
    | with_reducible apply State.modTile_inv
    | with_reducible apply State.aeqInt_inv
    | with_reducible apply State.countLate_inv
    | with_reducible apply State.sendHsel_inv
    | with_reducible apply State.modAng_inv
    | split

theorem State.guideSample_inv {t : Quad} {ac : DWord} {tag : Option (BitVec 16)} {g : GuideIn} (hI : s.Inv pq) : (State.guideSample s t ac tag g).Inv pq := by
  unfold State.guideSample
  repeat' first
    | with_reducible assumption
    | (extract_lets +onlyGivenNames s1; refine State.Inv.cut (s := s1) (q := pq) ?_ (fun _ => ?_); rotate_left; clear_value s1; rotate_left; dsimp -zeta only [s1]; clear s1)
    | (extract_lets +onlyGivenNames x1; clear_value x1)
    | (intro x hx; beta_reduce)
    | with_reducible apply State.modTile_inv
    | with_reducible apply State.freeNext_inv
    | with_reducible apply State.setReg_inv
    | split

theorem execAeqNop_inv {t : Quad} {now : DWord} (hI : s.Inv pq) : ∃ s1, execAeqNop t now s = .next s1 ∧ s1.Inv pq := by
  unfold execAeqNop
  refine ⟨_, rfl, ?_⟩
  repeat' first
    | with_reducible assumption
    | intro x y z hx
    | with_reducible apply State.withHead_inv
    | with_reducible apply State.countLate_inv

theorem execAeqWgOn_inv {t : Quad} {now : DWord} (hI : s.Inv pq) : ∃ s1, execAeqWgOn t now s = .next s1 ∧ s1.Inv pq := by
  unfold execAeqWgOn
  refine ⟨_, rfl, ?_⟩
  repeat' first
    | with_reducible assumption
    | intro x y z hx
    | with_reducible apply State.withHead_inv
    | with_reducible apply State.openAction_inv

theorem execAeqWgOff_inv {t : Quad} {now : DWord} (hI : s.Inv pq) : ∃ s1, execAeqWgOff t now s = .next s1 ∧ s1.Inv pq := by
  unfold execAeqWgOff
  refine ⟨_, rfl, ?_⟩
  repeat' first
    | with_reducible assumption
    | (intro x y z hx; beta_reduce)
    | with_reducible apply State.withHead_inv
    | with_reducible apply State.countLate_inv
    | with_reducible apply State.wgOff_inv

theorem execAeqRdOn_inv {t : Quad} {now : DWord} (hI : s.Inv pq) : ∃ s1, execAeqRdOn t now s = .next s1 ∧ s1.Inv pq := by
  unfold execAeqRdOn
  refine ⟨_, rfl, ?_⟩
  repeat' first
    | with_reducible assumption
    | intro x y z hx
    | with_reducible apply State.withHead_inv
    | with_reducible apply State.openAction_inv

theorem execAeqRdOff_inv {t : Quad} {now : DWord} {smps : List Smp} (hI : s.Inv pq) : ∃ s1, execAeqRdOff t now smps s = .next s1 ∧ s1.Inv pq := by
  unfold execAeqRdOff
  refine ⟨_, rfl, ?_⟩
  repeat' first
    | with_reducible assumption
    | (intro x y z hx; beta_reduce)
    | with_reducible apply State.withHead_inv
    | with_reducible apply State.countLate_inv
    | with_reducible apply State.rdOff_inv

theorem execAeqAsPre_inv {t : Quad} {now : DWord} (hI : s.Inv pq) : ∃ s1, execAeqAsPre t now s = .next s1 ∧ s1.Inv pq := by
  unfold execAeqAsPre
  refine ⟨_, rfl, ?_⟩
  repeat' first
    | with_reducible assumption
    | intro x y z hx
    | with_reducible apply State.withHead_inv
    | with_reducible apply State.assistOn_inv

theorem execAeqAsOn_inv {t : Quad} {now : DWord} (hI : s.Inv pq) : ∃ s1, execAeqAsOn t now s = .next s1 ∧ s1.Inv pq := by
  unfold execAeqAsOn
  refine ⟨_, rfl, ?_⟩
  repeat' first
    | with_reducible assumption
    | intro x y z hx
    | with_reducible apply State.withHead_inv
    | with_reducible apply State.assistOn_inv

theorem execAeqAsOff_inv {t : Quad} {now : DWord} (hI : s.Inv pq) : ∃ s1, execAeqAsOff t now s = .next s1 ∧ s1.Inv pq := by
  unfold execAeqAsOff
  refine ⟨_, rfl, ?_⟩
  repeat' first
    | with_reducible assumption
    | intro x y z hx
    | intro x hx
    | with_reducible apply State.withHead_inv
    | with_reducible apply State.countLate_inv
    | with_reducible apply State.modTile_inv

theorem execAeqSyncOpen_inv {t : Quad} {now : DWord} {smps : List Smp} (hI : s.Inv pq) : ∃ s1, execAeqSyncOpen t now smps s = .next s1 ∧ s1.Inv pq := by
  unfold execAeqSyncOpen
  refine ⟨_, rfl, ?_⟩
  repeat' first
    | with_reducible assumption
    | (extract_lets +onlyGivenNames s1; refine State.Inv.cut (s := s1) (q := pq) ?_ (fun _ => ?_); rotate_left; clear_value s1; rotate_left; dsimp -zeta only [s1]; clear s1)
    | (extract_lets +onlyGivenNames x1; clear_value x1)
    | (intro x y z hx; beta_reduce)
    | (intro x hx; beta_reduce)
    | with_reducible apply State.withHead_inv
    | with_reducible apply State.dropOpen_inv
    | with_reducible apply State.countLate_inv
    | with_reducible apply State.takeSmps_inv
    | with_reducible apply State.closeWin_inv
    | with_reducible apply State.modTile_inv
    | split

theorem execAeqSyncClose_inv {t : Quad} {now : DWord} {smps : List Smp} {tail : List Smp} (hI : s.Inv pq) : ∃ s1, execAeqSyncClose t now smps tail s = .next s1 ∧ s1.Inv pq := by
  unfold execAeqSyncClose
  refine ⟨_, rfl, ?_⟩
  repeat' first
    | with_reducible assumption
    | (extract_lets +onlyGivenNames s1; refine State.Inv.cut (s := s1) (q := pq) ?_ (fun _ => ?_); rotate_left; clear_value s1; rotate_left; dsimp -zeta only [s1]; clear s1)
    | (extract_lets +onlyGivenNames x1; clear_value x1)
    | (intro x y z hx; beta_reduce)
    | with_reducible apply State.withHead_inv
    | with_reducible apply State.countLate_inv
    | with_reducible apply State.takeSmps_inv
    | with_reducible apply State.closeWin_inv

theorem execAeqHsw_inv {t : Quad} {now : DWord} (hI : s.Inv pq) : ∃ s1, execAeqHsw t now s = .next s1 ∧ s1.Inv pq := by
  unfold execAeqHsw
  refine ⟨_, rfl, ?_⟩
  repeat' first
    | with_reducible assumption
    | intro x y z hx
    | with_reducible apply State.withHead_inv
    | with_reducible apply State.headSwitch_inv

theorem execAeqGsamp_inv {t : Quad} {now : DWord} {g : GuideIn} (hI : s.Inv pq) : ∃ s1, execAeqGsamp t now g s = .next s1 ∧ s1.Inv pq := by
  unfold execAeqGsamp
  refine ⟨_, rfl, ?_⟩
  repeat' first
    | with_reducible assumption
    | intro x y z hx
    | with_reducible apply State.withHead_inv
    | with_reducible apply State.countLate_inv
    | with_reducible apply State.guideSample_inv

theorem execAeqAsLvl_inv {t : Quad} {now : DWord} (hI : s.Inv pq) : ∃ s1, execAeqAsLvl t now s = .next s1 ∧ s1.Inv pq := by
  unfold execAeqAsLvl
  refine ⟨_, rfl, ?_⟩
  repeat' first
    | with_reducible assumption
    | intro x y z hx
    | with_reducible apply State.withHead_inv
    | with_reducible apply State.countLate_inv
    | with_reducible apply State.assistLevel_inv

theorem execAeqIllegalAction_inv {t : Quad} {now : DWord} (hI : s.Inv pq) : ∃ s1, execAeqIllegalAction t now s = .next s1 ∧ s1.Inv pq := by
  unfold execAeqIllegalAction
  refine ⟨_, rfl, ?_⟩
  have hl := hI.aeq t
  split
  · exact hI
  · rename_i e rest heq
    split
    · refine State.aeqInt_inv (State.modTile_inv (fun x hx => hx) (State.lowMark_inv (State.modTile_inv (fun x hx => ?_) (State.reach_inv hI))))
      have : (s.tl t).aeq.length ≤ 256 := hl
      rw [heq] at this
      exact Nat.le_of_succ_le this
    · exact hI

end Sys2Proof.Machine
end

