-- ==== Sys2Proof/Laws/InvChannel.lean ====
section
/-!
SUPPORT. The operations of Machine/Channel.lean keep the invariant.
-/
set_option Elab.async false
set_option linter.unusedTactic false
set_option linter.unreachableTactic false
namespace Sys2Proof.Machine

variable {pq : List Instr} {s : State}

theorem State.decSubmit_inv {c : CtxId} (hI : s.Inv pq) : (State.decSubmit s c).Inv pq := by
  unfold State.decSubmit
  repeat' first
    | with_reducible assumption
    | (extract_lets +onlyGivenNames x1; clear_value x1)
    | with_reducible apply State.refuseCtx_inv
    | with_reducible apply State.modDec_inv
    | split

theorem State.decPop_inv {c : CtxId} (hI : s.Inv pq) : (State.decPop s c).1.Inv pq := by
  unfold State.decPop
  repeat' first
    | with_reducible assumption
    | with_reducible apply State.modDec_inv

theorem State.settleRec_inv {t : Quad} {n : Nat} (hI : s.Inv pq) : (State.settleRec s t n).Inv pq := by
  unfold State.settleRec
  repeat' first
    | with_reducible assumption
    | intro x hx
    | with_reducible apply State.modTile_inv
    | exact Tile.keep_len hx rfl
    | split

theorem State.setSbuf_inv {r : Side} {n : Nat} {b : StripeBuf} (hI : s.Inv pq) : (State.setSbuf s r n b).Inv pq := by
  unfold State.setSbuf
  repeat' first
    | with_reducible assumption
    | with_reducible apply State.modSte_inv

theorem State.putPayload_inv {r : Side} {place : BufAddr ⊕ Nat} {bs : List Byte} {poison : Bool} (hI : s.Inv pq) : (State.putPayload s r place bs poison).Inv pq := by
  unfold State.putPayload
  repeat' first
    | with_reducible assumption
    | (extract_lets +onlyGivenNames s1; refine State.Inv.cut (s := s1) (q := pq) ?_ (fun _ => ?_); rotate_left; clear_value s1; rotate_left; dsimp -zeta only [s1]; clear s1)
    | intro x hx
    | with_reducible apply State.setSbuf_inv
    | with_reducible apply State.dramWrite_inv
    | with_reducible apply State.modDram_inv
    | exact DramCh.mark_wf hx
    | split

theorem State.decCount_inv {r : Side} {n : Nat} {ok : Bool} {weight : Nat} (hI : s.Inv pq) : (State.decCount s r n ok weight).Inv pq := by
  unfold State.decCount
  repeat' first
    | with_reducible assumption
    | with_reducible apply State.bump_inv
    | with_reducible apply State.setReg_inv
    | split

theorem State.otfDone_inv {r : Side} {n : Nat} {t : Quad} {rec : Nat} {status : DWord} {place : BufAddr ⊕ Nat} {o : DecodeOut} (hI : s.Inv pq) : (State.otfDone s r n t rec status place o).Inv pq := by
  unfold State.otfDone
  repeat' first
    | with_reducible assumption
    | (extract_lets +onlyGivenNames s1; refine State.Inv.cut (s := s1) (q := pq) ?_ (fun _ => ?_); rotate_left; clear_value s1; rotate_left; dsimp -zeta only [s1]; clear s1)
    | (extract_lets +onlyGivenNames x1; clear_value x1)
    | (intro x hx; beta_reduce)
    | with_reducible apply State.decCount_inv
    | with_reducible apply State.putPayload_inv
    | with_reducible apply State.setStat_inv
    | with_reducible apply State.modTile_inv
    | with_reducible apply State.settleRec_inv
    | with_reducible apply State.bump_inv
    | with_reducible apply State.decidedStatus_inv
    | exact Tile.keep_len hx rfl
    | split

theorem State.recGone_inv {r : Side} {n : Nat} {c : CtxId} {w0 : DWord} (hI : s.Inv pq) : (State.recGone s r n c w0).Inv pq := by
  unfold State.recGone
  repeat' first
    | with_reducible assumption
    | (extract_lets +onlyGivenNames s1; refine State.Inv.cut (s := s1) (q := pq) ?_ (fun _ => ?_); rotate_left; clear_value s1; rotate_left; dsimp -zeta only [s1]; clear s1)
    | (extract_lets +onlyGivenNames x1; clear_value x1)
    | with_reducible apply State.setStat_inv
    | with_reducible apply State.modDec_inv
    | with_reducible apply State.freeNext_inv
    | with_reducible apply State.raiseLine_inv

theorem State.reqDone_inv {r : Side} {n : Nat} {c : CtxId} {w0 : DWord} {w1 : DWord} {w2 : DWord} {w3 : DWord} {o : DecodeOut} (hI : s.Inv pq) : (State.reqDone s r n c w0 w1 w2 w3 o).Inv pq := by
  unfold State.reqDone
  repeat' first
    | with_reducible assumption
    | (extract_lets +onlyGivenNames s1; refine State.Inv.cut (s := s1) (q := pq) ?_ (fun _ => ?_); rotate_left; clear_value s1; rotate_left; dsimp -zeta only [s1]; clear s1)
    | (extract_lets +onlyGivenNames x1; clear_value x1)
    | (intro x hx; beta_reduce)
    | with_reducible apply State.setStat_inv
    | with_reducible apply State.decCount_inv
    | with_reducible apply State.putPayload_inv
    | with_reducible apply State.raiseLine_inv
    | with_reducible apply State.modTile_inv
    | with_reducible apply State.settleRec_inv
    | with_reducible apply State.modDec_inv
    | exact Tile.keep_len hx rfl
    | split

theorem execClockRangeFault_inv {t : Quad} (hI : s.Inv pq) : ∃ s1, execClockRangeFault t s = .next s1 ∧ s1.Inv pq := by
  unfold execClockRangeFault
  refine ⟨_, rfl, ?_⟩
  repeat' first
    | with_reducible assumption
    | with_reducible apply State.forceLow_inv
    | with_reducible apply State.setStat_inv
    | split

theorem execBankSwapRequest_inv {x : Accessor} {t : Quad} (hI : s.Inv pq) : ∃ s1, execBankSwapRequest x t s = .next s1 ∧ s1.Inv pq := by
  unfold execBankSwapRequest
  refine ⟨_, rfl, ?_⟩
  repeat' first
    | with_reducible assumption
    | intro x hx
    | with_reducible apply State.tileAccess_inv
    | with_reducible apply State.modTile_inv

theorem State.bankWrite_inv {t : Quad} {sel : BitVec 9} {data : Word} (hI : s.Inv pq) : (State.bankWrite s t sel data).Inv pq := by
  unfold State.bankWrite
  repeat' first
    | with_reducible assumption
    | (extract_lets +onlyGivenNames x1; clear_value x1)
    | intro x hx
    | with_reducible apply State.setStat_inv
    | with_reducible apply State.modTile_inv
    | split

theorem execBankWordWrite_inv {x : Accessor} {t : Quad} {sel : BitVec 9} {data : Word} (hI : s.Inv pq) : ∃ s1, execBankWordWrite x t sel data s = .next s1 ∧ s1.Inv pq := by
  unfold execBankWordWrite
  refine ⟨_, rfl, ?_⟩
  repeat' first
    | with_reducible assumption
    | intro x hx
    | with_reducible apply State.tileAccess_inv
    | with_reducible apply State.bankWrite_inv

theorem State.spareTake_inv {t : Quad} {slice : Nat} {run : Bool} (hI : s.Inv pq) : (State.spareTake s t slice run).Inv pq := by
  unfold State.spareTake
  repeat' first
    | with_reducible assumption
    | (extract_lets +onlyGivenNames s1; refine State.Inv.cut (s := s1) (q := pq) ?_ (fun _ => ?_); rotate_left; clear_value s1; rotate_left; dsimp -zeta only [s1]; clear s1)
    | (intro x hx; beta_reduce)
    | with_reducible apply State.modTile_inv
    | with_reducible apply State.setStat_inv
    | split

theorem State.spareGo_inv {t : Quad} {slice : Nat} (hI : s.Inv pq) : (State.spareGo s t slice).Inv pq := by
  unfold State.spareGo
  repeat' first
    | with_reducible assumption
    | with_reducible apply State.modReg_inv
    | with_reducible apply State.spareTake_inv

theorem execSpareStepStart_inv {x : Accessor} {t : Quad} {slice : BitVec 3} (hI : s.Inv pq) : ∃ s1, execSpareStepStart x t slice s = .next s1 ∧ s1.Inv pq := by
  unfold execSpareStepStart
  refine ⟨_, rfl, ?_⟩
  repeat' first
    | with_reducible assumption
    | intro x hx
    | with_reducible apply State.tileAccess_inv
    | with_reducible apply State.spareGo_inv

theorem execSpareTakeover_inv {t : Quad} (hI : s.Inv pq) : ∃ s1, execSpareTakeover t s = .next s1 ∧ s1.Inv pq := by
  unfold execSpareTakeover
  refine ⟨_, rfl, ?_⟩
  repeat' first
    | with_reducible assumption
    | (intro x hx; beta_reduce)
    | with_reducible apply State.setStat_inv
    | with_reducible apply State.modTile_inv
    | split

theorem State.handBack_inv {p : CalRun → Bool} (hI : s.Inv pq) : (State.handBack s p).Inv pq := by
  unfold State.handBack
  repeat' first
    | with_reducible assumption
    | with_reducible apply State.modMon_inv

theorem State.spareBack_inv {t : Quad} {k : Nat} {run : Bool} (hI : s.Inv pq) : (State.spareBack s t k run).Inv pq := by
  unfold State.spareBack
  repeat' first
    | with_reducible assumption
    | (extract_lets +onlyGivenNames s1; refine State.Inv.cut (s := s1) (q := pq) ?_ (fun _ => ?_); rotate_left; clear_value s1; rotate_left; dsimp -zeta only [s1]; clear s1)
    | (intro x hx; beta_reduce)
    | with_reducible apply State.modTile_inv
    | with_reducible apply State.modReg_inv
    | with_reducible apply State.handBack_inv
    | with_reducible apply State.setReg_inv
    | with_reducible apply State.freeNext_inv
    | split

theorem execSpareReturn_inv {t : Quad} (hI : s.Inv pq) : ∃ s1, execSpareReturn t s = .next s1 ∧ s1.Inv pq := by
  unfold execSpareReturn
  refine ⟨_, rfl, ?_⟩
  repeat' first
    | with_reducible assumption
    | (intro x hx; beta_reduce)
    | with_reducible apply State.modTile_inv
    | with_reducible apply State.setStat_inv
    | with_reducible apply State.spareBack_inv
    | split

theorem execFreezeSpanStart_inv {t : Quad} {level : Nat} {smps : List Smp} (hI : s.Inv pq) : ∃ s1, execFreezeSpanStart t level smps s = .next s1 ∧ s1.Inv pq := by
  unfold execFreezeSpanStart
  refine ⟨_, rfl, ?_⟩
  repeat' first
    | with_reducible assumption
    | (extract_lets +onlyGivenNames s1; refine State.Inv.cut (s := s1) (q := pq) ?_ (fun _ => ?_); rotate_left; clear_value s1; rotate_left; dsimp -zeta only [s1]; clear s1)
    | (extract_lets +onlyGivenNames x1; clear_value x1)
    | (intro x hx; beta_reduce)
    | with_reducible apply State.modTile_inv
    | with_reducible apply State.takeSmps_inv
    | with_reducible apply State.bump_inv
    | split

theorem execFreezeSpanEnd_inv {t : Quad} {level : Nat} {smps : List Smp} (hI : s.Inv pq) : ∃ s1, execFreezeSpanEnd t level smps s = .next s1 ∧ s1.Inv pq := by
  unfold execFreezeSpanEnd
  refine ⟨_, rfl, ?_⟩
  repeat' first
    | with_reducible assumption
    | (extract_lets +onlyGivenNames x1; clear_value x1)
    | (intro x hx; beta_reduce)
    | with_reducible apply State.takeSmps_inv
    | with_reducible apply State.modTile_inv
    | with_reducible apply State.addFrozen_inv
    | split

theorem State.releaseRecs_inv {t : Quad} {mask : BitVec 16} (hI : s.Inv pq) : (State.releaseRecs s t mask).Inv pq := by
  unfold State.releaseRecs
  repeat' first
    | with_reducible assumption
    | intro x y hx
    | intro x hx
    | with_reducible apply State.modTile_inv
    | with_reducible apply State.Inv.foldl
    | exact Tile.keep_len hx rfl
    | split

theorem execRecordRelease_inv {x : Accessor} {t : Quad} {mask : BitVec 16} (hI : s.Inv pq) : ∃ s1, execRecordRelease x t mask s = .next s1 ∧ s1.Inv pq := by
  unfold execRecordRelease
  refine ⟨_, rfl, ?_⟩
  repeat' first
    | with_reducible assumption
    | intro x hx
    | with_reducible apply State.tileAccess_inv
    | with_reducible apply State.releaseRecs_inv

theorem execSectorComplete_inv {t : Quad} {now : DWord} {smps : List Smp} (hI : s.Inv pq) : ∃ s1, execSectorComplete t now smps s = .next s1 ∧ s1.Inv pq := by
  unfold execSectorComplete
  refine ⟨_, rfl, ?_⟩
  repeat' first
    | with_reducible assumption
    | (extract_lets +onlyGivenNames s1; refine State.Inv.cut (s := s1) (q := pq) ?_ (fun _ => ?_); rotate_left; clear_value s1; rotate_left; dsimp -zeta only [s1]; clear s1)
    | (extract_lets +onlyGivenNames x1; clear_value x1)
    | with_reducible apply State.reach_inv
    | with_reducible apply State.takeSmps_inv
    | with_reducible apply State.skipsDue_inv
    | with_reducible apply State.putSector_inv
    | with_reducible apply State.closeWin_inv
    | with_reducible apply State.takeFrag_inv
    | with_reducible apply State.endRead_inv
    | split

theorem execSourceUnderrun_inv {t : Quad} (hI : s.Inv pq) : ∃ s1, execSourceUnderrun t s = .next s1 ∧ s1.Inv pq := by
  unfold execSourceUnderrun
  refine ⟨_, rfl, ?_⟩
  repeat' first
    | with_reducible assumption
    | with_reducible apply State.forceLow_inv
    | split

theorem execDecodeComplete_inv {r : Side} {slot : BitVec 4} {res : DecodeOut} (hI : s.Inv pq) : ∃ s1, execDecodeComplete r slot res s = .next s1 ∧ s1.Inv pq := by
  unfold execDecodeComplete
  refine ⟨_, rfl, ?_⟩
  repeat' first
    | with_reducible assumption
    | (extract_lets +onlyGivenNames s1; refine State.Inv.cut (s := s1) (q := pq) ?_ (fun _ => ?_); rotate_left; clear_value s1; rotate_left; dsimp -zeta only [s1]; clear s1)
    | with_reducible apply State.modDec_inv
    | with_reducible apply State.otfDone_inv
    | with_reducible apply State.reqDone_inv
    | with_reducible apply State.recGone_inv
    | split

theorem State.writeEnable_inv {t : Quad} {en : Bool} (hI : s.Inv pq) : (State.writeEnable s t en).Inv pq := by
  unfold State.writeEnable
  repeat' first
    | with_reducible assumption
    | with_reducible apply State.modReg_inv
    | with_reducible apply State.forceLow_inv
    | with_reducible apply State.resendHsel_inv
    | split

theorem execWriteEnableWrite_inv {x : Accessor} {t : Quad} {en : Bool} (hI : s.Inv pq) : ∃ s1, execWriteEnableWrite x t en s = .next s1 ∧ s1.Inv pq := by
  unfold execWriteEnableWrite
  refine ⟨_, rfl, ?_⟩
  repeat' first
    | with_reducible assumption
    | intro x hx
    | with_reducible apply State.tileAccess_inv
    | with_reducible apply State.writeEnable_inv

theorem execDecoderSubmit_inv {c : CtxId} (hI : s.Inv pq) : ∃ s1, execDecoderSubmit c s = .next s1 ∧ s1.Inv pq := by
  unfold execDecoderSubmit
  refine ⟨_, rfl, ?_⟩
  repeat' first
    | with_reducible assumption
    | intro x hx
    | with_reducible apply State.byCtx_inv
    | with_reducible apply State.decSubmit_inv

theorem State.setLadder_inv {t : Quad} {l : Option Ladder} (hI : s.Inv pq) : (State.setLadder s t l).Inv pq := by
  unfold State.setLadder
  repeat' first
    | with_reducible assumption
    | (intro x hx; beta_reduce)
    | with_reducible apply State.modTile_inv

theorem State.ladderStatus_inv {c : CtxId} {t : Quad} {w : DWord} (hI : s.Inv pq) : (State.ladderStatus s c t w).Inv pq := by
  unfold State.ladderStatus
  repeat' first
    | with_reducible assumption
    | (extract_lets +onlyGivenNames x1; clear_value x1)
    | with_reducible apply State.setLadder_inv
    | split

theorem State.ladderResult_inv {c : CtxId} {w : DWord} (hI : s.Inv pq) : (State.ladderResult s c w).Inv pq := by
  unfold State.ladderResult
  repeat' first
    | with_reducible assumption
    | (intro x y hx; beta_reduce)
    | with_reducible apply State.setLadder_inv
    | with_reducible apply State.Inv.foldl
    | split

theorem State.decTake_inv {c : CtxId} (hI : s.Inv pq) : (State.decTake s c).1.Inv pq := by
  unfold State.decTake
  repeat' first
    | with_reducible assumption
    | with_reducible apply State.decPop_inv
    | with_reducible apply State.ladderResult_inv

theorem execDecoderResultPop_inv {c : CtxId} {reg : BitVec 6} (hI : s.Inv pq) : ∃ s1, execDecoderResultPop c reg s = .next s1 ∧ s1.Inv pq := by
  unfold execDecoderResultPop
  refine ⟨_, rfl, ?_⟩
  repeat' first
    | with_reducible assumption
    | (intro x hx; beta_reduce)
    | with_reducible apply State.byCtx_inv
    | with_reducible apply State.decTake_inv
    | with_reducible apply State.modCtx_inv
    | with_reducible apply Ctx.wr_fits

theorem State.wedgeNumber_inv {t : Quad} {same : Bool} (hI : s.Inv pq) : (State.wedgeNumber s t same).Inv pq := by
  unfold State.wedgeNumber
  repeat' first
    | with_reducible assumption
    | intro x hx
    | with_reducible apply State.modTile_inv
    | with_reducible apply State.setStat_inv
    | with_reducible apply State.bump_inv
    | split

theorem State.wedgeTrack_inv {t : Quad} {track : BitVec 24} (hI : s.Inv pq) : (State.wedgeTrack s t track).Inv pq := by
  unfold State.wedgeTrack
  repeat' first
    | with_reducible assumption
    | (extract_lets +onlyGivenNames s1; refine State.Inv.cut (s := s1) (q := pq) ?_ (fun _ => ?_); rotate_left; clear_value s1; rotate_left; dsimp -zeta only [s1]; clear s1)
    | (extract_lets +onlyGivenNames x1; clear_value x1)
    | intro x hx
    | with_reducible apply State.modTile_inv
    | with_reducible apply State.setStat_inv
    | with_reducible apply State.bump_inv
    | with_reducible apply State.forceLow_inv
    | split

theorem State.wedgeSample_inv {t : Quad} {v : Wedge} {w : WedgeIn} (hI : s.Inv pq) : (State.wedgeSample s t v w).Inv pq := by
  unfold State.wedgeSample
  repeat' first
    | with_reducible assumption
    | (extract_lets +onlyGivenNames x1; clear_value x1)
    | (intro x hx; beta_reduce)
    | with_reducible apply State.modTile_inv
    | with_reducible apply State.freeNext_inv

theorem State.wedgeRead_inv {t : Quad} {w : WedgeIn} (hI : s.Inv pq) : (State.wedgeRead s t w).Inv pq := by
  unfold State.wedgeRead
  repeat' first
    | with_reducible assumption
    | (extract_lets +onlyGivenNames s1; refine State.Inv.cut (s := s1) (q := pq) ?_ (fun _ => ?_); rotate_left; clear_value s1; rotate_left; dsimp -zeta only [s1]; clear s1)
    | (extract_lets +onlyGivenNames x1; clear_value x1)
    | with_reducible apply State.wedgeSample_inv
    | with_reducible apply State.setStat_inv
    | with_reducible apply State.bump_inv
    | with_reducible apply State.setReg_inv
    | with_reducible apply State.wedgeNumber_inv
    | with_reducible apply State.wedgeTrack_inv
    | with_reducible apply State.applyInhibit_inv
    | split

theorem execWedgeRead_inv {t : Quad} {now : DWord} {w : WedgeIn} (hI : s.Inv pq) : ∃ s1, execWedgeRead t now w s = .next s1 ∧ s1.Inv pq := by
  unfold execWedgeRead
  refine ⟨_, rfl, ?_⟩
  repeat' first
    | with_reducible assumption
    | with_reducible apply State.reach_inv
    | with_reducible apply State.wedgeRead_inv
    | split

theorem execKeepoutEntry_inv {t : Quad} {now : DWord} (hI : s.Inv pq) : ∃ s1, execKeepoutEntry t now s = .next s1 ∧ s1.Inv pq := by
  unfold execKeepoutEntry
  refine ⟨_, rfl, ?_⟩
  repeat' first
    | with_reducible assumption
    | with_reducible apply State.reach_inv
    | with_reducible apply State.forceLow_inv
    | with_reducible apply State.setStat_inv
    | split

theorem execSyncMatch_inv {t : Quad} {now : DWord} {smps : List Smp} (hI : s.Inv pq) : ∃ s1, execSyncMatch t now smps s = .next s1 ∧ s1.Inv pq := by
  unfold execSyncMatch
  refine ⟨_, rfl, ?_⟩
  repeat' first
    | with_reducible assumption
    | (extract_lets +onlyGivenNames s1; refine State.Inv.cut (s := s1) (q := pq) ?_ (fun _ => ?_); rotate_left; clear_value s1; rotate_left; dsimp -zeta only [s1]; clear s1)
    | (extract_lets +onlyGivenNames x1; clear_value x1)
    | with_reducible apply State.reach_inv
    | with_reducible apply State.takeSmps_inv
    | with_reducible apply State.syncFound_inv
    | split

theorem State.skipLoad_inv {r : Side} {a : Nat} {n : Nat} (hI : s.Inv pq) : (State.skipLoad s r a n).1.Inv pq := by
  unfold State.skipLoad
  repeat' first
    | with_reducible assumption
    | with_reducible apply State.dramRead_inv
    | split

theorem State.noSkips_inv {t : Quad} (hI : s.Inv pq) : (State.noSkips s t).Inv pq := by
  unfold State.noSkips
  repeat' first
    | with_reducible assumption
    | intro x hx
    | with_reducible apply State.modTile_inv

theorem State.skipSelect_inv {r : Side} {t : Quad} {addr : Nat} (hI : s.Inv pq) : (State.skipSelect s r t addr).Inv pq := by
  unfold State.skipSelect
  repeat' first
    | with_reducible assumption
    | (extract_lets +onlyGivenNames s1; refine State.Inv.cut (s := s1) (q := pq) ?_ (fun _ => ?_); rotate_left; clear_value s1; rotate_left; dsimp -zeta only [s1]; clear s1)
    | (extract_lets +onlyGivenNames x1; clear_value x1)
    | intro x hx
    | with_reducible apply State.setReg_inv
    | with_reducible apply State.noSkips_inv
    | with_reducible apply State.skipLoad_inv
    | with_reducible apply State.setStat_inv
    | with_reducible apply State.modTile_inv
    | with_reducible apply State.bump_inv
    | with_reducible refine State.Inv.fst (by assumption) ?_
    | split

theorem execSkipEntryApply_inv {t : Quad} {now : DWord} (hI : s.Inv pq) : ∃ s1, execSkipEntryApply t now s = .next s1 ∧ s1.Inv pq := by
  unfold execSkipEntryApply
  refine ⟨_, rfl, ?_⟩
  repeat' first
    | with_reducible assumption
    | with_reducible apply State.reach_inv
    | with_reducible apply State.skipsDue_inv
    | split

theorem execSkipListSelect_inv {x : Accessor} {t : Quad} {addr : DWord} (hI : s.Inv pq) : ∃ s1, execSkipListSelect x t addr s = .next s1 ∧ s1.Inv pq := by
  unfold execSkipListSelect
  refine ⟨_, rfl, ?_⟩
  repeat' first
    | with_reducible assumption
    | intro x hx
    | with_reducible apply State.tileAccess_inv
    | with_reducible apply State.skipSelect_inv

theorem State.statusPop_inv {t : Quad} (hI : s.Inv pq) : (State.statusPop s t).1.Inv pq := by
  unfold State.statusPop
  repeat' first
    | with_reducible assumption
    | intro x hx
    | with_reducible apply State.modTile_inv
    | split

theorem State.statusTake_inv {c : CtxId} {t : Quad} (hI : s.Inv pq) : (State.statusTake s c t).1.Inv pq := by
  unfold State.statusTake
  repeat' first
    | with_reducible assumption
    | with_reducible apply State.statusPop_inv
    | with_reducible apply State.ladderStatus_inv

theorem execSectorStatusPop_inv {c : CtxId} {t : Quad} {reg : BitVec 6} (hI : s.Inv pq) : ∃ s1, execSectorStatusPop c t reg s = .next s1 ∧ s1.Inv pq := by
  unfold execSectorStatusPop
  refine ⟨_, rfl, ?_⟩
  repeat' first
    | with_reducible assumption
    | (intro x hx; beta_reduce)
    | with_reducible apply State.byCtx_inv
    | with_reducible apply State.statusTake_inv
    | with_reducible apply State.modCtx_inv
    | with_reducible apply Ctx.wr_fits
    | with_reducible apply State.refuseCtx_inv
    | split

theorem State.descWrite_inv {t : Quad} {slot : Nat} {word : Nat} {data : Word} (hI : s.Inv pq) : (State.descWrite s t slot word data).Inv pq := by
  unfold State.descWrite
  repeat' first
    | with_reducible assumption
    | (extract_lets +onlyGivenNames x1; clear_value x1)
    | intro x hx
    | with_reducible apply State.setStat_inv
    | with_reducible apply State.modTile_inv
    | split

theorem execDescriptorWordWrite_inv {x : Accessor} {t : Quad} {slot : BitVec 6} {word : BitVec 2} {data : Word} (hI : s.Inv pq) : ∃ s1, execDescriptorWordWrite x t slot word data s = .next s1 ∧ s1.Inv pq := by
  unfold execDescriptorWordWrite
  refine ⟨_, rfl, ?_⟩
  repeat' first
    | with_reducible assumption
    | intro x hx
    | with_reducible apply State.tileAccess_inv
    | with_reducible apply State.descWrite_inv

theorem execTrackidWrite_inv {x : Accessor} {t : Quad} {v : BitVec 24} (hI : s.Inv pq) : ∃ s1, execTrackidWrite x t v s = .next s1 ∧ s1.Inv pq := by
  unfold execTrackidWrite
  refine ⟨_, rfl, ?_⟩
  repeat' first
    | with_reducible assumption
    | intro x hx
    | with_reducible apply State.tileAccess_inv
    | with_reducible apply State.setReg_inv

theorem State.fmtCtl_inv {t : Quad} {w : DWord} (hI : s.Inv pq) : (State.fmtCtl s t w).Inv pq := by
  unfold State.fmtCtl
  repeat' first
    | with_reducible assumption
    | with_reducible apply State.descWrite_inv
    | with_reducible apply State.setReg_inv
    | split

theorem execFormatterCmdIgnored_inv {x : Accessor} {t : Quad} {w : DWord} (hI : s.Inv pq) : ∃ s1, execFormatterCmdIgnored x t w s = .next s1 ∧ s1.Inv pq := by
  unfold execFormatterCmdIgnored
  refine ⟨_, rfl, ?_⟩
  repeat' first
    | with_reducible assumption
    | intro x hx
    | with_reducible apply State.tileAccess_inv
    | with_reducible apply State.fmtCtl_inv
    | split

end Sys2Proof.Machine
end

