-- ==== Sys2Proof/Laws/InvEnergy.lean ====
section
/-!
SUPPORT. The operations of Machine/Energy.lean keep the invariant.
-/
set_option Elab.async false
set_option linter.unusedTactic false
set_option linter.unreachableTactic false
namespace Sys2Proof.Machine

variable {pq : List Instr} {s : State}

theorem State.mtrInt_inv {i : Nat} (hI : s.Inv pq) : (State.mtrInt s i).Inv pq := by
  unfold State.mtrInt
  repeat' first
    | with_reducible assumption
    | with_reducible apply State.setStat_inv

theorem State.pdflt_inv {i : Nat} (hI : s.Inv pq) : (State.pdflt s i).Inv pq := by
  unfold State.pdflt
  repeat' first
    | with_reducible assumption
    | with_reducible apply State.setStat_inv
    | with_reducible apply State.mtrInt_inv

theorem State.setSp_inv {x : Spindle} (hI : s.Inv pq) : (State.setSp s x).Inv pq := by
  unfold State.setSp
  repeat' first
    | with_reducible assumption
    | with_reducible apply State.modMtr_inv
    | with_reducible apply State.mtrInt_inv
    | split

theorem State.genParked_inv (hI : s.Inv pq) : (State.genParked s).Inv pq := by
  unfold State.genParked
  repeat' first
    | with_reducible assumption
    | with_reducible apply State.modMtr_inv
    | with_reducible apply State.setSp_inv
    | split

theorem State.bandCount_inv (hI : s.Inv pq) : (State.bandCount s).Inv pq := by
  unfold State.bandCount
  repeat' first
    | with_reducible assumption
    | (extract_lets +onlyGivenNames x1; clear_value x1)
    | with_reducible apply State.modMtr_inv

theorem State.energyShort_inv (hI : s.Inv pq) : (State.energyShort s).Inv pq := by
  unfold State.energyShort
  repeat' first
    | with_reducible assumption
    | (extract_lets +onlyGivenNames s1; refine State.Inv.cut (s := s1) (q := pq) ?_ (fun _ => ?_); rotate_left; clear_value s1; rotate_left; dsimp -zeta only [s1]; clear s1)
    | (extract_lets +onlyGivenNames x1; clear_value x1)
    | with_reducible apply State.modRlg_inv
    | with_reducible apply State.setStat_inv
    | with_reducible apply State.event_inv
    | split

theorem State.energyTick_inv {r : Side} (hI : s.Inv pq) : (State.energyTick s r).Inv pq := by
  unfold State.energyTick
  repeat' first
    | with_reducible assumption
    | with_reducible apply State.bandCount_inv
    | with_reducible apply State.modRlg_inv
    | with_reducible apply State.energyShort_inv
    | split

end Sys2Proof.Machine
end

