-- ==== Sys2Proof/Laws/InvServo.lean ====
section
/-!
SUPPORT. The operations of Machine/Servo.lean keep the invariant.
-/
set_option Elab.async false
set_option linter.unusedTactic false
set_option linter.unreachableTactic false
namespace Sys2Proof.Machine

variable {pq : List Instr} {s : State}

theorem State.cenInt_inv {r : Side} {i : Nat} (hI : s.Inv pq) : (State.cenInt s r i).Inv pq := by
  unfold State.cenInt
  repeat' first
    | with_reducible assumption
    | with_reducible apply State.setStat_inv

theorem State.writeSys_inv {r : Side} (hI : s.Inv pq) : (State.writeSys s r).Inv pq := by
  unfold State.writeSys
  repeat' first
    | with_reducible assumption
    | (extract_lets +onlyGivenNames x1; clear_value x1)
    | (intro x y hx; beta_reduce)
    | with_reducible apply State.modCen_inv
    | with_reducible apply State.Inv.foldl

theorem State.putNode_inv {r : Side} {n : Nat} {v : Word} {st : Bool} (hI : s.Inv pq) : (State.putNode s r n v st).Inv pq := by
  unfold State.putNode
  repeat' first
    | with_reducible assumption
    | (extract_lets +onlyGivenNames x1; clear_value x1)
    | with_reducible apply State.modCen_inv
    | split

theorem State.markStale_inv {r : Side} {n : Nat} (hI : s.Inv pq) : (State.markStale s r n).Inv pq := by
  unfold State.markStale
  repeat' first
    | with_reducible assumption
    | (extract_lets +onlyGivenNames x1; clear_value x1)
    | with_reducible apply State.modCen_inv
    | split

theorem State.coil_inv {a : Side} {v : BitVec 16} (hI : s.Inv pq) : (State.coil s a v).Inv pq := by
  unfold State.coil
  repeat' first
    | with_reducible assumption
    | with_reducible apply State.modMtr_inv
    | split

theorem State.toDest_inv {d : Nat} {v : BitVec 16} (hI : s.Inv pq) : (State.toDest s d v).Inv pq := by
  unfold State.toDest
  repeat' first
    | with_reducible assumption
    | with_reducible apply State.coil_inv
    | with_reducible apply State.modMtr_inv
    | split

theorem State.crossCheck_inv {r : Side} {d : Nat} (hI : s.Inv pq) : (State.crossCheck s r d).Inv pq := by
  unfold State.crossCheck
  repeat' first
    | with_reducible assumption
    | with_reducible apply State.bump_inv
    | with_reducible apply State.modCen_inv
    | split

theorem State.outDrive_inv {r : Side} {d : Nat} {v : Word} {stale : Bool} {tick : DWord} (hI : s.Inv pq) : (State.outDrive s r d v stale tick).Inv pq := by
  unfold State.outDrive
  repeat' first
    | with_reducible assumption
    | (extract_lets +onlyGivenNames s1; refine State.Inv.cut (s := s1) (q := pq) ?_ (fun _ => ?_); rotate_left; clear_value s1; rotate_left; dsimp -zeta only [s1]; clear s1)
    | with_reducible apply State.modCen_inv
    | with_reducible apply State.toDest_inv
    | with_reducible apply State.crossCheck_inv
    | split

theorem State.modTrace_inv {r : Side} {k : Quad} {f : Trace → Trace} (hI : s.Inv pq) : (State.modTrace s r k f).Inv pq := by
  unfold State.modTrace
  repeat' first
    | with_reducible assumption
    | with_reducible apply State.modCen_inv

theorem State.traceAppend_inv {r : Side} {k : Quad} {v : Word} (hI : s.Inv pq) : (State.traceAppend s r k v).Inv pq := by
  unfold State.traceAppend
  repeat' first
    | with_reducible assumption
    | (extract_lets +onlyGivenNames s1; refine State.Inv.cut (s := s1) (q := pq) ?_ (fun _ => ?_); rotate_left; clear_value s1; rotate_left; dsimp -zeta only [s1]; clear s1)
    | (extract_lets +onlyGivenNames x1; clear_value x1)
    | with_reducible apply State.modTrace_inv
    | with_reducible apply State.cenInt_inv
    | split

theorem State.setSat_inv {r : Side} {i : Nat} {lim : Bool} (hI : s.Inv pq) : (State.setSat s r i lim).Inv pq := by
  unfold State.setSat
  repeat' first
    | with_reducible assumption
    | with_reducible apply State.cenInt_inv
    | with_reducible apply State.modCen_inv
    | split

theorem State.plain_inv {r : Side} {i : Nat} {dst : Nat} {v : Int × Bool} {stale : Bool} (hI : s.Inv pq) : (State.plain s r i dst v stale).Inv pq := by
  unfold State.plain
  repeat' first
    | with_reducible assumption
    | with_reducible apply State.putNode_inv
    | with_reducible apply State.setSat_inv

theorem State.block_inv {r : Side} {i : Nat} {inp : PassIn} {tick : DWord} {pre : List Nat} (hI : s.Inv pq) : (State.block s r i inp tick pre).1.Inv pq := by
  unfold State.block
  repeat' first
    | with_reducible assumption
    | (extract_lets +onlyGivenNames s1; refine State.Inv.cut (s := s1) (q := pq) ?_ (fun _ => ?_); rotate_left; clear_value s1; rotate_left; dsimp -zeta only [s1]; clear s1)
    | (extract_lets +onlyGivenNames x1; clear_value x1)
    | with_reducible apply State.putNode_inv
    | with_reducible apply State.plain_inv
    | with_reducible apply State.outDrive_inv
    | with_reducible apply State.markStale_inv
    | with_reducible apply State.traceAppend_inv
    | with_reducible apply State.modReg_inv
    | with_reducible apply State.cenInt_inv
    | split

theorem State.blocks_inv {r : Side} {inp : PassIn} {tick : DWord} :
    ∀ {n : Nat} {p : PassRun} {s : State}, s.Inv pq → (s.blocks r inp tick n p).1.Inv pq
  | 0, _, _, h => h
  | n + 1, p, s, h => by
    unfold State.blocks
    split
    · exact h
    · exact State.blocks_inv (n := n) (State.block_inv h)

theorem State.passEnd_inv {r : Side} {q : Quad} {cyc : Nat} (hI : s.Inv pq) : (State.passEnd s r q cyc).Inv pq := by
  unfold State.passEnd
  repeat' first
    | with_reducible assumption
    | (extract_lets +onlyGivenNames s1; refine State.Inv.cut (s := s1) (q := pq) ?_ (fun _ => ?_); rotate_left; clear_value s1; rotate_left; dsimp -zeta only [s1]; clear s1)
    | (extract_lets +onlyGivenNames x1; clear_value x1)
    | with_reducible apply State.modReg_inv
    | with_reducible apply State.modCen_inv

theorem State.runPass_inv {r : Side} {q : Quad} {n : Nat} {inp : PassIn} (hI : s.Inv pq) : (State.runPass s r q n inp).Inv pq := by
  unfold State.runPass
  repeat' first
    | with_reducible assumption
    | (extract_lets +onlyGivenNames s1; refine State.Inv.cut (s := s1) (q := pq) ?_ (fun _ => ?_); rotate_left; clear_value s1; rotate_left; dsimp -zeta only [s1]; clear s1)
    | (extract_lets +onlyGivenNames x1; clear_value x1)
    | with_reducible apply State.blocks_inv
    | with_reducible apply State.modCen_inv
    | with_reducible apply State.passEnd_inv
    | with_reducible refine State.Inv.fst (by assumption) ?_
    | split

theorem execTaskPass_inv {r : Side} {q : Quad} {blocks : Nat} {inp : PassIn} (hI : s.Inv pq) : ∃ s1, execTaskPass r q blocks inp s = .next s1 ∧ s1.Inv pq := by
  unfold execTaskPass
  refine ⟨_, rfl, ?_⟩
  repeat' first
    | with_reducible assumption
    | with_reducible apply State.runPass_inv
    | split

theorem State.rampGo_inv {r : Side} {ch : Nat} {data : Word} (hI : s.Inv pq) : (State.rampGo s r ch data).Inv pq := by
  unfold State.rampGo
  repeat' first
    | with_reducible assumption
    | (extract_lets +onlyGivenNames x1; clear_value x1)
    | with_reducible apply State.modCen_inv
    | with_reducible apply State.cenInt_inv
    | split

theorem execRampGo_inv {r : Side} {data : Word} (hI : s.Inv pq) : ∃ s1, execRampGo r data s = .next s1 ∧ s1.Inv pq := by
  unfold execRampGo
  refine ⟨_, rfl, ?_⟩
  repeat' first
    | with_reducible assumption
    | with_reducible apply State.rampGo_inv
    | split

theorem State.rampTick_inv {r : Side} {q : Quad} (hI : s.Inv pq) : (State.rampTick s r q).Inv pq := by
  unfold State.rampTick
  repeat' first
    | with_reducible assumption
    | (extract_lets +onlyGivenNames f1; refine State.Inv.fnCut2 (f := f1) (q := pq) ?_ (fun hf1 => ?_); rotate_left; clear_value f1; rotate_left; dsimp -zeta only [f1]; clear f1)
    | (extract_lets +onlyGivenNames s1; refine State.Inv.cut (s := s1) (q := pq) ?_ (fun _ => ?_); rotate_left; clear_value s1; rotate_left; dsimp -zeta only [s1]; clear s1)
    | (extract_lets +onlyGivenNames x1; clear_value x1)
    | intro x y hx
    | with_reducible apply State.modCen_inv
    | with_reducible apply State.cenInt_inv
    | with_reducible apply State.Inv.foldl
    | split

theorem State.bandCancel_inv {r : Side} (hI : s.Inv pq) : (State.bandCancel s r).Inv pq := by
  unfold State.bandCancel
  repeat' first
    | with_reducible assumption
    | (extract_lets +onlyGivenNames x1; clear_value x1)
    | intro x y hx
    | with_reducible apply State.modCen_inv
    | with_reducible apply State.cenInt_inv
    | with_reducible apply State.Inv.foldl
    | split

theorem State.bandTick_inv {r : Side} (hI : s.Inv pq) : (State.bandTick s r).Inv pq := by
  unfold State.bandTick
  repeat' first
    | with_reducible assumption
    | (extract_lets +onlyGivenNames s1; refine State.Inv.cut (s := s1) (q := pq) ?_ (fun _ => ?_); rotate_left; clear_value s1; rotate_left; dsimp -zeta only [s1]; clear s1)
    | (extract_lets +onlyGivenNames x1; clear_value x1)
    | with_reducible apply State.modCen_inv
    | with_reducible apply State.cenInt_inv
    | with_reducible apply State.bandCancel_inv
    | split

theorem State.modMode_inv {r : Side} {x : Side} {f : ServoMode → ServoMode} (hI : s.Inv pq) : (State.modMode s r x f).Inv pq := by
  unfold State.modMode
  repeat' first
    | with_reducible assumption
    | with_reducible apply State.modCen_inv

theorem State.modeReq_inv {r : Side} {x : Side} {mode : Nat} {sk : Option DWord} (hI : s.Inv pq) : (State.modeReq s r x mode sk).Inv pq := by
  unfold State.modeReq
  repeat' first
    | with_reducible assumption
    | (extract_lets +onlyGivenNames s1; refine State.Inv.cut (s := s1) (q := pq) ?_ (fun _ => ?_); rotate_left; clear_value s1; rotate_left; dsimp -zeta only [s1]; clear s1)
    | (extract_lets +onlyGivenNames x1; clear_value x1)
    | with_reducible apply State.modMode_inv
    | with_reducible apply State.modCen_inv
    | with_reducible apply State.cenInt_inv
    | split

theorem State.modeRequest_inv {c : CtxId} {data : DWord} (hI : s.Inv pq) : (State.modeRequest s c data).Inv pq := by
  unfold State.modeRequest
  repeat' first
    | with_reducible assumption
    | (extract_lets +onlyGivenNames x1; clear_value x1)
    | with_reducible apply State.refuseCtx_inv
    | with_reducible apply State.modeReq_inv
    | split

theorem execModeRequest_inv {c : CtxId} {data : DWord} (hI : s.Inv pq) : ∃ s1, execModeRequest c data s = .next s1 ∧ s1.Inv pq := by
  unfold execModeRequest
  refine ⟨_, rfl, ?_⟩
  repeat' first
    | with_reducible assumption
    | intro x hx
    | with_reducible apply State.byCtx_inv
    | with_reducible apply State.modeRequest_inv

theorem State.setMode_inv {r : Side} {x : Side} {mode : Nat} (hI : s.Inv pq) : (State.setMode s r x mode).Inv pq := by
  unfold State.setMode
  repeat' first
    | with_reducible assumption
    | (extract_lets +onlyGivenNames s1; refine State.Inv.cut (s := s1) (q := pq) ?_ (fun _ => ?_); rotate_left; clear_value s1; rotate_left; dsimp -zeta only [s1]; clear s1)
    | (extract_lets +onlyGivenNames x1; clear_value x1)
    | with_reducible apply State.modMode_inv
    | with_reducible apply State.writeSys_inv
    | with_reducible apply State.modMtr_inv
    | with_reducible apply State.coil_inv
    | split

theorem State.applyMode_inv {r : Side} {x : Side} {mode : Nat} {sk : Option DWord} (hI : s.Inv pq) : (State.applyMode s r x mode sk).Inv pq := by
  unfold State.applyMode
  repeat' first
    | with_reducible assumption
    | (extract_lets +onlyGivenNames s1; refine State.Inv.cut (s := s1) (q := pq) ?_ (fun _ => ?_); rotate_left; clear_value s1; rotate_left; dsimp -zeta only [s1]; clear s1)
    | with_reducible apply State.modMode_inv
    | with_reducible apply State.modCen_inv
    | with_reducible apply State.setMode_inv

theorem execModeSwitch_inv {act : Side} (hI : s.Inv pq) : ∃ s1, execModeSwitch act s = .next s1 ∧ s1.Inv pq := by
  unfold execModeSwitch
  refine ⟨_, rfl, ?_⟩
  repeat' first
    | with_reducible assumption
    | (extract_lets +onlyGivenNames f1; refine State.Inv.fnCut2 (f := f1) (q := pq) ?_ (fun hf1 => ?_); rotate_left; clear_value f1; rotate_left; dsimp -zeta only [f1]; clear f1)
    | with_reducible apply hf1
    | (intro x y hx; beta_reduce)
    | with_reducible apply State.applyMode_inv
    | with_reducible apply State.genParked_inv
    | split

theorem State.seekRequest_inv {c : CtxId} {data : DWord} (hI : s.Inv pq) : (State.seekRequest s c data).Inv pq := by
  unfold State.seekRequest
  repeat' first
    | with_reducible assumption
    | (extract_lets +onlyGivenNames s1; refine State.Inv.cut (s := s1) (q := pq) ?_ (fun _ => ?_); rotate_left; clear_value s1; rotate_left; dsimp -zeta only [s1]; clear s1)
    | (extract_lets +onlyGivenNames x1; clear_value x1)
    | with_reducible apply State.refuseCtx_inv
    | with_reducible apply State.modMode_inv
    | with_reducible apply State.modCen_inv
    | with_reducible apply State.modeReq_inv
    | split

theorem execSeekRequest_inv {c : CtxId} {data : DWord} (hI : s.Inv pq) : ∃ s1, execSeekRequest c data s = .next s1 ∧ s1.Inv pq := by
  unfold execSeekRequest
  refine ⟨_, rfl, ?_⟩
  repeat' first
    | with_reducible assumption
    | intro x hx
    | with_reducible apply State.byCtx_inv
    | with_reducible apply State.seekRequest_inv

theorem State.seekStart_inv {r : Side} {x : Side} (hI : s.Inv pq) : (State.seekStart s r x).Inv pq := by
  unfold State.seekStart
  repeat' first
    | with_reducible assumption
    | (extract_lets +onlyGivenNames s1; refine State.Inv.cut (s := s1) (q := pq) ?_ (fun _ => ?_); rotate_left; clear_value s1; rotate_left; dsimp -zeta only [s1]; clear s1)
    | (extract_lets +onlyGivenNames x1; clear_value x1)
    | with_reducible apply State.modMode_inv
    | with_reducible apply State.setMode_inv
    | split

theorem State.seekTick_inv {r : Side} {x : Side} (hI : s.Inv pq) : (State.seekTick s r x).Inv pq := by
  unfold State.seekTick
  repeat' first
    | with_reducible assumption
    | (extract_lets +onlyGivenNames s1; refine State.Inv.cut (s := s1) (q := pq) ?_ (fun _ => ?_); rotate_left; clear_value s1; rotate_left; dsimp -zeta only [s1]; clear s1)
    | (extract_lets +onlyGivenNames x1; clear_value x1)
    | with_reducible apply State.seekStart_inv
    | with_reducible apply State.modMode_inv
    | with_reducible apply State.setReg_inv
    | with_reducible apply State.modCen_inv
    | with_reducible apply State.cenInt_inv
    | with_reducible apply State.setMode_inv
    | split

theorem State.angCheck_inv {r : Side} (hI : s.Inv pq) : (State.angCheck s r).Inv pq := by
  unfold State.angCheck
  repeat' first
    | with_reducible assumption
    | with_reducible apply State.modReg_inv
    | with_reducible apply State.modAng_inv

theorem State.mactTick_inv {r : Side} (hI : s.Inv pq) : (State.mactTick s r).Inv pq := by
  unfold State.mactTick
  repeat' first
    | with_reducible assumption
    | (extract_lets +onlyGivenNames x1; clear_value x1)
    | intro x y hx
    | with_reducible apply State.sendMact_inv
    | with_reducible apply State.Inv.foldl
    | split

theorem State.taskTick_inv {r : Side} {q : Quad} {now : DWord} (hI : s.Inv pq) : (State.taskTick s r q now).Inv pq := by
  unfold State.taskTick
  repeat' first
    | with_reducible assumption
    | (extract_lets +onlyGivenNames x1; clear_value x1)
    | with_reducible apply State.modCen_inv
    | with_reducible apply State.bump_inv
    | with_reducible apply State.cenInt_inv
    | split

theorem State.syncFail_inv {r : Side} (hI : s.Inv pq) : (State.syncFail s r).Inv pq := by
  unfold State.syncFail
  repeat' first
    | with_reducible assumption
    | with_reducible apply State.modCen_inv
    | with_reducible apply State.setStat_inv
    | with_reducible apply State.cenInt_inv

theorem State.syncTick_inv {r : Side} (hI : s.Inv pq) : (State.syncTick s r).Inv pq := by
  unfold State.syncTick
  repeat' first
    | with_reducible assumption
    | with_reducible apply State.modCen_inv
    | with_reducible apply State.syncFail_inv
    | split

theorem State.tick_inv {r : Side} {q : Quad} {now : DWord} {g : Four GuideIn} {rpm : BitVec 16} (hI : s.Inv pq) : (State.tick s r q now g rpm).Inv pq := by
  unfold State.tick
  repeat' first
    | with_reducible assumption
    | (extract_lets +onlyGivenNames s1; refine State.Inv.cut (s := s1) (q := pq) ?_ (fun _ => ?_); rotate_left; clear_value s1; rotate_left; dsimp -zeta only [s1]; clear s1)
    | (intro x y hx; beta_reduce)
    | with_reducible apply State.setReg_inv
    | with_reducible apply State.modAng_inv
    | with_reducible apply State.modMode_inv
    | with_reducible apply State.guideSample_inv
    | with_reducible apply State.angCheck_inv
    | with_reducible apply State.mactTick_inv
    | with_reducible apply State.syncTick_inv
    | with_reducible apply State.seekTick_inv
    | with_reducible apply State.bandTick_inv
    | with_reducible apply State.energyTick_inv
    | with_reducible apply State.rampTick_inv
    | with_reducible apply State.writeSys_inv
    | with_reducible apply State.taskTick_inv
    | with_reducible apply State.Inv.foldl
    | split

theorem execSampleTick_inv {r : Side} {series : Quad} {now : DWord} {g : Four GuideIn} {rpm : BitVec 16} (hI : s.Inv pq) : ∃ s1, execSampleTick r series now g rpm s = .next s1 ∧ s1.Inv pq := by
  unfold execSampleTick
  refine ⟨_, rfl, ?_⟩
  repeat' first
    | with_reducible assumption
    | with_reducible apply State.tick_inv
    | split

theorem execStaleLimitExpiry_inv {r : Side} {dest : BitVec 4} (hI : s.Inv pq) : ∃ s1, execStaleLimitExpiry r dest s = .next s1 ∧ s1.Inv pq := by
  unfold execStaleLimitExpiry
  refine ⟨_, rfl, ?_⟩
  repeat' first
    | with_reducible assumption
    | (extract_lets +onlyGivenNames x1; clear_value x1)
    | with_reducible apply State.modCen_inv
    | with_reducible apply State.setStat_inv
    | with_reducible apply State.cenInt_inv
    | split

theorem State.nodeWrite_inv {c : CtxId} {data : DWord} (hI : s.Inv pq) : (State.nodeWrite s c data).Inv pq := by
  unfold State.nodeWrite
  repeat' first
    | with_reducible assumption
    | with_reducible apply State.putNode_inv
    | with_reducible apply State.refuseCtx_inv
    | split

theorem execNodeWrite_inv {c : CtxId} {data : DWord} (hI : s.Inv pq) : ∃ s1, execNodeWrite c data s = .next s1 ∧ s1.Inv pq := by
  unfold execNodeWrite
  refine ⟨_, rfl, ?_⟩
  repeat' first
    | with_reducible assumption
    | intro x hx
    | with_reducible apply State.byCtx_inv
    | with_reducible apply State.nodeWrite_inv

theorem State.coefWrite_inv {c : CtxId} {data : DWord} (hI : s.Inv pq) : (State.coefWrite s c data).Inv pq := by
  unfold State.coefWrite
  repeat' first
    | with_reducible assumption
    | (extract_lets +onlyGivenNames x1; clear_value x1)
    | with_reducible apply State.refuseCtx_inv
    | with_reducible apply State.cenInt_inv
    | with_reducible apply State.modCen_inv
    | split

theorem execCoefWrite_inv {c : CtxId} {data : DWord} (hI : s.Inv pq) : ∃ s1, execCoefWrite c data s = .next s1 ∧ s1.Inv pq := by
  unfold execCoefWrite
  refine ⟨_, rfl, ?_⟩
  repeat' first
    | with_reducible assumption
    | intro x hx
    | with_reducible apply State.byCtx_inv
    | with_reducible apply State.coefWrite_inv

theorem execOutputCrosscheckFault_inv {r : Side} (hI : s.Inv pq) : ∃ s1, execOutputCrosscheckFault r s = .next s1 ∧ s1.Inv pq := by
  unfold execOutputCrosscheckFault
  refine ⟨_, rfl, ?_⟩
  repeat' first
    | with_reducible assumption
    | with_reducible apply State.modCen_inv
    | with_reducible apply State.cenInt_inv
    | with_reducible apply State.event_inv
    | split

theorem State.nodeSync_inv {r : Side} (hI : s.Inv pq) : (State.nodeSync s r).Inv pq := by
  unfold State.nodeSync
  repeat' first
    | with_reducible assumption
    | with_reducible apply State.modCen_inv
    | with_reducible apply State.syncFail_inv
    | split

theorem execNodeSync_inv {r : Side} (hI : s.Inv pq) : ∃ s1, execNodeSync r s = .next s1 ∧ s1.Inv pq := by
  unfold execNodeSync
  refine ⟨_, rfl, ?_⟩
  repeat' first
    | with_reducible assumption
    | with_reducible apply State.nodeSync_inv
    | split

theorem State.copyNodes_inv {r : Side} (hI : s.Inv pq) : (State.copyNodes s r).Inv pq := by
  unfold State.copyNodes
  repeat' first
    | with_reducible assumption
    | (extract_lets +onlyGivenNames x1; clear_value x1)
    | with_reducible apply State.modCen_inv

theorem execNodeSyncDone_inv {r : Side} (hI : s.Inv pq) : ∃ s1, execNodeSyncDone r s = .next s1 ∧ s1.Inv pq := by
  unfold execNodeSyncDone
  refine ⟨_, rfl, ?_⟩
  repeat' first
    | with_reducible assumption
    | with_reducible apply State.copyNodes_inv
    | with_reducible apply State.syncFail_inv
    | split

theorem State.traceCfg_inv {r : Side} {k : Quad} {data : Word} (hI : s.Inv pq) : (State.traceCfg s r k data).Inv pq := by
  unfold State.traceCfg
  repeat' first
    | with_reducible assumption
    | (extract_lets +onlyGivenNames s1; refine State.Inv.cut (s := s1) (q := pq) ?_ (fun _ => ?_); rotate_left; clear_value s1; rotate_left; dsimp -zeta only [s1]; clear s1)
    | with_reducible apply State.modTrace_inv
    | split

theorem execTraceArm_inv {r : Side} {data : Word} (hI : s.Inv pq) : ∃ s1, execTraceArm r data s = .next s1 ∧ s1.Inv pq := by
  unfold execTraceArm
  refine ⟨_, rfl, ?_⟩
  repeat' first
    | with_reducible assumption
    | with_reducible apply State.traceCfg_inv
    | split

theorem execTraceForce_inv {r : Side} {data : Word} (hI : s.Inv pq) : ∃ s1, execTraceForce r data s = .next s1 ∧ s1.Inv pq := by
  unfold execTraceForce
  refine ⟨_, rfl, ?_⟩
  repeat' first
    | with_reducible assumption
    | with_reducible apply State.traceCfg_inv
    | split

theorem State.adoptOut_inv {r : Side} {p : Nat × Nat} (hI : s.Inv pq) : (State.adoptOut s r p).Inv pq := by
  unfold State.adoptOut
  repeat' first
    | with_reducible assumption
    | with_reducible apply State.modCen_inv
    | with_reducible apply State.toDest_inv

theorem State.adoptOutputs_inv {r : Side} {x : Option Side} (hI : s.Inv pq) : (State.adoptOutputs s r x).Inv pq := by
  unfold State.adoptOutputs
  repeat' first
    | with_reducible assumption
    | (intro x y hx; beta_reduce)
    | with_reducible apply State.adoptOut_inv
    | with_reducible apply State.Inv.foldl

end Sys2Proof.Machine
end

