-- ==== Sys2Proof/Laws/InvMotor.lean ====
section
/-!
SUPPORT. The operations of Machine/Motor.lean keep the invariant.
-/
set_option Elab.async false
set_option linter.unusedTactic false
set_option linter.unreachableTactic false
namespace Sys2Proof.Machine

variable {pq : List Instr} {s : State}

theorem State.mtrAccess_inv {x : Accessor} {f : State → State} (hf : ∀ s, State.Inv pq s → (f s).Inv pq) (hI : s.Inv pq) : (State.mtrAccess s x f).Inv pq := by
  unfold State.mtrAccess
  repeat' first
    | with_reducible assumption
    | with_reducible apply State.access_inv

theorem State.dropWindow_inv {a : Side} (hI : s.Inv pq) : (State.dropWindow s a).Inv pq := by
  unfold State.dropWindow
  repeat' first
    | with_reducible assumption
    | with_reducible apply State.modMon_inv
    | with_reducible apply State.modMtr_inv

theorem State.retract_inv {a : Side} (hI : s.Inv pq) : (State.retract s a).Inv pq := by
  unfold State.retract
  repeat' first
    | with_reducible assumption
    | with_reducible apply State.dropWindow_inv
    | with_reducible apply State.modMtr_inv

theorem State.retractLoaded_inv (hI : s.Inv pq) : (State.retractLoaded s).Inv pq := by
  unfold State.retractLoaded
  repeat' first
    | with_reducible assumption
    | intro x y hx
    | with_reducible apply State.retract_inv
    | with_reducible apply State.Inv.foldl
    | split

theorem State.autoRetract_inv (hI : s.Inv pq) : (State.autoRetract s).Inv pq := by
  unfold State.autoRetract
  repeat' first
    | with_reducible assumption
    | with_reducible apply State.retractLoaded_inv
    | with_reducible apply State.pdflt_inv
    | split

theorem State.spStart_inv (hI : s.Inv pq) : (State.spStart s).Inv pq := by
  unfold State.spStart
  repeat' first
    | with_reducible assumption
    | (extract_lets +onlyGivenNames s1; refine State.Inv.cut (s := s1) (q := pq) ?_ (fun _ => ?_); rotate_left; clear_value s1; rotate_left; dsimp -zeta only [s1]; clear s1)
    | with_reducible apply State.mtrInt_inv
    | with_reducible apply State.modMtr_inv
    | with_reducible apply State.setSp_inv
    | with_reducible apply State.retractLoaded_inv
    | split

theorem State.spOff_inv (hI : s.Inv pq) : (State.spOff s).Inv pq := by
  unfold State.spOff
  repeat' first
    | with_reducible assumption
    | (extract_lets +onlyGivenNames s1; refine State.Inv.cut (s := s1) (q := pq) ?_ (fun _ => ?_); rotate_left; clear_value s1; rotate_left; dsimp -zeta only [s1]; clear s1)
    | (extract_lets +onlyGivenNames x1; clear_value x1)
    | with_reducible apply State.modMtr_inv
    | with_reducible apply State.setSp_inv
    | with_reducible apply State.spStart_inv
    | split

theorem State.spFail_inv (hI : s.Inv pq) : (State.spFail s).Inv pq := by
  unfold State.spFail
  repeat' first
    | with_reducible assumption
    | with_reducible apply State.modMtr_inv
    | with_reducible apply State.setSp_inv
    | with_reducible apply State.mtrInt_inv

theorem State.spStop_inv (hI : s.Inv pq) : (State.spStop s).Inv pq := by
  unfold State.spStop
  repeat' first
    | with_reducible assumption
    | (extract_lets +onlyGivenNames s1; refine State.Inv.cut (s := s1) (q := pq) ?_ (fun _ => ?_); rotate_left; clear_value s1; rotate_left; dsimp -zeta only [s1]; clear s1)
    | with_reducible apply State.modMtr_inv
    | with_reducible apply State.setSp_inv
    | with_reducible apply State.retractLoaded_inv
    | split

theorem State.spStep_inv (hI : s.Inv pq) : (State.spStep s).Inv pq := by
  unfold State.spStep
  repeat' first
    | with_reducible assumption
    | with_reducible apply State.modMtr_inv
    | with_reducible apply State.setSp_inv

theorem State.spCmd_inv {code : Nat} (hI : s.Inv pq) : OptInv pq (State.spCmd s code) := by
  unfold State.spCmd
  repeat' first
    | with_reducible assumption
    | (extract_lets +onlyGivenNames x1; clear_value x1)
    | with_reducible apply State.spStart_inv
    | with_reducible apply State.modMtr_inv
    | with_reducible apply State.spStop_inv
    | with_reducible apply State.spStep_inv
    | with_reducible apply State.spOff_inv
    | with_reducible apply OptInv.none
    | with_reducible apply OptInv.some
    | split

theorem State.spWrite_inv {code : Nat} (hI : s.Inv pq) : (State.spWrite s code).Inv pq := by
  unfold State.spWrite
  repeat' first
    | with_reducible assumption
    | with_reducible apply State.spCmd_inv
    | with_reducible apply State.mtrInt_inv
    | with_reducible apply OptInv.getD

theorem State.afterRetract_inv (hI : s.Inv pq) : (State.afterRetract s).Inv pq := by
  unfold State.afterRetract
  repeat' first
    | with_reducible assumption
    | (extract_lets +onlyGivenNames s1; refine State.Inv.cut (s := s1) (q := pq) ?_ (fun _ => ?_); rotate_left; clear_value s1; rotate_left; dsimp -zeta only [s1]; clear s1)
    | (extract_lets +onlyGivenNames x1; clear_value x1)
    | with_reducible apply State.modMtr_inv
    | with_reducible apply State.spFail_inv
    | with_reducible apply State.setSp_inv
    | with_reducible apply State.genParked_inv
    | split

theorem State.hbLost_inv (hI : s.Inv pq) : (State.hbLost s).Inv pq := by
  unfold State.hbLost
  repeat' first
    | with_reducible assumption
    | (extract_lets +onlyGivenNames s1; refine State.Inv.cut (s := s1) (q := pq) ?_ (fun _ => ?_); rotate_left; clear_value s1; rotate_left; dsimp -zeta only [s1]; clear s1)
    | (extract_lets +onlyGivenNames x1; clear_value x1)
    | with_reducible apply State.modMtr_inv
    | with_reducible apply State.pdflt_inv
    | with_reducible apply State.spOff_inv
    | with_reducible apply State.autoRetract_inv
    | with_reducible apply State.setSp_inv
    | split

theorem State.regenLost_inv (hI : s.Inv pq) : (State.regenLost s).Inv pq := by
  unfold State.regenLost
  repeat' first
    | with_reducible assumption
    | with_reducible apply State.modMtr_inv

theorem execHeartbeat_inv (hI : s.Inv pq) : ∃ s1, execHeartbeat s = .next s1 ∧ s1.Inv pq := by
  unfold execHeartbeat
  refine ⟨_, rfl, ?_⟩
  repeat' first
    | with_reducible assumption
    | with_reducible apply State.modMtr_inv
    | split

theorem execHeartbeatKick_inv {x : Accessor} (hI : s.Inv pq) : ∃ s1, execHeartbeatKick x s = .next s1 ∧ s1.Inv pq := by
  unfold execHeartbeatKick
  refine ⟨_, rfl, ?_⟩
  repeat' first
    | with_reducible assumption
    | intro x hx
    | with_reducible apply State.mtrAccess_inv
    | with_reducible apply State.modMtr_inv

theorem execHbtoExpiry_inv (hI : s.Inv pq) : ∃ s1, execHbtoExpiry s = .next s1 ∧ s1.Inv pq := by
  unfold execHbtoExpiry
  refine ⟨_, rfl, ?_⟩
  repeat' first
    | with_reducible assumption
    | with_reducible apply State.modMtr_inv

theorem execHeartbeatLoss_inv (hI : s.Inv pq) : ∃ s1, execHeartbeatLoss s = .next s1 ∧ s1.Inv pq := by
  unfold execHeartbeatLoss
  refine ⟨_, rfl, ?_⟩
  repeat' first
    | with_reducible assumption
    | with_reducible apply State.hbLost_inv
    | split

theorem execSpindleStart_inv {x : Accessor} (hI : s.Inv pq) : ∃ s1, execSpindleStart x s = .next s1 ∧ s1.Inv pq := by
  unfold execSpindleStart
  refine ⟨_, rfl, ?_⟩
  repeat' first
    | with_reducible assumption
    | intro x hx
    | with_reducible apply State.mtrAccess_inv
    | with_reducible apply State.spWrite_inv

theorem execSpindleStop_inv {x : Accessor} (hI : s.Inv pq) : ∃ s1, execSpindleStop x s = .next s1 ∧ s1.Inv pq := by
  unfold execSpindleStop
  refine ⟨_, rfl, ?_⟩
  repeat' first
    | with_reducible assumption
    | intro x hx
    | with_reducible apply State.mtrAccess_inv
    | with_reducible apply State.spWrite_inv

theorem execSpindleStep_inv {x : Accessor} (hI : s.Inv pq) : ∃ s1, execSpindleStep x s = .next s1 ∧ s1.Inv pq := by
  unfold execSpindleStep
  refine ⟨_, rfl, ?_⟩
  repeat' first
    | with_reducible assumption
    | intro x hx
    | with_reducible apply State.mtrAccess_inv
    | with_reducible apply State.spWrite_inv

theorem execCoast_inv {x : Accessor} (hI : s.Inv pq) : ∃ s1, execCoast x s = .next s1 ∧ s1.Inv pq := by
  unfold execCoast
  refine ⟨_, rfl, ?_⟩
  repeat' first
    | with_reducible assumption
    | intro x hx
    | with_reducible apply State.mtrAccess_inv
    | with_reducible apply State.spWrite_inv

theorem execClrflt_inv {x : Accessor} (hI : s.Inv pq) : ∃ s1, execClrflt x s = .next s1 ∧ s1.Inv pq := by
  unfold execClrflt
  refine ⟨_, rfl, ?_⟩
  repeat' first
    | with_reducible assumption
    | intro x hx
    | with_reducible apply State.mtrAccess_inv
    | with_reducible apply State.spWrite_inv

theorem execSpindleCmdIgnored_inv {x : Accessor} {data : Word} (hI : s.Inv pq) : ∃ s1, execSpindleCmdIgnored x data s = .next s1 ∧ s1.Inv pq := by
  unfold execSpindleCmdIgnored
  refine ⟨_, rfl, ?_⟩
  repeat' first
    | with_reducible assumption
    | intro x hx
    | with_reducible apply State.mtrAccess_inv
    | with_reducible apply State.mtrInt_inv
    | split

theorem State.retCmd_inv {r : Side} {data : Word} (hI : s.Inv pq) : (State.retCmd s r data).Inv pq := by
  unfold State.retCmd
  repeat' first
    | with_reducible assumption
    | intro x y hx
    | with_reducible apply State.retract_inv
    | with_reducible apply State.Inv.foldl
    | split

theorem execRetractCommand_inv {x : Accessor} {data : Word} (hI : s.Inv pq) : ∃ s1, execRetractCommand x data s = .next s1 ∧ s1.Inv pq := by
  unfold execRetractCommand
  refine ⟨_, rfl, ?_⟩
  repeat' first
    | with_reducible assumption
    | intro x hx
    | with_reducible apply State.access_inv
    | with_reducible apply State.retCmd_inv

theorem State.probeEnd_inv {rev : Bool} {rpm : Nat} (hI : s.Inv pq) : (State.probeEnd s rev rpm).Inv pq := by
  unfold State.probeEnd
  repeat' first
    | with_reducible assumption
    | (extract_lets +onlyGivenNames s1; refine State.Inv.cut (s := s1) (q := pq) ?_ (fun _ => ?_); rotate_left; clear_value s1; rotate_left; dsimp -zeta only [s1]; clear s1)
    | (extract_lets +onlyGivenNames x1; clear_value x1)
    | with_reducible apply State.setReg_inv
    | with_reducible apply State.observe_inv
    | with_reducible apply State.setSp_inv
    | with_reducible apply State.modMtr_inv
    | split

theorem execProbeEnd_inv {rev : Bool} {rpm : BitVec 16} (hI : s.Inv pq) : ∃ s1, execProbeEnd rev rpm s = .next s1 ∧ s1.Inv pq := by
  unfold execProbeEnd
  refine ⟨_, rfl, ?_⟩
  repeat' first
    | with_reducible assumption
    | with_reducible apply State.probeEnd_inv
    | split

theorem execIpdDone_inv (hI : s.Inv pq) : ∃ s1, execIpdDone s = .next s1 ∧ s1.Inv pq := by
  unfold execIpdDone
  refine ⟨_, rfl, ?_⟩
  repeat' first
    | with_reducible assumption
    | with_reducible apply State.setSp_inv
    | split

theorem execKickObserverValid_inv (hI : s.Inv pq) : ∃ s1, execKickObserverValid s = .next s1 ∧ s1.Inv pq := by
  unfold execKickObserverValid
  refine ⟨_, rfl, ?_⟩
  repeat' first
    | with_reducible assumption
    | with_reducible apply State.setSp_inv
    | split

theorem execKickTimeout_inv (hI : s.Inv pq) : ∃ s1, execKickTimeout s = .next s1 ∧ s1.Inv pq := by
  unfold execKickTimeout
  refine ⟨_, rfl, ?_⟩
  repeat' first
    | with_reducible assumption
    | (extract_lets +onlyGivenNames s1; refine State.Inv.cut (s := s1) (q := pq) ?_ (fun _ => ?_); rotate_left; clear_value s1; rotate_left; dsimp -zeta only [s1]; clear s1)
    | with_reducible apply State.modMtr_inv
    | with_reducible apply State.spFail_inv
    | with_reducible apply State.setSp_inv
    | split

theorem execAtSpeedSet_inv (hI : s.Inv pq) : ∃ s1, execAtSpeedSet s = .next s1 ∧ s1.Inv pq := by
  unfold execAtSpeedSet
  refine ⟨_, rfl, ?_⟩
  repeat' first
    | with_reducible assumption
    | with_reducible apply State.modMtr_inv
    | with_reducible apply State.mtrInt_inv
    | split

theorem execAtSpeedClear_inv (hI : s.Inv pq) : ∃ s1, execAtSpeedClear s = .next s1 ∧ s1.Inv pq := by
  unfold execAtSpeedClear
  refine ⟨_, rfl, ?_⟩
  repeat' first
    | with_reducible assumption
    | with_reducible apply State.modMtr_inv
    | split

theorem execSpinupTimeout_inv (hI : s.Inv pq) : ∃ s1, execSpinupTimeout s = .next s1 ∧ s1.Inv pq := by
  unfold execSpinupTimeout
  refine ⟨_, rfl, ?_⟩
  repeat' first
    | with_reducible assumption
    | with_reducible apply State.spFail_inv
    | split

theorem execStepComplete_inv (hI : s.Inv pq) : ∃ s1, execStepComplete s = .next s1 ∧ s1.Inv pq := by
  unfold execStepComplete
  refine ⟨_, rfl, ?_⟩
  repeat' first
    | with_reducible assumption
    | with_reducible apply State.modMtr_inv
    | with_reducible apply State.setSp_inv
    | split

theorem execBrakeComplete_inv (hI : s.Inv pq) : ∃ s1, execBrakeComplete s = .next s1 ∧ s1.Inv pq := by
  unfold execBrakeComplete
  refine ⟨_, rfl, ?_⟩
  repeat' first
    | with_reducible assumption
    | with_reducible apply State.modMtr_inv
    | with_reducible apply State.setSp_inv
    | with_reducible apply State.spOff_inv
    | split

theorem execChopperEngage_inv {vmot : BitVec 16} (hI : s.Inv pq) : ∃ s1, execChopperEngage vmot s = .next s1 ∧ s1.Inv pq := by
  unfold execChopperEngage
  refine ⟨_, rfl, ?_⟩
  repeat' first
    | with_reducible assumption
    | with_reducible apply State.modMtr_inv
    | with_reducible apply State.bump_inv
    | split

theorem execChopperRelease_inv {vmot : BitVec 16} (hI : s.Inv pq) : ∃ s1, execChopperRelease vmot s = .next s1 ∧ s1.Inv pq := by
  unfold execChopperRelease
  refine ⟨_, rfl, ?_⟩
  repeat' first
    | with_reducible assumption
    | with_reducible apply State.modMtr_inv
    | split

theorem State.chopTest_inv (hI : s.Inv pq) : (State.chopTest s).Inv pq := by
  unfold State.chopTest
  repeat' first
    | with_reducible assumption
    | with_reducible apply State.setReg_inv
    | split

theorem execChopperSelftest_inv {x : Accessor} (hI : s.Inv pq) : ∃ s1, execChopperSelftest x s = .next s1 ∧ s1.Inv pq := by
  unfold execChopperSelftest
  refine ⟨_, rfl, ?_⟩
  repeat' first
    | with_reducible assumption
    | intro x hx
    | with_reducible apply State.mtrAccess_inv
    | with_reducible apply State.chopTest_inv

theorem execChopperSelftestDone_inv {vmot : BitVec 16} {on : BitVec 16} {off : BitVec 16} (hI : s.Inv pq) : ∃ s1, execChopperSelftestDone vmot on off s = .next s1 ∧ s1.Inv pq := by
  unfold execChopperSelftestDone
  refine ⟨_, rfl, ?_⟩
  repeat' first
    | with_reducible assumption
    | with_reducible apply State.setReg_inv
    | with_reducible apply State.modMtr_inv
    | with_reducible apply State.mtrInt_inv
    | split

theorem execChopperFault_inv {rising : Bool} {vmot : BitVec 16} {cur : BitVec 16} (hI : s.Inv pq) : ∃ s1, execChopperFault rising vmot cur s = .next s1 ∧ s1.Inv pq := by
  unfold execChopperFault
  refine ⟨_, rfl, ?_⟩
  repeat' first
    | with_reducible assumption
    | (extract_lets +onlyGivenNames s1; refine State.Inv.cut (s := s1) (q := pq) ?_ (fun _ => ?_); rotate_left; clear_value s1; rotate_left; dsimp -zeta only [s1]; clear s1)
    | with_reducible apply State.modMtr_inv
    | with_reducible apply State.regenLost_inv
    | with_reducible apply State.pdflt_inv
    | with_reducible apply State.mtrInt_inv
    | split

theorem execOvervoltageClamp_inv {vmot : BitVec 16} (hI : s.Inv pq) : ∃ s1, execOvervoltageClamp vmot s = .next s1 ∧ s1.Inv pq := by
  unfold execOvervoltageClamp
  refine ⟨_, rfl, ?_⟩
  repeat' first
    | with_reducible assumption
    | with_reducible apply State.modMtr_inv
    | with_reducible apply State.regenLost_inv
    | with_reducible apply State.pdflt_inv
    | with_reducible apply State.mtrInt_inv
    | split

theorem execClampRelease_inv {vmot : BitVec 16} (hI : s.Inv pq) : ∃ s1, execClampRelease vmot s = .next s1 ∧ s1.Inv pq := by
  unfold execClampRelease
  refine ⟨_, rfl, ?_⟩
  repeat' first
    | with_reducible assumption
    | with_reducible apply State.modMtr_inv
    | with_reducible apply State.setSp_inv
    | split

theorem execOvercurrentTrip_inv {succ : Bool} {cur : BitVec 16} (hI : s.Inv pq) : ∃ s1, execOvercurrentTrip succ cur s = .next s1 ∧ s1.Inv pq := by
  unfold execOvercurrentTrip
  refine ⟨_, rfl, ?_⟩
  repeat' first
    | with_reducible assumption
    | (extract_lets +onlyGivenNames s1; refine State.Inv.cut (s := s1) (q := pq) ?_ (fun _ => ?_); rotate_left; clear_value s1; rotate_left; dsimp -zeta only [s1]; clear s1)
    | with_reducible apply State.modMtr_inv
    | with_reducible apply State.bump_inv
    | with_reducible apply State.setSp_inv
    | with_reducible apply State.pdflt_inv
    | with_reducible apply State.mtrInt_inv
    | split

theorem execIsolationFetClose_inv {vmot : BitVec 16} (hI : s.Inv pq) : ∃ s1, execIsolationFetClose vmot s = .next s1 ∧ s1.Inv pq := by
  unfold execIsolationFetClose
  refine ⟨_, rfl, ?_⟩
  repeat' first
    | with_reducible assumption
    | with_reducible apply State.modMtr_inv
    | split

theorem execGenLowVmotRetract_inv {vmot : BitVec 16} (hI : s.Inv pq) : ∃ s1, execGenLowVmotRetract vmot s = .next s1 ∧ s1.Inv pq := by
  unfold execGenLowVmotRetract
  refine ⟨_, rfl, ?_⟩
  repeat' first
    | with_reducible assumption
    | with_reducible apply State.pdflt_inv
    | with_reducible apply State.autoRetract_inv
    | with_reducible apply State.genParked_inv
    | split

theorem execVmotCollapse_inv {vmot : BitVec 16} (hI : s.Inv pq) : ∃ s1, execVmotCollapse vmot s = .next s1 ∧ s1.Inv pq := by
  unfold execVmotCollapse
  refine ⟨_, rfl, ?_⟩
  repeat' first
    | with_reducible assumption
    | (extract_lets +onlyGivenNames s1; refine State.Inv.cut (s := s1) (q := pq) ?_ (fun _ => ?_); rotate_left; clear_value s1; rotate_left; dsimp -zeta only [s1]; clear s1)
    | with_reducible apply State.modMtr_inv
    | with_reducible apply State.pdflt_inv
    | with_reducible apply State.spOff_inv
    | split

theorem execPowerReturn_inv (hI : s.Inv pq) : ∃ s1, execPowerReturn s = .next s1 ∧ s1.Inv pq := by
  unfold execPowerReturn
  refine ⟨_, rfl, ?_⟩
  repeat' first
    | with_reducible assumption
    | with_reducible apply State.modMtr_inv
    | with_reducible apply State.setSp_inv
    | with_reducible apply State.mtrInt_inv
    | split

theorem execRetractDone_inv {a : Side} {emf : BitVec 16} {cur : BitVec 16} (hI : s.Inv pq) : ∃ s1, execRetractDone a emf cur s = .next s1 ∧ s1.Inv pq := by
  unfold execRetractDone
  refine ⟨_, rfl, ?_⟩
  repeat' first
    | with_reducible assumption
    | (extract_lets +onlyGivenNames s1; refine State.Inv.cut (s := s1) (q := pq) ?_ (fun _ => ?_); rotate_left; clear_value s1; rotate_left; dsimp -zeta only [s1]; clear s1)
    | with_reducible apply State.modMtr_inv
    | with_reducible apply State.mtrInt_inv
    | with_reducible apply State.afterRetract_inv
    | split

theorem execRetractTimeout_inv {a : Side} {ms : BitVec 16} (hI : s.Inv pq) : ∃ s1, execRetractTimeout a ms s = .next s1 ∧ s1.Inv pq := by
  unfold execRetractTimeout
  refine ⟨_, rfl, ?_⟩
  repeat' first
    | with_reducible assumption
    | (extract_lets +onlyGivenNames s1; refine State.Inv.cut (s := s1) (q := pq) ?_ (fun _ => ?_); rotate_left; clear_value s1; rotate_left; dsimp -zeta only [s1]; clear s1)
    | with_reducible apply State.modMtr_inv
    | with_reducible apply State.modRedun_inv
    | with_reducible apply State.pdflt_inv
    | with_reducible apply State.mtrInt_inv
    | with_reducible apply State.afterRetract_inv
    | split

theorem execPowerDieThermalTrip_inv (hI : s.Inv pq) : ∃ s1, execPowerDieThermalTrip s = .next s1 ∧ s1.Inv pq := by
  unfold execPowerDieThermalTrip
  refine ⟨_, rfl, ?_⟩
  repeat' first
    | with_reducible assumption
    | with_reducible apply State.pdflt_inv
    | with_reducible apply State.hbLost_inv

theorem execPowerDiePowerOn_inv (hI : s.Inv pq) : ∃ s1, execPowerDiePowerOn s = .next s1 ∧ s1.Inv pq := by
  unfold execPowerDiePowerOn
  refine ⟨_, rfl, ?_⟩
  repeat' first
    | with_reducible assumption
    | with_reducible apply State.setReg_inv
    | with_reducible apply State.modMtr_inv

theorem execV5Undervoltage_inv {v5 : BitVec 16} (hI : s.Inv pq) : ∃ s1, execV5Undervoltage v5 s = .next s1 ∧ s1.Inv pq := by
  unfold execV5Undervoltage
  refine ⟨_, rfl, ?_⟩
  repeat' first
    | with_reducible assumption
    | with_reducible apply State.pdflt_inv
    | split

theorem State.sparePlace_inv {ch : Nat} (hI : s.Inv pq) : (State.sparePlace s ch).Inv pq := by
  unfold State.sparePlace
  repeat' first
    | with_reducible assumption
    | with_reducible apply State.modMtr_inv
    | split

theorem execCurrentSenseSpare_inv {x : Accessor} {ch : BitVec 2} (hI : s.Inv pq) : ∃ s1, execCurrentSenseSpare x ch s = .next s1 ∧ s1.Inv pq := by
  unfold execCurrentSenseSpare
  refine ⟨_, rfl, ?_⟩
  repeat' first
    | with_reducible assumption
    | intro x hx
    | with_reducible apply State.mtrAccess_inv
    | with_reducible apply State.modReg_inv
    | with_reducible apply State.sparePlace_inv

theorem execCurrentSenseSpareReturn_inv (hI : s.Inv pq) : ∃ s1, execCurrentSenseSpareReturn s = .next s1 ∧ s1.Inv pq := by
  unfold execCurrentSenseSpareReturn
  refine ⟨_, rfl, ?_⟩
  repeat' first
    | with_reducible assumption
    | with_reducible apply State.modMtr_inv
    | with_reducible apply State.handBack_inv
    | split

end Sys2Proof.Machine
end

