-- ==== Sys2Proof/Laws/InvMonitor.lean ====
section
/-!
SUPPORT. The operations of Machine/Monitor.lean keep the invariant.
-/
set_option Elab.async false
set_option linter.unusedTactic false
set_option linter.unreachableTactic false
namespace Sys2Proof.Machine

variable {pq : List Instr} {s : State}

theorem State.monInt_inv {i : Nat} (hI : s.Inv pq) : (State.monInt s i).Inv pq := by
  unfold State.monInt
  repeat' first
    | with_reducible assumption
    | with_reducible apply State.setStat_inv

theorem State.setTrim_inv {n : Nat} {v : Byte} (hI : s.Inv pq) : (State.setTrim s n v).Inv pq := by
  unfold State.setTrim
  repeat' first
    | with_reducible assumption
    | with_reducible apply State.modMon_inv

theorem State.trimWrite_inv {data : Word} (hI : s.Inv pq) : (State.trimWrite s data).Inv pq := by
  unfold State.trimWrite
  repeat' first
    | with_reducible assumption
    | with_reducible apply State.setTrim_inv
    | with_reducible apply State.monInt_inv
    | split

theorem State.calWrite_inv {r : Side} {addr : Nat} {bs : List Byte} (hI : s.Inv pq) : (State.calWrite s r addr bs).Inv pq := by
  unfold State.calWrite
  repeat' first
    | with_reducible assumption
    | with_reducible apply State.dramWrite_inv
    | split

theorem State.calOutcome_inv {r : Side} {addr : Nat} {outcome : Nat} {reason : Nat} (hI : s.Inv pq) : (State.calOutcome s r addr outcome reason).Inv pq := by
  unfold State.calOutcome
  repeat' first
    | with_reducible assumption
    | with_reducible apply State.calWrite_inv

theorem State.openWindow_inv {a : Side} (hI : s.Inv pq) : (State.openWindow s a).Inv pq := by
  unfold State.openWindow
  repeat' first
    | with_reducible assumption
    | with_reducible apply State.modMon_inv
    | with_reducible apply State.modMtr_inv
    | split

theorem State.calTakeCover_inv {x : CalRun} (hI : s.Inv pq) : (State.calTakeCover s x).Inv pq := by
  unfold State.calTakeCover
  repeat' first
    | with_reducible assumption
    | with_reducible apply State.spareTake_inv
    | with_reducible apply State.modReg_inv
    | with_reducible apply State.sparePlace_inv
    | with_reducible apply State.openWindow_inv
    | split

theorem State.calReturnCover_inv {x : CalRun} (hI : s.Inv pq) : (State.calReturnCover s x).Inv pq := by
  unfold State.calReturnCover
  repeat' first
    | with_reducible assumption
    | (intro x hx; beta_reduce)
    | with_reducible apply State.modTile_inv
    | with_reducible apply State.modReg_inv
    | with_reducible apply State.modMtr_inv
    | with_reducible apply State.dropWindow_inv
    | split

theorem State.modRun_inv {addr : Nat} {f : CalRun → CalRun} (hI : s.Inv pq) : (State.modRun s addr f).Inv pq := by
  unfold State.modRun
  repeat' first
    | with_reducible assumption
    | with_reducible apply State.modMon_inv

theorem State.calEnd_inv {x : CalRun} (hI : s.Inv pq) : (State.calEnd s x).Inv pq := by
  unfold State.calEnd
  repeat' first
    | with_reducible assumption
    | with_reducible apply State.calReturnCover_inv
    | with_reducible apply State.modMon_inv

theorem State.calBegin_inv {r : Side} {addr : Nat} {d : CalDesc} {t : Quad} (hI : s.Inv pq) : (State.calBegin s r addr d t).Inv pq := by
  unfold State.calBegin
  repeat' first
    | with_reducible assumption
    | (extract_lets +onlyGivenNames s1; refine State.Inv.cut (s := s1) (q := pq) ?_ (fun _ => ?_); rotate_left; clear_value s1; rotate_left; dsimp -zeta only [s1]; clear s1)
    | (extract_lets +onlyGivenNames x1; clear_value x1)
    | with_reducible apply State.calOutcome_inv
    | with_reducible apply State.modMon_inv
    | with_reducible apply State.modRun_inv
    | with_reducible apply State.calTakeCover_inv
    | split

theorem execCalibrationStart_inv {r : Side} {addr : BitVec 48} {t : Quad} {request : Bool} (hI : s.Inv pq) : ∃ s1, execCalibrationStart r addr t request s = .next s1 ∧ s1.Inv pq := by
  unfold execCalibrationStart
  refine ⟨_, rfl, ?_⟩
  repeat' first
    | with_reducible assumption
    | with_reducible apply State.calBegin_inv
    | with_reducible apply State.calOutcome_inv
    | with_reducible apply State.event_inv
    | split

theorem State.calPut_inv {x : CalRun} {v : Int} (hI : s.Inv pq) : (State.calPut s x v).Inv pq := by
  unfold State.calPut
  repeat' first
    | with_reducible assumption
    | (extract_lets +onlyGivenNames x1; clear_value x1)
    | with_reducible apply State.setReg_inv
    | with_reducible apply State.modLink_inv
    | with_reducible apply State.heater_inv
    | with_reducible apply State.modAng_inv
    | with_reducible apply State.setTrim_inv
    | with_reducible apply State.monInt_inv
    | split

theorem State.calInertia_inv {x : CalRun} {v : Int} (hI : s.Inv pq) : (State.calInertia s x v).Inv pq := by
  unfold State.calInertia
  repeat' first
    | with_reducible assumption
    | (extract_lets +onlyGivenNames x1; clear_value x1)
    | with_reducible apply State.calPut_inv
    | with_reducible apply State.modMon_inv
    | split

theorem State.pairApply_inv {l : Side} {rows : List (BitVec 12)} (hI : s.Inv pq) : (State.pairApply s l rows).Inv pq := by
  unfold State.pairApply
  repeat' first
    | with_reducible assumption
    | (extract_lets +onlyGivenNames x1; clear_value x1)
    | with_reducible apply State.modLink_inv

theorem State.assistFails_inv {x : CalRun} (hI : s.Inv pq) : (State.assistFails s x).Inv pq := by
  unfold State.assistFails
  repeat' first
    | with_reducible assumption
    | with_reducible apply State.modMon_inv
    | split

theorem State.calResult_inv {x : CalRun} {d : CalDesc} {v : Int} {given : Int} {pairs : List (BitVec 12)} (hI : s.Inv pq) : (State.calResult s x d v given pairs).Inv pq := by
  unfold State.calResult
  repeat' first
    | with_reducible assumption
    | (extract_lets +onlyGivenNames s1; refine State.Inv.cut (s := s1) (q := pq) ?_ (fun _ => ?_); rotate_left; clear_value s1; rotate_left; dsimp -zeta only [s1]; clear s1)
    | (extract_lets +onlyGivenNames x1; clear_value x1)
    | with_reducible apply State.calWrite_inv
    | with_reducible apply State.modRun_inv
    | with_reducible apply State.calEnd_inv
    | with_reducible apply State.calOutcome_inv
    | with_reducible apply State.event_inv
    | with_reducible apply State.assistFails_inv
    | with_reducible apply State.pairApply_inv
    | with_reducible apply State.calInertia_inv
    | split

theorem execCalibrationResult_inv {addr : BitVec 48} {res : Word} {given : Word} {pairs : List (BitVec 12)} (hI : s.Inv pq) : ∃ s1, execCalibrationResult addr res given pairs s = .next s1 ∧ s1.Inv pq := by
  unfold execCalibrationResult
  refine ⟨_, rfl, ?_⟩
  repeat' first
    | with_reducible assumption
    | with_reducible apply State.calResult_inv
    | split

theorem State.calStep_inv {x : CalRun} {d : CalDesc} (hI : s.Inv pq) : (State.calStep s x d).Inv pq := by
  unfold State.calStep
  repeat' first
    | with_reducible assumption
    | (extract_lets +onlyGivenNames s1; refine State.Inv.cut (s := s1) (q := pq) ?_ (fun _ => ?_); rotate_left; clear_value s1; rotate_left; dsimp -zeta only [s1]; clear s1)
    | (extract_lets +onlyGivenNames x1; clear_value x1)
    | with_reducible apply State.calPut_inv
    | with_reducible apply State.calEnd_inv
    | with_reducible apply State.modRun_inv
    | with_reducible apply State.calReturnCover_inv
    | split

theorem State.calApply_inv {x : CalRun} {d : CalDesc} (hI : s.Inv pq) : (State.calApply s x d).Inv pq := by
  unfold State.calApply
  repeat' first
    | with_reducible assumption
    | (extract_lets +onlyGivenNames s1; refine State.Inv.cut (s := s1) (q := pq) ?_ (fun _ => ?_); rotate_left; clear_value s1; rotate_left; dsimp -zeta only [s1]; clear s1)
    | (extract_lets +onlyGivenNames x1; clear_value x1)
    | with_reducible apply State.pairApply_inv
    | with_reducible apply State.calEnd_inv
    | with_reducible apply State.calTakeCover_inv
    | with_reducible apply State.calStep_inv
    | split

theorem execCalibrationApplyStep_inv {addr : BitVec 48} (hI : s.Inv pq) : ∃ s1, execCalibrationApplyStep addr s = .next s1 ∧ s1.Inv pq := by
  unfold execCalibrationApplyStep
  refine ⟨_, rfl, ?_⟩
  repeat' first
    | with_reducible assumption
    | with_reducible apply State.calApply_inv
    | split

theorem State.calAbort_inv {r : Side} {x : CalRun} {n : Nat} (hI : s.Inv pq) : (State.calAbort s r x n).Inv pq := by
  unfold State.calAbort
  repeat' first
    | with_reducible assumption
    | (extract_lets +onlyGivenNames s1; refine State.Inv.cut (s := s1) (q := pq) ?_ (fun _ => ?_); rotate_left; clear_value s1; rotate_left; dsimp -zeta only [s1]; clear s1)
    | with_reducible apply State.calOutcome_inv
    | with_reducible apply State.calEnd_inv
    | with_reducible apply State.event_inv

theorem State.calAbortAll_inv {p : CalRun → Bool} {n : Nat} (hI : s.Inv pq) : (State.calAbortAll s p n).Inv pq := by
  unfold State.calAbortAll
  repeat' first
    | with_reducible assumption
    | (intro x y hx; beta_reduce)
    | with_reducible apply State.calAbort_inv
    | with_reducible apply State.Inv.foldl

theorem State.calFence_inv {r : Side} (hI : s.Inv pq) : (State.calFence s r).Inv pq := by
  unfold State.calFence
  repeat' first
    | with_reducible assumption
    | (extract_lets +onlyGivenNames s1; refine State.Inv.cut (s := s1) (q := pq) ?_ (fun _ => ?_); rotate_left; clear_value s1; rotate_left; dsimp -zeta only [s1]; clear s1)
    | (extract_lets +onlyGivenNames x1; clear_value x1)
    | (intro x y hx; beta_reduce)
    | with_reducible apply State.calReturnCover_inv
    | with_reducible apply State.modMon_inv
    | with_reducible apply State.Inv.foldl

theorem execCalibrationAbort_inv {addr : BitVec 48} (hI : s.Inv pq) : ∃ s1, execCalibrationAbort addr s = .next s1 ∧ s1.Inv pq := by
  unfold execCalibrationAbort
  refine ⟨_, rfl, ?_⟩
  repeat' first
    | with_reducible assumption
    | with_reducible apply State.calAbort_inv
    | split

theorem State.vcCal_inv {data : Word} (hI : s.Inv pq) : (State.vcCal s data).Inv pq := by
  unfold State.vcCal
  repeat' first
    | with_reducible assumption
    | with_reducible apply State.setReg_inv
    | with_reducible apply State.openWindow_inv

theorem execVcCalWindow_inv {x : Accessor} {data : Word} (hI : s.Inv pq) : ∃ s1, execVcCalWindow x data s = .next s1 ∧ s1.Inv pq := by
  unfold execVcCalWindow
  refine ⟨_, rfl, ?_⟩
  repeat' first
    | with_reducible assumption
    | intro x hx
    | with_reducible apply State.access_inv
    | with_reducible apply State.vcCal_inv

theorem execVcCalDone_inv {act : Side} {ofs : BitVec 12} {us : BitVec 8} (hI : s.Inv pq) : ∃ s1, execVcCalDone act ofs us s = .next s1 ∧ s1.Inv pq := by
  unfold execVcCalDone
  refine ⟨_, rfl, ?_⟩
  repeat' first
    | with_reducible assumption
    | (extract_lets +onlyGivenNames s1; refine State.Inv.cut (s := s1) (q := pq) ?_ (fun _ => ?_); rotate_left; clear_value s1; rotate_left; dsimp -zeta only [s1]; clear s1)
    | with_reducible apply State.dropWindow_inv
    | with_reducible apply State.modReg_inv
    | with_reducible apply State.monInt_inv
    | split

theorem State.tempIn_inv {n : Nat} {t : BitVec 16} (hI : s.Inv pq) : (State.tempIn s n t).Inv pq := by
  unfold State.tempIn
  repeat' first
    | with_reducible assumption
    | with_reducible apply State.setReg_inv
    | with_reducible apply State.modReg_inv

theorem execThermalWarning_inv {n : BitVec 4} {t : BitVec 16} (hI : s.Inv pq) : ∃ s1, execThermalWarning n t s = .next s1 ∧ s1.Inv pq := by
  unfold execThermalWarning
  refine ⟨_, rfl, ?_⟩
  repeat' first
    | with_reducible assumption
    | (extract_lets +onlyGivenNames f1; refine State.Inv.fnCut2 (f := f1) (q := pq) ?_ (fun hf1 => ?_); rotate_left; clear_value f1; rotate_left; dsimp -zeta only [f1]; clear f1)
    | (extract_lets +onlyGivenNames s1; refine State.Inv.cut (s := s1) (q := pq) ?_ (fun _ => ?_); rotate_left; clear_value s1; rotate_left; dsimp -zeta only [s1]; clear s1)
    | with_reducible apply hf1
    | (intro x y hx; beta_reduce)
    | with_reducible apply State.tempIn_inv
    | with_reducible apply State.modMon_inv
    | with_reducible apply State.monInt_inv
    | with_reducible apply State.event_inv
    | split

theorem execPowerDieSensorRead_inv {t0 : BitVec 16} {t1 : BitVec 16} {t2 : BitVec 16} {t3 : BitVec 16} (hI : s.Inv pq) : ∃ s1, execPowerDieSensorRead t0 t1 t2 t3 s = .next s1 ∧ s1.Inv pq := by
  unfold execPowerDieSensorRead
  refine ⟨_, rfl, ?_⟩
  repeat' first
    | with_reducible assumption
    | intro x y hx
    | with_reducible apply State.tempIn_inv
    | with_reducible apply State.modReg_inv
    | with_reducible apply State.monInt_inv
    | with_reducible apply State.Inv.foldl
    | split

theorem execVoltageFault_inv {n : BitVec 5} {mv : BitVec 16} (hI : s.Inv pq) : ∃ s1, execVoltageFault n mv s = .next s1 ∧ s1.Inv pq := by
  unfold execVoltageFault
  refine ⟨_, rfl, ?_⟩
  repeat' first
    | with_reducible assumption
    | (extract_lets +onlyGivenNames s1; refine State.Inv.cut (s := s1) (q := pq) ?_ (fun _ => ?_); rotate_left; clear_value s1; rotate_left; dsimp -zeta only [s1]; clear s1)
    | (extract_lets +onlyGivenNames x1; clear_value x1)
    | with_reducible apply State.modMon_inv
    | with_reducible apply State.setStat_inv
    | with_reducible apply State.monInt_inv
    | with_reducible apply State.event_inv
    | split

theorem execAvsUpdate_inv {rosc : List (BitVec 16)} {ms : Bool} (hI : s.Inv pq) : ∃ s1, execAvsUpdate rosc ms s = .next s1 ∧ s1.Inv pq := by
  unfold execAvsUpdate
  refine ⟨_, rfl, ?_⟩
  repeat' first
    | with_reducible assumption
    | (extract_lets +onlyGivenNames s1; refine State.Inv.cut (s := s1) (q := pq) ?_ (fun _ => ?_); rotate_left; clear_value s1; rotate_left; dsimp -zeta only [s1]; clear s1)
    | with_reducible apply State.modMon_inv
    | with_reducible apply State.modReg_inv

theorem execAvsClamp_inv (hI : s.Inv pq) : ∃ s1, execAvsClamp s = .next s1 ∧ s1.Inv pq := by
  unfold execAvsClamp
  refine ⟨_, rfl, ?_⟩
  repeat' first
    | with_reducible assumption
    | (extract_lets +onlyGivenNames x1; clear_value x1)
    | with_reducible apply State.monInt_inv
    | with_reducible apply State.event_inv
    | split

end Sys2Proof.Machine
end

