-- ==== Sys2Proof/Laws/InvZoneTable.lean ====
section
/-!
SUPPORT. The operations of Machine/ZoneTable.lean keep the invariant.
-/
set_option Elab.async false
set_option linter.unusedTactic false
set_option linter.unreachableTactic false
namespace Sys2Proof.Machine

variable {pq : List Instr} {s : State}

theorem State.putZent_inv {n : Nat} {e : ZEntry} (hI : s.Inv pq) : (State.putZent s n e).Inv pq := by
  unfold State.putZent
  repeat' first
    | with_reducible assumption
    | with_reducible apply State.modZtb_inv

theorem State.bumpGen_inv (hI : s.Inv pq) : (State.bumpGen s).Inv pq := by
  unfold State.bumpGen
  repeat' first
    | with_reducible assumption
    | with_reducible apply State.modZtb_inv

theorem State.ztbInt_inv {i : Nat} (hI : s.Inv pq) : (State.ztbInt s i).Inv pq := by
  unfold State.ztbInt
  repeat' first
    | with_reducible assumption
    | with_reducible apply State.setStat_inv

theorem State.ztbWindow_inv {off : Nat} {data : Word} (hI : s.Inv pq) : (State.ztbWindow s off data).Inv pq := by
  unfold State.ztbWindow
  repeat' first
    | with_reducible assumption
    | (extract_lets +onlyGivenNames x1; clear_value x1)
    | with_reducible apply State.putZent_inv
    | with_reducible apply State.ztbInt_inv
    | with_reducible apply State.bumpGen_inv
    | split

theorem execZtbWindowWrite_inv {x : Accessor} {off : BitVec 22} {data : Word} (hI : s.Inv pq) : ∃ s1, execZtbWindowWrite x off data s = .next s1 ∧ s1.Inv pq := by
  unfold execZtbWindowWrite
  refine ⟨_, rfl, ?_⟩
  repeat' first
    | with_reducible assumption
    | intro x hx
    | with_reducible apply State.access_inv
    | with_reducible apply State.ztbWindow_inv

theorem State.stgAdd_inv {i : Nat} {n : Int} (hI : s.Inv pq) : (State.stgAdd s i n).Inv pq := by
  unfold State.stgAdd
  repeat' first
    | with_reducible assumption
    | with_reducible apply State.putZent_inv
    | with_reducible apply State.bumpGen_inv

theorem State.deferCover_inv {ns : Nat} {b : Nat} {m : Nat} (hI : s.Inv pq) : (State.deferCover s ns b m).Inv pq := by
  unfold State.deferCover
  repeat' first
    | with_reducible assumption
    | with_reducible apply State.modWin_inv

theorem State.poisonClear_inv {ns : Nat} {b : Nat} {m : Nat} (hI : s.Inv pq) : (State.poisonClear s ns b m).Inv pq := by
  unfold State.poisonClear
  repeat' first
    | with_reducible assumption
    | with_reducible apply State.modRedun_inv

theorem State.zoneCleared_inv {i : Nat} {e : ZEntry} (hI : s.Inv pq) : (State.zoneCleared s i e).Inv pq := by
  unfold State.zoneCleared
  repeat' first
    | with_reducible assumption
    | (extract_lets +onlyGivenNames s1; refine State.Inv.cut (s := s1) (q := pq) ?_ (fun _ => ?_); rotate_left; clear_value s1; rotate_left; dsimp -zeta only [s1]; clear s1)
    | with_reducible apply State.modWin_inv
    | with_reducible apply State.modRedun_inv
    | with_reducible apply State.deferCover_inv
    | with_reducible apply State.poisonClear_inv
    | split

theorem State.ztbDo_inv {i : Nat} {e : ZEntry} {w : DWord} (hI : s.Inv pq) : (State.ztbDo s i e w).Inv pq := by
  unfold State.ztbDo
  repeat' first
    | with_reducible assumption
    | with_reducible apply State.putZent_inv
    | with_reducible apply State.bumpGen_inv
    | split

theorem State.ztbUpdate_inv {c : CtxId} {w : DWord} (hI : s.Inv pq) : (State.ztbUpdate s c w).Inv pq := by
  unfold State.ztbUpdate
  repeat' first
    | with_reducible assumption
    | (extract_lets +onlyGivenNames s1; refine State.Inv.cut (s := s1) (q := pq) ?_ (fun _ => ?_); rotate_left; clear_value s1; rotate_left; dsimp -zeta only [s1]; clear s1)
    | (extract_lets +onlyGivenNames x1; clear_value x1)
    | (intro x hx; beta_reduce)
    | with_reducible apply State.refuseCtx_inv
    | with_reducible apply State.zoneCleared_inv
    | with_reducible apply State.putZent_inv
    | with_reducible apply State.bumpGen_inv
    | with_reducible apply State.modZtb_inv
    | with_reducible apply State.ztbInt_inv
    | with_reducible apply when_inv
    | split

theorem execZtbState_inv {c : CtxId} {w : DWord} (hI : s.Inv pq) : ∃ s1, execZtbState c w s = .next s1 ∧ s1.Inv pq := by
  unfold execZtbState
  refine ⟨_, rfl, ?_⟩
  repeat' first
    | with_reducible assumption
    | intro x hx
    | with_reducible apply State.byCtx_inv
    | with_reducible apply State.ztbUpdate_inv

theorem execZtbWp_inv {c : CtxId} {w : DWord} (hI : s.Inv pq) : ∃ s1, execZtbWp c w s = .next s1 ∧ s1.Inv pq := by
  unfold execZtbWp
  refine ⟨_, rfl, ?_⟩
  repeat' first
    | with_reducible assumption
    | intro x hx
    | with_reducible apply State.byCtx_inv
    | with_reducible apply State.ztbUpdate_inv

theorem execZtbHwp_inv {c : CtxId} {w : DWord} (hI : s.Inv pq) : ∃ s1, execZtbHwp c w s = .next s1 ∧ s1.Inv pq := by
  unfold execZtbHwp
  refine ⟨_, rfl, ?_⟩
  repeat' first
    | with_reducible assumption
    | intro x hx
    | with_reducible apply State.byCtx_inv
    | with_reducible apply State.ztbUpdate_inv

theorem execZtbStgadd_inv {c : CtxId} {w : DWord} (hI : s.Inv pq) : ∃ s1, execZtbStgadd c w s = .next s1 ∧ s1.Inv pq := by
  unfold execZtbStgadd
  refine ⟨_, rfl, ?_⟩
  repeat' first
    | with_reducible assumption
    | intro x hx
    | with_reducible apply State.byCtx_inv
    | with_reducible apply State.ztbUpdate_inv

theorem execZtbReset_inv {c : CtxId} {w : DWord} (hI : s.Inv pq) : ∃ s1, execZtbReset c w s = .next s1 ∧ s1.Inv pq := by
  unfold execZtbReset
  refine ⟨_, rfl, ?_⟩
  repeat' first
    | with_reducible assumption
    | intro x hx
    | with_reducible apply State.byCtx_inv
    | with_reducible apply State.ztbUpdate_inv

theorem execZtbDegset_inv {c : CtxId} {w : DWord} (hI : s.Inv pq) : ∃ s1, execZtbDegset c w s = .next s1 ∧ s1.Inv pq := by
  unfold execZtbDegset
  refine ⟨_, rfl, ?_⟩
  repeat' first
    | with_reducible assumption
    | intro x hx
    | with_reducible apply State.byCtx_inv
    | with_reducible apply State.ztbUpdate_inv

theorem execZtbFree_inv {c : CtxId} {w : DWord} (hI : s.Inv pq) : ∃ s1, execZtbFree c w s = .next s1 ∧ s1.Inv pq := by
  unfold execZtbFree
  refine ⟨_, rfl, ?_⟩
  repeat' first
    | with_reducible assumption
    | intro x hx
    | with_reducible apply State.byCtx_inv
    | with_reducible apply State.ztbUpdate_inv

theorem execZtbUpdateRefused_inv {c : CtxId} {w : DWord} (hI : s.Inv pq) : ∃ s1, execZtbUpdateRefused c w s = .next s1 ∧ s1.Inv pq := by
  unfold execZtbUpdateRefused
  refine ⟨_, rfl, ?_⟩
  repeat' first
    | with_reducible assumption
    | intro x hx
    | with_reducible apply State.byCtx_inv
    | with_reducible apply State.ztbUpdate_inv
    | split

theorem State.scanGo_inv {data : Word} (hI : s.Inv pq) : (State.scanGo s data).Inv pq := by
  unfold State.scanGo
  repeat' first
    | with_reducible assumption
    | (extract_lets +onlyGivenNames s1; refine State.Inv.cut (s := s1) (q := pq) ?_ (fun _ => ?_); rotate_left; clear_value s1; rotate_left; dsimp -zeta only [s1]; clear s1)
    | (extract_lets +onlyGivenNames x1; clear_value x1)
    | with_reducible apply State.setReg_inv
    | with_reducible apply State.modZtb_inv
    | split

theorem execZoneScan_inv {x : Accessor} {data : Word} (hI : s.Inv pq) : ∃ s1, execZoneScan x data s = .next s1 ∧ s1.Inv pq := by
  unfold execZoneScan
  refine ⟨_, rfl, ?_⟩
  repeat' first
    | with_reducible assumption
    | intro x hx
    | with_reducible apply State.access_inv
    | with_reducible apply State.scanGo_inv

theorem execZoneScanDone_inv (hI : s.Inv pq) : ∃ s1, execZoneScanDone s = .next s1 ∧ s1.Inv pq := by
  unfold execZoneScanDone
  refine ⟨_, rfl, ?_⟩
  repeat' first
    | with_reducible assumption
    | with_reducible apply State.modZtb_inv
    | split

end Sys2Proof.Machine
end

