-- ==== Sys2Proof/Laws/InvLedger.lean ====
section
/-!
SUPPORT. The operations of Machine/Ledger.lean keep the invariant.
-/
set_option Elab.async false
set_option linter.unusedTactic false
set_option linter.unreachableTactic false
namespace Sys2Proof.Machine

variable {pq : List Instr} {s : State}

theorem State.rlgInt_inv {i : Nat} (hI : s.Inv pq) : (State.rlgInt s i).Inv pq := by
  unfold State.rlgInt
  repeat' first
    | with_reducible assumption
    | with_reducible apply State.setStat_inv

theorem State.logL3_inv {x : Side} {h : Nat} (hI : s.Inv pq) : (State.logL3 s x h).Inv pq := by
  unfold State.logL3
  repeat' first
    | with_reducible assumption
    | with_reducible apply State.modMember_inv

theorem State.grant_inv {c : CtxId} {q : CreditReq} {esc : Bool} {n : Nat} (hI : s.Inv pq) : (State.grant s c q esc n).Inv pq := by
  unfold State.grant
  repeat' first
    | with_reducible assumption
    | intro x hx
    | with_reducible apply State.modRlg_inv
    | with_reducible apply State.modCtx_inv
    | exact Ctx.Fits.keep hx rfl rfl rfl rfl rfl

theorem State.creditWaitOn_inv {c : CtxId} {q : CreditReq} (hI : s.Inv pq) : (State.creditWaitOn s c q).Inv pq := by
  unfold State.creditWaitOn
  repeat' first
    | with_reducible assumption
    | intro x hx
    | with_reducible apply State.modCtx_inv
    | with_reducible apply State.modRlg_inv
    | exact Ctx.Fits.keep hx rfl rfl rfl rfl rfl

theorem State.acquire_inv {c : CtxId} {window : Bool} (hI : s.Inv pq) : (State.acquire s c window).1.Inv pq := by
  unfold State.acquire
  repeat' first
    | with_reducible assumption
    | with_reducible apply State.rlgInt_inv
    | with_reducible apply State.creditWaitOn_inv
    | with_reducible apply State.grant_inv
    | split

theorem State.mediaReserve_inv {c : CtxId} (hI : s.Inv pq) : (State.mediaReserve s c).1.Inv pq := by
  unfold State.mediaReserve
  repeat' first
    | with_reducible assumption
    | (extract_lets +onlyGivenNames x1; clear_value x1)
    | with_reducible apply State.rlgInt_inv
    | with_reducible apply State.modRlg_inv
    | split

theorem State.leaseDrop_inv {l : Lease} {amount : Nat} (hI : s.Inv pq) : (State.leaseDrop s l amount).Inv pq := by
  unfold State.leaseDrop
  repeat' first
    | with_reducible assumption
    | with_reducible apply State.modRlg_inv

theorem State.creditRelease_inv {c : CtxId} {data : DWord} (hI : s.Inv pq) : (State.creditRelease s c data).Inv pq := by
  unfold State.creditRelease
  repeat' first
    | with_reducible assumption
    | with_reducible apply State.refuseCtx_inv
    | with_reducible apply State.leaseDrop_inv
    | split

theorem State.bindBuffer_inv {c : CtxId} {buf : Nat} (hI : s.Inv pq) : OptInv pq (State.bindBuffer s c buf) := by
  unfold State.bindBuffer
  repeat' first
    | with_reducible assumption
    | with_reducible apply State.modRlg_inv
    | with_reducible apply OptInv.none
    | with_reducible apply OptInv.some
    | split

theorem State.unbindBuffer_inv {r : Side} {buf : Nat} (hI : s.Inv pq) : (State.unbindBuffer s r buf).Inv pq := by
  unfold State.unbindBuffer
  repeat' first
    | with_reducible assumption
    | with_reducible apply State.modRlg_inv
    | with_reducible apply State.leaseDrop_inv
    | split

theorem State.winReturn_inv {slots : Nat} (hI : s.Inv pq) : (State.winReturn s slots).Inv pq := by
  unfold State.winReturn
  repeat' first
    | with_reducible assumption
    | with_reducible apply State.modRlg_inv

theorem State.escSeal_inv {c : CtxId} {x : Side} {key : Nat} (hI : s.Inv pq) : (State.escSeal s c x key).Inv pq := by
  unfold State.escSeal
  repeat' first
    | with_reducible assumption
    | with_reducible apply State.modRlg_inv
    | split

theorem State.escReturn_inv {x : Side} {key : Nat} (hI : s.Inv pq) : (State.escReturn s x key).Inv pq := by
  unfold State.escReturn
  repeat' first
    | with_reducible assumption
    | with_reducible apply State.modRlg_inv
    | split

theorem execCreditAcquire_inv {c : CtxId} {reg : BitVec 6} (hI : s.Inv pq) : ∃ s1, execCreditAcquire c reg s = .next s1 ∧ s1.Inv pq := by
  unfold execCreditAcquire
  refine ⟨_, rfl, ?_⟩
  repeat' first
    | with_reducible assumption
    | intro x hx
    | with_reducible apply State.byCtx_inv
    | with_reducible apply State.acquire_inv
    | with_reducible apply State.modCtx_inv
    | with_reducible apply Ctx.wr_fits
    | with_reducible apply State.refuseCtx_inv
    | split

theorem execWindowAdmit_inv {c : CtxId} {reg : BitVec 6} (hI : s.Inv pq) : ∃ s1, execWindowAdmit c reg s = .next s1 ∧ s1.Inv pq := by
  unfold execWindowAdmit
  refine ⟨_, rfl, ?_⟩
  repeat' first
    | with_reducible assumption
    | intro x hx
    | with_reducible apply State.byCtx_inv
    | with_reducible apply State.acquire_inv
    | with_reducible apply State.modCtx_inv
    | with_reducible apply Ctx.wr_fits
    | with_reducible apply State.refuseCtx_inv
    | split

theorem execMediaReserve_inv {c : CtxId} {reg : BitVec 6} (hI : s.Inv pq) : ∃ s1, execMediaReserve c reg s = .next s1 ∧ s1.Inv pq := by
  unfold execMediaReserve
  refine ⟨_, rfl, ?_⟩
  repeat' first
    | with_reducible assumption
    | intro x hx
    | with_reducible apply State.byCtx_inv
    | with_reducible apply State.mediaReserve_inv
    | with_reducible apply State.modCtx_inv
    | with_reducible apply Ctx.wr_fits
    | with_reducible apply State.refuseCtx_inv
    | split

theorem execCreditRelease_inv {c : CtxId} {data : DWord} (hI : s.Inv pq) : ∃ s1, execCreditRelease c data s = .next s1 ∧ s1.Inv pq := by
  unfold execCreditRelease
  refine ⟨_, rfl, ?_⟩
  repeat' first
    | with_reducible assumption
    | intro x hx
    | with_reducible apply State.byCtx_inv
    | with_reducible apply State.creditRelease_inv
    | with_reducible apply State.refuseCtx_inv
    | split

theorem execCreditAvailable_inv {c : CtxId} (hI : s.Inv pq) : ∃ s1, execCreditAvailable c s = .next s1 ∧ s1.Inv pq := by
  unfold execCreditAvailable
  refine ⟨_, rfl, ?_⟩
  repeat' first
    | with_reducible assumption
    | with_reducible apply State.raiseLine_inv
    | split

theorem State.auditFix_inv {pool : Nat} {inst : Nat} (hI : s.Inv pq) : (State.auditFix s pool inst).Inv pq := by
  unfold State.auditFix
  repeat' first
    | with_reducible assumption
    | with_reducible apply State.modRlg_inv
    | split

theorem State.auditOne_inv {p : Nat × Nat} (hI : s.Inv pq) : (State.auditOne s p).Inv pq := by
  unfold State.auditOne
  repeat' first
    | with_reducible assumption
    | (extract_lets +onlyGivenNames s1; refine State.Inv.cut (s := s1) (q := pq) ?_ (fun _ => ?_); rotate_left; clear_value s1; rotate_left; dsimp -zeta only [s1]; clear s1)
    | (extract_lets +onlyGivenNames x1; clear_value x1)
    | with_reducible apply State.setReg_inv
    | with_reducible apply State.bump_inv
    | with_reducible apply State.rlgInt_inv
    | with_reducible apply State.event_inv
    | with_reducible apply State.auditFix_inv
    | split

theorem State.audit_inv (hI : s.Inv pq) : (State.audit s).Inv pq := by
  unfold State.audit
  repeat' first
    | with_reducible assumption
    | intro x y hx
    | with_reducible apply State.auditOne_inv
    | with_reducible apply State.bump_inv
    | with_reducible apply State.Inv.foldl

theorem execLedgerAudit_inv (hI : s.Inv pq) : ∃ s1, execLedgerAudit s = .next s1 ∧ s1.Inv pq := by
  unfold execLedgerAudit
  refine ⟨_, rfl, ?_⟩
  repeat' first
    | with_reducible assumption
    | with_reducible apply State.audit_inv
    | split

end Sys2Proof.Machine
end

