-- ==== Sys2Proof/Laws/InvStripe.lean ====
section
/-!
SUPPORT. The operations of Machine/Stripe.lean keep the invariant.
-/
set_option Elab.async false
set_option linter.unusedTactic false
set_option linter.unreachableTactic false
namespace Sys2Proof.Machine

variable {pq : List Instr} {s : State}

theorem State.steInt_inv {r : Side} {i : Nat} (hI : s.Inv pq) : (State.steInt s r i).Inv pq := by
  unfold State.steInt
  repeat' first
    | with_reducible assumption
    | with_reducible apply State.setStat_inv

theorem State.steNote_inv {r : Side} {p : StePort} {reason : Nat} {buf : Nat} (hI : s.Inv pq) : (State.steNote s r p reason buf).Inv pq := by
  unfold State.steNote
  repeat' first
    | with_reducible assumption
    | with_reducible apply State.modSte_inv
    | with_reducible apply State.steInt_inv

theorem State.steRefuse_inv {c : CtxId} {p : StePort} {reason : Nat} {buf : Nat} (hI : s.Inv pq) : (State.steRefuse s c p reason buf).Inv pq := by
  unfold State.steRefuse
  repeat' first
    | with_reducible assumption
    | with_reducible apply State.steNote_inv
    | with_reducible apply State.refuseCtx_inv

theorem State.stePort_inv {c : CtxId} {p : StePort} {f : State → State} (hf : ∀ s, State.Inv pq s → (f s).Inv pq) (hI : s.Inv pq) : (State.stePort s c p f).Inv pq := by
  unfold State.stePort
  repeat' first
    | with_reducible assumption
    | with_reducible apply State.refuseCtx_inv
    | with_reducible apply hf
    | split

theorem State.bufAcquire_inv {c : CtxId} (hI : s.Inv pq) : (State.bufAcquire s c).1.Inv pq := by
  unfold State.bufAcquire
  repeat' first
    | with_reducible assumption
    | (extract_lets +onlyGivenNames x1; clear_value x1)
    | with_reducible apply State.steRefuse_inv
    | with_reducible apply State.bindBuffer_inv
    | with_reducible apply State.setSbuf_inv
    | with_reducible refine OptInv.all ?_ _ (by assumption)
    | split

theorem State.bufRelease_inv {c : CtxId} {data : DWord} (hI : s.Inv pq) : (State.bufRelease s c data).Inv pq := by
  unfold State.bufRelease
  repeat' first
    | with_reducible assumption
    | (extract_lets +onlyGivenNames s1; refine State.Inv.cut (s := s1) (q := pq) ?_ (fun _ => ?_); rotate_left; clear_value s1; rotate_left; dsimp -zeta only [s1]; clear s1)
    | (extract_lets +onlyGivenNames x1; clear_value x1)
    | with_reducible apply State.steRefuse_inv
    | with_reducible apply State.unbindBuffer_inv
    | with_reducible apply State.modSte_inv
    | with_reducible apply State.setSbuf_inv
    | with_reducible apply State.steInt_inv
    | split

theorem State.chunkMove_inv {c : CtxId} {w : DWord} (hI : s.Inv pq) : (State.chunkMove s c w).Inv pq := by
  unfold State.chunkMove
  repeat' first
    | with_reducible assumption
    | (extract_lets +onlyGivenNames x1; clear_value x1)
    | with_reducible apply State.steRefuse_inv
    | with_reducible apply State.modSte_inv
    | split

theorem State.reconStore_inv {r : Side} {b : StripeBuf} {k : Nat} (hI : s.Inv pq) : (State.reconStore s r b k).Inv pq := by
  unfold State.reconStore
  repeat' first
    | with_reducible assumption
    | intro x y hx
    | with_reducible apply State.putPayload_inv
    | with_reducible apply State.Inv.foldl

theorem State.reconDone_inv {r : Side} {n : Nat} {b : StripeBuf} (hI : s.Inv pq) : (State.reconDone s r n b).Inv pq := by
  unfold State.reconDone
  repeat' first
    | with_reducible assumption
    | (extract_lets +onlyGivenNames s1; refine State.Inv.cut (s := s1) (q := pq) ?_ (fun _ => ?_); rotate_left; clear_value s1; rotate_left; dsimp -zeta only [s1]; clear s1)
    | intro x y hx
    | with_reducible apply State.reconStore_inv
    | with_reducible apply State.setSbuf_inv
    | with_reducible apply State.steInt_inv
    | with_reducible apply State.bump_inv
    | with_reducible apply State.raiseLine_inv
    | with_reducible apply State.Inv.foldl
    | split

theorem State.scrubDone_inv {r : Side} {b : StripeBuf} (hI : s.Inv pq) : (State.scrubDone s r b).Inv pq := by
  unfold State.scrubDone
  repeat' first
    | with_reducible assumption
    | (extract_lets +onlyGivenNames s1; refine State.Inv.cut (s := s1) (q := pq) ?_ (fun _ => ?_); rotate_left; clear_value s1; rotate_left; dsimp -zeta only [s1]; clear s1)
    | (extract_lets +onlyGivenNames x1; clear_value x1)
    | with_reducible apply State.modSte_inv
    | with_reducible apply State.setSbuf_inv
    | with_reducible apply State.steInt_inv
    | with_reducible apply State.raiseLine_inv
    | split

theorem State.stripeProgress_inv {r : Side} {n : Nat} (hI : s.Inv pq) : (State.stripeProgress s r n).Inv pq := by
  unfold State.stripeProgress
  repeat' first
    | with_reducible assumption
    | (extract_lets +onlyGivenNames s1; refine State.Inv.cut (s := s1) (q := pq) ?_ (fun _ => ?_); rotate_left; clear_value s1; rotate_left; dsimp -zeta only [s1]; clear s1)
    | (extract_lets +onlyGivenNames x1; clear_value x1)
    | with_reducible apply State.setSbuf_inv
    | with_reducible apply State.raiseLine_inv
    | with_reducible apply State.reconDone_inv
    | with_reducible apply State.scrubDone_inv
    | split

theorem State.landNext_inv {r : Side} (hI : s.Inv pq) : (State.landNext s r).Inv pq := by
  unfold State.landNext
  repeat' first
    | with_reducible assumption
    | with_reducible apply State.modSte_inv
    | with_reducible apply State.dramRead_inv
    | with_reducible apply State.setSbuf_inv
    | with_reducible apply State.bump_inv
    | with_reducible apply State.steInt_inv
    | with_reducible apply State.raiseLine_inv
    | with_reducible apply State.stripeProgress_inv
    | split

theorem State.reconRequest_inv {c : CtxId} {w : DWord} (hI : s.Inv pq) : (State.reconRequest s c w).Inv pq := by
  unfold State.reconRequest
  repeat' first
    | with_reducible assumption
    | (extract_lets +onlyGivenNames x1; clear_value x1)
    | with_reducible apply State.steRefuse_inv
    | with_reducible apply State.setSbuf_inv
    | split

theorem State.scrubStart_inv {c : CtxId} {data : DWord} (hI : s.Inv pq) : (State.scrubStart s c data).Inv pq := by
  unfold State.scrubStart
  repeat' first
    | with_reducible assumption
    | (extract_lets +onlyGivenNames s1; refine State.Inv.cut (s := s1) (q := pq) ?_ (fun _ => ?_); rotate_left; clear_value s1; rotate_left; dsimp -zeta only [s1]; clear s1)
    | (extract_lets +onlyGivenNames x1; clear_value x1)
    | with_reducible apply State.steRefuse_inv
    | with_reducible apply State.setSbuf_inv
    | with_reducible apply State.modSte_inv
    | split

theorem State.scrubPop_inv {r : Side} (hI : s.Inv pq) : (State.scrubPop s r).1.Inv pq := by
  unfold State.scrubPop
  repeat' first
    | with_reducible assumption
    | with_reducible apply State.modSte_inv
    | split

theorem State.scrubPopLo_inv {r : Side} (hI : s.Inv pq) : (State.scrubPopLo s r).1.Inv pq := by
  unfold State.scrubPopLo
  repeat' first
    | with_reducible assumption
    | with_reducible apply State.scrubPop_inv
    | with_reducible apply State.modSte_inv

theorem State.sealBuf_inv {r : Side} {key : Nat} {n : Nat} (hI : s.Inv pq) : (State.sealBuf s r key n).Inv pq := by
  unfold State.sealBuf
  repeat' first
    | with_reducible assumption
    | with_reducible apply State.setSbuf_inv
    | with_reducible apply State.modSte_inv
    | with_reducible apply State.bump_inv

theorem State.ansReg_inv {p : State × Option DWord} {c : CtxId} {reg : BitVec 6} (hp : p.1.Inv pq) :
    (State.ansReg p c reg).Inv pq := by
  unfold State.ansReg
  split
  · exact State.modCtx_inv (fun _ hx => Ctx.wr_fits hx) hp
  · exact hp

theorem execStripeBufferAcquire_inv {c : CtxId} {reg : BitVec 6} (hI : s.Inv pq) : ∃ s1, execStripeBufferAcquire c reg s = .next s1 ∧ s1.Inv pq := by
  unfold execStripeBufferAcquire
  refine ⟨_, rfl, ?_⟩
  repeat' first
    | with_reducible assumption
    | intro x hx
    | with_reducible apply State.byCtx_inv
    | with_reducible apply State.ansReg_inv
    | with_reducible apply State.bufAcquire_inv
    | with_reducible apply State.refuseCtx_inv
    | split

theorem execStripeBufferRelease_inv {c : CtxId} {data : DWord} (hI : s.Inv pq) : ∃ s1, execStripeBufferRelease c data s = .next s1 ∧ s1.Inv pq := by
  unfold execStripeBufferRelease
  refine ⟨_, rfl, ?_⟩
  repeat' first
    | with_reducible assumption
    | intro x hx
    | with_reducible apply State.byCtx_inv
    | with_reducible apply State.stePort_inv
    | with_reducible apply State.bufRelease_inv

theorem execChunkMove_inv {c : CtxId} {w : DWord} (hI : s.Inv pq) : ∃ s1, execChunkMove c w s = .next s1 ∧ s1.Inv pq := by
  unfold execChunkMove
  refine ⟨_, rfl, ?_⟩
  repeat' first
    | with_reducible assumption
    | intro x hx
    | with_reducible apply State.byCtx_inv
    | with_reducible apply State.stePort_inv
    | with_reducible apply State.chunkMove_inv

theorem execSectorLanding_inv {r : Side} (hI : s.Inv pq) : ∃ s1, execSectorLanding r s = .next s1 ∧ s1.Inv pq := by
  unfold execSectorLanding
  refine ⟨_, rfl, ?_⟩
  repeat' first
    | with_reducible assumption
    | with_reducible apply State.landNext_inv
    | split

theorem execReconstructionRequest_inv {c : CtxId} {w : DWord} (hI : s.Inv pq) : ∃ s1, execReconstructionRequest c w s = .next s1 ∧ s1.Inv pq := by
  unfold execReconstructionRequest
  refine ⟨_, rfl, ?_⟩
  repeat' first
    | with_reducible assumption
    | intro x hx
    | with_reducible apply State.byCtx_inv
    | with_reducible apply State.stePort_inv
    | with_reducible apply State.reconRequest_inv

theorem execScrubCheck_inv {c : CtxId} {data : DWord} (hI : s.Inv pq) : ∃ s1, execScrubCheck c data s = .next s1 ∧ s1.Inv pq := by
  unfold execScrubCheck
  refine ⟨_, rfl, ?_⟩
  repeat' first
    | with_reducible assumption
    | intro x hx
    | with_reducible apply State.byCtx_inv
    | with_reducible apply State.stePort_inv
    | with_reducible apply State.scrubStart_inv

theorem execScrubResultPop_inv {c : CtxId} {reg : BitVec 6} (hI : s.Inv pq) : ∃ s1, execScrubResultPop c reg s = .next s1 ∧ s1.Inv pq := by
  unfold execScrubResultPop
  refine ⟨_, rfl, ?_⟩
  repeat' first
    | with_reducible assumption
    | intro x hx
    | with_reducible apply State.byCtx_inv
    | with_reducible apply State.scrubPop_inv
    | with_reducible apply State.modCtx_inv
    | with_reducible apply Ctx.wr_fits
    | with_reducible apply State.refuseCtx_inv
    | split

end Sys2Proof.Machine
end

