-- ==== Sys2Proof/Laws/InvHostOps.lean ====
section
/-!
SUPPORT. The operations of Machine/HostOps.lean keep the invariant.
-/
set_option Elab.async false
set_option linter.unusedTactic false
set_option linter.unreachableTactic false
namespace Sys2Proof.Machine

variable {pq : List Instr} {s : State}

theorem State.nveInt_inv {i : Nat} (hI : s.Inv pq) : (State.nveInt s i).Inv pq := by
  unfold State.nveInt
  repeat' first
    | with_reducible assumption
    | with_reducible apply State.setStat_inv

theorem State.hdgInt_inv {i : Nat} (hI : s.Inv pq) : (State.hdgInt s i).Inv pq := by
  unfold State.hdgInt
  repeat' first
    | with_reducible assumption
    | with_reducible apply State.setStat_inv

theorem State.setNs_inv {n : Nat} {x : Option Ns} (hI : s.Inv pq) : (State.setNs s n x).Inv pq := by
  unfold State.setNs
  repeat' first
    | with_reducible assumption
    | with_reducible apply State.modNve_inv

theorem State.putCfg_inv {n : Nat} {v : Word} (hI : s.Inv pq) : (State.putCfg s n v).Inv pq := by
  unfold State.putCfg
  repeat' first
    | with_reducible assumption
    | (extract_lets +onlyGivenNames s1; refine State.Inv.cut (s := s1) (q := pq) ?_ (fun _ => ?_); rotate_left; clear_value s1; rotate_left; dsimp -zeta only [s1]; clear s1)
    | with_reducible apply State.modNve_inv
    | with_reducible apply State.setNs_inv
    | split

theorem State.setCtrl_inv {n : Nat} {c : Ctrl} (hI : s.Inv pq) : (State.setCtrl s n c).Inv pq := by
  unfold State.setCtrl
  repeat' first
    | with_reducible assumption
    | with_reducible apply State.modNve_inv

theorem State.modCtrl_inv {n : Nat} {f : Ctrl → Ctrl} (hI : s.Inv pq) : (State.modCtrl s n f).Inv pq := by
  unfold State.modCtrl
  repeat' first
    | with_reducible assumption
    | with_reducible apply State.setCtrl_inv

theorem State.modCmd_inv {n : Nat} {f : Cmd → Cmd} (hI : s.Inv pq) : (State.modCmd s n f).Inv pq := by
  unfold State.modCmd
  repeat' first
    | with_reducible assumption
    | with_reducible apply State.modNve_inv

theorem State.setHent_inv {e : Nat} {x : Option HEntry} (hI : s.Inv pq) : (State.setHent s e x).Inv pq := by
  unfold State.setHent
  repeat' first
    | with_reducible assumption
    | with_reducible apply State.modHdg_inv

theorem State.waitOn_inv {c : CtxId} {bs : List (Nat × HEntry)} (hI : s.Inv pq) : (State.waitOn s c bs).Inv pq := by
  unfold State.waitOn
  repeat' first
    | with_reducible assumption
    | with_reducible apply State.modHdg_inv

theorem State.hdgWake_inv {e : Nat} (hI : s.Inv pq) : (State.hdgWake s e).Inv pq := by
  unfold State.hdgWake
  repeat' first
    | with_reducible assumption
    | intro x y hx
    | with_reducible apply State.modHdg_inv
    | with_reducible apply State.raiseLine_inv
    | with_reducible apply State.Inv.foldl

theorem State.takeHent_inv {n : Nat} {kind : HKind} {ns : Nat} {slba : Nat} {count : Nat} {asn : DWord} (hI : s.Inv pq) : (State.takeHent s n kind ns slba count asn).Inv pq := by
  unfold State.takeHent
  repeat' first
    | with_reducible assumption
    | with_reducible apply State.hdgInt_inv
    | with_reducible apply State.modCmd_inv
    | with_reducible apply State.hdgWake_inv
    | with_reducible apply State.setHent_inv
    | with_reducible apply State.modHdg_inv
    | split

theorem State.dropHent_inv {c : Cmd} (hI : s.Inv pq) : (State.dropHent s c).Inv pq := by
  unfold State.dropHent
  repeat' first
    | with_reducible assumption
    | with_reducible apply State.setHent_inv
    | split

theorem State.hedgeLookup_inv {c : CtxId} (hI : s.Inv pq) : (State.hedgeLookup s c).1.Inv pq := by
  unfold State.hedgeLookup
  repeat' first
    | with_reducible assumption
    | with_reducible apply State.hdgInt_inv
    | with_reducible apply State.bump_inv
    | with_reducible apply State.waitOn_inv
    | split

theorem State.hedgeRemove_inv {c : CtxId} {data : DWord} (hI : s.Inv pq) : (State.hedgeRemove s c data).Inv pq := by
  unfold State.hedgeRemove
  repeat' first
    | with_reducible assumption
    | (extract_lets +onlyGivenNames x1; clear_value x1)
    | with_reducible apply State.hdgInt_inv
    | with_reducible apply State.refuseCtx_inv
    | with_reducible apply State.setHent_inv
    | with_reducible apply State.modCmd_inv
    | split

theorem State.postCpl_inv {c : Cmd} {status : Nat} {dw0 : Nat} {dw1 : Nat} (hI : s.Inv pq) : (State.postCpl s c status dw0 dw1).Inv pq := by
  unfold State.postCpl
  repeat' first
    | with_reducible assumption
    | with_reducible apply State.modCtrl_inv
    | with_reducible apply State.modNve_inv
    | with_reducible apply State.bump_inv
    | split

theorem State.finish_inv {c : Cmd} (hI : s.Inv pq) : (State.finish s c).Inv pq := by
  unfold State.finish
  repeat' first
    | with_reducible assumption
    | intro x hx
    | with_reducible apply State.dropHent_inv
    | with_reducible apply State.modCtx_inv
    | with_reducible apply State.modNve_inv
    | exact Ctx.Fits.keep hx rfl rfl rfl rfl rfl
    | split

theorem State.complete_inv {c : Cmd} {status : Nat} {dw0 : Nat} {dw1 : Nat} (hI : s.Inv pq) : (State.complete s c status dw0 dw1).Inv pq := by
  unfold State.complete
  repeat' first
    | with_reducible assumption
    | (extract_lets +onlyGivenNames s1; refine State.Inv.cut (s := s1) (q := pq) ?_ (fun _ => ?_); rotate_left; clear_value s1; rotate_left; dsimp -zeta only [s1]; clear s1)
    | with_reducible apply State.postCpl_inv
    | with_reducible apply State.finish_inv
    | with_reducible apply State.bump_inv
    | split

theorem State.completeOk_inv {c : Cmd} (hI : s.Inv pq) : (State.completeOk s c).Inv pq := by
  unfold State.completeOk
  repeat' first
    | with_reducible assumption
    | with_reducible apply State.complete_inv

theorem State.drainStage_inv : ∀ {k : Nat} {s : State} {n d : Nat}, s.Inv pq → (State.drainStage k s n d).Inv pq
  | 0, _, _, _, h => h
  | k + 1, s, n, d, h => by
    unfold State.drainStage
    split
    · split
      · exact State.drainStage_inv (State.modCtrl_inv (State.modNve_inv h))
      · exact h
    · exact h

theorem State.asyncTo_inv {k : Nat} {f : Ctrl → Bool} (hI : s.Inv pq) : (State.asyncTo s k f).Inv pq := by
  unfold State.asyncTo
  repeat' first
    | with_reducible assumption
    | intro x y hx
    | with_reducible apply State.modCtrl_inv
    | with_reducible apply State.Inv.foldl
    | split

theorem State.setAwp_inv {n : Nat} {z : Nat} {v : Nat} (hI : s.Inv pq) : (State.setAwp s n z v).Inv pq := by
  unfold State.setAwp
  repeat' first
    | with_reducible assumption
    | with_reducible apply State.modNve_inv

theorem State.endUncommitted_inv {c : Cmd} {status : Nat} (hI : s.Inv pq) : (State.endUncommitted s c status).Inv pq := by
  unfold State.endUncommitted
  repeat' first
    | with_reducible assumption
    | (extract_lets +onlyGivenNames s1; refine State.Inv.cut (s := s1) (q := pq) ?_ (fun _ => ?_); rotate_left; clear_value s1; rotate_left; dsimp -zeta only [s1]; clear s1)
    | (extract_lets +onlyGivenNames x1; clear_value x1)
    | intro x y hx
    | with_reducible apply State.complete_inv
    | with_reducible apply State.setAwp_inv
    | with_reducible apply State.Inv.foldl
    | split

end Sys2Proof.Machine
end

