-- ==== Sys2Proof/Laws/InvCairn.lean ====
section
/-!
SUPPORT. The operations of Machine/Cairn.lean keep the invariant.
-/
set_option Elab.async false
set_option linter.unusedTactic false
set_option linter.unreachableTactic false
namespace Sys2Proof.Machine

variable {pq : List Instr} {s : State}

theorem State.crnInt_inv {r : Side} {i : Nat} (hI : s.Inv pq) : (State.crnInt s r i).Inv pq := by
  unfold State.crnInt
  repeat' first
    | with_reducible assumption
    | with_reducible apply State.setStat_inv

theorem State.putBank_inv {r : Side} {n : Nat} {w : BitVec 512} (hI : s.Inv pq) : (State.putBank s r n w).Inv pq := by
  unfold State.putBank
  repeat' first
    | with_reducible assumption
    | with_reducible apply State.modCrn_inv

theorem State.putLine_inv {r : Side} {mirror : Bool} {n : Nat} {w : BitVec 512} (hI : s.Inv pq) : (State.putLine s r mirror n w).Inv pq := by
  unfold State.putLine
  repeat' first
    | with_reducible assumption
    | (extract_lets +onlyGivenNames f1; refine State.Inv.fnCut2 (f := f1) (q := pq) ?_ (fun hf1 => ?_); rotate_left; clear_value f1; rotate_left; dsimp -zeta only [f1]; clear f1)
    | with_reducible apply hf1
    | intro x y hx
    | with_reducible apply State.putBank_inv
    | split

theorem State.crnLose_inv {r : Side} (hI : s.Inv pq) : (State.crnLose s r).Inv pq := by
  unfold State.crnLose
  repeat' first
    | with_reducible assumption
    | with_reducible apply State.modCrn_inv
    | with_reducible apply State.crnInt_inv
    | with_reducible apply State.event_inv
    | split

theorem State.crnMarks_inv {fill0 : Nat} {free0 : Nat} (hI : s.Inv pq) : (State.crnMarks s fill0 free0).Inv pq := by
  unfold State.crnMarks
  repeat' first
    | with_reducible assumption
    | (extract_lets +onlyGivenNames s1; refine State.Inv.cut (s := s1) (q := pq) ?_ (fun _ => ?_); rotate_left; clear_value s1; rotate_left; dsimp -zeta only [s1]; clear s1)
    | intro x y hx
    | with_reducible apply State.crnInt_inv
    | with_reducible apply State.raiseLine_inv
    | with_reducible apply State.Inv.foldl
    | split

theorem State.crnWrite_inv {c : CtxId} {typ : Nat} {body : Nat} (hI : s.Inv pq) : (State.crnWrite s c typ body).Inv pq := by
  unfold State.crnWrite
  repeat' first
    | with_reducible assumption
    | with_reducible apply State.putLine_inv
    | with_reducible apply State.modCrn_inv
    | with_reducible apply State.crnMarks_inv

theorem State.libAppend_inv {r : Side} {typ : Nat} (hI : s.Inv pq) : (State.libAppend s r typ).Inv pq := by
  unfold State.libAppend
  repeat' first
    | with_reducible assumption
    | with_reducible apply State.crnWrite_inv
    | with_reducible apply State.freeNext_inv
    | with_reducible apply State.crnInt_inv
    | split

theorem State.putSlot_inv {slot : Nat} {bs : List Byte} (hI : s.Inv pq) : (State.putSlot s slot bs).Inv pq := by
  unfold State.putSlot
  repeat' first
    | with_reducible assumption
    | (extract_lets +onlyGivenNames f1; refine State.Inv.fnCut2 (f := f1) (q := pq) ?_ (fun hf1 => ?_); rotate_left; clear_value f1; rotate_left; dsimp -zeta only [f1]; clear f1)
    | (extract_lets +onlyGivenNames x1; clear_value x1)
    | with_reducible apply hf1
    | intro x y hx
    | intro x hx
    | with_reducible apply State.modDram_inv
    | exact DramCh.write_wf hx
    | split

theorem State.putPiece_inv {c : Cmd} {lba : Nat} {n : Nat} {slot : Nat} (hI : s.Inv pq) : (State.putPiece s c lba n slot).Inv pq := by
  unfold State.putPiece
  repeat' first
    | with_reducible assumption
    | intro x y hx
    | with_reducible apply State.putSlot_inv
    | with_reducible apply State.freeNext_inv
    | with_reducible apply State.Inv.foldl

theorem State.hwpTo_inv {ns : Nat} {lba : Nat} (hI : s.Inv pq) : (State.hwpTo s ns lba).Inv pq := by
  unfold State.hwpTo
  repeat' first
    | with_reducible assumption
    | with_reducible apply State.ztbDo_inv
    | split

theorem State.addPiece_inv {p : Piece} (hI : s.Inv pq) : (State.addPiece s p).Inv pq := by
  unfold State.addPiece
  repeat' first
    | with_reducible assumption
    | (extract_lets +onlyGivenNames s1; refine State.Inv.cut (s := s1) (q := pq) ?_ (fun _ => ?_); rotate_left; clear_value s1; rotate_left; dsimp -zeta only [s1]; clear s1)
    | with_reducible apply State.modWin_inv
    | with_reducible apply State.deferCover_inv
    | with_reducible apply State.hwpTo_inv
    | with_reducible apply State.poisonClear_inv
    | split

theorem State.windowCommit_inv {c : Option Cmd} {body : Nat} (hI : s.Inv pq) : (State.windowCommit s c body).Inv pq := by
  unfold State.windowCommit
  repeat' first
    | with_reducible assumption
    | (extract_lets +onlyGivenNames s1; refine State.Inv.cut (s := s1) (q := pq) ?_ (fun _ => ?_); rotate_left; clear_value s1; rotate_left; dsimp -zeta only [s1]; clear s1)
    | (extract_lets +onlyGivenNames x1; clear_value x1)
    | with_reducible apply State.modWin_inv
    | with_reducible apply State.addPiece_inv
    | with_reducible apply State.putPiece_inv
    | with_reducible apply State.modCmd_inv
    | with_reducible apply State.setHent_inv
    | split

theorem State.windowRelease_inv {first : Nat} {n : Nat} (hI : s.Inv pq) : (State.windowRelease s first n).Inv pq := by
  unfold State.windowRelease
  repeat' first
    | with_reducible assumption
    | with_reducible apply State.modWin_inv
    | with_reducible apply State.winReturn_inv

theorem State.windowRereleased_inv {first : Nat} {n : Nat} (hI : s.Inv pq) : (State.windowRereleased s first n).Inv pq := by
  unfold State.windowRereleased
  repeat' first
    | with_reducible assumption
    | with_reducible apply State.modWin_inv

theorem State.unstage_inv {cs : List StgCopy} (hI : s.Inv pq) : (State.unstage s cs).Inv pq := by
  unfold State.unstage
  repeat' first
    | with_reducible assumption
    | (extract_lets +onlyGivenNames s1; refine State.Inv.cut (s := s1) (q := pq) ?_ (fun _ => ?_); rotate_left; clear_value s1; rotate_left; dsimp -zeta only [s1]; clear s1)
    | (intro x y hx; beta_reduce)
    | with_reducible apply State.stgAdd_inv
    | with_reducible apply State.modWin_inv
    | with_reducible apply State.Inv.foldl

theorem State.onMedia_inv {body : Nat} (hI : s.Inv pq) : (State.onMedia s body).Inv pq := by
  unfold State.onMedia
  repeat' first
    | with_reducible assumption
    | (extract_lets +onlyGivenNames s1; refine State.Inv.cut (s := s1) (q := pq) ?_ (fun _ => ?_); rotate_left; clear_value s1; rotate_left; dsimp -zeta only [s1]; clear s1)
    | (extract_lets +onlyGivenNames x1; clear_value x1)
    | with_reducible apply State.modWin_inv
    | with_reducible apply State.escReturn_inv
    | with_reducible apply State.unstage_inv
    | with_reducible apply State.libAppend_inv
    | split

theorem State.stageRecord_inv {body : Nat} (hI : s.Inv pq) : (State.stageRecord s body).Inv pq := by
  unfold State.stageRecord
  repeat' first
    | with_reducible assumption
    | (extract_lets +onlyGivenNames x1; clear_value x1)
    | with_reducible apply State.modWin_inv

theorem State.mapRecord_inv {body : Nat} (hI : s.Inv pq) : (State.mapRecord s body).Inv pq := by
  unfold State.mapRecord
  repeat' first
    | with_reducible assumption
    | (extract_lets +onlyGivenNames x1; clear_value x1)
    | with_reducible apply State.modWin_inv

theorem State.recordEffect_inv {typ : Nat} {body : Nat} {k : Option Cmd} (hI : s.Inv pq) : (State.recordEffect s typ body k).Inv pq := by
  unfold State.recordEffect
  repeat' first
    | with_reducible assumption
    | (extract_lets +onlyGivenNames s1; refine State.Inv.cut (s := s1) (q := pq) ?_ (fun _ => ?_); rotate_left; clear_value s1; rotate_left; dsimp -zeta only [s1]; clear s1)
    | with_reducible apply State.onMedia_inv
    | with_reducible apply State.windowCommit_inv
    | with_reducible apply State.windowRelease_inv
    | with_reducible apply State.mapRecord_inv
    | with_reducible apply State.modCmd_inv
    | with_reducible apply State.stageRecord_inv
    | with_reducible apply State.modCrn_inv
    | with_reducible apply State.event_inv
    | with_reducible apply State.freeNext_inv
    | split

theorem State.libCompact_inv (hI : s.Inv pq) : (State.libCompact s).Inv pq := by
  unfold State.libCompact
  repeat' first
    | with_reducible assumption
    | (extract_lets +onlyGivenNames x1; clear_value x1)
    | with_reducible apply State.crnWrite_inv
    | with_reducible apply State.recordEffect_inv
    | with_reducible apply State.crnInt_inv
    | split

theorem State.plainAppend_inv {c : CtxId} {typ : Nat} {body : Nat} (hI : s.Inv pq) : (State.plainAppend s c typ body).Inv pq := by
  unfold State.plainAppend
  repeat' first
    | with_reducible assumption
    | (extract_lets +onlyGivenNames s1; refine State.Inv.cut (s := s1) (q := pq) ?_ (fun _ => ?_); rotate_left; clear_value s1; rotate_left; dsimp -zeta only [s1]; clear s1)
    | (extract_lets +onlyGivenNames x1; clear_value x1)
    | with_reducible apply State.crnInt_inv
    | with_reducible apply State.refuseCtx_inv
    | with_reducible apply State.raiseLine_inv
    | with_reducible apply State.waitOn_inv
    | with_reducible apply State.crnWrite_inv
    | with_reducible apply State.recordEffect_inv
    | split

theorem State.sealAppend_inv {c : CtxId} {n : Nat} {body : Nat} (hI : s.Inv pq) : (State.sealAppend s c n body).Inv pq := by
  unfold State.sealAppend
  repeat' first
    | with_reducible assumption
    | (extract_lets +onlyGivenNames s1; refine State.Inv.cut (s := s1) (q := pq) ?_ (fun _ => ?_); rotate_left; clear_value s1; rotate_left; dsimp -zeta only [s1]; clear s1)
    | (extract_lets +onlyGivenNames x1; clear_value x1)
    | (intro x hx; beta_reduce)
    | with_reducible apply State.steRefuse_inv
    | with_reducible apply State.sealBuf_inv
    | with_reducible apply State.crnWrite_inv
    | with_reducible apply State.escSeal_inv
    | with_reducible apply State.modCtx_inv
    | with_reducible apply Ctx.stage_fits
    | split

theorem State.crnAppend_inv {c : CtxId} (hI : s.Inv pq) : (State.crnAppend s c).Inv pq := by
  unfold State.crnAppend
  repeat' first
    | with_reducible assumption
    | (extract_lets +onlyGivenNames x1; clear_value x1)
    | with_reducible apply State.refuseCtx_inv
    | with_reducible apply State.crnInt_inv
    | with_reducible apply State.sealAppend_inv
    | with_reducible apply State.plainAppend_inv
    | split

theorem execCairnAppend_inv {c : CtxId} (hI : s.Inv pq) : ∃ s1, execCairnAppend c s = .next s1 ∧ s1.Inv pq := by
  unfold execCairnAppend
  refine ⟨_, rfl, ?_⟩
  repeat' first
    | with_reducible assumption
    | intro x hx
    | with_reducible apply State.byCtx_inv
    | with_reducible apply State.crnAppend_inv

theorem execCairnBankLoss_inv {r : Side} (hI : s.Inv pq) : ∃ s1, execCairnBankLoss r s = .next s1 ∧ s1.Inv pq := by
  unfold execCairnBankLoss
  refine ⟨_, rfl, ?_⟩
  repeat' first
    | with_reducible assumption
    | with_reducible apply State.crnLose_inv
    | split

theorem State.resyncStart_inv {r : Side} (hI : s.Inv pq) : (State.resyncStart s r).Inv pq := by
  unfold State.resyncStart
  repeat' first
    | with_reducible assumption
    | with_reducible apply State.modCrn_inv
    | split

theorem execCairnResync_inv {x : Accessor} (hI : s.Inv pq) : ∃ s1, execCairnResync x s = .next s1 ∧ s1.Inv pq := by
  unfold execCairnResync
  refine ⟨_, rfl, ?_⟩
  repeat' first
    | with_reducible assumption
    | with_reducible apply State.resyncStart_inv
    | split

theorem State.resyncEnd_inv {r : Side} (hI : s.Inv pq) : (State.resyncEnd s r).Inv pq := by
  unfold State.resyncEnd
  repeat' first
    | with_reducible assumption
    | with_reducible apply State.modCrn_inv
    | with_reducible apply State.crnInt_inv
    | split

theorem execCairnResyncDone_inv {r : Side} (hI : s.Inv pq) : ∃ s1, execCairnResyncDone r s = .next s1 ∧ s1.Inv pq := by
  unfold execCairnResyncDone
  refine ⟨_, rfl, ?_⟩
  repeat' first
    | with_reducible assumption
    | with_reducible apply State.resyncEnd_inv

theorem State.poisonAdd_inv {x : Side} {ns : Nat} {lba : Nat} {n : Nat} (hI : s.Inv pq) : (State.poisonAdd s x ns lba n).Inv pq := by
  unfold State.poisonAdd
  repeat' first
    | with_reducible assumption
    | with_reducible apply State.modRedun_inv
    | with_reducible apply State.libAppend_inv
    | with_reducible apply State.putZent_inv
    | with_reducible apply State.bumpGen_inv
    | split

theorem State.deferSay_inv {d : Deferred} {host : BitVec 128} (hI : s.Inv pq) : (State.deferSay s d host).Inv pq := by
  unfold State.deferSay
  repeat' first
    | with_reducible assumption
    | (extract_lets +onlyGivenNames s1; refine State.Inv.cut (s := s1) (q := pq) ?_ (fun _ => ?_); rotate_left; clear_value s1; rotate_left; dsimp -zeta only [s1]; clear s1)
    | with_reducible apply State.event_inv
    | with_reducible apply State.asyncTo_inv

theorem State.deferRecord_inv {p : Piece} {d : Deferred} (hI : s.Inv pq) : (State.deferRecord s p d).Inv pq := by
  unfold State.deferRecord
  repeat' first
    | with_reducible assumption
    | (extract_lets +onlyGivenNames s1; refine State.Inv.cut (s := s1) (q := pq) ?_ (fun _ => ?_); rotate_left; clear_value s1; rotate_left; dsimp -zeta only [s1]; clear s1)
    | with_reducible apply State.libAppend_inv
    | with_reducible apply State.poisonAdd_inv
    | with_reducible apply State.modWin_inv
    | split

theorem State.deferPiece_inv {p : Piece} {cause : Nat} (hI : s.Inv pq) : (State.deferPiece s p cause).Inv pq := by
  unfold State.deferPiece
  repeat' first
    | with_reducible assumption
    | with_reducible apply State.deferRecord_inv
    | with_reducible apply State.deferSay_inv

theorem State.deferSilent_inv {p : Piece} {cause : Nat} (hI : s.Inv pq) : (State.deferSilent s p cause).Inv pq := by
  unfold State.deferSilent
  repeat' first
    | with_reducible assumption
    | with_reducible apply State.deferRecord_inv
    | with_reducible apply State.modWin_inv

theorem State.saySilent_inv (hI : s.Inv pq) : (State.saySilent s).Inv pq := by
  unfold State.saySilent
  repeat' first
    | with_reducible assumption
    | (extract_lets +onlyGivenNames x1; clear_value x1)
    | (intro x y hx; beta_reduce)
    | with_reducible apply State.deferSay_inv
    | with_reducible apply State.modWin_inv
    | with_reducible apply State.Inv.foldl

theorem execDeferredError_inv {asn : DWord} {lba : Nat} {cause : Nat} (hI : s.Inv pq) : ∃ s1, execDeferredError asn lba cause s = .next s1 ∧ s1.Inv pq := by
  unfold execDeferredError
  refine ⟨_, rfl, ?_⟩
  repeat' first
    | with_reducible assumption
    | with_reducible apply State.deferPiece_inv
    | split

theorem State.pieceOut_inv {p : Piece} (hI : s.Inv pq) : (State.pieceOut s p).Inv pq := by
  unfold State.pieceOut
  repeat' first
    | with_reducible assumption
    | (extract_lets +onlyGivenNames s1; refine State.Inv.cut (s := s1) (q := pq) ?_ (fun _ => ?_); rotate_left; clear_value s1; rotate_left; dsimp -zeta only [s1]; clear s1)
    | with_reducible apply State.crnWrite_inv
    | with_reducible apply State.modWin_inv
    | with_reducible apply State.winReturn_inv

theorem State.pfAt_inv {n : Nat} (hI : s.Inv pq) : (State.pfAt s n).Inv pq := by
  unfold State.pfAt
  repeat' first
    | with_reducible assumption
    | with_reducible apply State.modMtr_inv

theorem State.flushSeal_inv (hI : s.Inv pq) : (State.flushSeal s).Inv pq := by
  unfold State.flushSeal
  repeat' first
    | with_reducible assumption
    | with_reducible apply State.libAppend_inv
    | with_reducible apply State.modWin_inv
    | with_reducible apply State.pfAt_inv
    | split

theorem State.abandonWrites_inv (hI : s.Inv pq) : (State.abandonWrites s).Inv pq := by
  unfold State.abandonWrites
  repeat' first
    | with_reducible assumption
    | (intro x y hx; beta_reduce)
    | with_reducible apply State.forceLow_inv
    | with_reducible apply State.Inv.foldl
    | split

theorem State.enterGen_inv (hI : s.Inv pq) : (State.enterGen s).Inv pq := by
  unfold State.enterGen
  repeat' first
    | with_reducible assumption
    | (extract_lets +onlyGivenNames s1; refine State.Inv.cut (s := s1) (q := pq) ?_ (fun _ => ?_); rotate_left; clear_value s1; rotate_left; dsimp -zeta only [s1]; clear s1)
    | (extract_lets +onlyGivenNames x1; clear_value x1)
    | with_reducible apply State.dropWindow_inv
    | with_reducible apply State.abandonWrites_inv
    | with_reducible apply State.modMtr_inv
    | with_reducible apply State.modWin_inv
    | with_reducible apply State.mtrInt_inv
    | with_reducible apply State.setSp_inv
    | with_reducible apply State.flushSeal_inv
    | with_reducible apply State.calAbortAll_inv
    | with_reducible apply State.genParked_inv
    | split

theorem State.powerLoss_inv {pfail : Bool} (hI : s.Inv pq) : (State.powerLoss s pfail).Inv pq := by
  unfold State.powerLoss
  repeat' first
    | with_reducible assumption
    | (extract_lets +onlyGivenNames s1; refine State.Inv.cut (s := s1) (q := pq) ?_ (fun _ => ?_); rotate_left; clear_value s1; rotate_left; dsimp -zeta only [s1]; clear s1)
    | (extract_lets +onlyGivenNames x1; clear_value x1)
    | with_reducible apply State.setStat_inv
    | with_reducible apply State.modMtr_inv
    | with_reducible apply State.enterGen_inv
    | split

theorem execPowerLoss_inv {pfail : Bool} {vmot : BitVec 16} (hI : s.Inv pq) : ∃ s1, execPowerLoss pfail vmot s = .next s1 ∧ s1.Inv pq := by
  unfold execPowerLoss
  refine ⟨_, rfl, ?_⟩
  repeat' first
    | with_reducible assumption
    | with_reducible apply State.powerLoss_inv
    | split

theorem State.flushEnd_inv {x : Side} {lost : List Piece} (hI : s.Inv pq) : (State.flushEnd s x lost).Inv pq := by
  unfold State.flushEnd
  repeat' first
    | with_reducible assumption
    | (extract_lets +onlyGivenNames s1; refine State.Inv.cut (s := s1) (q := pq) ?_ (fun _ => ?_); rotate_left; clear_value s1; rotate_left; dsimp -zeta only [s1]; clear s1)
    | (extract_lets +onlyGivenNames x1; clear_value x1)
    | (intro x y hx; beta_reduce)
    | with_reducible apply State.modWin_inv
    | with_reducible apply State.deferPiece_inv
    | with_reducible apply State.deferSilent_inv
    | with_reducible apply State.flushSeal_inv
    | with_reducible apply State.Inv.foldl

theorem execEmergencyFlush_inv {x : Side} {n : Nat} (hI : s.Inv pq) : ∃ s1, execEmergencyFlush x n s = .next s1 ∧ s1.Inv pq := by
  unfold execEmergencyFlush
  refine ⟨_, rfl, ?_⟩
  repeat' first
    | with_reducible assumption
    | (extract_lets +onlyGivenNames s1; refine State.Inv.cut (s := s1) (q := pq) ?_ (fun _ => ?_); rotate_left; clear_value s1; rotate_left; dsimp -zeta only [s1]; clear s1)
    | (extract_lets +onlyGivenNames x1; clear_value x1)
    | with_reducible apply State.modWin_inv
    | with_reducible apply State.pfAt_inv
    | with_reducible apply State.flushEnd_inv
    | split

theorem execFlushSpeedStop_inv {x : Side} (hI : s.Inv pq) : ∃ s1, execFlushSpeedStop x s = .next s1 ∧ s1.Inv pq := by
  unfold execFlushSpeedStop
  refine ⟨_, rfl, ?_⟩
  repeat' first
    | with_reducible assumption
    | (extract_lets +onlyGivenNames x1; clear_value x1)
    | with_reducible apply State.modWin_inv
    | with_reducible apply State.flushEnd_inv
    | split

theorem State.mergeBanks_inv (hI : s.Inv pq) : (State.mergeBanks s).Inv pq := by
  unfold State.mergeBanks
  repeat' first
    | with_reducible assumption
    | with_reducible apply State.modCrn_inv

theorem State.replayHalt_inv {code : BitVec 16} {p : Nat} (hI : s.Inv pq) : (State.replayHalt s code p).Inv pq := by
  unfold State.replayHalt
  repeat' first
    | with_reducible assumption
    | intro x y hx
    | with_reducible apply State.modCrn_inv
    | with_reducible apply State.event_inv
    | with_reducible apply State.modNve_inv
    | with_reducible apply State.Inv.foldl
    | split

theorem State.loadImage_inv {img : ImageIn} (hI : s.Inv pq) : (State.loadImage s img).Inv pq := by
  unfold State.loadImage
  repeat' first
    | with_reducible assumption
    | (extract_lets +onlyGivenNames s1; refine State.Inv.cut (s := s1) (q := pq) ?_ (fun _ => ?_); rotate_left; clear_value s1; rotate_left; dsimp -zeta only [s1]; clear s1)
    | intro x y hx
    | with_reducible apply State.putZent_inv
    | with_reducible apply State.modMember_inv
    | with_reducible apply State.modRedun_inv
    | with_reducible apply State.modWin_inv
    | with_reducible apply State.Inv.foldl

theorem State.resumeMove_inv {x : Side} (hI : s.Inv pq) : (State.resumeMove s x).Inv pq := by
  unfold State.resumeMove
  repeat' first
    | with_reducible assumption
    | (extract_lets +onlyGivenNames x1; clear_value x1)
    | with_reducible apply State.modRedun_inv
    | with_reducible apply State.freeNext_inv
    | split

theorem State.loadMove_inv {x : Side} {m : Option RebuildIn} (hI : s.Inv pq) : (State.loadMove s x m).Inv pq := by
  unfold State.loadMove
  repeat' first
    | with_reducible assumption
    | with_reducible apply State.modRedun_inv
    | with_reducible apply State.resumeMove_inv
    | split

theorem State.replayLine_inv {w : BitVec 512} (hI : s.Inv pq) : (State.replayLine s w).Inv pq := by
  unfold State.replayLine
  repeat' first
    | with_reducible assumption
    | (extract_lets +onlyGivenNames x1; clear_value x1)
    | with_reducible apply State.modWin_inv
    | with_reducible apply State.windowCommit_inv
    | with_reducible apply State.windowRereleased_inv
    | split

theorem OptInv.foldl {α : Type} {f : Option State → α → Option State} (hf : ∀ o a, OptInv pq o → OptInv pq (f o a)) :
    ∀ (l : List α) {o : Option State}, OptInv pq o → OptInv pq (l.foldl f o)
  | [], _, h => h
  | a :: t, _, h => OptInv.foldl hf t (hf _ a h)

theorem State.pieceBack_inv {x : Side} {p : Piece} {l : List (Option (List Byte))} (hI : s.Inv pq) :
    OptInv pq (State.pieceBack s x p l) := by
  unfold State.pieceBack
  refine OptInv.foldl (fun o a ho => ?_) _ (OptInv.some hI)
  split
  · split
    · exact OptInv.some (State.putSlot_inv (ho.all _ rfl))
    · exact OptInv.none
  · exact OptInv.none

theorem State.piecesBack_inv {x : Side} : ∀ {ps : List Piece} {l : List (Option (List Byte))} {s : State}, s.Inv pq →
    (s.piecesBack x ps l).Inv pq
  | [], _, _, h => h
  | p :: t, l, s, h => by
    unfold State.piecesBack
    refine State.piecesBack_inv (ps := t) ?_
    split
    · rename_i e
      exact (State.pieceBack_inv h).all _ e
    · exact State.deferPiece_inv h

theorem State.emergencyReset_inv {x : Side} (hI : s.Inv pq) : (State.emergencyReset s x).Inv pq := by
  unfold State.emergencyReset
  repeat' first
    | with_reducible assumption
    | (intro x y hx; beta_reduce)
    | with_reducible apply State.ztbDo_inv
    | with_reducible apply State.Inv.foldl

theorem State.flushBack_inv {img : ImageIn} {x : Side} (hI : s.Inv pq) : (State.flushBack s img x).Inv pq := by
  unfold State.flushBack
  repeat' first
    | with_reducible assumption
    | (extract_lets +onlyGivenNames s1; refine State.Inv.cut (s := s1) (q := pq) ?_ (fun _ => ?_); rotate_left; clear_value s1; rotate_left; dsimp -zeta only [s1]; clear s1)
    | (extract_lets +onlyGivenNames x1; clear_value x1)
    | (intro x y hx; beta_reduce)
    | with_reducible apply State.deferPiece_inv
    | with_reducible apply State.piecesBack_inv
    | with_reducible apply State.emergencyReset_inv
    | with_reducible apply State.Inv.foldl

theorem State.replayFlush_inv {img : ImageIn} (hI : s.Inv pq) : (State.replayFlush s img).Inv pq := by
  unfold State.replayFlush
  repeat' first
    | with_reducible assumption
    | (extract_lets +onlyGivenNames s1; refine State.Inv.cut (s := s1) (q := pq) ?_ (fun _ => ?_); rotate_left; clear_value s1; rotate_left; dsimp -zeta only [s1]; clear s1)
    | with_reducible apply State.flushBack_inv
    | with_reducible apply State.modWin_inv
    | with_reducible apply State.event_inv

theorem State.windowLost_inv (hI : s.Inv pq) : (State.windowLost s).Inv pq := by
  unfold State.windowLost
  repeat' first
    | with_reducible assumption
    | (intro x y hx; beta_reduce)
    | with_reducible apply State.deferPiece_inv
    | with_reducible apply State.Inv.foldl

theorem State.windowKept_inv {r : Side} (hI : s.Inv pq) : (State.windowKept s r).Inv pq := by
  unfold State.windowKept
  repeat' first
    | with_reducible assumption
    | (intro x y hx; beta_reduce)
    | with_reducible apply State.deferPiece_inv
    | with_reducible apply State.Inv.foldl

theorem State.replaySeals_inv {r : Side} {l : List (BitVec 512)} (hI : s.Inv pq) : (State.replaySeals s r l).Inv pq := by
  unfold State.replaySeals
  repeat' first
    | with_reducible assumption
    | intro x y hx
    | with_reducible apply State.modRlg_inv
    | with_reducible apply State.Inv.foldl
    | split

theorem State.replayLeases_inv {r : Side} (hI : s.Inv pq) : (State.replayLeases s r).Inv pq := by
  unfold State.replayLeases
  repeat' first
    | with_reducible assumption
    | (extract_lets +onlyGivenNames x1; clear_value x1)
    | intro x y hx
    | with_reducible apply State.modRlg_inv
    | with_reducible apply State.Inv.foldl
    | split

theorem State.nsRestore_inv (hI : s.Inv pq) : (State.nsRestore s).Inv pq := by
  unfold State.nsRestore
  repeat' first
    | with_reducible assumption
    | (intro x y hx; beta_reduce)
    | with_reducible apply State.modNve_inv
    | with_reducible apply State.Inv.foldl
    | split

theorem State.nsBecomeReady_inv (hI : s.Inv pq) : (State.nsBecomeReady s).Inv pq := by
  unfold State.nsBecomeReady
  repeat' first
    | with_reducible assumption
    | intro x y hx
    | with_reducible apply State.modNve_inv
    | with_reducible apply State.Inv.foldl
    | split

theorem State.replay_inv {r : Side} {img : ImageIn} (hI : s.Inv pq) : (State.replay s r img).Inv pq := by
  unfold State.replay
  repeat' first
    | with_reducible assumption
    | (extract_lets +onlyGivenNames s1; refine State.Inv.cut (s := s1) (q := pq) ?_ (fun _ => ?_); rotate_left; clear_value s1; rotate_left; dsimp -zeta only [s1]; clear s1)
    | (extract_lets +onlyGivenNames x1; clear_value x1)
    | (intro x y hx; beta_reduce)
    | with_reducible apply State.mergeBanks_inv
    | with_reducible apply State.nsRestore_inv
    | with_reducible apply State.modCrn_inv
    | with_reducible apply State.replayHalt_inv
    | with_reducible apply State.event_inv
    | with_reducible apply State.loadImage_inv
    | with_reducible apply State.loadMove_inv
    | with_reducible apply State.replayLine_inv
    | with_reducible apply State.saySilent_inv
    | with_reducible apply State.replayFlush_inv
    | with_reducible apply State.windowLost_inv
    | with_reducible apply State.windowKept_inv
    | with_reducible apply State.modWin_inv
    | with_reducible apply State.replaySeals_inv
    | with_reducible apply State.replayLeases_inv
    | with_reducible apply State.nsBecomeReady_inv
    | with_reducible apply State.Inv.foldl
    | split

theorem execReplay_inv {r : Side} {img : ImageIn} (hI : s.Inv pq) : ∃ s1, execReplay r img s = .next s1 ∧ s1.Inv pq := by
  unfold execReplay
  refine ⟨_, rfl, ?_⟩
  repeat' first
    | with_reducible assumption
    | with_reducible apply State.replay_inv
    | split

end Sys2Proof.Machine
end

