-- ==== Sys2Proof/Laws/InvMembers.lean ====
section
/-!
SUPPORT. The operations of Machine/Members.lean keep the invariant.
-/
set_option Elab.async false
set_option linter.unusedTactic false
set_option linter.unreachableTactic false
namespace Sys2Proof.Machine

variable {pq : List Instr} {s : State}

theorem State.setMember_inv {x : Side} {h : Nat} {m : Member} (hI : s.Inv pq) : (State.setMember s x h m).Inv pq := by
  unfold State.setMember
  repeat' first
    | with_reducible assumption
    | with_reducible apply State.modMember_inv

theorem State.asyncAll_inv {k : Nat} (hI : s.Inv pq) : (State.asyncAll s k).Inv pq := by
  unfold State.asyncAll
  repeat' first
    | with_reducible assumption
    | with_reducible apply State.asyncTo_inv

theorem State.memberTo_inv {x : Side} {h : Nat} {st : MemberSt} {trig : Nat} (hI : s.Inv pq) : (State.memberTo s x h st trig).Inv pq := by
  unfold State.memberTo
  repeat' first
    | with_reducible assumption
    | with_reducible apply State.setMember_inv
    | with_reducible apply State.libAppend_inv
    | with_reducible apply State.event_inv
    | with_reducible apply State.asyncAll_inv

theorem State.degsetAll_inv {x : Side} {h : Nat} (hI : s.Inv pq) : (State.degsetAll s x h).Inv pq := by
  unfold State.degsetAll
  repeat' first
    | with_reducible assumption
    | (intro x y hx; beta_reduce)
    | with_reducible apply State.ztbDo_inv
    | with_reducible apply State.Inv.foldl

theorem State.moveStart_inv {x : Side} {d : Nat} (hI : s.Inv pq) : (State.moveStart s x d).Inv pq := by
  unfold State.moveStart
  repeat' first
    | with_reducible assumption
    | (extract_lets +onlyGivenNames s1; refine State.Inv.cut (s := s1) (q := pq) ?_ (fun _ => ?_); rotate_left; clear_value s1; rotate_left; dsimp -zeta only [s1]; clear s1)
    | (extract_lets +onlyGivenNames x1; clear_value x1)
    | with_reducible apply State.modRedun_inv
    | with_reducible apply State.event_inv
    | split

theorem State.rebuildStart_inv {x : Side} (hI : s.Inv pq) : (State.rebuildStart s x).Inv pq := by
  unfold State.rebuildStart
  repeat' first
    | with_reducible assumption
    | with_reducible apply State.moveStart_inv

theorem State.memberFail_inv {x : Side} {h : Nat} {trig : Nat} (hI : s.Inv pq) : (State.memberFail s x h trig).Inv pq := by
  unfold State.memberFail
  repeat' first
    | with_reducible assumption
    | (extract_lets +onlyGivenNames s1; refine State.Inv.cut (s := s1) (q := pq) ?_ (fun _ => ?_); rotate_left; clear_value s1; rotate_left; dsimp -zeta only [s1]; clear s1)
    | with_reducible apply State.memberTo_inv
    | with_reducible apply State.degsetAll_inv
    | with_reducible apply State.rebuildStart_inv
    | with_reducible apply State.libCompact_inv
    | split

theorem State.reshapeCall_inv {x : Side} {d : Nat} {out : List Nat} (hI : s.Inv pq) : (State.reshapeCall s x d out).Inv pq := by
  unfold State.reshapeCall
  repeat' first
    | with_reducible assumption
    | (extract_lets +onlyGivenNames x1; clear_value x1)
    | with_reducible apply State.modRedun_inv
    | with_reducible apply State.moveStart_inv
    | split

theorem State.memberTrigger_inv {x : Side} {h : Nat} {trig : Nat} {n : Nat} (hI : s.Inv pq) : (State.memberTrigger s x h trig n).Inv pq := by
  unfold State.memberTrigger
  repeat' first
    | with_reducible assumption
    | (extract_lets +onlyGivenNames x1; clear_value x1)
    | with_reducible apply State.memberFail_inv
    | with_reducible apply State.memberTo_inv
    | split

theorem execMemberStateChange_inv {x : Side} {h : BitVec 4} {trig : BitVec 4} {n : Nat} (hI : s.Inv pq) : ∃ s1, execMemberStateChange x h trig n s = .next s1 ∧ s1.Inv pq := by
  unfold execMemberStateChange
  refine ⟨_, rfl, ?_⟩
  repeat' first
    | with_reducible assumption
    | with_reducible apply State.memberTrigger_inv

theorem State.reshapeFirst_inv {x : Side} (hI : s.Inv pq) : (State.reshapeFirst s x).Inv pq := by
  unfold State.reshapeFirst
  repeat' first
    | with_reducible assumption
    | (extract_lets +onlyGivenNames s1; refine State.Inv.cut (s := s1) (q := pq) ?_ (fun _ => ?_); rotate_left; clear_value s1; rotate_left; dsimp -zeta only [s1]; clear s1)
    | (extract_lets +onlyGivenNames x1; clear_value x1)
    | with_reducible apply State.modRedun_inv
    | with_reducible apply State.event_inv
    | with_reducible apply State.asyncAll_inv
    | split

theorem State.rebind_inv {x : Side} {i : Nat} {e : ZEntry} (hI : s.Inv pq) : (State.rebind s x i e).Inv pq := by
  unfold State.rebind
  repeat' first
    | with_reducible assumption
    | (extract_lets +onlyGivenNames x1; clear_value x1)
    | with_reducible apply State.putZent_inv
    | with_reducible apply State.bumpGen_inv
    | with_reducible apply State.reshapeFirst_inv

theorem State.bgDone_inv {x : Side} {i : Nat} {path : Nat} (hI : s.Inv pq) : (State.bgDone s x i path).Inv pq := by
  unfold State.bgDone
  repeat' first
    | with_reducible assumption
    | with_reducible apply State.modRedun_inv
    | with_reducible apply State.event_inv
    | with_reducible apply State.libAppend_inv

theorem State.logStaged_inv {k : Nat} {l : List StgCopy} (hI : s.Inv pq) : (State.logStaged s k l).Inv pq := by
  unfold State.logStaged
  repeat' first
    | with_reducible assumption
    | (extract_lets +onlyGivenNames s1; refine State.Inv.cut (s := s1) (q := pq) ?_ (fun _ => ?_); rotate_left; clear_value s1; rotate_left; dsimp -zeta only [s1]; clear s1)
    | (extract_lets +onlyGivenNames x1; clear_value x1)
    | with_reducible apply State.putZent_inv
    | with_reducible apply State.modWin_inv
    | with_reducible apply State.stgAdd_inv

theorem State.stage_inv {x : Side} {ns : Nat} {home : Nat} {asn : DWord} {offs : List Nat} (hI : s.Inv pq) : (State.stage s x ns home asn offs).Inv pq := by
  unfold State.stage
  repeat' first
    | with_reducible assumption
    | (extract_lets +onlyGivenNames s1; refine State.Inv.cut (s := s1) (q := pq) ?_ (fun _ => ?_); rotate_left; clear_value s1; rotate_left; dsimp -zeta only [s1]; clear s1)
    | with_reducible apply State.unstage_inv
    | with_reducible apply State.logStaged_inv
    | with_reducible apply State.stgAdd_inv
    | with_reducible apply State.libAppend_inv
    | split

theorem State.restage_inv {x : Side} {i : Nat} (hI : s.Inv pq) : (State.restage s x i).Inv pq := by
  unfold State.restage
  repeat' first
    | with_reducible assumption
    | (extract_lets +onlyGivenNames s1; refine State.Inv.cut (s := s1) (q := pq) ?_ (fun _ => ?_); rotate_left; clear_value s1; rotate_left; dsimp -zeta only [s1]; clear s1)
    | (extract_lets +onlyGivenNames x1; clear_value x1)
    | with_reducible apply State.modWin_inv
    | with_reducible apply State.stgAdd_inv
    | with_reducible apply State.logStaged_inv
    | with_reducible apply State.libAppend_inv
    | split

theorem State.finishZone_inv {x : Side} {i : Nat} (hI : s.Inv pq) : (State.finishZone s x i).Inv pq := by
  unfold State.finishZone
  repeat' first
    | with_reducible assumption
    | (extract_lets +onlyGivenNames x1; clear_value x1)
    | with_reducible apply State.putZent_inv
    | with_reducible apply State.bumpGen_inv
    | with_reducible apply State.modRedun_inv
    | split

theorem State.rebuildOne_inv {x : Side} {i : Nat} {e : ZEntry} (hI : s.Inv pq) : (State.rebuildOne s x i e).Inv pq := by
  unfold State.rebuildOne
  repeat' first
    | with_reducible assumption
    | (extract_lets +onlyGivenNames s1; refine State.Inv.cut (s := s1) (q := pq) ?_ (fun _ => ?_); rotate_left; clear_value s1; rotate_left; dsimp -zeta only [s1]; clear s1)
    | (extract_lets +onlyGivenNames x1; clear_value x1)
    | with_reducible apply State.putZent_inv
    | with_reducible apply State.bumpGen_inv
    | with_reducible apply State.reshapeFirst_inv
    | with_reducible apply State.modRedun_inv
    | with_reducible apply State.finishZone_inv
    | with_reducible apply State.stage_inv
    | with_reducible apply State.bgDone_inv
    | with_reducible apply State.restage_inv
    | with_reducible apply State.rebind_inv
    | with_reducible apply State.libCompact_inv
    | split

theorem State.freeOld_inv {x : Side} (hI : s.Inv pq) : (State.freeOld s x).Inv pq := by
  unfold State.freeOld
  repeat' first
    | with_reducible assumption
    | (extract_lets +onlyGivenNames s1; refine State.Inv.cut (s := s1) (q := pq) ?_ (fun _ => ?_); rotate_left; clear_value s1; rotate_left; dsimp -zeta only [s1]; clear s1)
    | (extract_lets +onlyGivenNames x1; clear_value x1)
    | (intro x y hx; beta_reduce)
    | with_reducible apply State.putZent_inv
    | with_reducible apply State.bumpGen_inv
    | with_reducible apply State.modRedun_inv
    | with_reducible apply State.Inv.foldl

theorem execRebuildBandGroup_inv {x : Side} {call : Option (Nat × List Nat)} (hI : s.Inv pq) : ∃ s1, execRebuildBandGroup x call s = .next s1 ∧ s1.Inv pq := by
  unfold execRebuildBandGroup
  refine ⟨_, rfl, ?_⟩
  repeat' first
    | with_reducible assumption
    | (extract_lets +onlyGivenNames s1; refine State.Inv.cut (s := s1) (q := pq) ?_ (fun _ => ?_); rotate_left; clear_value s1; rotate_left; dsimp -zeta only [s1]; clear s1)
    | (extract_lets +onlyGivenNames x1; clear_value x1)
    | with_reducible apply State.reshapeCall_inv
    | with_reducible apply State.freeOld_inv
    | with_reducible apply State.modRedun_inv
    | with_reducible apply State.rebuildOne_inv
    | split

theorem execRebuildWait_inv {x : Side} (hI : s.Inv pq) : ∃ s1, execRebuildWait x s = .next s1 ∧ s1.Inv pq := by
  unfold execRebuildWait
  refine ⟨_, rfl, ?_⟩
  repeat' first
    | with_reducible assumption
    | (extract_lets +onlyGivenNames x1; clear_value x1)
    | with_reducible apply State.modRedun_inv
    | with_reducible apply State.event_inv
    | split

theorem execRebuildCheckpoint_inv {x : Side} (hI : s.Inv pq) : ∃ s1, execRebuildCheckpoint x s = .next s1 ∧ s1.Inv pq := by
  unfold execRebuildCheckpoint
  refine ⟨_, rfl, ?_⟩
  repeat' first
    | with_reducible assumption
    | with_reducible apply State.modRedun_inv
    | with_reducible apply State.libAppend_inv
    | split

theorem State.cutover_inv {x : Side} {i : Nat} {n : Nat} (hI : s.Inv pq) : (State.cutover s x i n).Inv pq := by
  unfold State.cutover
  repeat' first
    | with_reducible assumption
    | (extract_lets +onlyGivenNames s1; refine State.Inv.cut (s := s1) (q := pq) ?_ (fun _ => ?_); rotate_left; clear_value s1; rotate_left; dsimp -zeta only [s1]; clear s1)
    | (extract_lets +onlyGivenNames x1; clear_value x1)
    | with_reducible apply State.libAppend_inv
    | with_reducible apply State.putZent_inv
    | with_reducible apply State.stage_inv
    | with_reducible apply State.modRedun_inv
    | with_reducible apply State.bumpGen_inv
    | with_reducible apply State.bgDone_inv
    | split

theorem execMigrationCutover_inv {x : Side} (hI : s.Inv pq) : ∃ s1, execMigrationCutover x s = .next s1 ∧ s1.Inv pq := by
  unfold execMigrationCutover
  refine ⟨_, rfl, ?_⟩
  repeat' first
    | with_reducible assumption
    | with_reducible apply State.cutover_inv
    | split

theorem execMediaWindowShare_inv {x : Side} (hI : s.Inv pq) : ∃ s1, execMediaWindowShare x s = .next s1 ∧ s1.Inv pq := by
  unfold execMediaWindowShare
  refine ⟨_, rfl, ?_⟩
  repeat' first
    | with_reducible assumption
    | with_reducible apply State.modRedun_inv

theorem State.poisonLbas_inv {i : Nat} {stripe : Nat} {off : Nat} {er : List Nat} {conv : List Nat} (hI : s.Inv pq) : (State.poisonLbas s i stripe off er conv).Inv pq := by
  unfold State.poisonLbas
  repeat' first
    | with_reducible assumption
    | intro x y hx
    | with_reducible apply State.poisonAdd_inv
    | with_reducible apply State.event_inv
    | with_reducible apply State.asyncAll_inv
    | with_reducible apply State.Inv.foldl

theorem execLbaPoison_inv {i : BitVec 17} {stripe : Nat} {off : Nat} {er : List Nat} {conv : List Nat} (hI : s.Inv pq) : ∃ s1, execLbaPoison i stripe off er conv s = .next s1 ∧ s1.Inv pq := by
  unfold execLbaPoison
  refine ⟨_, rfl, ?_⟩
  repeat' first
    | with_reducible assumption
    | (extract_lets +onlyGivenNames x1; clear_value x1)
    | with_reducible apply State.poisonLbas_inv
    | split

theorem execGenerationSwitch_inv {x : Side} (hI : s.Inv pq) : ∃ s1, execGenerationSwitch x s = .next s1 ∧ s1.Inv pq := by
  unfold execGenerationSwitch
  refine ⟨_, rfl, ?_⟩
  repeat' first
    | with_reducible assumption
    | (extract_lets +onlyGivenNames s1; refine State.Inv.cut (s := s1) (q := pq) ?_ (fun _ => ?_); rotate_left; clear_value s1; rotate_left; dsimp -zeta only [s1]; clear s1)
    | (extract_lets +onlyGivenNames x1; clear_value x1)
    | intro x y hx
    | with_reducible apply State.libAppend_inv
    | with_reducible apply State.modRedun_inv
    | with_reducible apply State.memberTo_inv
    | with_reducible apply State.event_inv
    | with_reducible apply State.asyncAll_inv
    | with_reducible apply State.Inv.foldl
    | split

theorem State.pieceMoves_inv {x : Side} {p : Piece} (hI : s.Inv pq) : (State.pieceMoves s x p).Inv pq := by
  unfold State.pieceMoves
  repeat' first
    | with_reducible assumption
    | with_reducible apply State.stage_inv
    | with_reducible apply State.pieceOut_inv

theorem State.windowMoves_inv {x : Side} (hI : s.Inv pq) : (State.windowMoves s x).Inv pq := by
  unfold State.windowMoves
  repeat' first
    | with_reducible assumption
    | (intro x y hx; beta_reduce)
    | with_reducible apply State.pieceMoves_inv
    | with_reducible apply State.Inv.foldl
    | split

theorem State.actuatorLost_inv {x : Side} {cause : Nat} (hI : s.Inv pq) : (State.actuatorLost s x cause).Inv pq := by
  unfold State.actuatorLost
  repeat' first
    | with_reducible assumption
    | intro x y hx
    | with_reducible apply State.modRedun_inv
    | with_reducible apply State.retract_inv
    | with_reducible apply State.event_inv
    | with_reducible apply State.putZent_inv
    | with_reducible apply State.bumpGen_inv
    | with_reducible apply State.windowMoves_inv
    | with_reducible apply State.Inv.foldl
    | split

theorem execActuatorLoss_inv {x : Side} {cause : Nat} (hI : s.Inv pq) : ∃ s1, execActuatorLoss x cause s = .next s1 ∧ s1.Inv pq := by
  unfold execActuatorLoss
  refine ⟨_, rfl, ?_⟩
  repeat' first
    | with_reducible assumption
    | with_reducible apply State.actuatorLost_inv
    | split

theorem State.relog_inv {x : Side} {i : Nat} {e : ZEntry} {stripe : Nat} {bitmap : Word} (hI : s.Inv pq) : (State.relog s x i e stripe bitmap).Inv pq := by
  unfold State.relog
  repeat' first
    | with_reducible assumption
    | (extract_lets +onlyGivenNames s1; refine State.Inv.cut (s := s1) (q := pq) ?_ (fun _ => ?_); rotate_left; clear_value s1; rotate_left; dsimp -zeta only [s1]; clear s1)
    | with_reducible apply State.stage_inv
    | with_reducible apply State.modRedun_inv
    | with_reducible apply State.event_inv

theorem State.scrubOutcome_inv {x : Side} {i : Nat} {e : ZEntry} {stripe : Nat} {out : Nat} {m : Nat} {bitmap : Word} {off : Nat} {er : List Nat} {conv : List Nat} (hI : s.Inv pq) : (State.scrubOutcome s x i e stripe out m bitmap off er conv).Inv pq := by
  unfold State.scrubOutcome
  repeat' first
    | with_reducible assumption
    | with_reducible apply State.logL3_inv
    | with_reducible apply State.relog_inv
    | with_reducible apply State.poisonLbas_inv
    | split

theorem execScrubStripe_inv {x : Side} {out : BitVec 4} {m : BitVec 4} {gen : Word} {bitmap : Word} {off : Nat} {er : List Nat} {conv : List Nat} (hI : s.Inv pq) : ∃ s1, execScrubStripe x out m gen bitmap off er conv s = .next s1 ∧ s1.Inv pq := by
  unfold execScrubStripe
  refine ⟨_, rfl, ?_⟩
  repeat' first
    | with_reducible assumption
    | (extract_lets +onlyGivenNames s1; refine State.Inv.cut (s := s1) (q := pq) ?_ (fun _ => ?_); rotate_left; clear_value s1; rotate_left; dsimp -zeta only [s1]; clear s1)
    | (extract_lets +onlyGivenNames x1; clear_value x1)
    | with_reducible apply State.modRedun_inv
    | with_reducible apply State.event_inv
    | with_reducible apply State.scrubOutcome_inv
    | split

theorem execScrubPassLate_inv {x : Side} {days : Nat} (hI : s.Inv pq) : ∃ s1, execScrubPassLate x days s = .next s1 ∧ s1.Inv pq := by
  unfold execScrubPassLate
  refine ⟨_, rfl, ?_⟩
  repeat' first
    | with_reducible assumption
    | with_reducible apply State.event_inv

end Sys2Proof.Machine
end

