-- ==== Sys2Proof/Laws/InvRecorder.lean ====
section
/-!
SUPPORT. The operations of Machine/Recorder.lean keep the invariant.
-/
set_option Elab.async false
set_option linter.unusedTactic false
set_option linter.unreachableTactic false
namespace Sys2Proof.Machine

variable {pq : List Instr} {s : State}

theorem State.evrInt_inv {i : Nat} (hI : s.Inv pq) : (State.evrInt s i).Inv pq := by
  unfold State.evrInt
  repeat' first
    | with_reducible assumption
    | with_reducible apply State.setStat_inv

theorem State.dropGroup_inv {c : CtxId} (hI : s.Inv pq) : (State.dropGroup s c).Inv pq := by
  unfold State.dropGroup
  repeat' first
    | with_reducible assumption
    | with_reducible apply State.modEvr_inv
    | with_reducible apply State.evrInt_inv
    | split

theorem State.postFirst_inv {c : CtxId} {code : BitVec 16} {cont : Nat} {cls : Bool} {ps : List Word} (hI : s.Inv pq) : (State.postFirst s c code cont cls ps).Inv pq := by
  unfold State.postFirst
  repeat' first
    | with_reducible assumption
    | (extract_lets +onlyGivenNames s1; refine State.Inv.cut (s := s1) (q := pq) ?_ (fun _ => ?_); rotate_left; clear_value s1; rotate_left; dsimp -zeta only [s1]; clear s1)
    | with_reducible apply State.dropGroup_inv
    | with_reducible apply State.evrInt_inv
    | with_reducible apply State.refuseCtx_inv
    | with_reducible apply State.postGroup_inv
    | split

theorem State.postCont_inv {c : CtxId} {ps : List Word} (hI : s.Inv pq) : (State.postCont s c ps).Inv pq := by
  unfold State.postCont
  repeat' first
    | with_reducible assumption
    | with_reducible apply State.evrInt_inv
    | with_reducible apply State.modEvr_inv
    | split

theorem State.evrPost_inv {c : CtxId} {rom : Bool} (hI : s.Inv pq) : (State.evrPost s c rom).Inv pq := by
  unfold State.evrPost
  repeat' first
    | with_reducible assumption
    | (extract_lets +onlyGivenNames x1; clear_value x1)
    | with_reducible apply State.refuseCtx_inv
    | with_reducible apply State.modEvr_inv
    | with_reducible apply State.postCont_inv
    | with_reducible apply State.postFirst_inv
    | split

theorem execEventPost_inv {c : CtxId} {rom : Bool} (hI : s.Inv pq) : ∃ s1, execEventPost c rom s = .next s1 ∧ s1.Inv pq := by
  unfold execEventPost
  refine ⟨_, rfl, ?_⟩
  repeat' first
    | with_reducible assumption
    | intro x hx
    | with_reducible apply State.byCtx_inv
    | with_reducible apply State.evrPost_inv

theorem execGroupExpiry_inv {c : CtxId} (hI : s.Inv pq) : ∃ s1, execGroupExpiry c s = .next s1 ∧ s1.Inv pq := by
  unfold execGroupExpiry
  refine ⟨_, rfl, ?_⟩
  repeat' first
    | with_reducible assumption
    | with_reducible apply State.dropGroup_inv

theorem State.summary_inv {n : Nat} (hI : s.Inv pq) : (State.summary s n).Inv pq := by
  unfold State.summary
  repeat' first
    | with_reducible assumption
    | with_reducible apply State.modEvr_inv
    | with_reducible apply State.freeNext_inv

theorem execTokenRefill_inv {bucket : BitVec 11} (hI : s.Inv pq) : ∃ s1, execTokenRefill bucket s = .next s1 ∧ s1.Inv pq := by
  unfold execTokenRefill
  refine ⟨_, rfl, ?_⟩
  repeat' first
    | with_reducible assumption
    | (extract_lets +onlyGivenNames x1; clear_value x1)
    | with_reducible apply State.summary_inv
    | with_reducible apply State.modEvr_inv
    | split

theorem State.copySeal_inv {line : BitVec 512} (hI : s.Inv pq) : (State.copySeal s line).Inv pq := by
  unfold State.copySeal
  repeat' first
    | with_reducible assumption
    | with_reducible apply State.modEvr_inv
    | split

theorem State.writeArea_inv (hI : s.Inv pq) : (State.writeArea s).Inv pq := by
  unfold State.writeArea
  repeat' first
    | with_reducible assumption
    | intro x y hx
    | with_reducible apply State.putLine_inv
    | with_reducible apply State.Inv.foldl

theorem State.keepSpan_inv {p : Span} {isSealed : Bool} (hI : s.Inv pq) : (State.keepSpan s p isSealed).Inv pq := by
  unfold State.keepSpan
  repeat' first
    | with_reducible assumption
    | with_reducible apply State.modEvr_inv
    | with_reducible apply State.writeArea_inv

theorem State.measStep_inv {r : EvRec} (hI : s.Inv pq) : (State.measStep s r).Inv pq := by
  unfold State.measStep
  repeat' first
    | with_reducible assumption
    | (extract_lets +onlyGivenNames s1; refine State.Inv.cut (s := s1) (q := pq) ?_ (fun _ => ?_); rotate_left; clear_value s1; rotate_left; dsimp -zeta only [s1]; clear s1)
    | with_reducible apply State.modEvr_inv
    | with_reducible apply State.modCry_inv
    | split

theorem State.spanStep_inv {seq : BitVec 48} {r : EvRec} {line : BitVec 512} (hI : s.Inv pq) : (State.spanStep s seq r line).Inv pq := by
  unfold State.spanStep
  repeat' first
    | with_reducible assumption
    | (extract_lets +onlyGivenNames s1; refine State.Inv.cut (s := s1) (q := pq) ?_ (fun _ => ?_); rotate_left; clear_value s1; rotate_left; dsimp -zeta only [s1]; clear s1)
    | (extract_lets +onlyGivenNames x1; clear_value x1)
    | with_reducible apply State.keepSpan_inv
    | with_reducible apply State.evrInt_inv
    | with_reducible apply State.modEvr_inv
    | with_reducible apply State.copySeal_inv
    | split

theorem State.sigDone_inv (hI : s.Inv pq) : (State.sigDone s).Inv pq := by
  unfold State.sigDone
  repeat' first
    | with_reducible assumption
    | with_reducible apply State.keepSpan_inv
    | split

theorem State.recordWrite_inv (hI : s.Inv pq) : (State.recordWrite s).Inv pq := by
  unfold State.recordWrite
  repeat' first
    | with_reducible assumption
    | with_reducible apply State.modEvr_inv
    | with_reducible apply State.putLine_inv
    | with_reducible apply State.spanStep_inv
    | with_reducible apply State.measStep_inv
    | with_reducible apply State.sigDone_inv
    | split

theorem execRecordWrite_inv (hI : s.Inv pq) : ∃ s1, execRecordWrite s = .next s1 ∧ s1.Inv pq := by
  unfold execRecordWrite
  refine ⟨_, rfl, ?_⟩
  repeat' first
    | with_reducible assumption
    | with_reducible apply State.recordWrite_inv
    | split

theorem execOtCheckpoint_inv (hI : s.Inv pq) : ∃ s1, execOtCheckpoint s = .next s1 ∧ s1.Inv pq := by
  unfold execOtCheckpoint
  refine ⟨_, rfl, ?_⟩
  repeat' first
    | with_reducible assumption
    | (extract_lets +onlyGivenNames x1; clear_value x1)
    | with_reducible apply State.event_inv
    | split

theorem execRingScan_inv (hI : s.Inv pq) : ∃ s1, execRingScan s = .next s1 ∧ s1.Inv pq := by
  unfold execRingScan
  refine ⟨_, rfl, ?_⟩
  repeat' first
    | with_reducible assumption
    | with_reducible apply State.modEvr_inv
    | split

theorem State.ownRecord_inv {code : BitVec 16} {flags : Nat} {ps : List (Nat × Word)} (hI : s.Inv pq) : (State.ownRecord s code flags ps).Inv pq := by
  unfold State.ownRecord
  repeat' first
    | with_reducible assumption
    | with_reducible apply State.postGroup_inv
    | with_reducible apply State.freeNext_inv

theorem State.calendarSet_inv {data : Word} (hI : s.Inv pq) : (State.calendarSet s data).Inv pq := by
  unfold State.calendarSet
  repeat' first
    | with_reducible assumption
    | (extract_lets +onlyGivenNames s1; refine State.Inv.cut (s := s1) (q := pq) ?_ (fun _ => ?_); rotate_left; clear_value s1; rotate_left; dsimp -zeta only [s1]; clear s1)
    | (extract_lets +onlyGivenNames x1; clear_value x1)
    | with_reducible apply State.modEvr_inv
    | with_reducible apply State.ownRecord_inv
    | with_reducible apply State.evrInt_inv
    | split

theorem execCalendarSet_inv {data : Word} (hI : s.Inv pq) : ∃ s1, execCalendarSet data s = .next s1 ∧ s1.Inv pq := by
  unfold execCalendarSet
  refine ⟨_, rfl, ?_⟩
  repeat' first
    | with_reducible assumption
    | with_reducible apply State.calendarSet_inv
    | split

theorem execEvrOtLatch_inv {x : Accessor} (hI : s.Inv pq) : ∃ s1, execEvrOtLatch x s = .next s1 ∧ s1.Inv pq := by
  unfold execEvrOtLatch
  refine ⟨_, rfl, ?_⟩
  repeat' first
    | with_reducible assumption
    | intro x hx
    | with_reducible apply State.access_inv
    | with_reducible apply State.modEvr_inv

theorem execSealSign_inv {ok : Bool} (hI : s.Inv pq) : ∃ s1, execSealSign ok s = .next s1 ∧ s1.Inv pq := by
  unfold execSealSign
  refine ⟨_, rfl, ?_⟩
  repeat' first
    | with_reducible assumption
    | (extract_lets +onlyGivenNames s1; refine State.Inv.cut (s := s1) (q := pq) ?_ (fun _ => ?_); rotate_left; clear_value s1; rotate_left; dsimp -zeta only [s1]; clear s1)
    | with_reducible apply State.modEvr_inv
    | with_reducible apply State.evrInt_inv
    | split

theorem State.millisecond_inv (hI : s.Inv pq) : (State.millisecond s).Inv pq := by
  unfold State.millisecond
  repeat' first
    | with_reducible assumption
    | (extract_lets +onlyGivenNames s1; refine State.Inv.cut (s := s1) (q := pq) ?_ (fun _ => ?_); rotate_left; clear_value s1; rotate_left; dsimp -zeta only [s1]; clear s1)
    | with_reducible apply State.modEvr_inv
    | with_reducible apply State.modRcp_inv
    | with_reducible apply State.modMtr_inv
    | split

end Sys2Proof.Machine
end

