-- ==== Sys2Proof/Laws/InvCrypto.lean ====
section
/-!
SUPPORT. The operations of Machine/Crypto.lean keep the invariant.
-/
set_option Elab.async false
set_option linter.unusedTactic false
set_option linter.unreachableTactic false
namespace Sys2Proof.Machine

variable {pq : List Instr} {s : State}

theorem State.cryInt_inv {i : Nat} (hI : s.Inv pq) : (State.cryInt s i).Inv pq := by
  unfold State.cryInt
  repeat' first
    | with_reducible assumption
    | with_reducible apply State.setStat_inv

theorem State.cryResult_inv {n : Nat} {err : Nat} {pass : Bool} (hI : s.Inv pq) : (State.cryResult s n err pass).Inv pq := by
  unfold State.cryResult
  repeat' first
    | with_reducible assumption
    | with_reducible apply State.setReg_inv

theorem State.cryIgnore_inv {err : Nat} (hI : s.Inv pq) : (State.cryIgnore s err).Inv pq := by
  unfold State.cryIgnore
  repeat' first
    | with_reducible assumption
    | with_reducible apply State.cryResult_inv
    | with_reducible apply State.cryInt_inv

theorem State.cryCmd_inv {x : Accessor} {op : Nat} {slot : Nat} (hI : s.Inv pq) : (State.cryCmd s x op slot).Inv pq := by
  unfold State.cryCmd
  repeat' first
    | with_reducible assumption
    | with_reducible apply State.cryIgnore_inv
    | with_reducible apply State.modCry_inv
    | split

theorem State.cryRow_inv {x : Accessor} {op : Nat} {slot : Nat} (hI : s.Inv pq) : (State.cryRow s x op slot).Inv pq := by
  unfold State.cryRow
  repeat' first
    | with_reducible assumption
    | intro x hx
    | with_reducible apply State.access_inv
    | with_reducible apply State.cryCmd_inv

theorem execHash_inv {x : Accessor} (hI : s.Inv pq) : ∃ s1, execHash x s = .next s1 ∧ s1.Inv pq := by
  unfold execHash
  refine ⟨_, rfl, ?_⟩
  repeat' first
    | with_reducible assumption
    | with_reducible apply State.cryRow_inv

theorem execVerifySignature_inv {x : Accessor} (hI : s.Inv pq) : ∃ s1, execVerifySignature x s = .next s1 ∧ s1.Inv pq := by
  unfold execVerifySignature
  refine ⟨_, rfl, ?_⟩
  repeat' first
    | with_reducible assumption
    | with_reducible apply State.cryRow_inv

theorem execDrbg_inv {x : Accessor} (hI : s.Inv pq) : ∃ s1, execDrbg x s = .next s1 ∧ s1.Inv pq := by
  unfold execDrbg
  refine ⟨_, rfl, ?_⟩
  repeat' first
    | with_reducible assumption
    | with_reducible apply State.cryRow_inv

theorem execDerive_inv {x : Accessor} (hI : s.Inv pq) : ∃ s1, execDerive x s = .next s1 ∧ s1.Inv pq := by
  unfold execDerive
  refine ⟨_, rfl, ?_⟩
  repeat' first
    | with_reducible assumption
    | with_reducible apply State.cryRow_inv

theorem execSign_inv {x : Accessor} (hI : s.Inv pq) : ∃ s1, execSign x s = .next s1 ∧ s1.Inv pq := by
  unfold execSign
  refine ⟨_, rfl, ?_⟩
  repeat' first
    | with_reducible assumption
    | with_reducible apply State.cryRow_inv

theorem execKeyload_inv {x : Accessor} {slot : BitVec 6} (hI : s.Inv pq) : ∃ s1, execKeyload x slot s = .next s1 ∧ s1.Inv pq := by
  unfold execKeyload
  refine ⟨_, rfl, ?_⟩
  repeat' first
    | with_reducible assumption
    | with_reducible apply State.cryRow_inv

theorem execZeroize_inv {x : Accessor} {slot : BitVec 6} (hI : s.Inv pq) : ∃ s1, execZeroize x slot s = .next s1 ∧ s1.Inv pq := by
  unfold execZeroize
  refine ⟨_, rfl, ?_⟩
  repeat' first
    | with_reducible assumption
    | with_reducible apply State.cryRow_inv

theorem execDevpub_inv {x : Accessor} (hI : s.Inv pq) : ∃ s1, execDevpub x s = .next s1 ∧ s1.Inv pq := by
  unfold execDevpub
  refine ⟨_, rfl, ?_⟩
  repeat' first
    | with_reducible assumption
    | with_reducible apply State.cryRow_inv

theorem execCryptoCmdIgnored_inv {x : Accessor} {data : Word} (hI : s.Inv pq) : ∃ s1, execCryptoCmdIgnored x data s = .next s1 ∧ s1.Inv pq := by
  unfold execCryptoCmdIgnored
  refine ⟨_, rfl, ?_⟩
  repeat' first
    | with_reducible assumption
    | with_reducible apply State.cryRow_inv
    | split

theorem State.crySrc_inv {a : Nat} {n : Nat} (hI : s.Inv pq) : (State.crySrc s a n).1.Inv pq := by
  unfold State.crySrc
  repeat' first
    | with_reducible assumption
    | (extract_lets +onlyGivenNames x1; clear_value x1)
    | with_reducible apply State.dramRead_inv
    | with_reducible refine State.Inv.fst (by assumption) ?_
    | split

theorem State.cryFail_inv {err : Nat} (hI : s.Inv pq) : (State.cryFail s err).Inv pq := by
  unfold State.cryFail
  repeat' first
    | with_reducible assumption
    | with_reducible apply State.modCry_inv
    | with_reducible apply State.cryResult_inv
    | with_reducible apply State.cryInt_inv

theorem State.cryOk_inv {n : Nat} {pass : Bool} (hI : s.Inv pq) : (State.cryOk s n pass).Inv pq := by
  unfold State.cryOk
  repeat' first
    | with_reducible assumption
    | with_reducible apply State.modCry_inv
    | with_reducible apply State.cryResult_inv
    | with_reducible apply State.cryInt_inv

theorem State.cryOut_inv {o : CryOp} {bs : List Byte} (hI : s.Inv pq) : (State.cryOut s o bs).Inv pq := by
  unfold State.cryOut
  repeat' first
    | with_reducible assumption
    | with_reducible apply State.cryFail_inv
    | with_reducible apply State.dramWrite_inv
    | with_reducible apply State.cryOk_inv
    | split

theorem State.cryFrom_inv {o : CryOp} {n : Nat} {f : State → List Byte → State} (hf : ∀ s a0, State.Inv pq s → (f s a0).Inv pq) (hI : s.Inv pq) : (State.cryFrom s o n f).Inv pq := by
  unfold State.cryFrom
  repeat' first
    | with_reducible assumption
    | with_reducible apply State.crySrc_inv
    | with_reducible apply State.cryFail_inv
    | with_reducible apply hf
    | with_reducible refine State.Inv.fst (by assumption) ?_
    | split

theorem State.cryDerive_inv {o : CryOp} {bs : List Byte} (hI : s.Inv pq) : (State.cryDerive s o bs).Inv pq := by
  unfold State.cryDerive
  repeat' first
    | with_reducible assumption
    | with_reducible apply State.cryFail_inv
    | with_reducible apply State.modCry_inv
    | with_reducible apply State.cryOut_inv
    | split

theorem State.crySign_inv {o : CryOp} {bs : List Byte} (hI : s.Inv pq) : (State.crySign s o bs).Inv pq := by
  unfold State.crySign
  repeat' first
    | with_reducible assumption
    | with_reducible apply State.cryFail_inv
    | with_reducible apply State.cryOut_inv
    | split

theorem State.keyLoad_inv {o : CryOp} {bs : List Byte} (hI : s.Inv pq) : (State.keyLoad s o bs).Inv pq := by
  unfold State.keyLoad
  repeat' first
    | with_reducible assumption
    | with_reducible apply State.modCry_inv
    | with_reducible apply State.dramWrite_inv
    | with_reducible apply State.event_inv
    | with_reducible apply State.cryOk_inv

theorem State.slotZeroize_inv {n : Nat} (hI : s.Inv pq) : (State.slotZeroize s n).Inv pq := by
  unfold State.slotZeroize
  repeat' first
    | with_reducible assumption
    | with_reducible apply State.modCry_inv
    | with_reducible apply State.cryInt_inv
    | with_reducible apply State.event_inv

theorem State.cryRandom_inv {o : CryOp} (hI : s.Inv pq) : (State.cryRandom s o).Inv pq := by
  unfold State.cryRandom
  repeat' first
    | with_reducible assumption
    | with_reducible apply State.freeBy_inv
    | with_reducible apply State.cryOut_inv

theorem State.cryRun_inv {o : CryOp} (hI : s.Inv pq) : (State.cryRun s o).Inv pq := by
  unfold State.cryRun
  repeat' first
    | with_reducible assumption
    | intro x y hx
    | with_reducible apply State.cryFrom_inv
    | with_reducible apply State.cryOut_inv
    | with_reducible apply State.cryOk_inv
    | with_reducible apply State.cryRandom_inv
    | with_reducible apply State.cryDerive_inv
    | with_reducible apply State.crySign_inv
    | with_reducible apply State.keyLoad_inv
    | with_reducible apply State.slotZeroize_inv
    | with_reducible apply State.cryFail_inv
    | split

theorem execCryptoDone_inv (hI : s.Inv pq) : ∃ s1, execCryptoDone s = .next s1 ∧ s1.Inv pq := by
  unfold execCryptoDone
  refine ⟨_, rfl, ?_⟩
  repeat' first
    | with_reducible assumption
    | with_reducible apply State.cryRun_inv
    | split

theorem execDrbgRead_inv {x : Accessor} (hI : s.Inv pq) : ∃ s1, execDrbgRead x s = .next s1 ∧ s1.Inv pq := by
  unfold execDrbgRead
  refine ⟨_, rfl, ?_⟩
  repeat' first
    | with_reducible assumption
    | intro x hx
    | with_reducible apply State.access_inv
    | with_reducible apply State.freeNext_inv

end Sys2Proof.Machine
end

