-- ==== Sys2Proof/Laws/InvReadPath.lean ====
section
/-!
SUPPORT. The operations of Machine/ReadPath.lean keep the invariant.
-/
set_option Elab.async false
set_option linter.unusedTactic false
set_option linter.unreachableTactic false
namespace Sys2Proof.Machine

variable {pq : List Instr} {s : State}

theorem State.logError_inv {c : Cmd} {status : Nat} {lba : Nat} (hI : s.Inv pq) : (State.logError s c status lba).Inv pq := by
  unfold State.logError
  repeat' first
    | with_reducible assumption
    | with_reducible apply State.modNve_inv

theorem State.readMedia_inv {c : Cmd} {xfer : Bool} {tries : List (List ReadTry)} (hI : s.Inv pq) : (State.readMedia s c xfer tries).Inv pq := by
  unfold State.readMedia
  repeat' first
    | with_reducible assumption
    | (extract_lets +onlyGivenNames s1; refine State.Inv.cut (s := s1) (q := pq) ?_ (fun _ => ?_); rotate_left; clear_value s1; rotate_left; dsimp -zeta only [s1]; clear s1)
    | (extract_lets +onlyGivenNames x1; clear_value x1)
    | (intro x y hx; beta_reduce)
    | with_reducible apply State.logL3_inv
    | with_reducible apply State.bump_inv
    | with_reducible apply State.freeBy_inv
    | with_reducible apply State.raiseLine_inv
    | with_reducible apply State.logError_inv
    | with_reducible apply State.complete_inv
    | with_reducible apply State.modCmd_inv
    | with_reducible apply State.Inv.foldl
    | split

theorem State.releaseRead_inv {c : Cmd} (hI : s.Inv pq) : (State.releaseRead s c).Inv pq := by
  unfold State.releaseRead
  repeat' first
    | with_reducible assumption
    | (extract_lets +onlyGivenNames x1; clear_value x1)
    | with_reducible apply State.logError_inv
    | with_reducible apply State.complete_inv
    | with_reducible apply State.modCmd_inv
    | split

theorem State.hedgeRead_inv {c : CtxId} (hI : s.Inv pq) : (State.hedgeRead s c).1.Inv pq := by
  unfold State.hedgeRead
  repeat' first
    | with_reducible assumption
    | with_reducible apply State.hedgeLookup_inv
    | with_reducible apply State.releaseRead_inv
    | with_reducible refine State.Inv.fst (by assumption) ?_
    | split

end Sys2Proof.Machine
end

