-- ==== Sys2Proof/Laws/InvAdmission.lean ====
section
/-!
SUPPORT. The operations of Machine/Admission.lean keep the invariant.
-/
set_option Elab.async false
set_option linter.unusedTactic false
set_option linter.unreachableTactic false
namespace Sys2Proof.Machine

variable {pq : List Instr} {s : State}

theorem State.traffic_inv {p : Side} (hI : s.Inv pq) : (State.traffic s p).Inv pq := by
  unfold State.traffic
  repeat' first
    | with_reducible assumption
    | with_reducible apply State.modHpt_inv

theorem State.badDoorbell_inv (hI : s.Inv pq) : (State.badDoorbell s).Inv pq := by
  unfold State.badDoorbell
  repeat' first
    | with_reducible assumption
    | with_reducible apply State.nveInt_inv
    | with_reducible apply State.bump_inv

theorem execSqTailDoorbell_inv {n : Nat} {q : Nat} {tail : Nat} (hI : s.Inv pq) : ∃ s1, execSqTailDoorbell n q tail s = .next s1 ∧ s1.Inv pq := by
  unfold execSqTailDoorbell
  refine ⟨_, rfl, ?_⟩
  repeat' first
    | with_reducible assumption
    | with_reducible apply State.traffic_inv
    | with_reducible apply State.modCtrl_inv
    | with_reducible apply State.badDoorbell_inv
    | split

theorem execCqHeadDoorbell_inv {n : Nat} {q : Nat} {head : Nat} (hI : s.Inv pq) : ∃ s1, execCqHeadDoorbell n q head s = .next s1 ∧ s1.Inv pq := by
  unfold execCqHeadDoorbell
  refine ⟨_, rfl, ?_⟩
  repeat' first
    | with_reducible assumption
    | (extract_lets +onlyGivenNames s1; refine State.Inv.cut (s := s1) (q := pq) ?_ (fun _ => ?_); rotate_left; clear_value s1; rotate_left; dsimp -zeta only [s1]; clear s1)
    | (extract_lets +onlyGivenNames x1; clear_value x1)
    | with_reducible apply State.badDoorbell_inv
    | with_reducible apply State.traffic_inv
    | with_reducible apply State.modCtrl_inv
    | with_reducible apply State.drainStage_inv
    | split

theorem State.hostqLine_inv (hI : s.Inv pq) : (State.hostqLine s).Inv pq := by
  unfold State.hostqLine
  repeat' first
    | with_reducible assumption
    | (intro x y hx; beta_reduce)
    | with_reducible apply State.raiseLine_inv
    | with_reducible apply State.Inv.foldl

theorem State.fetch_inv {n : Nat} {q : Sq} {sqe : Sqe} (hI : s.Inv pq) : (State.fetch s n q sqe).Inv pq := by
  unfold State.fetch
  repeat' first
    | with_reducible assumption
    | (extract_lets +onlyGivenNames s1; refine State.Inv.cut (s := s1) (q := pq) ?_ (fun _ => ?_); rotate_left; clear_value s1; rotate_left; dsimp -zeta only [s1]; clear s1)
    | (extract_lets +onlyGivenNames x1; clear_value x1)
    | with_reducible apply State.traffic_inv
    | with_reducible apply State.modCtrl_inv
    | with_reducible apply State.modNve_inv
    | with_reducible apply State.hostqLine_inv
    | with_reducible apply State.nveInt_inv
    | split

theorem execCommandFetch_inv {n : Nat} {q : Nat} {sqe : Sqe} (hI : s.Inv pq) : ∃ s1, execCommandFetch n q sqe s = .next s1 ∧ s1.Inv pq := by
  unfold execCommandFetch
  refine ⟨_, rfl, ?_⟩
  repeat' first
    | with_reducible assumption
    | with_reducible apply State.nveInt_inv
    | with_reducible apply State.fetch_inv
    | split

theorem State.asnWrite_inv {data : Word} (hI : s.Inv pq) : (State.asnWrite s data).Inv pq := by
  unfold State.asnWrite
  repeat' first
    | with_reducible assumption
    | (extract_lets +onlyGivenNames x1; clear_value x1)
    | with_reducible apply State.modNve_inv
    | split

theorem execAsnWrite_inv {x : Accessor} {data : Word} (hI : s.Inv pq) : ∃ s1, execAsnWrite x data s = .next s1 ∧ s1.Inv pq := by
  unfold execAsnWrite
  refine ⟨_, rfl, ?_⟩
  repeat' first
    | with_reducible assumption
    | intro x hx
    | with_reducible apply State.access_inv
    | with_reducible apply State.asnWrite_inv

theorem State.asnLimit_inv {data : Word} (hI : s.Inv pq) : (State.asnLimit s data).Inv pq := by
  unfold State.asnLimit
  repeat' first
    | with_reducible assumption
    | (extract_lets +onlyGivenNames x1; clear_value x1)
    | with_reducible apply State.modNve_inv
    | split

theorem execAsnLimitWrite_inv {x : Accessor} {data : Word} (hI : s.Inv pq) : ∃ s1, execAsnLimitWrite x data s = .next s1 ∧ s1.Inv pq := by
  unfold execAsnLimitWrite
  refine ⟨_, rfl, ?_⟩
  repeat' first
    | with_reducible assumption
    | intro x hx
    | with_reducible apply State.access_inv
    | with_reducible apply State.asnLimit_inv

theorem State.allocQ_inv {n : Nat} {pairs : Nat} (hI : s.Inv pq) : OptInv pq (State.allocQ s n pairs) := by
  unfold State.allocQ
  repeat' first
    | with_reducible assumption
    | with_reducible apply State.modCtrl_inv
    | with_reducible apply OptInv.none
    | with_reducible apply OptInv.some
    | split

theorem State.qallocWrite_inv {data : Word} (hI : s.Inv pq) : (State.qallocWrite s data).Inv pq := by
  unfold State.qallocWrite
  repeat' first
    | with_reducible assumption
    | with_reducible apply State.allocQ_inv
    | with_reducible apply State.nveInt_inv
    | with_reducible apply OptInv.getD

theorem execQueueAllocationWrite_inv {x : Accessor} {data : Word} (hI : s.Inv pq) : ∃ s1, execQueueAllocationWrite x data s = .next s1 ∧ s1.Inv pq := by
  unfold execQueueAllocationWrite
  refine ⟨_, rfl, ?_⟩
  repeat' first
    | with_reducible assumption
    | intro x hx
    | with_reducible apply State.access_inv
    | with_reducible apply State.qallocWrite_inv

theorem State.nscfgWrite_inv {data : Word} (hI : s.Inv pq) : (State.nscfgWrite s data).Inv pq := by
  unfold State.nscfgWrite
  repeat' first
    | with_reducible assumption
    | (extract_lets +onlyGivenNames x1; clear_value x1)
    | with_reducible apply State.nveInt_inv
    | with_reducible apply State.putCfg_inv
    | split

theorem execNamespaceConfigWrite_inv {x : Accessor} {data : Word} (hI : s.Inv pq) : ∃ s1, execNamespaceConfigWrite x data s = .next s1 ∧ s1.Inv pq := by
  unfold execNamespaceConfigWrite
  refine ⟨_, rfl, ?_⟩
  repeat' first
    | with_reducible assumption
    | intro x hx
    | with_reducible apply State.access_inv
    | with_reducible apply State.nscfgWrite_inv

theorem State.checkSteps_inv {c : Cmd} (hI : s.Inv pq) : (State.checkSteps s c).1.Inv pq := by
  unfold State.checkSteps
  repeat' first
    | with_reducible assumption
    | (extract_lets +onlyGivenNames x1; clear_value x1)
    | with_reducible apply State.modWin_inv
    | split

theorem State.ioCmd_inv {n : Nat} {opc : Byte} {f : State → Cmd → State} (hf : ∀ s a0, State.Inv pq s → (f s a0).Inv pq) (hI : s.Inv pq) : (State.ioCmd s n opc f).Inv pq := by
  unfold State.ioCmd
  repeat' first
    | with_reducible assumption
    | with_reducible apply State.checkSteps_inv
    | with_reducible apply State.complete_inv
    | with_reducible apply hf
    | with_reducible refine State.Inv.fst (by assumption) ?_
    | split

theorem State.admitCmd_inv {c : Cmd} {kind : HKind} {lba : Nat} {n : Nat} {spans : List (Nat × Nat)} (hI : s.Inv pq) : (State.admitCmd s c kind lba n spans).Inv pq := by
  unfold State.admitCmd
  repeat' first
    | with_reducible assumption
    | (extract_lets +onlyGivenNames s1; refine State.Inv.cut (s := s1) (q := pq) ?_ (fun _ => ?_); rotate_left; clear_value s1; rotate_left; dsimp -zeta only [s1]; clear s1)
    | with_reducible apply State.modCmd_inv
    | with_reducible apply State.hostqLine_inv
    | with_reducible apply State.takeHent_inv

theorem State.admitWrite_inv {c : Cmd} {lba : Nat} {n : Nat} (hI : s.Inv pq) : (State.admitWrite s c lba n).Inv pq := by
  unfold State.admitWrite
  repeat' first
    | with_reducible assumption
    | (extract_lets +onlyGivenNames s1; refine State.Inv.cut (s := s1) (q := pq) ?_ (fun _ => ?_); rotate_left; clear_value s1; rotate_left; dsimp -zeta only [s1]; clear s1)
    | with_reducible apply State.admitCmd_inv
    | with_reducible apply State.modCmd_inv
    | with_reducible apply State.setAwp_inv
    | split

theorem State.dataArrives_inv {n : Nat} {din : DataIn} {data : List (List Byte)} (hI : s.Inv pq) : (State.dataArrives s n din data).Inv pq := by
  unfold State.dataArrives
  repeat' first
    | with_reducible assumption
    | (extract_lets +onlyGivenNames x1; clear_value x1)
    | with_reducible apply State.endUncommitted_inv
    | with_reducible apply State.bump_inv
    | with_reducible apply State.modCmd_inv
    | split

theorem State.write_inv {c : Cmd} {xfer : Bool} {din : DataIn} {data : List (List Byte)} (hI : s.Inv pq) : (State.write s c xfer din data).Inv pq := by
  unfold State.write
  repeat' first
    | with_reducible assumption
    | with_reducible apply State.complete_inv
    | with_reducible apply State.admitWrite_inv
    | with_reducible apply State.dataArrives_inv
    | split

theorem execWrite_inv {n : Nat} {din : DataIn} {data : List (List Byte)} (hI : s.Inv pq) : ∃ s1, execWrite n din data s = .next s1 ∧ s1.Inv pq := by
  unfold execWrite
  refine ⟨_, rfl, ?_⟩
  repeat' first
    | with_reducible assumption
    | intro x y hx
    | with_reducible apply State.ioCmd_inv
    | with_reducible apply State.write_inv

theorem execWriteZeroes_inv {n : Nat} (hI : s.Inv pq) : ∃ s1, execWriteZeroes n s = .next s1 ∧ s1.Inv pq := by
  unfold execWriteZeroes
  refine ⟨_, rfl, ?_⟩
  repeat' first
    | with_reducible assumption
    | intro x y hx
    | with_reducible apply State.ioCmd_inv
    | with_reducible apply State.write_inv

theorem State.append_inv {c : Cmd} {din : DataIn} {data : List (List Byte)} (hI : s.Inv pq) : (State.append s c din data).Inv pq := by
  unfold State.append
  repeat' first
    | with_reducible assumption
    | (extract_lets +onlyGivenNames x1; clear_value x1)
    | with_reducible apply State.complete_inv
    | with_reducible apply State.admitWrite_inv
    | with_reducible apply State.dataArrives_inv
    | split

theorem execZoneAppend_inv {n : Nat} {din : DataIn} {data : List (List Byte)} (hI : s.Inv pq) : ∃ s1, execZoneAppend n din data s = .next s1 ∧ s1.Inv pq := by
  unfold execZoneAppend
  refine ⟨_, rfl, ?_⟩
  repeat' first
    | with_reducible assumption
    | intro x y hx
    | with_reducible apply State.ioCmd_inv
    | with_reducible apply State.append_inv

theorem State.readRow_inv {n : Nat} {opc : Byte} {xfer : Bool} {tries : List (List ReadTry)} (hI : s.Inv pq) : (State.readRow s n opc xfer tries).Inv pq := by
  unfold State.readRow
  repeat' first
    | with_reducible assumption
    | (extract_lets +onlyGivenNames s1; refine State.Inv.cut (s := s1) (q := pq) ?_ (fun _ => ?_); rotate_left; clear_value s1; rotate_left; dsimp -zeta only [s1]; clear s1)
    | (intro x y hx; beta_reduce)
    | with_reducible apply State.ioCmd_inv
    | with_reducible apply State.complete_inv
    | with_reducible apply State.admitCmd_inv
    | with_reducible apply State.releaseRead_inv
    | with_reducible apply State.readMedia_inv
    | split

theorem execRead_inv {n : Nat} {tries : List (List ReadTry)} (hI : s.Inv pq) : ∃ s1, execRead n tries s = .next s1 ∧ s1.Inv pq := by
  unfold execRead
  refine ⟨_, rfl, ?_⟩
  repeat' first
    | with_reducible assumption
    | with_reducible apply State.readRow_inv

theorem execVerify_inv {n : Nat} {tries : List (List ReadTry)} (hI : s.Inv pq) : ∃ s1, execVerify n tries s = .next s1 ∧ s1.Inv pq := by
  unfold execVerify
  refine ⟨_, rfl, ?_⟩
  repeat' first
    | with_reducible assumption
    | with_reducible apply State.readRow_inv

theorem State.dsm_inv {c : Cmd} {ranges : List (Nat × Nat)} (hI : s.Inv pq) : (State.dsm s c ranges).Inv pq := by
  unfold State.dsm
  repeat' first
    | with_reducible assumption
    | with_reducible apply State.completeOk_inv
    | with_reducible apply State.complete_inv
    | with_reducible apply State.admitCmd_inv
    | split

theorem execDatasetManagement_inv {n : Nat} {ranges : List (Nat × Nat)} (hI : s.Inv pq) : ∃ s1, execDatasetManagement n ranges s = .next s1 ∧ s1.Inv pq := by
  unfold execDatasetManagement
  refine ⟨_, rfl, ?_⟩
  repeat' first
    | with_reducible assumption
    | intro x y hx
    | with_reducible apply State.ioCmd_inv
    | with_reducible apply State.dsm_inv

theorem execFlush_inv {n : Nat} (hI : s.Inv pq) : ∃ s1, execFlush n s = .next s1 ∧ s1.Inv pq := by
  unfold execFlush
  refine ⟨_, rfl, ?_⟩
  repeat' first
    | with_reducible assumption
    | (extract_lets +onlyGivenNames s1; refine State.Inv.cut (s := s1) (q := pq) ?_ (fun _ => ?_); rotate_left; clear_value s1; rotate_left; dsimp -zeta only [s1]; clear s1)
    | intro x y hx
    | with_reducible apply State.ioCmd_inv
    | with_reducible apply State.modCmd_inv
    | with_reducible apply State.completeOk_inv
    | split

theorem State.dropStaged_inv {i : Nat} {k : Nat} (hI : s.Inv pq) : (State.dropStaged s i k).Inv pq := by
  unfold State.dropStaged
  repeat' first
    | with_reducible assumption
    | with_reducible apply State.unstage_inv
    | with_reducible apply State.libAppend_inv

theorem State.migrationEnds_inv {x : Side} {i : Nat} (hI : s.Inv pq) : (State.migrationEnds s x i).Inv pq := by
  unfold State.migrationEnds
  repeat' first
    | with_reducible assumption
    | (extract_lets +onlyGivenNames s1; refine State.Inv.cut (s := s1) (q := pq) ?_ (fun _ => ?_); rotate_left; clear_value s1; rotate_left; dsimp -zeta only [s1]; clear s1)
    | (extract_lets +onlyGivenNames x1; clear_value x1)
    | with_reducible apply State.putZent_inv
    | with_reducible apply State.bumpGen_inv
    | with_reducible apply State.modRedun_inv
    | split

theorem State.zoneReset_inv {i : Nat} (hI : s.Inv pq) : (State.zoneReset s i).Inv pq := by
  unfold State.zoneReset
  repeat' first
    | with_reducible assumption
    | (extract_lets +onlyGivenNames s1; refine State.Inv.cut (s := s1) (q := pq) ?_ (fun _ => ?_); rotate_left; clear_value s1; rotate_left; dsimp -zeta only [s1]; clear s1)
    | (extract_lets +onlyGivenNames x1; clear_value x1)
    | (intro x y hx; beta_reduce)
    | with_reducible apply State.dropStaged_inv
    | with_reducible apply State.putZent_inv
    | with_reducible apply State.bumpGen_inv
    | with_reducible apply State.zoneCleared_inv
    | with_reducible apply State.migrationEnds_inv
    | with_reducible apply State.modRedun_inv
    | with_reducible apply State.Inv.foldl
    | split

theorem State.finishFill_inv {i : Nat} (hI : s.Inv pq) : (State.finishFill s i).Inv pq := by
  unfold State.finishFill
  repeat' first
    | with_reducible assumption
    | (extract_lets +onlyGivenNames x1; clear_value x1)
    | with_reducible apply State.modWin_inv
    | split

theorem State.zoneOp_inv {c : Cmd} (hI : s.Inv pq) : (State.zoneOp s c).1.Inv pq := by
  unfold State.zoneOp
  repeat' first
    | with_reducible assumption
    | (extract_lets +onlyGivenNames s1; refine State.Inv.cut (s := s1) (q := pq) ?_ (fun _ => ?_); rotate_left; clear_value s1; rotate_left; dsimp -zeta only [s1]; clear s1)
    | with_reducible apply State.finishFill_inv
    | with_reducible apply State.zoneReset_inv
    | with_reducible apply State.putZent_inv
    | with_reducible apply State.bumpGen_inv
    | with_reducible apply State.libAppend_inv
    | with_reducible apply State.modCmd_inv
    | split

theorem State.zoneNext_inv {c : Cmd} (hI : s.Inv pq) : (State.zoneNext s c).Inv pq := by
  unfold State.zoneNext
  repeat' first
    | with_reducible assumption
    | with_reducible apply State.dropHent_inv
    | with_reducible apply State.modCmd_inv

theorem execZoneManagementSend_inv {n : Nat} (hI : s.Inv pq) : ∃ s1, execZoneManagementSend n s = .next s1 ∧ s1.Inv pq := by
  unfold execZoneManagementSend
  refine ⟨_, rfl, ?_⟩
  repeat' first
    | with_reducible assumption
    | (extract_lets +onlyGivenNames s1; refine State.Inv.cut (s := s1) (q := pq) ?_ (fun _ => ?_); rotate_left; clear_value s1; rotate_left; dsimp -zeta only [s1]; clear s1)
    | (extract_lets +onlyGivenNames x1; clear_value x1)
    | intro x y hx
    | with_reducible apply State.ioCmd_inv
    | with_reducible apply State.complete_inv
    | with_reducible apply State.completeOk_inv
    | with_reducible apply State.admitCmd_inv
    | with_reducible apply State.zoneOp_inv
    | with_reducible apply State.zoneNext_inv
    | with_reducible refine State.Inv.fst (by assumption) ?_
    | split

theorem execZoneManagementReceive_inv {n : Nat} (hI : s.Inv pq) : ∃ s1, execZoneManagementReceive n s = .next s1 ∧ s1.Inv pq := by
  unfold execZoneManagementReceive
  refine ⟨_, rfl, ?_⟩
  repeat' first
    | with_reducible assumption
    | intro x y hx
    | with_reducible apply State.ioCmd_inv
    | with_reducible apply State.complete_inv
    | with_reducible apply State.completeOk_inv
    | split

theorem State.modResv_inv {n : Nat} {f : Resv → Resv} (hI : s.Inv pq) : (State.modResv s n f).Inv pq := by
  unfold State.modResv
  repeat' first
    | with_reducible assumption
    | with_reducible apply State.setNs_inv
    | split

theorem State.resvRegister_inv {c : Cmd} {nrkey : DWord} {crkey : DWord} (hI : s.Inv pq) : (State.resvRegister s c nrkey crkey).Inv pq := by
  unfold State.resvRegister
  repeat' first
    | with_reducible assumption
    | (extract_lets +onlyGivenNames s1; refine State.Inv.cut (s := s1) (q := pq) ?_ (fun _ => ?_); rotate_left; clear_value s1; rotate_left; dsimp -zeta only [s1]; clear s1)
    | (extract_lets +onlyGivenNames x1; clear_value x1)
    | with_reducible apply State.complete_inv
    | with_reducible apply State.modResv_inv
    | with_reducible apply State.completeOk_inv
    | split

theorem execReservationRegister_inv {n : Nat} {nrkey : DWord} {crkey : DWord} (hI : s.Inv pq) : ∃ s1, execReservationRegister n nrkey crkey s = .next s1 ∧ s1.Inv pq := by
  unfold execReservationRegister
  refine ⟨_, rfl, ?_⟩
  repeat' first
    | with_reducible assumption
    | intro x y hx
    | with_reducible apply State.ioCmd_inv
    | with_reducible apply State.resvRegister_inv

theorem execReservationReport_inv {n : Nat} (hI : s.Inv pq) : ∃ s1, execReservationReport n s = .next s1 ∧ s1.Inv pq := by
  unfold execReservationReport
  refine ⟨_, rfl, ?_⟩
  repeat' first
    | with_reducible assumption
    | intro x y hx
    | with_reducible apply State.ioCmd_inv
    | with_reducible apply State.completeOk_inv

theorem State.abortAll_inv {c : Cmd} {l : List Cmd} (hI : s.Inv pq) : (State.abortAll s c l).Inv pq := by
  unfold State.abortAll
  repeat' first
    | with_reducible assumption
    | intro x y hx
    | with_reducible apply State.modCmd_inv
    | with_reducible apply State.Inv.foldl

theorem State.resvAcquire_inv {c : Cmd} {crkey : DWord} {prkey : DWord} (hI : s.Inv pq) : (State.resvAcquire s c crkey prkey).Inv pq := by
  unfold State.resvAcquire
  repeat' first
    | with_reducible assumption
    | (extract_lets +onlyGivenNames s1; refine State.Inv.cut (s := s1) (q := pq) ?_ (fun _ => ?_); rotate_left; clear_value s1; rotate_left; dsimp -zeta only [s1]; clear s1)
    | (extract_lets +onlyGivenNames x1; clear_value x1)
    | with_reducible apply State.complete_inv
    | with_reducible apply State.modResv_inv
    | with_reducible apply State.completeOk_inv
    | with_reducible apply State.abortAll_inv
    | split

theorem execReservationAcquire_inv {n : Nat} {crkey : DWord} {prkey : DWord} (hI : s.Inv pq) : ∃ s1, execReservationAcquire n crkey prkey s = .next s1 ∧ s1.Inv pq := by
  unfold execReservationAcquire
  refine ⟨_, rfl, ?_⟩
  repeat' first
    | with_reducible assumption
    | intro x y hx
    | with_reducible apply State.ioCmd_inv
    | with_reducible apply State.resvAcquire_inv
    | with_reducible apply State.completeOk_inv
    | split

theorem State.resvRelease_inv {c : Cmd} {crkey : DWord} (hI : s.Inv pq) : (State.resvRelease s c crkey).Inv pq := by
  unfold State.resvRelease
  repeat' first
    | with_reducible assumption
    | (extract_lets +onlyGivenNames x1; clear_value x1)
    | with_reducible apply State.complete_inv
    | with_reducible apply State.modResv_inv
    | with_reducible apply State.completeOk_inv
    | split

theorem execReservationRelease_inv {n : Nat} {crkey : DWord} (hI : s.Inv pq) : ∃ s1, execReservationRelease n crkey s = .next s1 ∧ s1.Inv pq := by
  unfold execReservationRelease
  refine ⟨_, rfl, ?_⟩
  repeat' first
    | with_reducible assumption
    | intro x y hx
    | with_reducible apply State.ioCmd_inv
    | with_reducible apply State.resvRelease_inv

theorem execHedgeEntryGrant_inv {n : Nat} (hI : s.Inv pq) : ∃ s1, execHedgeEntryGrant n s = .next s1 ∧ s1.Inv pq := by
  unfold execHedgeEntryGrant
  refine ⟨_, rfl, ?_⟩
  repeat' first
    | with_reducible assumption
    | with_reducible apply State.takeHent_inv
    | split

theorem execHedgeLookup_inv {c : CtxId} {reg : BitVec 6} (hI : s.Inv pq) : ∃ s1, execHedgeLookup c reg s = .next s1 ∧ s1.Inv pq := by
  unfold execHedgeLookup
  refine ⟨_, rfl, ?_⟩
  repeat' first
    | with_reducible assumption
    | (intro x hx; beta_reduce)
    | with_reducible apply State.byCtx_inv
    | with_reducible apply State.hedgeRead_inv
    | with_reducible apply State.modCtx_inv
    | with_reducible apply Ctx.wr_fits
    | with_reducible apply State.refuseCtx_inv
    | split

theorem execHedgeRemove_inv {c : CtxId} {data : DWord} (hI : s.Inv pq) : ∃ s1, execHedgeRemove c data s = .next s1 ∧ s1.Inv pq := by
  unfold execHedgeRemove
  refine ⟨_, rfl, ?_⟩
  repeat' first
    | with_reducible assumption
    | intro x hx
    | with_reducible apply State.byCtx_inv
    | with_reducible apply State.hedgeRemove_inv
    | with_reducible apply State.refuseCtx_inv
    | split

theorem execHedgeUnblock_inv {e : BitVec 14} (hI : s.Inv pq) : ∃ s1, execHedgeUnblock e s = .next s1 ∧ s1.Inv pq := by
  unfold execHedgeUnblock
  refine ⟨_, rfl, ?_⟩
  repeat' first
    | with_reducible assumption
    | (extract_lets +onlyGivenNames x1; clear_value x1)
    | with_reducible apply State.hdgWake_inv
    | split

theorem execZoneWriteCascade_inv {n : Nat} {cause : Nat} (hI : s.Inv pq) : ∃ s1, execZoneWriteCascade n cause s = .next s1 ∧ s1.Inv pq := by
  unfold execZoneWriteCascade
  refine ⟨_, rfl, ?_⟩
  repeat' first
    | with_reducible assumption
    | with_reducible apply State.endUncommitted_inv
    | split

theorem State.hqPop_inv {c : CtxId} (hI : s.Inv pq) : (State.hqPop s c).1.Inv pq := by
  unfold State.hqPop
  repeat' first
    | with_reducible assumption
    | (extract_lets +onlyGivenNames s1; refine State.Inv.cut (s := s1) (q := pq) ?_ (fun _ => ?_); rotate_left; clear_value s1; rotate_left; dsimp -zeta only [s1]; clear s1)
    | (extract_lets +onlyGivenNames x1; clear_value x1)
    | intro x hx
    | with_reducible apply State.freeNext_inv
    | with_reducible apply State.modCmd_inv
    | with_reducible apply State.modCtx_inv
    | exact Ctx.Fits.keep hx rfl rfl rfl rfl rfl
    | split

theorem execHostCommandPop_inv {c : CtxId} {reg : BitVec 6} (hI : s.Inv pq) : ∃ s1, execHostCommandPop c reg s = .next s1 ∧ s1.Inv pq := by
  unfold execHostCommandPop
  refine ⟨_, rfl, ?_⟩
  repeat' first
    | with_reducible assumption
    | intro x hx
    | with_reducible apply State.byCtx_inv
    | with_reducible apply State.hqPop_inv
    | with_reducible apply State.modCtx_inv
    | with_reducible apply Ctx.wr_fits
    | with_reducible apply State.refuseCtx_inv
    | split

theorem State.hqCpl_inv {c : CtxId} {data : DWord} (hI : s.Inv pq) : (State.hqCpl s c data).Inv pq := by
  unfold State.hqCpl
  repeat' first
    | with_reducible assumption
    | with_reducible apply State.refuseCtx_inv
    | with_reducible apply State.endUncommitted_inv
    | with_reducible apply State.complete_inv
    | with_reducible apply State.raiseLine_inv
    | split

theorem execCompletionPost_inv {c : CtxId} {data : DWord} (hI : s.Inv pq) : ∃ s1, execCompletionPost c data s = .next s1 ∧ s1.Inv pq := by
  unfold execCompletionPost
  refine ⟨_, rfl, ?_⟩
  repeat' first
    | with_reducible assumption
    | intro x hx
    | with_reducible apply State.byCtx_inv
    | with_reducible apply State.hqCpl_inv
    | with_reducible apply State.refuseCtx_inv
    | split

end Sys2Proof.Machine
end

