-- ==== Sys2Proof/Laws/InvAdmin.lean ====
section
/-!
SUPPORT. The operations of Machine/Admin.lean keep the invariant.
-/
set_option Elab.async false
set_option linter.unusedTactic false
set_option linter.unreachableTactic false
namespace Sys2Proof.Machine

variable {pq : List Instr} {s : State}

theorem State.vfUse_inv {p : Side} {f : Nat} (hI : s.Inv pq) : (State.vfUse s p f).Inv pq := by
  unfold State.vfUse
  repeat' first
    | with_reducible assumption
    | with_reducible apply State.modHpt_inv
    | split

theorem execControllerEnable_inv {n : Nat} {asqs : Nat} {acqs : Nat} {wrr : Bool} (hI : s.Inv pq) : ∃ s1, execControllerEnable n asqs acqs wrr s = .next s1 ∧ s1.Inv pq := by
  unfold execControllerEnable
  refine ⟨_, rfl, ?_⟩
  repeat' first
    | with_reducible assumption
    | with_reducible apply State.vfUse_inv
    | with_reducible apply State.modCtrl_inv
    | split

theorem State.destroyCmd_inv {n : Nat} (hI : s.Inv pq) : (State.destroyCmd s n).Inv pq := by
  unfold State.destroyCmd
  repeat' first
    | with_reducible assumption
    | with_reducible apply State.endUncommitted_inv
    | with_reducible apply State.complete_inv
    | split

theorem State.ctrlReset_inv {n : Nat} (hI : s.Inv pq) : (State.ctrlReset s n).Inv pq := by
  unfold State.ctrlReset
  repeat' first
    | with_reducible assumption
    | intro x y hx
    | with_reducible apply State.setCtrl_inv
    | with_reducible apply State.modNve_inv
    | with_reducible apply State.destroyCmd_inv
    | with_reducible apply State.Inv.foldl

theorem execControllerReset_inv {n : Nat} (hI : s.Inv pq) : ∃ s1, execControllerReset n s = .next s1 ∧ s1.Inv pq := by
  unfold execControllerReset
  refine ⟨_, rfl, ?_⟩
  repeat' first
    | with_reducible assumption
    | with_reducible apply State.ctrlReset_inv
    | with_reducible apply State.setStat_inv
    | split

theorem execNormalShutdown_inv {n : Nat} (hI : s.Inv pq) : ∃ s1, execNormalShutdown n s = .next s1 ∧ s1.Inv pq := by
  unfold execNormalShutdown
  refine ⟨_, rfl, ?_⟩
  repeat' first
    | with_reducible assumption
    | with_reducible apply State.modCtrl_inv
    | with_reducible apply State.libCompact_inv
    | split

theorem execAbruptShutdown_inv {n : Nat} (hI : s.Inv pq) : ∃ s1, execAbruptShutdown n s = .next s1 ∧ s1.Inv pq := by
  unfold execAbruptShutdown
  refine ⟨_, rfl, ?_⟩
  repeat' first
    | with_reducible assumption
    | with_reducible apply State.modCtrl_inv
    | split

theorem State.adminCmd_inv {n : Nat} {opc : Byte} {f : State → Cmd → State} (hf : ∀ s a0, State.Inv pq s → (f s a0).Inv pq) (hI : s.Inv pq) : (State.adminCmd s n opc f).Inv pq := by
  unfold State.adminCmd
  repeat' first
    | with_reducible assumption
    | with_reducible apply hf
    | split

theorem State.bad_inv {c : Cmd} {typ : Nat} {code : Nat} (hI : s.Inv pq) : (State.bad s c typ code).Inv pq := by
  unfold State.bad
  repeat' first
    | with_reducible assumption
    | with_reducible apply State.complete_inv

theorem State.deleteSq_inv {c : Cmd} (hI : s.Inv pq) : (State.deleteSq s c).Inv pq := by
  unfold State.deleteSq
  repeat' first
    | with_reducible assumption
    | (extract_lets +onlyGivenNames s1; refine State.Inv.cut (s := s1) (q := pq) ?_ (fun _ => ?_); rotate_left; clear_value s1; rotate_left; dsimp -zeta only [s1]; clear s1)
    | (extract_lets +onlyGivenNames x1; clear_value x1)
    | intro x y hx
    | with_reducible apply State.bad_inv
    | with_reducible apply State.endUncommitted_inv
    | with_reducible apply State.complete_inv
    | with_reducible apply State.modCtrl_inv
    | with_reducible apply State.completeOk_inv
    | with_reducible apply State.Inv.foldl
    | split

theorem execDeleteIoSq_inv {n : Nat} (hI : s.Inv pq) : ∃ s1, execDeleteIoSq n s = .next s1 ∧ s1.Inv pq := by
  unfold execDeleteIoSq
  refine ⟨_, rfl, ?_⟩
  repeat' first
    | with_reducible assumption
    | intro x y hx
    | with_reducible apply State.adminCmd_inv
    | with_reducible apply State.deleteSq_inv

theorem State.createSq_inv {c : Cmd} (hI : s.Inv pq) : (State.createSq s c).Inv pq := by
  unfold State.createSq
  repeat' first
    | with_reducible assumption
    | (extract_lets +onlyGivenNames x1; clear_value x1)
    | with_reducible apply State.bad_inv
    | with_reducible apply State.complete_inv
    | with_reducible apply State.modCtrl_inv
    | with_reducible apply State.completeOk_inv
    | split

theorem execCreateIoSq_inv {n : Nat} (hI : s.Inv pq) : ∃ s1, execCreateIoSq n s = .next s1 ∧ s1.Inv pq := by
  unfold execCreateIoSq
  refine ⟨_, rfl, ?_⟩
  repeat' first
    | with_reducible assumption
    | intro x y hx
    | with_reducible apply State.adminCmd_inv
    | with_reducible apply State.createSq_inv

theorem State.deleteCq_inv {c : Cmd} (hI : s.Inv pq) : (State.deleteCq s c).Inv pq := by
  unfold State.deleteCq
  repeat' first
    | with_reducible assumption
    | (extract_lets +onlyGivenNames s1; refine State.Inv.cut (s := s1) (q := pq) ?_ (fun _ => ?_); rotate_left; clear_value s1; rotate_left; dsimp -zeta only [s1]; clear s1)
    | (extract_lets +onlyGivenNames x1; clear_value x1)
    | with_reducible apply State.bad_inv
    | with_reducible apply State.modCtrl_inv
    | with_reducible apply State.modNve_inv
    | with_reducible apply State.completeOk_inv
    | split

theorem execDeleteIoCq_inv {n : Nat} (hI : s.Inv pq) : ∃ s1, execDeleteIoCq n s = .next s1 ∧ s1.Inv pq := by
  unfold execDeleteIoCq
  refine ⟨_, rfl, ?_⟩
  repeat' first
    | with_reducible assumption
    | intro x y hx
    | with_reducible apply State.adminCmd_inv
    | with_reducible apply State.deleteCq_inv

theorem State.createCq_inv {c : Cmd} (hI : s.Inv pq) : (State.createCq s c).Inv pq := by
  unfold State.createCq
  repeat' first
    | with_reducible assumption
    | (extract_lets +onlyGivenNames x1; clear_value x1)
    | with_reducible apply State.bad_inv
    | with_reducible apply State.complete_inv
    | with_reducible apply State.modCtrl_inv
    | with_reducible apply State.completeOk_inv
    | split

theorem execCreateIoCq_inv {n : Nat} (hI : s.Inv pq) : ∃ s1, execCreateIoCq n s = .next s1 ∧ s1.Inv pq := by
  unfold execCreateIoCq
  refine ⟨_, rfl, ?_⟩
  repeat' first
    | with_reducible assumption
    | intro x y hx
    | with_reducible apply State.adminCmd_inv
    | with_reducible apply State.createCq_inv

theorem State.dataBack_inv {n : Nat} {f : Nat → Option Byte} (hI : s.Inv pq) : (State.dataBack s n f).Inv pq := by
  unfold State.dataBack
  repeat' first
    | with_reducible assumption
    | (extract_lets +onlyGivenNames x1; clear_value x1)
    | with_reducible apply State.modNve_inv
    | with_reducible apply State.freeBy_inv

theorem State.recorderPage_inv {off : Nat} {n : Nat} (hI : s.Inv pq) : (State.recorderPage s off n).Inv pq := by
  unfold State.recorderPage
  repeat' first
    | with_reducible assumption
    | (extract_lets +onlyGivenNames x1; clear_value x1)
    | with_reducible apply State.modEvr_inv
    | split

theorem State.getLog_inv {c : Cmd} (hI : s.Inv pq) : (State.getLog s c).Inv pq := by
  unfold State.getLog
  repeat' first
    | with_reducible assumption
    | (extract_lets +onlyGivenNames s1; refine State.Inv.cut (s := s1) (q := pq) ?_ (fun _ => ?_); rotate_left; clear_value s1; rotate_left; dsimp -zeta only [s1]; clear s1)
    | (extract_lets +onlyGivenNames x1; clear_value x1)
    | with_reducible apply State.complete_inv
    | with_reducible apply State.modCtrl_inv
    | with_reducible apply State.recorderPage_inv
    | with_reducible apply State.dataBack_inv
    | with_reducible apply State.completeOk_inv
    | split

theorem execGetLogPage_inv {n : Nat} (hI : s.Inv pq) : ∃ s1, execGetLogPage n s = .next s1 ∧ s1.Inv pq := by
  unfold execGetLogPage
  refine ⟨_, rfl, ?_⟩
  repeat' first
    | with_reducible assumption
    | (intro x y hx; beta_reduce)
    | with_reducible apply State.adminCmd_inv
    | with_reducible apply State.getLog_inv

theorem State.identify_inv {c : Cmd} (hI : s.Inv pq) : (State.identify s c).Inv pq := by
  unfold State.identify
  repeat' first
    | with_reducible assumption
    | (extract_lets +onlyGivenNames x1; clear_value x1)
    | with_reducible apply State.dataBack_inv
    | with_reducible apply State.completeOk_inv
    | with_reducible apply State.complete_inv
    | split

theorem execIdentify_inv {n : Nat} (hI : s.Inv pq) : ∃ s1, execIdentify n s = .next s1 ∧ s1.Inv pq := by
  unfold execIdentify
  refine ⟨_, rfl, ?_⟩
  repeat' first
    | with_reducible assumption
    | (intro x y hx; beta_reduce)
    | with_reducible apply State.adminCmd_inv
    | with_reducible apply State.identify_inv

theorem State.notAborted_inv {a : Cmd} (hI : s.Inv pq) : (State.notAborted s a).Inv pq := by
  unfold State.notAborted
  repeat' first
    | with_reducible assumption
    | with_reducible apply State.complete_inv
    | with_reducible apply State.bump_inv

theorem State.abort_inv {a : Cmd} (hI : s.Inv pq) : (State.abort s a).Inv pq := by
  unfold State.abort
  repeat' first
    | with_reducible assumption
    | with_reducible apply State.bad_inv
    | with_reducible apply State.complete_inv
    | with_reducible apply State.notAborted_inv
    | with_reducible apply State.modCtrl_inv
    | with_reducible apply State.modCmd_inv
    | split

theorem execAbort_inv {n : Nat} (hI : s.Inv pq) : ∃ s1, execAbort n s = .next s1 ∧ s1.Inv pq := by
  unfold execAbort
  refine ⟨_, rfl, ?_⟩
  repeat' first
    | with_reducible assumption
    | intro x y hx
    | with_reducible apply State.adminCmd_inv
    | with_reducible apply State.abort_inv

theorem State.setFeature_inv {c : Cmd} {hid : BitVec 128} {ts : BitVec 48} (hI : s.Inv pq) : (State.setFeature s c hid ts).Inv pq := by
  unfold State.setFeature
  repeat' first
    | with_reducible assumption
    | (extract_lets +onlyGivenNames s1; refine State.Inv.cut (s := s1) (q := pq) ?_ (fun _ => ?_); rotate_left; clear_value s1; rotate_left; dsimp -zeta only [s1]; clear s1)
    | (extract_lets +onlyGivenNames x1; clear_value x1)
    | with_reducible apply State.complete_inv
    | with_reducible apply State.modCtrl_inv
    | with_reducible apply State.modNve_inv
    | with_reducible apply State.modEvr_inv
    | with_reducible apply State.calendarSet_inv
    | with_reducible apply State.completeOk_inv
    | split

theorem execSetFeatures_inv {n : Nat} {hid : BitVec 128} {ts : BitVec 48} (hI : s.Inv pq) : ∃ s1, execSetFeatures n hid ts s = .next s1 ∧ s1.Inv pq := by
  unfold execSetFeatures
  refine ⟨_, rfl, ?_⟩
  repeat' first
    | with_reducible assumption
    | intro x y hx
    | with_reducible apply State.adminCmd_inv
    | with_reducible apply State.setFeature_inv

theorem execGetFeatures_inv {n : Nat} (hI : s.Inv pq) : ∃ s1, execGetFeatures n s = .next s1 ∧ s1.Inv pq := by
  unfold execGetFeatures
  refine ⟨_, rfl, ?_⟩
  repeat' first
    | with_reducible assumption
    | (extract_lets +onlyGivenNames x1; clear_value x1)
    | intro x y hx
    | with_reducible apply State.adminCmd_inv
    | with_reducible apply State.complete_inv
    | split

theorem execAsynchronousEventRequest_inv {n : Nat} (hI : s.Inv pq) : ∃ s1, execAsynchronousEventRequest n s = .next s1 ∧ s1.Inv pq := by
  unfold execAsynchronousEventRequest
  refine ⟨_, rfl, ?_⟩
  repeat' first
    | with_reducible assumption
    | intro x y hx
    | with_reducible apply State.adminCmd_inv
    | with_reducible apply State.bad_inv
    | with_reducible apply State.modCmd_inv
    | with_reducible apply State.modCtrl_inv
    | split

theorem execAsyncEventPost_inv {n : Nat} (hI : s.Inv pq) : ∃ s1, execAsyncEventPost n s = .next s1 ∧ s1.Inv pq := by
  unfold execAsyncEventPost
  refine ⟨_, rfl, ?_⟩
  repeat' first
    | with_reducible assumption
    | with_reducible apply State.modCtrl_inv
    | with_reducible apply State.complete_inv
    | split

theorem State.bindZone_inv {n : Nat} {z : Nat} (hI : s.Inv pq) : (State.bindZone s n z).Inv pq := by
  unfold State.bindZone
  repeat' first
    | with_reducible assumption
    | with_reducible apply State.putZent_inv
    | with_reducible apply State.bumpGen_inv
    | split

theorem State.bindZones_inv {n : Nat} {count : Nat} (hI : s.Inv pq) : (State.bindZones s n count).Inv pq := by
  unfold State.bindZones
  repeat' first
    | with_reducible assumption
    | (intro x y hx; beta_reduce)
    | with_reducible apply State.bindZone_inv
    | with_reducible apply State.Inv.foldl

theorem State.nsCreate_inv {c : Cmd} {zoned : Bool} {size : Nat} {lbaf : Nat} (hI : s.Inv pq) : (State.nsCreate s c zoned size lbaf).Inv pq := by
  unfold State.nsCreate
  repeat' first
    | with_reducible assumption
    | (extract_lets +onlyGivenNames s1; refine State.Inv.cut (s := s1) (q := pq) ?_ (fun _ => ?_); rotate_left; clear_value s1; rotate_left; dsimp -zeta only [s1]; clear s1)
    | (extract_lets +onlyGivenNames x1; clear_value x1)
    | with_reducible apply State.bad_inv
    | with_reducible apply State.complete_inv
    | with_reducible apply State.setNs_inv
    | with_reducible apply State.bindZones_inv
    | with_reducible apply State.putCfg_inv
    | split

theorem State.resetZones_inv {n : Nat} (hI : s.Inv pq) : (State.resetZones s n).Inv pq := by
  unfold State.resetZones
  repeat' first
    | with_reducible assumption
    | intro x y hx
    | with_reducible apply State.zoneReset_inv
    | with_reducible apply State.Inv.foldl

theorem State.forgetConv_inv {n : Nat} (hI : s.Inv pq) : (State.forgetConv s n).Inv pq := by
  unfold State.forgetConv
  repeat' first
    | with_reducible assumption
    | (extract_lets +onlyGivenNames s1; refine State.Inv.cut (s := s1) (q := pq) ?_ (fun _ => ?_); rotate_left; clear_value s1; rotate_left; dsimp -zeta only [s1]; clear s1)
    | (intro x y hx; beta_reduce)
    | with_reducible apply State.pieceOut_inv
    | with_reducible apply State.unstage_inv
    | with_reducible apply State.modWin_inv
    | with_reducible apply State.Inv.foldl
    | split

theorem State.nsClear_inv {n : Nat} (hI : s.Inv pq) : (State.nsClear s n).Inv pq := by
  unfold State.nsClear
  repeat' first
    | with_reducible assumption
    | with_reducible apply State.resetZones_inv
    | with_reducible apply State.forgetConv_inv

theorem State.nsDelete_inv {n : Nat} (hI : s.Inv pq) : (State.nsDelete s n).Inv pq := by
  unfold State.nsDelete
  repeat' first
    | with_reducible assumption
    | (extract_lets +onlyGivenNames s1; refine State.Inv.cut (s := s1) (q := pq) ?_ (fun _ => ?_); rotate_left; clear_value s1; rotate_left; dsimp -zeta only [s1]; clear s1)
    | (extract_lets +onlyGivenNames x1; clear_value x1)
    | (intro x y hx; beta_reduce)
    | with_reducible apply State.nsClear_inv
    | with_reducible apply State.putZent_inv
    | with_reducible apply State.bumpGen_inv
    | with_reducible apply State.modWin_inv
    | with_reducible apply State.setNs_inv
    | with_reducible apply State.modNve_inv
    | with_reducible apply State.Inv.foldl

theorem State.nsManage_inv {c : Cmd} {zoned : Bool} {size : Nat} {lbaf : Nat} (hI : s.Inv pq) : (State.nsManage s c zoned size lbaf).Inv pq := by
  unfold State.nsManage
  repeat' first
    | with_reducible assumption
    | intro x y hx
    | with_reducible apply State.bad_inv
    | with_reducible apply State.nsCreate_inv
    | with_reducible apply State.nsDelete_inv
    | with_reducible apply State.completeOk_inv
    | with_reducible apply State.complete_inv
    | with_reducible apply State.Inv.foldl
    | split

theorem execNamespaceManagement_inv {n : Nat} {zoned : Bool} {size : Nat} {lbaf : Nat} (hI : s.Inv pq) : ∃ s1, execNamespaceManagement n zoned size lbaf s = .next s1 ∧ s1.Inv pq := by
  unfold execNamespaceManagement
  refine ⟨_, rfl, ?_⟩
  repeat' first
    | with_reducible assumption
    | intro x y hx
    | with_reducible apply State.adminCmd_inv
    | with_reducible apply State.nsManage_inv

theorem State.nsAttach_inv {c : Cmd} {cs : List Nat} (hI : s.Inv pq) : (State.nsAttach s c cs).Inv pq := by
  unfold State.nsAttach
  repeat' first
    | with_reducible assumption
    | with_reducible apply State.bad_inv
    | with_reducible apply State.setNs_inv
    | with_reducible apply State.completeOk_inv
    | with_reducible apply State.complete_inv
    | split

theorem execNamespaceAttachment_inv {n : Nat} {cs : List Nat} (hI : s.Inv pq) : ∃ s1, execNamespaceAttachment n cs s = .next s1 ∧ s1.Inv pq := by
  unfold execNamespaceAttachment
  refine ⟨_, rfl, ?_⟩
  repeat' first
    | with_reducible assumption
    | intro x y hx
    | with_reducible apply State.adminCmd_inv
    | with_reducible apply State.nsAttach_inv

theorem State.fwCommit_inv {c : Cmd} {ok : Bool} (hI : s.Inv pq) : (State.fwCommit s c ok).Inv pq := by
  unfold State.fwCommit
  repeat' first
    | with_reducible assumption
    | (extract_lets +onlyGivenNames s1; refine State.Inv.cut (s := s1) (q := pq) ?_ (fun _ => ?_); rotate_left; clear_value s1; rotate_left; dsimp -zeta only [s1]; clear s1)
    | (extract_lets +onlyGivenNames x1; clear_value x1)
    | with_reducible apply State.complete_inv
    | with_reducible apply State.bad_inv
    | with_reducible apply State.modNve_inv
    | with_reducible apply State.completeOk_inv
    | split

theorem execFirmwareCommit_inv {n : Nat} {ok : Bool} (hI : s.Inv pq) : ∃ s1, execFirmwareCommit n ok s = .next s1 ∧ s1.Inv pq := by
  unfold execFirmwareCommit
  refine ⟨_, rfl, ?_⟩
  repeat' first
    | with_reducible assumption
    | intro x y hx
    | with_reducible apply State.adminCmd_inv
    | with_reducible apply State.fwCommit_inv

theorem State.fwDownload_inv {c : Cmd} {data : List Byte} (hI : s.Inv pq) : (State.fwDownload s c data).Inv pq := by
  unfold State.fwDownload
  repeat' first
    | with_reducible assumption
    | (extract_lets +onlyGivenNames x1; clear_value x1)
    | with_reducible apply State.complete_inv
    | with_reducible apply State.modNve_inv
    | with_reducible apply State.completeOk_inv
    | split

theorem execFirmwareImageDownload_inv {n : Nat} {data : List Byte} (hI : s.Inv pq) : ∃ s1, execFirmwareImageDownload n data s = .next s1 ∧ s1.Inv pq := by
  unfold execFirmwareImageDownload
  refine ⟨_, rfl, ?_⟩
  repeat' first
    | with_reducible assumption
    | intro x y hx
    | with_reducible apply State.adminCmd_inv
    | with_reducible apply State.fwDownload_inv

theorem State.selfTestCmd_inv {c : Cmd} (hI : s.Inv pq) : (State.selfTestCmd s c).Inv pq := by
  unfold State.selfTestCmd
  repeat' first
    | with_reducible assumption
    | with_reducible apply State.bad_inv
    | with_reducible apply State.modNve_inv
    | with_reducible apply State.completeOk_inv
    | with_reducible apply State.complete_inv
    | split

theorem execDeviceSelfTest_inv {n : Nat} (hI : s.Inv pq) : ∃ s1, execDeviceSelfTest n s = .next s1 ∧ s1.Inv pq := by
  unfold execDeviceSelfTest
  refine ⟨_, rfl, ?_⟩
  repeat' first
    | with_reducible assumption
    | intro x y hx
    | with_reducible apply State.adminCmd_inv
    | with_reducible apply State.selfTestCmd_inv

theorem State.virtMgmt_inv {c : Cmd} (hI : s.Inv pq) : (State.virtMgmt s c).Inv pq := by
  unfold State.virtMgmt
  repeat' first
    | with_reducible assumption
    | (extract_lets +onlyGivenNames x1; clear_value x1)
    | with_reducible apply State.bad_inv
    | with_reducible apply State.complete_inv
    | with_reducible apply State.allocQ_inv
    | with_reducible apply State.completeOk_inv
    | with_reducible apply State.nveInt_inv
    | with_reducible refine OptInv.all ?_ _ (by assumption)
    | split

theorem execVirtualizationManagement_inv {n : Nat} (hI : s.Inv pq) : ∃ s1, execVirtualizationManagement n s = .next s1 ∧ s1.Inv pq := by
  unfold execVirtualizationManagement
  refine ⟨_, rfl, ?_⟩
  repeat' first
    | with_reducible assumption
    | intro x y hx
    | with_reducible apply State.adminCmd_inv
    | with_reducible apply State.virtMgmt_inv

theorem execNvmeMiSend_inv {n : Nat} (hI : s.Inv pq) : ∃ s1, execNvmeMiSend n s = .next s1 ∧ s1.Inv pq := by
  unfold execNvmeMiSend
  refine ⟨_, rfl, ?_⟩
  repeat' first
    | with_reducible assumption
    | intro x y hx
    | with_reducible apply State.adminCmd_inv
    | with_reducible apply State.completeOk_inv

theorem execNvmeMiReceive_inv {n : Nat} (hI : s.Inv pq) : ∃ s1, execNvmeMiReceive n s = .next s1 ∧ s1.Inv pq := by
  unfold execNvmeMiReceive
  refine ⟨_, rfl, ?_⟩
  repeat' first
    | with_reducible assumption
    | intro x y hx
    | with_reducible apply State.adminCmd_inv
    | with_reducible apply State.completeOk_inv

theorem State.security_inv {c : Cmd} (hI : s.Inv pq) : (State.security s c).Inv pq := by
  unfold State.security
  repeat' first
    | with_reducible assumption
    | with_reducible apply State.completeOk_inv
    | with_reducible apply State.complete_inv
    | split

theorem execSecuritySend_inv {n : Nat} (hI : s.Inv pq) : ∃ s1, execSecuritySend n s = .next s1 ∧ s1.Inv pq := by
  unfold execSecuritySend
  refine ⟨_, rfl, ?_⟩
  repeat' first
    | with_reducible assumption
    | intro x y hx
    | with_reducible apply State.adminCmd_inv
    | with_reducible apply State.security_inv

theorem execSecurityReceive_inv {n : Nat} (hI : s.Inv pq) : ∃ s1, execSecurityReceive n s = .next s1 ∧ s1.Inv pq := by
  unfold execSecurityReceive
  refine ⟨_, rfl, ?_⟩
  repeat' first
    | with_reducible assumption
    | intro x y hx
    | with_reducible apply State.adminCmd_inv
    | with_reducible apply State.security_inv

theorem State.cryptoErase_inv {n : Nat} (hI : s.Inv pq) : (State.cryptoErase s n).Inv pq := by
  unfold State.cryptoErase
  repeat' first
    | with_reducible assumption
    | (extract_lets +onlyGivenNames s1; refine State.Inv.cut (s := s1) (q := pq) ?_ (fun _ => ?_); rotate_left; clear_value s1; rotate_left; dsimp -zeta only [s1]; clear s1)
    | with_reducible apply State.slotZeroize_inv
    | with_reducible apply State.nsClear_inv
    | split

theorem State.bindReserved_inv {x : Side} {use : Nat} (hI : s.Inv pq) : (State.bindReserved s x use).Inv pq := by
  unfold State.bindReserved
  repeat' first
    | with_reducible assumption
    | with_reducible apply State.putZent_inv
    | with_reducible apply State.bumpGen_inv
    | split

theorem State.fillReserved_inv {x : Side} {use : Nat} {n : Nat} (hI : s.Inv pq) : (State.fillReserved s x use n).Inv pq := by
  unfold State.fillReserved
  repeat' first
    | with_reducible assumption
    | (intro x y hx; beta_reduce)
    | with_reducible apply State.bindReserved_inv
    | with_reducible apply State.Inv.foldl

theorem State.reservedGroups_inv {x : Side} (hI : s.Inv pq) : (State.reservedGroups s x).Inv pq := by
  unfold State.reservedGroups
  repeat' first
    | with_reducible assumption
    | (extract_lets +onlyGivenNames x1; clear_value x1)
    | with_reducible apply State.fillReserved_inv

theorem State.formatOne_inv {c : Cmd} {n : Nat} (hI : s.Inv pq) : (State.formatOne s c n).Inv pq := by
  unfold State.formatOne
  repeat' first
    | with_reducible assumption
    | (extract_lets +onlyGivenNames s1; refine State.Inv.cut (s := s1) (q := pq) ?_ (fun _ => ?_); rotate_left; clear_value s1; rotate_left; dsimp -zeta only [s1]; clear s1)
    | (extract_lets +onlyGivenNames x1; clear_value x1)
    | with_reducible apply State.cryptoErase_inv
    | with_reducible apply State.nsClear_inv
    | with_reducible apply State.putCfg_inv
    | split

theorem State.format_inv {c : Cmd} (hI : s.Inv pq) : (State.format s c).Inv pq := by
  unfold State.format
  repeat' first
    | with_reducible assumption
    | (extract_lets +onlyGivenNames s1; refine State.Inv.cut (s := s1) (q := pq) ?_ (fun _ => ?_); rotate_left; clear_value s1; rotate_left; dsimp -zeta only [s1]; clear s1)
    | (extract_lets +onlyGivenNames x1; clear_value x1)
    | (intro x y hx; beta_reduce)
    | with_reducible apply State.bad_inv
    | with_reducible apply State.complete_inv
    | with_reducible apply State.formatOne_inv
    | with_reducible apply State.reservedGroups_inv
    | with_reducible apply State.modCrn_inv
    | with_reducible apply State.completeOk_inv
    | with_reducible apply State.Inv.foldl
    | split

theorem execFormatNvm_inv {n : Nat} (hI : s.Inv pq) : ∃ s1, execFormatNvm n s = .next s1 ∧ s1.Inv pq := by
  unfold execFormatNvm
  refine ⟨_, rfl, ?_⟩
  repeat' first
    | with_reducible assumption
    | intro x y hx
    | with_reducible apply State.adminCmd_inv
    | with_reducible apply State.format_inv

theorem State.sanitize_inv {c : Cmd} (hI : s.Inv pq) : (State.sanitize s c).Inv pq := by
  unfold State.sanitize
  repeat' first
    | with_reducible assumption
    | intro x y hx
    | with_reducible apply State.complete_inv
    | with_reducible apply State.cryptoErase_inv
    | with_reducible apply State.modNve_inv
    | with_reducible apply State.completeOk_inv
    | with_reducible apply State.Inv.foldl
    | split

theorem execSanitize_inv {n : Nat} (hI : s.Inv pq) : ∃ s1, execSanitize n s = .next s1 ∧ s1.Inv pq := by
  unfold execSanitize
  refine ⟨_, rfl, ?_⟩
  repeat' first
    | with_reducible assumption
    | intro x y hx
    | with_reducible apply State.adminCmd_inv
    | with_reducible apply State.sanitize_inv

theorem execInvalidOpcode_inv {n : Nat} (hI : s.Inv pq) : ∃ s1, execInvalidOpcode n s = .next s1 ∧ s1.Inv pq := by
  unfold execInvalidOpcode
  refine ⟨_, rfl, ?_⟩
  repeat' first
    | with_reducible assumption
    | with_reducible apply State.complete_inv
    | split

end Sys2Proof.Machine
end

