-- ==== Sys2Proof/Laws/InvHostPort.lean ====
section
/-!
SUPPORT. The operations of Machine/HostPort.lean keep the invariant.
-/
set_option Elab.async false
set_option linter.unusedTactic false
set_option linter.unreachableTactic false
namespace Sys2Proof.Machine

variable {pq : List Instr} {s : State}

theorem State.hptInt_inv {p : Side} {i : Nat} (hI : s.Inv pq) : (State.hptInt s p i).Inv pq := by
  unfold State.hptInt
  repeat' first
    | with_reducible assumption
    | with_reducible apply State.setStat_inv

theorem State.modRcpPerst_inv {p : Side} {v : Bool} (hI : s.Inv pq) : (State.modRcpPerst s p v).Inv pq := by
  unfold State.modRcpPerst
  repeat' first
    | with_reducible assumption
    | with_reducible apply State.modRcp_inv

theorem State.portCtrls_inv {p : Side} (hI : s.Inv pq) : (State.portCtrls s p).Inv pq := by
  unfold State.portCtrls
  repeat' first
    | with_reducible assumption
    | intro x y hx
    | with_reducible apply State.ctrlReset_inv
    | with_reducible apply State.Inv.foldl
    | split

theorem execPcieLinkDown_inv {p : Side} (hI : s.Inv pq) : ∃ s1, execPcieLinkDown p s = .next s1 ∧ s1.Inv pq := by
  unfold execPcieLinkDown
  refine ⟨_, rfl, ?_⟩
  repeat' first
    | with_reducible assumption
    | with_reducible apply State.modHpt_inv
    | with_reducible apply State.hptInt_inv
    | with_reducible apply State.portCtrls_inv
    | split

theorem execHotReset_inv {p : Side} (hI : s.Inv pq) : ∃ s1, execHotReset p s = .next s1 ∧ s1.Inv pq := by
  unfold execHotReset
  refine ⟨_, rfl, ?_⟩
  repeat' first
    | with_reducible assumption
    | with_reducible apply State.modHpt_inv
    | with_reducible apply State.hptInt_inv
    | with_reducible apply State.portCtrls_inv
    | with_reducible apply State.setStat_inv
    | split

theorem State.portRegs_inv {p : Side} (hI : s.Inv pq) : (State.portRegs s p).Inv pq := by
  unfold State.portRegs
  repeat' first
    | with_reducible assumption
    | with_reducible apply State.keepRegs_inv

theorem execPerst_inv {p : Side} (hI : s.Inv pq) : ∃ s1, execPerst p s = .next s1 ∧ s1.Inv pq := by
  unfold execPerst
  refine ⟨_, rfl, ?_⟩
  repeat' first
    | with_reducible assumption
    | with_reducible apply State.portCtrls_inv
    | with_reducible apply State.portRegs_inv
    | with_reducible apply State.modRcpPerst_inv
    | with_reducible apply State.setStat_inv
    | with_reducible apply State.modHpt_inv
    | split

theorem State.linkTrain_inv {p : Side} {speed : Nat} {width : Nat} (hI : s.Inv pq) : (State.linkTrain s p speed width).Inv pq := by
  unfold State.linkTrain
  repeat' first
    | with_reducible assumption
    | with_reducible apply State.traffic_inv
    | with_reducible apply State.modHpt_inv
    | split

theorem State.cfgReady_inv {p : Side} (hI : s.Inv pq) : (State.cfgReady s p).Inv pq := by
  unfold State.cfgReady
  repeat' first
    | with_reducible assumption
    | with_reducible apply State.setStat_inv
    | split

theorem execPerstRelease_inv {p : Side} {speed : Nat} {width : Nat} (hI : s.Inv pq) : ∃ s1, execPerstRelease p speed width s = .next s1 ∧ s1.Inv pq := by
  unfold execPerstRelease
  refine ⟨_, rfl, ?_⟩
  repeat' first
    | with_reducible assumption
    | (extract_lets +onlyGivenNames s1; refine State.Inv.cut (s := s1) (q := pq) ?_ (fun _ => ?_); rotate_left; clear_value s1; rotate_left; dsimp -zeta only [s1]; clear s1)
    | with_reducible apply State.modRcpPerst_inv
    | with_reducible apply State.modHpt_inv
    | with_reducible apply State.linkTrain_inv
    | with_reducible apply State.cfgReady_inv
    | split

theorem State.retrain_inv {p : Side} {speed : Nat} {width : Nat} (hI : s.Inv pq) : (State.retrain s p speed width).Inv pq := by
  unfold State.retrain
  repeat' first
    | with_reducible assumption
    | with_reducible apply State.linkTrain_inv
    | split

theorem State.hptAccess_inv {x : Accessor} {p : Side} {f : State → State} (hf : ∀ s, State.Inv pq s → (f s).Inv pq) (hI : s.Inv pq) : (State.hptAccess s x p f).Inv pq := by
  unfold State.hptAccess
  repeat' first
    | with_reducible assumption
    | intro x hx
    | with_reducible apply State.access_inv
    | with_reducible apply hf
    | split

theorem execRetrain_inv {x : Accessor} {p : Side} {speed : Nat} {width : Nat} (hI : s.Inv pq) : ∃ s1, execRetrain x p speed width s = .next s1 ∧ s1.Inv pq := by
  unfold execRetrain
  refine ⟨_, rfl, ?_⟩
  repeat' first
    | with_reducible assumption
    | intro x hx
    | with_reducible apply State.hptAccess_inv
    | with_reducible apply State.retrain_inv

theorem execReequalize_inv {x : Accessor} {p : Side} (hI : s.Inv pq) : ∃ s1, execReequalize x p s = .next s1 ∧ s1.Inv pq := by
  unfold execReequalize
  refine ⟨_, rfl, ?_⟩
  repeat' first
    | with_reducible assumption
    | intro x hx
    | with_reducible apply State.hptAccess_inv
    | with_reducible apply State.freeNext_inv

theorem execFlr_inv {p : Side} {f : BitVec 6} (hI : s.Inv pq) : ∃ s1, execFlr p f s = .next s1 ∧ s1.Inv pq := by
  unfold execFlr
  refine ⟨_, rfl, ?_⟩
  repeat' first
    | with_reducible assumption
    | with_reducible apply State.hptInt_inv
    | with_reducible apply State.ctrlReset_inv
    | with_reducible apply State.setStat_inv
    | split

theorem execPoisonedTlp_inv {p : Side} {n : Nat} (hI : s.Inv pq) : ∃ s1, execPoisonedTlp p n s = .next s1 ∧ s1.Inv pq := by
  unfold execPoisonedTlp
  refine ⟨_, rfl, ?_⟩
  repeat' first
    | with_reducible assumption
    | (extract_lets +onlyGivenNames s1; refine State.Inv.cut (s := s1) (q := pq) ?_ (fun _ => ?_); rotate_left; clear_value s1; rotate_left; dsimp -zeta only [s1]; clear s1)
    | with_reducible apply State.traffic_inv
    | with_reducible apply State.hptInt_inv
    | with_reducible apply State.bump_inv
    | with_reducible apply State.endUncommitted_inv
    | split

theorem State.answer_inv {r : MgmtReply} (hI : s.Inv pq) : (State.answer s r).Inv pq := by
  unfold State.answer
  repeat' first
    | with_reducible assumption
    | with_reducible apply State.modMgmt_inv

theorem execNvmeMiBasicCommand_inv {addr : BitVec 7} (hI : s.Inv pq) : ∃ s1, execNvmeMiBasicCommand addr s = .next s1 ∧ s1.Inv pq := by
  unfold execNvmeMiBasicCommand
  refine ⟨_, rfl, ?_⟩
  repeat' first
    | with_reducible assumption
    | with_reducible apply State.answer_inv
    | with_reducible apply State.modMgmt_inv
    | with_reducible apply State.freeNext_inv
    | split

theorem execSmbusTimeout_inv (hI : s.Inv pq) : ∃ s1, execSmbusTimeout s = .next s1 ∧ s1.Inv pq := by
  unfold execSmbusTimeout
  refine ⟨_, rfl, ?_⟩
  repeat' first
    | with_reducible assumption
    | with_reducible apply State.modMgmt_inv

theorem execGetVersion_inv (hI : s.Inv pq) : ∃ s1, execGetVersion s = .next s1 ∧ s1.Inv pq := by
  unfold execGetVersion
  refine ⟨_, rfl, ?_⟩
  repeat' first
    | with_reducible assumption
    | with_reducible apply State.answer_inv
    | with_reducible apply State.modMgmt_inv

theorem execGetCapabilities_inv (hI : s.Inv pq) : ∃ s1, execGetCapabilities s = .next s1 ∧ s1.Inv pq := by
  unfold execGetCapabilities
  refine ⟨_, rfl, ?_⟩
  repeat' first
    | with_reducible assumption
    | with_reducible apply State.answer_inv
    | with_reducible apply State.modMgmt_inv
    | split

theorem execNegotiateAlgorithms_inv {p384 : Bool} {sha384 : Bool} (hI : s.Inv pq) : ∃ s1, execNegotiateAlgorithms p384 sha384 s = .next s1 ∧ s1.Inv pq := by
  unfold execNegotiateAlgorithms
  refine ⟨_, rfl, ?_⟩
  repeat' first
    | with_reducible assumption
    | with_reducible apply State.answer_inv
    | with_reducible apply State.modMgmt_inv
    | split

theorem State.spdm_inv {f : State → State} (hf : ∀ s, State.Inv pq s → (f s).Inv pq) (hI : s.Inv pq) : (State.spdm s f).Inv pq := by
  unfold State.spdm
  repeat' first
    | with_reducible assumption
    | with_reducible apply State.answer_inv
    | with_reducible apply hf
    | split

theorem execGetDigests_inv (hI : s.Inv pq) : ∃ s1, execGetDigests s = .next s1 ∧ s1.Inv pq := by
  unfold execGetDigests
  refine ⟨_, rfl, ?_⟩
  repeat' first
    | with_reducible assumption
    | intro x hx
    | with_reducible apply State.spdm_inv
    | with_reducible apply State.answer_inv

theorem execGetCertificate_inv {slot : BitVec 4} (hI : s.Inv pq) : ∃ s1, execGetCertificate slot s = .next s1 ∧ s1.Inv pq := by
  unfold execGetCertificate
  refine ⟨_, rfl, ?_⟩
  repeat' first
    | with_reducible assumption
    | intro x hx
    | with_reducible apply State.spdm_inv
    | with_reducible apply State.answer_inv
    | split

theorem execChallenge_inv {nonce : BitVec 256} (hI : s.Inv pq) : ∃ s1, execChallenge nonce s = .next s1 ∧ s1.Inv pq := by
  unfold execChallenge
  refine ⟨_, rfl, ?_⟩
  repeat' first
    | with_reducible assumption
    | intro x hx
    | with_reducible apply State.spdm_inv
    | with_reducible apply State.answer_inv
    | split

theorem execGetMeasurements_inv {idx : Byte} (hI : s.Inv pq) : ∃ s1, execGetMeasurements idx s = .next s1 ∧ s1.Inv pq := by
  unfold execGetMeasurements
  refine ⟨_, rfl, ?_⟩
  repeat' first
    | with_reducible assumption
    | intro x hx
    | with_reducible apply State.spdm_inv
    | with_reducible apply State.answer_inv
    | split

theorem execKeyExchange_inv (hI : s.Inv pq) : ∃ s1, execKeyExchange s = .next s1 ∧ s1.Inv pq := by
  unfold execKeyExchange
  refine ⟨_, rfl, ?_⟩
  repeat' first
    | with_reducible assumption
    | with_reducible apply State.answer_inv

end Sys2Proof.Machine
end

