-- ==== Sys2Proof/Laws/InvPackage.lean ====
section
/-!
SUPPORT. The operations of Machine/Package.lean keep the invariant.
-/
set_option Elab.async false
set_option linter.unusedTactic false
set_option linter.unreachableTactic false
namespace Sys2Proof.Machine

variable {pq : List Instr} {s : State}

theorem execGpioEdge_inv {n : BitVec 4} {rising : Bool} (hI : s.Inv pq) : ∃ s1, execGpioEdge n rising s = .next s1 ∧ s1.Inv pq := by
  unfold execGpioEdge
  refine ⟨_, rfl, ?_⟩
  repeat' first
    | with_reducible assumption
    | (extract_lets +onlyGivenNames s1; refine State.Inv.cut (s := s1) (q := pq) ?_ (fun _ => ?_); rotate_left; clear_value s1; rotate_left; dsimp -zeta only [s1]; clear s1)
    | with_reducible apply State.modPins_inv
    | with_reducible apply State.setStat_inv
    | split

theorem State.libShutdown_inv (hI : s.Inv pq) : (State.libShutdown s).Inv pq := by
  unfold State.libShutdown
  repeat' first
    | with_reducible assumption
    | with_reducible apply State.libCompact_inv
    | with_reducible apply State.spWrite_inv
    | split

theorem execPwrdisRise_inv (hI : s.Inv pq) : ∃ s1, execPwrdisRise s = .next s1 ∧ s1.Inv pq := by
  unfold execPwrdisRise
  refine ⟨_, rfl, ?_⟩
  repeat' first
    | with_reducible assumption
    | with_reducible apply State.libShutdown_inv
    | with_reducible apply State.modPins_inv
    | with_reducible apply State.setStat_inv
    | split

theorem execPwrdisFall_inv (hI : s.Inv pq) : ∃ s1, execPwrdisFall s = .next s1 ∧ s1.Inv pq := by
  unfold execPwrdisFall
  refine ⟨_, rfl, ?_⟩
  repeat' first
    | with_reducible assumption
    | with_reducible apply State.modPins_inv
    | with_reducible apply State.setStat_inv
    | with_reducible apply State.spWrite_inv
    | split

theorem execJtagInstruction_inv {ir : Nat} (hI : s.Inv pq) : ∃ s1, execJtagInstruction ir s = .next s1 ∧ s1.Inv pq := by
  unfold execJtagInstruction
  refine ⟨_, rfl, ?_⟩
  repeat' first
    | with_reducible assumption
    | with_reducible apply State.modPins_inv
    | with_reducible apply State.freeNext_inv
    | split

theorem execActNBlink_inv (hI : s.Inv pq) : ∃ s1, execActNBlink s = .next s1 ∧ s1.Inv pq := by
  unfold execActNBlink
  refine ⟨_, rfl, ?_⟩
  repeat' first
    | with_reducible assumption
    | with_reducible apply State.modPins_inv
    | split

end Sys2Proof.Machine
end

