-- ==== Sys2Proof/Laws/InvMemory.lean ====
section
/-!
SUPPORT. The operations of Machine/Memory.lean keep the invariant.
-/
set_option Elab.async false
set_option linter.unusedTactic false
set_option linter.unreachableTactic false
namespace Sys2Proof.Machine

variable {pq : List Instr} {s : State}

theorem DramCh.lineWrite_wf {d : DramCh} {a : Nat} {ws : List (Lattice × DWord)} (h : Memory.wf d = true) :
    Memory.wf (d.lineWrite a ws) = true := by
  refine DramCh.foldl_wf ?_ _ h
  intro d x hx
  beta_reduce
  split
  · exact DramCh.write_wf hx
  · exact DramCh.setPoison_wf hx

theorem State.modScrub_inv {r : Side} {i : Nat} {f : ScrubMem → ScrubMem} (hI : s.Inv pq) : (State.modScrub s r i f).Inv pq := by
  unfold State.modScrub
  repeat' first
    | with_reducible assumption
    | with_reducible apply State.modMem_inv

theorem State.memCe_inv {r : Side} {i : Nat} {n : Nat} (hI : s.Inv pq) : (State.memCe s r i n).Inv pq := by
  unfold State.memCe
  repeat' first
    | with_reducible assumption
    | (extract_lets +onlyGivenNames s1; refine State.Inv.cut (s := s1) (q := pq) ?_ (fun _ => ?_); rotate_left; clear_value s1; rotate_left; dsimp -zeta only [s1]; clear s1)
    | (extract_lets +onlyGivenNames x1; clear_value x1)
    | with_reducible apply State.modScrub_inv
    | with_reducible apply State.setStat_inv
    | with_reducible apply State.event_inv
    | split

theorem State.memUe_inv {r : Side} {i : Nat} (hI : s.Inv pq) : (State.memUe s r i).Inv pq := by
  unfold State.memUe
  repeat' first
    | with_reducible assumption
    | with_reducible apply State.modScrub_inv
    | with_reducible apply State.setStat_inv
    | with_reducible apply State.event_inv

theorem State.dramCe_inv {x : Side} {line : Nat} {n : Nat} (hI : s.Inv pq) : (State.dramCe s x line n).Inv pq := by
  unfold State.dramCe
  repeat' first
    | with_reducible assumption
    | (extract_lets +onlyGivenNames s1; refine State.Inv.cut (s := s1) (q := pq) ?_ (fun _ => ?_); rotate_left; clear_value s1; rotate_left; dsimp -zeta only [s1]; clear s1)
    | (extract_lets +onlyGivenNames x1; clear_value x1)
    | intro x hx
    | with_reducible apply State.modDram_inv
    | with_reducible apply State.bump_inv
    | with_reducible apply State.setReg_inv
    | with_reducible apply State.setStat_inv
    | with_reducible apply State.event_inv
    | exact DramCh.keep_wf hx rfl rfl
    | split

theorem State.dramUe_inv {x : Side} {line : Nat} (hI : s.Inv pq) : (State.dramUe s x line).Inv pq := by
  unfold State.dramUe
  repeat' first
    | with_reducible assumption
    | with_reducible apply State.bump_inv
    | with_reducible apply State.setReg_inv
    | with_reducible apply State.setStat_inv
    | with_reducible apply State.event_inv

theorem State.memRepair_inv {r : Side} {i : Nat} {part : Nat} (hI : s.Inv pq) : (State.memRepair s r i part).Inv pq := by
  unfold State.memRepair
  repeat' first
    | with_reducible assumption
    | (extract_lets +onlyGivenNames s1; refine State.Inv.cut (s := s1) (q := pq) ?_ (fun _ => ?_); rotate_left; clear_value s1; rotate_left; dsimp -zeta only [s1]; clear s1)
    | (extract_lets +onlyGivenNames x1; clear_value x1)
    | with_reducible apply State.putBank_inv
    | with_reducible apply State.crnInt_inv
    | with_reducible apply State.modScrub_inv
    | with_reducible apply State.setStat_inv
    | with_reducible apply State.hdgInt_inv
    | split

theorem State.memCount_inv {r : Side} {i : Nat} {part : Nat} {ue : Bool} (hI : s.Inv pq) : (State.memCount s r i part ue).Inv pq := by
  unfold State.memCount
  repeat' first
    | with_reducible assumption
    | with_reducible apply State.bump_inv
    | with_reducible apply State.steInt_inv
    | split

theorem State.memStep_inv {r : Side} {i : Nat} {e : Flips} {stored : Bool} {part : Nat} (hI : s.Inv pq) : (State.memStep s r i e stored part).Inv pq := by
  unfold State.memStep
  repeat' first
    | with_reducible assumption
    | (extract_lets +onlyGivenNames s1; refine State.Inv.cut (s := s1) (q := pq) ?_ (fun _ => ?_); rotate_left; clear_value s1; rotate_left; dsimp -zeta only [s1]; clear s1)
    | (extract_lets +onlyGivenNames x1; clear_value x1)
    | with_reducible apply State.memCe_inv
    | with_reducible apply State.memCount_inv
    | with_reducible apply State.memRepair_inv
    | with_reducible apply State.memUe_inv
    | with_reducible apply State.modScrub_inv
    | split

theorem State.dramLine_inv {x : Side} {a : Nat} {es : List Flips} {stored : Bool} (hI : s.Inv pq) : (State.dramLine s x a es stored).Inv pq := by
  unfold State.dramLine
  repeat' first
    | with_reducible assumption
    | (extract_lets +onlyGivenNames s1; refine State.Inv.cut (s := s1) (q := pq) ?_ (fun _ => ?_); rotate_left; clear_value s1; rotate_left; dsimp -zeta only [s1]; clear s1)
    | (extract_lets +onlyGivenNames x1; clear_value x1)
    | intro x hx
    | with_reducible apply State.dramCe_inv
    | with_reducible apply State.dramUe_inv
    | with_reducible apply State.modDram_inv
    | with_reducible apply State.setStat_inv
    | exact DramCh.write_wf hx
    | exact DramCh.lineWrite_wf hx
    | split

theorem execMemoryScrubStep_inv {m : MemRef} {es : List Flips} {stored : Bool} {last : Bool} {part : Nat} (hI : s.Inv pq) : ∃ s1, execMemoryScrubStep m es stored last part s = .next s1 ∧ s1.Inv pq := by
  unfold execMemoryScrubStep
  refine ⟨_, rfl, ?_⟩
  repeat' first
    | with_reducible assumption
    | intro x hx
    | with_reducible apply State.memStep_inv
    | with_reducible apply State.modScrub_inv
    | with_reducible apply State.dramLine_inv
    | with_reducible apply State.modDram_inv
    | exact DramCh.keep_wf hx rfl rfl
    | split

theorem execBucketLeak_inv {m : MemRef} (hI : s.Inv pq) : ∃ s1, execBucketLeak m s = .next s1 ∧ s1.Inv pq := by
  unfold execBucketLeak
  refine ⟨_, rfl, ?_⟩
  repeat' first
    | with_reducible assumption
    | intro x hx
    | with_reducible apply State.modScrub_inv
    | with_reducible apply State.modDram_inv
    | exact DramCh.keep_wf hx rfl rfl
    | split

theorem execDramPartialWrite_inv {x : Side} {addr : BitVec 48} {data : List Byte} {es : List Flips} (hI : s.Inv pq) : ∃ s1, execDramPartialWrite x addr data es s = .next s1 ∧ s1.Inv pq := by
  unfold execDramPartialWrite
  refine ⟨_, rfl, ?_⟩
  repeat' first
    | with_reducible assumption
    | (extract_lets +onlyGivenNames x1; clear_value x1)
    | with_reducible apply State.dramLine_inv
    | with_reducible apply State.dramWrite_inv
    | split

end Sys2Proof.Machine
end

