-- ==== Sys2Proof/Laws/InvFence.lean ====
section
/-!
SUPPORT. The operations of Machine/Fence.lean keep the invariant.
-/
set_option Elab.async false
set_option linter.unusedTactic false
set_option linter.unreachableTactic false
namespace Sys2Proof.Machine

variable {pq : List Instr} {s : State}

theorem Core.reset_fits : Core.reset.Fits :=
  ⟨rfl, by
    intro j n
    cases j <;> cases n <;> first | exact Ctx.bootReset_fits (by decide) | exact Ctx.reset_fits⟩

theorem Core.restart_fits (o : Core) (k : Bool) (st : RidgeState) : (o.restart k st).Fits :=
  ⟨rfl, by
    intro j n
    have hk : ∀ (o n : Ctx), n.Fits → (if k then { n with served := o.served, heldCmd := o.heldCmd } else n : Ctx).Fits := by
      intro o n hn
      split
      · exact Ctx.Fits.keep hn rfl rfl rfl rfl rfl
      · exact hn
    cases j <;> cases n <;> first | exact hk _ _ (Ctx.bootReset_fits (by decide)) | exact hk _ _ Ctx.reset_fits⟩

theorem State.modCtxs_inv {cs : List CtxId} {f : Ctx → Ctx} (hf : ∀ x : Ctx, x.Fits → (f x).Fits) (hI : s.Inv pq) :
    (s.modCtxs cs f).Inv pq := State.Inv.foldl (fun _ _ h => State.modCtx_inv hf h) _ hI

theorem Ctx.enter_fits {x : Ctx} {sn : Snapshot} (hx : x.Fits) (hn : sn.fits) : (x.enter sn).Fits :=
  ⟨hn.2, hn.1, fun _ e => (by cases e; exact hn), hx.held, hx.inbox⟩

theorem State.fenceCause_inv {r : Side} {cause : Nat} (hI : s.Inv pq) : (State.fenceCause s r cause).Inv pq := by
  unfold State.fenceCause
  repeat' first
    | with_reducible assumption
    | with_reducible apply State.setStat_inv
    | split

theorem State.setRidge_inv {r : Side} {st : RidgeState} (hI : s.Inv pq) : (State.setRidge s r st).Inv pq := by
  unfold State.setRidge
  repeat' first
    | with_reducible assumption
    | intro x hx
    | with_reducible apply State.modCore_inv
    | exact Core.Fits.keep hx rfl rfl

theorem State.selfRefresh_inv (hI : s.Inv pq) : (State.selfRefresh s).Inv pq := by
  unfold State.selfRefresh
  repeat' first
    | with_reducible assumption
    | intro x hx
    | with_reducible apply State.modDram_inv
    | exact DramCh.keep_wf hx rfl rfl

theorem State.safeStop_inv (hI : s.Inv pq) : (State.safeStop s).Inv pq := by
  unfold State.safeStop
  repeat' first
    | with_reducible assumption
    | intro x y hx
    | with_reducible apply State.forceLow_inv
    | with_reducible apply State.flushAeq_inv
    | with_reducible apply State.selfRefresh_inv
    | with_reducible apply State.event_inv
    | with_reducible apply State.Inv.foldl

theorem Ctx.unmirror_fits {x : Ctx} (hx : x.Fits) : (Ctx.unmirror x).Fits := by
  unfold Ctx.unmirror
  repeat' first
    | exact Ctx.Fits.keep hx rfl rfl rfl rfl rfl

theorem State.dropSwitch_inv (hI : s.Inv pq) : (State.dropSwitch s).Inv pq := by
  unfold State.dropSwitch
  repeat' first
    | with_reducible assumption
    | intro x hx
    | with_reducible apply State.modRlg_inv
    | with_reducible apply State.modCtxs_inv
    | exact Ctx.Fits.keep hx rfl rfl rfl rfl rfl

theorem State.fenceHalf_inv {r : Side} (hI : s.Inv pq) : (State.fenceHalf s r).Inv pq := by
  unfold State.fenceHalf
  repeat' first
    | with_reducible assumption
    | with_reducible apply State.modRlg_inv

theorem State.fence_inv {r : Side} {cause : Nat} (hI : s.Inv pq) : (State.fence s r cause).Inv pq := by
  unfold State.fence
  repeat' first
    | with_reducible assumption
    | (extract_lets +onlyGivenNames s1; refine State.Inv.cut (s := s1) (q := pq) ?_ (fun _ => ?_); rotate_left; clear_value s1; rotate_left; dsimp -zeta only [s1]; clear s1)
    | (extract_lets +onlyGivenNames x1; clear_value x1)
    | (intro x y hx; beta_reduce)
    | (intro x hx; beta_reduce)
    | with_reducible apply State.fenceCause_inv
    | with_reducible apply State.setReg_inv
    | with_reducible apply State.rlgInt_inv
    | with_reducible apply State.event_inv
    | with_reducible apply State.forceLow_inv
    | with_reducible apply State.setRidge_inv
    | with_reducible apply State.crnLose_inv
    | with_reducible apply State.calFence_inv
    | with_reducible apply State.dropSwitch_inv
    | with_reducible apply State.modCtxs_inv
    | with_reducible apply Ctx.unmirror_fits
    | with_reducible apply State.fenceHalf_inv
    | with_reducible apply State.modRlg_inv
    | with_reducible apply State.safeStop_inv
    | with_reducible apply State.Inv.foldl
    | split

theorem execFence_inv {r : Side} {cause : Nat} (hI : s.Inv pq) : ∃ s1, execFence r cause s = .next s1 ∧ s1.Inv pq := by
  unfold execFence
  refine ⟨_, rfl, ?_⟩
  repeat' first
    | with_reducible assumption
    | with_reducible apply State.fence_inv
    | split

theorem execLastRidgeFence_inv {r : Side} {cause : Nat} (hI : s.Inv pq) : ∃ s1, execLastRidgeFence r cause s = .next s1 ∧ s1.Inv pq := by
  unfold execLastRidgeFence
  refine ⟨_, rfl, ?_⟩
  repeat' first
    | with_reducible assumption
    | with_reducible apply State.fence_inv
    | split

theorem execLockstepMismatch_inv {r : Side} {sp : SpurId} (hI : s.Inv pq) : ∃ s1, execLockstepMismatch r sp s = .next s1 ∧ s1.Inv pq := by
  unfold execLockstepMismatch
  refine ⟨_, rfl, ?_⟩
  repeat' first
    | with_reducible assumption
    | (extract_lets +onlyGivenNames s1; refine State.Inv.cut (s := s1) (q := pq) ?_ (fun _ => ?_); rotate_left; clear_value s1; rotate_left; dsimp -zeta only [s1]; clear s1)
    | (extract_lets +onlyGivenNames x1; clear_value x1)
    | with_reducible apply State.fenceCause_inv
    | with_reducible apply State.setReg_inv
    | with_reducible apply State.fence_inv
    | split

theorem execDuplicateMismatch_inv {k : DupKind} (hI : s.Inv pq) : ∃ s1, execDuplicateMismatch k s = .next s1 ∧ s1.Inv pq := by
  unfold execDuplicateMismatch
  refine ⟨_, rfl, ?_⟩
  repeat' first
    | with_reducible assumption
    | (extract_lets +onlyGivenNames x1; clear_value x1)
    | with_reducible apply State.fence_inv
    | with_reducible apply State.setReg_inv
    | with_reducible apply State.fenceCause_inv
    | with_reducible apply State.fenceHalf_inv
    | split

theorem execTestFence_inv {x : Accessor} (hI : s.Inv pq) : ∃ s1, execTestFence x s = .next s1 ∧ s1.Inv pq := by
  unfold execTestFence
  refine ⟨_, rfl, ?_⟩
  repeat' first
    | with_reducible assumption
    | intro x hx
    | with_reducible apply State.access_inv
    | with_reducible apply State.fence_inv
    | with_reducible apply State.rlgInt_inv
    | split

theorem execLedgerCmdIgnored_inv {x : Accessor} {data : Word} (hI : s.Inv pq) : ∃ s1, execLedgerCmdIgnored x data s = .next s1 ∧ s1.Inv pq := by
  unfold execLedgerCmdIgnored
  refine ⟨_, rfl, ?_⟩
  repeat' first
    | with_reducible assumption
    | intro x hx
    | with_reducible apply State.access_inv
    | with_reducible apply State.rlgInt_inv
    | split

theorem State.ctxFault_inv {c : CtxId} {addr : CsAddr} {f : FaultSet} (hI : s.Inv pq) : (State.ctxFault s c addr f).Inv pq := by
  unfold State.ctxFault
  repeat' first
    | with_reducible assumption
    | (extract_lets +onlyGivenNames s1; refine State.Inv.cut (s := s1) (q := pq) ?_ (fun _ => ?_); rotate_left; clear_value s1; rotate_left; dsimp -zeta only [s1]; clear s1)
    | (extract_lets +onlyGivenNames s1; refine Ctx.Fits.cut (x := s1) ?_ (fun hx => ?_); rotate_left; clear_value s1; rotate_left; dsimp -zeta only [s1]; clear s1)
    | (extract_lets +onlyGivenNames x1; clear_value x1)
    | (intro x hx; beta_reduce)
    | with_reducible apply State.modReg_inv
    | with_reducible apply State.setReg_inv
    | with_reducible apply State.modCtx_inv
    | with_reducible apply State.spuInt_inv
    | with_reducible apply State.fence_inv
    | with_reducible refine State.Inv.ctx (q := pq) ?_ _
    | exact Ctx.Fits.keep hx rfl rfl rfl rfl rfl
    | split

theorem Ctx.toAdopt_fits {x : Ctx} (hx : x.Fits) : (x.toAdopt).Fits :=
  ⟨hx.regs, hx.stack, fun _ e => (by cases e), fun _ e => (by cases e), hx.inbox⟩

theorem State.adoptEntry_inv (hI : s.Inv pq) : (State.adoptEntry s).Inv pq := by
  unfold State.adoptEntry
  repeat' first
    | with_reducible assumption
    | intro x y hx
    | intro x hx
    | with_reducible apply State.modCtx_inv
    | with_reducible apply Ctx.toAdopt_fits
    | with_reducible apply State.Inv.foldl
    | split

/-- The newest snapshot held fits. -/
theorem Ctx.newestHeld_fits {x : Ctx} {m : MirrorMsg} (hx : x.Fits) (e : x.newestHeld = some m) : m.snap.fits := by
  unfold Ctx.newestHeld at e
  split at e
  · rename_i m' heq
    cases e
    exact hx.inbox _ (List.mem_of_getLast? heq)
  · exact hx.held _ e

theorem State.adopt_inv {d : CtxId} (hI : s.Inv pq) : (s.adopt d).Inv pq := by
  unfold State.adopt
  have hx := hI.ctx d
  have hb : ∀ (b1 : Word) (b2 : Bool) (b3 : List (Nat × Word × PortResp)) (b4 : Option Nat),
      Ctx.Fits { s.ctx d with csn := b1, adopted := b2, held := none, inbox := [], served := b3, heldCmd := b4 } :=
    fun _ _ _ _ => ⟨hx.regs, hx.stack, hx.snap, fun _ e => (by cases e), fun _ e => (by cases e)⟩
  dsimp only
  split
  · exact hI
  · split
    · exact State.modCtx_inv (fun x hx => ⟨hx.regs, hx.stack, hx.snap, hx.held, fun _ e => (by cases e)⟩) hI
    · rename_i m heq
      have hm : m.snap.fits := Ctx.newestHeld_fits hx heq
      split
      · refine State.setCtx_inv ?_ hI
        split
        · exact Ctx.raise_fits (Ctx.enter_fits (hb _ _ _ _) hm)
        · exact Ctx.enter_fits (hb _ _ _ _) hm
      · have hr : swf (kconst 0)
            (if decide (m.imgtag = s.imgtag d.ridge) = true then m.snap.regs
              else sp 0 (sp 0 m.snap.regs 63 (m.snap.restart.setWidth 64)) 62 (m.snap.rclass.setWidth 64)) = true := by
          split
          · exact hm.2
          · exact sp_wf (sp_wf hm.2)
        split
        · exact State.setCtx_inv (Ctx.enter_fits (hb _ _ _ _) ⟨hm.1, hr⟩) hI
        · refine State.ctxFault_inv (State.setCtx_inv ?_ hI)
          exact ⟨hr, hm.1, fun _ e => (by cases e; exact ⟨hm.1, hr⟩), fun _ e => (by cases e), fun _ e => (by cases e)⟩

theorem State.moveLeases_inv {cs : List CtxId} (hI : s.Inv pq) : (State.moveLeases s cs).Inv pq := by
  unfold State.moveLeases
  repeat' first
    | with_reducible assumption
    | with_reducible apply State.modRlg_inv
    | with_reducible apply State.modNve_inv
    | with_reducible apply State.modHdg_inv

theorem State.moveUnits_inv {r : Side} {units : List Side} {spindle : Bool} (hI : s.Inv pq) : (State.moveUnits s r units spindle).Inv pq := by
  unfold State.moveUnits
  repeat' first
    | with_reducible assumption
    | intro x y hx
    | with_reducible apply State.modRlg_inv
    | with_reducible apply State.flushAeq_inv
    | with_reducible apply State.adoptOutputs_inv
    | with_reducible apply State.Inv.foldl
    | split

theorem State.takeover_inv {r : Side} {t6 : BitVec 16} {t8 : BitVec 16} (hI : s.Inv pq) : (State.takeover s r t6 t8).Inv pq := by
  unfold State.takeover
  repeat' first
    | with_reducible assumption
    | (extract_lets +onlyGivenNames s1; refine State.Inv.cut (s := s1) (q := pq) ?_ (fun _ => ?_); rotate_left; clear_value s1; rotate_left; dsimp -zeta only [s1]; clear s1)
    | (intro x y hx; beta_reduce)
    | (intro x hx; beta_reduce)
    | with_reducible apply State.moveUnits_inv
    | with_reducible apply State.adopt_inv
    | with_reducible apply State.moveLeases_inv
    | with_reducible apply State.modCtxs_inv
    | with_reducible apply State.setReg_inv
    | with_reducible apply State.resumeMove_inv
    | with_reducible apply State.modRlg_inv
    | with_reducible apply State.rlgInt_inv
    | with_reducible apply State.Inv.foldl
    | exact Ctx.Fits.keep hx rfl rfl rfl rfl rfl

theorem execTakeover_inv {r : Side} {t6 : BitVec 16} {t8 : BitVec 16} (hI : s.Inv pq) : ∃ s1, execTakeover r t6 t8 s = .next s1 ∧ s1.Inv pq := by
  unfold execTakeover
  refine ⟨_, rfl, ?_⟩
  repeat' first
    | with_reducible assumption
    | with_reducible apply State.takeover_inv
    | split

theorem State.setQuiesced_inv {r : Side} {q : Bool} (hI : s.Inv pq) : (State.setQuiesced s r q).Inv pq := by
  unfold State.setQuiesced
  repeat' first
    | with_reducible assumption
    | (intro x hx; beta_reduce)
    | with_reducible apply State.modCore_inv
    | exact Core.Fits.keep hx rfl rfl

theorem State.trySwitch_inv (hI : s.Inv pq) : (State.trySwitch s).Inv pq := by
  unfold State.trySwitch
  repeat' first
    | with_reducible assumption
    | (extract_lets +onlyGivenNames s1; refine State.Inv.cut (s := s1) (q := pq) ?_ (fun _ => ?_); rotate_left; clear_value s1; rotate_left; dsimp -zeta only [s1]; clear s1)
    | (extract_lets +onlyGivenNames x1; clear_value x1)
    | (intro x y hx; beta_reduce)
    | (intro x hx; beta_reduce)
    | with_reducible apply State.moveUnits_inv
    | with_reducible apply State.adopt_inv
    | with_reducible apply State.moveLeases_inv
    | with_reducible apply State.modCtxs_inv
    | with_reducible apply Ctx.toAdopt_fits
    | with_reducible apply State.modRlg_inv
    | with_reducible apply State.setQuiesced_inv
    | with_reducible apply State.setRidge_inv
    | with_reducible apply State.Inv.foldl
    | split

theorem Ctx.give_fits {x : Ctx} (hx : x.Fits) : (Ctx.give x).Fits := by
  unfold Ctx.give
  split
  · exact Ctx.Fits.keep hx rfl rfl rfl rfl rfl
  · exact Ctx.Fits.keep (x := x) hx rfl rfl rfl rfl rfl

theorem State.startSwitch_inv {g : Side} {work : Nat} (hI : s.Inv pq) : (State.startSwitch s g work).Inv pq := by
  unfold State.startSwitch
  repeat' first
    | with_reducible assumption
    | (extract_lets +onlyGivenNames s1; refine State.Inv.cut (s := s1) (q := pq) ?_ (fun _ => ?_); rotate_left; clear_value s1; rotate_left; dsimp -zeta only [s1]; clear s1)
    | (extract_lets +onlyGivenNames x1; clear_value x1)
    | (intro x hx; beta_reduce)
    | with_reducible apply State.modCtxs_inv
    | with_reducible apply Ctx.give_fits
    | with_reducible apply State.modRlg_inv
    | with_reducible apply State.trySwitch_inv

theorem State.switchCmd_inv {r : Side} (hI : s.Inv pq) : (State.switchCmd s r).Inv pq := by
  unfold State.switchCmd
  repeat' first
    | with_reducible assumption
    | with_reducible apply State.trySwitch_inv
    | with_reducible apply State.rlgInt_inv
    | with_reducible apply State.startSwitch_inv
    | split

theorem execSwitch_inv {r : Side} (hI : s.Inv pq) : ∃ s1, execSwitch r s = .next s1 ∧ s1.Inv pq := by
  unfold execSwitch
  refine ⟨_, rfl, ?_⟩
  repeat' first
    | with_reducible assumption
    | with_reducible apply State.switchCmd_inv
    | split

theorem State.handback_inv {r : Side} {work : Nat} (hI : s.Inv pq) : (State.handback s r work).Inv pq := by
  unfold State.handback
  repeat' first
    | with_reducible assumption
    | with_reducible apply State.trySwitch_inv
    | with_reducible apply State.rlgInt_inv
    | with_reducible apply State.startSwitch_inv
    | split

theorem execHandback_inv {r : Side} {work : BitVec 2} (hI : s.Inv pq) : ∃ s1, execHandback r work s = .next s1 ∧ s1.Inv pq := by
  unfold execHandback
  refine ⟨_, rfl, ?_⟩
  repeat' first
    | with_reducible assumption
    | with_reducible apply State.handback_inv
    | split

theorem execSwitchTimeout_inv {c : CtxId} (hI : s.Inv pq) : ∃ s1, execSwitchTimeout c s = .next s1 ∧ s1.Inv pq := by
  unfold execSwitchTimeout
  refine ⟨_, rfl, ?_⟩
  repeat' first
    | with_reducible assumption
    | intro x hx
    | with_reducible apply State.modCtx_inv
    | with_reducible apply State.trySwitch_inv
    | with_reducible apply State.dropSwitch_inv
    | with_reducible apply State.rlgInt_inv
    | with_reducible apply State.event_inv
    | exact Ctx.Fits.keep hx rfl rfl rfl rfl rfl
    | split

theorem State.sendSnap_inv {c : CtxId} (hI : s.Inv pq) : (s.sendSnap c).Inv pq := by
  unfold State.sendSnap
  split
  · exact hI
  · rename_i sn heq
    split
    · refine State.modCtx_inv (fun x hx => ⟨hx.regs, hx.stack, hx.snap, hx.held, fun m hm => ?_⟩)
        (State.modCtx_inv (fun x hx => Ctx.Fits.keep hx rfl rfl rfl rfl rfl) hI)
      rcases List.mem_append.mp hm with h | h
      · exact hx.inbox m h
      · rw [List.mem_singleton.mp h]
        exact (hI.ctx c).snap sn heq
    · exact hI

theorem DramCh.copy_wf {α β : Type} [DecidableEq β] {v0 : β} {f : α → Nat} {g : α → β} : ∀ (l : List α) {m : Sparse β},
    swf (kconst v0) m = true → swf (kconst v0) (l.foldl (fun m e => sp v0 m (f e) (g e)) m) = true
  | [], _, h => h
  | _ :: t, _, h => DramCh.copy_wf t (sp_wf h)

theorem State.halfBack_inv {r : Side} (hI : s.Inv pq) : (State.halfBack s r).Inv pq := by
  unfold State.halfBack
  split
  · refine State.modRlg_inv (State.modDram_inv (fun d hd => ?_) hI)
    simp only [Memory.wf, Bool.and_eq_true] at hd ⊢
    exact ⟨DramCh.copy_wf _ (filter_wf _ hd.1), DramCh.copy_wf _ (filter_wf _ hd.2)⟩
  · exact hI

theorem State.rejoin_inv {r : Side} {syncOk : Bool} (hI : s.Inv pq) : (State.rejoin s r syncOk).Inv pq := by
  unfold State.rejoin
  repeat' first
    | with_reducible assumption
    | (extract_lets +onlyGivenNames s1; refine State.Inv.cut (s := s1) (q := pq) ?_ (fun _ => ?_); rotate_left; clear_value s1; rotate_left; dsimp -zeta only [s1]; clear s1)
    | (extract_lets +onlyGivenNames x1; clear_value x1)
    | (intro x y hx; beta_reduce)
    | (intro x hx; beta_reduce)
    | with_reducible apply State.rlgInt_inv
    | with_reducible apply State.resyncStart_inv
    | with_reducible apply State.resyncEnd_inv
    | with_reducible apply State.nodeSync_inv
    | with_reducible apply State.copyNodes_inv
    | with_reducible apply State.halfBack_inv
    | with_reducible apply State.setRidge_inv
    | with_reducible apply State.modCtxs_inv
    | with_reducible apply Ctx.toAdopt_fits
    | with_reducible apply State.adoptEntry_inv
    | with_reducible apply State.sendSnap_inv
    | with_reducible apply State.modCrn_inv
    | with_reducible apply State.modRlg_inv
    | with_reducible apply State.Inv.foldl
    | split

theorem execRejoin_inv {r : Side} {syncOk : Bool} (hI : s.Inv pq) : ∃ s1, execRejoin r syncOk s = .next s1 ∧ s1.Inv pq := by
  unfold execRejoin
  refine ⟨_, rfl, ?_⟩
  repeat' first
    | with_reducible assumption
    | with_reducible apply State.rejoin_inv
    | split

theorem State.clearBlock_inv {base : Nat} {keep : List Nat} (hI : s.Inv pq) : (State.clearBlock s base keep).Inv pq := by
  unfold State.clearBlock
  repeat' first
    | with_reducible assumption
    | with_reducible apply State.keepRegs_inv

theorem State.dropJob_inv {j : DecJob} (hI : s.Inv pq) : (State.dropJob s j).Inv pq := by
  unfold State.dropJob
  repeat' first
    | with_reducible assumption
    | (extract_lets +onlyGivenNames x1; clear_value x1)
    | (intro x hx; beta_reduce)
    | with_reducible apply State.modTile_inv
    | with_reducible apply State.decidedStatus_inv
    | exact Tile.keep_len hx rfl
    | split

theorem State.dropWork_inv {r : Side} (hI : s.Inv pq) : (State.dropWork s r).Inv pq := by
  unfold State.dropWork
  repeat' first
    | with_reducible assumption
    | with_reducible apply State.modRlg_inv
    | with_reducible apply State.modNve_inv
    | split

theorem State.ridgeReset_inv {r : Side} (hI : s.Inv pq) : (State.ridgeReset s r).Inv pq := by
  unfold State.ridgeReset
  repeat' first
    | with_reducible assumption
    | (extract_lets +onlyGivenNames s1; refine State.Inv.cut (s := s1) (q := pq) ?_ (fun _ => ?_); rotate_left; clear_value s1; rotate_left; dsimp -zeta only [s1]; clear s1)
    | intro x y hx
    | intro x hx
    | with_reducible apply State.dropJob_inv
    | with_reducible apply State.dropWork_inv
    | with_reducible apply State.crnLose_inv
    | with_reducible apply State.clearBlock_inv
    | with_reducible apply State.modCore_inv
    | with_reducible apply State.modAng_inv
    | with_reducible apply State.modMem_inv
    | with_reducible apply State.modDec_inv
    | with_reducible apply State.modCen_inv
    | with_reducible apply State.modSte_inv
    | with_reducible apply State.Inv.foldl
    | exact Core.restart_fits _ _ _

theorem execRidgeReset_inv {r : Side} (hI : s.Inv pq) : ∃ s1, execRidgeReset r s = .next s1 ∧ s1.Inv pq := by
  unfold execRidgeReset
  refine ⟨_, rfl, ?_⟩
  repeat' first
    | with_reducible assumption
    | with_reducible apply State.ridgeReset_inv
    | split

theorem execRidgeSelftestDone_inv {r : Side} {syncOk : Bool} (hI : s.Inv pq) : ∃ s1, execRidgeSelftestDone r syncOk s = .next s1 ∧ s1.Inv pq := by
  unfold execRidgeSelftestDone
  refine ⟨_, rfl, ?_⟩
  repeat' first
    | with_reducible assumption
    | (extract_lets +onlyGivenNames s1; refine State.Inv.cut (s := s1) (q := pq) ?_ (fun _ => ?_); rotate_left; clear_value s1; rotate_left; dsimp -zeta only [s1]; clear s1)
    | with_reducible apply State.setRidge_inv
    | with_reducible apply State.rejoin_inv
    | split

end Sys2Proof.Machine
end

