-- ==== Sys2Proof/Laws/InvSpur.lean ====
section
/-!
SUPPORT. The operations of Machine/Spur.lean keep the invariant.
-/
set_option Elab.async false
set_option linter.unusedTactic false
set_option linter.unreachableTactic false
namespace Sys2Proof.Machine

variable {pq : List Instr} {s : State}

theorem State.commit_inv {c : CtxId} {restart : CsAddr} {rclass : BitVec 2} (hI : s.Inv pq) :
    (s.commit c restart rclass).Inv pq := by
  have h1 := State.sendSnap_inv (c := c) (State.modCtx_inv (c := c) (f := fun x =>
    { x with snap := some (x.snapAt restart rclass), csn := x.csn + 1, segWarned := false, hold := false })
    (fun x hx => ⟨hx.regs, hx.stack, fun _ e => (by cases e; exact hx.snapped), hx.held, hx.inbox⟩) hI)
  unfold State.commit
  dsimp only
  split
  · exact State.trySwitch_inv (State.modCtx_inv (fun x hx => Ctx.Fits.keep hx rfl rfl rfl rfl rfl) h1)
  · exact h1

theorem Ctx.halted_fits {x : Ctx} (hx : x.Fits) : (Ctx.halted x).Fits := by
  unfold Ctx.halted
  repeat' first
    | exact Ctx.Fits.keep hx rfl rfl rfl rfl rfl

theorem State.readEnds_inv {c : CtxId} {o : ReadOut} {got : Bool} (hI : s.Inv pq) : (State.readEnds s c o got).Inv pq := by
  unfold State.readEnds
  repeat' first
    | with_reducible assumption
    | (extract_lets +onlyGivenNames s1; refine State.Inv.cut (s := s1) (q := pq) ?_ (fun _ => ?_); rotate_left; clear_value s1; rotate_left; dsimp -zeta only [s1]; clear s1)
    | intro x hx
    | with_reducible apply State.modCtx_inv
    | with_reducible apply Ctx.wr_fits
    | with_reducible apply State.commit_inv
    | exact Ctx.Fits.keep hx rfl rfl rfl rfl rfl
    | split

theorem execPortReadReturn_inv {c : CtxId} {port : Nat} (hI : s.Inv pq) : ∃ s1, execPortReadReturn c port s = .next s1 ∧ s1.Inv pq := by
  unfold execPortReadReturn
  refine ⟨_, rfl, ?_⟩
  repeat' first
    | with_reducible assumption
    | intro x hx
    | with_reducible apply State.byCtx_inv
    | with_reducible apply State.readEnds_inv
    | split

theorem State.portSilent_inv {c : CtxId} {port : Nat} (hI : s.Inv pq) : (State.portSilent s c port).Inv pq := by
  unfold State.portSilent
  repeat' first
    | with_reducible assumption
    | (extract_lets +onlyGivenNames f1; refine State.Inv.fnCut2 (f := f1) (q := pq) ?_ (fun hf1 => ?_); rotate_left; clear_value f1; rotate_left; dsimp -zeta only [f1]; clear f1)
    | (extract_lets +onlyGivenNames s1; refine Ctx.Fits.cut (x := s1) ?_ (fun hx => ?_); rotate_left; clear_value s1; rotate_left; dsimp -zeta only [s1]; clear s1)
    | (extract_lets +onlyGivenNames x1; clear_value x1)
    | with_reducible apply hf1
    | (intro x y hx; beta_reduce)
    | (intro x hx; beta_reduce)
    | with_reducible apply State.ctxFault_inv
    | with_reducible apply State.modCtx_inv
    | with_reducible refine State.Inv.ctx (q := pq) ?_ _
    | exact Ctx.Fits.keep hx rfl rfl rfl rfl rfl
    | split

theorem execPortTimeout_inv {c : CtxId} {port : Nat} (hI : s.Inv pq) : ∃ s1, execPortTimeout c port s = .next s1 ∧ s1.Inv pq := by
  unfold execPortTimeout
  refine ⟨_, rfl, ?_⟩
  repeat' first
    | with_reducible assumption
    | (intro x hx; beta_reduce)
    | with_reducible apply State.byCtx_inv
    | with_reducible apply State.portSilent_inv

theorem State.urgentEntry_inv {c : CtxId} {n : Nat} {sn : Snapshot} (hn : sn.fits) (hI : s.Inv pq) :
    (s.urgentEntry c n sn).Inv pq := by
  unfold State.urgentEntry
  dsimp only
  split
  · refine State.ctxFault_inv (State.modCtx_inv (fun x hx => Ctx.Fits.keep hx rfl rfl rfl rfl rfl) (State.bump_inv ?_))
    exact State.modCtx_inv (fun x hx => ⟨hn.2, hn.1, hx.snap, hx.held, hx.inbox⟩) hI
  · rename_i hlt
    refine State.modCtx_inv (fun x hx => ⟨hx.regs, ?_, hx.snap, hx.held, hx.inbox⟩) (State.bump_inv ?_)
    · show sn.stack.length + 1 ≤ 16
      omega
    · exact State.modCtx_inv (fun x hx => ⟨hn.2, hn.1, hx.snap, hx.held, hx.inbox⟩) hI

theorem execUrgentEntry_inv {c : CtxId} (hI : s.Inv pq) : ∃ s1, execUrgentEntry c s = .next s1 ∧ s1.Inv pq := by
  refine ⟨_, rfl, State.byCtx_inv ?_ hI⟩
  intro s hs
  dsimp only
  split
  · split
    · rename_i sn _ heq
      exact State.urgentEntry_inv ((hs.ctx c).snap _ heq) hs
    · exact hs
  · exact hs

theorem execSegmentWarning_inv {c : CtxId} (hI : s.Inv pq) : ∃ s1, execSegmentWarning c s = .next s1 ∧ s1.Inv pq := by
  unfold execSegmentWarning
  refine ⟨_, rfl, ?_⟩
  repeat' first
    | with_reducible assumption
    | (extract_lets +onlyGivenNames s1; refine Ctx.Fits.cut (x := s1) ?_ (fun hx => ?_); rotate_left; clear_value s1; rotate_left; dsimp -zeta only [s1]; clear s1)
    | intro x hx
    | with_reducible apply State.byCtx_inv
    | with_reducible apply State.modCtx_inv
    | with_reducible apply State.setStat_inv
    | with_reducible apply State.spuInt_inv
    | with_reducible refine State.Inv.ctx (q := pq) ?_ _
    | exact Ctx.Fits.keep hx rfl rfl rfl rfl rfl
    | split

theorem Ctx.waitEnds_fits {x : Ctx} (hx : x.Fits) : (Ctx.waitEnds x).Fits := by
  unfold Ctx.waitEnds
  repeat' first
    | with_reducible assumption
    | exact Ctx.Fits.keep hx rfl rfl rfl rfl rfl
    | split

theorem State.waitExpires_inv {c : CtxId} (hI : s.Inv pq) : (State.waitExpires s c).Inv pq := by
  unfold State.waitExpires
  repeat' first
    | with_reducible assumption
    | (extract_lets +onlyGivenNames s1; refine State.Inv.cut (s := s1) (q := pq) ?_ (fun _ => ?_); rotate_left; clear_value s1; rotate_left; dsimp -zeta only [s1]; clear s1)
    | intro x hx
    | with_reducible apply State.raiseLine_inv
    | with_reducible apply State.modCtx_inv
    | with_reducible apply Ctx.waitEnds_fits
    | split

theorem execWaitTimeout_inv {c : CtxId} (hI : s.Inv pq) : ∃ s1, execWaitTimeout c s = .next s1 ∧ s1.Inv pq := by
  unfold execWaitTimeout
  refine ⟨_, rfl, ?_⟩
  repeat' first
    | with_reducible assumption
    | intro x hx
    | with_reducible apply State.byCtx_inv
    | with_reducible apply State.waitExpires_inv
    | split

theorem execWaitCycleBound_inv {c : CtxId} (hI : s.Inv pq) : ∃ s1, execWaitCycleBound c s = .next s1 ∧ s1.Inv pq := by
  unfold execWaitCycleBound
  refine ⟨_, rfl, ?_⟩
  repeat' first
    | with_reducible assumption
    | intro x hx
    | with_reducible apply State.byCtx_inv
    | with_reducible apply State.waitExpires_inv
    | split

theorem execSnapshotReceive_inv {c : CtxId} (hI : s.Inv pq) : ∃ s1, execSnapshotReceive c s = .next s1 ∧ s1.Inv pq := by
  unfold execSnapshotReceive
  refine ⟨_, rfl, ?_⟩
  split
  · exact hI
  · split
    · exact hI
    · rename_i m t heq
      have hm : ∀ m', m' ∈ m :: t → m'.snap.fits := by
        intro m' h
        exact (hI.ctx c).inbox m' (heq ▸ h)
      have hk : ∀ x : Ctx, x.Fits → ∀ m', m' ∈ t → m'.snap.fits := fun _ _ m' h => hm m' (List.mem_cons_of_mem _ h)
      refine State.modCtx_inv (fun x hx => Ctx.Fits.keep hx rfl rfl rfl rfl rfl) ?_
      split
      · refine State.modCtx_inv (fun x hx => ⟨hx.regs, hx.stack, hx.snap, ?_, hk x hx⟩) hI
        intro m' e
        cases e
        exact hm _ List.mem_cons_self
      · exact State.spuInt_inv (State.modCtx_inv (fun x hx => ⟨hx.regs, hx.stack, hx.snap, hx.held, hk x hx⟩) hI)

theorem execSnapshotAck_inv {c : CtxId} (hI : s.Inv pq) : ∃ s1, execSnapshotAck c s = .next s1 ∧ s1.Inv pq := by
  unfold execSnapshotAck
  refine ⟨_, rfl, ?_⟩
  repeat' first
    | with_reducible assumption
    | intro x hx
    | with_reducible apply State.modCtx_inv
    | exact Ctx.Fits.keep hx rfl rfl rfl rfl rfl
    | split

theorem Ctx.start_fits {x : Ctx} {addr : CsAddr} (hx : x.Fits) : (x.start addr).Fits :=
  Ctx.enter_fits (Ctx.Fits.keep hx rfl rfl rfl rfl rfl) hx.snapped

theorem State.ctxCmd?_inv {c : CtxId} {cmd : Nat} {addr : CsAddr} (hI : s.Inv pq) : OptInv pq (s.ctxCmd? c cmd addr) := by
  unfold State.ctxCmd?
  have hx := hI.ctx c
  dsimp only
  split
  · exact OptInv.some hI
  · split
    · exact OptInv.some (State.setCtx_inv (Ctx.start_fits hx) hI)
    · exact OptInv.none
  · split
    · exact OptInv.none
    · split
      · refine OptInv.some (State.modCtx_inv (fun x hx => ?_) hI)
        split
        · exact Ctx.Fits.keep hx rfl rfl rfl rfl rfl
        · exact Ctx.halted_fits hx
      · exact OptInv.some hI
  · split
    · rename_i sn heq
      split
      · exact OptInv.some (State.setCtx_inv (Ctx.enter_fits hx (hx.snap _ heq)) hI)
      · exact OptInv.none
    · exact OptInv.none
  · split
    · exact OptInv.some (State.modCtx_inv (fun x hx => Ctx.Fits.keep hx rfl rfl rfl rfl rfl) hI)
    · exact OptInv.none
  · split
    · exact OptInv.some (State.adoptEntry_inv (State.setCtx_inv ⟨hx.regs, hx.stack, fun _ e => (by cases e), hx.held, hx.inbox⟩ hI))
    · exact OptInv.none
  · exact OptInv.none

theorem State.ctxCmd_inv {c : CtxId} {cmd : Nat} {addr : CsAddr} (hI : s.Inv pq) : (State.ctxCmd s c cmd addr).Inv pq := by
  unfold State.ctxCmd
  repeat' first
    | with_reducible assumption
    | with_reducible apply State.ctxCmd?_inv
    | with_reducible apply State.spuInt_inv
    | with_reducible apply OptInv.getD

theorem State.ctlWord_inv {r : Side} {sp : SpurId} {w : Word} (hI : s.Inv pq) : (State.ctlWord s r sp w).Inv pq := by
  unfold State.ctlWord
  repeat' first
    | with_reducible assumption
    | with_reducible apply State.ctxCmd_inv

theorem execContextStart_inv {c : CtxId} {addr : CsAddr} (hI : s.Inv pq) : ∃ s1, execContextStart c addr s = .next s1 ∧ s1.Inv pq := by
  unfold execContextStart
  refine ⟨_, rfl, ?_⟩
  repeat' first
    | with_reducible assumption
    | intro x hx
    | with_reducible apply State.byCtx_inv
    | with_reducible apply State.ctxCmd_inv

theorem execContextStop_inv {c : CtxId} (hI : s.Inv pq) : ∃ s1, execContextStop c s = .next s1 ∧ s1.Inv pq := by
  unfold execContextStop
  refine ⟨_, rfl, ?_⟩
  repeat' first
    | with_reducible assumption
    | intro x hx
    | with_reducible apply State.byCtx_inv
    | with_reducible apply State.ctxCmd_inv

theorem execContextResume_inv {c : CtxId} (hI : s.Inv pq) : ∃ s1, execContextResume c s = .next s1 ∧ s1.Inv pq := by
  unfold execContextResume
  refine ⟨_, rfl, ?_⟩
  repeat' first
    | with_reducible assumption
    | intro x hx
    | with_reducible apply State.byCtx_inv
    | with_reducible apply State.ctxCmd_inv

theorem execContextRelease_inv {c : CtxId} (hI : s.Inv pq) : ∃ s1, execContextRelease c s = .next s1 ∧ s1.Inv pq := by
  unfold execContextRelease
  refine ⟨_, rfl, ?_⟩
  repeat' first
    | with_reducible assumption
    | intro x hx
    | with_reducible apply State.byCtx_inv
    | with_reducible apply State.ctxCmd_inv

theorem execContextCmdReserved_inv {c : CtxId} {cmd : BitVec 3} (hI : s.Inv pq) : ∃ s1, execContextCmdReserved c cmd s = .next s1 ∧ s1.Inv pq := by
  unfold execContextCmdReserved
  refine ⟨_, rfl, ?_⟩
  repeat' first
    | with_reducible assumption
    | intro x hx
    | with_reducible apply State.byCtx_inv
    | with_reducible apply State.spuInt_inv
    | split

theorem State.dbgWrite_inv {r : Side} {hi : Word} (hI : s.Inv pq) : (State.dbgWrite s r hi).Inv pq := by
  unfold State.dbgWrite
  repeat' first
    | with_reducible assumption
    | (extract_lets +onlyGivenNames x1; clear_value x1)
    | intro x hx
    | with_reducible apply State.modCtx_inv
    | with_reducible apply Ctx.wr_fits
    | with_reducible apply State.spuInt_inv
    | split

theorem execDebugDataWrite_inv {r : Side} {hi : Word} (hI : s.Inv pq) : ∃ s1, execDebugDataWrite r hi s = .next s1 ∧ s1.Inv pq := by
  unfold execDebugDataWrite
  refine ⟨_, rfl, ?_⟩
  repeat' first
    | with_reducible assumption
    | with_reducible apply State.dbgWrite_inv
    | split

theorem State.unmarkStore_inv {r : Side} {a : Nat} (hI : s.Inv pq) : (State.unmarkStore s r a).Inv pq := by
  unfold State.unmarkStore
  repeat' first
    | with_reducible assumption
    | with_reducible apply State.modScrub_inv
    | split

theorem State.putStore_inv {r : Side} {a : Nat} {w : MicroWord} (hI : s.Inv pq) : (s.putStore r a w).Inv pq :=
  State.unmarkStore_inv (State.modCore_inv (fun _ hx => ⟨sp_wf hx.store, hx.ctx⟩) hI)

theorem State.cstErr_inv {r : Side} {i : Nat} (hI : s.Inv pq) : (State.cstErr s r i).Inv pq := by
  unfold State.cstErr
  repeat' first
    | with_reducible assumption
    | with_reducible apply State.setStat_inv

theorem State.loadData_inv {x : Accessor} {i : Nat} {data : Word} (hI : s.Inv pq) : (State.loadData s x i data).Inv pq := by
  unfold State.loadData
  repeat' first
    | with_reducible assumption
    | (extract_lets +onlyGivenNames s1; refine State.Inv.cut (s := s1) (q := pq) ?_ (fun _ => ?_); rotate_left; clear_value s1; rotate_left; dsimp -zeta only [s1]; clear s1)
    | (extract_lets +onlyGivenNames x1; clear_value x1)
    | intro x hx
    | with_reducible apply State.cstErr_inv
    | with_reducible apply State.modCore_inv
    | with_reducible apply State.putStore_inv
    | with_reducible apply State.modReg_inv
    | exact Core.Fits.keep hx rfl rfl
    | split

theorem State.loadAddr_inv {x : Accessor} {data : Word} (hI : s.Inv pq) : (State.loadAddr s x data).Inv pq := by
  unfold State.loadAddr
  repeat' first
    | with_reducible assumption
    | with_reducible apply State.setReg_inv
    | with_reducible apply State.cstErr_inv
    | split

theorem execLoadWordStore_inv {x : Accessor} {data : Word} (hI : s.Inv pq) : ∃ s1, execLoadWordStore x data s = .next s1 ∧ s1.Inv pq := by
  unfold execLoadWordStore
  refine ⟨_, rfl, ?_⟩
  repeat' first
    | with_reducible assumption
    | intro x hx
    | with_reducible apply State.access_inv
    | with_reducible apply State.loadData_inv

theorem execLoadAddressWrite_inv {x : Accessor} {data : Word} (hI : s.Inv pq) : ∃ s1, execLoadAddressWrite x data s = .next s1 ∧ s1.Inv pq := by
  unfold execLoadAddressWrite
  refine ⟨_, rfl, ?_⟩
  repeat' first
    | with_reducible assumption
    | intro x hx
    | with_reducible apply State.access_inv
    | with_reducible apply State.loadAddr_inv

theorem State.matchWrite_inv {r : Side} {off : Nat} {data : Word} (hI : s.Inv pq) : (State.matchWrite s r off data).Inv pq := by
  unfold State.matchWrite
  repeat' first
    | with_reducible assumption
    | with_reducible apply State.setReg_inv
    | with_reducible apply State.cstErr_inv
    | split

theorem execMatchWrite_inv {r : Side} {off : Nat} {data : Word} (hI : s.Inv pq) : ∃ s1, execMatchWrite r off data s = .next s1 ∧ s1.Inv pq := by
  unfold execMatchWrite
  refine ⟨_, rfl, ?_⟩
  repeat' first
    | with_reducible assumption
    | with_reducible apply State.matchWrite_inv
    | split

theorem State.fetchUe_inv {c : CtxId} (hI : s.Inv pq) : (State.fetchUe s c).Inv pq := by
  unfold State.fetchUe
  repeat' first
    | with_reducible assumption
    | (extract_lets +onlyGivenNames s1; refine State.Inv.cut (s := s1) (q := pq) ?_ (fun _ => ?_); rotate_left; clear_value s1; rotate_left; dsimp -zeta only [s1]; clear s1)
    | (extract_lets +onlyGivenNames x1; clear_value x1)
    | with_reducible apply State.cstErr_inv
    | with_reducible apply State.setReg_inv
    | with_reducible apply State.memUe_inv
    | with_reducible apply State.unmarkStore_inv
    | with_reducible apply State.putStore_inv
    | with_reducible apply State.ctxFault_inv
    | split

theorem State.fetchCe_inv {r : Side} (hI : s.Inv pq) : (State.fetchCe s r).Inv pq := by
  unfold State.fetchCe
  repeat' first
    | with_reducible assumption
    | with_reducible apply State.cstErr_inv
    | with_reducible apply State.bump_inv
    | with_reducible apply State.memCe_inv

theorem execCstPeerRefetch_inv {c : CtxId} (hI : s.Inv pq) : ∃ s1, execCstPeerRefetch c s = .next s1 ∧ s1.Inv pq := by
  unfold execCstPeerRefetch
  refine ⟨_, rfl, ?_⟩
  repeat' first
    | with_reducible assumption
    | intro x hx
    | with_reducible apply State.byCtx_inv
    | with_reducible apply State.fetchUe_inv
    | split

theorem State.enterService_inv {r : Side} (hI : s.Inv pq) : (State.enterService s r).Inv pq := by
  unfold State.enterService
  repeat' first
    | with_reducible assumption
    | intro x hx
    | with_reducible apply State.setRidge_inv
    | with_reducible apply State.modCore_inv
    | with_reducible apply State.modRlg_inv
    | with_reducible apply State.adoptEntry_inv
    | exact Core.Fits.keep hx rfl rfl

theorem State.bootLock_inv {r : Side} (hI : s.Inv pq) : (State.bootLock s r).Inv pq := by
  unfold State.bootLock
  repeat' first
    | with_reducible assumption
    | (extract_lets +onlyGivenNames s1; refine State.Inv.cut (s := s1) (q := pq) ?_ (fun _ => ?_); rotate_left; clear_value s1; rotate_left; dsimp -zeta only [s1]; clear s1)
    | (extract_lets +onlyGivenNames x1; clear_value x1)
    | with_reducible apply State.setReg_inv
    | with_reducible apply State.modRcp_inv
    | with_reducible apply State.modReg_inv
    | with_reducible apply State.freeNext_inv
    | with_reducible apply State.event_inv
    | with_reducible apply State.enterService_inv
    | split

theorem execBootlockSet_inv {r : Side} (hI : s.Inv pq) : ∃ s1, execBootlockSet r s = .next s1 ∧ s1.Inv pq := by
  unfold execBootlockSet
  refine ⟨_, rfl, ?_⟩
  repeat' first
    | with_reducible assumption
    | with_reducible apply State.bootLock_inv
    | split

end Sys2Proof.Machine
end

