-- ==== Sys2Proof/Laws/InvOperands.lean ====
section
/-!
SUPPORT. The operations of Machine/Operands.lean keep the invariant.
-/
set_option Elab.async false
set_option linter.unusedTactic false
set_option linter.unreachableTactic false
namespace Sys2Proof.Machine

variable {pq : List Instr} {s : State}

theorem Ctx.aluWrite_fits {x : Ctx} {dst : BitVec 6} {o : AluOut} (hx : x.Fits) : (Ctx.aluWrite x dst o).Fits := by
  unfold Ctx.aluWrite
  repeat' first
    | exact Ctx.Fits.keep hx rfl rfl rfl rfl rfl
    | with_reducible apply Ctx.wr_fits
    | split

theorem State.alu_inv {c : CtxId} {op : AluIn → AluOut} {f : AluForm} (hI : s.Inv pq) : (State.alu s c op f).Inv pq := by
  unfold State.alu
  repeat' first
    | with_reducible assumption
    | intro x hx
    | with_reducible apply State.byCtx_inv
    | with_reducible apply State.modCtx_inv
    | with_reducible apply Ctx.aluWrite_fits

end Sys2Proof.Machine
end

