-- ==== Sys2Proof/Laws/InvAlu.lean ====
section
/-!
SUPPORT. The operations of Machine/Alu.lean keep the invariant.
-/
set_option Elab.async false
set_option linter.unusedTactic false
set_option linter.unreachableTactic false
namespace Sys2Proof.Machine

variable {pq : List Instr} {s : State}

theorem execNop_inv {c : CtxId} {f : AluForm} (hI : s.Inv pq) : ∃ s1, execNop c f s = .next s1 ∧ s1.Inv pq := by
  unfold execNop
  refine ⟨_, rfl, ?_⟩
  repeat' first
    | with_reducible assumption
    | with_reducible apply State.alu_inv

theorem execMov_inv {c : CtxId} {f : AluForm} (hI : s.Inv pq) : ∃ s1, execMov c f s = .next s1 ∧ s1.Inv pq := by
  unfold execMov
  refine ⟨_, rfl, ?_⟩
  repeat' first
    | with_reducible assumption
    | with_reducible apply State.alu_inv

theorem execMovh_inv {c : CtxId} {f : AluForm} (hI : s.Inv pq) : ∃ s1, execMovh c f s = .next s1 ∧ s1.Inv pq := by
  unfold execMovh
  refine ⟨_, rfl, ?_⟩
  repeat' first
    | with_reducible assumption
    | with_reducible apply State.alu_inv

theorem execAdd_inv {c : CtxId} {f : AluForm} (hI : s.Inv pq) : ∃ s1, execAdd c f s = .next s1 ∧ s1.Inv pq := by
  unfold execAdd
  refine ⟨_, rfl, ?_⟩
  repeat' first
    | with_reducible assumption
    | with_reducible apply State.alu_inv

theorem execAdc_inv {c : CtxId} {f : AluForm} (hI : s.Inv pq) : ∃ s1, execAdc c f s = .next s1 ∧ s1.Inv pq := by
  unfold execAdc
  refine ⟨_, rfl, ?_⟩
  repeat' first
    | with_reducible assumption
    | with_reducible apply State.alu_inv

theorem execSub_inv {c : CtxId} {f : AluForm} (hI : s.Inv pq) : ∃ s1, execSub c f s = .next s1 ∧ s1.Inv pq := by
  unfold execSub
  refine ⟨_, rfl, ?_⟩
  repeat' first
    | with_reducible assumption
    | with_reducible apply State.alu_inv

theorem execSbc_inv {c : CtxId} {f : AluForm} (hI : s.Inv pq) : ∃ s1, execSbc c f s = .next s1 ∧ s1.Inv pq := by
  unfold execSbc
  refine ⟨_, rfl, ?_⟩
  repeat' first
    | with_reducible assumption
    | with_reducible apply State.alu_inv

theorem execCmp_inv {c : CtxId} {f : AluForm} (hI : s.Inv pq) : ∃ s1, execCmp c f s = .next s1 ∧ s1.Inv pq := by
  unfold execCmp
  refine ⟨_, rfl, ?_⟩
  repeat' first
    | with_reducible assumption
    | with_reducible apply State.alu_inv

theorem execCmn_inv {c : CtxId} {f : AluForm} (hI : s.Inv pq) : ∃ s1, execCmn c f s = .next s1 ∧ s1.Inv pq := by
  unfold execCmn
  refine ⟨_, rfl, ?_⟩
  repeat' first
    | with_reducible assumption
    | with_reducible apply State.alu_inv

theorem execNeg_inv {c : CtxId} {f : AluForm} (hI : s.Inv pq) : ∃ s1, execNeg c f s = .next s1 ∧ s1.Inv pq := by
  unfold execNeg
  refine ⟨_, rfl, ?_⟩
  repeat' first
    | with_reducible assumption
    | with_reducible apply State.alu_inv

theorem execAbs_inv {c : CtxId} {f : AluForm} (hI : s.Inv pq) : ∃ s1, execAbs c f s = .next s1 ∧ s1.Inv pq := by
  unfold execAbs
  refine ⟨_, rfl, ?_⟩
  repeat' first
    | with_reducible assumption
    | with_reducible apply State.alu_inv

theorem execAnd_inv {c : CtxId} {f : AluForm} (hI : s.Inv pq) : ∃ s1, execAnd c f s = .next s1 ∧ s1.Inv pq := by
  unfold execAnd
  refine ⟨_, rfl, ?_⟩
  repeat' first
    | with_reducible assumption
    | with_reducible apply State.alu_inv

theorem execOr_inv {c : CtxId} {f : AluForm} (hI : s.Inv pq) : ∃ s1, execOr c f s = .next s1 ∧ s1.Inv pq := by
  unfold execOr
  refine ⟨_, rfl, ?_⟩
  repeat' first
    | with_reducible assumption
    | with_reducible apply State.alu_inv

theorem execXor_inv {c : CtxId} {f : AluForm} (hI : s.Inv pq) : ∃ s1, execXor c f s = .next s1 ∧ s1.Inv pq := by
  unfold execXor
  refine ⟨_, rfl, ?_⟩
  repeat' first
    | with_reducible assumption
    | with_reducible apply State.alu_inv

theorem execAndn_inv {c : CtxId} {f : AluForm} (hI : s.Inv pq) : ∃ s1, execAndn c f s = .next s1 ∧ s1.Inv pq := by
  unfold execAndn
  refine ⟨_, rfl, ?_⟩
  repeat' first
    | with_reducible assumption
    | with_reducible apply State.alu_inv

theorem execOrn_inv {c : CtxId} {f : AluForm} (hI : s.Inv pq) : ∃ s1, execOrn c f s = .next s1 ∧ s1.Inv pq := by
  unfold execOrn
  refine ⟨_, rfl, ?_⟩
  repeat' first
    | with_reducible assumption
    | with_reducible apply State.alu_inv

theorem execNot_inv {c : CtxId} {f : AluForm} (hI : s.Inv pq) : ∃ s1, execNot c f s = .next s1 ∧ s1.Inv pq := by
  unfold execNot
  refine ⟨_, rfl, ?_⟩
  repeat' first
    | with_reducible assumption
    | with_reducible apply State.alu_inv

theorem execTst_inv {c : CtxId} {f : AluForm} (hI : s.Inv pq) : ∃ s1, execTst c f s = .next s1 ∧ s1.Inv pq := by
  unfold execTst
  refine ⟨_, rfl, ?_⟩
  repeat' first
    | with_reducible assumption
    | with_reducible apply State.alu_inv

theorem execShl_inv {c : CtxId} {f : AluForm} (hI : s.Inv pq) : ∃ s1, execShl c f s = .next s1 ∧ s1.Inv pq := by
  unfold execShl
  refine ⟨_, rfl, ?_⟩
  repeat' first
    | with_reducible assumption
    | with_reducible apply State.alu_inv

theorem execShr_inv {c : CtxId} {f : AluForm} (hI : s.Inv pq) : ∃ s1, execShr c f s = .next s1 ∧ s1.Inv pq := by
  unfold execShr
  refine ⟨_, rfl, ?_⟩
  repeat' first
    | with_reducible assumption
    | with_reducible apply State.alu_inv

theorem execSar_inv {c : CtxId} {f : AluForm} (hI : s.Inv pq) : ∃ s1, execSar c f s = .next s1 ∧ s1.Inv pq := by
  unfold execSar
  refine ⟨_, rfl, ?_⟩
  repeat' first
    | with_reducible assumption
    | with_reducible apply State.alu_inv

theorem execRol_inv {c : CtxId} {f : AluForm} (hI : s.Inv pq) : ∃ s1, execRol c f s = .next s1 ∧ s1.Inv pq := by
  unfold execRol
  refine ⟨_, rfl, ?_⟩
  repeat' first
    | with_reducible assumption
    | with_reducible apply State.alu_inv

theorem execRor_inv {c : CtxId} {f : AluForm} (hI : s.Inv pq) : ∃ s1, execRor c f s = .next s1 ∧ s1.Inv pq := by
  unfold execRor
  refine ⟨_, rfl, ?_⟩
  repeat' first
    | with_reducible assumption
    | with_reducible apply State.alu_inv

theorem execMin_inv {c : CtxId} {f : AluForm} (hI : s.Inv pq) : ∃ s1, execMin c f s = .next s1 ∧ s1.Inv pq := by
  unfold execMin
  refine ⟨_, rfl, ?_⟩
  repeat' first
    | with_reducible assumption
    | with_reducible apply State.alu_inv

theorem execMax_inv {c : CtxId} {f : AluForm} (hI : s.Inv pq) : ∃ s1, execMax c f s = .next s1 ∧ s1.Inv pq := by
  unfold execMax
  refine ⟨_, rfl, ?_⟩
  repeat' first
    | with_reducible assumption
    | with_reducible apply State.alu_inv

theorem execMinu_inv {c : CtxId} {f : AluForm} (hI : s.Inv pq) : ∃ s1, execMinu c f s = .next s1 ∧ s1.Inv pq := by
  unfold execMinu
  refine ⟨_, rfl, ?_⟩
  repeat' first
    | with_reducible assumption
    | with_reducible apply State.alu_inv

theorem execMaxu_inv {c : CtxId} {f : AluForm} (hI : s.Inv pq) : ∃ s1, execMaxu c f s = .next s1 ∧ s1.Inv pq := by
  unfold execMaxu
  refine ⟨_, rfl, ?_⟩
  repeat' first
    | with_reducible assumption
    | with_reducible apply State.alu_inv

theorem execMul_inv {c : CtxId} {f : AluForm} (hI : s.Inv pq) : ∃ s1, execMul c f s = .next s1 ∧ s1.Inv pq := by
  unfold execMul
  refine ⟨_, rfl, ?_⟩
  repeat' first
    | with_reducible assumption
    | with_reducible apply State.alu_inv

theorem execMuls_inv {c : CtxId} {f : AluForm} (hI : s.Inv pq) : ∃ s1, execMuls c f s = .next s1 ∧ s1.Inv pq := by
  unfold execMuls
  refine ⟨_, rfl, ?_⟩
  repeat' first
    | with_reducible assumption
    | with_reducible apply State.alu_inv

theorem execAddsu_inv {c : CtxId} {f : AluForm} (hI : s.Inv pq) : ∃ s1, execAddsu c f s = .next s1 ∧ s1.Inv pq := by
  unfold execAddsu
  refine ⟨_, rfl, ?_⟩
  repeat' first
    | with_reducible assumption
    | with_reducible apply State.alu_inv

theorem execSubsu_inv {c : CtxId} {f : AluForm} (hI : s.Inv pq) : ∃ s1, execSubsu c f s = .next s1 ∧ s1.Inv pq := by
  unfold execSubsu
  refine ⟨_, rfl, ?_⟩
  repeat' first
    | with_reducible assumption
    | with_reducible apply State.alu_inv

theorem execBfx_inv {c : CtxId} {f : AluForm} (hI : s.Inv pq) : ∃ s1, execBfx c f s = .next s1 ∧ s1.Inv pq := by
  unfold execBfx
  refine ⟨_, rfl, ?_⟩
  repeat' first
    | with_reducible assumption
    | with_reducible apply State.alu_inv

theorem execBfxs_inv {c : CtxId} {f : AluForm} (hI : s.Inv pq) : ∃ s1, execBfxs c f s = .next s1 ∧ s1.Inv pq := by
  unfold execBfxs
  refine ⟨_, rfl, ?_⟩
  repeat' first
    | with_reducible assumption
    | with_reducible apply State.alu_inv

theorem execBfi_inv {c : CtxId} {f : AluForm} (hI : s.Inv pq) : ∃ s1, execBfi c f s = .next s1 ∧ s1.Inv pq := by
  unfold execBfi
  refine ⟨_, rfl, ?_⟩
  repeat' first
    | with_reducible assumption
    | with_reducible apply State.alu_inv

theorem execBfc_inv {c : CtxId} {f : AluForm} (hI : s.Inv pq) : ∃ s1, execBfc c f s = .next s1 ∧ s1.Inv pq := by
  unfold execBfc
  refine ⟨_, rfl, ?_⟩
  repeat' first
    | with_reducible assumption
    | with_reducible apply State.alu_inv

theorem execPopc_inv {c : CtxId} {f : AluForm} (hI : s.Inv pq) : ∃ s1, execPopc c f s = .next s1 ∧ s1.Inv pq := by
  unfold execPopc
  refine ⟨_, rfl, ?_⟩
  repeat' first
    | with_reducible assumption
    | with_reducible apply State.alu_inv

theorem execClz_inv {c : CtxId} {f : AluForm} (hI : s.Inv pq) : ∃ s1, execClz c f s = .next s1 ∧ s1.Inv pq := by
  unfold execClz
  refine ⟨_, rfl, ?_⟩
  repeat' first
    | with_reducible assumption
    | with_reducible apply State.alu_inv

theorem execCtz_inv {c : CtxId} {f : AluForm} (hI : s.Inv pq) : ∃ s1, execCtz c f s = .next s1 ∧ s1.Inv pq := by
  unfold execCtz
  refine ⟨_, rfl, ?_⟩
  repeat' first
    | with_reducible assumption
    | with_reducible apply State.alu_inv

theorem execBswap_inv {c : CtxId} {f : AluForm} (hI : s.Inv pq) : ∃ s1, execBswap c f s = .next s1 ∧ s1.Inv pq := by
  unfold execBswap
  refine ⟨_, rfl, ?_⟩
  repeat' first
    | with_reducible assumption
    | with_reducible apply State.alu_inv

theorem execSxt_inv {c : CtxId} {f : AluForm} (hI : s.Inv pq) : ∃ s1, execSxt c f s = .next s1 ∧ s1.Inv pq := by
  unfold execSxt
  refine ⟨_, rfl, ?_⟩
  repeat' first
    | with_reducible assumption
    | with_reducible apply State.alu_inv

theorem execZxt_inv {c : CtxId} {f : AluForm} (hI : s.Inv pq) : ∃ s1, execZxt c f s = .next s1 ∧ s1.Inv pq := by
  unfold execZxt
  refine ⟨_, rfl, ?_⟩
  repeat' first
    | with_reducible assumption
    | with_reducible apply State.alu_inv

theorem execCrc_inv {c : CtxId} {f : AluForm} (hI : s.Inv pq) : ∃ s1, execCrc c f s = .next s1 ∧ s1.Inv pq := by
  unfold execCrc
  refine ⟨_, rfl, ?_⟩
  repeat' first
    | with_reducible assumption
    | with_reducible apply State.alu_inv

theorem execCrcb_inv {c : CtxId} {f : AluForm} (hI : s.Inv pq) : ∃ s1, execCrcb c f s = .next s1 ∧ s1.Inv pq := by
  unfold execCrcb
  refine ⟨_, rfl, ?_⟩
  repeat' first
    | with_reducible assumption
    | with_reducible apply State.alu_inv

theorem execGfmul_inv {c : CtxId} {f : AluForm} (hI : s.Inv pq) : ∃ s1, execGfmul c f s = .next s1 ∧ s1.Inv pq := by
  unfold execGfmul
  refine ⟨_, rfl, ?_⟩
  repeat' first
    | with_reducible assumption
    | with_reducible apply State.alu_inv

theorem execGfmac_inv {c : CtxId} {f : AluForm} (hI : s.Inv pq) : ∃ s1, execGfmac c f s = .next s1 ∧ s1.Inv pq := by
  unfold execGfmac
  refine ⟨_, rfl, ?_⟩
  repeat' first
    | with_reducible assumption
    | with_reducible apply State.alu_inv

theorem execSelz_inv {c : CtxId} {f : AluForm} (hI : s.Inv pq) : ∃ s1, execSelz c f s = .next s1 ∧ s1.Inv pq := by
  unfold execSelz
  refine ⟨_, rfl, ?_⟩
  repeat' first
    | with_reducible assumption
    | with_reducible apply State.alu_inv

theorem execSelc_inv {c : CtxId} {f : AluForm} (hI : s.Inv pq) : ∃ s1, execSelc c f s = .next s1 ∧ s1.Inv pq := by
  unfold execSelc
  refine ⟨_, rfl, ?_⟩
  repeat' first
    | with_reducible assumption
    | with_reducible apply State.alu_inv

theorem execTstb_inv {c : CtxId} {f : AluForm} (hI : s.Inv pq) : ∃ s1, execTstb c f s = .next s1 ∧ s1.Inv pq := by
  unfold execTstb
  refine ⟨_, rfl, ?_⟩
  repeat' first
    | with_reducible assumption
    | with_reducible apply State.alu_inv

theorem execIllalu_inv {c : CtxId} {op : BitVec 6} (hI : s.Inv pq) : ∃ s1, execIllalu c op s = .next s1 ∧ s1.Inv pq := by
  unfold execIllalu
  refine ⟨_, rfl, ?_⟩
  repeat' first
    | with_reducible assumption
    | (extract_lets +onlyGivenNames s1; refine Ctx.Fits.cut (x := s1) ?_ (fun hx => ?_); rotate_left; clear_value s1; rotate_left; dsimp -zeta only [s1]; clear s1)
    | (extract_lets +onlyGivenNames x1; clear_value x1)
    | (intro x hx; beta_reduce)
    | with_reducible apply State.byCtx_inv
    | with_reducible apply State.ctxFault_inv
    | with_reducible refine State.Inv.ctx (q := pq) ?_ _
    | split

end Sys2Proof.Machine
end

