-- ==== Sys2Proof/Laws/InvReset.lean ====
section
/-!
SUPPORT. The operations of Machine/Reset.lean keep the invariant.
-/
set_option Elab.async false
set_option linter.unusedTactic false
set_option linter.unreachableTactic false
namespace Sys2Proof.Machine

variable {pq : List Instr} {s : State}

theorem DramCh.logicReset_wf {d : DramCh} (h : Memory.wf d = true) : Memory.wf d.logicReset = true := DramCh.keep_wf h rfl rfl

theorem State.fullReset_inv {mon : Bool} (hI : s.Inv pq) : (s.fullReset mon).Inv pq := by
  refine ⟨hI.queue, filter_wf _ hI.regs, ?_, ?_, ?_⟩
  · intro ch
    cases ch
    · exact DramCh.keep_wf (hI.dram .a) rfl rfl
    · exact DramCh.keep_wf (hI.dram .b) rfl rfl
  · intro r
    cases r <;> exact Core.reset_fits
  · intro t
    cases t <;> exact Nat.zero_le _

theorem State.powerOn_inv {groups : BitVec 4} (hI : s.Inv pq) : (s.powerOn groups).Inv pq := by
  refine ⟨hI.queue, sput_wf (filter_wf _ hI.regs), ?_, ?_, ?_⟩
  · intro ch
    cases ch <;> rfl
  · intro r
    cases r <;> exact Core.reset_fits
  · intro t
    cases t <;> exact Nat.zero_le _

theorem execPowerOnReset_inv {groups : BitVec 4} (hI : s.Inv pq) : ∃ s1, execPowerOnReset groups s = .next s1 ∧ s1.Inv pq := by
  unfold execPowerOnReset
  refine ⟨_, rfl, ?_⟩
  repeat' first
    | with_reducible assumption
    | with_reducible apply State.powerOn_inv
    | split

theorem State.requestFull_inv {cause : Nat} {latch : Rcp → Rcp} (hI : s.Inv pq) : (State.requestFull s cause latch).Inv pq := by
  unfold State.requestFull
  repeat' first
    | with_reducible assumption
    | (extract_lets +onlyGivenNames s1; refine State.Inv.cut (s := s1) (q := pq) ?_ (fun _ => ?_); rotate_left; clear_value s1; rotate_left; dsimp -zeta only [s1]; clear s1)
    | with_reducible apply State.setStat_inv
    | with_reducible apply State.modRcp_inv
    | with_reducible apply State.fullReset_inv
    | split

theorem execResetN_inv (hI : s.Inv pq) : ∃ s1, execResetN s = .next s1 ∧ s1.Inv pq := by
  unfold execResetN
  refine ⟨_, rfl, ?_⟩
  repeat' first
    | with_reducible assumption
    | with_reducible apply State.modPins_inv
    | with_reducible apply State.requestFull_inv

theorem execVmotUndervoltageReset_inv (hI : s.Inv pq) : ∃ s1, execVmotUndervoltageReset s = .next s1 ∧ s1.Inv pq := by
  unfold execVmotUndervoltageReset
  refine ⟨_, rfl, ?_⟩
  repeat' first
    | with_reducible assumption
    | with_reducible apply State.setStat_inv
    | with_reducible apply State.fullReset_inv

theorem State.rcpInt_inv {i : Nat} (hI : s.Inv pq) : (State.rcpInt s i).Inv pq := by
  unfold State.rcpInt
  repeat' first
    | with_reducible assumption
    | with_reducible apply State.setStat_inv

theorem State.swReset_inv {data : Word} (hI : s.Inv pq) : (State.swReset s data).Inv pq := by
  unfold State.swReset
  repeat' first
    | with_reducible assumption
    | with_reducible apply State.requestFull_inv
    | with_reducible apply State.rcpInt_inv
    | split

theorem execSoftwareFullReset_inv {x : Accessor} {data : Word} (hI : s.Inv pq) : ∃ s1, execSoftwareFullReset x data s = .next s1 ∧ s1.Inv pq := by
  unfold execSoftwareFullReset
  refine ⟨_, rfl, ?_⟩
  repeat' first
    | with_reducible assumption
    | intro x hx
    | with_reducible apply State.access_inv
    | with_reducible apply State.swReset_inv

theorem execFullReset_inv (hI : s.Inv pq) : ∃ s1, execFullReset s = .next s1 ∧ s1.Inv pq := by
  unfold execFullReset
  refine ⟨_, rfl, ?_⟩
  repeat' first
    | with_reducible assumption
    | with_reducible apply State.fullReset_inv
    | split

theorem execThermalTrip_inv {n : BitVec 4} {t : BitVec 16} (hI : s.Inv pq) : ∃ s1, execThermalTrip n t s = .next s1 ∧ s1.Inv pq := by
  unfold execThermalTrip
  refine ⟨_, rfl, ?_⟩
  repeat' first
    | with_reducible assumption
    | with_reducible apply State.tempIn_inv
    | with_reducible apply State.modPins_inv
    | with_reducible apply State.setStat_inv
    | with_reducible apply State.fullReset_inv
    | with_reducible apply State.modRcp_inv
    | split

theorem execThermalTripRelease_inv {temps : List (BitVec 16)} (hI : s.Inv pq) : ∃ s1, execThermalTripRelease temps s = .next s1 ∧ s1.Inv pq := by
  unfold execThermalTripRelease
  refine ⟨_, rfl, ?_⟩
  repeat' first
    | with_reducible assumption
    | (extract_lets +onlyGivenNames s1; refine State.Inv.cut (s := s1) (q := pq) ?_ (fun _ => ?_); rotate_left; clear_value s1; rotate_left; dsimp -zeta only [s1]; clear s1)
    | (intro x y hx; beta_reduce)
    | with_reducible apply State.tempIn_inv
    | with_reducible apply State.modPins_inv
    | with_reducible apply State.modRcp_inv
    | with_reducible apply State.Inv.foldl
    | split

theorem State.failReads_inv {base : Nat} (hI : s.Inv pq) : (State.failReads s base).Inv pq := by
  unfold State.failReads
  repeat' first
    | with_reducible assumption
    | intro x y hx
    | with_reducible apply State.readEnds_inv
    | with_reducible apply State.refuseCtx_inv
    | with_reducible apply State.Inv.foldl

theorem State.ridgeBlock_inv {r : Side} {off : Nat} (hI : s.Inv pq) : (State.ridgeBlock s r off).Inv pq := by
  unfold State.ridgeBlock
  repeat' first
    | with_reducible assumption
    | intro x y hx
    | intro x hx
    | with_reducible apply State.modCore_inv
    | with_reducible apply State.flushAeq_inv
    | with_reducible apply State.modAng_inv
    | with_reducible apply State.dropJob_inv
    | with_reducible apply State.modDec_inv
    | with_reducible apply State.modCen_inv
    | with_reducible apply State.modSte_inv
    | with_reducible apply State.modMem_inv
    | with_reducible apply State.Inv.foldl
    | exact ⟨hx.store, Core.reset_fits.ctx⟩
    | exact ⟨rfl, hx.ctx⟩
    | split

theorem State.tileBlock_inv {t : Quad} (hI : s.Inv pq) : (State.tileBlock s t).Inv pq := by
  unfold State.tileBlock
  repeat' first
    | with_reducible assumption
    | (extract_lets +onlyGivenNames x1; clear_value x1)
    | (intro x hx; beta_reduce)
    | with_reducible apply State.forceLow_inv
    | with_reducible apply State.dropRg_inv
    | with_reducible apply State.modTile_inv

theorem State.hptBlock_inv {p : Side} (hI : s.Inv pq) : (State.hptBlock s p).Inv pq := by
  unfold State.hptBlock
  repeat' first
    | with_reducible assumption
    | with_reducible apply State.portCtrls_inv
    | with_reducible apply State.modHpt_inv

theorem State.saddleBlock_inv {base : Nat} (hI : s.Inv pq) : (State.saddleBlock s base).Inv pq := by
  unfold State.saddleBlock
  repeat' first
    | with_reducible assumption
    | (intro x hx; beta_reduce)
    | with_reducible apply State.tileBlock_inv
    | with_reducible apply State.forceSlots_inv
    | with_reducible apply State.modLink_inv
    | with_reducible apply State.hptBlock_inv
    | with_reducible apply State.modNve_inv
    | with_reducible apply State.modRlg_inv
    | with_reducible apply State.modHdg_inv
    | with_reducible apply State.modZtb_inv
    | with_reducible apply State.modDram_inv
    | with_reducible apply State.modEvr_inv
    | with_reducible apply State.modMon_inv
    | with_reducible apply State.modMtr_inv
    | with_reducible apply State.settleIdle_inv
    | with_reducible apply State.modCry_inv
    | exact DramCh.keep_wf hx rfl rfl
    | split

theorem State.blockReset_inv {base : Nat} (hI : s.Inv pq) : (State.blockReset s base).Inv pq := by
  unfold State.blockReset
  repeat' first
    | with_reducible assumption
    | with_reducible apply State.failReads_inv
    | with_reducible apply State.keepRegs_inv
    | with_reducible apply State.ridgeBlock_inv
    | with_reducible apply State.saddleBlock_inv
    | split

theorem State.startBlockReset_inv {w : Nat} {base : Nat} (hI : s.Inv pq) : (State.startBlockReset s w base).Inv pq := by
  unfold State.startBlockReset
  repeat' first
    | with_reducible assumption
    | with_reducible apply State.setReg_inv
    | with_reducible apply State.modRcp_inv
    | with_reducible apply State.blockReset_inv

theorem State.blkReset_inv {r : Side} {data : Word} (hI : s.Inv pq) : (State.blkReset s r data).Inv pq := by
  unfold State.blkReset
  repeat' first
    | with_reducible assumption
    | with_reducible apply State.setStat_inv
    | with_reducible apply State.startBlockReset_inv
    | with_reducible apply State.rcpInt_inv
    | split

theorem execSoftwareBlockReset_inv {x : Accessor} {data : Word} (hI : s.Inv pq) : ∃ s1, execSoftwareBlockReset x data s = .next s1 ∧ s1.Inv pq := by
  unfold execSoftwareBlockReset
  refine ⟨_, rfl, ?_⟩
  repeat' first
    | with_reducible assumption
    | intro x hx
    | with_reducible apply State.access_inv
    | with_reducible apply State.blkReset_inv

theorem execBlockResetDone_inv (hI : s.Inv pq) : ∃ s1, execBlockResetDone s = .next s1 ∧ s1.Inv pq := by
  unfold execBlockResetDone
  refine ⟨_, rfl, ?_⟩
  repeat' first
    | with_reducible assumption
    | with_reducible apply State.modRcp_inv
    | with_reducible apply State.rcpInt_inv
    | split

theorem execBlockWatchdog_inv {r : Side} {blk : BitVec 9} (hI : s.Inv pq) : ∃ s1, execBlockWatchdog r blk s = .next s1 ∧ s1.Inv pq := by
  unfold execBlockWatchdog
  refine ⟨_, rfl, ?_⟩
  repeat' first
    | with_reducible assumption
    | with_reducible apply State.setStat_inv
    | with_reducible apply State.rcpInt_inv
    | with_reducible apply State.event_inv
    | with_reducible apply State.startBlockReset_inv
    | split

theorem State.kickRidge_inv {r : Side} (hI : s.Inv pq) : (State.kickRidge s r).Inv pq := by
  unfold State.kickRidge
  repeat' first
    | with_reducible assumption
    | with_reducible apply State.modRcp_inv

theorem execRidgeWatchdog_inv {r : Side} (hI : s.Inv pq) : ∃ s1, execRidgeWatchdog r s = .next s1 ∧ s1.Inv pq := by
  unfold execRidgeWatchdog
  refine ⟨_, rfl, ?_⟩
  repeat' first
    | with_reducible assumption
    | with_reducible apply State.fence_inv
    | with_reducible apply State.ridgeReset_inv
    | with_reducible apply State.kickRidge_inv
    | split

theorem execWatchdogKick_inv {x : Accessor} {r : Side} (hI : s.Inv pq) : ∃ s1, execWatchdogKick x r s = .next s1 ∧ s1.Inv pq := by
  unfold execWatchdogKick
  refine ⟨_, rfl, ?_⟩
  repeat' first
    | with_reducible assumption
    | (intro x hx; beta_reduce)
    | with_reducible apply State.access_inv
    | with_reducible apply State.kickRidge_inv

theorem State.fuseLoad_inv {f0 : List Word} {f1 : List Word} (hI : s.Inv pq) : (State.fuseLoad s f0 f1).Inv pq := by
  unfold State.fuseLoad
  repeat' first
    | with_reducible assumption
    | (extract_lets +onlyGivenNames s1; refine State.Inv.cut (s := s1) (q := pq) ?_ (fun _ => ?_); rotate_left; clear_value s1; rotate_left; dsimp -zeta only [s1]; clear s1)
    | (extract_lets +onlyGivenNames x1; clear_value x1)
    | with_reducible apply State.setStat_inv
    | with_reducible apply State.modFus_inv
    | with_reducible apply State.setReg_inv
    | split

theorem State.sampleStraps_inv {x : Straps} (hI : s.Inv pq) : (State.sampleStraps s x).Inv pq := by
  unfold State.sampleStraps
  repeat' first
    | with_reducible assumption
    | with_reducible apply State.modRcp_inv
    | split

theorem State.release_inv {x : Straps} {f0 : List Word} {f1 : List Word} (hI : s.Inv pq) : (State.release s x f0 f1).Inv pq := by
  unfold State.release
  repeat' first
    | with_reducible assumption
    | (extract_lets +onlyGivenNames s1; refine State.Inv.cut (s := s1) (q := pq) ?_ (fun _ => ?_); rotate_left; clear_value s1; rotate_left; dsimp -zeta only [s1]; clear s1)
    | (extract_lets +onlyGivenNames x1; clear_value x1)
    | (intro x y hx; beta_reduce)
    | (intro x hx; beta_reduce)
    | with_reducible apply State.sampleStraps_inv
    | with_reducible apply State.modPins_inv
    | with_reducible apply State.modMtr_inv
    | with_reducible apply State.fuseLoad_inv
    | with_reducible apply State.modRcp_inv
    | with_reducible apply State.setReg_inv
    | with_reducible apply State.freeNext_inv
    | with_reducible apply State.modCore_inv
    | with_reducible apply State.modDram_inv
    | with_reducible apply State.modHpt_inv
    | with_reducible apply State.modCrn_inv
    | with_reducible apply State.cfgReady_inv
    | with_reducible apply State.Inv.foldl
    | exact DramCh.keep_wf hx rfl rfl
    | exact ⟨rfl, Core.reset_fits.ctx⟩
    | split

theorem execResetRelease_inv {straps : Straps} {fuse0 : List Word} {fuse1 : List Word} (hI : s.Inv pq) : ∃ s1, execResetRelease straps fuse0 fuse1 s = .next s1 ∧ s1.Inv pq := by
  unfold execResetRelease
  refine ⟨_, rfl, ?_⟩
  repeat' first
    | with_reducible assumption
    | with_reducible apply State.release_inv
    | split

theorem execNoxtal_inv (hI : s.Inv pq) : ∃ s1, execNoxtal s = .next s1 ∧ s1.Inv pq := by
  unfold execNoxtal
  refine ⟨_, rfl, ?_⟩
  repeat' first
    | with_reducible assumption
    | with_reducible apply State.modRcp_inv
    | split

theorem execHostPushLength_inv {p : Side} {len : Word} (hI : s.Inv pq) : ∃ s1, execHostPushLength p len s = .next s1 ∧ s1.Inv pq := by
  unfold execHostPushLength
  refine ⟨_, rfl, ?_⟩
  repeat' first
    | with_reducible assumption
    | with_reducible apply State.modRcp_inv
    | split

theorem execUartImageReceived_inv {len : Word} (hI : s.Inv pq) : ∃ s1, execUartImageReceived len s = .next s1 ∧ s1.Inv pq := by
  unfold execUartImageReceived
  refine ⟨_, rfl, ?_⟩
  repeat' first
    | with_reducible assumption
    | with_reducible apply State.modRcp_inv
    | split

theorem State.bootPost_inv {code : BitVec 16} {g : List EvRec} (hI : s.Inv pq) : (State.bootPost s code g).Inv pq := by
  unfold State.bootPost
  repeat' first
    | with_reducible assumption
    | with_reducible apply State.postGroup_inv

theorem State.meas_inv {r : Side} {idx : Nat} {slot : Nat} {d : BitVec 384} {size : Nat} (hI : s.Inv pq) : (State.meas s r idx slot d size).Inv pq := by
  unfold State.meas
  repeat' first
    | with_reducible assumption
    | with_reducible apply State.bootPost_inv

theorem State.verifyFail_inv {r : Side} {idx : Nat} {slot : Nat} {cause : Nat} (hI : s.Inv pq) : (State.verifyFail s r idx slot cause).Inv pq := by
  unfold State.verifyFail
  repeat' first
    | with_reducible assumption
    | with_reducible apply State.bootPost_inv

theorem State.limit_inv {r : Side} {code : BitVec 16} {p : Nat} (hI : s.Inv pq) : (State.limit s r code p).Inv pq := by
  unfold State.limit
  repeat' first
    | with_reducible assumption
    | with_reducible apply State.bootPost_inv
    | with_reducible apply State.modRcp_inv

theorem State.measBelow_inv {r : Side} {upTo : Nat} {slot : Nat} {idx : Nat} {d : BitVec 384} {size : Nat} (hI : s.Inv pq) : (State.measBelow s r upTo slot idx d size).Inv pq := by
  unfold State.measBelow
  repeat' first
    | with_reducible assumption
    | with_reducible apply State.meas_inv
    | split

theorem State.trySlot_inv {r : Side} {n : Nat} {x : SlotIn} (hI : s.Inv pq) : (State.trySlot s r n x).Inv pq := by
  unfold State.trySlot
  repeat' first
    | with_reducible assumption
    | (extract_lets +onlyGivenNames s1; refine State.Inv.cut (s := s1) (q := pq) ?_ (fun _ => ?_); rotate_left; clear_value s1; rotate_left; dsimp -zeta only [s1]; clear s1)
    | (extract_lets +onlyGivenNames x1; clear_value x1)
    | with_reducible apply State.measBelow_inv
    | with_reducible apply State.verifyFail_inv
    | split

theorem State.trySlots_inv {r : Side} {b : BootIn} :
    ∀ {l : List Nat} {s : State}, s.Inv pq → (State.trySlots s r b l).1.Inv pq
  | [], _, h => h
  | n :: t, s, h => by
    unfold State.trySlots
    split
    · exact State.trySlots_inv h
    · dsimp only
      split
      · exact State.trySlot_inv h
      · exact State.trySlots_inv (State.trySlot_inv h)

theorem State.dcbFails_inv {r : Side} {slot : Nat} {d : Two DcbIn} (hI : s.Inv pq) : (State.dcbFails s r slot d).Inv pq := by
  unfold State.dcbFails
  repeat' first
    | with_reducible assumption
    | (extract_lets +onlyGivenNames f1; refine State.Inv.fnCut2 (f := f1) (q := pq) ?_ (fun hf1 => ?_); rotate_left; clear_value f1; rotate_left; dsimp -zeta only [f1]; clear f1)
    | with_reducible apply hf1
    | intro x y hx
    | with_reducible apply State.verifyFail_inv
    | split

theorem State.loadImageTo_inv {x : SlotIn} {q : Side} (hI : s.Inv pq) : (State.loadImageTo s x q).Inv pq := by
  unfold State.loadImageTo
  repeat' first
    | with_reducible assumption
    | intro x y hx
    | with_reducible apply State.putStore_inv
    | with_reducible apply State.setReg_inv
    | with_reducible apply State.modReg_inv
    | with_reducible apply State.Inv.foldl
    | split

theorem State.useDcb_inv {d : Dcb} (hI : s.Inv pq) : (State.useDcb s d).Inv pq := by
  unfold State.useDcb
  repeat' first
    | with_reducible assumption
    | (extract_lets +onlyGivenNames f1; refine State.Inv.fnCut2 (f := f1) (q := pq) ?_ (fun hf1 => ?_); rotate_left; clear_value f1; rotate_left; dsimp -zeta only [f1]; clear f1)
    | (extract_lets +onlyGivenNames s1; refine State.Inv.cut (s := s1) (q := pq) ?_ (fun _ => ?_); rotate_left; clear_value s1; rotate_left; dsimp -zeta only [s1]; clear s1)
    | (extract_lets +onlyGivenNames x1; clear_value x1)
    | with_reducible apply hf1
    | (intro x y hx; beta_reduce)
    | with_reducible apply State.modRcp_inv
    | with_reducible apply State.modRlg_inv
    | with_reducible apply State.setReg_inv
    | with_reducible apply State.modReg_inv

theorem State.deriveCdi0_inv {rom : BitVec 384} {fuses : BitVec 384} (hI : s.Inv pq) : (State.deriveCdi0 s rom fuses).Inv pq := by
  unfold State.deriveCdi0
  repeat' first
    | with_reducible assumption
    | with_reducible apply State.modCry_inv
    | split

theorem State.deriveAlias_inv {ds : List (BitVec 384)} (hI : s.Inv pq) : (State.deriveAlias s ds).Inv pq := by
  unfold State.deriveAlias
  repeat' first
    | with_reducible assumption
    | with_reducible apply State.modCry_inv
    | split

theorem State.seal_inv {r : Side} {start : Nat} {n : Nat} {slot : Nat} {svn : Nat} (hI : s.Inv pq) : (State.seal s r start n slot svn).Inv pq := by
  unfold State.seal
  repeat' first
    | with_reducible assumption
    | with_reducible apply State.bootPost_inv

theorem State.bootDcb_inv {r : Side} {n : Nat} {x : SlotIn} {b : BootIn} (hI : s.Inv pq) : (State.bootDcb s r n x b).1.Inv pq := by
  unfold State.bootDcb
  repeat' first
    | with_reducible assumption
    | (extract_lets +onlyGivenNames s1; refine State.Inv.cut (s := s1) (q := pq) ?_ (fun _ => ?_); rotate_left; clear_value s1; rotate_left; dsimp -zeta only [s1]; clear s1)
    | with_reducible apply State.dcbFails_inv
    | with_reducible apply State.limit_inv
    | with_reducible apply State.freeNext_inv
    | with_reducible apply State.meas_inv
    | with_reducible apply State.useDcb_inv
    | split

theorem State.bootChain_inv {r : Side} {b : BootIn} (hI : s.Inv pq) : (State.bootChain s r b).1.Inv pq := by
  unfold State.bootChain
  repeat' first
    | with_reducible assumption
    | with_reducible apply State.trySlots_inv
    | with_reducible apply State.limit_inv
    | with_reducible apply State.deriveAlias_inv
    | with_reducible apply State.freeNext_inv
    | with_reducible apply State.loadImageTo_inv
    | with_reducible apply State.modNve_inv
    | with_reducible apply State.bootDcb_inv
    | with_reducible refine State.Inv.fst (by assumption) ?_
    | split

theorem State.boot_inv {r : Side} {b : BootIn} (hI : s.Inv pq) : (State.boot s r b).Inv pq := by
  unfold State.boot
  repeat' first
    | with_reducible assumption
    | (extract_lets +onlyGivenNames s1; refine State.Inv.cut (s := s1) (q := pq) ?_ (fun _ => ?_); rotate_left; clear_value s1; rotate_left; dsimp -zeta only [s1]; clear s1)
    | (extract_lets +onlyGivenNames x1; clear_value x1)
    | with_reducible apply State.bootPost_inv
    | with_reducible apply State.meas_inv
    | with_reducible apply State.deriveCdi0_inv
    | with_reducible apply State.bootChain_inv
    | with_reducible apply State.setStat_inv
    | with_reducible apply State.seal_inv
    | with_reducible apply State.cfgReady_inv
    | with_reducible apply State.modRcp_inv
    | with_reducible apply State.modNve_inv

theorem execMeasuredBoot_inv {r : Side} {b : BootIn} (hI : s.Inv pq) : ∃ s1, execMeasuredBoot r b s = .next s1 ∧ s1.Inv pq := by
  unfold execMeasuredBoot
  refine ⟨_, rfl, ?_⟩
  repeat' first
    | with_reducible assumption
    | with_reducible apply State.boot_inv
    | split

end Sys2Proof.Machine
end

