-- ==== Sys2Proof/Laws/InvDomain.lean ====
section
/-!
SUPPORT. The operations of Machine/Domain.lean keep the invariant.
-/
set_option Elab.async false
set_option linter.unusedTactic false
set_option linter.unreachableTactic false
namespace Sys2Proof.Machine

variable {pq : List Instr} {s : State}

theorem State.pstateWrite_inv {v : Nat} (hI : s.Inv pq) : (State.pstateWrite s v).Inv pq := by
  unfold State.pstateWrite
  repeat' first
    | with_reducible assumption
    | with_reducible apply State.rcpInt_inv
    | with_reducible apply State.setReg_inv
    | split

theorem execPowerStateSelect_inv {x : Accessor} {v : BitVec 3} (hI : s.Inv pq) : ∃ s1, execPowerStateSelect x v s = .next s1 ∧ s1.Inv pq := by
  unfold execPowerStateSelect
  refine ⟨_, rfl, ?_⟩
  repeat' first
    | with_reducible assumption
    | intro x hx
    | with_reducible apply State.access_inv
    | with_reducible apply State.pstateWrite_inv

theorem State.modDom_inv {d : Nat} {f : Dom → Dom} (hI : s.Inv pq) : (State.modDom s d f).Inv pq := by
  unfold State.modDom
  repeat' first
    | with_reducible assumption
    | with_reducible apply State.modRcp_inv

theorem State.spurOff_inv {r : Side} {i : Nat} (hI : s.Inv pq) : (s.spurOff r i).Inv pq := by
  unfold State.spurOff
  split
  · refine State.modCore_inv (fun m hm => ⟨hm.store, ?_⟩) hI
    exact Six.forall_set (P := fun p : Spur => ∀ n, (p.ctx.get n).Fits) hm.ctx (fun n => by cases n <;> exact Ctx.reset_fits)
  · exact hI

theorem State.domClear_inv {d : Nat} (hI : s.Inv pq) : (State.domClear s d).Inv pq := by
  unfold State.domClear
  repeat' first
    | with_reducible assumption
    | (extract_lets +onlyGivenNames x1; clear_value x1)
    | intro x y hx
    | intro x hx
    | with_reducible apply State.spurOff_inv
    | with_reducible apply State.modCore_inv
    | with_reducible apply State.modTile_inv
    | with_reducible apply State.modZtb_inv
    | with_reducible apply State.modHdg_inv
    | with_reducible apply State.modCen_inv
    | with_reducible apply State.modDram_inv
    | with_reducible apply State.blockReset_inv
    | with_reducible apply State.Inv.foldl
    | exact DramCh.keep_wf hx rfl rfl
    | exact ⟨filter_wf _ hx.store, hx.ctx⟩
    | split

theorem State.calStopping_inv {d : Nat} (hI : s.Inv pq) : (State.calStopping s d).Inv pq := by
  unfold State.calStopping
  repeat' first
    | with_reducible assumption
    | with_reducible apply State.calAbortAll_inv
    | split

theorem State.domReq_inv {d : Nat} {on : Bool} {ret : Bool} (hI : s.Inv pq) : (State.domReq s d on ret).Inv pq := by
  unfold State.domReq
  repeat' first
    | with_reducible assumption
    | (extract_lets +onlyGivenNames s1; refine State.Inv.cut (s := s1) (q := pq) ?_ (fun _ => ?_); rotate_left; clear_value s1; rotate_left; dsimp -zeta only [s1]; clear s1)
    | (extract_lets +onlyGivenNames x1; clear_value x1)
    | with_reducible apply State.rcpInt_inv
    | with_reducible apply State.modDom_inv
    | with_reducible apply State.calStopping_inv
    | with_reducible apply State.domClear_inv
    | split

theorem State.pdCtl_inv {v : Nat} (hI : s.Inv pq) : (State.pdCtl s v).Inv pq := by
  unfold State.pdCtl
  repeat' first
    | with_reducible assumption
    | with_reducible apply State.domReq_inv
    | split

theorem execDomainOn_inv {x : Accessor} (hI : s.Inv pq) : ∃ s1, execDomainOn x s = .next s1 ∧ s1.Inv pq := by
  unfold execDomainOn
  refine ⟨_, rfl, ?_⟩
  repeat' first
    | with_reducible assumption
    | intro x hx
    | with_reducible apply State.access_inv
    | with_reducible apply State.pdCtl_inv

theorem execDomainOff_inv {x : Accessor} (hI : s.Inv pq) : ∃ s1, execDomainOff x s = .next s1 ∧ s1.Inv pq := by
  unfold execDomainOff
  refine ⟨_, rfl, ?_⟩
  repeat' first
    | with_reducible assumption
    | intro x hx
    | with_reducible apply State.access_inv
    | with_reducible apply State.pdCtl_inv

theorem execDomainRet_inv {x : Accessor} (hI : s.Inv pq) : ∃ s1, execDomainRet x s = .next s1 ∧ s1.Inv pq := by
  unfold execDomainRet
  refine ⟨_, rfl, ?_⟩
  repeat' first
    | with_reducible assumption
    | intro x hx
    | with_reducible apply State.access_inv
    | with_reducible apply State.pdCtl_inv

theorem State.domStarted_inv {d : Nat} (hI : s.Inv pq) : (State.domStarted s d).Inv pq := by
  unfold State.domStarted
  repeat' first
    | with_reducible assumption
    | (extract_lets +onlyGivenNames s1; refine State.Inv.cut (s := s1) (q := pq) ?_ (fun _ => ?_); rotate_left; clear_value s1; rotate_left; dsimp -zeta only [s1]; clear s1)
    | (intro x hx; beta_reduce)
    | with_reducible apply State.modDom_inv
    | with_reducible apply State.modDram_inv
    | with_reducible apply State.calStopping_inv
    | with_reducible apply State.rcpInt_inv
    | exact DramCh.keep_wf hx rfl rfl
    | split

theorem execDomainStarted_inv {d : BitVec 7} (hI : s.Inv pq) : ∃ s1, execDomainStarted d s = .next s1 ∧ s1.Inv pq := by
  unfold execDomainStarted
  refine ⟨_, rfl, ?_⟩
  repeat' first
    | with_reducible assumption
    | with_reducible apply State.domStarted_inv
    | split

theorem State.domStopped_inv {d : Nat} (hI : s.Inv pq) : (State.domStopped s d).Inv pq := by
  unfold State.domStopped
  repeat' first
    | with_reducible assumption
    | with_reducible apply State.modDom_inv
    | with_reducible apply State.domClear_inv
    | with_reducible apply State.rcpInt_inv
    | split

theorem execDomainStopped_inv {d : BitVec 7} (hI : s.Inv pq) : ∃ s1, execDomainStopped d s = .next s1 ∧ s1.Inv pq := by
  unfold execDomainStopped
  refine ⟨_, rfl, ?_⟩
  repeat' first
    | with_reducible assumption
    | with_reducible apply State.domStopped_inv
    | split

theorem execWedgeCountMismatch_inv {x : Side} {count : Nat} (hI : s.Inv pq) : ∃ s1, execWedgeCountMismatch x count s = .next s1 ∧ s1.Inv pq := by
  unfold execWedgeCountMismatch
  refine ⟨_, rfl, ?_⟩
  repeat' first
    | with_reducible assumption
    | with_reducible apply State.retract_inv
    | with_reducible apply State.event_inv
    | with_reducible apply State.actuatorLost_inv
    | split

end Sys2Proof.Machine
end

