-- ==== Sys2Proof/Laws/InvBus.lean ====
section
/-!
SUPPORT. The operations of Machine/Bus.lean keep the invariant.
-/
set_option Elab.async false
set_option linter.unusedTactic false
set_option linter.unreachableTactic false
namespace Sys2Proof.Machine

variable {pq : List Instr} {s : State}

theorem State.clearReg_inv {key : Nat} (hI : s.Inv pq) : (State.clearReg s key).Inv pq := by
  unfold State.clearReg
  repeat' first
    | with_reducible assumption
    | with_reducible apply State.setReg_inv

theorem State.rsTile_inv {t : Quad} {key : Nat} (hI : s.Inv pq) : (State.rsTile s t key).Inv pq := by
  unfold State.rsTile
  repeat' first
    | with_reducible assumption
    | with_reducible apply State.statusPop_inv
    | with_reducible apply State.clearReg_inv
    | split

theorem State.rsRidge_inv {r : Side} {key : Nat} (hI : s.Inv pq) : (State.rsRidge s r key).Inv pq := by
  unfold State.rsRidge
  repeat' first
    | with_reducible assumption
    | (extract_lets +onlyGivenNames x1; clear_value x1)
    | with_reducible apply State.modAng_inv
    | with_reducible apply State.modReg_inv
    | with_reducible apply State.scrubPopLo_inv
    | with_reducible apply State.modScrub_inv
    | with_reducible apply State.clearReg_inv
    | split

theorem State.rsSaddle_inv {key : Nat} (hI : s.Inv pq) : (State.rsSaddle s key).Inv pq := by
  unfold State.rsSaddle
  repeat' first
    | with_reducible assumption
    | with_reducible apply State.modNve_inv
    | with_reducible apply State.modHdg_inv
    | with_reducible apply State.modEvr_inv
    | with_reducible apply State.modHpt_inv
    | with_reducible apply State.freeNext_inv
    | with_reducible apply State.clearReg_inv
    | split

theorem State.rsEffect_inv {key : Nat} (hI : s.Inv pq) : (State.rsEffect s key).Inv pq := by
  unfold State.rsEffect
  repeat' first
    | with_reducible assumption
    | with_reducible apply State.rsRidge_inv
    | with_reducible apply State.rsTile_inv
    | with_reducible apply State.rsSaddle_inv
    | split

theorem State.rsLegacy_inv {t : Quad} {o : Nat} (hI : s.Inv pq) : (State.rsLegacy s t o).Inv pq := by
  unfold State.rsLegacy
  repeat' first
    | with_reducible assumption
    | intro x hx
    | with_reducible apply State.statusPop_inv
    | with_reducible apply State.modTile_inv
    | split

theorem State.readNote_inv {key : Nat} (hI : s.Inv pq) : (State.readNote s key).Inv pq := by
  unfold State.readNote
  repeat' first
    | with_reducible assumption
    | with_reducible apply State.setReg_inv
    | split

theorem State.readEffect_inv {p : Place} (hI : s.Inv pq) : (State.readEffect s p).Inv pq := by
  unfold State.readEffect
  repeat' first
    | with_reducible assumption
    | with_reducible apply State.rsEffect_inv
    | with_reducible apply State.readNote_inv
    | with_reducible apply State.rsLegacy_inv
    | split

theorem State.busRead_inv {x : Accessor} {addr : Word} (hI : s.Inv pq) : (State.busRead s x addr).1.Inv pq := by
  unfold State.busRead
  repeat' first
    | with_reducible assumption
    | (extract_lets +onlyGivenNames x1; clear_value x1)
    | with_reducible apply State.refuse_inv
    | with_reducible apply State.readEffect_inv
    | with_reducible apply State.freeNext_inv
    | split

theorem State.storeReg_inv {key : Nat} {data : Word} (hI : s.Inv pq) : (State.storeReg s key data).Inv pq := by
  unfold State.storeReg
  repeat' first
    | with_reducible assumption
    | with_reducible apply State.setReg_inv
    | split

theorem State.writeSpu_inv {r : Side} {o : Nat} {data : Word} (hI : s.Inv pq) : OptInv pq (State.writeSpu s r o data) := by
  unfold State.writeSpu
  repeat' first
    | with_reducible assumption
    | with_reducible apply State.dbgWrite_inv
    | with_reducible apply State.storeReg_inv
    | with_reducible apply State.ctlWord_inv
    | with_reducible apply OptInv.none
    | with_reducible apply OptInv.some
    | split

theorem State.writeErrstat_inv {r : Side} {data : Word} (hI : s.Inv pq) : (State.writeErrstat s r data).Inv pq := by
  unfold State.writeErrstat
  repeat' first
    | with_reducible assumption
    | with_reducible apply State.storeReg_inv
    | with_reducible apply State.modReg_inv
    | split

theorem State.writeCst_inv {x : Accessor} {o : Nat} {data : Word} (hI : s.Inv pq) : OptInv pq (State.writeCst s x o data) := by
  unfold State.writeCst
  repeat' first
    | with_reducible assumption
    | with_reducible apply State.bootLock_inv
    | with_reducible apply State.writeErrstat_inv
    | with_reducible apply State.loadAddr_inv
    | with_reducible apply State.loadData_inv
    | with_reducible apply State.matchWrite_inv
    | with_reducible apply OptInv.none
    | with_reducible apply OptInv.some
    | split

theorem State.writeAng_inv {r : Side} {o : Nat} {data : Word} (hI : s.Inv pq) : OptInv pq (State.writeAng s r o data) := by
  unfold State.writeAng
  repeat' first
    | with_reducible assumption
    | with_reducible apply State.angCtl_inv
    | with_reducible apply State.skewWrite_inv
    | with_reducible apply OptInv.none
    | with_reducible apply OptInv.some
    | split

theorem State.enginePower_inv {r : Side} {data : Word} (hI : s.Inv pq) : (State.enginePower s r data).Inv pq := by
  unfold State.enginePower
  repeat' first
    | with_reducible assumption
    | intro x y hx
    | with_reducible apply State.storeReg_inv
    | with_reducible apply State.domReq_inv
    | with_reducible apply State.Inv.foldl
    | split

theorem State.writeDec_inv {r : Side} {o : Nat} {data : Word} (hI : s.Inv pq) : OptInv pq (State.writeDec s r o data) := by
  unfold State.writeDec
  repeat' first
    | with_reducible assumption
    | with_reducible apply State.enginePower_inv
    | with_reducible apply OptInv.none
    | with_reducible apply OptInv.some
    | split

theorem State.modRamp_inv {r : Side} {f : RampCh → RampCh} (hI : s.Inv pq) : (State.modRamp s r f).Inv pq := by
  unfold State.modRamp
  repeat' first
    | with_reducible assumption
    | with_reducible apply State.modCen_inv

theorem State.cenCtl_inv {r : Side} {data : Word} (hI : s.Inv pq) : (State.cenCtl s r data).Inv pq := by
  unfold State.cenCtl
  repeat' first
    | with_reducible assumption
    | with_reducible apply State.setReg_inv
    | with_reducible apply State.nodeSync_inv
    | split

theorem State.rampCtl_inv {r : Side} {data : Word} (hI : s.Inv pq) : (State.rampCtl s r data).Inv pq := by
  unfold State.rampCtl
  repeat' first
    | with_reducible assumption
    | with_reducible apply State.rampGo_inv
    | with_reducible apply State.modRamp_inv
    | split

theorem State.writeCen_inv {r : Side} {o : Nat} {data : Word} (hI : s.Inv pq) : OptInv pq (State.writeCen s r o data) := by
  unfold State.writeCen
  repeat' first
    | with_reducible assumption
    | with_reducible apply State.cenCtl_inv
    | with_reducible apply State.modRamp_inv
    | with_reducible apply State.rampCtl_inv
    | with_reducible apply State.traceCfg_inv
    | with_reducible apply State.setReg_inv
    | with_reducible apply OptInv.none
    | with_reducible apply OptInv.some
    | split

theorem State.coefMem_inv {r : Side} {k : Nat} {f : Cen → Cen} (hI : s.Inv pq) : (State.coefMem s r k f).Inv pq := by
  unfold State.coefMem
  repeat' first
    | with_reducible assumption
    | with_reducible apply State.cenInt_inv
    | with_reducible apply State.modCen_inv
    | split

theorem State.writeCenMem_inv {r : Side} {o : Nat} {data : Word} (hI : s.Inv pq) : (State.writeCenMem s r o data).Inv pq := by
  unfold State.writeCenMem
  repeat' first
    | with_reducible assumption
    | (extract_lets +onlyGivenNames x1; clear_value x1)
    | with_reducible apply State.putNode_inv
    | with_reducible apply State.coefMem_inv
    | with_reducible apply State.modCen_inv
    | split

theorem State.writeMem_inv {r : Side} {o : Nat} {data : Word} (hI : s.Inv pq) : OptInv pq (State.writeMem s r o data) := by
  unfold State.writeMem
  repeat' first
    | with_reducible assumption
    | with_reducible apply State.modScrub_inv
    | with_reducible apply OptInv.none
    | with_reducible apply OptInv.some
    | split

theorem State.crnCtl_inv {r : Side} {data : Word} (hI : s.Inv pq) : (State.crnCtl s r data).Inv pq := by
  unfold State.crnCtl
  repeat' first
    | with_reducible assumption
    | with_reducible apply State.storeReg_inv
    | with_reducible apply State.resyncStart_inv
    | split

theorem State.writeCrn_inv {r : Side} {o : Nat} {data : Word} (hI : s.Inv pq) : OptInv pq (State.writeCrn s r o data) := by
  unfold State.writeCrn
  repeat' first
    | with_reducible assumption
    | with_reducible apply State.crnCtl_inv
    | with_reducible apply OptInv.none
    | with_reducible apply OptInv.some
    | split

theorem State.writeBank_inv {r : Side} {o : Nat} {data : Word} (hI : s.Inv pq) : (State.writeBank s r o data).Inv pq := by
  unfold State.writeBank
  repeat' first
    | with_reducible assumption
    | (extract_lets +onlyGivenNames f1; refine State.Inv.fnCut2 (f := f1) (q := pq) ?_ (fun hf1 => ?_); rotate_left; clear_value f1; rotate_left; dsimp -zeta only [f1]; clear f1)
    | (extract_lets +onlyGivenNames x1; clear_value x1)
    | with_reducible apply hf1
    | intro x y hx
    | with_reducible apply State.putBank_inv
    | with_reducible apply State.crnInt_inv
    | split

theorem State.adcCtl_inv {t : Quad} {data : Word} (hI : s.Inv pq) : (State.adcCtl s t data).Inv pq := by
  unfold State.adcCtl
  repeat' first
    | with_reducible assumption
    | with_reducible apply State.spareGo_inv
    | with_reducible apply State.modReg_inv
    | split

theorem State.writeChn_inv {t : Quad} {o : Nat} {data : Word} (hI : s.Inv pq) : OptInv pq (State.writeChn s t o data) := by
  unfold State.writeChn
  repeat' first
    | with_reducible assumption
    | intro x hx
    | with_reducible apply State.bankWrite_inv
    | with_reducible apply State.modTile_inv
    | with_reducible apply State.adcCtl_inv
    | with_reducible apply State.releaseRecs_inv
    | with_reducible apply State.writeEnable_inv
    | with_reducible apply OptInv.none
    | with_reducible apply OptInv.some
    | split

theorem State.fmtCtlWrite_inv {t : Quad} {data : Word} (hI : s.Inv pq) : (State.fmtCtlWrite s t data).Inv pq := by
  unfold State.fmtCtlWrite
  repeat' first
    | with_reducible assumption
    | (extract_lets +onlyGivenNames s1; refine State.Inv.cut (s := s1) (q := pq) ?_ (fun _ => ?_); rotate_left; clear_value s1; rotate_left; dsimp -zeta only [s1]; clear s1)
    | with_reducible apply State.storeReg_inv
    | with_reducible apply State.forceLow_inv
    | with_reducible apply State.setStat_inv
    | split

theorem State.writeFmt_inv {r : Side} {t : Quad} {o : Nat} {data : Word} (hI : s.Inv pq) : OptInv pq (State.writeFmt s r t o data) := by
  unfold State.writeFmt
  repeat' first
    | with_reducible assumption
    | with_reducible apply State.descWrite_inv
    | with_reducible apply State.skipSelect_inv
    | with_reducible apply State.fmtCtlWrite_inv
    | with_reducible apply OptInv.none
    | with_reducible apply OptInv.some
    | split

theorem State.writeTile_inv {r : Side} {t : Quad} {o : Nat} {data : Word} (hI : s.Inv pq) : OptInv pq (State.writeTile s r t o data) := by
  unfold State.writeTile
  repeat' first
    | with_reducible assumption
    | intro x hx
    | with_reducible apply State.writeChn_inv
    | with_reducible apply State.modTile_inv
    | with_reducible apply State.writeFmt_inv
    | with_reducible apply OptInv.none
    | with_reducible apply OptInv.some
    | split

theorem State.descHalf_inv {t : Quad} {i : Nat} {data : Word} (hI : s.Inv pq) : (State.descHalf s t i data).Inv pq := by
  unfold State.descHalf
  repeat' first
    | with_reducible assumption
    | with_reducible apply State.descWrite_inv

theorem State.putLegacy_inv {t : Quad} {data : Word} {k : Nat} {hi : Nat} {lo : Nat} {n : Nat} (hI : s.Inv pq) : (State.putLegacy s t data k hi lo n).Inv pq := by
  unfold State.putLegacy
  repeat' first
    | with_reducible assumption
    | with_reducible apply State.storeReg_inv

theorem State.writeLegacy_inv {t : Quad} {o : Nat} {data : Word} (hI : s.Inv pq) : (State.writeLegacy s t o data).Inv pq := by
  unfold State.writeLegacy
  repeat' first
    | with_reducible assumption
    | with_reducible apply State.fmtCtlWrite_inv
    | with_reducible apply State.storeReg_inv
    | with_reducible apply State.putLegacy_inv
    | with_reducible apply State.descHalf_inv
    | split

theorem State.qlkCtl_inv {l : Side} {data : Word} (hI : s.Inv pq) : (State.qlkCtl s l data).Inv pq := by
  unfold State.qlkCtl
  repeat' first
    | with_reducible assumption
    | (extract_lets +onlyGivenNames s1; refine State.Inv.cut (s := s1) (q := pq) ?_ (fun _ => ?_); rotate_left; clear_value s1; rotate_left; dsimp -zeta only [s1]; clear s1)
    | (extract_lets +onlyGivenNames x1; clear_value x1)
    | with_reducible apply State.storeReg_inv
    | with_reducible apply State.linkStop_inv
    | with_reducible apply State.linkStart_inv
    | split

theorem State.writeQlk_inv {l : Side} {o : Nat} {data : Word} (hI : s.Inv pq) : OptInv pq (State.writeQlk s l o data) := by
  unfold State.writeQlk
  repeat' first
    | with_reducible assumption
    | with_reducible apply State.qlkCtl_inv
    | with_reducible apply State.regCmd_inv
    | with_reducible apply State.modLink_inv
    | with_reducible apply State.heater_inv
    | with_reducible apply State.safeCmd_inv
    | with_reducible apply State.pairWrite_inv
    | with_reducible apply OptInv.none
    | with_reducible apply OptInv.some
    | split

theorem State.vcCtl_inv {r : Side} {data : Word} (hI : s.Inv pq) : (State.vcCtl s r data).Inv pq := by
  unfold State.vcCtl
  repeat' first
    | with_reducible assumption
    | (extract_lets +onlyGivenNames s1; refine State.Inv.cut (s := s1) (q := pq) ?_ (fun _ => ?_); rotate_left; clear_value s1; rotate_left; dsimp -zeta only [s1]; clear s1)
    | (intro x y hx; beta_reduce)
    | with_reducible apply State.modReg_inv
    | with_reducible apply State.modMtr_inv
    | with_reducible apply State.Inv.foldl
    | split

theorem State.vcRes_inv {r : Side} {a : Side} {data : Word} (hI : s.Inv pq) : (State.vcRes s r a data).Inv pq := by
  unfold State.vcRes
  repeat' first
    | with_reducible assumption
    | with_reducible apply State.storeReg_inv
    | split

theorem State.writeVc_inv {r : Side} {o : Nat} {data : Word} (hI : s.Inv pq) : OptInv pq (State.writeVc s r o data) := by
  unfold State.writeVc
  repeat' first
    | with_reducible assumption
    | with_reducible apply State.vcCtl_inv
    | with_reducible apply State.vcRes_inv
    | with_reducible apply State.retCmd_inv
    | with_reducible apply OptInv.none
    | with_reducible apply OptInv.some
    | split

theorem State.isense_inv {data : Word} (hI : s.Inv pq) : (State.isense s data).Inv pq := by
  unfold State.isense
  repeat' first
    | with_reducible assumption
    | with_reducible apply State.modReg_inv
    | with_reducible apply State.sparePlace_inv
    | split

theorem State.writeMtr_inv {o : Nat} {data : Word} (hI : s.Inv pq) : OptInv pq (State.writeMtr s o data) := by
  unfold State.writeMtr
  repeat' first
    | with_reducible assumption
    | (extract_lets +onlyGivenNames s1; refine State.Inv.cut (s := s1) (q := pq) ?_ (fun _ => ?_); rotate_left; clear_value s1; rotate_left; dsimp -zeta only [s1]; clear s1)
    | with_reducible apply State.spWrite_inv
    | with_reducible apply State.storeReg_inv
    | with_reducible apply State.setObserver_inv
    | with_reducible apply State.chopTest_inv
    | with_reducible apply State.isense_inv
    | with_reducible apply State.modMtr_inv
    | with_reducible apply OptInv.none
    | with_reducible apply OptInv.some
    | split

theorem State.writeMon_inv {o : Nat} {data : Word} (hI : s.Inv pq) : OptInv pq (State.writeMon s o data) := by
  unfold State.writeMon
  repeat' first
    | with_reducible assumption
    | with_reducible apply State.trimWrite_inv
    | with_reducible apply State.modMon_inv
    | with_reducible apply State.vcCal_inv
    | with_reducible apply State.modReg_inv
    | with_reducible apply OptInv.none
    | with_reducible apply OptInv.some
    | split

theorem State.writeZtb_inv {o : Nat} {data : Word} (hI : s.Inv pq) : OptInv pq (State.writeZtb s o data) := by
  unfold State.writeZtb
  repeat' first
    | with_reducible assumption
    | with_reducible apply State.scanGo_inv
    | with_reducible apply State.setReg_inv
    | with_reducible apply OptInv.none
    | with_reducible apply OptInv.some
    | split

theorem State.linkCtl_inv {p : Side} {data : Word} (hI : s.Inv pq) : (State.linkCtl s p data).Inv pq := by
  unfold State.linkCtl
  repeat' first
    | with_reducible assumption
    | with_reducible apply State.retrain_inv
    | with_reducible apply State.freeNext_inv
    | split

theorem State.writeHpt_inv {p : Side} {o : Nat} {data : Word} (hI : s.Inv pq) : OptInv pq (State.writeHpt s p o data) := by
  unfold State.writeHpt
  repeat' first
    | with_reducible assumption
    | with_reducible apply State.linkCtl_inv
    | with_reducible apply OptInv.none
    | with_reducible apply OptInv.some
    | split

theorem State.writeNve_inv {o : Nat} {data : Word} (hI : s.Inv pq) : OptInv pq (State.writeNve s o data) := by
  unfold State.writeNve
  repeat' first
    | with_reducible assumption
    | with_reducible apply State.asnWrite_inv
    | with_reducible apply State.modNve_inv
    | with_reducible apply State.asnLimit_inv
    | with_reducible apply State.qallocWrite_inv
    | with_reducible apply State.nscfgWrite_inv
    | with_reducible apply OptInv.none
    | with_reducible apply OptInv.some
    | split

theorem State.rlgCmd_inv {r : Side} {data : Word} (hI : s.Inv pq) : (State.rlgCmd s r data).Inv pq := by
  unfold State.rlgCmd
  repeat' first
    | with_reducible assumption
    | with_reducible apply State.switchCmd_inv
    | with_reducible apply State.handback_inv
    | with_reducible apply State.rejoin_inv
    | with_reducible apply State.freeNext_inv
    | with_reducible apply State.fence_inv
    | with_reducible apply State.rlgInt_inv
    | split

theorem State.writeRlg_inv {x : Accessor} {o : Nat} {data : Word} (hI : s.Inv pq) : OptInv pq (State.writeRlg s x o data) := by
  unfold State.writeRlg
  repeat' first
    | with_reducible assumption
    | with_reducible apply State.rlgCmd_inv
    | with_reducible apply State.refuse_inv
    | with_reducible apply OptInv.none
    | with_reducible apply OptInv.some
    | split

theorem State.bktCfg_inv {data : Word} (hI : s.Inv pq) : (State.bktCfg s data).Inv pq := by
  unfold State.bktCfg
  repeat' first
    | with_reducible assumption
    | with_reducible apply State.modEvr_inv

theorem State.writeEvr_inv {o : Nat} {data : Word} (hI : s.Inv pq) : OptInv pq (State.writeEvr s o data) := by
  unfold State.writeEvr
  repeat' first
    | with_reducible assumption
    | with_reducible apply State.modEvr_inv
    | with_reducible apply State.calendarSet_inv
    | with_reducible apply State.bktCfg_inv
    | with_reducible apply OptInv.none
    | with_reducible apply OptInv.some
    | split

theorem State.writeCry_inv {x : Accessor} {o : Nat} {data : Word} (hI : s.Inv pq) : OptInv pq (State.writeCry s x o data) := by
  unfold State.writeCry
  repeat' first
    | with_reducible assumption
    | with_reducible apply State.cryCmd_inv
    | with_reducible apply OptInv.none
    | with_reducible apply OptInv.some
    | split

theorem State.bwdWrite_inv {r : Side} {data : Word} (hI : s.Inv pq) : (State.bwdWrite s r data).Inv pq := by
  unfold State.bwdWrite
  repeat' first
    | with_reducible assumption
    | with_reducible apply State.modRcp_inv

theorem State.writeRcp_inv {r : Side} {o : Nat} {data : Word} (hI : s.Inv pq) : OptInv pq (State.writeRcp s r o data) := by
  unfold State.writeRcp
  repeat' first
    | with_reducible assumption
    | with_reducible apply State.swReset_inv
    | with_reducible apply State.blkReset_inv
    | with_reducible apply State.kickRidge_inv
    | with_reducible apply State.bwdWrite_inv
    | with_reducible apply State.pdCtl_inv
    | with_reducible apply State.pstateWrite_inv
    | with_reducible apply OptInv.none
    | with_reducible apply OptInv.some
    | split

theorem State.writeFus_inv {o : Nat} {_data : Word} (hI : s.Inv pq) : OptInv pq (State.writeFus s o _data) := by
  unfold State.writeFus
  repeat' first
    | with_reducible assumption
    | with_reducible apply State.setStat_inv
    | with_reducible apply OptInv.none
    | with_reducible apply OptInv.some
    | split

theorem State.writeSpecial_inv {x : Accessor} {key : Nat} {data : Word} (hI : s.Inv pq) : OptInv pq (State.writeSpecial s x key data) := by
  unfold State.writeSpecial
  repeat' first
    | with_reducible assumption
    | (extract_lets +onlyGivenNames x1; clear_value x1)
    | with_reducible apply State.writeSpu_inv
    | with_reducible apply State.writeCst_inv
    | with_reducible apply State.writeAng_inv
    | with_reducible apply State.writeDec_inv
    | with_reducible apply State.writeCen_inv
    | with_reducible apply State.writeMem_inv
    | with_reducible apply State.writeCrn_inv
    | with_reducible apply State.writeTile_inv
    | with_reducible apply State.writeQlk_inv
    | with_reducible apply State.writeHpt_inv
    | with_reducible apply State.writeNve_inv
    | with_reducible apply State.writeRlg_inv
    | with_reducible apply State.writeZtb_inv
    | with_reducible apply State.writeEvr_inv
    | with_reducible apply State.writeRcp_inv
    | with_reducible apply State.writeMon_inv
    | with_reducible apply State.writeVc_inv
    | with_reducible apply State.writeMtr_inv
    | with_reducible apply State.writeFus_inv
    | with_reducible apply State.writeCry_inv
    | with_reducible apply OptInv.none
    | split

theorem State.notOwnedTile_inv {x : Accessor} {t : Quad} (hI : s.Inv pq) : OptInv pq (State.notOwnedTile s x t) := by
  unfold State.notOwnedTile
  repeat' first
    | with_reducible assumption
    | with_reducible apply State.refuseTile_inv
    | with_reducible apply OptInv.none
    | with_reducible apply OptInv.some
    | split

theorem State.notOwned_inv {x : Accessor} {owned : Bool} (hI : s.Inv pq) : OptInv pq (State.notOwned s x owned) := by
  unfold State.notOwned
  repeat' first
    | with_reducible assumption
    | with_reducible apply State.refuse_inv
    | with_reducible apply OptInv.none
    | with_reducible apply OptInv.some
    | split

theorem State.writeRefused_inv {x : Accessor} {key : Nat} {data : Word} (hI : s.Inv pq) : OptInv pq (State.writeRefused s x key data) := by
  unfold State.writeRefused
  repeat' first
    | with_reducible assumption
    | (extract_lets +onlyGivenNames x1; clear_value x1)
    | with_reducible apply State.notOwnedTile_inv
    | with_reducible apply State.notOwned_inv
    | with_reducible apply OptInv.none
    | split

theorem State.regWrite_inv {x : Accessor} {key : Nat} {data : Word} (hI : s.Inv pq) : (State.regWrite s x key data).Inv pq := by
  unfold State.regWrite
  repeat' first
    | with_reducible assumption
    | with_reducible apply State.writeRefused_inv
    | with_reducible apply State.writeSpecial_inv
    | with_reducible apply State.storeReg_inv
    | with_reducible refine OptInv.all ?_ _ (by assumption)
    | split

theorem State.busWrite_inv {x : Accessor} {addr : Word} {data : Word} (hI : s.Inv pq) : (State.busWrite s x addr data).Inv pq := by
  unfold State.busWrite
  repeat' first
    | with_reducible assumption
    | (extract_lets +onlyGivenNames x1; clear_value x1)
    | with_reducible apply State.refuse_inv
    | with_reducible apply State.regWrite_inv
    | with_reducible apply State.writeLegacy_inv
    | with_reducible apply State.refuseTile_inv
    | with_reducible apply State.writeCenMem_inv
    | with_reducible apply State.ztbWindow_inv
    | with_reducible apply State.writeBank_inv
    | split

theorem State.byRidge_inv {r : Side} {f : State → State} (hf : ∀ s, State.Inv pq s → (f s).Inv pq) (hI : s.Inv pq) : (State.byRidge s r f).Inv pq := by
  unfold State.byRidge
  repeat' first
    | with_reducible assumption
    | with_reducible apply hf
    | split

theorem execRegisterWrite_inv {x : Accessor} {addr : Word} {data : Word} (hI : s.Inv pq) : ∃ s1, execRegisterWrite x addr data s = .next s1 ∧ s1.Inv pq := by
  unfold execRegisterWrite
  refine ⟨_, rfl, ?_⟩
  repeat' first
    | with_reducible assumption
    | intro x hx
    | with_reducible apply State.byRidge_inv
    | with_reducible apply State.busWrite_inv

theorem execCounterReadClear_inv {x : Accessor} {addr : Word} (hI : s.Inv pq) : ∃ s1, execCounterReadClear x addr s = .next s1 ∧ s1.Inv pq := by
  unfold execCounterReadClear
  refine ⟨_, rfl, ?_⟩
  repeat' first
    | with_reducible assumption
    | intro x hx
    | with_reducible apply State.byRidge_inv
    | with_reducible apply State.busRead_inv

theorem execAngAcLatch_inv {x : Accessor} (hI : s.Inv pq) : ∃ s1, execAngAcLatch x s = .next s1 ∧ s1.Inv pq := by
  unfold execAngAcLatch
  refine ⟨_, rfl, ?_⟩
  repeat' first
    | with_reducible assumption
    | intro x hx
    | with_reducible apply State.byRidge_inv
    | with_reducible apply State.busRead_inv

theorem execLegacyWindowWrite_inv {x : Accessor} {addr : Word} {data : Word} (hI : s.Inv pq) : ∃ s1, execLegacyWindowWrite x addr data s = .next s1 ∧ s1.Inv pq := by
  unfold execLegacyWindowWrite
  refine ⟨_, rfl, ?_⟩
  repeat' first
    | with_reducible assumption
    | intro x hx
    | with_reducible apply State.byRidge_inv
    | with_reducible apply State.busWrite_inv
    | split

end Sys2Proof.Machine
end

