-- ==== Sys2Proof/Laws/InvPorts.lean ====
section
/-!
SUPPORT. The operations of Machine/Ports.lean keep the invariant.
-/
set_option Elab.async false
set_option linter.unusedTactic false
set_option linter.unreachableTactic false
namespace Sys2Proof.Machine

variable {pq : List Instr} {s : State}

theorem State.portGet_inv {c : CtxId} {p : Nat} {up : Bool} {f : State → State × DWord} (hf : ∀ s, State.Inv pq s → (f s).1.Inv pq) (hI : s.Inv pq) : (State.portGet s c p up f).1.Inv pq := by
  unfold State.portGet
  repeat' first
    | with_reducible assumption
    | with_reducible apply State.refuseCtx_inv
    | with_reducible apply hf
    | split

theorem State.portPeek_inv {c : CtxId} {p : Nat} {up : Bool} {v : DWord} (hI : s.Inv pq) : (State.portPeek s c p up v).1.Inv pq := by
  unfold State.portPeek
  repeat' first
    | with_reducible assumption
    | intro x hx
    | with_reducible apply State.portGet_inv

theorem State.drmRead_inv {c : CtxId} (hI : s.Inv pq) : (State.drmRead s c).1.Inv pq := by
  unfold State.drmRead
  repeat' first
    | with_reducible assumption
    | (extract_lets +onlyGivenNames x1; clear_value x1)
    | with_reducible apply State.refuseCtx_inv
    | with_reducible apply State.dramRead_inv
    | with_reducible refine State.Inv.fst (by assumption) ?_
    | split

theorem State.streamRead_inv {c : CtxId} {p : Nat} (hI : s.Inv pq) : (State.streamRead s c p).1.Inv pq := by
  unfold State.streamRead
  repeat' first
    | with_reducible assumption
    | (extract_lets +onlyGivenNames s1; refine Ctx.Fits.cut (x := s1) ?_ (fun hx => ?_); rotate_left; clear_value s1; rotate_left; dsimp -zeta only [s1]; clear s1)
    | (extract_lets +onlyGivenNames x1; clear_value x1)
    | (intro x hx; beta_reduce)
    | with_reducible apply State.portGet_inv
    | with_reducible apply State.statusTake_inv
    | with_reducible apply State.portPeek_inv
    | with_reducible refine State.Inv.ctx (q := pq) ?_ _
    | split

theorem State.portRead_inv {c : CtxId} {p : Nat} {rom : Bool} (hI : s.Inv pq) : (State.portRead s c p rom).1.Inv pq := by
  unfold State.portRead
  repeat' first
    | with_reducible assumption
    | (extract_lets +onlyGivenNames s1; refine State.Inv.cutFst (p := s1) (q := pq) ?_ (fun _ => ?_); rotate_left; clear_value s1; rotate_left; dsimp -zeta only [s1]; clear s1)
    | (extract_lets +onlyGivenNames s1; refine Ctx.Fits.cut (x := s1) ?_ (fun hx => ?_); rotate_left; clear_value s1; rotate_left; dsimp -zeta only [s1]; clear s1)
    | (extract_lets +onlyGivenNames x1; clear_value x1)
    | (intro x hx; beta_reduce)
    | with_reducible apply State.freeNext_inv
    | with_reducible apply State.portPeek_inv
    | with_reducible apply State.portGet_inv
    | with_reducible apply State.decTake_inv
    | with_reducible apply State.bufAcquire_inv
    | with_reducible apply State.refuseCtx_inv
    | with_reducible apply State.scrubPop_inv
    | with_reducible apply State.acquire_inv
    | with_reducible apply State.mediaReserve_inv
    | with_reducible apply State.hedgeRead_inv
    | with_reducible apply State.hqPop_inv
    | with_reducible apply State.drmRead_inv
    | with_reducible apply State.busRead_inv
    | with_reducible apply State.streamRead_inv
    | with_reducible refine State.Inv.ctx (q := pq) ?_ _
    | split

theorem State.stageAt_inv {c : CtxId} {p : Nat} {v : DWord} (hI : s.Inv pq) : (State.stageAt s c p v).Inv pq := by
  unfold State.stageAt
  repeat' first
    | with_reducible assumption
    | intro x hx
    | with_reducible apply State.modCtx_inv
    | with_reducible apply Ctx.stage_fits

theorem State.ctxPort_inv {c : CtxId} {data : DWord} (hI : s.Inv pq) : (State.ctxPort s c data).Inv pq := by
  unfold State.ctxPort
  repeat' first
    | with_reducible assumption
    | intro x hx
    | with_reducible apply State.modCtx_inv
    | with_reducible apply State.ctlWord_inv
    | exact Ctx.Fits.keep hx rfl rfl rfl rfl rfl
    | split

theorem Ctx.setMask_fits {x : Ctx} {data : DWord} (hx : x.Fits) : (Ctx.setMask x data).Fits := by
  unfold Ctx.setMask
  repeat' first
    | exact Ctx.Fits.keep hx rfl rfl rfl rfl rfl

theorem Ctx.setClass_fits {x : Ctx} {data : DWord} (hx : x.Fits) : (Ctx.setClass x data).Fits := by
  unfold Ctx.setClass
  repeat' first
    | exact Ctx.Fits.keep hx rfl rfl rfl rfl rfl

theorem Ctx.evAck_fits {x : Ctx} {data : DWord} (hx : x.Fits) : (Ctx.evAck x data).Fits := by
  unfold Ctx.evAck
  repeat' first
    | exact Ctx.Fits.keep hx rfl rfl rfl rfl rfl

theorem State.modSpur_inv {c : CtxId} {f : Spur → Spur} (hf : ∀ p, (f p).ctx = p.ctx) (hI : s.Inv pq) :
    (s.modSpur c f).Inv pq :=
  State.modCore_inv (fun m hm => ⟨hm.store,
    Six.forall_set (P := fun p : Spur => ∀ n, (p.ctx.get n).Fits) hm.ctx (fun n => by rw [hf]; exact hm.ctx c.spur n)⟩) hI

theorem State.ffSet_inv {c : CtxId} {data : DWord} (hI : s.Inv pq) : (State.ffSet s c data).Inv pq := by
  unfold State.ffSet
  repeat' first
    | with_reducible assumption
    | with_reducible apply State.modSpur_inv
    | exact fun _ => rfl

theorem State.ffClear_inv {c : CtxId} {data : DWord} (hI : s.Inv pq) : (State.ffClear s c data).Inv pq := by
  unfold State.ffClear
  repeat' first
    | with_reducible assumption
    | with_reducible apply State.modSpur_inv
    | exact fun _ => rfl

theorem State.sig0_inv {c : CtxId} {data : DWord} (hI : s.Inv pq) : (State.sig0 s c data).Inv pq := by
  unfold State.sig0
  repeat' first
    | with_reducible assumption
    | with_reducible apply State.raiseRoute_inv

theorem State.sig1_inv {c : CtxId} {data : DWord} (hI : s.Inv pq) : (State.sig1 s c data).Inv pq := by
  unfold State.sig1
  repeat' first
    | with_reducible assumption
    | with_reducible apply State.raiseRoute_inv
    | with_reducible apply State.refuseCtx_inv
    | split

theorem State.cmpRoute_inv {c : CtxId} {data : DWord} (hI : s.Inv pq) : (State.cmpRoute s c data).Inv pq := by
  unfold State.cmpRoute
  repeat' first
    | with_reducible assumption
    | with_reducible apply State.modAng_inv
    | with_reducible apply State.refuseCtx_inv
    | split

theorem State.drmWrite_inv {c : CtxId} {data : DWord} (hI : s.Inv pq) : (State.drmWrite s c data).Inv pq := by
  unfold State.drmWrite
  repeat' first
    | with_reducible assumption
    | (extract_lets +onlyGivenNames x1; clear_value x1)
    | with_reducible apply State.refuseCtx_inv
    | with_reducible apply State.dramWrite_inv
    | split

theorem State.streamWrite_inv {c : CtxId} {p : Nat} {data : DWord} {rom : Bool} (hI : s.Inv pq) : (State.streamWrite s c p data rom).Inv pq := by
  unfold State.streamWrite
  repeat' first
    | with_reducible assumption
    | intro x hx
    | with_reducible apply State.tileAccess_inv
    | with_reducible apply State.fmtCtl_inv
    | with_reducible apply State.stageAt_inv
    | with_reducible apply State.bankWrite_inv
    | with_reducible apply State.skipSelect_inv
    | split

theorem State.tracePort_inv {c : CtxId} {data : DWord} (hI : s.Inv pq) : (State.tracePort s c data).Inv pq := by
  unfold State.tracePort
  repeat' first
    | with_reducible assumption
    | with_reducible apply State.traceCfg_inv
    | with_reducible apply State.refuseCtx_inv
    | split

theorem State.portWrite_inv {c : CtxId} {p : Nat} {data : DWord} {rom : Bool} (hI : s.Inv pq) : (State.portWrite s c p data rom).Inv pq := by
  unfold State.portWrite
  repeat' first
    | with_reducible assumption
    | intro x hx
    | with_reducible apply State.ctxPort_inv
    | with_reducible apply State.modCtx_inv
    | with_reducible apply Ctx.setClass_fits
    | with_reducible apply State.ffSet_inv
    | with_reducible apply State.ffClear_inv
    | with_reducible apply State.sig0_inv
    | with_reducible apply State.sig1_inv
    | with_reducible apply State.cmpRoute_inv
    | with_reducible apply State.decSubmit_inv
    | with_reducible apply State.stageAt_inv
    | with_reducible apply State.stePort_inv
    | with_reducible apply State.bufRelease_inv
    | with_reducible apply State.chunkMove_inv
    | with_reducible apply State.reconRequest_inv
    | with_reducible apply State.scrubStart_inv
    | with_reducible apply State.nodeWrite_inv
    | with_reducible apply State.coefWrite_inv
    | with_reducible apply State.modeRequest_inv
    | with_reducible apply State.seekRequest_inv
    | with_reducible apply State.tracePort_inv
    | with_reducible apply State.creditRelease_inv
    | with_reducible apply State.refuseCtx_inv
    | with_reducible apply State.hedgeRemove_inv
    | with_reducible apply State.ztbUpdate_inv
    | with_reducible apply State.hqCpl_inv
    | with_reducible apply State.crnAppend_inv
    | with_reducible apply State.evrPost_inv
    | with_reducible apply State.drmWrite_inv
    | with_reducible apply State.busWrite_inv
    | with_reducible apply State.streamWrite_inv
    | exact Ctx.Fits.keep hx rfl rfl rfl rfl rfl
    | split

theorem State.answered_inv {c : CtxId} {f : State → State × Option DWord} (hf : ∀ s, State.Inv pq s → (f s).1.Inv pq) (hI : s.Inv pq) : (State.answered s c f).1.Inv pq := by
  unfold State.answered
  repeat' first
    | with_reducible assumption
    | (extract_lets +onlyGivenNames s1; refine State.Inv.cut (s := s1) (q := pq) ?_ (fun _ => ?_); rotate_left; clear_value s1; rotate_left; dsimp -zeta only [s1]; clear s1)
    | (extract_lets +onlyGivenNames x1; clear_value x1)
    | intro x hx
    | with_reducible apply State.modCtx_inv
    | with_reducible apply hf
    | with_reducible refine State.Inv.fst (by assumption) ?_
    | exact Ctx.Fits.keep hx rfl rfl rfl rfl rfl
    | split

theorem State.serve_inv {c : CtxId} {kind : Nat} {port : Nat} {f : State → State × Option DWord} (hf : ∀ s, State.Inv pq s → (f s).1.Inv pq) (hI : s.Inv pq) : (State.serve s c kind port f).1.Inv pq := by
  unfold State.serve
  repeat' first
    | with_reducible assumption
    | (extract_lets +onlyGivenNames x1; clear_value x1)
    | intro x hx
    | with_reducible apply State.refuseCtx_inv
    | with_reducible apply State.answered_inv
    | with_reducible apply State.modCtx_inv
    | exact Ctx.Fits.keep hx rfl rfl rfl rfl rfl
    | split

theorem State.xferRead_inv {c : CtxId} {p : Nat} {rom : Bool} (hI : s.Inv pq) : (State.xferRead s c p rom).1.Inv pq := by
  unfold State.xferRead
  repeat' first
    | with_reducible assumption
    | intro x hx
    | with_reducible apply State.refuseCtx_inv
    | with_reducible apply State.serve_inv
    | with_reducible apply State.portRead_inv
    | with_reducible apply State.answered_inv
    | split

theorem State.xferWrite_inv {c : CtxId} {p : Nat} {data : DWord} {rom : Bool} (hI : s.Inv pq) : (State.xferWrite s c p data rom).Inv pq := by
  unfold State.xferWrite
  repeat' first
    | with_reducible assumption
    | intro x hx
    | with_reducible apply State.refuseCtx_inv
    | with_reducible apply State.serve_inv
    | with_reducible apply State.portWrite_inv
    | split

theorem State.refuseAng_inv {c : CtxId} {reason : Nat} (hI : s.Inv pq) : (State.refuseAng s c reason).Inv pq := by
  unfold State.refuseAng
  repeat' first
    | with_reducible assumption
    | with_reducible apply State.refuseCtx_inv
    | with_reducible apply State.freeNext_inv

theorem State.arm_inv {c : CtxId} {n : Nat} (hI : s.Inv pq) : (State.arm s c n).Inv pq := by
  unfold State.arm
  repeat' first
    | with_reducible assumption
    | with_reducible apply State.modAng_inv
    | with_reducible apply State.refuseAng_inv
    | split

theorem State.disarm_inv {c : CtxId} {n : Nat} (hI : s.Inv pq) : (State.disarm s c n).Inv pq := by
  unfold State.disarm
  repeat' first
    | with_reducible assumption
    | with_reducible apply State.modAng_inv
    | with_reducible apply State.refuseAng_inv
    | split

theorem State.aeqAccess_inv {c : CtxId} {t : Quad} {f : State → State} (hf : ∀ s, State.Inv pq s → (f s).Inv pq) (hI : s.Inv pq) : (State.aeqAccess s c t f).Inv pq := by
  unfold State.aeqAccess
  repeat' first
    | with_reducible assumption
    | with_reducible apply State.refuseAng_inv
    | with_reducible apply State.refuseTile_inv
    | with_reducible apply State.freeNext_inv
    | with_reducible apply hf
    | split

theorem State.post_inv {c : CtxId} {t : Quad} (hI : s.Inv pq) : (s.post c t).Inv pq := by
  refine State.aeqAccess_inv (fun s hs => ?_) hI
  dsimp only
  split
  · exact State.refuseAng_inv hs
  · split
    · exact State.refuseAng_inv hs
    · rename_i hlt
      refine ⟨hs.queue, hs.regs, hs.dram, hs.core, ?_⟩
      refine Four.forall_set (P := fun x : Tile => x.aeq.length ≤ 256) hs.aeq ?_
      have h : ¬ 256 ≤ (s.tile.get t).aeq.length := hlt
      simp only [List.length_append, List.length_cons, List.length_nil]
      omega

theorem State.flush_inv {c : CtxId} {t : Quad} (hI : s.Inv pq) : (State.flush s c t).Inv pq := by
  unfold State.flush
  repeat' first
    | with_reducible assumption
    | intro x hx
    | with_reducible apply State.aeqAccess_inv
    | with_reducible apply State.flushAeq_inv

theorem State.angRead_inv {c : CtxId} {src : Nat} (hI : s.Inv pq) : (State.angRead s c src).Inv pq := by
  unfold State.angRead
  repeat' first
    | with_reducible assumption
    | (extract_lets +onlyGivenNames x1; clear_value x1)
    | with_reducible apply State.stageAt_inv
    | with_reducible apply State.refuseAng_inv
    | split

theorem State.angOp_inv {c : CtxId} {op : Nat} {sel : Nat} (hI : s.Inv pq) : (State.angOp s c op sel).Inv pq := by
  unfold State.angOp
  repeat' first
    | with_reducible assumption
    | intro x hx
    | with_reducible apply State.arm_inv
    | with_reducible apply State.disarm_inv
    | with_reducible apply State.serve_inv
    | with_reducible apply State.post_inv
    | with_reducible apply State.angRead_inv
    | with_reducible apply State.flush_inv
    | split

theorem execSig0_inv {c : CtxId} {data : DWord} (hI : s.Inv pq) : ∃ s1, execSig0 c data s = .next s1 ∧ s1.Inv pq := by
  unfold execSig0
  refine ⟨_, rfl, ?_⟩
  repeat' first
    | with_reducible assumption
    | intro x hx
    | with_reducible apply State.byCtx_inv
    | with_reducible apply State.sig0_inv

theorem execSig1_inv {c : CtxId} {data : DWord} (hI : s.Inv pq) : ∃ s1, execSig1 c data s = .next s1 ∧ s1.Inv pq := by
  unfold execSig1
  refine ⟨_, rfl, ?_⟩
  repeat' first
    | with_reducible assumption
    | intro x hx
    | with_reducible apply State.byCtx_inv
    | with_reducible apply State.sig1_inv

theorem execFfSet_inv {c : CtxId} {data : DWord} (hI : s.Inv pq) : ∃ s1, execFfSet c data s = .next s1 ∧ s1.Inv pq := by
  unfold execFfSet
  refine ⟨_, rfl, ?_⟩
  repeat' first
    | with_reducible assumption
    | intro x hx
    | with_reducible apply State.byCtx_inv
    | with_reducible apply State.ffSet_inv

theorem execFfClear_inv {c : CtxId} {data : DWord} (hI : s.Inv pq) : ∃ s1, execFfClear c data s = .next s1 ∧ s1.Inv pq := by
  unfold execFfClear
  refine ⟨_, rfl, ?_⟩
  repeat' first
    | with_reducible assumption
    | intro x hx
    | with_reducible apply State.byCtx_inv
    | with_reducible apply State.ffClear_inv

theorem execEventAck_inv {c : CtxId} {data : DWord} (hI : s.Inv pq) : ∃ s1, execEventAck c data s = .next s1 ∧ s1.Inv pq := by
  unfold execEventAck
  refine ⟨_, rfl, ?_⟩
  repeat' first
    | with_reducible assumption
    | intro x hx
    | with_reducible apply State.byCtx_inv
    | with_reducible apply State.modCtx_inv
    | with_reducible apply Ctx.evAck_fits

theorem execArm_inv {c : CtxId} {n : BitVec 5} (hI : s.Inv pq) : ∃ s1, execArm c n s = .next s1 ∧ s1.Inv pq := by
  unfold execArm
  refine ⟨_, rfl, ?_⟩
  repeat' first
    | with_reducible assumption
    | intro x hx
    | with_reducible apply State.byCtx_inv
    | with_reducible apply State.arm_inv

theorem execDisarm_inv {c : CtxId} {n : BitVec 5} (hI : s.Inv pq) : ∃ s1, execDisarm c n s = .next s1 ∧ s1.Inv pq := by
  unfold execDisarm
  refine ⟨_, rfl, ?_⟩
  repeat' first
    | with_reducible assumption
    | intro x hx
    | with_reducible apply State.byCtx_inv
    | with_reducible apply State.disarm_inv

theorem execPost_inv {c : CtxId} {t : Quad} (hI : s.Inv pq) : ∃ s1, execPost c t s = .next s1 ∧ s1.Inv pq := by
  unfold execPost
  refine ⟨_, rfl, ?_⟩
  repeat' first
    | with_reducible assumption
    | intro x hx
    | with_reducible apply State.byCtx_inv
    | with_reducible apply State.post_inv

theorem execAngRead_inv {c : CtxId} {src : BitVec 3} (hI : s.Inv pq) : ∃ s1, execAngRead c src s = .next s1 ∧ s1.Inv pq := by
  unfold execAngRead
  refine ⟨_, rfl, ?_⟩
  repeat' first
    | with_reducible assumption
    | intro x hx
    | with_reducible apply State.byCtx_inv
    | with_reducible apply State.angRead_inv

theorem execAeqFlush_inv {c : CtxId} {t : Quad} (hI : s.Inv pq) : ∃ s1, execAeqFlush c t s = .next s1 ∧ s1.Inv pq := by
  unfold execAeqFlush
  refine ⟨_, rfl, ?_⟩
  repeat' first
    | with_reducible assumption
    | intro x hx
    | with_reducible apply State.byCtx_inv
    | with_reducible apply State.flush_inv

theorem execWaitRelease_inv {c : CtxId} (hI : s.Inv pq) : ∃ s1, execWaitRelease c s = .next s1 ∧ s1.Inv pq := by
  unfold execWaitRelease
  refine ⟨_, rfl, ?_⟩
  repeat' first
    | with_reducible assumption
    | intro x hx
    | with_reducible apply State.byCtx_inv
    | with_reducible apply State.modCtx_inv
    | with_reducible apply Ctx.waitEnds_fits
    | split

end Sys2Proof.Machine
end

