-- ==== Sys2Proof/Laws/InvWords.lean ====
section
/-!
SUPPORT. The operations of Machine/Words.lean keep the invariant.
-/
set_option Elab.async false
set_option linter.unusedTactic false
set_option linter.unreachableTactic false
namespace Sys2Proof.Machine

variable {pq : List Instr} {s : State}

theorem Ctx.pop_fits {x : Ctx} {a : CsAddr} {t : List CsAddr} (hx : x.Fits) (e : x.stack = a :: t) :
    Ctx.Fits { x with stack := t } :=
  ⟨hx.regs, by have := hx.stack; rw [e] at this; exact Nat.le_of_succ_le this, hx.snap, hx.held, hx.inbox⟩

theorem Ctx.pollView_fits {x : Ctx} {w : MicroWord} (hx : x.Fits) : (Ctx.pollView x w).Fits := by
  unfold Ctx.pollView
  repeat' first
    | exact Ctx.Fits.keep hx rfl rfl rfl rfl rfl

theorem Ctx.returned_fits {x : Ctx} {depth : Nat} (hx : x.Fits) : (Ctx.returned x depth).Fits := by
  unfold Ctx.returned
  repeat' first
    | exact Ctx.Fits.keep hx rfl rfl rfl rfl rfl

theorem Ctx.push_fits {x : Ctx} {a : CsAddr} (hx : x.Fits) : (x.push a).Fits :=
  ⟨hx.regs, by simp [Ctx.push], hx.snap, hx.held, hx.inbox⟩

theorem Ctx.poll_fits {x : Ctx} {w : MicroWord} {nxt : CsAddr} (hx : x.Fits) : (x.poll w nxt).ctx.Fits := by
  unfold Ctx.poll
  split
  · exact Ctx.Fits.keep (Ctx.push_fits hx) rfl rfl rfl rfl rfl
  · exact hx

theorem State.startWait_inv {c : CtxId} {w : MicroWord} {fl : Flags} {pc : CsAddr} {nxt : CsAddr} (hI : s.Inv pq) : (State.startWait s c w fl pc nxt).Inv pq := by
  unfold State.startWait
  repeat' first
    | with_reducible assumption
    | (extract_lets +onlyGivenNames x1; clear_value x1)
    | (intro x hx; beta_reduce)
    | with_reducible apply State.modCtx_inv
    | exact Ctx.Fits.keep hx rfl rfl rfl rfl rfl
    | split

theorem Ctx.noteWrite_fits {x : Ctx} {w : MicroWord} {pc : CsAddr} (hx : x.Fits) : (Ctx.noteWrite x w pc).Fits := by
  unfold Ctx.noteWrite
  repeat' first
    | with_reducible assumption
    | exact Ctx.Fits.keep hx rfl rfl rfl rfl rfl
    | split

theorem State.wordParts_inv {c : CtxId} {w : MicroWord} {x : Ctx} (hI : s.Inv pq) : (State.wordParts s c w x).1.Inv pq := by
  unfold State.wordParts
  repeat' first
    | with_reducible assumption
    | (extract_lets +onlyGivenNames s1; refine State.Inv.cut (s := s1) (q := pq) ?_ (fun _ => ?_); rotate_left; clear_value s1; rotate_left; dsimp -zeta only [s1]; clear s1)
    | (extract_lets +onlyGivenNames x1; clear_value x1)
    | intro x hx
    | with_reducible apply State.angOp_inv
    | with_reducible apply State.xferRead_inv
    | with_reducible apply State.xferWrite_inv
    | with_reducible apply State.modCtx_inv
    | with_reducible apply Ctx.aluWrite_fits
    | with_reducible apply Ctx.noteWrite_fits
    | with_reducible refine State.Inv.fst (by assumption) ?_
    | split

theorem State.wordCommit_inv {c : CtxId} {w : MicroWord} {got : Option DWord} {pc : CsAddr} {restart : CsAddr} (hI : s.Inv pq) : (State.wordCommit s c w got pc restart).Inv pq := by
  unfold State.wordCommit
  repeat' first
    | with_reducible assumption
    | (extract_lets +onlyGivenNames x1; clear_value x1)
    | (intro x hx; beta_reduce)
    | with_reducible apply State.modCtx_inv
    | with_reducible apply State.commit_inv
    | exact Ctx.Fits.keep hx rfl rfl rfl rfl rfl
    | split

theorem State.wordEnd_inv {c : CtxId} {w : MicroWord} {pc : CsAddr} (hI : s.Inv pq) : (State.wordEnd s c w pc).Inv pq := by
  unfold State.wordEnd
  repeat' first
    | with_reducible assumption
    | (extract_lets +onlyGivenNames s1; refine Ctx.Fits.cut (x := s1) ?_ (fun hx => ?_); rotate_left; clear_value s1; rotate_left; dsimp -zeta only [s1]; clear s1)
    | intro x hx
    | with_reducible apply State.modCtx_inv
    | with_reducible apply State.modPins_inv
    | exact Ctx.Fits.keep hx rfl rfl rfl rfl rfl
    | split

theorem State.seqStep_fits {c : CtxId} {w : MicroWord} {x : Ctx} {pc : CsAddr} (hI : s.Inv pq) : (s.seqStep c w x pc).ctx.Fits := by
  have hx := hI.ctx c
  unfold State.seqStep
  dsimp only
  split
  · exact hx
  · exact Ctx.push_fits hx
  · split
    · rename_i e
      exact Ctx.returned_fits (Ctx.pop_fits hx e)
    · exact hx
  · exact hx
  · exact hx
  · exact Ctx.poll_fits hx
  · exact hx
  · split
    · exact hx
    · exact Ctx.Fits.keep hx rfl rfl rfl rfl rfl
  · exact hx

theorem State.runWord_inv {c : CtxId} {w : MicroWord} (hI : s.Inv pq) : (s.runWord c w).Inv pq := by
  unfold State.runWord
  have hp := State.wordParts_inv (c := c) (w := w) (x := s.ctx c) hI
  dsimp only
  split
  · exact hp
  · split
    · refine State.wordEnd_inv ?_
      split
      · exact State.modCtx_inv (fun x hx => Ctx.Fits.keep hx rfl rfl rfl rfl rfl) (State.wordCommit_inv hp)
      · exact State.startWait_inv (State.wordCommit_inv hp)
    · exact State.wordEnd_inv (State.modCtx_inv (fun x hx => Ctx.Fits.keep hx rfl rfl rfl rfl rfl) (State.wordCommit_inv hp))
    · refine State.wordEnd_inv (State.wordCommit_inv (State.setCtx_inv ?_ hp))
      exact Ctx.Fits.keep (State.seqStep_fits hp) rfl rfl rfl rfl rfl

theorem State.issue_inv {c : CtxId} {w : MicroWord} {ce : Bool} (hI : s.Inv pq) : (State.issue s c w ce).Inv pq := by
  unfold State.issue
  repeat' first
    | with_reducible assumption
    | (extract_lets +onlyGivenNames s1; refine State.Inv.cut (s := s1) (q := pq) ?_ (fun _ => ?_); rotate_left; clear_value s1; rotate_left; dsimp -zeta only [s1]; clear s1)
    | (extract_lets +onlyGivenNames x1; clear_value x1)
    | intro x hx
    | with_reducible apply State.fetchCe_inv
    | with_reducible apply State.ctxFault_inv
    | with_reducible apply State.modCtx_inv
    | with_reducible apply State.runWord_inv
    | exact Ctx.Fits.keep hx rfl rfl rfl rfl rfl
    | split

theorem State.seqRow_inv {c : CtxId} {w : MicroWord} {ce : Bool} {seq : Nat → Bool} (hI : s.Inv pq) : (State.seqRow s c w ce seq).Inv pq := by
  unfold State.seqRow
  repeat' first
    | with_reducible assumption
    | with_reducible apply State.issue_inv
    | split

theorem execNext_inv {c : CtxId} {w : MicroWord} {ce : Bool} (hI : s.Inv pq) : ∃ s1, execNext c w ce s = .next s1 ∧ s1.Inv pq := by
  unfold execNext
  refine ⟨_, rfl, ?_⟩
  repeat' first
    | with_reducible assumption
    | with_reducible apply State.seqRow_inv

theorem execJump_inv {c : CtxId} {w : MicroWord} {ce : Bool} (hI : s.Inv pq) : ∃ s1, execJump c w ce s = .next s1 ∧ s1.Inv pq := by
  unfold execJump
  refine ⟨_, rfl, ?_⟩
  repeat' first
    | with_reducible assumption
    | with_reducible apply State.seqRow_inv

theorem execCall_inv {c : CtxId} {w : MicroWord} {ce : Bool} (hI : s.Inv pq) : ∃ s1, execCall c w ce s = .next s1 ∧ s1.Inv pq := by
  unfold execCall
  refine ⟨_, rfl, ?_⟩
  repeat' first
    | with_reducible assumption
    | with_reducible apply State.seqRow_inv

theorem execRet_inv {c : CtxId} {w : MicroWord} {ce : Bool} (hI : s.Inv pq) : ∃ s1, execRet c w ce s = .next s1 ∧ s1.Inv pq := by
  unfold execRet
  refine ⟨_, rfl, ?_⟩
  repeat' first
    | with_reducible assumption
    | with_reducible apply State.seqRow_inv

theorem execBrt_inv {c : CtxId} {w : MicroWord} {ce : Bool} (hI : s.Inv pq) : ∃ s1, execBrt c w ce s = .next s1 ∧ s1.Inv pq := by
  unfold execBrt
  refine ⟨_, rfl, ?_⟩
  repeat' first
    | with_reducible assumption
    | with_reducible apply State.seqRow_inv

theorem execBrf_inv {c : CtxId} {w : MicroWord} {ce : Bool} (hI : s.Inv pq) : ∃ s1, execBrf c w ce s = .next s1 ∧ s1.Inv pq := by
  unfold execBrf
  refine ⟨_, rfl, ?_⟩
  repeat' first
    | with_reducible assumption
    | with_reducible apply State.seqRow_inv

theorem execWait_inv {c : CtxId} {w : MicroWord} {ce : Bool} (hI : s.Inv pq) : ∃ s1, execWait c w ce s = .next s1 ∧ s1.Inv pq := by
  unfold execWait
  refine ⟨_, rfl, ?_⟩
  repeat' first
    | with_reducible assumption
    | with_reducible apply State.seqRow_inv

theorem execPoll_inv {c : CtxId} {w : MicroWord} {ce : Bool} (hI : s.Inv pq) : ∃ s1, execPoll c w ce s = .next s1 ∧ s1.Inv pq := by
  unfold execPoll
  refine ⟨_, rfl, ?_⟩
  repeat' first
    | with_reducible assumption
    | with_reducible apply State.seqRow_inv

theorem execDisp_inv {c : CtxId} {w : MicroWord} {ce : Bool} (hI : s.Inv pq) : ∃ s1, execDisp c w ce s = .next s1 ∧ s1.Inv pq := by
  unfold execDisp
  refine ⟨_, rfl, ?_⟩
  repeat' first
    | with_reducible assumption
    | with_reducible apply State.seqRow_inv

theorem execYield_inv {c : CtxId} {w : MicroWord} {ce : Bool} (hI : s.Inv pq) : ∃ s1, execYield c w ce s = .next s1 ∧ s1.Inv pq := by
  unfold execYield
  refine ⟨_, rfl, ?_⟩
  repeat' first
    | with_reducible assumption
    | with_reducible apply State.seqRow_inv

theorem execHalt_inv {c : CtxId} {w : MicroWord} {ce : Bool} (hI : s.Inv pq) : ∃ s1, execHalt c w ce s = .next s1 ∧ s1.Inv pq := by
  unfold execHalt
  refine ⟨_, rfl, ?_⟩
  repeat' first
    | with_reducible assumption
    | with_reducible apply State.seqRow_inv

theorem execLoop_inv {c : CtxId} {w : MicroWord} {ce : Bool} (hI : s.Inv pq) : ∃ s1, execLoop c w ce s = .next s1 ∧ s1.Inv pq := by
  unfold execLoop
  refine ⟨_, rfl, ?_⟩
  repeat' first
    | with_reducible assumption
    | with_reducible apply State.seqRow_inv

theorem execIllseq_inv {c : CtxId} {w : MicroWord} {ce : Bool} (hI : s.Inv pq) : ∃ s1, execIllseq c w ce s = .next s1 ∧ s1.Inv pq := by
  unfold execIllseq
  refine ⟨_, rfl, ?_⟩
  repeat' first
    | with_reducible assumption
    | with_reducible apply State.seqRow_inv

theorem execSpurStep_inv {c : CtxId} {w : MicroWord} {ce : Bool} (hI : s.Inv pq) : ∃ s1, execSpurStep c w ce s = .next s1 ∧ s1.Inv pq := by
  unfold execSpurStep
  refine ⟨_, rfl, ?_⟩
  repeat' first
    | with_reducible assumption
    | (extract_lets +onlyGivenNames s1; refine Ctx.Fits.cut (x := s1) ?_ (fun hx => ?_); rotate_left; clear_value s1; rotate_left; dsimp -zeta only [s1]; clear s1)
    | intro x hx
    | with_reducible apply State.byCtx_inv
    | with_reducible apply State.modCtx_inv
    | with_reducible apply State.issue_inv
    | with_reducible apply State.spuInt_inv
    | with_reducible refine State.Inv.ctx (q := pq) ?_ _
    | exact Ctx.Fits.keep hx rfl rfl rfl rfl rfl
    | split

end Sys2Proof.Machine
end

