-- ==== Sys2Proof/Laws/Kept.lean ====
section
/-!
SUPPORT. What an operation leaves as it was. `s.Kept (m, o)` says that a state agrees with `o` in every field whose bit is
not set in `m`; one lemma for each update of State, and the glue.
-/
set_option Elab.async false
set_option linter.unusedTactic false
set_option linter.unreachableTactic false
namespace Sys2Proof.Machine

/-- A state agrees with the second part in the fields that the mask does not name. -/
structure State.Kept (p : Nat × State) (s : State) : Prop where
  pending : p.1.testBit 0 = false → s.pending = p.2.pending
  freeCtr : p.1.testBit 1 = false → s.freeCtr = p.2.freeCtr
  regs : p.1.testBit 2 = false → s.regs = p.2.regs
  core : p.1.testBit 3 = false → s.core = p.2.core
  ang : p.1.testBit 4 = false → s.ang = p.2.ang
  tile : p.1.testBit 5 = false → s.tile = p.2.tile
  dec : p.1.testBit 6 = false → s.dec = p.2.dec
  link : p.1.testBit 7 = false → s.link = p.2.link
  rlg : p.1.testBit 8 = false → s.rlg = p.2.rlg
  evr : p.1.testBit 9 = false → s.evr = p.2.evr
  cry : p.1.testBit 10 = false → s.cry = p.2.cry
  rcp : p.1.testBit 11 = false → s.rcp = p.2.rcp
  fus : p.1.testBit 12 = false → s.fus = p.2.fus
  mem : p.1.testBit 13 = false → s.mem = p.2.mem
  dram : p.1.testBit 14 = false → s.dram = p.2.dram
  cen : p.1.testBit 15 = false → s.cen = p.2.cen
  mtr : p.1.testBit 16 = false → s.mtr = p.2.mtr
  mon : p.1.testBit 17 = false → s.mon = p.2.mon
  ste : p.1.testBit 18 = false → s.ste = p.2.ste
  ztb : p.1.testBit 19 = false → s.ztb = p.2.ztb
  member : p.1.testBit 20 = false → s.member = p.2.member
  redun : p.1.testBit 21 = false → s.redun = p.2.redun
  crn : p.1.testBit 22 = false → s.crn = p.2.crn
  win : p.1.testBit 23 = false → s.win = p.2.win
  nve : p.1.testBit 24 = false → s.nve = p.2.nve
  hdg : p.1.testBit 25 = false → s.hdg = p.2.hdg
  hpt : p.1.testBit 26 = false → s.hpt = p.2.hpt
  mgmt : p.1.testBit 27 = false → s.mgmt = p.2.mgmt
  pins : p.1.testBit 28 = false → s.pins = p.2.pins

/-- The mask names at least these fields. -/
def Sub (a : Nat) (p : Nat × State) : Prop := a &&& p.1 = a

theorem Sub.mono {a b : Nat} {p : Nat × State} (h : a &&& b = a) (hb : Sub b p) : Sub a p := by
  unfold Sub at *
  rw [← h, Nat.and_assoc, hb]

theorem Sub.bit {a i : Nat} {p : Nat × State} (hb : Sub a p) (h : a.testBit i = true) : p.1.testBit i = true := by
  have e := congrArg (fun n => n.testBit i) hb
  simp only [Nat.testBit_and, h, Bool.true_and] at e
  exact e

theorem Sub.no {a i : Nat} {p : Nat × State} {P : Prop} (hb : Sub a p) (h : a.testBit i = true) (e : p.1.testBit i = false) : P := by
  rw [hb.bit h] at e
  cases e

variable {p : Nat × State} {s : State}

theorem State.Kept.refl {m : Nat} : s.Kept (m, s) := by
  constructor <;> exact fun _ => rfl

theorem State.Kept.fst {α : Type} {r : State × α} {t : State} {v : α} (e : r = (t, v)) (h : r.1.Kept p) : t.Kept p := by
  subst e
  exact h

structure OptKept (p : Nat × State) (o : Option State) : Prop where
  all : ∀ t, o = some t → t.Kept p

theorem OptKept.none : OptKept p Option.none := ⟨fun _ h => by cases h⟩

theorem OptKept.some (h : s.Kept p) : OptKept p (Option.some s) := ⟨fun _ e => by cases e; exact h⟩

theorem OptKept.getD {o : Option State} (h : OptKept p o) (hs : s.Kept p) : (o.getD s).Kept p := by
  cases o with
  | none => exact hs
  | some t => exact h.all t rfl

theorem State.Kept.cut {s : State} {P : Prop} (h : s.Kept p) (hp : s.Kept p → P) : P := hp h

theorem State.Kept.fnCut {f : State → State} {P : Prop} (h : ∀ s, State.Kept p s → (f s).Kept p)
    (hp : (∀ s, State.Kept p s → (f s).Kept p) → P) : P := hp h

theorem State.Kept.fnCut2 {α : Type} {f : State → α → State} {P : Prop} (h : ∀ s a, State.Kept p s → (f s a).Kept p)
    (hp : (∀ s a, State.Kept p s → (f s a).Kept p) → P) : P := hp h

theorem State.Kept.foldl {α : Type} {f : State → α → State} (hf : ∀ s a, State.Kept p s → (f s a).Kept p) :
    ∀ (l : List α) {s : State}, s.Kept p → (l.foldl f s).Kept p
  | [], _, h => h
  | a :: t, _, h => State.Kept.foldl hf t (hf _ a h)

theorem State.Kept.foldlFst {α β : Type} {f : State × β → α → State × β} (hf : ∀ s a, State.Kept p s.1 → (f s a).1.Kept p) :
    ∀ (l : List α) {s : State × β}, s.1.Kept p → (l.foldl f s).1.Kept p
  | [], _, h => h
  | a :: t, _, h => State.Kept.foldlFst hf t (hf _ a h)

theorem when_kept {c : Bool} {f : State → State} (hf : ∀ s, State.Kept p s → (f s).Kept p) (h : s.Kept p) :
    (when_ c f s).Kept p := by
  unfold when_
  split
  · exact hf _ h
  · exact h

theorem State.Kept.mkFst {α : Type} {v : α} (h : s.Kept p) : (s, v).1.Kept p := h

theorem State.Kept.cutFst {α : Type} {r : State × α} {P : Prop} (h : r.1.Kept p) (hp : r.1.Kept p → P) : P := hp h

/-! ### Updates -/

theorem State.modCry_kept {f : Cry → Cry} (hm : Sub 0x400 p) (h : s.Kept p) : (s.modCry f).Kept p :=
  ⟨h.pending, h.freeCtr, h.regs, h.core, h.ang, h.tile, h.dec, h.link, h.rlg, h.evr, fun e => hm.no (by decide) e, h.rcp, h.fus, h.mem, h.dram, h.cen, h.mtr, h.mon, h.ste, h.ztb, h.member, h.redun, h.crn, h.win, h.nve, h.hdg, h.hpt, h.mgmt, h.pins⟩

theorem State.modRlg_kept {f : Ledger → Ledger} (hm : Sub 0x100 p) (h : s.Kept p) : (s.modRlg f).Kept p :=
  ⟨h.pending, h.freeCtr, h.regs, h.core, h.ang, h.tile, h.dec, h.link, fun e => hm.no (by decide) e, h.evr, h.cry, h.rcp, h.fus, h.mem, h.dram, h.cen, h.mtr, h.mon, h.ste, h.ztb, h.member, h.redun, h.crn, h.win, h.nve, h.hdg, h.hpt, h.mgmt, h.pins⟩

theorem State.modMon_kept {f : Mon → Mon} (hm : Sub 0x20000 p) (h : s.Kept p) : (s.modMon f).Kept p :=
  ⟨h.pending, h.freeCtr, h.regs, h.core, h.ang, h.tile, h.dec, h.link, h.rlg, h.evr, h.cry, h.rcp, h.fus, h.mem, h.dram, h.cen, h.mtr, fun e => hm.no (by decide) e, h.ste, h.ztb, h.member, h.redun, h.crn, h.win, h.nve, h.hdg, h.hpt, h.mgmt, h.pins⟩

theorem State.modEvr_kept {f : Evr → Evr} (hm : Sub 0x200 p) (h : s.Kept p) : (s.modEvr f).Kept p :=
  ⟨h.pending, h.freeCtr, h.regs, h.core, h.ang, h.tile, h.dec, h.link, h.rlg, fun e => hm.no (by decide) e, h.cry, h.rcp, h.fus, h.mem, h.dram, h.cen, h.mtr, h.mon, h.ste, h.ztb, h.member, h.redun, h.crn, h.win, h.nve, h.hdg, h.hpt, h.mgmt, h.pins⟩

theorem State.freeBy_kept {n : Nat} (hm : Sub 0x2 p) (h : s.Kept p) : (s.freeBy n).Kept p :=
  ⟨h.pending, fun e => hm.no (by decide) e, h.regs, h.core, h.ang, h.tile, h.dec, h.link, h.rlg, h.evr, h.cry, h.rcp, h.fus, h.mem, h.dram, h.cen, h.mtr, h.mon, h.ste, h.ztb, h.member, h.redun, h.crn, h.win, h.nve, h.hdg, h.hpt, h.mgmt, h.pins⟩

theorem State.modAng_kept {r : Side} {f : Ang → Ang} (hm : Sub 0x10 p) (h : s.Kept p) : (s.modAng r f).Kept p :=
  ⟨h.pending, h.freeCtr, h.regs, h.core, fun e => hm.no (by decide) e, h.tile, h.dec, h.link, h.rlg, h.evr, h.cry, h.rcp, h.fus, h.mem, h.dram, h.cen, h.mtr, h.mon, h.ste, h.ztb, h.member, h.redun, h.crn, h.win, h.nve, h.hdg, h.hpt, h.mgmt, h.pins⟩

theorem State.modHdg_kept {f : Hdg → Hdg} (hm : Sub 0x2000000 p) (h : s.Kept p) : (s.modHdg f).Kept p :=
  ⟨h.pending, h.freeCtr, h.regs, h.core, h.ang, h.tile, h.dec, h.link, h.rlg, h.evr, h.cry, h.rcp, h.fus, h.mem, h.dram, h.cen, h.mtr, h.mon, h.ste, h.ztb, h.member, h.redun, h.crn, h.win, h.nve, fun e => hm.no (by decide) e, h.hpt, h.mgmt, h.pins⟩

theorem State.modHpt_kept {r : Side} {f : Hpt → Hpt} (hm : Sub 0x4000000 p) (h : s.Kept p) : (s.modHpt r f).Kept p :=
  ⟨h.pending, h.freeCtr, h.regs, h.core, h.ang, h.tile, h.dec, h.link, h.rlg, h.evr, h.cry, h.rcp, h.fus, h.mem, h.dram, h.cen, h.mtr, h.mon, h.ste, h.ztb, h.member, h.redun, h.crn, h.win, h.nve, h.hdg, fun e => hm.no (by decide) e, h.mgmt, h.pins⟩

theorem State.modRedun_kept {r : Side} {f : Redun → Redun} (hm : Sub 0x200000 p) (h : s.Kept p) : (s.modRedun r f).Kept p :=
  ⟨h.pending, h.freeCtr, h.regs, h.core, h.ang, h.tile, h.dec, h.link, h.rlg, h.evr, h.cry, h.rcp, h.fus, h.mem, h.dram, h.cen, h.mtr, h.mon, h.ste, h.ztb, h.member, fun e => hm.no (by decide) e, h.crn, h.win, h.nve, h.hdg, h.hpt, h.mgmt, h.pins⟩

theorem State.keepRegs_kept {f : Nat × Word → Bool} (hm : Sub 0x4 p) (h : s.Kept p) : (s.keepRegs f).Kept p :=
  ⟨h.pending, h.freeCtr, fun e => hm.no (by decide) e, h.core, h.ang, h.tile, h.dec, h.link, h.rlg, h.evr, h.cry, h.rcp, h.fus, h.mem, h.dram, h.cen, h.mtr, h.mon, h.ste, h.ztb, h.member, h.redun, h.crn, h.win, h.nve, h.hdg, h.hpt, h.mgmt, h.pins⟩

theorem State.modDec_kept {r : Side} {f : Dec → Dec} (hm : Sub 0x40 p) (h : s.Kept p) : (s.modDec r f).Kept p :=
  ⟨h.pending, h.freeCtr, h.regs, h.core, h.ang, h.tile, fun e => hm.no (by decide) e, h.link, h.rlg, h.evr, h.cry, h.rcp, h.fus, h.mem, h.dram, h.cen, h.mtr, h.mon, h.ste, h.ztb, h.member, h.redun, h.crn, h.win, h.nve, h.hdg, h.hpt, h.mgmt, h.pins⟩

theorem State.modTile_kept {t : Quad} {f : Tile → Tile} (hm : Sub 0x20 p) (h : s.Kept p) : (s.modTile t f).Kept p :=
  ⟨h.pending, h.freeCtr, h.regs, h.core, h.ang, fun e => hm.no (by decide) e, h.dec, h.link, h.rlg, h.evr, h.cry, h.rcp, h.fus, h.mem, h.dram, h.cen, h.mtr, h.mon, h.ste, h.ztb, h.member, h.redun, h.crn, h.win, h.nve, h.hdg, h.hpt, h.mgmt, h.pins⟩

theorem State.modCen_kept {r : Side} {f : Cen → Cen} (hm : Sub 0x8000 p) (h : s.Kept p) : (s.modCen r f).Kept p :=
  ⟨h.pending, h.freeCtr, h.regs, h.core, h.ang, h.tile, h.dec, h.link, h.rlg, h.evr, h.cry, h.rcp, h.fus, h.mem, h.dram, fun e => hm.no (by decide) e, h.mtr, h.mon, h.ste, h.ztb, h.member, h.redun, h.crn, h.win, h.nve, h.hdg, h.hpt, h.mgmt, h.pins⟩

theorem State.modZtb_kept {f : Ztb → Ztb} (hm : Sub 0x80000 p) (h : s.Kept p) : (s.modZtb f).Kept p :=
  ⟨h.pending, h.freeCtr, h.regs, h.core, h.ang, h.tile, h.dec, h.link, h.rlg, h.evr, h.cry, h.rcp, h.fus, h.mem, h.dram, h.cen, h.mtr, h.mon, h.ste, fun e => hm.no (by decide) e, h.member, h.redun, h.crn, h.win, h.nve, h.hdg, h.hpt, h.mgmt, h.pins⟩

theorem State.modSte_kept {r : Side} {f : Ste → Ste} (hm : Sub 0x40000 p) (h : s.Kept p) : (s.modSte r f).Kept p :=
  ⟨h.pending, h.freeCtr, h.regs, h.core, h.ang, h.tile, h.dec, h.link, h.rlg, h.evr, h.cry, h.rcp, h.fus, h.mem, h.dram, h.cen, h.mtr, h.mon, fun e => hm.no (by decide) e, h.ztb, h.member, h.redun, h.crn, h.win, h.nve, h.hdg, h.hpt, h.mgmt, h.pins⟩

theorem State.modMtr_kept {f : Mtr → Mtr} (hm : Sub 0x10000 p) (h : s.Kept p) : (s.modMtr f).Kept p :=
  ⟨h.pending, h.freeCtr, h.regs, h.core, h.ang, h.tile, h.dec, h.link, h.rlg, h.evr, h.cry, h.rcp, h.fus, h.mem, h.dram, h.cen, fun e => hm.no (by decide) e, h.mon, h.ste, h.ztb, h.member, h.redun, h.crn, h.win, h.nve, h.hdg, h.hpt, h.mgmt, h.pins⟩

theorem State.modCore_kept {r : Side} {f : Core → Core} (hm : Sub 0x8 p) (h : s.Kept p) : (s.modCore r f).Kept p :=
  ⟨h.pending, h.freeCtr, h.regs, fun e => hm.no (by decide) e, h.ang, h.tile, h.dec, h.link, h.rlg, h.evr, h.cry, h.rcp, h.fus, h.mem, h.dram, h.cen, h.mtr, h.mon, h.ste, h.ztb, h.member, h.redun, h.crn, h.win, h.nve, h.hdg, h.hpt, h.mgmt, h.pins⟩

theorem State.modWin_kept {f : Win → Win} (hm : Sub 0x800000 p) (h : s.Kept p) : (s.modWin f).Kept p :=
  ⟨h.pending, h.freeCtr, h.regs, h.core, h.ang, h.tile, h.dec, h.link, h.rlg, h.evr, h.cry, h.rcp, h.fus, h.mem, h.dram, h.cen, h.mtr, h.mon, h.ste, h.ztb, h.member, h.redun, h.crn, fun e => hm.no (by decide) e, h.nve, h.hdg, h.hpt, h.mgmt, h.pins⟩

theorem State.modNve_kept {f : Nve → Nve} (hm : Sub 0x1000000 p) (h : s.Kept p) : (s.modNve f).Kept p :=
  ⟨h.pending, h.freeCtr, h.regs, h.core, h.ang, h.tile, h.dec, h.link, h.rlg, h.evr, h.cry, h.rcp, h.fus, h.mem, h.dram, h.cen, h.mtr, h.mon, h.ste, h.ztb, h.member, h.redun, h.crn, h.win, fun e => hm.no (by decide) e, h.hdg, h.hpt, h.mgmt, h.pins⟩

theorem State.modMgmt_kept {f : Mgmt → Mgmt} (hm : Sub 0x8000000 p) (h : s.Kept p) : (s.modMgmt f).Kept p :=
  ⟨h.pending, h.freeCtr, h.regs, h.core, h.ang, h.tile, h.dec, h.link, h.rlg, h.evr, h.cry, h.rcp, h.fus, h.mem, h.dram, h.cen, h.mtr, h.mon, h.ste, h.ztb, h.member, h.redun, h.crn, h.win, h.nve, h.hdg, h.hpt, fun e => hm.no (by decide) e, h.pins⟩

theorem State.modMember_kept {f : Sparse Member → Sparse Member} (hm : Sub 0x100000 p) (h : s.Kept p) : (s.modMember f).Kept p :=
  ⟨h.pending, h.freeCtr, h.regs, h.core, h.ang, h.tile, h.dec, h.link, h.rlg, h.evr, h.cry, h.rcp, h.fus, h.mem, h.dram, h.cen, h.mtr, h.mon, h.ste, h.ztb, fun e => hm.no (by decide) e, h.redun, h.crn, h.win, h.nve, h.hdg, h.hpt, h.mgmt, h.pins⟩

theorem State.modDram_kept {r : Side} {f : DramCh → DramCh} (hm : Sub 0x4000 p) (h : s.Kept p) : (s.modDram r f).Kept p :=
  ⟨h.pending, h.freeCtr, h.regs, h.core, h.ang, h.tile, h.dec, h.link, h.rlg, h.evr, h.cry, h.rcp, h.fus, h.mem, fun e => hm.no (by decide) e, h.cen, h.mtr, h.mon, h.ste, h.ztb, h.member, h.redun, h.crn, h.win, h.nve, h.hdg, h.hpt, h.mgmt, h.pins⟩

theorem State.modPins_kept {f : Pins → Pins} (hm : Sub 0x10000000 p) (h : s.Kept p) : (s.modPins f).Kept p :=
  ⟨h.pending, h.freeCtr, h.regs, h.core, h.ang, h.tile, h.dec, h.link, h.rlg, h.evr, h.cry, h.rcp, h.fus, h.mem, h.dram, h.cen, h.mtr, h.mon, h.ste, h.ztb, h.member, h.redun, h.crn, h.win, h.nve, h.hdg, h.hpt, h.mgmt, fun e => hm.no (by decide) e⟩

theorem State.modFus_kept {f : Fus → Fus} (hm : Sub 0x1000 p) (h : s.Kept p) : (s.modFus f).Kept p :=
  ⟨h.pending, h.freeCtr, h.regs, h.core, h.ang, h.tile, h.dec, h.link, h.rlg, h.evr, h.cry, h.rcp, fun e => hm.no (by decide) e, h.mem, h.dram, h.cen, h.mtr, h.mon, h.ste, h.ztb, h.member, h.redun, h.crn, h.win, h.nve, h.hdg, h.hpt, h.mgmt, h.pins⟩

theorem State.setReg_kept {k : Nat} {v : Word} (hm : Sub 0x4 p) (h : s.Kept p) : (s.setReg k v).Kept p :=
  ⟨h.pending, h.freeCtr, fun e => hm.no (by decide) e, h.core, h.ang, h.tile, h.dec, h.link, h.rlg, h.evr, h.cry, h.rcp, h.fus, h.mem, h.dram, h.cen, h.mtr, h.mon, h.ste, h.ztb, h.member, h.redun, h.crn, h.win, h.nve, h.hdg, h.hpt, h.mgmt, h.pins⟩

theorem State.modCrn_kept {f : Crn → Crn} (hm : Sub 0x400000 p) (h : s.Kept p) : (s.modCrn f).Kept p :=
  ⟨h.pending, h.freeCtr, h.regs, h.core, h.ang, h.tile, h.dec, h.link, h.rlg, h.evr, h.cry, h.rcp, h.fus, h.mem, h.dram, h.cen, h.mtr, h.mon, h.ste, h.ztb, h.member, h.redun, fun e => hm.no (by decide) e, h.win, h.nve, h.hdg, h.hpt, h.mgmt, h.pins⟩

theorem State.modMem_kept {r : Side} {f : Sparse ScrubMem → Sparse ScrubMem} (hm : Sub 0x2000 p) (h : s.Kept p) : (s.modMem r f).Kept p :=
  ⟨h.pending, h.freeCtr, h.regs, h.core, h.ang, h.tile, h.dec, h.link, h.rlg, h.evr, h.cry, h.rcp, h.fus, fun e => hm.no (by decide) e, h.dram, h.cen, h.mtr, h.mon, h.ste, h.ztb, h.member, h.redun, h.crn, h.win, h.nve, h.hdg, h.hpt, h.mgmt, h.pins⟩

theorem State.modLink_kept {r : Side} {f : Link → Link} (hm : Sub 0x80 p) (h : s.Kept p) : (s.modLink r f).Kept p :=
  ⟨h.pending, h.freeCtr, h.regs, h.core, h.ang, h.tile, h.dec, fun e => hm.no (by decide) e, h.rlg, h.evr, h.cry, h.rcp, h.fus, h.mem, h.dram, h.cen, h.mtr, h.mon, h.ste, h.ztb, h.member, h.redun, h.crn, h.win, h.nve, h.hdg, h.hpt, h.mgmt, h.pins⟩

theorem State.modRcp_kept {f : Rcp → Rcp} (hm : Sub 0x800 p) (h : s.Kept p) : (s.modRcp f).Kept p :=
  ⟨h.pending, h.freeCtr, h.regs, h.core, h.ang, h.tile, h.dec, h.link, h.rlg, h.evr, h.cry, fun e => hm.no (by decide) e, h.fus, h.mem, h.dram, h.cen, h.mtr, h.mon, h.ste, h.ztb, h.member, h.redun, h.crn, h.win, h.nve, h.hdg, h.hpt, h.mgmt, h.pins⟩

theorem State.setCtx_kept {c : CtxId} {x : Ctx} (hm : Sub 0x8 p) (h : s.Kept p) : (s.setCtx c x).Kept p :=
  ⟨h.pending, h.freeCtr, h.regs, fun e => hm.no (by decide) e, h.ang, h.tile, h.dec, h.link, h.rlg, h.evr, h.cry, h.rcp, h.fus, h.mem, h.dram, h.cen, h.mtr, h.mon, h.ste, h.ztb, h.member, h.redun, h.crn, h.win, h.nve, h.hdg, h.hpt, h.mgmt, h.pins⟩

theorem State.modCtx_kept {c : CtxId} {f : Ctx → Ctx} (hm : Sub 0x8 p) (h : s.Kept p) : (s.modCtx c f).Kept p :=
  ⟨h.pending, h.freeCtr, h.regs, fun e => hm.no (by decide) e, h.ang, h.tile, h.dec, h.link, h.rlg, h.evr, h.cry, h.rcp, h.fus, h.mem, h.dram, h.cen, h.mtr, h.mon, h.ste, h.ztb, h.member, h.redun, h.crn, h.win, h.nve, h.hdg, h.hpt, h.mgmt, h.pins⟩

theorem State.powerOn_kept {groups : BitVec 4} (hm : Sub 0x1FFFFFFE p) (h : s.Kept p) : (s.powerOn groups).Kept p :=
  ⟨h.pending, fun e => hm.no (by decide) e, fun e => hm.no (by decide) e, fun e => hm.no (by decide) e, fun e => hm.no (by decide) e, fun e => hm.no (by decide) e, fun e => hm.no (by decide) e, fun e => hm.no (by decide) e, fun e => hm.no (by decide) e, fun e => hm.no (by decide) e, fun e => hm.no (by decide) e, fun e => hm.no (by decide) e, fun e => hm.no (by decide) e, fun e => hm.no (by decide) e, fun e => hm.no (by decide) e, fun e => hm.no (by decide) e, fun e => hm.no (by decide) e, fun e => hm.no (by decide) e, fun e => hm.no (by decide) e, fun e => hm.no (by decide) e, fun e => hm.no (by decide) e, fun e => hm.no (by decide) e, fun e => hm.no (by decide) e, fun e => hm.no (by decide) e, fun e => hm.no (by decide) e, fun e => hm.no (by decide) e, fun e => hm.no (by decide) e, fun e => hm.no (by decide) e, fun e => hm.no (by decide) e⟩

theorem State.fullReset_kept {mon : Bool} (hm : Sub 0x1FFFFFFE p) (h : s.Kept p) : (s.fullReset mon).Kept p :=
  ⟨h.pending, fun e => hm.no (by decide) e, fun e => hm.no (by decide) e, fun e => hm.no (by decide) e, fun e => hm.no (by decide) e, fun e => hm.no (by decide) e, fun e => hm.no (by decide) e, fun e => hm.no (by decide) e, fun e => hm.no (by decide) e, fun e => hm.no (by decide) e, fun e => hm.no (by decide) e, fun e => hm.no (by decide) e, fun e => hm.no (by decide) e, fun e => hm.no (by decide) e, fun e => hm.no (by decide) e, fun e => hm.no (by decide) e, fun e => hm.no (by decide) e, fun e => hm.no (by decide) e, fun e => hm.no (by decide) e, fun e => hm.no (by decide) e, fun e => hm.no (by decide) e, fun e => hm.no (by decide) e, fun e => hm.no (by decide) e, fun e => hm.no (by decide) e, fun e => hm.no (by decide) e, fun e => hm.no (by decide) e, fun e => hm.no (by decide) e, fun e => hm.no (by decide) e, fun e => hm.no (by decide) e⟩

end Sys2Proof.Machine
end

