-- ==== Sys2Proof/Laws/KeptOps.lean ====
section
/-!
SUPPORT. The operations of Machine/Ops.lean keep what they do not write.
-/
set_option Elab.async false
set_option linter.unusedTactic false
set_option linter.unreachableTactic false
namespace Sys2Proof.Machine

variable {pq : Nat × State} {s : State}

theorem State.modReg_kept {k : Nat} {f : Word → Word} (hm : Sub 0x4 pq) (hI : s.Kept pq) : (State.modReg s k f).Kept pq := by
  unfold State.modReg
  repeat' first
    | with_reducible assumption
    | with_reducible apply State.setReg_kept

theorem State.setStat_kept {k : Nat} {i : Nat} (hm : Sub 0x4 pq) (hI : s.Kept pq) : (State.setStat s k i).Kept pq := by
  unfold State.setStat
  repeat' first
    | with_reducible assumption
    | with_reducible apply State.modReg_kept

theorem State.bump_kept {k : Nat} {hi : Nat} {lo : Nat} {n : Nat} (hm : Sub 0x4 pq) (hI : s.Kept pq) : (State.bump s k hi lo n).Kept pq := by
  unfold State.bump
  repeat' first
    | with_reducible assumption
    | with_reducible apply State.modReg_kept

theorem State.freeNext_kept (hm : Sub 0x2 pq) (hI : s.Kept pq) : (State.freeNext s).Kept pq := by
  unfold State.freeNext
  repeat' first
    | with_reducible assumption
    | with_reducible apply State.freeBy_kept

theorem State.raiseLine_kept {c : CtxId} {n : Nat} (hm : Sub 0x8 pq) (hI : s.Kept pq) : (State.raiseLine s c n).Kept pq := by
  unfold State.raiseLine
  repeat' first
    | with_reducible assumption
    | with_reducible apply State.modCtx_kept

theorem State.raiseRoute_kept {r : Side} {spur : Nat} {ctx : Nat} {n : Nat} (hm : Sub 0x8 pq) (hI : s.Kept pq) : (State.raiseRoute s r spur ctx n).Kept pq := by
  unfold State.raiseRoute
  repeat' first
    | with_reducible assumption
    | with_reducible apply State.raiseLine_kept
    | split

theorem State.spuInt_kept {r : Side} {i : Nat} (hm : Sub 0xC pq) (hI : s.Kept pq) : (State.spuInt s r i).Kept pq := by
  unfold State.spuInt
  repeat' first
    | with_reducible assumption
    | (extract_lets +onlyGivenNames s1; refine State.Kept.cut (s := s1) (p := pq) ?_ (fun _ => ?_); rotate_left; clear_value s1; rotate_left; dsimp -zeta only [s1]; clear s1)
    | with_reducible apply State.setStat_kept
    | with_reducible apply State.raiseLine_kept
    | exact Sub.mono (by decide) hm
    | split

theorem State.byCtx_kept {c : CtxId} {f : State → State} (hf : ∀ s, State.Kept pq s → (f s).Kept pq) (hI : s.Kept pq) : (State.byCtx s c f).Kept pq := by
  unfold State.byCtx
  repeat' first
    | with_reducible assumption
    | with_reducible apply hf
    | split

theorem State.refuseCtx_kept {c : CtxId} {port : Nat} {reason : Nat} (hm : Sub 0x8 pq) (hI : s.Kept pq) : (State.refuseCtx s c port reason).Kept pq := by
  unfold State.refuseCtx
  repeat' first
    | with_reducible assumption
    | with_reducible apply State.modCtx_kept

theorem State.refuse_kept {x : Accessor} {reason : Nat} (hm : Sub 0x8 pq) (hI : s.Kept pq) : (State.refuse s x reason).Kept pq := by
  unfold State.refuse
  repeat' first
    | with_reducible assumption
    | with_reducible apply State.refuseCtx_kept
    | split

theorem State.access_kept {x : Accessor} {key : Nat} {owned : Bool} {f : State → State} (hf : ∀ s, State.Kept pq s → (f s).Kept pq) (hm : Sub 0x8 pq) (hI : s.Kept pq) : (State.access s x key owned f).Kept pq := by
  unfold State.access
  repeat' first
    | with_reducible assumption
    | with_reducible apply State.refuse_kept
    | with_reducible apply hf
    | split

theorem State.postGroup_kept {code : BitVec 16} {g : EvGroup} (hm : Sub 0x204 pq) (hI : s.Kept pq) : (State.postGroup s code g).1.Kept pq := by
  unfold State.postGroup
  repeat' first
    | with_reducible assumption
    | with_reducible apply State.modEvr_kept
    | with_reducible apply State.setStat_kept
    | exact Sub.mono (by decide) hm
    | split

theorem State.event_kept {code : BitVec 16} {src : BitVec 16} {ps : List (Nat × Word)} (hm : Sub 0x206 pq) (hI : s.Kept pq) : (State.event s code src ps).Kept pq := by
  unfold State.event
  repeat' first
    | with_reducible assumption
    | with_reducible apply State.postGroup_kept
    | with_reducible apply State.freeNext_kept
    | exact Sub.mono (by decide) hm
    | split

theorem State.refuseTile_kept {x : Accessor} {t : Quad} (hm : Sub 0x20E pq) (hI : s.Kept pq) : (State.refuseTile s x t).Kept pq := by
  unfold State.refuseTile
  repeat' first
    | with_reducible assumption
    | with_reducible apply State.refuse_kept
    | with_reducible apply State.event_kept
    | exact Sub.mono (by decide) hm

theorem State.tileAccess_kept {x : Accessor} {t : Quad} {f : State → State} (hf : ∀ s, State.Kept pq s → (f s).Kept pq) (hm : Sub 0x20E pq) (hI : s.Kept pq) : (State.tileAccess s x t f).Kept pq := by
  unfold State.tileAccess
  repeat' first
    | with_reducible assumption
    | with_reducible apply State.refuse_kept
    | with_reducible apply State.refuseTile_kept
    | with_reducible apply hf
    | exact Sub.mono (by decide) hm
    | split

end Sys2Proof.Machine
end

