-- ==== Sys2Proof/Laws/KeptTileOps.lean ====
section
/-!
SUPPORT. The operations of Machine/TileOps.lean keep what they do not write.
-/
set_option Elab.async false
set_option linter.unusedTactic false
set_option linter.unreachableTactic false
namespace Sys2Proof.Machine

variable {pq : Nat × State} {s : State}

theorem State.enterStatus_kept {t : Quad} {w : DWord} (hm : Sub 0x2C pq) (hI : s.Kept pq) : (State.enterStatus s t w).Kept pq := by
  unfold State.enterStatus
  repeat' first
    | with_reducible assumption
    | (extract_lets +onlyGivenNames s1; refine State.Kept.cut (s := s1) (p := pq) ?_ (fun _ => ?_); rotate_left; clear_value s1; rotate_left; dsimp -zeta only [s1]; clear s1)
    | (extract_lets +onlyGivenNames x1; clear_value x1)
    | with_reducible apply State.modTile_kept
    | with_reducible apply State.bump_kept
    | with_reducible apply State.raiseRoute_kept
    | exact Sub.mono (by decide) hm
    | split

theorem State.drainStatus_kept {t : Quad} (hm : Sub 0x2C pq) : ∀ {l : List (Nat × Option DWord)} {s : State}, s.Kept pq →
    (s.drainStatus t l).Kept pq
  | [], _, h => State.modTile_kept (Sub.mono (by decide) hm) h
  | (_, none) :: _, _, h => State.modTile_kept (Sub.mono (by decide) hm) h
  | (_, some _) :: rest, _, h =>
    State.drainStatus_kept hm (l := rest) (State.enterStatus_kept (Sub.mono (by decide) hm) h)

theorem State.endStatus_kept {t : Quad} {n : Nat} {w : Option DWord} (hm : Sub 0x2C pq) (hI : s.Kept pq) : (State.endStatus s t n w).Kept pq := by
  unfold State.endStatus
  repeat' first
    | with_reducible assumption
    | with_reducible apply State.drainStatus_kept

theorem State.postStatus_kept {t : Quad} {w : DWord} (hm : Sub 0x2C pq) (hI : s.Kept pq) : (State.postStatus s t w).Kept pq := by
  unfold State.postStatus
  repeat' first
    | with_reducible assumption
    | with_reducible apply State.endStatus_kept

theorem State.decidedStatus_kept {t : Quad} {n : Nat} {w : DWord} (hm : Sub 0x2C pq) (hI : s.Kept pq) : (State.decidedStatus s t n w).Kept pq := by
  unfold State.decidedStatus
  repeat' first
    | with_reducible assumption
    | with_reducible apply State.drainStatus_kept

theorem State.lastOff_kept {t : Quad} {x : Sector} (hm : Sub 0x4 pq) (hI : s.Kept pq) : (State.lastOff s t x).Kept pq := by
  unfold State.lastOff
  repeat' first
    | with_reducible assumption
    | with_reducible apply State.setReg_kept

theorem State.toDecode_kept {t : Quad} {x : Sector} {out : SecOut} {n : Nat} (hm : Sub 0x6C pq) (hI : s.Kept pq) : (State.toDecode s t x out n).Kept pq := by
  unfold State.toDecode
  repeat' first
    | with_reducible assumption
    | (extract_lets +onlyGivenNames x1; clear_value x1)
    | with_reducible apply State.modDec_kept
    | with_reducible apply State.endStatus_kept
    | with_reducible apply State.setStat_kept
    | with_reducible apply State.modTile_kept
    | with_reducible apply State.postStatus_kept
    | exact Sub.mono (by decide) hm
    | split

theorem State.endRead_kept {t : Quad} {x : Sector} {out : SecOut} (hm : Sub 0x6C pq) (hI : s.Kept pq) : (State.endRead s t x out).Kept pq := by
  unfold State.endRead
  repeat' first
    | with_reducible assumption
    | (extract_lets +onlyGivenNames s1; refine State.Kept.cut (s := s1) (p := pq) ?_ (fun _ => ?_); rotate_left; clear_value s1; rotate_left; dsimp -zeta only [s1]; clear s1)
    | (extract_lets +onlyGivenNames x1; clear_value x1)
    | with_reducible apply State.lastOff_kept
    | with_reducible apply State.modTile_kept
    | with_reducible apply State.postStatus_kept
    | with_reducible apply State.toDecode_kept
    | exact Sub.mono (by decide) hm
    | split

theorem State.logWrite_kept {t : Quad} {out : SecOut} (hm : Sub 0x20 pq) (hI : s.Kept pq) : (State.logWrite s t out).Kept pq := by
  unfold State.logWrite
  repeat' first
    | with_reducible assumption
    | (extract_lets +onlyGivenNames x1; clear_value x1)
    | with_reducible apply State.modTile_kept
    | split

theorem State.endWrite_kept {t : Quad} {x : Sector} {out : SecOut} (hm : Sub 0x2C pq) (hI : s.Kept pq) : (State.endWrite s t x out).Kept pq := by
  unfold State.endWrite
  repeat' first
    | with_reducible assumption
    | with_reducible apply State.logWrite_kept
    | with_reducible apply State.modTile_kept
    | with_reducible apply State.postStatus_kept
    | exact Sub.mono (by decide) hm

theorem State.sendData_kept {t : Quad} (hm : Sub 0x22 pq) (hI : s.Kept pq) : (State.sendData s t).Kept pq := by
  unfold State.sendData
  repeat' first
    | with_reducible assumption
    | (extract_lets +onlyGivenNames x1; clear_value x1)
    | with_reducible apply State.modTile_kept
    | with_reducible apply State.freeNext_kept
    | exact Sub.mono (by decide) hm
    | split

theorem State.putSector_kept {t : Quad} {x : Sector} (hm : Sub 0x20 pq) (hI : s.Kept pq) : (State.putSector s t x).Kept pq := by
  unfold State.putSector
  repeat' first
    | with_reducible assumption
    | with_reducible apply State.modTile_kept

theorem State.takeFrag_kept {t : Quad} {x : Sector} (hm : Sub 0x24 pq) (hI : s.Kept pq) : (State.takeFrag s t x).1.Kept pq := by
  unfold State.takeFrag
  repeat' first
    | with_reducible assumption
    | (extract_lets +onlyGivenNames x1; clear_value x1)
    | with_reducible apply State.bump_kept
    | with_reducible apply State.modTile_kept
    | exact Sub.mono (by decide) hm

theorem State.syncFound_kept {t : Quad} {w : SyncWin} {pos : Nat} (hm : Sub 0x24 pq) (hI : s.Kept pq) : (State.syncFound s t w pos).Kept pq := by
  unfold State.syncFound
  repeat' first
    | with_reducible assumption
    | (extract_lets +onlyGivenNames s1; refine State.Kept.cut (s := s1) (p := pq) ?_ (fun _ => ?_); rotate_left; clear_value s1; rotate_left; dsimp -zeta only [s1]; clear s1)
    | (extract_lets +onlyGivenNames x1; clear_value x1)
    | with_reducible apply State.modTile_kept
    | with_reducible apply State.bump_kept
    | exact Sub.mono (by decide) hm
    | split

theorem State.flywheelFrag_kept {t : Quad} {w : SyncWin} (hm : Sub 0x24 pq) (hI : s.Kept pq) : (State.flywheelFrag s t w).Kept pq := by
  unfold State.flywheelFrag
  repeat' first
    | with_reducible assumption
    | (extract_lets +onlyGivenNames s1; refine State.Kept.cut (s := s1) (p := pq) ?_ (fun _ => ?_); rotate_left; clear_value s1; rotate_left; dsimp -zeta only [s1]; clear s1)
    | with_reducible apply State.bump_kept
    | with_reducible apply State.modTile_kept
    | exact Sub.mono (by decide) hm

theorem State.closeWin_kept {t : Quad} {close : Nat} (hm : Sub 0x24 pq) (hI : s.Kept pq) : (State.closeWin s t close).Kept pq := by
  unfold State.closeWin
  repeat' first
    | with_reducible assumption
    | (extract_lets +onlyGivenNames s1; refine State.Kept.cut (s := s1) (p := pq) ?_ (fun _ => ?_); rotate_left; clear_value s1; rotate_left; dsimp -zeta only [s1]; clear s1)
    | with_reducible apply State.syncFound_kept
    | with_reducible apply State.flywheelFrag_kept
    | with_reducible apply State.modTile_kept
    | exact Sub.mono (by decide) hm
    | split

theorem State.cutRead_kept {t : Quad} {x : Sector} (hm : Sub 0x6E pq) (hI : s.Kept pq) : (State.cutRead s t x).Kept pq := by
  unfold State.cutRead
  repeat' first
    | with_reducible assumption
    | (extract_lets +onlyGivenNames s1; refine State.Kept.cut (s := s1) (p := pq) ?_ (fun _ => ?_); rotate_left; clear_value s1; rotate_left; dsimp -zeta only [s1]; clear s1)
    | (extract_lets +onlyGivenNames x1; clear_value x1)
    | with_reducible apply State.freeBy_kept
    | with_reducible apply State.putSector_kept
    | with_reducible apply State.closeWin_kept
    | with_reducible apply State.takeFrag_kept
    | with_reducible apply State.endRead_kept
    | with_reducible refine State.Kept.fst (by assumption) ?_
    | exact Sub.mono (by decide) hm
    | split

theorem State.cutSector_kept {t : Quad} (hm : Sub 0x6E pq) (hI : s.Kept pq) : (State.cutSector s t).Kept pq := by
  unfold State.cutSector
  repeat' first
    | with_reducible assumption
    | (extract_lets +onlyGivenNames s1; refine State.Kept.cut (s := s1) (p := pq) ?_ (fun _ => ?_); rotate_left; clear_value s1; rotate_left; dsimp -zeta only [s1]; clear s1)
    | with_reducible apply State.endWrite_kept
    | with_reducible apply State.cutRead_kept
    | with_reducible apply State.endRead_kept
    | exact Sub.mono (by decide) hm
    | split

theorem State.cutGate_kept {t : Quad} (hm : Sub 0x6E pq) (hI : s.Kept pq) : (State.cutGate s t).Kept pq := by
  unfold State.cutGate
  repeat' first
    | with_reducible assumption
    | (extract_lets +onlyGivenNames s1; refine State.Kept.cut (s := s1) (p := pq) ?_ (fun _ => ?_); rotate_left; clear_value s1; rotate_left; dsimp -zeta only [s1]; clear s1)
    | (extract_lets +onlyGivenNames x1; clear_value x1)
    | with_reducible apply State.cutRead_kept
    | with_reducible apply State.sendData_kept
    | with_reducible apply State.endWrite_kept
    | with_reducible apply State.putSector_kept
    | exact Sub.mono (by decide) hm
    | split

theorem State.settleSkew_kept {t : Quad} (hm : Sub 0x10 pq) (hI : s.Kept pq) : (State.settleSkew s t).Kept pq := by
  unfold State.settleSkew
  repeat' first
    | with_reducible assumption
    | with_reducible apply State.modAng_kept
    | split

theorem State.dropWg_kept {t : Quad} (hm : Sub 0x34 pq) (hI : s.Kept pq) : (State.dropWg s t).Kept pq := by
  unfold State.dropWg
  repeat' first
    | with_reducible assumption
    | (extract_lets +onlyGivenNames s1; refine State.Kept.cut (s := s1) (p := pq) ?_ (fun _ => ?_); rotate_left; clear_value s1; rotate_left; dsimp -zeta only [s1]; clear s1)
    | (extract_lets +onlyGivenNames x1; clear_value x1)
    | with_reducible apply State.modTile_kept
    | with_reducible apply State.settleSkew_kept
    | with_reducible apply State.setStat_kept
    | exact Sub.mono (by decide) hm
    | split

theorem State.dropRg_kept {t : Quad} (hm : Sub 0x30 pq) (hI : s.Kept pq) : (State.dropRg s t).Kept pq := by
  unfold State.dropRg
  repeat' first
    | with_reducible assumption
    | (extract_lets +onlyGivenNames s1; refine State.Kept.cut (s := s1) (p := pq) ?_ (fun _ => ?_); rotate_left; clear_value s1; rotate_left; dsimp -zeta only [s1]; clear s1)
    | with_reducible apply State.modTile_kept
    | with_reducible apply State.settleSkew_kept
    | exact Sub.mono (by decide) hm
    | split

theorem State.forceLow_kept {t : Quad} {once : Bool} (hm : Sub 0x3E pq) (hI : s.Kept pq) : (State.forceLow s t once).Kept pq := by
  unfold State.forceLow
  repeat' first
    | with_reducible assumption
    | (extract_lets +onlyGivenNames s1; refine State.Kept.cut (s := s1) (p := pq) ?_ (fun _ => ?_); rotate_left; clear_value s1; rotate_left; dsimp -zeta only [s1]; clear s1)
    | (extract_lets +onlyGivenNames x1; clear_value x1)
    | with_reducible apply State.sendData_kept
    | with_reducible apply State.modTile_kept
    | with_reducible apply State.settleSkew_kept
    | with_reducible apply State.endWrite_kept
    | exact Sub.mono (by decide) hm
    | split

theorem State.applyInhibit_kept {r : Side} (hm : Sub 0x3E pq) (hI : s.Kept pq) : (State.applyInhibit s r).Kept pq := by
  unfold State.applyInhibit
  repeat' first
    | with_reducible assumption
    | (intro x y hx; beta_reduce)
    | with_reducible apply State.forceLow_kept
    | with_reducible apply State.Kept.foldl
    | split

theorem State.lowMark_kept {t : Quad} {n : Nat} (hm : Sub 0x8 pq) (hI : s.Kept pq) : (State.lowMark s t n).Kept pq := by
  unfold State.lowMark
  repeat' first
    | with_reducible assumption
    | (extract_lets +onlyGivenNames x1; clear_value x1)
    | with_reducible apply State.raiseRoute_kept
    | split

theorem State.flushAeq_kept {t : Quad} (hm : Sub 0x7E pq) (hI : s.Kept pq) : (State.flushAeq s t).Kept pq := by
  unfold State.flushAeq
  repeat' first
    | with_reducible assumption
    | (extract_lets +onlyGivenNames s1; refine State.Kept.cut (s := s1) (p := pq) ?_ (fun _ => ?_); rotate_left; clear_value s1; rotate_left; dsimp -zeta only [s1]; clear s1)
    | (extract_lets +onlyGivenNames x1; clear_value x1)
    | with_reducible apply State.modTile_kept
    | with_reducible apply State.cutGate_kept
    | with_reducible apply State.dropWg_kept
    | with_reducible apply State.dropRg_kept
    | with_reducible apply State.lowMark_kept
    | exact Sub.mono (by decide) hm

end Sys2Proof.Machine
end

