-- ==== Sys2Proof/Laws/KeptQuaxlink.lean ====
section
/-!
SUPPORT. The operations of Machine/Quaxlink.lean keep what they do not write.
-/
set_option Elab.async false
set_option linter.unusedTactic false
set_option linter.unreachableTactic false
namespace Sys2Proof.Machine

variable {pq : Nat × State} {s : State}

theorem State.sendRun_kept {l : Side} {f : Frame} (hm : Sub 0x80 pq) (hI : s.Kept pq) : (State.sendRun s l f).Kept pq := by
  unfold State.sendRun
  repeat' first
    | with_reducible assumption
    | with_reducible apply State.modLink_kept
    | split

theorem State.sendMact_kept {l : Side} {f : Frame} (hm : Sub 0x80 pq) (hI : s.Kept pq) : (State.sendMact s l f).Kept pq := by
  unfold State.sendMact
  repeat' first
    | with_reducible assumption
    | with_reducible apply State.modLink_kept
    | split

theorem State.sendHsel_kept {l : Side} {slot : Side} {head : Nat} (hm : Sub 0x84 pq) (hI : s.Kept pq) : (State.sendHsel s l slot head).Kept pq := by
  unfold State.sendHsel
  repeat' first
    | with_reducible assumption
    | with_reducible apply State.setStat_kept
    | with_reducible apply State.modLink_kept
    | with_reducible apply State.sendRun_kept
    | exact Sub.mono (by decide) hm
    | split

theorem State.resendHsel_kept {l : Side} {slot : Side} (hm : Sub 0x84 pq) (hI : s.Kept pq) : (State.resendHsel s l slot).Kept pq := by
  unfold State.resendHsel
  repeat' first
    | with_reducible assumption
    | (extract_lets +onlyGivenNames x1; clear_value x1)
    | with_reducible apply State.sendHsel_kept
    | split

theorem State.resendAll_kept {l : Side} (hm : Sub 0x84 pq) (hI : s.Kept pq) : (State.resendAll s l).Kept pq := by
  unfold State.resendAll
  repeat' first
    | with_reducible assumption
    | (extract_lets +onlyGivenNames f1; refine State.Kept.fnCut2 (f := f1) (p := pq) ?_ (fun hf1 => ?_); rotate_left; clear_value f1; rotate_left; dsimp -zeta only [f1]; clear f1)
    | (extract_lets +onlyGivenNames s1; refine State.Kept.cut (s := s1) (p := pq) ?_ (fun _ => ?_); rotate_left; clear_value s1; rotate_left; dsimp -zeta only [s1]; clear s1)
    | (extract_lets +onlyGivenNames x1; clear_value x1)
    | with_reducible apply hf1
    | (intro x y hx; beta_reduce)
    | with_reducible apply State.sendHsel_kept
    | with_reducible apply State.sendRun_kept
    | exact Sub.mono (by decide) hm
    | split

theorem State.endReg_kept {l : Side} {err : Bool} {addr : Nat} {value : Nat} (hm : Sub 0x84 pq) (hI : s.Kept pq) : (State.endReg s l err addr value).Kept pq := by
  unfold State.endReg
  repeat' first
    | with_reducible assumption
    | (extract_lets +onlyGivenNames s1; refine State.Kept.cut (s := s1) (p := pq) ?_ (fun _ => ?_); rotate_left; clear_value s1; rotate_left; dsimp -zeta only [s1]; clear s1)
    | with_reducible apply State.modLink_kept
    | with_reducible apply State.setReg_kept
    | with_reducible apply State.setStat_kept
    | exact Sub.mono (by decide) hm
    | split

theorem State.failReg_kept {l : Side} (hm : Sub 0x84 pq) (hI : s.Kept pq) : (State.failReg s l).Kept pq := by
  unfold State.failReg
  repeat' first
    | with_reducible assumption
    | with_reducible apply State.endReg_kept
    | split

theorem State.forceSlots_kept {l : Side} (hm : Sub 0x3E pq) (hI : s.Kept pq) : (State.forceSlots s l).Kept pq := by
  unfold State.forceSlots
  repeat' first
    | with_reducible assumption
    | with_reducible apply State.forceLow_kept

theorem State.linkFault_kept {l : Side} {cause : Nat} {typ : Nat} (hm : Sub 0x2BE pq) (hI : s.Kept pq) : (State.linkFault s l cause typ).Kept pq := by
  unfold State.linkFault
  repeat' first
    | with_reducible assumption
    | (extract_lets +onlyGivenNames s1; refine State.Kept.cut (s := s1) (p := pq) ?_ (fun _ => ?_); rotate_left; clear_value s1; rotate_left; dsimp -zeta only [s1]; clear s1)
    | with_reducible apply State.forceSlots_kept
    | with_reducible apply State.modLink_kept
    | with_reducible apply State.failReg_kept
    | with_reducible apply State.setStat_kept
    | with_reducible apply State.event_kept
    | exact Sub.mono (by decide) hm

theorem State.frameSlot_kept {l : Side} (hm : Sub 0x80 pq) (hI : s.Kept pq) : (State.frameSlot s l).Kept pq := by
  unfold State.frameSlot
  repeat' first
    | with_reducible assumption
    | with_reducible apply State.modLink_kept
    | split

theorem State.acked_kept {l : Side} {f : Frame} (hm : Sub 0x84 pq) (hI : s.Kept pq) : (State.acked s l f).Kept pq := by
  unfold State.acked
  repeat' first
    | with_reducible assumption
    | with_reducible apply State.modLink_kept
    | with_reducible apply State.endReg_kept
    | exact Sub.mono (by decide) hm
    | split

theorem State.naked_kept {l : Side} {f : Frame} (hm : Sub 0x2BE pq) (hI : s.Kept pq) : (State.naked s l f).Kept pq := by
  unfold State.naked
  repeat' first
    | with_reducible assumption
    | (extract_lets +onlyGivenNames f1; refine State.Kept.fnCut (f := f1) (p := pq) ?_ (fun hf1 => ?_); rotate_left; clear_value f1; rotate_left; dsimp -zeta only [f1]; clear f1)
    | with_reducible apply hf1
    | (intro x hx; beta_reduce)
    | with_reducible apply State.modLink_kept
    | with_reducible apply State.linkFault_kept
    | with_reducible apply State.failReg_kept
    | exact Sub.mono (by decide) hm
    | split

theorem State.resolve_kept {l : Side} {nak : Bool} {count : Bool} (hm : Sub 0x2BE pq) (hI : s.Kept pq) : (State.resolve s l nak count).Kept pq := by
  unfold State.resolve
  repeat' first
    | with_reducible assumption
    | (extract_lets +onlyGivenNames s1; refine State.Kept.cut (s := s1) (p := pq) ?_ (fun _ => ?_); rotate_left; clear_value s1; rotate_left; dsimp -zeta only [s1]; clear s1)
    | with_reducible apply State.modLink_kept
    | with_reducible apply State.bump_kept
    | with_reducible apply State.naked_kept
    | with_reducible apply State.acked_kept
    | exact Sub.mono (by decide) hm
    | split

theorem State.upSlot_kept {l : Side} {good : Bool} {nak : Bool} {count : Bool} (hm : Sub 0x2BE pq) (hI : s.Kept pq) : (State.upSlot s l good nak count).Kept pq := by
  unfold State.upSlot
  repeat' first
    | with_reducible assumption
    | with_reducible apply State.modLink_kept
    | with_reducible apply State.resolve_kept
    | exact Sub.mono (by decide) hm

theorem State.onUp_kept {l : Side} {w : BitVec 40} {typ : Nat → Bool} {f : State → State} (hf : ∀ s, State.Kept pq s → (f s).Kept pq) (hm : Sub 0x2BE pq) (hI : s.Kept pq) : (State.onUp s l w typ f).Kept pq := by
  unfold State.onUp
  repeat' first
    | with_reducible assumption
    | with_reducible apply State.upSlot_kept
    | with_reducible apply hf
    | split

theorem State.rdrsp_kept {l : Side} {addr : Nat} {val : Nat} (hm : Sub 0x84 pq) (hI : s.Kept pq) : (State.rdrsp s l addr val).Kept pq := by
  unfold State.rdrsp
  repeat' first
    | with_reducible assumption
    | (extract_lets +onlyGivenNames s1; refine State.Kept.cut (s := s1) (p := pq) ?_ (fun _ => ?_); rotate_left; clear_value s1; rotate_left; dsimp -zeta only [s1]; clear s1)
    | (extract_lets +onlyGivenNames x1; clear_value x1)
    | with_reducible apply State.modLink_kept
    | with_reducible apply State.sendRun_kept
    | with_reducible apply State.endReg_kept
    | exact Sub.mono (by decide) hm
    | split

theorem State.statusFrame_kept {l : Side} {data : BitVec 24} (hm : Sub 0x84 pq) (hI : s.Kept pq) : (State.statusFrame s l data).Kept pq := by
  unfold State.statusFrame
  repeat' first
    | with_reducible assumption
    | (extract_lets +onlyGivenNames s1; refine State.Kept.cut (s := s1) (p := pq) ?_ (fun _ => ?_); rotate_left; clear_value s1; rotate_left; dsimp -zeta only [s1]; clear s1)
    | (extract_lets +onlyGivenNames x1; clear_value x1)
    | with_reducible apply State.modLink_kept
    | with_reducible apply State.setReg_kept
    | with_reducible apply State.resendAll_kept
    | exact Sub.mono (by decide) hm
    | split

theorem State.regCmd_kept {l : Side} {isRead : Bool} {addr : Nat} {value : Nat} (hm : Sub 0x84 pq) (hI : s.Kept pq) : (State.regCmd s l isRead addr value).Kept pq := by
  unfold State.regCmd
  repeat' first
    | with_reducible assumption
    | (extract_lets +onlyGivenNames s1; refine State.Kept.cut (s := s1) (p := pq) ?_ (fun _ => ?_); rotate_left; clear_value s1; rotate_left; dsimp -zeta only [s1]; clear s1)
    | (extract_lets +onlyGivenNames x1; clear_value x1)
    | with_reducible apply State.setStat_kept
    | with_reducible apply State.setReg_kept
    | with_reducible apply State.modLink_kept
    | with_reducible apply State.sendRun_kept
    | with_reducible apply State.endReg_kept
    | exact Sub.mono (by decide) hm
    | split

theorem State.linkStart_kept {l : Side} (hm : Sub 0x84 pq) (hI : s.Kept pq) : (State.linkStart s l).Kept pq := by
  unfold State.linkStart
  repeat' first
    | with_reducible assumption
    | (extract_lets +onlyGivenNames s1; refine State.Kept.cut (s := s1) (p := pq) ?_ (fun _ => ?_); rotate_left; clear_value s1; rotate_left; dsimp -zeta only [s1]; clear s1)
    | with_reducible apply State.modReg_kept
    | with_reducible apply State.modLink_kept
    | exact Sub.mono (by decide) hm
    | split

theorem State.linkStop_kept {l : Side} (hm : Sub 0xBE pq) (hI : s.Kept pq) : (State.linkStop s l).Kept pq := by
  unfold State.linkStop
  repeat' first
    | with_reducible assumption
    | (extract_lets +onlyGivenNames s1; refine State.Kept.cut (s := s1) (p := pq) ?_ (fun _ => ?_); rotate_left; clear_value s1; rotate_left; dsimp -zeta only [s1]; clear s1)
    | with_reducible apply State.modReg_kept
    | with_reducible apply State.forceSlots_kept
    | with_reducible apply State.failReg_kept
    | with_reducible apply State.modLink_kept
    | exact Sub.mono (by decide) hm
    | split

theorem State.heater_kept {l : Side} {head : Nat} {lv : BitVec 12} (hm : Sub 0x80 pq) (hI : s.Kept pq) : (State.heater s l head lv).Kept pq := by
  unfold State.heater
  repeat' first
    | with_reducible assumption
    | (extract_lets +onlyGivenNames s1; refine State.Kept.cut (s := s1) (p := pq) ?_ (fun _ => ?_); rotate_left; clear_value s1; rotate_left; dsimp -zeta only [s1]; clear s1)
    | with_reducible apply State.modLink_kept
    | with_reducible apply State.sendRun_kept
    | split

theorem State.safeCmd_kept {l : Side} {data : Word} (hm : Sub 0x80 pq) (hI : s.Kept pq) : (State.safeCmd s l data).Kept pq := by
  unfold State.safeCmd
  repeat' first
    | with_reducible assumption
    | with_reducible apply State.modLink_kept
    | split

theorem State.pairWrite_kept {l : Side} {data : Word} (hm : Sub 0x80 pq) (hI : s.Kept pq) : (State.pairWrite s l data).Kept pq := by
  unfold State.pairWrite
  repeat' first
    | with_reducible assumption
    | with_reducible apply State.modLink_kept

theorem execFrameSlot_kept {l : Side} (hm : Sub 0x80 pq) (hI : s.Kept pq) : ∃ s1, execFrameSlot l s = .next s1 ∧ s1.Kept pq := by
  unfold execFrameSlot
  refine ⟨_, rfl, ?_⟩
  repeat' first
    | with_reducible assumption
    | with_reducible apply State.frameSlot_kept

theorem execIdle_kept {l : Side} {w : BitVec 40} (hm : Sub 0x2BE pq) (hI : s.Kept pq) : ∃ s1, execIdle l w s = .next s1 ∧ s1.Kept pq := by
  unfold execIdle
  refine ⟨_, rfl, ?_⟩
  repeat' first
    | with_reducible assumption
    | (intro x hx; beta_reduce)
    | with_reducible apply State.onUp_kept

theorem execRdrsp_kept {l : Side} {w : BitVec 40} (hm : Sub 0x2BE pq) (hI : s.Kept pq) : ∃ s1, execRdrsp l w s = .next s1 ∧ s1.Kept pq := by
  unfold execRdrsp
  refine ⟨_, rfl, ?_⟩
  repeat' first
    | with_reducible assumption
    | (intro x hx; beta_reduce)
    | with_reducible apply State.onUp_kept
    | with_reducible apply State.rdrsp_kept
    | exact Sub.mono (by decide) hm

theorem execStatus_kept {l : Side} {w : BitVec 40} (hm : Sub 0x2BE pq) (hI : s.Kept pq) : ∃ s1, execStatus l w s = .next s1 ∧ s1.Kept pq := by
  unfold execStatus
  refine ⟨_, rfl, ?_⟩
  repeat' first
    | with_reducible assumption
    | (intro x hx; beta_reduce)
    | with_reducible apply State.onUp_kept
    | with_reducible apply State.statusFrame_kept
    | exact Sub.mono (by decide) hm

theorem State.logFault_kept {l : Side} {head : Nat} (hm : Sub 0x80 pq) (hI : s.Kept pq) : (State.logFault s l head).Kept pq := by
  unfold State.logFault
  repeat' first
    | with_reducible assumption
    | with_reducible apply State.modLink_kept
    | split

theorem execFault_kept {l : Side} {w : BitVec 40} (hm : Sub 0x2BE pq) (hI : s.Kept pq) : ∃ s1, execFault l w s = .next s1 ∧ s1.Kept pq := by
  unfold execFault
  refine ⟨_, rfl, ?_⟩
  repeat' first
    | with_reducible assumption
    | (intro x hx; beta_reduce)
    | with_reducible apply State.onUp_kept
    | with_reducible apply State.logFault_kept
    | with_reducible apply State.setReg_kept
    | with_reducible apply State.setStat_kept
    | exact Sub.mono (by decide) hm

theorem execUpstreamIgnoredType_kept {l : Side} {w : BitVec 40} (hm : Sub 0x2BE pq) (hI : s.Kept pq) : ∃ s1, execUpstreamIgnoredType l w s = .next s1 ∧ s1.Kept pq := by
  unfold execUpstreamIgnoredType
  refine ⟨_, rfl, ?_⟩
  repeat' first
    | with_reducible assumption
    | (intro x hx; beta_reduce)
    | with_reducible apply State.onUp_kept
    | with_reducible apply State.bump_kept
    | exact Sub.mono (by decide) hm

theorem execUpstreamLock_kept {l : Side} (hm : Sub 0x80 pq) (hI : s.Kept pq) : ∃ s1, execUpstreamLock l s = .next s1 ∧ s1.Kept pq := by
  unfold execUpstreamLock
  refine ⟨_, rfl, ?_⟩
  repeat' first
    | with_reducible assumption
    | (extract_lets +onlyGivenNames s1; refine State.Kept.cut (s := s1) (p := pq) ?_ (fun _ => ?_); rotate_left; clear_value s1; rotate_left; dsimp -zeta only [s1]; clear s1)
    | with_reducible apply State.modLink_kept
    | split

theorem execUpstreamLockLoss_kept {l : Side} (hm : Sub 0x80 pq) (hI : s.Kept pq) : ∃ s1, execUpstreamLockLoss l s = .next s1 ∧ s1.Kept pq := by
  unfold execUpstreamLockLoss
  refine ⟨_, rfl, ?_⟩
  repeat' first
    | with_reducible assumption
    | with_reducible apply State.modLink_kept
    | split

theorem execUpstreamSilence_kept {l : Side} (hm : Sub 0x2BE pq) (hI : s.Kept pq) : ∃ s1, execUpstreamSilence l s = .next s1 ∧ s1.Kept pq := by
  unfold execUpstreamSilence
  refine ⟨_, rfl, ?_⟩
  repeat' first
    | with_reducible assumption
    | with_reducible apply State.linkFault_kept
    | split

theorem execRetriesExhausted_kept {l : Side} {w : BitVec 40} (hm : Sub 0x2BE pq) (hI : s.Kept pq) : ∃ s1, execRetriesExhausted l w s = .next s1 ∧ s1.Kept pq := by
  unfold execRetriesExhausted
  refine ⟨_, rfl, ?_⟩
  repeat' first
    | with_reducible assumption
    | (intro x hx; beta_reduce)
    | with_reducible apply State.onUp_kept
    | split

theorem execRegisterAccessTimeout_kept {l : Side} (hm : Sub 0x84 pq) (hI : s.Kept pq) : ∃ s1, execRegisterAccessTimeout l s = .next s1 ∧ s1.Kept pq := by
  unfold execRegisterAccessTimeout
  refine ⟨_, rfl, ?_⟩
  repeat' first
    | with_reducible assumption
    | with_reducible apply State.failReg_kept
    | split

theorem execLinkStart_kept {x : Accessor} {l : Side} (hm : Sub 0x8C pq) (hI : s.Kept pq) : ∃ s1, execLinkStart x l s = .next s1 ∧ s1.Kept pq := by
  unfold execLinkStart
  refine ⟨_, rfl, ?_⟩
  repeat' first
    | with_reducible assumption
    | (intro x hx; beta_reduce)
    | with_reducible apply State.access_kept
    | with_reducible apply State.linkStart_kept
    | exact Sub.mono (by decide) hm

theorem execLinkStartTimeout_kept {l : Side} (hm : Sub 0x286 pq) (hI : s.Kept pq) : ∃ s1, execLinkStartTimeout l s = .next s1 ∧ s1.Kept pq := by
  unfold execLinkStartTimeout
  refine ⟨_, rfl, ?_⟩
  repeat' first
    | with_reducible assumption
    | (extract_lets +onlyGivenNames s1; refine State.Kept.cut (s := s1) (p := pq) ?_ (fun _ => ?_); rotate_left; clear_value s1; rotate_left; dsimp -zeta only [s1]; clear s1)
    | with_reducible apply State.modLink_kept
    | with_reducible apply State.failReg_kept
    | with_reducible apply State.setStat_kept
    | with_reducible apply State.event_kept
    | exact Sub.mono (by decide) hm
    | split

theorem execLinkStop_kept {x : Accessor} {l : Side} (hm : Sub 0xBE pq) (hI : s.Kept pq) : ∃ s1, execLinkStop x l s = .next s1 ∧ s1.Kept pq := by
  unfold execLinkStop
  refine ⟨_, rfl, ?_⟩
  repeat' first
    | with_reducible assumption
    | (intro x hx; beta_reduce)
    | with_reducible apply State.access_kept
    | with_reducible apply State.linkStop_kept
    | exact Sub.mono (by decide) hm

theorem execPreampRegisterRead_kept {x : Accessor} {l : Side} {addr : Byte} (hm : Sub 0x8C pq) (hI : s.Kept pq) : ∃ s1, execPreampRegisterRead x l addr s = .next s1 ∧ s1.Kept pq := by
  unfold execPreampRegisterRead
  refine ⟨_, rfl, ?_⟩
  repeat' first
    | with_reducible assumption
    | (intro x hx; beta_reduce)
    | with_reducible apply State.access_kept
    | with_reducible apply State.regCmd_kept
    | exact Sub.mono (by decide) hm

theorem execPreampRegisterWrite_kept {x : Accessor} {l : Side} {addr : Byte} {val : BitVec 16} (hm : Sub 0x8C pq) (hI : s.Kept pq) : ∃ s1, execPreampRegisterWrite x l addr val s = .next s1 ∧ s1.Kept pq := by
  unfold execPreampRegisterWrite
  refine ⟨_, rfl, ?_⟩
  repeat' first
    | with_reducible assumption
    | (intro x hx; beta_reduce)
    | with_reducible apply State.access_kept
    | with_reducible apply State.regCmd_kept
    | exact Sub.mono (by decide) hm

theorem execHeaterCommand_kept {x : Accessor} {l : Side} {head : BitVec 4} {level : BitVec 12} (hm : Sub 0x88 pq) (hI : s.Kept pq) : ∃ s1, execHeaterCommand x l head level s = .next s1 ∧ s1.Kept pq := by
  unfold execHeaterCommand
  refine ⟨_, rfl, ?_⟩
  repeat' first
    | with_reducible assumption
    | (intro x hx; beta_reduce)
    | with_reducible apply State.access_kept
    | with_reducible apply State.heater_kept
    | exact Sub.mono (by decide) hm

theorem execSafeCommand_kept {x : Accessor} {l : Side} {data : Word} (hm : Sub 0x88 pq) (hI : s.Kept pq) : ∃ s1, execSafeCommand x l data s = .next s1 ∧ s1.Kept pq := by
  unfold execSafeCommand
  refine ⟨_, rfl, ?_⟩
  repeat' first
    | with_reducible assumption
    | (intro x hx; beta_reduce)
    | with_reducible apply State.access_kept
    | with_reducible apply State.safeCmd_kept
    | exact Sub.mono (by decide) hm

theorem execPairMapWrite_kept {x : Accessor} {l : Side} {data : Word} (hm : Sub 0x88 pq) (hI : s.Kept pq) : ∃ s1, execPairMapWrite x l data s = .next s1 ∧ s1.Kept pq := by
  unfold execPairMapWrite
  refine ⟨_, rfl, ?_⟩
  repeat' first
    | with_reducible assumption
    | (intro x hx; beta_reduce)
    | with_reducible apply State.access_kept
    | with_reducible apply State.pairWrite_kept
    | exact Sub.mono (by decide) hm

theorem execPreampFaultLine_kept {l : Side} (hm : Sub 0x2BE pq) (hI : s.Kept pq) : ∃ s1, execPreampFaultLine l s = .next s1 ∧ s1.Kept pq := by
  unfold execPreampFaultLine
  refine ⟨_, rfl, ?_⟩
  repeat' first
    | with_reducible assumption
    | (extract_lets +onlyGivenNames s1; refine State.Kept.cut (s := s1) (p := pq) ?_ (fun _ => ?_); rotate_left; clear_value s1; rotate_left; dsimp -zeta only [s1]; clear s1)
    | with_reducible apply State.forceSlots_kept
    | with_reducible apply State.modLink_kept
    | with_reducible apply State.setStat_kept
    | with_reducible apply State.event_kept
    | exact Sub.mono (by decide) hm
    | split

theorem execPreampFaultRelease_kept {l : Side} (hm : Sub 0x80 pq) (hI : s.Kept pq) : ∃ s1, execPreampFaultRelease l s = .next s1 ∧ s1.Kept pq := by
  unfold execPreampFaultRelease
  refine ⟨_, rfl, ?_⟩
  repeat' first
    | with_reducible assumption
    | with_reducible apply State.modLink_kept

theorem execUpstreamFrameFailure_kept {l : Side} {w : BitVec 40} (hm : Sub 0x2BE pq) (hI : s.Kept pq) : ∃ s1, execUpstreamFrameFailure l w s = .next s1 ∧ s1.Kept pq := by
  unfold execUpstreamFrameFailure
  refine ⟨_, rfl, ?_⟩
  repeat' first
    | with_reducible assumption
    | with_reducible apply State.upSlot_kept
    | with_reducible apply State.modLink_kept
    | with_reducible apply State.bump_kept
    | exact Sub.mono (by decide) hm
    | split

theorem State.reach_kept {t : Quad} {now : DWord} (hm : Sub 0x10 pq) (hI : s.Kept pq) : (State.reach s t now).Kept pq := by
  unfold State.reach
  repeat' first
    | with_reducible assumption
    | with_reducible apply State.modAng_kept

theorem execAssistLeadLimit_kept {t : Quad} {now : DWord} (hm : Sub 0x34 pq) (hI : s.Kept pq) : ∃ s1, execAssistLeadLimit t now s = .next s1 ∧ s1.Kept pq := by
  unfold execAssistLeadLimit
  refine ⟨_, rfl, ?_⟩
  repeat' first
    | with_reducible assumption
    | (extract_lets +onlyGivenNames x1; clear_value x1)
    | with_reducible apply State.reach_kept
    | with_reducible apply State.modTile_kept
    | with_reducible apply State.setStat_kept
    | exact Sub.mono (by decide) hm
    | split

theorem execAssistTailLimit_kept {t : Quad} {now : DWord} (hm : Sub 0x34 pq) (hI : s.Kept pq) : ∃ s1, execAssistTailLimit t now s = .next s1 ∧ s1.Kept pq := by
  unfold execAssistTailLimit
  refine ⟨_, rfl, ?_⟩
  repeat' first
    | with_reducible assumption
    | (extract_lets +onlyGivenNames x1; clear_value x1)
    | with_reducible apply State.reach_kept
    | with_reducible apply State.modTile_kept
    | with_reducible apply State.setStat_kept
    | exact Sub.mono (by decide) hm
    | split

end Sys2Proof.Machine
end

