-- ==== Sys2Proof/Laws/KeptAngle.lean ====
section
/-!
SUPPORT. The operations of Machine/Angle.lean keep what they do not write.
-/
set_option Elab.async false
set_option linter.unusedTactic false
set_option linter.unreachableTactic false
namespace Sys2Proof.Machine

variable {pq : Nat × State} {s : State}

theorem State.setSrc_kept {r : Side} {x : AngSrc} (hm : Sub 0x14 pq) (hI : s.Kept pq) : (State.setSrc s r x).Kept pq := by
  unfold State.setSrc
  repeat' first
    | with_reducible assumption
    | (extract_lets +onlyGivenNames s1; refine State.Kept.cut (s := s1) (p := pq) ?_ (fun _ => ?_); rotate_left; clear_value s1; rotate_left; dsimp -zeta only [s1]; clear s1)
    | with_reducible apply State.modAng_kept
    | with_reducible apply State.setStat_kept
    | exact Sub.mono (by decide) hm
    | split

theorem State.cmpHit_kept {r : Side} {n : Nat} (hm : Sub 0x18 pq) (hI : s.Kept pq) : (State.cmpHit s r n).Kept pq := by
  unfold State.cmpHit
  repeat' first
    | with_reducible assumption
    | (extract_lets +onlyGivenNames s1; refine State.Kept.cut (s := s1) (p := pq) ?_ (fun _ => ?_); rotate_left; clear_value s1; rotate_left; dsimp -zeta only [s1]; clear s1)
    | (extract_lets +onlyGivenNames x1; clear_value x1)
    | with_reducible apply State.modAng_kept
    | with_reducible apply State.raiseRoute_kept
    | exact Sub.mono (by decide) hm
    | split

theorem State.stepAc_kept {r : Side} {d : Nat} (hm : Sub 0x18 pq) (hI : s.Kept pq) : (State.stepAc s r d).Kept pq := by
  unfold State.stepAc
  repeat' first
    | with_reducible assumption
    | (intro x y hx; beta_reduce)
    | with_reducible apply State.modAng_kept
    | with_reducible apply State.cmpHit_kept
    | with_reducible apply State.Kept.foldl
    | exact Sub.mono (by decide) hm
    | split

theorem State.toTrack_kept {r : Side} (hm : Sub 0x1C pq) (hI : s.Kept pq) : (State.toTrack s r).Kept pq := by
  unfold State.toTrack
  repeat' first
    | with_reducible assumption
    | (extract_lets +onlyGivenNames s1; refine State.Kept.cut (s := s1) (p := pq) ?_ (fun _ => ?_); rotate_left; clear_value s1; rotate_left; dsimp -zeta only [s1]; clear s1)
    | (extract_lets +onlyGivenNames x1; clear_value x1)
    | with_reducible apply State.setSrc_kept
    | with_reducible apply State.stepAc_kept
    | exact Sub.mono (by decide) hm
    | split

theorem State.handover_kept {r : Side} {e : Int} (hm : Sub 0x1C pq) (hI : s.Kept pq) : (State.handover s r e).Kept pq := by
  unfold State.handover
  repeat' first
    | with_reducible assumption
    | (extract_lets +onlyGivenNames s1; refine State.Kept.cut (s := s1) (p := pq) ?_ (fun _ => ?_); rotate_left; clear_value s1; rotate_left; dsimp -zeta only [s1]; clear s1)
    | with_reducible apply State.setReg_kept
    | with_reducible apply State.modAng_kept
    | with_reducible apply State.toTrack_kept
    | with_reducible apply State.setSrc_kept
    | with_reducible apply State.stepAc_kept
    | exact Sub.mono (by decide) hm
    | split

theorem State.advance_kept {r : Side} {k : Nat} {phase : Int} (hm : Sub 0x1C pq) (hI : s.Kept pq) : (State.advance s r k phase).Kept pq := by
  unfold State.advance
  repeat' first
    | with_reducible assumption
    | (extract_lets +onlyGivenNames s1; refine State.Kept.cut (s := s1) (p := pq) ?_ (fun _ => ?_); rotate_left; clear_value s1; rotate_left; dsimp -zeta only [s1]; clear s1)
    | (extract_lets +onlyGivenNames x1; clear_value x1)
    | with_reducible apply State.modAng_kept
    | with_reducible apply State.toTrack_kept
    | exact Sub.mono (by decide) hm
    | split

theorem State.flyEntry_kept {r : Side} (hm : Sub 0x14 pq) (hI : s.Kept pq) : (State.flyEntry s r).Kept pq := by
  unfold State.flyEntry
  repeat' first
    | with_reducible assumption
    | with_reducible apply State.setSrc_kept
    | split

theorem State.flyAmbiguous_kept {r : Side} (hm : Sub 0x10 pq) (hI : s.Kept pq) : (State.flyAmbiguous s r).Kept pq := by
  unfold State.flyAmbiguous
  repeat' first
    | with_reducible assumption
    | with_reducible apply State.modAng_kept

theorem State.flyFallback_kept {r : Side} (hm : Sub 0x3E pq) (hI : s.Kept pq) : (State.flyFallback s r).Kept pq := by
  unfold State.flyFallback
  repeat' first
    | with_reducible assumption
    | with_reducible apply State.setStat_kept
    | with_reducible apply State.setSrc_kept
    | with_reducible apply State.applyInhibit_kept
    | exact Sub.mono (by decide) hm

theorem State.flyLasts_kept {r : Side} {n : Nat} (hm : Sub 0x3E pq) (hI : s.Kept pq) : (State.flyLasts s r n).Kept pq := by
  unfold State.flyLasts
  repeat' first
    | with_reducible assumption
    | (extract_lets +onlyGivenNames s1; refine State.Kept.cut (s := s1) (p := pq) ?_ (fun _ => ?_); rotate_left; clear_value s1; rotate_left; dsimp -zeta only [s1]; clear s1)
    | with_reducible apply State.modAng_kept
    | with_reducible apply State.applyInhibit_kept
    | exact Sub.mono (by decide) hm
    | split

theorem State.flyRun_kept {r : Side} {absent : Nat} {n : Nat} (hm : Sub 0x3E pq) (hI : s.Kept pq) : (State.flyRun s r absent n).Kept pq := by
  unfold State.flyRun
  repeat' first
    | with_reducible assumption
    | (extract_lets +onlyGivenNames s1; refine State.Kept.cut (s := s1) (p := pq) ?_ (fun _ => ?_); rotate_left; clear_value s1; rotate_left; dsimp -zeta only [s1]; clear s1)
    | (extract_lets +onlyGivenNames x1; clear_value x1)
    | with_reducible apply State.flyLasts_kept
    | with_reducible apply State.modAng_kept
    | with_reducible apply State.flyFallback_kept
    | exact Sub.mono (by decide) hm
    | split

theorem State.markLoss_kept {r : Side} {absent : Nat} {gap : Bool} {far : Bool} (hm : Sub 0x3E pq) (hI : s.Kept pq) : (State.markLoss s r absent gap far).Kept pq := by
  unfold State.markLoss
  repeat' first
    | with_reducible assumption
    | (extract_lets +onlyGivenNames s1; refine State.Kept.cut (s := s1) (p := pq) ?_ (fun _ => ?_); rotate_left; clear_value s1; rotate_left; dsimp -zeta only [s1]; clear s1)
    | (extract_lets +onlyGivenNames x1; clear_value x1)
    | with_reducible apply State.flyRun_kept
    | with_reducible apply State.flyEntry_kept
    | with_reducible apply State.bump_kept
    | exact Sub.mono (by decide) hm
    | split

theorem State.markReturn_kept {r : Side} {k : Nat} {phase : Int} {far : Bool} {sig : Bool} (hm : Sub 0x3E pq) (hI : s.Kept pq) : (State.markReturn s r k phase far sig).Kept pq := by
  unfold State.markReturn
  repeat' first
    | with_reducible assumption
    | (extract_lets +onlyGivenNames s1; refine State.Kept.cut (s := s1) (p := pq) ?_ (fun _ => ?_); rotate_left; clear_value s1; rotate_left; dsimp -zeta only [s1]; clear s1)
    | with_reducible apply State.modAng_kept
    | with_reducible apply State.flyAmbiguous_kept
    | with_reducible apply State.handover_kept
    | with_reducible apply State.flyFallback_kept
    | exact Sub.mono (by decide) hm
    | split

theorem State.markIndex_kept {r : Side} {what : Sighting} (hm : Sub 0x1C pq) (hI : s.Kept pq) : (State.markIndex s r what).Kept pq := by
  unfold State.markIndex
  repeat' first
    | with_reducible assumption
    | (extract_lets +onlyGivenNames s1; refine State.Kept.cut (s := s1) (p := pq) ?_ (fun _ => ?_); rotate_left; clear_value s1; rotate_left; dsimp -zeta only [s1]; clear s1)
    | with_reducible apply State.modAng_kept
    | with_reducible apply State.setStat_kept
    | with_reducible apply State.bump_kept
    | with_reducible apply State.handover_kept
    | exact Sub.mono (by decide) hm
    | split

theorem State.newFrame_kept {r : Side} (hm : Sub 0x10 pq) (hI : s.Kept pq) : (State.newFrame s r).Kept pq := by
  unfold State.newFrame
  repeat' first
    | with_reducible assumption
    | (extract_lets +onlyGivenNames x1; clear_value x1)
    | with_reducible apply State.modAng_kept

theorem State.clockMark_kept {r : Side} {absent : Nat} {phase : Int} {rate : Word} {idx : Bool} (hm : Sub 0x3E pq) (hI : s.Kept pq) : (State.clockMark s r absent phase rate idx).Kept pq := by
  unfold State.clockMark
  repeat' first
    | with_reducible assumption
    | (extract_lets +onlyGivenNames s1; refine State.Kept.cut (s := s1) (p := pq) ?_ (fun _ => ?_); rotate_left; clear_value s1; rotate_left; dsimp -zeta only [s1]; clear s1)
    | (extract_lets +onlyGivenNames x1; clear_value x1)
    | with_reducible apply State.setReg_kept
    | with_reducible apply State.newFrame_kept
    | with_reducible apply State.markLoss_kept
    | with_reducible apply State.advance_kept
    | with_reducible apply State.modAng_kept
    | with_reducible apply State.markReturn_kept
    | with_reducible apply State.handover_kept
    | with_reducible apply State.markIndex_kept
    | with_reducible apply State.applyInhibit_kept
    | exact Sub.mono (by decide) hm
    | split

theorem execClockMark_kept {r : Side} {absent : Nat} {phase : Int} {rate : Word} {idx : Bool} (hm : Sub 0x3E pq) (hI : s.Kept pq) : ∃ s1, execClockMark r absent phase rate idx s = .next s1 ∧ s1.Kept pq := by
  unfold execClockMark
  refine ⟨_, rfl, ?_⟩
  repeat' first
    | with_reducible assumption
    | with_reducible apply State.clockMark_kept
    | with_reducible apply State.flyEntry_kept
    | with_reducible apply State.applyInhibit_kept
    | exact Sub.mono (by decide) hm
    | split

theorem execFlywheelEntry_kept {r : Side} (hm : Sub 0x3E pq) (hI : s.Kept pq) : ∃ s1, execFlywheelEntry r s = .next s1 ∧ s1.Kept pq := by
  unfold execFlywheelEntry
  refine ⟨_, rfl, ?_⟩
  repeat' first
    | with_reducible assumption
    | with_reducible apply State.flyEntry_kept
    | with_reducible apply State.applyInhibit_kept
    | exact Sub.mono (by decide) hm
    | split

theorem execFlywrExpiry_kept {r : Side} {periods : Nat} (hm : Sub 0x3E pq) (hI : s.Kept pq) : ∃ s1, execFlywrExpiry r periods s = .next s1 ∧ s1.Kept pq := by
  unfold execFlywrExpiry
  refine ⟨_, rfl, ?_⟩
  repeat' first
    | with_reducible assumption
    | (extract_lets +onlyGivenNames x1; clear_value x1)
    | with_reducible apply State.modAng_kept
    | with_reducible apply State.applyInhibit_kept
    | exact Sub.mono (by decide) hm
    | split

theorem execFlywheelFallback_kept {r : Side} {periods : Nat} (hm : Sub 0x3E pq) (hI : s.Kept pq) : ∃ s1, execFlywheelFallback r periods s = .next s1 ∧ s1.Kept pq := by
  unfold execFlywheelFallback
  refine ⟨_, rfl, ?_⟩
  repeat' first
    | with_reducible assumption
    | (extract_lets +onlyGivenNames x1; clear_value x1)
    | with_reducible apply State.flyFallback_kept
    | split

theorem execReferenceStreamChange_kept {r : Side} (hm : Sub 0x10 pq) (hI : s.Kept pq) : ∃ s1, execReferenceStreamChange r s = .next s1 ∧ s1.Kept pq := by
  unfold execReferenceStreamChange
  refine ⟨_, rfl, ?_⟩
  repeat' first
    | with_reducible assumption
    | with_reducible apply State.newFrame_kept
    | split

theorem State.settleIdle_kept {r : Side} (hm : Sub 0x14 pq) (hI : s.Kept pq) : (State.settleIdle s r).Kept pq := by
  unfold State.settleIdle
  repeat' first
    | with_reducible assumption
    | with_reducible apply State.setSrc_kept
    | split

theorem State.setObserver_kept {valid : Bool} (hm : Sub 0x10014 pq) (hI : s.Kept pq) : (State.setObserver s valid).Kept pq := by
  unfold State.setObserver
  repeat' first
    | with_reducible assumption
    | with_reducible apply State.modMtr_kept
    | with_reducible apply State.settleIdle_kept
    | exact Sub.mono (by decide) hm

theorem State.observe_kept {rpm : Nat} (hm : Sub 0x10014 pq) (hI : s.Kept pq) : (State.observe s rpm).Kept pq := by
  unfold State.observe
  repeat' first
    | with_reducible assumption
    | (extract_lets +onlyGivenNames x1; clear_value x1)
    | with_reducible apply State.setReg_kept
    | with_reducible apply State.setObserver_kept
    | exact Sub.mono (by decide) hm
    | split

theorem execObserverValidChange_kept {rpm : BitVec 16} (hm : Sub 0x10014 pq) (hI : s.Kept pq) : ∃ s1, execObserverValidChange rpm s = .next s1 ∧ s1.Kept pq := by
  unfold execObserverValidChange
  refine ⟨_, rfl, ?_⟩
  repeat' first
    | with_reducible assumption
    | with_reducible apply State.observe_kept

theorem State.angCtl_kept {r : Side} {data : Word} (hm : Sub 0x3E pq) (hI : s.Kept pq) : (State.angCtl s r data).Kept pq := by
  unfold State.angCtl
  repeat' first
    | with_reducible assumption
    | (extract_lets +onlyGivenNames s1; refine State.Kept.cut (s := s1) (p := pq) ?_ (fun _ => ?_); rotate_left; clear_value s1; rotate_left; dsimp -zeta only [s1]; clear s1)
    | with_reducible apply State.setReg_kept
    | with_reducible apply State.settleIdle_kept
    | with_reducible apply State.setSrc_kept
    | with_reducible apply State.modAng_kept
    | with_reducible apply State.applyInhibit_kept
    | exact Sub.mono (by decide) hm
    | split

theorem execAngleCrosscheckFault_kept {r : Side} (hm : Sub 0x216 pq) (hI : s.Kept pq) : ∃ s1, execAngleCrosscheckFault r s = .next s1 ∧ s1.Kept pq := by
  unfold execAngleCrosscheckFault
  refine ⟨_, rfl, ?_⟩
  repeat' first
    | with_reducible assumption
    | (extract_lets +onlyGivenNames f1; refine State.Kept.fnCut2 (f := f1) (p := pq) ?_ (fun hf1 => ?_); rotate_left; clear_value f1; rotate_left; dsimp -zeta only [f1]; clear f1)
    | with_reducible apply hf1
    | (intro x y hx; beta_reduce)
    | with_reducible apply State.modAng_kept
    | with_reducible apply State.setStat_kept
    | with_reducible apply State.event_kept
    | exact Sub.mono (by decide) hm
    | split

theorem execComparatorHit_kept {r : Side} {n : BitVec 5} {now : DWord} (hm : Sub 0x18 pq) (hI : s.Kept pq) : ∃ s1, execComparatorHit r n now s = .next s1 ∧ s1.Kept pq := by
  unfold execComparatorHit
  refine ⟨_, rfl, ?_⟩
  repeat' first
    | with_reducible assumption
    | (extract_lets +onlyGivenNames x1; clear_value x1)
    | with_reducible apply State.modAng_kept
    | with_reducible apply State.cmpHit_kept
    | exact Sub.mono (by decide) hm
    | split

theorem State.skewWrite_kept {r : Side} {data : Word} (hm : Sub 0x10 pq) (hI : s.Kept pq) : (State.skewWrite s r data).Kept pq := by
  unfold State.skewWrite
  repeat' first
    | with_reducible assumption
    | with_reducible apply State.modAng_kept

theorem execSkewWrite_kept {r : Side} {data : Word} (hm : Sub 0x10 pq) (hI : s.Kept pq) : ∃ s1, execSkewWrite r data s = .next s1 ∧ s1.Kept pq := by
  unfold execSkewWrite
  refine ⟨_, rfl, ?_⟩
  repeat' first
    | with_reducible assumption
    | with_reducible apply State.skewWrite_kept
    | split

end Sys2Proof.Machine
end

