-- ==== Sys2Proof/Laws/KeptDram.lean ====
section
/-!
SUPPORT. The operations of Machine/Dram.lean keep what they do not write.
-/
set_option Elab.async false
set_option linter.unusedTactic false
set_option linter.unreachableTactic false
namespace Sys2Proof.Machine

variable {pq : Nat × State} {s : State}

theorem State.dramWrite_kept {x : Side} {a : Nat} {bs : List Byte} (hm : Sub 0x4000 pq) (hI : s.Kept pq) : (State.dramWrite s x a bs).Kept pq := by
  unfold State.dramWrite
  repeat' first
    | with_reducible assumption
    | (extract_lets +onlyGivenNames s1; refine State.Kept.cut (s := s1) (p := pq) ?_ (fun _ => ?_); rotate_left; clear_value s1; rotate_left; dsimp -zeta only [s1]; clear s1)
    | with_reducible apply State.modDram_kept
    | split

theorem State.dramRead_kept {x : Side} {a : Nat} {n : Nat} (hm : Sub 0x4004 pq) (hI : s.Kept pq) : (State.dramRead s x a n).1.Kept pq := by
  unfold State.dramRead
  repeat' first
    | with_reducible assumption
    | (extract_lets +onlyGivenNames x1; clear_value x1)
    | with_reducible apply State.modDram_kept
    | with_reducible apply State.setStat_kept
    | exact Sub.mono (by decide) hm
    | split

end Sys2Proof.Machine
end

