-- ==== Sys2Proof/Laws/KeptAeq.lean ====
section
/-!
SUPPORT. The operations of Machine/Aeq.lean keep what they do not write.
-/
set_option Elab.async false
set_option linter.unusedTactic false
set_option linter.unreachableTactic false
namespace Sys2Proof.Machine

variable {pq : Nat × State} {s : State}

theorem State.aeqInt_kept {t : Quad} {i : Nat} (hm : Sub 0x4 pq) (hI : s.Kept pq) : (State.aeqInt s t i).Kept pq := by
  unfold State.aeqInt
  repeat' first
    | with_reducible assumption
    | with_reducible apply State.setStat_kept

theorem State.withHead_kept {t : Quad} {now : DWord} {code : Nat → Bool} {f : State → BitVec 24 → Int → State} (hf : ∀ s a0 a1, State.Kept pq s → (f s a0 a1).Kept pq) (hm : Sub 0x38 pq) (hI : s.Kept pq) : (State.withHead s t now code f).Kept pq := by
  unfold State.withHead
  repeat' first
    | with_reducible assumption
    | (extract_lets +onlyGivenNames s1; refine State.Kept.cut (s := s1) (p := pq) ?_ (fun _ => ?_); rotate_left; clear_value s1; rotate_left; dsimp -zeta only [s1]; clear s1)
    | with_reducible apply State.reach_kept
    | with_reducible apply State.modTile_kept
    | with_reducible apply State.lowMark_kept
    | with_reducible apply hf
    | exact Sub.mono (by decide) hm
    | split

theorem State.countLate_kept {t : Quad} {late : Int} (hm : Sub 0x4 pq) (hI : s.Kept pq) : (State.countLate s t late).Kept pq := by
  unfold State.countLate
  repeat' first
    | with_reducible assumption
    | with_reducible apply State.bump_kept
    | split

theorem State.dropOpen_kept {t : Quad} {late : Bool} {conflict : Bool} {clock : Bool} (hm : Sub 0x24 pq) (hI : s.Kept pq) : (State.dropOpen s t late conflict clock).Kept pq := by
  unfold State.dropOpen
  repeat' first
    | with_reducible assumption
    | (extract_lets +onlyGivenNames s1; refine State.Kept.cut (s := s1) (p := pq) ?_ (fun _ => ?_); rotate_left; clear_value s1; rotate_left; dsimp -zeta only [s1]; clear s1)
    | with_reducible apply State.modTile_kept
    | with_reducible apply State.bump_kept
    | with_reducible apply State.aeqInt_kept
    | with_reducible apply State.setStat_kept
    | exact Sub.mono (by decide) hm
    | split

theorem State.takeSwap_kept {t : Quad} (hm : Sub 0x20 pq) (hI : s.Kept pq) : (State.takeSwap s t).Kept pq := by
  unfold State.takeSwap
  repeat' first
    | with_reducible assumption
    | with_reducible apply State.modTile_kept
    | split

theorem State.arrive_kept {t : Quad} {isWrite : Bool} {tag : BitVec 16} (hm : Sub 0x6E pq) (hI : s.Kept pq) : (State.arrive s t isWrite tag).Kept pq := by
  unfold State.arrive
  repeat' first
    | with_reducible assumption
    | with_reducible apply State.cutSector_kept
    | split

theorem State.dropMedia_kept {t : Quad} {isWrite : Bool} {tag : BitVec 16} {cont : Bool} (hm : Sub 0x2C pq) (hI : s.Kept pq) : (State.dropMedia s t isWrite tag cont).Kept pq := by
  unfold State.dropMedia
  repeat' first
    | with_reducible assumption
    | (extract_lets +onlyGivenNames s1; refine State.Kept.cut (s := s1) (p := pq) ?_ (fun _ => ?_); rotate_left; clear_value s1; rotate_left; dsimp -zeta only [s1]; clear s1)
    | with_reducible apply State.modTile_kept
    | with_reducible apply State.postStatus_kept
    | exact Sub.mono (by decide) hm
    | split

theorem State.descErr_kept {t : Quad} {isWrite : Bool} {tag : BitVec 16} (hm : Sub 0x2C pq) (hI : s.Kept pq) : (State.descErr s t isWrite tag).Kept pq := by
  unfold State.descErr
  repeat' first
    | with_reducible assumption
    | (extract_lets +onlyGivenNames s1; refine State.Kept.cut (s := s1) (p := pq) ?_ (fun _ => ?_); rotate_left; clear_value s1; rotate_left; dsimp -zeta only [s1]; clear s1)
    | with_reducible apply State.setStat_kept
    | with_reducible apply State.setReg_kept
    | with_reducible apply State.postStatus_kept
    | exact Sub.mono (by decide) hm

theorem State.nextFrag_kept {t : Quad} (hm : Sub 0x20 pq) (hI : s.Kept pq) : (State.nextFrag s t).Kept pq := by
  unfold State.nextFrag
  repeat' first
    | with_reducible assumption
    | with_reducible apply State.modTile_kept

theorem State.startRun_kept {t : Quad} (hm : Sub 0x20 pq) (hI : s.Kept pq) : (State.startRun s t).Kept pq := by
  unfold State.startRun
  repeat' first
    | with_reducible assumption
    | (extract_lets +onlyGivenNames x1; clear_value x1)
    | with_reducible apply State.modTile_kept

theorem State.raiseWg_kept {t : Quad} (hm : Sub 0x3E pq) (hI : s.Kept pq) : (State.raiseWg s t).Kept pq := by
  unfold State.raiseWg
  repeat' first
    | with_reducible assumption
    | (extract_lets +onlyGivenNames s1; refine State.Kept.cut (s := s1) (p := pq) ?_ (fun _ => ?_); rotate_left; clear_value s1; rotate_left; dsimp -zeta only [s1]; clear s1)
    | (extract_lets +onlyGivenNames x1; clear_value x1)
    | with_reducible apply State.startRun_kept
    | with_reducible apply State.modTile_kept
    | with_reducible apply State.forceLow_kept
    | with_reducible apply State.setStat_kept
    | exact Sub.mono (by decide) hm
    | split

theorem State.raiseRg_kept {t : Quad} (hm : Sub 0x20 pq) (hI : s.Kept pq) : (State.raiseRg s t).Kept pq := by
  unfold State.raiseRg
  repeat' first
    | with_reducible assumption
    | (extract_lets +onlyGivenNames x1; clear_value x1)
    | with_reducible apply State.startRun_kept
    | with_reducible apply State.modTile_kept

theorem State.takeRec_kept {t : Quad} {r : Option Nat} (hm : Sub 0x20 pq) (hI : s.Kept pq) : (State.takeRec s t r).Kept pq := by
  unfold State.takeRec
  repeat' first
    | with_reducible assumption
    | with_reducible apply State.modTile_kept
    | split

theorem State.openAction_kept {t : Quad} {isWrite : Bool} {tag : BitVec 16} {late : Int} (hm : Sub 0x7E pq) (hI : s.Kept pq) : (State.openAction s t isWrite tag late).Kept pq := by
  unfold State.openAction
  repeat' first
    | with_reducible assumption
    | (extract_lets +onlyGivenNames s1; refine State.Kept.cut (s := s1) (p := pq) ?_ (fun _ => ?_); rotate_left; clear_value s1; rotate_left; dsimp -zeta only [s1]; clear s1)
    | (extract_lets +onlyGivenNames x1; clear_value x1)
    | with_reducible apply State.takeSwap_kept
    | with_reducible apply State.arrive_kept
    | with_reducible apply State.dropOpen_kept
    | with_reducible apply State.setStat_kept
    | with_reducible apply State.modTile_kept
    | with_reducible apply State.dropMedia_kept
    | with_reducible apply State.countLate_kept
    | with_reducible apply State.nextFrag_kept
    | with_reducible apply State.raiseWg_kept
    | with_reducible apply State.raiseRg_kept
    | with_reducible apply State.descErr_kept
    | with_reducible apply State.takeRec_kept
    | exact Sub.mono (by decide) hm
    | split

theorem State.addFrozen_kept {t : Quad} {p : BitSpan} (hm : Sub 0x24 pq) (hI : s.Kept pq) : (State.addFrozen s t p).Kept pq := by
  unfold State.addFrozen
  split
  · dsimp only
    split
    · exact State.setStat_kept (Sub.mono (by decide) hm) (State.putSector_kept (Sub.mono (by decide) hm) hI)
    · exact State.putSector_kept (Sub.mono (by decide) hm) hI
  · exact hI

theorem State.loopSample_kept {t : Quad} {f : FragRun} {p : Smp × Nat} (hm : Sub 0x24 pq) (hI : s.Kept pq) : (State.loopSample s t f p).Kept pq := by
  unfold State.loopSample
  repeat' first
    | with_reducible assumption
    | (extract_lets +onlyGivenNames s1; refine State.Kept.cut (s := s1) (p := pq) ?_ (fun _ => ?_); rotate_left; clear_value s1; rotate_left; dsimp -zeta only [s1]; clear s1)
    | (extract_lets +onlyGivenNames x1; clear_value x1)
    | with_reducible apply State.modTile_kept
    | with_reducible apply State.bump_kept
    | exact Sub.mono (by decide) hm
    | split

theorem State.takeSmps_kept {t : Quad} {smps : List Smp} (hm : Sub 0x24 pq) (hI : s.Kept pq) : (State.takeSmps s t smps).Kept pq := by
  unfold State.takeSmps
  repeat' first
    | with_reducible assumption
    | (extract_lets +onlyGivenNames x1; clear_value x1)
    | (intro x y hx; beta_reduce)
    | with_reducible apply State.loopSample_kept
    | with_reducible apply State.putSector_kept
    | with_reducible apply State.Kept.foldl
    | exact Sub.mono (by decide) hm
    | split

theorem State.applySkip_kept {t : Quad} {k : Nat} {d : Nat} {e : DWord} (hm : Sub 0x24 pq) (hI : s.Kept pq) : (State.applySkip s t k d e).Kept pq := by
  unfold State.applySkip
  repeat' first
    | with_reducible assumption
    | (extract_lets +onlyGivenNames s1; refine State.Kept.cut (s := s1) (p := pq) ?_ (fun _ => ?_); rotate_left; clear_value s1; rotate_left; dsimp -zeta only [s1]; clear s1)
    | (extract_lets +onlyGivenNames x1; clear_value x1)
    | with_reducible apply State.putSector_kept
    | with_reducible apply State.setStat_kept
    | with_reducible apply State.addFrozen_kept
    | exact Sub.mono (by decide) hm
    | split

theorem State.skipsDue_kept {t : Quad} {a : Int} (hm : Sub 0x24 pq) (hI : s.Kept pq) : (State.skipsDue s t a).Kept pq := by
  unfold State.skipsDue
  repeat' first
    | with_reducible assumption
    | (intro x y hx; beta_reduce)
    | with_reducible apply State.applySkip_kept
    | with_reducible apply State.Kept.foldl

theorem State.wgOff_kept {t : Quad} (hm : Sub 0x3E pq) (hI : s.Kept pq) : (State.wgOff s t).Kept pq := by
  unfold State.wgOff
  repeat' first
    | with_reducible assumption
    | (extract_lets +onlyGivenNames s1; refine State.Kept.cut (s := s1) (p := pq) ?_ (fun _ => ?_); rotate_left; clear_value s1; rotate_left; dsimp -zeta only [s1]; clear s1)
    | (extract_lets +onlyGivenNames x1; clear_value x1)
    | with_reducible apply State.skipsDue_kept
    | with_reducible apply State.sendData_kept
    | with_reducible apply State.dropWg_kept
    | with_reducible apply State.endWrite_kept
    | with_reducible apply State.putSector_kept
    | exact Sub.mono (by decide) hm
    | split

theorem State.rdOff_kept {t : Quad} {smps : List Smp} (hm : Sub 0x7C pq) (hI : s.Kept pq) : (State.rdOff s t smps).Kept pq := by
  unfold State.rdOff
  repeat' first
    | with_reducible assumption
    | (extract_lets +onlyGivenNames s1; refine State.Kept.cut (s := s1) (p := pq) ?_ (fun _ => ?_); rotate_left; clear_value s1; rotate_left; dsimp -zeta only [s1]; clear s1)
    | (extract_lets +onlyGivenNames x1; clear_value x1)
    | with_reducible apply State.takeSmps_kept
    | with_reducible apply State.skipsDue_kept
    | with_reducible apply State.closeWin_kept
    | with_reducible apply State.dropRg_kept
    | with_reducible apply State.takeFrag_kept
    | with_reducible apply State.endRead_kept
    | with_reducible apply State.putSector_kept
    | with_reducible refine State.Kept.fst (by assumption) ?_
    | exact Sub.mono (by decide) hm
    | split

theorem State.assistOn_kept {t : Quad} {late : Int} (hm : Sub 0x24 pq) (hI : s.Kept pq) : (State.assistOn s t late).Kept pq := by
  unfold State.assistOn
  repeat' first
    | with_reducible assumption
    | (extract_lets +onlyGivenNames s1; refine State.Kept.cut (s := s1) (p := pq) ?_ (fun _ => ?_); rotate_left; clear_value s1; rotate_left; dsimp -zeta only [s1]; clear s1)
    | (extract_lets +onlyGivenNames x1; clear_value x1)
    | with_reducible apply State.dropOpen_kept
    | with_reducible apply State.countLate_kept
    | with_reducible apply State.modTile_kept
    | exact Sub.mono (by decide) hm
    | split

theorem State.assistLevel_kept {t : Quad} {i : Nat} (hm : Sub 0x80 pq) (hI : s.Kept pq) : (State.assistLevel s t i).Kept pq := by
  unfold State.assistLevel
  repeat' first
    | with_reducible assumption
    | (extract_lets +onlyGivenNames s1; refine State.Kept.cut (s := s1) (p := pq) ?_ (fun _ => ?_); rotate_left; clear_value s1; rotate_left; dsimp -zeta only [s1]; clear s1)
    | (extract_lets +onlyGivenNames x1; clear_value x1)
    | with_reducible apply State.modLink_kept
    | with_reducible apply State.sendRun_kept
    | split

theorem State.headSwitch_kept {t : Quad} {head : Nat} {late : Int} (hm : Sub 0xB4 pq) (hI : s.Kept pq) : (State.headSwitch s t head late).Kept pq := by
  unfold State.headSwitch
  repeat' first
    | with_reducible assumption
    | (extract_lets +onlyGivenNames s1; refine State.Kept.cut (s := s1) (p := pq) ?_ (fun _ => ?_); rotate_left; clear_value s1; rotate_left; dsimp -zeta only [s1]; clear s1)
    | (extract_lets +onlyGivenNames x1; clear_value x1)
    | with_reducible apply State.modTile_kept
    | with_reducible apply State.aeqInt_kept
    | with_reducible apply State.countLate_kept
    | with_reducible apply State.sendHsel_kept
    | with_reducible apply State.modAng_kept
    | exact Sub.mono (by decide) hm
    | split

theorem State.guideSample_kept {t : Quad} {ac : DWord} {tag : Option (BitVec 16)} {g : GuideIn} (hm : Sub 0x26 pq) (hI : s.Kept pq) : (State.guideSample s t ac tag g).Kept pq := by
  unfold State.guideSample
  repeat' first
    | with_reducible assumption
    | (extract_lets +onlyGivenNames s1; refine State.Kept.cut (s := s1) (p := pq) ?_ (fun _ => ?_); rotate_left; clear_value s1; rotate_left; dsimp -zeta only [s1]; clear s1)
    | (extract_lets +onlyGivenNames x1; clear_value x1)
    | with_reducible apply State.modTile_kept
    | with_reducible apply State.freeNext_kept
    | with_reducible apply State.setReg_kept
    | exact Sub.mono (by decide) hm
    | split

theorem execAeqNop_kept {t : Quad} {now : DWord} (hm : Sub 0x3C pq) (hI : s.Kept pq) : ∃ s1, execAeqNop t now s = .next s1 ∧ s1.Kept pq := by
  unfold execAeqNop
  refine ⟨_, rfl, ?_⟩
  repeat' first
    | with_reducible assumption
    | (intro x hx; beta_reduce)
    | with_reducible apply State.withHead_kept
    | with_reducible apply State.countLate_kept
    | exact Sub.mono (by decide) hm

theorem execAeqWgOn_kept {t : Quad} {now : DWord} (hm : Sub 0x7E pq) (hI : s.Kept pq) : ∃ s1, execAeqWgOn t now s = .next s1 ∧ s1.Kept pq := by
  unfold execAeqWgOn
  refine ⟨_, rfl, ?_⟩
  repeat' first
    | with_reducible assumption
    | (intro x y z hx; beta_reduce)
    | with_reducible apply State.withHead_kept
    | with_reducible apply State.openAction_kept
    | exact Sub.mono (by decide) hm

theorem execAeqWgOff_kept {t : Quad} {now : DWord} (hm : Sub 0x3E pq) (hI : s.Kept pq) : ∃ s1, execAeqWgOff t now s = .next s1 ∧ s1.Kept pq := by
  unfold execAeqWgOff
  refine ⟨_, rfl, ?_⟩
  repeat' first
    | with_reducible assumption
    | (intro x y z hx; beta_reduce)
    | with_reducible apply State.withHead_kept
    | with_reducible apply State.countLate_kept
    | with_reducible apply State.wgOff_kept
    | exact Sub.mono (by decide) hm

theorem execAeqRdOn_kept {t : Quad} {now : DWord} (hm : Sub 0x7E pq) (hI : s.Kept pq) : ∃ s1, execAeqRdOn t now s = .next s1 ∧ s1.Kept pq := by
  unfold execAeqRdOn
  refine ⟨_, rfl, ?_⟩
  repeat' first
    | with_reducible assumption
    | (intro x y z hx; beta_reduce)
    | with_reducible apply State.withHead_kept
    | with_reducible apply State.openAction_kept
    | exact Sub.mono (by decide) hm

theorem execAeqRdOff_kept {t : Quad} {now : DWord} {smps : List Smp} (hm : Sub 0x7C pq) (hI : s.Kept pq) : ∃ s1, execAeqRdOff t now smps s = .next s1 ∧ s1.Kept pq := by
  unfold execAeqRdOff
  refine ⟨_, rfl, ?_⟩
  repeat' first
    | with_reducible assumption
    | (intro x y z hx; beta_reduce)
    | with_reducible apply State.withHead_kept
    | with_reducible apply State.countLate_kept
    | with_reducible apply State.rdOff_kept
    | exact Sub.mono (by decide) hm

theorem execAeqAsPre_kept {t : Quad} {now : DWord} (hm : Sub 0x3C pq) (hI : s.Kept pq) : ∃ s1, execAeqAsPre t now s = .next s1 ∧ s1.Kept pq := by
  unfold execAeqAsPre
  refine ⟨_, rfl, ?_⟩
  repeat' first
    | with_reducible assumption
    | (intro x hx; beta_reduce)
    | with_reducible apply State.withHead_kept
    | with_reducible apply State.assistOn_kept
    | exact Sub.mono (by decide) hm

theorem execAeqAsOn_kept {t : Quad} {now : DWord} (hm : Sub 0x3C pq) (hI : s.Kept pq) : ∃ s1, execAeqAsOn t now s = .next s1 ∧ s1.Kept pq := by
  unfold execAeqAsOn
  refine ⟨_, rfl, ?_⟩
  repeat' first
    | with_reducible assumption
    | (intro x hx; beta_reduce)
    | with_reducible apply State.withHead_kept
    | with_reducible apply State.assistOn_kept
    | exact Sub.mono (by decide) hm

theorem execAeqAsOff_kept {t : Quad} {now : DWord} (hm : Sub 0x3C pq) (hI : s.Kept pq) : ∃ s1, execAeqAsOff t now s = .next s1 ∧ s1.Kept pq := by
  unfold execAeqAsOff
  refine ⟨_, rfl, ?_⟩
  repeat' first
    | with_reducible assumption
    | (intro x y z hx; beta_reduce)
    | with_reducible apply State.withHead_kept
    | with_reducible apply State.countLate_kept
    | with_reducible apply State.modTile_kept
    | exact Sub.mono (by decide) hm

theorem execAeqSyncOpen_kept {t : Quad} {now : DWord} {smps : List Smp} (hm : Sub 0x3C pq) (hI : s.Kept pq) : ∃ s1, execAeqSyncOpen t now smps s = .next s1 ∧ s1.Kept pq := by
  unfold execAeqSyncOpen
  refine ⟨_, rfl, ?_⟩
  repeat' first
    | with_reducible assumption
    | (extract_lets +onlyGivenNames s1; refine State.Kept.cut (s := s1) (p := pq) ?_ (fun _ => ?_); rotate_left; clear_value s1; rotate_left; dsimp -zeta only [s1]; clear s1)
    | (extract_lets +onlyGivenNames x1; clear_value x1)
    | (intro x y z hx; beta_reduce)
    | with_reducible apply State.withHead_kept
    | with_reducible apply State.dropOpen_kept
    | with_reducible apply State.countLate_kept
    | with_reducible apply State.takeSmps_kept
    | with_reducible apply State.closeWin_kept
    | with_reducible apply State.modTile_kept
    | exact Sub.mono (by decide) hm
    | split

theorem execAeqSyncClose_kept {t : Quad} {now : DWord} {smps : List Smp} {tail : List Smp} (hm : Sub 0x3C pq) (hI : s.Kept pq) : ∃ s1, execAeqSyncClose t now smps tail s = .next s1 ∧ s1.Kept pq := by
  unfold execAeqSyncClose
  refine ⟨_, rfl, ?_⟩
  repeat' first
    | with_reducible assumption
    | (extract_lets +onlyGivenNames s1; refine State.Kept.cut (s := s1) (p := pq) ?_ (fun _ => ?_); rotate_left; clear_value s1; rotate_left; dsimp -zeta only [s1]; clear s1)
    | (extract_lets +onlyGivenNames x1; clear_value x1)
    | (intro x y z hx; beta_reduce)
    | with_reducible apply State.withHead_kept
    | with_reducible apply State.countLate_kept
    | with_reducible apply State.takeSmps_kept
    | with_reducible apply State.closeWin_kept
    | exact Sub.mono (by decide) hm

theorem execAeqHsw_kept {t : Quad} {now : DWord} (hm : Sub 0xBC pq) (hI : s.Kept pq) : ∃ s1, execAeqHsw t now s = .next s1 ∧ s1.Kept pq := by
  unfold execAeqHsw
  refine ⟨_, rfl, ?_⟩
  repeat' first
    | with_reducible assumption
    | (intro x hx; beta_reduce)
    | with_reducible apply State.withHead_kept
    | with_reducible apply State.headSwitch_kept
    | exact Sub.mono (by decide) hm

theorem execAeqGsamp_kept {t : Quad} {now : DWord} {g : GuideIn} (hm : Sub 0x3E pq) (hI : s.Kept pq) : ∃ s1, execAeqGsamp t now g s = .next s1 ∧ s1.Kept pq := by
  unfold execAeqGsamp
  refine ⟨_, rfl, ?_⟩
  repeat' first
    | with_reducible assumption
    | (intro x y z hx; beta_reduce)
    | with_reducible apply State.withHead_kept
    | with_reducible apply State.countLate_kept
    | with_reducible apply State.guideSample_kept
    | exact Sub.mono (by decide) hm

theorem execAeqAsLvl_kept {t : Quad} {now : DWord} (hm : Sub 0xBC pq) (hI : s.Kept pq) : ∃ s1, execAeqAsLvl t now s = .next s1 ∧ s1.Kept pq := by
  unfold execAeqAsLvl
  refine ⟨_, rfl, ?_⟩
  repeat' first
    | with_reducible assumption
    | (intro x y z hx; beta_reduce)
    | with_reducible apply State.withHead_kept
    | with_reducible apply State.countLate_kept
    | with_reducible apply State.assistLevel_kept
    | exact Sub.mono (by decide) hm

theorem execAeqIllegalAction_kept {t : Quad} {now : DWord} (hm : Sub 0x3C pq) (hI : s.Kept pq) : ∃ s1, execAeqIllegalAction t now s = .next s1 ∧ s1.Kept pq := by
  unfold execAeqIllegalAction
  refine ⟨_, rfl, ?_⟩
  repeat' first
    | with_reducible assumption
    | with_reducible apply State.reach_kept
    | with_reducible apply State.modTile_kept
    | with_reducible apply State.lowMark_kept
    | with_reducible apply State.aeqInt_kept
    | exact Sub.mono (by decide) hm
    | split

end Sys2Proof.Machine
end

