-- ==== Sys2Proof/Laws/KeptChannel.lean ====
section
/-!
SUPPORT. The operations of Machine/Channel.lean keep what they do not write.
-/
set_option Elab.async false
set_option linter.unusedTactic false
set_option linter.unreachableTactic false
namespace Sys2Proof.Machine

variable {pq : Nat × State} {s : State}

theorem State.decSubmit_kept {c : CtxId} (hm : Sub 0x48 pq) (hI : s.Kept pq) : (State.decSubmit s c).Kept pq := by
  unfold State.decSubmit
  repeat' first
    | with_reducible assumption
    | (extract_lets +onlyGivenNames x1; clear_value x1)
    | with_reducible apply State.refuseCtx_kept
    | with_reducible apply State.modDec_kept
    | exact Sub.mono (by decide) hm
    | split

theorem State.decPop_kept {c : CtxId} (hm : Sub 0x40 pq) (hI : s.Kept pq) : (State.decPop s c).1.Kept pq := by
  unfold State.decPop
  repeat' first
    | with_reducible assumption
    | with_reducible apply State.modDec_kept

theorem State.settleRec_kept {t : Quad} {n : Nat} (hm : Sub 0x20 pq) (hI : s.Kept pq) : (State.settleRec s t n).Kept pq := by
  unfold State.settleRec
  repeat' first
    | with_reducible assumption
    | with_reducible apply State.modTile_kept
    | split

theorem State.setSbuf_kept {r : Side} {n : Nat} {b : StripeBuf} (hm : Sub 0x40000 pq) (hI : s.Kept pq) : (State.setSbuf s r n b).Kept pq := by
  unfold State.setSbuf
  repeat' first
    | with_reducible assumption
    | with_reducible apply State.modSte_kept

theorem State.putPayload_kept {r : Side} {place : BufAddr ⊕ Nat} {bs : List Byte} {poison : Bool} (hm : Sub 0x44000 pq) (hI : s.Kept pq) : (State.putPayload s r place bs poison).Kept pq := by
  unfold State.putPayload
  repeat' first
    | with_reducible assumption
    | (extract_lets +onlyGivenNames s1; refine State.Kept.cut (s := s1) (p := pq) ?_ (fun _ => ?_); rotate_left; clear_value s1; rotate_left; dsimp -zeta only [s1]; clear s1)
    | with_reducible apply State.setSbuf_kept
    | with_reducible apply State.dramWrite_kept
    | with_reducible apply State.modDram_kept
    | exact Sub.mono (by decide) hm
    | split

theorem State.decCount_kept {r : Side} {n : Nat} {ok : Bool} {weight : Nat} (hm : Sub 0x4 pq) (hI : s.Kept pq) : (State.decCount s r n ok weight).Kept pq := by
  unfold State.decCount
  repeat' first
    | with_reducible assumption
    | with_reducible apply State.bump_kept
    | with_reducible apply State.setReg_kept
    | split

theorem State.otfDone_kept {r : Side} {n : Nat} {t : Quad} {rec : Nat} {status : DWord} {place : BufAddr ⊕ Nat} {o : DecodeOut} (hm : Sub 0x4402C pq) (hI : s.Kept pq) : (State.otfDone s r n t rec status place o).Kept pq := by
  unfold State.otfDone
  repeat' first
    | with_reducible assumption
    | (extract_lets +onlyGivenNames s1; refine State.Kept.cut (s := s1) (p := pq) ?_ (fun _ => ?_); rotate_left; clear_value s1; rotate_left; dsimp -zeta only [s1]; clear s1)
    | (extract_lets +onlyGivenNames x1; clear_value x1)
    | with_reducible apply State.decCount_kept
    | with_reducible apply State.putPayload_kept
    | with_reducible apply State.setStat_kept
    | with_reducible apply State.modTile_kept
    | with_reducible apply State.settleRec_kept
    | with_reducible apply State.bump_kept
    | with_reducible apply State.decidedStatus_kept
    | exact Sub.mono (by decide) hm
    | split

theorem State.recGone_kept {r : Side} {n : Nat} {c : CtxId} {w0 : DWord} (hm : Sub 0x4E pq) (hI : s.Kept pq) : (State.recGone s r n c w0).Kept pq := by
  unfold State.recGone
  repeat' first
    | with_reducible assumption
    | (extract_lets +onlyGivenNames s1; refine State.Kept.cut (s := s1) (p := pq) ?_ (fun _ => ?_); rotate_left; clear_value s1; rotate_left; dsimp -zeta only [s1]; clear s1)
    | (extract_lets +onlyGivenNames x1; clear_value x1)
    | with_reducible apply State.setStat_kept
    | with_reducible apply State.modDec_kept
    | with_reducible apply State.freeNext_kept
    | with_reducible apply State.raiseLine_kept
    | exact Sub.mono (by decide) hm

theorem State.reqDone_kept {r : Side} {n : Nat} {c : CtxId} {w0 : DWord} {w1 : DWord} {w2 : DWord} {w3 : DWord} {o : DecodeOut} (hm : Sub 0x4406C pq) (hI : s.Kept pq) : (State.reqDone s r n c w0 w1 w2 w3 o).Kept pq := by
  unfold State.reqDone
  repeat' first
    | with_reducible assumption
    | (extract_lets +onlyGivenNames s1; refine State.Kept.cut (s := s1) (p := pq) ?_ (fun _ => ?_); rotate_left; clear_value s1; rotate_left; dsimp -zeta only [s1]; clear s1)
    | (extract_lets +onlyGivenNames x1; clear_value x1)
    | with_reducible apply State.setStat_kept
    | with_reducible apply State.decCount_kept
    | with_reducible apply State.putPayload_kept
    | with_reducible apply State.raiseLine_kept
    | with_reducible apply State.modTile_kept
    | with_reducible apply State.settleRec_kept
    | with_reducible apply State.modDec_kept
    | exact Sub.mono (by decide) hm
    | split

theorem execClockRangeFault_kept {t : Quad} (hm : Sub 0x3E pq) (hI : s.Kept pq) : ∃ s1, execClockRangeFault t s = .next s1 ∧ s1.Kept pq := by
  unfold execClockRangeFault
  refine ⟨_, rfl, ?_⟩
  repeat' first
    | with_reducible assumption
    | with_reducible apply State.forceLow_kept
    | with_reducible apply State.setStat_kept
    | exact Sub.mono (by decide) hm
    | split

theorem execBankSwapRequest_kept {x : Accessor} {t : Quad} (hm : Sub 0x22E pq) (hI : s.Kept pq) : ∃ s1, execBankSwapRequest x t s = .next s1 ∧ s1.Kept pq := by
  unfold execBankSwapRequest
  refine ⟨_, rfl, ?_⟩
  repeat' first
    | with_reducible assumption
    | (intro x hx; beta_reduce)
    | with_reducible apply State.tileAccess_kept
    | with_reducible apply State.modTile_kept
    | exact Sub.mono (by decide) hm

theorem State.bankWrite_kept {t : Quad} {sel : BitVec 9} {data : Word} (hm : Sub 0x24 pq) (hI : s.Kept pq) : (State.bankWrite s t sel data).Kept pq := by
  unfold State.bankWrite
  repeat' first
    | with_reducible assumption
    | (extract_lets +onlyGivenNames x1; clear_value x1)
    | with_reducible apply State.setStat_kept
    | with_reducible apply State.modTile_kept
    | exact Sub.mono (by decide) hm
    | split

theorem execBankWordWrite_kept {x : Accessor} {t : Quad} {sel : BitVec 9} {data : Word} (hm : Sub 0x22E pq) (hI : s.Kept pq) : ∃ s1, execBankWordWrite x t sel data s = .next s1 ∧ s1.Kept pq := by
  unfold execBankWordWrite
  refine ⟨_, rfl, ?_⟩
  repeat' first
    | with_reducible assumption
    | (intro x hx; beta_reduce)
    | with_reducible apply State.tileAccess_kept
    | with_reducible apply State.bankWrite_kept
    | exact Sub.mono (by decide) hm

theorem State.spareTake_kept {t : Quad} {slice : Nat} {run : Bool} (hm : Sub 0x24 pq) (hI : s.Kept pq) : (State.spareTake s t slice run).Kept pq := by
  unfold State.spareTake
  repeat' first
    | with_reducible assumption
    | (extract_lets +onlyGivenNames s1; refine State.Kept.cut (s := s1) (p := pq) ?_ (fun _ => ?_); rotate_left; clear_value s1; rotate_left; dsimp -zeta only [s1]; clear s1)
    | with_reducible apply State.modTile_kept
    | with_reducible apply State.setStat_kept
    | exact Sub.mono (by decide) hm
    | split

theorem State.spareGo_kept {t : Quad} {slice : Nat} (hm : Sub 0x24 pq) (hI : s.Kept pq) : (State.spareGo s t slice).Kept pq := by
  unfold State.spareGo
  repeat' first
    | with_reducible assumption
    | with_reducible apply State.modReg_kept
    | with_reducible apply State.spareTake_kept
    | exact Sub.mono (by decide) hm

theorem execSpareStepStart_kept {x : Accessor} {t : Quad} {slice : BitVec 3} (hm : Sub 0x22E pq) (hI : s.Kept pq) : ∃ s1, execSpareStepStart x t slice s = .next s1 ∧ s1.Kept pq := by
  unfold execSpareStepStart
  refine ⟨_, rfl, ?_⟩
  repeat' first
    | with_reducible assumption
    | (intro x hx; beta_reduce)
    | with_reducible apply State.tileAccess_kept
    | with_reducible apply State.spareGo_kept
    | exact Sub.mono (by decide) hm

theorem execSpareTakeover_kept {t : Quad} (hm : Sub 0x24 pq) (hI : s.Kept pq) : ∃ s1, execSpareTakeover t s = .next s1 ∧ s1.Kept pq := by
  unfold execSpareTakeover
  refine ⟨_, rfl, ?_⟩
  repeat' first
    | with_reducible assumption
    | with_reducible apply State.setStat_kept
    | with_reducible apply State.modTile_kept
    | exact Sub.mono (by decide) hm
    | split

theorem State.handBack_kept {p : CalRun → Bool} (hm : Sub 0x20000 pq) (hI : s.Kept pq) : (State.handBack s p).Kept pq := by
  unfold State.handBack
  repeat' first
    | with_reducible assumption
    | with_reducible apply State.modMon_kept

theorem State.spareBack_kept {t : Quad} {k : Nat} {run : Bool} (hm : Sub 0x20026 pq) (hI : s.Kept pq) : (State.spareBack s t k run).Kept pq := by
  unfold State.spareBack
  repeat' first
    | with_reducible assumption
    | (extract_lets +onlyGivenNames s1; refine State.Kept.cut (s := s1) (p := pq) ?_ (fun _ => ?_); rotate_left; clear_value s1; rotate_left; dsimp -zeta only [s1]; clear s1)
    | with_reducible apply State.modTile_kept
    | with_reducible apply State.modReg_kept
    | with_reducible apply State.handBack_kept
    | with_reducible apply State.setReg_kept
    | with_reducible apply State.freeNext_kept
    | exact Sub.mono (by decide) hm
    | split

theorem execSpareReturn_kept {t : Quad} (hm : Sub 0x20026 pq) (hI : s.Kept pq) : ∃ s1, execSpareReturn t s = .next s1 ∧ s1.Kept pq := by
  unfold execSpareReturn
  refine ⟨_, rfl, ?_⟩
  repeat' first
    | with_reducible assumption
    | with_reducible apply State.modTile_kept
    | with_reducible apply State.setStat_kept
    | with_reducible apply State.spareBack_kept
    | exact Sub.mono (by decide) hm
    | split

theorem execFreezeSpanStart_kept {t : Quad} {level : Nat} {smps : List Smp} (hm : Sub 0x24 pq) (hI : s.Kept pq) : ∃ s1, execFreezeSpanStart t level smps s = .next s1 ∧ s1.Kept pq := by
  unfold execFreezeSpanStart
  refine ⟨_, rfl, ?_⟩
  repeat' first
    | with_reducible assumption
    | (extract_lets +onlyGivenNames s1; refine State.Kept.cut (s := s1) (p := pq) ?_ (fun _ => ?_); rotate_left; clear_value s1; rotate_left; dsimp -zeta only [s1]; clear s1)
    | (extract_lets +onlyGivenNames x1; clear_value x1)
    | with_reducible apply State.modTile_kept
    | with_reducible apply State.takeSmps_kept
    | with_reducible apply State.bump_kept
    | exact Sub.mono (by decide) hm
    | split

theorem execFreezeSpanEnd_kept {t : Quad} {level : Nat} {smps : List Smp} (hm : Sub 0x24 pq) (hI : s.Kept pq) : ∃ s1, execFreezeSpanEnd t level smps s = .next s1 ∧ s1.Kept pq := by
  unfold execFreezeSpanEnd
  refine ⟨_, rfl, ?_⟩
  repeat' first
    | with_reducible assumption
    | (extract_lets +onlyGivenNames x1; clear_value x1)
    | with_reducible apply State.takeSmps_kept
    | with_reducible apply State.modTile_kept
    | with_reducible apply State.addFrozen_kept
    | exact Sub.mono (by decide) hm
    | split

theorem State.releaseRecs_kept {t : Quad} {mask : BitVec 16} (hm : Sub 0x20 pq) (hI : s.Kept pq) : (State.releaseRecs s t mask).Kept pq := by
  unfold State.releaseRecs
  repeat' first
    | with_reducible assumption
    | (intro x y hx; beta_reduce)
    | with_reducible apply State.modTile_kept
    | with_reducible apply State.Kept.foldl
    | split

theorem execRecordRelease_kept {x : Accessor} {t : Quad} {mask : BitVec 16} (hm : Sub 0x22E pq) (hI : s.Kept pq) : ∃ s1, execRecordRelease x t mask s = .next s1 ∧ s1.Kept pq := by
  unfold execRecordRelease
  refine ⟨_, rfl, ?_⟩
  repeat' first
    | with_reducible assumption
    | (intro x hx; beta_reduce)
    | with_reducible apply State.tileAccess_kept
    | with_reducible apply State.releaseRecs_kept
    | exact Sub.mono (by decide) hm

theorem execSectorComplete_kept {t : Quad} {now : DWord} {smps : List Smp} (hm : Sub 0x7C pq) (hI : s.Kept pq) : ∃ s1, execSectorComplete t now smps s = .next s1 ∧ s1.Kept pq := by
  unfold execSectorComplete
  refine ⟨_, rfl, ?_⟩
  repeat' first
    | with_reducible assumption
    | (extract_lets +onlyGivenNames s1; refine State.Kept.cut (s := s1) (p := pq) ?_ (fun _ => ?_); rotate_left; clear_value s1; rotate_left; dsimp -zeta only [s1]; clear s1)
    | (extract_lets +onlyGivenNames x1; clear_value x1)
    | with_reducible apply State.reach_kept
    | with_reducible apply State.takeSmps_kept
    | with_reducible apply State.skipsDue_kept
    | with_reducible apply State.putSector_kept
    | with_reducible apply State.closeWin_kept
    | with_reducible apply State.takeFrag_kept
    | with_reducible apply State.endRead_kept
    | exact Sub.mono (by decide) hm
    | split

theorem execSourceUnderrun_kept {t : Quad} (hm : Sub 0x3E pq) (hI : s.Kept pq) : ∃ s1, execSourceUnderrun t s = .next s1 ∧ s1.Kept pq := by
  unfold execSourceUnderrun
  refine ⟨_, rfl, ?_⟩
  repeat' first
    | with_reducible assumption
    | with_reducible apply State.forceLow_kept
    | split

theorem execDecodeComplete_kept {r : Side} {slot : BitVec 4} {res : DecodeOut} (hm : Sub 0x4406E pq) (hI : s.Kept pq) : ∃ s1, execDecodeComplete r slot res s = .next s1 ∧ s1.Kept pq := by
  unfold execDecodeComplete
  refine ⟨_, rfl, ?_⟩
  repeat' first
    | with_reducible assumption
    | (extract_lets +onlyGivenNames s1; refine State.Kept.cut (s := s1) (p := pq) ?_ (fun _ => ?_); rotate_left; clear_value s1; rotate_left; dsimp -zeta only [s1]; clear s1)
    | with_reducible apply State.modDec_kept
    | with_reducible apply State.otfDone_kept
    | with_reducible apply State.reqDone_kept
    | with_reducible apply State.recGone_kept
    | exact Sub.mono (by decide) hm
    | split

theorem State.writeEnable_kept {t : Quad} {en : Bool} (hm : Sub 0xBE pq) (hI : s.Kept pq) : (State.writeEnable s t en).Kept pq := by
  unfold State.writeEnable
  repeat' first
    | with_reducible assumption
    | (extract_lets +onlyGivenNames s1; refine State.Kept.cut (s := s1) (p := pq) ?_ (fun _ => ?_); rotate_left; clear_value s1; rotate_left; dsimp -zeta only [s1]; clear s1)
    | with_reducible apply State.modReg_kept
    | with_reducible apply State.forceLow_kept
    | with_reducible apply State.resendHsel_kept
    | exact Sub.mono (by decide) hm
    | split

theorem execWriteEnableWrite_kept {x : Accessor} {t : Quad} {en : Bool} (hm : Sub 0x2BE pq) (hI : s.Kept pq) : ∃ s1, execWriteEnableWrite x t en s = .next s1 ∧ s1.Kept pq := by
  unfold execWriteEnableWrite
  refine ⟨_, rfl, ?_⟩
  repeat' first
    | with_reducible assumption
    | (intro x hx; beta_reduce)
    | with_reducible apply State.tileAccess_kept
    | with_reducible apply State.writeEnable_kept
    | exact Sub.mono (by decide) hm

theorem execDecoderSubmit_kept {c : CtxId} (hm : Sub 0x48 pq) (hI : s.Kept pq) : ∃ s1, execDecoderSubmit c s = .next s1 ∧ s1.Kept pq := by
  unfold execDecoderSubmit
  refine ⟨_, rfl, ?_⟩
  repeat' first
    | with_reducible assumption
    | (intro x hx; beta_reduce)
    | with_reducible apply State.byCtx_kept
    | with_reducible apply State.decSubmit_kept

theorem State.setLadder_kept {t : Quad} {l : Option Ladder} (hm : Sub 0x20 pq) (hI : s.Kept pq) : (State.setLadder s t l).Kept pq := by
  unfold State.setLadder
  repeat' first
    | with_reducible assumption
    | with_reducible apply State.modTile_kept

theorem State.ladderStatus_kept {c : CtxId} {t : Quad} {w : DWord} (hm : Sub 0x20 pq) (hI : s.Kept pq) : (State.ladderStatus s c t w).Kept pq := by
  unfold State.ladderStatus
  repeat' first
    | with_reducible assumption
    | (extract_lets +onlyGivenNames x1; clear_value x1)
    | with_reducible apply State.setLadder_kept
    | split

theorem State.ladderResult_kept {c : CtxId} {w : DWord} (hm : Sub 0x20 pq) (hI : s.Kept pq) : (State.ladderResult s c w).Kept pq := by
  unfold State.ladderResult
  repeat' first
    | with_reducible assumption
    | (intro x y hx; beta_reduce)
    | with_reducible apply State.setLadder_kept
    | with_reducible apply State.Kept.foldl
    | split

theorem State.decTake_kept {c : CtxId} (hm : Sub 0x60 pq) (hI : s.Kept pq) : (State.decTake s c).1.Kept pq := by
  unfold State.decTake
  repeat' first
    | with_reducible assumption
    | with_reducible apply State.decPop_kept
    | with_reducible apply State.ladderResult_kept
    | exact Sub.mono (by decide) hm

theorem execDecoderResultPop_kept {c : CtxId} {reg : BitVec 6} (hm : Sub 0x68 pq) (hI : s.Kept pq) : ∃ s1, execDecoderResultPop c reg s = .next s1 ∧ s1.Kept pq := by
  unfold execDecoderResultPop
  refine ⟨_, rfl, ?_⟩
  repeat' first
    | with_reducible assumption
    | (intro x hx; beta_reduce)
    | with_reducible apply State.byCtx_kept
    | with_reducible apply State.decTake_kept
    | with_reducible apply State.modCtx_kept
    | exact Sub.mono (by decide) hm

theorem State.wedgeNumber_kept {t : Quad} {same : Bool} (hm : Sub 0x24 pq) (hI : s.Kept pq) : (State.wedgeNumber s t same).Kept pq := by
  unfold State.wedgeNumber
  repeat' first
    | with_reducible assumption
    | with_reducible apply State.modTile_kept
    | with_reducible apply State.setStat_kept
    | with_reducible apply State.bump_kept
    | exact Sub.mono (by decide) hm
    | split

theorem State.wedgeTrack_kept {t : Quad} {track : BitVec 24} (hm : Sub 0x3E pq) (hI : s.Kept pq) : (State.wedgeTrack s t track).Kept pq := by
  unfold State.wedgeTrack
  repeat' first
    | with_reducible assumption
    | (extract_lets +onlyGivenNames s1; refine State.Kept.cut (s := s1) (p := pq) ?_ (fun _ => ?_); rotate_left; clear_value s1; rotate_left; dsimp -zeta only [s1]; clear s1)
    | (extract_lets +onlyGivenNames x1; clear_value x1)
    | with_reducible apply State.modTile_kept
    | with_reducible apply State.setStat_kept
    | with_reducible apply State.bump_kept
    | with_reducible apply State.forceLow_kept
    | exact Sub.mono (by decide) hm
    | split

theorem State.wedgeSample_kept {t : Quad} {v : Wedge} {w : WedgeIn} (hm : Sub 0x22 pq) (hI : s.Kept pq) : (State.wedgeSample s t v w).Kept pq := by
  unfold State.wedgeSample
  repeat' first
    | with_reducible assumption
    | (extract_lets +onlyGivenNames x1; clear_value x1)
    | with_reducible apply State.modTile_kept
    | with_reducible apply State.freeNext_kept
    | exact Sub.mono (by decide) hm

theorem State.wedgeRead_kept {t : Quad} {w : WedgeIn} (hm : Sub 0x3E pq) (hI : s.Kept pq) : (State.wedgeRead s t w).Kept pq := by
  unfold State.wedgeRead
  repeat' first
    | with_reducible assumption
    | (extract_lets +onlyGivenNames s1; refine State.Kept.cut (s := s1) (p := pq) ?_ (fun _ => ?_); rotate_left; clear_value s1; rotate_left; dsimp -zeta only [s1]; clear s1)
    | (extract_lets +onlyGivenNames x1; clear_value x1)
    | with_reducible apply State.wedgeSample_kept
    | with_reducible apply State.setStat_kept
    | with_reducible apply State.bump_kept
    | with_reducible apply State.setReg_kept
    | with_reducible apply State.wedgeNumber_kept
    | with_reducible apply State.wedgeTrack_kept
    | with_reducible apply State.applyInhibit_kept
    | exact Sub.mono (by decide) hm
    | split

theorem execWedgeRead_kept {t : Quad} {now : DWord} {w : WedgeIn} (hm : Sub 0x3E pq) (hI : s.Kept pq) : ∃ s1, execWedgeRead t now w s = .next s1 ∧ s1.Kept pq := by
  unfold execWedgeRead
  refine ⟨_, rfl, ?_⟩
  repeat' first
    | with_reducible assumption
    | with_reducible apply State.reach_kept
    | with_reducible apply State.wedgeRead_kept
    | exact Sub.mono (by decide) hm
    | split

theorem execKeepoutEntry_kept {t : Quad} {now : DWord} (hm : Sub 0x3E pq) (hI : s.Kept pq) : ∃ s1, execKeepoutEntry t now s = .next s1 ∧ s1.Kept pq := by
  unfold execKeepoutEntry
  refine ⟨_, rfl, ?_⟩
  repeat' first
    | with_reducible assumption
    | with_reducible apply State.reach_kept
    | with_reducible apply State.forceLow_kept
    | with_reducible apply State.setStat_kept
    | exact Sub.mono (by decide) hm
    | split

theorem execSyncMatch_kept {t : Quad} {now : DWord} {smps : List Smp} (hm : Sub 0x34 pq) (hI : s.Kept pq) : ∃ s1, execSyncMatch t now smps s = .next s1 ∧ s1.Kept pq := by
  unfold execSyncMatch
  refine ⟨_, rfl, ?_⟩
  repeat' first
    | with_reducible assumption
    | (extract_lets +onlyGivenNames s1; refine State.Kept.cut (s := s1) (p := pq) ?_ (fun _ => ?_); rotate_left; clear_value s1; rotate_left; dsimp -zeta only [s1]; clear s1)
    | (extract_lets +onlyGivenNames x1; clear_value x1)
    | with_reducible apply State.reach_kept
    | with_reducible apply State.takeSmps_kept
    | with_reducible apply State.syncFound_kept
    | exact Sub.mono (by decide) hm
    | split

theorem State.skipLoad_kept {r : Side} {a : Nat} {n : Nat} (hm : Sub 0x4004 pq) (hI : s.Kept pq) : (State.skipLoad s r a n).1.Kept pq := by
  unfold State.skipLoad
  repeat' first
    | with_reducible assumption
    | with_reducible apply State.dramRead_kept
    | split

theorem State.noSkips_kept {t : Quad} (hm : Sub 0x20 pq) (hI : s.Kept pq) : (State.noSkips s t).Kept pq := by
  unfold State.noSkips
  repeat' first
    | with_reducible assumption
    | with_reducible apply State.modTile_kept

theorem State.skipSelect_kept {r : Side} {t : Quad} {addr : Nat} (hm : Sub 0x4024 pq) (hI : s.Kept pq) : (State.skipSelect s r t addr).Kept pq := by
  unfold State.skipSelect
  repeat' first
    | with_reducible assumption
    | (extract_lets +onlyGivenNames s1; refine State.Kept.cut (s := s1) (p := pq) ?_ (fun _ => ?_); rotate_left; clear_value s1; rotate_left; dsimp -zeta only [s1]; clear s1)
    | (extract_lets +onlyGivenNames x1; clear_value x1)
    | with_reducible apply State.setReg_kept
    | with_reducible apply State.noSkips_kept
    | with_reducible apply State.skipLoad_kept
    | with_reducible apply State.setStat_kept
    | with_reducible apply State.modTile_kept
    | with_reducible apply State.bump_kept
    | with_reducible refine State.Kept.fst (by assumption) ?_
    | exact Sub.mono (by decide) hm
    | split

theorem execSkipEntryApply_kept {t : Quad} {now : DWord} (hm : Sub 0x34 pq) (hI : s.Kept pq) : ∃ s1, execSkipEntryApply t now s = .next s1 ∧ s1.Kept pq := by
  unfold execSkipEntryApply
  refine ⟨_, rfl, ?_⟩
  repeat' first
    | with_reducible assumption
    | with_reducible apply State.reach_kept
    | with_reducible apply State.skipsDue_kept
    | exact Sub.mono (by decide) hm
    | split

theorem execSkipListSelect_kept {x : Accessor} {t : Quad} {addr : DWord} (hm : Sub 0x422E pq) (hI : s.Kept pq) : ∃ s1, execSkipListSelect x t addr s = .next s1 ∧ s1.Kept pq := by
  unfold execSkipListSelect
  refine ⟨_, rfl, ?_⟩
  repeat' first
    | with_reducible assumption
    | (intro x hx; beta_reduce)
    | with_reducible apply State.tileAccess_kept
    | with_reducible apply State.skipSelect_kept
    | exact Sub.mono (by decide) hm

theorem State.statusPop_kept {t : Quad} (hm : Sub 0x20 pq) (hI : s.Kept pq) : (State.statusPop s t).1.Kept pq := by
  unfold State.statusPop
  repeat' first
    | with_reducible assumption
    | with_reducible apply State.modTile_kept
    | split

theorem State.statusTake_kept {c : CtxId} {t : Quad} (hm : Sub 0x20 pq) (hI : s.Kept pq) : (State.statusTake s c t).1.Kept pq := by
  unfold State.statusTake
  repeat' first
    | with_reducible assumption
    | with_reducible apply State.statusPop_kept
    | with_reducible apply State.ladderStatus_kept

theorem execSectorStatusPop_kept {c : CtxId} {t : Quad} {reg : BitVec 6} (hm : Sub 0x28 pq) (hI : s.Kept pq) : ∃ s1, execSectorStatusPop c t reg s = .next s1 ∧ s1.Kept pq := by
  unfold execSectorStatusPop
  refine ⟨_, rfl, ?_⟩
  repeat' first
    | with_reducible assumption
    | (intro x hx; beta_reduce)
    | with_reducible apply State.byCtx_kept
    | with_reducible apply State.statusTake_kept
    | with_reducible apply State.modCtx_kept
    | with_reducible apply State.refuseCtx_kept
    | exact Sub.mono (by decide) hm
    | split

theorem State.descWrite_kept {t : Quad} {slot : Nat} {word : Nat} {data : Word} (hm : Sub 0x24 pq) (hI : s.Kept pq) : (State.descWrite s t slot word data).Kept pq := by
  unfold State.descWrite
  repeat' first
    | with_reducible assumption
    | (extract_lets +onlyGivenNames x1; clear_value x1)
    | with_reducible apply State.setStat_kept
    | with_reducible apply State.modTile_kept
    | exact Sub.mono (by decide) hm
    | split

theorem execDescriptorWordWrite_kept {x : Accessor} {t : Quad} {slot : BitVec 6} {word : BitVec 2} {data : Word} (hm : Sub 0x22E pq) (hI : s.Kept pq) : ∃ s1, execDescriptorWordWrite x t slot word data s = .next s1 ∧ s1.Kept pq := by
  unfold execDescriptorWordWrite
  refine ⟨_, rfl, ?_⟩
  repeat' first
    | with_reducible assumption
    | (intro x hx; beta_reduce)
    | with_reducible apply State.tileAccess_kept
    | with_reducible apply State.descWrite_kept
    | exact Sub.mono (by decide) hm

theorem execTrackidWrite_kept {x : Accessor} {t : Quad} {v : BitVec 24} (hm : Sub 0x20E pq) (hI : s.Kept pq) : ∃ s1, execTrackidWrite x t v s = .next s1 ∧ s1.Kept pq := by
  unfold execTrackidWrite
  refine ⟨_, rfl, ?_⟩
  repeat' first
    | with_reducible assumption
    | (intro x hx; beta_reduce)
    | with_reducible apply State.tileAccess_kept
    | with_reducible apply State.setReg_kept
    | exact Sub.mono (by decide) hm

theorem State.fmtCtl_kept {t : Quad} {w : DWord} (hm : Sub 0x24 pq) (hI : s.Kept pq) : (State.fmtCtl s t w).Kept pq := by
  unfold State.fmtCtl
  repeat' first
    | with_reducible assumption
    | with_reducible apply State.descWrite_kept
    | with_reducible apply State.setReg_kept
    | exact Sub.mono (by decide) hm
    | split

theorem execFormatterCmdIgnored_kept {x : Accessor} {t : Quad} {w : DWord} (hm : Sub 0x22E pq) (hI : s.Kept pq) : ∃ s1, execFormatterCmdIgnored x t w s = .next s1 ∧ s1.Kept pq := by
  unfold execFormatterCmdIgnored
  refine ⟨_, rfl, ?_⟩
  repeat' first
    | with_reducible assumption
    | (intro x hx; beta_reduce)
    | with_reducible apply State.tileAccess_kept
    | with_reducible apply State.fmtCtl_kept
    | exact Sub.mono (by decide) hm
    | split

end Sys2Proof.Machine
end

