-- ==== Sys2Proof/Laws/KeptEnergy.lean ====
section
/-!
SUPPORT. The operations of Machine/Energy.lean keep what they do not write.
-/
set_option Elab.async false
set_option linter.unusedTactic false
set_option linter.unreachableTactic false
namespace Sys2Proof.Machine

variable {pq : Nat × State} {s : State}

theorem State.mtrInt_kept {i : Nat} (hm : Sub 0x4 pq) (hI : s.Kept pq) : (State.mtrInt s i).Kept pq := by
  unfold State.mtrInt
  repeat' first
    | with_reducible assumption
    | with_reducible apply State.setStat_kept

theorem State.pdflt_kept {i : Nat} (hm : Sub 0x4 pq) (hI : s.Kept pq) : (State.pdflt s i).Kept pq := by
  unfold State.pdflt
  repeat' first
    | with_reducible assumption
    | with_reducible apply State.setStat_kept
    | with_reducible apply State.mtrInt_kept

theorem State.setSp_kept {x : Spindle} (hm : Sub 0x10004 pq) (hI : s.Kept pq) : (State.setSp s x).Kept pq := by
  unfold State.setSp
  repeat' first
    | with_reducible assumption
    | with_reducible apply State.modMtr_kept
    | with_reducible apply State.mtrInt_kept
    | exact Sub.mono (by decide) hm
    | split

theorem State.genParked_kept (hm : Sub 0x10004 pq) (hI : s.Kept pq) : (State.genParked s).Kept pq := by
  unfold State.genParked
  repeat' first
    | with_reducible assumption
    | with_reducible apply State.modMtr_kept
    | with_reducible apply State.setSp_kept
    | exact Sub.mono (by decide) hm
    | split

theorem State.bandCount_kept (hm : Sub 0x10000 pq) (hI : s.Kept pq) : (State.bandCount s).Kept pq := by
  unfold State.bandCount
  repeat' first
    | with_reducible assumption
    | (extract_lets +onlyGivenNames x1; clear_value x1)
    | with_reducible apply State.modMtr_kept

theorem State.energyShort_kept (hm : Sub 0x306 pq) (hI : s.Kept pq) : (State.energyShort s).Kept pq := by
  unfold State.energyShort
  repeat' first
    | with_reducible assumption
    | (extract_lets +onlyGivenNames s1; refine State.Kept.cut (s := s1) (p := pq) ?_ (fun _ => ?_); rotate_left; clear_value s1; rotate_left; dsimp -zeta only [s1]; clear s1)
    | (extract_lets +onlyGivenNames x1; clear_value x1)
    | with_reducible apply State.modRlg_kept
    | with_reducible apply State.setStat_kept
    | with_reducible apply State.event_kept
    | exact Sub.mono (by decide) hm
    | split

theorem State.energyTick_kept {r : Side} (hm : Sub 0x10306 pq) (hI : s.Kept pq) : (State.energyTick s r).Kept pq := by
  unfold State.energyTick
  repeat' first
    | with_reducible assumption
    | with_reducible apply State.bandCount_kept
    | with_reducible apply State.modRlg_kept
    | with_reducible apply State.energyShort_kept
    | exact Sub.mono (by decide) hm
    | split

end Sys2Proof.Machine
end

