-- ==== Sys2Proof/Laws/KeptServo.lean ====
section
/-!
SUPPORT. The operations of Machine/Servo.lean keep what they do not write.
-/
set_option Elab.async false
set_option linter.unusedTactic false
set_option linter.unreachableTactic false
namespace Sys2Proof.Machine

variable {pq : Nat × State} {s : State}

theorem State.cenInt_kept {r : Side} {i : Nat} (hm : Sub 0x4 pq) (hI : s.Kept pq) : (State.cenInt s r i).Kept pq := by
  unfold State.cenInt
  repeat' first
    | with_reducible assumption
    | with_reducible apply State.setStat_kept

theorem State.writeSys_kept {r : Side} (hm : Sub 0x8000 pq) (hI : s.Kept pq) : (State.writeSys s r).Kept pq := by
  unfold State.writeSys
  repeat' first
    | with_reducible assumption
    | (extract_lets +onlyGivenNames x1; clear_value x1)
    | (intro x y hx; beta_reduce)
    | with_reducible apply State.modCen_kept
    | with_reducible apply State.Kept.foldl

theorem State.putNode_kept {r : Side} {n : Nat} {v : Word} {st : Bool} (hm : Sub 0x8000 pq) (hI : s.Kept pq) : (State.putNode s r n v st).Kept pq := by
  unfold State.putNode
  repeat' first
    | with_reducible assumption
    | (extract_lets +onlyGivenNames x1; clear_value x1)
    | with_reducible apply State.modCen_kept
    | split

theorem State.markStale_kept {r : Side} {n : Nat} (hm : Sub 0x8000 pq) (hI : s.Kept pq) : (State.markStale s r n).Kept pq := by
  unfold State.markStale
  repeat' first
    | with_reducible assumption
    | (extract_lets +onlyGivenNames x1; clear_value x1)
    | with_reducible apply State.modCen_kept
    | split

theorem State.coil_kept {a : Side} {v : BitVec 16} (hm : Sub 0x10000 pq) (hI : s.Kept pq) : (State.coil s a v).Kept pq := by
  unfold State.coil
  repeat' first
    | with_reducible assumption
    | with_reducible apply State.modMtr_kept
    | split

theorem State.toDest_kept {d : Nat} {v : BitVec 16} (hm : Sub 0x10000 pq) (hI : s.Kept pq) : (State.toDest s d v).Kept pq := by
  unfold State.toDest
  repeat' first
    | with_reducible assumption
    | with_reducible apply State.coil_kept
    | with_reducible apply State.modMtr_kept
    | split

theorem State.crossCheck_kept {r : Side} {d : Nat} (hm : Sub 0x8004 pq) (hI : s.Kept pq) : (State.crossCheck s r d).Kept pq := by
  unfold State.crossCheck
  repeat' first
    | with_reducible assumption
    | with_reducible apply State.bump_kept
    | with_reducible apply State.modCen_kept
    | exact Sub.mono (by decide) hm
    | split

theorem State.outDrive_kept {r : Side} {d : Nat} {v : Word} {stale : Bool} {tick : DWord} (hm : Sub 0x18004 pq) (hI : s.Kept pq) : (State.outDrive s r d v stale tick).Kept pq := by
  unfold State.outDrive
  repeat' first
    | with_reducible assumption
    | (extract_lets +onlyGivenNames s1; refine State.Kept.cut (s := s1) (p := pq) ?_ (fun _ => ?_); rotate_left; clear_value s1; rotate_left; dsimp -zeta only [s1]; clear s1)
    | with_reducible apply State.modCen_kept
    | with_reducible apply State.toDest_kept
    | with_reducible apply State.crossCheck_kept
    | exact Sub.mono (by decide) hm
    | split

theorem State.modTrace_kept {r : Side} {k : Quad} {f : Trace → Trace} (hm : Sub 0x8000 pq) (hI : s.Kept pq) : (State.modTrace s r k f).Kept pq := by
  unfold State.modTrace
  repeat' first
    | with_reducible assumption
    | with_reducible apply State.modCen_kept

theorem State.traceAppend_kept {r : Side} {k : Quad} {v : Word} (hm : Sub 0x8004 pq) (hI : s.Kept pq) : (State.traceAppend s r k v).Kept pq := by
  unfold State.traceAppend
  repeat' first
    | with_reducible assumption
    | (extract_lets +onlyGivenNames s1; refine State.Kept.cut (s := s1) (p := pq) ?_ (fun _ => ?_); rotate_left; clear_value s1; rotate_left; dsimp -zeta only [s1]; clear s1)
    | (extract_lets +onlyGivenNames x1; clear_value x1)
    | with_reducible apply State.modTrace_kept
    | with_reducible apply State.cenInt_kept
    | exact Sub.mono (by decide) hm
    | split

theorem State.setSat_kept {r : Side} {i : Nat} {lim : Bool} (hm : Sub 0x8004 pq) (hI : s.Kept pq) : (State.setSat s r i lim).Kept pq := by
  unfold State.setSat
  repeat' first
    | with_reducible assumption
    | (extract_lets +onlyGivenNames s1; refine State.Kept.cut (s := s1) (p := pq) ?_ (fun _ => ?_); rotate_left; clear_value s1; rotate_left; dsimp -zeta only [s1]; clear s1)
    | with_reducible apply State.cenInt_kept
    | with_reducible apply State.modCen_kept
    | exact Sub.mono (by decide) hm
    | split

theorem State.plain_kept {r : Side} {i : Nat} {dst : Nat} {v : Int × Bool} {stale : Bool} (hm : Sub 0x8004 pq) (hI : s.Kept pq) : (State.plain s r i dst v stale).Kept pq := by
  unfold State.plain
  repeat' first
    | with_reducible assumption
    | with_reducible apply State.putNode_kept
    | with_reducible apply State.setSat_kept
    | exact Sub.mono (by decide) hm

theorem State.block_kept {r : Side} {i : Nat} {inp : PassIn} {tick : DWord} {pre : List Nat} (hm : Sub 0x18004 pq) (hI : s.Kept pq) : (State.block s r i inp tick pre).1.Kept pq := by
  unfold State.block
  repeat' first
    | with_reducible assumption
    | (extract_lets +onlyGivenNames s1; refine State.Kept.cut (s := s1) (p := pq) ?_ (fun _ => ?_); rotate_left; clear_value s1; rotate_left; dsimp -zeta only [s1]; clear s1)
    | (extract_lets +onlyGivenNames x1; clear_value x1)
    | with_reducible apply State.putNode_kept
    | with_reducible apply State.plain_kept
    | with_reducible apply State.outDrive_kept
    | with_reducible apply State.markStale_kept
    | with_reducible apply State.traceAppend_kept
    | with_reducible apply State.modReg_kept
    | with_reducible apply State.cenInt_kept
    | exact Sub.mono (by decide) hm
    | split

theorem State.blocks_kept {r : Side} {inp : PassIn} {tick : DWord} (hm : Sub 0x18004 pq) :
    ∀ {n : Nat} {p : PassRun} {s : State}, s.Kept pq → (s.blocks r inp tick n p).1.Kept pq
  | 0, _, _, h => h
  | n + 1, p, s, h => by
    unfold State.blocks
    split
    · exact h
    · exact State.blocks_kept hm (n := n) (State.block_kept (Sub.mono (by decide) hm) h)

theorem State.passEnd_kept {r : Side} {q : Quad} {cyc : Nat} (hm : Sub 0x8004 pq) (hI : s.Kept pq) : (State.passEnd s r q cyc).Kept pq := by
  unfold State.passEnd
  repeat' first
    | with_reducible assumption
    | (extract_lets +onlyGivenNames s1; refine State.Kept.cut (s := s1) (p := pq) ?_ (fun _ => ?_); rotate_left; clear_value s1; rotate_left; dsimp -zeta only [s1]; clear s1)
    | (extract_lets +onlyGivenNames x1; clear_value x1)
    | with_reducible apply State.modReg_kept
    | with_reducible apply State.modCen_kept
    | exact Sub.mono (by decide) hm

theorem State.runPass_kept {r : Side} {q : Quad} {n : Nat} {inp : PassIn} (hm : Sub 0x18004 pq) (hI : s.Kept pq) : (State.runPass s r q n inp).Kept pq := by
  unfold State.runPass
  repeat' first
    | with_reducible assumption
    | (extract_lets +onlyGivenNames s1; refine State.Kept.cut (s := s1) (p := pq) ?_ (fun _ => ?_); rotate_left; clear_value s1; rotate_left; dsimp -zeta only [s1]; clear s1)
    | (extract_lets +onlyGivenNames x1; clear_value x1)
    | with_reducible apply State.blocks_kept
    | with_reducible apply State.modCen_kept
    | with_reducible apply State.passEnd_kept
    | with_reducible refine State.Kept.fst (by assumption) ?_
    | exact Sub.mono (by decide) hm
    | split

theorem execTaskPass_kept {r : Side} {q : Quad} {blocks : Nat} {inp : PassIn} (hm : Sub 0x18004 pq) (hI : s.Kept pq) : ∃ s1, execTaskPass r q blocks inp s = .next s1 ∧ s1.Kept pq := by
  unfold execTaskPass
  refine ⟨_, rfl, ?_⟩
  repeat' first
    | with_reducible assumption
    | with_reducible apply State.runPass_kept
    | split

theorem State.rampGo_kept {r : Side} {ch : Nat} {data : Word} (hm : Sub 0x8004 pq) (hI : s.Kept pq) : (State.rampGo s r ch data).Kept pq := by
  unfold State.rampGo
  repeat' first
    | with_reducible assumption
    | (extract_lets +onlyGivenNames x1; clear_value x1)
    | with_reducible apply State.modCen_kept
    | with_reducible apply State.cenInt_kept
    | exact Sub.mono (by decide) hm
    | split

theorem execRampGo_kept {r : Side} {data : Word} (hm : Sub 0x8004 pq) (hI : s.Kept pq) : ∃ s1, execRampGo r data s = .next s1 ∧ s1.Kept pq := by
  unfold execRampGo
  refine ⟨_, rfl, ?_⟩
  repeat' first
    | with_reducible assumption
    | with_reducible apply State.rampGo_kept
    | split

theorem State.rampTick_kept {r : Side} {q : Quad} (hm : Sub 0x8004 pq) (hI : s.Kept pq) : (State.rampTick s r q).Kept pq := by
  unfold State.rampTick
  repeat' first
    | with_reducible assumption
    | (extract_lets +onlyGivenNames f1; refine State.Kept.fnCut2 (f := f1) (p := pq) ?_ (fun hf1 => ?_); rotate_left; clear_value f1; rotate_left; dsimp -zeta only [f1]; clear f1)
    | (extract_lets +onlyGivenNames s1; refine State.Kept.cut (s := s1) (p := pq) ?_ (fun _ => ?_); rotate_left; clear_value s1; rotate_left; dsimp -zeta only [s1]; clear s1)
    | (extract_lets +onlyGivenNames x1; clear_value x1)
    | (intro x y hx; beta_reduce)
    | with_reducible apply State.modCen_kept
    | with_reducible apply State.cenInt_kept
    | with_reducible apply State.Kept.foldl
    | exact Sub.mono (by decide) hm
    | split

theorem State.bandCancel_kept {r : Side} (hm : Sub 0x8004 pq) (hI : s.Kept pq) : (State.bandCancel s r).Kept pq := by
  unfold State.bandCancel
  repeat' first
    | with_reducible assumption
    | (extract_lets +onlyGivenNames x1; clear_value x1)
    | (intro x y hx; beta_reduce)
    | with_reducible apply State.modCen_kept
    | with_reducible apply State.cenInt_kept
    | with_reducible apply State.Kept.foldl
    | exact Sub.mono (by decide) hm
    | split

theorem State.bandTick_kept {r : Side} (hm : Sub 0x8004 pq) (hI : s.Kept pq) : (State.bandTick s r).Kept pq := by
  unfold State.bandTick
  repeat' first
    | with_reducible assumption
    | (extract_lets +onlyGivenNames s1; refine State.Kept.cut (s := s1) (p := pq) ?_ (fun _ => ?_); rotate_left; clear_value s1; rotate_left; dsimp -zeta only [s1]; clear s1)
    | (extract_lets +onlyGivenNames x1; clear_value x1)
    | with_reducible apply State.modCen_kept
    | with_reducible apply State.cenInt_kept
    | with_reducible apply State.bandCancel_kept
    | exact Sub.mono (by decide) hm
    | split

theorem State.modMode_kept {r : Side} {x : Side} {f : ServoMode → ServoMode} (hm : Sub 0x8000 pq) (hI : s.Kept pq) : (State.modMode s r x f).Kept pq := by
  unfold State.modMode
  repeat' first
    | with_reducible assumption
    | with_reducible apply State.modCen_kept

theorem State.modeReq_kept {r : Side} {x : Side} {mode : Nat} {sk : Option DWord} (hm : Sub 0x8004 pq) (hI : s.Kept pq) : (State.modeReq s r x mode sk).Kept pq := by
  unfold State.modeReq
  repeat' first
    | with_reducible assumption
    | (extract_lets +onlyGivenNames s1; refine State.Kept.cut (s := s1) (p := pq) ?_ (fun _ => ?_); rotate_left; clear_value s1; rotate_left; dsimp -zeta only [s1]; clear s1)
    | (extract_lets +onlyGivenNames x1; clear_value x1)
    | with_reducible apply State.modMode_kept
    | with_reducible apply State.modCen_kept
    | with_reducible apply State.cenInt_kept
    | exact Sub.mono (by decide) hm
    | split

theorem State.modeRequest_kept {c : CtxId} {data : DWord} (hm : Sub 0x800C pq) (hI : s.Kept pq) : (State.modeRequest s c data).Kept pq := by
  unfold State.modeRequest
  repeat' first
    | with_reducible assumption
    | (extract_lets +onlyGivenNames x1; clear_value x1)
    | with_reducible apply State.refuseCtx_kept
    | with_reducible apply State.modeReq_kept
    | exact Sub.mono (by decide) hm
    | split

theorem execModeRequest_kept {c : CtxId} {data : DWord} (hm : Sub 0x800C pq) (hI : s.Kept pq) : ∃ s1, execModeRequest c data s = .next s1 ∧ s1.Kept pq := by
  unfold execModeRequest
  refine ⟨_, rfl, ?_⟩
  repeat' first
    | with_reducible assumption
    | (intro x hx; beta_reduce)
    | with_reducible apply State.byCtx_kept
    | with_reducible apply State.modeRequest_kept

theorem State.setMode_kept {r : Side} {x : Side} {mode : Nat} (hm : Sub 0x18000 pq) (hI : s.Kept pq) : (State.setMode s r x mode).Kept pq := by
  unfold State.setMode
  repeat' first
    | with_reducible assumption
    | (extract_lets +onlyGivenNames s1; refine State.Kept.cut (s := s1) (p := pq) ?_ (fun _ => ?_); rotate_left; clear_value s1; rotate_left; dsimp -zeta only [s1]; clear s1)
    | (extract_lets +onlyGivenNames x1; clear_value x1)
    | with_reducible apply State.modMode_kept
    | with_reducible apply State.writeSys_kept
    | with_reducible apply State.modMtr_kept
    | with_reducible apply State.coil_kept
    | exact Sub.mono (by decide) hm
    | split

theorem State.applyMode_kept {r : Side} {x : Side} {mode : Nat} {sk : Option DWord} (hm : Sub 0x18000 pq) (hI : s.Kept pq) : (State.applyMode s r x mode sk).Kept pq := by
  unfold State.applyMode
  repeat' first
    | with_reducible assumption
    | (extract_lets +onlyGivenNames s1; refine State.Kept.cut (s := s1) (p := pq) ?_ (fun _ => ?_); rotate_left; clear_value s1; rotate_left; dsimp -zeta only [s1]; clear s1)
    | with_reducible apply State.modMode_kept
    | with_reducible apply State.modCen_kept
    | with_reducible apply State.setMode_kept
    | exact Sub.mono (by decide) hm

theorem execModeSwitch_kept {act : Side} (hm : Sub 0x18004 pq) (hI : s.Kept pq) : ∃ s1, execModeSwitch act s = .next s1 ∧ s1.Kept pq := by
  unfold execModeSwitch
  refine ⟨_, rfl, ?_⟩
  repeat' first
    | with_reducible assumption
    | (extract_lets +onlyGivenNames f1; refine State.Kept.fnCut2 (f := f1) (p := pq) ?_ (fun hf1 => ?_); rotate_left; clear_value f1; rotate_left; dsimp -zeta only [f1]; clear f1)
    | with_reducible apply hf1
    | (intro x y hx; beta_reduce)
    | with_reducible apply State.applyMode_kept
    | with_reducible apply State.genParked_kept
    | exact Sub.mono (by decide) hm
    | split

theorem State.seekRequest_kept {c : CtxId} {data : DWord} (hm : Sub 0x800C pq) (hI : s.Kept pq) : (State.seekRequest s c data).Kept pq := by
  unfold State.seekRequest
  repeat' first
    | with_reducible assumption
    | (extract_lets +onlyGivenNames s1; refine State.Kept.cut (s := s1) (p := pq) ?_ (fun _ => ?_); rotate_left; clear_value s1; rotate_left; dsimp -zeta only [s1]; clear s1)
    | (extract_lets +onlyGivenNames x1; clear_value x1)
    | with_reducible apply State.refuseCtx_kept
    | with_reducible apply State.modMode_kept
    | with_reducible apply State.modCen_kept
    | with_reducible apply State.modeReq_kept
    | exact Sub.mono (by decide) hm
    | split

theorem execSeekRequest_kept {c : CtxId} {data : DWord} (hm : Sub 0x800C pq) (hI : s.Kept pq) : ∃ s1, execSeekRequest c data s = .next s1 ∧ s1.Kept pq := by
  unfold execSeekRequest
  refine ⟨_, rfl, ?_⟩
  repeat' first
    | with_reducible assumption
    | (intro x hx; beta_reduce)
    | with_reducible apply State.byCtx_kept
    | with_reducible apply State.seekRequest_kept

theorem State.seekStart_kept {r : Side} {x : Side} (hm : Sub 0x18000 pq) (hI : s.Kept pq) : (State.seekStart s r x).Kept pq := by
  unfold State.seekStart
  repeat' first
    | with_reducible assumption
    | (extract_lets +onlyGivenNames s1; refine State.Kept.cut (s := s1) (p := pq) ?_ (fun _ => ?_); rotate_left; clear_value s1; rotate_left; dsimp -zeta only [s1]; clear s1)
    | (extract_lets +onlyGivenNames x1; clear_value x1)
    | with_reducible apply State.modMode_kept
    | with_reducible apply State.setMode_kept
    | exact Sub.mono (by decide) hm
    | split

theorem State.seekTick_kept {r : Side} {x : Side} (hm : Sub 0x18004 pq) (hI : s.Kept pq) : (State.seekTick s r x).Kept pq := by
  unfold State.seekTick
  repeat' first
    | with_reducible assumption
    | (extract_lets +onlyGivenNames s1; refine State.Kept.cut (s := s1) (p := pq) ?_ (fun _ => ?_); rotate_left; clear_value s1; rotate_left; dsimp -zeta only [s1]; clear s1)
    | (extract_lets +onlyGivenNames x1; clear_value x1)
    | with_reducible apply State.seekStart_kept
    | with_reducible apply State.modMode_kept
    | with_reducible apply State.setReg_kept
    | with_reducible apply State.modCen_kept
    | with_reducible apply State.cenInt_kept
    | with_reducible apply State.setMode_kept
    | exact Sub.mono (by decide) hm
    | split

theorem State.angCheck_kept {r : Side} (hm : Sub 0x14 pq) (hI : s.Kept pq) : (State.angCheck s r).Kept pq := by
  unfold State.angCheck
  repeat' first
    | with_reducible assumption
    | with_reducible apply State.modReg_kept
    | with_reducible apply State.modAng_kept
    | exact Sub.mono (by decide) hm

theorem State.mactTick_kept {r : Side} (hm : Sub 0x80 pq) (hI : s.Kept pq) : (State.mactTick s r).Kept pq := by
  unfold State.mactTick
  repeat' first
    | with_reducible assumption
    | (extract_lets +onlyGivenNames x1; clear_value x1)
    | (intro x y hx; beta_reduce)
    | with_reducible apply State.sendMact_kept
    | with_reducible apply State.Kept.foldl
    | split

theorem State.taskTick_kept {r : Side} {q : Quad} {now : DWord} (hm : Sub 0x8004 pq) (hI : s.Kept pq) : (State.taskTick s r q now).Kept pq := by
  unfold State.taskTick
  repeat' first
    | with_reducible assumption
    | (extract_lets +onlyGivenNames x1; clear_value x1)
    | with_reducible apply State.modCen_kept
    | with_reducible apply State.bump_kept
    | with_reducible apply State.cenInt_kept
    | exact Sub.mono (by decide) hm
    | split

theorem State.syncFail_kept {r : Side} (hm : Sub 0x8004 pq) (hI : s.Kept pq) : (State.syncFail s r).Kept pq := by
  unfold State.syncFail
  repeat' first
    | with_reducible assumption
    | with_reducible apply State.modCen_kept
    | with_reducible apply State.setStat_kept
    | with_reducible apply State.cenInt_kept
    | exact Sub.mono (by decide) hm

theorem State.syncTick_kept {r : Side} (hm : Sub 0x8004 pq) (hI : s.Kept pq) : (State.syncTick s r).Kept pq := by
  unfold State.syncTick
  repeat' first
    | with_reducible assumption
    | with_reducible apply State.modCen_kept
    | with_reducible apply State.syncFail_kept
    | exact Sub.mono (by decide) hm
    | split

theorem State.tick_kept {r : Side} {q : Quad} {now : DWord} {g : Four GuideIn} {rpm : BitVec 16} (hm : Sub 0x183B6 pq) (hI : s.Kept pq) : (State.tick s r q now g rpm).Kept pq := by
  unfold State.tick
  repeat' first
    | with_reducible assumption
    | (extract_lets +onlyGivenNames s1; refine State.Kept.cut (s := s1) (p := pq) ?_ (fun _ => ?_); rotate_left; clear_value s1; rotate_left; dsimp -zeta only [s1]; clear s1)
    | (intro x y hx; beta_reduce)
    | with_reducible apply State.setReg_kept
    | with_reducible apply State.modAng_kept
    | with_reducible apply State.modMode_kept
    | with_reducible apply State.guideSample_kept
    | with_reducible apply State.angCheck_kept
    | with_reducible apply State.mactTick_kept
    | with_reducible apply State.syncTick_kept
    | with_reducible apply State.seekTick_kept
    | with_reducible apply State.bandTick_kept
    | with_reducible apply State.energyTick_kept
    | with_reducible apply State.rampTick_kept
    | with_reducible apply State.writeSys_kept
    | with_reducible apply State.taskTick_kept
    | with_reducible apply State.Kept.foldl
    | exact Sub.mono (by decide) hm
    | split

theorem execSampleTick_kept {r : Side} {series : Quad} {now : DWord} {g : Four GuideIn} {rpm : BitVec 16} (hm : Sub 0x183B6 pq) (hI : s.Kept pq) : ∃ s1, execSampleTick r series now g rpm s = .next s1 ∧ s1.Kept pq := by
  unfold execSampleTick
  refine ⟨_, rfl, ?_⟩
  repeat' first
    | with_reducible assumption
    | with_reducible apply State.tick_kept
    | split

theorem execStaleLimitExpiry_kept {r : Side} {dest : BitVec 4} (hm : Sub 0x8004 pq) (hI : s.Kept pq) : ∃ s1, execStaleLimitExpiry r dest s = .next s1 ∧ s1.Kept pq := by
  unfold execStaleLimitExpiry
  refine ⟨_, rfl, ?_⟩
  repeat' first
    | with_reducible assumption
    | (extract_lets +onlyGivenNames x1; clear_value x1)
    | with_reducible apply State.modCen_kept
    | with_reducible apply State.setStat_kept
    | with_reducible apply State.cenInt_kept
    | exact Sub.mono (by decide) hm
    | split

theorem State.nodeWrite_kept {c : CtxId} {data : DWord} (hm : Sub 0x8008 pq) (hI : s.Kept pq) : (State.nodeWrite s c data).Kept pq := by
  unfold State.nodeWrite
  repeat' first
    | with_reducible assumption
    | with_reducible apply State.putNode_kept
    | with_reducible apply State.refuseCtx_kept
    | exact Sub.mono (by decide) hm
    | split

theorem execNodeWrite_kept {c : CtxId} {data : DWord} (hm : Sub 0x8008 pq) (hI : s.Kept pq) : ∃ s1, execNodeWrite c data s = .next s1 ∧ s1.Kept pq := by
  unfold execNodeWrite
  refine ⟨_, rfl, ?_⟩
  repeat' first
    | with_reducible assumption
    | (intro x hx; beta_reduce)
    | with_reducible apply State.byCtx_kept
    | with_reducible apply State.nodeWrite_kept

theorem State.coefWrite_kept {c : CtxId} {data : DWord} (hm : Sub 0x800C pq) (hI : s.Kept pq) : (State.coefWrite s c data).Kept pq := by
  unfold State.coefWrite
  repeat' first
    | with_reducible assumption
    | (extract_lets +onlyGivenNames x1; clear_value x1)
    | with_reducible apply State.refuseCtx_kept
    | with_reducible apply State.cenInt_kept
    | with_reducible apply State.modCen_kept
    | exact Sub.mono (by decide) hm
    | split

theorem execCoefWrite_kept {c : CtxId} {data : DWord} (hm : Sub 0x800C pq) (hI : s.Kept pq) : ∃ s1, execCoefWrite c data s = .next s1 ∧ s1.Kept pq := by
  unfold execCoefWrite
  refine ⟨_, rfl, ?_⟩
  repeat' first
    | with_reducible assumption
    | (intro x hx; beta_reduce)
    | with_reducible apply State.byCtx_kept
    | with_reducible apply State.coefWrite_kept

theorem execOutputCrosscheckFault_kept {r : Side} (hm : Sub 0x8206 pq) (hI : s.Kept pq) : ∃ s1, execOutputCrosscheckFault r s = .next s1 ∧ s1.Kept pq := by
  unfold execOutputCrosscheckFault
  refine ⟨_, rfl, ?_⟩
  repeat' first
    | with_reducible assumption
    | with_reducible apply State.modCen_kept
    | with_reducible apply State.cenInt_kept
    | with_reducible apply State.event_kept
    | exact Sub.mono (by decide) hm
    | split

theorem State.nodeSync_kept {r : Side} (hm : Sub 0x8004 pq) (hI : s.Kept pq) : (State.nodeSync s r).Kept pq := by
  unfold State.nodeSync
  repeat' first
    | with_reducible assumption
    | with_reducible apply State.modCen_kept
    | with_reducible apply State.syncFail_kept
    | exact Sub.mono (by decide) hm
    | split

theorem execNodeSync_kept {r : Side} (hm : Sub 0x8004 pq) (hI : s.Kept pq) : ∃ s1, execNodeSync r s = .next s1 ∧ s1.Kept pq := by
  unfold execNodeSync
  refine ⟨_, rfl, ?_⟩
  repeat' first
    | with_reducible assumption
    | with_reducible apply State.nodeSync_kept
    | split

theorem State.copyNodes_kept {r : Side} (hm : Sub 0x8000 pq) (hI : s.Kept pq) : (State.copyNodes s r).Kept pq := by
  unfold State.copyNodes
  repeat' first
    | with_reducible assumption
    | (extract_lets +onlyGivenNames x1; clear_value x1)
    | with_reducible apply State.modCen_kept

theorem execNodeSyncDone_kept {r : Side} (hm : Sub 0x8004 pq) (hI : s.Kept pq) : ∃ s1, execNodeSyncDone r s = .next s1 ∧ s1.Kept pq := by
  unfold execNodeSyncDone
  refine ⟨_, rfl, ?_⟩
  repeat' first
    | with_reducible assumption
    | with_reducible apply State.copyNodes_kept
    | with_reducible apply State.syncFail_kept
    | exact Sub.mono (by decide) hm
    | split

theorem State.traceCfg_kept {r : Side} {k : Quad} {data : Word} (hm : Sub 0x8000 pq) (hI : s.Kept pq) : (State.traceCfg s r k data).Kept pq := by
  unfold State.traceCfg
  repeat' first
    | with_reducible assumption
    | (extract_lets +onlyGivenNames s1; refine State.Kept.cut (s := s1) (p := pq) ?_ (fun _ => ?_); rotate_left; clear_value s1; rotate_left; dsimp -zeta only [s1]; clear s1)
    | with_reducible apply State.modTrace_kept
    | split

theorem execTraceArm_kept {r : Side} {data : Word} (hm : Sub 0x8000 pq) (hI : s.Kept pq) : ∃ s1, execTraceArm r data s = .next s1 ∧ s1.Kept pq := by
  unfold execTraceArm
  refine ⟨_, rfl, ?_⟩
  repeat' first
    | with_reducible assumption
    | with_reducible apply State.traceCfg_kept
    | split

theorem execTraceForce_kept {r : Side} {data : Word} (hm : Sub 0x8000 pq) (hI : s.Kept pq) : ∃ s1, execTraceForce r data s = .next s1 ∧ s1.Kept pq := by
  unfold execTraceForce
  refine ⟨_, rfl, ?_⟩
  repeat' first
    | with_reducible assumption
    | with_reducible apply State.traceCfg_kept
    | split

theorem State.adoptOut_kept {r : Side} {p : Nat × Nat} (hm : Sub 0x18000 pq) (hI : s.Kept pq) : (State.adoptOut s r p).Kept pq := by
  unfold State.adoptOut
  repeat' first
    | with_reducible assumption
    | with_reducible apply State.modCen_kept
    | with_reducible apply State.toDest_kept
    | exact Sub.mono (by decide) hm

theorem State.adoptOutputs_kept {r : Side} {x : Option Side} (hm : Sub 0x18000 pq) (hI : s.Kept pq) : (State.adoptOutputs s r x).Kept pq := by
  unfold State.adoptOutputs
  repeat' first
    | with_reducible assumption
    | (intro x y hx; beta_reduce)
    | with_reducible apply State.adoptOut_kept
    | with_reducible apply State.Kept.foldl

end Sys2Proof.Machine
end

