-- ==== Sys2Proof/Laws/KeptMotor.lean ====
section
/-!
SUPPORT. The operations of Machine/Motor.lean keep what they do not write.
-/
set_option Elab.async false
set_option linter.unusedTactic false
set_option linter.unreachableTactic false
namespace Sys2Proof.Machine

variable {pq : Nat × State} {s : State}

theorem State.mtrAccess_kept {x : Accessor} {f : State → State} (hf : ∀ s, State.Kept pq s → (f s).Kept pq) (hm : Sub 0x8 pq) (hI : s.Kept pq) : (State.mtrAccess s x f).Kept pq := by
  unfold State.mtrAccess
  repeat' first
    | with_reducible assumption
    | with_reducible apply State.access_kept

theorem State.dropWindow_kept {a : Side} (hm : Sub 0x30000 pq) (hI : s.Kept pq) : (State.dropWindow s a).Kept pq := by
  unfold State.dropWindow
  repeat' first
    | with_reducible assumption
    | with_reducible apply State.modMon_kept
    | with_reducible apply State.modMtr_kept
    | exact Sub.mono (by decide) hm

theorem State.retract_kept {a : Side} (hm : Sub 0x30000 pq) (hI : s.Kept pq) : (State.retract s a).Kept pq := by
  unfold State.retract
  repeat' first
    | with_reducible assumption
    | (extract_lets +onlyGivenNames s1; refine State.Kept.cut (s := s1) (p := pq) ?_ (fun _ => ?_); rotate_left; clear_value s1; rotate_left; dsimp -zeta only [s1]; clear s1)
    | with_reducible apply State.dropWindow_kept
    | with_reducible apply State.modMtr_kept
    | exact Sub.mono (by decide) hm

theorem State.retractLoaded_kept (hm : Sub 0x30000 pq) (hI : s.Kept pq) : (State.retractLoaded s).Kept pq := by
  unfold State.retractLoaded
  repeat' first
    | with_reducible assumption
    | (intro x y hx; beta_reduce)
    | with_reducible apply State.retract_kept
    | with_reducible apply State.Kept.foldl
    | split

theorem State.autoRetract_kept (hm : Sub 0x30004 pq) (hI : s.Kept pq) : (State.autoRetract s).Kept pq := by
  unfold State.autoRetract
  repeat' first
    | with_reducible assumption
    | with_reducible apply State.retractLoaded_kept
    | with_reducible apply State.pdflt_kept
    | exact Sub.mono (by decide) hm
    | split

theorem State.spStart_kept (hm : Sub 0x30004 pq) (hI : s.Kept pq) : (State.spStart s).Kept pq := by
  unfold State.spStart
  repeat' first
    | with_reducible assumption
    | (extract_lets +onlyGivenNames s1; refine State.Kept.cut (s := s1) (p := pq) ?_ (fun _ => ?_); rotate_left; clear_value s1; rotate_left; dsimp -zeta only [s1]; clear s1)
    | with_reducible apply State.mtrInt_kept
    | with_reducible apply State.modMtr_kept
    | with_reducible apply State.setSp_kept
    | with_reducible apply State.retractLoaded_kept
    | exact Sub.mono (by decide) hm
    | split

theorem State.spOff_kept (hm : Sub 0x30004 pq) (hI : s.Kept pq) : (State.spOff s).Kept pq := by
  unfold State.spOff
  repeat' first
    | with_reducible assumption
    | (extract_lets +onlyGivenNames s1; refine State.Kept.cut (s := s1) (p := pq) ?_ (fun _ => ?_); rotate_left; clear_value s1; rotate_left; dsimp -zeta only [s1]; clear s1)
    | (extract_lets +onlyGivenNames x1; clear_value x1)
    | with_reducible apply State.modMtr_kept
    | with_reducible apply State.setSp_kept
    | with_reducible apply State.spStart_kept
    | exact Sub.mono (by decide) hm
    | split

theorem State.spFail_kept (hm : Sub 0x10004 pq) (hI : s.Kept pq) : (State.spFail s).Kept pq := by
  unfold State.spFail
  repeat' first
    | with_reducible assumption
    | with_reducible apply State.modMtr_kept
    | with_reducible apply State.setSp_kept
    | with_reducible apply State.mtrInt_kept
    | exact Sub.mono (by decide) hm

theorem State.spStop_kept (hm : Sub 0x30004 pq) (hI : s.Kept pq) : (State.spStop s).Kept pq := by
  unfold State.spStop
  repeat' first
    | with_reducible assumption
    | (extract_lets +onlyGivenNames s1; refine State.Kept.cut (s := s1) (p := pq) ?_ (fun _ => ?_); rotate_left; clear_value s1; rotate_left; dsimp -zeta only [s1]; clear s1)
    | with_reducible apply State.modMtr_kept
    | with_reducible apply State.setSp_kept
    | with_reducible apply State.retractLoaded_kept
    | exact Sub.mono (by decide) hm
    | split

theorem State.spStep_kept (hm : Sub 0x10004 pq) (hI : s.Kept pq) : (State.spStep s).Kept pq := by
  unfold State.spStep
  repeat' first
    | with_reducible assumption
    | with_reducible apply State.modMtr_kept
    | with_reducible apply State.setSp_kept
    | exact Sub.mono (by decide) hm

theorem State.spCmd_kept {code : Nat} (hm : Sub 0x30004 pq) (hI : s.Kept pq) : OptKept pq (State.spCmd s code) := by
  unfold State.spCmd
  repeat' first
    | with_reducible assumption
    | (extract_lets +onlyGivenNames x1; clear_value x1)
    | with_reducible apply State.spStart_kept
    | with_reducible apply State.modMtr_kept
    | with_reducible apply State.spStop_kept
    | with_reducible apply State.spStep_kept
    | with_reducible apply State.spOff_kept
    | with_reducible apply OptKept.none
    | with_reducible apply OptKept.some
    | exact Sub.mono (by decide) hm
    | split

theorem State.spWrite_kept {code : Nat} (hm : Sub 0x30004 pq) (hI : s.Kept pq) : (State.spWrite s code).Kept pq := by
  unfold State.spWrite
  repeat' first
    | with_reducible assumption
    | with_reducible apply State.spCmd_kept
    | with_reducible apply State.mtrInt_kept
    | with_reducible apply OptKept.getD
    | exact Sub.mono (by decide) hm

theorem State.afterRetract_kept (hm : Sub 0x10004 pq) (hI : s.Kept pq) : (State.afterRetract s).Kept pq := by
  unfold State.afterRetract
  repeat' first
    | with_reducible assumption
    | (extract_lets +onlyGivenNames s1; refine State.Kept.cut (s := s1) (p := pq) ?_ (fun _ => ?_); rotate_left; clear_value s1; rotate_left; dsimp -zeta only [s1]; clear s1)
    | (extract_lets +onlyGivenNames x1; clear_value x1)
    | with_reducible apply State.modMtr_kept
    | with_reducible apply State.spFail_kept
    | with_reducible apply State.setSp_kept
    | with_reducible apply State.genParked_kept
    | exact Sub.mono (by decide) hm
    | split

theorem State.hbLost_kept (hm : Sub 0x30004 pq) (hI : s.Kept pq) : (State.hbLost s).Kept pq := by
  unfold State.hbLost
  repeat' first
    | with_reducible assumption
    | (extract_lets +onlyGivenNames s1; refine State.Kept.cut (s := s1) (p := pq) ?_ (fun _ => ?_); rotate_left; clear_value s1; rotate_left; dsimp -zeta only [s1]; clear s1)
    | (extract_lets +onlyGivenNames x1; clear_value x1)
    | with_reducible apply State.modMtr_kept
    | with_reducible apply State.pdflt_kept
    | with_reducible apply State.spOff_kept
    | with_reducible apply State.autoRetract_kept
    | with_reducible apply State.setSp_kept
    | exact Sub.mono (by decide) hm
    | split

theorem State.regenLost_kept (hm : Sub 0x10000 pq) (hI : s.Kept pq) : (State.regenLost s).Kept pq := by
  unfold State.regenLost
  repeat' first
    | with_reducible assumption
    | with_reducible apply State.modMtr_kept

theorem execHeartbeat_kept (hm : Sub 0x10000 pq) (hI : s.Kept pq) : ∃ s1, execHeartbeat s = .next s1 ∧ s1.Kept pq := by
  unfold execHeartbeat
  refine ⟨_, rfl, ?_⟩
  repeat' first
    | with_reducible assumption
    | with_reducible apply State.modMtr_kept
    | split

theorem execHeartbeatKick_kept {x : Accessor} (hm : Sub 0x10008 pq) (hI : s.Kept pq) : ∃ s1, execHeartbeatKick x s = .next s1 ∧ s1.Kept pq := by
  unfold execHeartbeatKick
  refine ⟨_, rfl, ?_⟩
  repeat' first
    | with_reducible assumption
    | (intro x hx; beta_reduce)
    | with_reducible apply State.mtrAccess_kept
    | with_reducible apply State.modMtr_kept
    | exact Sub.mono (by decide) hm

theorem execHbtoExpiry_kept (hm : Sub 0x10000 pq) (hI : s.Kept pq) : ∃ s1, execHbtoExpiry s = .next s1 ∧ s1.Kept pq := by
  unfold execHbtoExpiry
  refine ⟨_, rfl, ?_⟩
  repeat' first
    | with_reducible assumption
    | with_reducible apply State.modMtr_kept

theorem execHeartbeatLoss_kept (hm : Sub 0x30004 pq) (hI : s.Kept pq) : ∃ s1, execHeartbeatLoss s = .next s1 ∧ s1.Kept pq := by
  unfold execHeartbeatLoss
  refine ⟨_, rfl, ?_⟩
  repeat' first
    | with_reducible assumption
    | with_reducible apply State.hbLost_kept
    | split

theorem execSpindleStart_kept {x : Accessor} (hm : Sub 0x3000C pq) (hI : s.Kept pq) : ∃ s1, execSpindleStart x s = .next s1 ∧ s1.Kept pq := by
  unfold execSpindleStart
  refine ⟨_, rfl, ?_⟩
  repeat' first
    | with_reducible assumption
    | (intro x hx; beta_reduce)
    | with_reducible apply State.mtrAccess_kept
    | with_reducible apply State.spWrite_kept
    | exact Sub.mono (by decide) hm

theorem execSpindleStop_kept {x : Accessor} (hm : Sub 0x3000C pq) (hI : s.Kept pq) : ∃ s1, execSpindleStop x s = .next s1 ∧ s1.Kept pq := by
  unfold execSpindleStop
  refine ⟨_, rfl, ?_⟩
  repeat' first
    | with_reducible assumption
    | (intro x hx; beta_reduce)
    | with_reducible apply State.mtrAccess_kept
    | with_reducible apply State.spWrite_kept
    | exact Sub.mono (by decide) hm

theorem execSpindleStep_kept {x : Accessor} (hm : Sub 0x3000C pq) (hI : s.Kept pq) : ∃ s1, execSpindleStep x s = .next s1 ∧ s1.Kept pq := by
  unfold execSpindleStep
  refine ⟨_, rfl, ?_⟩
  repeat' first
    | with_reducible assumption
    | (intro x hx; beta_reduce)
    | with_reducible apply State.mtrAccess_kept
    | with_reducible apply State.spWrite_kept
    | exact Sub.mono (by decide) hm

theorem execCoast_kept {x : Accessor} (hm : Sub 0x3000C pq) (hI : s.Kept pq) : ∃ s1, execCoast x s = .next s1 ∧ s1.Kept pq := by
  unfold execCoast
  refine ⟨_, rfl, ?_⟩
  repeat' first
    | with_reducible assumption
    | (intro x hx; beta_reduce)
    | with_reducible apply State.mtrAccess_kept
    | with_reducible apply State.spWrite_kept
    | exact Sub.mono (by decide) hm

theorem execClrflt_kept {x : Accessor} (hm : Sub 0x3000C pq) (hI : s.Kept pq) : ∃ s1, execClrflt x s = .next s1 ∧ s1.Kept pq := by
  unfold execClrflt
  refine ⟨_, rfl, ?_⟩
  repeat' first
    | with_reducible assumption
    | (intro x hx; beta_reduce)
    | with_reducible apply State.mtrAccess_kept
    | with_reducible apply State.spWrite_kept
    | exact Sub.mono (by decide) hm

theorem execSpindleCmdIgnored_kept {x : Accessor} {data : Word} (hm : Sub 0x3000C pq) (hI : s.Kept pq) : ∃ s1, execSpindleCmdIgnored x data s = .next s1 ∧ s1.Kept pq := by
  unfold execSpindleCmdIgnored
  refine ⟨_, rfl, ?_⟩
  repeat' first
    | with_reducible assumption
    | (intro x hx; beta_reduce)
    | with_reducible apply State.mtrAccess_kept
    | with_reducible apply State.mtrInt_kept
    | exact Sub.mono (by decide) hm
    | split

theorem State.retCmd_kept {r : Side} {data : Word} (hm : Sub 0x30000 pq) (hI : s.Kept pq) : (State.retCmd s r data).Kept pq := by
  unfold State.retCmd
  repeat' first
    | with_reducible assumption
    | (intro x y hx; beta_reduce)
    | with_reducible apply State.retract_kept
    | with_reducible apply State.Kept.foldl
    | split

theorem execRetractCommand_kept {x : Accessor} {data : Word} (hm : Sub 0x30008 pq) (hI : s.Kept pq) : ∃ s1, execRetractCommand x data s = .next s1 ∧ s1.Kept pq := by
  unfold execRetractCommand
  refine ⟨_, rfl, ?_⟩
  repeat' first
    | with_reducible assumption
    | (intro x hx; beta_reduce)
    | with_reducible apply State.access_kept
    | with_reducible apply State.retCmd_kept
    | exact Sub.mono (by decide) hm

theorem State.probeEnd_kept {rev : Bool} {rpm : Nat} (hm : Sub 0x10014 pq) (hI : s.Kept pq) : (State.probeEnd s rev rpm).Kept pq := by
  unfold State.probeEnd
  repeat' first
    | with_reducible assumption
    | (extract_lets +onlyGivenNames s1; refine State.Kept.cut (s := s1) (p := pq) ?_ (fun _ => ?_); rotate_left; clear_value s1; rotate_left; dsimp -zeta only [s1]; clear s1)
    | (extract_lets +onlyGivenNames x1; clear_value x1)
    | with_reducible apply State.setReg_kept
    | with_reducible apply State.observe_kept
    | with_reducible apply State.setSp_kept
    | with_reducible apply State.modMtr_kept
    | exact Sub.mono (by decide) hm
    | split

theorem execProbeEnd_kept {rev : Bool} {rpm : BitVec 16} (hm : Sub 0x10014 pq) (hI : s.Kept pq) : ∃ s1, execProbeEnd rev rpm s = .next s1 ∧ s1.Kept pq := by
  unfold execProbeEnd
  refine ⟨_, rfl, ?_⟩
  repeat' first
    | with_reducible assumption
    | with_reducible apply State.probeEnd_kept
    | split

theorem execIpdDone_kept (hm : Sub 0x10004 pq) (hI : s.Kept pq) : ∃ s1, execIpdDone s = .next s1 ∧ s1.Kept pq := by
  unfold execIpdDone
  refine ⟨_, rfl, ?_⟩
  repeat' first
    | with_reducible assumption
    | with_reducible apply State.setSp_kept
    | split

theorem execKickObserverValid_kept (hm : Sub 0x10014 pq) (hI : s.Kept pq) : ∃ s1, execKickObserverValid s = .next s1 ∧ s1.Kept pq := by
  unfold execKickObserverValid
  refine ⟨_, rfl, ?_⟩
  repeat' first
    | with_reducible assumption
    | with_reducible apply State.setSp_kept
    | exact Sub.mono (by decide) hm
    | split

theorem execKickTimeout_kept (hm : Sub 0x10004 pq) (hI : s.Kept pq) : ∃ s1, execKickTimeout s = .next s1 ∧ s1.Kept pq := by
  unfold execKickTimeout
  refine ⟨_, rfl, ?_⟩
  repeat' first
    | with_reducible assumption
    | (extract_lets +onlyGivenNames s1; refine State.Kept.cut (s := s1) (p := pq) ?_ (fun _ => ?_); rotate_left; clear_value s1; rotate_left; dsimp -zeta only [s1]; clear s1)
    | with_reducible apply State.modMtr_kept
    | with_reducible apply State.spFail_kept
    | with_reducible apply State.setSp_kept
    | exact Sub.mono (by decide) hm
    | split

theorem execAtSpeedSet_kept (hm : Sub 0x10004 pq) (hI : s.Kept pq) : ∃ s1, execAtSpeedSet s = .next s1 ∧ s1.Kept pq := by
  unfold execAtSpeedSet
  refine ⟨_, rfl, ?_⟩
  repeat' first
    | with_reducible assumption
    | with_reducible apply State.modMtr_kept
    | with_reducible apply State.mtrInt_kept
    | exact Sub.mono (by decide) hm
    | split

theorem execAtSpeedClear_kept (hm : Sub 0x10000 pq) (hI : s.Kept pq) : ∃ s1, execAtSpeedClear s = .next s1 ∧ s1.Kept pq := by
  unfold execAtSpeedClear
  refine ⟨_, rfl, ?_⟩
  repeat' first
    | with_reducible assumption
    | with_reducible apply State.modMtr_kept
    | split

theorem execSpinupTimeout_kept (hm : Sub 0x10004 pq) (hI : s.Kept pq) : ∃ s1, execSpinupTimeout s = .next s1 ∧ s1.Kept pq := by
  unfold execSpinupTimeout
  refine ⟨_, rfl, ?_⟩
  repeat' first
    | with_reducible assumption
    | with_reducible apply State.spFail_kept
    | split

theorem execStepComplete_kept (hm : Sub 0x10004 pq) (hI : s.Kept pq) : ∃ s1, execStepComplete s = .next s1 ∧ s1.Kept pq := by
  unfold execStepComplete
  refine ⟨_, rfl, ?_⟩
  repeat' first
    | with_reducible assumption
    | with_reducible apply State.modMtr_kept
    | with_reducible apply State.setSp_kept
    | exact Sub.mono (by decide) hm
    | split

theorem execBrakeComplete_kept (hm : Sub 0x30004 pq) (hI : s.Kept pq) : ∃ s1, execBrakeComplete s = .next s1 ∧ s1.Kept pq := by
  unfold execBrakeComplete
  refine ⟨_, rfl, ?_⟩
  repeat' first
    | with_reducible assumption
    | with_reducible apply State.modMtr_kept
    | with_reducible apply State.setSp_kept
    | with_reducible apply State.spOff_kept
    | exact Sub.mono (by decide) hm
    | split

theorem execChopperEngage_kept {vmot : BitVec 16} (hm : Sub 0x10004 pq) (hI : s.Kept pq) : ∃ s1, execChopperEngage vmot s = .next s1 ∧ s1.Kept pq := by
  unfold execChopperEngage
  refine ⟨_, rfl, ?_⟩
  repeat' first
    | with_reducible assumption
    | with_reducible apply State.modMtr_kept
    | with_reducible apply State.bump_kept
    | exact Sub.mono (by decide) hm
    | split

theorem execChopperRelease_kept {vmot : BitVec 16} (hm : Sub 0x10000 pq) (hI : s.Kept pq) : ∃ s1, execChopperRelease vmot s = .next s1 ∧ s1.Kept pq := by
  unfold execChopperRelease
  refine ⟨_, rfl, ?_⟩
  repeat' first
    | with_reducible assumption
    | with_reducible apply State.modMtr_kept
    | split

theorem State.chopTest_kept (hm : Sub 0x4 pq) (hI : s.Kept pq) : (State.chopTest s).Kept pq := by
  unfold State.chopTest
  repeat' first
    | with_reducible assumption
    | with_reducible apply State.setReg_kept
    | split

theorem execChopperSelftest_kept {x : Accessor} (hm : Sub 0xC pq) (hI : s.Kept pq) : ∃ s1, execChopperSelftest x s = .next s1 ∧ s1.Kept pq := by
  unfold execChopperSelftest
  refine ⟨_, rfl, ?_⟩
  repeat' first
    | with_reducible assumption
    | (intro x hx; beta_reduce)
    | with_reducible apply State.mtrAccess_kept
    | with_reducible apply State.chopTest_kept
    | exact Sub.mono (by decide) hm

theorem execChopperSelftestDone_kept {vmot : BitVec 16} {on : BitVec 16} {off : BitVec 16} (hm : Sub 0x10004 pq) (hI : s.Kept pq) : ∃ s1, execChopperSelftestDone vmot on off s = .next s1 ∧ s1.Kept pq := by
  unfold execChopperSelftestDone
  refine ⟨_, rfl, ?_⟩
  repeat' first
    | with_reducible assumption
    | with_reducible apply State.setReg_kept
    | with_reducible apply State.modMtr_kept
    | with_reducible apply State.mtrInt_kept
    | exact Sub.mono (by decide) hm
    | split

theorem execChopperFault_kept {rising : Bool} {vmot : BitVec 16} {cur : BitVec 16} (hm : Sub 0x10004 pq) (hI : s.Kept pq) : ∃ s1, execChopperFault rising vmot cur s = .next s1 ∧ s1.Kept pq := by
  unfold execChopperFault
  refine ⟨_, rfl, ?_⟩
  repeat' first
    | with_reducible assumption
    | (extract_lets +onlyGivenNames s1; refine State.Kept.cut (s := s1) (p := pq) ?_ (fun _ => ?_); rotate_left; clear_value s1; rotate_left; dsimp -zeta only [s1]; clear s1)
    | with_reducible apply State.modMtr_kept
    | with_reducible apply State.regenLost_kept
    | with_reducible apply State.pdflt_kept
    | with_reducible apply State.mtrInt_kept
    | exact Sub.mono (by decide) hm
    | split

theorem execOvervoltageClamp_kept {vmot : BitVec 16} (hm : Sub 0x10004 pq) (hI : s.Kept pq) : ∃ s1, execOvervoltageClamp vmot s = .next s1 ∧ s1.Kept pq := by
  unfold execOvervoltageClamp
  refine ⟨_, rfl, ?_⟩
  repeat' first
    | with_reducible assumption
    | with_reducible apply State.modMtr_kept
    | with_reducible apply State.regenLost_kept
    | with_reducible apply State.pdflt_kept
    | with_reducible apply State.mtrInt_kept
    | exact Sub.mono (by decide) hm
    | split

theorem execClampRelease_kept {vmot : BitVec 16} (hm : Sub 0x10004 pq) (hI : s.Kept pq) : ∃ s1, execClampRelease vmot s = .next s1 ∧ s1.Kept pq := by
  unfold execClampRelease
  refine ⟨_, rfl, ?_⟩
  repeat' first
    | with_reducible assumption
    | with_reducible apply State.modMtr_kept
    | with_reducible apply State.setSp_kept
    | exact Sub.mono (by decide) hm
    | split

theorem execOvercurrentTrip_kept {succ : Bool} {cur : BitVec 16} (hm : Sub 0x10004 pq) (hI : s.Kept pq) : ∃ s1, execOvercurrentTrip succ cur s = .next s1 ∧ s1.Kept pq := by
  unfold execOvercurrentTrip
  refine ⟨_, rfl, ?_⟩
  repeat' first
    | with_reducible assumption
    | (extract_lets +onlyGivenNames s1; refine State.Kept.cut (s := s1) (p := pq) ?_ (fun _ => ?_); rotate_left; clear_value s1; rotate_left; dsimp -zeta only [s1]; clear s1)
    | with_reducible apply State.modMtr_kept
    | with_reducible apply State.bump_kept
    | with_reducible apply State.setSp_kept
    | with_reducible apply State.pdflt_kept
    | with_reducible apply State.mtrInt_kept
    | exact Sub.mono (by decide) hm
    | split

theorem execIsolationFetClose_kept {vmot : BitVec 16} (hm : Sub 0x10000 pq) (hI : s.Kept pq) : ∃ s1, execIsolationFetClose vmot s = .next s1 ∧ s1.Kept pq := by
  unfold execIsolationFetClose
  refine ⟨_, rfl, ?_⟩
  repeat' first
    | with_reducible assumption
    | with_reducible apply State.modMtr_kept
    | split

theorem execGenLowVmotRetract_kept {vmot : BitVec 16} (hm : Sub 0x30004 pq) (hI : s.Kept pq) : ∃ s1, execGenLowVmotRetract vmot s = .next s1 ∧ s1.Kept pq := by
  unfold execGenLowVmotRetract
  refine ⟨_, rfl, ?_⟩
  repeat' first
    | with_reducible assumption
    | with_reducible apply State.pdflt_kept
    | with_reducible apply State.autoRetract_kept
    | with_reducible apply State.genParked_kept
    | exact Sub.mono (by decide) hm
    | split

theorem execVmotCollapse_kept {vmot : BitVec 16} (hm : Sub 0x30004 pq) (hI : s.Kept pq) : ∃ s1, execVmotCollapse vmot s = .next s1 ∧ s1.Kept pq := by
  unfold execVmotCollapse
  refine ⟨_, rfl, ?_⟩
  repeat' first
    | with_reducible assumption
    | (extract_lets +onlyGivenNames s1; refine State.Kept.cut (s := s1) (p := pq) ?_ (fun _ => ?_); rotate_left; clear_value s1; rotate_left; dsimp -zeta only [s1]; clear s1)
    | with_reducible apply State.modMtr_kept
    | with_reducible apply State.pdflt_kept
    | with_reducible apply State.spOff_kept
    | exact Sub.mono (by decide) hm
    | split

theorem execPowerReturn_kept (hm : Sub 0x10004 pq) (hI : s.Kept pq) : ∃ s1, execPowerReturn s = .next s1 ∧ s1.Kept pq := by
  unfold execPowerReturn
  refine ⟨_, rfl, ?_⟩
  repeat' first
    | with_reducible assumption
    | (extract_lets +onlyGivenNames s1; refine State.Kept.cut (s := s1) (p := pq) ?_ (fun _ => ?_); rotate_left; clear_value s1; rotate_left; dsimp -zeta only [s1]; clear s1)
    | with_reducible apply State.modMtr_kept
    | with_reducible apply State.setSp_kept
    | with_reducible apply State.mtrInt_kept
    | exact Sub.mono (by decide) hm
    | split

theorem execRetractDone_kept {a : Side} {emf : BitVec 16} {cur : BitVec 16} (hm : Sub 0x10004 pq) (hI : s.Kept pq) : ∃ s1, execRetractDone a emf cur s = .next s1 ∧ s1.Kept pq := by
  unfold execRetractDone
  refine ⟨_, rfl, ?_⟩
  repeat' first
    | with_reducible assumption
    | (extract_lets +onlyGivenNames s1; refine State.Kept.cut (s := s1) (p := pq) ?_ (fun _ => ?_); rotate_left; clear_value s1; rotate_left; dsimp -zeta only [s1]; clear s1)
    | with_reducible apply State.modMtr_kept
    | with_reducible apply State.mtrInt_kept
    | with_reducible apply State.afterRetract_kept
    | exact Sub.mono (by decide) hm
    | split

theorem execRetractTimeout_kept {a : Side} {ms : BitVec 16} (hm : Sub 0x210004 pq) (hI : s.Kept pq) : ∃ s1, execRetractTimeout a ms s = .next s1 ∧ s1.Kept pq := by
  unfold execRetractTimeout
  refine ⟨_, rfl, ?_⟩
  repeat' first
    | with_reducible assumption
    | (extract_lets +onlyGivenNames s1; refine State.Kept.cut (s := s1) (p := pq) ?_ (fun _ => ?_); rotate_left; clear_value s1; rotate_left; dsimp -zeta only [s1]; clear s1)
    | with_reducible apply State.modMtr_kept
    | with_reducible apply State.modRedun_kept
    | with_reducible apply State.pdflt_kept
    | with_reducible apply State.mtrInt_kept
    | with_reducible apply State.afterRetract_kept
    | exact Sub.mono (by decide) hm
    | split

theorem execPowerDieThermalTrip_kept (hm : Sub 0x30004 pq) (hI : s.Kept pq) : ∃ s1, execPowerDieThermalTrip s = .next s1 ∧ s1.Kept pq := by
  unfold execPowerDieThermalTrip
  refine ⟨_, rfl, ?_⟩
  repeat' first
    | with_reducible assumption
    | with_reducible apply State.pdflt_kept
    | with_reducible apply State.hbLost_kept
    | exact Sub.mono (by decide) hm

theorem execPowerDiePowerOn_kept (hm : Sub 0x10004 pq) (hI : s.Kept pq) : ∃ s1, execPowerDiePowerOn s = .next s1 ∧ s1.Kept pq := by
  unfold execPowerDiePowerOn
  refine ⟨_, rfl, ?_⟩
  repeat' first
    | with_reducible assumption
    | (extract_lets +onlyGivenNames s1; refine State.Kept.cut (s := s1) (p := pq) ?_ (fun _ => ?_); rotate_left; clear_value s1; rotate_left; dsimp -zeta only [s1]; clear s1)
    | with_reducible apply State.setReg_kept
    | with_reducible apply State.modMtr_kept
    | exact Sub.mono (by decide) hm

theorem execV5Undervoltage_kept {v5 : BitVec 16} (hm : Sub 0x4 pq) (hI : s.Kept pq) : ∃ s1, execV5Undervoltage v5 s = .next s1 ∧ s1.Kept pq := by
  unfold execV5Undervoltage
  refine ⟨_, rfl, ?_⟩
  repeat' first
    | with_reducible assumption
    | with_reducible apply State.pdflt_kept
    | split

theorem State.sparePlace_kept {ch : Nat} (hm : Sub 0x10000 pq) (hI : s.Kept pq) : (State.sparePlace s ch).Kept pq := by
  unfold State.sparePlace
  repeat' first
    | with_reducible assumption
    | with_reducible apply State.modMtr_kept
    | split

theorem execCurrentSenseSpare_kept {x : Accessor} {ch : BitVec 2} (hm : Sub 0x1000C pq) (hI : s.Kept pq) : ∃ s1, execCurrentSenseSpare x ch s = .next s1 ∧ s1.Kept pq := by
  unfold execCurrentSenseSpare
  refine ⟨_, rfl, ?_⟩
  repeat' first
    | with_reducible assumption
    | (intro x hx; beta_reduce)
    | with_reducible apply State.mtrAccess_kept
    | with_reducible apply State.modReg_kept
    | with_reducible apply State.sparePlace_kept
    | exact Sub.mono (by decide) hm

theorem execCurrentSenseSpareReturn_kept (hm : Sub 0x30000 pq) (hI : s.Kept pq) : ∃ s1, execCurrentSenseSpareReturn s = .next s1 ∧ s1.Kept pq := by
  unfold execCurrentSenseSpareReturn
  refine ⟨_, rfl, ?_⟩
  repeat' first
    | with_reducible assumption
    | with_reducible apply State.modMtr_kept
    | with_reducible apply State.handBack_kept
    | exact Sub.mono (by decide) hm
    | split

end Sys2Proof.Machine
end

