-- ==== Sys2Proof/Laws/KeptMonitor.lean ====
section
/-!
SUPPORT. The operations of Machine/Monitor.lean keep what they do not write.
-/
set_option Elab.async false
set_option linter.unusedTactic false
set_option linter.unreachableTactic false
namespace Sys2Proof.Machine

variable {pq : Nat × State} {s : State}

theorem State.monInt_kept {i : Nat} (hm : Sub 0x4 pq) (hI : s.Kept pq) : (State.monInt s i).Kept pq := by
  unfold State.monInt
  repeat' first
    | with_reducible assumption
    | with_reducible apply State.setStat_kept

theorem State.setTrim_kept {n : Nat} {v : Byte} (hm : Sub 0x20000 pq) (hI : s.Kept pq) : (State.setTrim s n v).Kept pq := by
  unfold State.setTrim
  repeat' first
    | with_reducible assumption
    | with_reducible apply State.modMon_kept

theorem State.trimWrite_kept {data : Word} (hm : Sub 0x20004 pq) (hI : s.Kept pq) : (State.trimWrite s data).Kept pq := by
  unfold State.trimWrite
  repeat' first
    | with_reducible assumption
    | with_reducible apply State.setTrim_kept
    | with_reducible apply State.monInt_kept
    | exact Sub.mono (by decide) hm
    | split

theorem State.calWrite_kept {r : Side} {addr : Nat} {bs : List Byte} (hm : Sub 0x4000 pq) (hI : s.Kept pq) : (State.calWrite s r addr bs).Kept pq := by
  unfold State.calWrite
  repeat' first
    | with_reducible assumption
    | with_reducible apply State.dramWrite_kept
    | split

theorem State.calOutcome_kept {r : Side} {addr : Nat} {outcome : Nat} {reason : Nat} (hm : Sub 0x4000 pq) (hI : s.Kept pq) : (State.calOutcome s r addr outcome reason).Kept pq := by
  unfold State.calOutcome
  repeat' first
    | with_reducible assumption
    | with_reducible apply State.calWrite_kept

theorem State.openWindow_kept {a : Side} (hm : Sub 0x30000 pq) (hI : s.Kept pq) : (State.openWindow s a).Kept pq := by
  unfold State.openWindow
  repeat' first
    | with_reducible assumption
    | with_reducible apply State.modMon_kept
    | with_reducible apply State.modMtr_kept
    | exact Sub.mono (by decide) hm
    | split

theorem State.calTakeCover_kept {x : CalRun} (hm : Sub 0x30024 pq) (hI : s.Kept pq) : (State.calTakeCover s x).Kept pq := by
  unfold State.calTakeCover
  repeat' first
    | with_reducible assumption
    | with_reducible apply State.spareTake_kept
    | with_reducible apply State.modReg_kept
    | with_reducible apply State.sparePlace_kept
    | with_reducible apply State.openWindow_kept
    | exact Sub.mono (by decide) hm
    | split

theorem State.calReturnCover_kept {x : CalRun} (hm : Sub 0x30024 pq) (hI : s.Kept pq) : (State.calReturnCover s x).Kept pq := by
  unfold State.calReturnCover
  repeat' first
    | with_reducible assumption
    | with_reducible apply State.modTile_kept
    | with_reducible apply State.modReg_kept
    | with_reducible apply State.modMtr_kept
    | with_reducible apply State.dropWindow_kept
    | exact Sub.mono (by decide) hm
    | split

theorem State.modRun_kept {addr : Nat} {f : CalRun → CalRun} (hm : Sub 0x20000 pq) (hI : s.Kept pq) : (State.modRun s addr f).Kept pq := by
  unfold State.modRun
  repeat' first
    | with_reducible assumption
    | with_reducible apply State.modMon_kept

theorem State.calEnd_kept {x : CalRun} (hm : Sub 0x30024 pq) (hI : s.Kept pq) : (State.calEnd s x).Kept pq := by
  unfold State.calEnd
  repeat' first
    | with_reducible assumption
    | with_reducible apply State.calReturnCover_kept
    | with_reducible apply State.modMon_kept
    | exact Sub.mono (by decide) hm

theorem State.calBegin_kept {r : Side} {addr : Nat} {d : CalDesc} {t : Quad} (hm : Sub 0x34024 pq) (hI : s.Kept pq) : (State.calBegin s r addr d t).Kept pq := by
  unfold State.calBegin
  repeat' first
    | with_reducible assumption
    | (extract_lets +onlyGivenNames s1; refine State.Kept.cut (s := s1) (p := pq) ?_ (fun _ => ?_); rotate_left; clear_value s1; rotate_left; dsimp -zeta only [s1]; clear s1)
    | (extract_lets +onlyGivenNames x1; clear_value x1)
    | with_reducible apply State.calOutcome_kept
    | with_reducible apply State.modMon_kept
    | with_reducible apply State.modRun_kept
    | with_reducible apply State.calTakeCover_kept
    | exact Sub.mono (by decide) hm
    | split

theorem execCalibrationStart_kept {r : Side} {addr : BitVec 48} {t : Quad} {request : Bool} (hm : Sub 0x34226 pq) (hI : s.Kept pq) : ∃ s1, execCalibrationStart r addr t request s = .next s1 ∧ s1.Kept pq := by
  unfold execCalibrationStart
  refine ⟨_, rfl, ?_⟩
  repeat' first
    | with_reducible assumption
    | with_reducible apply State.calBegin_kept
    | with_reducible apply State.calOutcome_kept
    | with_reducible apply State.event_kept
    | exact Sub.mono (by decide) hm
    | split

theorem State.calPut_kept {x : CalRun} {v : Int} (hm : Sub 0x20094 pq) (hI : s.Kept pq) : (State.calPut s x v).Kept pq := by
  unfold State.calPut
  repeat' first
    | with_reducible assumption
    | (extract_lets +onlyGivenNames x1; clear_value x1)
    | with_reducible apply State.setReg_kept
    | with_reducible apply State.modLink_kept
    | with_reducible apply State.heater_kept
    | with_reducible apply State.modAng_kept
    | with_reducible apply State.setTrim_kept
    | with_reducible apply State.monInt_kept
    | exact Sub.mono (by decide) hm
    | split

theorem State.calInertia_kept {x : CalRun} {v : Int} (hm : Sub 0x20094 pq) (hI : s.Kept pq) : (State.calInertia s x v).Kept pq := by
  unfold State.calInertia
  repeat' first
    | with_reducible assumption
    | (extract_lets +onlyGivenNames x1; clear_value x1)
    | with_reducible apply State.calPut_kept
    | with_reducible apply State.modMon_kept
    | exact Sub.mono (by decide) hm
    | split

theorem State.pairApply_kept {l : Side} {rows : List (BitVec 12)} (hm : Sub 0x80 pq) (hI : s.Kept pq) : (State.pairApply s l rows).Kept pq := by
  unfold State.pairApply
  repeat' first
    | with_reducible assumption
    | (extract_lets +onlyGivenNames x1; clear_value x1)
    | with_reducible apply State.modLink_kept

theorem State.assistFails_kept {x : CalRun} (hm : Sub 0x20000 pq) (hI : s.Kept pq) : (State.assistFails s x).Kept pq := by
  unfold State.assistFails
  repeat' first
    | with_reducible assumption
    | with_reducible apply State.modMon_kept
    | split

theorem State.calResult_kept {x : CalRun} {d : CalDesc} {v : Int} {given : Int} {pairs : List (BitVec 12)} (hm : Sub 0x342B6 pq) (hI : s.Kept pq) : (State.calResult s x d v given pairs).Kept pq := by
  unfold State.calResult
  repeat' first
    | with_reducible assumption
    | (extract_lets +onlyGivenNames s1; refine State.Kept.cut (s := s1) (p := pq) ?_ (fun _ => ?_); rotate_left; clear_value s1; rotate_left; dsimp -zeta only [s1]; clear s1)
    | (extract_lets +onlyGivenNames x1; clear_value x1)
    | with_reducible apply State.calWrite_kept
    | with_reducible apply State.modRun_kept
    | with_reducible apply State.calEnd_kept
    | with_reducible apply State.calOutcome_kept
    | with_reducible apply State.event_kept
    | with_reducible apply State.assistFails_kept
    | with_reducible apply State.pairApply_kept
    | with_reducible apply State.calInertia_kept
    | exact Sub.mono (by decide) hm
    | split

theorem execCalibrationResult_kept {addr : BitVec 48} {res : Word} {given : Word} {pairs : List (BitVec 12)} (hm : Sub 0x342B6 pq) (hI : s.Kept pq) : ∃ s1, execCalibrationResult addr res given pairs s = .next s1 ∧ s1.Kept pq := by
  unfold execCalibrationResult
  refine ⟨_, rfl, ?_⟩
  repeat' first
    | with_reducible assumption
    | with_reducible apply State.calResult_kept
    | split

theorem State.calStep_kept {x : CalRun} {d : CalDesc} (hm : Sub 0x300B4 pq) (hI : s.Kept pq) : (State.calStep s x d).Kept pq := by
  unfold State.calStep
  repeat' first
    | with_reducible assumption
    | (extract_lets +onlyGivenNames s1; refine State.Kept.cut (s := s1) (p := pq) ?_ (fun _ => ?_); rotate_left; clear_value s1; rotate_left; dsimp -zeta only [s1]; clear s1)
    | (extract_lets +onlyGivenNames x1; clear_value x1)
    | with_reducible apply State.calPut_kept
    | with_reducible apply State.calEnd_kept
    | with_reducible apply State.modRun_kept
    | with_reducible apply State.calReturnCover_kept
    | exact Sub.mono (by decide) hm
    | split

theorem State.calApply_kept {x : CalRun} {d : CalDesc} (hm : Sub 0x300B4 pq) (hI : s.Kept pq) : (State.calApply s x d).Kept pq := by
  unfold State.calApply
  repeat' first
    | with_reducible assumption
    | (extract_lets +onlyGivenNames s1; refine State.Kept.cut (s := s1) (p := pq) ?_ (fun _ => ?_); rotate_left; clear_value s1; rotate_left; dsimp -zeta only [s1]; clear s1)
    | (extract_lets +onlyGivenNames x1; clear_value x1)
    | with_reducible apply State.pairApply_kept
    | with_reducible apply State.calEnd_kept
    | with_reducible apply State.calTakeCover_kept
    | with_reducible apply State.calStep_kept
    | exact Sub.mono (by decide) hm
    | split

theorem execCalibrationApplyStep_kept {addr : BitVec 48} (hm : Sub 0x340B4 pq) (hI : s.Kept pq) : ∃ s1, execCalibrationApplyStep addr s = .next s1 ∧ s1.Kept pq := by
  unfold execCalibrationApplyStep
  refine ⟨_, rfl, ?_⟩
  repeat' first
    | with_reducible assumption
    | with_reducible apply State.calApply_kept
    | exact Sub.mono (by decide) hm
    | split

theorem State.calAbort_kept {r : Side} {x : CalRun} {n : Nat} (hm : Sub 0x34226 pq) (hI : s.Kept pq) : (State.calAbort s r x n).Kept pq := by
  unfold State.calAbort
  repeat' first
    | with_reducible assumption
    | (extract_lets +onlyGivenNames s1; refine State.Kept.cut (s := s1) (p := pq) ?_ (fun _ => ?_); rotate_left; clear_value s1; rotate_left; dsimp -zeta only [s1]; clear s1)
    | with_reducible apply State.calOutcome_kept
    | with_reducible apply State.calEnd_kept
    | with_reducible apply State.event_kept
    | exact Sub.mono (by decide) hm

theorem State.calAbortAll_kept {p : CalRun → Bool} {n : Nat} (hm : Sub 0x34226 pq) (hI : s.Kept pq) : (State.calAbortAll s p n).Kept pq := by
  unfold State.calAbortAll
  repeat' first
    | with_reducible assumption
    | (intro x y hx; beta_reduce)
    | with_reducible apply State.calAbort_kept
    | with_reducible apply State.Kept.foldl

theorem State.calFence_kept {r : Side} (hm : Sub 0x30024 pq) (hI : s.Kept pq) : (State.calFence s r).Kept pq := by
  unfold State.calFence
  repeat' first
    | with_reducible assumption
    | (extract_lets +onlyGivenNames s1; refine State.Kept.cut (s := s1) (p := pq) ?_ (fun _ => ?_); rotate_left; clear_value s1; rotate_left; dsimp -zeta only [s1]; clear s1)
    | (extract_lets +onlyGivenNames x1; clear_value x1)
    | (intro x y hx; beta_reduce)
    | with_reducible apply State.calReturnCover_kept
    | with_reducible apply State.modMon_kept
    | with_reducible apply State.Kept.foldl
    | exact Sub.mono (by decide) hm

theorem execCalibrationAbort_kept {addr : BitVec 48} (hm : Sub 0x34226 pq) (hI : s.Kept pq) : ∃ s1, execCalibrationAbort addr s = .next s1 ∧ s1.Kept pq := by
  unfold execCalibrationAbort
  refine ⟨_, rfl, ?_⟩
  repeat' first
    | with_reducible assumption
    | with_reducible apply State.calAbort_kept
    | split

theorem State.vcCal_kept {data : Word} (hm : Sub 0x30004 pq) (hI : s.Kept pq) : (State.vcCal s data).Kept pq := by
  unfold State.vcCal
  repeat' first
    | with_reducible assumption
    | with_reducible apply State.setReg_kept
    | with_reducible apply State.openWindow_kept
    | exact Sub.mono (by decide) hm

theorem execVcCalWindow_kept {x : Accessor} {data : Word} (hm : Sub 0x3000C pq) (hI : s.Kept pq) : ∃ s1, execVcCalWindow x data s = .next s1 ∧ s1.Kept pq := by
  unfold execVcCalWindow
  refine ⟨_, rfl, ?_⟩
  repeat' first
    | with_reducible assumption
    | (intro x hx; beta_reduce)
    | with_reducible apply State.access_kept
    | with_reducible apply State.vcCal_kept
    | exact Sub.mono (by decide) hm

theorem execVcCalDone_kept {act : Side} {ofs : BitVec 12} {us : BitVec 8} (hm : Sub 0x30004 pq) (hI : s.Kept pq) : ∃ s1, execVcCalDone act ofs us s = .next s1 ∧ s1.Kept pq := by
  unfold execVcCalDone
  refine ⟨_, rfl, ?_⟩
  repeat' first
    | with_reducible assumption
    | (extract_lets +onlyGivenNames s1; refine State.Kept.cut (s := s1) (p := pq) ?_ (fun _ => ?_); rotate_left; clear_value s1; rotate_left; dsimp -zeta only [s1]; clear s1)
    | with_reducible apply State.dropWindow_kept
    | with_reducible apply State.modReg_kept
    | with_reducible apply State.monInt_kept
    | exact Sub.mono (by decide) hm
    | split

theorem State.tempIn_kept {n : Nat} {t : BitVec 16} (hm : Sub 0x4 pq) (hI : s.Kept pq) : (State.tempIn s n t).Kept pq := by
  unfold State.tempIn
  repeat' first
    | with_reducible assumption
    | (extract_lets +onlyGivenNames s1; refine State.Kept.cut (s := s1) (p := pq) ?_ (fun _ => ?_); rotate_left; clear_value s1; rotate_left; dsimp -zeta only [s1]; clear s1)
    | with_reducible apply State.setReg_kept
    | with_reducible apply State.modReg_kept

theorem execThermalWarning_kept {n : BitVec 4} {t : BitVec 16} (hm : Sub 0x20206 pq) (hI : s.Kept pq) : ∃ s1, execThermalWarning n t s = .next s1 ∧ s1.Kept pq := by
  unfold execThermalWarning
  refine ⟨_, rfl, ?_⟩
  repeat' first
    | with_reducible assumption
    | (extract_lets +onlyGivenNames f1; refine State.Kept.fnCut2 (f := f1) (p := pq) ?_ (fun hf1 => ?_); rotate_left; clear_value f1; rotate_left; dsimp -zeta only [f1]; clear f1)
    | (extract_lets +onlyGivenNames s1; refine State.Kept.cut (s := s1) (p := pq) ?_ (fun _ => ?_); rotate_left; clear_value s1; rotate_left; dsimp -zeta only [s1]; clear s1)
    | with_reducible apply hf1
    | (intro x y hx; beta_reduce)
    | with_reducible apply State.tempIn_kept
    | with_reducible apply State.modMon_kept
    | with_reducible apply State.monInt_kept
    | with_reducible apply State.event_kept
    | exact Sub.mono (by decide) hm
    | split

theorem execPowerDieSensorRead_kept {t0 : BitVec 16} {t1 : BitVec 16} {t2 : BitVec 16} {t3 : BitVec 16} (hm : Sub 0x4 pq) (hI : s.Kept pq) : ∃ s1, execPowerDieSensorRead t0 t1 t2 t3 s = .next s1 ∧ s1.Kept pq := by
  unfold execPowerDieSensorRead
  refine ⟨_, rfl, ?_⟩
  repeat' first
    | with_reducible assumption
    | (intro x hx; beta_reduce)
    | with_reducible apply State.tempIn_kept
    | with_reducible apply State.modReg_kept
    | with_reducible apply State.monInt_kept
    | with_reducible apply State.Kept.foldl
    | split

theorem execVoltageFault_kept {n : BitVec 5} {mv : BitVec 16} (hm : Sub 0x20206 pq) (hI : s.Kept pq) : ∃ s1, execVoltageFault n mv s = .next s1 ∧ s1.Kept pq := by
  unfold execVoltageFault
  refine ⟨_, rfl, ?_⟩
  repeat' first
    | with_reducible assumption
    | (extract_lets +onlyGivenNames s1; refine State.Kept.cut (s := s1) (p := pq) ?_ (fun _ => ?_); rotate_left; clear_value s1; rotate_left; dsimp -zeta only [s1]; clear s1)
    | (extract_lets +onlyGivenNames x1; clear_value x1)
    | with_reducible apply State.modMon_kept
    | with_reducible apply State.setStat_kept
    | with_reducible apply State.monInt_kept
    | with_reducible apply State.event_kept
    | exact Sub.mono (by decide) hm
    | split

theorem execAvsUpdate_kept {rosc : List (BitVec 16)} {ms : Bool} (hm : Sub 0x20004 pq) (hI : s.Kept pq) : ∃ s1, execAvsUpdate rosc ms s = .next s1 ∧ s1.Kept pq := by
  unfold execAvsUpdate
  refine ⟨_, rfl, ?_⟩
  repeat' first
    | with_reducible assumption
    | (extract_lets +onlyGivenNames s1; refine State.Kept.cut (s := s1) (p := pq) ?_ (fun _ => ?_); rotate_left; clear_value s1; rotate_left; dsimp -zeta only [s1]; clear s1)
    | with_reducible apply State.modMon_kept
    | with_reducible apply State.modReg_kept
    | exact Sub.mono (by decide) hm

theorem execAvsClamp_kept (hm : Sub 0x206 pq) (hI : s.Kept pq) : ∃ s1, execAvsClamp s = .next s1 ∧ s1.Kept pq := by
  unfold execAvsClamp
  refine ⟨_, rfl, ?_⟩
  repeat' first
    | with_reducible assumption
    | (extract_lets +onlyGivenNames x1; clear_value x1)
    | with_reducible apply State.monInt_kept
    | with_reducible apply State.event_kept
    | exact Sub.mono (by decide) hm
    | split

end Sys2Proof.Machine
end

