-- ==== Sys2Proof/Laws/KeptZoneTable.lean ====
section
/-!
SUPPORT. The operations of Machine/ZoneTable.lean keep what they do not write.
-/
set_option Elab.async false
set_option linter.unusedTactic false
set_option linter.unreachableTactic false
namespace Sys2Proof.Machine

variable {pq : Nat × State} {s : State}

theorem State.putZent_kept {n : Nat} {e : ZEntry} (hm : Sub 0x80000 pq) (hI : s.Kept pq) : (State.putZent s n e).Kept pq := by
  unfold State.putZent
  repeat' first
    | with_reducible assumption
    | with_reducible apply State.modZtb_kept

theorem State.bumpGen_kept (hm : Sub 0x80000 pq) (hI : s.Kept pq) : (State.bumpGen s).Kept pq := by
  unfold State.bumpGen
  repeat' first
    | with_reducible assumption
    | with_reducible apply State.modZtb_kept

theorem State.ztbInt_kept {i : Nat} (hm : Sub 0x4 pq) (hI : s.Kept pq) : (State.ztbInt s i).Kept pq := by
  unfold State.ztbInt
  repeat' first
    | with_reducible assumption
    | with_reducible apply State.setStat_kept

theorem State.ztbWindow_kept {off : Nat} {data : Word} (hm : Sub 0x80004 pq) (hI : s.Kept pq) : (State.ztbWindow s off data).Kept pq := by
  unfold State.ztbWindow
  repeat' first
    | with_reducible assumption
    | (extract_lets +onlyGivenNames x1; clear_value x1)
    | with_reducible apply State.putZent_kept
    | with_reducible apply State.ztbInt_kept
    | with_reducible apply State.bumpGen_kept
    | exact Sub.mono (by decide) hm
    | split

theorem execZtbWindowWrite_kept {x : Accessor} {off : BitVec 22} {data : Word} (hm : Sub 0x8000C pq) (hI : s.Kept pq) : ∃ s1, execZtbWindowWrite x off data s = .next s1 ∧ s1.Kept pq := by
  unfold execZtbWindowWrite
  refine ⟨_, rfl, ?_⟩
  repeat' first
    | with_reducible assumption
    | (intro x hx; beta_reduce)
    | with_reducible apply State.access_kept
    | with_reducible apply State.ztbWindow_kept
    | exact Sub.mono (by decide) hm

theorem State.stgAdd_kept {i : Nat} {n : Int} (hm : Sub 0x80000 pq) (hI : s.Kept pq) : (State.stgAdd s i n).Kept pq := by
  unfold State.stgAdd
  repeat' first
    | with_reducible assumption
    | with_reducible apply State.putZent_kept
    | with_reducible apply State.bumpGen_kept

theorem State.deferCover_kept {ns : Nat} {b : Nat} {m : Nat} (hm : Sub 0x800000 pq) (hI : s.Kept pq) : (State.deferCover s ns b m).Kept pq := by
  unfold State.deferCover
  repeat' first
    | with_reducible assumption
    | with_reducible apply State.modWin_kept

theorem State.poisonClear_kept {ns : Nat} {b : Nat} {m : Nat} (hm : Sub 0x200000 pq) (hI : s.Kept pq) : (State.poisonClear s ns b m).Kept pq := by
  unfold State.poisonClear
  repeat' first
    | with_reducible assumption
    | with_reducible apply State.modRedun_kept

theorem State.zoneCleared_kept {i : Nat} {e : ZEntry} (hm : Sub 0xA00000 pq) (hI : s.Kept pq) : (State.zoneCleared s i e).Kept pq := by
  unfold State.zoneCleared
  repeat' first
    | with_reducible assumption
    | (extract_lets +onlyGivenNames s1; refine State.Kept.cut (s := s1) (p := pq) ?_ (fun _ => ?_); rotate_left; clear_value s1; rotate_left; dsimp -zeta only [s1]; clear s1)
    | with_reducible apply State.modWin_kept
    | with_reducible apply State.modRedun_kept
    | with_reducible apply State.deferCover_kept
    | with_reducible apply State.poisonClear_kept
    | exact Sub.mono (by decide) hm
    | split

theorem State.ztbDo_kept {i : Nat} {e : ZEntry} {w : DWord} (hm : Sub 0x80000 pq) (hI : s.Kept pq) : (State.ztbDo s i e w).Kept pq := by
  unfold State.ztbDo
  repeat' first
    | with_reducible assumption
    | with_reducible apply State.putZent_kept
    | with_reducible apply State.bumpGen_kept
    | split

theorem State.ztbUpdate_kept {c : CtxId} {w : DWord} (hm : Sub 0xA8000C pq) (hI : s.Kept pq) : (State.ztbUpdate s c w).Kept pq := by
  unfold State.ztbUpdate
  repeat' first
    | with_reducible assumption
    | (extract_lets +onlyGivenNames s1; refine State.Kept.cut (s := s1) (p := pq) ?_ (fun _ => ?_); rotate_left; clear_value s1; rotate_left; dsimp -zeta only [s1]; clear s1)
    | (extract_lets +onlyGivenNames x1; clear_value x1)
    | (intro x hx; beta_reduce)
    | with_reducible apply State.refuseCtx_kept
    | with_reducible apply State.zoneCleared_kept
    | with_reducible apply State.putZent_kept
    | with_reducible apply State.bumpGen_kept
    | with_reducible apply State.modZtb_kept
    | with_reducible apply State.ztbInt_kept
    | with_reducible apply when_kept
    | exact Sub.mono (by decide) hm
    | split

theorem execZtbState_kept {c : CtxId} {w : DWord} (hm : Sub 0xA8000C pq) (hI : s.Kept pq) : ∃ s1, execZtbState c w s = .next s1 ∧ s1.Kept pq := by
  unfold execZtbState
  refine ⟨_, rfl, ?_⟩
  repeat' first
    | with_reducible assumption
    | (intro x hx; beta_reduce)
    | with_reducible apply State.byCtx_kept
    | with_reducible apply State.ztbUpdate_kept

theorem execZtbWp_kept {c : CtxId} {w : DWord} (hm : Sub 0xA8000C pq) (hI : s.Kept pq) : ∃ s1, execZtbWp c w s = .next s1 ∧ s1.Kept pq := by
  unfold execZtbWp
  refine ⟨_, rfl, ?_⟩
  repeat' first
    | with_reducible assumption
    | (intro x hx; beta_reduce)
    | with_reducible apply State.byCtx_kept
    | with_reducible apply State.ztbUpdate_kept

theorem execZtbHwp_kept {c : CtxId} {w : DWord} (hm : Sub 0xA8000C pq) (hI : s.Kept pq) : ∃ s1, execZtbHwp c w s = .next s1 ∧ s1.Kept pq := by
  unfold execZtbHwp
  refine ⟨_, rfl, ?_⟩
  repeat' first
    | with_reducible assumption
    | (intro x hx; beta_reduce)
    | with_reducible apply State.byCtx_kept
    | with_reducible apply State.ztbUpdate_kept

theorem execZtbStgadd_kept {c : CtxId} {w : DWord} (hm : Sub 0xA8000C pq) (hI : s.Kept pq) : ∃ s1, execZtbStgadd c w s = .next s1 ∧ s1.Kept pq := by
  unfold execZtbStgadd
  refine ⟨_, rfl, ?_⟩
  repeat' first
    | with_reducible assumption
    | (intro x hx; beta_reduce)
    | with_reducible apply State.byCtx_kept
    | with_reducible apply State.ztbUpdate_kept

theorem execZtbReset_kept {c : CtxId} {w : DWord} (hm : Sub 0xA8000C pq) (hI : s.Kept pq) : ∃ s1, execZtbReset c w s = .next s1 ∧ s1.Kept pq := by
  unfold execZtbReset
  refine ⟨_, rfl, ?_⟩
  repeat' first
    | with_reducible assumption
    | (intro x hx; beta_reduce)
    | with_reducible apply State.byCtx_kept
    | with_reducible apply State.ztbUpdate_kept

theorem execZtbDegset_kept {c : CtxId} {w : DWord} (hm : Sub 0xA8000C pq) (hI : s.Kept pq) : ∃ s1, execZtbDegset c w s = .next s1 ∧ s1.Kept pq := by
  unfold execZtbDegset
  refine ⟨_, rfl, ?_⟩
  repeat' first
    | with_reducible assumption
    | (intro x hx; beta_reduce)
    | with_reducible apply State.byCtx_kept
    | with_reducible apply State.ztbUpdate_kept

theorem execZtbFree_kept {c : CtxId} {w : DWord} (hm : Sub 0xA8000C pq) (hI : s.Kept pq) : ∃ s1, execZtbFree c w s = .next s1 ∧ s1.Kept pq := by
  unfold execZtbFree
  refine ⟨_, rfl, ?_⟩
  repeat' first
    | with_reducible assumption
    | (intro x hx; beta_reduce)
    | with_reducible apply State.byCtx_kept
    | with_reducible apply State.ztbUpdate_kept

theorem execZtbUpdateRefused_kept {c : CtxId} {w : DWord} (hm : Sub 0xA8000C pq) (hI : s.Kept pq) : ∃ s1, execZtbUpdateRefused c w s = .next s1 ∧ s1.Kept pq := by
  unfold execZtbUpdateRefused
  refine ⟨_, rfl, ?_⟩
  repeat' first
    | with_reducible assumption
    | (intro x hx; beta_reduce)
    | with_reducible apply State.byCtx_kept
    | with_reducible apply State.ztbUpdate_kept
    | split

theorem State.scanGo_kept {data : Word} (hm : Sub 0x80004 pq) (hI : s.Kept pq) : (State.scanGo s data).Kept pq := by
  unfold State.scanGo
  repeat' first
    | with_reducible assumption
    | (extract_lets +onlyGivenNames s1; refine State.Kept.cut (s := s1) (p := pq) ?_ (fun _ => ?_); rotate_left; clear_value s1; rotate_left; dsimp -zeta only [s1]; clear s1)
    | (extract_lets +onlyGivenNames x1; clear_value x1)
    | with_reducible apply State.setReg_kept
    | with_reducible apply State.modZtb_kept
    | exact Sub.mono (by decide) hm
    | split

theorem execZoneScan_kept {x : Accessor} {data : Word} (hm : Sub 0x8000C pq) (hI : s.Kept pq) : ∃ s1, execZoneScan x data s = .next s1 ∧ s1.Kept pq := by
  unfold execZoneScan
  refine ⟨_, rfl, ?_⟩
  repeat' first
    | with_reducible assumption
    | (intro x hx; beta_reduce)
    | with_reducible apply State.access_kept
    | with_reducible apply State.scanGo_kept
    | exact Sub.mono (by decide) hm

theorem execZoneScanDone_kept (hm : Sub 0x80000 pq) (hI : s.Kept pq) : ∃ s1, execZoneScanDone s = .next s1 ∧ s1.Kept pq := by
  unfold execZoneScanDone
  refine ⟨_, rfl, ?_⟩
  repeat' first
    | with_reducible assumption
    | with_reducible apply State.modZtb_kept
    | split

end Sys2Proof.Machine
end

