-- ==== Sys2Proof/Laws/KeptLedger.lean ====
section
/-!
SUPPORT. The operations of Machine/Ledger.lean keep what they do not write.
-/
set_option Elab.async false
set_option linter.unusedTactic false
set_option linter.unreachableTactic false
namespace Sys2Proof.Machine

variable {pq : Nat × State} {s : State}

theorem State.rlgInt_kept {i : Nat} (hm : Sub 0x4 pq) (hI : s.Kept pq) : (State.rlgInt s i).Kept pq := by
  unfold State.rlgInt
  repeat' first
    | with_reducible assumption
    | with_reducible apply State.setStat_kept

theorem State.logL3_kept {x : Side} {h : Nat} (hm : Sub 0x100000 pq) (hI : s.Kept pq) : (State.logL3 s x h).Kept pq := by
  unfold State.logL3
  repeat' first
    | with_reducible assumption
    | with_reducible apply State.modMember_kept

theorem State.grant_kept {c : CtxId} {q : CreditReq} {esc : Bool} {n : Nat} (hm : Sub 0x108 pq) (hI : s.Kept pq) : (State.grant s c q esc n).Kept pq := by
  unfold State.grant
  repeat' first
    | with_reducible assumption
    | with_reducible apply State.modRlg_kept
    | with_reducible apply State.modCtx_kept
    | exact Sub.mono (by decide) hm

theorem State.creditWaitOn_kept {c : CtxId} {q : CreditReq} (hm : Sub 0x108 pq) (hI : s.Kept pq) : (State.creditWaitOn s c q).Kept pq := by
  unfold State.creditWaitOn
  repeat' first
    | with_reducible assumption
    | with_reducible apply State.modCtx_kept
    | with_reducible apply State.modRlg_kept
    | exact Sub.mono (by decide) hm

theorem State.acquire_kept {c : CtxId} {window : Bool} (hm : Sub 0x10C pq) (hI : s.Kept pq) : (State.acquire s c window).1.Kept pq := by
  unfold State.acquire
  repeat' first
    | with_reducible assumption
    | with_reducible apply State.rlgInt_kept
    | with_reducible apply State.creditWaitOn_kept
    | with_reducible apply State.grant_kept
    | exact Sub.mono (by decide) hm
    | split

theorem State.mediaReserve_kept {c : CtxId} (hm : Sub 0x104 pq) (hI : s.Kept pq) : (State.mediaReserve s c).1.Kept pq := by
  unfold State.mediaReserve
  repeat' first
    | with_reducible assumption
    | (extract_lets +onlyGivenNames x1; clear_value x1)
    | with_reducible apply State.rlgInt_kept
    | with_reducible apply State.modRlg_kept
    | exact Sub.mono (by decide) hm
    | split

theorem State.leaseDrop_kept {l : Lease} {amount : Nat} (hm : Sub 0x100 pq) (hI : s.Kept pq) : (State.leaseDrop s l amount).Kept pq := by
  unfold State.leaseDrop
  repeat' first
    | with_reducible assumption
    | with_reducible apply State.modRlg_kept

theorem State.creditRelease_kept {c : CtxId} {data : DWord} (hm : Sub 0x108 pq) (hI : s.Kept pq) : (State.creditRelease s c data).Kept pq := by
  unfold State.creditRelease
  repeat' first
    | with_reducible assumption
    | with_reducible apply State.refuseCtx_kept
    | with_reducible apply State.leaseDrop_kept
    | exact Sub.mono (by decide) hm
    | split

theorem State.bindBuffer_kept {c : CtxId} {buf : Nat} (hm : Sub 0x100 pq) (hI : s.Kept pq) : OptKept pq (State.bindBuffer s c buf) := by
  unfold State.bindBuffer
  repeat' first
    | with_reducible assumption
    | with_reducible apply State.modRlg_kept
    | with_reducible apply OptKept.none
    | with_reducible apply OptKept.some
    | split

theorem State.unbindBuffer_kept {r : Side} {buf : Nat} (hm : Sub 0x100 pq) (hI : s.Kept pq) : (State.unbindBuffer s r buf).Kept pq := by
  unfold State.unbindBuffer
  repeat' first
    | with_reducible assumption
    | with_reducible apply State.modRlg_kept
    | with_reducible apply State.leaseDrop_kept
    | split

theorem State.winReturn_kept {slots : Nat} (hm : Sub 0x100 pq) (hI : s.Kept pq) : (State.winReturn s slots).Kept pq := by
  unfold State.winReturn
  repeat' first
    | with_reducible assumption
    | with_reducible apply State.modRlg_kept

theorem State.escSeal_kept {c : CtxId} {x : Side} {key : Nat} (hm : Sub 0x100 pq) (hI : s.Kept pq) : (State.escSeal s c x key).Kept pq := by
  unfold State.escSeal
  repeat' first
    | with_reducible assumption
    | with_reducible apply State.modRlg_kept
    | split

theorem State.escReturn_kept {x : Side} {key : Nat} (hm : Sub 0x100 pq) (hI : s.Kept pq) : (State.escReturn s x key).Kept pq := by
  unfold State.escReturn
  repeat' first
    | with_reducible assumption
    | with_reducible apply State.modRlg_kept
    | split

theorem execCreditAcquire_kept {c : CtxId} {reg : BitVec 6} (hm : Sub 0x10C pq) (hI : s.Kept pq) : ∃ s1, execCreditAcquire c reg s = .next s1 ∧ s1.Kept pq := by
  unfold execCreditAcquire
  refine ⟨_, rfl, ?_⟩
  repeat' first
    | with_reducible assumption
    | (intro x hx; beta_reduce)
    | with_reducible apply State.byCtx_kept
    | with_reducible apply State.acquire_kept
    | with_reducible apply State.modCtx_kept
    | with_reducible apply State.refuseCtx_kept
    | exact Sub.mono (by decide) hm
    | split

theorem execWindowAdmit_kept {c : CtxId} {reg : BitVec 6} (hm : Sub 0x10C pq) (hI : s.Kept pq) : ∃ s1, execWindowAdmit c reg s = .next s1 ∧ s1.Kept pq := by
  unfold execWindowAdmit
  refine ⟨_, rfl, ?_⟩
  repeat' first
    | with_reducible assumption
    | (intro x hx; beta_reduce)
    | with_reducible apply State.byCtx_kept
    | with_reducible apply State.acquire_kept
    | with_reducible apply State.modCtx_kept
    | with_reducible apply State.refuseCtx_kept
    | exact Sub.mono (by decide) hm
    | split

theorem execMediaReserve_kept {c : CtxId} {reg : BitVec 6} (hm : Sub 0x10C pq) (hI : s.Kept pq) : ∃ s1, execMediaReserve c reg s = .next s1 ∧ s1.Kept pq := by
  unfold execMediaReserve
  refine ⟨_, rfl, ?_⟩
  repeat' first
    | with_reducible assumption
    | (intro x hx; beta_reduce)
    | with_reducible apply State.byCtx_kept
    | with_reducible apply State.mediaReserve_kept
    | with_reducible apply State.modCtx_kept
    | with_reducible apply State.refuseCtx_kept
    | exact Sub.mono (by decide) hm
    | split

theorem execCreditRelease_kept {c : CtxId} {data : DWord} (hm : Sub 0x108 pq) (hI : s.Kept pq) : ∃ s1, execCreditRelease c data s = .next s1 ∧ s1.Kept pq := by
  unfold execCreditRelease
  refine ⟨_, rfl, ?_⟩
  repeat' first
    | with_reducible assumption
    | (intro x hx; beta_reduce)
    | with_reducible apply State.byCtx_kept
    | with_reducible apply State.creditRelease_kept
    | with_reducible apply State.refuseCtx_kept
    | exact Sub.mono (by decide) hm
    | split

theorem execCreditAvailable_kept {c : CtxId} (hm : Sub 0x8 pq) (hI : s.Kept pq) : ∃ s1, execCreditAvailable c s = .next s1 ∧ s1.Kept pq := by
  unfold execCreditAvailable
  refine ⟨_, rfl, ?_⟩
  repeat' first
    | with_reducible assumption
    | with_reducible apply State.raiseLine_kept
    | split

theorem State.auditFix_kept {pool : Nat} {inst : Nat} (hm : Sub 0x100 pq) (hI : s.Kept pq) : (State.auditFix s pool inst).Kept pq := by
  unfold State.auditFix
  repeat' first
    | with_reducible assumption
    | with_reducible apply State.modRlg_kept
    | split

theorem State.auditOne_kept {p : Nat × Nat} (hm : Sub 0x306 pq) (hI : s.Kept pq) : (State.auditOne s p).Kept pq := by
  unfold State.auditOne
  repeat' first
    | with_reducible assumption
    | (extract_lets +onlyGivenNames s1; refine State.Kept.cut (s := s1) (p := pq) ?_ (fun _ => ?_); rotate_left; clear_value s1; rotate_left; dsimp -zeta only [s1]; clear s1)
    | (extract_lets +onlyGivenNames x1; clear_value x1)
    | with_reducible apply State.setReg_kept
    | with_reducible apply State.bump_kept
    | with_reducible apply State.rlgInt_kept
    | with_reducible apply State.event_kept
    | with_reducible apply State.auditFix_kept
    | exact Sub.mono (by decide) hm
    | split

theorem State.audit_kept (hm : Sub 0x306 pq) (hI : s.Kept pq) : (State.audit s).Kept pq := by
  unfold State.audit
  repeat' first
    | with_reducible assumption
    | (intro x hx; beta_reduce)
    | with_reducible apply State.auditOne_kept
    | with_reducible apply State.bump_kept
    | with_reducible apply State.Kept.foldl
    | exact Sub.mono (by decide) hm

theorem execLedgerAudit_kept (hm : Sub 0x306 pq) (hI : s.Kept pq) : ∃ s1, execLedgerAudit s = .next s1 ∧ s1.Kept pq := by
  unfold execLedgerAudit
  refine ⟨_, rfl, ?_⟩
  repeat' first
    | with_reducible assumption
    | with_reducible apply State.audit_kept
    | split

end Sys2Proof.Machine
end

