-- ==== Sys2Proof/Laws/KeptStripe.lean ====
section
/-!
SUPPORT. The operations of Machine/Stripe.lean keep what they do not write.
-/
set_option Elab.async false
set_option linter.unusedTactic false
set_option linter.unreachableTactic false
namespace Sys2Proof.Machine

variable {pq : Nat × State} {s : State}

theorem State.steInt_kept {r : Side} {i : Nat} (hm : Sub 0x4 pq) (hI : s.Kept pq) : (State.steInt s r i).Kept pq := by
  unfold State.steInt
  repeat' first
    | with_reducible assumption
    | with_reducible apply State.setStat_kept

theorem State.steNote_kept {r : Side} {p : StePort} {reason : Nat} {buf : Nat} (hm : Sub 0x40004 pq) (hI : s.Kept pq) : (State.steNote s r p reason buf).Kept pq := by
  unfold State.steNote
  repeat' first
    | with_reducible assumption
    | (extract_lets +onlyGivenNames s1; refine State.Kept.cut (s := s1) (p := pq) ?_ (fun _ => ?_); rotate_left; clear_value s1; rotate_left; dsimp -zeta only [s1]; clear s1)
    | with_reducible apply State.modSte_kept
    | with_reducible apply State.steInt_kept
    | exact Sub.mono (by decide) hm

theorem State.steRefuse_kept {c : CtxId} {p : StePort} {reason : Nat} {buf : Nat} (hm : Sub 0x4000C pq) (hI : s.Kept pq) : (State.steRefuse s c p reason buf).Kept pq := by
  unfold State.steRefuse
  repeat' first
    | with_reducible assumption
    | with_reducible apply State.steNote_kept
    | with_reducible apply State.refuseCtx_kept
    | exact Sub.mono (by decide) hm

theorem State.stePort_kept {c : CtxId} {p : StePort} {f : State → State} (hf : ∀ s, State.Kept pq s → (f s).Kept pq) (hm : Sub 0x8 pq) (hI : s.Kept pq) : (State.stePort s c p f).Kept pq := by
  unfold State.stePort
  repeat' first
    | with_reducible assumption
    | with_reducible apply State.refuseCtx_kept
    | with_reducible apply hf
    | split

theorem State.bufAcquire_kept {c : CtxId} (hm : Sub 0x4010C pq) (hI : s.Kept pq) : (State.bufAcquire s c).1.Kept pq := by
  unfold State.bufAcquire
  repeat' first
    | with_reducible assumption
    | (extract_lets +onlyGivenNames x1; clear_value x1)
    | with_reducible apply State.steRefuse_kept
    | with_reducible apply State.bindBuffer_kept
    | with_reducible apply State.setSbuf_kept
    | with_reducible refine OptKept.all ?_ _ (by assumption)
    | exact Sub.mono (by decide) hm
    | split

theorem State.bufRelease_kept {c : CtxId} {data : DWord} (hm : Sub 0x4010C pq) (hI : s.Kept pq) : (State.bufRelease s c data).Kept pq := by
  unfold State.bufRelease
  repeat' first
    | with_reducible assumption
    | (extract_lets +onlyGivenNames s1; refine State.Kept.cut (s := s1) (p := pq) ?_ (fun _ => ?_); rotate_left; clear_value s1; rotate_left; dsimp -zeta only [s1]; clear s1)
    | (extract_lets +onlyGivenNames x1; clear_value x1)
    | with_reducible apply State.steRefuse_kept
    | with_reducible apply State.unbindBuffer_kept
    | with_reducible apply State.modSte_kept
    | with_reducible apply State.setSbuf_kept
    | with_reducible apply State.steInt_kept
    | exact Sub.mono (by decide) hm
    | split

theorem State.chunkMove_kept {c : CtxId} {w : DWord} (hm : Sub 0x4000C pq) (hI : s.Kept pq) : (State.chunkMove s c w).Kept pq := by
  unfold State.chunkMove
  repeat' first
    | with_reducible assumption
    | (extract_lets +onlyGivenNames x1; clear_value x1)
    | with_reducible apply State.steRefuse_kept
    | with_reducible apply State.modSte_kept
    | exact Sub.mono (by decide) hm
    | split

theorem State.reconStore_kept {r : Side} {b : StripeBuf} {k : Nat} (hm : Sub 0x44000 pq) (hI : s.Kept pq) : (State.reconStore s r b k).Kept pq := by
  unfold State.reconStore
  repeat' first
    | with_reducible assumption
    | (extract_lets +onlyGivenNames f1; refine State.Kept.fnCut2 (f := f1) (p := pq) ?_ (fun hf1 => ?_); rotate_left; clear_value f1; rotate_left; dsimp -zeta only [f1]; clear f1)
    | (intro x hx; beta_reduce)
    | with_reducible apply State.putPayload_kept
    | with_reducible apply State.Kept.foldl

theorem State.reconDone_kept {r : Side} {n : Nat} {b : StripeBuf} (hm : Sub 0x4400C pq) (hI : s.Kept pq) : (State.reconDone s r n b).Kept pq := by
  unfold State.reconDone
  repeat' first
    | with_reducible assumption
    | (extract_lets +onlyGivenNames s1; refine State.Kept.cut (s := s1) (p := pq) ?_ (fun _ => ?_); rotate_left; clear_value s1; rotate_left; dsimp -zeta only [s1]; clear s1)
    | (intro x hx; beta_reduce)
    | with_reducible apply State.reconStore_kept
    | with_reducible apply State.setSbuf_kept
    | with_reducible apply State.steInt_kept
    | with_reducible apply State.bump_kept
    | with_reducible apply State.raiseLine_kept
    | with_reducible apply State.Kept.foldl
    | exact Sub.mono (by decide) hm
    | split

theorem State.scrubDone_kept {r : Side} {b : StripeBuf} (hm : Sub 0x4000C pq) (hI : s.Kept pq) : (State.scrubDone s r b).Kept pq := by
  unfold State.scrubDone
  repeat' first
    | with_reducible assumption
    | (extract_lets +onlyGivenNames s1; refine State.Kept.cut (s := s1) (p := pq) ?_ (fun _ => ?_); rotate_left; clear_value s1; rotate_left; dsimp -zeta only [s1]; clear s1)
    | (extract_lets +onlyGivenNames x1; clear_value x1)
    | with_reducible apply State.modSte_kept
    | with_reducible apply State.setSbuf_kept
    | with_reducible apply State.steInt_kept
    | with_reducible apply State.raiseLine_kept
    | exact Sub.mono (by decide) hm
    | split

theorem State.stripeProgress_kept {r : Side} {n : Nat} (hm : Sub 0x4400C pq) (hI : s.Kept pq) : (State.stripeProgress s r n).Kept pq := by
  unfold State.stripeProgress
  repeat' first
    | with_reducible assumption
    | (extract_lets +onlyGivenNames s1; refine State.Kept.cut (s := s1) (p := pq) ?_ (fun _ => ?_); rotate_left; clear_value s1; rotate_left; dsimp -zeta only [s1]; clear s1)
    | (extract_lets +onlyGivenNames x1; clear_value x1)
    | with_reducible apply State.setSbuf_kept
    | with_reducible apply State.raiseLine_kept
    | with_reducible apply State.reconDone_kept
    | with_reducible apply State.scrubDone_kept
    | exact Sub.mono (by decide) hm
    | split

theorem State.landNext_kept {r : Side} (hm : Sub 0x4400C pq) (hI : s.Kept pq) : (State.landNext s r).Kept pq := by
  unfold State.landNext
  repeat' first
    | with_reducible assumption
    | with_reducible apply State.modSte_kept
    | with_reducible apply State.dramRead_kept
    | with_reducible apply State.setSbuf_kept
    | with_reducible apply State.bump_kept
    | with_reducible apply State.steInt_kept
    | with_reducible apply State.raiseLine_kept
    | with_reducible apply State.stripeProgress_kept
    | exact Sub.mono (by decide) hm
    | split

theorem State.reconRequest_kept {c : CtxId} {w : DWord} (hm : Sub 0x4000C pq) (hI : s.Kept pq) : (State.reconRequest s c w).Kept pq := by
  unfold State.reconRequest
  repeat' first
    | with_reducible assumption
    | (extract_lets +onlyGivenNames x1; clear_value x1)
    | with_reducible apply State.steRefuse_kept
    | with_reducible apply State.setSbuf_kept
    | exact Sub.mono (by decide) hm
    | split

theorem State.scrubStart_kept {c : CtxId} {data : DWord} (hm : Sub 0x4000C pq) (hI : s.Kept pq) : (State.scrubStart s c data).Kept pq := by
  unfold State.scrubStart
  repeat' first
    | with_reducible assumption
    | (extract_lets +onlyGivenNames s1; refine State.Kept.cut (s := s1) (p := pq) ?_ (fun _ => ?_); rotate_left; clear_value s1; rotate_left; dsimp -zeta only [s1]; clear s1)
    | (extract_lets +onlyGivenNames x1; clear_value x1)
    | with_reducible apply State.steRefuse_kept
    | with_reducible apply State.setSbuf_kept
    | with_reducible apply State.modSte_kept
    | exact Sub.mono (by decide) hm
    | split

theorem State.scrubPop_kept {r : Side} (hm : Sub 0x40000 pq) (hI : s.Kept pq) : (State.scrubPop s r).1.Kept pq := by
  unfold State.scrubPop
  repeat' first
    | with_reducible assumption
    | with_reducible apply State.modSte_kept
    | split

theorem State.scrubPopLo_kept {r : Side} (hm : Sub 0x40000 pq) (hI : s.Kept pq) : (State.scrubPopLo s r).1.Kept pq := by
  unfold State.scrubPopLo
  repeat' first
    | with_reducible assumption
    | with_reducible apply State.scrubPop_kept
    | with_reducible apply State.modSte_kept

theorem State.sealBuf_kept {r : Side} {key : Nat} {n : Nat} (hm : Sub 0x40004 pq) (hI : s.Kept pq) : (State.sealBuf s r key n).Kept pq := by
  unfold State.sealBuf
  repeat' first
    | with_reducible assumption
    | with_reducible apply State.setSbuf_kept
    | with_reducible apply State.modSte_kept
    | with_reducible apply State.bump_kept
    | exact Sub.mono (by decide) hm

theorem State.ansReg_kept {p : State × Option DWord} {c : CtxId} {reg : BitVec 6} (hm : Sub 0x8 pq)
    (hp : p.1.Kept pq) : (State.ansReg p c reg).Kept pq := by
  unfold State.ansReg
  split
  · exact State.modCtx_kept (Sub.mono (by decide) hm) hp
  · exact hp

theorem execStripeBufferAcquire_kept {c : CtxId} {reg : BitVec 6} (hm : Sub 0x4010C pq) (hI : s.Kept pq) : ∃ s1, execStripeBufferAcquire c reg s = .next s1 ∧ s1.Kept pq := by
  unfold execStripeBufferAcquire
  refine ⟨_, rfl, ?_⟩
  repeat' first
    | with_reducible assumption
    | (intro x hx; beta_reduce)
    | with_reducible apply State.byCtx_kept
    | with_reducible apply State.ansReg_kept
    | with_reducible apply State.bufAcquire_kept
    | with_reducible apply State.refuseCtx_kept
    | exact Sub.mono (by decide) hm
    | split

theorem execStripeBufferRelease_kept {c : CtxId} {data : DWord} (hm : Sub 0x4010C pq) (hI : s.Kept pq) : ∃ s1, execStripeBufferRelease c data s = .next s1 ∧ s1.Kept pq := by
  unfold execStripeBufferRelease
  refine ⟨_, rfl, ?_⟩
  repeat' first
    | with_reducible assumption
    | (intro x hx; beta_reduce)
    | with_reducible apply State.byCtx_kept
    | with_reducible apply State.stePort_kept
    | with_reducible apply State.bufRelease_kept
    | exact Sub.mono (by decide) hm

theorem execChunkMove_kept {c : CtxId} {w : DWord} (hm : Sub 0x4000C pq) (hI : s.Kept pq) : ∃ s1, execChunkMove c w s = .next s1 ∧ s1.Kept pq := by
  unfold execChunkMove
  refine ⟨_, rfl, ?_⟩
  repeat' first
    | with_reducible assumption
    | (intro x hx; beta_reduce)
    | with_reducible apply State.byCtx_kept
    | with_reducible apply State.stePort_kept
    | with_reducible apply State.chunkMove_kept
    | exact Sub.mono (by decide) hm

theorem execSectorLanding_kept {r : Side} (hm : Sub 0x4400C pq) (hI : s.Kept pq) : ∃ s1, execSectorLanding r s = .next s1 ∧ s1.Kept pq := by
  unfold execSectorLanding
  refine ⟨_, rfl, ?_⟩
  repeat' first
    | with_reducible assumption
    | with_reducible apply State.landNext_kept
    | split

theorem execReconstructionRequest_kept {c : CtxId} {w : DWord} (hm : Sub 0x4000C pq) (hI : s.Kept pq) : ∃ s1, execReconstructionRequest c w s = .next s1 ∧ s1.Kept pq := by
  unfold execReconstructionRequest
  refine ⟨_, rfl, ?_⟩
  repeat' first
    | with_reducible assumption
    | (intro x hx; beta_reduce)
    | with_reducible apply State.byCtx_kept
    | with_reducible apply State.stePort_kept
    | with_reducible apply State.reconRequest_kept
    | exact Sub.mono (by decide) hm

theorem execScrubCheck_kept {c : CtxId} {data : DWord} (hm : Sub 0x4000C pq) (hI : s.Kept pq) : ∃ s1, execScrubCheck c data s = .next s1 ∧ s1.Kept pq := by
  unfold execScrubCheck
  refine ⟨_, rfl, ?_⟩
  repeat' first
    | with_reducible assumption
    | (intro x hx; beta_reduce)
    | with_reducible apply State.byCtx_kept
    | with_reducible apply State.stePort_kept
    | with_reducible apply State.scrubStart_kept
    | exact Sub.mono (by decide) hm

theorem execScrubResultPop_kept {c : CtxId} {reg : BitVec 6} (hm : Sub 0x40008 pq) (hI : s.Kept pq) : ∃ s1, execScrubResultPop c reg s = .next s1 ∧ s1.Kept pq := by
  unfold execScrubResultPop
  refine ⟨_, rfl, ?_⟩
  repeat' first
    | with_reducible assumption
    | (intro x hx; beta_reduce)
    | with_reducible apply State.byCtx_kept
    | with_reducible apply State.scrubPop_kept
    | with_reducible apply State.modCtx_kept
    | with_reducible apply State.refuseCtx_kept
    | exact Sub.mono (by decide) hm
    | split

end Sys2Proof.Machine
end

