-- ==== Sys2Proof/Laws/KeptHostOps.lean ====
section
/-!
SUPPORT. The operations of Machine/HostOps.lean keep what they do not write.
-/
set_option Elab.async false
set_option linter.unusedTactic false
set_option linter.unreachableTactic false
namespace Sys2Proof.Machine

variable {pq : Nat × State} {s : State}

theorem State.nveInt_kept {i : Nat} (hm : Sub 0x4 pq) (hI : s.Kept pq) : (State.nveInt s i).Kept pq := by
  unfold State.nveInt
  repeat' first
    | with_reducible assumption
    | with_reducible apply State.setStat_kept

theorem State.hdgInt_kept {i : Nat} (hm : Sub 0x4 pq) (hI : s.Kept pq) : (State.hdgInt s i).Kept pq := by
  unfold State.hdgInt
  repeat' first
    | with_reducible assumption
    | with_reducible apply State.setStat_kept

theorem State.setNs_kept {n : Nat} {x : Option Ns} (hm : Sub 0x1000000 pq) (hI : s.Kept pq) : (State.setNs s n x).Kept pq := by
  unfold State.setNs
  repeat' first
    | with_reducible assumption
    | with_reducible apply State.modNve_kept

theorem State.putCfg_kept {n : Nat} {v : Word} (hm : Sub 0x1000000 pq) (hI : s.Kept pq) : (State.putCfg s n v).Kept pq := by
  unfold State.putCfg
  repeat' first
    | with_reducible assumption
    | (extract_lets +onlyGivenNames s1; refine State.Kept.cut (s := s1) (p := pq) ?_ (fun _ => ?_); rotate_left; clear_value s1; rotate_left; dsimp -zeta only [s1]; clear s1)
    | with_reducible apply State.modNve_kept
    | with_reducible apply State.setNs_kept
    | split

theorem State.setCtrl_kept {n : Nat} {c : Ctrl} (hm : Sub 0x1000000 pq) (hI : s.Kept pq) : (State.setCtrl s n c).Kept pq := by
  unfold State.setCtrl
  repeat' first
    | with_reducible assumption
    | with_reducible apply State.modNve_kept

theorem State.modCtrl_kept {n : Nat} {f : Ctrl → Ctrl} (hm : Sub 0x1000000 pq) (hI : s.Kept pq) : (State.modCtrl s n f).Kept pq := by
  unfold State.modCtrl
  repeat' first
    | with_reducible assumption
    | with_reducible apply State.setCtrl_kept

theorem State.modCmd_kept {n : Nat} {f : Cmd → Cmd} (hm : Sub 0x1000000 pq) (hI : s.Kept pq) : (State.modCmd s n f).Kept pq := by
  unfold State.modCmd
  repeat' first
    | with_reducible assumption
    | with_reducible apply State.modNve_kept

theorem State.setHent_kept {e : Nat} {x : Option HEntry} (hm : Sub 0x2000000 pq) (hI : s.Kept pq) : (State.setHent s e x).Kept pq := by
  unfold State.setHent
  repeat' first
    | with_reducible assumption
    | with_reducible apply State.modHdg_kept

theorem State.waitOn_kept {c : CtxId} {bs : List (Nat × HEntry)} (hm : Sub 0x2000000 pq) (hI : s.Kept pq) : (State.waitOn s c bs).Kept pq := by
  unfold State.waitOn
  repeat' first
    | with_reducible assumption
    | with_reducible apply State.modHdg_kept

theorem State.hdgWake_kept {e : Nat} (hm : Sub 0x2000008 pq) (hI : s.Kept pq) : (State.hdgWake s e).Kept pq := by
  unfold State.hdgWake
  repeat' first
    | with_reducible assumption
    | (intro x hx; beta_reduce)
    | with_reducible apply State.modHdg_kept
    | with_reducible apply State.raiseLine_kept
    | with_reducible apply State.Kept.foldl
    | exact Sub.mono (by decide) hm

theorem State.takeHent_kept {n : Nat} {kind : HKind} {ns : Nat} {slba : Nat} {count : Nat} {asn : DWord} (hm : Sub 0x300000C pq) (hI : s.Kept pq) : (State.takeHent s n kind ns slba count asn).Kept pq := by
  unfold State.takeHent
  repeat' first
    | with_reducible assumption
    | (extract_lets +onlyGivenNames s1; refine State.Kept.cut (s := s1) (p := pq) ?_ (fun _ => ?_); rotate_left; clear_value s1; rotate_left; dsimp -zeta only [s1]; clear s1)
    | with_reducible apply State.hdgInt_kept
    | with_reducible apply State.modCmd_kept
    | with_reducible apply State.hdgWake_kept
    | with_reducible apply State.setHent_kept
    | with_reducible apply State.modHdg_kept
    | exact Sub.mono (by decide) hm
    | split

theorem State.dropHent_kept {c : Cmd} (hm : Sub 0x2000000 pq) (hI : s.Kept pq) : (State.dropHent s c).Kept pq := by
  unfold State.dropHent
  repeat' first
    | with_reducible assumption
    | with_reducible apply State.setHent_kept
    | split

theorem State.hedgeLookup_kept {c : CtxId} (hm : Sub 0x3000004 pq) (hI : s.Kept pq) : (State.hedgeLookup s c).1.Kept pq := by
  unfold State.hedgeLookup
  repeat' first
    | with_reducible assumption
    | with_reducible apply State.hdgInt_kept
    | with_reducible apply State.bump_kept
    | with_reducible apply State.waitOn_kept
    | exact Sub.mono (by decide) hm
    | split

theorem State.hedgeRemove_kept {c : CtxId} {data : DWord} (hm : Sub 0x300000C pq) (hI : s.Kept pq) : (State.hedgeRemove s c data).Kept pq := by
  unfold State.hedgeRemove
  repeat' first
    | with_reducible assumption
    | (extract_lets +onlyGivenNames x1; clear_value x1)
    | with_reducible apply State.hdgInt_kept
    | with_reducible apply State.refuseCtx_kept
    | with_reducible apply State.setHent_kept
    | with_reducible apply State.modCmd_kept
    | exact Sub.mono (by decide) hm
    | split

theorem State.postCpl_kept {c : Cmd} {status : Nat} {dw0 : Nat} {dw1 : Nat} (hm : Sub 0x1000004 pq) (hI : s.Kept pq) : (State.postCpl s c status dw0 dw1).Kept pq := by
  unfold State.postCpl
  repeat' first
    | with_reducible assumption
    | with_reducible apply State.modCtrl_kept
    | with_reducible apply State.modNve_kept
    | with_reducible apply State.bump_kept
    | exact Sub.mono (by decide) hm
    | split

theorem State.finish_kept {c : Cmd} (hm : Sub 0x3000008 pq) (hI : s.Kept pq) : (State.finish s c).Kept pq := by
  unfold State.finish
  repeat' first
    | with_reducible assumption
    | with_reducible apply State.dropHent_kept
    | with_reducible apply State.modCtx_kept
    | with_reducible apply State.modNve_kept
    | exact Sub.mono (by decide) hm
    | split

theorem State.complete_kept {c : Cmd} {status : Nat} {dw0 : Nat} {dw1 : Nat} (hm : Sub 0x300000C pq) (hI : s.Kept pq) : (State.complete s c status dw0 dw1).Kept pq := by
  unfold State.complete
  repeat' first
    | with_reducible assumption
    | (extract_lets +onlyGivenNames s1; refine State.Kept.cut (s := s1) (p := pq) ?_ (fun _ => ?_); rotate_left; clear_value s1; rotate_left; dsimp -zeta only [s1]; clear s1)
    | with_reducible apply State.postCpl_kept
    | with_reducible apply State.finish_kept
    | with_reducible apply State.bump_kept
    | exact Sub.mono (by decide) hm
    | split

theorem State.completeOk_kept {c : Cmd} (hm : Sub 0x300000C pq) (hI : s.Kept pq) : (State.completeOk s c).Kept pq := by
  unfold State.completeOk
  repeat' first
    | with_reducible assumption
    | with_reducible apply State.complete_kept

theorem State.drainStage_kept (hm : Sub 0x1000000 pq) :
    ∀ {k : Nat} {s : State} {n d : Nat}, s.Kept pq → (State.drainStage k s n d).Kept pq
  | 0, _, _, _, h => h
  | k + 1, s, n, d, h => by
    unfold State.drainStage
    split
    · split
      · exact State.drainStage_kept hm (State.modCtrl_kept (Sub.mono (by decide) hm) (State.modNve_kept (Sub.mono (by decide) hm) h))
      · exact h
    · exact h

theorem State.asyncTo_kept {k : Nat} {f : Ctrl → Bool} (hm : Sub 0x1000000 pq) (hI : s.Kept pq) : (State.asyncTo s k f).Kept pq := by
  unfold State.asyncTo
  repeat' first
    | with_reducible assumption
    | (intro x y hx; beta_reduce)
    | with_reducible apply State.modCtrl_kept
    | with_reducible apply State.Kept.foldl
    | split

theorem State.setAwp_kept {n : Nat} {z : Nat} {v : Nat} (hm : Sub 0x1000000 pq) (hI : s.Kept pq) : (State.setAwp s n z v).Kept pq := by
  unfold State.setAwp
  repeat' first
    | with_reducible assumption
    | with_reducible apply State.modNve_kept

theorem State.endUncommitted_kept {c : Cmd} {status : Nat} (hm : Sub 0x300000C pq) (hI : s.Kept pq) : (State.endUncommitted s c status).Kept pq := by
  unfold State.endUncommitted
  repeat' first
    | with_reducible assumption
    | (extract_lets +onlyGivenNames s1; refine State.Kept.cut (s := s1) (p := pq) ?_ (fun _ => ?_); rotate_left; clear_value s1; rotate_left; dsimp -zeta only [s1]; clear s1)
    | (extract_lets +onlyGivenNames x1; clear_value x1)
    | (intro x hx; beta_reduce)
    | with_reducible apply State.complete_kept
    | with_reducible apply State.setAwp_kept
    | with_reducible apply State.Kept.foldl
    | exact Sub.mono (by decide) hm
    | split

end Sys2Proof.Machine
end

