-- ==== Sys2Proof/Laws/KeptCairn.lean ====
section
/-!
SUPPORT. The operations of Machine/Cairn.lean keep what they do not write.
-/
set_option Elab.async false
set_option linter.unusedTactic false
set_option linter.unreachableTactic false
namespace Sys2Proof.Machine

variable {pq : Nat × State} {s : State}

theorem State.crnInt_kept {r : Side} {i : Nat} (hm : Sub 0x4 pq) (hI : s.Kept pq) : (State.crnInt s r i).Kept pq := by
  unfold State.crnInt
  repeat' first
    | with_reducible assumption
    | with_reducible apply State.setStat_kept

theorem State.putBank_kept {r : Side} {n : Nat} {w : BitVec 512} (hm : Sub 0x400000 pq) (hI : s.Kept pq) : (State.putBank s r n w).Kept pq := by
  unfold State.putBank
  repeat' first
    | with_reducible assumption
    | with_reducible apply State.modCrn_kept

theorem State.putLine_kept {r : Side} {mirror : Bool} {n : Nat} {w : BitVec 512} (hm : Sub 0x400000 pq) (hI : s.Kept pq) : (State.putLine s r mirror n w).Kept pq := by
  unfold State.putLine
  repeat' first
    | with_reducible assumption
    | (extract_lets +onlyGivenNames f1; refine State.Kept.fnCut2 (f := f1) (p := pq) ?_ (fun hf1 => ?_); rotate_left; clear_value f1; rotate_left; dsimp -zeta only [f1]; clear f1)
    | with_reducible apply hf1
    | (intro x y hx; beta_reduce)
    | with_reducible apply State.putBank_kept
    | split

theorem State.crnLose_kept {r : Side} (hm : Sub 0x400206 pq) (hI : s.Kept pq) : (State.crnLose s r).Kept pq := by
  unfold State.crnLose
  repeat' first
    | with_reducible assumption
    | (extract_lets +onlyGivenNames s1; refine State.Kept.cut (s := s1) (p := pq) ?_ (fun _ => ?_); rotate_left; clear_value s1; rotate_left; dsimp -zeta only [s1]; clear s1)
    | with_reducible apply State.modCrn_kept
    | with_reducible apply State.crnInt_kept
    | with_reducible apply State.event_kept
    | exact Sub.mono (by decide) hm
    | split

theorem State.crnMarks_kept {fill0 : Nat} {free0 : Nat} (hm : Sub 0xC pq) (hI : s.Kept pq) : (State.crnMarks s fill0 free0).Kept pq := by
  unfold State.crnMarks
  repeat' first
    | with_reducible assumption
    | (extract_lets +onlyGivenNames s1; refine State.Kept.cut (s := s1) (p := pq) ?_ (fun _ => ?_); rotate_left; clear_value s1; rotate_left; dsimp -zeta only [s1]; clear s1)
    | (intro x y hx; beta_reduce)
    | with_reducible apply State.crnInt_kept
    | with_reducible apply State.raiseLine_kept
    | with_reducible apply State.Kept.foldl
    | exact Sub.mono (by decide) hm
    | split

theorem State.crnWrite_kept {c : CtxId} {typ : Nat} {body : Nat} (hm : Sub 0x40000C pq) (hI : s.Kept pq) : (State.crnWrite s c typ body).Kept pq := by
  unfold State.crnWrite
  repeat' first
    | with_reducible assumption
    | with_reducible apply State.putLine_kept
    | with_reducible apply State.modCrn_kept
    | with_reducible apply State.crnMarks_kept
    | exact Sub.mono (by decide) hm

theorem State.libAppend_kept {r : Side} {typ : Nat} (hm : Sub 0x40000E pq) (hI : s.Kept pq) : (State.libAppend s r typ).Kept pq := by
  unfold State.libAppend
  repeat' first
    | with_reducible assumption
    | with_reducible apply State.crnWrite_kept
    | with_reducible apply State.freeNext_kept
    | with_reducible apply State.crnInt_kept
    | exact Sub.mono (by decide) hm
    | split

theorem State.putSlot_kept {slot : Nat} {bs : List Byte} (hm : Sub 0x4000 pq) (hI : s.Kept pq) : (State.putSlot s slot bs).Kept pq := by
  unfold State.putSlot
  repeat' first
    | with_reducible assumption
    | (extract_lets +onlyGivenNames f1; refine State.Kept.fnCut2 (f := f1) (p := pq) ?_ (fun hf1 => ?_); rotate_left; clear_value f1; rotate_left; dsimp -zeta only [f1]; clear f1)
    | (extract_lets +onlyGivenNames x1; clear_value x1)
    | with_reducible apply hf1
    | (intro x y hx; beta_reduce)
    | with_reducible apply State.modDram_kept
    | split

theorem State.putPiece_kept {c : Cmd} {lba : Nat} {n : Nat} {slot : Nat} (hm : Sub 0x4002 pq) (hI : s.Kept pq) : (State.putPiece s c lba n slot).Kept pq := by
  unfold State.putPiece
  repeat' first
    | with_reducible assumption
    | (intro x y hx; beta_reduce)
    | with_reducible apply State.putSlot_kept
    | with_reducible apply State.freeNext_kept
    | with_reducible apply State.Kept.foldl
    | exact Sub.mono (by decide) hm

theorem State.hwpTo_kept {ns : Nat} {lba : Nat} (hm : Sub 0x80000 pq) (hI : s.Kept pq) : (State.hwpTo s ns lba).Kept pq := by
  unfold State.hwpTo
  repeat' first
    | with_reducible assumption
    | with_reducible apply State.ztbDo_kept
    | split

theorem State.addPiece_kept {p : Piece} (hm : Sub 0xA80000 pq) (hI : s.Kept pq) : (State.addPiece s p).Kept pq := by
  unfold State.addPiece
  repeat' first
    | with_reducible assumption
    | (extract_lets +onlyGivenNames s1; refine State.Kept.cut (s := s1) (p := pq) ?_ (fun _ => ?_); rotate_left; clear_value s1; rotate_left; dsimp -zeta only [s1]; clear s1)
    | with_reducible apply State.modWin_kept
    | with_reducible apply State.deferCover_kept
    | with_reducible apply State.hwpTo_kept
    | with_reducible apply State.poisonClear_kept
    | exact Sub.mono (by decide) hm
    | split

theorem State.windowCommit_kept {c : Option Cmd} {body : Nat} (hm : Sub 0x3A84002 pq) (hI : s.Kept pq) : (State.windowCommit s c body).Kept pq := by
  unfold State.windowCommit
  repeat' first
    | with_reducible assumption
    | (extract_lets +onlyGivenNames s1; refine State.Kept.cut (s := s1) (p := pq) ?_ (fun _ => ?_); rotate_left; clear_value s1; rotate_left; dsimp -zeta only [s1]; clear s1)
    | (extract_lets +onlyGivenNames x1; clear_value x1)
    | with_reducible apply State.modWin_kept
    | with_reducible apply State.addPiece_kept
    | with_reducible apply State.putPiece_kept
    | with_reducible apply State.modCmd_kept
    | with_reducible apply State.setHent_kept
    | exact Sub.mono (by decide) hm
    | split

theorem State.windowRelease_kept {first : Nat} {n : Nat} (hm : Sub 0x800100 pq) (hI : s.Kept pq) : (State.windowRelease s first n).Kept pq := by
  unfold State.windowRelease
  repeat' first
    | with_reducible assumption
    | with_reducible apply State.modWin_kept
    | with_reducible apply State.winReturn_kept
    | exact Sub.mono (by decide) hm

theorem State.windowRereleased_kept {first : Nat} {n : Nat} (hm : Sub 0x800000 pq) (hI : s.Kept pq) : (State.windowRereleased s first n).Kept pq := by
  unfold State.windowRereleased
  repeat' first
    | with_reducible assumption
    | with_reducible apply State.modWin_kept

theorem State.unstage_kept {cs : List StgCopy} (hm : Sub 0x880000 pq) (hI : s.Kept pq) : (State.unstage s cs).Kept pq := by
  unfold State.unstage
  repeat' first
    | with_reducible assumption
    | (extract_lets +onlyGivenNames s1; refine State.Kept.cut (s := s1) (p := pq) ?_ (fun _ => ?_); rotate_left; clear_value s1; rotate_left; dsimp -zeta only [s1]; clear s1)
    | (intro x y hx; beta_reduce)
    | with_reducible apply State.stgAdd_kept
    | with_reducible apply State.modWin_kept
    | with_reducible apply State.Kept.foldl
    | exact Sub.mono (by decide) hm

theorem State.onMedia_kept {body : Nat} (hm : Sub 0xC8010E pq) (hI : s.Kept pq) : (State.onMedia s body).Kept pq := by
  unfold State.onMedia
  repeat' first
    | with_reducible assumption
    | (extract_lets +onlyGivenNames s1; refine State.Kept.cut (s := s1) (p := pq) ?_ (fun _ => ?_); rotate_left; clear_value s1; rotate_left; dsimp -zeta only [s1]; clear s1)
    | (extract_lets +onlyGivenNames x1; clear_value x1)
    | with_reducible apply State.modWin_kept
    | with_reducible apply State.escReturn_kept
    | with_reducible apply State.unstage_kept
    | with_reducible apply State.libAppend_kept
    | exact Sub.mono (by decide) hm
    | split

theorem State.stageRecord_kept {body : Nat} (hm : Sub 0x800000 pq) (hI : s.Kept pq) : (State.stageRecord s body).Kept pq := by
  unfold State.stageRecord
  repeat' first
    | with_reducible assumption
    | (extract_lets +onlyGivenNames x1; clear_value x1)
    | with_reducible apply State.modWin_kept

theorem State.mapRecord_kept {body : Nat} (hm : Sub 0x800000 pq) (hI : s.Kept pq) : (State.mapRecord s body).Kept pq := by
  unfold State.mapRecord
  repeat' first
    | with_reducible assumption
    | (extract_lets +onlyGivenNames x1; clear_value x1)
    | with_reducible apply State.modWin_kept

theorem State.recordEffect_kept {typ : Nat} {body : Nat} {k : Option Cmd} (hm : Sub 0x3E8430E pq) (hI : s.Kept pq) : (State.recordEffect s typ body k).Kept pq := by
  unfold State.recordEffect
  repeat' first
    | with_reducible assumption
    | (extract_lets +onlyGivenNames s1; refine State.Kept.cut (s := s1) (p := pq) ?_ (fun _ => ?_); rotate_left; clear_value s1; rotate_left; dsimp -zeta only [s1]; clear s1)
    | with_reducible apply State.onMedia_kept
    | with_reducible apply State.windowCommit_kept
    | with_reducible apply State.windowRelease_kept
    | with_reducible apply State.mapRecord_kept
    | with_reducible apply State.modCmd_kept
    | with_reducible apply State.stageRecord_kept
    | with_reducible apply State.modCrn_kept
    | with_reducible apply State.event_kept
    | with_reducible apply State.freeNext_kept
    | exact Sub.mono (by decide) hm
    | split

theorem State.libCompact_kept (hm : Sub 0x3E8430E pq) (hI : s.Kept pq) : (State.libCompact s).Kept pq := by
  unfold State.libCompact
  repeat' first
    | with_reducible assumption
    | (extract_lets +onlyGivenNames x1; clear_value x1)
    | with_reducible apply State.crnWrite_kept
    | with_reducible apply State.recordEffect_kept
    | with_reducible apply State.crnInt_kept
    | exact Sub.mono (by decide) hm
    | split

theorem State.plainAppend_kept {c : CtxId} {typ : Nat} {body : Nat} (hm : Sub 0x3E8430E pq) (hI : s.Kept pq) : (State.plainAppend s c typ body).Kept pq := by
  unfold State.plainAppend
  repeat' first
    | with_reducible assumption
    | (extract_lets +onlyGivenNames s1; refine State.Kept.cut (s := s1) (p := pq) ?_ (fun _ => ?_); rotate_left; clear_value s1; rotate_left; dsimp -zeta only [s1]; clear s1)
    | (extract_lets +onlyGivenNames x1; clear_value x1)
    | with_reducible apply State.crnInt_kept
    | with_reducible apply State.refuseCtx_kept
    | with_reducible apply State.raiseLine_kept
    | with_reducible apply State.waitOn_kept
    | with_reducible apply State.crnWrite_kept
    | with_reducible apply State.recordEffect_kept
    | exact Sub.mono (by decide) hm
    | split

theorem State.sealAppend_kept {c : CtxId} {n : Nat} {body : Nat} (hm : Sub 0x44010C pq) (hI : s.Kept pq) : (State.sealAppend s c n body).Kept pq := by
  unfold State.sealAppend
  repeat' first
    | with_reducible assumption
    | (extract_lets +onlyGivenNames s1; refine State.Kept.cut (s := s1) (p := pq) ?_ (fun _ => ?_); rotate_left; clear_value s1; rotate_left; dsimp -zeta only [s1]; clear s1)
    | (extract_lets +onlyGivenNames x1; clear_value x1)
    | with_reducible apply State.steRefuse_kept
    | with_reducible apply State.sealBuf_kept
    | with_reducible apply State.crnWrite_kept
    | with_reducible apply State.escSeal_kept
    | with_reducible apply State.modCtx_kept
    | exact Sub.mono (by decide) hm
    | split

theorem State.crnAppend_kept {c : CtxId} (hm : Sub 0x3EC430E pq) (hI : s.Kept pq) : (State.crnAppend s c).Kept pq := by
  unfold State.crnAppend
  repeat' first
    | with_reducible assumption
    | (extract_lets +onlyGivenNames x1; clear_value x1)
    | with_reducible apply State.refuseCtx_kept
    | with_reducible apply State.crnInt_kept
    | with_reducible apply State.sealAppend_kept
    | with_reducible apply State.plainAppend_kept
    | exact Sub.mono (by decide) hm
    | split

theorem execCairnAppend_kept {c : CtxId} (hm : Sub 0x3EC430E pq) (hI : s.Kept pq) : ∃ s1, execCairnAppend c s = .next s1 ∧ s1.Kept pq := by
  unfold execCairnAppend
  refine ⟨_, rfl, ?_⟩
  repeat' first
    | with_reducible assumption
    | (intro x hx; beta_reduce)
    | with_reducible apply State.byCtx_kept
    | with_reducible apply State.crnAppend_kept

theorem execCairnBankLoss_kept {r : Side} (hm : Sub 0x400206 pq) (hI : s.Kept pq) : ∃ s1, execCairnBankLoss r s = .next s1 ∧ s1.Kept pq := by
  unfold execCairnBankLoss
  refine ⟨_, rfl, ?_⟩
  repeat' first
    | with_reducible assumption
    | with_reducible apply State.crnLose_kept
    | split

theorem State.resyncStart_kept {r : Side} (hm : Sub 0x400000 pq) (hI : s.Kept pq) : (State.resyncStart s r).Kept pq := by
  unfold State.resyncStart
  repeat' first
    | with_reducible assumption
    | with_reducible apply State.modCrn_kept
    | split

theorem execCairnResync_kept {x : Accessor} (hm : Sub 0x400000 pq) (hI : s.Kept pq) : ∃ s1, execCairnResync x s = .next s1 ∧ s1.Kept pq := by
  unfold execCairnResync
  refine ⟨_, rfl, ?_⟩
  repeat' first
    | with_reducible assumption
    | with_reducible apply State.resyncStart_kept
    | split

theorem State.resyncEnd_kept {r : Side} (hm : Sub 0x400004 pq) (hI : s.Kept pq) : (State.resyncEnd s r).Kept pq := by
  unfold State.resyncEnd
  repeat' first
    | with_reducible assumption
    | (extract_lets +onlyGivenNames s1; refine State.Kept.cut (s := s1) (p := pq) ?_ (fun _ => ?_); rotate_left; clear_value s1; rotate_left; dsimp -zeta only [s1]; clear s1)
    | with_reducible apply State.modCrn_kept
    | with_reducible apply State.crnInt_kept
    | exact Sub.mono (by decide) hm
    | split

theorem execCairnResyncDone_kept {r : Side} (hm : Sub 0x400004 pq) (hI : s.Kept pq) : ∃ s1, execCairnResyncDone r s = .next s1 ∧ s1.Kept pq := by
  unfold execCairnResyncDone
  refine ⟨_, rfl, ?_⟩
  repeat' first
    | with_reducible assumption
    | with_reducible apply State.resyncEnd_kept

theorem State.poisonAdd_kept {x : Side} {ns : Nat} {lba : Nat} {n : Nat} (hm : Sub 0x68000E pq) (hI : s.Kept pq) : (State.poisonAdd s x ns lba n).Kept pq := by
  unfold State.poisonAdd
  repeat' first
    | with_reducible assumption
    | with_reducible apply State.modRedun_kept
    | with_reducible apply State.libAppend_kept
    | with_reducible apply State.putZent_kept
    | with_reducible apply State.bumpGen_kept
    | exact Sub.mono (by decide) hm
    | split

theorem State.deferSay_kept {d : Deferred} {host : BitVec 128} (hm : Sub 0x1000206 pq) (hI : s.Kept pq) : (State.deferSay s d host).Kept pq := by
  unfold State.deferSay
  repeat' first
    | with_reducible assumption
    | (extract_lets +onlyGivenNames s1; refine State.Kept.cut (s := s1) (p := pq) ?_ (fun _ => ?_); rotate_left; clear_value s1; rotate_left; dsimp -zeta only [s1]; clear s1)
    | with_reducible apply State.event_kept
    | with_reducible apply State.asyncTo_kept
    | exact Sub.mono (by decide) hm

theorem State.deferRecord_kept {p : Piece} {d : Deferred} (hm : Sub 0xE8000E pq) (hI : s.Kept pq) : (State.deferRecord s p d).Kept pq := by
  unfold State.deferRecord
  repeat' first
    | with_reducible assumption
    | (extract_lets +onlyGivenNames s1; refine State.Kept.cut (s := s1) (p := pq) ?_ (fun _ => ?_); rotate_left; clear_value s1; rotate_left; dsimp -zeta only [s1]; clear s1)
    | with_reducible apply State.libAppend_kept
    | with_reducible apply State.poisonAdd_kept
    | with_reducible apply State.modWin_kept
    | exact Sub.mono (by decide) hm
    | split

theorem State.deferPiece_kept {p : Piece} {cause : Nat} (hm : Sub 0x1E8020E pq) (hI : s.Kept pq) : (State.deferPiece s p cause).Kept pq := by
  unfold State.deferPiece
  repeat' first
    | with_reducible assumption
    | with_reducible apply State.deferRecord_kept
    | with_reducible apply State.deferSay_kept
    | exact Sub.mono (by decide) hm

theorem State.deferSilent_kept {p : Piece} {cause : Nat} (hm : Sub 0xE8000E pq) (hI : s.Kept pq) : (State.deferSilent s p cause).Kept pq := by
  unfold State.deferSilent
  repeat' first
    | with_reducible assumption
    | with_reducible apply State.deferRecord_kept
    | with_reducible apply State.modWin_kept
    | exact Sub.mono (by decide) hm

theorem State.saySilent_kept (hm : Sub 0x1800206 pq) (hI : s.Kept pq) : (State.saySilent s).Kept pq := by
  unfold State.saySilent
  repeat' first
    | with_reducible assumption
    | (extract_lets +onlyGivenNames x1; clear_value x1)
    | (intro x y hx; beta_reduce)
    | with_reducible apply State.deferSay_kept
    | with_reducible apply State.modWin_kept
    | with_reducible apply State.Kept.foldl
    | exact Sub.mono (by decide) hm

theorem execDeferredError_kept {asn : DWord} {lba : Nat} {cause : Nat} (hm : Sub 0x1E8020E pq) (hI : s.Kept pq) : ∃ s1, execDeferredError asn lba cause s = .next s1 ∧ s1.Kept pq := by
  unfold execDeferredError
  refine ⟨_, rfl, ?_⟩
  repeat' first
    | with_reducible assumption
    | with_reducible apply State.deferPiece_kept
    | split

theorem State.pieceOut_kept {p : Piece} (hm : Sub 0xC0010C pq) (hI : s.Kept pq) : (State.pieceOut s p).Kept pq := by
  unfold State.pieceOut
  repeat' first
    | with_reducible assumption
    | (extract_lets +onlyGivenNames s1; refine State.Kept.cut (s := s1) (p := pq) ?_ (fun _ => ?_); rotate_left; clear_value s1; rotate_left; dsimp -zeta only [s1]; clear s1)
    | with_reducible apply State.crnWrite_kept
    | with_reducible apply State.modWin_kept
    | with_reducible apply State.winReturn_kept
    | exact Sub.mono (by decide) hm

theorem State.pfAt_kept {n : Nat} (hm : Sub 0x10000 pq) (hI : s.Kept pq) : (State.pfAt s n).Kept pq := by
  unfold State.pfAt
  repeat' first
    | with_reducible assumption
    | with_reducible apply State.modMtr_kept

theorem State.flushSeal_kept (hm : Sub 0xC1000E pq) (hI : s.Kept pq) : (State.flushSeal s).Kept pq := by
  unfold State.flushSeal
  repeat' first
    | with_reducible assumption
    | with_reducible apply State.libAppend_kept
    | with_reducible apply State.modWin_kept
    | with_reducible apply State.pfAt_kept
    | exact Sub.mono (by decide) hm
    | split

theorem State.abandonWrites_kept (hm : Sub 0x3E pq) (hI : s.Kept pq) : (State.abandonWrites s).Kept pq := by
  unfold State.abandonWrites
  repeat' first
    | with_reducible assumption
    | (intro x y hx; beta_reduce)
    | with_reducible apply State.forceLow_kept
    | with_reducible apply State.Kept.foldl
    | split

theorem State.enterGen_kept (hm : Sub 0xC3423E pq) (hI : s.Kept pq) : (State.enterGen s).Kept pq := by
  unfold State.enterGen
  repeat' first
    | with_reducible assumption
    | (extract_lets +onlyGivenNames s1; refine State.Kept.cut (s := s1) (p := pq) ?_ (fun _ => ?_); rotate_left; clear_value s1; rotate_left; dsimp -zeta only [s1]; clear s1)
    | (extract_lets +onlyGivenNames x1; clear_value x1)
    | with_reducible apply State.dropWindow_kept
    | with_reducible apply State.abandonWrites_kept
    | with_reducible apply State.modMtr_kept
    | with_reducible apply State.modWin_kept
    | with_reducible apply State.mtrInt_kept
    | with_reducible apply State.setSp_kept
    | with_reducible apply State.flushSeal_kept
    | with_reducible apply State.calAbortAll_kept
    | with_reducible apply State.genParked_kept
    | exact Sub.mono (by decide) hm
    | split

theorem State.powerLoss_kept {pfail : Bool} (hm : Sub 0xC3423E pq) (hI : s.Kept pq) : (State.powerLoss s pfail).Kept pq := by
  unfold State.powerLoss
  repeat' first
    | with_reducible assumption
    | (extract_lets +onlyGivenNames s1; refine State.Kept.cut (s := s1) (p := pq) ?_ (fun _ => ?_); rotate_left; clear_value s1; rotate_left; dsimp -zeta only [s1]; clear s1)
    | (extract_lets +onlyGivenNames x1; clear_value x1)
    | with_reducible apply State.setStat_kept
    | with_reducible apply State.modMtr_kept
    | with_reducible apply State.enterGen_kept
    | exact Sub.mono (by decide) hm
    | split

theorem execPowerLoss_kept {pfail : Bool} {vmot : BitVec 16} (hm : Sub 0xC3423E pq) (hI : s.Kept pq) : ∃ s1, execPowerLoss pfail vmot s = .next s1 ∧ s1.Kept pq := by
  unfold execPowerLoss
  refine ⟨_, rfl, ?_⟩
  repeat' first
    | with_reducible assumption
    | with_reducible apply State.powerLoss_kept
    | split

theorem State.flushEnd_kept {x : Side} {lost : List Piece} (hm : Sub 0x1E9020E pq) (hI : s.Kept pq) : (State.flushEnd s x lost).Kept pq := by
  unfold State.flushEnd
  repeat' first
    | with_reducible assumption
    | (extract_lets +onlyGivenNames s1; refine State.Kept.cut (s := s1) (p := pq) ?_ (fun _ => ?_); rotate_left; clear_value s1; rotate_left; dsimp -zeta only [s1]; clear s1)
    | (extract_lets +onlyGivenNames x1; clear_value x1)
    | (intro x y hx; beta_reduce)
    | with_reducible apply State.modWin_kept
    | with_reducible apply State.deferPiece_kept
    | with_reducible apply State.deferSilent_kept
    | with_reducible apply State.flushSeal_kept
    | with_reducible apply State.Kept.foldl
    | exact Sub.mono (by decide) hm

theorem execEmergencyFlush_kept {x : Side} {n : Nat} (hm : Sub 0x1E9020E pq) (hI : s.Kept pq) : ∃ s1, execEmergencyFlush x n s = .next s1 ∧ s1.Kept pq := by
  unfold execEmergencyFlush
  refine ⟨_, rfl, ?_⟩
  repeat' first
    | with_reducible assumption
    | (extract_lets +onlyGivenNames s1; refine State.Kept.cut (s := s1) (p := pq) ?_ (fun _ => ?_); rotate_left; clear_value s1; rotate_left; dsimp -zeta only [s1]; clear s1)
    | (extract_lets +onlyGivenNames x1; clear_value x1)
    | with_reducible apply State.modWin_kept
    | with_reducible apply State.pfAt_kept
    | with_reducible apply State.flushEnd_kept
    | exact Sub.mono (by decide) hm
    | split

theorem execFlushSpeedStop_kept {x : Side} (hm : Sub 0x1E9020E pq) (hI : s.Kept pq) : ∃ s1, execFlushSpeedStop x s = .next s1 ∧ s1.Kept pq := by
  unfold execFlushSpeedStop
  refine ⟨_, rfl, ?_⟩
  repeat' first
    | with_reducible assumption
    | (extract_lets +onlyGivenNames x1; clear_value x1)
    | with_reducible apply State.modWin_kept
    | with_reducible apply State.flushEnd_kept
    | exact Sub.mono (by decide) hm
    | split

theorem State.mergeBanks_kept (hm : Sub 0x400000 pq) (hI : s.Kept pq) : (State.mergeBanks s).Kept pq := by
  unfold State.mergeBanks
  repeat' first
    | with_reducible assumption
    | with_reducible apply State.modCrn_kept

theorem State.replayHalt_kept {code : BitVec 16} {p : Nat} (hm : Sub 0x1400206 pq) (hI : s.Kept pq) : (State.replayHalt s code p).Kept pq := by
  unfold State.replayHalt
  repeat' first
    | with_reducible assumption
    | (extract_lets +onlyGivenNames s1; refine State.Kept.cut (s := s1) (p := pq) ?_ (fun _ => ?_); rotate_left; clear_value s1; rotate_left; dsimp -zeta only [s1]; clear s1)
    | (intro x y hx; beta_reduce)
    | with_reducible apply State.modCrn_kept
    | with_reducible apply State.event_kept
    | with_reducible apply State.modNve_kept
    | with_reducible apply State.Kept.foldl
    | exact Sub.mono (by decide) hm
    | split

theorem State.loadImage_kept {img : ImageIn} (hm : Sub 0xB80000 pq) (hI : s.Kept pq) : (State.loadImage s img).Kept pq := by
  unfold State.loadImage
  repeat' first
    | with_reducible assumption
    | (extract_lets +onlyGivenNames s1; refine State.Kept.cut (s := s1) (p := pq) ?_ (fun _ => ?_); rotate_left; clear_value s1; rotate_left; dsimp -zeta only [s1]; clear s1)
    | (intro x hx; beta_reduce)
    | with_reducible apply State.putZent_kept
    | with_reducible apply State.modMember_kept
    | with_reducible apply State.modRedun_kept
    | with_reducible apply State.modWin_kept
    | with_reducible apply State.Kept.foldl
    | exact Sub.mono (by decide) hm

theorem State.resumeMove_kept {x : Side} (hm : Sub 0x200002 pq) (hI : s.Kept pq) : (State.resumeMove s x).Kept pq := by
  unfold State.resumeMove
  repeat' first
    | with_reducible assumption
    | (extract_lets +onlyGivenNames x1; clear_value x1)
    | with_reducible apply State.modRedun_kept
    | with_reducible apply State.freeNext_kept
    | exact Sub.mono (by decide) hm
    | split

theorem State.loadMove_kept {x : Side} {m : Option RebuildIn} (hm : Sub 0x200002 pq) (hI : s.Kept pq) : (State.loadMove s x m).Kept pq := by
  unfold State.loadMove
  repeat' first
    | with_reducible assumption
    | with_reducible apply State.modRedun_kept
    | with_reducible apply State.resumeMove_kept
    | exact Sub.mono (by decide) hm
    | split

theorem State.replayLine_kept {w : BitVec 512} (hm : Sub 0x3A84002 pq) (hI : s.Kept pq) : (State.replayLine s w).Kept pq := by
  unfold State.replayLine
  repeat' first
    | with_reducible assumption
    | (extract_lets +onlyGivenNames x1; clear_value x1)
    | with_reducible apply State.modWin_kept
    | with_reducible apply State.windowCommit_kept
    | with_reducible apply State.windowRereleased_kept
    | exact Sub.mono (by decide) hm
    | split

theorem OptKept.foldl {α : Type} {f : Option State → α → Option State} (hf : ∀ o a, OptKept pq o → OptKept pq (f o a)) :
    ∀ (l : List α) {o : Option State}, OptKept pq o → OptKept pq (l.foldl f o)
  | [], _, h => h
  | a :: t, _, h => OptKept.foldl hf t (hf _ a h)

theorem State.pieceBack_kept {x : Side} {p : Piece} {l : List (Option (List Byte))} (hm : Sub 0x4000 pq) (hI : s.Kept pq) :
    OptKept pq (State.pieceBack s x p l) := by
  unfold State.pieceBack
  refine OptKept.foldl (fun o a ho => ?_) _ (OptKept.some hI)
  split
  · split
    · exact OptKept.some (State.putSlot_kept (Sub.mono (by decide) hm) (ho.all _ rfl))
    · exact OptKept.none
  · exact OptKept.none

theorem State.piecesBack_kept {x : Side} (hm : Sub 0x1E8420E pq) : ∀ {ps : List Piece} {l : List (Option (List Byte))} {s : State},
    s.Kept pq → (s.piecesBack x ps l).Kept pq
  | [], _, _, h => h
  | p :: t, l, s, h => by
    unfold State.piecesBack
    refine State.piecesBack_kept hm (ps := t) ?_
    split
    · rename_i e
      exact (State.pieceBack_kept (Sub.mono (by decide) hm) h).all _ e
    · exact State.deferPiece_kept (Sub.mono (by decide) hm) h

theorem State.emergencyReset_kept {x : Side} (hm : Sub 0x80000 pq) (hI : s.Kept pq) : (State.emergencyReset s x).Kept pq := by
  unfold State.emergencyReset
  repeat' first
    | with_reducible assumption
    | (intro x y hx; beta_reduce)
    | with_reducible apply State.ztbDo_kept
    | with_reducible apply State.Kept.foldl

theorem State.flushBack_kept {img : ImageIn} {x : Side} (hm : Sub 0x1E8420E pq) (hI : s.Kept pq) : (State.flushBack s img x).Kept pq := by
  unfold State.flushBack
  repeat' first
    | with_reducible assumption
    | (extract_lets +onlyGivenNames s1; refine State.Kept.cut (s := s1) (p := pq) ?_ (fun _ => ?_); rotate_left; clear_value s1; rotate_left; dsimp -zeta only [s1]; clear s1)
    | (extract_lets +onlyGivenNames x1; clear_value x1)
    | (intro x y hx; beta_reduce)
    | with_reducible apply State.deferPiece_kept
    | with_reducible apply State.piecesBack_kept
    | with_reducible apply State.emergencyReset_kept
    | with_reducible apply State.Kept.foldl
    | exact Sub.mono (by decide) hm

theorem State.replayFlush_kept {img : ImageIn} (hm : Sub 0x1E8420E pq) (hI : s.Kept pq) : (State.replayFlush s img).Kept pq := by
  unfold State.replayFlush
  repeat' first
    | with_reducible assumption
    | (extract_lets +onlyGivenNames s1; refine State.Kept.cut (s := s1) (p := pq) ?_ (fun _ => ?_); rotate_left; clear_value s1; rotate_left; dsimp -zeta only [s1]; clear s1)
    | with_reducible apply State.flushBack_kept
    | with_reducible apply State.modWin_kept
    | with_reducible apply State.event_kept
    | exact Sub.mono (by decide) hm

theorem State.windowLost_kept (hm : Sub 0x1E8020E pq) (hI : s.Kept pq) : (State.windowLost s).Kept pq := by
  unfold State.windowLost
  repeat' first
    | with_reducible assumption
    | (intro x y hx; beta_reduce)
    | with_reducible apply State.deferPiece_kept
    | with_reducible apply State.Kept.foldl

theorem State.windowKept_kept {r : Side} (hm : Sub 0x1E8020E pq) (hI : s.Kept pq) : (State.windowKept s r).Kept pq := by
  unfold State.windowKept
  repeat' first
    | with_reducible assumption
    | (intro x y hx; beta_reduce)
    | with_reducible apply State.deferPiece_kept
    | with_reducible apply State.Kept.foldl

theorem State.replaySeals_kept {r : Side} {l : List (BitVec 512)} (hm : Sub 0x100 pq) (hI : s.Kept pq) : (State.replaySeals s r l).Kept pq := by
  unfold State.replaySeals
  repeat' first
    | with_reducible assumption
    | (intro x y hx; beta_reduce)
    | with_reducible apply State.modRlg_kept
    | with_reducible apply State.Kept.foldl
    | split

theorem State.replayLeases_kept {r : Side} (hm : Sub 0x100 pq) (hI : s.Kept pq) : (State.replayLeases s r).Kept pq := by
  unfold State.replayLeases
  repeat' first
    | with_reducible assumption
    | (extract_lets +onlyGivenNames x1; clear_value x1)
    | (intro x y hx; beta_reduce)
    | with_reducible apply State.modRlg_kept
    | with_reducible apply State.Kept.foldl
    | split

theorem State.nsRestore_kept (hm : Sub 0x1000000 pq) (hI : s.Kept pq) : (State.nsRestore s).Kept pq := by
  unfold State.nsRestore
  repeat' first
    | with_reducible assumption
    | (intro x y hx; beta_reduce)
    | with_reducible apply State.modNve_kept
    | with_reducible apply State.Kept.foldl
    | split

theorem State.nsBecomeReady_kept (hm : Sub 0x1000000 pq) (hI : s.Kept pq) : (State.nsBecomeReady s).Kept pq := by
  unfold State.nsBecomeReady
  repeat' first
    | with_reducible assumption
    | (intro x y hx; beta_reduce)
    | with_reducible apply State.modNve_kept
    | with_reducible apply State.Kept.foldl
    | split

theorem State.replay_kept {r : Side} {img : ImageIn} (hm : Sub 0x3F8430E pq) (hI : s.Kept pq) : (State.replay s r img).Kept pq := by
  unfold State.replay
  repeat' first
    | with_reducible assumption
    | (extract_lets +onlyGivenNames s1; refine State.Kept.cut (s := s1) (p := pq) ?_ (fun _ => ?_); rotate_left; clear_value s1; rotate_left; dsimp -zeta only [s1]; clear s1)
    | (extract_lets +onlyGivenNames x1; clear_value x1)
    | (intro x y hx; beta_reduce)
    | with_reducible apply State.mergeBanks_kept
    | with_reducible apply State.nsRestore_kept
    | with_reducible apply State.modCrn_kept
    | with_reducible apply State.replayHalt_kept
    | with_reducible apply State.event_kept
    | with_reducible apply State.loadImage_kept
    | with_reducible apply State.loadMove_kept
    | with_reducible apply State.replayLine_kept
    | with_reducible apply State.saySilent_kept
    | with_reducible apply State.replayFlush_kept
    | with_reducible apply State.windowLost_kept
    | with_reducible apply State.windowKept_kept
    | with_reducible apply State.modWin_kept
    | with_reducible apply State.replaySeals_kept
    | with_reducible apply State.replayLeases_kept
    | with_reducible apply State.nsBecomeReady_kept
    | with_reducible apply State.Kept.foldl
    | exact Sub.mono (by decide) hm
    | split

theorem execReplay_kept {r : Side} {img : ImageIn} (hm : Sub 0x3F8430E pq) (hI : s.Kept pq) : ∃ s1, execReplay r img s = .next s1 ∧ s1.Kept pq := by
  unfold execReplay
  refine ⟨_, rfl, ?_⟩
  repeat' first
    | with_reducible assumption
    | with_reducible apply State.replay_kept
    | split

end Sys2Proof.Machine
end

