-- ==== Sys2Proof/Laws/KeptMembers.lean ====
section
/-!
SUPPORT. The operations of Machine/Members.lean keep what they do not write.
-/
set_option Elab.async false
set_option linter.unusedTactic false
set_option linter.unreachableTactic false
namespace Sys2Proof.Machine

variable {pq : Nat × State} {s : State}

theorem State.setMember_kept {x : Side} {h : Nat} {m : Member} (hm : Sub 0x100000 pq) (hI : s.Kept pq) : (State.setMember s x h m).Kept pq := by
  unfold State.setMember
  repeat' first
    | with_reducible assumption
    | with_reducible apply State.modMember_kept

theorem State.asyncAll_kept {k : Nat} (hm : Sub 0x1000000 pq) (hI : s.Kept pq) : (State.asyncAll s k).Kept pq := by
  unfold State.asyncAll
  repeat' first
    | with_reducible assumption
    | with_reducible apply State.asyncTo_kept

theorem State.memberTo_kept {x : Side} {h : Nat} {st : MemberSt} {trig : Nat} (hm : Sub 0x150020E pq) (hI : s.Kept pq) : (State.memberTo s x h st trig).Kept pq := by
  unfold State.memberTo
  repeat' first
    | with_reducible assumption
    | with_reducible apply State.setMember_kept
    | with_reducible apply State.libAppend_kept
    | with_reducible apply State.event_kept
    | with_reducible apply State.asyncAll_kept
    | exact Sub.mono (by decide) hm

theorem State.degsetAll_kept {x : Side} {h : Nat} (hm : Sub 0x80000 pq) (hI : s.Kept pq) : (State.degsetAll s x h).Kept pq := by
  unfold State.degsetAll
  repeat' first
    | with_reducible assumption
    | (intro x y hx; beta_reduce)
    | with_reducible apply State.ztbDo_kept
    | with_reducible apply State.Kept.foldl

theorem State.moveStart_kept {x : Side} {d : Nat} (hm : Sub 0x200206 pq) (hI : s.Kept pq) : (State.moveStart s x d).Kept pq := by
  unfold State.moveStart
  repeat' first
    | with_reducible assumption
    | (extract_lets +onlyGivenNames s1; refine State.Kept.cut (s := s1) (p := pq) ?_ (fun _ => ?_); rotate_left; clear_value s1; rotate_left; dsimp -zeta only [s1]; clear s1)
    | (extract_lets +onlyGivenNames x1; clear_value x1)
    | with_reducible apply State.modRedun_kept
    | with_reducible apply State.event_kept
    | exact Sub.mono (by decide) hm
    | split

theorem State.rebuildStart_kept {x : Side} (hm : Sub 0x200206 pq) (hI : s.Kept pq) : (State.rebuildStart s x).Kept pq := by
  unfold State.rebuildStart
  repeat' first
    | with_reducible assumption
    | with_reducible apply State.moveStart_kept

theorem State.memberFail_kept {x : Side} {h : Nat} {trig : Nat} (hm : Sub 0x3F8430E pq) (hI : s.Kept pq) : (State.memberFail s x h trig).Kept pq := by
  unfold State.memberFail
  repeat' first
    | with_reducible assumption
    | (extract_lets +onlyGivenNames s1; refine State.Kept.cut (s := s1) (p := pq) ?_ (fun _ => ?_); rotate_left; clear_value s1; rotate_left; dsimp -zeta only [s1]; clear s1)
    | with_reducible apply State.memberTo_kept
    | with_reducible apply State.degsetAll_kept
    | with_reducible apply State.rebuildStart_kept
    | with_reducible apply State.libCompact_kept
    | exact Sub.mono (by decide) hm
    | split

theorem State.reshapeCall_kept {x : Side} {d : Nat} {out : List Nat} (hm : Sub 0x200206 pq) (hI : s.Kept pq) : (State.reshapeCall s x d out).Kept pq := by
  unfold State.reshapeCall
  repeat' first
    | with_reducible assumption
    | (extract_lets +onlyGivenNames x1; clear_value x1)
    | with_reducible apply State.modRedun_kept
    | with_reducible apply State.moveStart_kept
    | exact Sub.mono (by decide) hm
    | split

theorem State.memberTrigger_kept {x : Side} {h : Nat} {trig : Nat} {n : Nat} (hm : Sub 0x3F8430E pq) (hI : s.Kept pq) : (State.memberTrigger s x h trig n).Kept pq := by
  unfold State.memberTrigger
  repeat' first
    | with_reducible assumption
    | (extract_lets +onlyGivenNames x1; clear_value x1)
    | with_reducible apply State.memberFail_kept
    | with_reducible apply State.memberTo_kept
    | exact Sub.mono (by decide) hm
    | split

theorem execMemberStateChange_kept {x : Side} {h : BitVec 4} {trig : BitVec 4} {n : Nat} (hm : Sub 0x3F8430E pq) (hI : s.Kept pq) : ∃ s1, execMemberStateChange x h trig n s = .next s1 ∧ s1.Kept pq := by
  unfold execMemberStateChange
  refine ⟨_, rfl, ?_⟩
  repeat' first
    | with_reducible assumption
    | with_reducible apply State.memberTrigger_kept

theorem State.reshapeFirst_kept {x : Side} (hm : Sub 0x1200206 pq) (hI : s.Kept pq) : (State.reshapeFirst s x).Kept pq := by
  unfold State.reshapeFirst
  repeat' first
    | with_reducible assumption
    | (extract_lets +onlyGivenNames s1; refine State.Kept.cut (s := s1) (p := pq) ?_ (fun _ => ?_); rotate_left; clear_value s1; rotate_left; dsimp -zeta only [s1]; clear s1)
    | (extract_lets +onlyGivenNames x1; clear_value x1)
    | with_reducible apply State.modRedun_kept
    | with_reducible apply State.event_kept
    | with_reducible apply State.asyncAll_kept
    | exact Sub.mono (by decide) hm
    | split

theorem State.rebind_kept {x : Side} {i : Nat} {e : ZEntry} (hm : Sub 0x1280206 pq) (hI : s.Kept pq) : (State.rebind s x i e).Kept pq := by
  unfold State.rebind
  repeat' first
    | with_reducible assumption
    | (extract_lets +onlyGivenNames x1; clear_value x1)
    | with_reducible apply State.putZent_kept
    | with_reducible apply State.bumpGen_kept
    | with_reducible apply State.reshapeFirst_kept
    | exact Sub.mono (by decide) hm

theorem State.bgDone_kept {x : Side} {i : Nat} {path : Nat} (hm : Sub 0x60020E pq) (hI : s.Kept pq) : (State.bgDone s x i path).Kept pq := by
  unfold State.bgDone
  repeat' first
    | with_reducible assumption
    | (extract_lets +onlyGivenNames s1; refine State.Kept.cut (s := s1) (p := pq) ?_ (fun _ => ?_); rotate_left; clear_value s1; rotate_left; dsimp -zeta only [s1]; clear s1)
    | with_reducible apply State.modRedun_kept
    | with_reducible apply State.event_kept
    | with_reducible apply State.libAppend_kept
    | exact Sub.mono (by decide) hm

theorem State.logStaged_kept {k : Nat} {l : List StgCopy} (hm : Sub 0x880000 pq) (hI : s.Kept pq) : (State.logStaged s k l).Kept pq := by
  unfold State.logStaged
  repeat' first
    | with_reducible assumption
    | (extract_lets +onlyGivenNames s1; refine State.Kept.cut (s := s1) (p := pq) ?_ (fun _ => ?_); rotate_left; clear_value s1; rotate_left; dsimp -zeta only [s1]; clear s1)
    | (extract_lets +onlyGivenNames x1; clear_value x1)
    | with_reducible apply State.putZent_kept
    | with_reducible apply State.modWin_kept
    | with_reducible apply State.stgAdd_kept
    | exact Sub.mono (by decide) hm

theorem State.stage_kept {x : Side} {ns : Nat} {home : Nat} {asn : DWord} {offs : List Nat} (hm : Sub 0xC8000E pq) (hI : s.Kept pq) : (State.stage s x ns home asn offs).Kept pq := by
  unfold State.stage
  repeat' first
    | with_reducible assumption
    | (extract_lets +onlyGivenNames s1; refine State.Kept.cut (s := s1) (p := pq) ?_ (fun _ => ?_); rotate_left; clear_value s1; rotate_left; dsimp -zeta only [s1]; clear s1)
    | with_reducible apply State.unstage_kept
    | with_reducible apply State.logStaged_kept
    | with_reducible apply State.stgAdd_kept
    | with_reducible apply State.libAppend_kept
    | exact Sub.mono (by decide) hm
    | split

theorem State.restage_kept {x : Side} {i : Nat} (hm : Sub 0xC8000E pq) (hI : s.Kept pq) : (State.restage s x i).Kept pq := by
  unfold State.restage
  repeat' first
    | with_reducible assumption
    | (extract_lets +onlyGivenNames s1; refine State.Kept.cut (s := s1) (p := pq) ?_ (fun _ => ?_); rotate_left; clear_value s1; rotate_left; dsimp -zeta only [s1]; clear s1)
    | (extract_lets +onlyGivenNames x1; clear_value x1)
    | with_reducible apply State.modWin_kept
    | with_reducible apply State.stgAdd_kept
    | with_reducible apply State.logStaged_kept
    | with_reducible apply State.libAppend_kept
    | exact Sub.mono (by decide) hm
    | split

theorem State.finishZone_kept {x : Side} {i : Nat} (hm : Sub 0x280000 pq) (hI : s.Kept pq) : (State.finishZone s x i).Kept pq := by
  unfold State.finishZone
  repeat' first
    | with_reducible assumption
    | (extract_lets +onlyGivenNames x1; clear_value x1)
    | with_reducible apply State.putZent_kept
    | with_reducible apply State.bumpGen_kept
    | with_reducible apply State.modRedun_kept
    | exact Sub.mono (by decide) hm
    | split

theorem State.rebuildOne_kept {x : Side} {i : Nat} {e : ZEntry} (hm : Sub 0x3E8430E pq) (hI : s.Kept pq) : (State.rebuildOne s x i e).Kept pq := by
  unfold State.rebuildOne
  repeat' first
    | with_reducible assumption
    | (extract_lets +onlyGivenNames s1; refine State.Kept.cut (s := s1) (p := pq) ?_ (fun _ => ?_); rotate_left; clear_value s1; rotate_left; dsimp -zeta only [s1]; clear s1)
    | (extract_lets +onlyGivenNames x1; clear_value x1)
    | with_reducible apply State.putZent_kept
    | with_reducible apply State.bumpGen_kept
    | with_reducible apply State.reshapeFirst_kept
    | with_reducible apply State.modRedun_kept
    | with_reducible apply State.finishZone_kept
    | with_reducible apply State.stage_kept
    | with_reducible apply State.bgDone_kept
    | with_reducible apply State.restage_kept
    | with_reducible apply State.rebind_kept
    | with_reducible apply State.libCompact_kept
    | exact Sub.mono (by decide) hm
    | split

theorem State.freeOld_kept {x : Side} (hm : Sub 0x280000 pq) (hI : s.Kept pq) : (State.freeOld s x).Kept pq := by
  unfold State.freeOld
  repeat' first
    | with_reducible assumption
    | (extract_lets +onlyGivenNames s1; refine State.Kept.cut (s := s1) (p := pq) ?_ (fun _ => ?_); rotate_left; clear_value s1; rotate_left; dsimp -zeta only [s1]; clear s1)
    | (extract_lets +onlyGivenNames x1; clear_value x1)
    | (intro x y hx; beta_reduce)
    | with_reducible apply State.putZent_kept
    | with_reducible apply State.bumpGen_kept
    | with_reducible apply State.modRedun_kept
    | with_reducible apply State.Kept.foldl
    | exact Sub.mono (by decide) hm

theorem execRebuildBandGroup_kept {x : Side} {call : Option (Nat × List Nat)} (hm : Sub 0x3E8430E pq) (hI : s.Kept pq) : ∃ s1, execRebuildBandGroup x call s = .next s1 ∧ s1.Kept pq := by
  unfold execRebuildBandGroup
  refine ⟨_, rfl, ?_⟩
  repeat' first
    | with_reducible assumption
    | (extract_lets +onlyGivenNames s1; refine State.Kept.cut (s := s1) (p := pq) ?_ (fun _ => ?_); rotate_left; clear_value s1; rotate_left; dsimp -zeta only [s1]; clear s1)
    | (extract_lets +onlyGivenNames x1; clear_value x1)
    | with_reducible apply State.reshapeCall_kept
    | with_reducible apply State.freeOld_kept
    | with_reducible apply State.modRedun_kept
    | with_reducible apply State.rebuildOne_kept
    | exact Sub.mono (by decide) hm
    | split

theorem execRebuildWait_kept {x : Side} (hm : Sub 0x200206 pq) (hI : s.Kept pq) : ∃ s1, execRebuildWait x s = .next s1 ∧ s1.Kept pq := by
  unfold execRebuildWait
  refine ⟨_, rfl, ?_⟩
  repeat' first
    | with_reducible assumption
    | (extract_lets +onlyGivenNames x1; clear_value x1)
    | with_reducible apply State.modRedun_kept
    | with_reducible apply State.event_kept
    | exact Sub.mono (by decide) hm
    | split

theorem execRebuildCheckpoint_kept {x : Side} (hm : Sub 0x60000E pq) (hI : s.Kept pq) : ∃ s1, execRebuildCheckpoint x s = .next s1 ∧ s1.Kept pq := by
  unfold execRebuildCheckpoint
  refine ⟨_, rfl, ?_⟩
  repeat' first
    | with_reducible assumption
    | with_reducible apply State.modRedun_kept
    | with_reducible apply State.libAppend_kept
    | exact Sub.mono (by decide) hm
    | split

theorem State.cutover_kept {x : Side} {i : Nat} {n : Nat} (hm : Sub 0xE8020E pq) (hI : s.Kept pq) : (State.cutover s x i n).Kept pq := by
  unfold State.cutover
  repeat' first
    | with_reducible assumption
    | (extract_lets +onlyGivenNames s1; refine State.Kept.cut (s := s1) (p := pq) ?_ (fun _ => ?_); rotate_left; clear_value s1; rotate_left; dsimp -zeta only [s1]; clear s1)
    | (extract_lets +onlyGivenNames x1; clear_value x1)
    | with_reducible apply State.libAppend_kept
    | with_reducible apply State.putZent_kept
    | with_reducible apply State.stage_kept
    | with_reducible apply State.modRedun_kept
    | with_reducible apply State.bumpGen_kept
    | with_reducible apply State.bgDone_kept
    | exact Sub.mono (by decide) hm
    | split

theorem execMigrationCutover_kept {x : Side} (hm : Sub 0xE8020E pq) (hI : s.Kept pq) : ∃ s1, execMigrationCutover x s = .next s1 ∧ s1.Kept pq := by
  unfold execMigrationCutover
  refine ⟨_, rfl, ?_⟩
  repeat' first
    | with_reducible assumption
    | with_reducible apply State.cutover_kept
    | split

theorem execMediaWindowShare_kept {x : Side} (hm : Sub 0x200000 pq) (hI : s.Kept pq) : ∃ s1, execMediaWindowShare x s = .next s1 ∧ s1.Kept pq := by
  unfold execMediaWindowShare
  refine ⟨_, rfl, ?_⟩
  repeat' first
    | with_reducible assumption
    | with_reducible apply State.modRedun_kept

theorem State.poisonLbas_kept {i : Nat} {stripe : Nat} {off : Nat} {er : List Nat} {conv : List Nat} (hm : Sub 0x168020E pq) (hI : s.Kept pq) : (State.poisonLbas s i stripe off er conv).Kept pq := by
  unfold State.poisonLbas
  repeat' first
    | with_reducible assumption
    | (intro x y hx; beta_reduce)
    | with_reducible apply State.poisonAdd_kept
    | with_reducible apply State.event_kept
    | with_reducible apply State.asyncAll_kept
    | with_reducible apply State.Kept.foldl
    | exact Sub.mono (by decide) hm

theorem execLbaPoison_kept {i : BitVec 17} {stripe : Nat} {off : Nat} {er : List Nat} {conv : List Nat} (hm : Sub 0x168020E pq) (hI : s.Kept pq) : ∃ s1, execLbaPoison i stripe off er conv s = .next s1 ∧ s1.Kept pq := by
  unfold execLbaPoison
  refine ⟨_, rfl, ?_⟩
  repeat' first
    | with_reducible assumption
    | (extract_lets +onlyGivenNames x1; clear_value x1)
    | with_reducible apply State.poisonLbas_kept
    | split

theorem execGenerationSwitch_kept {x : Side} (hm : Sub 0x170020E pq) (hI : s.Kept pq) : ∃ s1, execGenerationSwitch x s = .next s1 ∧ s1.Kept pq := by
  unfold execGenerationSwitch
  refine ⟨_, rfl, ?_⟩
  repeat' first
    | with_reducible assumption
    | (extract_lets +onlyGivenNames s1; refine State.Kept.cut (s := s1) (p := pq) ?_ (fun _ => ?_); rotate_left; clear_value s1; rotate_left; dsimp -zeta only [s1]; clear s1)
    | (extract_lets +onlyGivenNames x1; clear_value x1)
    | (intro x y hx; beta_reduce)
    | with_reducible apply State.libAppend_kept
    | with_reducible apply State.modRedun_kept
    | with_reducible apply State.memberTo_kept
    | with_reducible apply State.event_kept
    | with_reducible apply State.asyncAll_kept
    | with_reducible apply State.Kept.foldl
    | exact Sub.mono (by decide) hm
    | split

theorem State.pieceMoves_kept {x : Side} {p : Piece} (hm : Sub 0xC8010E pq) (hI : s.Kept pq) : (State.pieceMoves s x p).Kept pq := by
  unfold State.pieceMoves
  repeat' first
    | with_reducible assumption
    | with_reducible apply State.stage_kept
    | with_reducible apply State.pieceOut_kept
    | exact Sub.mono (by decide) hm

theorem State.windowMoves_kept {x : Side} (hm : Sub 0xC8010E pq) (hI : s.Kept pq) : (State.windowMoves s x).Kept pq := by
  unfold State.windowMoves
  repeat' first
    | with_reducible assumption
    | (intro x y hx; beta_reduce)
    | with_reducible apply State.pieceMoves_kept
    | with_reducible apply State.Kept.foldl
    | split

theorem State.actuatorLost_kept {x : Side} {cause : Nat} (hm : Sub 0xEB030E pq) (hI : s.Kept pq) : (State.actuatorLost s x cause).Kept pq := by
  unfold State.actuatorLost
  repeat' first
    | with_reducible assumption
    | (extract_lets +onlyGivenNames s1; refine State.Kept.cut (s := s1) (p := pq) ?_ (fun _ => ?_); rotate_left; clear_value s1; rotate_left; dsimp -zeta only [s1]; clear s1)
    | (intro x y hx; beta_reduce)
    | with_reducible apply State.modRedun_kept
    | with_reducible apply State.retract_kept
    | with_reducible apply State.event_kept
    | with_reducible apply State.putZent_kept
    | with_reducible apply State.bumpGen_kept
    | with_reducible apply State.windowMoves_kept
    | with_reducible apply State.Kept.foldl
    | exact Sub.mono (by decide) hm
    | split

theorem execActuatorLoss_kept {x : Side} {cause : Nat} (hm : Sub 0xEB030E pq) (hI : s.Kept pq) : ∃ s1, execActuatorLoss x cause s = .next s1 ∧ s1.Kept pq := by
  unfold execActuatorLoss
  refine ⟨_, rfl, ?_⟩
  repeat' first
    | with_reducible assumption
    | with_reducible apply State.actuatorLost_kept
    | split

theorem State.relog_kept {x : Side} {i : Nat} {e : ZEntry} {stripe : Nat} {bitmap : Word} (hm : Sub 0xE8020E pq) (hI : s.Kept pq) : (State.relog s x i e stripe bitmap).Kept pq := by
  unfold State.relog
  repeat' first
    | with_reducible assumption
    | (extract_lets +onlyGivenNames s1; refine State.Kept.cut (s := s1) (p := pq) ?_ (fun _ => ?_); rotate_left; clear_value s1; rotate_left; dsimp -zeta only [s1]; clear s1)
    | with_reducible apply State.stage_kept
    | with_reducible apply State.modRedun_kept
    | with_reducible apply State.event_kept
    | exact Sub.mono (by decide) hm

theorem State.scrubOutcome_kept {x : Side} {i : Nat} {e : ZEntry} {stripe : Nat} {out : Nat} {m : Nat} {bitmap : Word} {off : Nat} {er : List Nat} {conv : List Nat} (hm : Sub 0x1F8020E pq) (hI : s.Kept pq) : (State.scrubOutcome s x i e stripe out m bitmap off er conv).Kept pq := by
  unfold State.scrubOutcome
  repeat' first
    | with_reducible assumption
    | with_reducible apply State.logL3_kept
    | with_reducible apply State.relog_kept
    | with_reducible apply State.poisonLbas_kept
    | exact Sub.mono (by decide) hm
    | split

theorem execScrubStripe_kept {x : Side} {out : BitVec 4} {m : BitVec 4} {gen : Word} {bitmap : Word} {off : Nat} {er : List Nat} {conv : List Nat} (hm : Sub 0x1F8020E pq) (hI : s.Kept pq) : ∃ s1, execScrubStripe x out m gen bitmap off er conv s = .next s1 ∧ s1.Kept pq := by
  unfold execScrubStripe
  refine ⟨_, rfl, ?_⟩
  repeat' first
    | with_reducible assumption
    | (extract_lets +onlyGivenNames s1; refine State.Kept.cut (s := s1) (p := pq) ?_ (fun _ => ?_); rotate_left; clear_value s1; rotate_left; dsimp -zeta only [s1]; clear s1)
    | (extract_lets +onlyGivenNames x1; clear_value x1)
    | with_reducible apply State.modRedun_kept
    | with_reducible apply State.event_kept
    | with_reducible apply State.scrubOutcome_kept
    | exact Sub.mono (by decide) hm
    | split

theorem execScrubPassLate_kept {x : Side} {days : Nat} (hm : Sub 0x206 pq) (hI : s.Kept pq) : ∃ s1, execScrubPassLate x days s = .next s1 ∧ s1.Kept pq := by
  unfold execScrubPassLate
  refine ⟨_, rfl, ?_⟩
  repeat' first
    | with_reducible assumption
    | with_reducible apply State.event_kept

end Sys2Proof.Machine
end

