-- ==== Sys2Proof/Laws/KeptRecorder.lean ====
section
/-!
SUPPORT. The operations of Machine/Recorder.lean keep what they do not write.
-/
set_option Elab.async false
set_option linter.unusedTactic false
set_option linter.unreachableTactic false
namespace Sys2Proof.Machine

variable {pq : Nat × State} {s : State}

theorem State.evrInt_kept {i : Nat} (hm : Sub 0x4 pq) (hI : s.Kept pq) : (State.evrInt s i).Kept pq := by
  unfold State.evrInt
  repeat' first
    | with_reducible assumption
    | with_reducible apply State.setStat_kept

theorem State.dropGroup_kept {c : CtxId} (hm : Sub 0x204 pq) (hI : s.Kept pq) : (State.dropGroup s c).Kept pq := by
  unfold State.dropGroup
  repeat' first
    | with_reducible assumption
    | (extract_lets +onlyGivenNames s1; refine State.Kept.cut (s := s1) (p := pq) ?_ (fun _ => ?_); rotate_left; clear_value s1; rotate_left; dsimp -zeta only [s1]; clear s1)
    | with_reducible apply State.modEvr_kept
    | with_reducible apply State.evrInt_kept
    | exact Sub.mono (by decide) hm
    | split

theorem State.postFirst_kept {c : CtxId} {code : BitVec 16} {cont : Nat} {cls : Bool} {ps : List Word} (hm : Sub 0x20C pq) (hI : s.Kept pq) : (State.postFirst s c code cont cls ps).Kept pq := by
  unfold State.postFirst
  repeat' first
    | with_reducible assumption
    | (extract_lets +onlyGivenNames s1; refine State.Kept.cut (s := s1) (p := pq) ?_ (fun _ => ?_); rotate_left; clear_value s1; rotate_left; dsimp -zeta only [s1]; clear s1)
    | with_reducible apply State.dropGroup_kept
    | with_reducible apply State.evrInt_kept
    | with_reducible apply State.refuseCtx_kept
    | with_reducible apply State.postGroup_kept
    | exact Sub.mono (by decide) hm
    | split

theorem State.postCont_kept {c : CtxId} {ps : List Word} (hm : Sub 0x204 pq) (hI : s.Kept pq) : (State.postCont s c ps).Kept pq := by
  unfold State.postCont
  repeat' first
    | with_reducible assumption
    | with_reducible apply State.evrInt_kept
    | with_reducible apply State.modEvr_kept
    | exact Sub.mono (by decide) hm
    | split

theorem State.evrPost_kept {c : CtxId} {rom : Bool} (hm : Sub 0x20C pq) (hI : s.Kept pq) : (State.evrPost s c rom).Kept pq := by
  unfold State.evrPost
  repeat' first
    | with_reducible assumption
    | (extract_lets +onlyGivenNames x1; clear_value x1)
    | with_reducible apply State.refuseCtx_kept
    | with_reducible apply State.modEvr_kept
    | with_reducible apply State.postCont_kept
    | with_reducible apply State.postFirst_kept
    | exact Sub.mono (by decide) hm
    | split

theorem execEventPost_kept {c : CtxId} {rom : Bool} (hm : Sub 0x20C pq) (hI : s.Kept pq) : ∃ s1, execEventPost c rom s = .next s1 ∧ s1.Kept pq := by
  unfold execEventPost
  refine ⟨_, rfl, ?_⟩
  repeat' first
    | with_reducible assumption
    | (intro x hx; beta_reduce)
    | with_reducible apply State.byCtx_kept
    | with_reducible apply State.evrPost_kept

theorem execGroupExpiry_kept {c : CtxId} (hm : Sub 0x204 pq) (hI : s.Kept pq) : ∃ s1, execGroupExpiry c s = .next s1 ∧ s1.Kept pq := by
  unfold execGroupExpiry
  refine ⟨_, rfl, ?_⟩
  repeat' first
    | with_reducible assumption
    | with_reducible apply State.dropGroup_kept

theorem State.summary_kept {n : Nat} (hm : Sub 0x202 pq) (hI : s.Kept pq) : (State.summary s n).Kept pq := by
  unfold State.summary
  repeat' first
    | with_reducible assumption
    | with_reducible apply State.modEvr_kept
    | with_reducible apply State.freeNext_kept
    | exact Sub.mono (by decide) hm

theorem execTokenRefill_kept {bucket : BitVec 11} (hm : Sub 0x202 pq) (hI : s.Kept pq) : ∃ s1, execTokenRefill bucket s = .next s1 ∧ s1.Kept pq := by
  unfold execTokenRefill
  refine ⟨_, rfl, ?_⟩
  repeat' first
    | with_reducible assumption
    | (extract_lets +onlyGivenNames x1; clear_value x1)
    | with_reducible apply State.summary_kept
    | with_reducible apply State.modEvr_kept
    | exact Sub.mono (by decide) hm
    | split

theorem State.copySeal_kept {line : BitVec 512} (hm : Sub 0x200 pq) (hI : s.Kept pq) : (State.copySeal s line).Kept pq := by
  unfold State.copySeal
  repeat' first
    | with_reducible assumption
    | with_reducible apply State.modEvr_kept
    | split

theorem State.writeArea_kept (hm : Sub 0x400000 pq) (hI : s.Kept pq) : (State.writeArea s).Kept pq := by
  unfold State.writeArea
  repeat' first
    | with_reducible assumption
    | (intro x hx; beta_reduce)
    | with_reducible apply State.putLine_kept
    | with_reducible apply State.Kept.foldl

theorem State.keepSpan_kept {p : Span} {isSealed : Bool} (hm : Sub 0x400200 pq) (hI : s.Kept pq) : (State.keepSpan s p isSealed).Kept pq := by
  unfold State.keepSpan
  repeat' first
    | with_reducible assumption
    | with_reducible apply State.modEvr_kept
    | with_reducible apply State.writeArea_kept
    | exact Sub.mono (by decide) hm

theorem State.measStep_kept {r : EvRec} (hm : Sub 0x600 pq) (hI : s.Kept pq) : (State.measStep s r).Kept pq := by
  unfold State.measStep
  repeat' first
    | with_reducible assumption
    | (extract_lets +onlyGivenNames s1; refine State.Kept.cut (s := s1) (p := pq) ?_ (fun _ => ?_); rotate_left; clear_value s1; rotate_left; dsimp -zeta only [s1]; clear s1)
    | with_reducible apply State.modEvr_kept
    | with_reducible apply State.modCry_kept
    | exact Sub.mono (by decide) hm
    | split

theorem State.spanStep_kept {seq : BitVec 48} {r : EvRec} {line : BitVec 512} (hm : Sub 0x400204 pq) (hI : s.Kept pq) : (State.spanStep s seq r line).Kept pq := by
  unfold State.spanStep
  repeat' first
    | with_reducible assumption
    | (extract_lets +onlyGivenNames s1; refine State.Kept.cut (s := s1) (p := pq) ?_ (fun _ => ?_); rotate_left; clear_value s1; rotate_left; dsimp -zeta only [s1]; clear s1)
    | (extract_lets +onlyGivenNames x1; clear_value x1)
    | with_reducible apply State.keepSpan_kept
    | with_reducible apply State.evrInt_kept
    | with_reducible apply State.modEvr_kept
    | with_reducible apply State.copySeal_kept
    | exact Sub.mono (by decide) hm
    | split

theorem State.sigDone_kept (hm : Sub 0x400200 pq) (hI : s.Kept pq) : (State.sigDone s).Kept pq := by
  unfold State.sigDone
  repeat' first
    | with_reducible assumption
    | with_reducible apply State.keepSpan_kept
    | split

theorem State.recordWrite_kept (hm : Sub 0x400604 pq) (hI : s.Kept pq) : (State.recordWrite s).Kept pq := by
  unfold State.recordWrite
  repeat' first
    | with_reducible assumption
    | with_reducible apply State.modEvr_kept
    | with_reducible apply State.putLine_kept
    | with_reducible apply State.spanStep_kept
    | with_reducible apply State.measStep_kept
    | with_reducible apply State.sigDone_kept
    | exact Sub.mono (by decide) hm
    | split

theorem execRecordWrite_kept (hm : Sub 0x400604 pq) (hI : s.Kept pq) : ∃ s1, execRecordWrite s = .next s1 ∧ s1.Kept pq := by
  unfold execRecordWrite
  refine ⟨_, rfl, ?_⟩
  repeat' first
    | with_reducible assumption
    | with_reducible apply State.recordWrite_kept
    | split

theorem execOtCheckpoint_kept (hm : Sub 0x206 pq) (hI : s.Kept pq) : ∃ s1, execOtCheckpoint s = .next s1 ∧ s1.Kept pq := by
  unfold execOtCheckpoint
  refine ⟨_, rfl, ?_⟩
  repeat' first
    | with_reducible assumption
    | (extract_lets +onlyGivenNames x1; clear_value x1)
    | with_reducible apply State.event_kept
    | split

theorem execRingScan_kept (hm : Sub 0x200 pq) (hI : s.Kept pq) : ∃ s1, execRingScan s = .next s1 ∧ s1.Kept pq := by
  unfold execRingScan
  refine ⟨_, rfl, ?_⟩
  repeat' first
    | with_reducible assumption
    | with_reducible apply State.modEvr_kept
    | split

theorem State.ownRecord_kept {code : BitVec 16} {flags : Nat} {ps : List (Nat × Word)} (hm : Sub 0x206 pq) (hI : s.Kept pq) : (State.ownRecord s code flags ps).Kept pq := by
  unfold State.ownRecord
  repeat' first
    | with_reducible assumption
    | with_reducible apply State.postGroup_kept
    | with_reducible apply State.freeNext_kept
    | exact Sub.mono (by decide) hm

theorem State.calendarSet_kept {data : Word} (hm : Sub 0x206 pq) (hI : s.Kept pq) : (State.calendarSet s data).Kept pq := by
  unfold State.calendarSet
  repeat' first
    | with_reducible assumption
    | (extract_lets +onlyGivenNames s1; refine State.Kept.cut (s := s1) (p := pq) ?_ (fun _ => ?_); rotate_left; clear_value s1; rotate_left; dsimp -zeta only [s1]; clear s1)
    | (extract_lets +onlyGivenNames x1; clear_value x1)
    | with_reducible apply State.modEvr_kept
    | with_reducible apply State.ownRecord_kept
    | with_reducible apply State.evrInt_kept
    | exact Sub.mono (by decide) hm
    | split

theorem execCalendarSet_kept {data : Word} (hm : Sub 0x206 pq) (hI : s.Kept pq) : ∃ s1, execCalendarSet data s = .next s1 ∧ s1.Kept pq := by
  unfold execCalendarSet
  refine ⟨_, rfl, ?_⟩
  repeat' first
    | with_reducible assumption
    | with_reducible apply State.calendarSet_kept
    | split

theorem execEvrOtLatch_kept {x : Accessor} (hm : Sub 0x208 pq) (hI : s.Kept pq) : ∃ s1, execEvrOtLatch x s = .next s1 ∧ s1.Kept pq := by
  unfold execEvrOtLatch
  refine ⟨_, rfl, ?_⟩
  repeat' first
    | with_reducible assumption
    | (intro x hx; beta_reduce)
    | with_reducible apply State.access_kept
    | with_reducible apply State.modEvr_kept
    | exact Sub.mono (by decide) hm

theorem execSealSign_kept {ok : Bool} (hm : Sub 0x204 pq) (hI : s.Kept pq) : ∃ s1, execSealSign ok s = .next s1 ∧ s1.Kept pq := by
  unfold execSealSign
  refine ⟨_, rfl, ?_⟩
  repeat' first
    | with_reducible assumption
    | (extract_lets +onlyGivenNames s1; refine State.Kept.cut (s := s1) (p := pq) ?_ (fun _ => ?_); rotate_left; clear_value s1; rotate_left; dsimp -zeta only [s1]; clear s1)
    | with_reducible apply State.modEvr_kept
    | with_reducible apply State.evrInt_kept
    | exact Sub.mono (by decide) hm
    | split

theorem State.millisecond_kept (hm : Sub 0x10A00 pq) (hI : s.Kept pq) : (State.millisecond s).Kept pq := by
  unfold State.millisecond
  repeat' first
    | with_reducible assumption
    | (extract_lets +onlyGivenNames s1; refine State.Kept.cut (s := s1) (p := pq) ?_ (fun _ => ?_); rotate_left; clear_value s1; rotate_left; dsimp -zeta only [s1]; clear s1)
    | with_reducible apply State.modEvr_kept
    | with_reducible apply State.modRcp_kept
    | with_reducible apply State.modMtr_kept
    | exact Sub.mono (by decide) hm
    | split

end Sys2Proof.Machine
end

