-- ==== Sys2Proof/Laws/KeptCrypto.lean ====
section
/-!
SUPPORT. The operations of Machine/Crypto.lean keep what they do not write.
-/
set_option Elab.async false
set_option linter.unusedTactic false
set_option linter.unreachableTactic false
namespace Sys2Proof.Machine

variable {pq : Nat × State} {s : State}

theorem State.cryInt_kept {i : Nat} (hm : Sub 0x4 pq) (hI : s.Kept pq) : (State.cryInt s i).Kept pq := by
  unfold State.cryInt
  repeat' first
    | with_reducible assumption
    | with_reducible apply State.setStat_kept

theorem State.cryResult_kept {n : Nat} {err : Nat} {pass : Bool} (hm : Sub 0x4 pq) (hI : s.Kept pq) : (State.cryResult s n err pass).Kept pq := by
  unfold State.cryResult
  repeat' first
    | with_reducible assumption
    | with_reducible apply State.setReg_kept

theorem State.cryIgnore_kept {err : Nat} (hm : Sub 0x4 pq) (hI : s.Kept pq) : (State.cryIgnore s err).Kept pq := by
  unfold State.cryIgnore
  repeat' first
    | with_reducible assumption
    | with_reducible apply State.cryResult_kept
    | with_reducible apply State.cryInt_kept

theorem State.cryCmd_kept {x : Accessor} {op : Nat} {slot : Nat} (hm : Sub 0x404 pq) (hI : s.Kept pq) : (State.cryCmd s x op slot).Kept pq := by
  unfold State.cryCmd
  repeat' first
    | with_reducible assumption
    | with_reducible apply State.cryIgnore_kept
    | with_reducible apply State.modCry_kept
    | exact Sub.mono (by decide) hm
    | split

theorem State.cryRow_kept {x : Accessor} {op : Nat} {slot : Nat} (hm : Sub 0x40C pq) (hI : s.Kept pq) : (State.cryRow s x op slot).Kept pq := by
  unfold State.cryRow
  repeat' first
    | with_reducible assumption
    | (intro x hx; beta_reduce)
    | with_reducible apply State.access_kept
    | with_reducible apply State.cryCmd_kept
    | exact Sub.mono (by decide) hm

theorem execHash_kept {x : Accessor} (hm : Sub 0x40C pq) (hI : s.Kept pq) : ∃ s1, execHash x s = .next s1 ∧ s1.Kept pq := by
  unfold execHash
  refine ⟨_, rfl, ?_⟩
  repeat' first
    | with_reducible assumption
    | with_reducible apply State.cryRow_kept

theorem execVerifySignature_kept {x : Accessor} (hm : Sub 0x40C pq) (hI : s.Kept pq) : ∃ s1, execVerifySignature x s = .next s1 ∧ s1.Kept pq := by
  unfold execVerifySignature
  refine ⟨_, rfl, ?_⟩
  repeat' first
    | with_reducible assumption
    | with_reducible apply State.cryRow_kept

theorem execDrbg_kept {x : Accessor} (hm : Sub 0x40C pq) (hI : s.Kept pq) : ∃ s1, execDrbg x s = .next s1 ∧ s1.Kept pq := by
  unfold execDrbg
  refine ⟨_, rfl, ?_⟩
  repeat' first
    | with_reducible assumption
    | with_reducible apply State.cryRow_kept

theorem execDerive_kept {x : Accessor} (hm : Sub 0x40C pq) (hI : s.Kept pq) : ∃ s1, execDerive x s = .next s1 ∧ s1.Kept pq := by
  unfold execDerive
  refine ⟨_, rfl, ?_⟩
  repeat' first
    | with_reducible assumption
    | with_reducible apply State.cryRow_kept

theorem execSign_kept {x : Accessor} (hm : Sub 0x40C pq) (hI : s.Kept pq) : ∃ s1, execSign x s = .next s1 ∧ s1.Kept pq := by
  unfold execSign
  refine ⟨_, rfl, ?_⟩
  repeat' first
    | with_reducible assumption
    | with_reducible apply State.cryRow_kept

theorem execKeyload_kept {x : Accessor} {slot : BitVec 6} (hm : Sub 0x40C pq) (hI : s.Kept pq) : ∃ s1, execKeyload x slot s = .next s1 ∧ s1.Kept pq := by
  unfold execKeyload
  refine ⟨_, rfl, ?_⟩
  repeat' first
    | with_reducible assumption
    | with_reducible apply State.cryRow_kept

theorem execZeroize_kept {x : Accessor} {slot : BitVec 6} (hm : Sub 0x40C pq) (hI : s.Kept pq) : ∃ s1, execZeroize x slot s = .next s1 ∧ s1.Kept pq := by
  unfold execZeroize
  refine ⟨_, rfl, ?_⟩
  repeat' first
    | with_reducible assumption
    | with_reducible apply State.cryRow_kept

theorem execDevpub_kept {x : Accessor} (hm : Sub 0x40C pq) (hI : s.Kept pq) : ∃ s1, execDevpub x s = .next s1 ∧ s1.Kept pq := by
  unfold execDevpub
  refine ⟨_, rfl, ?_⟩
  repeat' first
    | with_reducible assumption
    | with_reducible apply State.cryRow_kept

theorem execCryptoCmdIgnored_kept {x : Accessor} {data : Word} (hm : Sub 0x40C pq) (hI : s.Kept pq) : ∃ s1, execCryptoCmdIgnored x data s = .next s1 ∧ s1.Kept pq := by
  unfold execCryptoCmdIgnored
  refine ⟨_, rfl, ?_⟩
  repeat' first
    | with_reducible assumption
    | with_reducible apply State.cryRow_kept
    | split

theorem State.crySrc_kept {a : Nat} {n : Nat} (hm : Sub 0x4004 pq) (hI : s.Kept pq) : (State.crySrc s a n).1.Kept pq := by
  unfold State.crySrc
  repeat' first
    | with_reducible assumption
    | (extract_lets +onlyGivenNames x1; clear_value x1)
    | with_reducible apply State.dramRead_kept
    | with_reducible refine State.Kept.fst (by assumption) ?_
    | split

theorem State.cryFail_kept {err : Nat} (hm : Sub 0x404 pq) (hI : s.Kept pq) : (State.cryFail s err).Kept pq := by
  unfold State.cryFail
  repeat' first
    | with_reducible assumption
    | with_reducible apply State.modCry_kept
    | with_reducible apply State.cryResult_kept
    | with_reducible apply State.cryInt_kept
    | exact Sub.mono (by decide) hm

theorem State.cryOk_kept {n : Nat} {pass : Bool} (hm : Sub 0x404 pq) (hI : s.Kept pq) : (State.cryOk s n pass).Kept pq := by
  unfold State.cryOk
  repeat' first
    | with_reducible assumption
    | with_reducible apply State.modCry_kept
    | with_reducible apply State.cryResult_kept
    | with_reducible apply State.cryInt_kept
    | exact Sub.mono (by decide) hm

theorem State.cryOut_kept {o : CryOp} {bs : List Byte} (hm : Sub 0x4404 pq) (hI : s.Kept pq) : (State.cryOut s o bs).Kept pq := by
  unfold State.cryOut
  repeat' first
    | with_reducible assumption
    | with_reducible apply State.cryFail_kept
    | with_reducible apply State.dramWrite_kept
    | with_reducible apply State.cryOk_kept
    | exact Sub.mono (by decide) hm
    | split

theorem State.cryFrom_kept {o : CryOp} {n : Nat} {f : State → List Byte → State} (hf : ∀ s a0, State.Kept pq s → (f s a0).Kept pq) (hm : Sub 0x4404 pq) (hI : s.Kept pq) : (State.cryFrom s o n f).Kept pq := by
  unfold State.cryFrom
  repeat' first
    | with_reducible assumption
    | with_reducible apply State.crySrc_kept
    | with_reducible apply State.cryFail_kept
    | with_reducible apply hf
    | with_reducible refine State.Kept.fst (by assumption) ?_
    | exact Sub.mono (by decide) hm
    | split

theorem State.cryDerive_kept {o : CryOp} {bs : List Byte} (hm : Sub 0x4404 pq) (hI : s.Kept pq) : (State.cryDerive s o bs).Kept pq := by
  unfold State.cryDerive
  repeat' first
    | with_reducible assumption
    | with_reducible apply State.cryFail_kept
    | with_reducible apply State.modCry_kept
    | with_reducible apply State.cryOut_kept
    | exact Sub.mono (by decide) hm
    | split

theorem State.crySign_kept {o : CryOp} {bs : List Byte} (hm : Sub 0x4404 pq) (hI : s.Kept pq) : (State.crySign s o bs).Kept pq := by
  unfold State.crySign
  repeat' first
    | with_reducible assumption
    | with_reducible apply State.cryFail_kept
    | with_reducible apply State.cryOut_kept
    | exact Sub.mono (by decide) hm
    | split

theorem State.keyLoad_kept {o : CryOp} {bs : List Byte} (hm : Sub 0x4606 pq) (hI : s.Kept pq) : (State.keyLoad s o bs).Kept pq := by
  unfold State.keyLoad
  repeat' first
    | with_reducible assumption
    | (extract_lets +onlyGivenNames s1; refine State.Kept.cut (s := s1) (p := pq) ?_ (fun _ => ?_); rotate_left; clear_value s1; rotate_left; dsimp -zeta only [s1]; clear s1)
    | with_reducible apply State.modCry_kept
    | with_reducible apply State.dramWrite_kept
    | with_reducible apply State.event_kept
    | with_reducible apply State.cryOk_kept
    | exact Sub.mono (by decide) hm

theorem State.slotZeroize_kept {n : Nat} (hm : Sub 0x606 pq) (hI : s.Kept pq) : (State.slotZeroize s n).Kept pq := by
  unfold State.slotZeroize
  repeat' first
    | with_reducible assumption
    | with_reducible apply State.modCry_kept
    | with_reducible apply State.cryInt_kept
    | with_reducible apply State.event_kept
    | exact Sub.mono (by decide) hm

theorem State.cryRandom_kept {o : CryOp} (hm : Sub 0x4406 pq) (hI : s.Kept pq) : (State.cryRandom s o).Kept pq := by
  unfold State.cryRandom
  repeat' first
    | with_reducible assumption
    | with_reducible apply State.freeBy_kept
    | with_reducible apply State.cryOut_kept
    | exact Sub.mono (by decide) hm

theorem State.cryRun_kept {o : CryOp} (hm : Sub 0x4606 pq) (hI : s.Kept pq) : (State.cryRun s o).Kept pq := by
  unfold State.cryRun
  repeat' first
    | with_reducible assumption
    | (intro x hx; beta_reduce)
    | with_reducible apply State.cryFrom_kept
    | with_reducible apply State.cryOut_kept
    | with_reducible apply State.cryOk_kept
    | with_reducible apply State.cryRandom_kept
    | with_reducible apply State.cryDerive_kept
    | with_reducible apply State.crySign_kept
    | with_reducible apply State.keyLoad_kept
    | with_reducible apply State.slotZeroize_kept
    | with_reducible apply State.cryFail_kept
    | exact Sub.mono (by decide) hm
    | split

theorem execCryptoDone_kept (hm : Sub 0x4606 pq) (hI : s.Kept pq) : ∃ s1, execCryptoDone s = .next s1 ∧ s1.Kept pq := by
  unfold execCryptoDone
  refine ⟨_, rfl, ?_⟩
  repeat' first
    | with_reducible assumption
    | with_reducible apply State.cryRun_kept
    | split

theorem execDrbgRead_kept {x : Accessor} (hm : Sub 0xA pq) (hI : s.Kept pq) : ∃ s1, execDrbgRead x s = .next s1 ∧ s1.Kept pq := by
  unfold execDrbgRead
  refine ⟨_, rfl, ?_⟩
  repeat' first
    | with_reducible assumption
    | (intro x hx; beta_reduce)
    | with_reducible apply State.access_kept
    | with_reducible apply State.freeNext_kept
    | exact Sub.mono (by decide) hm

end Sys2Proof.Machine
end

