-- ==== Sys2Proof/Laws/KeptReadPath.lean ====
section
/-!
SUPPORT. The operations of Machine/ReadPath.lean keep what they do not write.
-/
set_option Elab.async false
set_option linter.unusedTactic false
set_option linter.unreachableTactic false
namespace Sys2Proof.Machine

variable {pq : Nat × State} {s : State}

theorem State.logError_kept {c : Cmd} {status : Nat} {lba : Nat} (hm : Sub 0x1000000 pq) (hI : s.Kept pq) : (State.logError s c status lba).Kept pq := by
  unfold State.logError
  repeat' first
    | with_reducible assumption
    | with_reducible apply State.modNve_kept

theorem State.readMedia_kept {c : Cmd} {xfer : Bool} {tries : List (List ReadTry)} (hm : Sub 0x310000E pq) (hI : s.Kept pq) : (State.readMedia s c xfer tries).Kept pq := by
  unfold State.readMedia
  repeat' first
    | with_reducible assumption
    | (extract_lets +onlyGivenNames s1; refine State.Kept.cut (s := s1) (p := pq) ?_ (fun _ => ?_); rotate_left; clear_value s1; rotate_left; dsimp -zeta only [s1]; clear s1)
    | (extract_lets +onlyGivenNames x1; clear_value x1)
    | (intro x y hx; beta_reduce)
    | with_reducible apply State.logL3_kept
    | with_reducible apply State.bump_kept
    | with_reducible apply State.freeBy_kept
    | with_reducible apply State.raiseLine_kept
    | with_reducible apply State.logError_kept
    | with_reducible apply State.complete_kept
    | with_reducible apply State.modCmd_kept
    | with_reducible apply State.Kept.foldl
    | exact Sub.mono (by decide) hm
    | split

theorem State.releaseRead_kept {c : Cmd} (hm : Sub 0x300000C pq) (hI : s.Kept pq) : (State.releaseRead s c).Kept pq := by
  unfold State.releaseRead
  repeat' first
    | with_reducible assumption
    | (extract_lets +onlyGivenNames x1; clear_value x1)
    | with_reducible apply State.logError_kept
    | with_reducible apply State.complete_kept
    | with_reducible apply State.modCmd_kept
    | exact Sub.mono (by decide) hm
    | split

theorem State.hedgeRead_kept {c : CtxId} (hm : Sub 0x300000C pq) (hI : s.Kept pq) : (State.hedgeRead s c).1.Kept pq := by
  unfold State.hedgeRead
  repeat' first
    | with_reducible assumption
    | with_reducible apply State.hedgeLookup_kept
    | with_reducible apply State.releaseRead_kept
    | with_reducible refine State.Kept.fst (by assumption) ?_
    | exact Sub.mono (by decide) hm
    | split

end Sys2Proof.Machine
end

