-- ==== Sys2Proof/Laws/KeptAdmission.lean ====
section
/-!
SUPPORT. The operations of Machine/Admission.lean keep what they do not write.
-/
set_option Elab.async false
set_option linter.unusedTactic false
set_option linter.unreachableTactic false
namespace Sys2Proof.Machine

variable {pq : Nat × State} {s : State}

theorem State.traffic_kept {p : Side} (hm : Sub 0x4000000 pq) (hI : s.Kept pq) : (State.traffic s p).Kept pq := by
  unfold State.traffic
  repeat' first
    | with_reducible assumption
    | with_reducible apply State.modHpt_kept

theorem State.badDoorbell_kept (hm : Sub 0x4 pq) (hI : s.Kept pq) : (State.badDoorbell s).Kept pq := by
  unfold State.badDoorbell
  repeat' first
    | with_reducible assumption
    | with_reducible apply State.nveInt_kept
    | with_reducible apply State.bump_kept

theorem execSqTailDoorbell_kept {n : Nat} {q : Nat} {tail : Nat} (hm : Sub 0x5000004 pq) (hI : s.Kept pq) : ∃ s1, execSqTailDoorbell n q tail s = .next s1 ∧ s1.Kept pq := by
  unfold execSqTailDoorbell
  refine ⟨_, rfl, ?_⟩
  repeat' first
    | with_reducible assumption
    | with_reducible apply State.traffic_kept
    | with_reducible apply State.modCtrl_kept
    | with_reducible apply State.badDoorbell_kept
    | exact Sub.mono (by decide) hm
    | split

theorem execCqHeadDoorbell_kept {n : Nat} {q : Nat} {head : Nat} (hm : Sub 0x5000004 pq) (hI : s.Kept pq) : ∃ s1, execCqHeadDoorbell n q head s = .next s1 ∧ s1.Kept pq := by
  unfold execCqHeadDoorbell
  refine ⟨_, rfl, ?_⟩
  repeat' first
    | with_reducible assumption
    | (extract_lets +onlyGivenNames s1; refine State.Kept.cut (s := s1) (p := pq) ?_ (fun _ => ?_); rotate_left; clear_value s1; rotate_left; dsimp -zeta only [s1]; clear s1)
    | (extract_lets +onlyGivenNames x1; clear_value x1)
    | with_reducible apply State.badDoorbell_kept
    | with_reducible apply State.traffic_kept
    | with_reducible apply State.modCtrl_kept
    | with_reducible apply State.drainStage_kept
    | exact Sub.mono (by decide) hm
    | split

theorem State.hostqLine_kept (hm : Sub 0x8 pq) (hI : s.Kept pq) : (State.hostqLine s).Kept pq := by
  unfold State.hostqLine
  repeat' first
    | with_reducible assumption
    | (intro x y hx; beta_reduce)
    | with_reducible apply State.raiseLine_kept
    | with_reducible apply State.Kept.foldl

theorem State.fetch_kept {n : Nat} {q : Sq} {sqe : Sqe} (hm : Sub 0x500000C pq) (hI : s.Kept pq) : (State.fetch s n q sqe).Kept pq := by
  unfold State.fetch
  repeat' first
    | with_reducible assumption
    | (extract_lets +onlyGivenNames s1; refine State.Kept.cut (s := s1) (p := pq) ?_ (fun _ => ?_); rotate_left; clear_value s1; rotate_left; dsimp -zeta only [s1]; clear s1)
    | (extract_lets +onlyGivenNames x1; clear_value x1)
    | with_reducible apply State.traffic_kept
    | with_reducible apply State.modCtrl_kept
    | with_reducible apply State.modNve_kept
    | with_reducible apply State.hostqLine_kept
    | with_reducible apply State.nveInt_kept
    | exact Sub.mono (by decide) hm
    | split

theorem execCommandFetch_kept {n : Nat} {q : Nat} {sqe : Sqe} (hm : Sub 0x500000C pq) (hI : s.Kept pq) : ∃ s1, execCommandFetch n q sqe s = .next s1 ∧ s1.Kept pq := by
  unfold execCommandFetch
  refine ⟨_, rfl, ?_⟩
  repeat' first
    | with_reducible assumption
    | with_reducible apply State.nveInt_kept
    | with_reducible apply State.fetch_kept
    | exact Sub.mono (by decide) hm
    | split

theorem State.asnWrite_kept {data : Word} (hm : Sub 0x1000000 pq) (hI : s.Kept pq) : (State.asnWrite s data).Kept pq := by
  unfold State.asnWrite
  repeat' first
    | with_reducible assumption
    | (extract_lets +onlyGivenNames x1; clear_value x1)
    | with_reducible apply State.modNve_kept
    | split

theorem execAsnWrite_kept {x : Accessor} {data : Word} (hm : Sub 0x1000008 pq) (hI : s.Kept pq) : ∃ s1, execAsnWrite x data s = .next s1 ∧ s1.Kept pq := by
  unfold execAsnWrite
  refine ⟨_, rfl, ?_⟩
  repeat' first
    | with_reducible assumption
    | (intro x hx; beta_reduce)
    | with_reducible apply State.access_kept
    | with_reducible apply State.asnWrite_kept
    | exact Sub.mono (by decide) hm

theorem State.asnLimit_kept {data : Word} (hm : Sub 0x1000000 pq) (hI : s.Kept pq) : (State.asnLimit s data).Kept pq := by
  unfold State.asnLimit
  repeat' first
    | with_reducible assumption
    | (extract_lets +onlyGivenNames x1; clear_value x1)
    | with_reducible apply State.modNve_kept
    | split

theorem execAsnLimitWrite_kept {x : Accessor} {data : Word} (hm : Sub 0x1000008 pq) (hI : s.Kept pq) : ∃ s1, execAsnLimitWrite x data s = .next s1 ∧ s1.Kept pq := by
  unfold execAsnLimitWrite
  refine ⟨_, rfl, ?_⟩
  repeat' first
    | with_reducible assumption
    | (intro x hx; beta_reduce)
    | with_reducible apply State.access_kept
    | with_reducible apply State.asnLimit_kept
    | exact Sub.mono (by decide) hm

theorem State.allocQ_kept {n : Nat} {pairs : Nat} (hm : Sub 0x1000000 pq) (hI : s.Kept pq) : OptKept pq (State.allocQ s n pairs) := by
  unfold State.allocQ
  repeat' first
    | with_reducible assumption
    | with_reducible apply State.modCtrl_kept
    | with_reducible apply OptKept.none
    | with_reducible apply OptKept.some
    | split

theorem State.qallocWrite_kept {data : Word} (hm : Sub 0x1000004 pq) (hI : s.Kept pq) : (State.qallocWrite s data).Kept pq := by
  unfold State.qallocWrite
  repeat' first
    | with_reducible assumption
    | with_reducible apply State.allocQ_kept
    | with_reducible apply State.nveInt_kept
    | with_reducible apply OptKept.getD
    | exact Sub.mono (by decide) hm

theorem execQueueAllocationWrite_kept {x : Accessor} {data : Word} (hm : Sub 0x100000C pq) (hI : s.Kept pq) : ∃ s1, execQueueAllocationWrite x data s = .next s1 ∧ s1.Kept pq := by
  unfold execQueueAllocationWrite
  refine ⟨_, rfl, ?_⟩
  repeat' first
    | with_reducible assumption
    | (intro x hx; beta_reduce)
    | with_reducible apply State.access_kept
    | with_reducible apply State.qallocWrite_kept
    | exact Sub.mono (by decide) hm

theorem State.nscfgWrite_kept {data : Word} (hm : Sub 0x1000004 pq) (hI : s.Kept pq) : (State.nscfgWrite s data).Kept pq := by
  unfold State.nscfgWrite
  repeat' first
    | with_reducible assumption
    | (extract_lets +onlyGivenNames x1; clear_value x1)
    | with_reducible apply State.nveInt_kept
    | with_reducible apply State.putCfg_kept
    | exact Sub.mono (by decide) hm
    | split

theorem execNamespaceConfigWrite_kept {x : Accessor} {data : Word} (hm : Sub 0x100000C pq) (hI : s.Kept pq) : ∃ s1, execNamespaceConfigWrite x data s = .next s1 ∧ s1.Kept pq := by
  unfold execNamespaceConfigWrite
  refine ⟨_, rfl, ?_⟩
  repeat' first
    | with_reducible assumption
    | (intro x hx; beta_reduce)
    | with_reducible apply State.access_kept
    | with_reducible apply State.nscfgWrite_kept
    | exact Sub.mono (by decide) hm

theorem State.checkSteps_kept {c : Cmd} (hm : Sub 0x800000 pq) (hI : s.Kept pq) : (State.checkSteps s c).1.Kept pq := by
  unfold State.checkSteps
  repeat' first
    | with_reducible assumption
    | (extract_lets +onlyGivenNames x1; clear_value x1)
    | with_reducible apply State.modWin_kept
    | split

theorem State.ioCmd_kept {n : Nat} {opc : Byte} {f : State → Cmd → State} (hf : ∀ s a0, State.Kept pq s → (f s a0).Kept pq) (hm : Sub 0x380000C pq) (hI : s.Kept pq) : (State.ioCmd s n opc f).Kept pq := by
  unfold State.ioCmd
  repeat' first
    | with_reducible assumption
    | with_reducible apply State.checkSteps_kept
    | with_reducible apply State.complete_kept
    | with_reducible apply hf
    | with_reducible refine State.Kept.fst (by assumption) ?_
    | exact Sub.mono (by decide) hm
    | split

theorem State.admitCmd_kept {c : Cmd} {kind : HKind} {lba : Nat} {n : Nat} {spans : List (Nat × Nat)} (hm : Sub 0x300000C pq) (hI : s.Kept pq) : (State.admitCmd s c kind lba n spans).Kept pq := by
  unfold State.admitCmd
  repeat' first
    | with_reducible assumption
    | (extract_lets +onlyGivenNames s1; refine State.Kept.cut (s := s1) (p := pq) ?_ (fun _ => ?_); rotate_left; clear_value s1; rotate_left; dsimp -zeta only [s1]; clear s1)
    | with_reducible apply State.modCmd_kept
    | with_reducible apply State.hostqLine_kept
    | with_reducible apply State.takeHent_kept
    | exact Sub.mono (by decide) hm

theorem State.admitWrite_kept {c : Cmd} {lba : Nat} {n : Nat} (hm : Sub 0x300000C pq) (hI : s.Kept pq) : (State.admitWrite s c lba n).Kept pq := by
  unfold State.admitWrite
  repeat' first
    | with_reducible assumption
    | (extract_lets +onlyGivenNames s1; refine State.Kept.cut (s := s1) (p := pq) ?_ (fun _ => ?_); rotate_left; clear_value s1; rotate_left; dsimp -zeta only [s1]; clear s1)
    | with_reducible apply State.admitCmd_kept
    | with_reducible apply State.modCmd_kept
    | with_reducible apply State.setAwp_kept
    | exact Sub.mono (by decide) hm
    | split

theorem State.dataArrives_kept {n : Nat} {din : DataIn} {data : List (List Byte)} (hm : Sub 0x300000C pq) (hI : s.Kept pq) : (State.dataArrives s n din data).Kept pq := by
  unfold State.dataArrives
  repeat' first
    | with_reducible assumption
    | (extract_lets +onlyGivenNames x1; clear_value x1)
    | with_reducible apply State.endUncommitted_kept
    | with_reducible apply State.bump_kept
    | with_reducible apply State.modCmd_kept
    | exact Sub.mono (by decide) hm
    | split

theorem State.write_kept {c : Cmd} {xfer : Bool} {din : DataIn} {data : List (List Byte)} (hm : Sub 0x300000C pq) (hI : s.Kept pq) : (State.write s c xfer din data).Kept pq := by
  unfold State.write
  repeat' first
    | with_reducible assumption
    | with_reducible apply State.complete_kept
    | with_reducible apply State.admitWrite_kept
    | with_reducible apply State.dataArrives_kept
    | split

theorem execWrite_kept {n : Nat} {din : DataIn} {data : List (List Byte)} (hm : Sub 0x380000C pq) (hI : s.Kept pq) : ∃ s1, execWrite n din data s = .next s1 ∧ s1.Kept pq := by
  unfold execWrite
  refine ⟨_, rfl, ?_⟩
  repeat' first
    | with_reducible assumption
    | (intro x hx; beta_reduce)
    | with_reducible apply State.ioCmd_kept
    | with_reducible apply State.write_kept
    | exact Sub.mono (by decide) hm

theorem execWriteZeroes_kept {n : Nat} (hm : Sub 0x380000C pq) (hI : s.Kept pq) : ∃ s1, execWriteZeroes n s = .next s1 ∧ s1.Kept pq := by
  unfold execWriteZeroes
  refine ⟨_, rfl, ?_⟩
  repeat' first
    | with_reducible assumption
    | (intro x hx; beta_reduce)
    | with_reducible apply State.ioCmd_kept
    | with_reducible apply State.write_kept
    | exact Sub.mono (by decide) hm

theorem State.append_kept {c : Cmd} {din : DataIn} {data : List (List Byte)} (hm : Sub 0x300000C pq) (hI : s.Kept pq) : (State.append s c din data).Kept pq := by
  unfold State.append
  repeat' first
    | with_reducible assumption
    | (extract_lets +onlyGivenNames x1; clear_value x1)
    | with_reducible apply State.complete_kept
    | with_reducible apply State.admitWrite_kept
    | with_reducible apply State.dataArrives_kept
    | split

theorem execZoneAppend_kept {n : Nat} {din : DataIn} {data : List (List Byte)} (hm : Sub 0x380000C pq) (hI : s.Kept pq) : ∃ s1, execZoneAppend n din data s = .next s1 ∧ s1.Kept pq := by
  unfold execZoneAppend
  refine ⟨_, rfl, ?_⟩
  repeat' first
    | with_reducible assumption
    | (intro x hx; beta_reduce)
    | with_reducible apply State.ioCmd_kept
    | with_reducible apply State.append_kept
    | exact Sub.mono (by decide) hm

theorem State.readRow_kept {n : Nat} {opc : Byte} {xfer : Bool} {tries : List (List ReadTry)} (hm : Sub 0x390000E pq) (hI : s.Kept pq) : (State.readRow s n opc xfer tries).Kept pq := by
  unfold State.readRow
  repeat' first
    | with_reducible assumption
    | (extract_lets +onlyGivenNames s1; refine State.Kept.cut (s := s1) (p := pq) ?_ (fun _ => ?_); rotate_left; clear_value s1; rotate_left; dsimp -zeta only [s1]; clear s1)
    | (intro x y hx; beta_reduce)
    | with_reducible apply State.ioCmd_kept
    | with_reducible apply State.complete_kept
    | with_reducible apply State.admitCmd_kept
    | with_reducible apply State.releaseRead_kept
    | with_reducible apply State.readMedia_kept
    | exact Sub.mono (by decide) hm
    | split

theorem execRead_kept {n : Nat} {tries : List (List ReadTry)} (hm : Sub 0x390000E pq) (hI : s.Kept pq) : ∃ s1, execRead n tries s = .next s1 ∧ s1.Kept pq := by
  unfold execRead
  refine ⟨_, rfl, ?_⟩
  repeat' first
    | with_reducible assumption
    | with_reducible apply State.readRow_kept

theorem execVerify_kept {n : Nat} {tries : List (List ReadTry)} (hm : Sub 0x390000E pq) (hI : s.Kept pq) : ∃ s1, execVerify n tries s = .next s1 ∧ s1.Kept pq := by
  unfold execVerify
  refine ⟨_, rfl, ?_⟩
  repeat' first
    | with_reducible assumption
    | with_reducible apply State.readRow_kept

theorem State.dsm_kept {c : Cmd} {ranges : List (Nat × Nat)} (hm : Sub 0x300000C pq) (hI : s.Kept pq) : (State.dsm s c ranges).Kept pq := by
  unfold State.dsm
  repeat' first
    | with_reducible assumption
    | with_reducible apply State.completeOk_kept
    | with_reducible apply State.complete_kept
    | with_reducible apply State.admitCmd_kept
    | split

theorem execDatasetManagement_kept {n : Nat} {ranges : List (Nat × Nat)} (hm : Sub 0x380000C pq) (hI : s.Kept pq) : ∃ s1, execDatasetManagement n ranges s = .next s1 ∧ s1.Kept pq := by
  unfold execDatasetManagement
  refine ⟨_, rfl, ?_⟩
  repeat' first
    | with_reducible assumption
    | (intro x hx; beta_reduce)
    | with_reducible apply State.ioCmd_kept
    | with_reducible apply State.dsm_kept
    | exact Sub.mono (by decide) hm

theorem execFlush_kept {n : Nat} (hm : Sub 0x380000C pq) (hI : s.Kept pq) : ∃ s1, execFlush n s = .next s1 ∧ s1.Kept pq := by
  unfold execFlush
  refine ⟨_, rfl, ?_⟩
  repeat' first
    | with_reducible assumption
    | (extract_lets +onlyGivenNames s1; refine State.Kept.cut (s := s1) (p := pq) ?_ (fun _ => ?_); rotate_left; clear_value s1; rotate_left; dsimp -zeta only [s1]; clear s1)
    | (intro x hx; beta_reduce)
    | with_reducible apply State.ioCmd_kept
    | with_reducible apply State.modCmd_kept
    | with_reducible apply State.completeOk_kept
    | exact Sub.mono (by decide) hm
    | split

theorem State.dropStaged_kept {i : Nat} {k : Nat} (hm : Sub 0xC8000E pq) (hI : s.Kept pq) : (State.dropStaged s i k).Kept pq := by
  unfold State.dropStaged
  repeat' first
    | with_reducible assumption
    | with_reducible apply State.unstage_kept
    | with_reducible apply State.libAppend_kept
    | exact Sub.mono (by decide) hm

theorem State.migrationEnds_kept {x : Side} {i : Nat} (hm : Sub 0x280000 pq) (hI : s.Kept pq) : (State.migrationEnds s x i).Kept pq := by
  unfold State.migrationEnds
  repeat' first
    | with_reducible assumption
    | (extract_lets +onlyGivenNames s1; refine State.Kept.cut (s := s1) (p := pq) ?_ (fun _ => ?_); rotate_left; clear_value s1; rotate_left; dsimp -zeta only [s1]; clear s1)
    | (extract_lets +onlyGivenNames x1; clear_value x1)
    | with_reducible apply State.putZent_kept
    | with_reducible apply State.bumpGen_kept
    | with_reducible apply State.modRedun_kept
    | exact Sub.mono (by decide) hm
    | split

theorem State.zoneReset_kept {i : Nat} (hm : Sub 0xE8000E pq) (hI : s.Kept pq) : (State.zoneReset s i).Kept pq := by
  unfold State.zoneReset
  repeat' first
    | with_reducible assumption
    | (extract_lets +onlyGivenNames s1; refine State.Kept.cut (s := s1) (p := pq) ?_ (fun _ => ?_); rotate_left; clear_value s1; rotate_left; dsimp -zeta only [s1]; clear s1)
    | (extract_lets +onlyGivenNames x1; clear_value x1)
    | (intro x y hx; beta_reduce)
    | with_reducible apply State.dropStaged_kept
    | with_reducible apply State.putZent_kept
    | with_reducible apply State.bumpGen_kept
    | with_reducible apply State.zoneCleared_kept
    | with_reducible apply State.migrationEnds_kept
    | with_reducible apply State.modRedun_kept
    | with_reducible apply State.Kept.foldl
    | exact Sub.mono (by decide) hm
    | split

theorem State.finishFill_kept {i : Nat} (hm : Sub 0x800000 pq) (hI : s.Kept pq) : (State.finishFill s i).Kept pq := by
  unfold State.finishFill
  repeat' first
    | with_reducible assumption
    | (extract_lets +onlyGivenNames x1; clear_value x1)
    | with_reducible apply State.modWin_kept
    | split

theorem State.zoneOp_kept {c : Cmd} (hm : Sub 0x1E8000E pq) (hI : s.Kept pq) : (State.zoneOp s c).1.Kept pq := by
  unfold State.zoneOp
  repeat' first
    | with_reducible assumption
    | (extract_lets +onlyGivenNames s1; refine State.Kept.cut (s := s1) (p := pq) ?_ (fun _ => ?_); rotate_left; clear_value s1; rotate_left; dsimp -zeta only [s1]; clear s1)
    | with_reducible apply State.finishFill_kept
    | with_reducible apply State.zoneReset_kept
    | with_reducible apply State.putZent_kept
    | with_reducible apply State.bumpGen_kept
    | with_reducible apply State.libAppend_kept
    | with_reducible apply State.modCmd_kept
    | exact Sub.mono (by decide) hm
    | split

theorem State.zoneNext_kept {c : Cmd} (hm : Sub 0x3000000 pq) (hI : s.Kept pq) : (State.zoneNext s c).Kept pq := by
  unfold State.zoneNext
  repeat' first
    | with_reducible assumption
    | with_reducible apply State.dropHent_kept
    | with_reducible apply State.modCmd_kept
    | exact Sub.mono (by decide) hm

theorem execZoneManagementSend_kept {n : Nat} (hm : Sub 0x3E8000E pq) (hI : s.Kept pq) : ∃ s1, execZoneManagementSend n s = .next s1 ∧ s1.Kept pq := by
  unfold execZoneManagementSend
  refine ⟨_, rfl, ?_⟩
  repeat' first
    | with_reducible assumption
    | (extract_lets +onlyGivenNames s1; refine State.Kept.cut (s := s1) (p := pq) ?_ (fun _ => ?_); rotate_left; clear_value s1; rotate_left; dsimp -zeta only [s1]; clear s1)
    | (extract_lets +onlyGivenNames x1; clear_value x1)
    | (intro x hx; beta_reduce)
    | with_reducible apply State.ioCmd_kept
    | with_reducible apply State.complete_kept
    | with_reducible apply State.completeOk_kept
    | with_reducible apply State.admitCmd_kept
    | with_reducible apply State.zoneOp_kept
    | with_reducible apply State.zoneNext_kept
    | with_reducible refine State.Kept.fst (by assumption) ?_
    | exact Sub.mono (by decide) hm
    | split

theorem execZoneManagementReceive_kept {n : Nat} (hm : Sub 0x380000C pq) (hI : s.Kept pq) : ∃ s1, execZoneManagementReceive n s = .next s1 ∧ s1.Kept pq := by
  unfold execZoneManagementReceive
  refine ⟨_, rfl, ?_⟩
  repeat' first
    | with_reducible assumption
    | (intro x hx; beta_reduce)
    | with_reducible apply State.ioCmd_kept
    | with_reducible apply State.complete_kept
    | with_reducible apply State.completeOk_kept
    | exact Sub.mono (by decide) hm
    | split

theorem State.modResv_kept {n : Nat} {f : Resv → Resv} (hm : Sub 0x1000000 pq) (hI : s.Kept pq) : (State.modResv s n f).Kept pq := by
  unfold State.modResv
  repeat' first
    | with_reducible assumption
    | with_reducible apply State.setNs_kept
    | split

theorem State.resvRegister_kept {c : Cmd} {nrkey : DWord} {crkey : DWord} (hm : Sub 0x300000C pq) (hI : s.Kept pq) : (State.resvRegister s c nrkey crkey).Kept pq := by
  unfold State.resvRegister
  repeat' first
    | with_reducible assumption
    | (extract_lets +onlyGivenNames s1; refine State.Kept.cut (s := s1) (p := pq) ?_ (fun _ => ?_); rotate_left; clear_value s1; rotate_left; dsimp -zeta only [s1]; clear s1)
    | (extract_lets +onlyGivenNames x1; clear_value x1)
    | with_reducible apply State.complete_kept
    | with_reducible apply State.modResv_kept
    | with_reducible apply State.completeOk_kept
    | exact Sub.mono (by decide) hm
    | split

theorem execReservationRegister_kept {n : Nat} {nrkey : DWord} {crkey : DWord} (hm : Sub 0x380000C pq) (hI : s.Kept pq) : ∃ s1, execReservationRegister n nrkey crkey s = .next s1 ∧ s1.Kept pq := by
  unfold execReservationRegister
  refine ⟨_, rfl, ?_⟩
  repeat' first
    | with_reducible assumption
    | (intro x hx; beta_reduce)
    | with_reducible apply State.ioCmd_kept
    | with_reducible apply State.resvRegister_kept
    | exact Sub.mono (by decide) hm

theorem execReservationReport_kept {n : Nat} (hm : Sub 0x380000C pq) (hI : s.Kept pq) : ∃ s1, execReservationReport n s = .next s1 ∧ s1.Kept pq := by
  unfold execReservationReport
  refine ⟨_, rfl, ?_⟩
  repeat' first
    | with_reducible assumption
    | (intro x hx; beta_reduce)
    | with_reducible apply State.ioCmd_kept
    | with_reducible apply State.completeOk_kept
    | exact Sub.mono (by decide) hm

theorem State.abortAll_kept {c : Cmd} {l : List Cmd} (hm : Sub 0x1000000 pq) (hI : s.Kept pq) : (State.abortAll s c l).Kept pq := by
  unfold State.abortAll
  repeat' first
    | with_reducible assumption
    | (extract_lets +onlyGivenNames s1; refine State.Kept.cut (s := s1) (p := pq) ?_ (fun _ => ?_); rotate_left; clear_value s1; rotate_left; dsimp -zeta only [s1]; clear s1)
    | (intro x hx; beta_reduce)
    | with_reducible apply State.modCmd_kept
    | with_reducible apply State.Kept.foldl

theorem State.resvAcquire_kept {c : Cmd} {crkey : DWord} {prkey : DWord} (hm : Sub 0x300000C pq) (hI : s.Kept pq) : (State.resvAcquire s c crkey prkey).Kept pq := by
  unfold State.resvAcquire
  repeat' first
    | with_reducible assumption
    | (extract_lets +onlyGivenNames s1; refine State.Kept.cut (s := s1) (p := pq) ?_ (fun _ => ?_); rotate_left; clear_value s1; rotate_left; dsimp -zeta only [s1]; clear s1)
    | (extract_lets +onlyGivenNames x1; clear_value x1)
    | with_reducible apply State.complete_kept
    | with_reducible apply State.modResv_kept
    | with_reducible apply State.completeOk_kept
    | with_reducible apply State.abortAll_kept
    | exact Sub.mono (by decide) hm
    | split

theorem execReservationAcquire_kept {n : Nat} {crkey : DWord} {prkey : DWord} (hm : Sub 0x380000C pq) (hI : s.Kept pq) : ∃ s1, execReservationAcquire n crkey prkey s = .next s1 ∧ s1.Kept pq := by
  unfold execReservationAcquire
  refine ⟨_, rfl, ?_⟩
  repeat' first
    | with_reducible assumption
    | (intro x hx; beta_reduce)
    | with_reducible apply State.ioCmd_kept
    | with_reducible apply State.resvAcquire_kept
    | with_reducible apply State.completeOk_kept
    | exact Sub.mono (by decide) hm
    | split

theorem State.resvRelease_kept {c : Cmd} {crkey : DWord} (hm : Sub 0x300000C pq) (hI : s.Kept pq) : (State.resvRelease s c crkey).Kept pq := by
  unfold State.resvRelease
  repeat' first
    | with_reducible assumption
    | (extract_lets +onlyGivenNames x1; clear_value x1)
    | with_reducible apply State.complete_kept
    | with_reducible apply State.modResv_kept
    | with_reducible apply State.completeOk_kept
    | exact Sub.mono (by decide) hm
    | split

theorem execReservationRelease_kept {n : Nat} {crkey : DWord} (hm : Sub 0x380000C pq) (hI : s.Kept pq) : ∃ s1, execReservationRelease n crkey s = .next s1 ∧ s1.Kept pq := by
  unfold execReservationRelease
  refine ⟨_, rfl, ?_⟩
  repeat' first
    | with_reducible assumption
    | (intro x hx; beta_reduce)
    | with_reducible apply State.ioCmd_kept
    | with_reducible apply State.resvRelease_kept
    | exact Sub.mono (by decide) hm

theorem execHedgeEntryGrant_kept {n : Nat} (hm : Sub 0x300000C pq) (hI : s.Kept pq) : ∃ s1, execHedgeEntryGrant n s = .next s1 ∧ s1.Kept pq := by
  unfold execHedgeEntryGrant
  refine ⟨_, rfl, ?_⟩
  repeat' first
    | with_reducible assumption
    | with_reducible apply State.takeHent_kept
    | split

theorem execHedgeLookup_kept {c : CtxId} {reg : BitVec 6} (hm : Sub 0x300000C pq) (hI : s.Kept pq) : ∃ s1, execHedgeLookup c reg s = .next s1 ∧ s1.Kept pq := by
  unfold execHedgeLookup
  refine ⟨_, rfl, ?_⟩
  repeat' first
    | with_reducible assumption
    | (intro x hx; beta_reduce)
    | with_reducible apply State.byCtx_kept
    | with_reducible apply State.hedgeRead_kept
    | with_reducible apply State.modCtx_kept
    | with_reducible apply State.refuseCtx_kept
    | exact Sub.mono (by decide) hm
    | split

theorem execHedgeRemove_kept {c : CtxId} {data : DWord} (hm : Sub 0x300000C pq) (hI : s.Kept pq) : ∃ s1, execHedgeRemove c data s = .next s1 ∧ s1.Kept pq := by
  unfold execHedgeRemove
  refine ⟨_, rfl, ?_⟩
  repeat' first
    | with_reducible assumption
    | (intro x hx; beta_reduce)
    | with_reducible apply State.byCtx_kept
    | with_reducible apply State.hedgeRemove_kept
    | with_reducible apply State.refuseCtx_kept
    | exact Sub.mono (by decide) hm
    | split

theorem execHedgeUnblock_kept {e : BitVec 14} (hm : Sub 0x2000008 pq) (hI : s.Kept pq) : ∃ s1, execHedgeUnblock e s = .next s1 ∧ s1.Kept pq := by
  unfold execHedgeUnblock
  refine ⟨_, rfl, ?_⟩
  repeat' first
    | with_reducible assumption
    | (extract_lets +onlyGivenNames x1; clear_value x1)
    | with_reducible apply State.hdgWake_kept
    | split

theorem execZoneWriteCascade_kept {n : Nat} {cause : Nat} (hm : Sub 0x300000C pq) (hI : s.Kept pq) : ∃ s1, execZoneWriteCascade n cause s = .next s1 ∧ s1.Kept pq := by
  unfold execZoneWriteCascade
  refine ⟨_, rfl, ?_⟩
  repeat' first
    | with_reducible assumption
    | with_reducible apply State.endUncommitted_kept
    | split

theorem State.hqPop_kept {c : CtxId} (hm : Sub 0x100000A pq) (hI : s.Kept pq) : (State.hqPop s c).1.Kept pq := by
  unfold State.hqPop
  repeat' first
    | with_reducible assumption
    | (extract_lets +onlyGivenNames s1; refine State.Kept.cut (s := s1) (p := pq) ?_ (fun _ => ?_); rotate_left; clear_value s1; rotate_left; dsimp -zeta only [s1]; clear s1)
    | (extract_lets +onlyGivenNames x1; clear_value x1)
    | with_reducible apply State.freeNext_kept
    | with_reducible apply State.modCmd_kept
    | with_reducible apply State.modCtx_kept
    | exact Sub.mono (by decide) hm
    | split

theorem execHostCommandPop_kept {c : CtxId} {reg : BitVec 6} (hm : Sub 0x100000A pq) (hI : s.Kept pq) : ∃ s1, execHostCommandPop c reg s = .next s1 ∧ s1.Kept pq := by
  unfold execHostCommandPop
  refine ⟨_, rfl, ?_⟩
  repeat' first
    | with_reducible assumption
    | (intro x hx; beta_reduce)
    | with_reducible apply State.byCtx_kept
    | with_reducible apply State.hqPop_kept
    | with_reducible apply State.modCtx_kept
    | with_reducible apply State.refuseCtx_kept
    | exact Sub.mono (by decide) hm
    | split

theorem State.hqCpl_kept {c : CtxId} {data : DWord} (hm : Sub 0x300000C pq) (hI : s.Kept pq) : (State.hqCpl s c data).Kept pq := by
  unfold State.hqCpl
  repeat' first
    | with_reducible assumption
    | with_reducible apply State.refuseCtx_kept
    | with_reducible apply State.endUncommitted_kept
    | with_reducible apply State.complete_kept
    | with_reducible apply State.raiseLine_kept
    | exact Sub.mono (by decide) hm
    | split

theorem execCompletionPost_kept {c : CtxId} {data : DWord} (hm : Sub 0x300000C pq) (hI : s.Kept pq) : ∃ s1, execCompletionPost c data s = .next s1 ∧ s1.Kept pq := by
  unfold execCompletionPost
  refine ⟨_, rfl, ?_⟩
  repeat' first
    | with_reducible assumption
    | (intro x hx; beta_reduce)
    | with_reducible apply State.byCtx_kept
    | with_reducible apply State.hqCpl_kept
    | with_reducible apply State.refuseCtx_kept
    | exact Sub.mono (by decide) hm
    | split

end Sys2Proof.Machine
end

