-- ==== Sys2Proof/Laws/KeptAdmin.lean ====
section
/-!
SUPPORT. The operations of Machine/Admin.lean keep what they do not write.
-/
set_option Elab.async false
set_option linter.unusedTactic false
set_option linter.unreachableTactic false
namespace Sys2Proof.Machine

variable {pq : Nat × State} {s : State}

theorem State.vfUse_kept {p : Side} {f : Nat} (hm : Sub 0x4000000 pq) (hI : s.Kept pq) : (State.vfUse s p f).Kept pq := by
  unfold State.vfUse
  repeat' first
    | with_reducible assumption
    | with_reducible apply State.modHpt_kept
    | split

theorem execControllerEnable_kept {n : Nat} {asqs : Nat} {acqs : Nat} {wrr : Bool} (hm : Sub 0x5000000 pq) (hI : s.Kept pq) : ∃ s1, execControllerEnable n asqs acqs wrr s = .next s1 ∧ s1.Kept pq := by
  unfold execControllerEnable
  refine ⟨_, rfl, ?_⟩
  repeat' first
    | with_reducible assumption
    | with_reducible apply State.vfUse_kept
    | with_reducible apply State.modCtrl_kept
    | exact Sub.mono (by decide) hm
    | split

theorem State.destroyCmd_kept {n : Nat} (hm : Sub 0x300000C pq) (hI : s.Kept pq) : (State.destroyCmd s n).Kept pq := by
  unfold State.destroyCmd
  repeat' first
    | with_reducible assumption
    | with_reducible apply State.endUncommitted_kept
    | with_reducible apply State.complete_kept
    | split

theorem State.ctrlReset_kept {n : Nat} (hm : Sub 0x300000C pq) (hI : s.Kept pq) : (State.ctrlReset s n).Kept pq := by
  unfold State.ctrlReset
  repeat' first
    | with_reducible assumption
    | (intro x hx; beta_reduce)
    | with_reducible apply State.setCtrl_kept
    | with_reducible apply State.modNve_kept
    | with_reducible apply State.destroyCmd_kept
    | with_reducible apply State.Kept.foldl
    | exact Sub.mono (by decide) hm

theorem execControllerReset_kept {n : Nat} (hm : Sub 0x300000C pq) (hI : s.Kept pq) : ∃ s1, execControllerReset n s = .next s1 ∧ s1.Kept pq := by
  unfold execControllerReset
  refine ⟨_, rfl, ?_⟩
  repeat' first
    | with_reducible assumption
    | with_reducible apply State.ctrlReset_kept
    | with_reducible apply State.setStat_kept
    | exact Sub.mono (by decide) hm
    | split

theorem execNormalShutdown_kept {n : Nat} (hm : Sub 0x3E8430E pq) (hI : s.Kept pq) : ∃ s1, execNormalShutdown n s = .next s1 ∧ s1.Kept pq := by
  unfold execNormalShutdown
  refine ⟨_, rfl, ?_⟩
  repeat' first
    | with_reducible assumption
    | with_reducible apply State.modCtrl_kept
    | with_reducible apply State.libCompact_kept
    | exact Sub.mono (by decide) hm
    | split

theorem execAbruptShutdown_kept {n : Nat} (hm : Sub 0x1000000 pq) (hI : s.Kept pq) : ∃ s1, execAbruptShutdown n s = .next s1 ∧ s1.Kept pq := by
  unfold execAbruptShutdown
  refine ⟨_, rfl, ?_⟩
  repeat' first
    | with_reducible assumption
    | with_reducible apply State.modCtrl_kept
    | split

theorem State.adminCmd_kept {n : Nat} {opc : Byte} {f : State → Cmd → State} (hf : ∀ s a0, State.Kept pq s → (f s a0).Kept pq) (hI : s.Kept pq) : (State.adminCmd s n opc f).Kept pq := by
  unfold State.adminCmd
  repeat' first
    | with_reducible assumption
    | with_reducible apply hf
    | split

theorem State.bad_kept {c : Cmd} {typ : Nat} {code : Nat} (hm : Sub 0x300000C pq) (hI : s.Kept pq) : (State.bad s c typ code).Kept pq := by
  unfold State.bad
  repeat' first
    | with_reducible assumption
    | with_reducible apply State.complete_kept

theorem State.deleteSq_kept {c : Cmd} (hm : Sub 0x300000C pq) (hI : s.Kept pq) : (State.deleteSq s c).Kept pq := by
  unfold State.deleteSq
  repeat' first
    | with_reducible assumption
    | (extract_lets +onlyGivenNames s1; refine State.Kept.cut (s := s1) (p := pq) ?_ (fun _ => ?_); rotate_left; clear_value s1; rotate_left; dsimp -zeta only [s1]; clear s1)
    | (extract_lets +onlyGivenNames x1; clear_value x1)
    | (intro x hx; beta_reduce)
    | with_reducible apply State.bad_kept
    | with_reducible apply State.endUncommitted_kept
    | with_reducible apply State.complete_kept
    | with_reducible apply State.modCtrl_kept
    | with_reducible apply State.completeOk_kept
    | with_reducible apply State.Kept.foldl
    | exact Sub.mono (by decide) hm
    | split

theorem execDeleteIoSq_kept {n : Nat} (hm : Sub 0x300000C pq) (hI : s.Kept pq) : ∃ s1, execDeleteIoSq n s = .next s1 ∧ s1.Kept pq := by
  unfold execDeleteIoSq
  refine ⟨_, rfl, ?_⟩
  repeat' first
    | with_reducible assumption
    | (intro x hx; beta_reduce)
    | with_reducible apply State.adminCmd_kept
    | with_reducible apply State.deleteSq_kept

theorem State.createSq_kept {c : Cmd} (hm : Sub 0x300000C pq) (hI : s.Kept pq) : (State.createSq s c).Kept pq := by
  unfold State.createSq
  repeat' first
    | with_reducible assumption
    | (extract_lets +onlyGivenNames x1; clear_value x1)
    | with_reducible apply State.bad_kept
    | with_reducible apply State.complete_kept
    | with_reducible apply State.modCtrl_kept
    | with_reducible apply State.completeOk_kept
    | exact Sub.mono (by decide) hm
    | split

theorem execCreateIoSq_kept {n : Nat} (hm : Sub 0x300000C pq) (hI : s.Kept pq) : ∃ s1, execCreateIoSq n s = .next s1 ∧ s1.Kept pq := by
  unfold execCreateIoSq
  refine ⟨_, rfl, ?_⟩
  repeat' first
    | with_reducible assumption
    | (intro x hx; beta_reduce)
    | with_reducible apply State.adminCmd_kept
    | with_reducible apply State.createSq_kept

theorem State.deleteCq_kept {c : Cmd} (hm : Sub 0x300000C pq) (hI : s.Kept pq) : (State.deleteCq s c).Kept pq := by
  unfold State.deleteCq
  repeat' first
    | with_reducible assumption
    | (extract_lets +onlyGivenNames s1; refine State.Kept.cut (s := s1) (p := pq) ?_ (fun _ => ?_); rotate_left; clear_value s1; rotate_left; dsimp -zeta only [s1]; clear s1)
    | (extract_lets +onlyGivenNames x1; clear_value x1)
    | with_reducible apply State.bad_kept
    | with_reducible apply State.modCtrl_kept
    | with_reducible apply State.modNve_kept
    | with_reducible apply State.completeOk_kept
    | exact Sub.mono (by decide) hm
    | split

theorem execDeleteIoCq_kept {n : Nat} (hm : Sub 0x300000C pq) (hI : s.Kept pq) : ∃ s1, execDeleteIoCq n s = .next s1 ∧ s1.Kept pq := by
  unfold execDeleteIoCq
  refine ⟨_, rfl, ?_⟩
  repeat' first
    | with_reducible assumption
    | (intro x hx; beta_reduce)
    | with_reducible apply State.adminCmd_kept
    | with_reducible apply State.deleteCq_kept

theorem State.createCq_kept {c : Cmd} (hm : Sub 0x300000C pq) (hI : s.Kept pq) : (State.createCq s c).Kept pq := by
  unfold State.createCq
  repeat' first
    | with_reducible assumption
    | (extract_lets +onlyGivenNames x1; clear_value x1)
    | with_reducible apply State.bad_kept
    | with_reducible apply State.complete_kept
    | with_reducible apply State.modCtrl_kept
    | with_reducible apply State.completeOk_kept
    | exact Sub.mono (by decide) hm
    | split

theorem execCreateIoCq_kept {n : Nat} (hm : Sub 0x300000C pq) (hI : s.Kept pq) : ∃ s1, execCreateIoCq n s = .next s1 ∧ s1.Kept pq := by
  unfold execCreateIoCq
  refine ⟨_, rfl, ?_⟩
  repeat' first
    | with_reducible assumption
    | (intro x hx; beta_reduce)
    | with_reducible apply State.adminCmd_kept
    | with_reducible apply State.createCq_kept

theorem State.dataBack_kept {n : Nat} {f : Nat → Option Byte} (hm : Sub 0x1000002 pq) (hI : s.Kept pq) : (State.dataBack s n f).Kept pq := by
  unfold State.dataBack
  repeat' first
    | with_reducible assumption
    | (extract_lets +onlyGivenNames x1; clear_value x1)
    | with_reducible apply State.modNve_kept
    | with_reducible apply State.freeBy_kept
    | exact Sub.mono (by decide) hm

theorem State.recorderPage_kept {off : Nat} {n : Nat} (hm : Sub 0x200 pq) (hI : s.Kept pq) : (State.recorderPage s off n).Kept pq := by
  unfold State.recorderPage
  repeat' first
    | with_reducible assumption
    | (extract_lets +onlyGivenNames x1; clear_value x1)
    | with_reducible apply State.modEvr_kept
    | split

theorem State.getLog_kept {c : Cmd} (hm : Sub 0x300020E pq) (hI : s.Kept pq) : (State.getLog s c).Kept pq := by
  unfold State.getLog
  repeat' first
    | with_reducible assumption
    | (extract_lets +onlyGivenNames s1; refine State.Kept.cut (s := s1) (p := pq) ?_ (fun _ => ?_); rotate_left; clear_value s1; rotate_left; dsimp -zeta only [s1]; clear s1)
    | (extract_lets +onlyGivenNames x1; clear_value x1)
    | with_reducible apply State.complete_kept
    | with_reducible apply State.modCtrl_kept
    | with_reducible apply State.recorderPage_kept
    | with_reducible apply State.dataBack_kept
    | with_reducible apply State.completeOk_kept
    | exact Sub.mono (by decide) hm
    | split

theorem execGetLogPage_kept {n : Nat} (hm : Sub 0x300020E pq) (hI : s.Kept pq) : ∃ s1, execGetLogPage n s = .next s1 ∧ s1.Kept pq := by
  unfold execGetLogPage
  refine ⟨_, rfl, ?_⟩
  repeat' first
    | with_reducible assumption
    | (intro x y hx; beta_reduce)
    | with_reducible apply State.adminCmd_kept
    | with_reducible apply State.getLog_kept

theorem State.identify_kept {c : Cmd} (hm : Sub 0x300000E pq) (hI : s.Kept pq) : (State.identify s c).Kept pq := by
  unfold State.identify
  repeat' first
    | with_reducible assumption
    | (extract_lets +onlyGivenNames x1; clear_value x1)
    | with_reducible apply State.dataBack_kept
    | with_reducible apply State.completeOk_kept
    | with_reducible apply State.complete_kept
    | exact Sub.mono (by decide) hm
    | split

theorem execIdentify_kept {n : Nat} (hm : Sub 0x300000E pq) (hI : s.Kept pq) : ∃ s1, execIdentify n s = .next s1 ∧ s1.Kept pq := by
  unfold execIdentify
  refine ⟨_, rfl, ?_⟩
  repeat' first
    | with_reducible assumption
    | (intro x y hx; beta_reduce)
    | with_reducible apply State.adminCmd_kept
    | with_reducible apply State.identify_kept

theorem State.notAborted_kept {a : Cmd} (hm : Sub 0x300000C pq) (hI : s.Kept pq) : (State.notAborted s a).Kept pq := by
  unfold State.notAborted
  repeat' first
    | with_reducible assumption
    | with_reducible apply State.complete_kept
    | with_reducible apply State.bump_kept
    | exact Sub.mono (by decide) hm

theorem State.abort_kept {a : Cmd} (hm : Sub 0x300000C pq) (hI : s.Kept pq) : (State.abort s a).Kept pq := by
  unfold State.abort
  repeat' first
    | with_reducible assumption
    | (extract_lets +onlyGivenNames s1; refine State.Kept.cut (s := s1) (p := pq) ?_ (fun _ => ?_); rotate_left; clear_value s1; rotate_left; dsimp -zeta only [s1]; clear s1)
    | with_reducible apply State.bad_kept
    | with_reducible apply State.complete_kept
    | with_reducible apply State.notAborted_kept
    | with_reducible apply State.modCtrl_kept
    | with_reducible apply State.modCmd_kept
    | exact Sub.mono (by decide) hm
    | split

theorem execAbort_kept {n : Nat} (hm : Sub 0x300000C pq) (hI : s.Kept pq) : ∃ s1, execAbort n s = .next s1 ∧ s1.Kept pq := by
  unfold execAbort
  refine ⟨_, rfl, ?_⟩
  repeat' first
    | with_reducible assumption
    | (intro x hx; beta_reduce)
    | with_reducible apply State.adminCmd_kept
    | with_reducible apply State.abort_kept

theorem State.setFeature_kept {c : Cmd} {hid : BitVec 128} {ts : BitVec 48} (hm : Sub 0x300020E pq) (hI : s.Kept pq) : (State.setFeature s c hid ts).Kept pq := by
  unfold State.setFeature
  repeat' first
    | with_reducible assumption
    | (extract_lets +onlyGivenNames s1; refine State.Kept.cut (s := s1) (p := pq) ?_ (fun _ => ?_); rotate_left; clear_value s1; rotate_left; dsimp -zeta only [s1]; clear s1)
    | (extract_lets +onlyGivenNames x1; clear_value x1)
    | with_reducible apply State.complete_kept
    | with_reducible apply State.modCtrl_kept
    | with_reducible apply State.modNve_kept
    | with_reducible apply State.modEvr_kept
    | with_reducible apply State.calendarSet_kept
    | with_reducible apply State.completeOk_kept
    | exact Sub.mono (by decide) hm
    | split

theorem execSetFeatures_kept {n : Nat} {hid : BitVec 128} {ts : BitVec 48} (hm : Sub 0x300020E pq) (hI : s.Kept pq) : ∃ s1, execSetFeatures n hid ts s = .next s1 ∧ s1.Kept pq := by
  unfold execSetFeatures
  refine ⟨_, rfl, ?_⟩
  repeat' first
    | with_reducible assumption
    | (intro x hx; beta_reduce)
    | with_reducible apply State.adminCmd_kept
    | with_reducible apply State.setFeature_kept

theorem execGetFeatures_kept {n : Nat} (hm : Sub 0x300000C pq) (hI : s.Kept pq) : ∃ s1, execGetFeatures n s = .next s1 ∧ s1.Kept pq := by
  unfold execGetFeatures
  refine ⟨_, rfl, ?_⟩
  repeat' first
    | with_reducible assumption
    | (extract_lets +onlyGivenNames x1; clear_value x1)
    | (intro x hx; beta_reduce)
    | with_reducible apply State.adminCmd_kept
    | with_reducible apply State.complete_kept
    | split

theorem execAsynchronousEventRequest_kept {n : Nat} (hm : Sub 0x300000C pq) (hI : s.Kept pq) : ∃ s1, execAsynchronousEventRequest n s = .next s1 ∧ s1.Kept pq := by
  unfold execAsynchronousEventRequest
  refine ⟨_, rfl, ?_⟩
  repeat' first
    | with_reducible assumption
    | (intro x y hx; beta_reduce)
    | with_reducible apply State.adminCmd_kept
    | with_reducible apply State.bad_kept
    | with_reducible apply State.modCmd_kept
    | with_reducible apply State.modCtrl_kept
    | exact Sub.mono (by decide) hm
    | split

theorem execAsyncEventPost_kept {n : Nat} (hm : Sub 0x300000C pq) (hI : s.Kept pq) : ∃ s1, execAsyncEventPost n s = .next s1 ∧ s1.Kept pq := by
  unfold execAsyncEventPost
  refine ⟨_, rfl, ?_⟩
  repeat' first
    | with_reducible assumption
    | (extract_lets +onlyGivenNames s1; refine State.Kept.cut (s := s1) (p := pq) ?_ (fun _ => ?_); rotate_left; clear_value s1; rotate_left; dsimp -zeta only [s1]; clear s1)
    | with_reducible apply State.modCtrl_kept
    | with_reducible apply State.complete_kept
    | exact Sub.mono (by decide) hm
    | split

theorem State.bindZone_kept {n : Nat} {z : Nat} (hm : Sub 0x80000 pq) (hI : s.Kept pq) : (State.bindZone s n z).Kept pq := by
  unfold State.bindZone
  repeat' first
    | with_reducible assumption
    | with_reducible apply State.putZent_kept
    | with_reducible apply State.bumpGen_kept
    | split

theorem State.bindZones_kept {n : Nat} {count : Nat} (hm : Sub 0x80000 pq) (hI : s.Kept pq) : (State.bindZones s n count).Kept pq := by
  unfold State.bindZones
  repeat' first
    | with_reducible assumption
    | (intro x y hx; beta_reduce)
    | with_reducible apply State.bindZone_kept
    | with_reducible apply State.Kept.foldl

theorem State.nsCreate_kept {c : Cmd} {zoned : Bool} {size : Nat} {lbaf : Nat} (hm : Sub 0x308000C pq) (hI : s.Kept pq) : (State.nsCreate s c zoned size lbaf).Kept pq := by
  unfold State.nsCreate
  repeat' first
    | with_reducible assumption
    | (extract_lets +onlyGivenNames s1; refine State.Kept.cut (s := s1) (p := pq) ?_ (fun _ => ?_); rotate_left; clear_value s1; rotate_left; dsimp -zeta only [s1]; clear s1)
    | (extract_lets +onlyGivenNames x1; clear_value x1)
    | with_reducible apply State.bad_kept
    | with_reducible apply State.complete_kept
    | with_reducible apply State.setNs_kept
    | with_reducible apply State.bindZones_kept
    | with_reducible apply State.putCfg_kept
    | exact Sub.mono (by decide) hm
    | split

theorem State.resetZones_kept {n : Nat} (hm : Sub 0xE8000E pq) (hI : s.Kept pq) : (State.resetZones s n).Kept pq := by
  unfold State.resetZones
  repeat' first
    | with_reducible assumption
    | (intro x hx; beta_reduce)
    | with_reducible apply State.zoneReset_kept
    | with_reducible apply State.Kept.foldl

theorem State.forgetConv_kept {n : Nat} (hm : Sub 0xC8010C pq) (hI : s.Kept pq) : (State.forgetConv s n).Kept pq := by
  unfold State.forgetConv
  repeat' first
    | with_reducible assumption
    | (extract_lets +onlyGivenNames s1; refine State.Kept.cut (s := s1) (p := pq) ?_ (fun _ => ?_); rotate_left; clear_value s1; rotate_left; dsimp -zeta only [s1]; clear s1)
    | (intro x y hx; beta_reduce)
    | with_reducible apply State.pieceOut_kept
    | with_reducible apply State.unstage_kept
    | with_reducible apply State.modWin_kept
    | with_reducible apply State.Kept.foldl
    | exact Sub.mono (by decide) hm
    | split

theorem State.nsClear_kept {n : Nat} (hm : Sub 0xE8010E pq) (hI : s.Kept pq) : (State.nsClear s n).Kept pq := by
  unfold State.nsClear
  repeat' first
    | with_reducible assumption
    | with_reducible apply State.resetZones_kept
    | with_reducible apply State.forgetConv_kept
    | exact Sub.mono (by decide) hm

theorem State.nsDelete_kept {n : Nat} (hm : Sub 0x1E8010E pq) (hI : s.Kept pq) : (State.nsDelete s n).Kept pq := by
  unfold State.nsDelete
  repeat' first
    | with_reducible assumption
    | (extract_lets +onlyGivenNames s1; refine State.Kept.cut (s := s1) (p := pq) ?_ (fun _ => ?_); rotate_left; clear_value s1; rotate_left; dsimp -zeta only [s1]; clear s1)
    | (extract_lets +onlyGivenNames x1; clear_value x1)
    | (intro x y hx; beta_reduce)
    | with_reducible apply State.nsClear_kept
    | with_reducible apply State.putZent_kept
    | with_reducible apply State.bumpGen_kept
    | with_reducible apply State.modWin_kept
    | with_reducible apply State.setNs_kept
    | with_reducible apply State.modNve_kept
    | with_reducible apply State.Kept.foldl
    | exact Sub.mono (by decide) hm

theorem State.nsManage_kept {c : Cmd} {zoned : Bool} {size : Nat} {lbaf : Nat} (hm : Sub 0x3E8010E pq) (hI : s.Kept pq) : (State.nsManage s c zoned size lbaf).Kept pq := by
  unfold State.nsManage
  repeat' first
    | with_reducible assumption
    | (intro x y hx; beta_reduce)
    | with_reducible apply State.bad_kept
    | with_reducible apply State.nsCreate_kept
    | with_reducible apply State.nsDelete_kept
    | with_reducible apply State.completeOk_kept
    | with_reducible apply State.complete_kept
    | with_reducible apply State.Kept.foldl
    | exact Sub.mono (by decide) hm
    | split

theorem execNamespaceManagement_kept {n : Nat} {zoned : Bool} {size : Nat} {lbaf : Nat} (hm : Sub 0x3E8010E pq) (hI : s.Kept pq) : ∃ s1, execNamespaceManagement n zoned size lbaf s = .next s1 ∧ s1.Kept pq := by
  unfold execNamespaceManagement
  refine ⟨_, rfl, ?_⟩
  repeat' first
    | with_reducible assumption
    | (intro x y hx; beta_reduce)
    | with_reducible apply State.adminCmd_kept
    | with_reducible apply State.nsManage_kept

theorem State.nsAttach_kept {c : Cmd} {cs : List Nat} (hm : Sub 0x300000C pq) (hI : s.Kept pq) : (State.nsAttach s c cs).Kept pq := by
  unfold State.nsAttach
  repeat' first
    | with_reducible assumption
    | with_reducible apply State.bad_kept
    | with_reducible apply State.setNs_kept
    | with_reducible apply State.completeOk_kept
    | with_reducible apply State.complete_kept
    | exact Sub.mono (by decide) hm
    | split

theorem execNamespaceAttachment_kept {n : Nat} {cs : List Nat} (hm : Sub 0x300000C pq) (hI : s.Kept pq) : ∃ s1, execNamespaceAttachment n cs s = .next s1 ∧ s1.Kept pq := by
  unfold execNamespaceAttachment
  refine ⟨_, rfl, ?_⟩
  repeat' first
    | with_reducible assumption
    | (intro x hx; beta_reduce)
    | with_reducible apply State.adminCmd_kept
    | with_reducible apply State.nsAttach_kept

theorem State.fwCommit_kept {c : Cmd} {ok : Bool} (hm : Sub 0x300000C pq) (hI : s.Kept pq) : (State.fwCommit s c ok).Kept pq := by
  unfold State.fwCommit
  repeat' first
    | with_reducible assumption
    | (extract_lets +onlyGivenNames s1; refine State.Kept.cut (s := s1) (p := pq) ?_ (fun _ => ?_); rotate_left; clear_value s1; rotate_left; dsimp -zeta only [s1]; clear s1)
    | (extract_lets +onlyGivenNames x1; clear_value x1)
    | with_reducible apply State.complete_kept
    | with_reducible apply State.bad_kept
    | with_reducible apply State.modNve_kept
    | with_reducible apply State.completeOk_kept
    | exact Sub.mono (by decide) hm
    | split

theorem execFirmwareCommit_kept {n : Nat} {ok : Bool} (hm : Sub 0x300000C pq) (hI : s.Kept pq) : ∃ s1, execFirmwareCommit n ok s = .next s1 ∧ s1.Kept pq := by
  unfold execFirmwareCommit
  refine ⟨_, rfl, ?_⟩
  repeat' first
    | with_reducible assumption
    | (intro x hx; beta_reduce)
    | with_reducible apply State.adminCmd_kept
    | with_reducible apply State.fwCommit_kept

theorem State.fwDownload_kept {c : Cmd} {data : List Byte} (hm : Sub 0x300000C pq) (hI : s.Kept pq) : (State.fwDownload s c data).Kept pq := by
  unfold State.fwDownload
  repeat' first
    | with_reducible assumption
    | (extract_lets +onlyGivenNames x1; clear_value x1)
    | with_reducible apply State.complete_kept
    | with_reducible apply State.modNve_kept
    | with_reducible apply State.completeOk_kept
    | exact Sub.mono (by decide) hm
    | split

theorem execFirmwareImageDownload_kept {n : Nat} {data : List Byte} (hm : Sub 0x300000C pq) (hI : s.Kept pq) : ∃ s1, execFirmwareImageDownload n data s = .next s1 ∧ s1.Kept pq := by
  unfold execFirmwareImageDownload
  refine ⟨_, rfl, ?_⟩
  repeat' first
    | with_reducible assumption
    | (intro x hx; beta_reduce)
    | with_reducible apply State.adminCmd_kept
    | with_reducible apply State.fwDownload_kept

theorem State.selfTestCmd_kept {c : Cmd} (hm : Sub 0x300000C pq) (hI : s.Kept pq) : (State.selfTestCmd s c).Kept pq := by
  unfold State.selfTestCmd
  repeat' first
    | with_reducible assumption
    | with_reducible apply State.bad_kept
    | with_reducible apply State.modNve_kept
    | with_reducible apply State.completeOk_kept
    | with_reducible apply State.complete_kept
    | exact Sub.mono (by decide) hm
    | split

theorem execDeviceSelfTest_kept {n : Nat} (hm : Sub 0x300000C pq) (hI : s.Kept pq) : ∃ s1, execDeviceSelfTest n s = .next s1 ∧ s1.Kept pq := by
  unfold execDeviceSelfTest
  refine ⟨_, rfl, ?_⟩
  repeat' first
    | with_reducible assumption
    | (intro x hx; beta_reduce)
    | with_reducible apply State.adminCmd_kept
    | with_reducible apply State.selfTestCmd_kept

theorem State.virtMgmt_kept {c : Cmd} (hm : Sub 0x300000C pq) (hI : s.Kept pq) : (State.virtMgmt s c).Kept pq := by
  unfold State.virtMgmt
  repeat' first
    | with_reducible assumption
    | (extract_lets +onlyGivenNames x1; clear_value x1)
    | with_reducible apply State.bad_kept
    | with_reducible apply State.complete_kept
    | with_reducible apply State.allocQ_kept
    | with_reducible apply State.completeOk_kept
    | with_reducible apply State.nveInt_kept
    | with_reducible refine OptKept.all ?_ _ (by assumption)
    | exact Sub.mono (by decide) hm
    | split

theorem execVirtualizationManagement_kept {n : Nat} (hm : Sub 0x300000C pq) (hI : s.Kept pq) : ∃ s1, execVirtualizationManagement n s = .next s1 ∧ s1.Kept pq := by
  unfold execVirtualizationManagement
  refine ⟨_, rfl, ?_⟩
  repeat' first
    | with_reducible assumption
    | (intro x hx; beta_reduce)
    | with_reducible apply State.adminCmd_kept
    | with_reducible apply State.virtMgmt_kept

theorem execNvmeMiSend_kept {n : Nat} (hm : Sub 0x300000C pq) (hI : s.Kept pq) : ∃ s1, execNvmeMiSend n s = .next s1 ∧ s1.Kept pq := by
  unfold execNvmeMiSend
  refine ⟨_, rfl, ?_⟩
  repeat' first
    | with_reducible assumption
    | (intro x hx; beta_reduce)
    | with_reducible apply State.adminCmd_kept
    | with_reducible apply State.completeOk_kept

theorem execNvmeMiReceive_kept {n : Nat} (hm : Sub 0x300000C pq) (hI : s.Kept pq) : ∃ s1, execNvmeMiReceive n s = .next s1 ∧ s1.Kept pq := by
  unfold execNvmeMiReceive
  refine ⟨_, rfl, ?_⟩
  repeat' first
    | with_reducible assumption
    | (intro x hx; beta_reduce)
    | with_reducible apply State.adminCmd_kept
    | with_reducible apply State.completeOk_kept

theorem State.security_kept {c : Cmd} (hm : Sub 0x300000C pq) (hI : s.Kept pq) : (State.security s c).Kept pq := by
  unfold State.security
  repeat' first
    | with_reducible assumption
    | with_reducible apply State.completeOk_kept
    | with_reducible apply State.complete_kept
    | split

theorem execSecuritySend_kept {n : Nat} (hm : Sub 0x300000C pq) (hI : s.Kept pq) : ∃ s1, execSecuritySend n s = .next s1 ∧ s1.Kept pq := by
  unfold execSecuritySend
  refine ⟨_, rfl, ?_⟩
  repeat' first
    | with_reducible assumption
    | (intro x hx; beta_reduce)
    | with_reducible apply State.adminCmd_kept
    | with_reducible apply State.security_kept

theorem execSecurityReceive_kept {n : Nat} (hm : Sub 0x300000C pq) (hI : s.Kept pq) : ∃ s1, execSecurityReceive n s = .next s1 ∧ s1.Kept pq := by
  unfold execSecurityReceive
  refine ⟨_, rfl, ?_⟩
  repeat' first
    | with_reducible assumption
    | (intro x hx; beta_reduce)
    | with_reducible apply State.adminCmd_kept
    | with_reducible apply State.security_kept

theorem State.cryptoErase_kept {n : Nat} (hm : Sub 0xE8070E pq) (hI : s.Kept pq) : (State.cryptoErase s n).Kept pq := by
  unfold State.cryptoErase
  repeat' first
    | with_reducible assumption
    | (extract_lets +onlyGivenNames s1; refine State.Kept.cut (s := s1) (p := pq) ?_ (fun _ => ?_); rotate_left; clear_value s1; rotate_left; dsimp -zeta only [s1]; clear s1)
    | with_reducible apply State.slotZeroize_kept
    | with_reducible apply State.nsClear_kept
    | exact Sub.mono (by decide) hm
    | split

theorem State.bindReserved_kept {x : Side} {use : Nat} (hm : Sub 0x80000 pq) (hI : s.Kept pq) : (State.bindReserved s x use).Kept pq := by
  unfold State.bindReserved
  repeat' first
    | with_reducible assumption
    | with_reducible apply State.putZent_kept
    | with_reducible apply State.bumpGen_kept
    | split

theorem State.fillReserved_kept {x : Side} {use : Nat} {n : Nat} (hm : Sub 0x80000 pq) (hI : s.Kept pq) : (State.fillReserved s x use n).Kept pq := by
  unfold State.fillReserved
  repeat' first
    | with_reducible assumption
    | (intro x y hx; beta_reduce)
    | with_reducible apply State.bindReserved_kept
    | with_reducible apply State.Kept.foldl

theorem State.reservedGroups_kept {x : Side} (hm : Sub 0x80000 pq) (hI : s.Kept pq) : (State.reservedGroups s x).Kept pq := by
  unfold State.reservedGroups
  repeat' first
    | with_reducible assumption
    | (extract_lets +onlyGivenNames x1; clear_value x1)
    | with_reducible apply State.fillReserved_kept

theorem State.formatOne_kept {c : Cmd} {n : Nat} (hm : Sub 0x1E8070E pq) (hI : s.Kept pq) : (State.formatOne s c n).Kept pq := by
  unfold State.formatOne
  repeat' first
    | with_reducible assumption
    | (extract_lets +onlyGivenNames s1; refine State.Kept.cut (s := s1) (p := pq) ?_ (fun _ => ?_); rotate_left; clear_value s1; rotate_left; dsimp -zeta only [s1]; clear s1)
    | (extract_lets +onlyGivenNames x1; clear_value x1)
    | with_reducible apply State.cryptoErase_kept
    | with_reducible apply State.nsClear_kept
    | with_reducible apply State.putCfg_kept
    | exact Sub.mono (by decide) hm
    | split

theorem State.format_kept {c : Cmd} (hm : Sub 0x3E8070E pq) (hI : s.Kept pq) : (State.format s c).Kept pq := by
  unfold State.format
  repeat' first
    | with_reducible assumption
    | (extract_lets +onlyGivenNames s1; refine State.Kept.cut (s := s1) (p := pq) ?_ (fun _ => ?_); rotate_left; clear_value s1; rotate_left; dsimp -zeta only [s1]; clear s1)
    | (extract_lets +onlyGivenNames x1; clear_value x1)
    | (intro x y hx; beta_reduce)
    | with_reducible apply State.bad_kept
    | with_reducible apply State.complete_kept
    | with_reducible apply State.formatOne_kept
    | with_reducible apply State.reservedGroups_kept
    | with_reducible apply State.modCrn_kept
    | with_reducible apply State.completeOk_kept
    | with_reducible apply State.Kept.foldl
    | exact Sub.mono (by decide) hm
    | split

theorem execFormatNvm_kept {n : Nat} (hm : Sub 0x3E8070E pq) (hI : s.Kept pq) : ∃ s1, execFormatNvm n s = .next s1 ∧ s1.Kept pq := by
  unfold execFormatNvm
  refine ⟨_, rfl, ?_⟩
  repeat' first
    | with_reducible assumption
    | (intro x y hx; beta_reduce)
    | with_reducible apply State.adminCmd_kept
    | with_reducible apply State.format_kept

theorem State.sanitize_kept {c : Cmd} (hm : Sub 0x3E8070E pq) (hI : s.Kept pq) : (State.sanitize s c).Kept pq := by
  unfold State.sanitize
  repeat' first
    | with_reducible assumption
    | (extract_lets +onlyGivenNames s1; refine State.Kept.cut (s := s1) (p := pq) ?_ (fun _ => ?_); rotate_left; clear_value s1; rotate_left; dsimp -zeta only [s1]; clear s1)
    | (intro x y hx; beta_reduce)
    | with_reducible apply State.complete_kept
    | with_reducible apply State.cryptoErase_kept
    | with_reducible apply State.modNve_kept
    | with_reducible apply State.completeOk_kept
    | with_reducible apply State.Kept.foldl
    | exact Sub.mono (by decide) hm
    | split

theorem execSanitize_kept {n : Nat} (hm : Sub 0x3E8070E pq) (hI : s.Kept pq) : ∃ s1, execSanitize n s = .next s1 ∧ s1.Kept pq := by
  unfold execSanitize
  refine ⟨_, rfl, ?_⟩
  repeat' first
    | with_reducible assumption
    | (intro x y hx; beta_reduce)
    | with_reducible apply State.adminCmd_kept
    | with_reducible apply State.sanitize_kept

theorem execInvalidOpcode_kept {n : Nat} (hm : Sub 0x300000C pq) (hI : s.Kept pq) : ∃ s1, execInvalidOpcode n s = .next s1 ∧ s1.Kept pq := by
  unfold execInvalidOpcode
  refine ⟨_, rfl, ?_⟩
  repeat' first
    | with_reducible assumption
    | with_reducible apply State.complete_kept
    | split

end Sys2Proof.Machine
end

