-- ==== Sys2Proof/Laws/KeptHostPort.lean ====
section
/-!
SUPPORT. The operations of Machine/HostPort.lean keep what they do not write.
-/
set_option Elab.async false
set_option linter.unusedTactic false
set_option linter.unreachableTactic false
namespace Sys2Proof.Machine

variable {pq : Nat × State} {s : State}

theorem State.hptInt_kept {p : Side} {i : Nat} (hm : Sub 0x4 pq) (hI : s.Kept pq) : (State.hptInt s p i).Kept pq := by
  unfold State.hptInt
  repeat' first
    | with_reducible assumption
    | with_reducible apply State.setStat_kept

theorem State.modRcpPerst_kept {p : Side} {v : Bool} (hm : Sub 0x800 pq) (hI : s.Kept pq) : (State.modRcpPerst s p v).Kept pq := by
  unfold State.modRcpPerst
  repeat' first
    | with_reducible assumption
    | with_reducible apply State.modRcp_kept

theorem State.portCtrls_kept {p : Side} (hm : Sub 0x300000C pq) (hI : s.Kept pq) : (State.portCtrls s p).Kept pq := by
  unfold State.portCtrls
  repeat' first
    | with_reducible assumption
    | (intro x y hx; beta_reduce)
    | with_reducible apply State.ctrlReset_kept
    | with_reducible apply State.Kept.foldl
    | split

theorem execPcieLinkDown_kept {p : Side} (hm : Sub 0x700000C pq) (hI : s.Kept pq) : ∃ s1, execPcieLinkDown p s = .next s1 ∧ s1.Kept pq := by
  unfold execPcieLinkDown
  refine ⟨_, rfl, ?_⟩
  repeat' first
    | with_reducible assumption
    | with_reducible apply State.modHpt_kept
    | with_reducible apply State.hptInt_kept
    | with_reducible apply State.portCtrls_kept
    | exact Sub.mono (by decide) hm
    | split

theorem execHotReset_kept {p : Side} (hm : Sub 0x700000C pq) (hI : s.Kept pq) : ∃ s1, execHotReset p s = .next s1 ∧ s1.Kept pq := by
  unfold execHotReset
  refine ⟨_, rfl, ?_⟩
  repeat' first
    | with_reducible assumption
    | with_reducible apply State.modHpt_kept
    | with_reducible apply State.hptInt_kept
    | with_reducible apply State.portCtrls_kept
    | with_reducible apply State.setStat_kept
    | exact Sub.mono (by decide) hm
    | split

theorem State.portRegs_kept {p : Side} (hm : Sub 0x4 pq) (hI : s.Kept pq) : (State.portRegs s p).Kept pq := by
  unfold State.portRegs
  repeat' first
    | with_reducible assumption
    | with_reducible apply State.keepRegs_kept

theorem execPerst_kept {p : Side} (hm : Sub 0x700080C pq) (hI : s.Kept pq) : ∃ s1, execPerst p s = .next s1 ∧ s1.Kept pq := by
  unfold execPerst
  refine ⟨_, rfl, ?_⟩
  repeat' first
    | with_reducible assumption
    | with_reducible apply State.portCtrls_kept
    | with_reducible apply State.portRegs_kept
    | with_reducible apply State.modRcpPerst_kept
    | with_reducible apply State.setStat_kept
    | with_reducible apply State.modHpt_kept
    | exact Sub.mono (by decide) hm
    | split

theorem State.linkTrain_kept {p : Side} {speed : Nat} {width : Nat} (hm : Sub 0x4000000 pq) (hI : s.Kept pq) : (State.linkTrain s p speed width).Kept pq := by
  unfold State.linkTrain
  repeat' first
    | with_reducible assumption
    | with_reducible apply State.traffic_kept
    | with_reducible apply State.modHpt_kept
    | split

theorem State.cfgReady_kept {p : Side} (hm : Sub 0x4 pq) (hI : s.Kept pq) : (State.cfgReady s p).Kept pq := by
  unfold State.cfgReady
  repeat' first
    | with_reducible assumption
    | with_reducible apply State.setStat_kept
    | split

theorem execPerstRelease_kept {p : Side} {speed : Nat} {width : Nat} (hm : Sub 0x4000804 pq) (hI : s.Kept pq) : ∃ s1, execPerstRelease p speed width s = .next s1 ∧ s1.Kept pq := by
  unfold execPerstRelease
  refine ⟨_, rfl, ?_⟩
  repeat' first
    | with_reducible assumption
    | (extract_lets +onlyGivenNames s1; refine State.Kept.cut (s := s1) (p := pq) ?_ (fun _ => ?_); rotate_left; clear_value s1; rotate_left; dsimp -zeta only [s1]; clear s1)
    | with_reducible apply State.modRcpPerst_kept
    | with_reducible apply State.modHpt_kept
    | with_reducible apply State.linkTrain_kept
    | with_reducible apply State.cfgReady_kept
    | exact Sub.mono (by decide) hm
    | split

theorem State.retrain_kept {p : Side} {speed : Nat} {width : Nat} (hm : Sub 0x4000000 pq) (hI : s.Kept pq) : (State.retrain s p speed width).Kept pq := by
  unfold State.retrain
  repeat' first
    | with_reducible assumption
    | with_reducible apply State.linkTrain_kept
    | split

theorem State.hptAccess_kept {x : Accessor} {p : Side} {f : State → State} (hf : ∀ s, State.Kept pq s → (f s).Kept pq) (hm : Sub 0x8 pq) (hI : s.Kept pq) : (State.hptAccess s x p f).Kept pq := by
  unfold State.hptAccess
  repeat' first
    | with_reducible assumption
    | (intro x hx; beta_reduce)
    | with_reducible apply State.access_kept
    | with_reducible apply hf
    | split

theorem execRetrain_kept {x : Accessor} {p : Side} {speed : Nat} {width : Nat} (hm : Sub 0x4000008 pq) (hI : s.Kept pq) : ∃ s1, execRetrain x p speed width s = .next s1 ∧ s1.Kept pq := by
  unfold execRetrain
  refine ⟨_, rfl, ?_⟩
  repeat' first
    | with_reducible assumption
    | (intro x hx; beta_reduce)
    | with_reducible apply State.hptAccess_kept
    | with_reducible apply State.retrain_kept
    | exact Sub.mono (by decide) hm

theorem execReequalize_kept {x : Accessor} {p : Side} (hm : Sub 0xA pq) (hI : s.Kept pq) : ∃ s1, execReequalize x p s = .next s1 ∧ s1.Kept pq := by
  unfold execReequalize
  refine ⟨_, rfl, ?_⟩
  repeat' first
    | with_reducible assumption
    | (intro x hx; beta_reduce)
    | with_reducible apply State.hptAccess_kept
    | with_reducible apply State.freeNext_kept
    | exact Sub.mono (by decide) hm

theorem execFlr_kept {p : Side} {f : BitVec 6} (hm : Sub 0x300000C pq) (hI : s.Kept pq) : ∃ s1, execFlr p f s = .next s1 ∧ s1.Kept pq := by
  unfold execFlr
  refine ⟨_, rfl, ?_⟩
  repeat' first
    | with_reducible assumption
    | with_reducible apply State.hptInt_kept
    | with_reducible apply State.ctrlReset_kept
    | with_reducible apply State.setStat_kept
    | exact Sub.mono (by decide) hm
    | split

theorem execPoisonedTlp_kept {p : Side} {n : Nat} (hm : Sub 0x700000C pq) (hI : s.Kept pq) : ∃ s1, execPoisonedTlp p n s = .next s1 ∧ s1.Kept pq := by
  unfold execPoisonedTlp
  refine ⟨_, rfl, ?_⟩
  repeat' first
    | with_reducible assumption
    | (extract_lets +onlyGivenNames s1; refine State.Kept.cut (s := s1) (p := pq) ?_ (fun _ => ?_); rotate_left; clear_value s1; rotate_left; dsimp -zeta only [s1]; clear s1)
    | with_reducible apply State.traffic_kept
    | with_reducible apply State.hptInt_kept
    | with_reducible apply State.bump_kept
    | with_reducible apply State.endUncommitted_kept
    | exact Sub.mono (by decide) hm
    | split

theorem State.answer_kept {r : MgmtReply} (hm : Sub 0x8000000 pq) (hI : s.Kept pq) : (State.answer s r).Kept pq := by
  unfold State.answer
  repeat' first
    | with_reducible assumption
    | with_reducible apply State.modMgmt_kept

theorem execNvmeMiBasicCommand_kept {addr : BitVec 7} (hm : Sub 0x8000002 pq) (hI : s.Kept pq) : ∃ s1, execNvmeMiBasicCommand addr s = .next s1 ∧ s1.Kept pq := by
  unfold execNvmeMiBasicCommand
  refine ⟨_, rfl, ?_⟩
  repeat' first
    | with_reducible assumption
    | with_reducible apply State.answer_kept
    | with_reducible apply State.modMgmt_kept
    | with_reducible apply State.freeNext_kept
    | exact Sub.mono (by decide) hm
    | split

theorem execSmbusTimeout_kept (hm : Sub 0x8000000 pq) (hI : s.Kept pq) : ∃ s1, execSmbusTimeout s = .next s1 ∧ s1.Kept pq := by
  unfold execSmbusTimeout
  refine ⟨_, rfl, ?_⟩
  repeat' first
    | with_reducible assumption
    | with_reducible apply State.modMgmt_kept

theorem execGetVersion_kept (hm : Sub 0x8000000 pq) (hI : s.Kept pq) : ∃ s1, execGetVersion s = .next s1 ∧ s1.Kept pq := by
  unfold execGetVersion
  refine ⟨_, rfl, ?_⟩
  repeat' first
    | with_reducible assumption
    | with_reducible apply State.answer_kept
    | with_reducible apply State.modMgmt_kept

theorem execGetCapabilities_kept (hm : Sub 0x8000000 pq) (hI : s.Kept pq) : ∃ s1, execGetCapabilities s = .next s1 ∧ s1.Kept pq := by
  unfold execGetCapabilities
  refine ⟨_, rfl, ?_⟩
  repeat' first
    | with_reducible assumption
    | with_reducible apply State.answer_kept
    | with_reducible apply State.modMgmt_kept
    | split

theorem execNegotiateAlgorithms_kept {p384 : Bool} {sha384 : Bool} (hm : Sub 0x8000000 pq) (hI : s.Kept pq) : ∃ s1, execNegotiateAlgorithms p384 sha384 s = .next s1 ∧ s1.Kept pq := by
  unfold execNegotiateAlgorithms
  refine ⟨_, rfl, ?_⟩
  repeat' first
    | with_reducible assumption
    | with_reducible apply State.answer_kept
    | with_reducible apply State.modMgmt_kept
    | split

theorem State.spdm_kept {f : State → State} (hf : ∀ s, State.Kept pq s → (f s).Kept pq) (hm : Sub 0x8000000 pq) (hI : s.Kept pq) : (State.spdm s f).Kept pq := by
  unfold State.spdm
  repeat' first
    | with_reducible assumption
    | with_reducible apply State.answer_kept
    | with_reducible apply hf
    | split

theorem execGetDigests_kept (hm : Sub 0x8000000 pq) (hI : s.Kept pq) : ∃ s1, execGetDigests s = .next s1 ∧ s1.Kept pq := by
  unfold execGetDigests
  refine ⟨_, rfl, ?_⟩
  repeat' first
    | with_reducible assumption
    | (intro x hx; beta_reduce)
    | with_reducible apply State.spdm_kept
    | with_reducible apply State.answer_kept

theorem execGetCertificate_kept {slot : BitVec 4} (hm : Sub 0x8000000 pq) (hI : s.Kept pq) : ∃ s1, execGetCertificate slot s = .next s1 ∧ s1.Kept pq := by
  unfold execGetCertificate
  refine ⟨_, rfl, ?_⟩
  repeat' first
    | with_reducible assumption
    | (intro x hx; beta_reduce)
    | with_reducible apply State.spdm_kept
    | with_reducible apply State.answer_kept
    | split

theorem execChallenge_kept {nonce : BitVec 256} (hm : Sub 0x8000000 pq) (hI : s.Kept pq) : ∃ s1, execChallenge nonce s = .next s1 ∧ s1.Kept pq := by
  unfold execChallenge
  refine ⟨_, rfl, ?_⟩
  repeat' first
    | with_reducible assumption
    | (intro x hx; beta_reduce)
    | with_reducible apply State.spdm_kept
    | with_reducible apply State.answer_kept
    | split

theorem execGetMeasurements_kept {idx : Byte} (hm : Sub 0x8000000 pq) (hI : s.Kept pq) : ∃ s1, execGetMeasurements idx s = .next s1 ∧ s1.Kept pq := by
  unfold execGetMeasurements
  refine ⟨_, rfl, ?_⟩
  repeat' first
    | with_reducible assumption
    | (intro x hx; beta_reduce)
    | with_reducible apply State.spdm_kept
    | with_reducible apply State.answer_kept
    | split

theorem execKeyExchange_kept (hm : Sub 0x8000000 pq) (hI : s.Kept pq) : ∃ s1, execKeyExchange s = .next s1 ∧ s1.Kept pq := by
  unfold execKeyExchange
  refine ⟨_, rfl, ?_⟩
  repeat' first
    | with_reducible assumption
    | with_reducible apply State.answer_kept

end Sys2Proof.Machine
end

