-- ==== Sys2Proof/Laws/KeptPackage.lean ====
section
/-!
SUPPORT. The operations of Machine/Package.lean keep what they do not write.
-/
set_option Elab.async false
set_option linter.unusedTactic false
set_option linter.unreachableTactic false
namespace Sys2Proof.Machine

variable {pq : Nat × State} {s : State}

theorem execGpioEdge_kept {n : BitVec 4} {rising : Bool} (hm : Sub 0x10000004 pq) (hI : s.Kept pq) : ∃ s1, execGpioEdge n rising s = .next s1 ∧ s1.Kept pq := by
  unfold execGpioEdge
  refine ⟨_, rfl, ?_⟩
  repeat' first
    | with_reducible assumption
    | (extract_lets +onlyGivenNames s1; refine State.Kept.cut (s := s1) (p := pq) ?_ (fun _ => ?_); rotate_left; clear_value s1; rotate_left; dsimp -zeta only [s1]; clear s1)
    | with_reducible apply State.modPins_kept
    | with_reducible apply State.setStat_kept
    | exact Sub.mono (by decide) hm
    | split

theorem State.libShutdown_kept (hm : Sub 0x3EB430E pq) (hI : s.Kept pq) : (State.libShutdown s).Kept pq := by
  unfold State.libShutdown
  repeat' first
    | with_reducible assumption
    | with_reducible apply State.libCompact_kept
    | with_reducible apply State.spWrite_kept
    | exact Sub.mono (by decide) hm
    | split

theorem execPwrdisRise_kept (hm : Sub 0x13EB430E pq) (hI : s.Kept pq) : ∃ s1, execPwrdisRise s = .next s1 ∧ s1.Kept pq := by
  unfold execPwrdisRise
  refine ⟨_, rfl, ?_⟩
  repeat' first
    | with_reducible assumption
    | with_reducible apply State.libShutdown_kept
    | with_reducible apply State.modPins_kept
    | with_reducible apply State.setStat_kept
    | exact Sub.mono (by decide) hm
    | split

theorem execPwrdisFall_kept (hm : Sub 0x10030004 pq) (hI : s.Kept pq) : ∃ s1, execPwrdisFall s = .next s1 ∧ s1.Kept pq := by
  unfold execPwrdisFall
  refine ⟨_, rfl, ?_⟩
  repeat' first
    | with_reducible assumption
    | with_reducible apply State.modPins_kept
    | with_reducible apply State.setStat_kept
    | with_reducible apply State.spWrite_kept
    | exact Sub.mono (by decide) hm
    | split

theorem execJtagInstruction_kept {ir : Nat} (hm : Sub 0x10000002 pq) (hI : s.Kept pq) : ∃ s1, execJtagInstruction ir s = .next s1 ∧ s1.Kept pq := by
  unfold execJtagInstruction
  refine ⟨_, rfl, ?_⟩
  repeat' first
    | with_reducible assumption
    | with_reducible apply State.modPins_kept
    | with_reducible apply State.freeNext_kept
    | exact Sub.mono (by decide) hm
    | split

theorem execActNBlink_kept (hm : Sub 0x10000000 pq) (hI : s.Kept pq) : ∃ s1, execActNBlink s = .next s1 ∧ s1.Kept pq := by
  unfold execActNBlink
  refine ⟨_, rfl, ?_⟩
  repeat' first
    | with_reducible assumption
    | with_reducible apply State.modPins_kept
    | split

end Sys2Proof.Machine
end

