-- ==== Sys2Proof/Laws/KeptMemory.lean ====
section
/-!
SUPPORT. The operations of Machine/Memory.lean keep what they do not write.
-/
set_option Elab.async false
set_option linter.unusedTactic false
set_option linter.unreachableTactic false
namespace Sys2Proof.Machine

variable {pq : Nat × State} {s : State}

theorem State.modScrub_kept {r : Side} {i : Nat} {f : ScrubMem → ScrubMem} (hm : Sub 0x2000 pq) (hI : s.Kept pq) : (State.modScrub s r i f).Kept pq := by
  unfold State.modScrub
  repeat' first
    | with_reducible assumption
    | with_reducible apply State.modMem_kept

theorem State.memCe_kept {r : Side} {i : Nat} {n : Nat} (hm : Sub 0x2206 pq) (hI : s.Kept pq) : (State.memCe s r i n).Kept pq := by
  unfold State.memCe
  repeat' first
    | with_reducible assumption
    | (extract_lets +onlyGivenNames s1; refine State.Kept.cut (s := s1) (p := pq) ?_ (fun _ => ?_); rotate_left; clear_value s1; rotate_left; dsimp -zeta only [s1]; clear s1)
    | (extract_lets +onlyGivenNames x1; clear_value x1)
    | with_reducible apply State.modScrub_kept
    | with_reducible apply State.setStat_kept
    | with_reducible apply State.event_kept
    | exact Sub.mono (by decide) hm
    | split

theorem State.memUe_kept {r : Side} {i : Nat} (hm : Sub 0x2206 pq) (hI : s.Kept pq) : (State.memUe s r i).Kept pq := by
  unfold State.memUe
  repeat' first
    | with_reducible assumption
    | (extract_lets +onlyGivenNames s1; refine State.Kept.cut (s := s1) (p := pq) ?_ (fun _ => ?_); rotate_left; clear_value s1; rotate_left; dsimp -zeta only [s1]; clear s1)
    | with_reducible apply State.modScrub_kept
    | with_reducible apply State.setStat_kept
    | with_reducible apply State.event_kept
    | exact Sub.mono (by decide) hm

theorem State.dramCe_kept {x : Side} {line : Nat} {n : Nat} (hm : Sub 0x4206 pq) (hI : s.Kept pq) : (State.dramCe s x line n).Kept pq := by
  unfold State.dramCe
  repeat' first
    | with_reducible assumption
    | (extract_lets +onlyGivenNames s1; refine State.Kept.cut (s := s1) (p := pq) ?_ (fun _ => ?_); rotate_left; clear_value s1; rotate_left; dsimp -zeta only [s1]; clear s1)
    | (extract_lets +onlyGivenNames x1; clear_value x1)
    | with_reducible apply State.modDram_kept
    | with_reducible apply State.bump_kept
    | with_reducible apply State.setReg_kept
    | with_reducible apply State.setStat_kept
    | with_reducible apply State.event_kept
    | exact Sub.mono (by decide) hm
    | split

theorem State.dramUe_kept {x : Side} {line : Nat} (hm : Sub 0x206 pq) (hI : s.Kept pq) : (State.dramUe s x line).Kept pq := by
  unfold State.dramUe
  repeat' first
    | with_reducible assumption
    | (extract_lets +onlyGivenNames s1; refine State.Kept.cut (s := s1) (p := pq) ?_ (fun _ => ?_); rotate_left; clear_value s1; rotate_left; dsimp -zeta only [s1]; clear s1)
    | with_reducible apply State.bump_kept
    | with_reducible apply State.setReg_kept
    | with_reducible apply State.setStat_kept
    | with_reducible apply State.event_kept
    | exact Sub.mono (by decide) hm

theorem State.memRepair_kept {r : Side} {i : Nat} {part : Nat} (hm : Sub 0x402004 pq) (hI : s.Kept pq) : (State.memRepair s r i part).Kept pq := by
  unfold State.memRepair
  repeat' first
    | with_reducible assumption
    | (extract_lets +onlyGivenNames s1; refine State.Kept.cut (s := s1) (p := pq) ?_ (fun _ => ?_); rotate_left; clear_value s1; rotate_left; dsimp -zeta only [s1]; clear s1)
    | (extract_lets +onlyGivenNames x1; clear_value x1)
    | with_reducible apply State.putBank_kept
    | with_reducible apply State.crnInt_kept
    | with_reducible apply State.modScrub_kept
    | with_reducible apply State.setStat_kept
    | with_reducible apply State.hdgInt_kept
    | exact Sub.mono (by decide) hm
    | split

theorem State.memCount_kept {r : Side} {i : Nat} {part : Nat} {ue : Bool} (hm : Sub 0x4 pq) (hI : s.Kept pq) : (State.memCount s r i part ue).Kept pq := by
  unfold State.memCount
  repeat' first
    | with_reducible assumption
    | with_reducible apply State.bump_kept
    | with_reducible apply State.steInt_kept
    | split

theorem State.memStep_kept {r : Side} {i : Nat} {e : Flips} {stored : Bool} {part : Nat} (hm : Sub 0x402206 pq) (hI : s.Kept pq) : (State.memStep s r i e stored part).Kept pq := by
  unfold State.memStep
  repeat' first
    | with_reducible assumption
    | (extract_lets +onlyGivenNames s1; refine State.Kept.cut (s := s1) (p := pq) ?_ (fun _ => ?_); rotate_left; clear_value s1; rotate_left; dsimp -zeta only [s1]; clear s1)
    | (extract_lets +onlyGivenNames x1; clear_value x1)
    | with_reducible apply State.memCe_kept
    | with_reducible apply State.memCount_kept
    | with_reducible apply State.memRepair_kept
    | with_reducible apply State.memUe_kept
    | with_reducible apply State.modScrub_kept
    | exact Sub.mono (by decide) hm
    | split

theorem State.dramLine_kept {x : Side} {a : Nat} {es : List Flips} {stored : Bool} (hm : Sub 0x4206 pq) (hI : s.Kept pq) : (State.dramLine s x a es stored).Kept pq := by
  unfold State.dramLine
  repeat' first
    | with_reducible assumption
    | (extract_lets +onlyGivenNames s1; refine State.Kept.cut (s := s1) (p := pq) ?_ (fun _ => ?_); rotate_left; clear_value s1; rotate_left; dsimp -zeta only [s1]; clear s1)
    | (extract_lets +onlyGivenNames x1; clear_value x1)
    | with_reducible apply State.dramCe_kept
    | with_reducible apply State.dramUe_kept
    | with_reducible apply State.modDram_kept
    | with_reducible apply State.setStat_kept
    | exact Sub.mono (by decide) hm
    | split

theorem execMemoryScrubStep_kept {m : MemRef} {es : List Flips} {stored : Bool} {last : Bool} {part : Nat} (hm : Sub 0x406206 pq) (hI : s.Kept pq) : ∃ s1, execMemoryScrubStep m es stored last part s = .next s1 ∧ s1.Kept pq := by
  unfold execMemoryScrubStep
  refine ⟨_, rfl, ?_⟩
  repeat' first
    | with_reducible assumption
    | with_reducible apply State.memStep_kept
    | with_reducible apply State.modScrub_kept
    | with_reducible apply State.dramLine_kept
    | with_reducible apply State.modDram_kept
    | exact Sub.mono (by decide) hm
    | split

theorem execBucketLeak_kept {m : MemRef} (hm : Sub 0x6000 pq) (hI : s.Kept pq) : ∃ s1, execBucketLeak m s = .next s1 ∧ s1.Kept pq := by
  unfold execBucketLeak
  refine ⟨_, rfl, ?_⟩
  repeat' first
    | with_reducible assumption
    | with_reducible apply State.modScrub_kept
    | with_reducible apply State.modDram_kept
    | exact Sub.mono (by decide) hm
    | split

theorem execDramPartialWrite_kept {x : Side} {addr : BitVec 48} {data : List Byte} {es : List Flips} (hm : Sub 0x4206 pq) (hI : s.Kept pq) : ∃ s1, execDramPartialWrite x addr data es s = .next s1 ∧ s1.Kept pq := by
  unfold execDramPartialWrite
  refine ⟨_, rfl, ?_⟩
  repeat' first
    | with_reducible assumption
    | (extract_lets +onlyGivenNames x1; clear_value x1)
    | with_reducible apply State.dramLine_kept
    | with_reducible apply State.dramWrite_kept
    | exact Sub.mono (by decide) hm
    | split

end Sys2Proof.Machine
end

