-- ==== Sys2Proof/Laws/KeptFence.lean ====
section
/-!
SUPPORT. The operations of Machine/Fence.lean keep what they do not write.
-/
set_option Elab.async false
set_option linter.unusedTactic false
set_option linter.unreachableTactic false
namespace Sys2Proof.Machine

variable {pq : Nat × State} {s : State}

theorem State.modCtxs_kept {cs : List CtxId} {f : Ctx → Ctx} (hm : Sub 0x8 pq) (hI : s.Kept pq) : (State.modCtxs s cs f).Kept pq := by
  unfold State.modCtxs
  repeat' first
    | with_reducible assumption
    | (intro x hx; beta_reduce)
    | with_reducible apply State.modCtx_kept
    | with_reducible apply State.Kept.foldl

theorem State.fenceCause_kept {r : Side} {cause : Nat} (hm : Sub 0x4 pq) (hI : s.Kept pq) : (State.fenceCause s r cause).Kept pq := by
  unfold State.fenceCause
  repeat' first
    | with_reducible assumption
    | with_reducible apply State.setStat_kept
    | split

theorem State.setRidge_kept {r : Side} {st : RidgeState} (hm : Sub 0x8 pq) (hI : s.Kept pq) : (State.setRidge s r st).Kept pq := by
  unfold State.setRidge
  repeat' first
    | with_reducible assumption
    | with_reducible apply State.modCore_kept

theorem State.selfRefresh_kept (hm : Sub 0x4000 pq) (hI : s.Kept pq) : (State.selfRefresh s).Kept pq := by
  unfold State.selfRefresh
  repeat' first
    | with_reducible assumption
    | with_reducible apply State.modDram_kept

theorem State.safeStop_kept (hm : Sub 0x427E pq) (hI : s.Kept pq) : (State.safeStop s).Kept pq := by
  unfold State.safeStop
  repeat' first
    | with_reducible assumption
    | (extract_lets +onlyGivenNames s1; refine State.Kept.cut (s := s1) (p := pq) ?_ (fun _ => ?_); rotate_left; clear_value s1; rotate_left; dsimp -zeta only [s1]; clear s1)
    | (intro x y hx; beta_reduce)
    | with_reducible apply State.forceLow_kept
    | with_reducible apply State.flushAeq_kept
    | with_reducible apply State.selfRefresh_kept
    | with_reducible apply State.event_kept
    | with_reducible apply State.Kept.foldl
    | exact Sub.mono (by decide) hm

theorem State.dropSwitch_kept (hm : Sub 0x108 pq) (hI : s.Kept pq) : (State.dropSwitch s).Kept pq := by
  unfold State.dropSwitch
  repeat' first
    | with_reducible assumption
    | with_reducible apply State.modRlg_kept
    | with_reducible apply State.modCtxs_kept
    | exact Sub.mono (by decide) hm

theorem State.fenceHalf_kept {r : Side} (hm : Sub 0x100 pq) (hI : s.Kept pq) : (State.fenceHalf s r).Kept pq := by
  unfold State.fenceHalf
  repeat' first
    | with_reducible assumption
    | with_reducible apply State.modRlg_kept

theorem State.fence_kept {r : Side} {cause : Nat} (hm : Sub 0x43437E pq) (hI : s.Kept pq) : (State.fence s r cause).Kept pq := by
  unfold State.fence
  repeat' first
    | with_reducible assumption
    | (extract_lets +onlyGivenNames s1; refine State.Kept.cut (s := s1) (p := pq) ?_ (fun _ => ?_); rotate_left; clear_value s1; rotate_left; dsimp -zeta only [s1]; clear s1)
    | (extract_lets +onlyGivenNames x1; clear_value x1)
    | (intro x y hx; beta_reduce)
    | with_reducible apply State.fenceCause_kept
    | with_reducible apply State.setReg_kept
    | with_reducible apply State.rlgInt_kept
    | with_reducible apply State.event_kept
    | with_reducible apply State.forceLow_kept
    | with_reducible apply State.setRidge_kept
    | with_reducible apply State.crnLose_kept
    | with_reducible apply State.calFence_kept
    | with_reducible apply State.dropSwitch_kept
    | with_reducible apply State.modCtxs_kept
    | with_reducible apply State.fenceHalf_kept
    | with_reducible apply State.modRlg_kept
    | with_reducible apply State.safeStop_kept
    | with_reducible apply State.Kept.foldl
    | exact Sub.mono (by decide) hm
    | split

theorem execFence_kept {r : Side} {cause : Nat} (hm : Sub 0x43437E pq) (hI : s.Kept pq) : ∃ s1, execFence r cause s = .next s1 ∧ s1.Kept pq := by
  unfold execFence
  refine ⟨_, rfl, ?_⟩
  repeat' first
    | with_reducible assumption
    | with_reducible apply State.fence_kept
    | split

theorem execLastRidgeFence_kept {r : Side} {cause : Nat} (hm : Sub 0x43437E pq) (hI : s.Kept pq) : ∃ s1, execLastRidgeFence r cause s = .next s1 ∧ s1.Kept pq := by
  unfold execLastRidgeFence
  refine ⟨_, rfl, ?_⟩
  repeat' first
    | with_reducible assumption
    | with_reducible apply State.fence_kept
    | split

theorem execLockstepMismatch_kept {r : Side} {sp : SpurId} (hm : Sub 0x43437E pq) (hI : s.Kept pq) : ∃ s1, execLockstepMismatch r sp s = .next s1 ∧ s1.Kept pq := by
  unfold execLockstepMismatch
  refine ⟨_, rfl, ?_⟩
  repeat' first
    | with_reducible assumption
    | (extract_lets +onlyGivenNames s1; refine State.Kept.cut (s := s1) (p := pq) ?_ (fun _ => ?_); rotate_left; clear_value s1; rotate_left; dsimp -zeta only [s1]; clear s1)
    | (extract_lets +onlyGivenNames x1; clear_value x1)
    | with_reducible apply State.fenceCause_kept
    | with_reducible apply State.setReg_kept
    | with_reducible apply State.fence_kept
    | exact Sub.mono (by decide) hm
    | split

theorem execDuplicateMismatch_kept {k : DupKind} (hm : Sub 0x43437E pq) (hI : s.Kept pq) : ∃ s1, execDuplicateMismatch k s = .next s1 ∧ s1.Kept pq := by
  unfold execDuplicateMismatch
  refine ⟨_, rfl, ?_⟩
  repeat' first
    | with_reducible assumption
    | (extract_lets +onlyGivenNames x1; clear_value x1)
    | with_reducible apply State.fence_kept
    | with_reducible apply State.setReg_kept
    | with_reducible apply State.fenceCause_kept
    | with_reducible apply State.fenceHalf_kept
    | exact Sub.mono (by decide) hm
    | split

theorem execTestFence_kept {x : Accessor} (hm : Sub 0x43437E pq) (hI : s.Kept pq) : ∃ s1, execTestFence x s = .next s1 ∧ s1.Kept pq := by
  unfold execTestFence
  refine ⟨_, rfl, ?_⟩
  repeat' first
    | with_reducible assumption
    | (intro x hx; beta_reduce)
    | with_reducible apply State.access_kept
    | with_reducible apply State.fence_kept
    | with_reducible apply State.rlgInt_kept
    | exact Sub.mono (by decide) hm
    | split

theorem execLedgerCmdIgnored_kept {x : Accessor} {data : Word} (hm : Sub 0xC pq) (hI : s.Kept pq) : ∃ s1, execLedgerCmdIgnored x data s = .next s1 ∧ s1.Kept pq := by
  unfold execLedgerCmdIgnored
  refine ⟨_, rfl, ?_⟩
  repeat' first
    | with_reducible assumption
    | (intro x hx; beta_reduce)
    | with_reducible apply State.access_kept
    | with_reducible apply State.rlgInt_kept
    | exact Sub.mono (by decide) hm
    | split

theorem State.ctxFault_kept {c : CtxId} {addr : CsAddr} {f : FaultSet} (hm : Sub 0x43437E pq) (hI : s.Kept pq) : (State.ctxFault s c addr f).Kept pq := by
  unfold State.ctxFault
  repeat' first
    | with_reducible assumption
    | (extract_lets +onlyGivenNames s1; refine State.Kept.cut (s := s1) (p := pq) ?_ (fun _ => ?_); rotate_left; clear_value s1; rotate_left; dsimp -zeta only [s1]; clear s1)
    | (extract_lets +onlyGivenNames x1; clear_value x1)
    | with_reducible apply State.modReg_kept
    | with_reducible apply State.setReg_kept
    | with_reducible apply State.modCtx_kept
    | with_reducible apply State.spuInt_kept
    | with_reducible apply State.fence_kept
    | exact Sub.mono (by decide) hm
    | split

theorem State.adoptEntry_kept (hm : Sub 0x8 pq) (hI : s.Kept pq) : (State.adoptEntry s).Kept pq := by
  unfold State.adoptEntry
  repeat' first
    | with_reducible assumption
    | (intro x hx; beta_reduce)
    | with_reducible apply State.modCtx_kept
    | with_reducible apply State.Kept.foldl
    | split

theorem State.adopt_kept {d : CtxId} (hm : Sub 0x43437E pq) (hI : s.Kept pq) : (State.adopt s d).Kept pq := by
  unfold State.adopt
  repeat' first
    | with_reducible assumption
    | (extract_lets +onlyGivenNames x1; clear_value x1)
    | with_reducible apply State.modCtx_kept
    | with_reducible apply State.setCtx_kept
    | with_reducible apply State.ctxFault_kept
    | exact Sub.mono (by decide) hm
    | split

theorem State.moveLeases_kept {cs : List CtxId} (hm : Sub 0x3000100 pq) (hI : s.Kept pq) : (State.moveLeases s cs).Kept pq := by
  unfold State.moveLeases
  repeat' first
    | with_reducible assumption
    | with_reducible apply State.modRlg_kept
    | with_reducible apply State.modNve_kept
    | with_reducible apply State.modHdg_kept
    | exact Sub.mono (by decide) hm

theorem State.moveUnits_kept {r : Side} {units : List Side} {spindle : Bool} (hm : Sub 0x1817E pq) (hI : s.Kept pq) : (State.moveUnits s r units spindle).Kept pq := by
  unfold State.moveUnits
  repeat' first
    | with_reducible assumption
    | (extract_lets +onlyGivenNames s1; refine State.Kept.cut (s := s1) (p := pq) ?_ (fun _ => ?_); rotate_left; clear_value s1; rotate_left; dsimp -zeta only [s1]; clear s1)
    | (intro x y hx; beta_reduce)
    | with_reducible apply State.modRlg_kept
    | with_reducible apply State.flushAeq_kept
    | with_reducible apply State.adoptOutputs_kept
    | with_reducible apply State.Kept.foldl
    | exact Sub.mono (by decide) hm
    | split

theorem State.takeover_kept {r : Side} {t6 : BitVec 16} {t8 : BitVec 16} (hm : Sub 0x363C37E pq) (hI : s.Kept pq) : (State.takeover s r t6 t8).Kept pq := by
  unfold State.takeover
  repeat' first
    | with_reducible assumption
    | (extract_lets +onlyGivenNames s1; refine State.Kept.cut (s := s1) (p := pq) ?_ (fun _ => ?_); rotate_left; clear_value s1; rotate_left; dsimp -zeta only [s1]; clear s1)
    | (intro x y hx; beta_reduce)
    | with_reducible apply State.moveUnits_kept
    | with_reducible apply State.adopt_kept
    | with_reducible apply State.moveLeases_kept
    | with_reducible apply State.modCtxs_kept
    | with_reducible apply State.setReg_kept
    | with_reducible apply State.resumeMove_kept
    | with_reducible apply State.modRlg_kept
    | with_reducible apply State.rlgInt_kept
    | with_reducible apply State.Kept.foldl
    | exact Sub.mono (by decide) hm

theorem execTakeover_kept {r : Side} {t6 : BitVec 16} {t8 : BitVec 16} (hm : Sub 0x363C37E pq) (hI : s.Kept pq) : ∃ s1, execTakeover r t6 t8 s = .next s1 ∧ s1.Kept pq := by
  unfold execTakeover
  refine ⟨_, rfl, ?_⟩
  repeat' first
    | with_reducible assumption
    | with_reducible apply State.takeover_kept
    | split

theorem State.setQuiesced_kept {r : Side} {q : Bool} (hm : Sub 0x8 pq) (hI : s.Kept pq) : (State.setQuiesced s r q).Kept pq := by
  unfold State.setQuiesced
  repeat' first
    | with_reducible assumption
    | with_reducible apply State.modCore_kept

theorem State.trySwitch_kept (hm : Sub 0x343C37E pq) (hI : s.Kept pq) : (State.trySwitch s).Kept pq := by
  unfold State.trySwitch
  repeat' first
    | with_reducible assumption
    | (extract_lets +onlyGivenNames s1; refine State.Kept.cut (s := s1) (p := pq) ?_ (fun _ => ?_); rotate_left; clear_value s1; rotate_left; dsimp -zeta only [s1]; clear s1)
    | (extract_lets +onlyGivenNames x1; clear_value x1)
    | (intro x y hx; beta_reduce)
    | with_reducible apply State.moveUnits_kept
    | with_reducible apply State.adopt_kept
    | with_reducible apply State.moveLeases_kept
    | with_reducible apply State.modCtxs_kept
    | with_reducible apply State.modRlg_kept
    | with_reducible apply State.setQuiesced_kept
    | with_reducible apply State.setRidge_kept
    | with_reducible apply State.Kept.foldl
    | exact Sub.mono (by decide) hm
    | split

theorem State.startSwitch_kept {g : Side} {work : Nat} (hm : Sub 0x343C37E pq) (hI : s.Kept pq) : (State.startSwitch s g work).Kept pq := by
  unfold State.startSwitch
  repeat' first
    | with_reducible assumption
    | (extract_lets +onlyGivenNames s1; refine State.Kept.cut (s := s1) (p := pq) ?_ (fun _ => ?_); rotate_left; clear_value s1; rotate_left; dsimp -zeta only [s1]; clear s1)
    | (extract_lets +onlyGivenNames x1; clear_value x1)
    | with_reducible apply State.modCtxs_kept
    | with_reducible apply State.modRlg_kept
    | with_reducible apply State.trySwitch_kept
    | exact Sub.mono (by decide) hm

theorem State.switchCmd_kept {r : Side} (hm : Sub 0x343C37E pq) (hI : s.Kept pq) : (State.switchCmd s r).Kept pq := by
  unfold State.switchCmd
  repeat' first
    | with_reducible assumption
    | with_reducible apply State.trySwitch_kept
    | with_reducible apply State.rlgInt_kept
    | with_reducible apply State.startSwitch_kept
    | exact Sub.mono (by decide) hm
    | split

theorem execSwitch_kept {r : Side} (hm : Sub 0x343C37E pq) (hI : s.Kept pq) : ∃ s1, execSwitch r s = .next s1 ∧ s1.Kept pq := by
  unfold execSwitch
  refine ⟨_, rfl, ?_⟩
  repeat' first
    | with_reducible assumption
    | with_reducible apply State.switchCmd_kept
    | split

theorem State.handback_kept {r : Side} {work : Nat} (hm : Sub 0x343C37E pq) (hI : s.Kept pq) : (State.handback s r work).Kept pq := by
  unfold State.handback
  repeat' first
    | with_reducible assumption
    | with_reducible apply State.trySwitch_kept
    | with_reducible apply State.rlgInt_kept
    | with_reducible apply State.startSwitch_kept
    | exact Sub.mono (by decide) hm
    | split

theorem execHandback_kept {r : Side} {work : BitVec 2} (hm : Sub 0x343C37E pq) (hI : s.Kept pq) : ∃ s1, execHandback r work s = .next s1 ∧ s1.Kept pq := by
  unfold execHandback
  refine ⟨_, rfl, ?_⟩
  repeat' first
    | with_reducible assumption
    | with_reducible apply State.handback_kept
    | split

theorem execSwitchTimeout_kept {c : CtxId} (hm : Sub 0x343C37E pq) (hI : s.Kept pq) : ∃ s1, execSwitchTimeout c s = .next s1 ∧ s1.Kept pq := by
  unfold execSwitchTimeout
  refine ⟨_, rfl, ?_⟩
  repeat' first
    | with_reducible assumption
    | with_reducible apply State.modCtx_kept
    | with_reducible apply State.trySwitch_kept
    | with_reducible apply State.dropSwitch_kept
    | with_reducible apply State.rlgInt_kept
    | with_reducible apply State.event_kept
    | exact Sub.mono (by decide) hm
    | split

theorem State.sendSnap_kept {c : CtxId} (hm : Sub 0x8 pq) (hI : s.Kept pq) : (State.sendSnap s c).Kept pq := by
  unfold State.sendSnap
  repeat' first
    | with_reducible assumption
    | with_reducible apply State.modCtx_kept
    | split

theorem State.halfBack_kept {r : Side} (hm : Sub 0x4100 pq) (hI : s.Kept pq) : (State.halfBack s r).Kept pq := by
  unfold State.halfBack
  repeat' first
    | with_reducible assumption
    | (extract_lets +onlyGivenNames s1; refine State.Kept.cut (s := s1) (p := pq) ?_ (fun _ => ?_); rotate_left; clear_value s1; rotate_left; dsimp -zeta only [s1]; clear s1)
    | (extract_lets +onlyGivenNames x1; clear_value x1)
    | with_reducible apply State.modDram_kept
    | with_reducible apply State.modRlg_kept
    | exact Sub.mono (by decide) hm
    | split

theorem State.rejoin_kept {r : Side} {syncOk : Bool} (hm : Sub 0x40C10C pq) (hI : s.Kept pq) : (State.rejoin s r syncOk).Kept pq := by
  unfold State.rejoin
  repeat' first
    | with_reducible assumption
    | (extract_lets +onlyGivenNames s1; refine State.Kept.cut (s := s1) (p := pq) ?_ (fun _ => ?_); rotate_left; clear_value s1; rotate_left; dsimp -zeta only [s1]; clear s1)
    | (extract_lets +onlyGivenNames x1; clear_value x1)
    | (intro x y hx; beta_reduce)
    | with_reducible apply State.rlgInt_kept
    | with_reducible apply State.resyncStart_kept
    | with_reducible apply State.resyncEnd_kept
    | with_reducible apply State.nodeSync_kept
    | with_reducible apply State.copyNodes_kept
    | with_reducible apply State.halfBack_kept
    | with_reducible apply State.setRidge_kept
    | with_reducible apply State.modCtxs_kept
    | with_reducible apply State.adoptEntry_kept
    | with_reducible apply State.sendSnap_kept
    | with_reducible apply State.modCrn_kept
    | with_reducible apply State.modRlg_kept
    | with_reducible apply State.Kept.foldl
    | exact Sub.mono (by decide) hm
    | split

theorem execRejoin_kept {r : Side} {syncOk : Bool} (hm : Sub 0x40C10C pq) (hI : s.Kept pq) : ∃ s1, execRejoin r syncOk s = .next s1 ∧ s1.Kept pq := by
  unfold execRejoin
  refine ⟨_, rfl, ?_⟩
  repeat' first
    | with_reducible assumption
    | with_reducible apply State.rejoin_kept
    | split

theorem State.clearBlock_kept {base : Nat} {keep : List Nat} (hm : Sub 0x4 pq) (hI : s.Kept pq) : (State.clearBlock s base keep).Kept pq := by
  unfold State.clearBlock
  repeat' first
    | with_reducible assumption
    | with_reducible apply State.keepRegs_kept

theorem State.dropJob_kept {j : DecJob} (hm : Sub 0x2C pq) (hI : s.Kept pq) : (State.dropJob s j).Kept pq := by
  unfold State.dropJob
  repeat' first
    | with_reducible assumption
    | (extract_lets +onlyGivenNames x1; clear_value x1)
    | with_reducible apply State.modTile_kept
    | with_reducible apply State.decidedStatus_kept
    | exact Sub.mono (by decide) hm
    | split

theorem State.dropWork_kept {r : Side} (hm : Sub 0x1000100 pq) (hI : s.Kept pq) : (State.dropWork s r).Kept pq := by
  unfold State.dropWork
  repeat' first
    | with_reducible assumption
    | (extract_lets +onlyGivenNames s1; refine State.Kept.cut (s := s1) (p := pq) ?_ (fun _ => ?_); rotate_left; clear_value s1; rotate_left; dsimp -zeta only [s1]; clear s1)
    | with_reducible apply State.modRlg_kept
    | with_reducible apply State.modNve_kept
    | exact Sub.mono (by decide) hm
    | split

theorem State.ridgeReset_kept {r : Side} (hm : Sub 0x144A37E pq) (hI : s.Kept pq) : (State.ridgeReset s r).Kept pq := by
  unfold State.ridgeReset
  repeat' first
    | with_reducible assumption
    | (extract_lets +onlyGivenNames s1; refine State.Kept.cut (s := s1) (p := pq) ?_ (fun _ => ?_); rotate_left; clear_value s1; rotate_left; dsimp -zeta only [s1]; clear s1)
    | (intro x hx; beta_reduce)
    | with_reducible apply State.dropJob_kept
    | with_reducible apply State.dropWork_kept
    | with_reducible apply State.crnLose_kept
    | with_reducible apply State.clearBlock_kept
    | with_reducible apply State.modCore_kept
    | with_reducible apply State.modAng_kept
    | with_reducible apply State.modMem_kept
    | with_reducible apply State.modDec_kept
    | with_reducible apply State.modCen_kept
    | with_reducible apply State.modSte_kept
    | with_reducible apply State.Kept.foldl
    | exact Sub.mono (by decide) hm

theorem execRidgeReset_kept {r : Side} (hm : Sub 0x144A37E pq) (hI : s.Kept pq) : ∃ s1, execRidgeReset r s = .next s1 ∧ s1.Kept pq := by
  unfold execRidgeReset
  refine ⟨_, rfl, ?_⟩
  repeat' first
    | with_reducible assumption
    | with_reducible apply State.ridgeReset_kept
    | split

theorem execRidgeSelftestDone_kept {r : Side} {syncOk : Bool} (hm : Sub 0x40C10C pq) (hI : s.Kept pq) : ∃ s1, execRidgeSelftestDone r syncOk s = .next s1 ∧ s1.Kept pq := by
  unfold execRidgeSelftestDone
  refine ⟨_, rfl, ?_⟩
  repeat' first
    | with_reducible assumption
    | (extract_lets +onlyGivenNames s1; refine State.Kept.cut (s := s1) (p := pq) ?_ (fun _ => ?_); rotate_left; clear_value s1; rotate_left; dsimp -zeta only [s1]; clear s1)
    | with_reducible apply State.setRidge_kept
    | with_reducible apply State.rejoin_kept
    | exact Sub.mono (by decide) hm
    | split

end Sys2Proof.Machine
end

