-- ==== Sys2Proof/Laws/KeptSpur.lean ====
section
/-!
SUPPORT. The operations of Machine/Spur.lean keep what they do not write.
-/
set_option Elab.async false
set_option linter.unusedTactic false
set_option linter.unreachableTactic false
namespace Sys2Proof.Machine

variable {pq : Nat × State} {s : State}

theorem State.commit_kept {c : CtxId} {restart : CsAddr} {rclass : BitVec 2} (hm : Sub 0x343C37E pq) (hI : s.Kept pq) : (State.commit s c restart rclass).Kept pq := by
  unfold State.commit
  repeat' first
    | with_reducible assumption
    | (extract_lets +onlyGivenNames s1; refine State.Kept.cut (s := s1) (p := pq) ?_ (fun _ => ?_); rotate_left; clear_value s1; rotate_left; dsimp -zeta only [s1]; clear s1)
    | with_reducible apply State.modCtx_kept
    | with_reducible apply State.sendSnap_kept
    | with_reducible apply State.trySwitch_kept
    | exact Sub.mono (by decide) hm
    | split

theorem State.readEnds_kept {c : CtxId} {o : ReadOut} {got : Bool} (hm : Sub 0x343C37E pq) (hI : s.Kept pq) : (State.readEnds s c o got).Kept pq := by
  unfold State.readEnds
  repeat' first
    | with_reducible assumption
    | (extract_lets +onlyGivenNames s1; refine State.Kept.cut (s := s1) (p := pq) ?_ (fun _ => ?_); rotate_left; clear_value s1; rotate_left; dsimp -zeta only [s1]; clear s1)
    | with_reducible apply State.modCtx_kept
    | with_reducible apply State.commit_kept
    | exact Sub.mono (by decide) hm
    | split

theorem execPortReadReturn_kept {c : CtxId} {port : Nat} (hm : Sub 0x343C37E pq) (hI : s.Kept pq) : ∃ s1, execPortReadReturn c port s = .next s1 ∧ s1.Kept pq := by
  unfold execPortReadReturn
  refine ⟨_, rfl, ?_⟩
  repeat' first
    | with_reducible assumption
    | (intro x hx; beta_reduce)
    | with_reducible apply State.byCtx_kept
    | with_reducible apply State.readEnds_kept
    | split

theorem State.portSilent_kept {c : CtxId} {port : Nat} (hm : Sub 0x43437E pq) (hI : s.Kept pq) : (State.portSilent s c port).Kept pq := by
  unfold State.portSilent
  repeat' first
    | with_reducible assumption
    | (extract_lets +onlyGivenNames f1; refine State.Kept.fnCut2 (f := f1) (p := pq) ?_ (fun hf1 => ?_); rotate_left; clear_value f1; rotate_left; dsimp -zeta only [f1]; clear f1)
    | (extract_lets +onlyGivenNames x1; clear_value x1)
    | with_reducible apply hf1
    | (intro x y hx; beta_reduce)
    | with_reducible apply State.ctxFault_kept
    | with_reducible apply State.modCtx_kept
    | exact Sub.mono (by decide) hm
    | split

theorem execPortTimeout_kept {c : CtxId} {port : Nat} (hm : Sub 0x43437E pq) (hI : s.Kept pq) : ∃ s1, execPortTimeout c port s = .next s1 ∧ s1.Kept pq := by
  unfold execPortTimeout
  refine ⟨_, rfl, ?_⟩
  repeat' first
    | with_reducible assumption
    | (intro x hx; beta_reduce)
    | with_reducible apply State.byCtx_kept
    | with_reducible apply State.portSilent_kept

theorem State.urgentEntry_kept {c : CtxId} {n : Nat} {sn : Snapshot} (hm : Sub 0x43437E pq) (hI : s.Kept pq) : (State.urgentEntry s c n sn).Kept pq := by
  unfold State.urgentEntry
  repeat' first
    | with_reducible assumption
    | (extract_lets +onlyGivenNames s1; refine State.Kept.cut (s := s1) (p := pq) ?_ (fun _ => ?_); rotate_left; clear_value s1; rotate_left; dsimp -zeta only [s1]; clear s1)
    | (extract_lets +onlyGivenNames x1; clear_value x1)
    | with_reducible apply State.modCtx_kept
    | with_reducible apply State.bump_kept
    | with_reducible apply State.ctxFault_kept
    | exact Sub.mono (by decide) hm
    | split

theorem execUrgentEntry_kept {c : CtxId} (hm : Sub 0x43437E pq) (hI : s.Kept pq) : ∃ s1, execUrgentEntry c s = .next s1 ∧ s1.Kept pq := by
  unfold execUrgentEntry
  refine ⟨_, rfl, ?_⟩
  repeat' first
    | with_reducible assumption
    | (extract_lets +onlyGivenNames x1; clear_value x1)
    | (intro x hx; beta_reduce)
    | with_reducible apply State.byCtx_kept
    | with_reducible apply State.urgentEntry_kept
    | split

theorem execSegmentWarning_kept {c : CtxId} (hm : Sub 0xC pq) (hI : s.Kept pq) : ∃ s1, execSegmentWarning c s = .next s1 ∧ s1.Kept pq := by
  unfold execSegmentWarning
  refine ⟨_, rfl, ?_⟩
  repeat' first
    | with_reducible assumption
    | (extract_lets +onlyGivenNames s1; refine State.Kept.cut (s := s1) (p := pq) ?_ (fun _ => ?_); rotate_left; clear_value s1; rotate_left; dsimp -zeta only [s1]; clear s1)
    | (extract_lets +onlyGivenNames x1; clear_value x1)
    | (intro x hx; beta_reduce)
    | with_reducible apply State.byCtx_kept
    | with_reducible apply State.modCtx_kept
    | with_reducible apply State.setStat_kept
    | with_reducible apply State.spuInt_kept
    | exact Sub.mono (by decide) hm
    | split

theorem State.waitExpires_kept {c : CtxId} (hm : Sub 0x8 pq) (hI : s.Kept pq) : (State.waitExpires s c).Kept pq := by
  unfold State.waitExpires
  repeat' first
    | with_reducible assumption
    | (extract_lets +onlyGivenNames s1; refine State.Kept.cut (s := s1) (p := pq) ?_ (fun _ => ?_); rotate_left; clear_value s1; rotate_left; dsimp -zeta only [s1]; clear s1)
    | with_reducible apply State.raiseLine_kept
    | with_reducible apply State.modCtx_kept
    | split

theorem execWaitTimeout_kept {c : CtxId} (hm : Sub 0x8 pq) (hI : s.Kept pq) : ∃ s1, execWaitTimeout c s = .next s1 ∧ s1.Kept pq := by
  unfold execWaitTimeout
  refine ⟨_, rfl, ?_⟩
  repeat' first
    | with_reducible assumption
    | (intro x hx; beta_reduce)
    | with_reducible apply State.byCtx_kept
    | with_reducible apply State.waitExpires_kept
    | split

theorem execWaitCycleBound_kept {c : CtxId} (hm : Sub 0x8 pq) (hI : s.Kept pq) : ∃ s1, execWaitCycleBound c s = .next s1 ∧ s1.Kept pq := by
  unfold execWaitCycleBound
  refine ⟨_, rfl, ?_⟩
  repeat' first
    | with_reducible assumption
    | (intro x hx; beta_reduce)
    | with_reducible apply State.byCtx_kept
    | with_reducible apply State.waitExpires_kept
    | split

theorem execSnapshotReceive_kept {c : CtxId} (hm : Sub 0xC pq) (hI : s.Kept pq) : ∃ s1, execSnapshotReceive c s = .next s1 ∧ s1.Kept pq := by
  unfold execSnapshotReceive
  refine ⟨_, rfl, ?_⟩
  repeat' first
    | with_reducible assumption
    | with_reducible apply State.modCtx_kept
    | with_reducible apply State.spuInt_kept
    | exact Sub.mono (by decide) hm
    | split

theorem execSnapshotAck_kept {c : CtxId} (hm : Sub 0x8 pq) (hI : s.Kept pq) : ∃ s1, execSnapshotAck c s = .next s1 ∧ s1.Kept pq := by
  unfold execSnapshotAck
  refine ⟨_, rfl, ?_⟩
  repeat' first
    | with_reducible assumption
    | with_reducible apply State.modCtx_kept
    | split

theorem State.ctxCmd?_kept {c : CtxId} {cmd : Nat} {addr : CsAddr} (hm : Sub 0x8 pq) (hI : s.Kept pq) : OptKept pq (State.ctxCmd? s c cmd addr) := by
  unfold State.ctxCmd?
  repeat' first
    | with_reducible assumption
    | (extract_lets +onlyGivenNames x1; clear_value x1)
    | with_reducible apply State.setCtx_kept
    | with_reducible apply State.modCtx_kept
    | with_reducible apply State.adoptEntry_kept
    | with_reducible apply OptKept.none
    | with_reducible apply OptKept.some
    | split

theorem State.ctxCmd_kept {c : CtxId} {cmd : Nat} {addr : CsAddr} (hm : Sub 0xC pq) (hI : s.Kept pq) : (State.ctxCmd s c cmd addr).Kept pq := by
  unfold State.ctxCmd
  repeat' first
    | with_reducible assumption
    | with_reducible apply State.ctxCmd?_kept
    | with_reducible apply State.spuInt_kept
    | with_reducible apply OptKept.getD
    | exact Sub.mono (by decide) hm

theorem State.ctlWord_kept {r : Side} {sp : SpurId} {w : Word} (hm : Sub 0xC pq) (hI : s.Kept pq) : (State.ctlWord s r sp w).Kept pq := by
  unfold State.ctlWord
  repeat' first
    | with_reducible assumption
    | with_reducible apply State.ctxCmd_kept

theorem execContextStart_kept {c : CtxId} {addr : CsAddr} (hm : Sub 0xC pq) (hI : s.Kept pq) : ∃ s1, execContextStart c addr s = .next s1 ∧ s1.Kept pq := by
  unfold execContextStart
  refine ⟨_, rfl, ?_⟩
  repeat' first
    | with_reducible assumption
    | (intro x hx; beta_reduce)
    | with_reducible apply State.byCtx_kept
    | with_reducible apply State.ctxCmd_kept

theorem execContextStop_kept {c : CtxId} (hm : Sub 0xC pq) (hI : s.Kept pq) : ∃ s1, execContextStop c s = .next s1 ∧ s1.Kept pq := by
  unfold execContextStop
  refine ⟨_, rfl, ?_⟩
  repeat' first
    | with_reducible assumption
    | (intro x hx; beta_reduce)
    | with_reducible apply State.byCtx_kept
    | with_reducible apply State.ctxCmd_kept

theorem execContextResume_kept {c : CtxId} (hm : Sub 0xC pq) (hI : s.Kept pq) : ∃ s1, execContextResume c s = .next s1 ∧ s1.Kept pq := by
  unfold execContextResume
  refine ⟨_, rfl, ?_⟩
  repeat' first
    | with_reducible assumption
    | (intro x hx; beta_reduce)
    | with_reducible apply State.byCtx_kept
    | with_reducible apply State.ctxCmd_kept

theorem execContextRelease_kept {c : CtxId} (hm : Sub 0xC pq) (hI : s.Kept pq) : ∃ s1, execContextRelease c s = .next s1 ∧ s1.Kept pq := by
  unfold execContextRelease
  refine ⟨_, rfl, ?_⟩
  repeat' first
    | with_reducible assumption
    | (intro x hx; beta_reduce)
    | with_reducible apply State.byCtx_kept
    | with_reducible apply State.ctxCmd_kept

theorem execContextCmdReserved_kept {c : CtxId} {cmd : BitVec 3} (hm : Sub 0xC pq) (hI : s.Kept pq) : ∃ s1, execContextCmdReserved c cmd s = .next s1 ∧ s1.Kept pq := by
  unfold execContextCmdReserved
  refine ⟨_, rfl, ?_⟩
  repeat' first
    | with_reducible assumption
    | (intro x hx; beta_reduce)
    | with_reducible apply State.byCtx_kept
    | with_reducible apply State.spuInt_kept
    | split

theorem State.dbgWrite_kept {r : Side} {hi : Word} (hm : Sub 0xC pq) (hI : s.Kept pq) : (State.dbgWrite s r hi).Kept pq := by
  unfold State.dbgWrite
  repeat' first
    | with_reducible assumption
    | (extract_lets +onlyGivenNames x1; clear_value x1)
    | with_reducible apply State.modCtx_kept
    | with_reducible apply State.spuInt_kept
    | exact Sub.mono (by decide) hm
    | split

theorem execDebugDataWrite_kept {r : Side} {hi : Word} (hm : Sub 0xC pq) (hI : s.Kept pq) : ∃ s1, execDebugDataWrite r hi s = .next s1 ∧ s1.Kept pq := by
  unfold execDebugDataWrite
  refine ⟨_, rfl, ?_⟩
  repeat' first
    | with_reducible assumption
    | with_reducible apply State.dbgWrite_kept
    | split

theorem State.unmarkStore_kept {r : Side} {a : Nat} (hm : Sub 0x2000 pq) (hI : s.Kept pq) : (State.unmarkStore s r a).Kept pq := by
  unfold State.unmarkStore
  repeat' first
    | with_reducible assumption
    | with_reducible apply State.modScrub_kept
    | split

theorem State.putStore_kept {r : Side} {a : Nat} {w : MicroWord} (hm : Sub 0x2008 pq) (hI : s.Kept pq) : (State.putStore s r a w).Kept pq := by
  unfold State.putStore
  repeat' first
    | with_reducible assumption
    | with_reducible apply State.modCore_kept
    | with_reducible apply State.unmarkStore_kept
    | exact Sub.mono (by decide) hm

theorem State.cstErr_kept {r : Side} {i : Nat} (hm : Sub 0x4 pq) (hI : s.Kept pq) : (State.cstErr s r i).Kept pq := by
  unfold State.cstErr
  repeat' first
    | with_reducible assumption
    | with_reducible apply State.setStat_kept

theorem State.loadData_kept {x : Accessor} {i : Nat} {data : Word} (hm : Sub 0x200C pq) (hI : s.Kept pq) : (State.loadData s x i data).Kept pq := by
  unfold State.loadData
  repeat' first
    | with_reducible assumption
    | (extract_lets +onlyGivenNames s1; refine State.Kept.cut (s := s1) (p := pq) ?_ (fun _ => ?_); rotate_left; clear_value s1; rotate_left; dsimp -zeta only [s1]; clear s1)
    | (extract_lets +onlyGivenNames x1; clear_value x1)
    | with_reducible apply State.cstErr_kept
    | with_reducible apply State.modCore_kept
    | with_reducible apply State.putStore_kept
    | with_reducible apply State.modReg_kept
    | exact Sub.mono (by decide) hm
    | split

theorem State.loadAddr_kept {x : Accessor} {data : Word} (hm : Sub 0x4 pq) (hI : s.Kept pq) : (State.loadAddr s x data).Kept pq := by
  unfold State.loadAddr
  repeat' first
    | with_reducible assumption
    | with_reducible apply State.setReg_kept
    | with_reducible apply State.cstErr_kept
    | split

theorem execLoadWordStore_kept {x : Accessor} {data : Word} (hm : Sub 0x200C pq) (hI : s.Kept pq) : ∃ s1, execLoadWordStore x data s = .next s1 ∧ s1.Kept pq := by
  unfold execLoadWordStore
  refine ⟨_, rfl, ?_⟩
  repeat' first
    | with_reducible assumption
    | (intro x hx; beta_reduce)
    | with_reducible apply State.access_kept
    | with_reducible apply State.loadData_kept
    | exact Sub.mono (by decide) hm

theorem execLoadAddressWrite_kept {x : Accessor} {data : Word} (hm : Sub 0xC pq) (hI : s.Kept pq) : ∃ s1, execLoadAddressWrite x data s = .next s1 ∧ s1.Kept pq := by
  unfold execLoadAddressWrite
  refine ⟨_, rfl, ?_⟩
  repeat' first
    | with_reducible assumption
    | (intro x hx; beta_reduce)
    | with_reducible apply State.access_kept
    | with_reducible apply State.loadAddr_kept
    | exact Sub.mono (by decide) hm

theorem State.matchWrite_kept {r : Side} {off : Nat} {data : Word} (hm : Sub 0x4 pq) (hI : s.Kept pq) : (State.matchWrite s r off data).Kept pq := by
  unfold State.matchWrite
  repeat' first
    | with_reducible assumption
    | with_reducible apply State.setReg_kept
    | with_reducible apply State.cstErr_kept
    | split

theorem execMatchWrite_kept {r : Side} {off : Nat} {data : Word} (hm : Sub 0x4 pq) (hI : s.Kept pq) : ∃ s1, execMatchWrite r off data s = .next s1 ∧ s1.Kept pq := by
  unfold execMatchWrite
  refine ⟨_, rfl, ?_⟩
  repeat' first
    | with_reducible assumption
    | with_reducible apply State.matchWrite_kept
    | split

theorem State.fetchUe_kept {c : CtxId} (hm : Sub 0x43637E pq) (hI : s.Kept pq) : (State.fetchUe s c).Kept pq := by
  unfold State.fetchUe
  repeat' first
    | with_reducible assumption
    | (extract_lets +onlyGivenNames s1; refine State.Kept.cut (s := s1) (p := pq) ?_ (fun _ => ?_); rotate_left; clear_value s1; rotate_left; dsimp -zeta only [s1]; clear s1)
    | (extract_lets +onlyGivenNames x1; clear_value x1)
    | with_reducible apply State.cstErr_kept
    | with_reducible apply State.setReg_kept
    | with_reducible apply State.memUe_kept
    | with_reducible apply State.unmarkStore_kept
    | with_reducible apply State.putStore_kept
    | with_reducible apply State.ctxFault_kept
    | exact Sub.mono (by decide) hm
    | split

theorem State.fetchCe_kept {r : Side} (hm : Sub 0x2206 pq) (hI : s.Kept pq) : (State.fetchCe s r).Kept pq := by
  unfold State.fetchCe
  repeat' first
    | with_reducible assumption
    | with_reducible apply State.cstErr_kept
    | with_reducible apply State.bump_kept
    | with_reducible apply State.memCe_kept
    | exact Sub.mono (by decide) hm

theorem execCstPeerRefetch_kept {c : CtxId} (hm : Sub 0x43637E pq) (hI : s.Kept pq) : ∃ s1, execCstPeerRefetch c s = .next s1 ∧ s1.Kept pq := by
  unfold execCstPeerRefetch
  refine ⟨_, rfl, ?_⟩
  repeat' first
    | with_reducible assumption
    | (intro x hx; beta_reduce)
    | with_reducible apply State.byCtx_kept
    | with_reducible apply State.fetchUe_kept
    | split

theorem State.enterService_kept {r : Side} (hm : Sub 0x108 pq) (hI : s.Kept pq) : (State.enterService s r).Kept pq := by
  unfold State.enterService
  repeat' first
    | with_reducible assumption
    | with_reducible apply State.setRidge_kept
    | with_reducible apply State.modCore_kept
    | with_reducible apply State.modRlg_kept
    | with_reducible apply State.adoptEntry_kept
    | exact Sub.mono (by decide) hm

theorem State.bootLock_kept {r : Side} (hm : Sub 0xB0E pq) (hI : s.Kept pq) : (State.bootLock s r).Kept pq := by
  unfold State.bootLock
  repeat' first
    | with_reducible assumption
    | (extract_lets +onlyGivenNames s1; refine State.Kept.cut (s := s1) (p := pq) ?_ (fun _ => ?_); rotate_left; clear_value s1; rotate_left; dsimp -zeta only [s1]; clear s1)
    | (extract_lets +onlyGivenNames x1; clear_value x1)
    | with_reducible apply State.setReg_kept
    | with_reducible apply State.modRcp_kept
    | with_reducible apply State.modReg_kept
    | with_reducible apply State.freeNext_kept
    | with_reducible apply State.event_kept
    | with_reducible apply State.enterService_kept
    | exact Sub.mono (by decide) hm
    | split

theorem execBootlockSet_kept {r : Side} (hm : Sub 0xB0E pq) (hI : s.Kept pq) : ∃ s1, execBootlockSet r s = .next s1 ∧ s1.Kept pq := by
  unfold execBootlockSet
  refine ⟨_, rfl, ?_⟩
  repeat' first
    | with_reducible assumption
    | with_reducible apply State.bootLock_kept
    | split

end Sys2Proof.Machine
end

