-- ==== Sys2Proof/Laws/KeptOperands.lean ====
section
/-!
SUPPORT. The operations of Machine/Operands.lean keep what they do not write.
-/
set_option Elab.async false
set_option linter.unusedTactic false
set_option linter.unreachableTactic false
namespace Sys2Proof.Machine

variable {pq : Nat × State} {s : State}

theorem State.alu_kept {c : CtxId} {op : AluIn → AluOut} {f : AluForm} (hm : Sub 0x8 pq) (hI : s.Kept pq) : (State.alu s c op f).Kept pq := by
  unfold State.alu
  repeat' first
    | with_reducible assumption
    | (intro x hx; beta_reduce)
    | with_reducible apply State.byCtx_kept
    | with_reducible apply State.modCtx_kept

end Sys2Proof.Machine
end

