-- ==== Sys2Proof/Laws/KeptAlu.lean ====
section
/-!
SUPPORT. The operations of Machine/Alu.lean keep what they do not write.
-/
set_option Elab.async false
set_option linter.unusedTactic false
set_option linter.unreachableTactic false
namespace Sys2Proof.Machine

variable {pq : Nat × State} {s : State}

theorem execNop_kept {c : CtxId} {f : AluForm} (hm : Sub 0x8 pq) (hI : s.Kept pq) : ∃ s1, execNop c f s = .next s1 ∧ s1.Kept pq := by
  unfold execNop
  refine ⟨_, rfl, ?_⟩
  repeat' first
    | with_reducible assumption
    | with_reducible apply State.alu_kept

theorem execMov_kept {c : CtxId} {f : AluForm} (hm : Sub 0x8 pq) (hI : s.Kept pq) : ∃ s1, execMov c f s = .next s1 ∧ s1.Kept pq := by
  unfold execMov
  refine ⟨_, rfl, ?_⟩
  repeat' first
    | with_reducible assumption
    | with_reducible apply State.alu_kept

theorem execMovh_kept {c : CtxId} {f : AluForm} (hm : Sub 0x8 pq) (hI : s.Kept pq) : ∃ s1, execMovh c f s = .next s1 ∧ s1.Kept pq := by
  unfold execMovh
  refine ⟨_, rfl, ?_⟩
  repeat' first
    | with_reducible assumption
    | with_reducible apply State.alu_kept

theorem execAdd_kept {c : CtxId} {f : AluForm} (hm : Sub 0x8 pq) (hI : s.Kept pq) : ∃ s1, execAdd c f s = .next s1 ∧ s1.Kept pq := by
  unfold execAdd
  refine ⟨_, rfl, ?_⟩
  repeat' first
    | with_reducible assumption
    | with_reducible apply State.alu_kept

theorem execAdc_kept {c : CtxId} {f : AluForm} (hm : Sub 0x8 pq) (hI : s.Kept pq) : ∃ s1, execAdc c f s = .next s1 ∧ s1.Kept pq := by
  unfold execAdc
  refine ⟨_, rfl, ?_⟩
  repeat' first
    | with_reducible assumption
    | with_reducible apply State.alu_kept

theorem execSub_kept {c : CtxId} {f : AluForm} (hm : Sub 0x8 pq) (hI : s.Kept pq) : ∃ s1, execSub c f s = .next s1 ∧ s1.Kept pq := by
  unfold execSub
  refine ⟨_, rfl, ?_⟩
  repeat' first
    | with_reducible assumption
    | with_reducible apply State.alu_kept

theorem execSbc_kept {c : CtxId} {f : AluForm} (hm : Sub 0x8 pq) (hI : s.Kept pq) : ∃ s1, execSbc c f s = .next s1 ∧ s1.Kept pq := by
  unfold execSbc
  refine ⟨_, rfl, ?_⟩
  repeat' first
    | with_reducible assumption
    | with_reducible apply State.alu_kept

theorem execCmp_kept {c : CtxId} {f : AluForm} (hm : Sub 0x8 pq) (hI : s.Kept pq) : ∃ s1, execCmp c f s = .next s1 ∧ s1.Kept pq := by
  unfold execCmp
  refine ⟨_, rfl, ?_⟩
  repeat' first
    | with_reducible assumption
    | with_reducible apply State.alu_kept

theorem execCmn_kept {c : CtxId} {f : AluForm} (hm : Sub 0x8 pq) (hI : s.Kept pq) : ∃ s1, execCmn c f s = .next s1 ∧ s1.Kept pq := by
  unfold execCmn
  refine ⟨_, rfl, ?_⟩
  repeat' first
    | with_reducible assumption
    | with_reducible apply State.alu_kept

theorem execNeg_kept {c : CtxId} {f : AluForm} (hm : Sub 0x8 pq) (hI : s.Kept pq) : ∃ s1, execNeg c f s = .next s1 ∧ s1.Kept pq := by
  unfold execNeg
  refine ⟨_, rfl, ?_⟩
  repeat' first
    | with_reducible assumption
    | with_reducible apply State.alu_kept

theorem execAbs_kept {c : CtxId} {f : AluForm} (hm : Sub 0x8 pq) (hI : s.Kept pq) : ∃ s1, execAbs c f s = .next s1 ∧ s1.Kept pq := by
  unfold execAbs
  refine ⟨_, rfl, ?_⟩
  repeat' first
    | with_reducible assumption
    | with_reducible apply State.alu_kept

theorem execAnd_kept {c : CtxId} {f : AluForm} (hm : Sub 0x8 pq) (hI : s.Kept pq) : ∃ s1, execAnd c f s = .next s1 ∧ s1.Kept pq := by
  unfold execAnd
  refine ⟨_, rfl, ?_⟩
  repeat' first
    | with_reducible assumption
    | with_reducible apply State.alu_kept

theorem execOr_kept {c : CtxId} {f : AluForm} (hm : Sub 0x8 pq) (hI : s.Kept pq) : ∃ s1, execOr c f s = .next s1 ∧ s1.Kept pq := by
  unfold execOr
  refine ⟨_, rfl, ?_⟩
  repeat' first
    | with_reducible assumption
    | with_reducible apply State.alu_kept

theorem execXor_kept {c : CtxId} {f : AluForm} (hm : Sub 0x8 pq) (hI : s.Kept pq) : ∃ s1, execXor c f s = .next s1 ∧ s1.Kept pq := by
  unfold execXor
  refine ⟨_, rfl, ?_⟩
  repeat' first
    | with_reducible assumption
    | with_reducible apply State.alu_kept

theorem execAndn_kept {c : CtxId} {f : AluForm} (hm : Sub 0x8 pq) (hI : s.Kept pq) : ∃ s1, execAndn c f s = .next s1 ∧ s1.Kept pq := by
  unfold execAndn
  refine ⟨_, rfl, ?_⟩
  repeat' first
    | with_reducible assumption
    | with_reducible apply State.alu_kept

theorem execOrn_kept {c : CtxId} {f : AluForm} (hm : Sub 0x8 pq) (hI : s.Kept pq) : ∃ s1, execOrn c f s = .next s1 ∧ s1.Kept pq := by
  unfold execOrn
  refine ⟨_, rfl, ?_⟩
  repeat' first
    | with_reducible assumption
    | with_reducible apply State.alu_kept

theorem execNot_kept {c : CtxId} {f : AluForm} (hm : Sub 0x8 pq) (hI : s.Kept pq) : ∃ s1, execNot c f s = .next s1 ∧ s1.Kept pq := by
  unfold execNot
  refine ⟨_, rfl, ?_⟩
  repeat' first
    | with_reducible assumption
    | with_reducible apply State.alu_kept

theorem execTst_kept {c : CtxId} {f : AluForm} (hm : Sub 0x8 pq) (hI : s.Kept pq) : ∃ s1, execTst c f s = .next s1 ∧ s1.Kept pq := by
  unfold execTst
  refine ⟨_, rfl, ?_⟩
  repeat' first
    | with_reducible assumption
    | with_reducible apply State.alu_kept

theorem execShl_kept {c : CtxId} {f : AluForm} (hm : Sub 0x8 pq) (hI : s.Kept pq) : ∃ s1, execShl c f s = .next s1 ∧ s1.Kept pq := by
  unfold execShl
  refine ⟨_, rfl, ?_⟩
  repeat' first
    | with_reducible assumption
    | with_reducible apply State.alu_kept

theorem execShr_kept {c : CtxId} {f : AluForm} (hm : Sub 0x8 pq) (hI : s.Kept pq) : ∃ s1, execShr c f s = .next s1 ∧ s1.Kept pq := by
  unfold execShr
  refine ⟨_, rfl, ?_⟩
  repeat' first
    | with_reducible assumption
    | with_reducible apply State.alu_kept

theorem execSar_kept {c : CtxId} {f : AluForm} (hm : Sub 0x8 pq) (hI : s.Kept pq) : ∃ s1, execSar c f s = .next s1 ∧ s1.Kept pq := by
  unfold execSar
  refine ⟨_, rfl, ?_⟩
  repeat' first
    | with_reducible assumption
    | with_reducible apply State.alu_kept

theorem execRol_kept {c : CtxId} {f : AluForm} (hm : Sub 0x8 pq) (hI : s.Kept pq) : ∃ s1, execRol c f s = .next s1 ∧ s1.Kept pq := by
  unfold execRol
  refine ⟨_, rfl, ?_⟩
  repeat' first
    | with_reducible assumption
    | with_reducible apply State.alu_kept

theorem execRor_kept {c : CtxId} {f : AluForm} (hm : Sub 0x8 pq) (hI : s.Kept pq) : ∃ s1, execRor c f s = .next s1 ∧ s1.Kept pq := by
  unfold execRor
  refine ⟨_, rfl, ?_⟩
  repeat' first
    | with_reducible assumption
    | with_reducible apply State.alu_kept

theorem execMin_kept {c : CtxId} {f : AluForm} (hm : Sub 0x8 pq) (hI : s.Kept pq) : ∃ s1, execMin c f s = .next s1 ∧ s1.Kept pq := by
  unfold execMin
  refine ⟨_, rfl, ?_⟩
  repeat' first
    | with_reducible assumption
    | with_reducible apply State.alu_kept

theorem execMax_kept {c : CtxId} {f : AluForm} (hm : Sub 0x8 pq) (hI : s.Kept pq) : ∃ s1, execMax c f s = .next s1 ∧ s1.Kept pq := by
  unfold execMax
  refine ⟨_, rfl, ?_⟩
  repeat' first
    | with_reducible assumption
    | with_reducible apply State.alu_kept

theorem execMinu_kept {c : CtxId} {f : AluForm} (hm : Sub 0x8 pq) (hI : s.Kept pq) : ∃ s1, execMinu c f s = .next s1 ∧ s1.Kept pq := by
  unfold execMinu
  refine ⟨_, rfl, ?_⟩
  repeat' first
    | with_reducible assumption
    | with_reducible apply State.alu_kept

theorem execMaxu_kept {c : CtxId} {f : AluForm} (hm : Sub 0x8 pq) (hI : s.Kept pq) : ∃ s1, execMaxu c f s = .next s1 ∧ s1.Kept pq := by
  unfold execMaxu
  refine ⟨_, rfl, ?_⟩
  repeat' first
    | with_reducible assumption
    | with_reducible apply State.alu_kept

theorem execMul_kept {c : CtxId} {f : AluForm} (hm : Sub 0x8 pq) (hI : s.Kept pq) : ∃ s1, execMul c f s = .next s1 ∧ s1.Kept pq := by
  unfold execMul
  refine ⟨_, rfl, ?_⟩
  repeat' first
    | with_reducible assumption
    | with_reducible apply State.alu_kept

theorem execMuls_kept {c : CtxId} {f : AluForm} (hm : Sub 0x8 pq) (hI : s.Kept pq) : ∃ s1, execMuls c f s = .next s1 ∧ s1.Kept pq := by
  unfold execMuls
  refine ⟨_, rfl, ?_⟩
  repeat' first
    | with_reducible assumption
    | with_reducible apply State.alu_kept

theorem execAddsu_kept {c : CtxId} {f : AluForm} (hm : Sub 0x8 pq) (hI : s.Kept pq) : ∃ s1, execAddsu c f s = .next s1 ∧ s1.Kept pq := by
  unfold execAddsu
  refine ⟨_, rfl, ?_⟩
  repeat' first
    | with_reducible assumption
    | with_reducible apply State.alu_kept

theorem execSubsu_kept {c : CtxId} {f : AluForm} (hm : Sub 0x8 pq) (hI : s.Kept pq) : ∃ s1, execSubsu c f s = .next s1 ∧ s1.Kept pq := by
  unfold execSubsu
  refine ⟨_, rfl, ?_⟩
  repeat' first
    | with_reducible assumption
    | with_reducible apply State.alu_kept

theorem execBfx_kept {c : CtxId} {f : AluForm} (hm : Sub 0x8 pq) (hI : s.Kept pq) : ∃ s1, execBfx c f s = .next s1 ∧ s1.Kept pq := by
  unfold execBfx
  refine ⟨_, rfl, ?_⟩
  repeat' first
    | with_reducible assumption
    | with_reducible apply State.alu_kept

theorem execBfxs_kept {c : CtxId} {f : AluForm} (hm : Sub 0x8 pq) (hI : s.Kept pq) : ∃ s1, execBfxs c f s = .next s1 ∧ s1.Kept pq := by
  unfold execBfxs
  refine ⟨_, rfl, ?_⟩
  repeat' first
    | with_reducible assumption
    | with_reducible apply State.alu_kept

theorem execBfi_kept {c : CtxId} {f : AluForm} (hm : Sub 0x8 pq) (hI : s.Kept pq) : ∃ s1, execBfi c f s = .next s1 ∧ s1.Kept pq := by
  unfold execBfi
  refine ⟨_, rfl, ?_⟩
  repeat' first
    | with_reducible assumption
    | with_reducible apply State.alu_kept

theorem execBfc_kept {c : CtxId} {f : AluForm} (hm : Sub 0x8 pq) (hI : s.Kept pq) : ∃ s1, execBfc c f s = .next s1 ∧ s1.Kept pq := by
  unfold execBfc
  refine ⟨_, rfl, ?_⟩
  repeat' first
    | with_reducible assumption
    | with_reducible apply State.alu_kept

theorem execPopc_kept {c : CtxId} {f : AluForm} (hm : Sub 0x8 pq) (hI : s.Kept pq) : ∃ s1, execPopc c f s = .next s1 ∧ s1.Kept pq := by
  unfold execPopc
  refine ⟨_, rfl, ?_⟩
  repeat' first
    | with_reducible assumption
    | with_reducible apply State.alu_kept

theorem execClz_kept {c : CtxId} {f : AluForm} (hm : Sub 0x8 pq) (hI : s.Kept pq) : ∃ s1, execClz c f s = .next s1 ∧ s1.Kept pq := by
  unfold execClz
  refine ⟨_, rfl, ?_⟩
  repeat' first
    | with_reducible assumption
    | with_reducible apply State.alu_kept

theorem execCtz_kept {c : CtxId} {f : AluForm} (hm : Sub 0x8 pq) (hI : s.Kept pq) : ∃ s1, execCtz c f s = .next s1 ∧ s1.Kept pq := by
  unfold execCtz
  refine ⟨_, rfl, ?_⟩
  repeat' first
    | with_reducible assumption
    | with_reducible apply State.alu_kept

theorem execBswap_kept {c : CtxId} {f : AluForm} (hm : Sub 0x8 pq) (hI : s.Kept pq) : ∃ s1, execBswap c f s = .next s1 ∧ s1.Kept pq := by
  unfold execBswap
  refine ⟨_, rfl, ?_⟩
  repeat' first
    | with_reducible assumption
    | with_reducible apply State.alu_kept

theorem execSxt_kept {c : CtxId} {f : AluForm} (hm : Sub 0x8 pq) (hI : s.Kept pq) : ∃ s1, execSxt c f s = .next s1 ∧ s1.Kept pq := by
  unfold execSxt
  refine ⟨_, rfl, ?_⟩
  repeat' first
    | with_reducible assumption
    | with_reducible apply State.alu_kept

theorem execZxt_kept {c : CtxId} {f : AluForm} (hm : Sub 0x8 pq) (hI : s.Kept pq) : ∃ s1, execZxt c f s = .next s1 ∧ s1.Kept pq := by
  unfold execZxt
  refine ⟨_, rfl, ?_⟩
  repeat' first
    | with_reducible assumption
    | with_reducible apply State.alu_kept

theorem execCrc_kept {c : CtxId} {f : AluForm} (hm : Sub 0x8 pq) (hI : s.Kept pq) : ∃ s1, execCrc c f s = .next s1 ∧ s1.Kept pq := by
  unfold execCrc
  refine ⟨_, rfl, ?_⟩
  repeat' first
    | with_reducible assumption
    | with_reducible apply State.alu_kept

theorem execCrcb_kept {c : CtxId} {f : AluForm} (hm : Sub 0x8 pq) (hI : s.Kept pq) : ∃ s1, execCrcb c f s = .next s1 ∧ s1.Kept pq := by
  unfold execCrcb
  refine ⟨_, rfl, ?_⟩
  repeat' first
    | with_reducible assumption
    | with_reducible apply State.alu_kept

theorem execGfmul_kept {c : CtxId} {f : AluForm} (hm : Sub 0x8 pq) (hI : s.Kept pq) : ∃ s1, execGfmul c f s = .next s1 ∧ s1.Kept pq := by
  unfold execGfmul
  refine ⟨_, rfl, ?_⟩
  repeat' first
    | with_reducible assumption
    | with_reducible apply State.alu_kept

theorem execGfmac_kept {c : CtxId} {f : AluForm} (hm : Sub 0x8 pq) (hI : s.Kept pq) : ∃ s1, execGfmac c f s = .next s1 ∧ s1.Kept pq := by
  unfold execGfmac
  refine ⟨_, rfl, ?_⟩
  repeat' first
    | with_reducible assumption
    | with_reducible apply State.alu_kept

theorem execSelz_kept {c : CtxId} {f : AluForm} (hm : Sub 0x8 pq) (hI : s.Kept pq) : ∃ s1, execSelz c f s = .next s1 ∧ s1.Kept pq := by
  unfold execSelz
  refine ⟨_, rfl, ?_⟩
  repeat' first
    | with_reducible assumption
    | with_reducible apply State.alu_kept

theorem execSelc_kept {c : CtxId} {f : AluForm} (hm : Sub 0x8 pq) (hI : s.Kept pq) : ∃ s1, execSelc c f s = .next s1 ∧ s1.Kept pq := by
  unfold execSelc
  refine ⟨_, rfl, ?_⟩
  repeat' first
    | with_reducible assumption
    | with_reducible apply State.alu_kept

theorem execTstb_kept {c : CtxId} {f : AluForm} (hm : Sub 0x8 pq) (hI : s.Kept pq) : ∃ s1, execTstb c f s = .next s1 ∧ s1.Kept pq := by
  unfold execTstb
  refine ⟨_, rfl, ?_⟩
  repeat' first
    | with_reducible assumption
    | with_reducible apply State.alu_kept

theorem execIllalu_kept {c : CtxId} {op : BitVec 6} (hm : Sub 0x43437E pq) (hI : s.Kept pq) : ∃ s1, execIllalu c op s = .next s1 ∧ s1.Kept pq := by
  unfold execIllalu
  refine ⟨_, rfl, ?_⟩
  repeat' first
    | with_reducible assumption
    | (extract_lets +onlyGivenNames x1; clear_value x1)
    | (intro x hx; beta_reduce)
    | with_reducible apply State.byCtx_kept
    | with_reducible apply State.ctxFault_kept
    | split

end Sys2Proof.Machine
end

