-- ==== Sys2Proof/Laws/KeptReset.lean ====
section
/-!
SUPPORT. The operations of Machine/Reset.lean keep what they do not write.
-/
set_option Elab.async false
set_option linter.unusedTactic false
set_option linter.unreachableTactic false
namespace Sys2Proof.Machine

variable {pq : Nat × State} {s : State}

theorem execPowerOnReset_kept {groups : BitVec 4} (hm : Sub 0x1FFFFFFE pq) (hI : s.Kept pq) : ∃ s1, execPowerOnReset groups s = .next s1 ∧ s1.Kept pq := by
  unfold execPowerOnReset
  refine ⟨_, rfl, ?_⟩
  repeat' first
    | with_reducible assumption
    | with_reducible apply State.powerOn_kept
    | split

theorem State.requestFull_kept {cause : Nat} {latch : Rcp → Rcp} (hm : Sub 0x1FFFFFFE pq) (hI : s.Kept pq) : (State.requestFull s cause latch).Kept pq := by
  unfold State.requestFull
  repeat' first
    | with_reducible assumption
    | (extract_lets +onlyGivenNames s1; refine State.Kept.cut (s := s1) (p := pq) ?_ (fun _ => ?_); rotate_left; clear_value s1; rotate_left; dsimp -zeta only [s1]; clear s1)
    | with_reducible apply State.setStat_kept
    | with_reducible apply State.modRcp_kept
    | with_reducible apply State.fullReset_kept
    | exact Sub.mono (by decide) hm
    | split

theorem execResetN_kept (hm : Sub 0x1FFFFFFE pq) (hI : s.Kept pq) : ∃ s1, execResetN s = .next s1 ∧ s1.Kept pq := by
  unfold execResetN
  refine ⟨_, rfl, ?_⟩
  repeat' first
    | with_reducible assumption
    | (extract_lets +onlyGivenNames s1; refine State.Kept.cut (s := s1) (p := pq) ?_ (fun _ => ?_); rotate_left; clear_value s1; rotate_left; dsimp -zeta only [s1]; clear s1)
    | with_reducible apply State.modPins_kept
    | with_reducible apply State.requestFull_kept
    | exact Sub.mono (by decide) hm

theorem execVmotUndervoltageReset_kept (hm : Sub 0x1FFFFFFE pq) (hI : s.Kept pq) : ∃ s1, execVmotUndervoltageReset s = .next s1 ∧ s1.Kept pq := by
  unfold execVmotUndervoltageReset
  refine ⟨_, rfl, ?_⟩
  repeat' first
    | with_reducible assumption
    | with_reducible apply State.setStat_kept
    | with_reducible apply State.fullReset_kept
    | exact Sub.mono (by decide) hm

theorem State.rcpInt_kept {i : Nat} (hm : Sub 0x4 pq) (hI : s.Kept pq) : (State.rcpInt s i).Kept pq := by
  unfold State.rcpInt
  repeat' first
    | with_reducible assumption
    | with_reducible apply State.setStat_kept

theorem State.swReset_kept {data : Word} (hm : Sub 0x1FFFFFFE pq) (hI : s.Kept pq) : (State.swReset s data).Kept pq := by
  unfold State.swReset
  repeat' first
    | with_reducible assumption
    | with_reducible apply State.requestFull_kept
    | with_reducible apply State.rcpInt_kept
    | exact Sub.mono (by decide) hm
    | split

theorem execSoftwareFullReset_kept {x : Accessor} {data : Word} (hm : Sub 0x1FFFFFFE pq) (hI : s.Kept pq) : ∃ s1, execSoftwareFullReset x data s = .next s1 ∧ s1.Kept pq := by
  unfold execSoftwareFullReset
  refine ⟨_, rfl, ?_⟩
  repeat' first
    | with_reducible assumption
    | (intro x hx; beta_reduce)
    | with_reducible apply State.access_kept
    | with_reducible apply State.swReset_kept
    | exact Sub.mono (by decide) hm

theorem execFullReset_kept (hm : Sub 0x1FFFFFFE pq) (hI : s.Kept pq) : ∃ s1, execFullReset s = .next s1 ∧ s1.Kept pq := by
  unfold execFullReset
  refine ⟨_, rfl, ?_⟩
  repeat' first
    | with_reducible assumption
    | with_reducible apply State.fullReset_kept
    | split

theorem execThermalTrip_kept {n : BitVec 4} {t : BitVec 16} (hm : Sub 0x1FFFFFFE pq) (hI : s.Kept pq) : ∃ s1, execThermalTrip n t s = .next s1 ∧ s1.Kept pq := by
  unfold execThermalTrip
  refine ⟨_, rfl, ?_⟩
  repeat' first
    | with_reducible assumption
    | (extract_lets +onlyGivenNames s1; refine State.Kept.cut (s := s1) (p := pq) ?_ (fun _ => ?_); rotate_left; clear_value s1; rotate_left; dsimp -zeta only [s1]; clear s1)
    | with_reducible apply State.tempIn_kept
    | with_reducible apply State.modPins_kept
    | with_reducible apply State.setStat_kept
    | with_reducible apply State.fullReset_kept
    | with_reducible apply State.modRcp_kept
    | exact Sub.mono (by decide) hm
    | split

theorem execThermalTripRelease_kept {temps : List (BitVec 16)} (hm : Sub 0x10000804 pq) (hI : s.Kept pq) : ∃ s1, execThermalTripRelease temps s = .next s1 ∧ s1.Kept pq := by
  unfold execThermalTripRelease
  refine ⟨_, rfl, ?_⟩
  repeat' first
    | with_reducible assumption
    | (extract_lets +onlyGivenNames s1; refine State.Kept.cut (s := s1) (p := pq) ?_ (fun _ => ?_); rotate_left; clear_value s1; rotate_left; dsimp -zeta only [s1]; clear s1)
    | (intro x y hx; beta_reduce)
    | with_reducible apply State.tempIn_kept
    | with_reducible apply State.modPins_kept
    | with_reducible apply State.modRcp_kept
    | with_reducible apply State.Kept.foldl
    | exact Sub.mono (by decide) hm
    | split

theorem State.failReads_kept {base : Nat} (hm : Sub 0x343C37E pq) (hI : s.Kept pq) : (State.failReads s base).Kept pq := by
  unfold State.failReads
  repeat' first
    | with_reducible assumption
    | (intro x y hx; beta_reduce)
    | with_reducible apply State.readEnds_kept
    | with_reducible apply State.refuseCtx_kept
    | with_reducible apply State.Kept.foldl
    | exact Sub.mono (by decide) hm

theorem State.ridgeBlock_kept {r : Side} {off : Nat} (hm : Sub 0x4A07E pq) (hI : s.Kept pq) : (State.ridgeBlock s r off).Kept pq := by
  unfold State.ridgeBlock
  repeat' first
    | with_reducible assumption
    | (intro x y hx; beta_reduce)
    | with_reducible apply State.modCore_kept
    | with_reducible apply State.flushAeq_kept
    | with_reducible apply State.modAng_kept
    | with_reducible apply State.dropJob_kept
    | with_reducible apply State.modDec_kept
    | with_reducible apply State.modCen_kept
    | with_reducible apply State.modSte_kept
    | with_reducible apply State.modMem_kept
    | with_reducible apply State.Kept.foldl
    | exact Sub.mono (by decide) hm
    | split

theorem State.tileBlock_kept {t : Quad} (hm : Sub 0x3E pq) (hI : s.Kept pq) : (State.tileBlock s t).Kept pq := by
  unfold State.tileBlock
  repeat' first
    | with_reducible assumption
    | (extract_lets +onlyGivenNames x1; clear_value x1)
    | with_reducible apply State.forceLow_kept
    | with_reducible apply State.dropRg_kept
    | with_reducible apply State.modTile_kept
    | exact Sub.mono (by decide) hm

theorem State.hptBlock_kept {p : Side} (hm : Sub 0x700000C pq) (hI : s.Kept pq) : (State.hptBlock s p).Kept pq := by
  unfold State.hptBlock
  repeat' first
    | with_reducible assumption
    | with_reducible apply State.portCtrls_kept
    | with_reducible apply State.modHpt_kept
    | exact Sub.mono (by decide) hm

theorem State.saddleBlock_kept {base : Nat} (hm : Sub 0x70B47BE pq) (hI : s.Kept pq) : (State.saddleBlock s base).Kept pq := by
  unfold State.saddleBlock
  repeat' first
    | with_reducible assumption
    | with_reducible apply State.tileBlock_kept
    | with_reducible apply State.forceSlots_kept
    | with_reducible apply State.modLink_kept
    | with_reducible apply State.hptBlock_kept
    | with_reducible apply State.modNve_kept
    | with_reducible apply State.modRlg_kept
    | with_reducible apply State.modHdg_kept
    | with_reducible apply State.modZtb_kept
    | with_reducible apply State.modDram_kept
    | with_reducible apply State.modEvr_kept
    | with_reducible apply State.modMon_kept
    | with_reducible apply State.modMtr_kept
    | with_reducible apply State.settleIdle_kept
    | with_reducible apply State.modCry_kept
    | exact Sub.mono (by decide) hm
    | split

theorem State.blockReset_kept {base : Nat} (hm : Sub 0x74FE7FE pq) (hI : s.Kept pq) : (State.blockReset s base).Kept pq := by
  unfold State.blockReset
  repeat' first
    | with_reducible assumption
    | (extract_lets +onlyGivenNames s1; refine State.Kept.cut (s := s1) (p := pq) ?_ (fun _ => ?_); rotate_left; clear_value s1; rotate_left; dsimp -zeta only [s1]; clear s1)
    | with_reducible apply State.failReads_kept
    | with_reducible apply State.keepRegs_kept
    | with_reducible apply State.ridgeBlock_kept
    | with_reducible apply State.saddleBlock_kept
    | exact Sub.mono (by decide) hm
    | split

theorem State.startBlockReset_kept {w : Nat} {base : Nat} (hm : Sub 0x74FEFFE pq) (hI : s.Kept pq) : (State.startBlockReset s w base).Kept pq := by
  unfold State.startBlockReset
  repeat' first
    | with_reducible assumption
    | (extract_lets +onlyGivenNames s1; refine State.Kept.cut (s := s1) (p := pq) ?_ (fun _ => ?_); rotate_left; clear_value s1; rotate_left; dsimp -zeta only [s1]; clear s1)
    | with_reducible apply State.setReg_kept
    | with_reducible apply State.modRcp_kept
    | with_reducible apply State.blockReset_kept
    | exact Sub.mono (by decide) hm

theorem State.blkReset_kept {r : Side} {data : Word} (hm : Sub 0x74FEFFE pq) (hI : s.Kept pq) : (State.blkReset s r data).Kept pq := by
  unfold State.blkReset
  repeat' first
    | with_reducible assumption
    | with_reducible apply State.setStat_kept
    | with_reducible apply State.startBlockReset_kept
    | with_reducible apply State.rcpInt_kept
    | exact Sub.mono (by decide) hm
    | split

theorem execSoftwareBlockReset_kept {x : Accessor} {data : Word} (hm : Sub 0x74FEFFE pq) (hI : s.Kept pq) : ∃ s1, execSoftwareBlockReset x data s = .next s1 ∧ s1.Kept pq := by
  unfold execSoftwareBlockReset
  refine ⟨_, rfl, ?_⟩
  repeat' first
    | with_reducible assumption
    | (intro x hx; beta_reduce)
    | with_reducible apply State.access_kept
    | with_reducible apply State.blkReset_kept
    | exact Sub.mono (by decide) hm

theorem execBlockResetDone_kept (hm : Sub 0x804 pq) (hI : s.Kept pq) : ∃ s1, execBlockResetDone s = .next s1 ∧ s1.Kept pq := by
  unfold execBlockResetDone
  refine ⟨_, rfl, ?_⟩
  repeat' first
    | with_reducible assumption
    | with_reducible apply State.modRcp_kept
    | with_reducible apply State.rcpInt_kept
    | exact Sub.mono (by decide) hm
    | split

theorem execBlockWatchdog_kept {r : Side} {blk : BitVec 9} (hm : Sub 0x74FEFFE pq) (hI : s.Kept pq) : ∃ s1, execBlockWatchdog r blk s = .next s1 ∧ s1.Kept pq := by
  unfold execBlockWatchdog
  refine ⟨_, rfl, ?_⟩
  repeat' first
    | with_reducible assumption
    | with_reducible apply State.setStat_kept
    | with_reducible apply State.rcpInt_kept
    | with_reducible apply State.event_kept
    | with_reducible apply State.startBlockReset_kept
    | exact Sub.mono (by decide) hm
    | split

theorem State.kickRidge_kept {r : Side} (hm : Sub 0x800 pq) (hI : s.Kept pq) : (State.kickRidge s r).Kept pq := by
  unfold State.kickRidge
  repeat' first
    | with_reducible assumption
    | with_reducible apply State.modRcp_kept

theorem execRidgeWatchdog_kept {r : Side} (hm : Sub 0x147EB7E pq) (hI : s.Kept pq) : ∃ s1, execRidgeWatchdog r s = .next s1 ∧ s1.Kept pq := by
  unfold execRidgeWatchdog
  refine ⟨_, rfl, ?_⟩
  repeat' first
    | with_reducible assumption
    | with_reducible apply State.fence_kept
    | with_reducible apply State.ridgeReset_kept
    | with_reducible apply State.kickRidge_kept
    | exact Sub.mono (by decide) hm
    | split

theorem execWatchdogKick_kept {x : Accessor} {r : Side} (hm : Sub 0x808 pq) (hI : s.Kept pq) : ∃ s1, execWatchdogKick x r s = .next s1 ∧ s1.Kept pq := by
  unfold execWatchdogKick
  refine ⟨_, rfl, ?_⟩
  repeat' first
    | with_reducible assumption
    | (intro x hx; beta_reduce)
    | with_reducible apply State.access_kept
    | with_reducible apply State.kickRidge_kept
    | exact Sub.mono (by decide) hm

theorem State.fuseLoad_kept {f0 : List Word} {f1 : List Word} (hm : Sub 0x1004 pq) (hI : s.Kept pq) : (State.fuseLoad s f0 f1).Kept pq := by
  unfold State.fuseLoad
  repeat' first
    | with_reducible assumption
    | (extract_lets +onlyGivenNames s1; refine State.Kept.cut (s := s1) (p := pq) ?_ (fun _ => ?_); rotate_left; clear_value s1; rotate_left; dsimp -zeta only [s1]; clear s1)
    | (extract_lets +onlyGivenNames x1; clear_value x1)
    | with_reducible apply State.setStat_kept
    | with_reducible apply State.modFus_kept
    | with_reducible apply State.setReg_kept
    | exact Sub.mono (by decide) hm
    | split

theorem State.sampleStraps_kept {x : Straps} (hm : Sub 0x800 pq) (hI : s.Kept pq) : (State.sampleStraps s x).Kept pq := by
  unfold State.sampleStraps
  repeat' first
    | with_reducible assumption
    | with_reducible apply State.modRcp_kept
    | split

theorem State.release_kept {x : Straps} {f0 : List Word} {f1 : List Word} (hm : Sub 0x1441580E pq) (hI : s.Kept pq) : (State.release s x f0 f1).Kept pq := by
  unfold State.release
  repeat' first
    | with_reducible assumption
    | (extract_lets +onlyGivenNames s1; refine State.Kept.cut (s := s1) (p := pq) ?_ (fun _ => ?_); rotate_left; clear_value s1; rotate_left; dsimp -zeta only [s1]; clear s1)
    | (extract_lets +onlyGivenNames x1; clear_value x1)
    | (intro x y hx; beta_reduce)
    | with_reducible apply State.sampleStraps_kept
    | with_reducible apply State.modPins_kept
    | with_reducible apply State.modMtr_kept
    | with_reducible apply State.fuseLoad_kept
    | with_reducible apply State.modRcp_kept
    | with_reducible apply State.setReg_kept
    | with_reducible apply State.freeNext_kept
    | with_reducible apply State.modCore_kept
    | with_reducible apply State.modDram_kept
    | with_reducible apply State.modHpt_kept
    | with_reducible apply State.modCrn_kept
    | with_reducible apply State.cfgReady_kept
    | with_reducible apply State.Kept.foldl
    | exact Sub.mono (by decide) hm
    | split

theorem execResetRelease_kept {straps : Straps} {fuse0 : List Word} {fuse1 : List Word} (hm : Sub 0x1441580E pq) (hI : s.Kept pq) : ∃ s1, execResetRelease straps fuse0 fuse1 s = .next s1 ∧ s1.Kept pq := by
  unfold execResetRelease
  refine ⟨_, rfl, ?_⟩
  repeat' first
    | with_reducible assumption
    | with_reducible apply State.release_kept
    | split

theorem execNoxtal_kept (hm : Sub 0x800 pq) (hI : s.Kept pq) : ∃ s1, execNoxtal s = .next s1 ∧ s1.Kept pq := by
  unfold execNoxtal
  refine ⟨_, rfl, ?_⟩
  repeat' first
    | with_reducible assumption
    | with_reducible apply State.modRcp_kept
    | split

theorem execHostPushLength_kept {p : Side} {len : Word} (hm : Sub 0x800 pq) (hI : s.Kept pq) : ∃ s1, execHostPushLength p len s = .next s1 ∧ s1.Kept pq := by
  unfold execHostPushLength
  refine ⟨_, rfl, ?_⟩
  repeat' first
    | with_reducible assumption
    | with_reducible apply State.modRcp_kept
    | split

theorem execUartImageReceived_kept {len : Word} (hm : Sub 0x800 pq) (hI : s.Kept pq) : ∃ s1, execUartImageReceived len s = .next s1 ∧ s1.Kept pq := by
  unfold execUartImageReceived
  refine ⟨_, rfl, ?_⟩
  repeat' first
    | with_reducible assumption
    | with_reducible apply State.modRcp_kept
    | split

theorem State.bootPost_kept {code : BitVec 16} {g : List EvRec} (hm : Sub 0x204 pq) (hI : s.Kept pq) : (State.bootPost s code g).Kept pq := by
  unfold State.bootPost
  repeat' first
    | with_reducible assumption
    | with_reducible apply State.postGroup_kept

theorem State.meas_kept {r : Side} {idx : Nat} {slot : Nat} {d : BitVec 384} {size : Nat} (hm : Sub 0x204 pq) (hI : s.Kept pq) : (State.meas s r idx slot d size).Kept pq := by
  unfold State.meas
  repeat' first
    | with_reducible assumption
    | with_reducible apply State.bootPost_kept

theorem State.verifyFail_kept {r : Side} {idx : Nat} {slot : Nat} {cause : Nat} (hm : Sub 0x204 pq) (hI : s.Kept pq) : (State.verifyFail s r idx slot cause).Kept pq := by
  unfold State.verifyFail
  repeat' first
    | with_reducible assumption
    | with_reducible apply State.bootPost_kept

theorem State.limit_kept {r : Side} {code : BitVec 16} {p : Nat} (hm : Sub 0xA04 pq) (hI : s.Kept pq) : (State.limit s r code p).Kept pq := by
  unfold State.limit
  repeat' first
    | with_reducible assumption
    | with_reducible apply State.bootPost_kept
    | with_reducible apply State.modRcp_kept
    | exact Sub.mono (by decide) hm

theorem State.measBelow_kept {r : Side} {upTo : Nat} {slot : Nat} {idx : Nat} {d : BitVec 384} {size : Nat} (hm : Sub 0x204 pq) (hI : s.Kept pq) : (State.measBelow s r upTo slot idx d size).Kept pq := by
  unfold State.measBelow
  repeat' first
    | with_reducible assumption
    | with_reducible apply State.meas_kept
    | split

theorem State.trySlot_kept {r : Side} {n : Nat} {x : SlotIn} (hm : Sub 0x204 pq) (hI : s.Kept pq) : (State.trySlot s r n x).Kept pq := by
  unfold State.trySlot
  repeat' first
    | with_reducible assumption
    | (extract_lets +onlyGivenNames s1; refine State.Kept.cut (s := s1) (p := pq) ?_ (fun _ => ?_); rotate_left; clear_value s1; rotate_left; dsimp -zeta only [s1]; clear s1)
    | (extract_lets +onlyGivenNames x1; clear_value x1)
    | with_reducible apply State.measBelow_kept
    | with_reducible apply State.verifyFail_kept
    | split

theorem State.trySlots_kept {r : Side} {b : BootIn} (hm : Sub 0x204 pq) :
    ∀ {l : List Nat} {s : State}, s.Kept pq → (State.trySlots s r b l).1.Kept pq
  | [], _, h => h
  | n :: t, s, h => by
    unfold State.trySlots
    split
    · exact State.trySlots_kept hm h
    · dsimp only
      split
      · exact State.trySlot_kept (Sub.mono (by decide) hm) h
      · exact State.trySlots_kept hm (State.trySlot_kept (Sub.mono (by decide) hm) h)

theorem State.dcbFails_kept {r : Side} {slot : Nat} {d : Two DcbIn} (hm : Sub 0x204 pq) (hI : s.Kept pq) : (State.dcbFails s r slot d).Kept pq := by
  unfold State.dcbFails
  repeat' first
    | with_reducible assumption
    | (extract_lets +onlyGivenNames f1; refine State.Kept.fnCut2 (f := f1) (p := pq) ?_ (fun hf1 => ?_); rotate_left; clear_value f1; rotate_left; dsimp -zeta only [f1]; clear f1)
    | with_reducible apply hf1
    | (intro x y hx; beta_reduce)
    | with_reducible apply State.verifyFail_kept
    | split

theorem State.loadImageTo_kept {x : SlotIn} {q : Side} (hm : Sub 0x200C pq) (hI : s.Kept pq) : (State.loadImageTo s x q).Kept pq := by
  unfold State.loadImageTo
  repeat' first
    | with_reducible assumption
    | (extract_lets +onlyGivenNames s1; refine State.Kept.cut (s := s1) (p := pq) ?_ (fun _ => ?_); rotate_left; clear_value s1; rotate_left; dsimp -zeta only [s1]; clear s1)
    | (intro x y hx; beta_reduce)
    | with_reducible apply State.putStore_kept
    | with_reducible apply State.setReg_kept
    | with_reducible apply State.modReg_kept
    | with_reducible apply State.Kept.foldl
    | exact Sub.mono (by decide) hm
    | split

theorem State.useDcb_kept {d : Dcb} (hm : Sub 0x904 pq) (hI : s.Kept pq) : (State.useDcb s d).Kept pq := by
  unfold State.useDcb
  repeat' first
    | with_reducible assumption
    | (extract_lets +onlyGivenNames f1; refine State.Kept.fnCut2 (f := f1) (p := pq) ?_ (fun hf1 => ?_); rotate_left; clear_value f1; rotate_left; dsimp -zeta only [f1]; clear f1)
    | (extract_lets +onlyGivenNames s1; refine State.Kept.cut (s := s1) (p := pq) ?_ (fun _ => ?_); rotate_left; clear_value s1; rotate_left; dsimp -zeta only [s1]; clear s1)
    | (extract_lets +onlyGivenNames x1; clear_value x1)
    | with_reducible apply hf1
    | (intro x y hx; beta_reduce)
    | with_reducible apply State.modRcp_kept
    | with_reducible apply State.modRlg_kept
    | with_reducible apply State.setReg_kept
    | with_reducible apply State.modReg_kept
    | exact Sub.mono (by decide) hm

theorem State.deriveCdi0_kept {rom : BitVec 384} {fuses : BitVec 384} (hm : Sub 0x400 pq) (hI : s.Kept pq) : (State.deriveCdi0 s rom fuses).Kept pq := by
  unfold State.deriveCdi0
  repeat' first
    | with_reducible assumption
    | with_reducible apply State.modCry_kept
    | split

theorem State.deriveAlias_kept {ds : List (BitVec 384)} (hm : Sub 0x400 pq) (hI : s.Kept pq) : (State.deriveAlias s ds).Kept pq := by
  unfold State.deriveAlias
  repeat' first
    | with_reducible assumption
    | with_reducible apply State.modCry_kept
    | split

theorem State.seal_kept {r : Side} {start : Nat} {n : Nat} {slot : Nat} {svn : Nat} (hm : Sub 0x204 pq) (hI : s.Kept pq) : (State.seal s r start n slot svn).Kept pq := by
  unfold State.seal
  repeat' first
    | with_reducible assumption
    | with_reducible apply State.bootPost_kept

theorem State.bootDcb_kept {r : Side} {n : Nat} {x : SlotIn} {b : BootIn} (hm : Sub 0xB06 pq) (hI : s.Kept pq) : (State.bootDcb s r n x b).1.Kept pq := by
  unfold State.bootDcb
  repeat' first
    | with_reducible assumption
    | (extract_lets +onlyGivenNames s1; refine State.Kept.cut (s := s1) (p := pq) ?_ (fun _ => ?_); rotate_left; clear_value s1; rotate_left; dsimp -zeta only [s1]; clear s1)
    | with_reducible apply State.dcbFails_kept
    | with_reducible apply State.limit_kept
    | with_reducible apply State.freeNext_kept
    | with_reducible apply State.meas_kept
    | with_reducible apply State.useDcb_kept
    | exact Sub.mono (by decide) hm
    | split

theorem State.bootChain_kept {r : Side} {b : BootIn} (hm : Sub 0x1002F0E pq) (hI : s.Kept pq) : (State.bootChain s r b).1.Kept pq := by
  unfold State.bootChain
  repeat' first
    | with_reducible assumption
    | (extract_lets +onlyGivenNames s1; refine State.Kept.cut (s := s1) (p := pq) ?_ (fun _ => ?_); rotate_left; clear_value s1; rotate_left; dsimp -zeta only [s1]; clear s1)
    | with_reducible apply State.trySlots_kept
    | with_reducible apply State.limit_kept
    | with_reducible apply State.deriveAlias_kept
    | with_reducible apply State.freeNext_kept
    | with_reducible apply State.loadImageTo_kept
    | with_reducible apply State.modNve_kept
    | with_reducible apply State.bootDcb_kept
    | with_reducible refine State.Kept.fst (by assumption) ?_
    | exact Sub.mono (by decide) hm
    | split

theorem State.boot_kept {r : Side} {b : BootIn} (hm : Sub 0x1002F0E pq) (hI : s.Kept pq) : (State.boot s r b).Kept pq := by
  unfold State.boot
  repeat' first
    | with_reducible assumption
    | (extract_lets +onlyGivenNames s1; refine State.Kept.cut (s := s1) (p := pq) ?_ (fun _ => ?_); rotate_left; clear_value s1; rotate_left; dsimp -zeta only [s1]; clear s1)
    | (extract_lets +onlyGivenNames x1; clear_value x1)
    | with_reducible apply State.bootPost_kept
    | with_reducible apply State.meas_kept
    | with_reducible apply State.deriveCdi0_kept
    | with_reducible apply State.bootChain_kept
    | with_reducible apply State.setStat_kept
    | with_reducible apply State.seal_kept
    | with_reducible apply State.cfgReady_kept
    | with_reducible apply State.modRcp_kept
    | with_reducible apply State.modNve_kept
    | exact Sub.mono (by decide) hm

theorem execMeasuredBoot_kept {r : Side} {b : BootIn} (hm : Sub 0x1002F0E pq) (hI : s.Kept pq) : ∃ s1, execMeasuredBoot r b s = .next s1 ∧ s1.Kept pq := by
  unfold execMeasuredBoot
  refine ⟨_, rfl, ?_⟩
  repeat' first
    | with_reducible assumption
    | with_reducible apply State.boot_kept
    | split

end Sys2Proof.Machine
end

