-- ==== Sys2Proof/Laws/KeptDomain.lean ====
section
/-!
SUPPORT. The operations of Machine/Domain.lean keep what they do not write.
-/
set_option Elab.async false
set_option linter.unusedTactic false
set_option linter.unreachableTactic false
namespace Sys2Proof.Machine

variable {pq : Nat × State} {s : State}

theorem State.pstateWrite_kept {v : Nat} (hm : Sub 0x4 pq) (hI : s.Kept pq) : (State.pstateWrite s v).Kept pq := by
  unfold State.pstateWrite
  repeat' first
    | with_reducible assumption
    | with_reducible apply State.rcpInt_kept
    | with_reducible apply State.setReg_kept
    | split

theorem execPowerStateSelect_kept {x : Accessor} {v : BitVec 3} (hm : Sub 0xC pq) (hI : s.Kept pq) : ∃ s1, execPowerStateSelect x v s = .next s1 ∧ s1.Kept pq := by
  unfold execPowerStateSelect
  refine ⟨_, rfl, ?_⟩
  repeat' first
    | with_reducible assumption
    | (intro x hx; beta_reduce)
    | with_reducible apply State.access_kept
    | with_reducible apply State.pstateWrite_kept
    | exact Sub.mono (by decide) hm

theorem State.modDom_kept {d : Nat} {f : Dom → Dom} (hm : Sub 0x800 pq) (hI : s.Kept pq) : (State.modDom s d f).Kept pq := by
  unfold State.modDom
  repeat' first
    | with_reducible assumption
    | with_reducible apply State.modRcp_kept

theorem State.spurOff_kept {r : Side} {i : Nat} (hm : Sub 0x8 pq) (hI : s.Kept pq) : (State.spurOff s r i).Kept pq := by
  unfold State.spurOff
  repeat' first
    | with_reducible assumption
    | with_reducible apply State.modCore_kept
    | split

theorem State.domClear_kept {d : Nat} (hm : Sub 0x74FE7FE pq) (hI : s.Kept pq) : (State.domClear s d).Kept pq := by
  unfold State.domClear
  repeat' first
    | with_reducible assumption
    | (extract_lets +onlyGivenNames x1; clear_value x1)
    | (intro x hx; beta_reduce)
    | with_reducible apply State.spurOff_kept
    | with_reducible apply State.modCore_kept
    | with_reducible apply State.modTile_kept
    | with_reducible apply State.modZtb_kept
    | with_reducible apply State.modHdg_kept
    | with_reducible apply State.modCen_kept
    | with_reducible apply State.modDram_kept
    | with_reducible apply State.blockReset_kept
    | with_reducible apply State.Kept.foldl
    | exact Sub.mono (by decide) hm
    | split

theorem State.calStopping_kept {d : Nat} (hm : Sub 0x34226 pq) (hI : s.Kept pq) : (State.calStopping s d).Kept pq := by
  unfold State.calStopping
  repeat' first
    | with_reducible assumption
    | with_reducible apply State.calAbortAll_kept
    | split

theorem State.domReq_kept {d : Nat} {on : Bool} {ret : Bool} (hm : Sub 0x74FEFFE pq) (hI : s.Kept pq) : (State.domReq s d on ret).Kept pq := by
  unfold State.domReq
  repeat' first
    | with_reducible assumption
    | (extract_lets +onlyGivenNames s1; refine State.Kept.cut (s := s1) (p := pq) ?_ (fun _ => ?_); rotate_left; clear_value s1; rotate_left; dsimp -zeta only [s1]; clear s1)
    | (extract_lets +onlyGivenNames x1; clear_value x1)
    | with_reducible apply State.rcpInt_kept
    | with_reducible apply State.modDom_kept
    | with_reducible apply State.calStopping_kept
    | with_reducible apply State.domClear_kept
    | exact Sub.mono (by decide) hm
    | split

theorem State.pdCtl_kept {v : Nat} (hm : Sub 0x74FEFFE pq) (hI : s.Kept pq) : (State.pdCtl s v).Kept pq := by
  unfold State.pdCtl
  repeat' first
    | with_reducible assumption
    | with_reducible apply State.domReq_kept
    | split

theorem execDomainOn_kept {x : Accessor} (hm : Sub 0x74FEFFE pq) (hI : s.Kept pq) : ∃ s1, execDomainOn x s = .next s1 ∧ s1.Kept pq := by
  unfold execDomainOn
  refine ⟨_, rfl, ?_⟩
  repeat' first
    | with_reducible assumption
    | (intro x hx; beta_reduce)
    | with_reducible apply State.access_kept
    | with_reducible apply State.pdCtl_kept
    | exact Sub.mono (by decide) hm

theorem execDomainOff_kept {x : Accessor} (hm : Sub 0x74FEFFE pq) (hI : s.Kept pq) : ∃ s1, execDomainOff x s = .next s1 ∧ s1.Kept pq := by
  unfold execDomainOff
  refine ⟨_, rfl, ?_⟩
  repeat' first
    | with_reducible assumption
    | (intro x hx; beta_reduce)
    | with_reducible apply State.access_kept
    | with_reducible apply State.pdCtl_kept
    | exact Sub.mono (by decide) hm

theorem execDomainRet_kept {x : Accessor} (hm : Sub 0x74FEFFE pq) (hI : s.Kept pq) : ∃ s1, execDomainRet x s = .next s1 ∧ s1.Kept pq := by
  unfold execDomainRet
  refine ⟨_, rfl, ?_⟩
  repeat' first
    | with_reducible assumption
    | (intro x hx; beta_reduce)
    | with_reducible apply State.access_kept
    | with_reducible apply State.pdCtl_kept
    | exact Sub.mono (by decide) hm

theorem State.domStarted_kept {d : Nat} (hm : Sub 0x34A26 pq) (hI : s.Kept pq) : (State.domStarted s d).Kept pq := by
  unfold State.domStarted
  repeat' first
    | with_reducible assumption
    | (extract_lets +onlyGivenNames s1; refine State.Kept.cut (s := s1) (p := pq) ?_ (fun _ => ?_); rotate_left; clear_value s1; rotate_left; dsimp -zeta only [s1]; clear s1)
    | with_reducible apply State.modDom_kept
    | with_reducible apply State.modDram_kept
    | with_reducible apply State.calStopping_kept
    | with_reducible apply State.rcpInt_kept
    | exact Sub.mono (by decide) hm
    | split

theorem execDomainStarted_kept {d : BitVec 7} (hm : Sub 0x34A26 pq) (hI : s.Kept pq) : ∃ s1, execDomainStarted d s = .next s1 ∧ s1.Kept pq := by
  unfold execDomainStarted
  refine ⟨_, rfl, ?_⟩
  repeat' first
    | with_reducible assumption
    | with_reducible apply State.domStarted_kept
    | split

theorem State.domStopped_kept {d : Nat} (hm : Sub 0x74FEFFE pq) (hI : s.Kept pq) : (State.domStopped s d).Kept pq := by
  unfold State.domStopped
  repeat' first
    | with_reducible assumption
    | with_reducible apply State.modDom_kept
    | with_reducible apply State.domClear_kept
    | with_reducible apply State.rcpInt_kept
    | exact Sub.mono (by decide) hm
    | split

theorem execDomainStopped_kept {d : BitVec 7} (hm : Sub 0x74FEFFE pq) (hI : s.Kept pq) : ∃ s1, execDomainStopped d s = .next s1 ∧ s1.Kept pq := by
  unfold execDomainStopped
  refine ⟨_, rfl, ?_⟩
  repeat' first
    | with_reducible assumption
    | with_reducible apply State.domStopped_kept
    | split

theorem execWedgeCountMismatch_kept {x : Side} {count : Nat} (hm : Sub 0xEB030E pq) (hI : s.Kept pq) : ∃ s1, execWedgeCountMismatch x count s = .next s1 ∧ s1.Kept pq := by
  unfold execWedgeCountMismatch
  refine ⟨_, rfl, ?_⟩
  repeat' first
    | with_reducible assumption
    | with_reducible apply State.retract_kept
    | with_reducible apply State.event_kept
    | with_reducible apply State.actuatorLost_kept
    | exact Sub.mono (by decide) hm
    | split

end Sys2Proof.Machine
end

