-- ==== Sys2Proof/Laws/KeptBus.lean ====
section
/-!
SUPPORT. The operations of Machine/Bus.lean keep what they do not write.
-/
set_option Elab.async false
set_option linter.unusedTactic false
set_option linter.unreachableTactic false
namespace Sys2Proof.Machine

variable {pq : Nat × State} {s : State}

theorem State.clearReg_kept {key : Nat} (hm : Sub 0x4 pq) (hI : s.Kept pq) : (State.clearReg s key).Kept pq := by
  unfold State.clearReg
  repeat' first
    | with_reducible assumption
    | with_reducible apply State.setReg_kept

theorem State.rsTile_kept {t : Quad} {key : Nat} (hm : Sub 0x24 pq) (hI : s.Kept pq) : (State.rsTile s t key).Kept pq := by
  unfold State.rsTile
  repeat' first
    | with_reducible assumption
    | with_reducible apply State.statusPop_kept
    | with_reducible apply State.clearReg_kept
    | exact Sub.mono (by decide) hm
    | split

theorem State.rsRidge_kept {r : Side} {key : Nat} (hm : Sub 0x42014 pq) (hI : s.Kept pq) : (State.rsRidge s r key).Kept pq := by
  unfold State.rsRidge
  repeat' first
    | with_reducible assumption
    | (extract_lets +onlyGivenNames x1; clear_value x1)
    | with_reducible apply State.modAng_kept
    | with_reducible apply State.modReg_kept
    | with_reducible apply State.scrubPopLo_kept
    | with_reducible apply State.modScrub_kept
    | with_reducible apply State.clearReg_kept
    | exact Sub.mono (by decide) hm
    | split

theorem State.rsSaddle_kept {key : Nat} (hm : Sub 0x7000206 pq) (hI : s.Kept pq) : (State.rsSaddle s key).Kept pq := by
  unfold State.rsSaddle
  repeat' first
    | with_reducible assumption
    | with_reducible apply State.modNve_kept
    | with_reducible apply State.modHdg_kept
    | with_reducible apply State.modEvr_kept
    | with_reducible apply State.modHpt_kept
    | with_reducible apply State.freeNext_kept
    | with_reducible apply State.clearReg_kept
    | exact Sub.mono (by decide) hm
    | split

theorem State.rsEffect_kept {key : Nat} (hm : Sub 0x7042236 pq) (hI : s.Kept pq) : (State.rsEffect s key).Kept pq := by
  unfold State.rsEffect
  repeat' first
    | with_reducible assumption
    | with_reducible apply State.rsRidge_kept
    | with_reducible apply State.rsTile_kept
    | with_reducible apply State.rsSaddle_kept
    | exact Sub.mono (by decide) hm
    | split

theorem State.rsLegacy_kept {t : Quad} {o : Nat} (hm : Sub 0x20 pq) (hI : s.Kept pq) : (State.rsLegacy s t o).Kept pq := by
  unfold State.rsLegacy
  repeat' first
    | with_reducible assumption
    | with_reducible apply State.statusPop_kept
    | with_reducible apply State.modTile_kept
    | split

theorem State.readNote_kept {key : Nat} (hm : Sub 0x4 pq) (hI : s.Kept pq) : (State.readNote s key).Kept pq := by
  unfold State.readNote
  repeat' first
    | with_reducible assumption
    | with_reducible apply State.setReg_kept
    | split

theorem State.readEffect_kept {p : Place} (hm : Sub 0x7042236 pq) (hI : s.Kept pq) : (State.readEffect s p).Kept pq := by
  unfold State.readEffect
  repeat' first
    | with_reducible assumption
    | with_reducible apply State.rsEffect_kept
    | with_reducible apply State.readNote_kept
    | with_reducible apply State.rsLegacy_kept
    | exact Sub.mono (by decide) hm
    | split

theorem State.busRead_kept {x : Accessor} {addr : Word} (hm : Sub 0x704223E pq) (hI : s.Kept pq) : (State.busRead s x addr).1.Kept pq := by
  unfold State.busRead
  repeat' first
    | with_reducible assumption
    | (extract_lets +onlyGivenNames x1; clear_value x1)
    | with_reducible apply State.refuse_kept
    | with_reducible apply State.readEffect_kept
    | with_reducible apply State.freeNext_kept
    | exact Sub.mono (by decide) hm
    | split

theorem State.storeReg_kept {key : Nat} {data : Word} (hm : Sub 0x4 pq) (hI : s.Kept pq) : (State.storeReg s key data).Kept pq := by
  unfold State.storeReg
  repeat' first
    | with_reducible assumption
    | with_reducible apply State.setReg_kept
    | split

theorem State.writeSpu_kept {r : Side} {o : Nat} {data : Word} (hm : Sub 0xC pq) (hI : s.Kept pq) : OptKept pq (State.writeSpu s r o data) := by
  unfold State.writeSpu
  repeat' first
    | with_reducible assumption
    | with_reducible apply State.dbgWrite_kept
    | with_reducible apply State.storeReg_kept
    | with_reducible apply State.ctlWord_kept
    | with_reducible apply OptKept.none
    | with_reducible apply OptKept.some
    | exact Sub.mono (by decide) hm
    | split

theorem State.writeErrstat_kept {r : Side} {data : Word} (hm : Sub 0x4 pq) (hI : s.Kept pq) : (State.writeErrstat s r data).Kept pq := by
  unfold State.writeErrstat
  repeat' first
    | with_reducible assumption
    | (extract_lets +onlyGivenNames s1; refine State.Kept.cut (s := s1) (p := pq) ?_ (fun _ => ?_); rotate_left; clear_value s1; rotate_left; dsimp -zeta only [s1]; clear s1)
    | with_reducible apply State.storeReg_kept
    | with_reducible apply State.modReg_kept
    | split

theorem State.writeCst_kept {x : Accessor} {o : Nat} {data : Word} (hm : Sub 0x2B0E pq) (hI : s.Kept pq) : OptKept pq (State.writeCst s x o data) := by
  unfold State.writeCst
  repeat' first
    | with_reducible assumption
    | (extract_lets +onlyGivenNames x1; clear_value x1)
    | with_reducible apply State.bootLock_kept
    | with_reducible apply State.writeErrstat_kept
    | with_reducible apply State.loadAddr_kept
    | with_reducible apply State.loadData_kept
    | with_reducible apply State.matchWrite_kept
    | with_reducible apply OptKept.none
    | with_reducible apply OptKept.some
    | exact Sub.mono (by decide) hm
    | split

theorem State.writeAng_kept {r : Side} {o : Nat} {data : Word} (hm : Sub 0x3E pq) (hI : s.Kept pq) : OptKept pq (State.writeAng s r o data) := by
  unfold State.writeAng
  repeat' first
    | with_reducible assumption
    | with_reducible apply State.angCtl_kept
    | with_reducible apply State.skewWrite_kept
    | with_reducible apply OptKept.none
    | with_reducible apply OptKept.some
    | exact Sub.mono (by decide) hm
    | split

theorem State.enginePower_kept {r : Side} {data : Word} (hm : Sub 0x74FEFFE pq) (hI : s.Kept pq) : (State.enginePower s r data).Kept pq := by
  unfold State.enginePower
  repeat' first
    | with_reducible assumption
    | (intro x y hx; beta_reduce)
    | with_reducible apply State.storeReg_kept
    | with_reducible apply State.domReq_kept
    | with_reducible apply State.Kept.foldl
    | exact Sub.mono (by decide) hm
    | split

theorem State.writeDec_kept {r : Side} {o : Nat} {data : Word} (hm : Sub 0x74FEFFE pq) (hI : s.Kept pq) : OptKept pq (State.writeDec s r o data) := by
  unfold State.writeDec
  repeat' first
    | with_reducible assumption
    | with_reducible apply State.enginePower_kept
    | with_reducible apply OptKept.none
    | with_reducible apply OptKept.some
    | split

theorem State.modRamp_kept {r : Side} {f : RampCh → RampCh} (hm : Sub 0x8000 pq) (hI : s.Kept pq) : (State.modRamp s r f).Kept pq := by
  unfold State.modRamp
  repeat' first
    | with_reducible assumption
    | with_reducible apply State.modCen_kept

theorem State.cenCtl_kept {r : Side} {data : Word} (hm : Sub 0x8004 pq) (hI : s.Kept pq) : (State.cenCtl s r data).Kept pq := by
  unfold State.cenCtl
  repeat' first
    | with_reducible assumption
    | (extract_lets +onlyGivenNames s1; refine State.Kept.cut (s := s1) (p := pq) ?_ (fun _ => ?_); rotate_left; clear_value s1; rotate_left; dsimp -zeta only [s1]; clear s1)
    | with_reducible apply State.setReg_kept
    | with_reducible apply State.nodeSync_kept
    | exact Sub.mono (by decide) hm
    | split

theorem State.rampCtl_kept {r : Side} {data : Word} (hm : Sub 0x8004 pq) (hI : s.Kept pq) : (State.rampCtl s r data).Kept pq := by
  unfold State.rampCtl
  repeat' first
    | with_reducible assumption
    | with_reducible apply State.rampGo_kept
    | with_reducible apply State.modRamp_kept
    | exact Sub.mono (by decide) hm
    | split

theorem State.writeCen_kept {r : Side} {o : Nat} {data : Word} (hm : Sub 0x8004 pq) (hI : s.Kept pq) : OptKept pq (State.writeCen s r o data) := by
  unfold State.writeCen
  repeat' first
    | with_reducible assumption
    | with_reducible apply State.cenCtl_kept
    | with_reducible apply State.modRamp_kept
    | with_reducible apply State.rampCtl_kept
    | with_reducible apply State.traceCfg_kept
    | with_reducible apply State.setReg_kept
    | with_reducible apply OptKept.none
    | with_reducible apply OptKept.some
    | exact Sub.mono (by decide) hm
    | split

theorem State.coefMem_kept {r : Side} {k : Nat} {f : Cen → Cen} (hm : Sub 0x8004 pq) (hI : s.Kept pq) : (State.coefMem s r k f).Kept pq := by
  unfold State.coefMem
  repeat' first
    | with_reducible assumption
    | with_reducible apply State.cenInt_kept
    | with_reducible apply State.modCen_kept
    | exact Sub.mono (by decide) hm
    | split

theorem State.writeCenMem_kept {r : Side} {o : Nat} {data : Word} (hm : Sub 0x8004 pq) (hI : s.Kept pq) : (State.writeCenMem s r o data).Kept pq := by
  unfold State.writeCenMem
  repeat' first
    | with_reducible assumption
    | (extract_lets +onlyGivenNames x1; clear_value x1)
    | with_reducible apply State.putNode_kept
    | with_reducible apply State.coefMem_kept
    | with_reducible apply State.modCen_kept
    | exact Sub.mono (by decide) hm
    | split

theorem State.writeMem_kept {r : Side} {o : Nat} {data : Word} (hm : Sub 0x2000 pq) (hI : s.Kept pq) : OptKept pq (State.writeMem s r o data) := by
  unfold State.writeMem
  repeat' first
    | with_reducible assumption
    | with_reducible apply State.modScrub_kept
    | with_reducible apply OptKept.none
    | with_reducible apply OptKept.some
    | split

theorem State.crnCtl_kept {r : Side} {data : Word} (hm : Sub 0x400004 pq) (hI : s.Kept pq) : (State.crnCtl s r data).Kept pq := by
  unfold State.crnCtl
  repeat' first
    | with_reducible assumption
    | (extract_lets +onlyGivenNames s1; refine State.Kept.cut (s := s1) (p := pq) ?_ (fun _ => ?_); rotate_left; clear_value s1; rotate_left; dsimp -zeta only [s1]; clear s1)
    | with_reducible apply State.storeReg_kept
    | with_reducible apply State.resyncStart_kept
    | exact Sub.mono (by decide) hm
    | split

theorem State.writeCrn_kept {r : Side} {o : Nat} {data : Word} (hm : Sub 0x400004 pq) (hI : s.Kept pq) : OptKept pq (State.writeCrn s r o data) := by
  unfold State.writeCrn
  repeat' first
    | with_reducible assumption
    | with_reducible apply State.crnCtl_kept
    | with_reducible apply OptKept.none
    | with_reducible apply OptKept.some
    | split

theorem State.writeBank_kept {r : Side} {o : Nat} {data : Word} (hm : Sub 0x400004 pq) (hI : s.Kept pq) : (State.writeBank s r o data).Kept pq := by
  unfold State.writeBank
  repeat' first
    | with_reducible assumption
    | (extract_lets +onlyGivenNames f1; refine State.Kept.fnCut2 (f := f1) (p := pq) ?_ (fun hf1 => ?_); rotate_left; clear_value f1; rotate_left; dsimp -zeta only [f1]; clear f1)
    | (extract_lets +onlyGivenNames x1; clear_value x1)
    | with_reducible apply hf1
    | (intro x y hx; beta_reduce)
    | with_reducible apply State.putBank_kept
    | with_reducible apply State.crnInt_kept
    | exact Sub.mono (by decide) hm
    | split

theorem State.adcCtl_kept {t : Quad} {data : Word} (hm : Sub 0x24 pq) (hI : s.Kept pq) : (State.adcCtl s t data).Kept pq := by
  unfold State.adcCtl
  repeat' first
    | with_reducible assumption
    | with_reducible apply State.spareGo_kept
    | with_reducible apply State.modReg_kept
    | exact Sub.mono (by decide) hm
    | split

theorem State.writeChn_kept {t : Quad} {o : Nat} {data : Word} (hm : Sub 0xBE pq) (hI : s.Kept pq) : OptKept pq (State.writeChn s t o data) := by
  unfold State.writeChn
  repeat' first
    | with_reducible assumption
    | with_reducible apply State.bankWrite_kept
    | with_reducible apply State.modTile_kept
    | with_reducible apply State.adcCtl_kept
    | with_reducible apply State.releaseRecs_kept
    | with_reducible apply State.writeEnable_kept
    | with_reducible apply OptKept.none
    | with_reducible apply OptKept.some
    | exact Sub.mono (by decide) hm
    | split

theorem State.fmtCtlWrite_kept {t : Quad} {data : Word} (hm : Sub 0x3E pq) (hI : s.Kept pq) : (State.fmtCtlWrite s t data).Kept pq := by
  unfold State.fmtCtlWrite
  repeat' first
    | with_reducible assumption
    | (extract_lets +onlyGivenNames s1; refine State.Kept.cut (s := s1) (p := pq) ?_ (fun _ => ?_); rotate_left; clear_value s1; rotate_left; dsimp -zeta only [s1]; clear s1)
    | with_reducible apply State.storeReg_kept
    | with_reducible apply State.forceLow_kept
    | with_reducible apply State.setStat_kept
    | exact Sub.mono (by decide) hm
    | split

theorem State.writeFmt_kept {r : Side} {t : Quad} {o : Nat} {data : Word} (hm : Sub 0x403E pq) (hI : s.Kept pq) : OptKept pq (State.writeFmt s r t o data) := by
  unfold State.writeFmt
  repeat' first
    | with_reducible assumption
    | with_reducible apply State.descWrite_kept
    | with_reducible apply State.skipSelect_kept
    | with_reducible apply State.fmtCtlWrite_kept
    | with_reducible apply OptKept.none
    | with_reducible apply OptKept.some
    | exact Sub.mono (by decide) hm
    | split

theorem State.writeTile_kept {r : Side} {t : Quad} {o : Nat} {data : Word} (hm : Sub 0x40BE pq) (hI : s.Kept pq) : OptKept pq (State.writeTile s r t o data) := by
  unfold State.writeTile
  repeat' first
    | with_reducible assumption
    | with_reducible apply State.writeChn_kept
    | with_reducible apply State.modTile_kept
    | with_reducible apply State.writeFmt_kept
    | with_reducible apply OptKept.none
    | with_reducible apply OptKept.some
    | exact Sub.mono (by decide) hm
    | split

theorem State.descHalf_kept {t : Quad} {i : Nat} {data : Word} (hm : Sub 0x24 pq) (hI : s.Kept pq) : (State.descHalf s t i data).Kept pq := by
  unfold State.descHalf
  repeat' first
    | with_reducible assumption
    | with_reducible apply State.descWrite_kept

theorem State.putLegacy_kept {t : Quad} {data : Word} {k : Nat} {hi : Nat} {lo : Nat} {n : Nat} (hm : Sub 0x4 pq) (hI : s.Kept pq) : (State.putLegacy s t data k hi lo n).Kept pq := by
  unfold State.putLegacy
  repeat' first
    | with_reducible assumption
    | with_reducible apply State.storeReg_kept

theorem State.writeLegacy_kept {t : Quad} {o : Nat} {data : Word} (hm : Sub 0x3E pq) (hI : s.Kept pq) : (State.writeLegacy s t o data).Kept pq := by
  unfold State.writeLegacy
  repeat' first
    | with_reducible assumption
    | with_reducible apply State.fmtCtlWrite_kept
    | with_reducible apply State.storeReg_kept
    | with_reducible apply State.putLegacy_kept
    | with_reducible apply State.descHalf_kept
    | exact Sub.mono (by decide) hm
    | split

theorem State.qlkCtl_kept {l : Side} {data : Word} (hm : Sub 0xBE pq) (hI : s.Kept pq) : (State.qlkCtl s l data).Kept pq := by
  unfold State.qlkCtl
  repeat' first
    | with_reducible assumption
    | (extract_lets +onlyGivenNames s1; refine State.Kept.cut (s := s1) (p := pq) ?_ (fun _ => ?_); rotate_left; clear_value s1; rotate_left; dsimp -zeta only [s1]; clear s1)
    | (extract_lets +onlyGivenNames x1; clear_value x1)
    | with_reducible apply State.storeReg_kept
    | with_reducible apply State.linkStop_kept
    | with_reducible apply State.linkStart_kept
    | exact Sub.mono (by decide) hm
    | split

theorem State.writeQlk_kept {l : Side} {o : Nat} {data : Word} (hm : Sub 0xBE pq) (hI : s.Kept pq) : OptKept pq (State.writeQlk s l o data) := by
  unfold State.writeQlk
  repeat' first
    | with_reducible assumption
    | with_reducible apply State.qlkCtl_kept
    | with_reducible apply State.regCmd_kept
    | with_reducible apply State.modLink_kept
    | with_reducible apply State.heater_kept
    | with_reducible apply State.safeCmd_kept
    | with_reducible apply State.pairWrite_kept
    | with_reducible apply OptKept.none
    | with_reducible apply OptKept.some
    | exact Sub.mono (by decide) hm
    | split

theorem State.vcCtl_kept {r : Side} {data : Word} (hm : Sub 0x10004 pq) (hI : s.Kept pq) : (State.vcCtl s r data).Kept pq := by
  unfold State.vcCtl
  repeat' first
    | with_reducible assumption
    | (extract_lets +onlyGivenNames s1; refine State.Kept.cut (s := s1) (p := pq) ?_ (fun _ => ?_); rotate_left; clear_value s1; rotate_left; dsimp -zeta only [s1]; clear s1)
    | (intro x y hx; beta_reduce)
    | with_reducible apply State.modReg_kept
    | with_reducible apply State.modMtr_kept
    | with_reducible apply State.Kept.foldl
    | exact Sub.mono (by decide) hm
    | split

theorem State.vcRes_kept {r : Side} {a : Side} {data : Word} (hm : Sub 0x4 pq) (hI : s.Kept pq) : (State.vcRes s r a data).Kept pq := by
  unfold State.vcRes
  repeat' first
    | with_reducible assumption
    | with_reducible apply State.storeReg_kept
    | split

theorem State.writeVc_kept {r : Side} {o : Nat} {data : Word} (hm : Sub 0x30004 pq) (hI : s.Kept pq) : OptKept pq (State.writeVc s r o data) := by
  unfold State.writeVc
  repeat' first
    | with_reducible assumption
    | with_reducible apply State.vcCtl_kept
    | with_reducible apply State.vcRes_kept
    | with_reducible apply State.retCmd_kept
    | with_reducible apply OptKept.none
    | with_reducible apply OptKept.some
    | exact Sub.mono (by decide) hm
    | split

theorem State.isense_kept {data : Word} (hm : Sub 0x10004 pq) (hI : s.Kept pq) : (State.isense s data).Kept pq := by
  unfold State.isense
  repeat' first
    | with_reducible assumption
    | (extract_lets +onlyGivenNames s1; refine State.Kept.cut (s := s1) (p := pq) ?_ (fun _ => ?_); rotate_left; clear_value s1; rotate_left; dsimp -zeta only [s1]; clear s1)
    | with_reducible apply State.modReg_kept
    | with_reducible apply State.sparePlace_kept
    | exact Sub.mono (by decide) hm
    | split

theorem State.writeMtr_kept {o : Nat} {data : Word} (hm : Sub 0x30014 pq) (hI : s.Kept pq) : OptKept pq (State.writeMtr s o data) := by
  unfold State.writeMtr
  repeat' first
    | with_reducible assumption
    | (extract_lets +onlyGivenNames s1; refine State.Kept.cut (s := s1) (p := pq) ?_ (fun _ => ?_); rotate_left; clear_value s1; rotate_left; dsimp -zeta only [s1]; clear s1)
    | with_reducible apply State.spWrite_kept
    | with_reducible apply State.storeReg_kept
    | with_reducible apply State.setObserver_kept
    | with_reducible apply State.chopTest_kept
    | with_reducible apply State.isense_kept
    | with_reducible apply State.modMtr_kept
    | with_reducible apply OptKept.none
    | with_reducible apply OptKept.some
    | exact Sub.mono (by decide) hm
    | split

theorem State.writeMon_kept {o : Nat} {data : Word} (hm : Sub 0x30004 pq) (hI : s.Kept pq) : OptKept pq (State.writeMon s o data) := by
  unfold State.writeMon
  repeat' first
    | with_reducible assumption
    | with_reducible apply State.trimWrite_kept
    | with_reducible apply State.modMon_kept
    | with_reducible apply State.vcCal_kept
    | with_reducible apply State.modReg_kept
    | with_reducible apply OptKept.none
    | with_reducible apply OptKept.some
    | exact Sub.mono (by decide) hm
    | split

theorem State.writeZtb_kept {o : Nat} {data : Word} (hm : Sub 0x80004 pq) (hI : s.Kept pq) : OptKept pq (State.writeZtb s o data) := by
  unfold State.writeZtb
  repeat' first
    | with_reducible assumption
    | with_reducible apply State.scanGo_kept
    | with_reducible apply State.setReg_kept
    | with_reducible apply OptKept.none
    | with_reducible apply OptKept.some
    | exact Sub.mono (by decide) hm
    | split

theorem State.linkCtl_kept {p : Side} {data : Word} (hm : Sub 0x4000002 pq) (hI : s.Kept pq) : (State.linkCtl s p data).Kept pq := by
  unfold State.linkCtl
  repeat' first
    | with_reducible assumption
    | (extract_lets +onlyGivenNames s1; refine State.Kept.cut (s := s1) (p := pq) ?_ (fun _ => ?_); rotate_left; clear_value s1; rotate_left; dsimp -zeta only [s1]; clear s1)
    | with_reducible apply State.retrain_kept
    | with_reducible apply State.freeNext_kept
    | exact Sub.mono (by decide) hm
    | split

theorem State.writeHpt_kept {p : Side} {o : Nat} {data : Word} (hm : Sub 0x4000002 pq) (hI : s.Kept pq) : OptKept pq (State.writeHpt s p o data) := by
  unfold State.writeHpt
  repeat' first
    | with_reducible assumption
    | with_reducible apply State.linkCtl_kept
    | with_reducible apply OptKept.none
    | with_reducible apply OptKept.some
    | split

theorem State.writeNve_kept {o : Nat} {data : Word} (hm : Sub 0x1000004 pq) (hI : s.Kept pq) : OptKept pq (State.writeNve s o data) := by
  unfold State.writeNve
  repeat' first
    | with_reducible assumption
    | with_reducible apply State.asnWrite_kept
    | with_reducible apply State.modNve_kept
    | with_reducible apply State.asnLimit_kept
    | with_reducible apply State.qallocWrite_kept
    | with_reducible apply State.nscfgWrite_kept
    | with_reducible apply OptKept.none
    | with_reducible apply OptKept.some
    | exact Sub.mono (by decide) hm
    | split

theorem State.rlgCmd_kept {r : Side} {data : Word} (hm : Sub 0x343C37E pq) (hI : s.Kept pq) : (State.rlgCmd s r data).Kept pq := by
  unfold State.rlgCmd
  repeat' first
    | with_reducible assumption
    | with_reducible apply State.switchCmd_kept
    | with_reducible apply State.handback_kept
    | with_reducible apply State.rejoin_kept
    | with_reducible apply State.freeNext_kept
    | with_reducible apply State.fence_kept
    | with_reducible apply State.rlgInt_kept
    | exact Sub.mono (by decide) hm
    | split

theorem State.writeRlg_kept {x : Accessor} {o : Nat} {data : Word} (hm : Sub 0x343C37E pq) (hI : s.Kept pq) : OptKept pq (State.writeRlg s x o data) := by
  unfold State.writeRlg
  repeat' first
    | with_reducible assumption
    | with_reducible apply State.rlgCmd_kept
    | with_reducible apply State.refuse_kept
    | with_reducible apply OptKept.none
    | with_reducible apply OptKept.some
    | exact Sub.mono (by decide) hm
    | split

theorem State.bktCfg_kept {data : Word} (hm : Sub 0x200 pq) (hI : s.Kept pq) : (State.bktCfg s data).Kept pq := by
  unfold State.bktCfg
  repeat' first
    | with_reducible assumption
    | with_reducible apply State.modEvr_kept

theorem State.writeEvr_kept {o : Nat} {data : Word} (hm : Sub 0x206 pq) (hI : s.Kept pq) : OptKept pq (State.writeEvr s o data) := by
  unfold State.writeEvr
  repeat' first
    | with_reducible assumption
    | with_reducible apply State.modEvr_kept
    | with_reducible apply State.calendarSet_kept
    | with_reducible apply State.bktCfg_kept
    | with_reducible apply OptKept.none
    | with_reducible apply OptKept.some
    | exact Sub.mono (by decide) hm
    | split

theorem State.writeCry_kept {x : Accessor} {o : Nat} {data : Word} (hm : Sub 0x404 pq) (hI : s.Kept pq) : OptKept pq (State.writeCry s x o data) := by
  unfold State.writeCry
  repeat' first
    | with_reducible assumption
    | with_reducible apply State.cryCmd_kept
    | with_reducible apply OptKept.none
    | with_reducible apply OptKept.some
    | split

theorem State.bwdWrite_kept {r : Side} {data : Word} (hm : Sub 0x800 pq) (hI : s.Kept pq) : (State.bwdWrite s r data).Kept pq := by
  unfold State.bwdWrite
  repeat' first
    | with_reducible assumption
    | with_reducible apply State.modRcp_kept

theorem State.writeRcp_kept {r : Side} {o : Nat} {data : Word} (hm : Sub 0x1FFFFFFE pq) (hI : s.Kept pq) : OptKept pq (State.writeRcp s r o data) := by
  unfold State.writeRcp
  repeat' first
    | with_reducible assumption
    | with_reducible apply State.swReset_kept
    | with_reducible apply State.blkReset_kept
    | with_reducible apply State.kickRidge_kept
    | with_reducible apply State.bwdWrite_kept
    | with_reducible apply State.pdCtl_kept
    | with_reducible apply State.pstateWrite_kept
    | with_reducible apply OptKept.none
    | with_reducible apply OptKept.some
    | exact Sub.mono (by decide) hm
    | split

theorem State.writeFus_kept {o : Nat} {_data : Word} (hm : Sub 0x4 pq) (hI : s.Kept pq) : OptKept pq (State.writeFus s o _data) := by
  unfold State.writeFus
  repeat' first
    | with_reducible assumption
    | with_reducible apply State.setStat_kept
    | with_reducible apply OptKept.none
    | with_reducible apply OptKept.some
    | split

theorem State.writeSpecial_kept {x : Accessor} {key : Nat} {data : Word} (hm : Sub 0x1FFFFFFE pq) (hI : s.Kept pq) : OptKept pq (State.writeSpecial s x key data) := by
  unfold State.writeSpecial
  repeat' first
    | with_reducible assumption
    | (extract_lets +onlyGivenNames x1; clear_value x1)
    | with_reducible apply State.writeSpu_kept
    | with_reducible apply State.writeCst_kept
    | with_reducible apply State.writeAng_kept
    | with_reducible apply State.writeDec_kept
    | with_reducible apply State.writeCen_kept
    | with_reducible apply State.writeMem_kept
    | with_reducible apply State.writeCrn_kept
    | with_reducible apply State.writeTile_kept
    | with_reducible apply State.writeQlk_kept
    | with_reducible apply State.writeHpt_kept
    | with_reducible apply State.writeNve_kept
    | with_reducible apply State.writeRlg_kept
    | with_reducible apply State.writeZtb_kept
    | with_reducible apply State.writeEvr_kept
    | with_reducible apply State.writeRcp_kept
    | with_reducible apply State.writeMon_kept
    | with_reducible apply State.writeVc_kept
    | with_reducible apply State.writeMtr_kept
    | with_reducible apply State.writeFus_kept
    | with_reducible apply State.writeCry_kept
    | with_reducible apply OptKept.none
    | exact Sub.mono (by decide) hm
    | split

theorem State.notOwnedTile_kept {x : Accessor} {t : Quad} (hm : Sub 0x20E pq) (hI : s.Kept pq) : OptKept pq (State.notOwnedTile s x t) := by
  unfold State.notOwnedTile
  repeat' first
    | with_reducible assumption
    | with_reducible apply State.refuseTile_kept
    | with_reducible apply OptKept.none
    | with_reducible apply OptKept.some
    | split

theorem State.notOwned_kept {x : Accessor} {owned : Bool} (hm : Sub 0x8 pq) (hI : s.Kept pq) : OptKept pq (State.notOwned s x owned) := by
  unfold State.notOwned
  repeat' first
    | with_reducible assumption
    | with_reducible apply State.refuse_kept
    | with_reducible apply OptKept.none
    | with_reducible apply OptKept.some
    | split

theorem State.writeRefused_kept {x : Accessor} {key : Nat} {data : Word} (hm : Sub 0x20E pq) (hI : s.Kept pq) : OptKept pq (State.writeRefused s x key data) := by
  unfold State.writeRefused
  repeat' first
    | with_reducible assumption
    | (extract_lets +onlyGivenNames x1; clear_value x1)
    | with_reducible apply State.notOwnedTile_kept
    | with_reducible apply State.notOwned_kept
    | with_reducible apply OptKept.none
    | exact Sub.mono (by decide) hm
    | split

theorem State.regWrite_kept {x : Accessor} {key : Nat} {data : Word} (hm : Sub 0x1FFFFFFE pq) (hI : s.Kept pq) : (State.regWrite s x key data).Kept pq := by
  unfold State.regWrite
  repeat' first
    | with_reducible assumption
    | with_reducible apply State.writeRefused_kept
    | with_reducible apply State.writeSpecial_kept
    | with_reducible apply State.storeReg_kept
    | with_reducible refine OptKept.all ?_ _ (by assumption)
    | exact Sub.mono (by decide) hm
    | split

theorem State.busWrite_kept {x : Accessor} {addr : Word} {data : Word} (hm : Sub 0x1FFFFFFE pq) (hI : s.Kept pq) : (State.busWrite s x addr data).Kept pq := by
  unfold State.busWrite
  repeat' first
    | with_reducible assumption
    | (extract_lets +onlyGivenNames x1; clear_value x1)
    | with_reducible apply State.refuse_kept
    | with_reducible apply State.regWrite_kept
    | with_reducible apply State.writeLegacy_kept
    | with_reducible apply State.refuseTile_kept
    | with_reducible apply State.writeCenMem_kept
    | with_reducible apply State.ztbWindow_kept
    | with_reducible apply State.writeBank_kept
    | exact Sub.mono (by decide) hm
    | split

theorem State.byRidge_kept {r : Side} {f : State → State} (hf : ∀ s, State.Kept pq s → (f s).Kept pq) (hI : s.Kept pq) : (State.byRidge s r f).Kept pq := by
  unfold State.byRidge
  repeat' first
    | with_reducible assumption
    | with_reducible apply hf
    | split

theorem execRegisterWrite_kept {x : Accessor} {addr : Word} {data : Word} (hm : Sub 0x1FFFFFFE pq) (hI : s.Kept pq) : ∃ s1, execRegisterWrite x addr data s = .next s1 ∧ s1.Kept pq := by
  unfold execRegisterWrite
  refine ⟨_, rfl, ?_⟩
  repeat' first
    | with_reducible assumption
    | (intro x hx; beta_reduce)
    | with_reducible apply State.byRidge_kept
    | with_reducible apply State.busWrite_kept

theorem execCounterReadClear_kept {x : Accessor} {addr : Word} (hm : Sub 0x704223E pq) (hI : s.Kept pq) : ∃ s1, execCounterReadClear x addr s = .next s1 ∧ s1.Kept pq := by
  unfold execCounterReadClear
  refine ⟨_, rfl, ?_⟩
  repeat' first
    | with_reducible assumption
    | (intro x hx; beta_reduce)
    | with_reducible apply State.byRidge_kept
    | with_reducible apply State.busRead_kept

theorem execAngAcLatch_kept {x : Accessor} (hm : Sub 0x704223E pq) (hI : s.Kept pq) : ∃ s1, execAngAcLatch x s = .next s1 ∧ s1.Kept pq := by
  unfold execAngAcLatch
  refine ⟨_, rfl, ?_⟩
  repeat' first
    | with_reducible assumption
    | (intro x hx; beta_reduce)
    | with_reducible apply State.byRidge_kept
    | with_reducible apply State.busRead_kept

theorem execLegacyWindowWrite_kept {x : Accessor} {addr : Word} {data : Word} (hm : Sub 0x1FFFFFFE pq) (hI : s.Kept pq) : ∃ s1, execLegacyWindowWrite x addr data s = .next s1 ∧ s1.Kept pq := by
  unfold execLegacyWindowWrite
  refine ⟨_, rfl, ?_⟩
  repeat' first
    | with_reducible assumption
    | (intro x hx; beta_reduce)
    | with_reducible apply State.byRidge_kept
    | with_reducible apply State.busWrite_kept
    | split

end Sys2Proof.Machine
end

