-- ==== Sys2Proof/Laws/KeptPorts.lean ====
section
/-!
SUPPORT. The operations of Machine/Ports.lean keep what they do not write.
-/
set_option Elab.async false
set_option linter.unusedTactic false
set_option linter.unreachableTactic false
namespace Sys2Proof.Machine

variable {pq : Nat × State} {s : State}

theorem State.portGet_kept {c : CtxId} {p : Nat} {up : Bool} {f : State → State × DWord} (hf : ∀ s, State.Kept pq s → (f s).1.Kept pq) (hm : Sub 0x8 pq) (hI : s.Kept pq) : (State.portGet s c p up f).1.Kept pq := by
  unfold State.portGet
  repeat' first
    | with_reducible assumption
    | with_reducible apply State.refuseCtx_kept
    | with_reducible apply hf
    | split

theorem State.portPeek_kept {c : CtxId} {p : Nat} {up : Bool} {v : DWord} (hm : Sub 0x8 pq) (hI : s.Kept pq) : (State.portPeek s c p up v).1.Kept pq := by
  unfold State.portPeek
  repeat' first
    | with_reducible assumption
    | (intro x hx; beta_reduce)
    | with_reducible apply State.portGet_kept

theorem State.drmRead_kept {c : CtxId} (hm : Sub 0x400C pq) (hI : s.Kept pq) : (State.drmRead s c).1.Kept pq := by
  unfold State.drmRead
  repeat' first
    | with_reducible assumption
    | (extract_lets +onlyGivenNames x1; clear_value x1)
    | with_reducible apply State.refuseCtx_kept
    | with_reducible apply State.dramRead_kept
    | with_reducible refine State.Kept.fst (by assumption) ?_
    | exact Sub.mono (by decide) hm
    | split

theorem State.streamRead_kept {c : CtxId} {p : Nat} (hm : Sub 0x28 pq) (hI : s.Kept pq) : (State.streamRead s c p).1.Kept pq := by
  unfold State.streamRead
  repeat' first
    | with_reducible assumption
    | (extract_lets +onlyGivenNames x1; clear_value x1)
    | (intro x hx; beta_reduce)
    | with_reducible apply State.portGet_kept
    | with_reducible apply State.statusTake_kept
    | with_reducible apply State.portPeek_kept
    | exact Sub.mono (by decide) hm
    | split

theorem State.portRead_kept {c : CtxId} {p : Nat} {rom : Bool} (hm : Sub 0x704637E pq) (hI : s.Kept pq) : (State.portRead s c p rom).1.Kept pq := by
  unfold State.portRead
  repeat' first
    | with_reducible assumption
    | (extract_lets +onlyGivenNames s1; refine State.Kept.cutFst (r := s1) (p := pq) ?_ (fun _ => ?_); rotate_left; clear_value s1; rotate_left; dsimp -zeta only [s1]; clear s1)
    | (extract_lets +onlyGivenNames x1; clear_value x1)
    | (intro x hx; beta_reduce)
    | with_reducible apply State.freeNext_kept
    | with_reducible apply State.portPeek_kept
    | with_reducible apply State.portGet_kept
    | with_reducible apply State.decTake_kept
    | with_reducible apply State.bufAcquire_kept
    | with_reducible apply State.refuseCtx_kept
    | with_reducible apply State.scrubPop_kept
    | with_reducible apply State.acquire_kept
    | with_reducible apply State.mediaReserve_kept
    | with_reducible apply State.hedgeRead_kept
    | with_reducible apply State.hqPop_kept
    | with_reducible apply State.drmRead_kept
    | with_reducible apply State.busRead_kept
    | with_reducible apply State.streamRead_kept
    | exact Sub.mono (by decide) hm
    | split

theorem State.stageAt_kept {c : CtxId} {p : Nat} {v : DWord} (hm : Sub 0x8 pq) (hI : s.Kept pq) : (State.stageAt s c p v).Kept pq := by
  unfold State.stageAt
  repeat' first
    | with_reducible assumption
    | with_reducible apply State.modCtx_kept

theorem State.ctxPort_kept {c : CtxId} {data : DWord} (hm : Sub 0xC pq) (hI : s.Kept pq) : (State.ctxPort s c data).Kept pq := by
  unfold State.ctxPort
  repeat' first
    | with_reducible assumption
    | with_reducible apply State.modCtx_kept
    | with_reducible apply State.ctlWord_kept
    | exact Sub.mono (by decide) hm
    | split

theorem State.modSpur_kept {c : CtxId} {f : Spur → Spur} (hm : Sub 0x8 pq) (hI : s.Kept pq) : (State.modSpur s c f).Kept pq := by
  unfold State.modSpur
  repeat' first
    | with_reducible assumption
    | with_reducible apply State.modCore_kept

theorem State.ffSet_kept {c : CtxId} {data : DWord} (hm : Sub 0x8 pq) (hI : s.Kept pq) : (State.ffSet s c data).Kept pq := by
  unfold State.ffSet
  repeat' first
    | with_reducible assumption
    | with_reducible apply State.modSpur_kept

theorem State.ffClear_kept {c : CtxId} {data : DWord} (hm : Sub 0x8 pq) (hI : s.Kept pq) : (State.ffClear s c data).Kept pq := by
  unfold State.ffClear
  repeat' first
    | with_reducible assumption
    | with_reducible apply State.modSpur_kept

theorem State.sig0_kept {c : CtxId} {data : DWord} (hm : Sub 0x8 pq) (hI : s.Kept pq) : (State.sig0 s c data).Kept pq := by
  unfold State.sig0
  repeat' first
    | with_reducible assumption
    | with_reducible apply State.raiseRoute_kept

theorem State.sig1_kept {c : CtxId} {data : DWord} (hm : Sub 0x8 pq) (hI : s.Kept pq) : (State.sig1 s c data).Kept pq := by
  unfold State.sig1
  repeat' first
    | with_reducible assumption
    | with_reducible apply State.raiseRoute_kept
    | with_reducible apply State.refuseCtx_kept
    | split

theorem State.cmpRoute_kept {c : CtxId} {data : DWord} (hm : Sub 0x18 pq) (hI : s.Kept pq) : (State.cmpRoute s c data).Kept pq := by
  unfold State.cmpRoute
  repeat' first
    | with_reducible assumption
    | with_reducible apply State.modAng_kept
    | with_reducible apply State.refuseCtx_kept
    | exact Sub.mono (by decide) hm
    | split

theorem State.drmWrite_kept {c : CtxId} {data : DWord} (hm : Sub 0x4008 pq) (hI : s.Kept pq) : (State.drmWrite s c data).Kept pq := by
  unfold State.drmWrite
  repeat' first
    | with_reducible assumption
    | (extract_lets +onlyGivenNames x1; clear_value x1)
    | with_reducible apply State.refuseCtx_kept
    | with_reducible apply State.dramWrite_kept
    | exact Sub.mono (by decide) hm
    | split

theorem State.streamWrite_kept {c : CtxId} {p : Nat} {data : DWord} {rom : Bool} (hm : Sub 0x422E pq) (hI : s.Kept pq) : (State.streamWrite s c p data rom).Kept pq := by
  unfold State.streamWrite
  repeat' first
    | with_reducible assumption
    | (intro x hx; beta_reduce)
    | with_reducible apply State.tileAccess_kept
    | with_reducible apply State.fmtCtl_kept
    | with_reducible apply State.stageAt_kept
    | with_reducible apply State.bankWrite_kept
    | with_reducible apply State.skipSelect_kept
    | exact Sub.mono (by decide) hm
    | split

theorem State.tracePort_kept {c : CtxId} {data : DWord} (hm : Sub 0x8008 pq) (hI : s.Kept pq) : (State.tracePort s c data).Kept pq := by
  unfold State.tracePort
  repeat' first
    | with_reducible assumption
    | with_reducible apply State.traceCfg_kept
    | with_reducible apply State.refuseCtx_kept
    | exact Sub.mono (by decide) hm
    | split

theorem State.portWrite_kept {c : CtxId} {p : Nat} {data : DWord} {rom : Bool} (hm : Sub 0x1FFFFFFE pq) (hI : s.Kept pq) : (State.portWrite s c p data rom).Kept pq := by
  unfold State.portWrite
  repeat' first
    | with_reducible assumption
    | (intro x hx; beta_reduce)
    | with_reducible apply State.ctxPort_kept
    | with_reducible apply State.modCtx_kept
    | with_reducible apply State.ffSet_kept
    | with_reducible apply State.ffClear_kept
    | with_reducible apply State.sig0_kept
    | with_reducible apply State.sig1_kept
    | with_reducible apply State.cmpRoute_kept
    | with_reducible apply State.decSubmit_kept
    | with_reducible apply State.stageAt_kept
    | with_reducible apply State.stePort_kept
    | with_reducible apply State.bufRelease_kept
    | with_reducible apply State.chunkMove_kept
    | with_reducible apply State.reconRequest_kept
    | with_reducible apply State.scrubStart_kept
    | with_reducible apply State.nodeWrite_kept
    | with_reducible apply State.coefWrite_kept
    | with_reducible apply State.modeRequest_kept
    | with_reducible apply State.seekRequest_kept
    | with_reducible apply State.tracePort_kept
    | with_reducible apply State.creditRelease_kept
    | with_reducible apply State.refuseCtx_kept
    | with_reducible apply State.hedgeRemove_kept
    | with_reducible apply State.ztbUpdate_kept
    | with_reducible apply State.hqCpl_kept
    | with_reducible apply State.crnAppend_kept
    | with_reducible apply State.evrPost_kept
    | with_reducible apply State.drmWrite_kept
    | with_reducible apply State.busWrite_kept
    | with_reducible apply State.streamWrite_kept
    | exact Sub.mono (by decide) hm
    | split

theorem State.answered_kept {c : CtxId} {f : State → State × Option DWord} (hf : ∀ s, State.Kept pq s → (f s).1.Kept pq) (hm : Sub 0x8 pq) (hI : s.Kept pq) : (State.answered s c f).1.Kept pq := by
  unfold State.answered
  repeat' first
    | with_reducible assumption
    | (extract_lets +onlyGivenNames s1; refine State.Kept.cut (s := s1) (p := pq) ?_ (fun _ => ?_); rotate_left; clear_value s1; rotate_left; dsimp -zeta only [s1]; clear s1)
    | (extract_lets +onlyGivenNames x1; clear_value x1)
    | with_reducible apply State.modCtx_kept
    | with_reducible apply hf
    | with_reducible refine State.Kept.fst (by assumption) ?_
    | split

theorem State.serve_kept {c : CtxId} {kind : Nat} {port : Nat} {f : State → State × Option DWord} (hf : ∀ s, State.Kept pq s → (f s).1.Kept pq) (hm : Sub 0x8 pq) (hI : s.Kept pq) : (State.serve s c kind port f).1.Kept pq := by
  unfold State.serve
  repeat' first
    | with_reducible assumption
    | (extract_lets +onlyGivenNames x1; clear_value x1)
    | with_reducible apply State.refuseCtx_kept
    | with_reducible apply State.answered_kept
    | with_reducible apply State.modCtx_kept
    | split

theorem State.xferRead_kept {c : CtxId} {p : Nat} {rom : Bool} (hm : Sub 0x704637E pq) (hI : s.Kept pq) : (State.xferRead s c p rom).1.Kept pq := by
  unfold State.xferRead
  repeat' first
    | with_reducible assumption
    | (intro x hx; beta_reduce)
    | with_reducible apply State.refuseCtx_kept
    | with_reducible apply State.serve_kept
    | with_reducible apply State.portRead_kept
    | with_reducible apply State.answered_kept
    | exact Sub.mono (by decide) hm
    | split

theorem State.xferWrite_kept {c : CtxId} {p : Nat} {data : DWord} {rom : Bool} (hm : Sub 0x1FFFFFFE pq) (hI : s.Kept pq) : (State.xferWrite s c p data rom).Kept pq := by
  unfold State.xferWrite
  repeat' first
    | with_reducible assumption
    | (intro x hx; beta_reduce)
    | with_reducible apply State.refuseCtx_kept
    | with_reducible apply State.serve_kept
    | with_reducible apply State.portWrite_kept
    | exact Sub.mono (by decide) hm
    | split

theorem State.refuseAng_kept {c : CtxId} {reason : Nat} (hm : Sub 0xA pq) (hI : s.Kept pq) : (State.refuseAng s c reason).Kept pq := by
  unfold State.refuseAng
  repeat' first
    | with_reducible assumption
    | with_reducible apply State.refuseCtx_kept
    | with_reducible apply State.freeNext_kept
    | exact Sub.mono (by decide) hm

theorem State.arm_kept {c : CtxId} {n : Nat} (hm : Sub 0x1A pq) (hI : s.Kept pq) : (State.arm s c n).Kept pq := by
  unfold State.arm
  repeat' first
    | with_reducible assumption
    | with_reducible apply State.modAng_kept
    | with_reducible apply State.refuseAng_kept
    | exact Sub.mono (by decide) hm
    | split

theorem State.disarm_kept {c : CtxId} {n : Nat} (hm : Sub 0x1A pq) (hI : s.Kept pq) : (State.disarm s c n).Kept pq := by
  unfold State.disarm
  repeat' first
    | with_reducible assumption
    | with_reducible apply State.modAng_kept
    | with_reducible apply State.refuseAng_kept
    | exact Sub.mono (by decide) hm
    | split

theorem State.aeqAccess_kept {c : CtxId} {t : Quad} {f : State → State} (hf : ∀ s, State.Kept pq s → (f s).Kept pq) (hm : Sub 0x20E pq) (hI : s.Kept pq) : (State.aeqAccess s c t f).Kept pq := by
  unfold State.aeqAccess
  repeat' first
    | with_reducible assumption
    | with_reducible apply State.refuseAng_kept
    | with_reducible apply State.refuseTile_kept
    | with_reducible apply State.freeNext_kept
    | with_reducible apply hf
    | exact Sub.mono (by decide) hm
    | split

theorem State.post_kept {c : CtxId} {t : Quad} (hm : Sub 0x22E pq) (hI : s.Kept pq) : (State.post s c t).Kept pq := by
  unfold State.post
  repeat' first
    | with_reducible assumption
    | (intro x hx; beta_reduce)
    | with_reducible apply State.aeqAccess_kept
    | with_reducible apply State.refuseAng_kept
    | with_reducible apply State.modTile_kept
    | exact Sub.mono (by decide) hm
    | split

theorem State.flush_kept {c : CtxId} {t : Quad} (hm : Sub 0x27E pq) (hI : s.Kept pq) : (State.flush s c t).Kept pq := by
  unfold State.flush
  repeat' first
    | with_reducible assumption
    | (intro x hx; beta_reduce)
    | with_reducible apply State.aeqAccess_kept
    | with_reducible apply State.flushAeq_kept
    | exact Sub.mono (by decide) hm

theorem State.angRead_kept {c : CtxId} {src : Nat} (hm : Sub 0xA pq) (hI : s.Kept pq) : (State.angRead s c src).Kept pq := by
  unfold State.angRead
  repeat' first
    | with_reducible assumption
    | (extract_lets +onlyGivenNames x1; clear_value x1)
    | with_reducible apply State.stageAt_kept
    | with_reducible apply State.refuseAng_kept
    | exact Sub.mono (by decide) hm
    | split

theorem State.angOp_kept {c : CtxId} {op : Nat} {sel : Nat} (hm : Sub 0x27E pq) (hI : s.Kept pq) : (State.angOp s c op sel).Kept pq := by
  unfold State.angOp
  repeat' first
    | with_reducible assumption
    | (intro x hx; beta_reduce)
    | with_reducible apply State.arm_kept
    | with_reducible apply State.disarm_kept
    | with_reducible apply State.serve_kept
    | with_reducible apply State.post_kept
    | with_reducible apply State.angRead_kept
    | with_reducible apply State.flush_kept
    | exact Sub.mono (by decide) hm
    | split

theorem execSig0_kept {c : CtxId} {data : DWord} (hm : Sub 0x8 pq) (hI : s.Kept pq) : ∃ s1, execSig0 c data s = .next s1 ∧ s1.Kept pq := by
  unfold execSig0
  refine ⟨_, rfl, ?_⟩
  repeat' first
    | with_reducible assumption
    | (intro x hx; beta_reduce)
    | with_reducible apply State.byCtx_kept
    | with_reducible apply State.sig0_kept

theorem execSig1_kept {c : CtxId} {data : DWord} (hm : Sub 0x8 pq) (hI : s.Kept pq) : ∃ s1, execSig1 c data s = .next s1 ∧ s1.Kept pq := by
  unfold execSig1
  refine ⟨_, rfl, ?_⟩
  repeat' first
    | with_reducible assumption
    | (intro x hx; beta_reduce)
    | with_reducible apply State.byCtx_kept
    | with_reducible apply State.sig1_kept

theorem execFfSet_kept {c : CtxId} {data : DWord} (hm : Sub 0x8 pq) (hI : s.Kept pq) : ∃ s1, execFfSet c data s = .next s1 ∧ s1.Kept pq := by
  unfold execFfSet
  refine ⟨_, rfl, ?_⟩
  repeat' first
    | with_reducible assumption
    | (intro x hx; beta_reduce)
    | with_reducible apply State.byCtx_kept
    | with_reducible apply State.ffSet_kept

theorem execFfClear_kept {c : CtxId} {data : DWord} (hm : Sub 0x8 pq) (hI : s.Kept pq) : ∃ s1, execFfClear c data s = .next s1 ∧ s1.Kept pq := by
  unfold execFfClear
  refine ⟨_, rfl, ?_⟩
  repeat' first
    | with_reducible assumption
    | (intro x hx; beta_reduce)
    | with_reducible apply State.byCtx_kept
    | with_reducible apply State.ffClear_kept

theorem execEventAck_kept {c : CtxId} {data : DWord} (hm : Sub 0x8 pq) (hI : s.Kept pq) : ∃ s1, execEventAck c data s = .next s1 ∧ s1.Kept pq := by
  unfold execEventAck
  refine ⟨_, rfl, ?_⟩
  repeat' first
    | with_reducible assumption
    | (intro x hx; beta_reduce)
    | with_reducible apply State.byCtx_kept
    | with_reducible apply State.modCtx_kept

theorem execArm_kept {c : CtxId} {n : BitVec 5} (hm : Sub 0x1A pq) (hI : s.Kept pq) : ∃ s1, execArm c n s = .next s1 ∧ s1.Kept pq := by
  unfold execArm
  refine ⟨_, rfl, ?_⟩
  repeat' first
    | with_reducible assumption
    | (intro x hx; beta_reduce)
    | with_reducible apply State.byCtx_kept
    | with_reducible apply State.arm_kept

theorem execDisarm_kept {c : CtxId} {n : BitVec 5} (hm : Sub 0x1A pq) (hI : s.Kept pq) : ∃ s1, execDisarm c n s = .next s1 ∧ s1.Kept pq := by
  unfold execDisarm
  refine ⟨_, rfl, ?_⟩
  repeat' first
    | with_reducible assumption
    | (intro x hx; beta_reduce)
    | with_reducible apply State.byCtx_kept
    | with_reducible apply State.disarm_kept

theorem execPost_kept {c : CtxId} {t : Quad} (hm : Sub 0x22E pq) (hI : s.Kept pq) : ∃ s1, execPost c t s = .next s1 ∧ s1.Kept pq := by
  unfold execPost
  refine ⟨_, rfl, ?_⟩
  repeat' first
    | with_reducible assumption
    | (intro x hx; beta_reduce)
    | with_reducible apply State.byCtx_kept
    | with_reducible apply State.post_kept

theorem execAngRead_kept {c : CtxId} {src : BitVec 3} (hm : Sub 0xA pq) (hI : s.Kept pq) : ∃ s1, execAngRead c src s = .next s1 ∧ s1.Kept pq := by
  unfold execAngRead
  refine ⟨_, rfl, ?_⟩
  repeat' first
    | with_reducible assumption
    | (intro x hx; beta_reduce)
    | with_reducible apply State.byCtx_kept
    | with_reducible apply State.angRead_kept

theorem execAeqFlush_kept {c : CtxId} {t : Quad} (hm : Sub 0x27E pq) (hI : s.Kept pq) : ∃ s1, execAeqFlush c t s = .next s1 ∧ s1.Kept pq := by
  unfold execAeqFlush
  refine ⟨_, rfl, ?_⟩
  repeat' first
    | with_reducible assumption
    | (intro x hx; beta_reduce)
    | with_reducible apply State.byCtx_kept
    | with_reducible apply State.flush_kept

theorem execWaitRelease_kept {c : CtxId} (hm : Sub 0x8 pq) (hI : s.Kept pq) : ∃ s1, execWaitRelease c s = .next s1 ∧ s1.Kept pq := by
  unfold execWaitRelease
  refine ⟨_, rfl, ?_⟩
  repeat' first
    | with_reducible assumption
    | (intro x hx; beta_reduce)
    | with_reducible apply State.byCtx_kept
    | with_reducible apply State.modCtx_kept
    | split

end Sys2Proof.Machine
end

