-- ==== Sys2Proof/Laws/KeptWords.lean ====
section
/-!
SUPPORT. The operations of Machine/Words.lean keep what they do not write.
-/
set_option Elab.async false
set_option linter.unusedTactic false
set_option linter.unreachableTactic false
namespace Sys2Proof.Machine

variable {pq : Nat × State} {s : State}

theorem State.startWait_kept {c : CtxId} {w : MicroWord} {fl : Flags} {pc : CsAddr} {nxt : CsAddr} (hm : Sub 0x8 pq) (hI : s.Kept pq) : (State.startWait s c w fl pc nxt).Kept pq := by
  unfold State.startWait
  repeat' first
    | with_reducible assumption
    | (extract_lets +onlyGivenNames x1; clear_value x1)
    | with_reducible apply State.modCtx_kept

theorem State.wordParts_kept {c : CtxId} {w : MicroWord} {x : Ctx} (hm : Sub 0x1FFFFFFE pq) (hI : s.Kept pq) : (State.wordParts s c w x).1.Kept pq := by
  unfold State.wordParts
  repeat' first
    | with_reducible assumption
    | (extract_lets +onlyGivenNames s1; refine State.Kept.cut (s := s1) (p := pq) ?_ (fun _ => ?_); rotate_left; clear_value s1; rotate_left; dsimp -zeta only [s1]; clear s1)
    | (extract_lets +onlyGivenNames x1; clear_value x1)
    | with_reducible apply State.angOp_kept
    | with_reducible apply State.xferRead_kept
    | with_reducible apply State.xferWrite_kept
    | with_reducible apply State.modCtx_kept
    | with_reducible refine State.Kept.fst (by assumption) ?_
    | exact Sub.mono (by decide) hm
    | split

theorem State.wordCommit_kept {c : CtxId} {w : MicroWord} {got : Option DWord} {pc : CsAddr} {restart : CsAddr} (hm : Sub 0x343C37E pq) (hI : s.Kept pq) : (State.wordCommit s c w got pc restart).Kept pq := by
  unfold State.wordCommit
  repeat' first
    | with_reducible assumption
    | (extract_lets +onlyGivenNames x1; clear_value x1)
    | with_reducible apply State.modCtx_kept
    | with_reducible apply State.commit_kept
    | exact Sub.mono (by decide) hm
    | split

theorem State.wordEnd_kept {c : CtxId} {w : MicroWord} {pc : CsAddr} (hm : Sub 0x10000008 pq) (hI : s.Kept pq) : (State.wordEnd s c w pc).Kept pq := by
  unfold State.wordEnd
  repeat' first
    | with_reducible assumption
    | (extract_lets +onlyGivenNames s1; refine State.Kept.cut (s := s1) (p := pq) ?_ (fun _ => ?_); rotate_left; clear_value s1; rotate_left; dsimp -zeta only [s1]; clear s1)
    | with_reducible apply State.modCtx_kept
    | with_reducible apply State.modPins_kept
    | exact Sub.mono (by decide) hm
    | split

theorem State.runWord_kept {c : CtxId} {w : MicroWord} (hm : Sub 0x1FFFFFFE pq) (hI : s.Kept pq) : (State.runWord s c w).Kept pq := by
  unfold State.runWord
  repeat' first
    | with_reducible assumption
    | (extract_lets +onlyGivenNames s1; refine State.Kept.cut (s := s1) (p := pq) ?_ (fun _ => ?_); rotate_left; clear_value s1; rotate_left; dsimp -zeta only [s1]; clear s1)
    | (extract_lets +onlyGivenNames x1; clear_value x1)
    | with_reducible apply State.wordParts_kept
    | with_reducible apply State.modCtx_kept
    | with_reducible apply State.wordCommit_kept
    | with_reducible apply State.startWait_kept
    | with_reducible apply State.wordEnd_kept
    | with_reducible apply State.setCtx_kept
    | with_reducible refine State.Kept.fst (by assumption) ?_
    | exact Sub.mono (by decide) hm
    | split

theorem State.issue_kept {c : CtxId} {w : MicroWord} {ce : Bool} (hm : Sub 0x1FFFFFFE pq) (hI : s.Kept pq) : (State.issue s c w ce).Kept pq := by
  unfold State.issue
  repeat' first
    | with_reducible assumption
    | (extract_lets +onlyGivenNames s1; refine State.Kept.cut (s := s1) (p := pq) ?_ (fun _ => ?_); rotate_left; clear_value s1; rotate_left; dsimp -zeta only [s1]; clear s1)
    | (extract_lets +onlyGivenNames x1; clear_value x1)
    | with_reducible apply State.fetchCe_kept
    | with_reducible apply State.ctxFault_kept
    | with_reducible apply State.modCtx_kept
    | with_reducible apply State.runWord_kept
    | exact Sub.mono (by decide) hm
    | split

theorem State.seqRow_kept {c : CtxId} {w : MicroWord} {ce : Bool} {seq : Nat → Bool} (hm : Sub 0x1FFFFFFE pq) (hI : s.Kept pq) : (State.seqRow s c w ce seq).Kept pq := by
  unfold State.seqRow
  repeat' first
    | with_reducible assumption
    | with_reducible apply State.issue_kept
    | split

theorem execNext_kept {c : CtxId} {w : MicroWord} {ce : Bool} (hm : Sub 0x1FFFFFFE pq) (hI : s.Kept pq) : ∃ s1, execNext c w ce s = .next s1 ∧ s1.Kept pq := by
  unfold execNext
  refine ⟨_, rfl, ?_⟩
  repeat' first
    | with_reducible assumption
    | with_reducible apply State.seqRow_kept

theorem execJump_kept {c : CtxId} {w : MicroWord} {ce : Bool} (hm : Sub 0x1FFFFFFE pq) (hI : s.Kept pq) : ∃ s1, execJump c w ce s = .next s1 ∧ s1.Kept pq := by
  unfold execJump
  refine ⟨_, rfl, ?_⟩
  repeat' first
    | with_reducible assumption
    | with_reducible apply State.seqRow_kept

theorem execCall_kept {c : CtxId} {w : MicroWord} {ce : Bool} (hm : Sub 0x1FFFFFFE pq) (hI : s.Kept pq) : ∃ s1, execCall c w ce s = .next s1 ∧ s1.Kept pq := by
  unfold execCall
  refine ⟨_, rfl, ?_⟩
  repeat' first
    | with_reducible assumption
    | with_reducible apply State.seqRow_kept

theorem execRet_kept {c : CtxId} {w : MicroWord} {ce : Bool} (hm : Sub 0x1FFFFFFE pq) (hI : s.Kept pq) : ∃ s1, execRet c w ce s = .next s1 ∧ s1.Kept pq := by
  unfold execRet
  refine ⟨_, rfl, ?_⟩
  repeat' first
    | with_reducible assumption
    | with_reducible apply State.seqRow_kept

theorem execBrt_kept {c : CtxId} {w : MicroWord} {ce : Bool} (hm : Sub 0x1FFFFFFE pq) (hI : s.Kept pq) : ∃ s1, execBrt c w ce s = .next s1 ∧ s1.Kept pq := by
  unfold execBrt
  refine ⟨_, rfl, ?_⟩
  repeat' first
    | with_reducible assumption
    | with_reducible apply State.seqRow_kept

theorem execBrf_kept {c : CtxId} {w : MicroWord} {ce : Bool} (hm : Sub 0x1FFFFFFE pq) (hI : s.Kept pq) : ∃ s1, execBrf c w ce s = .next s1 ∧ s1.Kept pq := by
  unfold execBrf
  refine ⟨_, rfl, ?_⟩
  repeat' first
    | with_reducible assumption
    | with_reducible apply State.seqRow_kept

theorem execWait_kept {c : CtxId} {w : MicroWord} {ce : Bool} (hm : Sub 0x1FFFFFFE pq) (hI : s.Kept pq) : ∃ s1, execWait c w ce s = .next s1 ∧ s1.Kept pq := by
  unfold execWait
  refine ⟨_, rfl, ?_⟩
  repeat' first
    | with_reducible assumption
    | with_reducible apply State.seqRow_kept

theorem execPoll_kept {c : CtxId} {w : MicroWord} {ce : Bool} (hm : Sub 0x1FFFFFFE pq) (hI : s.Kept pq) : ∃ s1, execPoll c w ce s = .next s1 ∧ s1.Kept pq := by
  unfold execPoll
  refine ⟨_, rfl, ?_⟩
  repeat' first
    | with_reducible assumption
    | with_reducible apply State.seqRow_kept

theorem execDisp_kept {c : CtxId} {w : MicroWord} {ce : Bool} (hm : Sub 0x1FFFFFFE pq) (hI : s.Kept pq) : ∃ s1, execDisp c w ce s = .next s1 ∧ s1.Kept pq := by
  unfold execDisp
  refine ⟨_, rfl, ?_⟩
  repeat' first
    | with_reducible assumption
    | with_reducible apply State.seqRow_kept

theorem execYield_kept {c : CtxId} {w : MicroWord} {ce : Bool} (hm : Sub 0x1FFFFFFE pq) (hI : s.Kept pq) : ∃ s1, execYield c w ce s = .next s1 ∧ s1.Kept pq := by
  unfold execYield
  refine ⟨_, rfl, ?_⟩
  repeat' first
    | with_reducible assumption
    | with_reducible apply State.seqRow_kept

theorem execHalt_kept {c : CtxId} {w : MicroWord} {ce : Bool} (hm : Sub 0x1FFFFFFE pq) (hI : s.Kept pq) : ∃ s1, execHalt c w ce s = .next s1 ∧ s1.Kept pq := by
  unfold execHalt
  refine ⟨_, rfl, ?_⟩
  repeat' first
    | with_reducible assumption
    | with_reducible apply State.seqRow_kept

theorem execLoop_kept {c : CtxId} {w : MicroWord} {ce : Bool} (hm : Sub 0x1FFFFFFE pq) (hI : s.Kept pq) : ∃ s1, execLoop c w ce s = .next s1 ∧ s1.Kept pq := by
  unfold execLoop
  refine ⟨_, rfl, ?_⟩
  repeat' first
    | with_reducible assumption
    | with_reducible apply State.seqRow_kept

theorem execIllseq_kept {c : CtxId} {w : MicroWord} {ce : Bool} (hm : Sub 0x1FFFFFFE pq) (hI : s.Kept pq) : ∃ s1, execIllseq c w ce s = .next s1 ∧ s1.Kept pq := by
  unfold execIllseq
  refine ⟨_, rfl, ?_⟩
  repeat' first
    | with_reducible assumption
    | with_reducible apply State.seqRow_kept

theorem execSpurStep_kept {c : CtxId} {w : MicroWord} {ce : Bool} (hm : Sub 0x1FFFFFFE pq) (hI : s.Kept pq) : ∃ s1, execSpurStep c w ce s = .next s1 ∧ s1.Kept pq := by
  unfold execSpurStep
  refine ⟨_, rfl, ?_⟩
  repeat' first
    | with_reducible assumption
    | (extract_lets +onlyGivenNames x1; clear_value x1)
    | (intro x hx; beta_reduce)
    | with_reducible apply State.byCtx_kept
    | with_reducible apply State.modCtx_kept
    | with_reducible apply State.issue_kept
    | with_reducible apply State.spuInt_kept
    | exact Sub.mono (by decide) hm
    | split

end Sys2Proof.Machine
end

