-- ==== Sys2Proof/Laws/State.lean ====
section
/-!
SUPPORT. State: what each update does to each field, the general registers (R20), contexts, registers and fields.
-/
set_option Elab.async false
namespace Sys2Proof.Machine

variable (s : State)

/-! ### setReg -/

@[simp] theorem State.setReg_pending (k : Nat) (v : Word) : (s.setReg k v).pending = s.pending := rfl
@[simp] theorem State.setReg_freeCtr (k : Nat) (v : Word) : (s.setReg k v).freeCtr = s.freeCtr := rfl
@[simp] theorem State.setReg_regs (k : Nat) (v : Word) : (s.setReg k v).regs = sput regInit s.regs k v := rfl
@[simp] theorem State.setReg_core (k : Nat) (v : Word) : (s.setReg k v).core = s.core := rfl
@[simp] theorem State.setReg_ang (k : Nat) (v : Word) : (s.setReg k v).ang = s.ang := rfl
@[simp] theorem State.setReg_tile (k : Nat) (v : Word) : (s.setReg k v).tile = s.tile := rfl
@[simp] theorem State.setReg_dec (k : Nat) (v : Word) : (s.setReg k v).dec = s.dec := rfl
@[simp] theorem State.setReg_link (k : Nat) (v : Word) : (s.setReg k v).link = s.link := rfl
@[simp] theorem State.setReg_rlg (k : Nat) (v : Word) : (s.setReg k v).rlg = s.rlg := rfl
@[simp] theorem State.setReg_evr (k : Nat) (v : Word) : (s.setReg k v).evr = s.evr := rfl
@[simp] theorem State.setReg_cry (k : Nat) (v : Word) : (s.setReg k v).cry = s.cry := rfl
@[simp] theorem State.setReg_rcp (k : Nat) (v : Word) : (s.setReg k v).rcp = s.rcp := rfl
@[simp] theorem State.setReg_fus (k : Nat) (v : Word) : (s.setReg k v).fus = s.fus := rfl
@[simp] theorem State.setReg_mem (k : Nat) (v : Word) : (s.setReg k v).mem = s.mem := rfl
@[simp] theorem State.setReg_dram (k : Nat) (v : Word) : (s.setReg k v).dram = s.dram := rfl
@[simp] theorem State.setReg_cen (k : Nat) (v : Word) : (s.setReg k v).cen = s.cen := rfl
@[simp] theorem State.setReg_mtr (k : Nat) (v : Word) : (s.setReg k v).mtr = s.mtr := rfl
@[simp] theorem State.setReg_mon (k : Nat) (v : Word) : (s.setReg k v).mon = s.mon := rfl
@[simp] theorem State.setReg_ste (k : Nat) (v : Word) : (s.setReg k v).ste = s.ste := rfl
@[simp] theorem State.setReg_ztb (k : Nat) (v : Word) : (s.setReg k v).ztb = s.ztb := rfl
@[simp] theorem State.setReg_member (k : Nat) (v : Word) : (s.setReg k v).member = s.member := rfl
@[simp] theorem State.setReg_redun (k : Nat) (v : Word) : (s.setReg k v).redun = s.redun := rfl
@[simp] theorem State.setReg_crn (k : Nat) (v : Word) : (s.setReg k v).crn = s.crn := rfl
@[simp] theorem State.setReg_win (k : Nat) (v : Word) : (s.setReg k v).win = s.win := rfl
@[simp] theorem State.setReg_nve (k : Nat) (v : Word) : (s.setReg k v).nve = s.nve := rfl
@[simp] theorem State.setReg_hdg (k : Nat) (v : Word) : (s.setReg k v).hdg = s.hdg := rfl
@[simp] theorem State.setReg_hpt (k : Nat) (v : Word) : (s.setReg k v).hpt = s.hpt := rfl
@[simp] theorem State.setReg_mgmt (k : Nat) (v : Word) : (s.setReg k v).mgmt = s.mgmt := rfl
@[simp] theorem State.setReg_pins (k : Nat) (v : Word) : (s.setReg k v).pins = s.pins := rfl

/-! ### keepRegs -/

@[simp] theorem State.keepRegs_pending (p : Nat × Word → Bool) : (s.keepRegs p).pending = s.pending := rfl
@[simp] theorem State.keepRegs_freeCtr (p : Nat × Word → Bool) : (s.keepRegs p).freeCtr = s.freeCtr := rfl
@[simp] theorem State.keepRegs_regs (p : Nat × Word → Bool) : (s.keepRegs p).regs = s.regs.filter p := rfl
@[simp] theorem State.keepRegs_core (p : Nat × Word → Bool) : (s.keepRegs p).core = s.core := rfl
@[simp] theorem State.keepRegs_ang (p : Nat × Word → Bool) : (s.keepRegs p).ang = s.ang := rfl
@[simp] theorem State.keepRegs_tile (p : Nat × Word → Bool) : (s.keepRegs p).tile = s.tile := rfl
@[simp] theorem State.keepRegs_dec (p : Nat × Word → Bool) : (s.keepRegs p).dec = s.dec := rfl
@[simp] theorem State.keepRegs_link (p : Nat × Word → Bool) : (s.keepRegs p).link = s.link := rfl
@[simp] theorem State.keepRegs_rlg (p : Nat × Word → Bool) : (s.keepRegs p).rlg = s.rlg := rfl
@[simp] theorem State.keepRegs_evr (p : Nat × Word → Bool) : (s.keepRegs p).evr = s.evr := rfl
@[simp] theorem State.keepRegs_cry (p : Nat × Word → Bool) : (s.keepRegs p).cry = s.cry := rfl
@[simp] theorem State.keepRegs_rcp (p : Nat × Word → Bool) : (s.keepRegs p).rcp = s.rcp := rfl
@[simp] theorem State.keepRegs_fus (p : Nat × Word → Bool) : (s.keepRegs p).fus = s.fus := rfl
@[simp] theorem State.keepRegs_mem (p : Nat × Word → Bool) : (s.keepRegs p).mem = s.mem := rfl
@[simp] theorem State.keepRegs_dram (p : Nat × Word → Bool) : (s.keepRegs p).dram = s.dram := rfl
@[simp] theorem State.keepRegs_cen (p : Nat × Word → Bool) : (s.keepRegs p).cen = s.cen := rfl
@[simp] theorem State.keepRegs_mtr (p : Nat × Word → Bool) : (s.keepRegs p).mtr = s.mtr := rfl
@[simp] theorem State.keepRegs_mon (p : Nat × Word → Bool) : (s.keepRegs p).mon = s.mon := rfl
@[simp] theorem State.keepRegs_ste (p : Nat × Word → Bool) : (s.keepRegs p).ste = s.ste := rfl
@[simp] theorem State.keepRegs_ztb (p : Nat × Word → Bool) : (s.keepRegs p).ztb = s.ztb := rfl
@[simp] theorem State.keepRegs_member (p : Nat × Word → Bool) : (s.keepRegs p).member = s.member := rfl
@[simp] theorem State.keepRegs_redun (p : Nat × Word → Bool) : (s.keepRegs p).redun = s.redun := rfl
@[simp] theorem State.keepRegs_crn (p : Nat × Word → Bool) : (s.keepRegs p).crn = s.crn := rfl
@[simp] theorem State.keepRegs_win (p : Nat × Word → Bool) : (s.keepRegs p).win = s.win := rfl
@[simp] theorem State.keepRegs_nve (p : Nat × Word → Bool) : (s.keepRegs p).nve = s.nve := rfl
@[simp] theorem State.keepRegs_hdg (p : Nat × Word → Bool) : (s.keepRegs p).hdg = s.hdg := rfl
@[simp] theorem State.keepRegs_hpt (p : Nat × Word → Bool) : (s.keepRegs p).hpt = s.hpt := rfl
@[simp] theorem State.keepRegs_mgmt (p : Nat × Word → Bool) : (s.keepRegs p).mgmt = s.mgmt := rfl
@[simp] theorem State.keepRegs_pins (p : Nat × Word → Bool) : (s.keepRegs p).pins = s.pins := rfl

/-! ### modReg -/

@[simp] theorem State.modReg_pending (k : Nat) (f : Word → Word) : (s.modReg k f).pending = s.pending := rfl
@[simp] theorem State.modReg_freeCtr (k : Nat) (f : Word → Word) : (s.modReg k f).freeCtr = s.freeCtr := rfl
@[simp] theorem State.modReg_regs (k : Nat) (f : Word → Word) : (s.modReg k f).regs = sput regInit s.regs k (f (s.reg k)) := rfl
@[simp] theorem State.modReg_core (k : Nat) (f : Word → Word) : (s.modReg k f).core = s.core := rfl
@[simp] theorem State.modReg_ang (k : Nat) (f : Word → Word) : (s.modReg k f).ang = s.ang := rfl
@[simp] theorem State.modReg_tile (k : Nat) (f : Word → Word) : (s.modReg k f).tile = s.tile := rfl
@[simp] theorem State.modReg_dec (k : Nat) (f : Word → Word) : (s.modReg k f).dec = s.dec := rfl
@[simp] theorem State.modReg_link (k : Nat) (f : Word → Word) : (s.modReg k f).link = s.link := rfl
@[simp] theorem State.modReg_rlg (k : Nat) (f : Word → Word) : (s.modReg k f).rlg = s.rlg := rfl
@[simp] theorem State.modReg_evr (k : Nat) (f : Word → Word) : (s.modReg k f).evr = s.evr := rfl
@[simp] theorem State.modReg_cry (k : Nat) (f : Word → Word) : (s.modReg k f).cry = s.cry := rfl
@[simp] theorem State.modReg_rcp (k : Nat) (f : Word → Word) : (s.modReg k f).rcp = s.rcp := rfl
@[simp] theorem State.modReg_fus (k : Nat) (f : Word → Word) : (s.modReg k f).fus = s.fus := rfl
@[simp] theorem State.modReg_mem (k : Nat) (f : Word → Word) : (s.modReg k f).mem = s.mem := rfl
@[simp] theorem State.modReg_dram (k : Nat) (f : Word → Word) : (s.modReg k f).dram = s.dram := rfl
@[simp] theorem State.modReg_cen (k : Nat) (f : Word → Word) : (s.modReg k f).cen = s.cen := rfl
@[simp] theorem State.modReg_mtr (k : Nat) (f : Word → Word) : (s.modReg k f).mtr = s.mtr := rfl
@[simp] theorem State.modReg_mon (k : Nat) (f : Word → Word) : (s.modReg k f).mon = s.mon := rfl
@[simp] theorem State.modReg_ste (k : Nat) (f : Word → Word) : (s.modReg k f).ste = s.ste := rfl
@[simp] theorem State.modReg_ztb (k : Nat) (f : Word → Word) : (s.modReg k f).ztb = s.ztb := rfl
@[simp] theorem State.modReg_member (k : Nat) (f : Word → Word) : (s.modReg k f).member = s.member := rfl
@[simp] theorem State.modReg_redun (k : Nat) (f : Word → Word) : (s.modReg k f).redun = s.redun := rfl
@[simp] theorem State.modReg_crn (k : Nat) (f : Word → Word) : (s.modReg k f).crn = s.crn := rfl
@[simp] theorem State.modReg_win (k : Nat) (f : Word → Word) : (s.modReg k f).win = s.win := rfl
@[simp] theorem State.modReg_nve (k : Nat) (f : Word → Word) : (s.modReg k f).nve = s.nve := rfl
@[simp] theorem State.modReg_hdg (k : Nat) (f : Word → Word) : (s.modReg k f).hdg = s.hdg := rfl
@[simp] theorem State.modReg_hpt (k : Nat) (f : Word → Word) : (s.modReg k f).hpt = s.hpt := rfl
@[simp] theorem State.modReg_mgmt (k : Nat) (f : Word → Word) : (s.modReg k f).mgmt = s.mgmt := rfl
@[simp] theorem State.modReg_pins (k : Nat) (f : Word → Word) : (s.modReg k f).pins = s.pins := rfl

/-! ### modCore -/

@[simp] theorem State.modCore_pending (r : Side) (f : Core → Core) : (s.modCore r f).pending = s.pending := rfl
@[simp] theorem State.modCore_freeCtr (r : Side) (f : Core → Core) : (s.modCore r f).freeCtr = s.freeCtr := rfl
@[simp] theorem State.modCore_regs (r : Side) (f : Core → Core) : (s.modCore r f).regs = s.regs := rfl
@[simp] theorem State.modCore_core (r : Side) (f : Core → Core) : (s.modCore r f).core = s.core.set r (f (s.core.get r)) := rfl
@[simp] theorem State.modCore_ang (r : Side) (f : Core → Core) : (s.modCore r f).ang = s.ang := rfl
@[simp] theorem State.modCore_tile (r : Side) (f : Core → Core) : (s.modCore r f).tile = s.tile := rfl
@[simp] theorem State.modCore_dec (r : Side) (f : Core → Core) : (s.modCore r f).dec = s.dec := rfl
@[simp] theorem State.modCore_link (r : Side) (f : Core → Core) : (s.modCore r f).link = s.link := rfl
@[simp] theorem State.modCore_rlg (r : Side) (f : Core → Core) : (s.modCore r f).rlg = s.rlg := rfl
@[simp] theorem State.modCore_evr (r : Side) (f : Core → Core) : (s.modCore r f).evr = s.evr := rfl
@[simp] theorem State.modCore_cry (r : Side) (f : Core → Core) : (s.modCore r f).cry = s.cry := rfl
@[simp] theorem State.modCore_rcp (r : Side) (f : Core → Core) : (s.modCore r f).rcp = s.rcp := rfl
@[simp] theorem State.modCore_fus (r : Side) (f : Core → Core) : (s.modCore r f).fus = s.fus := rfl
@[simp] theorem State.modCore_mem (r : Side) (f : Core → Core) : (s.modCore r f).mem = s.mem := rfl
@[simp] theorem State.modCore_dram (r : Side) (f : Core → Core) : (s.modCore r f).dram = s.dram := rfl
@[simp] theorem State.modCore_cen (r : Side) (f : Core → Core) : (s.modCore r f).cen = s.cen := rfl
@[simp] theorem State.modCore_mtr (r : Side) (f : Core → Core) : (s.modCore r f).mtr = s.mtr := rfl
@[simp] theorem State.modCore_mon (r : Side) (f : Core → Core) : (s.modCore r f).mon = s.mon := rfl
@[simp] theorem State.modCore_ste (r : Side) (f : Core → Core) : (s.modCore r f).ste = s.ste := rfl
@[simp] theorem State.modCore_ztb (r : Side) (f : Core → Core) : (s.modCore r f).ztb = s.ztb := rfl
@[simp] theorem State.modCore_member (r : Side) (f : Core → Core) : (s.modCore r f).member = s.member := rfl
@[simp] theorem State.modCore_redun (r : Side) (f : Core → Core) : (s.modCore r f).redun = s.redun := rfl
@[simp] theorem State.modCore_crn (r : Side) (f : Core → Core) : (s.modCore r f).crn = s.crn := rfl
@[simp] theorem State.modCore_win (r : Side) (f : Core → Core) : (s.modCore r f).win = s.win := rfl
@[simp] theorem State.modCore_nve (r : Side) (f : Core → Core) : (s.modCore r f).nve = s.nve := rfl
@[simp] theorem State.modCore_hdg (r : Side) (f : Core → Core) : (s.modCore r f).hdg = s.hdg := rfl
@[simp] theorem State.modCore_hpt (r : Side) (f : Core → Core) : (s.modCore r f).hpt = s.hpt := rfl
@[simp] theorem State.modCore_mgmt (r : Side) (f : Core → Core) : (s.modCore r f).mgmt = s.mgmt := rfl
@[simp] theorem State.modCore_pins (r : Side) (f : Core → Core) : (s.modCore r f).pins = s.pins := rfl

/-! ### modAng -/

@[simp] theorem State.modAng_pending (r : Side) (f : Ang → Ang) : (s.modAng r f).pending = s.pending := rfl
@[simp] theorem State.modAng_freeCtr (r : Side) (f : Ang → Ang) : (s.modAng r f).freeCtr = s.freeCtr := rfl
@[simp] theorem State.modAng_regs (r : Side) (f : Ang → Ang) : (s.modAng r f).regs = s.regs := rfl
@[simp] theorem State.modAng_core (r : Side) (f : Ang → Ang) : (s.modAng r f).core = s.core := rfl
@[simp] theorem State.modAng_ang (r : Side) (f : Ang → Ang) : (s.modAng r f).ang = s.ang.set r (f (s.ang.get r)) := rfl
@[simp] theorem State.modAng_tile (r : Side) (f : Ang → Ang) : (s.modAng r f).tile = s.tile := rfl
@[simp] theorem State.modAng_dec (r : Side) (f : Ang → Ang) : (s.modAng r f).dec = s.dec := rfl
@[simp] theorem State.modAng_link (r : Side) (f : Ang → Ang) : (s.modAng r f).link = s.link := rfl
@[simp] theorem State.modAng_rlg (r : Side) (f : Ang → Ang) : (s.modAng r f).rlg = s.rlg := rfl
@[simp] theorem State.modAng_evr (r : Side) (f : Ang → Ang) : (s.modAng r f).evr = s.evr := rfl
@[simp] theorem State.modAng_cry (r : Side) (f : Ang → Ang) : (s.modAng r f).cry = s.cry := rfl
@[simp] theorem State.modAng_rcp (r : Side) (f : Ang → Ang) : (s.modAng r f).rcp = s.rcp := rfl
@[simp] theorem State.modAng_fus (r : Side) (f : Ang → Ang) : (s.modAng r f).fus = s.fus := rfl
@[simp] theorem State.modAng_mem (r : Side) (f : Ang → Ang) : (s.modAng r f).mem = s.mem := rfl
@[simp] theorem State.modAng_dram (r : Side) (f : Ang → Ang) : (s.modAng r f).dram = s.dram := rfl
@[simp] theorem State.modAng_cen (r : Side) (f : Ang → Ang) : (s.modAng r f).cen = s.cen := rfl
@[simp] theorem State.modAng_mtr (r : Side) (f : Ang → Ang) : (s.modAng r f).mtr = s.mtr := rfl
@[simp] theorem State.modAng_mon (r : Side) (f : Ang → Ang) : (s.modAng r f).mon = s.mon := rfl
@[simp] theorem State.modAng_ste (r : Side) (f : Ang → Ang) : (s.modAng r f).ste = s.ste := rfl
@[simp] theorem State.modAng_ztb (r : Side) (f : Ang → Ang) : (s.modAng r f).ztb = s.ztb := rfl
@[simp] theorem State.modAng_member (r : Side) (f : Ang → Ang) : (s.modAng r f).member = s.member := rfl
@[simp] theorem State.modAng_redun (r : Side) (f : Ang → Ang) : (s.modAng r f).redun = s.redun := rfl
@[simp] theorem State.modAng_crn (r : Side) (f : Ang → Ang) : (s.modAng r f).crn = s.crn := rfl
@[simp] theorem State.modAng_win (r : Side) (f : Ang → Ang) : (s.modAng r f).win = s.win := rfl
@[simp] theorem State.modAng_nve (r : Side) (f : Ang → Ang) : (s.modAng r f).nve = s.nve := rfl
@[simp] theorem State.modAng_hdg (r : Side) (f : Ang → Ang) : (s.modAng r f).hdg = s.hdg := rfl
@[simp] theorem State.modAng_hpt (r : Side) (f : Ang → Ang) : (s.modAng r f).hpt = s.hpt := rfl
@[simp] theorem State.modAng_mgmt (r : Side) (f : Ang → Ang) : (s.modAng r f).mgmt = s.mgmt := rfl
@[simp] theorem State.modAng_pins (r : Side) (f : Ang → Ang) : (s.modAng r f).pins = s.pins := rfl

/-! ### modTile -/

@[simp] theorem State.modTile_pending (r : Quad) (f : Tile → Tile) : (s.modTile r f).pending = s.pending := rfl
@[simp] theorem State.modTile_freeCtr (r : Quad) (f : Tile → Tile) : (s.modTile r f).freeCtr = s.freeCtr := rfl
@[simp] theorem State.modTile_regs (r : Quad) (f : Tile → Tile) : (s.modTile r f).regs = s.regs := rfl
@[simp] theorem State.modTile_core (r : Quad) (f : Tile → Tile) : (s.modTile r f).core = s.core := rfl
@[simp] theorem State.modTile_ang (r : Quad) (f : Tile → Tile) : (s.modTile r f).ang = s.ang := rfl
@[simp] theorem State.modTile_tile (r : Quad) (f : Tile → Tile) : (s.modTile r f).tile = s.tile.set r (f (s.tile.get r)) := rfl
@[simp] theorem State.modTile_dec (r : Quad) (f : Tile → Tile) : (s.modTile r f).dec = s.dec := rfl
@[simp] theorem State.modTile_link (r : Quad) (f : Tile → Tile) : (s.modTile r f).link = s.link := rfl
@[simp] theorem State.modTile_rlg (r : Quad) (f : Tile → Tile) : (s.modTile r f).rlg = s.rlg := rfl
@[simp] theorem State.modTile_evr (r : Quad) (f : Tile → Tile) : (s.modTile r f).evr = s.evr := rfl
@[simp] theorem State.modTile_cry (r : Quad) (f : Tile → Tile) : (s.modTile r f).cry = s.cry := rfl
@[simp] theorem State.modTile_rcp (r : Quad) (f : Tile → Tile) : (s.modTile r f).rcp = s.rcp := rfl
@[simp] theorem State.modTile_fus (r : Quad) (f : Tile → Tile) : (s.modTile r f).fus = s.fus := rfl
@[simp] theorem State.modTile_mem (r : Quad) (f : Tile → Tile) : (s.modTile r f).mem = s.mem := rfl
@[simp] theorem State.modTile_dram (r : Quad) (f : Tile → Tile) : (s.modTile r f).dram = s.dram := rfl
@[simp] theorem State.modTile_cen (r : Quad) (f : Tile → Tile) : (s.modTile r f).cen = s.cen := rfl
@[simp] theorem State.modTile_mtr (r : Quad) (f : Tile → Tile) : (s.modTile r f).mtr = s.mtr := rfl
@[simp] theorem State.modTile_mon (r : Quad) (f : Tile → Tile) : (s.modTile r f).mon = s.mon := rfl
@[simp] theorem State.modTile_ste (r : Quad) (f : Tile → Tile) : (s.modTile r f).ste = s.ste := rfl
@[simp] theorem State.modTile_ztb (r : Quad) (f : Tile → Tile) : (s.modTile r f).ztb = s.ztb := rfl
@[simp] theorem State.modTile_member (r : Quad) (f : Tile → Tile) : (s.modTile r f).member = s.member := rfl
@[simp] theorem State.modTile_redun (r : Quad) (f : Tile → Tile) : (s.modTile r f).redun = s.redun := rfl
@[simp] theorem State.modTile_crn (r : Quad) (f : Tile → Tile) : (s.modTile r f).crn = s.crn := rfl
@[simp] theorem State.modTile_win (r : Quad) (f : Tile → Tile) : (s.modTile r f).win = s.win := rfl
@[simp] theorem State.modTile_nve (r : Quad) (f : Tile → Tile) : (s.modTile r f).nve = s.nve := rfl
@[simp] theorem State.modTile_hdg (r : Quad) (f : Tile → Tile) : (s.modTile r f).hdg = s.hdg := rfl
@[simp] theorem State.modTile_hpt (r : Quad) (f : Tile → Tile) : (s.modTile r f).hpt = s.hpt := rfl
@[simp] theorem State.modTile_mgmt (r : Quad) (f : Tile → Tile) : (s.modTile r f).mgmt = s.mgmt := rfl
@[simp] theorem State.modTile_pins (r : Quad) (f : Tile → Tile) : (s.modTile r f).pins = s.pins := rfl

/-! ### modDec -/

@[simp] theorem State.modDec_pending (r : Side) (f : Dec → Dec) : (s.modDec r f).pending = s.pending := rfl
@[simp] theorem State.modDec_freeCtr (r : Side) (f : Dec → Dec) : (s.modDec r f).freeCtr = s.freeCtr := rfl
@[simp] theorem State.modDec_regs (r : Side) (f : Dec → Dec) : (s.modDec r f).regs = s.regs := rfl
@[simp] theorem State.modDec_core (r : Side) (f : Dec → Dec) : (s.modDec r f).core = s.core := rfl
@[simp] theorem State.modDec_ang (r : Side) (f : Dec → Dec) : (s.modDec r f).ang = s.ang := rfl
@[simp] theorem State.modDec_tile (r : Side) (f : Dec → Dec) : (s.modDec r f).tile = s.tile := rfl
@[simp] theorem State.modDec_dec (r : Side) (f : Dec → Dec) : (s.modDec r f).dec = s.dec.set r (f (s.dec.get r)) := rfl
@[simp] theorem State.modDec_link (r : Side) (f : Dec → Dec) : (s.modDec r f).link = s.link := rfl
@[simp] theorem State.modDec_rlg (r : Side) (f : Dec → Dec) : (s.modDec r f).rlg = s.rlg := rfl
@[simp] theorem State.modDec_evr (r : Side) (f : Dec → Dec) : (s.modDec r f).evr = s.evr := rfl
@[simp] theorem State.modDec_cry (r : Side) (f : Dec → Dec) : (s.modDec r f).cry = s.cry := rfl
@[simp] theorem State.modDec_rcp (r : Side) (f : Dec → Dec) : (s.modDec r f).rcp = s.rcp := rfl
@[simp] theorem State.modDec_fus (r : Side) (f : Dec → Dec) : (s.modDec r f).fus = s.fus := rfl
@[simp] theorem State.modDec_mem (r : Side) (f : Dec → Dec) : (s.modDec r f).mem = s.mem := rfl
@[simp] theorem State.modDec_dram (r : Side) (f : Dec → Dec) : (s.modDec r f).dram = s.dram := rfl
@[simp] theorem State.modDec_cen (r : Side) (f : Dec → Dec) : (s.modDec r f).cen = s.cen := rfl
@[simp] theorem State.modDec_mtr (r : Side) (f : Dec → Dec) : (s.modDec r f).mtr = s.mtr := rfl
@[simp] theorem State.modDec_mon (r : Side) (f : Dec → Dec) : (s.modDec r f).mon = s.mon := rfl
@[simp] theorem State.modDec_ste (r : Side) (f : Dec → Dec) : (s.modDec r f).ste = s.ste := rfl
@[simp] theorem State.modDec_ztb (r : Side) (f : Dec → Dec) : (s.modDec r f).ztb = s.ztb := rfl
@[simp] theorem State.modDec_member (r : Side) (f : Dec → Dec) : (s.modDec r f).member = s.member := rfl
@[simp] theorem State.modDec_redun (r : Side) (f : Dec → Dec) : (s.modDec r f).redun = s.redun := rfl
@[simp] theorem State.modDec_crn (r : Side) (f : Dec → Dec) : (s.modDec r f).crn = s.crn := rfl
@[simp] theorem State.modDec_win (r : Side) (f : Dec → Dec) : (s.modDec r f).win = s.win := rfl
@[simp] theorem State.modDec_nve (r : Side) (f : Dec → Dec) : (s.modDec r f).nve = s.nve := rfl
@[simp] theorem State.modDec_hdg (r : Side) (f : Dec → Dec) : (s.modDec r f).hdg = s.hdg := rfl
@[simp] theorem State.modDec_hpt (r : Side) (f : Dec → Dec) : (s.modDec r f).hpt = s.hpt := rfl
@[simp] theorem State.modDec_mgmt (r : Side) (f : Dec → Dec) : (s.modDec r f).mgmt = s.mgmt := rfl
@[simp] theorem State.modDec_pins (r : Side) (f : Dec → Dec) : (s.modDec r f).pins = s.pins := rfl

/-! ### modLink -/

@[simp] theorem State.modLink_pending (r : Side) (f : Link → Link) : (s.modLink r f).pending = s.pending := rfl
@[simp] theorem State.modLink_freeCtr (r : Side) (f : Link → Link) : (s.modLink r f).freeCtr = s.freeCtr := rfl
@[simp] theorem State.modLink_regs (r : Side) (f : Link → Link) : (s.modLink r f).regs = s.regs := rfl
@[simp] theorem State.modLink_core (r : Side) (f : Link → Link) : (s.modLink r f).core = s.core := rfl
@[simp] theorem State.modLink_ang (r : Side) (f : Link → Link) : (s.modLink r f).ang = s.ang := rfl
@[simp] theorem State.modLink_tile (r : Side) (f : Link → Link) : (s.modLink r f).tile = s.tile := rfl
@[simp] theorem State.modLink_dec (r : Side) (f : Link → Link) : (s.modLink r f).dec = s.dec := rfl
@[simp] theorem State.modLink_link (r : Side) (f : Link → Link) : (s.modLink r f).link = s.link.set r (f (s.link.get r)) := rfl
@[simp] theorem State.modLink_rlg (r : Side) (f : Link → Link) : (s.modLink r f).rlg = s.rlg := rfl
@[simp] theorem State.modLink_evr (r : Side) (f : Link → Link) : (s.modLink r f).evr = s.evr := rfl
@[simp] theorem State.modLink_cry (r : Side) (f : Link → Link) : (s.modLink r f).cry = s.cry := rfl
@[simp] theorem State.modLink_rcp (r : Side) (f : Link → Link) : (s.modLink r f).rcp = s.rcp := rfl
@[simp] theorem State.modLink_fus (r : Side) (f : Link → Link) : (s.modLink r f).fus = s.fus := rfl
@[simp] theorem State.modLink_mem (r : Side) (f : Link → Link) : (s.modLink r f).mem = s.mem := rfl
@[simp] theorem State.modLink_dram (r : Side) (f : Link → Link) : (s.modLink r f).dram = s.dram := rfl
@[simp] theorem State.modLink_cen (r : Side) (f : Link → Link) : (s.modLink r f).cen = s.cen := rfl
@[simp] theorem State.modLink_mtr (r : Side) (f : Link → Link) : (s.modLink r f).mtr = s.mtr := rfl
@[simp] theorem State.modLink_mon (r : Side) (f : Link → Link) : (s.modLink r f).mon = s.mon := rfl
@[simp] theorem State.modLink_ste (r : Side) (f : Link → Link) : (s.modLink r f).ste = s.ste := rfl
@[simp] theorem State.modLink_ztb (r : Side) (f : Link → Link) : (s.modLink r f).ztb = s.ztb := rfl
@[simp] theorem State.modLink_member (r : Side) (f : Link → Link) : (s.modLink r f).member = s.member := rfl
@[simp] theorem State.modLink_redun (r : Side) (f : Link → Link) : (s.modLink r f).redun = s.redun := rfl
@[simp] theorem State.modLink_crn (r : Side) (f : Link → Link) : (s.modLink r f).crn = s.crn := rfl
@[simp] theorem State.modLink_win (r : Side) (f : Link → Link) : (s.modLink r f).win = s.win := rfl
@[simp] theorem State.modLink_nve (r : Side) (f : Link → Link) : (s.modLink r f).nve = s.nve := rfl
@[simp] theorem State.modLink_hdg (r : Side) (f : Link → Link) : (s.modLink r f).hdg = s.hdg := rfl
@[simp] theorem State.modLink_hpt (r : Side) (f : Link → Link) : (s.modLink r f).hpt = s.hpt := rfl
@[simp] theorem State.modLink_mgmt (r : Side) (f : Link → Link) : (s.modLink r f).mgmt = s.mgmt := rfl
@[simp] theorem State.modLink_pins (r : Side) (f : Link → Link) : (s.modLink r f).pins = s.pins := rfl

/-! ### modEvr -/

@[simp] theorem State.modEvr_pending (f : Evr → Evr) : (s.modEvr f).pending = s.pending := rfl
@[simp] theorem State.modEvr_freeCtr (f : Evr → Evr) : (s.modEvr f).freeCtr = s.freeCtr := rfl
@[simp] theorem State.modEvr_regs (f : Evr → Evr) : (s.modEvr f).regs = s.regs := rfl
@[simp] theorem State.modEvr_core (f : Evr → Evr) : (s.modEvr f).core = s.core := rfl
@[simp] theorem State.modEvr_ang (f : Evr → Evr) : (s.modEvr f).ang = s.ang := rfl
@[simp] theorem State.modEvr_tile (f : Evr → Evr) : (s.modEvr f).tile = s.tile := rfl
@[simp] theorem State.modEvr_dec (f : Evr → Evr) : (s.modEvr f).dec = s.dec := rfl
@[simp] theorem State.modEvr_link (f : Evr → Evr) : (s.modEvr f).link = s.link := rfl
@[simp] theorem State.modEvr_rlg (f : Evr → Evr) : (s.modEvr f).rlg = s.rlg := rfl
@[simp] theorem State.modEvr_evr (f : Evr → Evr) : (s.modEvr f).evr = f s.evr := rfl
@[simp] theorem State.modEvr_cry (f : Evr → Evr) : (s.modEvr f).cry = s.cry := rfl
@[simp] theorem State.modEvr_rcp (f : Evr → Evr) : (s.modEvr f).rcp = s.rcp := rfl
@[simp] theorem State.modEvr_fus (f : Evr → Evr) : (s.modEvr f).fus = s.fus := rfl
@[simp] theorem State.modEvr_mem (f : Evr → Evr) : (s.modEvr f).mem = s.mem := rfl
@[simp] theorem State.modEvr_dram (f : Evr → Evr) : (s.modEvr f).dram = s.dram := rfl
@[simp] theorem State.modEvr_cen (f : Evr → Evr) : (s.modEvr f).cen = s.cen := rfl
@[simp] theorem State.modEvr_mtr (f : Evr → Evr) : (s.modEvr f).mtr = s.mtr := rfl
@[simp] theorem State.modEvr_mon (f : Evr → Evr) : (s.modEvr f).mon = s.mon := rfl
@[simp] theorem State.modEvr_ste (f : Evr → Evr) : (s.modEvr f).ste = s.ste := rfl
@[simp] theorem State.modEvr_ztb (f : Evr → Evr) : (s.modEvr f).ztb = s.ztb := rfl
@[simp] theorem State.modEvr_member (f : Evr → Evr) : (s.modEvr f).member = s.member := rfl
@[simp] theorem State.modEvr_redun (f : Evr → Evr) : (s.modEvr f).redun = s.redun := rfl
@[simp] theorem State.modEvr_crn (f : Evr → Evr) : (s.modEvr f).crn = s.crn := rfl
@[simp] theorem State.modEvr_win (f : Evr → Evr) : (s.modEvr f).win = s.win := rfl
@[simp] theorem State.modEvr_nve (f : Evr → Evr) : (s.modEvr f).nve = s.nve := rfl
@[simp] theorem State.modEvr_hdg (f : Evr → Evr) : (s.modEvr f).hdg = s.hdg := rfl
@[simp] theorem State.modEvr_hpt (f : Evr → Evr) : (s.modEvr f).hpt = s.hpt := rfl
@[simp] theorem State.modEvr_mgmt (f : Evr → Evr) : (s.modEvr f).mgmt = s.mgmt := rfl
@[simp] theorem State.modEvr_pins (f : Evr → Evr) : (s.modEvr f).pins = s.pins := rfl

/-! ### modRlg -/

@[simp] theorem State.modRlg_pending (f : Ledger → Ledger) : (s.modRlg f).pending = s.pending := rfl
@[simp] theorem State.modRlg_freeCtr (f : Ledger → Ledger) : (s.modRlg f).freeCtr = s.freeCtr := rfl
@[simp] theorem State.modRlg_regs (f : Ledger → Ledger) : (s.modRlg f).regs = s.regs := rfl
@[simp] theorem State.modRlg_core (f : Ledger → Ledger) : (s.modRlg f).core = s.core := rfl
@[simp] theorem State.modRlg_ang (f : Ledger → Ledger) : (s.modRlg f).ang = s.ang := rfl
@[simp] theorem State.modRlg_tile (f : Ledger → Ledger) : (s.modRlg f).tile = s.tile := rfl
@[simp] theorem State.modRlg_dec (f : Ledger → Ledger) : (s.modRlg f).dec = s.dec := rfl
@[simp] theorem State.modRlg_link (f : Ledger → Ledger) : (s.modRlg f).link = s.link := rfl
@[simp] theorem State.modRlg_rlg (f : Ledger → Ledger) : (s.modRlg f).rlg = f s.rlg := rfl
@[simp] theorem State.modRlg_evr (f : Ledger → Ledger) : (s.modRlg f).evr = s.evr := rfl
@[simp] theorem State.modRlg_cry (f : Ledger → Ledger) : (s.modRlg f).cry = s.cry := rfl
@[simp] theorem State.modRlg_rcp (f : Ledger → Ledger) : (s.modRlg f).rcp = s.rcp := rfl
@[simp] theorem State.modRlg_fus (f : Ledger → Ledger) : (s.modRlg f).fus = s.fus := rfl
@[simp] theorem State.modRlg_mem (f : Ledger → Ledger) : (s.modRlg f).mem = s.mem := rfl
@[simp] theorem State.modRlg_dram (f : Ledger → Ledger) : (s.modRlg f).dram = s.dram := rfl
@[simp] theorem State.modRlg_cen (f : Ledger → Ledger) : (s.modRlg f).cen = s.cen := rfl
@[simp] theorem State.modRlg_mtr (f : Ledger → Ledger) : (s.modRlg f).mtr = s.mtr := rfl
@[simp] theorem State.modRlg_mon (f : Ledger → Ledger) : (s.modRlg f).mon = s.mon := rfl
@[simp] theorem State.modRlg_ste (f : Ledger → Ledger) : (s.modRlg f).ste = s.ste := rfl
@[simp] theorem State.modRlg_ztb (f : Ledger → Ledger) : (s.modRlg f).ztb = s.ztb := rfl
@[simp] theorem State.modRlg_member (f : Ledger → Ledger) : (s.modRlg f).member = s.member := rfl
@[simp] theorem State.modRlg_redun (f : Ledger → Ledger) : (s.modRlg f).redun = s.redun := rfl
@[simp] theorem State.modRlg_crn (f : Ledger → Ledger) : (s.modRlg f).crn = s.crn := rfl
@[simp] theorem State.modRlg_win (f : Ledger → Ledger) : (s.modRlg f).win = s.win := rfl
@[simp] theorem State.modRlg_nve (f : Ledger → Ledger) : (s.modRlg f).nve = s.nve := rfl
@[simp] theorem State.modRlg_hdg (f : Ledger → Ledger) : (s.modRlg f).hdg = s.hdg := rfl
@[simp] theorem State.modRlg_hpt (f : Ledger → Ledger) : (s.modRlg f).hpt = s.hpt := rfl
@[simp] theorem State.modRlg_mgmt (f : Ledger → Ledger) : (s.modRlg f).mgmt = s.mgmt := rfl
@[simp] theorem State.modRlg_pins (f : Ledger → Ledger) : (s.modRlg f).pins = s.pins := rfl

/-! ### modRcp -/

@[simp] theorem State.modRcp_pending (f : Rcp → Rcp) : (s.modRcp f).pending = s.pending := rfl
@[simp] theorem State.modRcp_freeCtr (f : Rcp → Rcp) : (s.modRcp f).freeCtr = s.freeCtr := rfl
@[simp] theorem State.modRcp_regs (f : Rcp → Rcp) : (s.modRcp f).regs = s.regs := rfl
@[simp] theorem State.modRcp_core (f : Rcp → Rcp) : (s.modRcp f).core = s.core := rfl
@[simp] theorem State.modRcp_ang (f : Rcp → Rcp) : (s.modRcp f).ang = s.ang := rfl
@[simp] theorem State.modRcp_tile (f : Rcp → Rcp) : (s.modRcp f).tile = s.tile := rfl
@[simp] theorem State.modRcp_dec (f : Rcp → Rcp) : (s.modRcp f).dec = s.dec := rfl
@[simp] theorem State.modRcp_link (f : Rcp → Rcp) : (s.modRcp f).link = s.link := rfl
@[simp] theorem State.modRcp_rlg (f : Rcp → Rcp) : (s.modRcp f).rlg = s.rlg := rfl
@[simp] theorem State.modRcp_evr (f : Rcp → Rcp) : (s.modRcp f).evr = s.evr := rfl
@[simp] theorem State.modRcp_cry (f : Rcp → Rcp) : (s.modRcp f).cry = s.cry := rfl
@[simp] theorem State.modRcp_rcp (f : Rcp → Rcp) : (s.modRcp f).rcp = f s.rcp := rfl
@[simp] theorem State.modRcp_fus (f : Rcp → Rcp) : (s.modRcp f).fus = s.fus := rfl
@[simp] theorem State.modRcp_mem (f : Rcp → Rcp) : (s.modRcp f).mem = s.mem := rfl
@[simp] theorem State.modRcp_dram (f : Rcp → Rcp) : (s.modRcp f).dram = s.dram := rfl
@[simp] theorem State.modRcp_cen (f : Rcp → Rcp) : (s.modRcp f).cen = s.cen := rfl
@[simp] theorem State.modRcp_mtr (f : Rcp → Rcp) : (s.modRcp f).mtr = s.mtr := rfl
@[simp] theorem State.modRcp_mon (f : Rcp → Rcp) : (s.modRcp f).mon = s.mon := rfl
@[simp] theorem State.modRcp_ste (f : Rcp → Rcp) : (s.modRcp f).ste = s.ste := rfl
@[simp] theorem State.modRcp_ztb (f : Rcp → Rcp) : (s.modRcp f).ztb = s.ztb := rfl
@[simp] theorem State.modRcp_member (f : Rcp → Rcp) : (s.modRcp f).member = s.member := rfl
@[simp] theorem State.modRcp_redun (f : Rcp → Rcp) : (s.modRcp f).redun = s.redun := rfl
@[simp] theorem State.modRcp_crn (f : Rcp → Rcp) : (s.modRcp f).crn = s.crn := rfl
@[simp] theorem State.modRcp_win (f : Rcp → Rcp) : (s.modRcp f).win = s.win := rfl
@[simp] theorem State.modRcp_nve (f : Rcp → Rcp) : (s.modRcp f).nve = s.nve := rfl
@[simp] theorem State.modRcp_hdg (f : Rcp → Rcp) : (s.modRcp f).hdg = s.hdg := rfl
@[simp] theorem State.modRcp_hpt (f : Rcp → Rcp) : (s.modRcp f).hpt = s.hpt := rfl
@[simp] theorem State.modRcp_mgmt (f : Rcp → Rcp) : (s.modRcp f).mgmt = s.mgmt := rfl
@[simp] theorem State.modRcp_pins (f : Rcp → Rcp) : (s.modRcp f).pins = s.pins := rfl

/-! ### modCen -/

@[simp] theorem State.modCen_pending (r : Side) (f : Cen → Cen) : (s.modCen r f).pending = s.pending := rfl
@[simp] theorem State.modCen_freeCtr (r : Side) (f : Cen → Cen) : (s.modCen r f).freeCtr = s.freeCtr := rfl
@[simp] theorem State.modCen_regs (r : Side) (f : Cen → Cen) : (s.modCen r f).regs = s.regs := rfl
@[simp] theorem State.modCen_core (r : Side) (f : Cen → Cen) : (s.modCen r f).core = s.core := rfl
@[simp] theorem State.modCen_ang (r : Side) (f : Cen → Cen) : (s.modCen r f).ang = s.ang := rfl
@[simp] theorem State.modCen_tile (r : Side) (f : Cen → Cen) : (s.modCen r f).tile = s.tile := rfl
@[simp] theorem State.modCen_dec (r : Side) (f : Cen → Cen) : (s.modCen r f).dec = s.dec := rfl
@[simp] theorem State.modCen_link (r : Side) (f : Cen → Cen) : (s.modCen r f).link = s.link := rfl
@[simp] theorem State.modCen_rlg (r : Side) (f : Cen → Cen) : (s.modCen r f).rlg = s.rlg := rfl
@[simp] theorem State.modCen_evr (r : Side) (f : Cen → Cen) : (s.modCen r f).evr = s.evr := rfl
@[simp] theorem State.modCen_cry (r : Side) (f : Cen → Cen) : (s.modCen r f).cry = s.cry := rfl
@[simp] theorem State.modCen_rcp (r : Side) (f : Cen → Cen) : (s.modCen r f).rcp = s.rcp := rfl
@[simp] theorem State.modCen_fus (r : Side) (f : Cen → Cen) : (s.modCen r f).fus = s.fus := rfl
@[simp] theorem State.modCen_mem (r : Side) (f : Cen → Cen) : (s.modCen r f).mem = s.mem := rfl
@[simp] theorem State.modCen_dram (r : Side) (f : Cen → Cen) : (s.modCen r f).dram = s.dram := rfl
@[simp] theorem State.modCen_cen (r : Side) (f : Cen → Cen) : (s.modCen r f).cen = s.cen.set r (f (s.cen.get r)) := rfl
@[simp] theorem State.modCen_mtr (r : Side) (f : Cen → Cen) : (s.modCen r f).mtr = s.mtr := rfl
@[simp] theorem State.modCen_mon (r : Side) (f : Cen → Cen) : (s.modCen r f).mon = s.mon := rfl
@[simp] theorem State.modCen_ste (r : Side) (f : Cen → Cen) : (s.modCen r f).ste = s.ste := rfl
@[simp] theorem State.modCen_ztb (r : Side) (f : Cen → Cen) : (s.modCen r f).ztb = s.ztb := rfl
@[simp] theorem State.modCen_member (r : Side) (f : Cen → Cen) : (s.modCen r f).member = s.member := rfl
@[simp] theorem State.modCen_redun (r : Side) (f : Cen → Cen) : (s.modCen r f).redun = s.redun := rfl
@[simp] theorem State.modCen_crn (r : Side) (f : Cen → Cen) : (s.modCen r f).crn = s.crn := rfl
@[simp] theorem State.modCen_win (r : Side) (f : Cen → Cen) : (s.modCen r f).win = s.win := rfl
@[simp] theorem State.modCen_nve (r : Side) (f : Cen → Cen) : (s.modCen r f).nve = s.nve := rfl
@[simp] theorem State.modCen_hdg (r : Side) (f : Cen → Cen) : (s.modCen r f).hdg = s.hdg := rfl
@[simp] theorem State.modCen_hpt (r : Side) (f : Cen → Cen) : (s.modCen r f).hpt = s.hpt := rfl
@[simp] theorem State.modCen_mgmt (r : Side) (f : Cen → Cen) : (s.modCen r f).mgmt = s.mgmt := rfl
@[simp] theorem State.modCen_pins (r : Side) (f : Cen → Cen) : (s.modCen r f).pins = s.pins := rfl

/-! ### modMtr -/

@[simp] theorem State.modMtr_pending (f : Mtr → Mtr) : (s.modMtr f).pending = s.pending := rfl
@[simp] theorem State.modMtr_freeCtr (f : Mtr → Mtr) : (s.modMtr f).freeCtr = s.freeCtr := rfl
@[simp] theorem State.modMtr_regs (f : Mtr → Mtr) : (s.modMtr f).regs = s.regs := rfl
@[simp] theorem State.modMtr_core (f : Mtr → Mtr) : (s.modMtr f).core = s.core := rfl
@[simp] theorem State.modMtr_ang (f : Mtr → Mtr) : (s.modMtr f).ang = s.ang := rfl
@[simp] theorem State.modMtr_tile (f : Mtr → Mtr) : (s.modMtr f).tile = s.tile := rfl
@[simp] theorem State.modMtr_dec (f : Mtr → Mtr) : (s.modMtr f).dec = s.dec := rfl
@[simp] theorem State.modMtr_link (f : Mtr → Mtr) : (s.modMtr f).link = s.link := rfl
@[simp] theorem State.modMtr_rlg (f : Mtr → Mtr) : (s.modMtr f).rlg = s.rlg := rfl
@[simp] theorem State.modMtr_evr (f : Mtr → Mtr) : (s.modMtr f).evr = s.evr := rfl
@[simp] theorem State.modMtr_cry (f : Mtr → Mtr) : (s.modMtr f).cry = s.cry := rfl
@[simp] theorem State.modMtr_rcp (f : Mtr → Mtr) : (s.modMtr f).rcp = s.rcp := rfl
@[simp] theorem State.modMtr_fus (f : Mtr → Mtr) : (s.modMtr f).fus = s.fus := rfl
@[simp] theorem State.modMtr_mem (f : Mtr → Mtr) : (s.modMtr f).mem = s.mem := rfl
@[simp] theorem State.modMtr_dram (f : Mtr → Mtr) : (s.modMtr f).dram = s.dram := rfl
@[simp] theorem State.modMtr_cen (f : Mtr → Mtr) : (s.modMtr f).cen = s.cen := rfl
@[simp] theorem State.modMtr_mtr (f : Mtr → Mtr) : (s.modMtr f).mtr = f s.mtr := rfl
@[simp] theorem State.modMtr_mon (f : Mtr → Mtr) : (s.modMtr f).mon = s.mon := rfl
@[simp] theorem State.modMtr_ste (f : Mtr → Mtr) : (s.modMtr f).ste = s.ste := rfl
@[simp] theorem State.modMtr_ztb (f : Mtr → Mtr) : (s.modMtr f).ztb = s.ztb := rfl
@[simp] theorem State.modMtr_member (f : Mtr → Mtr) : (s.modMtr f).member = s.member := rfl
@[simp] theorem State.modMtr_redun (f : Mtr → Mtr) : (s.modMtr f).redun = s.redun := rfl
@[simp] theorem State.modMtr_crn (f : Mtr → Mtr) : (s.modMtr f).crn = s.crn := rfl
@[simp] theorem State.modMtr_win (f : Mtr → Mtr) : (s.modMtr f).win = s.win := rfl
@[simp] theorem State.modMtr_nve (f : Mtr → Mtr) : (s.modMtr f).nve = s.nve := rfl
@[simp] theorem State.modMtr_hdg (f : Mtr → Mtr) : (s.modMtr f).hdg = s.hdg := rfl
@[simp] theorem State.modMtr_hpt (f : Mtr → Mtr) : (s.modMtr f).hpt = s.hpt := rfl
@[simp] theorem State.modMtr_mgmt (f : Mtr → Mtr) : (s.modMtr f).mgmt = s.mgmt := rfl
@[simp] theorem State.modMtr_pins (f : Mtr → Mtr) : (s.modMtr f).pins = s.pins := rfl

/-! ### modMon -/

@[simp] theorem State.modMon_pending (f : Mon → Mon) : (s.modMon f).pending = s.pending := rfl
@[simp] theorem State.modMon_freeCtr (f : Mon → Mon) : (s.modMon f).freeCtr = s.freeCtr := rfl
@[simp] theorem State.modMon_regs (f : Mon → Mon) : (s.modMon f).regs = s.regs := rfl
@[simp] theorem State.modMon_core (f : Mon → Mon) : (s.modMon f).core = s.core := rfl
@[simp] theorem State.modMon_ang (f : Mon → Mon) : (s.modMon f).ang = s.ang := rfl
@[simp] theorem State.modMon_tile (f : Mon → Mon) : (s.modMon f).tile = s.tile := rfl
@[simp] theorem State.modMon_dec (f : Mon → Mon) : (s.modMon f).dec = s.dec := rfl
@[simp] theorem State.modMon_link (f : Mon → Mon) : (s.modMon f).link = s.link := rfl
@[simp] theorem State.modMon_rlg (f : Mon → Mon) : (s.modMon f).rlg = s.rlg := rfl
@[simp] theorem State.modMon_evr (f : Mon → Mon) : (s.modMon f).evr = s.evr := rfl
@[simp] theorem State.modMon_cry (f : Mon → Mon) : (s.modMon f).cry = s.cry := rfl
@[simp] theorem State.modMon_rcp (f : Mon → Mon) : (s.modMon f).rcp = s.rcp := rfl
@[simp] theorem State.modMon_fus (f : Mon → Mon) : (s.modMon f).fus = s.fus := rfl
@[simp] theorem State.modMon_mem (f : Mon → Mon) : (s.modMon f).mem = s.mem := rfl
@[simp] theorem State.modMon_dram (f : Mon → Mon) : (s.modMon f).dram = s.dram := rfl
@[simp] theorem State.modMon_cen (f : Mon → Mon) : (s.modMon f).cen = s.cen := rfl
@[simp] theorem State.modMon_mtr (f : Mon → Mon) : (s.modMon f).mtr = s.mtr := rfl
@[simp] theorem State.modMon_mon (f : Mon → Mon) : (s.modMon f).mon = f s.mon := rfl
@[simp] theorem State.modMon_ste (f : Mon → Mon) : (s.modMon f).ste = s.ste := rfl
@[simp] theorem State.modMon_ztb (f : Mon → Mon) : (s.modMon f).ztb = s.ztb := rfl
@[simp] theorem State.modMon_member (f : Mon → Mon) : (s.modMon f).member = s.member := rfl
@[simp] theorem State.modMon_redun (f : Mon → Mon) : (s.modMon f).redun = s.redun := rfl
@[simp] theorem State.modMon_crn (f : Mon → Mon) : (s.modMon f).crn = s.crn := rfl
@[simp] theorem State.modMon_win (f : Mon → Mon) : (s.modMon f).win = s.win := rfl
@[simp] theorem State.modMon_nve (f : Mon → Mon) : (s.modMon f).nve = s.nve := rfl
@[simp] theorem State.modMon_hdg (f : Mon → Mon) : (s.modMon f).hdg = s.hdg := rfl
@[simp] theorem State.modMon_hpt (f : Mon → Mon) : (s.modMon f).hpt = s.hpt := rfl
@[simp] theorem State.modMon_mgmt (f : Mon → Mon) : (s.modMon f).mgmt = s.mgmt := rfl
@[simp] theorem State.modMon_pins (f : Mon → Mon) : (s.modMon f).pins = s.pins := rfl

/-! ### modSte -/

@[simp] theorem State.modSte_pending (r : Side) (f : Ste → Ste) : (s.modSte r f).pending = s.pending := rfl
@[simp] theorem State.modSte_freeCtr (r : Side) (f : Ste → Ste) : (s.modSte r f).freeCtr = s.freeCtr := rfl
@[simp] theorem State.modSte_regs (r : Side) (f : Ste → Ste) : (s.modSte r f).regs = s.regs := rfl
@[simp] theorem State.modSte_core (r : Side) (f : Ste → Ste) : (s.modSte r f).core = s.core := rfl
@[simp] theorem State.modSte_ang (r : Side) (f : Ste → Ste) : (s.modSte r f).ang = s.ang := rfl
@[simp] theorem State.modSte_tile (r : Side) (f : Ste → Ste) : (s.modSte r f).tile = s.tile := rfl
@[simp] theorem State.modSte_dec (r : Side) (f : Ste → Ste) : (s.modSte r f).dec = s.dec := rfl
@[simp] theorem State.modSte_link (r : Side) (f : Ste → Ste) : (s.modSte r f).link = s.link := rfl
@[simp] theorem State.modSte_rlg (r : Side) (f : Ste → Ste) : (s.modSte r f).rlg = s.rlg := rfl
@[simp] theorem State.modSte_evr (r : Side) (f : Ste → Ste) : (s.modSte r f).evr = s.evr := rfl
@[simp] theorem State.modSte_cry (r : Side) (f : Ste → Ste) : (s.modSte r f).cry = s.cry := rfl
@[simp] theorem State.modSte_rcp (r : Side) (f : Ste → Ste) : (s.modSte r f).rcp = s.rcp := rfl
@[simp] theorem State.modSte_fus (r : Side) (f : Ste → Ste) : (s.modSte r f).fus = s.fus := rfl
@[simp] theorem State.modSte_mem (r : Side) (f : Ste → Ste) : (s.modSte r f).mem = s.mem := rfl
@[simp] theorem State.modSte_dram (r : Side) (f : Ste → Ste) : (s.modSte r f).dram = s.dram := rfl
@[simp] theorem State.modSte_cen (r : Side) (f : Ste → Ste) : (s.modSte r f).cen = s.cen := rfl
@[simp] theorem State.modSte_mtr (r : Side) (f : Ste → Ste) : (s.modSte r f).mtr = s.mtr := rfl
@[simp] theorem State.modSte_mon (r : Side) (f : Ste → Ste) : (s.modSte r f).mon = s.mon := rfl
@[simp] theorem State.modSte_ste (r : Side) (f : Ste → Ste) : (s.modSte r f).ste = s.ste.set r (f (s.ste.get r)) := rfl
@[simp] theorem State.modSte_ztb (r : Side) (f : Ste → Ste) : (s.modSte r f).ztb = s.ztb := rfl
@[simp] theorem State.modSte_member (r : Side) (f : Ste → Ste) : (s.modSte r f).member = s.member := rfl
@[simp] theorem State.modSte_redun (r : Side) (f : Ste → Ste) : (s.modSte r f).redun = s.redun := rfl
@[simp] theorem State.modSte_crn (r : Side) (f : Ste → Ste) : (s.modSte r f).crn = s.crn := rfl
@[simp] theorem State.modSte_win (r : Side) (f : Ste → Ste) : (s.modSte r f).win = s.win := rfl
@[simp] theorem State.modSte_nve (r : Side) (f : Ste → Ste) : (s.modSte r f).nve = s.nve := rfl
@[simp] theorem State.modSte_hdg (r : Side) (f : Ste → Ste) : (s.modSte r f).hdg = s.hdg := rfl
@[simp] theorem State.modSte_hpt (r : Side) (f : Ste → Ste) : (s.modSte r f).hpt = s.hpt := rfl
@[simp] theorem State.modSte_mgmt (r : Side) (f : Ste → Ste) : (s.modSte r f).mgmt = s.mgmt := rfl
@[simp] theorem State.modSte_pins (r : Side) (f : Ste → Ste) : (s.modSte r f).pins = s.pins := rfl

/-! ### modZtb -/

@[simp] theorem State.modZtb_pending (f : Ztb → Ztb) : (s.modZtb f).pending = s.pending := rfl
@[simp] theorem State.modZtb_freeCtr (f : Ztb → Ztb) : (s.modZtb f).freeCtr = s.freeCtr := rfl
@[simp] theorem State.modZtb_regs (f : Ztb → Ztb) : (s.modZtb f).regs = s.regs := rfl
@[simp] theorem State.modZtb_core (f : Ztb → Ztb) : (s.modZtb f).core = s.core := rfl
@[simp] theorem State.modZtb_ang (f : Ztb → Ztb) : (s.modZtb f).ang = s.ang := rfl
@[simp] theorem State.modZtb_tile (f : Ztb → Ztb) : (s.modZtb f).tile = s.tile := rfl
@[simp] theorem State.modZtb_dec (f : Ztb → Ztb) : (s.modZtb f).dec = s.dec := rfl
@[simp] theorem State.modZtb_link (f : Ztb → Ztb) : (s.modZtb f).link = s.link := rfl
@[simp] theorem State.modZtb_rlg (f : Ztb → Ztb) : (s.modZtb f).rlg = s.rlg := rfl
@[simp] theorem State.modZtb_evr (f : Ztb → Ztb) : (s.modZtb f).evr = s.evr := rfl
@[simp] theorem State.modZtb_cry (f : Ztb → Ztb) : (s.modZtb f).cry = s.cry := rfl
@[simp] theorem State.modZtb_rcp (f : Ztb → Ztb) : (s.modZtb f).rcp = s.rcp := rfl
@[simp] theorem State.modZtb_fus (f : Ztb → Ztb) : (s.modZtb f).fus = s.fus := rfl
@[simp] theorem State.modZtb_mem (f : Ztb → Ztb) : (s.modZtb f).mem = s.mem := rfl
@[simp] theorem State.modZtb_dram (f : Ztb → Ztb) : (s.modZtb f).dram = s.dram := rfl
@[simp] theorem State.modZtb_cen (f : Ztb → Ztb) : (s.modZtb f).cen = s.cen := rfl
@[simp] theorem State.modZtb_mtr (f : Ztb → Ztb) : (s.modZtb f).mtr = s.mtr := rfl
@[simp] theorem State.modZtb_mon (f : Ztb → Ztb) : (s.modZtb f).mon = s.mon := rfl
@[simp] theorem State.modZtb_ste (f : Ztb → Ztb) : (s.modZtb f).ste = s.ste := rfl
@[simp] theorem State.modZtb_ztb (f : Ztb → Ztb) : (s.modZtb f).ztb = f s.ztb := rfl
@[simp] theorem State.modZtb_member (f : Ztb → Ztb) : (s.modZtb f).member = s.member := rfl
@[simp] theorem State.modZtb_redun (f : Ztb → Ztb) : (s.modZtb f).redun = s.redun := rfl
@[simp] theorem State.modZtb_crn (f : Ztb → Ztb) : (s.modZtb f).crn = s.crn := rfl
@[simp] theorem State.modZtb_win (f : Ztb → Ztb) : (s.modZtb f).win = s.win := rfl
@[simp] theorem State.modZtb_nve (f : Ztb → Ztb) : (s.modZtb f).nve = s.nve := rfl
@[simp] theorem State.modZtb_hdg (f : Ztb → Ztb) : (s.modZtb f).hdg = s.hdg := rfl
@[simp] theorem State.modZtb_hpt (f : Ztb → Ztb) : (s.modZtb f).hpt = s.hpt := rfl
@[simp] theorem State.modZtb_mgmt (f : Ztb → Ztb) : (s.modZtb f).mgmt = s.mgmt := rfl
@[simp] theorem State.modZtb_pins (f : Ztb → Ztb) : (s.modZtb f).pins = s.pins := rfl

/-! ### modRedun -/

@[simp] theorem State.modRedun_pending (r : Side) (f : Redun → Redun) : (s.modRedun r f).pending = s.pending := rfl
@[simp] theorem State.modRedun_freeCtr (r : Side) (f : Redun → Redun) : (s.modRedun r f).freeCtr = s.freeCtr := rfl
@[simp] theorem State.modRedun_regs (r : Side) (f : Redun → Redun) : (s.modRedun r f).regs = s.regs := rfl
@[simp] theorem State.modRedun_core (r : Side) (f : Redun → Redun) : (s.modRedun r f).core = s.core := rfl
@[simp] theorem State.modRedun_ang (r : Side) (f : Redun → Redun) : (s.modRedun r f).ang = s.ang := rfl
@[simp] theorem State.modRedun_tile (r : Side) (f : Redun → Redun) : (s.modRedun r f).tile = s.tile := rfl
@[simp] theorem State.modRedun_dec (r : Side) (f : Redun → Redun) : (s.modRedun r f).dec = s.dec := rfl
@[simp] theorem State.modRedun_link (r : Side) (f : Redun → Redun) : (s.modRedun r f).link = s.link := rfl
@[simp] theorem State.modRedun_rlg (r : Side) (f : Redun → Redun) : (s.modRedun r f).rlg = s.rlg := rfl
@[simp] theorem State.modRedun_evr (r : Side) (f : Redun → Redun) : (s.modRedun r f).evr = s.evr := rfl
@[simp] theorem State.modRedun_cry (r : Side) (f : Redun → Redun) : (s.modRedun r f).cry = s.cry := rfl
@[simp] theorem State.modRedun_rcp (r : Side) (f : Redun → Redun) : (s.modRedun r f).rcp = s.rcp := rfl
@[simp] theorem State.modRedun_fus (r : Side) (f : Redun → Redun) : (s.modRedun r f).fus = s.fus := rfl
@[simp] theorem State.modRedun_mem (r : Side) (f : Redun → Redun) : (s.modRedun r f).mem = s.mem := rfl
@[simp] theorem State.modRedun_dram (r : Side) (f : Redun → Redun) : (s.modRedun r f).dram = s.dram := rfl
@[simp] theorem State.modRedun_cen (r : Side) (f : Redun → Redun) : (s.modRedun r f).cen = s.cen := rfl
@[simp] theorem State.modRedun_mtr (r : Side) (f : Redun → Redun) : (s.modRedun r f).mtr = s.mtr := rfl
@[simp] theorem State.modRedun_mon (r : Side) (f : Redun → Redun) : (s.modRedun r f).mon = s.mon := rfl
@[simp] theorem State.modRedun_ste (r : Side) (f : Redun → Redun) : (s.modRedun r f).ste = s.ste := rfl
@[simp] theorem State.modRedun_ztb (r : Side) (f : Redun → Redun) : (s.modRedun r f).ztb = s.ztb := rfl
@[simp] theorem State.modRedun_member (r : Side) (f : Redun → Redun) : (s.modRedun r f).member = s.member := rfl
@[simp] theorem State.modRedun_redun (r : Side) (f : Redun → Redun) : (s.modRedun r f).redun = s.redun.set r (f (s.redun.get r)) := rfl
@[simp] theorem State.modRedun_crn (r : Side) (f : Redun → Redun) : (s.modRedun r f).crn = s.crn := rfl
@[simp] theorem State.modRedun_win (r : Side) (f : Redun → Redun) : (s.modRedun r f).win = s.win := rfl
@[simp] theorem State.modRedun_nve (r : Side) (f : Redun → Redun) : (s.modRedun r f).nve = s.nve := rfl
@[simp] theorem State.modRedun_hdg (r : Side) (f : Redun → Redun) : (s.modRedun r f).hdg = s.hdg := rfl
@[simp] theorem State.modRedun_hpt (r : Side) (f : Redun → Redun) : (s.modRedun r f).hpt = s.hpt := rfl
@[simp] theorem State.modRedun_mgmt (r : Side) (f : Redun → Redun) : (s.modRedun r f).mgmt = s.mgmt := rfl
@[simp] theorem State.modRedun_pins (r : Side) (f : Redun → Redun) : (s.modRedun r f).pins = s.pins := rfl

/-! ### modCrn -/

@[simp] theorem State.modCrn_pending (f : Crn → Crn) : (s.modCrn f).pending = s.pending := rfl
@[simp] theorem State.modCrn_freeCtr (f : Crn → Crn) : (s.modCrn f).freeCtr = s.freeCtr := rfl
@[simp] theorem State.modCrn_regs (f : Crn → Crn) : (s.modCrn f).regs = s.regs := rfl
@[simp] theorem State.modCrn_core (f : Crn → Crn) : (s.modCrn f).core = s.core := rfl
@[simp] theorem State.modCrn_ang (f : Crn → Crn) : (s.modCrn f).ang = s.ang := rfl
@[simp] theorem State.modCrn_tile (f : Crn → Crn) : (s.modCrn f).tile = s.tile := rfl
@[simp] theorem State.modCrn_dec (f : Crn → Crn) : (s.modCrn f).dec = s.dec := rfl
@[simp] theorem State.modCrn_link (f : Crn → Crn) : (s.modCrn f).link = s.link := rfl
@[simp] theorem State.modCrn_rlg (f : Crn → Crn) : (s.modCrn f).rlg = s.rlg := rfl
@[simp] theorem State.modCrn_evr (f : Crn → Crn) : (s.modCrn f).evr = s.evr := rfl
@[simp] theorem State.modCrn_cry (f : Crn → Crn) : (s.modCrn f).cry = s.cry := rfl
@[simp] theorem State.modCrn_rcp (f : Crn → Crn) : (s.modCrn f).rcp = s.rcp := rfl
@[simp] theorem State.modCrn_fus (f : Crn → Crn) : (s.modCrn f).fus = s.fus := rfl
@[simp] theorem State.modCrn_mem (f : Crn → Crn) : (s.modCrn f).mem = s.mem := rfl
@[simp] theorem State.modCrn_dram (f : Crn → Crn) : (s.modCrn f).dram = s.dram := rfl
@[simp] theorem State.modCrn_cen (f : Crn → Crn) : (s.modCrn f).cen = s.cen := rfl
@[simp] theorem State.modCrn_mtr (f : Crn → Crn) : (s.modCrn f).mtr = s.mtr := rfl
@[simp] theorem State.modCrn_mon (f : Crn → Crn) : (s.modCrn f).mon = s.mon := rfl
@[simp] theorem State.modCrn_ste (f : Crn → Crn) : (s.modCrn f).ste = s.ste := rfl
@[simp] theorem State.modCrn_ztb (f : Crn → Crn) : (s.modCrn f).ztb = s.ztb := rfl
@[simp] theorem State.modCrn_member (f : Crn → Crn) : (s.modCrn f).member = s.member := rfl
@[simp] theorem State.modCrn_redun (f : Crn → Crn) : (s.modCrn f).redun = s.redun := rfl
@[simp] theorem State.modCrn_crn (f : Crn → Crn) : (s.modCrn f).crn = f s.crn := rfl
@[simp] theorem State.modCrn_win (f : Crn → Crn) : (s.modCrn f).win = s.win := rfl
@[simp] theorem State.modCrn_nve (f : Crn → Crn) : (s.modCrn f).nve = s.nve := rfl
@[simp] theorem State.modCrn_hdg (f : Crn → Crn) : (s.modCrn f).hdg = s.hdg := rfl
@[simp] theorem State.modCrn_hpt (f : Crn → Crn) : (s.modCrn f).hpt = s.hpt := rfl
@[simp] theorem State.modCrn_mgmt (f : Crn → Crn) : (s.modCrn f).mgmt = s.mgmt := rfl
@[simp] theorem State.modCrn_pins (f : Crn → Crn) : (s.modCrn f).pins = s.pins := rfl

/-! ### modWin -/

@[simp] theorem State.modWin_pending (f : Win → Win) : (s.modWin f).pending = s.pending := rfl
@[simp] theorem State.modWin_freeCtr (f : Win → Win) : (s.modWin f).freeCtr = s.freeCtr := rfl
@[simp] theorem State.modWin_regs (f : Win → Win) : (s.modWin f).regs = s.regs := rfl
@[simp] theorem State.modWin_core (f : Win → Win) : (s.modWin f).core = s.core := rfl
@[simp] theorem State.modWin_ang (f : Win → Win) : (s.modWin f).ang = s.ang := rfl
@[simp] theorem State.modWin_tile (f : Win → Win) : (s.modWin f).tile = s.tile := rfl
@[simp] theorem State.modWin_dec (f : Win → Win) : (s.modWin f).dec = s.dec := rfl
@[simp] theorem State.modWin_link (f : Win → Win) : (s.modWin f).link = s.link := rfl
@[simp] theorem State.modWin_rlg (f : Win → Win) : (s.modWin f).rlg = s.rlg := rfl
@[simp] theorem State.modWin_evr (f : Win → Win) : (s.modWin f).evr = s.evr := rfl
@[simp] theorem State.modWin_cry (f : Win → Win) : (s.modWin f).cry = s.cry := rfl
@[simp] theorem State.modWin_rcp (f : Win → Win) : (s.modWin f).rcp = s.rcp := rfl
@[simp] theorem State.modWin_fus (f : Win → Win) : (s.modWin f).fus = s.fus := rfl
@[simp] theorem State.modWin_mem (f : Win → Win) : (s.modWin f).mem = s.mem := rfl
@[simp] theorem State.modWin_dram (f : Win → Win) : (s.modWin f).dram = s.dram := rfl
@[simp] theorem State.modWin_cen (f : Win → Win) : (s.modWin f).cen = s.cen := rfl
@[simp] theorem State.modWin_mtr (f : Win → Win) : (s.modWin f).mtr = s.mtr := rfl
@[simp] theorem State.modWin_mon (f : Win → Win) : (s.modWin f).mon = s.mon := rfl
@[simp] theorem State.modWin_ste (f : Win → Win) : (s.modWin f).ste = s.ste := rfl
@[simp] theorem State.modWin_ztb (f : Win → Win) : (s.modWin f).ztb = s.ztb := rfl
@[simp] theorem State.modWin_member (f : Win → Win) : (s.modWin f).member = s.member := rfl
@[simp] theorem State.modWin_redun (f : Win → Win) : (s.modWin f).redun = s.redun := rfl
@[simp] theorem State.modWin_crn (f : Win → Win) : (s.modWin f).crn = s.crn := rfl
@[simp] theorem State.modWin_win (f : Win → Win) : (s.modWin f).win = f s.win := rfl
@[simp] theorem State.modWin_nve (f : Win → Win) : (s.modWin f).nve = s.nve := rfl
@[simp] theorem State.modWin_hdg (f : Win → Win) : (s.modWin f).hdg = s.hdg := rfl
@[simp] theorem State.modWin_hpt (f : Win → Win) : (s.modWin f).hpt = s.hpt := rfl
@[simp] theorem State.modWin_mgmt (f : Win → Win) : (s.modWin f).mgmt = s.mgmt := rfl
@[simp] theorem State.modWin_pins (f : Win → Win) : (s.modWin f).pins = s.pins := rfl

/-! ### modNve -/

@[simp] theorem State.modNve_pending (f : Nve → Nve) : (s.modNve f).pending = s.pending := rfl
@[simp] theorem State.modNve_freeCtr (f : Nve → Nve) : (s.modNve f).freeCtr = s.freeCtr := rfl
@[simp] theorem State.modNve_regs (f : Nve → Nve) : (s.modNve f).regs = s.regs := rfl
@[simp] theorem State.modNve_core (f : Nve → Nve) : (s.modNve f).core = s.core := rfl
@[simp] theorem State.modNve_ang (f : Nve → Nve) : (s.modNve f).ang = s.ang := rfl
@[simp] theorem State.modNve_tile (f : Nve → Nve) : (s.modNve f).tile = s.tile := rfl
@[simp] theorem State.modNve_dec (f : Nve → Nve) : (s.modNve f).dec = s.dec := rfl
@[simp] theorem State.modNve_link (f : Nve → Nve) : (s.modNve f).link = s.link := rfl
@[simp] theorem State.modNve_rlg (f : Nve → Nve) : (s.modNve f).rlg = s.rlg := rfl
@[simp] theorem State.modNve_evr (f : Nve → Nve) : (s.modNve f).evr = s.evr := rfl
@[simp] theorem State.modNve_cry (f : Nve → Nve) : (s.modNve f).cry = s.cry := rfl
@[simp] theorem State.modNve_rcp (f : Nve → Nve) : (s.modNve f).rcp = s.rcp := rfl
@[simp] theorem State.modNve_fus (f : Nve → Nve) : (s.modNve f).fus = s.fus := rfl
@[simp] theorem State.modNve_mem (f : Nve → Nve) : (s.modNve f).mem = s.mem := rfl
@[simp] theorem State.modNve_dram (f : Nve → Nve) : (s.modNve f).dram = s.dram := rfl
@[simp] theorem State.modNve_cen (f : Nve → Nve) : (s.modNve f).cen = s.cen := rfl
@[simp] theorem State.modNve_mtr (f : Nve → Nve) : (s.modNve f).mtr = s.mtr := rfl
@[simp] theorem State.modNve_mon (f : Nve → Nve) : (s.modNve f).mon = s.mon := rfl
@[simp] theorem State.modNve_ste (f : Nve → Nve) : (s.modNve f).ste = s.ste := rfl
@[simp] theorem State.modNve_ztb (f : Nve → Nve) : (s.modNve f).ztb = s.ztb := rfl
@[simp] theorem State.modNve_member (f : Nve → Nve) : (s.modNve f).member = s.member := rfl
@[simp] theorem State.modNve_redun (f : Nve → Nve) : (s.modNve f).redun = s.redun := rfl
@[simp] theorem State.modNve_crn (f : Nve → Nve) : (s.modNve f).crn = s.crn := rfl
@[simp] theorem State.modNve_win (f : Nve → Nve) : (s.modNve f).win = s.win := rfl
@[simp] theorem State.modNve_nve (f : Nve → Nve) : (s.modNve f).nve = f s.nve := rfl
@[simp] theorem State.modNve_hdg (f : Nve → Nve) : (s.modNve f).hdg = s.hdg := rfl
@[simp] theorem State.modNve_hpt (f : Nve → Nve) : (s.modNve f).hpt = s.hpt := rfl
@[simp] theorem State.modNve_mgmt (f : Nve → Nve) : (s.modNve f).mgmt = s.mgmt := rfl
@[simp] theorem State.modNve_pins (f : Nve → Nve) : (s.modNve f).pins = s.pins := rfl

/-! ### modHdg -/

@[simp] theorem State.modHdg_pending (f : Hdg → Hdg) : (s.modHdg f).pending = s.pending := rfl
@[simp] theorem State.modHdg_freeCtr (f : Hdg → Hdg) : (s.modHdg f).freeCtr = s.freeCtr := rfl
@[simp] theorem State.modHdg_regs (f : Hdg → Hdg) : (s.modHdg f).regs = s.regs := rfl
@[simp] theorem State.modHdg_core (f : Hdg → Hdg) : (s.modHdg f).core = s.core := rfl
@[simp] theorem State.modHdg_ang (f : Hdg → Hdg) : (s.modHdg f).ang = s.ang := rfl
@[simp] theorem State.modHdg_tile (f : Hdg → Hdg) : (s.modHdg f).tile = s.tile := rfl
@[simp] theorem State.modHdg_dec (f : Hdg → Hdg) : (s.modHdg f).dec = s.dec := rfl
@[simp] theorem State.modHdg_link (f : Hdg → Hdg) : (s.modHdg f).link = s.link := rfl
@[simp] theorem State.modHdg_rlg (f : Hdg → Hdg) : (s.modHdg f).rlg = s.rlg := rfl
@[simp] theorem State.modHdg_evr (f : Hdg → Hdg) : (s.modHdg f).evr = s.evr := rfl
@[simp] theorem State.modHdg_cry (f : Hdg → Hdg) : (s.modHdg f).cry = s.cry := rfl
@[simp] theorem State.modHdg_rcp (f : Hdg → Hdg) : (s.modHdg f).rcp = s.rcp := rfl
@[simp] theorem State.modHdg_fus (f : Hdg → Hdg) : (s.modHdg f).fus = s.fus := rfl
@[simp] theorem State.modHdg_mem (f : Hdg → Hdg) : (s.modHdg f).mem = s.mem := rfl
@[simp] theorem State.modHdg_dram (f : Hdg → Hdg) : (s.modHdg f).dram = s.dram := rfl
@[simp] theorem State.modHdg_cen (f : Hdg → Hdg) : (s.modHdg f).cen = s.cen := rfl
@[simp] theorem State.modHdg_mtr (f : Hdg → Hdg) : (s.modHdg f).mtr = s.mtr := rfl
@[simp] theorem State.modHdg_mon (f : Hdg → Hdg) : (s.modHdg f).mon = s.mon := rfl
@[simp] theorem State.modHdg_ste (f : Hdg → Hdg) : (s.modHdg f).ste = s.ste := rfl
@[simp] theorem State.modHdg_ztb (f : Hdg → Hdg) : (s.modHdg f).ztb = s.ztb := rfl
@[simp] theorem State.modHdg_member (f : Hdg → Hdg) : (s.modHdg f).member = s.member := rfl
@[simp] theorem State.modHdg_redun (f : Hdg → Hdg) : (s.modHdg f).redun = s.redun := rfl
@[simp] theorem State.modHdg_crn (f : Hdg → Hdg) : (s.modHdg f).crn = s.crn := rfl
@[simp] theorem State.modHdg_win (f : Hdg → Hdg) : (s.modHdg f).win = s.win := rfl
@[simp] theorem State.modHdg_nve (f : Hdg → Hdg) : (s.modHdg f).nve = s.nve := rfl
@[simp] theorem State.modHdg_hdg (f : Hdg → Hdg) : (s.modHdg f).hdg = f s.hdg := rfl
@[simp] theorem State.modHdg_hpt (f : Hdg → Hdg) : (s.modHdg f).hpt = s.hpt := rfl
@[simp] theorem State.modHdg_mgmt (f : Hdg → Hdg) : (s.modHdg f).mgmt = s.mgmt := rfl
@[simp] theorem State.modHdg_pins (f : Hdg → Hdg) : (s.modHdg f).pins = s.pins := rfl

/-! ### modHpt -/

@[simp] theorem State.modHpt_pending (r : Side) (f : Hpt → Hpt) : (s.modHpt r f).pending = s.pending := rfl
@[simp] theorem State.modHpt_freeCtr (r : Side) (f : Hpt → Hpt) : (s.modHpt r f).freeCtr = s.freeCtr := rfl
@[simp] theorem State.modHpt_regs (r : Side) (f : Hpt → Hpt) : (s.modHpt r f).regs = s.regs := rfl
@[simp] theorem State.modHpt_core (r : Side) (f : Hpt → Hpt) : (s.modHpt r f).core = s.core := rfl
@[simp] theorem State.modHpt_ang (r : Side) (f : Hpt → Hpt) : (s.modHpt r f).ang = s.ang := rfl
@[simp] theorem State.modHpt_tile (r : Side) (f : Hpt → Hpt) : (s.modHpt r f).tile = s.tile := rfl
@[simp] theorem State.modHpt_dec (r : Side) (f : Hpt → Hpt) : (s.modHpt r f).dec = s.dec := rfl
@[simp] theorem State.modHpt_link (r : Side) (f : Hpt → Hpt) : (s.modHpt r f).link = s.link := rfl
@[simp] theorem State.modHpt_rlg (r : Side) (f : Hpt → Hpt) : (s.modHpt r f).rlg = s.rlg := rfl
@[simp] theorem State.modHpt_evr (r : Side) (f : Hpt → Hpt) : (s.modHpt r f).evr = s.evr := rfl
@[simp] theorem State.modHpt_cry (r : Side) (f : Hpt → Hpt) : (s.modHpt r f).cry = s.cry := rfl
@[simp] theorem State.modHpt_rcp (r : Side) (f : Hpt → Hpt) : (s.modHpt r f).rcp = s.rcp := rfl
@[simp] theorem State.modHpt_fus (r : Side) (f : Hpt → Hpt) : (s.modHpt r f).fus = s.fus := rfl
@[simp] theorem State.modHpt_mem (r : Side) (f : Hpt → Hpt) : (s.modHpt r f).mem = s.mem := rfl
@[simp] theorem State.modHpt_dram (r : Side) (f : Hpt → Hpt) : (s.modHpt r f).dram = s.dram := rfl
@[simp] theorem State.modHpt_cen (r : Side) (f : Hpt → Hpt) : (s.modHpt r f).cen = s.cen := rfl
@[simp] theorem State.modHpt_mtr (r : Side) (f : Hpt → Hpt) : (s.modHpt r f).mtr = s.mtr := rfl
@[simp] theorem State.modHpt_mon (r : Side) (f : Hpt → Hpt) : (s.modHpt r f).mon = s.mon := rfl
@[simp] theorem State.modHpt_ste (r : Side) (f : Hpt → Hpt) : (s.modHpt r f).ste = s.ste := rfl
@[simp] theorem State.modHpt_ztb (r : Side) (f : Hpt → Hpt) : (s.modHpt r f).ztb = s.ztb := rfl
@[simp] theorem State.modHpt_member (r : Side) (f : Hpt → Hpt) : (s.modHpt r f).member = s.member := rfl
@[simp] theorem State.modHpt_redun (r : Side) (f : Hpt → Hpt) : (s.modHpt r f).redun = s.redun := rfl
@[simp] theorem State.modHpt_crn (r : Side) (f : Hpt → Hpt) : (s.modHpt r f).crn = s.crn := rfl
@[simp] theorem State.modHpt_win (r : Side) (f : Hpt → Hpt) : (s.modHpt r f).win = s.win := rfl
@[simp] theorem State.modHpt_nve (r : Side) (f : Hpt → Hpt) : (s.modHpt r f).nve = s.nve := rfl
@[simp] theorem State.modHpt_hdg (r : Side) (f : Hpt → Hpt) : (s.modHpt r f).hdg = s.hdg := rfl
@[simp] theorem State.modHpt_hpt (r : Side) (f : Hpt → Hpt) : (s.modHpt r f).hpt = s.hpt.set r (f (s.hpt.get r)) := rfl
@[simp] theorem State.modHpt_mgmt (r : Side) (f : Hpt → Hpt) : (s.modHpt r f).mgmt = s.mgmt := rfl
@[simp] theorem State.modHpt_pins (r : Side) (f : Hpt → Hpt) : (s.modHpt r f).pins = s.pins := rfl

/-! ### modDram -/

@[simp] theorem State.modDram_pending (r : Side) (f : DramCh → DramCh) : (s.modDram r f).pending = s.pending := rfl
@[simp] theorem State.modDram_freeCtr (r : Side) (f : DramCh → DramCh) : (s.modDram r f).freeCtr = s.freeCtr := rfl
@[simp] theorem State.modDram_regs (r : Side) (f : DramCh → DramCh) : (s.modDram r f).regs = s.regs := rfl
@[simp] theorem State.modDram_core (r : Side) (f : DramCh → DramCh) : (s.modDram r f).core = s.core := rfl
@[simp] theorem State.modDram_ang (r : Side) (f : DramCh → DramCh) : (s.modDram r f).ang = s.ang := rfl
@[simp] theorem State.modDram_tile (r : Side) (f : DramCh → DramCh) : (s.modDram r f).tile = s.tile := rfl
@[simp] theorem State.modDram_dec (r : Side) (f : DramCh → DramCh) : (s.modDram r f).dec = s.dec := rfl
@[simp] theorem State.modDram_link (r : Side) (f : DramCh → DramCh) : (s.modDram r f).link = s.link := rfl
@[simp] theorem State.modDram_rlg (r : Side) (f : DramCh → DramCh) : (s.modDram r f).rlg = s.rlg := rfl
@[simp] theorem State.modDram_evr (r : Side) (f : DramCh → DramCh) : (s.modDram r f).evr = s.evr := rfl
@[simp] theorem State.modDram_cry (r : Side) (f : DramCh → DramCh) : (s.modDram r f).cry = s.cry := rfl
@[simp] theorem State.modDram_rcp (r : Side) (f : DramCh → DramCh) : (s.modDram r f).rcp = s.rcp := rfl
@[simp] theorem State.modDram_fus (r : Side) (f : DramCh → DramCh) : (s.modDram r f).fus = s.fus := rfl
@[simp] theorem State.modDram_mem (r : Side) (f : DramCh → DramCh) : (s.modDram r f).mem = s.mem := rfl
@[simp] theorem State.modDram_dram (r : Side) (f : DramCh → DramCh) : (s.modDram r f).dram = s.dram.set r (f (s.dram.get r)) := rfl
@[simp] theorem State.modDram_cen (r : Side) (f : DramCh → DramCh) : (s.modDram r f).cen = s.cen := rfl
@[simp] theorem State.modDram_mtr (r : Side) (f : DramCh → DramCh) : (s.modDram r f).mtr = s.mtr := rfl
@[simp] theorem State.modDram_mon (r : Side) (f : DramCh → DramCh) : (s.modDram r f).mon = s.mon := rfl
@[simp] theorem State.modDram_ste (r : Side) (f : DramCh → DramCh) : (s.modDram r f).ste = s.ste := rfl
@[simp] theorem State.modDram_ztb (r : Side) (f : DramCh → DramCh) : (s.modDram r f).ztb = s.ztb := rfl
@[simp] theorem State.modDram_member (r : Side) (f : DramCh → DramCh) : (s.modDram r f).member = s.member := rfl
@[simp] theorem State.modDram_redun (r : Side) (f : DramCh → DramCh) : (s.modDram r f).redun = s.redun := rfl
@[simp] theorem State.modDram_crn (r : Side) (f : DramCh → DramCh) : (s.modDram r f).crn = s.crn := rfl
@[simp] theorem State.modDram_win (r : Side) (f : DramCh → DramCh) : (s.modDram r f).win = s.win := rfl
@[simp] theorem State.modDram_nve (r : Side) (f : DramCh → DramCh) : (s.modDram r f).nve = s.nve := rfl
@[simp] theorem State.modDram_hdg (r : Side) (f : DramCh → DramCh) : (s.modDram r f).hdg = s.hdg := rfl
@[simp] theorem State.modDram_hpt (r : Side) (f : DramCh → DramCh) : (s.modDram r f).hpt = s.hpt := rfl
@[simp] theorem State.modDram_mgmt (r : Side) (f : DramCh → DramCh) : (s.modDram r f).mgmt = s.mgmt := rfl
@[simp] theorem State.modDram_pins (r : Side) (f : DramCh → DramCh) : (s.modDram r f).pins = s.pins := rfl

/-! ### modMem -/

@[simp] theorem State.modMem_pending (r : Side) (f : Sparse ScrubMem → Sparse ScrubMem) : (s.modMem r f).pending = s.pending := rfl
@[simp] theorem State.modMem_freeCtr (r : Side) (f : Sparse ScrubMem → Sparse ScrubMem) : (s.modMem r f).freeCtr = s.freeCtr := rfl
@[simp] theorem State.modMem_regs (r : Side) (f : Sparse ScrubMem → Sparse ScrubMem) : (s.modMem r f).regs = s.regs := rfl
@[simp] theorem State.modMem_core (r : Side) (f : Sparse ScrubMem → Sparse ScrubMem) : (s.modMem r f).core = s.core := rfl
@[simp] theorem State.modMem_ang (r : Side) (f : Sparse ScrubMem → Sparse ScrubMem) : (s.modMem r f).ang = s.ang := rfl
@[simp] theorem State.modMem_tile (r : Side) (f : Sparse ScrubMem → Sparse ScrubMem) : (s.modMem r f).tile = s.tile := rfl
@[simp] theorem State.modMem_dec (r : Side) (f : Sparse ScrubMem → Sparse ScrubMem) : (s.modMem r f).dec = s.dec := rfl
@[simp] theorem State.modMem_link (r : Side) (f : Sparse ScrubMem → Sparse ScrubMem) : (s.modMem r f).link = s.link := rfl
@[simp] theorem State.modMem_rlg (r : Side) (f : Sparse ScrubMem → Sparse ScrubMem) : (s.modMem r f).rlg = s.rlg := rfl
@[simp] theorem State.modMem_evr (r : Side) (f : Sparse ScrubMem → Sparse ScrubMem) : (s.modMem r f).evr = s.evr := rfl
@[simp] theorem State.modMem_cry (r : Side) (f : Sparse ScrubMem → Sparse ScrubMem) : (s.modMem r f).cry = s.cry := rfl
@[simp] theorem State.modMem_rcp (r : Side) (f : Sparse ScrubMem → Sparse ScrubMem) : (s.modMem r f).rcp = s.rcp := rfl
@[simp] theorem State.modMem_fus (r : Side) (f : Sparse ScrubMem → Sparse ScrubMem) : (s.modMem r f).fus = s.fus := rfl
@[simp] theorem State.modMem_mem (r : Side) (f : Sparse ScrubMem → Sparse ScrubMem) : (s.modMem r f).mem = s.mem.set r (f (s.mem.get r)) := rfl
@[simp] theorem State.modMem_dram (r : Side) (f : Sparse ScrubMem → Sparse ScrubMem) : (s.modMem r f).dram = s.dram := rfl
@[simp] theorem State.modMem_cen (r : Side) (f : Sparse ScrubMem → Sparse ScrubMem) : (s.modMem r f).cen = s.cen := rfl
@[simp] theorem State.modMem_mtr (r : Side) (f : Sparse ScrubMem → Sparse ScrubMem) : (s.modMem r f).mtr = s.mtr := rfl
@[simp] theorem State.modMem_mon (r : Side) (f : Sparse ScrubMem → Sparse ScrubMem) : (s.modMem r f).mon = s.mon := rfl
@[simp] theorem State.modMem_ste (r : Side) (f : Sparse ScrubMem → Sparse ScrubMem) : (s.modMem r f).ste = s.ste := rfl
@[simp] theorem State.modMem_ztb (r : Side) (f : Sparse ScrubMem → Sparse ScrubMem) : (s.modMem r f).ztb = s.ztb := rfl
@[simp] theorem State.modMem_member (r : Side) (f : Sparse ScrubMem → Sparse ScrubMem) : (s.modMem r f).member = s.member := rfl
@[simp] theorem State.modMem_redun (r : Side) (f : Sparse ScrubMem → Sparse ScrubMem) : (s.modMem r f).redun = s.redun := rfl
@[simp] theorem State.modMem_crn (r : Side) (f : Sparse ScrubMem → Sparse ScrubMem) : (s.modMem r f).crn = s.crn := rfl
@[simp] theorem State.modMem_win (r : Side) (f : Sparse ScrubMem → Sparse ScrubMem) : (s.modMem r f).win = s.win := rfl
@[simp] theorem State.modMem_nve (r : Side) (f : Sparse ScrubMem → Sparse ScrubMem) : (s.modMem r f).nve = s.nve := rfl
@[simp] theorem State.modMem_hdg (r : Side) (f : Sparse ScrubMem → Sparse ScrubMem) : (s.modMem r f).hdg = s.hdg := rfl
@[simp] theorem State.modMem_hpt (r : Side) (f : Sparse ScrubMem → Sparse ScrubMem) : (s.modMem r f).hpt = s.hpt := rfl
@[simp] theorem State.modMem_mgmt (r : Side) (f : Sparse ScrubMem → Sparse ScrubMem) : (s.modMem r f).mgmt = s.mgmt := rfl
@[simp] theorem State.modMem_pins (r : Side) (f : Sparse ScrubMem → Sparse ScrubMem) : (s.modMem r f).pins = s.pins := rfl

/-! ### modCry -/

@[simp] theorem State.modCry_pending (f : Cry → Cry) : (s.modCry f).pending = s.pending := rfl
@[simp] theorem State.modCry_freeCtr (f : Cry → Cry) : (s.modCry f).freeCtr = s.freeCtr := rfl
@[simp] theorem State.modCry_regs (f : Cry → Cry) : (s.modCry f).regs = s.regs := rfl
@[simp] theorem State.modCry_core (f : Cry → Cry) : (s.modCry f).core = s.core := rfl
@[simp] theorem State.modCry_ang (f : Cry → Cry) : (s.modCry f).ang = s.ang := rfl
@[simp] theorem State.modCry_tile (f : Cry → Cry) : (s.modCry f).tile = s.tile := rfl
@[simp] theorem State.modCry_dec (f : Cry → Cry) : (s.modCry f).dec = s.dec := rfl
@[simp] theorem State.modCry_link (f : Cry → Cry) : (s.modCry f).link = s.link := rfl
@[simp] theorem State.modCry_rlg (f : Cry → Cry) : (s.modCry f).rlg = s.rlg := rfl
@[simp] theorem State.modCry_evr (f : Cry → Cry) : (s.modCry f).evr = s.evr := rfl
@[simp] theorem State.modCry_cry (f : Cry → Cry) : (s.modCry f).cry = f s.cry := rfl
@[simp] theorem State.modCry_rcp (f : Cry → Cry) : (s.modCry f).rcp = s.rcp := rfl
@[simp] theorem State.modCry_fus (f : Cry → Cry) : (s.modCry f).fus = s.fus := rfl
@[simp] theorem State.modCry_mem (f : Cry → Cry) : (s.modCry f).mem = s.mem := rfl
@[simp] theorem State.modCry_dram (f : Cry → Cry) : (s.modCry f).dram = s.dram := rfl
@[simp] theorem State.modCry_cen (f : Cry → Cry) : (s.modCry f).cen = s.cen := rfl
@[simp] theorem State.modCry_mtr (f : Cry → Cry) : (s.modCry f).mtr = s.mtr := rfl
@[simp] theorem State.modCry_mon (f : Cry → Cry) : (s.modCry f).mon = s.mon := rfl
@[simp] theorem State.modCry_ste (f : Cry → Cry) : (s.modCry f).ste = s.ste := rfl
@[simp] theorem State.modCry_ztb (f : Cry → Cry) : (s.modCry f).ztb = s.ztb := rfl
@[simp] theorem State.modCry_member (f : Cry → Cry) : (s.modCry f).member = s.member := rfl
@[simp] theorem State.modCry_redun (f : Cry → Cry) : (s.modCry f).redun = s.redun := rfl
@[simp] theorem State.modCry_crn (f : Cry → Cry) : (s.modCry f).crn = s.crn := rfl
@[simp] theorem State.modCry_win (f : Cry → Cry) : (s.modCry f).win = s.win := rfl
@[simp] theorem State.modCry_nve (f : Cry → Cry) : (s.modCry f).nve = s.nve := rfl
@[simp] theorem State.modCry_hdg (f : Cry → Cry) : (s.modCry f).hdg = s.hdg := rfl
@[simp] theorem State.modCry_hpt (f : Cry → Cry) : (s.modCry f).hpt = s.hpt := rfl
@[simp] theorem State.modCry_mgmt (f : Cry → Cry) : (s.modCry f).mgmt = s.mgmt := rfl
@[simp] theorem State.modCry_pins (f : Cry → Cry) : (s.modCry f).pins = s.pins := rfl

/-! ### modFus -/

@[simp] theorem State.modFus_pending (f : Fus → Fus) : (s.modFus f).pending = s.pending := rfl
@[simp] theorem State.modFus_freeCtr (f : Fus → Fus) : (s.modFus f).freeCtr = s.freeCtr := rfl
@[simp] theorem State.modFus_regs (f : Fus → Fus) : (s.modFus f).regs = s.regs := rfl
@[simp] theorem State.modFus_core (f : Fus → Fus) : (s.modFus f).core = s.core := rfl
@[simp] theorem State.modFus_ang (f : Fus → Fus) : (s.modFus f).ang = s.ang := rfl
@[simp] theorem State.modFus_tile (f : Fus → Fus) : (s.modFus f).tile = s.tile := rfl
@[simp] theorem State.modFus_dec (f : Fus → Fus) : (s.modFus f).dec = s.dec := rfl
@[simp] theorem State.modFus_link (f : Fus → Fus) : (s.modFus f).link = s.link := rfl
@[simp] theorem State.modFus_rlg (f : Fus → Fus) : (s.modFus f).rlg = s.rlg := rfl
@[simp] theorem State.modFus_evr (f : Fus → Fus) : (s.modFus f).evr = s.evr := rfl
@[simp] theorem State.modFus_cry (f : Fus → Fus) : (s.modFus f).cry = s.cry := rfl
@[simp] theorem State.modFus_rcp (f : Fus → Fus) : (s.modFus f).rcp = s.rcp := rfl
@[simp] theorem State.modFus_fus (f : Fus → Fus) : (s.modFus f).fus = f s.fus := rfl
@[simp] theorem State.modFus_mem (f : Fus → Fus) : (s.modFus f).mem = s.mem := rfl
@[simp] theorem State.modFus_dram (f : Fus → Fus) : (s.modFus f).dram = s.dram := rfl
@[simp] theorem State.modFus_cen (f : Fus → Fus) : (s.modFus f).cen = s.cen := rfl
@[simp] theorem State.modFus_mtr (f : Fus → Fus) : (s.modFus f).mtr = s.mtr := rfl
@[simp] theorem State.modFus_mon (f : Fus → Fus) : (s.modFus f).mon = s.mon := rfl
@[simp] theorem State.modFus_ste (f : Fus → Fus) : (s.modFus f).ste = s.ste := rfl
@[simp] theorem State.modFus_ztb (f : Fus → Fus) : (s.modFus f).ztb = s.ztb := rfl
@[simp] theorem State.modFus_member (f : Fus → Fus) : (s.modFus f).member = s.member := rfl
@[simp] theorem State.modFus_redun (f : Fus → Fus) : (s.modFus f).redun = s.redun := rfl
@[simp] theorem State.modFus_crn (f : Fus → Fus) : (s.modFus f).crn = s.crn := rfl
@[simp] theorem State.modFus_win (f : Fus → Fus) : (s.modFus f).win = s.win := rfl
@[simp] theorem State.modFus_nve (f : Fus → Fus) : (s.modFus f).nve = s.nve := rfl
@[simp] theorem State.modFus_hdg (f : Fus → Fus) : (s.modFus f).hdg = s.hdg := rfl
@[simp] theorem State.modFus_hpt (f : Fus → Fus) : (s.modFus f).hpt = s.hpt := rfl
@[simp] theorem State.modFus_mgmt (f : Fus → Fus) : (s.modFus f).mgmt = s.mgmt := rfl
@[simp] theorem State.modFus_pins (f : Fus → Fus) : (s.modFus f).pins = s.pins := rfl

/-! ### modMember -/

@[simp] theorem State.modMember_pending (f : Sparse Member → Sparse Member) : (s.modMember f).pending = s.pending := rfl
@[simp] theorem State.modMember_freeCtr (f : Sparse Member → Sparse Member) : (s.modMember f).freeCtr = s.freeCtr := rfl
@[simp] theorem State.modMember_regs (f : Sparse Member → Sparse Member) : (s.modMember f).regs = s.regs := rfl
@[simp] theorem State.modMember_core (f : Sparse Member → Sparse Member) : (s.modMember f).core = s.core := rfl
@[simp] theorem State.modMember_ang (f : Sparse Member → Sparse Member) : (s.modMember f).ang = s.ang := rfl
@[simp] theorem State.modMember_tile (f : Sparse Member → Sparse Member) : (s.modMember f).tile = s.tile := rfl
@[simp] theorem State.modMember_dec (f : Sparse Member → Sparse Member) : (s.modMember f).dec = s.dec := rfl
@[simp] theorem State.modMember_link (f : Sparse Member → Sparse Member) : (s.modMember f).link = s.link := rfl
@[simp] theorem State.modMember_rlg (f : Sparse Member → Sparse Member) : (s.modMember f).rlg = s.rlg := rfl
@[simp] theorem State.modMember_evr (f : Sparse Member → Sparse Member) : (s.modMember f).evr = s.evr := rfl
@[simp] theorem State.modMember_cry (f : Sparse Member → Sparse Member) : (s.modMember f).cry = s.cry := rfl
@[simp] theorem State.modMember_rcp (f : Sparse Member → Sparse Member) : (s.modMember f).rcp = s.rcp := rfl
@[simp] theorem State.modMember_fus (f : Sparse Member → Sparse Member) : (s.modMember f).fus = s.fus := rfl
@[simp] theorem State.modMember_mem (f : Sparse Member → Sparse Member) : (s.modMember f).mem = s.mem := rfl
@[simp] theorem State.modMember_dram (f : Sparse Member → Sparse Member) : (s.modMember f).dram = s.dram := rfl
@[simp] theorem State.modMember_cen (f : Sparse Member → Sparse Member) : (s.modMember f).cen = s.cen := rfl
@[simp] theorem State.modMember_mtr (f : Sparse Member → Sparse Member) : (s.modMember f).mtr = s.mtr := rfl
@[simp] theorem State.modMember_mon (f : Sparse Member → Sparse Member) : (s.modMember f).mon = s.mon := rfl
@[simp] theorem State.modMember_ste (f : Sparse Member → Sparse Member) : (s.modMember f).ste = s.ste := rfl
@[simp] theorem State.modMember_ztb (f : Sparse Member → Sparse Member) : (s.modMember f).ztb = s.ztb := rfl
@[simp] theorem State.modMember_member (f : Sparse Member → Sparse Member) : (s.modMember f).member = f s.member := rfl
@[simp] theorem State.modMember_redun (f : Sparse Member → Sparse Member) : (s.modMember f).redun = s.redun := rfl
@[simp] theorem State.modMember_crn (f : Sparse Member → Sparse Member) : (s.modMember f).crn = s.crn := rfl
@[simp] theorem State.modMember_win (f : Sparse Member → Sparse Member) : (s.modMember f).win = s.win := rfl
@[simp] theorem State.modMember_nve (f : Sparse Member → Sparse Member) : (s.modMember f).nve = s.nve := rfl
@[simp] theorem State.modMember_hdg (f : Sparse Member → Sparse Member) : (s.modMember f).hdg = s.hdg := rfl
@[simp] theorem State.modMember_hpt (f : Sparse Member → Sparse Member) : (s.modMember f).hpt = s.hpt := rfl
@[simp] theorem State.modMember_mgmt (f : Sparse Member → Sparse Member) : (s.modMember f).mgmt = s.mgmt := rfl
@[simp] theorem State.modMember_pins (f : Sparse Member → Sparse Member) : (s.modMember f).pins = s.pins := rfl

/-! ### modMgmt -/

@[simp] theorem State.modMgmt_pending (f : Mgmt → Mgmt) : (s.modMgmt f).pending = s.pending := rfl
@[simp] theorem State.modMgmt_freeCtr (f : Mgmt → Mgmt) : (s.modMgmt f).freeCtr = s.freeCtr := rfl
@[simp] theorem State.modMgmt_regs (f : Mgmt → Mgmt) : (s.modMgmt f).regs = s.regs := rfl
@[simp] theorem State.modMgmt_core (f : Mgmt → Mgmt) : (s.modMgmt f).core = s.core := rfl
@[simp] theorem State.modMgmt_ang (f : Mgmt → Mgmt) : (s.modMgmt f).ang = s.ang := rfl
@[simp] theorem State.modMgmt_tile (f : Mgmt → Mgmt) : (s.modMgmt f).tile = s.tile := rfl
@[simp] theorem State.modMgmt_dec (f : Mgmt → Mgmt) : (s.modMgmt f).dec = s.dec := rfl
@[simp] theorem State.modMgmt_link (f : Mgmt → Mgmt) : (s.modMgmt f).link = s.link := rfl
@[simp] theorem State.modMgmt_rlg (f : Mgmt → Mgmt) : (s.modMgmt f).rlg = s.rlg := rfl
@[simp] theorem State.modMgmt_evr (f : Mgmt → Mgmt) : (s.modMgmt f).evr = s.evr := rfl
@[simp] theorem State.modMgmt_cry (f : Mgmt → Mgmt) : (s.modMgmt f).cry = s.cry := rfl
@[simp] theorem State.modMgmt_rcp (f : Mgmt → Mgmt) : (s.modMgmt f).rcp = s.rcp := rfl
@[simp] theorem State.modMgmt_fus (f : Mgmt → Mgmt) : (s.modMgmt f).fus = s.fus := rfl
@[simp] theorem State.modMgmt_mem (f : Mgmt → Mgmt) : (s.modMgmt f).mem = s.mem := rfl
@[simp] theorem State.modMgmt_dram (f : Mgmt → Mgmt) : (s.modMgmt f).dram = s.dram := rfl
@[simp] theorem State.modMgmt_cen (f : Mgmt → Mgmt) : (s.modMgmt f).cen = s.cen := rfl
@[simp] theorem State.modMgmt_mtr (f : Mgmt → Mgmt) : (s.modMgmt f).mtr = s.mtr := rfl
@[simp] theorem State.modMgmt_mon (f : Mgmt → Mgmt) : (s.modMgmt f).mon = s.mon := rfl
@[simp] theorem State.modMgmt_ste (f : Mgmt → Mgmt) : (s.modMgmt f).ste = s.ste := rfl
@[simp] theorem State.modMgmt_ztb (f : Mgmt → Mgmt) : (s.modMgmt f).ztb = s.ztb := rfl
@[simp] theorem State.modMgmt_member (f : Mgmt → Mgmt) : (s.modMgmt f).member = s.member := rfl
@[simp] theorem State.modMgmt_redun (f : Mgmt → Mgmt) : (s.modMgmt f).redun = s.redun := rfl
@[simp] theorem State.modMgmt_crn (f : Mgmt → Mgmt) : (s.modMgmt f).crn = s.crn := rfl
@[simp] theorem State.modMgmt_win (f : Mgmt → Mgmt) : (s.modMgmt f).win = s.win := rfl
@[simp] theorem State.modMgmt_nve (f : Mgmt → Mgmt) : (s.modMgmt f).nve = s.nve := rfl
@[simp] theorem State.modMgmt_hdg (f : Mgmt → Mgmt) : (s.modMgmt f).hdg = s.hdg := rfl
@[simp] theorem State.modMgmt_hpt (f : Mgmt → Mgmt) : (s.modMgmt f).hpt = s.hpt := rfl
@[simp] theorem State.modMgmt_mgmt (f : Mgmt → Mgmt) : (s.modMgmt f).mgmt = f s.mgmt := rfl
@[simp] theorem State.modMgmt_pins (f : Mgmt → Mgmt) : (s.modMgmt f).pins = s.pins := rfl

/-! ### modPins -/

@[simp] theorem State.modPins_pending (f : Pins → Pins) : (s.modPins f).pending = s.pending := rfl
@[simp] theorem State.modPins_freeCtr (f : Pins → Pins) : (s.modPins f).freeCtr = s.freeCtr := rfl
@[simp] theorem State.modPins_regs (f : Pins → Pins) : (s.modPins f).regs = s.regs := rfl
@[simp] theorem State.modPins_core (f : Pins → Pins) : (s.modPins f).core = s.core := rfl
@[simp] theorem State.modPins_ang (f : Pins → Pins) : (s.modPins f).ang = s.ang := rfl
@[simp] theorem State.modPins_tile (f : Pins → Pins) : (s.modPins f).tile = s.tile := rfl
@[simp] theorem State.modPins_dec (f : Pins → Pins) : (s.modPins f).dec = s.dec := rfl
@[simp] theorem State.modPins_link (f : Pins → Pins) : (s.modPins f).link = s.link := rfl
@[simp] theorem State.modPins_rlg (f : Pins → Pins) : (s.modPins f).rlg = s.rlg := rfl
@[simp] theorem State.modPins_evr (f : Pins → Pins) : (s.modPins f).evr = s.evr := rfl
@[simp] theorem State.modPins_cry (f : Pins → Pins) : (s.modPins f).cry = s.cry := rfl
@[simp] theorem State.modPins_rcp (f : Pins → Pins) : (s.modPins f).rcp = s.rcp := rfl
@[simp] theorem State.modPins_fus (f : Pins → Pins) : (s.modPins f).fus = s.fus := rfl
@[simp] theorem State.modPins_mem (f : Pins → Pins) : (s.modPins f).mem = s.mem := rfl
@[simp] theorem State.modPins_dram (f : Pins → Pins) : (s.modPins f).dram = s.dram := rfl
@[simp] theorem State.modPins_cen (f : Pins → Pins) : (s.modPins f).cen = s.cen := rfl
@[simp] theorem State.modPins_mtr (f : Pins → Pins) : (s.modPins f).mtr = s.mtr := rfl
@[simp] theorem State.modPins_mon (f : Pins → Pins) : (s.modPins f).mon = s.mon := rfl
@[simp] theorem State.modPins_ste (f : Pins → Pins) : (s.modPins f).ste = s.ste := rfl
@[simp] theorem State.modPins_ztb (f : Pins → Pins) : (s.modPins f).ztb = s.ztb := rfl
@[simp] theorem State.modPins_member (f : Pins → Pins) : (s.modPins f).member = s.member := rfl
@[simp] theorem State.modPins_redun (f : Pins → Pins) : (s.modPins f).redun = s.redun := rfl
@[simp] theorem State.modPins_crn (f : Pins → Pins) : (s.modPins f).crn = s.crn := rfl
@[simp] theorem State.modPins_win (f : Pins → Pins) : (s.modPins f).win = s.win := rfl
@[simp] theorem State.modPins_nve (f : Pins → Pins) : (s.modPins f).nve = s.nve := rfl
@[simp] theorem State.modPins_hdg (f : Pins → Pins) : (s.modPins f).hdg = s.hdg := rfl
@[simp] theorem State.modPins_hpt (f : Pins → Pins) : (s.modPins f).hpt = s.hpt := rfl
@[simp] theorem State.modPins_mgmt (f : Pins → Pins) : (s.modPins f).mgmt = s.mgmt := rfl
@[simp] theorem State.modPins_pins (f : Pins → Pins) : (s.modPins f).pins = f s.pins := rfl

/-! ### setCtx -/

@[simp] theorem State.setCtx_pending (c : CtxId) (x : Ctx) : (s.setCtx c x).pending = s.pending := rfl
@[simp] theorem State.setCtx_freeCtr (c : CtxId) (x : Ctx) : (s.setCtx c x).freeCtr = s.freeCtr := rfl
@[simp] theorem State.setCtx_regs (c : CtxId) (x : Ctx) : (s.setCtx c x).regs = s.regs := rfl
@[simp] theorem State.setCtx_ang (c : CtxId) (x : Ctx) : (s.setCtx c x).ang = s.ang := rfl
@[simp] theorem State.setCtx_tile (c : CtxId) (x : Ctx) : (s.setCtx c x).tile = s.tile := rfl
@[simp] theorem State.setCtx_dec (c : CtxId) (x : Ctx) : (s.setCtx c x).dec = s.dec := rfl
@[simp] theorem State.setCtx_link (c : CtxId) (x : Ctx) : (s.setCtx c x).link = s.link := rfl
@[simp] theorem State.setCtx_rlg (c : CtxId) (x : Ctx) : (s.setCtx c x).rlg = s.rlg := rfl
@[simp] theorem State.setCtx_evr (c : CtxId) (x : Ctx) : (s.setCtx c x).evr = s.evr := rfl
@[simp] theorem State.setCtx_cry (c : CtxId) (x : Ctx) : (s.setCtx c x).cry = s.cry := rfl
@[simp] theorem State.setCtx_rcp (c : CtxId) (x : Ctx) : (s.setCtx c x).rcp = s.rcp := rfl
@[simp] theorem State.setCtx_fus (c : CtxId) (x : Ctx) : (s.setCtx c x).fus = s.fus := rfl
@[simp] theorem State.setCtx_mem (c : CtxId) (x : Ctx) : (s.setCtx c x).mem = s.mem := rfl
@[simp] theorem State.setCtx_dram (c : CtxId) (x : Ctx) : (s.setCtx c x).dram = s.dram := rfl
@[simp] theorem State.setCtx_cen (c : CtxId) (x : Ctx) : (s.setCtx c x).cen = s.cen := rfl
@[simp] theorem State.setCtx_mtr (c : CtxId) (x : Ctx) : (s.setCtx c x).mtr = s.mtr := rfl
@[simp] theorem State.setCtx_mon (c : CtxId) (x : Ctx) : (s.setCtx c x).mon = s.mon := rfl
@[simp] theorem State.setCtx_ste (c : CtxId) (x : Ctx) : (s.setCtx c x).ste = s.ste := rfl
@[simp] theorem State.setCtx_ztb (c : CtxId) (x : Ctx) : (s.setCtx c x).ztb = s.ztb := rfl
@[simp] theorem State.setCtx_member (c : CtxId) (x : Ctx) : (s.setCtx c x).member = s.member := rfl
@[simp] theorem State.setCtx_redun (c : CtxId) (x : Ctx) : (s.setCtx c x).redun = s.redun := rfl
@[simp] theorem State.setCtx_crn (c : CtxId) (x : Ctx) : (s.setCtx c x).crn = s.crn := rfl
@[simp] theorem State.setCtx_win (c : CtxId) (x : Ctx) : (s.setCtx c x).win = s.win := rfl
@[simp] theorem State.setCtx_nve (c : CtxId) (x : Ctx) : (s.setCtx c x).nve = s.nve := rfl
@[simp] theorem State.setCtx_hdg (c : CtxId) (x : Ctx) : (s.setCtx c x).hdg = s.hdg := rfl
@[simp] theorem State.setCtx_hpt (c : CtxId) (x : Ctx) : (s.setCtx c x).hpt = s.hpt := rfl
@[simp] theorem State.setCtx_mgmt (c : CtxId) (x : Ctx) : (s.setCtx c x).mgmt = s.mgmt := rfl
@[simp] theorem State.setCtx_pins (c : CtxId) (x : Ctx) : (s.setCtx c x).pins = s.pins := rfl

/-! ### modCtx -/

@[simp] theorem State.modCtx_pending (c : CtxId) (f : Ctx → Ctx) : (s.modCtx c f).pending = s.pending := rfl
@[simp] theorem State.modCtx_freeCtr (c : CtxId) (f : Ctx → Ctx) : (s.modCtx c f).freeCtr = s.freeCtr := rfl
@[simp] theorem State.modCtx_regs (c : CtxId) (f : Ctx → Ctx) : (s.modCtx c f).regs = s.regs := rfl
@[simp] theorem State.modCtx_ang (c : CtxId) (f : Ctx → Ctx) : (s.modCtx c f).ang = s.ang := rfl
@[simp] theorem State.modCtx_tile (c : CtxId) (f : Ctx → Ctx) : (s.modCtx c f).tile = s.tile := rfl
@[simp] theorem State.modCtx_dec (c : CtxId) (f : Ctx → Ctx) : (s.modCtx c f).dec = s.dec := rfl
@[simp] theorem State.modCtx_link (c : CtxId) (f : Ctx → Ctx) : (s.modCtx c f).link = s.link := rfl
@[simp] theorem State.modCtx_rlg (c : CtxId) (f : Ctx → Ctx) : (s.modCtx c f).rlg = s.rlg := rfl
@[simp] theorem State.modCtx_evr (c : CtxId) (f : Ctx → Ctx) : (s.modCtx c f).evr = s.evr := rfl
@[simp] theorem State.modCtx_cry (c : CtxId) (f : Ctx → Ctx) : (s.modCtx c f).cry = s.cry := rfl
@[simp] theorem State.modCtx_rcp (c : CtxId) (f : Ctx → Ctx) : (s.modCtx c f).rcp = s.rcp := rfl
@[simp] theorem State.modCtx_fus (c : CtxId) (f : Ctx → Ctx) : (s.modCtx c f).fus = s.fus := rfl
@[simp] theorem State.modCtx_mem (c : CtxId) (f : Ctx → Ctx) : (s.modCtx c f).mem = s.mem := rfl
@[simp] theorem State.modCtx_dram (c : CtxId) (f : Ctx → Ctx) : (s.modCtx c f).dram = s.dram := rfl
@[simp] theorem State.modCtx_cen (c : CtxId) (f : Ctx → Ctx) : (s.modCtx c f).cen = s.cen := rfl
@[simp] theorem State.modCtx_mtr (c : CtxId) (f : Ctx → Ctx) : (s.modCtx c f).mtr = s.mtr := rfl
@[simp] theorem State.modCtx_mon (c : CtxId) (f : Ctx → Ctx) : (s.modCtx c f).mon = s.mon := rfl
@[simp] theorem State.modCtx_ste (c : CtxId) (f : Ctx → Ctx) : (s.modCtx c f).ste = s.ste := rfl
@[simp] theorem State.modCtx_ztb (c : CtxId) (f : Ctx → Ctx) : (s.modCtx c f).ztb = s.ztb := rfl
@[simp] theorem State.modCtx_member (c : CtxId) (f : Ctx → Ctx) : (s.modCtx c f).member = s.member := rfl
@[simp] theorem State.modCtx_redun (c : CtxId) (f : Ctx → Ctx) : (s.modCtx c f).redun = s.redun := rfl
@[simp] theorem State.modCtx_crn (c : CtxId) (f : Ctx → Ctx) : (s.modCtx c f).crn = s.crn := rfl
@[simp] theorem State.modCtx_win (c : CtxId) (f : Ctx → Ctx) : (s.modCtx c f).win = s.win := rfl
@[simp] theorem State.modCtx_nve (c : CtxId) (f : Ctx → Ctx) : (s.modCtx c f).nve = s.nve := rfl
@[simp] theorem State.modCtx_hdg (c : CtxId) (f : Ctx → Ctx) : (s.modCtx c f).hdg = s.hdg := rfl
@[simp] theorem State.modCtx_hpt (c : CtxId) (f : Ctx → Ctx) : (s.modCtx c f).hpt = s.hpt := rfl
@[simp] theorem State.modCtx_mgmt (c : CtxId) (f : Ctx → Ctx) : (s.modCtx c f).mgmt = s.mgmt := rfl
@[simp] theorem State.modCtx_pins (c : CtxId) (f : Ctx → Ctx) : (s.modCtx c f).pins = s.pins := rfl

/-! ### freeBy -/

@[simp] theorem State.freeBy_pending (n : Nat) : (s.freeBy n).pending = s.pending := rfl
@[simp] theorem State.freeBy_freeCtr (n : Nat) : (s.freeBy n).freeCtr = s.freeCtr + n := rfl
@[simp] theorem State.freeBy_regs (n : Nat) : (s.freeBy n).regs = s.regs := rfl
@[simp] theorem State.freeBy_core (n : Nat) : (s.freeBy n).core = s.core := rfl
@[simp] theorem State.freeBy_ang (n : Nat) : (s.freeBy n).ang = s.ang := rfl
@[simp] theorem State.freeBy_tile (n : Nat) : (s.freeBy n).tile = s.tile := rfl
@[simp] theorem State.freeBy_dec (n : Nat) : (s.freeBy n).dec = s.dec := rfl
@[simp] theorem State.freeBy_link (n : Nat) : (s.freeBy n).link = s.link := rfl
@[simp] theorem State.freeBy_rlg (n : Nat) : (s.freeBy n).rlg = s.rlg := rfl
@[simp] theorem State.freeBy_evr (n : Nat) : (s.freeBy n).evr = s.evr := rfl
@[simp] theorem State.freeBy_cry (n : Nat) : (s.freeBy n).cry = s.cry := rfl
@[simp] theorem State.freeBy_rcp (n : Nat) : (s.freeBy n).rcp = s.rcp := rfl
@[simp] theorem State.freeBy_fus (n : Nat) : (s.freeBy n).fus = s.fus := rfl
@[simp] theorem State.freeBy_mem (n : Nat) : (s.freeBy n).mem = s.mem := rfl
@[simp] theorem State.freeBy_dram (n : Nat) : (s.freeBy n).dram = s.dram := rfl
@[simp] theorem State.freeBy_cen (n : Nat) : (s.freeBy n).cen = s.cen := rfl
@[simp] theorem State.freeBy_mtr (n : Nat) : (s.freeBy n).mtr = s.mtr := rfl
@[simp] theorem State.freeBy_mon (n : Nat) : (s.freeBy n).mon = s.mon := rfl
@[simp] theorem State.freeBy_ste (n : Nat) : (s.freeBy n).ste = s.ste := rfl
@[simp] theorem State.freeBy_ztb (n : Nat) : (s.freeBy n).ztb = s.ztb := rfl
@[simp] theorem State.freeBy_member (n : Nat) : (s.freeBy n).member = s.member := rfl
@[simp] theorem State.freeBy_redun (n : Nat) : (s.freeBy n).redun = s.redun := rfl
@[simp] theorem State.freeBy_crn (n : Nat) : (s.freeBy n).crn = s.crn := rfl
@[simp] theorem State.freeBy_win (n : Nat) : (s.freeBy n).win = s.win := rfl
@[simp] theorem State.freeBy_nve (n : Nat) : (s.freeBy n).nve = s.nve := rfl
@[simp] theorem State.freeBy_hdg (n : Nat) : (s.freeBy n).hdg = s.hdg := rfl
@[simp] theorem State.freeBy_hpt (n : Nat) : (s.freeBy n).hpt = s.hpt := rfl
@[simp] theorem State.freeBy_mgmt (n : Nat) : (s.freeBy n).mgmt = s.mgmt := rfl
@[simp] theorem State.freeBy_pins (n : Nat) : (s.freeBy n).pins = s.pins := rfl

/-! ### Contexts -/

theorem State.setCtx_ctx (c e : CtxId) (x : Ctx) : (s.setCtx c x).ctx e = if e = c then x else s.ctx e := by
  obtain ⟨r, sp, n⟩ := c
  obtain ⟨r', sp', n'⟩ := e
  simp only [State.setCtx, State.modCore, State.ctx, Two.get_set, CtxId.mk.injEq]
  by_cases h : r' = r
  · subst h
    simp only [if_true, Six.get_set]
    by_cases h2 : sp' = sp
    · subst h2
      simp only [if_true, Four.get_set, true_and]
    · simp [h2]
  · simp [h]

@[simp] theorem State.setCtx_ctx_self (c : CtxId) (x : Ctx) : (s.setCtx c x).ctx c = x := by simp [State.setCtx_ctx]

theorem State.setCtx_ctx_other {c e : CtxId} (x : Ctx) (h : e ≠ c) : (s.setCtx c x).ctx e = s.ctx e := by
  simp [State.setCtx_ctx, h]

@[simp] theorem State.modCtx_ctx_self (c : CtxId) (f : Ctx → Ctx) : (s.modCtx c f).ctx c = f (s.ctx c) := by
  simp [State.modCtx]

theorem State.modCtx_ctx_other {c e : CtxId} (f : Ctx → Ctx) (h : e ≠ c) : (s.modCtx c f).ctx e = s.ctx e :=
  s.setCtx_ctx_other _ h

/-- A context written back as it stands. -/
@[simp] theorem State.setCtx_same (c : CtxId) : s.setCtx c (s.ctx c) = s := by
  obtain ⟨r, sp, n⟩ := c
  cases s
  rename_i core _ _ _ _ _ _ _ _ _ _ _ _ _ _ _ _ _ _ _ _ _ _ _ _ _
  cases core
  rename_i a b
  cases r <;> simp only [State.setCtx, State.modCore, State.ctx, Two.set, Two.get]
  · obtain ⟨⟨x0, x1, x2, x3, x4, x5⟩, _, _, _, _⟩ := a
    obtain ⟨⟨_, _, _, _⟩, _⟩ := x0
    obtain ⟨⟨_, _, _, _⟩, _⟩ := x1
    obtain ⟨⟨_, _, _, _⟩, _⟩ := x2
    obtain ⟨⟨_, _, _, _⟩, _⟩ := x3
    obtain ⟨⟨_, _, _, _⟩, _⟩ := x4
    obtain ⟨⟨_, _, _, _⟩, _⟩ := x5
    cases sp <;> cases n <;> rfl
  · obtain ⟨⟨x0, x1, x2, x3, x4, x5⟩, _, _, _, _⟩ := b
    obtain ⟨⟨_, _, _, _⟩, _⟩ := x0
    obtain ⟨⟨_, _, _, _⟩, _⟩ := x1
    obtain ⟨⟨_, _, _, _⟩, _⟩ := x2
    obtain ⟨⟨_, _, _, _⟩, _⟩ := x3
    obtain ⟨⟨_, _, _, _⟩, _⟩ := x4
    obtain ⟨⟨_, _, _, _⟩, _⟩ := x5
    cases sp <;> cases n <;> rfl

@[simp] theorem State.modCtx_ridgeSt (c : CtxId) (f : Ctx → Ctx) (r : Side) : (s.modCtx c f).ridgeSt r = s.ridgeSt r := by
  simp only [State.ridgeSt, State.modCtx, State.setCtx, State.modCore, Two.get_set]
  split
  · rename_i h
    rw [h]
  · rfl

@[simp] theorem State.modCtx_ridgeLive (c : CtxId) (f : Ctx → Ctx) (r : Side) : (s.modCtx c f).ridgeLive r = s.ridgeLive r := by
  simp only [State.ridgeLive, State.modCtx_ridgeSt]

/-! ### General registers (R20) -/

variable (x : Ctx)

@[simp] theorem Ctx.rd_zero : x.rd 0 = 0 := rfl

@[simp] theorem Ctx.wr_zero (v : DWord) : x.wr 0 v = x := rfl

theorem Ctx.wr_eq (n : Nat) (v : DWord) : x.wr n v = { x with regs := (x.wr n v).regs } := by
  unfold Ctx.wr
  split <;> rfl

theorem Ctx.rd_wr_same {n : Nat} (v : DWord) (hn : n ≠ 0) (h : swf (kconst 0) x.regs = true) : (x.wr n v).rd n = v := by
  simp only [Ctx.rd, Ctx.wr, hn, if_false]
  exact sg_sp_same h

theorem Ctx.rd_wr_other {n m : Nat} (v : DWord) (hm : m ≠ n) (h : swf (kconst 0) x.regs = true) :
    (x.wr n v).rd m = x.rd m := by
  by_cases hn : n = 0
  · simp [Ctx.wr, hn]
  · by_cases hz : m = 0
    · simp [Ctx.rd, hz]
    · simp only [Ctx.rd, Ctx.wr, hn, hz, if_false]
      exact sg_sp_other hm h

/-! ### Registers -/

variable {s}

theorem State.reg_setReg_same {k : Nat} {v : Word} (h : swf regInit s.regs = true) : (s.setReg k v).reg k = v :=
  sget_sput_same h

theorem State.reg_setReg_other {k j : Nat} {v : Word} (hj : j ≠ k) (h : swf regInit s.regs = true) :
    (s.setReg k v).reg j = s.reg j := sget_sput_other hj h

theorem State.setReg_wf {k : Nat} {v : Word} (h : swf regInit s.regs = true) : swf regInit (s.setReg k v).regs = true :=
  sput_wf h

/-! ### Bits and fields -/

theorem bitMask_getLsbD (n i j : Nat) : (bitMask n i).getLsbD j = (decide (j < n) && decide (i = j)) := by
  simp only [bitMask, BitVec.getLsbD_ofNat, Nat.testBit_two_pow]

theorem bit_setBit {n : Nat} (w : BitVec n) (i j : Nat) :
    bit (setBit w i) j = (bit w j || (decide (j < n) && decide (i = j))) := by
  simp only [bit, setBit, BitVec.getLsbD_or, bitMask_getLsbD]

theorem bit_clrBit {n : Nat} (w : BitVec n) (i j : Nat) : bit (clrBit w i) j = (bit w j && !decide (i = j)) := by
  by_cases hj : j < n
  · simp only [bit, clrBit, BitVec.getLsbD_and, BitVec.getLsbD_not, bitMask_getLsbD, hj, decide_true, Bool.true_and]
  · simp only [bit, BitVec.getLsbD_of_ge _ _ (Nat.le_of_not_lt hj), Bool.false_and]

@[simp] theorem bit_setBit_same {n : Nat} (w : BitVec n) {i : Nat} (hi : i < n) : bit (setBit w i) i = true := by
  simp only [bit_setBit, hi, decide_true, Bool.and_self, Bool.or_true]

theorem bit_setBit_other {n : Nat} (w : BitVec n) {i j : Nat} (hj : j ≠ i) : bit (setBit w i) j = bit w j := by
  simp only [bit_setBit, Ne.symm hj, decide_false, Bool.and_false, Bool.or_false]

@[simp] theorem bit_clrBit_same {n : Nat} (w : BitVec n) (i : Nat) : bit (clrBit w i) i = false := by
  simp only [bit_clrBit, decide_true, Bool.not_true, Bool.and_false]

theorem bit_clrBit_other {n : Nat} (w : BitVec n) {i j : Nat} (hj : j ≠ i) : bit (clrBit w i) j = bit w j := by
  simp only [bit_clrBit, Ne.symm hj, decide_false, Bool.not_false, Bool.and_true]

theorem fld_lt {n : Nat} (w : BitVec n) (hi lo : Nat) : fld w hi lo < 2 ^ (hi + 1 - lo) := Nat.mod_lt _ (Nat.two_pow_pos _)

/-- P_PERR after a refused transfer (R67): the port and the reason. -/
theorem perr_port {p r : Nat} (hp : p < 256) (hr : r < 16) : fld (BitVec.ofNat 64 (p * 2 ^ 32 + r)) 39 32 = p := by
  simp only [fld, BitVec.toNat_ofNat, Nat.shiftRight_eq_div_pow]
  omega

theorem perr_reason {p r : Nat} (hp : p < 256) (hr : r < 16) : fld (BitVec.ofNat 64 (p * 2 ^ 32 + r)) 3 0 = r := by
  simp only [fld, BitVec.toNat_ofNat, Nat.shiftRight_eq_div_pow]
  omega

/-! ### The one taken of several -/

theorem pickOf_mem {k : Pick} {l : List Nat} {n : Nat} (h : pickOf k l = some n) : n ∈ l := by
  unfold pickOf at h
  exact List.mem_of_getElem? h

@[simp] theorem pickOf_isSome (k : Pick) (l : List Nat) : (pickOf k l).isSome = !l.isEmpty := by
  unfold pickOf
  cases l with
  | nil => rfl
  | cons a t =>
    rw [List.getElem?_eq_getElem (Nat.mod_lt _ (by simp))]
    rfl

end Sys2Proof.Machine
end

