-- ==== Sys2Proof/WellFormed.lean ====
section
/-!
DEFINITION. Well-formed commands: an operand that the type leaves wider than the spec's range lies in that range, a word's
SEQ field is that of its row, and a context that makes an access is of the Ridge that makes it.
-/
namespace Sys2Proof

open Machine

/-- Who makes the access of a command that is one. -/
def Instr.accessor : Instr → Option Accessor
  | .heartbeatKick x => some x
  | .loadWordStore x _ => some x
  | .loadAddressWrite x _ => some x
  | .angAcLatch x => some x
  | .counterReadClear x _ => some x
  | .bankSwapRequest x _ => some x
  | .bankWordWrite x _ _ _ => some x
  | .spareStepStart x _ _ => some x
  | .recordRelease x _ _ => some x
  | .writeEnableWrite x _ _ => some x
  | .skipListSelect x _ _ => some x
  | .descriptorWordWrite x _ _ _ _ => some x
  | .trackidWrite x _ _ => some x
  | .formatterCmdIgnored x _ _ => some x
  | .linkStart x _ => some x
  | .linkStop x _ => some x
  | .preampRegisterRead x _ _ => some x
  | .preampRegisterWrite x _ _ _ => some x
  | .heaterCommand x _ _ _ => some x
  | .safeCommand x _ _ => some x
  | .pairMapWrite x _ _ => some x
  | .spindleStart x => some x
  | .spindleStop x => some x
  | .spindleStep x => some x
  | .coast x => some x
  | .clrflt x => some x
  | .spindleCmdIgnored x _ => some x
  | .chopperSelftest x => some x
  | .retractCommand x _ => some x
  | .currentSenseSpare x _ => some x
  | .vcCalWindow x _ => some x
  | .ztbWindowWrite x _ _ => some x
  | .zoneScan x _ => some x
  | .cairnResync x => some x
  | .retrain x _ _ _ => some x
  | .reequalize x _ => some x
  | .asnWrite x _ => some x
  | .asnLimitWrite x _ => some x
  | .queueAllocationWrite x _ => some x
  | .namespaceConfigWrite x _ => some x
  | .testFence x => some x
  | .ledgerCmdIgnored x _ => some x
  | .evrOtLatch x => some x
  | .hash x => some x
  | .verifySignature x => some x
  | .drbg x => some x
  | .derive x => some x
  | .sign x => some x
  | .keyload x _ => some x
  | .zeroize x _ => some x
  | .devpub x => some x
  | .cryptoCmdIgnored x _ => some x
  | .drbgRead x => some x
  | .softwareFullReset x _ => some x
  | .softwareBlockReset x _ => some x
  | .watchdogKick x _ => some x
  | .domainOn x => some x
  | .domainOff x => some x
  | .domainRet x => some x
  | .powerStateSelect x _ => some x
  | .legacyWindowWrite x _ _ => some x
  | .registerWrite x _ _ => some x
  | _ => none

/-- The context is of the Ridge. -/
def Accessor.ok (x : Accessor) : Bool :=
  match x.ctx with
  | some c => decide (c.ridge = x.ridge)
  | none => true

/-- SEQ of a word (Table 3.1). -/
def seqIs (w : MicroWord) (n : Nat) : Bool := fld w 127 124 == n

/-- A controller identifier (R308). -/
def cntlidOk (n : Nat) : Bool := decide (n < 128)

/-- Operands inside the ranges of the spec. -/
def Instr.operandsOk : Instr → Bool
  | .next _ w _ => seqIs w 0
  | .jump _ w _ => seqIs w 1
  | .call _ w _ => seqIs w 2
  | .ret _ w _ => seqIs w 3
  | .brt _ w _ => seqIs w 4
  | .brf _ w _ => seqIs w 5
  | .wait _ w _ => seqIs w 6
  | .poll _ w _ => seqIs w 7
  | .disp _ w _ => seqIs w 8
  | .yield _ w _ => seqIs w 9
  | .halt _ w _ => seqIs w 10
  | .loop _ w _ => seqIs w 11
  | .illseq _ w _ => decide (12 ≤ fld w 127 124)
  | .illalu _ op => decide (0x30 ≤ op.toNat)
  | .contextStart _ a => decide (a.toNat < 2 ^ 19)
  | .portReadReturn _ p => decide (p < 256)
  | .portTimeout _ p => decide (p < 256)
  | .matchWrite _ off _ => decide (off = 0x14 ∨ off = 0x18) || (decide (0x100 ≤ off ∧ off < 0x200) && off % 4 == 0)
  | .fence _ cause => decide (1 ≤ cause ∧ cause ≤ 6)
  | .lastRidgeFence _ cause => decide (1 ≤ cause ∧ cause ≤ 6)
  | .controllerEnable n _ _ _ => cntlidOk n
  | .controllerReset n => cntlidOk n
  | .normalShutdown n => cntlidOk n
  | .abruptShutdown n => cntlidOk n
  | .sqTailDoorbell n _ _ => cntlidOk n
  | .cqHeadDoorbell n _ _ => cntlidOk n
  | .commandFetch n _ _ => cntlidOk n
  | _ => true

def Instr.wellFormed (i : Instr) : Bool :=
  i.operandsOk &&
    (match i.accessor with
     | some x => x.ok
     | none => true)

end Sys2Proof
end

