-- ==== Sys2Proof/Tests/Slice0.lean ====
section
/-!
SUPPORT. Tests: the checks of WellFormed on ill-formed commands, single commands on values worked out by hand from the
spec's rules, and for every statement with hypotheses a state and operands that meet them, clause by clause.
-/
set_option Elab.async false
open Sys2Proof Sys2Proof.Machine

namespace Sys2Proof.Tests

/-! ### Small states -/

/-- Every power domain ON, both Ridges in service with their units, the block booted. -/
def live : State :=
  { State.reset with
    core := ⟨{ State.reset.core.a with st := .inService }, { State.reset.core.b with st := .inService }⟩
    rcp :=
      { State.reset.rcp with
        phase := .locked
        asserted := false
        doms := (List.range 100).map (fun k => (k, { Dom.default with st := .on })) }
    rlg := { State.reset.rlg with unit := ⟨some .a, some .b⟩, spindle := some .a }
    mtr := { State.reset.mtr with linkUp := true } }

def c0 : CtxId := ⟨.a, .h, .q0⟩

/-- A host accessor of Ridge A, and a context's word from ROM. -/
def xa : Accessor := ⟨.a, none, 0, false⟩

def xr : Accessor := ⟨.a, some c0, 0xDB, true⟩

/-- `live` with a register written, or with one unit in another state. -/
def atReg (k : Nat) (v : Word) : State := live.setReg k v

def tileS (f : Tile → Tile) : State := live.modTile .q0 f

def ctxS (f : Ctx → Ctx) : State := live.modCtx c0 f

def mtrS (f : Mtr → Mtr) : State := live.modMtr f

def lnkS (f : Link → Link) : State := live.modLink .a f

def angS (f : Ang → Ang) : State := live.modAng .a f

def due (code : Nat) : AeqEntry := ⟨0, BitVec.ofNat 32 (code * 2 ^ 24)⟩

def aeqS (code : Nat) : State := tileS (fun x => { x with aeq := [due code] })

def sec (w : Bool) : Sector := ⟨w, 1, 1, 1, true, 0, false, none, 0, ⟨0, 0, 0, 0⟩, false, 0, [], false, none, ⟨0, [], none, [], [], []⟩, []⟩

def secS (w : Bool) : State := tileS (fun x => { x with sector := some (sec w), wg := w, rg := !w })

/-- A controller with an Admin and an I/O queue pair. -/
def ctrl0 : Ctrl :=
  { Ctrl.init 0 with
    en := true
    rdy := true
    sqs := [⟨0, 16, 0, 1, 0, 0⟩, ⟨1, 16, 0, 1, 1, 0⟩]
    cqs := [⟨0, 16, 0, []⟩, ⟨1, 16, 0, []⟩] }

/-- A fetched command of queue `q` with opcode `o`. -/
def cmd (q : Nat) (o : Byte) : Cmd :=
  { idx := 0, asn := 0, ctrl := 0, sq := q, sqe := ⟨o, 0, 1, 0, 0, 0, 0, 0, 0⟩, host := 0, hedge := none, hedgeWait := false,
    checked := false, slba := 0, blocks := 0, spans := [], committed := false, abortReq := false, abortStat := 0, done := 0,
    ready := false, holder := none, released := false, abortedBy := none, waitsFor := [], data := [], pieces := [],
    srcs := [], readOk := true }

/-- A command whose checks have passed. -/
def okd (o : Byte) : Cmd := { cmd 1 o with checked := true, hedge := some 0 }

/-- One namespace, ready and attached, and the command in flight. -/
def hostS (cfg : Word) (k : List Cmd) : State :=
  live.modNve (fun v =>
    { v with
      ctrls := [(0, ctrl0)]
      cmds := k
      cfg := [(0, cfg)]
      nss := [(0, some ⟨1000, [0], ⟨0, none, [], 0, false⟩, cfg⟩)] })

def hent (c : Bool) : HEntry := ⟨c, .read, 0, 0, 1, 0, 0⟩

/-- The same with the command's entry in the Hedge table. -/
def hdgS (cfg : Word) (k : Cmd) : State := (hostS cfg [k]).modHdg (fun h => { h with entries := [(0, some (hent false))] })

/-- A zoned namespace whose zone 0 is bound. -/
def zoneS (k : Cmd) : State := (hdgS 0xC0000000 k).modZtb (fun z =>
  { z with entries := [(0, ⟨putFld (putFld 0 63 60 1) 59 56 2, 0, 0, 0⟩)] })

/-- Wedge-servo mode. -/
def wscS : State := { live with rcp := { live.rcp with straps := { live.rcp.straps with wscEn := true } } }

/-- A piece of the protected window. -/
def piece : Piece := ⟨0, 0, 0, 1, 0, 0, 0, none, []⟩

/-- In GEN with a piece to flush. -/
def genS : State :=
  (mtrS (fun m => { m with sp := .gen })).modWin (fun w => { w with pieces := [piece], flushing := ⟨true, false⟩ })

def image0 : ImageIn := ⟨(false, false), (false, false), [], [], [], ⟨0, 0⟩, [], [], [], ⟨none, none⟩, ⟨[], []⟩⟩

/-- A stream whose slot is bound and whose mark sets the angle. -/
def boundS : State := (angS (fun a => { a with src := .track })).modLink .a (fun l =>
  { l with slots := ⟨⟨1, 0, true, true, none⟩, ⟨1, 0, true, true, none⟩⟩ })

def domS (d : Nat) (st : DomState) : State :=
  live.modRcp (fun r => { r with doms := sp Dom.default r.doms d { Dom.default with st := st } })

def ridgeS (st : RidgeState) : State := live.modCore .a (fun m => { m with st := st })

def mgmtS (f : Mgmt → Mgmt) : State := live.modMgmt f

def win0 : SyncWin := ⟨0, 32, 0, 8, 0, false⟩

def lease0 : Lease := ⟨0, .ctx c0, 2, 0, 4, false, [], 0⟩

/-- A band group entry: use, STATE, DEG and WP. -/
def ent (use st deg wp : Nat) : ZEntry :=
  ⟨BitVec.ofNat 64 (use * 2 ^ 60 + st * 2 ^ 56 + 10 * 2 ^ 51 + deg * 2 ^ 16), BitVec.ofNat 64 wp, 0, 0⟩

def ztbS (e : ZEntry) : State := live.modZtb (fun z => { z with entries := [(0, e)] })

/-- Zone Table entry `e` on actuator A, with the redundancy state changed. -/
def redS (e : ZEntry) (f : Redun → Redun) : State := (ztbS e).modRedun .a f

def crnS (s : State) : State := s.modCrn (fun c => { c with replayed := true })

/-- DRAM channels enabled, with bytes in channel A. -/
def dramS (bs : List (Nat × Byte)) : State :=
  (((live.setReg R_DRC_CTL 0x33).setReg R_DRC_SIZE 100).setReg R_DRC_SCRCFG 1).modDram .a (fun d =>
    { d with bytes := bs, selfRefresh := false })

def calS (k : Byte) : State := dramS [(0, k), (3, 1)]

def calDesc0 (k : Nat) : CalDesc := ⟨k, 0, 1, 0, 0, 0, 0, 0, 0, 0, 0⟩

def calRun (k : Nat) (ap : Bool) (res : Int) : CalRun := ⟨.a, 0, k, 0, .q0, 1, 0, !ap, ap, false, res, 0, none, false, [], none⟩

def runS (k : Byte) (r : CalRun) : State := (calS k).modMon (fun m => { m with calRuns := [r] })

/-- The driver enabled, in a spindle state. -/
def spS (st : Spindle) : State := (mtrS (fun m => { m with sp := st })).setReg R_MTR_CTL 1

def wait0 : WaitInfo := ⟨0, Flags.zero, true, 0, 0, 0⟩

def waitS : State := ctxS (fun x => { x with st := .wait, wait := some wait0 })

def idleFr : Frame := ⟨.hsel, 0, 9, false⟩

def snap0 : Snapshot := ⟨[], Flags.zero, [], 0, 7, 0, []⟩

def msg0 : MirrorMsg := ⟨snap0, 1, 0⟩

def read0 : ReadOut := ⟨0, 0x20, 1, 5, none⟩

def readS : State := ctxS (fun x => { x with reads := [read0] })

/-- A word of SEQ encoding `n`, with nothing else in it. -/
def word (n : Nat) : MicroWord := BitVec.ofNat 128 (n * 2 ^ 124)

def guide0 : GuideIn := ⟨0, 0, 0, false⟩

def slot0 : SlotIn := ⟨none, ⟨0, 0, 0, 0⟩, ⟨0, 0, 0, 0⟩, 1, [], [], 0, 1⟩

def dcb0 : DcbIn := ⟨1, none, 0, 0, ⟨0, 0, ⟨0, 0⟩, ⟨0, 0⟩, ⟨0, 0⟩, ⟨0, 0⟩, ⟨0, 0⟩, 2, 0, 0, ⟨3, 3, 6, 16⟩⟩⟩

def bootS : State :=
  ((live.modRcp (fun r => { r with phase := .boot })).modEvr (fun e => { e with scanDone := true })).modCore .b (fun m =>
    { m with st := .reset })

/-- A boot record in the ring of Cairn bank A. -/
def rec0 : EvRec := ⟨0, false, 0, 0, 0, 0, 0, []⟩

def ringS : State := live.modCrn (fun c => { c with banks := ⟨[(ringLine, recLine 0 rec0)], []⟩ })

/-- A checked read whose sources are fixed; a reservation command of host 0; a namespace with registrants. -/
def rdCmd : Cmd := { okd 0x02 with released := true, readOk := false }

def resvCmd (c10 : Word) : Cmd := { cmd 1 0x11 with asn := 5, sqe := { (cmd 1 0x11).sqe with c10 := c10 } }

def resvS (k : List Cmd) (regs : List (BitVec 128 × DWord)) : State :=
  (hostS 0x80000000 k).modNve (fun v => { v with nss := [(0, some ⟨1000, [0], ⟨0, none, regs, 0, false⟩, 0x80000000⟩)] })

/-- Sectors in their last fragment, all of its bits transferred. -/
def rdSec : Sector :=
  { sec false with frags := 2, frag := 2, run := ⟨0, List.replicate 40 ⟨0, false⟩, some 0, [], [], []⟩ }

def wrSec : Sector := { sec true with frags := 2, frag := 2, run := ⟨0, [], some 0, [], [], []⟩ }

def resv0 : Resv := ⟨0, none, [(0, 0)], 0, false⟩

def resv1 : Resv := ⟨0, none, [(0, 0), (1, 7)], 0, false⟩

/-! ### Ill-formed commands, one for each check -/

/-- A word whose SEQ field is not that of any row it is tried on. -/
def badSeq : MicroWord := word 13

theorem test_wellFormed_words :
    (Instr.next c0 badSeq false).wellFormed = false ∧ (Instr.jump c0 badSeq false).wellFormed = false ∧
    (Instr.call c0 badSeq false).wellFormed = false ∧ (Instr.ret c0 badSeq false).wellFormed = false ∧
    (Instr.brt c0 badSeq false).wellFormed = false ∧ (Instr.brf c0 badSeq false).wellFormed = false ∧
    (Instr.wait c0 badSeq false).wellFormed = false ∧ (Instr.poll c0 badSeq false).wellFormed = false ∧
    (Instr.disp c0 badSeq false).wellFormed = false ∧ (Instr.yield c0 badSeq false).wellFormed = false ∧
    (Instr.halt c0 badSeq false).wellFormed = false ∧ (Instr.loop c0 badSeq false).wellFormed = false ∧
    (Instr.illseq c0 (word 11) false).wellFormed = false := by decide +kernel

theorem test_wellFormed_numbers :
    (Instr.illalu c0 0x2F).wellFormed = false ∧ (Instr.contextStart c0 0x80000).wellFormed = false ∧
    (Instr.portReadReturn c0 256).wellFormed = false ∧ (Instr.portTimeout c0 256).wellFormed = false ∧
    (Instr.matchWrite .a 0x102 0).wellFormed = false ∧ (Instr.matchWrite .a 0x200 0).wellFormed = false ∧
    (Instr.fence .a 0).wellFormed = false ∧ (Instr.fence .a 7).wellFormed = false ∧
    (Instr.lastRidgeFence .a 0).wellFormed = false ∧ (Instr.controllerEnable 128 2 2 false).wellFormed = false ∧
    (Instr.controllerReset 128).wellFormed = false ∧ (Instr.normalShutdown 128).wellFormed = false ∧
    (Instr.abruptShutdown 128).wellFormed = false ∧ (Instr.sqTailDoorbell 128 0 0).wellFormed = false ∧
    (Instr.cqHeadDoorbell 128 0 0).wellFormed = false ∧
    (Instr.commandFetch 128 0 ⟨0, 0, 0, 0, 0, 0, 0, 0, 0⟩).wellFormed = false := by decide

/-- A context of Ridge B does not make an access of Ridge A. -/
theorem test_wellFormed_accessor :
    (Instr.registerWrite ⟨.a, some ⟨.b, .h, .q0⟩, 0xDB, true⟩ 0 0).wellFormed = false ∧
    (Instr.registerWrite xr 0 0).wellFormed = true := by decide

/-! ### Single commands -/

/-- The state after a command. -/
def after (o : Out) : State :=
  match o with
  | .next t => t
  | .fault _ => live
  | .refused _ => live

/-- An ALU part with an immediate. -/
def imm (dst a : BitVec 6) (v : Word) : AluForm := ⟨true, dst, a, 0, v⟩

/-- g5 of context 0 holds a value. -/
def g5 (v : DWord) : State := ctxS (fun x => { x with regs := [(5, v)] })

/-- g6 and the flags N, Z, C and V of context 0 after a command. -/
def g6 (o : Out) : DWord × Flags := (((after o).ctx c0).rd 6, ((after o).ctx c0).flags)

/-- R62: the sum wraps to 0 with a carry and no signed overflow. -/
theorem test_add_wraps :
    g6 (exec (.add c0 (imm 6 5 1)) (g5 0xFFFFFFFFFFFFFFFF)) = (0, ⟨false, true, true, false⟩) := by decide +kernel

/-- R62: 0 − 1 borrows, so C is 0. -/
theorem test_sub_borrows :
    g6 (exec (.sub c0 (imm 6 5 1)) (g5 0)) = (0xFFFFFFFFFFFFFFFF, ⟨true, false, false, false⟩) := by decide +kernel

/-- The source is also the destination: g5 doubles. -/
theorem test_add_same_register :
    ((after (exec (.add c0 ⟨false, 5, 5, 5, 0⟩) (g5 21))).ctx c0).rd 5 = 42 := by decide +kernel

/-- R63: the field of 8 bits at bit 60 ends at bit 63. -/
theorem test_bfx_ends_at_bit_63 :
    (g6 (exec (.bfx c0 (imm 6 5 (60 + 7 * 64))) (g5 0xF000000000000001))).1 = 0xF := by decide +kernel

/-- A field of 4 bits, sign-extended. -/
theorem test_bfxs_extends :
    (g6 (exec (.bfxs c0 (imm 6 5 (4 + 3 * 64))) (g5 0x80))).1 = 0xFFFFFFFFFFFFFFF8 := by decide +kernel

/-- The shift amount is b[5:0]; the last bit out goes to C. -/
theorem test_shl_carry :
    g6 (exec (.shl c0 (imm 6 5 65)) (g5 0x8000000000000000)) = (0, ⟨false, true, true, false⟩) := by decide +kernel

/-- The check value of CRC-32C: the CRC of the digits 1 to 9. -/
theorem test_crc_check_value :
    crc32c [0x31, 0x32, 0x33, 0x34, 0x35, 0x36, 0x37, 0x38, 0x39] = 0xE3069283#32 := by decide +kernel

/-- Table 3.2, DISP: TARGET plus the low byte of SRCA. -/
theorem test_disp_adds_the_low_byte :
    ((after (exec (.disp c0 (BitVec.ofNat 128 (8 * 2 ^ 124 + 0x100 * 2 ^ 97 + 5 * 2 ^ 78)) false) (g5 0x1FF))).ctx c0).pc =
      0x1FF := by decide +kernel

/-- POST appends the staged stamp and action at the tail (R69). -/
theorem test_post_appends :
    ((after (exec (.post c0 .q0) (aeqS 0))).tl .q0).aeq = [due 0, ⟨0, 0⟩] := by decide +kernel

/-- Gray code 110 is 4 (Table 6.4). -/
theorem test_gray : ofGray [true, true, false] = 4 := rfl

/-- The first bits of the LFSR from 0xACE1, and from a seed of 0 (R106). -/
theorem test_lfsr_seed_zero : scrBits (some 0) 4 = [true, false, false, false] := rfl

/-- The check value of CRC-8 with polynomial 0x07 and initial value 0: the CRC of the digits 1 to 9. -/
theorem test_crc8_check_value :
    crc8 0 (bitsMsb 72 0x313233343536373839) = 0xF4#8 := by decide +kernel

/-- The table gives its rows no bits. -/
theorem test_no_row_has_a_word : decodeTableWord 8 0 = none := rfl

/-! ### The statements on the machine, the words, the ports and the bus -/

theorem fits_of (x : Ctx) (hr : swf (kconst 0) x.regs = true) (hs : x.stack = [])
    (hn : x.snap.all (fun n => decide (n.stack.length ≤ 16) && swf (kconst 0) n.regs) = true)
    (hh : x.held = none) (hi : x.inbox = []) : x.Fits := by
  refine ⟨hr, by rw [hs]; decide, ?_, ?_, ?_⟩
  · intro n h
    simpa [h, Snapshot.fits] using hn
  · rw [hh]; rintro n ⟨⟩
  · rw [hi]; rintro n ⟨⟩

/-- The invariant holds of a state with the contexts and tiles of `live`, and of any queue. -/
theorem wf_of (s : State) (hr : swf regInit s.regs = true) (hd : ∀ ch, Memory.wf (s.dram.get ch) = true)
    (hc : s.core = live.core) (ht : s.tile = live.tile) : s.WF := by
  refine ⟨rfl, hr, hd, ?_, ?_⟩
  · rw [hc]
    intro r
    refine ⟨by cases r <;> rfl, fun j n => ?_⟩
    cases r <;> cases j <;> cases n <;> exact fits_of _ rfl rfl rfl rfl rfl
  · rw [ht]
    intro t
    cases t <;> decide

/-- `live` with a command in the queue. -/
def busy : State := { live with pending := [.noxtal] }

theorem witness_StepRunsTheFrontCommand :
    ∃ (s : State) (i : Instr) (rest : List Instr), s.pending = i :: rest := ⟨busy, .noxtal, [], rfl⟩

theorem witness_EmptyQueueStepIsAMillisecond : ∃ s : State, s.pending = [] ∧ s.mtr.sp = .gen := ⟨genS, rfl, rfl⟩

theorem busy_wf : busy.WF := wf_of busy rfl (fun ch => by cases ch <;> rfl) rfl rfl

theorem witness_EveryStepKeepsTheInvariant : ∃ s t : State, s.WF ∧ step s = .next t := ⟨busy, _, busy_wf, rfl⟩

theorem witness_CommandsLeaveTheQueue : ∃ (i : Instr) (s t : State), s.WF ∧ exec i s = .next t :=
  ⟨.v5Undervoltage 0, busy, _, busy_wf, rfl⟩

theorem witness_EveryCommandKeepsTheOtherParts :
    ∃ (i : Instr) (s t : State) (p : Part), exec i s = .next t ∧ p ∉ mayChange i :=
  ⟨.v5Undervoltage 0, live, _, .dram, rfl, by decide⟩

theorem witness_AluOperationsWriteTheirResult :
    (∃ (s : State) (c : CtxId) (f : AluForm) (a b d : DWord), s.AluOn c f a b d) ∧
    (∃ (s : State) (c : CtxId) (f : AluForm) (a b d : DWord), s.AluOn c f a b d ∧ a.msb = true) ∧
    (∃ (s : State) (c : CtxId) (f : AluForm) (a b d : DWord), s.AluOn c f a b d ∧ a.msb = false) ∧
    (∀ st, st = CtxState.run ∨ st = .halt →
      ∃ (s : State) (c : CtxId) (op : BitVec 6), s.ridgeLive c.ridge = true ∧ 0x30 ≤ op.toNat ∧ s.spurOn c = true ∧
        (s.ctx c).giving ≠ some true ∧ (s.ctx c).committing = false ∧ (s.ctx c).st = st ∧
          ((s.ctx c).atWord = true ∨ ((s.ctx c).st = .halt ∧ (s.ctx c).stepReq = true))) :=
  ⟨⟨live, c0, ⟨false, 63, 0, 63, 0⟩, 0, 0, 0, by decide +kernel⟩,
    ⟨g5 (1#64 <<< 63), c0, imm 6 5 0xFFFFFFFF, 1#64 <<< 63, BitVec.allOnes 64, 0, by decide +kernel⟩,
    ⟨g5 5, c0, imm 0 5 0, 5, 0, 0, by decide +kernel⟩, by
      rintro st (rfl | rfl)
      · exact ⟨ctxS (fun x => { x with st := .run }), c0, 0x30, by decide +kernel⟩
      · exact ⟨ctxS (fun x => { x with st := .halt, stepReq := true }), c0, 0x3F, by decide +kernel⟩⟩

theorem witness_MovWritesItsRegisterAlone :
    (∃ (s : State) (c : CtxId) (f : AluForm) (a b d : DWord),
      s.AluOn c f a b d ∧ swf (kconst 0) (s.ctx c).regs = true ∧ f.dst = 0) ∧
    (∃ (s : State) (c : CtxId) (f : AluForm) (a b d : DWord),
      s.AluOn c f a b d ∧ swf (kconst 0) (s.ctx c).regs = true ∧ f.dst ≠ 0) :=
  ⟨⟨g5 7, c0, imm 0 5 9, 7, 9, 0, by decide +kernel⟩, ⟨g5 7, c0, imm 5 5 9, 7, 9, 7, by decide +kernel⟩⟩

/-- The hypotheses of FaultingWordHasNoEffect but for the cause. -/
abbrev FaultHyp (s : State) (w : MicroWord) : Prop :=
  swf regInit (s.afterFetch c0 false).regs = true ∧ s.canIssue c0 w = true ∧ (s.ctx c0).atWord = true ∧
    badFetch ((s.afterFetch c0 false).ctx c0).pc = false ∧ (s.afterFetch c0 false).regB (rk .a R_SPU_GCTL) 4 = false

/-- A return stack of `n` entries. -/
def stackS (n : Nat) : State := ctxS (fun x => { x with stack := List.replicate n 7 })

/-- NIDEM, and a POST without it. -/
def nidemWord : MicroWord := BitVec.ofNat 128 (2 ^ 14)

def postWord : MicroWord := BitVec.ofNat 128 (3 * 2 ^ 21)

theorem witness_FaultingWordHasNoEffect :
    (FaultHyp live (word 12) ∧ 12 ≤ wSeq (word 12)) ∧
    (FaultHyp live (BitVec.ofNat 128 (0x30 * 2 ^ 90)) ∧ 0x30 ≤ wAluOp (BitVec.ofNat 128 (0x30 * 2 ^ 90))) ∧
    (FaultHyp live nidemWord ∧ wNidem nidemWord = true ∧ wCommit nidemWord = false) ∧
    (FaultHyp live postWord ∧ wNonIdem postWord = true ∧ wNidem postWord = false) ∧
    (FaultHyp (stackS 16) (word 2) ∧ wSeq (word 2) = 2 ∧ 16 ≤ ((stackS 16).ctx c0).stack.length) ∧
    (FaultHyp live (word 3) ∧ wSeq (word 3) = 3 ∧ (live.ctx c0).stack = []) := by decide +kernel

/-- The state after the ALU, ANG and XFER parts of a word. -/
def partsOf (s : State) (w : MicroWord) : State × Option DWord :=
  (s.afterFetch c0 false).wordParts c0 w ((s.afterFetch c0 false).ctx c0)

/-- The hypotheses of SequencerChoosesTheSuccessor. -/
abbrev SeqHyp (s : State) (w : MicroWord) : Prop :=
  s.WordDue c0 w false (wSeq w) ∧ wSeq w < 12 ∧ (partsOf s w).1.ridgeLive .a = true ∧
    ((partsOf s w).1.ctx c0).giving = none

/-- A word of SEQ encoding `n` with condition 1 (Z), which the flags of `live` make false; condition 0 is true. -/
def condWord (n : Nat) : MicroWord := BitVec.ofNat 128 (n * 2 ^ 124 + 2 ^ 116)

/-- Line 4 pending in class DEFER, with `n` return addresses. -/
def lineS (n : Nat) : State := ctxS (fun x => { x with pend := 0x10, stack := List.replicate n 7 })

def loopS (n : BitVec 24) : State := ctxS (fun x => { x with lcnt := n })

theorem witness_SequencerChoosesTheSuccessor_all : ∀ n, n < 12 → n ≠ 3 → SeqHyp live (word n) ∧ wSeq (word n) = n := by
  decide +kernel

theorem witness_SequencerChoosesTheSuccessor_stack :
    (SeqHyp (stackS 15) (word 2) ∧ ((partsOf (stackS 15) (word 2)).1.ctx c0).stack.length < 16) ∧
    (SeqHyp (stackS 1) (word 3) ∧ ((partsOf (stackS 1) (word 3)).1.ctx c0).stack = [7]) ∧
    (SeqHyp (lineS 15) (word 7) ∧ (((partsOf (lineS 15) (word 7)).1.ctx c0).pollView (word 7)).deferLine = some 4) ∧
    (SeqHyp live (word 7) ∧ (((partsOf live (word 7)).1.ctx c0).pollView (word 7)).deferLine = none) ∧
    (SeqHyp (loopS 1) (word 11) ∧ ((partsOf (loopS 1) (word 11)).1.ctx c0).lcnt ≠ 0) ∧
    (SeqHyp live (word 11) ∧ ((partsOf live (word 11)).1.ctx c0).lcnt = 0) := by decide +kernel

theorem witness_SequencerChoosesTheSuccessor_cond :
    ∀ n, n = 4 ∨ n = 5 ∨ n = 6 →
      SeqHyp live (word n) ∧ (partsOf live (word n)).1.cond c0 (live.ctx c0).flags (wCond (word n)) = true ∧
        SeqHyp live (condWord n) ∧
          (partsOf live (condWord n)).1.cond c0 (live.ctx c0).flags (wCond (condWord n)) = false := by
  rintro n (rfl | rfl | rfl) <;> decide +kernel

/-- A word of SEQ encoding `n` with COMMIT. -/
def commitWord (n : Nat) : MicroWord := BitVec.ofNat 128 (n * 2 ^ 124 + 2 ^ 15)

theorem witness_CommitRecordsTheSuccessor :
    ∀ n, n = 0 ∨ n = 6 →
      SeqHyp live (commitWord n) ∧ (partsOf live (commitWord n)).2 = none ∧ wCommit (commitWord n) = true := by
  rintro n (rfl | rfl) <;> decide +kernel

/-- An URGENT line pending over a snapshot of `n` return addresses. -/
def urgS (n : Nat) : State :=
  ctxS (fun x => { x with pend := 4, snap := some { snap0 with stack := List.replicate n 7 } })

theorem witness_UrgentEntryRestoresTheSnapshot :
    ∃ (s : State) (c : CtxId) (n : Nat) (sn : Snapshot),
      s.ridgeLive c.ridge = true ∧ (s.ctx c).st.runs = true ∧ (s.ctx c).committing = false ∧
        (s.ctx c).giving ≠ some true ∧ (s.ctx c).urgentLine = some n ∧ (s.ctx c).snap = some sn ∧ sn.stack.length < 16 :=
  ⟨urgS 15, c0, 2, { snap0 with stack := List.replicate 15 7 }, by decide +kernel⟩

/-- A context in a state, with a snapshot. -/
def stS (st : CtxState) : State := ctxS (fun x => { x with st := st, snap := some snap0 })

theorem witness_RoutineEntryFormsTheSnapshot :
    (∀ st, st = .idle ∨ st = .halt ∨ st = .fault → (stS st).ridgeLive .a = true ∧ ((stS st).ctx c0).st = st) ∧
    (∀ st, st = .halt ∨ st = .fault →
      (stS st).ridgeLive .a = true ∧ ((stS st).ctx c0).st = st ∧ ((stS st).ctx c0).snap = some snap0) ∧
    (∀ st, st = .run ∨ st = .wait ∨ st = .handler → (stS st).ridgeLive .a = true ∧ ((stS st).ctx c0).st.runs = true) ∧
    ((stS .adopt).ridgeLive .a = true ∧ ((stS .adopt).ctx c0).st = .adopt) := by
  refine ⟨?_, ?_, ?_, by decide +kernel⟩
  · rintro st (rfl | rfl | rfl) <;> decide +kernel
  · rintro st (rfl | rfl) <;> decide +kernel
  · rintro st (rfl | rfl | rfl) <;> decide +kernel

/-- A stream's queue with `n` entries. -/
def queueS (n : Nat) : State := tileS (fun x => { x with aeq := List.replicate n (due 0) })

theorem witness_PostAndFlushOfAnotherStreamAreRefused :
    (∃ (s : State) (c : CtxId) (t : Quad),
      s.ridgeLive c.ridge = true ∧ s.fabricOn = true ∧ s.owns c.ridge t = false) ∧
    (∃ (s : State) (c : CtxId) (t : Quad), s.ridgeLive c.ridge = true ∧ s.fabricOn = true ∧ s.owns c.ridge t = true ∧
      256 ≤ (s.tl t).aeq.length) ∧
    (∃ (s : State) (c : CtxId) (t : Quad), s.ridgeLive c.ridge = true ∧ s.fabricOn = true ∧ s.owns c.ridge t = true ∧
      ¬(s.wsc = true ∧ t.slot = .b) ∧ (s.tl t).aeq.length < 256) :=
  ⟨⟨live, c0, .q2, by decide +kernel⟩, ⟨queueS 256, c0, .q0, by decide +kernel⟩,
    ⟨queueS 255, c0, .q0, by decide +kernel⟩⟩

theorem witness_PostAndFlush_wedge :
    ∃ (s : State) (t : Quad), s.ridgeLive .a = true ∧ s.fabricOn = true ∧ s.owns .a t = true ∧ s.wsc = true ∧
      t.slot = .b ∧ 256 ≤ (s.tl t).aeq.length :=
  ⟨wscS.modTile .q1 (fun x => { x with aeq := List.replicate 256 (due 0) }), .q1, by decide +kernel⟩

theorem witness_FlushEmptiesTheQueue :
    ∃ (s : State) (c : CtxId) (t : Quad), s.ridgeLive c.ridge = true ∧ s.fabricOn = true ∧ s.owns c.ridge t = true :=
  ⟨queueS 256, c0, .q0, by decide +kernel⟩

theorem witness_UnlistedActionIsDiscarded :
    ∀ code, code = 13 ∨ code = 255 →
      ∃ (s : State) (t : Quad) (now : DWord) (e : AeqEntry) (rest : List AeqEntry),
        (s.tl t).aeq = e :: rest ∧ 13 ≤ fld e.action 31 24 ∧ s.canReach (s.angSide t) now = true ∧
          swf regInit s.regs = true := by
  rintro code (rfl | rfl)
  · exact ⟨aeqS 13, .q0, 0, due 13, [], by decide +kernel⟩
  · exact ⟨aeqS 255, .q0, 0, due 255, [], by decide +kernel⟩

theorem witness_PoweredDownBlocksRefuseAccess :
    (∃ (s : State) (x : Accessor) (addr : Word),
      s.ridgeLive x.ridge = true ∧ s.placeUp (place x.ridge addr) = false) ∧
    (∃ (c : CtxId) (x : Accessor), x.ctx = some c) ∧ (∃ x : Accessor, x.ctx = none) :=
  ⟨⟨live, xa, 0x5000000, by decide +kernel⟩, ⟨c0, xr, rfl⟩, ⟨xa, rfl⟩⟩

theorem witness_StoredRegistersFollowTheirAccessTypes :
    ∃ (s : State) (x : Accessor) (addr data : Word) (k : Nat) (row : RegRow),
      s.WF ∧ s.BusReaches x addr (.reg k) ∧ s.writeRefused x k data = none ∧ s.writeSpecial x k data = none ∧
        regRow k = some row :=
  ⟨live, xa, BitVec.ofNat 32 R_GPD_CTL, 1, R_GPD_CTL, (regRow R_GPD_CTL).get (by decide +kernel),
    wf_of live rfl (fun ch => by cases ch <;> rfl) rfl rfl, by decide +kernel, by decide +kernel, by decide +kernel,
    (Option.some_get _).symm⟩

/-- The peer Ridge in a state. -/
def peerS (st : RidgeState) : State := live.modCore .b (fun m => { m with st := st })

theorem witness_PeerWindowAnswersByThePeerState :
    (∀ st, st = .reset ∨ st = .selftest →
      (peerS st).ridgeLive .a = true ∧ (peerS st).ridgeSt .b = st) ∧
    (∀ st, st = .fenced ∨ st = .standby ∨ st = .quiesced →
      (peerS st).ridgeLive .a = true ∧ (peerS st).ridgeSt .b = st ∧ (peerS st).placeUp (place .a 0x1000000) = true) := by
  refine ⟨?_, ?_⟩
  · rintro st (rfl | rfl) <;> decide +kernel
  · rintro st (rfl | rfl | rfl) <;> decide +kernel

/-- The second MiB of both channels is mirrored. -/
def mirS : State := ((dramS []).setReg R_DRC_MIRBASE 1).setReg R_DRC_MIRSIZE 1

theorem dramS_wf : (dramS []).WF := wf_of (dramS []) (by decide +kernel) (fun ch => by cases ch <;> decide +kernel) rfl rfl

theorem mirS_wf : mirS.WF := wf_of mirS (by decide +kernel) (fun ch => by cases ch <;> decide +kernel) rfl rfl

theorem witness_DramWriteStoresItsBytesAlone :
    (∃ (s : State) (a : Nat), s.WF ∧ s.mirrored a = false) ∧
    (∃ (s : State) (x : Side) (addr : BitVec 48) (data : List Byte) (es : List Flips),
      s.WF ∧ data.length ≠ 0 ∧ addr.toNat % 64 + data.length ≤ 64 ∧ s.dramOk x addr.toNat data.length = true ∧
        (s.dramLine x (addr.toNat / 64 * 64) es false).mirrored addr.toNat = false) :=
  ⟨⟨mirS, 0xFFFFF, mirS_wf, by decide +kernel⟩, ⟨dramS [], .a, 63, [1], [], dramS_wf, by decide +kernel⟩⟩

theorem witness_MirroredDramWriteReachesBothChannels :
    (∃ (s : State) (ch : Side) (a : Nat), s.WF ∧ s.mirrored a = true ∧ s.dramOk ch a 1 = true) ∧
    (∃ (s : State) (ch : Side) (a : Nat), s.WF ∧ s.mirrored a = true ∧ s.dramOk ch a 1 = false) :=
  ⟨⟨mirS, .a, 0x1FFFFF, mirS_wf, by decide +kernel⟩,
    ⟨(live.setReg R_DRC_MIRBASE 1).setReg R_DRC_MIRSIZE 1, .b, 0x100000,
      wf_of _ (by decide +kernel) (fun ch => by cases ch <;> decide +kernel) rfl rfl, by decide +kernel⟩⟩

/-- The recorder on, and an event staged by context 0. -/
def evS (v : DWord) : State := (ctxS (fun x => { x with staged := [(0xD5, v)] })).setReg R_EVR_CTL 1

theorem witness_ChainEventsComeFromRomWords :
    ∀ v : DWord, v = 0x100 ∨ v = 0x701FF →
      (evS v).ridgeLive .a = true ∧ 0x0100 ≤ fld (((evS v).ctx c0).stagedAt 0xD5) 15 0 ∧
        fld (((evS v).ctx c0).stagedAt 0xD5) 15 0 ≤ 0x01FF ∧ (evS v).evrUp = true ∧ (evS v).regB R_EVR_CTL 0 = true ∧
          (evS v).evr.groupOf c0 = none ∧ fld (((evS v).ctx c0).stagedAt 0xD5) 15 0 ≠ 0x01F0 ∧
            bit (((evS v).ctx c0).stagedAt 0xD5) 19 = false ∧
              (evS v).evr.used + fld (((evS v).ctx c0).stagedAt 0xD5) 18 16 + 1 ≤ 64 := by
  rintro v (rfl | rfl) <;> decide +kernel

theorem witness_CalendarWriteSetsTheRunningCalendar : ∃ s : State, s.evrUp = true := ⟨live, by decide +kernel⟩

/-- The lease of context 0 in the ledger, or of its owner. -/
def leaseS (l : Lease) : State := { live with rlg := { live.rlg with leases := [l] } }

theorem witness_CreditsAreReleasedByTheirHolderAlone :
    (∃ (s : State) (c : CtxId) (data : DWord),
      s.ridgeLive c.ridge = true ∧ s.rlgUp = true ∧ ∀ l ∈ s.rlg.leases, l.num ≠ fld data 47 32) ∧
    (∀ l : Lease, l = { lease0 with owner := .ctx ⟨.a, .h, .q1⟩ } ∨ l = { lease0 with amount := 3 } →
      (leaseS l).ridgeLive .a = true ∧ (leaseS l).rlgUp = true ∧
        (leaseS l).rlg.leases.find? (fun k => k.num == fld (4 : DWord) 47 32) = some l ∧
          (l.owner ≠ .ctx c0 ∨ l.amount < fld (4 : DWord) 31 0 ∨ l.isBuffer = true)) ∧
    (∀ data : DWord, data = 4 ∨ data = 3 →
      (leaseS lease0).ridgeLive .a = true ∧ (leaseS lease0).rlgUp = true ∧
        (leaseS lease0).rlg.leases.find? (fun k => k.num == fld data 47 32) = some lease0 ∧ lease0.owner = .ctx c0 ∧
          fld data 31 0 ≤ lease0.amount ∧ lease0.isBuffer = false) := by
  refine ⟨⟨live, c0, 0, by decide +kernel⟩, ?_, ?_⟩
  · rintro l (rfl | rfl) <;> decide +kernel
  · rintro v (rfl | rfl) <;> decide +kernel

/-- The hypotheses of RefusedZoneUpdateChangesNoEntry on the state. -/
abbrev ZoneRefused (s : State) (v : DWord) : Prop :=
  s.ridgeLive .a = true ∧ s.ztbUp = true ∧ swf regInit s.regs = true ∧ ztbApply (s.zent (fld v 16 0)) v = none

theorem witness_RefusedZoneUpdateChangesNoEntry :
    (∀ w : DWord, w = 0 ∨ w = 0x8000000000000000 → ZoneRefused live w ∧ (fld w 63 60 = 0 ∨ 7 < fld w 63 60)) ∧
    ZoneRefused (ztbS (ent 1 2 0 0)) (ztbOp 1 0x0310000000000000) ∧ ZoneRefused (ztbS (ent 1 2 0 5)) (ztbOp 2 0x500000000) ∧
    ZoneRefused (ztbS (ent 1 2 0 5)) (ztbOp 3 0) ∧ ZoneRefused (ztbS (ent 1 2 0 5)) (ztbOp 4 0x3FFFF00000000) ∧
    ZoneRefused (ztbS { ent 1 2 0 5 with w2 := 0x400000 }) (ztbOp 5 0) ∧ ZoneRefused live (ztbOp 6 0) ∧
    ZoneRefused (ztbS (ent 1 2 0 0)) (ztbOp 7 0) := by
  refine ⟨?_, by decide +kernel⟩
  rintro w (rfl | rfl) <;> decide +kernel

theorem witness_FenceTakesTheRidgeOutOfService :
    ∀ cause, cause < 7 → 1 ≤ cause →
      (atReg (rk .a R_SPU_GCTL) 0x110).fenceHolds .a cause = true ∧ (atReg (rk .a R_SPU_GCTL) 0x110).ridgeLive .a = true ∧
        (atReg (rk .a R_SPU_GCTL) 0x110).ridgeSt .a = .inService ∧
          (atReg (rk .a R_SPU_GCTL) 0x110).ridgeSt .b = .inService := by
  decide +kernel

/-- Entries wait in the Admin queue, the I/O queue, or both, and admission numbers are left. -/
def fetchS (a b : Nat) : State :=
  ((hostS 0 []).modNve (fun v =>
    { v with
      limit := 9
      ctrls := [(0, { ctrl0 with sqs := [⟨0, 16, 0, a, 0, 0⟩, ⟨1, 16, 0, b, 1, 0⟩] })] })).setReg R_NVE_CTL 1

theorem witness_FetchStampsTheNextAdmissionNumber :
    ∀ q, q = 0 ∨ q = 1 →
      ∃ (s : State) (n : Nat) (sqe : Sqe) (x : Sq),
        (s.ctrl n).sqOf q = some x ∧ s.fetchOn q sqe.opc = true ∧ (s.ctrl n).en = true ∧ (s.ctrl n).rdy = true ∧
          (s.ctrl n).mayServe x = true ∧ s.inTurn (s.ctrl n) x = true ∧ s.asnStop = false := by
  rintro q (rfl | rfl)
  · exact ⟨fetchS 1 0, 0, ⟨0x06, 0, 1, 0, 0, 0, 0, 0, 0⟩, ⟨0, 16, 0, 1, 0, 0⟩, by decide +kernel⟩
  · exact ⟨fetchS 0 1, 0, ⟨0x02, 0, 1, 0, 0, 0, 0, 0, 0⟩, ⟨1, 16, 0, 1, 1, 0⟩, by decide +kernel⟩

theorem witness_AFencedRidgeHasNoEffect :
    (∃ s : State, s.ridgeLive .a = false ∧ s.ridgeSt .a = .fenced) ∧
    (∃ s : State, s.ridgeLive .b = false ∧ s.ridgeSt .b = .reset) :=
  ⟨⟨ridgeS .fenced, by decide +kernel⟩, ⟨State.reset, by decide +kernel⟩⟩

theorem witness_ResetHoldsTheOutputs : ∃ (b : Ball) (l : Level), b.resetLevel = some l ∧ b ≠ .gpio 0 :=
  ⟨.gpio 15, .input, rfl, by decide⟩

theorem witness_AWrittenMediaTagPassesItsCheck :
    ∃ (body : List Byte) (ref : DWord) (wgen : Word), body.length = 4112 ∧ fld ref 63 44 = 0 ∧
      ∃ (other : DWord) (g : Nat), other ≠ ref ∨ g ≠ wgen.toNat :=
  ⟨List.replicate 4112 0, refZoned 5 131071 256, 1, List.length_replicate, by decide +kernel, 0, 0, Or.inr (by decide)⟩

/-! ### When the commands of a family complete -/

theorem witness_AdminCommandsComplete :
    (∃ (s : State) (n : Nat), s.nveUp = true ∧ s.fnOn n = true ∧ (s.ctrl n).en = false) ∧
    (∃ (s : State) (n : Nat), (s.ctrl n).en = true) ∧
    (∃ (s : State) (n : Nat), (s.ctrl n).en = true ∧ s.inFlight n = false ∧ s.lastEnabled n = true ∧ s.win.pieces =
      []) ∧
    (∃ (s : State) (n : Nat) (c : Cmd), s.AdminDue n 0x00 c) ∧
    (∃ (s : State) (n : Nat) (c : Cmd), s.AdminDue n 0x01 c) ∧
    (∃ (s : State) (n : Nat) (c : Cmd), s.AdminDue n 0x04 c) ∧
    (∃ (s : State) (n : Nat) (c : Cmd), s.AdminDue n 0x05 c) ∧
    (∃ (s : State) (n : Nat) (c : Cmd) (s1 : State) (s2 : State), s.AdminDue n 0x02 c ∧ logListed (fld c.sqe.c10 7 0)
      = true ∧ (s.rcp.limited = false ∨ fld c.sqe.c10 7 0 = 0xC0 ∨ fld c.sqe.c10 7 0 = 0xC3) ∧ (s1 = (if bit
      c.sqe.c10 15 then s else s.modCtrl c.ctrl (fun k => k.unmask (fld c.sqe.c10 7 0)))) ∧ (s2 = (if fld c.sqe.c10 7
      0 = 0xC0 then s1.recorderPage c.logOff c.logLen else s1))) ∧
    (∃ (s : State) (n : Nat) (c : Cmd), s.AdminDue n 0x06 c ∧ cnsListed (fld c.sqe.c10 7 0) = true) ∧
    (∃ (s : State) (n : Nat) (c : Cmd), s.AdminDue n 0x08 c) ∧
    (∃ (s : State) (n : Nat) (c : Cmd), s.AdminDue n 0x09 c) ∧
    (∃ (s : State) (n : Nat) (c : Cmd), s.AdminDue n 0x0A c ∧ featureListed (fld c.sqe.c10 7 0) = true) ∧
    (∃ (s : State) (n : Nat) (c : Cmd), s.AdminDue n 0x0C c ∧ c.checked = false ∧ (s.ctrl c.ctrl).aers.length < 16) ∧
    (∃ (s : State) (n : Nat) (k : Nat) (ks : List Nat) (a : Nat) (as_ : List Nat) (c : Cmd), (s.ctrl n).events = k ::
      ks ∧ (s.ctrl n).aers = a :: as_ ∧ s.cmd a = some c ∧ s.cplRoom c = true) ∧
    (∃ (s : State) (n : Nat) (c : Cmd), s.AdminDue n 0x0D c) ∧
    (∃ (s : State) (n : Nat) (c : Cmd), s.AdminDue n 0x15 c) ∧
    (∃ (s : State) (n : Nat) (c : Cmd), s.AdminDue n 0x10 c) ∧
    (∃ (s : State) (n : Nat) (c : Cmd), s.AdminDue n 0x11 c) ∧
    (∃ (s : State) (n : Nat) (c : Cmd), s.AdminDue n 0x14 c) ∧
    (∃ (s : State) (n : Nat) (c : Cmd), s.AdminDue n 0x1C c) ∧
    (∃ (s : State) (n : Nat) (c : Cmd), s.AdminDue n 0x1D c) ∧
    (∃ (s : State) (n : Nat) (c : Cmd), s.AdminDue n 0x1E c) ∧
    (∃ (s : State) (n : Nat) (c : Cmd), s.AdminDue n 0x81 c) ∧
    (∃ (s : State) (n : Nat) (c : Cmd), s.AdminDue n 0x82 c) ∧
    (∃ (s : State) (n : Nat) (c : Cmd), s.AdminDue n 0x80 c) ∧
    (∃ (s : State) (n : Nat) (c : Cmd), s.AdminDue n 0x84 c) ∧
    (∃ (s : State) (n : Nat) (c : Cmd), s.cmd n = some c ∧ ((if c.sq = 0 then adminOpc c.sqe.opc.toNat else ioOpc
      c.sqe.opc.toNat) = false)) :=
  ⟨⟨(live.modHpt .a (fun h => { h with inReset := false })), 0, by decide +kernel, by decide +kernel, by
      decide +kernel⟩,
    ⟨hostS 0 [], 0, by decide +kernel⟩,
    ⟨hostS 0 [], 0, by decide +kernel, by decide +kernel, by decide +kernel, by decide +kernel⟩,
    ⟨hostS 0 [cmd 0 0x00], 0, cmd 0 0x00, by decide +kernel⟩,
    ⟨hostS 0 [cmd 0 0x01], 0, cmd 0 0x01, by decide +kernel⟩,
    ⟨hostS 0 [cmd 0 0x04], 0, cmd 0 0x04, by decide +kernel⟩,
    ⟨hostS 0 [cmd 0 0x05], 0, cmd 0 0x05, by decide +kernel⟩,
    ⟨hostS 0 [cmd 0 0x02], 0, cmd 0 0x02, (if bit (cmd 0 0x02).sqe.c10 15 then (hostS 0 [cmd 0 0x02]) else (hostS 0
      [cmd 0 0x02]).modCtrl (cmd 0 0x02).ctrl (fun k => k.unmask (fld (cmd 0 0x02).sqe.c10 7 0))), (if fld (cmd 0
      0x02).sqe.c10 7 0 = 0xC0 then (if bit (cmd 0 0x02).sqe.c10 15 then (hostS 0 [cmd 0 0x02]) else (hostS 0 [cmd 0
      0x02]).modCtrl (cmd 0 0x02).ctrl (fun k => k.unmask (fld (cmd 0 0x02).sqe.c10 7 0))).recorderPage (cmd 0
      0x02).logOff (cmd 0 0x02).logLen else (if bit (cmd 0 0x02).sqe.c10 15 then (hostS 0 [cmd 0 0x02]) else (hostS 0
      [cmd 0 0x02]).modCtrl (cmd 0 0x02).ctrl (fun k => k.unmask (fld (cmd 0 0x02).sqe.c10 7 0)))), by
      decide +kernel, by decide +kernel, by decide +kernel, rfl, rfl⟩,
    ⟨hostS 0 [cmd 0 0x06], 0, cmd 0 0x06, by decide +kernel, by decide +kernel⟩,
    ⟨hostS 0 [cmd 0 0x08], 0, cmd 0 0x08, by decide +kernel⟩,
    ⟨hostS 0 [cmd 0 0x09], 0, cmd 0 0x09, by decide +kernel⟩,
    ⟨hostS 0 [{ cmd 0 0x0A with sqe := ⟨0x0A, 0, 1, 7, 0, 0, 0, 0, 0⟩ }], 0,
      { cmd 0 0x0A with sqe := ⟨0x0A, 0, 1, 7, 0, 0, 0, 0, 0⟩ }, by decide +kernel, by decide +kernel⟩,
    ⟨hostS 0 [cmd 0 0x0C], 0, cmd 0 0x0C, by decide +kernel, by decide +kernel, by decide +kernel⟩,
    ⟨(hostS 0 [cmd 0 0x0C]).modCtrl 0 (fun x => { x with events := [1], aers := [0] }), 0, 1, [], 0, [], cmd 0 0x0C,
      by decide +kernel, by decide +kernel, by decide +kernel, by decide +kernel⟩,
    ⟨hostS 0 [cmd 0 0x0D], 0, cmd 0 0x0D, by decide +kernel⟩,
    ⟨hostS 0 [cmd 0 0x15], 0, cmd 0 0x15, by decide +kernel⟩,
    ⟨hostS 0 [cmd 0 0x10], 0, cmd 0 0x10, by decide +kernel⟩,
    ⟨hostS 0 [cmd 0 0x11], 0, cmd 0 0x11, by decide +kernel⟩,
    ⟨hostS 0 [cmd 0 0x14], 0, cmd 0 0x14, by decide +kernel⟩,
    ⟨hostS 0 [cmd 0 0x1C], 0, cmd 0 0x1C, by decide +kernel⟩,
    ⟨hostS 0 [cmd 0 0x1D], 0, cmd 0 0x1D, by decide +kernel⟩,
    ⟨hostS 0 [cmd 0 0x1E], 0, cmd 0 0x1E, by decide +kernel⟩,
    ⟨hostS 0 [cmd 0 0x81], 0, cmd 0 0x81, by decide +kernel⟩,
    ⟨hostS 0 [cmd 0 0x82], 0, cmd 0 0x82, by decide +kernel⟩,
    ⟨hostS 0 [cmd 0 0x80], 0, cmd 0 0x80, by decide +kernel⟩,
    ⟨hostS 0 [cmd 0 0x84], 0, cmd 0 0x84, by decide +kernel⟩,
    ⟨hostS 0 [cmd 0 0x7F], 0, cmd 0 0x7F, by decide +kernel, by decide +kernel⟩⟩

theorem witness_AdmissionAndIoCommandsComplete :
    (∃ (s : State) (n : Nat) (q : Nat) (tail : Nat) (x : Sq), s.nveUp = true ∧ (s.ctrl n).sqOf q = some x ∧ tail <
      x.size) ∧
    (∃ (s : State) (n : Nat) (q : Nat) (upto : Nat) (x : Cq) (s1 : State), s.nveUp = true ∧ (s.ctrl n).cqOf q = some
      x ∧ upto < x.size ∧ (upto + x.size - x.head) % x.size ≤ x.entries.length ∧ (s1 = (s.traffic (portOf n)).modCtrl
      n (fun c => c.modCq q (fun y =>
      { y with head := upto, entries := y.entries.drop ((upto + x.size - x.head) % x.size) })))) ∧
    (∃ (s : State) (n : Nat) (q : Nat) (sqe : Sqe) (x : Sq), (s.ctrl n).sqOf q = some x ∧ s.fetchOn q sqe.opc = true
      ∧ (s.ctrl n).en = true ∧ (s.ctrl n).rdy = true ∧ (s.ctrl n).mayServe x = true ∧ s.inTurn (s.ctrl n) x = true ∧
      s.asnStop = false) ∧
    (∃ (s : State) (x : Accessor), s.Granted x R_NVE_ID true) ∧
    (∃ (s : State) (n : Nat) (c : Cmd) (s1 : State), s.IoDue n 0x01 c ∧ s.checkSteps c = (s1, none)) ∧
    (∃ (s : State) (n : Nat) (c : Cmd) (s1 : State), s.IoDue n 0x08 c ∧ s.checkSteps c = (s1, none)) ∧
    (∃ (s : State) (n : Nat) (c : Cmd) (s1 : State), s.IoDue n 0x7D c ∧ s.checkSteps c = (s1, none)) ∧
    (∃ (s : State) (n : Nat) (tries : List (List ReadTry)) (c : Cmd), s.IoChecked n 0x02 c ∧ c.released = true ∧
      tries.length = c.blocks ∧ c.readOk = false ∧ c.abortReq = false) ∧
    (∃ (s : State) (n : Nat) (tries : List (List ReadTry)) (c : Cmd) (s1 : State), s.IoChecked n 0x02 c ∧ c.released
      = false ∧ s.entryClear c = true ∧ s1 = s.releaseRead c ∧ ((s1.cmd n).all (fun k => tries.length != k.blocks) =
      true)) ∧
    (∃ (s : State) (n : Nat) (tries : List (List ReadTry)) (c : Cmd), s.IoChecked n 0x0C c ∧ c.released = true ∧
      tries.length = c.blocks ∧ c.readOk = false ∧ c.abortReq = false) ∧
    (∃ (s : State) (n : Nat) (tries : List (List ReadTry)) (c : Cmd) (s1 : State), s.IoChecked n 0x0C c ∧ c.released
      = false ∧ s.entryClear c = true ∧ s1 = s.releaseRead c ∧ ((s1.cmd n).all (fun k => tries.length != k.blocks) =
      true)) ∧
    (∃ (s : State) (n : Nat) (c : Cmd) (s1 : State), s.IoDue n 0x09 c ∧ s.checkSteps c = (s1, none)) ∧
    (∃ (s : State) (n : Nat) (c : Cmd), s.IoChecked n 0x00 c ∧ s.flushDone c = true) ∧
    (∃ (s : State) (n : Nat) (c : Cmd) (d : Cmd) (s1 : State), s.IoChecked n 0x79 c ∧ c.abortReq = false ∧ c.spans =
      [] ∧ s.entryClear c = true ∧ s.zoneOp c = (s1, true) ∧ s1.cmd n = some d) ∧
    (∃ (s : State) (n : Nat) (c : Cmd) (s1 : State), s.IoDue n 0x7A c ∧ s.checkSteps c = (s1, none) ∧ s1.nsZoned c.ns
      = true ∧ c.slbaF ≤ s1.nsSize c.ns) ∧
    (∃ (s : State) (n : Nat) (c : Cmd) (s1 : State), s.IoDue n 0x0D c ∧ s.checkSteps c = (s1, none)) ∧
    (∃ (s : State) (n : Nat) (c : Cmd) (s1 : State), s.IoDue n 0x0E c ∧ s.checkSteps c = (s1, none)) ∧
    (∃ (s : State) (n : Nat) (crkey : DWord) (c : Cmd) (r : Resv), s.IoDue n 0x11 c ∧ s.checkSteps c = (s, none) ∧ r
      = Resv.ofNs (s.ns c.ns) ∧ r.keyOf c.host = some crkey ∧ 1 ≤ fld c.sqe.c10 15 8 ∧ fld c.sqe.c10 15 8 ≤ 6 ∧ fld
      c.sqe.c10 2 0 = 0 ∧ (r.rtype = 0 ∨ (r.holder = some c.host ∧ r.rtype = fld c.sqe.c10 15 8))) ∧
    (∃ (s : State) (n : Nat) (crkey : DWord) (prkey : DWord) (c : Cmd) (r : Resv) (s1 : State), s.IoDue n 0x11 c ∧
      s.checkSteps c = (s, none) ∧ r = Resv.ofNs (s.ns c.ns) ∧ r.keyOf c.host = some crkey ∧ 1 ≤ fld c.sqe.c10 15 8 ∧
      fld c.sqe.c10 15 8 ≤ 6 ∧ (s1 = s.modResv c.ns (fun x => x.preempt (r.others prkey c.host) prkey (fld c.sqe.c10
      15 8) c.host)) ∧ (fld c.sqe.c10 2 0 = 1 ∨ (fld c.sqe.c10 2 0 = 2 ∧ s1.preempted c (r.others prkey c.host) =
      []))) ∧
    (∃ (s : State) (n : Nat) (crkey : DWord) (prkey : DWord) (c : Cmd) (r : Resv) (s1 : State), s.IoDue n 0x11 c ∧
      s.checkSteps c = (s, none) ∧ r = Resv.ofNs (s.ns c.ns) ∧ r.keyOf c.host = some crkey ∧ 1 ≤ fld c.sqe.c10 15 8 ∧
      fld c.sqe.c10 15 8 ≤ 6 ∧ (s1 = s.modResv c.ns (fun x => x.preempt (r.others prkey c.host) prkey (fld c.sqe.c10
      15 8) c.host)) ∧ fld c.sqe.c10 2 0 = 2 ∧ s1.preempted c (r.others prkey c.host) ≠ []) ∧
    (∃ (s : State) (n : Nat) (c : Cmd), s.IoChecked n 0x11 c ∧ c.waitsFor = []) ∧
    (∃ (s : State) (n : Nat) (c : Cmd) (s1 : State), s.IoDue n 0x15 c ∧ s.checkSteps c = (s1, none)) ∧
    (∃ (s : State) (n : Nat) (c : Cmd), s.cmd n = some c ∧ c.hedgeWait = true) ∧
    (∃ (s : State) (c : CtxId), s.ridgeLive c.ridge = true ∧ s.hdgUp = true) ∧
    (∃ (s : State) (c : CtxId), s.ridgeLive c.ridge = true ∧ s.hdgUp = true) ∧
    (∃ (s : State) (e : BitVec 14) (x : HEntry), s.hent e.toNat = some x ∧ x.committed = true) ∧
    (∃ (s : State) (n : Nat) (cause : Nat) (c : Cmd), s.IoChecked n c.sqe.opc c ∧ c.committed = false ∧ s.nsZoned
      c.ns = true ∧ (c.sqe.opc = 0x01 ∨ c.sqe.opc = 0x08 ∨ c.sqe.opc = 0x7D) ∧ cause = 0 ∧ c.abortReq = true) ∧
    (∃ (s : State) (n : Nat) (cause : Nat) (c : Cmd), s.IoChecked n c.sqe.opc c ∧ c.committed = false ∧ s.nsZoned
      c.ns = true ∧ (c.sqe.opc = 0x01 ∨ c.sqe.opc = 0x08 ∨ c.sqe.opc = 0x7D) ∧ 1 ≤ cause ∧ cause ≤ 4) ∧
    (∃ (s : State) (c : CtxId), s.ridgeLive c.ridge = true ∧ s.nveUp = true) ∧
    (∃ (s : State) (c : CtxId), s.ridgeLive c.ridge = true ∧ s.nveUp = true) :=
  ⟨⟨hostS 0 [], 0, 0, 0, ⟨0, 16, 0, 1, 0, 0⟩, by decide +kernel, by decide +kernel, by decide +kernel⟩,
    ⟨hostS 0 [], 0, 0, 0, ⟨0, 16, 0, []⟩, ((hostS 0 []).traffic (portOf 0)).modCtrl 0 (fun c => c.modCq 0 (fun y =>
      { y with head := 0, entries := y.entries.drop ((0 + (⟨0, 16, 0, []⟩ : Cq).size - (⟨0, 16, 0, []⟩ : Cq).head) % (⟨0, 16, 0, []⟩ : Cq).size) })),
      by decide +kernel, by decide +kernel, by decide +kernel, by decide +kernel, rfl⟩,
    ⟨((hostS 0 []).modNve (fun v => { v with limit := 9 })).setReg R_NVE_CTL 1, 0, 0, ⟨0x06, 0, 1, 0, 0, 0, 0, 0, 0⟩,
      ⟨0, 16, 0, 1, 0, 0⟩, by decide +kernel, by decide +kernel, by decide +kernel, by decide +kernel, by
      decide +kernel, by decide +kernel, by decide +kernel⟩,
    ⟨live, xa, by decide +kernel⟩,
    ⟨hdgS 0x80000000 (cmd 1 0x01), 0, cmd 1 0x01, ((hdgS 0x80000000 (cmd 1 0x01)).checkSteps (cmd 1 0x01)).1, by
      decide +kernel, Prod.ext rfl (by decide +kernel)⟩,
    ⟨hdgS 0x80000000 (cmd 1 0x08), 0, cmd 1 0x08, ((hdgS 0x80000000 (cmd 1 0x08)).checkSteps (cmd 1 0x08)).1, by
      decide +kernel, Prod.ext rfl (by decide +kernel)⟩,
    ⟨zoneS (cmd 1 0x7D), 0, cmd 1 0x7D, ((zoneS (cmd 1 0x7D)).checkSteps (cmd 1 0x7D)).1, by decide +kernel, Prod.ext
      rfl (by decide +kernel)⟩,
    ⟨hdgS 0x80000000 rdCmd, 0, [], rdCmd, by decide +kernel, by decide +kernel, by decide +kernel, by decide +kernel,
      by decide +kernel⟩,
    ⟨hdgS 0x80000000 { okd 0x02 with blocks := 1 }, 0, [], { okd 0x02 with blocks := 1 }, (hdgS 0x80000000
      { okd 0x02 with blocks := 1 }).releaseRead ({ okd 0x02 with blocks := 1 }), by decide +kernel, by
      decide +kernel, by decide +kernel, rfl, by decide +kernel⟩,
    ⟨hdgS 0x80000000 { rdCmd with sqe := (cmd 1 0x0C).sqe }, 0, [], { rdCmd with sqe := (cmd 1 0x0C).sqe }, by
      decide +kernel, by decide +kernel, by decide +kernel, by decide +kernel, by decide +kernel⟩,
    ⟨hdgS 0x80000000 { okd 0x0C with blocks := 1 }, 0, [], { okd 0x0C with blocks := 1 }, (hdgS 0x80000000
      { okd 0x0C with blocks := 1 }).releaseRead ({ okd 0x0C with blocks := 1 }), by decide +kernel, by
      decide +kernel, by decide +kernel, rfl, by decide +kernel⟩,
    ⟨hdgS 0x80000000 (cmd 1 0x09), 0, cmd 1 0x09, ((hdgS 0x80000000 (cmd 1 0x09)).checkSteps (cmd 1 0x09)).1, by
      decide +kernel, Prod.ext rfl (by decide +kernel)⟩,
    ⟨hdgS 0x80000000 (okd 0x00), 0, okd 0x00, by decide +kernel, by decide +kernel⟩,
    ⟨zoneS { okd 0x79 with sqe := ⟨0x79, 0, 1, 0, 0, 0, 2, 0, 0⟩ }, 0,
      { okd 0x79 with sqe := ⟨0x79, 0, 1, 0, 0, 0, 2, 0, 0⟩ },
      { okd 0x79 with sqe := ⟨0x79, 0, 1, 0, 0, 0, 2, 0, 0⟩, committed := true }, ((zoneS
      { okd 0x79 with sqe := ⟨0x79, 0, 1, 0, 0, 0, 2, 0, 0⟩ }).zoneOp
      ({ okd 0x79 with sqe := ⟨0x79, 0, 1, 0, 0, 0, 2, 0, 0⟩ })).1, by decide +kernel, by decide +kernel, by
      decide +kernel, by decide +kernel, Prod.ext rfl (by decide +kernel), by decide +kernel⟩,
    ⟨zoneS (cmd 1 0x7A), 0, cmd 1 0x7A, ((zoneS (cmd 1 0x7A)).checkSteps (cmd 1 0x7A)).1, by decide +kernel, Prod.ext
      rfl (by decide +kernel), by decide +kernel, by decide +kernel⟩,
    ⟨hdgS 0x80000000 (cmd 1 0x0D), 0, cmd 1 0x0D, ((hdgS 0x80000000 (cmd 1 0x0D)).checkSteps (cmd 1 0x0D)).1, by
      decide +kernel, Prod.ext rfl (by decide +kernel)⟩,
    ⟨hdgS 0x80000000 (cmd 1 0x0E), 0, cmd 1 0x0E, ((hdgS 0x80000000 (cmd 1 0x0E)).checkSteps (cmd 1 0x0E)).1, by
      decide +kernel, Prod.ext rfl (by decide +kernel)⟩,
    ⟨resvS [resvCmd 0x100] [(0, 0)], 0, 0, resvCmd 0x100, resv0, by decide +kernel, by decide +kernel, by
      decide +kernel, by decide +kernel, by decide +kernel, by decide +kernel, by decide +kernel, by decide +kernel⟩,
    ⟨resvS [resvCmd 0x101] [(0, 0)], 0, 0, 0, resvCmd 0x101, resv0, (resvS [resvCmd 0x101] [(0, 0)]).modResv (resvCmd
      0x101).ns (fun x => x.preempt (resv0.others 0 (resvCmd 0x101).host) 0 (fld (resvCmd 0x101).sqe.c10 15 8)
      (resvCmd 0x101).host), by decide +kernel, by decide +kernel, by decide +kernel, by decide +kernel, by
      decide +kernel, by decide +kernel, rfl, by decide +kernel⟩,
    ⟨resvS [resvCmd 0x102, { okd 0x02 with idx := 1, host := 1 }] [(0, 0), (1, 7)], 0, 0, 7, resvCmd 0x102, resv1,
      (resvS [resvCmd 0x102, { okd 0x02 with idx := 1, host := 1 }] [(0, 0), (1, 7)]).modResv (resvCmd 0x102).ns (fun
      x => x.preempt (resv1.others 7 (resvCmd 0x102).host) 7 (fld (resvCmd 0x102).sqe.c10 15 8) (resvCmd
      0x102).host), by decide +kernel, by decide +kernel, by decide +kernel, by decide +kernel, by decide +kernel, by
      decide +kernel, rfl, by decide +kernel, by decide +kernel⟩,
    ⟨hdgS 0x80000000 (okd 0x11), 0, okd 0x11, by decide +kernel, by decide +kernel⟩,
    ⟨resvS [cmd 1 0x15] [(0, 0)], 0, cmd 1 0x15, ((resvS [cmd 1 0x15] [(0, 0)]).checkSteps (cmd 1 0x15)).1, by
      decide +kernel, Prod.ext rfl (by decide +kernel)⟩,
    ⟨hdgS 0x80000000 { okd 0x02 with hedgeWait := true, hedge := none }, 0,
      { okd 0x02 with hedgeWait := true, hedge := none }, by decide +kernel, by decide +kernel⟩,
    ⟨live, c0, by decide +kernel, by decide +kernel⟩,
    ⟨live, c0, by decide +kernel, by decide +kernel⟩,
    ⟨live.modHdg (fun h => { h with entries := [(0, some (hent true))] }), 0, hent true, by decide +kernel, by
      decide +kernel⟩,
    ⟨zoneS { okd 0x01 with abortReq := true }, 0, 0, { okd 0x01 with abortReq := true }, by decide +kernel, by
      decide +kernel, by decide +kernel, by decide +kernel, by decide +kernel, by decide +kernel⟩,
    ⟨zoneS (okd 0x01), 0, 1, okd 0x01, by decide +kernel, by decide +kernel, by decide +kernel, by decide +kernel, by
      decide +kernel, by decide +kernel⟩,
    ⟨live, c0, by decide +kernel, by decide +kernel⟩,
    ⟨live, c0, by decide +kernel, by decide +kernel⟩⟩

theorem witness_AngleEventActionsComplete :
    (∃ (s : State) (t : Quad) (now : DWord) (e : AeqEntry) (rest : List AeqEntry), s.HeadDue t now 0 e rest) ∧
    (∃ (s : State) (t : Quad) (now : DWord) (e : AeqEntry) (rest : List AeqEntry), s.HeadDue t now 1 e rest) ∧
    (∃ (s : State) (t : Quad) (now : DWord) (e : AeqEntry) (rest : List AeqEntry), s.HeadDue t now 2 e rest) ∧
    (∃ (s : State) (t : Quad) (now : DWord) (e : AeqEntry) (rest : List AeqEntry), s.HeadDue t now 3 e rest) ∧
    (∃ (s : State) (t : Quad) (now : DWord) (e : AeqEntry) (rest : List AeqEntry), s.HeadDue t now 4 e rest) ∧
    (∃ (s : State) (t : Quad) (now : DWord) (e : AeqEntry) (rest : List AeqEntry), s.HeadDue t now 5 e rest) ∧
    (∃ (s : State) (t : Quad) (now : DWord) (e : AeqEntry) (rest : List AeqEntry), s.HeadDue t now 6 e rest) ∧
    (∃ (s : State) (t : Quad) (now : DWord) (e : AeqEntry) (rest : List AeqEntry), s.HeadDue t now 7 e rest) ∧
    (∃ (s : State) (t : Quad) (now : DWord) (smps : List Smp) (e : AeqEntry) (rest : List AeqEntry) (s1 : State) (s2
      : State) (x : Sector), s.HeadDue t now 8 e rest ∧ s1 = s.takeHead t now rest ∧ ¬ ((s1.lateMax t : Int) <
      s.lateBy t now e) ∧ s2 = (s1.countLate t (s.lateBy t now e)).takeSmps t smps ∧ (s2.tl t).sector = some x ∧
      (s2.tl t).rg = true ∧ x.isWrite = false ∧ x.gateOpen = true) ∧
    (∃ (s : State) (t : Quad) (now : DWord) (smps : List Smp) (e : AeqEntry) (rest : List AeqEntry) (s2 : State),
      s.HeadDue t now 9 e rest ∧ s2 = ((s.takeHead t now rest).countLate t (s.lateBy t now e)).takeSmps t smps) ∧
    (∃ (s : State) (t : Quad) (now : DWord) (e : AeqEntry) (rest : List AeqEntry), s.HeadDue t now 10 e rest) ∧
    (∃ (s : State) (t : Quad) (now : DWord) (e : AeqEntry) (rest : List AeqEntry), s.HeadDue t now 11 e rest) ∧
    (∃ (s : State) (t : Quad) (now : DWord) (e : AeqEntry) (rest : List AeqEntry), s.HeadDue t now 12 e rest) ∧
    (∃ (s : State) (t : Quad) (now : DWord) (e : AeqEntry) (rest : List AeqEntry), (s.tl t).aeq = e :: rest ∧ 13 ≤
      fld e.action 31 24 ∧ s.canReach (s.angSide t) now = true) :=
  ⟨⟨aeqS 0, .q0, 0, due 0, [], by decide +kernel⟩,
    ⟨aeqS 1, .q0, 0, due 1, [], by decide +kernel⟩,
    ⟨aeqS 2, .q0, 0, due 2, [], by decide +kernel⟩,
    ⟨aeqS 3, .q0, 0, due 3, [], by decide +kernel⟩,
    ⟨aeqS 4, .q0, 0, due 4, [], by decide +kernel⟩,
    ⟨aeqS 5, .q0, 0, due 5, [], by decide +kernel⟩,
    ⟨aeqS 6, .q0, 0, due 6, [], by decide +kernel⟩,
    ⟨aeqS 7, .q0, 0, due 7, [], by decide +kernel⟩,
    ⟨(secS false).modTile .q0 (fun x => { x with aeq := [due 8] }), .q0, 0, [], due 8, [], ((secS false).modTile .q0
      (fun x => { x with aeq := [due 8] })).takeHead .q0 0 ([] : List AeqEntry), ((((secS false).modTile .q0 (fun x
      => { x with aeq := [due 8] })).takeHead .q0 0 ([] : List AeqEntry)).countLate .q0 (((secS false).modTile .q0
      (fun x => { x with aeq := [due 8] })).lateBy .q0 0 (due 8))).takeSmps .q0 ([] : List Smp), sec false, by
      decide +kernel, rfl, by decide +kernel, rfl, by decide +kernel, by decide +kernel, by decide +kernel, by
      decide +kernel⟩,
    ⟨aeqS 9, .q0, 0, [], due 9, [], (((aeqS 9).takeHead .q0 0 ([] : List AeqEntry)).countLate .q0 ((aeqS 9).lateBy
      .q0 0 (due 9))).takeSmps .q0 ([] : List Smp), by decide +kernel, rfl⟩,
    ⟨aeqS 10, .q0, 0, due 10, [], by decide +kernel⟩,
    ⟨aeqS 11, .q0, 0, due 11, [], by decide +kernel⟩,
    ⟨aeqS 12, .q0, 0, due 12, [], by decide +kernel⟩,
    ⟨aeqS 13, .q0, 0, due 13, [], by decide +kernel, by decide +kernel, by decide +kernel⟩⟩

theorem witness_AngleSynthesizerEventsComplete :
    (∃ (s : State) (r : Side), s.angEn r = true ∧ (s.pickRef r).isSome = true ∧ s.owes r = false) ∧
    (∃ (s : State) (r : Side), (s.an r).src.tracking = true) ∧
    (∃ (s : State) (r : Side) (periods : Nat), (s.an r).src = .flywheel ∧ s.flyWr r < ((s.an r).flyMarks + periods)) ∧
    (∃ (s : State) (r : Side) (periods : Nat), (s.an r).src = .flywheel ∧ (s.fbMarks r ≤ (if (s.an r).flySearch then
      (s.an r).seekMarks + periods else periods))) ∧
    (∃ (s : State) (r : Side), s.angUp r = true) ∧
    (∃ (s : State) (r : Side), 16 ≤ (s.an r).xOver ∧ (s.an r).xerr = false) ∧
    (∃ (s : State) (r : Side) (n : BitVec 5) (now : DWord), (sg Cmp.default (s.an r).cmps n.toNat).armed = true ∧
      s.canReach r now = true ∧ (sg Cmp.default (s.an r).cmps n.toNat).value.toNat ≤ now.toNat) ∧
    (∃ (s : State) (r : Side), s.ridgeLive r = true ∧ s.angUp r = true) :=
  ⟨⟨(((angS (fun a => { a with ref := some .q0 })).modMtr (fun k => { k with park := ⟨.loaded, .loaded⟩ })).modLink
      .a (fun l => { l with slots := ⟨⟨1, 0, true, true, none⟩, ⟨1, 0, true, true, none⟩⟩ })), .a, by decide +kernel,
      by decide +kernel, by decide +kernel⟩,
    ⟨angS (fun a => { a with src := .track }), .a, by decide +kernel⟩,
    ⟨angS (fun a => { a with src := .flywheel }), .a, 4096, by decide +kernel, by decide +kernel⟩,
    ⟨angS (fun a => { a with src := .flywheel }), .a, 65536, by decide +kernel, by decide +kernel⟩,
    ⟨angS (fun a => { a with ref := some .q0 }), .a, by decide +kernel⟩,
    ⟨angS (fun a => { a with xOver := 16 }), .a, by decide +kernel, by decide +kernel⟩,
    ⟨angS (fun a => { a with cmps := [(0, ⟨true, false, 0, none⟩)] }), .a, 0, 0, by decide +kernel, by
      decide +kernel, by decide +kernel⟩,
    ⟨live, .a, by decide +kernel, by decide +kernel⟩⟩

theorem witness_BusAccessesComplete :
    (∃ (s : State) (x : Accessor) (addr : Word) (data : Word) (k : Nat), s.BusReaches x addr (.reg k) ∧
      s.writeRefused x k data = none ∧ s.writeSpecial x k data = none) ∧
    (∃ (s : State) (x : Accessor) (addr : Word) (data : Word) (k : Nat) (u : State), s.BusReaches x addr (.reg k) ∧
      s.writeRefused x k data = none ∧ s.writeSpecial x k data = some u) ∧
    (∃ (s : State) (x : Accessor) (addr : Word) (k : Nat), s.BusReaches x addr (.reg k) ∧ isRs k = true ∧ x.port ≠
      0xE1) ∧
    (∃ (s : State) (x : Accessor) (k : Nat), s.BusReaches x (BitVec.ofNat 32 R_ANG_AC_LO) (.reg k) ∧ x.port ≠ 0xE1) ∧
    (∃ (s : State) (x : Accessor) (addr : Word) (t : Quad) (o : Nat), s.BusReaches x addr (.legacy t o) ∧ s.owns
      x.ridge t = true) :=
  ⟨⟨live, xa, BitVec.ofNat 32 R_SPU_SEGMAX, 0, R_SPU_SEGMAX, by decide +kernel, by decide +kernel, by decide +kernel⟩,
    ⟨live, xa, BitVec.ofNat 32 R_RLG_CMD, 0, R_RLG_CMD, (live.writeSpecial xa R_RLG_CMD 0).get (by decide +kernel),
      by decide +kernel, by decide +kernel, (Option.some_get _).symm⟩,
    ⟨live, xa, BitVec.ofNat 32 (R_ANG_AEQCNT), R_ANG_AEQCNT, by decide +kernel, by decide +kernel, by decide +kernel⟩,
    ⟨live, xa, R_ANG_AC_LO, by decide +kernel, by decide +kernel⟩,
    ⟨wscS, xa, 0x2000C00, .q0, 0xC00, by decide +kernel, by decide +kernel⟩⟩

theorem witness_CairnCommandsComplete :
    (∃ (s : State) (c : CtxId), s.ridgeLive c.ridge = true) ∧
    (∃ (s : State) (r : Side), s.bankUp r = false) ∧
    (∃ (s : State) (x : Accessor), s.ridgeLive x.ridge = true) ∧
    (∃ (s : State) (asn : DWord) (lba : Nat) (cause : Nat) (p : _), (s.win.pieces.find? (fun p => decide (p.asn = asn
      ∧ p.lba ≤ lba ∧ lba < p.lba + p.blocks)) = some p) ∧ 1 ≤ cause ∧ cause ≤ 3) ∧
    (∃ (s : State) (pfail : Bool) (vmot : BitVec 16), pfail || decide (vmot.toNat < s.regF R_MTR_PFCFG 31 16) = true) ∧
    (∃ (s : State) (x : Side) (n : Nat) (r : Side) (k : Nat) (s1 : State), s.rlg.unit.get x = some r ∧ s.mtr.sp =
      .gen ∧ s.win.flushing.get x = true ∧ s.ridgeSt r = .inService ∧ s.tooSlow = false ∧ k = min (pieceSectors
      (s.flushList x)) (s.win.flushed.get x + n) ∧ (s1 = (s.modWin (fun w =>
      { w with flushed := w.flushed.set x k, unread := w.unread.set x (w.unread.get x ++ s.unreadable r (s.flushList x) (s.win.flushed.get x) k) })).pfAt
      5) ∧ k < pieceSectors (s.flushList x)) ∧
    (∃ (s : State) (x : Side) (n : Nat) (r : Side) (k : Nat) (s1 : State), s.rlg.unit.get x = some r ∧ s.mtr.sp =
      .gen ∧ s.win.flushing.get x = true ∧ s.ridgeSt r = .inService ∧ s.tooSlow = false ∧ k = pieceSectors
      (s.flushList x) ∧ k ≤ s.win.flushed.get x + n ∧ (s1 = (s.modWin (fun w =>
      { w with flushed := w.flushed.set x k, unread := w.unread.set x (w.unread.get x ++ s.unreadable r (s.flushList x) (s.win.flushed.get x) k) })).pfAt
      5)) ∧
    (∃ (s : State) (x : Side), s.win.flushing.get x = true ∧ (s.mtr.sp ≠ .gen ∨ s.tooSlow = true)) ∧
    (∃ (s : State) (r : Side), s.ridgeSt r = .inService ∧ (r = .a ∨ s.ridgeSt .a ≠ .inService) ∧ s.crn.replayed =
      false) :=
  ⟨⟨live, c0, by decide +kernel⟩,
    ⟨ridgeS .fenced, .a, by decide +kernel⟩,
    ⟨live, xa, by decide +kernel⟩,
    ⟨genS, 0, 0, 1, piece, by decide +kernel, by decide +kernel, by decide +kernel⟩,
    ⟨live, false, 0, by decide +kernel⟩,
    ⟨(genS.modWin (fun w => { w with pieces := [{ piece with blocks := 4 }] })).setReg (rk .a R_ANG_RATE) 0x8000000,
      .a, 1, .a, 1, (((genS.modWin (fun w => { w with pieces := [{ piece with blocks := 4 }] })).setReg (rk .a
      R_ANG_RATE) 0x8000000).modWin (fun w =>
      { w with flushed := w.flushed.set .a 1, unread := w.unread.set .a (w.unread.get .a ++ ((genS.modWin (fun w => { w with pieces := [{ piece with blocks := 4 }] })).setReg (rk .a R_ANG_RATE) 0x8000000).unreadable .a (((genS.modWin (fun w => { w with pieces := [{ piece with blocks := 4 }] })).setReg (rk .a R_ANG_RATE) 0x8000000).flushList .a) (((genS.modWin (fun w => { w with pieces := [{ piece with blocks := 4 }] })).setReg (rk .a R_ANG_RATE) 0x8000000).win.flushed.get .a) 1) })).pfAt
      5, by decide +kernel, by decide +kernel, by decide +kernel, by decide +kernel, by decide +kernel, by
      decide +kernel, rfl, by decide +kernel⟩,
    ⟨genS.setReg (rk .a R_ANG_RATE) 0x8000000, .a, 1, .a, 1, ((genS.setReg (rk .a R_ANG_RATE) 0x8000000).modWin (fun
      w =>
      { w with flushed := w.flushed.set .a 1, unread := w.unread.set .a (w.unread.get .a ++ (genS.setReg (rk .a R_ANG_RATE) 0x8000000).unreadable .a ((genS.setReg (rk .a R_ANG_RATE) 0x8000000).flushList .a) ((genS.setReg (rk .a R_ANG_RATE) 0x8000000).win.flushed.get .a) 1) })).pfAt
      5, by decide +kernel, by decide +kernel, by decide +kernel, by decide +kernel, by decide +kernel, by
      decide +kernel, by decide +kernel, rfl⟩,
    ⟨genS, .a, by decide +kernel, by decide +kernel⟩,
    ⟨live, .a, by decide +kernel, by decide +kernel, by decide +kernel⟩⟩

theorem witness_ChannelCommandsComplete :
    (∃ (s : State) (t : Quad), s.clkFault t = true) ∧
    (∃ (s : State) (x : Accessor) (t : Quad), s.TileGranted x t) ∧
    (∃ (s : State) (x : Accessor) (t : Quad), s.TileGranted x t) ∧
    (∃ (s : State) (x : Accessor) (t : Quad), s.TileGranted x t) ∧
    (∃ (s : State) (t : Quad) (k : _) (u : _), (s.tl t).spare = .waitTake k u) ∧
    (∃ (s : State) (t : Quad) (k : Nat) (u : Bool), ((s.tl t).spare = .standing k false ∨ (s.tl t).spare =
      .waitReturn k u) ∧ ((s.tl t).spare = .standing k false → u = false) ∧ (s.tl t).rg = false) ∧
    (∃ (s : State) (t : Quad) (level : Nat) (smps : List Smp) (x : Sector) (at_ : Int) (s1 : State), s.envelopeKind t
      level = some .asperity ∧ (s.tl t).sector = some x ∧ (s.tl t).rg = true ∧ x.isWrite = false ∧ x.gateOpen = true
      ∧ at_ = ((x.run.smps.length + smps.length : Nat) : Int) - 64 ∧ (s1 = (s.modTile t (fun y =>
      { y with freeze := some (.asperity, (y.freeze.map (fun p => min p.2 at_)).getD at_) })).takeSmps t smps)) ∧
    (∃ (s : State) (t : Quad) (level : Nat) (smps : List Smp) (x : Sector) (at_ : Int) (s1 : State), s.envelopeKind t
      level = some .dropout ∧ (s.tl t).sector = some x ∧ (s.tl t).rg = true ∧ x.isWrite = false ∧ x.gateOpen = true ∧
      at_ = ((x.run.smps.length + smps.length : Nat) : Int) - 64 ∧ (s1 = (s.modTile t (fun y =>
      { y with freeze := some (.dropout, (y.freeze.map (fun p => min p.2 at_)).getD at_) })).takeSmps t smps)) ∧
    (∃ (s : State) (t : Quad) (level : Nat) (k : FreezeKind) (lo : Int) (x : Sector), (s.tl t).freeze = some (k, lo)
      ∧ (s.tl t).sector = some x ∧ (s.tl t).rg = true ∧ s.envelopeKind t level = none) ∧
    (∃ (s : State) (x : Accessor) (t : Quad), s.TileGranted x t) ∧
    (∃ (s : State) (t : Quad) (now : DWord) (smps : List Smp) (x : Sector) (s1 : State), s.canReach (s.angSide t) now
      = true ∧ s1 = ((s.reach t now).takeSmps t smps).skipsDue t (s.streamAcAt t now) ∧ (s1.tl t).sector = some x ∧
      x.gateOpen = true ∧ x.done = false ∧ x.isWrite = true ∧ (s1.closeFrag t x (s1.bitsFrom t x.run.rise
      (s.streamAcAt t now))).2.2 = true) ∧
    (∃ (s : State) (t : Quad) (now : DWord) (smps : List Smp) (x : Sector) (y : Sector) (s1 : State) (s2 : State),
      s.canReach (s.angSide t) now = true ∧ s1 = ((s.reach t now).takeSmps t smps).skipsDue t (s.streamAcAt t now) ∧
      (s1.tl t).sector = some x ∧ x.gateOpen = true ∧ x.done = false ∧ x.isWrite = false ∧ (s1.closeFrag t x
      x.run.smps.length).2.2 = true ∧ s2 = s1.closeWin t x.run.smps.length ∧ (s2.tl t).sector = some y) ∧
    (∃ (s : State) (t : Quad) (x : _), (s.tl t).sector = some x ∧ x.isWrite = true ∧ x.gateOpen = true ∧ x.done =
      false ∧ (s.tl t).wg = true) ∧
    (∃ (s : State) (r : Side) (slot : BitVec 4) (n : Nat) (q : Quad) (k : Nat) (st : DWord) (m : BufAddr ⊕ Nat),
      ((s.dec.get r).jobs.find? (fun j => j.1 == slot.toNat && s.jobReady r j.1 j.2) = some (n, .otf q k st m))) ∧
    (∃ (s : State) (r : Side) (slot : BitVec 4) (n : Nat) (c : CtxId) (w0 : DWord) (w1 : DWord) (w2 : DWord) (w3 :
      DWord) (s1 : State), ((s.dec.get r).jobs.find? (fun j => j.1 == slot.toNat && s.jobReady r j.1 j.2) = some (n,
      .req c w0 w1 w2 w3)) ∧ (s1 = s.modDec r (fun d => { d with jobs := d.jobs.filter (fun j => j.1 != n) })) ∧
      s1.recHere (quadOf (fld w0 63 62)) (fld w0 59 56) = true) ∧
    (∃ (s : State) (x : Accessor) (t : Quad), s.TileGranted x t) ∧
    (∃ (s : State) (c : CtxId), s.ridgeLive c.ridge = true) ∧
    (∃ (s : State) (c : CtxId), s.ridgeLive c.ridge = true) ∧
    (∃ (s : State) (t : Quad) (now : DWord), s.canReach (s.angSide t) now = true ∧ s.regB (tk t R_FMT_CTL) 1 = true ∧
      (s.slotHead t).isSome = true) ∧
    (∃ (s : State) (t : Quad) (now : DWord), s.canReach (s.angSide t) now = true ∧ (s.tl t).wg = true ∧ s.inKeepout t
      (angleOf (s.streamAcAt t now)) = true) ∧
    (∃ (s : State) (t : Quad) (now : DWord) (smps : List Smp) (w : SyncWin) (x : Sector) (p : Nat) (s1 : State),
      (s.tl t).win = some w ∧ s.canReach (s.angSide t) now = true ∧ w.found = false ∧ s1 = (s.reach t now).takeSmps t
      smps ∧ (s1.tl t).sector = some x ∧ w.search (x.run.smps.map Smp.hard) (x.run.smps.map Smp.hard).length = some p) ∧
    (∃ (s : State) (t : Quad) (now : DWord), s.canReach (s.angSide t) now = true) ∧
    (∃ (s : State) (x : Accessor) (t : Quad), s.TileGranted x t) ∧
    (∃ (s : State) (c : CtxId), s.ridgeLive c.ridge = true ∧ s.fabricOn = true) ∧
    (∃ (s : State) (x : Accessor) (t : Quad), s.TileGranted x t) ∧
    (∃ (s : State) (x : Accessor) (t : Quad), s.TileGranted x t) ∧
    (∃ (s : State) (x : Accessor) (t : Quad) (w : DWord), s.TileGranted x t ∧ fld w 63 60 ≠ 1 ∧ fld w 63 60 ≠ 2) :=
  ⟨⟨live, .q0, by decide +kernel⟩,
    ⟨live, xa, .q0, by decide +kernel⟩,
    ⟨live, xa, .q0, by decide +kernel⟩,
    ⟨live, xa, .q0, by decide +kernel⟩,
    ⟨tileS (fun x => { x with spare := .waitTake 2 false }), .q0, 2, false, by decide +kernel⟩,
    ⟨tileS (fun x => { x with spare := .standing 2 false }), .q0, 2, false, by decide +kernel, by decide +kernel, by
      decide +kernel⟩,
    ⟨secS false, .q0, 1000, [], sec false, -64, ((secS false).modTile .q0 (fun y =>
      { y with freeze := some (.asperity, (y.freeze.map (fun p => min p.2 (-64))).getD (-64)) })).takeSmps .q0 ([] :
      List Smp), by decide +kernel, by decide +kernel, by decide +kernel, by decide +kernel, by decide +kernel, by
      decide +kernel, rfl⟩,
    ⟨(secS false).modTile .q0 (fun y => { y with banks := ⟨[(6, 0x3F0000)], []⟩ }), .q0, 0, [], sec false, -64,
      (((secS false).modTile .q0 (fun y => { y with banks := ⟨[(6, 0x3F0000)], []⟩ })).modTile .q0 (fun y =>
      { y with freeze := some (.dropout, (y.freeze.map (fun p => min p.2 (-64))).getD (-64)) })).takeSmps .q0 ([] :
      List Smp), by decide +kernel, by decide +kernel, by decide +kernel, by decide +kernel, by decide +kernel, by
      decide +kernel, rfl⟩,
    ⟨(secS false).modTile .q0 (fun y => { y with freeze := some (.asperity, 0) }), .q0, 0, .asperity, 0, sec false,
      by decide +kernel, by decide +kernel, by decide +kernel, by decide +kernel⟩,
    ⟨live, xa, .q0, by decide +kernel⟩,
    ⟨((secS true).modTile .q0 (fun y =>
      { y with sector := some wrSec, banks := ⟨[(0, 0x200000)], [(0, 0x200000)]⟩ })).modAng .a (fun a =>
      { a with src := .track }), .q0, 100, [], wrSec, (((((secS true).modTile .q0 (fun y =>
      { y with sector := some wrSec, banks := ⟨[(0, 0x200000)], [(0, 0x200000)]⟩ })).modAng .a (fun a =>
      { a with src := .track })).reach .q0 100).takeSmps .q0 ([] : List Smp)).skipsDue .q0 ((((secS true).modTile .q0
      (fun y => { y with sector := some wrSec, banks := ⟨[(0, 0x200000)], [(0, 0x200000)]⟩ })).modAng .a (fun a =>
      { a with src := .track })).streamAcAt .q0 100), by decide +kernel, rfl, by decide +kernel, by decide +kernel,
      by decide +kernel, by decide +kernel, by decide +kernel⟩,
    ⟨(secS false).modTile .q0 (fun y => { y with sector := some rdSec }), .q0, 0, [], rdSec, rdSec, ((((secS
      false).modTile .q0 (fun y => { y with sector := some rdSec })).reach .q0 0).takeSmps .q0 ([] : List
      Smp)).skipsDue .q0 (((secS false).modTile .q0 (fun y => { y with sector := some rdSec })).streamAcAt .q0 0),
      (((((secS false).modTile .q0 (fun y => { y with sector := some rdSec })).reach .q0 0).takeSmps .q0 ([] : List
      Smp)).skipsDue .q0 (((secS false).modTile .q0 (fun y => { y with sector := some rdSec })).streamAcAt .q0
      0)).closeWin .q0 rdSec.run.smps.length, by decide +kernel, rfl, by decide +kernel, by decide +kernel, by
      decide +kernel, by decide +kernel, by decide +kernel, rfl, by decide +kernel⟩,
    ⟨secS true, .q0, sec true, by decide +kernel, by decide +kernel, by decide +kernel, by decide +kernel, by
      decide +kernel⟩,
    ⟨live.modDec .a (fun d => { d with jobs := [(0, .otf .q0 0 0 (.inr 0))] }), .a, 0, 0, .q0, 0, 0, .inr 0, by
      decide +kernel⟩,
    ⟨(tileS (fun x => { x with heldRecs := [0] })).modDec .a (fun d => { d with jobs := [(0, .req c0 0 0 0 0)] }),
      .a, 0, 0, c0, 0, 0, 0, 0, ((tileS (fun x => { x with heldRecs := [0] })).modDec .a (fun d =>
      { d with jobs := [(0, .req c0 0 0 0 0)] })).modDec .a (fun d =>
      { d with jobs := d.jobs.filter (fun j => j.1 != 0) }), by decide +kernel, rfl, by decide +kernel⟩,
    ⟨live, xa, .q0, by decide +kernel⟩,
    ⟨live, c0, by decide +kernel⟩,
    ⟨live, c0, by decide +kernel⟩,
    ⟨boundS.setReg (tk .q0 R_FMT_CTL) 2, .q0, 0, by decide +kernel, by decide +kernel, by decide +kernel⟩,
    ⟨(tileS (fun x => { x with wg := true })).setReg (tk .q0 R_FMT_WEDGECFG) 0x00010001, .q0, 0, by decide +kernel,
      by decide +kernel, by decide +kernel⟩,
    ⟨(secS false).modTile .q0 (fun x => { x with win := some win0, sector := some rdSec }), .q0, 0, [], win0, rdSec,
      0, (((secS false).modTile .q0 (fun x => { x with win := some win0, sector := some rdSec })).reach .q0
      0).takeSmps .q0 ([] : List Smp), by decide +kernel, by decide +kernel, by decide +kernel, rfl, by
      decide +kernel, by decide +kernel⟩,
    ⟨((secS false).modTile .q0 (fun x => { x with skipOk := true, skipList := [0x10000000000#64] })).setReg (tk .q0
      R_FMT_CTL) 16, .q0, 0, by decide +kernel⟩,
    ⟨live, xa, .q0, by decide +kernel⟩,
    ⟨live, c0, by decide +kernel, by decide +kernel⟩,
    ⟨live, xa, .q0, by decide +kernel⟩,
    ⟨live, xa, .q0, by decide +kernel⟩,
    ⟨live, xa, .q0, 0, by decide +kernel, by decide +kernel, by decide +kernel⟩⟩

theorem witness_CryptoCommandsComplete :
    (∃ (s : State) (x : Accessor), s.CryReady x) ∧
    (∃ (s : State) (x : Accessor), s.CryReady x ∧ x.rom = true) ∧
    (∃ (s : State) (x : Accessor) (slot : BitVec 6), s.CryReady x ∧ s.slotUse slot.toNat = 0) ∧
    (∃ (s : State) (x : Accessor) (data : Word), s.Granted x R_CRY_ID true ∧ (s.regB R_CRY_CTL 0 = false ∨
      s.cry.busy.isSome = true ∨ cryOpListed (fld data 31 28) = false)) ∧
    (∃ (s : State) (o : CryOp), s.cry.busy = some o ∧ s.sealFirst o = false) ∧
    (∃ (s : State) (x : Accessor), s.Granted x R_CRY_ID true) :=
  ⟨⟨live, xr, by decide +kernel⟩,
    ⟨live, xr, by decide +kernel, by decide +kernel⟩,
    ⟨live, xr, 0, by decide +kernel, by decide +kernel⟩,
    ⟨live, xa, 0, by decide +kernel, by decide +kernel⟩,
    ⟨live.modCry (fun k => { k with busy := some ⟨1, 0, 0, 0, 0, none⟩ }), ⟨1, 0, 0, 0, 0, none⟩, by decide +kernel,
      by decide +kernel⟩,
    ⟨live, xa, by decide +kernel⟩⟩

theorem witness_PowerDomainCommandsComplete :
    (∃ (s : State) (x : Accessor), s.Granted x R_RCP_ID true) ∧
    (∃ (s : State) (x : Accessor), s.Granted x R_RCP_ID true) ∧
    (∃ (s : State) (d : BitVec 7), (s.dom d.toNat).st = .starting) ∧
    (∃ (s : State) (d : BitVec 7), (s.dom d.toNat).st = .stopping ∧ s.stopWaits d.toNat = false) ∧
    (∃ (s : State) (count : Nat), s.wsc = true ∧ count ≠ s.rcp.wscN) :=
  ⟨⟨live, xa, by decide +kernel⟩,
    ⟨live, xa, by decide +kernel⟩,
    ⟨domS 3 .starting, 3, by decide +kernel⟩,
    ⟨domS 96 .stopping, 96, by decide +kernel, by decide +kernel⟩,
    ⟨wscS, 7, by decide +kernel, by decide +kernel⟩⟩

theorem witness_FenceAndTakeoverCommandsComplete :
    (∃ (s : State) (r : Side) (cause : Nat), s.fenceHolds r cause = true) ∧
    (∃ (s : State) (r : Side) (cause : Nat), s.lastRidge r = true ∧ s.fenceHolds r cause = true) ∧
    (∃ (s : State) (r : Side), s.ridgeLive r = true ∧ s.regB (rk r R_SPU_LSERR) 8 = false) ∧
    (∃ (s : State) (r : Side), s.ridgeLive r = true ∧ s.regB (rk r R_SPU_LSERR) 8 = true) ∧
    (∃ (k : DupKind) (r : Side), k = .cen r) ∧
    (∃ (s : State) (k : DupKind) (r : Side) (buf : Nat), k = .ste r buf ∧ s.ridgeLive r = true) ∧
    (∃ (s : State) (k : DupKind) (aErr : Bool) (bErr : Bool), k = .saddle aErr bErr ∧ s.rlg.sfence = none) ∧
    (∃ (s : State) (x : Accessor), s.Granted x R_RLG_ID true ∧ s.fenceHolds x.ridge 6 = true) ∧
    (∃ (s : State) (x : Accessor) (data : Word), s.Granted x R_RLG_ID true ∧ (fld data 31 28 = 0 ∨ 4 < fld data 31
      28)) ∧
    (∃ (s : State) (r : Side), s.rlg.tkDue = some r.peer ∧ s.ridgeSt r = .inService) ∧
    (∃ (s : State) (r : Side), s.ridgeLive r = true ∧ s.rlgUp = true) ∧
    (∃ (s : State) (r : Side), s.ridgeLive r = true ∧ s.rlgUp = true) ∧
    (∃ (s : State) (c : CtxId), s.rlg.switching.isSome = true ∧ (s.ctx c).giving = some false ∧ s.imgtag .a =
      s.imgtag .b) ∧
    (∃ (s : State) (c : CtxId), s.rlg.switching.isSome = true ∧ (s.ctx c).giving = some false ∧ s.imgtag .a ≠
      s.imgtag .b) ∧
    (∃ (s : State) (r : Side), s.ridgeLive r = true ∧ s.rlgUp = true) ∧
    (∃ (s : State) (r : Side), s.ridgeSt r = .fenced) ∧
    (∃ (s : State) (r : Side) (s1 : State), s.ridgeSt r = .selftest ∧ s1 = s.setRidge r .standby ∧ s1.regB R_RLG_CTL
      8 = false) ∧
    (∃ (s : State) (r : Side) (s1 : State), s.ridgeSt r = .selftest ∧ s1 = s.setRidge r .standby ∧ s1.regB R_RLG_CTL
      8 = true ∧ (s1.core.get r).coldBoot = false ∧ s1.rlgUp = true) :=
  ⟨⟨live, .a, 1, by decide +kernel⟩,
    ⟨live.modCore .b (fun m => { m with st := .standby }), .a, 1, by decide +kernel, by decide +kernel⟩,
    ⟨live, .a, by decide +kernel, by decide +kernel⟩,
    ⟨atReg (rk .a R_SPU_LSERR) 0x100, .a, by decide +kernel, by decide +kernel⟩,
    ⟨.cen .a, .a, by decide +kernel⟩,
    ⟨live, .ste .a 0, .a, 0, by decide +kernel, by decide +kernel⟩,
    ⟨live, .saddle false false, false, false, by decide +kernel, by decide +kernel⟩,
    ⟨atReg (rk .a R_SPU_GCTL) 0x100, xa, by decide +kernel, by decide +kernel⟩,
    ⟨live, xa, 0, by decide +kernel, by decide +kernel⟩,
    ⟨live.modRlg (fun g => { g with tkDue := some .b }), .a, by decide +kernel, by decide +kernel⟩,
    ⟨live, .a, by decide +kernel, by decide +kernel⟩,
    ⟨live, .a, by decide +kernel, by decide +kernel⟩,
    ⟨(ctxS (fun x => { x with giving := some false })).modRlg (fun g => { g with switching := some (.a, 0) }), c0, by
      decide +kernel, by decide +kernel, by decide +kernel⟩,
    ⟨((ctxS (fun x => { x with giving := some false })).modRlg (fun g =>
      { g with switching := some (.a, 0) })).setReg (rk .a R_CST_CTL) 0x100, c0, by decide +kernel, by
      decide +kernel, by decide +kernel⟩,
    ⟨live, .a, by decide +kernel, by decide +kernel⟩,
    ⟨ridgeS .fenced, .a, by decide +kernel⟩,
    ⟨(ridgeS .selftest).setReg R_RLG_CTL 0, .a, ((ridgeS .selftest).setReg R_RLG_CTL 0).setRidge .a .standby, by
      decide +kernel, rfl, by decide +kernel⟩,
    ⟨((ridgeS .selftest).modCore .a (fun m => { m with coldBoot := false })).setReg R_RLG_CTL 0x100, .a, (((ridgeS
      .selftest).modCore .a (fun m => { m with coldBoot := false })).setReg R_RLG_CTL 0x100).setRidge .a .standby, by
      decide +kernel, rfl, by decide +kernel, by decide +kernel, by decide +kernel⟩⟩

theorem witness_HostPortCommandsComplete :
    (∃ (s : State) (p : Side), s.portOn p = true ∧ (s.hpt.get p).dlUp = true) ∧
    (∃ (s : State) (p : Side), s.portOn p = true ∧ s.rcp.perst.get p = false) ∧
    (∃ (s : State) (p : Side) (speed : Nat) (width : Nat) (s1 : State), s.portOn p = true ∧ s.rcp.perst.get p = true
      ∧ s.rcp.asserted = false ∧ (s1 = ((s.modRcpPerst p false).modHpt p (fun h =>
      { h with inReset := false })).linkTrain p speed width)) ∧
    (∃ (s : State) (x : Accessor) (p : Side), s.Granted x (lk p R_HPT_ID) true ∧ s.portOn p = true) ∧
    (∃ (s : State) (x : Accessor) (p : Side), s.Granted x (lk p R_HPT_ID) true ∧ s.portOn p = true) ∧
    (∃ (s : State) (p : Side), s.portOn p = true ∧ (s.hpt.get p).inReset = false) ∧
    (∃ (s : State) (p : Side) (n : Nat) (s1 : State), s.portOn p = true ∧ s1 = ((s.traffic p).hptInt p 5).bump (lk p
      R_HPT_POISCNT) 31 0 1 ∧ s1.cmd n = none) ∧
    (∃ (s : State) (p : Side) (n : Nat) (c : Cmd) (s1 : State), s.portOn p = true ∧ s1 = ((s.traffic p).hptInt p
      5).bump (lk p R_HPT_POISCNT) 31 0 1 ∧ s1.cmd n = some c ∧ isWriteOpc c.sqe.opc = true ∧ c.sq ≠ 0 ∧ portOf
      c.ctrl = p ∧ c.checked = true ∧ c.committed = false) ∧
    (∃ (addr : BitVec 7), addr = 0x6A) ∧
    (∃ (s : State), s.mgmt.spdmVersion = true) ∧
    (∃ (s : State) (p384 : Bool) (sha384 : Bool), s.mgmt.spdmCaps = true ∧ p384 = true ∧ sha384 = true) ∧
    (∃ (s : State), s.mgmt.spdmAlgs = true) ∧
    (∃ (s : State), s.mgmt.spdmAlgs = true) ∧
    (∃ (s : State) (k : BitVec 384), s.mgmt.spdmAlgs = true ∧ s.spanBusy = false ∧ s.cry.aliasKey = some k) ∧
    (∃ (s : State) (idx : Byte), s.mgmt.spdmAlgs = true ∧ s.spanBusy = false ∧ idx = 0xFF) ∧
    (∃ (s : State) (idx : Byte), s.mgmt.spdmAlgs = true ∧ s.spanBusy = false ∧ 1 ≤ idx.toNat ∧ idx.toNat ≤ 8) :=
  ⟨⟨live.modHpt .a (fun h => { h with dlUp := true }), .a, by decide +kernel, by decide +kernel⟩,
    ⟨live.modRcp (fun r => { r with perst := ⟨false, false⟩ }), .a, by decide +kernel, by decide +kernel⟩,
    ⟨live, .a, 0, 0, ((live.modRcpPerst .a false).modHpt .a (fun h => { h with inReset := false })).linkTrain .a 0 0,
      by decide +kernel, by decide +kernel, by decide +kernel, rfl⟩,
    ⟨live, xa, .a, by decide +kernel, by decide +kernel⟩,
    ⟨live, xa, .a, by decide +kernel, by decide +kernel⟩,
    ⟨live.modHpt .a (fun h => { h with inReset := false }), .a, by decide +kernel, by decide +kernel⟩,
    ⟨live, .a, 0, ((live.traffic .a).hptInt .a 5).bump (lk .a R_HPT_POISCNT) 31 0 1, by decide +kernel, rfl, by
      decide +kernel⟩,
    ⟨hostS 0x80000000 [okd 0x01], .a, 0, okd 0x01, (((hostS 0x80000000 [okd 0x01]).traffic .a).hptInt .a 5).bump (lk
      .a R_HPT_POISCNT) 31 0 1, by decide +kernel, rfl, by decide +kernel, by decide +kernel, by decide +kernel, by
      decide +kernel, by decide +kernel, by decide +kernel⟩,
    ⟨0x6A, by decide +kernel⟩,
    ⟨mgmtS (fun m => { m with spdmVersion := true }), by decide +kernel⟩,
    ⟨mgmtS (fun m => { m with spdmCaps := true }), true, true, by decide +kernel, by decide +kernel, by
      decide +kernel⟩,
    ⟨mgmtS (fun m => { m with spdmAlgs := true }), by decide +kernel⟩,
    ⟨mgmtS (fun m => { m with spdmAlgs := true }), by decide +kernel⟩,
    ⟨(mgmtS (fun m => { m with spdmAlgs := true })).modCry (fun k => { k with aliasKey := some 0 }), 0, by
      decide +kernel, by decide +kernel, by decide +kernel⟩,
    ⟨mgmtS (fun m => { m with spdmAlgs := true }), 0xFF, by decide +kernel, by decide +kernel, by decide +kernel⟩,
    ⟨mgmtS (fun m => { m with spdmAlgs := true }), 1, by decide +kernel, by decide +kernel, by decide +kernel, by
      decide +kernel⟩⟩

theorem witness_LedgerCommandsComplete :
    (∃ (s : State) (c : CtxId), s.ridgeLive c.ridge = true ∧ s.rlgUp = true) ∧
    (∃ (s : State) (c : CtxId) (data : DWord) (l : Lease), s.ridgeLive c.ridge = true ∧ s.rlgUp = true ∧
      (s.rlg.leases.find? (fun k => k.num == fld data 47 32) = some l) ∧ l.owner = .ctx c ∧ fld data 31 0 ≤ l.amount
      ∧ l.isBuffer = false) ∧
    (∃ (s : State) (c : CtxId) (w : CreditWait), (s.ctx c).creditWait = some w ∧ (s.creditFits c ⟨w.pool, w.inst,
      w.cls, w.amount⟩ w.since).isSome = true) ∧
    (∃ (s : State), s.rlgUp = true) :=
  ⟨⟨live, c0, by decide +kernel, by decide +kernel⟩,
    ⟨live.modRlg (fun g => { g with leases := [lease0] }), c0, 0, lease0, by decide +kernel, by decide +kernel, by
      decide +kernel, by decide +kernel, by decide +kernel, by decide +kernel⟩,
    ⟨ctxS (fun x => { x with creditWait := some ⟨2, 0, 1, 1, 0⟩ }), c0, ⟨2, 0, 1, 1, 0⟩, by decide +kernel, by
      decide +kernel⟩,
    ⟨live, by decide +kernel⟩⟩

theorem witness_MemberAndRebuildCommandsComplete :
    (∃ (s : State) (x : Side) (h : BitVec 4) (trig : BitVec 4) (n : Nat), h.toNat < 12 ∧ s.trigHolds x h.toNat
      trig.toNat n = true ∧ (s.memberAt x h.toNat).st = .online ∧ (trig = 0 ∨ trig = 1 ∨ trig = 3 ∨ trig = 5)) ∧
    (∃ (s : State) (x : Side) (h : BitVec 4) (trig : BitVec 4) (n : Nat), h.toNat < 12 ∧ s.trigHolds x h.toNat
      trig.toNat n = true ∧ (s.memberAt x h.toNat).st = .online ∧ (trig = 2 ∨ trig = 4 ∨ trig = 6 ∨ trig = 7)) ∧
    (∃ (s : State) (x : Side) (h : BitVec 4) (trig : BitVec 4) (n : Nat), h.toNat < 12 ∧ s.trigHolds x h.toNat
      trig.toNat n = true ∧ (s.memberAt x h.toNat).st = .suspect ∧ trig ≠ 9) ∧
    (∃ (s : State) (x : Side) (h : BitVec 4) (trig : BitVec 4) (n : Nat), h.toNat < 12 ∧ s.trigHolds x h.toNat
      trig.toNat n = true ∧ (s.memberAt x h.toNat).st = .suspect ∧ trig = 9) ∧
    (∃ (s : State) (x : Side) (call : Option (Nat × List Nat)) (i : Nat) (e : ZEntry) (s1 : State), call = none ∧ s1
      = s.freeOld x ∧ s1.crn.replayed = true ∧ s1.crn.halted = false ∧ (s1.redun.get x).lost = false ∧ (s1.redun.get
      x).cur = none ∧ s1.nextAffected x (s1.affected x) = some (i, e) ∧ s1.roomToMove x = true) ∧
    (∃ (s : State) (x : Side) (i : Nat) (e : ZEntry), s.nextAffected x (s.affected x) = some (i, e) ∧ 5 ≤ s.pathOf x
      e ∧ s.pathOf x e ≤ 6 ∧ s.roomToMove x = false ∧ (s.redun.get x).waiting = false) ∧
    (∃ (s : State) (x : Side) (i : Nat), (s.redun.get x).cur = some i) ∧
    (∃ (s : State) (x : Side) (i : Nat) (n : Nat) (b : Nat), (s.redun.get x).cur = some i ∧ (s.redun.get x).target =
      some (n, b) ∧ (s.zent i).wp ≤ (s.redun.get x).stripe) ∧
    (∃ (s : State) (i : BitVec 17) (stripe : Nat) (off : Nat) (er : List Nat), (s.zent i.toNat).bound = true ∧
      (s.zent i.toNat).use ≠ 5 ∧ (3 ≤ ((er.eraseDups).filter (fun k => idxIn (s.zent i.toNat).d k)).length) ∧ off <
      32 ∧ stripe < 512) ∧
    (∃ (s : State) (x : Side) (s1 : State) (s2 : State), (s.redun.get x).gT ≠ (s.redun.get x).gC ∧ ((s.actEnts x).any
      (fun p => decide (p.2.ggen ≠ (s.redun.get x).gT)) = false) ∧ (s1 = (s.libAppend s.kSide 0x000D).modRedun x (fun
      r => { r with gC := r.gT, reshape := false, doneList := [], leaving := [] })) ∧ (s2 = (List.range 12).foldl
      (fun (u : State) h => if (u.memberAt x h).st ≠ .retired ∧ (u.actEnts x).all (fun p => !p.2.names h) then
      u.memberTo x h .retired (u.memberAt x h).trigger else u) s1)) ∧
    (∃ (s : State) (x : Side) (cause : Nat), s.lossHolds x cause = true) ∧
    (∃ (s : State) (x : Side) (gen : Word) (i : Nat) (e : ZEntry) (stripe : Nat), s.scrubNext x = some (i, e, stripe)
      ∧ e.use ≠ 5 ∧ e.wgen = gen.toNat) ∧
    (∃ (s : State) (x : Side) (s1 : State), s.scrubNext x = none ∧ (s1 = s.modRedun x (fun r =>
      { r with scrubEntry := 0, scrubStripe := 0, relogged := 0 }))) :=
  ⟨⟨live.modRcp (fun r => { r with triggers := ⟨2, 1, 3, 4⟩ }), .a, 0, 3, 768, by decide +kernel, by decide +kernel,
      by decide +kernel, by decide +kernel⟩,
    ⟨live, .a, 0, 7, 0, by decide +kernel, by decide +kernel, by decide +kernel, by decide +kernel⟩,
    ⟨live.modMember (fun _ => [(0, ⟨.suspect, 0, [], 1⟩)]), .a, 0, 8, 2, by decide +kernel, by decide +kernel, by
      decide +kernel, by decide +kernel⟩,
    ⟨(live.modMember (fun _ => [(0, ⟨.suspect, 0, [], 1⟩)])).modEvr (fun e => { e with ot := 259200000 }), .a, 0, 9,
      0, by decide +kernel, by decide +kernel, by decide +kernel, by decide +kernel⟩,
    ⟨((crnS (redS (ent 1 2 1 0) (fun r => { r with gT := 1 }))).modRcp (fun r => { r with freemin := 2 })).setReg
      R_ZTB_CTL 1000, .a, none, 0, ent 1 2 1 0, (((crnS (redS (ent 1 2 1 0) (fun r => { r with gT := 1 }))).modRcp
      (fun r => { r with freemin := 2 })).setReg R_ZTB_CTL 1000).freeOld .a, by decide +kernel, rfl, by
      decide +kernel, by decide +kernel, by decide +kernel, by decide +kernel, by decide +kernel, by decide +kernel⟩,
    ⟨(redS (ent 1 2 1 0) (fun r => { r with gT := 1 })).modRcp (fun r => { r with freemin := 64 }), .a, 0, ent 1 2 1
      0, by decide +kernel, by decide +kernel, by decide +kernel, by decide +kernel, by decide +kernel⟩,
    ⟨redS (ent 1 2 1 0) (fun r => { r with cur := some 0 }), .a, 0, by decide +kernel⟩,
    ⟨redS (ent 1 2 1 0) (fun r => { r with cur := some 0, target := some (1, 2) }), .a, 0, 1, 2, by decide +kernel,
      by decide +kernel, by decide +kernel⟩,
    ⟨ztbS (ent 1 2 0 1), 0, 0, 0, [0, 1, 2], by decide +kernel, by decide +kernel, by decide +kernel, by
      decide +kernel, by decide +kernel⟩,
    ⟨live.modRedun .a (fun r => { r with gT := 1 }), .a, ((live.modRedun .a (fun r => { r with gT := 1 })).libAppend
      (live.modRedun .a (fun r => { r with gT := 1 })).kSide 0x000D).modRedun .a (fun r =>
      { r with gC := r.gT, reshape := false, doneList := [], leaving := [] }), (List.range 12).foldl (fun (u : State)
      h => if (u.memberAt .a h).st ≠ .retired ∧ (u.actEnts .a).all (fun p => !p.2.names h) then u.memberTo .a h
      .retired (u.memberAt .a h).trigger else u) (((live.modRedun .a (fun r => { r with gT := 1 })).libAppend
      (live.modRedun .a (fun r => { r with gT := 1 })).kSide 0x000D).modRedun .a (fun r =>
      { r with gC := r.gT, reshape := false, doneList := [], leaving := [] })), by decide +kernel, by decide +kernel,
      rfl, rfl⟩,
    ⟨lnkS (fun l => { l with st := .fault, faults := 4 }), .a, 1, by decide +kernel⟩,
    ⟨ztbS (ent 1 2 0 1), .a, 0, 0, ent 1 2 0 1, 0, by decide +kernel, by decide +kernel, by decide +kernel⟩,
    ⟨live, .a, live.modRedun .a (fun r => { r with scrubEntry := 0, scrubStripe := 0, relogged := 0 }), by
      decide +kernel, rfl⟩⟩

theorem witness_MemoryProtectionCommandsComplete :
    (∃ (s : State) (m : MemRef) (r : Side) (i : Nat), m = .ridge r i ∧ s.scrubOn m = true) ∧
    (∃ (s : State) (m : MemRef) (x : Side), m = .dram x ∧ s.scrubOn m = true) ∧
    (∃ (m : MemRef) (r : Side) (i : Nat), m = .ridge r i ∧ i ≤ 6) ∧
    (∃ (m : MemRef) (x : Side), m = .dram x) ∧
    (∃ (s : State) (x : Side) (addr : BitVec 48) (data : List Byte), data.length ≠ 0 ∧ addr.toNat % 64 + data.length
      < 65 ∧ s.dramOk x addr.toNat data.length = true) :=
  ⟨⟨(atReg (rk .a R_MEM_CTL) 1).modScrub .a 0 (fun m => { m with scrcfg := 1 }), .ridge .a 0, .a, 0, by
      decide +kernel, by decide +kernel⟩,
    ⟨dramS [], .dram .a, .a, by decide +kernel, by decide +kernel⟩,
    ⟨.ridge .a 0, .a, 0, by decide +kernel, by decide +kernel⟩,
    ⟨.dram .a, .a, by decide +kernel⟩,
    ⟨dramS [], .a, 0, [1], by decide +kernel, by decide +kernel, by decide +kernel⟩⟩

theorem witness_CalibrationAndMonitorCommandsComplete :
    (∃ (s : State) (r : Side) (addr : BitVec 48) (t : Quad) (request : Bool) (d : CalDesc), s.calRead r addr.toNat =
      some d ∧ s.calDue addr.toNat d request = true ∧ (s.mon.calRuns.any (fun x => x.addr == addr.toNat &&
      x.measuring) = false) ∧ s.calReason r addr.toNat d t = 0) ∧
    (∃ (s : State) (addr : BitVec 48) (x : _) (d : _), (s.mon.calRuns.find? (fun x => x.addr == addr.toNat &&
      x.measuring && x.ended.isNone) = some x) ∧ s.calRead x.ridge x.addr = some d ∧ s.calCovered x = true) ∧
    (∃ (s : State) (addr : BitVec 48) (x : CalRun) (d : CalDesc), (s.mon.calRuns.find? (fun x => x.addr == addr.toNat
      && x.applying && x.ended.isNone) = some x) ∧ s.calRead x.ridge x.addr = some d ∧ x.kind ≠ 8 ∧ x.returning =
      false ∧ s.calCovered x = true ∧ (s.stepMark x d.stepUnit ≠ x.mark ∨ s.stepMark x d.stepUnit = none)) ∧
    (∃ (s : State) (addr : BitVec 48) (x : _) (n : _), (s.mon.calRuns.find? (fun x => x.addr == addr.toNat) = some x)
      ∧ s.calAbortReason x = some n) ∧
    (∃ (s : State) (x : Accessor) (data : Word), s.Granted x R_MON_ID (s.ownsLink x.ridge (sideOf (fld data 24 24)))) ∧
    (∃ (s : State) (act : Side) (us : BitVec 8), s.mon.vcOpen.get act = true ∧ s.winUs ≤ us.toNat) ∧
    (∃ (s : State) (n : BitVec 4) (t : BitVec 16) (s1 : State), n.toNat < 12 ∧ s.regB R_MON_CTL 0 = true ∧ s1 =
      s.tempIn n.toNat t ∧ sg false s1.mon.warm n.toNat = false ∧ (s1.warnAt * 16 : Int) < t.toInt) ∧
    (∃ (s : State) (n : BitVec 4) (t : BitVec 16) (s1 : State), n.toNat < 12 ∧ s.regB R_MON_CTL 0 = true ∧ s1 =
      s.tempIn n.toNat t ∧ sg false s1.mon.warm n.toNat = true ∧ t.toInt < s1.warnEnd * 16) ∧
    (∃ (s : State), s.regB R_MON_CTL 0 = true ∧ s.mtr.linkUp = true) ∧
    (∃ (s : State) (n : BitVec 5) (mv : BitVec 16) (s1 : State), n.toNat < 24 ∧ s.regB R_MON_CTL 0 = true ∧ (s1 =
      s.modMon (fun m => { m with vread := sp 0 m.vread n.toNat (mv.setWidth 32) })) ∧ mv.toNat < fld (s.voltLim
      n.toNat) 15 0) ∧
    (∃ (s : State) (n : BitVec 5) (mv : BitVec 16) (s1 : State), n.toNat < 24 ∧ s.regB R_MON_CTL 0 = true ∧ (s1 =
      s.modMon (fun m => { m with vread := sp 0 m.vread n.toNat (mv.setWidth 32) })) ∧ fld (s.voltLim n.toNat) 15 0 ≤
      mv.toNat ∧ fld (s.voltLim n.toNat) 31 16 < mv.toNat) ∧
    (∃ (s : State) (counts : List (BitVec 16)) (s1 : State), (s1 = s.modMon (fun m =>
      { m with rosc := (counts.take 8).zipIdx.foldl (fun t p => sp 0 t p.2 (p.1.setWidth 32)) m.rosc }))) ∧
    (∃ (s : State), s.avsOn = true ∧ ((s.regF R_MON_AVSREQ 15 0) = 650 ∨ (s.regF R_MON_AVSREQ 15 0) = 850)) :=
  ⟨⟨calS 9, .a, 0, .q0, true, calDesc0 9, by decide +kernel, by decide +kernel, by decide +kernel, by decide +kernel⟩,
    ⟨runS 9 (calRun 9 false 0), 0, calRun 9 false 0, calDesc0 9, by decide +kernel, by decide +kernel, by
      decide +kernel⟩,
    ⟨runS 11 (calRun 11 true 1), 0, calRun 11 true 1, calDesc0 11, by decide +kernel, by decide +kernel, by
      decide +kernel, by decide +kernel, by decide +kernel, by decide +kernel⟩,
    ⟨(runS 11 (calRun 11 true 5)).modMtr (fun m => { m with sp := .gen }), 0, calRun 11 true 5, 2, by decide +kernel,
      by decide +kernel⟩,
    ⟨live, xa, 0, by decide +kernel⟩,
    ⟨live.modMon (fun m => { m with vcOpen := ⟨true, false⟩ }), .a, 255, by decide +kernel, by decide +kernel⟩,
    ⟨live, 0, 2000, live.tempIn (0 : BitVec 4).toNat 2000, by decide +kernel, by decide +kernel, rfl, by
      decide +kernel, by decide +kernel⟩,
    ⟨live.modMon (fun m => { m with warm := [(0, true)] }), 0, 0, (live.modMon (fun m =>
      { m with warm := [(0, true)] })).tempIn (0 : BitVec 4).toNat 0, by decide +kernel, by decide +kernel, rfl, by
      decide +kernel, by decide +kernel⟩,
    ⟨mtrS (fun m => { m with linkUp := true }), by decide +kernel, by decide +kernel⟩,
    ⟨live, 0, 0, live.modMon (fun m =>
      { m with vread := sp 0 m.vread (0 : BitVec 5).toNat ((0 : BitVec 16).setWidth 32) }), by decide +kernel, by
      decide +kernel, rfl, by decide +kernel⟩,
    ⟨live, 0, 20000, live.modMon (fun m =>
      { m with vread := sp 0 m.vread (0 : BitVec 5).toNat ((20000 : BitVec 16).setWidth 32) }), by decide +kernel, by
      decide +kernel, rfl, by decide +kernel, by decide +kernel⟩,
    ⟨live, [], live.modMon (fun m =>
      { m with rosc := (([] : List (BitVec 16)).take 8).zipIdx.foldl (fun t p => sp 0 t p.2 (p.1.setWidth 32)) m.rosc }),
      rfl⟩,
    ⟨((atReg R_MON_AVSCFG 0x80000000).setReg R_MON_AVSREQ 650).modFus (fun f => { f with trimValid := true }), by
      decide +kernel, by decide +kernel⟩⟩

theorem witness_SpindleAndRetractCommandsComplete :
    (∃ (s : State), s.beating = true) ∧
    (∃ (s : State) (x : Accessor), s.MtrGranted x) ∧
    (∃ (s : State), s.hbDue = true) ∧
    (∃ (s : State) (x : Accessor), s.SpReady x ∧ s.reg R_MTR_MOTPAR ≠ 0 ∧ s.mtr.sp = .off) ∧
    (∃ (s : State) (x : Accessor), s.SpReady x ∧ s.reg R_MTR_MOTPAR ≠ 0 ∧ s.mtr.sp = .brake) ∧
    (∃ (s : State) (x : Accessor), s.SpReady x ∧ s.mtr.sp ≠ .off ∧ s.mtr.sp ≠ .brake ∧ s.mtr.sp ≠ .gen ∧ s.mtr.sp ≠
      .fault) ∧
    (∃ (s : State) (x : Accessor), s.SpReady x ∧ (s.mtr.sp = .run ∨ s.mtr.sp = .step)) ∧
    (∃ (s : State) (x : Accessor), s.MtrGranted x ∧ s.mtr.linkUp = true ∧ s.mtr.sp ≠ .off ∧ s.mtr.sp ≠ .gen ∧
      s.mtr.sp ≠ .fault ∧ s.mtr.allParked = true) ∧
    (∃ (s : State) (x : Accessor), s.SpReady x ∧ s.mtr.sp = .fault) ∧
    (∃ (s : State) (x : Accessor) (data : Word), s.MtrGranted x ∧ s.spCmd (fld data 31 28) = none) ∧
    (∃ (s : State) (x : Accessor), s.Granted x R_MTR_ID true) ∧
    (∃ (s : State), s.mtr.sp = .probe) ∧
    (∃ (s : State), s.mtr.sp = .ipd) ∧
    (∃ (s : State), (s.mtr.sp = .kick ∨ s.mtr.sp = .catching) ∧ s.mtr.obsValid = true) ∧
    (∃ (s : State) (s1 : State), s.mtr.sp = .kick ∧ (s1 = s.modMtr (fun m => { m with attempt := m.attempt + 1 })) ∧
      atLeast1 (s.regF R_MTR_KICKCFG 11 8) ≤ s.mtr.attempt + 1) ∧
    (∃ (s : State) (s1 : State), s.mtr.sp = .kick ∧ (s1 = s.modMtr (fun m => { m with attempt := m.attempt + 1 })) ∧
      s.mtr.attempt + 1 < atLeast1 (s.regF R_MTR_KICKCFG 11 8)) ∧
    (∃ (s : State), (s.mtr.sp = .run ∨ s.mtr.sp = .step) ∧ s.mtr.atSpeed = false ∧ 64 ≤ s.mtr.inBand) ∧
    (∃ (s : State), s.nearTarget 2 = false) ∧
    (∃ (s : State), s.mtr.reached = false ∧ (s.mtr.starting ∨ s.mtr.sp = .run ∨ s.mtr.sp = .step)) ∧
    (∃ (s : State), s.mtr.sp = .step ∧ s.nearTarget 1 = true) ∧
    (∃ (s : State), s.slowerThan 5 = true ∧ s.mtr.sp = .revbrk) ∧
    (∃ (s : State), s.slowerThan 5 = true ∧ s.mtr.sp = .brake) ∧
    (∃ (s : State) (vmot : BitVec 16), s.mtr.chopOn = false ∧ s.chopOnMv < vmot.toNat) ∧
    (∃ (s : State) (vmot : BitVec 16), vmot.toNat < s.chopOffMv) ∧
    (∃ (s : State), s.regB R_MTR_CHOPTEST 31 = true) ∧
    (∃ (s : State) (rising : Bool) (vmot : BitVec 16) (cur : BitVec 16), s.mtr.chopOn = true ∧ (rising = true ∨
      s.chopCurrentOk vmot.toNat cur.toNat = false)) ∧
    (∃ (s : State) (vmot : BitVec 16), s.mtr.clamp = false ∧ decide (vmot.toNat < 15000) = false) ∧
    (∃ (s : State) (vmot : BitVec 16), s.mtr.clamp = true ∧ vmot.toNat < 14500) ∧
    (∃ (s : State) (succ : Bool) (cur : BitVec 16) (s1 : State), 6000 < cur.toNat ∧ (s1 = (s.modMtr (fun m =>
      { m with trips := if succ then m.trips + 1 else 1 })).bump R_MTR_ERRCNT 31 16 1) ∧ s1.mtr.trips < 8) ∧
    (∃ (s : State) (succ : Bool) (cur : BitVec 16) (s1 : State), 6000 < cur.toNat ∧ (s1 = (s.modMtr (fun m =>
      { m with trips := if succ then m.trips + 1 else 1 })).bump R_MTR_ERRCNT 31 16 1) ∧ 8 ≤ s1.mtr.trips) ∧
    (∃ (s : State) (vmot : BitVec 16), (s.mtr.sp = .off ∨ s.mtr.sp = .fault) ∧ s.mtr.isoClosed = false ∧ 10800 <
      vmot.toNat) ∧
    (∃ (s : State) (vmot : BitVec 16), s.mtr.sp = .gen ∧ (vmot.toNat < 8500 ∨ s.slowerThan 600)) ∧
    (∃ (s : State) (vmot : BitVec 16) (s1 : State), vmot.toNat < 5000 ∧ (s1 = (s.modMtr (fun m =>
      { m with retracting := Two.all false, after := .none })).pdflt 6)) ∧
    (∃ (s : State), s.mtr.sp = .gen ∧ s.mtr.genRetract = false ∧ s.mtr.pfailSeen = true ∧ s.win.flushing.a = false ∧
      s.win.flushing.b = false) ∧
    (∃ (s : State) (a : Side) (emf : BitVec 16) (cur : BitVec 16), s.mtr.retracting.get a = true ∧ 10 * emf.toNat <
      s.mtr.retVel ∧ s.mtr.retI ≤ cur.toNat) ∧
    (∃ (s : State) (a : Side) (ms : BitVec 16), s.mtr.retracting.get a = true ∧ s.mtr.retT ≤ ms.toNat) ∧
    (∃ (v5 : BitVec 16), v5.toNat < 4500) ∧
    (∃ (s : State) (x : Accessor), s.MtrGranted x) ∧
    (∃ (s : State) (ch : _), s.mtr.spareFor = some ch ∧ s.senseHeld ch = false) :=
  ⟨⟨(spS .run).modMtr (fun m => { m with linkUp := true, hbKick := true }), by decide +kernel⟩,
    ⟨live, xa, by decide +kernel⟩,
    ⟨mtrS (fun m => { m with hbRun := true }), by decide +kernel⟩,
    ⟨(spS .off).setReg R_MTR_MOTPAR 1, xa, by decide +kernel, by decide +kernel, by decide +kernel⟩,
    ⟨(spS .brake).setReg R_MTR_MOTPAR 1, xa, by decide +kernel, by decide +kernel, by decide +kernel⟩,
    ⟨spS .run, xa, by decide +kernel, by decide +kernel, by decide +kernel, by decide +kernel, by decide +kernel⟩,
    ⟨spS .run, xa, by decide +kernel, by decide +kernel⟩,
    ⟨(spS .run).modMtr (fun m => { m with park := ⟨.parked, .parked⟩ }), xa, by decide +kernel, by decide +kernel, by
      decide +kernel, by decide +kernel, by decide +kernel, by decide +kernel⟩,
    ⟨spS .fault, xa, by decide +kernel, by decide +kernel⟩,
    ⟨live, xa, 0xF0000000, by decide +kernel, by decide +kernel⟩,
    ⟨live, xa, by decide +kernel⟩,
    ⟨spS .probe, by decide +kernel⟩,
    ⟨spS .ipd, by decide +kernel⟩,
    ⟨mtrS (fun m => { m with sp := .kick, obsValid := true }), by decide +kernel, by decide +kernel⟩,
    ⟨(spS .kick).modMtr (fun m => { m with attempt := 3 }), ((spS .kick).modMtr (fun m =>
      { m with attempt := 3 })).modMtr (fun m => { m with attempt := m.attempt + 1 }), by decide +kernel, rfl, by
      decide +kernel⟩,
    ⟨spS .kick, (spS .kick).modMtr (fun m => { m with attempt := m.attempt + 1 }), by decide +kernel, rfl, by
      decide +kernel⟩,
    ⟨mtrS (fun m => { m with sp := .run, inBand := 64 }), by decide +kernel, by decide +kernel, by decide +kernel⟩,
    ⟨live, by decide +kernel⟩,
    ⟨spS .run, by decide +kernel, by decide +kernel⟩,
    ⟨(mtrS (fun m => { m with sp := .step, obsValid := true, target := 7200 })).setReg R_MTR_SPEED 7200, by
      decide +kernel, by decide +kernel⟩,
    ⟨spS .revbrk, by decide +kernel, by decide +kernel⟩,
    ⟨spS .brake, by decide +kernel, by decide +kernel⟩,
    ⟨live, 15000, by decide +kernel, by decide +kernel⟩,
    ⟨live, 0, by decide +kernel⟩,
    ⟨atReg R_MTR_CHOPTEST 0x80000000, by decide +kernel⟩,
    ⟨mtrS (fun m => { m with chopOn := true }), true, 0, 0, by decide +kernel, by decide +kernel⟩,
    ⟨live, 15000, by decide +kernel, by decide +kernel⟩,
    ⟨mtrS (fun m => { m with clamp := true }), 0, by decide +kernel, by decide +kernel⟩,
    ⟨live, false, 6001, (live.modMtr (fun m => { m with trips := if false then m.trips + 1 else 1 })).bump
      R_MTR_ERRCNT 31 16 1, by decide +kernel, rfl, by decide +kernel⟩,
    ⟨mtrS (fun m => { m with trips := 7 }), true, 6001, ((mtrS (fun m => { m with trips := 7 })).modMtr (fun m =>
      { m with trips := if true then m.trips + 1 else 1 })).bump R_MTR_ERRCNT 31 16 1, by decide +kernel, rfl, by
      decide +kernel⟩,
    ⟨live, 12000, by decide +kernel, by decide +kernel, by decide +kernel⟩,
    ⟨spS .gen, 0, by decide +kernel, by decide +kernel⟩,
    ⟨live, 0, (live.modMtr (fun m => { m with retracting := Two.all false, after := .none })).pdflt 6, by
      decide +kernel, rfl⟩,
    ⟨(spS .gen).modMtr (fun m => { m with pfailSeen := true }), by decide +kernel, by decide +kernel, by
      decide +kernel, by decide +kernel, by decide +kernel⟩,
    ⟨mtrS (fun m => { m with retracting := ⟨true, false⟩ }), .a, 0, 0xFFFF, by decide +kernel, by decide +kernel, by
      decide +kernel⟩,
    ⟨mtrS (fun m => { m with retracting := ⟨true, false⟩ }), .a, 0xFFFF, by decide +kernel, by decide +kernel⟩,
    ⟨0, by decide +kernel⟩,
    ⟨live, xa, by decide +kernel⟩,
    ⟨mtrS (fun m => { m with spareFor := some 0 }), 0, by decide +kernel, by decide +kernel⟩⟩

theorem witness_PackagePinsComplete :
    (∃ (s : State) (n : BitVec 4) (rising : Bool) (s1 : State), s.gpdUp = true ∧ s.gpioInput n.toNat = true ∧ s.regB
      R_GPD_CTL 0 = true ∧ bit s.pins.gpioIn n.toNat ≠ rising ∧ (s1 = s.modPins (fun p =>
      { p with gpioIn := putBit p.gpioIn n.toNat rising }))) ∧
    (∃ (s : State), s.pins.pwrdis = false) ∧
    (∃ (s : State), s.pins.pwrdis = true) ∧
    (∃ (ir : Nat), ir = 1) ∧
    (∃ (s : State) (ir : Nat), (ir = 0 ∨ (ir ≠ 1 ∧ s.regB R_GPD_DBGCTL 0 = false))) ∧
    (∃ (s : State) (ir : Nat), ir ≠ 0 ∧ ir ≠ 1 ∧ s.regB R_GPD_DBGCTL 0 = true) ∧
    (∃ (s : State), s.actBlinks = true) :=
  ⟨⟨atReg R_GPD_CTL 1, 1, true, (atReg R_GPD_CTL 1).modPins (fun p =>
      { p with gpioIn := putBit p.gpioIn (1 : BitVec 4).toNat true }), by decide +kernel, by decide +kernel, by
      decide +kernel, by decide +kernel, rfl⟩,
    ⟨live, by decide +kernel⟩,
    ⟨live.modPins (fun p => { p with pwrdis := true }), by decide +kernel⟩,
    ⟨1, by decide +kernel⟩,
    ⟨live, 0, by decide +kernel⟩,
    ⟨atReg R_GPD_DBGCTL 1, 2, by decide +kernel, by decide +kernel, by decide +kernel⟩,
    ⟨(live.modRedun .a (fun r => { r with cur := some 0 })).setReg R_GPD_ACTCFG 2, by decide +kernel⟩⟩

theorem witness_SpurLocalPortsComplete :
    (∃ (s : State) (c : CtxId), s.ridgeLive c.ridge = true) ∧
    (∃ (s : State) (c : CtxId), s.ridgeLive c.ridge = true ∧ s.angUp c.ridge = true) ∧
    (∃ (s : State) (c : CtxId) (t : Quad), s.ridgeLive c.ridge = true ∧ s.fabricOn = true ∧ s.owns c.ridge t = true ∧
      (s.wsc = false ∨ t.slot ≠ .b) ∧ (s.tl t).aeq.length < 256) ∧
    (∃ (s : State) (c : CtxId), s.ridgeLive c.ridge = true) ∧
    (∃ (s : State) (c : CtxId) (t : Quad), s.ridgeLive c.ridge = true ∧ s.fabricOn = true ∧ s.owns c.ridge t = true) ∧
    (∃ (s : State) (c : CtxId) (w : _), s.ridgeLive c.ridge = true ∧ (s.ctx c).waiting = some w ∧ s.cond c w.flags
      w.cond = true) :=
  ⟨⟨live, c0, by decide +kernel⟩,
    ⟨live, c0, by decide +kernel, by decide +kernel⟩,
    ⟨live, c0, .q0, by decide +kernel, by decide +kernel, by decide +kernel, by decide +kernel, by decide +kernel⟩,
    ⟨live, c0, by decide +kernel⟩,
    ⟨live, c0, .q0, by decide +kernel, by decide +kernel, by decide +kernel⟩,
    ⟨waitS, c0, wait0, by decide +kernel, by decide +kernel, by decide +kernel⟩⟩

theorem witness_PreampLinkCommandsComplete :
    (∃ (s : State) (l : Side) (w : BitVec 40), frameOk w = true ∧ fld w 35 32 = 0 ∧ (s.lnk l).listens = true ∧ (s.lnk
      l).ulock = true) ∧
    (∃ (s : State) (l : Side) (w : BitVec 40), frameOk w = true ∧ fld w 35 32 = 8 ∧ (s.lnk l).listens = true ∧ (s.lnk
      l).ulock = true) ∧
    (∃ (s : State) (l : Side) (w : BitVec 40), frameOk w = true ∧ fld w 35 32 = 9 ∧ (s.lnk l).listens = true ∧ (s.lnk
      l).ulock = true) ∧
    (∃ (s : State) (l : Side) (w : BitVec 40), frameOk w = true ∧ fld w 35 32 = 10 ∧ (s.lnk l).listens = true ∧
      (s.lnk l).ulock = true) ∧
    (∃ (s : State) (l : Side) (w : BitVec 40), frameOk w = true ∧ fld w 35 32 ≠ 0 ∧ (fld w 35 32 < 8 ∨ 10 < fld w 35
      32) ∧ (s.lnk l).listens = true ∧ (s.lnk l).ulock = true) ∧
    (∃ (s : State) (l : Side) (s1 : State), (s.lnk l).st ≠ .off ∧ (s.lnk l).lockDue = true ∧ (s1 = s.modLink l (fun x
      => { x with ulock := true, badRun := 0 }))) ∧
    (∃ (s : State) (l : Side), (s.lnk l).lossDue = true) ∧
    (∃ (s : State) (l : Side), (s.lnk l).st = .run ∧ 31 ≤ (s.lnk l).quiet) ∧
    (∃ (s : State) (l : Side) (w : BitVec 40) (f : Frame) (g1 : Frame) (g2 : Frame) (rest : List Frame), (s.lnk
      l).flight = f :: g1 :: g2 :: rest ∧ s.retryMax l ≤ f.retries ∧ f.typ ≠ .idle ∧ f.typ ≠ .mact ∧ f.typ ≠ .safe ∧
      bit w 36 = true ∧ frameOk w = true ∧ fld w 35 32 = 0 ∧ (s.lnk l).listens = true ∧ (s.lnk l).ulock = true) ∧
    (∃ (s : State) (l : Side) (a : _), (s.lnk l).regAcc = some a ∧ a.isRead = true ∧ a.acked = true) ∧
    (∃ (s : State) (x : Accessor) (l : Side), s.Granted x (lk l R_QLK_CTL) (s.ownsLink x.ridge l)) ∧
    (∃ (s : State) (l : Side), (s.lnk l).st = .train) ∧
    (∃ (s : State) (x : Accessor) (l : Side), s.Granted x (lk l R_QLK_CTL) (s.ownsLink x.ridge l)) ∧
    (∃ (s : State) (x : Accessor) (l : Side), s.Granted x (lk l R_QLK_CTL) (s.ownsLink x.ridge l)) ∧
    (∃ (s : State) (x : Accessor) (l : Side), s.Granted x (lk l R_QLK_CTL) (s.ownsLink x.ridge l)) ∧
    (∃ (s : State) (x : Accessor) (l : Side), s.Granted x (lk l R_QLK_CTL) (s.ownsLink x.ridge l)) ∧
    (∃ (s : State) (l : Side) (s1 : State), (s.lnk l).paflt = false ∧ (s1 = ((s.forceSlots l).modLink l (fun x =>
      { x with paflt := true })))) ∧
    (∃ (s : State) (l : Side) (w : BitVec 40), frameOk w = false ∧ (s.lnk l).listens = true) ∧
    (∃ (s : State) (t : Quad) (now : DWord), s.canReach (s.angSide t) now = true ∧ (s.tl t).ag = true ∧ (s.tl t).wg =
      false ∧ (s.tl t).wgSinceAg = false ∧ (s.tl t).agRose.toInt + s.regF (lk t.act R_QLK_GATECFG) 31 16 ≤
      s.streamAcAt t now) ∧
    (∃ (s : State) (t : Quad) (now : DWord) (a : _), (s.tl t).wgFell = some a ∧ s.canReach (s.angSide t) now = true ∧
      (s.tl t).ag = true ∧ (s.tl t).wg = false ∧ a.toInt + s.regF (lk t.act R_QLK_GATECFG) 15 0 ≤ s.streamAcAt t now) :=
  ⟨⟨lnkS (fun l => { l with st := .run, ulock := true }), .a, frameBits false 0 0, by decide +kernel, by
      decide +kernel, by decide +kernel, by decide +kernel⟩,
    ⟨lnkS (fun l => { l with st := .run, ulock := true }), .a, frameBits false 8 0, by decide +kernel, by
      decide +kernel, by decide +kernel, by decide +kernel⟩,
    ⟨lnkS (fun l => { l with st := .run, ulock := true }), .a, frameBits false 9 0, by decide +kernel, by
      decide +kernel, by decide +kernel, by decide +kernel⟩,
    ⟨lnkS (fun l => { l with st := .run, ulock := true }), .a, frameBits false 10 0, by decide +kernel, by
      decide +kernel, by decide +kernel, by decide +kernel⟩,
    ⟨lnkS (fun l => { l with st := .run, ulock := true }), .a, frameBits false 1 0, by decide +kernel, by
      decide +kernel, by decide +kernel, by decide +kernel, by decide +kernel⟩,
    ⟨lnkS (fun l => { l with st := .train, goodRun := 8 }), .a, (lnkS (fun l =>
      { l with st := .train, goodRun := 8 })).modLink .a (fun x => { x with ulock := true, badRun := 0 }), by
      decide +kernel, by decide +kernel, rfl⟩,
    ⟨lnkS (fun l => { l with ulock := true, badRun := 4 }), .a, by decide +kernel⟩,
    ⟨lnkS (fun l => { l with st := .run, quiet := 31 }), .a, by decide +kernel, by decide +kernel⟩,
    ⟨lnkS (fun l => { l with st := .run, ulock := true, flight := [idleFr, idleFr, idleFr] }), .a, frameBits true 0
      0, idleFr, idleFr, idleFr, [], by decide +kernel, by decide +kernel, by decide +kernel, by decide +kernel, by
      decide +kernel, by decide +kernel, by decide +kernel, by decide +kernel, by decide +kernel, by decide +kernel⟩,
    ⟨lnkS (fun l => { l with regAcc := some ⟨true, 0, 0, true⟩ }), .a, (⟨true, 0, 0, true⟩ : RegAcc), by
      decide +kernel, by decide +kernel, by decide +kernel⟩,
    ⟨live, xa, .a, by decide +kernel⟩,
    ⟨lnkS (fun l => { l with st := .train }), .a, by decide +kernel⟩,
    ⟨live, xa, .a, by decide +kernel⟩,
    ⟨live, xa, .a, by decide +kernel⟩,
    ⟨live, xa, .a, by decide +kernel⟩,
    ⟨live, xa, .a, by decide +kernel⟩,
    ⟨live, .a, ((live.forceSlots .a).modLink .a (fun x => { x with paflt := true })), by decide +kernel, rfl⟩,
    ⟨lnkS (fun l => { l with st := .run }), .a, 0, by decide +kernel, by decide +kernel⟩,
    ⟨(tileS (fun x => { x with ag := true })).setReg (lk .a R_QLK_GATECFG) 0, .q0, 0, by decide +kernel, by
      decide +kernel, by decide +kernel, by decide +kernel, by decide +kernel⟩,
    ⟨(tileS (fun x => { x with ag := true, wgFell := some 0 })).setReg (lk .a R_QLK_GATECFG) 0, .q0, 0, (0 : DWord),
      by decide +kernel, by decide +kernel, by decide +kernel, by decide +kernel, by decide +kernel⟩⟩

theorem witness_RecorderCommandsComplete :
    (∃ (s : State) (c : CtxId) (rom : Bool), s.ridgeLive c.ridge = true ∧ s.evrUp = true ∧ s.regB R_EVR_CTL 0 = true
      ∧ bit ((s.ctx c).stagedAt 0xD5) 19 = false ∧ (fld ((s.ctx c).stagedAt 0xD5) 15 0 < 0x0800 ∨ 0x7FFF < fld
      ((s.ctx c).stagedAt 0xD5) 15 0) ∧ (chainCode (fld ((s.ctx c).stagedAt 0xD5) 15 0) = false ∨ rom = true) ∧ (fld
      ((s.ctx c).stagedAt 0xD5) 15 0 ≠ 0x01F0 ∨ s.evr.spanOpen = true)) ∧
    (∃ (s : State), s.evrUp = true) ∧
    (∃ (s : State), (s.regF R_EVR_CTL 15 8) ≠ 0 ∧ s.evrUp = true ∧ ¬ (s.evr.ot.toNat < s.evr.recOt.toNat + (s.regF
      R_EVR_CTL 15 8) * 60000)) ∧
    (∃ (s : State), s.evr.scanDone = false ∧ (s.newestRec (fun _ => true) = none)) ∧
    (∃ (s : State) (w : BitVec 512), s.evr.scanDone = false ∧ (s.newestRec (fun _ => true) = some w)) ∧
    (∃ (s : State), s.evrUp = true) ∧
    (∃ (s : State) (x : Accessor), s.Granted x R_EVR_ID true) ∧
    (∃ (s : State) (ok : Bool) (seq : BitVec 48) (h : BitVec 384) (k : BitVec 384), s.evr.sealPend = some (seq, h) ∧
      (s.cry.busy.all (fun o => s.sealFirst o) = true) ∧ ok = true ∧ s.cry.aliasKey = some k) ∧
    (∃ (s : State) (ok : Bool) (seq : BitVec 48) (h : BitVec 384), s.evr.sealPend = some (seq, h) ∧ (s.cry.busy.all
      (fun o => s.sealFirst o) = true) ∧ ok = false) :=
  ⟨⟨live, c0, false, by decide +kernel, by decide +kernel, by decide +kernel, by decide +kernel, by decide +kernel,
      by decide +kernel, by decide +kernel⟩,
    ⟨live, by decide +kernel⟩,
    ⟨live.modEvr (fun e => { e with ot := 0xFFFFFFFF }), by decide +kernel, by decide +kernel, by decide +kernel⟩,
    ⟨live, by decide +kernel, by decide +kernel⟩,
    ⟨ringS, (recLine 0 rec0), by decide +kernel, by decide +kernel⟩,
    ⟨live, by decide +kernel⟩,
    ⟨live, xa, by decide +kernel⟩,
    ⟨live.modEvr (fun e => { e with sealPend := some (0, 0) }) |> fun s => s.modCry (fun k =>
      { k with aliasKey := some 0 }), true, 0, 0, 0, by decide +kernel, by decide +kernel, by decide +kernel, by
      decide +kernel⟩,
    ⟨live.modEvr (fun e => { e with sealPend := some (0, 0) }), false, 0, 0, by decide +kernel, by decide +kernel, by
      decide +kernel⟩⟩

theorem witness_ResetAndBootCommandsComplete :
    (∃ (groups : BitVec 4), groups ≠ 0) ∧
    (∃ (s : State) (x : Accessor), s.Granted x R_RCP_ID true) ∧
    (∃ (s : State), s.mtr.sp ≠ .gen) ∧
    (∃ (n : BitVec 4) (t : BitVec 16), n.toNat < 12 ∧ 2000 ≤ t.toInt) ∧
    (∃ (s : State) (temps : List (BitVec 16)), s.rcp.thermHold = true ∧ temps.length = 12 ∧ (temps.all (fun t =>
      decide (t.toInt < 1760)) = true)) ∧
    (∃ (s : State), s.rcp.blkBusy.isSome = true) ∧
    (∃ (s : State) (r : Side) (blk : BitVec 9) (b : Nat), selBase r blk.toNat = some b ∧ bit (s.bwdCfg r blk.toNat)
      31 = true ∧ s.blockUp b = true) ∧
    (∃ (s : State) (r : Side), s.ridgeExpired r = true) ∧
    (∃ (s : State) (x : Accessor), s.Granted x R_RCP_ID true) ∧
    (∃ (s : State), s.rcp.asserted = true ∧ s.rcp.thermHold = false) ∧
    (∃ (s : State), s.rcp.asserted = true ∧ s.rcp.thermHold = false) ∧
    (∃ (s : State) (p : Side), s.rcp.phase = .boot ∧ s.rcp.straps.bootsrc = 1 + p.idx) ∧
    (∃ (s : State), (s.rcp.phase = .recovery ∨ (s.rcp.phase = .boot ∧ s.rcp.straps.bootsrc = 3 ∧ s.regB R_GPD_DBGCTL
      1 = true))) ∧
    (∃ (s : State) (r : Side), s.bootReady r = true) :=
  ⟨⟨1, by decide +kernel⟩,
    ⟨live, xa, by decide +kernel⟩,
    ⟨live, by decide +kernel⟩,
    ⟨0, 2000, by decide +kernel, by decide +kernel⟩,
    ⟨live.modRcp (fun r => { r with thermHold := true }), List.replicate 12 0, by decide +kernel, by decide +kernel,
      by decide +kernel⟩,
    ⟨live.modRcp (fun r => { r with blkBusy := some 0 }), by decide +kernel⟩,
    ⟨live, .a, 0, 0, by decide +kernel, by decide +kernel, by decide +kernel⟩,
    ⟨(live.setReg R_RCP_RWDCFG 0x80000001).modRcp (fun p => { p with rwdMs := ⟨5, 5⟩ }), .a, by decide +kernel⟩,
    ⟨live, xa, by decide +kernel⟩,
    ⟨State.reset, by decide +kernel, by decide +kernel⟩,
    ⟨State.reset, by decide +kernel, by decide +kernel⟩,
    ⟨live.modRcp (fun r => { r with phase := .boot, straps := ⟨false, false, 0, 1⟩ }), .a, by decide +kernel, by
      decide +kernel⟩,
    ⟨live.modRcp (fun r => { r with phase := .recovery }), by decide +kernel⟩,
    ⟨bootS, .a, by decide +kernel⟩⟩

theorem witness_ServoControlCommandsComplete :
    (∃ (s : State) (r : Side) (q : Quad), s.passReady r q = true) ∧
    (∃ (s : State) (r : Side), s.cenUp r = true) ∧
    (∃ (s : State) (c : CtxId), s.ridgeLive c.ridge = true) ∧
    (∃ (s : State) (act : Side) (k : Nat) (ac : DWord) (sk : Option DWord) (s1 : State), (s.modeOf .a act).pend =
      some (k, ac, sk) ∧ s.switchDue .a act = true ∧ s1 = s.applyMode .a act k sk ∧ s1.switchDue .b act = false) ∧
    (∃ (s : State) (r : Side) (series : Quad) (now : DWord), s.angUp r = true ∧ (s.an r).src ≠ .none ∧ s.regB (rk r
      R_ANG_TICKCFG) series.idx = true ∧ s.canReach r now = true ∧ s.tickDue r series now = true) ∧
    (∃ (s : State) (r : Side) (dest : BitVec 4), s.cenUp r = true ∧ (sg none (s.ce r).outs dest.toNat).isSome = true
      ∧ sg false (s.ce r).hold dest.toNat = false) ∧
    (∃ (s : State) (r : Side) (dest : BitVec 4), s.cenUp r = true ∧ (sg none (s.ce r).outs dest.toNat).isSome = true
      ∧ sg false (s.ce r).hold dest.toNat = true ∧ s.destIdle r dest.toNat = false) ∧
    (∃ (s : State) (r : Side), 16 ≤ (s.ce r).xRun) ∧
    (∃ (s : State) (r : Side), s.cenUp r = true) ∧
    (∃ (s : State) (r : Side), (s.ce r).sync = .copying) :=
  ⟨⟨(live.modCen .a (fun e => { e with due := ⟨true, false, false, false⟩ })).setReg (rk .a R_CEN_CTL) 1, .a, .q0,
      by decide +kernel⟩,
    ⟨live, .a, by decide +kernel⟩,
    ⟨live, c0, by decide +kernel⟩,
    ⟨live.modCen .a (fun e =>
      { e with modes := ⟨{ ServoMode.reset with pend := some (1, 0, none) }, ServoMode.reset⟩ }), .a, 1, 0, none,
      (live.modCen .a (fun e =>
      { e with modes := ⟨{ ServoMode.reset with pend := some (1, 0, none) }, ServoMode.reset⟩ })).applyMode .a .a 1
      none, by decide +kernel, by decide +kernel, rfl, by decide +kernel⟩,
    ⟨(angS (fun a => { a with src := .track })).setReg (rk .a R_ANG_TICKCFG) 15, .a, .q0, 0x1000000, by
      decide +kernel, by decide +kernel, by decide +kernel, by decide +kernel, by decide +kernel⟩,
    ⟨live.modCen .a (fun e => { e with outs := [(8, some ⟨0, false, 0⟩)] }), .a, 8, by decide +kernel, by
      decide +kernel, by decide +kernel⟩,
    ⟨live.modCen .a (fun e => { e with outs := [(8, some ⟨0, false, 0⟩)], hold := [(8, true)] }), .a, 8, by
      decide +kernel, by decide +kernel, by decide +kernel, by decide +kernel⟩,
    ⟨live.modCen .a (fun e => { e with xRun := 16 }), .a, by decide +kernel⟩,
    ⟨live, .a, by decide +kernel⟩,
    ⟨live.modCen .a (fun e => { e with sync := .copying }), .a, by decide +kernel⟩⟩

theorem witness_SpurContextCommandsComplete :
    (∃ (s : State) (c : CtxId) (port : Nat) (o : _), s.ridgeLive c.ridge = true ∧ ((s.ctx c).reads.find? (fun o =>
      o.port == port) = some o)) ∧
    (∃ (s : State) (c : CtxId), s.ridgeLive c.ridge = true) ∧
    (∃ (s : State) (c : CtxId) (n : Nat) (sn : Snapshot), s.ridgeLive c.ridge = true ∧ (s.ctx c).st.runs = true ∧
      (s.ctx c).committing = false ∧ (s.ctx c).giving ≠ some true ∧ (s.ctx c).urgentLine = some n ∧ (s.ctx c).snap =
      some sn) ∧
    (∃ (s : State) (c : CtxId), s.ridgeLive c.ridge = true ∧ s.regF (rk c.ridge R_SPU_SEGMAX) 15 0 ≠ 0 ∧ (s.ctx
      c).segWarned = false ∧ (s.ctx c).fetches = true) ∧
    (∃ (s : State) (c : CtxId) (w : _), s.ridgeLive c.ridge = true ∧ (s.ctx c).waiting = some w ∧ s.waitSpent c w =
      true) ∧
    (∃ (s : State) (c : CtxId) (w : _), s.ridgeLive c.ridge = true ∧ (s.ctx c).waiting = some w ∧ w.inAu = true) ∧
    (∃ (s : State) (c : CtxId) (m : MirrorMsg) (rest : List MirrorMsg), s.ridgeLive c.ridge = true ∧ (s.ctx c).inbox
      = m :: rest ∧ (s.ctx c).st = .adopt) ∧
    (∃ (s : State) (c : CtxId) (m : MirrorMsg) (rest : List MirrorMsg), s.ridgeLive c.ridge = true ∧ (s.ctx c).inbox
      = m :: rest ∧ (s.ctx c).st ≠ .adopt) ∧
    (∃ (s : State) (c : CtxId), (s.ctx c).acks ≠ 0) ∧
    (∃ (s : State) (c : CtxId), s.ridgeLive c.ridge = true ∧ ((s.ctx c).st = .idle ∨ (s.ctx c).st = .halt ∨ (s.ctx
      c).st = .fault)) ∧
    (∃ (s : State) (c : CtxId), s.ridgeLive c.ridge = true ∧ (s.ctx c).st ≠ .adopt ∧ (s.ctx c).st.runs = true) ∧
    (∃ (s : State) (c : CtxId) (sn : Snapshot), s.ridgeLive c.ridge = true ∧ ((s.ctx c).st = .halt ∨ (s.ctx c).st =
      .fault) ∧ (s.ctx c).snap = some sn) ∧
    (∃ (s : State) (c : CtxId), s.ridgeLive c.ridge = true ∧ (s.ctx c).st = .halt) ∧
    (∃ (s : State) (c : CtxId) (cmd : BitVec 3), s.ridgeLive c.ridge = true ∧ 6 ≤ cmd.toNat) ∧
    (∃ (s : State) (r : Side), s.ridgeLive r = true) ∧
    (∃ (s : State) (x : Accessor), s.Granted x (rk x.ridge R_CST_ID) true) ∧
    (∃ (s : State) (r : Side), s.ridgeLive r = true) ∧
    (∃ (s : State) (c : CtxId), s.ridgeLive c.ridge = true ∧ (s.ctx c).fetches = true ∧ badFetch (s.ctx c).pc = false) ∧
    (∃ (s : State) (r : Side), s.ridgeLive r = true) :=
  ⟨⟨readS, c0, 0x20, read0, by decide +kernel, by decide +kernel⟩,
    ⟨readS, c0, by decide +kernel⟩,
    ⟨ctxS (fun x => { x with pend := 4 }), c0, 2, ⟨[], Flags.zero, [], 0, 0, 0, []⟩, by decide +kernel, by
      decide +kernel, by decide +kernel, by decide +kernel, by decide +kernel, by decide +kernel⟩,
    ⟨live, c0, by decide +kernel, by decide +kernel, by decide +kernel, by decide +kernel⟩,
    ⟨waitS, c0, wait0, by decide +kernel, by decide +kernel, by decide +kernel⟩,
    ⟨waitS, c0, wait0, by decide +kernel, by decide +kernel, by decide +kernel⟩,
    ⟨ctxS (fun x => { x with st := .adopt, inbox := [msg0] }), c0, msg0, [], by decide +kernel, by decide +kernel, by
      decide +kernel⟩,
    ⟨ctxS (fun x => { x with inbox := [msg0] }), c0, msg0, [], by decide +kernel, by decide +kernel, by
      decide +kernel⟩,
    ⟨ctxS (fun x => { x with acks := 1 }), c0, by decide +kernel⟩,
    ⟨ctxS (fun x => { x with st := .idle }), c0, by decide +kernel, by decide +kernel⟩,
    ⟨live, c0, by decide +kernel, by decide +kernel, by decide +kernel⟩,
    ⟨ctxS (fun x => { x with st := .halt, snap := some snap0 }), c0, snap0, by decide +kernel, by decide +kernel, by
      decide +kernel⟩,
    ⟨ctxS (fun x => { x with st := .halt }), c0, by decide +kernel, by decide +kernel⟩,
    ⟨live, c0, 6, by decide +kernel, by decide +kernel⟩,
    ⟨live, .a, by decide +kernel⟩,
    ⟨live, xa, by decide +kernel⟩,
    ⟨live, .a, by decide +kernel⟩,
    ⟨live, c0, by decide +kernel, by decide +kernel, by decide +kernel⟩,
    ⟨live, .a, by decide +kernel⟩⟩

theorem witness_StripeEngineCommandsComplete :
    (∃ (s : State) (c : CtxId), s.ridgeLive c.ridge = true ∧ s.steOn c.ridge = true) ∧
    (∃ (s : State) (c : CtxId), s.ridgeLive c.ridge = true ∧ s.steOn c.ridge = true) ∧
    (∃ (s : State) (c : CtxId), s.ridgeLive c.ridge = true ∧ s.steOn c.ridge = true) ∧
    (∃ (s : State) (r : Side), s.domOn (57 + r.idx) = true ∧ s.regB (rk r R_STE_CTL) 0 = true ∧ s.ridgeLive r = true) :=
  ⟨⟨live, c0, by decide +kernel, by decide +kernel⟩,
    ⟨live, c0, by decide +kernel, by decide +kernel⟩,
    ⟨live, c0, by decide +kernel, by decide +kernel⟩,
    ⟨live, .a, by decide +kernel, by decide +kernel, by decide +kernel⟩⟩

theorem witness_MicrowordsComplete :
    (∃ (s : State) (c : CtxId) (w : MicroWord) (ce : Bool), s.WordDue c w ce 0) ∧
    (∃ (s : State) (c : CtxId) (w : MicroWord) (ce : Bool), s.WordDue c w ce 1) ∧
    (∃ (s : State) (c : CtxId) (w : MicroWord) (ce : Bool), s.WordDue c w ce 2) ∧
    (∃ (s : State) (c : CtxId) (w : MicroWord) (ce : Bool), s.WordDue c w ce 3) ∧
    (∃ (s : State) (c : CtxId) (w : MicroWord) (ce : Bool), s.WordDue c w ce 4) ∧
    (∃ (s : State) (c : CtxId) (w : MicroWord) (ce : Bool), s.WordDue c w ce 5) ∧
    (∃ (s : State) (c : CtxId) (w : MicroWord) (ce : Bool), s.WordDue c w ce 6) ∧
    (∃ (s : State) (c : CtxId) (w : MicroWord) (ce : Bool), s.WordDue c w ce 7) ∧
    (∃ (s : State) (c : CtxId) (w : MicroWord) (ce : Bool), s.WordDue c w ce 8) ∧
    (∃ (s : State) (c : CtxId) (w : MicroWord) (ce : Bool), s.WordDue c w ce 9) ∧
    (∃ (s : State) (c : CtxId) (w : MicroWord) (ce : Bool), s.WordDue c w ce 10) ∧
    (∃ (s : State) (c : CtxId) (w : MicroWord) (ce : Bool), s.WordDue c w ce 11) ∧
    (∃ (s : State) (c : CtxId) (w : MicroWord), 12 ≤ wSeq w ∧ s.canIssue c w = true ∧ (s.ctx c).atWord = true) ∧
    (∃ (s : State) (c : CtxId) (w : MicroWord), s.ridgeLive c.ridge = true ∧ (s.ctx c).st = .halt ∧ ((s.ctx
      c).stepReq = true ∨ s.regB (rk c.ridge R_SPU_GCTL) 8 = true) ∧ s.canIssue c w = true) :=
  ⟨⟨live, c0, word 0, false, by decide +kernel⟩,
    ⟨live, c0, word 1, false, by decide +kernel⟩,
    ⟨live, c0, word 2, false, by decide +kernel⟩,
    ⟨ctxS (fun x => { x with stack := [5] }), c0, word 3, false, by decide +kernel⟩,
    ⟨live, c0, word 4, false, by decide +kernel⟩,
    ⟨live, c0, word 5, false, by decide +kernel⟩,
    ⟨live, c0, word 6, false, by decide +kernel⟩,
    ⟨live, c0, word 7, false, by decide +kernel⟩,
    ⟨live, c0, word 8, false, by decide +kernel⟩,
    ⟨live, c0, word 9, false, by decide +kernel⟩,
    ⟨live, c0, word 10, false, by decide +kernel⟩,
    ⟨live, c0, word 11, false, by decide +kernel⟩,
    ⟨live, c0, word 12, by decide +kernel, by decide +kernel, by decide +kernel⟩,
    ⟨ctxS (fun x => { x with st := .halt, stepReq := true }), c0, word 0, by decide +kernel, by decide +kernel, by
      decide +kernel, by decide +kernel⟩⟩

theorem witness_ZoneTableCommandsComplete :
    (∃ (s : State) (x : Accessor), s.Granted x R_ZTB_ID true) ∧
    (∃ (s : State) (c : CtxId) (w : DWord) (e : ZEntry), s.ridgeLive c.ridge = true ∧ s.ztbUp = true ∧ ztbApply
      (s.zent (fld (ztbOp 1 w) 16 0)) (ztbOp 1 w) = some e) ∧
    (∃ (s : State) (c : CtxId) (w : DWord) (e : ZEntry), s.ridgeLive c.ridge = true ∧ s.ztbUp = true ∧ ztbApply
      (s.zent (fld (ztbOp 2 w) 16 0)) (ztbOp 2 w) = some e) ∧
    (∃ (s : State) (c : CtxId) (w : DWord) (e : ZEntry), s.ridgeLive c.ridge = true ∧ s.ztbUp = true ∧ ztbApply
      (s.zent (fld (ztbOp 3 w) 16 0)) (ztbOp 3 w) = some e) ∧
    (∃ (s : State) (c : CtxId) (w : DWord) (e : ZEntry), s.ridgeLive c.ridge = true ∧ s.ztbUp = true ∧ ztbApply
      (s.zent (fld (ztbOp 4 w) 16 0)) (ztbOp 4 w) = some e) ∧
    (∃ (s : State) (c : CtxId) (w : DWord) (e : ZEntry), s.ridgeLive c.ridge = true ∧ s.ztbUp = true ∧ ztbApply
      (s.zent (fld (ztbOp 5 w) 16 0)) (ztbOp 5 w) = some e) ∧
    (∃ (s : State) (c : CtxId) (w : DWord) (e : ZEntry), s.ridgeLive c.ridge = true ∧ s.ztbUp = true ∧ ztbApply
      (s.zent (fld (ztbOp 6 w) 16 0)) (ztbOp 6 w) = some e) ∧
    (∃ (s : State) (c : CtxId) (w : DWord) (e : ZEntry), s.ridgeLive c.ridge = true ∧ s.ztbUp = true ∧ ztbApply
      (s.zent (fld (ztbOp 7 w) 16 0)) (ztbOp 7 w) = some e) ∧
    (∃ (s : State) (c : CtxId) (w : DWord), s.ridgeLive c.ridge = true ∧ s.ztbUp = true ∧ (fld w 63 60 = 0 ∨ 7 < fld
      w 63 60)) ∧
    (∃ (s : State) (x : Accessor), s.Granted x R_ZTB_ID true) ∧
    (∃ (s : State) (n : Nat), s.ztb.scanBusy = true ∧ s.scanFind = some n) ∧
    (∃ (s : State), s.ztb.scanBusy = true ∧ s.scanFind = none) :=
  ⟨⟨live, xa, by decide +kernel⟩,
    ⟨ztbS (ent 1 2 0 0), c0, 0x0320000000000000, ent 1 3 0 0, by decide +kernel, by decide +kernel, by decide +kernel⟩,
    ⟨ztbS (ent 1 2 0 0), c0, 0x100000000, ent 1 2 0 1, by decide +kernel, by decide +kernel, by decide +kernel⟩,
    ⟨ztbS (ent 1 2 0 0), c0, 0x100000000, ent 1 2 0 1024, by decide +kernel, by decide +kernel, by decide +kernel⟩,
    ⟨ztbS (ent 1 2 0 0), c0, 0x100000000, { ent 1 2 0 0 with w2 := 0x400000 }, by decide +kernel, by decide +kernel,
      by decide +kernel⟩,
    ⟨ztbS (ent 1 2 0 5), c0, 0, { ent 1 1 0 0 with w1 := 0x100000000 }, by decide +kernel, by decide +kernel, by
      decide +kernel⟩,
    ⟨ztbS (ent 1 2 0 0), c0, 0, ent 1 2 0 0, by decide +kernel, by decide +kernel, by decide +kernel⟩,
    ⟨ztbS (ent 1 1 0 0), c0, 0, ent 0 1 0 0, by decide +kernel, by decide +kernel, by decide +kernel⟩,
    ⟨live, c0, 0, by decide +kernel, by decide +kernel, by decide +kernel⟩,
    ⟨live, xa, by decide +kernel⟩,
    ⟨(ztbS (ent 1 2 0 0)).modZtb (fun z => { z with scanBusy := true, scanArg := 0x02000000 }), 0, by decide +kernel,
      by decide +kernel⟩,
    ⟨live.modZtb (fun z => { z with scanBusy := true, scanArg := 0x0201FFFF }), by decide +kernel, by decide +kernel⟩⟩

end Sys2Proof.Tests
end

section
/-!
PROOFS. A register write by access type (R6, R7): the route of a write that the bus carries to a stored register, the word
that the register then holds, and that word bit by bit.
-/
namespace Sys2Proof.Machine

/-! ### Bits of masked words -/

theorem bit_ofNat {n i : Nat} (hi : i < n) (m : Nat) : bit (BitVec.ofNat n m) i = m.testBit i := by
  simp only [bit, BitVec.getLsbD_ofNat, hi, decide_true, Bool.true_and]

theorem bit_or {n : Nat} (v w : BitVec n) (i : Nat) : bit (v ||| w) i = (bit v i || bit w i) := BitVec.getLsbD_or

theorem bit_and {n : Nat} (v w : BitVec n) (i : Nat) : bit (v &&& w) i = (bit v i && bit w i) := BitVec.getLsbD_and

theorem bit_and_not {n i : Nat} (hi : i < n) (v w : BitVec n) : bit (v &&& ~~~w) i = (bit v i && !bit w i) := by
  simp only [bit, BitVec.getLsbD_and, BitVec.getLsbD_not, hi, decide_true, Bool.true_and]

/-- A mask takes its bits from one word and leaves the others as they were. -/
theorem bit_masked {n i : Nat} (hi : i < n) (old data m : BitVec n) :
    bit ((old &&& ~~~m) ||| (data &&& m)) i = if bit m i then bit data i else bit old i := by
  rw [bit_or, bit_and_not hi, bit_and]
  cases bit m i with
  | true => simp
  | false => simp

/-! ### The word that a stored register holds after a write -/

/-- The bits that take the written data: RW bits, and lockable bits while the lock is open (R7). -/
def RegRow.writable (row : RegRow) (locked : Bool) : Nat := if locked then row.rw else row.rw ||| row.rwl

/-- The register's word after a write of `data` over `old`, by the access types of its bits (R6). -/
def RegRow.written (row : RegRow) (locked : Bool) (old data : Word) : Word :=
  let m : Word := BitVec.ofNat 32 (row.writable locked)
  ((old &&& ~~~m) ||| (data &&& m)) &&& ~~~(data &&& BitVec.ofNat 32 row.w1c) ||| (data &&& BitVec.ofNat 32 row.w1s)

theorem RegRow.writable_testBit (row : RegRow) (locked : Bool) (i : Nat) :
    (row.writable locked).testBit i = (row.rw.testBit i || (row.rwl.testBit i && !locked)) := by
  cases locked with
  | true => simp [RegRow.writable]
  | false => simp [RegRow.writable, Nat.testBit_or]

theorem RegRow.bit_written {i : Nat} (hi : i < 32) (row : RegRow) (locked : Bool) (old data : Word) :
    bit (row.written locked old data) i =
      (((if row.rw.testBit i || (row.rwl.testBit i && !locked) then bit data i else bit old i) &&
        !(row.w1c.testBit i && bit data i)) || (row.w1s.testBit i && bit data i)) := by
  simp only [RegRow.written]
  rw [bit_or, bit_and_not hi, bit_masked hi, bit_and, bit_and, bit_ofNat hi, bit_ofNat hi, bit_ofNat hi,
    row.writable_testBit, Bool.and_comm (bit data i) (row.w1c.testBit i), Bool.and_comm (bit data i) (row.w1s.testBit i)]

/-! ### The route of a write to a stored register -/

variable {s : State} {x : Accessor} {addr data : Word} {k : Nat}

theorem State.storeReg_eq_setReg {row : RegRow} (hrow : regRow k = some row) :
    s.storeReg k data = s.setReg k (row.written (s.lockOf k) (s.reg k) data) := by
  simp only [State.storeReg, hrow]
  rfl

theorem State.regWrite_stored (hr : s.writeRefused x k data = none) (hs : s.writeSpecial x k data = none) :
    s.regWrite x k data = s.storeReg k data := by
  simp only [State.regWrite, hr, hs]

/-- The meaning of the command. -/
theorem exec_registerWrite : exec (.registerWrite x addr data) s = execRegisterWrite x addr data s := rfl

/-- A write that the bus carries to a register (R441 to R443) is the register's own write. -/
theorem exec_registerWrite_of_busReaches (h : s.BusReaches x addr (.reg k)) :
    exec (.registerWrite x addr data) s = .next (s.regWrite x k data) := by
  obtain ⟨hlive, hplace, hup⟩ := h
  simp only [exec_registerWrite, execRegisterWrite, State.byRidge, State.busWrite, hlive, hplace, hup, if_true,
    Bool.false_eq_true, if_false]

/-- Settles O21: the write stores `RegRow.written` in its register, whose bits `RegRow.bit_written` gives. -/
theorem storedRegistersFollowTheirAccessTypes : Obligations.StoredRegistersFollowTheirAccessTypes := by
  intro s x addr data k row hwf hreach hrefused hspecial hrow
  refine ⟨s.setReg k (row.written (s.lockOf k) (s.reg k) data), ?next, ?bits, ?others, rfl⟩
  case next =>
    rw [exec_registerWrite_of_busReaches hreach, State.regWrite_stored hrefused hspecial,
      State.storeReg_eq_setReg hrow]
  case bits =>
    intro i hi
    rw [State.regB, State.reg_setReg_same hwf.regs, RegRow.bit_written hi, State.regB]
  case others =>
    intro j hj
    exact State.reg_setReg_other hj hwf.regs

end Sys2Proof.Machine
end

section
/-!
PROOFS. The contexts of a Spur: MOV (R20, R61), URGENT entry (R31), and START, RESUME and RELEASE (R35, R50). Each is a
change of one context, given first as a function on the context, then its effect on the state.
-/
namespace Sys2Proof.Machine

variable {s : State} {c : CtxId} {x : Ctx}

/-! ### Commands of a live Ridge -/

theorem State.byCtx_of_live (h : s.ridgeLive c.ridge = true) (f : State → State) : s.byCtx c f = f s := by
  simp only [State.byCtx, h, if_true]

theorem exec_mov (f : AluForm) : exec (.mov c f) s = .next (s.alu c aluMov f) := rfl

theorem exec_urgentEntry : exec (.urgentEntry c) s = execUrgentEntry c s := rfl

theorem exec_contextStart_of_live (h : s.ridgeLive c.ridge = true) (addr : CsAddr) :
    exec (.contextStart c addr) s = .next (s.ctxCmd c 1 (csAddr addr)) :=
  congrArg Host.Outcome.next (State.byCtx_of_live h _)

theorem exec_contextResume_of_live (h : s.ridgeLive c.ridge = true) :
    exec (.contextResume c) s = .next (s.ctxCmd c 3 0) :=
  congrArg Host.Outcome.next (State.byCtx_of_live h _)

theorem exec_contextRelease_of_live (h : s.ridgeLive c.ridge = true) :
    exec (.contextRelease c) s = .next (s.ctxCmd c 5 0) :=
  congrArg Host.Outcome.next (State.byCtx_of_live h _)

/-! ### MOV (R20, R61) -/

theorem State.alu_of_live (h : s.ridgeLive c.ridge = true) (op : AluIn → AluOut) (f : AluForm) :
    s.alu c op f = s.setCtx c ((s.ctx c).aluWrite f.dst (op ((s.ctx c).aluIn f))) := State.byCtx_of_live h _

/-- An outcome that leaves the flags is a register write. -/
theorem Ctx.aluWrite_keep (f : AluForm) (r : DWord) : x.aluWrite f.dst ((x.aluIn f).keep r) = x.wr f.dst.toNat r := rfl

theorem exec_mov_of_aluOn {f : AluForm} {a b d : DWord} (h : s.AluOn c f a b d) :
    exec (.mov c f) s = .next (s.setCtx c ((s.ctx c).wr f.dst.toNat b)) := by
  obtain ⟨hlive, -, hb, -⟩ := h
  rw [exec_mov, State.alu_of_live hlive, aluMov, Ctx.aluWrite_keep, hb]
  rfl

/-- Settles O11: the next state has the context with its destination register written, `Ctx.wr`. -/
theorem movWritesItsRegisterAlone : Obligations.MovWritesItsRegisterAlone := by
  intro s c f a b d hon hwf
  refine ⟨s.setCtx c ((s.ctx c).wr f.dst.toNat b), exec_mov_of_aluOn hon, ?_⟩
  simp only [State.setCtx_ctx_self]
  refine ⟨Ctx.rd_zero _, ?ignored, ?written, ?otherRegs, Ctx.wr_eq _ _ _,
    fun e he => s.setCtx_ctx_other _ he, rfl⟩
  case ignored =>
    intro hdst
    have hzero : f.dst.toNat = 0 := congrArg BitVec.toNat hdst
    rw [hzero, Ctx.wr_zero, State.setCtx_same]
  case written =>
    intro hdst
    have hne : f.dst.toNat ≠ 0 := fun h0 => hdst (BitVec.eq_of_toNat_eq h0)
    exact Ctx.rd_wr_same _ b hne hwf
  case otherRegs => exact fun n hn => Ctx.rd_wr_other _ b hn hwf

/-! ### URGENT entry (R31) -/

/-- The line taken is the lowest that is ready. -/
theorem Ctx.urgentLine_eq_some {n : Nat} :
    x.urgentLine = some n ↔ x.urgentReady n = true ∧ n < 16 ∧ ∀ k, k < n → x.urgentReady k = false := by
  simp only [Ctx.urgentLine, List.find?_range_eq_some, List.mem_range, Bool.not_eq_true']

/-- The context in the handler of line `n`, entered over the snapshot `sn`. -/
def Ctx.inUrgent (x : Ctx) (n : Nat) (sn : Snapshot) : Ctx :=
  { x with
    st := .handler
    pc := x.vector n
    pend := clrBit x.pend n
    hold := x.hold && decide (n ≠ 0)
    regs := sn.regs
    flags := sn.flags
    stack := sn.restart :: sn.stack
    lcnt := sn.lcnt
    deferDepths := sn.defers
    urgentDepth := some sn.stack.length
    wait := none
    reads := []
    wrote := [] }

@[simp] theorem State.bump_ctx (k hi lo n : Nat) : (s.bump k hi lo n).ctx c = s.ctx c := rfl

theorem State.urgentEntry_ctx {n : Nat} {sn : Snapshot} (hroom : sn.stack.length < 16) :
    (s.urgentEntry c n sn).ctx c = (s.ctx c).inUrgent n sn := by
  simp only [State.urgentEntry, Nat.not_le.mpr hroom, if_false, State.modCtx_ctx_self, State.bump_ctx, Ctx.inUrgent]

theorem State.urgentEntry_frame {n : Nat} {sn : Snapshot} (hroom : sn.stack.length < 16) :
    s.urgentEntry c n sn =
      { s with core := (s.urgentEntry c n sn).core, regs := (s.urgentEntry c n sn).regs } := by
  simp only [State.urgentEntry, Nat.not_le.mpr hroom, if_false]
  rfl

/-- The entry occurs in a running context with a line to take and a snapshot to restore. -/
theorem exec_urgentEntry_of_ready {n : Nat} {sn : Snapshot} (hlive : s.ridgeLive c.ridge = true)
    (hruns : (s.ctx c).st.runs = true) (hcommit : (s.ctx c).committing = false) (hgive : (s.ctx c).giving ≠ some true)
    (hline : (s.ctx c).urgentLine = some n) (hsnap : (s.ctx c).snap = some sn) :
    exec (.urgentEntry c) s = .next (s.urgentEntry c n sn) := by
  rw [exec_urgentEntry, execUrgentEntry, State.byCtx_of_live hlive]
  simp only [hruns, hcommit, hgive, hline, hsnap, ne_eq, not_false_eq_true, decide_true, Bool.not_false, Bool.and_self,
    if_true]

/-- Settles O15: the context is `Ctx.inUrgent`, whose pending bits are those of `clrBit`. -/
theorem urgentEntryRestoresTheSnapshot : Obligations.UrgentEntryRestoresTheSnapshot := by
  intro s c n sn hlive hruns hcommit hgive hline hsnap hroom
  obtain ⟨-, hn, hlowest⟩ := Ctx.urgentLine_eq_some.mp hline
  refine ⟨s.urgentEntry c n sn, exec_urgentEntry_of_ready hlive hruns hcommit hgive hline hsnap, hn, hlowest, ?_⟩
  rw [State.urgentEntry_ctx hroom]
  exact ⟨bit_clrBit_same _ n, fun k hk => bit_clrBit_other _ hk, rfl, rfl, rfl, rfl, rfl, rfl, rfl, hsnap,
    State.urgentEntry_frame hroom⟩

/-! ### START, RESUME and RELEASE (R35, R50) -/

theorem State.ctxCmd_start {addr : CsAddr}
    (h : (s.ctx c).st = .idle ∨ (s.ctx c).st = .halt ∨ (s.ctx c).st = .fault) :
    s.ctxCmd c 1 addr = s.setCtx c ((s.ctx c).start addr) := by
  rcases h with h | h | h <;> simp [State.ctxCmd, State.ctxCmd?, h]

theorem State.ctxCmd_resume {addr : CsAddr} {sn : Snapshot} (h : (s.ctx c).st = .halt ∨ (s.ctx c).st = .fault)
    (hsnap : (s.ctx c).snap = some sn) : s.ctxCmd c 3 addr = s.setCtx c ((s.ctx c).enter sn) := by
  simp only [State.ctxCmd, State.ctxCmd?, hsnap, h, decide_true, if_true, Option.getD_some]

theorem CtxState.not_stopped_of_busy {q : CtxState} (h : q.runs = true ∨ q = .adopt) :
    q ≠ .idle ∧ q ≠ .halt ∧ q ≠ .fault := by
  revert h
  cases q <;> decide

/-- A context that runs or adopts takes none of START, RESUME and RELEASE (R50). -/
theorem State.ctxCmd?_of_busy (h : (s.ctx c).st.runs = true ∨ (s.ctx c).st = .adopt) {cmd : Nat}
    (hcmd : cmd = 1 ∨ cmd = 3 ∨ cmd = 5) (addr : CsAddr) : s.ctxCmd? c cmd addr = none := by
  obtain ⟨hidle, hhalt, hfault⟩ := CtxState.not_stopped_of_busy h
  rcases hcmd with rfl | rfl | rfl
  · simp [State.ctxCmd?, hidle, hhalt, hfault]
  · cases hsnap : (s.ctx c).snap with
    | none => simp [State.ctxCmd?, hsnap]
    | some sn => simp [State.ctxCmd?, hsnap, hhalt, hfault]
  · simp [State.ctxCmd?, hhalt]

theorem State.ctxCmd_of_busy (h : (s.ctx c).st.runs = true ∨ (s.ctx c).st = .adopt) {cmd : Nat}
    (hcmd : cmd = 1 ∨ cmd = 3 ∨ cmd = 5) (addr : CsAddr) : s.ctxCmd c cmd addr = s.spuInt c.ridge 2 := by
  rw [State.ctxCmd, State.ctxCmd?_of_busy h hcmd, Option.getD_none]

/-- Settles O16: START and RESUME are `Ctx.enter` from a snapshot, and a busy context takes none of the commands. -/
theorem routineEntryFormsTheSnapshot : Obligations.RoutineEntryFormsTheSnapshot := by
  refine ⟨?start, ?resume, ?refused⟩
  case start =>
    intro s c addr hlive hst
    refine ⟨s.setCtx c ((s.ctx c).start (csAddr addr)),
      { s.ctx c with deferDepths := [], adopted := false }.snapAt (csAddr addr) 0, ?_, ?_⟩
    · rw [exec_contextStart_of_live hlive, State.ctxCmd_start hst]
    · rw [State.setCtx_ctx_self]
      exact ⟨rfl, rfl, rfl, rfl, rfl, rfl, rfl, rfl, rfl, rfl, rfl, rfl, rfl⟩
  case resume =>
    intro s c sn hlive hst hsnap
    refine ⟨s.setCtx c ((s.ctx c).enter sn), ?_, ?_⟩
    · rw [exec_contextResume_of_live hlive, State.ctxCmd_resume hst hsnap]
    · rw [State.setCtx_ctx_self]
      exact ⟨rfl, rfl, rfl, rfl, rfl, rfl, rfl, rfl⟩
  case refused =>
    intro s c addr hlive hbusy
    rw [exec_contextStart_of_live hlive, exec_contextResume_of_live hlive, exec_contextRelease_of_live hlive,
      State.ctxCmd_of_busy hbusy (.inl rfl), State.ctxCmd_of_busy hbusy (.inr (.inl rfl)),
      State.ctxCmd_of_busy hbusy (.inr (.inr rfl))]
    exact ⟨rfl, rfl, rfl⟩

end Sys2Proof.Machine
end

section
/-!
PROOFS. The operations of Table 3.5 (R61 to R63): what each writes to its destination and to the flags.
-/
namespace Sys2Proof.Machine

/-! ### Results and flags of the operations (R62) -/

section
variable (a b d : DWord) (fl : Flags)

theorem sumOut_noCarry : sumOut a b false =
    ⟨some (a + b), ⟨(a + b).msb, decide (a + b = 0), decide (2 ^ 64 ≤ a.toNat + b.toNat), overflows (a.toInt + b.toInt)⟩⟩ := by
  simp [sumOut, Flags.of, addCV, b2n]

theorem diffOut_noBorrow : diffOut a b false =
    ⟨some (a - b), ⟨(a - b).msb, decide (a - b = 0), decide (b.toNat ≤ a.toNat), overflows (a.toInt - b.toInt)⟩⟩ := by
  simp [diffOut, Flags.of, subCV, b2n]

/-- A borrow comes in where C is 0. -/
theorem b2n_not (v : Bool) : b2n (!v) = 1 - b2n v := by
  cases v <;> rfl

theorem aluSbc_eq : aluSbc ⟨a, b, d, fl⟩ =
    ⟨some (a - b - BitVec.ofNat 64 (1 - b2n fl.c)),
      ⟨(a - b - BitVec.ofNat 64 (1 - b2n fl.c)).msb, decide (a - b - BitVec.ofNat 64 (1 - b2n fl.c) = 0),
        decide (b.toNat + (1 - b2n fl.c) ≤ a.toNat), overflows (a.toInt - b.toInt - ((1 - b2n fl.c : Nat) : Int))⟩⟩ := by
  rw [← b2n_not]
  rfl

theorem aluCmp_eq : aluCmp ⟨a, b, d, fl⟩ =
    ⟨none, ⟨(a - b).msb, decide (a - b = 0), decide (b.toNat ≤ a.toNat), overflows (a.toInt - b.toInt)⟩⟩ := by
  rw [aluCmp, aluSub, diffOut_noBorrow]
  rfl

theorem aluCmn_eq : aluCmn ⟨a, b, d, fl⟩ =
    ⟨none, ⟨(a + b).msb, decide (a + b = 0), decide (2 ^ 64 ≤ a.toNat + b.toNat), overflows (a.toInt + b.toInt)⟩⟩ := by
  rw [aluCmn, aluAdd, sumOut_noCarry]
  rfl

theorem aluNeg_eq : aluNeg ⟨a, b, d, fl⟩ =
    ⟨some (0 - a), ⟨(0 - a).msb, decide (0 - a = 0), decide (a.toNat = 0), overflows (-a.toInt)⟩⟩ := by
  rw [aluNeg, diffOut_noBorrow]
  simp

/-- The negation of a negative word overflows at the least word alone. -/
theorem overflows_neg_of_msb (h : a.msb = true) : overflows (-a.toInt) = decide (a.toInt = -(2 ^ 63)) := by
  have hneg : a.toInt < 0 := BitVec.toInt_neg_of_msb_true h
  have hmin : -(2 ^ 63) ≤ a.toInt := BitVec.le_toInt a
  simp only [overflows, decide_eq_decide]
  omega

theorem overflows_toInt : overflows a.toInt = false := by
  have hmin : -(2 ^ 63) ≤ a.toInt := BitVec.le_toInt a
  have hmax : a.toInt < 2 ^ 63 := BitVec.toInt_lt
  simp only [overflows, decide_eq_false_iff_not]
  omega

theorem aluAbs_of_neg (h : a.msb = true) : aluAbs ⟨a, b, d, fl⟩ =
    ⟨some (0 - a), ⟨(0 - a).msb, false, false, decide (a.toInt = -(2 ^ 63))⟩⟩ := by
  have hne : ¬ a = 0#64 := by
    rintro rfl
    exact absurd h (by decide)
  have hpos : ¬ a.toNat = 0 := fun h0 => hne (BitVec.eq_of_toNat_eq h0)
  simp only [aluAbs, h, if_true]
  rw [diffOut_noBorrow, ← overflows_neg_of_msb a h]
  simp [hne, hpos]

theorem aluAbs_of_pos (h : a.msb = false) : aluAbs ⟨a, b, d, fl⟩ = ⟨some a, ⟨false, decide (a = 0), false, false⟩⟩ := by
  simp only [aluAbs, h, if_false, Bool.false_eq_true]
  rw [sumOut_noCarry]
  simp [h, overflows_toInt, a.isLt]

/-- The last bit out of a shift or a rotation goes to C; a count of 0 leaves C. -/
theorem AluIn.shifted_eq (x : AluIn) (r : DWord) (out : Nat) :
    x.shifted r out =
      ⟨some r, { x.fl with n := r.msb, z := decide (r = 0), c := if x.count = 0 then x.fl.c else bit x.a out }⟩ := by
  simp only [AluIn.shifted, Flags.shift, Flags.nz]
  split <;> rfl

theorem aluMul_eq (x : AluIn) :
    aluMul x = x.put (BitVec.ofNat 64 (x.a.toNat % 2 ^ 32 * (x.b.toNat % 2 ^ 32))) := by
  rw [aluMul, BitVec.toNat_setWidth, BitVec.toNat_setWidth]

theorem aluAddsu_eq {r : DWord} (hr : r = if 2 ^ 64 ≤ a.toNat + b.toNat then 0xFFFFFFFFFFFFFFFF#64 else a + b) :
    aluAddsu ⟨a, b, d, fl⟩ =
      ⟨some r, ⟨r.msb, decide (r = 0), decide (2 ^ 64 ≤ a.toNat + b.toNat), overflows (a.toInt + b.toInt)⟩⟩ := by
  subst hr
  simp [aluAddsu, Flags.of, addCV, b2n]

theorem aluSubsu_eq {r : DWord} (hr : r = if a.toNat < b.toNat then 0#64 else a - b) :
    aluSubsu ⟨a, b, d, fl⟩ =
      ⟨some r, ⟨r.msb, decide (r = 0), decide (b.toNat ≤ a.toNat), overflows (a.toInt - b.toInt)⟩⟩ := by
  subst hr
  simp [aluSubsu, Flags.of, subCV, b2n]

/-! ### Field specifications (R63) -/

theorem AluIn.field_eq (x : AluIn) :
    x.field = x.a.toNat / 2 ^ (x.b.toNat % 64) % 2 ^ min (x.b.toNat / 64 % 64 + 1) (64 - x.b.toNat % 64) := by
  rw [AluIn.field, Nat.shiftRight_eq_div_pow]
  rfl

theorem AluIn.fieldMask_eq (x : AluIn) :
    x.fieldMask =
      BitVec.ofNat 64 ((2 ^ min (x.b.toNat / 64 % 64 + 1) (64 - x.b.toNat % 64) - 1) * 2 ^ (x.b.toNat % 64)) := by
  rw [AluIn.fieldMask, Nat.shiftLeft_eq]
  rfl

/-! ### Reserved operations -/

theorem aluOf_of_reserved {n : Nat} (h : 0x30 ≤ n) : aluOf n = none := by
  obtain ⟨k, rfl⟩ := Nat.exists_eq_add_of_le' h
  rfl

end

/-! ### From the operation to the command -/

variable {s : State} {c : CtxId} {f : AluForm} {a b d r : DWord} {fl : Flags} {op : AluIn → AluOut}

theorem State.AluOn.aluIn (h : s.AluOn c f a b d) : (s.ctx c).aluIn f = ⟨a, b, d, (s.ctx c).flags⟩ := by
  obtain ⟨-, rfl, rfl, rfl⟩ := h
  rfl

/-- An operation with a result writes it to its destination, with its flags. -/
theorem State.alu_of_result (h : s.AluOn c f a b d) (hop : op ⟨a, b, d, (s.ctx c).flags⟩ = ⟨some r, fl⟩) :
    s.alu c op f = s.aluDone c f.dst r fl := by
  rw [State.alu_of_live h.1, h.aluIn, hop]
  rfl

/-- An operation without a result writes its flags alone. -/
theorem State.alu_of_test (h : s.AluOn c f a b d) (hop : op ⟨a, b, d, (s.ctx c).flags⟩ = ⟨none, fl⟩) :
    s.alu c op f = s.flagsDone c fl := by
  rw [State.alu_of_live h.1, h.aluIn, hop]
  rfl

theorem exec_of_result {i : Instr} (hi : exec i s = .next (s.alu c op f)) (h : s.AluOn c f a b d)
    (hop : op ⟨a, b, d, (s.ctx c).flags⟩ = ⟨some r, fl⟩) : exec i s = .next (s.aluDone c f.dst r fl) := by
  rw [hi, State.alu_of_result h hop]

theorem exec_of_test {i : Instr} (hi : exec i s = .next (s.alu c op f)) (h : s.AluOn c f a b d)
    (hop : op ⟨a, b, d, (s.ctx c).flags⟩ = ⟨none, fl⟩) : exec i s = .next (s.flagsDone c fl) := by
  rw [hi, State.alu_of_test h hop]

/-- A context that fetches a word with a reserved operation stops with ILLALU (R46). -/
theorem exec_illalu_of_reserved {n : BitVec 6} (hlive : s.ridgeLive c.ridge = true) (hn : 0x30 ≤ n.toNat)
    (hon : s.spurOn c = true) (hgive : (s.ctx c).giving ≠ some true) (hcommit : (s.ctx c).committing = false)
    (hword : (s.ctx c).atWord = true ∨ ((s.ctx c).st = .halt ∧ (s.ctx c).stepReq = true)) :
    exec (.illalu c n) s =
      .next (s.ctxFault c (s.fetchAddr c.ridge (s.ctx c).pc) { FaultSet.none with illalu := true }) := by
  have hfetch : ((s.ctx c).atWord || (decide ((s.ctx c).st = .halt) && (s.ctx c).stepReq)) = true := by
    simpa using hword
  have hexec : exec (.illalu c n) s = execIllalu c n s := rfl
  rw [hexec, execIllalu, State.byCtx_of_live hlive]
  simp only [aluOf_of_reserved hn, hon, hgive, hcommit, hfetch, Option.isNone_none, ne_eq, not_false_eq_true,
    decide_true, Bool.not_false, Bool.and_self, if_true]

/-- Settles O10: the commands by the shape of their operation. Most operations are their table entry; sums, shifts and
fields need their lemmas above. -/
theorem aluOperationsWriteTheirResult : Obligations.AluOperationsWriteTheirResult := by
  refine ⟨?nop, ?mov, ?movh, ?add, ?adc, ?sub, ?sbc, ?cmp, ?cmn, ?neg, ?absNeg, ?absPos, ?and, ?or, ?xor, ?andn, ?orn,
    ?not, ?tst, ?shl, ?shr, ?sar, ?rol, ?ror, ?min, ?max, ?minu, ?maxu, ?mul, ?muls, ?addsu, ?subsu, ?bfx, ?bfxs, ?bfi,
    ?bfc, ?popc, ?clz, ?ctz, ?bswap, ?sxt, ?zxt, ?crc, ?crcb, ?gfmul, ?gfmac, ?selz, ?selc, ?tstb, ?reserved⟩
  case nop | tst | tstb =>
    intro s c f a b d h
    exact exec_of_test rfl h rfl
  case mov | movh | adc | and | or | xor | andn | orn | not | min | max | minu | maxu | muls | popc | clz | ctz | bswap |
      sxt | zxt | crc | crcb | gfmul | gfmac | selz | selc =>
    intro s c f a b d h
    exact exec_of_result rfl h rfl
  case add => exact fun s c f a b d h => exec_of_result rfl h (sumOut_noCarry a b)
  case sub => exact fun s c f a b d h => exec_of_result rfl h (diffOut_noBorrow a b)
  case sbc => exact fun s c f a b d h => exec_of_result rfl h (aluSbc_eq a b d _)
  case cmp => exact fun s c f a b d h => exec_of_test rfl h (aluCmp_eq a b d _)
  case cmn => exact fun s c f a b d h => exec_of_test rfl h (aluCmn_eq a b d _)
  case neg => exact fun s c f a b d h => exec_of_result rfl h (aluNeg_eq a b d _)
  case absNeg => exact fun s c f a b d h hneg => exec_of_result rfl h (aluAbs_of_neg a b d _ hneg)
  case absPos => exact fun s c f a b d h hpos => exec_of_result rfl h (aluAbs_of_pos a b d _ hpos)
  case shl | shr | sar | rol | ror =>
    intro s c f a b d h
    exact exec_of_result rfl h (AluIn.shifted_eq _ _ _)
  case mul => exact fun s c f a b d h => exec_of_result rfl h (aluMul_eq _)
  case addsu => exact fun s c f a b d h => exec_of_result rfl h (aluAddsu_eq a b d _ rfl)
  case subsu => exact fun s c f a b d h => exec_of_result rfl h (aluSubsu_eq a b d _ rfl)
  case bfx => exact fun s c f a b d h => exec_of_result rfl h (by rw [aluBfx, AluIn.field_eq]; rfl)
  case bfxs => exact fun s c f a b d h => exec_of_result rfl h (by rw [aluBfxs, AluIn.field_eq]; rfl)
  case bfi => exact fun s c f a b d h => exec_of_result rfl h (by rw [aluBfi, AluIn.fieldMask_eq]; rfl)
  case bfc => exact fun s c f a b d h => exec_of_result rfl h (by rw [aluBfc, AluIn.fieldMask_eq]; rfl)
  case reserved =>
    intro s c n hlive hn hon hgive hcommit hword
    exact exec_illalu_of_reserved hlive hn hon hgive hcommit hword

end Sys2Proof.Machine
end

section
/-!
PROOFS. A word that is due (R53 to R59): the command runs it, the sequencer gives its successor (Table 3.2), and a COMMIT
records the context with the successor (R35, R56).
-/
namespace Sys2Proof.Machine

variable {s s1 s2 : State} {c : CtxId} {w : MicroWord} {ce : Bool} {x : Ctx} {got : Option DWord} {pc : CsAddr}

/-! ### The command of a due word -/

theorem State.seqRow_of_seq {seq : Nat → Bool} (h : seq (wSeq w) = true) :
    s.seqRow c w ce seq = if s.canIssue c w && (s.ctx c).atWord then s.issue c w ce else s := by
  simp only [State.seqRow, h, Bool.true_and]

/-- The command of a word issues it, whatever its SEQ encoding. -/
theorem exec_wordCommand :
    exec (wordCommand c w ce) s = .next (if s.canIssue c w && (s.ctx c).atWord then s.issue c w ce else s) := by
  unfold wordCommand
  split
  case h_13 => exact congrArg Host.Outcome.next (State.seqRow_of_seq (decide_eq_true (by grind)))
  all_goals exact congrArg Host.Outcome.next (State.seqRow_of_seq (beq_iff_eq.mpr ‹_›))

theorem State.issue_of_due {q : Nat} (h : s.WordDue c w ce q) : s.issue c w ce = (s.afterFetch c ce).runWord c w := by
  obtain ⟨-, -, -, hfault, hstall⟩ := h
  simp only [State.afterFetch] at hfault hstall
  simp only [State.issue, State.afterFetch, hfault, hstall, Bool.false_eq_true, if_false]

theorem exec_wordCommand_of_due {q : Nat} (h : s.WordDue c w ce q) :
    exec (wordCommand c w ce) s = .next ((s.afterFetch c ce).runWord c w) := by
  have hrun := State.issue_of_due h
  obtain ⟨-, hissue, hword, -⟩ := h
  simp only [exec_wordCommand, hissue, hword, Bool.and_self, if_true, hrun]

/-! ### A COMMIT in a context that gives nothing away -/

/-- The context with its snapshot taken (R35). -/
def Ctx.committed (x : Ctx) (restart : CsAddr) (rclass : BitVec 2) : Ctx :=
  { x with snap := some (x.snapAt restart rclass), csn := x.csn + 1, segWarned := false, hold := false }

theorem mateOf_ne (c : CtxId) : mateOf c ≠ c := by
  obtain ⟨r, sp, n⟩ := c
  intro h
  have hr : r.peer = r := congrArg CtxId.ridge h
  revert hr
  cases r <;> decide

/-- A snapshot sent to the peer counts as unacknowledged, and the context is otherwise as it was (R42). -/
theorem State.sendSnap_ctx : ∃ n, (s.sendSnap c).ctx c = { s.ctx c with unacked := n } := by
  unfold State.sendSnap
  split
  · exact ⟨(s.ctx c).unacked, rfl⟩
  · split
    · exact ⟨(s.ctx c).unacked + 1, (State.modCtx_ctx_other _ _ (mateOf_ne c).symm).trans (State.modCtx_ctx_self ..)⟩
    · exact ⟨(s.ctx c).unacked, rfl⟩

theorem State.commit_ctx (hgive : (s.ctx c).giving = none) (restart : CsAddr) (rclass : BitVec 2) :
    ∃ n, (s.commit c restart rclass).ctx c = { (s.ctx c).committed restart rclass with unacked := n } := by
  obtain ⟨n, hn⟩ := State.sendSnap_ctx (s := s.modCtx c (fun x => x.committed restart rclass)) (c := c)
  rw [State.modCtx_ctx_self] at hn
  have hkeep : ¬ (((s.modCtx c (fun x => x.committed restart rclass)).sendSnap c).ctx c).giving = some false := by
    rw [hn]
    exact fun h => nomatch hgive.symm.trans h
  refine ⟨n, ?_⟩
  rw [← hn]
  exact congrArg (State.ctx · c) (if_neg hkeep)

/-- A COMMIT that waits for no data is taken at once (R37). -/
theorem State.wordCommit_ctx_of_commit (hgive : (s.ctx c).giving = none) (hcom : wCommit w = true) (restart : CsAddr) :
    ∃ n, (s.wordCommit c w none pc restart).ctx c = { (s.ctx c).committed restart (wClass w) with unacked := n } := by
  simp only [State.wordCommit, hcom, if_true]
  exact State.commit_ctx hgive restart (wClass w)

/-- `y` holds the snapshot of `x` with the restart address, and goes on with the stack and the loop counter of `x`. -/
structure Ctx.Records (x : Ctx) (w : MicroWord) (restart : CsAddr) (y : Ctx) : Prop where
  snap : y.snap = some (x.snapAt restart (wClass w))
  csn : y.csn = x.csn + 1
  stack : y.stack = x.stack
  lcnt : y.lcnt = x.lcnt

/-- Two contexts agree in address, return stack and loop counter, which the sequencer sets. -/
structure Ctx.SameSeq (x y : Ctx) : Prop where
  pc : y.pc = x.pc
  stack : y.stack = x.stack
  lcnt : y.lcnt = x.lcnt

/-- The COMMIT of a word, taken or waiting for data, leaves the sequencer's outcome. -/
theorem State.wordCommit_sameSeq (hgive : (s.ctx c).giving = none) (restart : CsAddr) :
    (s.ctx c).SameSeq ((s.wordCommit c w got pc restart).ctx c) := by
  cases got with
  | some v =>
    simp only [State.wordCommit, State.modCtx_ctx_self]
    exact ⟨rfl, rfl, rfl⟩
  | none =>
    cases hcom : wCommit w with
    | true =>
      obtain ⟨n, hn⟩ := State.wordCommit_ctx_of_commit (pc := pc) hgive hcom restart
      rw [hn]
      exact ⟨rfl, rfl, rfl⟩
    | false =>
      simp only [State.wordCommit, hcom, Bool.false_eq_true, if_false]
      exact ⟨rfl, rfl, rfl⟩

/-! ### The end of a word -/

/-- HOLD and MSEL of the word are set (R71, R72). -/
def Ctx.holdSet (x : Ctx) (w : MicroWord) : Ctx :=
  { x with hold := x.hold || wHold w, mset := if wMsel w then wSet w else x.mset }

/-- A word ends: a STOP that it wrote itself takes effect. -/
def Ctx.wordEnds (x : Ctx) (w : MicroWord) : Ctx :=
  if (x.holdSet w).stopReq && !(x.holdSet w).committing then (x.holdSet w).halted else x.holdSet w

@[simp] theorem State.modPins_ctx (f : Pins → Pins) : (s.modPins f).ctx c = s.ctx c := rfl

theorem State.wordEnd_ctx : (s.wordEnd c w pc).ctx c = (s.ctx c).wordEnds w := by
  have hend : s.wordEnd c w pc =
      if wTag w = 0 then s.modCtx c (·.wordEnds w)
      else (s.modCtx c (·.wordEnds w)).modPins (fun p => { p with traceRec := some (c, wTag w, pc) }) := rfl
  rw [hend]
  split <;> simp only [State.modPins_ctx, State.modCtx_ctx_self]

@[simp] theorem Ctx.wordEnds_pc : (x.wordEnds w).pc = x.pc := by
  unfold Ctx.wordEnds
  split <;> rfl

@[simp] theorem Ctx.wordEnds_stack : (x.wordEnds w).stack = x.stack := by
  unfold Ctx.wordEnds
  split <;> rfl

@[simp] theorem Ctx.wordEnds_lcnt : (x.wordEnds w).lcnt = x.lcnt := by
  unfold Ctx.wordEnds
  split <;> rfl

@[simp] theorem Ctx.wordEnds_snap : (x.wordEnds w).snap = x.snap := by
  unfold Ctx.wordEnds
  split <;> rfl

@[simp] theorem Ctx.wordEnds_csn : (x.wordEnds w).csn = x.csn := by
  unfold Ctx.wordEnds
  split <;> rfl

theorem Ctx.wordEnds_halt (h : x.st = .halt) : (x.wordEnds w).st = .halt := by
  unfold Ctx.wordEnds
  split
  · rfl
  · exact h

/-! ### The sequencer (Table 3.2) -/

/-- Two contexts agree in what no sequencer step changes and a snapshot or a COMMIT reads. -/
structure Ctx.SameData (x y : Ctx) : Prop where
  regs : y.regs = x.regs
  flags : y.flags = x.flags
  csn : y.csn = x.csn
  giving : y.giving = x.giving

theorem Ctx.poll_sameData (nxt : CsAddr) : x.SameData (x.poll w nxt).ctx := by
  unfold Ctx.poll
  split <;> exact ⟨rfl, rfl, rfl, rfl⟩

theorem State.seqStep_sameData : (s.ctx c).SameData (s.seqStep c w x pc).ctx := by
  simp only [State.seqStep]
  split
  case h_3 => split <;> exact ⟨rfl, rfl, rfl, rfl⟩
  case h_6 => exact Ctx.poll_sameData _
  case h_8 => split <;> exact ⟨rfl, rfl, rfl, rfl⟩
  all_goals exact ⟨rfl, rfl, rfl, rfl⟩

theorem State.seqStep_next (h : wSeq w = 0 ∨ wSeq w = 9) : s.seqStep c w x pc = ⟨s.ctx c, pc + 1⟩ := by
  rcases h with h | h <;> simp only [State.seqStep, h]

theorem State.seqStep_jump (h : wSeq w = 1) : s.seqStep c w x pc = ⟨s.ctx c, wTarget w⟩ := by
  simp only [State.seqStep, h]

theorem Ctx.push_of_room (h : x.stack.length < 16) (a : CsAddr) : x.push a = { x with stack := a :: x.stack } := by
  have hfit : (a :: x.stack).length ≤ 16 := h
  rw [Ctx.push, List.take_of_length_le hfit]

theorem State.seqStep_call (h : wSeq w = 2) (hroom : (s.ctx c).stack.length < 16) :
    s.seqStep c w x pc = ⟨{ s.ctx c with stack := (pc + 1) :: (s.ctx c).stack }, wTarget w⟩ := by
  simp only [State.seqStep, h, Ctx.push_of_room hroom]

theorem State.seqStep_ret (h : wSeq w = 3) {a : CsAddr} {rest : List CsAddr} (hstack : (s.ctx c).stack = a :: rest) :
    s.seqStep c w x pc = ⟨({ s.ctx c with stack := rest }).returned rest.length, a⟩ := by
  simp only [State.seqStep, h, hstack]

theorem State.seqStep_brt (h : wSeq w = 4) :
    s.seqStep c w x pc = ⟨s.ctx c, if s.cond c x.flags (wCond w) then wTarget w else pc + 1⟩ := by
  simp only [State.seqStep, h]

theorem State.seqStep_brf (h : wSeq w = 5) :
    s.seqStep c w x pc = ⟨s.ctx c, if s.cond c x.flags (wCond w) then pc + 1 else wTarget w⟩ := by
  simp only [State.seqStep, h]

/-- A POLL that takes a line enters its handler as by a CALL (R30). -/
theorem State.seqStep_poll_taken (h : wSeq w = 7) {n : Nat} (hline : ((s.ctx c).pollView w).deferLine = some n)
    (hroom : (s.ctx c).stack.length < 16) :
    s.seqStep c w x pc =
      ⟨{ s.ctx c with
          stack := (pc + 1) :: (s.ctx c).stack
          deferDepths := (s.ctx c).stack.length :: (s.ctx c).deferDepths }, (s.ctx c).vector n⟩ := by
  simp only [State.seqStep, h, Ctx.poll, hline, Ctx.push_of_room hroom]

theorem State.seqStep_poll_none (h : wSeq w = 7) (hline : ((s.ctx c).pollView w).deferLine = none) :
    s.seqStep c w x pc = ⟨s.ctx c, pc + 1⟩ := by
  simp only [State.seqStep, h, Ctx.poll, hline]

theorem State.seqStep_disp (h : wSeq w = 8) :
    s.seqStep c w x pc = ⟨s.ctx c, wTarget w + BitVec.ofNat 20 (fld (x.rd (wAlu w).a.toNat) 7 0)⟩ := by
  simp only [State.seqStep, h]

theorem State.seqStep_loop_done (h : wSeq w = 11) (hzero : (s.ctx c).lcnt = 0) :
    s.seqStep c w x pc = ⟨s.ctx c, pc + 1⟩ := by
  simp only [State.seqStep, h, hzero, if_true]

theorem State.seqStep_loop_again (h : wSeq w = 11) (hne : (s.ctx c).lcnt ≠ 0) :
    s.seqStep c w x pc = ⟨{ s.ctx c with lcnt := (s.ctx c).lcnt - 1 }, wTarget w⟩ := by
  simp only [State.seqStep, h, hne, if_false]

/-! ### A word runs -/

/-- The successor of a WAIT: the next word, or the WAIT word itself. -/
def State.waitStep (s : State) (c : CtxId) (w : MicroWord) (fl : Flags) (hit : Bool) (pc : CsAddr) : State :=
  if hit then s.modCtx c (fun y => { y with pc := pc + 1 }) else s.startWait c w fl pc (pc + 1)

/-- A WAIT changes the address, the state and the record of the wait alone. -/
theorem State.waitStep_ctx (fl : Flags) (hit : Bool) :
    ∃ q v, (s.waitStep c w fl hit pc).ctx c =
      { s.ctx c with pc := if hit then pc + 1 else pc, st := q, wait := v } := by
  cases hit with
  | true =>
    simp only [State.waitStep, if_true, State.modCtx_ctx_self]
    exact ⟨(s.ctx c).st, (s.ctx c).wait, rfl⟩
  | false =>
    simp only [State.waitStep, State.startWait, Bool.false_eq_true, if_false, State.modCtx_ctx_self]
    split
    · exact ⟨(s.ctx c).st, (s.ctx c).wait, rfl⟩
    · exact ⟨_, _, rfl⟩

/-- The context of a HALT word. -/
def Ctx.haltStep (x : Ctx) (pc : CsAddr) : Ctx :=
  { x with pc := pc + 1, st := .halt, urgentDepth := none, deferDepths := [] }

section
variable (hparts : s1.wordParts c w (s1.ctx c) = (s2, got)) (hlive : s2.ridgeLive c.ridge = true)
  (hpc : pc = s1.fetchAddr c.ridge (s1.ctx c).pc)
include hparts hlive hpc

theorem State.runWord_wait (hseq : wSeq w = 6) :
    s1.runWord c w =
      ((s2.wordCommit c w got pc pc).waitStep c w (s1.ctx c).flags (s2.cond c (s1.ctx c).flags (wCond w)) pc).wordEnd
        c w pc := by
  subst hpc
  simp only [State.runWord, hparts, hlive, hseq, Bool.true_eq_false, if_false, State.waitStep]

theorem State.runWord_halt (hseq : wSeq w = 10) :
    s1.runWord c w = ((s2.wordCommit c w got pc (pc + 1)).modCtx c (·.haltStep pc)).wordEnd c w pc := by
  subst hpc
  simp only [State.runWord, hparts, hlive, hseq, Bool.true_eq_false, if_false, Ctx.haltStep]

theorem State.runWord_seq (hwait : wSeq w ≠ 6) (hhalt : wSeq w ≠ 10) :
    s1.runWord c w =
      ((s2.setCtx c { (s2.seqStep c w (s1.ctx c) pc).ctx with pc := (s2.seqStep c w (s1.ctx c) pc).next }).wordCommit
        c w got pc (s2.seqStep c w (s1.ctx c) pc).next).wordEnd c w pc := by
  subst hpc
  simp only [State.runWord, hparts, hlive, Bool.true_eq_false, if_false]

theorem State.runWord_wait_pc (hseq : wSeq w = 6) :
    ((s1.runWord c w).ctx c).pc = if s2.cond c (s1.ctx c).flags (wCond w) then pc + 1 else pc := by
  rw [State.runWord_wait hparts hlive hpc hseq, State.wordEnd_ctx, Ctx.wordEnds_pc]
  obtain ⟨q, v, hstep⟩ := State.waitStep_ctx (s := s2.wordCommit c w got pc pc) (c := c) (w := w) (pc := pc)
    (s1.ctx c).flags (s2.cond c (s1.ctx c).flags (wCond w))
  rw [hstep]

theorem State.runWord_halt_pc_st (hseq : wSeq w = 10) :
    ((s1.runWord c w).ctx c).pc = pc + 1 ∧ ((s1.runWord c w).ctx c).st = .halt := by
  rw [State.runWord_halt hparts hlive hpc hseq, State.wordEnd_ctx, State.modCtx_ctx_self]
  exact ⟨Ctx.wordEnds_pc, Ctx.wordEnds_halt rfl⟩

variable (hgive : (s2.ctx c).giving = none)
include hgive

/-- Any other word goes on where the sequencer says, with its stack and loop counter. -/
theorem State.runWord_seqStep (hwait : wSeq w ≠ 6) (hhalt : wSeq w ≠ 10) :
    ((s1.runWord c w).ctx c).pc = (s2.seqStep c w (s1.ctx c) pc).next ∧
      ((s1.runWord c w).ctx c).stack = (s2.seqStep c w (s1.ctx c) pc).ctx.stack ∧
      ((s1.runWord c w).ctx c).lcnt = (s2.seqStep c w (s1.ctx c) pc).ctx.lcnt := by
  rw [State.runWord_seq hparts hlive hpc hwait hhalt, State.wordEnd_ctx, Ctx.wordEnds_pc, Ctx.wordEnds_stack,
    Ctx.wordEnds_lcnt]
  generalize ho : s2.seqStep c w (s1.ctx c) pc = o
  have hsame : (s2.ctx c).SameData o.ctx := ho ▸ State.seqStep_sameData
  have hkept := State.wordCommit_sameSeq (s := s2.setCtx c { o.ctx with pc := o.next }) (c := c) (w := w) (got := got)
    (pc := pc) (by rw [State.setCtx_ctx_self]; exact hsame.giving.trans hgive) o.next
  rw [State.setCtx_ctx_self] at hkept
  exact ⟨hkept.pc, hkept.stack, hkept.lcnt⟩

end

/-! ### A committing word that waits for no data (R56) -/

section
variable (hparts : s1.wordParts c w (s1.ctx c) = (s2, none)) (hlive : s2.ridgeLive c.ridge = true)
  (hpc : pc = s1.fetchAddr c.ridge (s1.ctx c).pc) (hgive : (s2.ctx c).giving = none) (hcom : wCommit w = true)
include hparts hlive hpc hgive hcom

/-- The snapshot of a WAIT word restarts at the WAIT itself. -/
theorem State.runWord_wait_commits (hseq : wSeq w = 6) :
    (s2.ctx c).Records w pc ((s1.runWord c w).ctx c) := by
  rw [State.runWord_wait hparts hlive hpc hseq, State.wordEnd_ctx]
  obtain ⟨q, v, hstep⟩ := State.waitStep_ctx (s := s2.wordCommit c w none pc pc) (c := c) (w := w) (pc := pc)
    (s1.ctx c).flags (s2.cond c (s1.ctx c).flags (wCond w))
  obtain ⟨n, hn⟩ := State.wordCommit_ctx_of_commit (pc := pc) hgive hcom pc
  rw [hstep, hn]
  exact ⟨Ctx.wordEnds_snap, Ctx.wordEnds_csn, Ctx.wordEnds_stack, Ctx.wordEnds_lcnt⟩

theorem State.runWord_halt_commits (hseq : wSeq w = 10) :
    (s2.ctx c).Records w (pc + 1) ((s1.runWord c w).ctx c) := by
  rw [State.runWord_halt hparts hlive hpc hseq, State.wordEnd_ctx, State.modCtx_ctx_self]
  obtain ⟨n, hn⟩ := State.wordCommit_ctx_of_commit (pc := pc) hgive hcom (pc + 1)
  rw [hn]
  exact ⟨Ctx.wordEnds_snap, Ctx.wordEnds_csn, Ctx.wordEnds_stack, Ctx.wordEnds_lcnt⟩

/-- Every other word records the sequencer's outcome (log 42). -/
theorem State.runWord_seqStep_commits (hwait : wSeq w ≠ 6) (hhalt : wSeq w ≠ 10) :
    (s2.seqStep c w (s1.ctx c) pc).ctx.Records w (s2.seqStep c w (s1.ctx c) pc).next ((s1.runWord c w).ctx c) := by
  rw [State.runWord_seq hparts hlive hpc hwait hhalt, State.wordEnd_ctx]
  generalize ho : s2.seqStep c w (s1.ctx c) pc = o
  have hsame : (s2.ctx c).SameData o.ctx := ho ▸ State.seqStep_sameData
  obtain ⟨n, hn⟩ := State.wordCommit_ctx_of_commit (s := s2.setCtx c { o.ctx with pc := o.next }) (pc := pc)
    (by rw [State.setCtx_ctx_self]; exact hsame.giving.trans hgive) hcom o.next
  rw [hn, State.setCtx_ctx_self]
  exact ⟨Ctx.wordEnds_snap, Ctx.wordEnds_csn, Ctx.wordEnds_stack, Ctx.wordEnds_lcnt⟩

end

/-- Settles O13: `State.runWord_seqStep` with the equation of each encoding; WAIT and HALT have rules of their own. -/
theorem sequencerChoosesTheSuccessor : Obligations.SequencerChoosesTheSuccessor := by
  rintro s s1 s2 c w ce x y p got hdue - rfl rfl hpc hparts hlive rfl hgive
  have hout := State.runWord_seqStep hparts hlive hpc hgive
  refine ⟨(s.afterFetch c ce).runWord c w, exec_wordCommand_of_due hdue, ?next, ?jump, ?call, ?ret, ?brt, ?brf,
    State.runWord_wait_pc hparts hlive hpc, ?pollTaken, ?pollNone, ?disp,
    State.runWord_halt_pc_st hparts hlive hpc, ?loopDone, ?loopAgain⟩
  case next =>
    intro h
    rw [(hout (by omega) (by omega)).1, State.seqStep_next h]
  case jump =>
    intro h
    rw [(hout (by omega) (by omega)).1, State.seqStep_jump h]
  case call =>
    intro h hroom
    obtain ⟨hnext, hstack, -⟩ := hout (by omega) (by omega)
    rw [hnext, hstack, State.seqStep_call h hroom]
    exact ⟨rfl, rfl⟩
  case ret =>
    intro h a rest htop
    obtain ⟨hnext, hstack, -⟩ := hout (by omega) (by omega)
    rw [hnext, hstack, State.seqStep_ret h htop]
    exact ⟨rfl, rfl⟩
  case brt =>
    intro h
    rw [(hout (by omega) (by omega)).1, State.seqStep_brt h]
  case brf =>
    intro h
    rw [(hout (by omega) (by omega)).1, State.seqStep_brf h]
  case pollTaken =>
    intro h n hline hroom
    obtain ⟨hnext, hstack, -⟩ := hout (by omega) (by omega)
    rw [hnext, hstack, State.seqStep_poll_taken h hline hroom]
    exact ⟨rfl, rfl⟩
  case pollNone =>
    intro h hline
    rw [(hout (by omega) (by omega)).1, State.seqStep_poll_none h hline]
  case disp =>
    intro h
    rw [(hout (by omega) (by omega)).1, State.seqStep_disp h]
  case loopDone =>
    intro h hzero
    rw [(hout (by omega) (by omega)).1, State.seqStep_loop_done h hzero]
  case loopAgain =>
    intro h hne
    obtain ⟨hnext, -, hlcnt⟩ := hout (by omega) (by omega)
    rw [hnext, hlcnt, State.seqStep_loop_again h hne]
    exact ⟨rfl, rfl⟩

/-- Settles O14: by the three shapes of a word, each with its restart address. -/
theorem commitRecordsTheSuccessor : Obligations.CommitRecordsTheSuccessor := by
  rintro s s1 s2 c w ce x y p hdue - rfl rfl hpc hparts hlive rfl hgive hcom
  by_cases hwait : wSeq w = 6
  · obtain ⟨hsnap, hcsn, hstack, hlcnt⟩ := State.runWord_wait_commits hparts hlive hpc hgive hcom hwait
    exact ⟨_, _, exec_wordCommand_of_due hdue, hsnap, hcsn, (if_pos hwait).symm, rfl, rfl, rfl, hstack.symm, hlcnt.symm⟩
  · by_cases hhalt : wSeq w = 10
    · obtain ⟨hsnap, hcsn, hstack, hlcnt⟩ := State.runWord_halt_commits hparts hlive hpc hgive hcom hhalt
      obtain ⟨hnext, -⟩ := State.runWord_halt_pc_st hparts hlive hpc hhalt
      exact ⟨_, _, exec_wordCommand_of_due hdue, hsnap, hcsn, by rw [if_neg hwait, hnext]; rfl, rfl, rfl, rfl,
        hstack.symm, hlcnt.symm⟩
    · obtain ⟨hsnap, hcsn, hstack, hlcnt⟩ := State.runWord_seqStep_commits hparts hlive hpc hgive hcom hwait hhalt
      obtain ⟨hnext, -, -⟩ := State.runWord_seqStep hparts hlive hpc hgive hwait hhalt
      obtain ⟨hregs, hflags, hcsnSame, -⟩ := State.seqStep_sameData (s := s2) (c := c) (w := w)
        (x := (s.afterFetch c ce).ctx c) (pc := p)
      exact ⟨_, _, exec_wordCommand_of_due hdue, hsnap, hcsnSame ▸ hcsn, by rw [if_neg hwait, hnext]; rfl, rfl, hregs,
        hflags, hstack.symm, hlcnt.symm⟩

end Sys2Proof.Machine
end

section
/-!
PROOFS. POST and FLUSH of a stream (R69, R91): a refusal by its line and reason, and the entry of an accepted POST.
-/
namespace Sys2Proof.Machine

variable {s : State} {c : CtxId} {t : Quad}

/-! ### Refused transfers (R67) -/

/-- A refused transfer raises line 2 of its context and gives its reason in P_PERR. -/
theorem State.refuseCtx_shows {port reason : Nat} (hp : port < 256) (hr : reason < 16) :
    bit ((s.refuseCtx c port reason).ctx c).pend 2 = true ∧ fld ((s.refuseCtx c port reason).ctx c).perr 3 0 = reason := by
  rw [State.refuseCtx, State.modCtx_ctx_self]
  exact ⟨bit_setBit_same _ (by decide), perr_reason hp hr⟩

@[simp] theorem State.refuseCtx_tile (port reason : Nat) : (s.refuseCtx c port reason).tile = s.tile := rfl

@[simp] theorem State.freeNext_ctx : s.freeNext.ctx c = s.ctx c := rfl

/-- The port that a refused ANG operation shows is free, its reason is the rule's (log 35). -/
theorem State.refuseAng_shows {reason : Nat} (hr : reason < 16) :
    (s.refuseAng c reason).tile = s.tile ∧ bit ((s.refuseAng c reason).ctx c).pend 2 = true ∧
      fld ((s.refuseAng c reason).ctx c).perr 3 0 = reason :=
  ⟨rfl, State.refuseCtx_shows (s.free 8).isLt hr⟩

/-- An event changes the recorder's part, its registers and the free counter alone. -/
theorem State.event_kept_self (code src : BitVec 16) (ps : List (Nat × Word)) :
    (s.event code src ps).Kept (0x206, s) := State.event_kept (Nat.and_self 0x206) .refl

theorem State.event_core (code src : BitVec 16) (ps : List (Nat × Word)) : (s.event code src ps).core = s.core :=
  (State.event_kept_self code src ps).core (by decide : Nat.testBit 0x206 3 = false)

theorem State.event_tile (code src : BitVec 16) (ps : List (Nat × Word)) : (s.event code src ps).tile = s.tile :=
  (State.event_kept_self code src ps).tile (by decide : Nat.testBit 0x206 5 = false)

@[simp] theorem State.event_ctx (code src : BitVec 16) (ps : List (Nat × Word)) :
    (s.event code src ps).ctx c = s.ctx c := by
  rw [State.ctx, State.event_core, State.ctx]

/-- A refused access to another's tile (R13) shows reason 2; its event leaves tiles and contexts as they were. -/
theorem State.refuseTile_shows {r : Side} {port : Nat} {rom : Bool} (hp : port < 256) :
    (s.refuseTile ⟨r, some c, port, rom⟩ t).tile = s.tile ∧
      bit ((s.refuseTile ⟨r, some c, port, rom⟩ t).ctx c).pend 2 = true ∧
      fld ((s.refuseTile ⟨r, some c, port, rom⟩ t).ctx c).perr 3 0 = 2 := by
  rw [State.refuseTile, State.event_tile, State.event_ctx]
  exact ⟨rfl, State.refuseCtx_shows hp (by decide)⟩

/-! ### POST and FLUSH (R69) -/

theorem exec_post_of_live (h : s.ridgeLive c.ridge = true) : exec (.post c t) s = .next (s.post c t) :=
  congrArg Host.Outcome.next (State.byCtx_of_live h _)

theorem exec_aeqFlush_of_live (h : s.ridgeLive c.ridge = true) : exec (.aeqFlush c t) s = .next (s.flush c t) :=
  congrArg Host.Outcome.next (State.byCtx_of_live h _)

theorem State.aeqAccess_of_owner (hon : s.fabricOn = true) (hown : s.owns c.ridge t = true) (f : State → State) :
    s.aeqAccess c t f = f s := by
  simp [State.aeqAccess, hon, hown]

/-- What a Ridge does to a queue that is not its own is refused before the queue is reached. -/
theorem State.aeqAccess_of_other (hon : s.fabricOn = true) (hown : s.owns c.ridge t = false) (f : State → State) :
    s.aeqAccess c t f = (s.refuseTile ⟨c.ridge, some c, (s.free 8).toNat, false⟩ t).freeNext := by
  simp [State.aeqAccess, hon, hown]

theorem State.aeqAccess_of_other_shows (hon : s.fabricOn = true) (hown : s.owns c.ridge t = false)
    (f : State → State) :
    (s.aeqAccess c t f).tile = s.tile ∧ bit ((s.aeqAccess c t f).ctx c).pend 2 = true ∧
      fld ((s.aeqAccess c t f).ctx c).perr 3 0 = 2 := by
  rw [State.aeqAccess_of_other hon hown]
  exact State.refuseTile_shows (s.free 8).isLt

/-- A full queue refuses a POST; slot b in wedge-servo mode does so for its own reason (R413, log 53). -/
theorem State.post_of_full (hon : s.fabricOn = true) (hown : s.owns c.ridge t = true) (hfull : 256 ≤ (s.tl t).aeq.length) :
    s.post c t = s.refuseAng c (if s.wsc = true ∧ t.slot = .b then 2 else 3) := by
  rw [State.post, State.aeqAccess_of_owner hon hown]
  by_cases hslot : s.wsc = true ∧ t.slot = .b
  · simp only [hslot, and_self, if_true]
  · simp only [hslot, hfull, if_false, if_true]

/-- The entry that a POST appends: the staged stamp and action. -/
def Ctx.stagedEntry (x : Ctx) : AeqEntry := ⟨x.stagedAt 0x20, (x.stagedAt 0x21).setWidth 32⟩

theorem State.post_of_room (hon : s.fabricOn = true) (hown : s.owns c.ridge t = true)
    (hslot : ¬ (s.wsc = true ∧ t.slot = .b)) (hroom : (s.tl t).aeq.length < 256) :
    s.post c t = s.modTile t (fun x => { x with aeq := x.aeq ++ [(s.ctx c).stagedEntry] }) := by
  rw [State.post, State.aeqAccess_of_owner hon hown]
  simp only [hslot, Nat.not_le.mpr hroom, if_false, Ctx.stagedEntry]

theorem State.modTile_tl_self (f : Tile → Tile) : (s.modTile t f).tl t = f (s.tl t) := by
  simp [State.tl, Four.get_set]

theorem State.modTile_tl_other {q : Quad} (h : q ≠ t) (f : Tile → Tile) : (s.modTile t f).tl q = s.tl q := by
  simp [State.tl, Four.get_set, h]

/-- Settles O17: a POST or FLUSH of another's stream and a POST to a full queue are refusals, any other POST appends
`Ctx.stagedEntry`. -/
theorem postAndFlushOfAnotherStreamAreRefused : Obligations.PostAndFlushOfAnotherStreamAreRefused := by
  refine ⟨?otherStream, ?fullQueue, ?appended⟩
  case otherStream =>
    rintro s c t i (rfl | rfl) hlive hon hown
    · exact ⟨_, exec_post_of_live hlive, State.aeqAccess_of_other_shows hon hown _⟩
    · exact ⟨_, exec_aeqFlush_of_live hlive, State.aeqAccess_of_other_shows hon hown _⟩
  case fullQueue =>
    intro s c t hlive hon hown hfull
    refine ⟨_, exec_post_of_live hlive, ?_⟩
    rw [State.post_of_full hon hown hfull]
    exact State.refuseAng_shows (by split <;> decide)
  case appended =>
    intro s c t hlive hon hown hslot hroom
    refine ⟨_, (s.ctx c).stagedEntry, exec_post_of_live hlive, ?_⟩
    rw [State.post_of_room hon hown hslot hroom, State.modTile_tl_self]
    exact ⟨rfl, rfl, rfl, fun q hq => State.modTile_tl_other hq _, rfl⟩

end Sys2Proof.Machine
end

section
/-!
PROOFS. The Angle Event Queue: an entry at the head that is due or that names no action (R88, R89), each action of
Table 4.2, and a FLUSH whose write in progress enters another stream's part of the state (R91, R255).
-/
namespace Sys2Proof.Machine

variable {s : State} {t : Quad} {now : DWord} {e : AeqEntry} {rest : List AeqEntry}

/-! ### The head entry leaves the queue (R92) -/

/-- A line raised at a LOWMARK is in a context; nothing else of the state moves. -/
theorem State.lowMark_only_core (n : Nat) : ∃ core, s.lowMark t n = { s with core := core } := by
  simp only [State.lowMark, State.raiseRoute]
  split
  · exact ⟨s.core, rfl⟩
  · split
    · split
      · exact ⟨_, rfl⟩
      · exact ⟨s.core, rfl⟩
    · exact ⟨s.core, rfl⟩

/-- An entry that leaves moves its queue, the Angle Count that was reached and the contexts alone. -/
theorem State.takeHead_frame :
    ∃ ang core, s.takeHead t now rest = { s.modTile t (fun x => { x with aeq := rest }) with ang := ang, core := core } := by
  obtain ⟨core, hcore⟩ :=
    State.lowMark_only_core (s := (s.reach t now).modTile t (fun x => { x with aeq := rest })) (t := t) (rest.length + 1)
  exact ⟨_, core, hcore⟩

theorem State.takeHead_tile : (s.takeHead t now rest).tile = (s.modTile t (fun x => { x with aeq := rest })).tile := by
  obtain ⟨_, _, htake⟩ := State.takeHead_frame (s := s) (t := t) (now := now) (rest := rest)
  rw [htake]

theorem State.takeHead_tl_self : (s.takeHead t now rest).tl t = { s.tl t with aeq := rest } := by
  rw [State.tl, State.takeHead_tile]
  exact State.modTile_tl_self (fun x => { x with aeq := rest })

theorem State.takeHead_tl_other {q : Quad} (hq : q ≠ t) : (s.takeHead t now rest).tl q = s.tl q := by
  rw [State.tl, State.takeHead_tile]
  exact State.modTile_tl_other hq (fun x => { x with aeq := rest })

theorem State.aeqInt_tl (i : Nat) (q : Quad) : (s.aeqInt t i).tl q = s.tl q := rfl

/-- The bit of ANG_INTSTAT that follows an entry is set at the Ridge that drives the stream, over the registers as they
were. -/
theorem State.aeqInt_takeHead_reg (f : Tile → Tile) (i k : Nat) :
    (((s.takeHead t now rest).modTile t f).aeqInt t i).reg k =
      (s.setReg (rk (s.angSide t) R_ANG_INTSTAT) (setBit (s.reg (rk (s.angSide t) R_ANG_INTSTAT)) i)).reg k := by
  obtain ⟨_, _, htake⟩ := State.takeHead_frame (s := s) (t := t) (now := now) (rest := rest)
  rw [htake]
  rfl

/-! ### Entries that are due (R89) and entries with an unlisted code (R88) -/

/-- A row of Table 4.2 whose code is that of the due head runs its action once the entry has left. -/
theorem State.withHead_of_headDue {n : Nat} (h : s.HeadDue t now n e rest) {code : Nat → Bool} (hcode : code n = true)
    (f : State → BitVec 24 → Int → State) :
    s.withHead t now code f = f (s.takeHead t now rest) (e.action.setWidth 24) (s.lateBy t now e) := by
  obtain ⟨hhead, rfl, hreach, hstamp⟩ := h
  simp only [State.withHead, hhead, hcode, hreach, hstamp, decide_true, Bool.and_self, if_true]
  rfl

theorem exec_aeqIllegalAction_of_unlisted (hhead : (s.tl t).aeq = e :: rest) (hcode : 13 ≤ fld e.action 31 24)
    (hreach : s.canReach (s.angSide t) now = true) :
    exec (.aeqIllegalAction t now) s =
      .next (((s.takeHead t now rest).modTile t (fun x => { x with illact := true })).aeqInt t 5) := by
  change execAeqIllegalAction t now s = _
  simp only [execAeqIllegalAction, hhead, hcode, hreach, decide_true, Bool.and_self, if_true]
  rfl

/-- Settles O19: what the entry leaves behind is `State.takeHead_frame`'s, ILLACT and the bit of ANG_INTSTAT are set on
it. -/
theorem unlistedActionIsDiscarded : Obligations.UnlistedActionIsDiscarded := by
  intro s t now e rest hhead hcode hreach hwf
  refine ⟨_, exec_aeqIllegalAction_of_unlisted hhead hcode hreach, ?self, ?otherStreams, ?bit5, ?otherRegs, ?frame⟩
  case self => rw [State.aeqInt_tl, State.modTile_tl_self, State.takeHead_tl_self]
  case otherStreams =>
    intro q hq
    rw [State.aeqInt_tl, State.modTile_tl_other hq, State.takeHead_tl_other hq]
  case bit5 =>
    rw [State.regB, State.aeqInt_takeHead_reg, State.reg_setReg_same hwf]
    exact bit_setBit_same _ (by decide)
  case otherRegs =>
    intro k hk
    rw [State.aeqInt_takeHead_reg, State.reg_setReg_other hk hwf]
  case frame =>
    obtain ⟨ang, core, htake⟩ := State.takeHead_frame (s := s) (t := t) (now := now) (rest := rest)
    rw [htake]
    rfl

/-! ### The actions of Table 4.2 -/

/-- The effect of a window's open action on a read in progress whose gate is open (R128). -/
theorem exec_aeqSyncOpen_of_read {smps : List Smp} {s1 s2 : State} {x : Sector} (hdue : s.HeadDue t now 8 e rest)
    (hs1 : s1 = s.takeHead t now rest) (hlate : ¬ ((s1.lateMax t : Int) < s.lateBy t now e))
    (hs2 : s2 = (s1.countLate t (s.lateBy t now e)).takeSmps t smps) (hsec : (s2.tl t).sector = some x)
    (hrg : (s2.tl t).rg = true) (hread : x.isWrite = false) (hopen : x.gateOpen = true) :
    exec (.aeqSyncOpen t now smps) s = .next ((s2.closeWin t x.run.smps.length).modTile t (fun y =>
      { y with win := some (s2.newWin t (!s2.wsc && bit (e.action.setWidth 24 : BitVec 24) 0) x.run.smps.length) })) := by
  change Host.Outcome.next (State.withHead ..) = _
  rw [State.withHead_of_headDue hdue rfl]
  subst hs1
  simp only [hlate, if_false, ← hs2, hsec, hrg, hread, hopen, Bool.not_false, Bool.and_self, if_true]

/-- Settles O36: each row is `State.withHead_of_headDue` at its code, the opened window and the unlisted code apart. -/
theorem angleEventActionsComplete : Obligations.AngleEventActionsComplete := by
  refine ⟨?nop, ?wgOn, ?wgOff, ?rdOn, ?rdOff, ?asPre, ?asOn, ?asOff, ?syncOpen, ?syncClose, ?hsw, ?gsamp, ?asLvl, ?illegal⟩
  case syncOpen =>
    intro s t now smps e rest s1 s2 x hdue hs1 hlate hs2 hsec hrg hread hopen
    exact exec_aeqSyncOpen_of_read hdue hs1 hlate hs2 hsec hrg hread hopen
  case syncClose =>
    rintro s t now smps tail e rest s2 hdue rfl
    exact congrArg Host.Outcome.next (State.withHead_of_headDue hdue rfl _)
  case illegal =>
    intro s t now e rest hhead hcode hreach
    exact exec_aeqIllegalAction_of_unlisted hhead hcode hreach
  case wgOn | rdOn =>
    intro s t now e rest hdue
    rw [← BitVec.setWidth_setWidth_of_le e.action (show 16 ≤ 24 by decide)]
    exact congrArg Host.Outcome.next (State.withHead_of_headDue hdue rfl _)
  case rdOff | gsamp =>
    intro s t now signal e rest hdue
    exact congrArg Host.Outcome.next (State.withHead_of_headDue hdue rfl _)
  case nop | wgOff | asPre | asOn | asOff | hsw | asLvl =>
    intro s t now e rest hdue
    exact congrArg Host.Outcome.next (State.withHead_of_headDue hdue rfl _)

/-! ### A FLUSH cuts a write in progress (R91) -/

/-- A write of one fragment whose gate is open and of which no codeword bit has been sent. -/
def openWrite : Sector :=
  { isWrite := true, tag := 1, frags := 1, frag := 1, gateOpen := true, pos := 0, done := false, record := none,
    syncMiss := 0, offs := ⟨0, 0, 0, 0⟩, erased := false, skips := 0, src := [], crcGen := false, seed := none, past := []
    run := { rise := 0, smps := [], start := none, pauses := [], frozen := [], seen := [] } }

/-- Head 0 of an actuator, bound and confirmed for writing. -/
def writeBound : SlotRec := { mode := 2, head := 0, bound := true, sinceStart := true, ack := some (2, 0) }

/-- Ridge A in service with unit A and every domain ON; slot b of actuator A writes with head 0. -/
def slotBWrites : State :=
  { State.reset with
    core := State.reset.core.set .a { State.reset.core.a with st := .inService }
    rcp := { State.reset.rcp with doms := (List.range 100).map (fun k => (k, { Dom.default with st := .on })) }
    rlg := { State.reset.rlg with unit := State.reset.rlg.unit.set .a (some .a) }
    link := State.reset.link.set .a
      { State.reset.link.a with slots := State.reset.link.a.slots.set .b writeBound }
    tile := State.reset.tile.set .q1 { State.reset.tile.q1 with wg := true, sector := some openWrite } }

/-- The log of an actuator's writes (R255) stands with the stream of its slot a; a write of slot b enters it there. -/
theorem flushAeq_slotBWrites_wrLog :
    sg [] (slotBWrites.tl .q0).wrLog 0 = [] ∧ sg [] ((slotBWrites.flushAeq .q1).tl .q0).wrLog 0 = [none] := by
  decide +kernel

/-- Refutes O18: the FLUSH of stream A1 ends the write at hand, which enters the write log of actuator A; that log is a
part of stream A0. -/
theorem not_flushEmptiesTheQueue : ¬ Obligations.FlushEmptiesTheQueue := by
  intro h
  have hlive : slotBWrites.ridgeLive .a = true := rfl
  have hon : slotBWrites.fabricOn = true := rfl
  have hown : slotBWrites.owns .a .q1 = true := rfl
  obtain ⟨u, hexec, -, -, -, -, -, -, -, hother⟩ := h slotBWrites ⟨.a, .h, .q0⟩ .q1 hlive hon hown
  rw [exec_aeqFlush_of_live hlive, State.flush, State.aeqAccess_of_owner hon hown] at hexec
  obtain rfl : slotBWrites.flushAeq .q1 = u := Host.Outcome.next.inj hexec
  obtain ⟨hbefore, hafter⟩ := flushAeq_slotBWrites_wrLog
  rw [hother .q0 (by decide), hbefore] at hafter
  cases hafter

end Sys2Proof.Machine
end

section
/-!
PROOFS. The scrambler of R106: it gives one bit for each codeword bit, so XOR with its output undoes itself bit by bit.
-/
namespace Sys2Proof.Machine

/-! ### One scrambler bit for each codeword bit -/

@[simp] theorem length_lfsrBits (n : Nat) (r : BitVec 16) : (lfsrBits n r).length = n := by
  induction n generalizing r with
  | zero => rfl
  | succ n ih => simp [lfsrBits, ih]

@[simp] theorem length_scrBits (seed : Option (BitVec 16)) (n : Nat) : (scrBits seed n).length = n := by
  cases seed with
  | none => exact List.length_replicate
  | some v => exact length_lfsrBits n _

@[simp] theorem length_scramble (seed : Option (BitVec 16)) (l : List Bool) : (scramble seed l).length = l.length := by
  simp [scramble]

theorem getElem_scramble {seed : Option (BitVec 16)} {l : List Bool} {i : Nat} (h : i < (scramble seed l).length) :
    (scramble seed l)[i] = (l[i]'(by simpa using h) != (scrBits seed l.length)[i]'(by simpa using h)) :=
  List.getElem_zipWith

/-! ### The round trip (R106) -/

/-- Settles O32: both passes XOR position `i` with the same scrambler bit, since the scrambled list is as long as the
list it came from. -/
theorem scramblingTwiceGivesTheBitsBack : Obligations.ScramblingTwiceGivesTheBitsBack := by
  intro seed l
  refine List.ext_getElem (by simp) fun i _ hi => ?_
  have hsame : scrBits seed (scramble seed l).length = scrBits seed l.length := by rw [length_scramble]
  simp only [getElem_scramble, hsame]
  exact Bool.bne_self_right _ _

end Sys2Proof.Machine
end

section
/-!
PROOFS. The Media Tag of a payload (R119 to R121, R251): its fields lie one after the other behind the body, each read
back as it was written, so a check passes exactly for the reference and the write generation of the tag.
-/
namespace Sys2Proof.Machine

/-! ### Little-endian bytes -/

@[simp] theorem length_bytesLE {n : Nat} (k : Nat) (w : BitVec n) : (bytesLE k w).length = k := by
  simp [bytesLE]

theorem bytesLE_succ {n : Nat} (k : Nat) (w : BitVec n) :
    bytesLE (k + 1) w = BitVec.ofNat 8 w.toNat :: bytesLE k (w >>> 8) := by
  simp [bytesLE, List.range_succ_eq_map, Nat.mul_add, Nat.shiftRight_add, Nat.add_comm]

theorem ofBytesLE_bytesLE {n : Nat} (k : Nat) (w : BitVec n) : ofBytesLE (bytesLE k w) = w.toNat % 256 ^ k := by
  induction k generalizing w with
  | zero => simp [bytesLE, ofBytesLE, Nat.mod_one]
  | succ k ih =>
    rw [bytesLE_succ, ofBytesLE, ih, pow_succ', Nat.mod_mul, BitVec.toNat_ofNat, BitVec.toNat_ushiftRight,
      Nat.shiftRight_eq_div_pow]

/-- Enough bytes give the word back. -/
theorem ofBytesLE_bytesLE_of_le {n k : Nat} (h : n ≤ 8 * k) (w : BitVec n) : ofBytesLE (bytesLE k w) = w.toNat := by
  rw [ofBytesLE_bytesLE]
  refine Nat.mod_eq_of_lt (w.isLt.trans_le ?_)
  calc 2 ^ n ≤ 2 ^ (8 * k) := Nat.pow_le_pow_right (by decide) h
    _ = 256 ^ k := Nat.pow_mul 2 8 k

/-! ### The layout of Table 6.2 -/

/-- The 4,124 bytes under the CRC: the body, the reference and the write generation. -/
def underCrc (body : List Byte) (ref : DWord) (wgen : Word) : List Byte := body ++ bytesLE 8 ref ++ bytesLE 4 wgen

section
variable {body : List Byte} (hbody : body.length = 4112) (ref : DWord) (wgen : Word)
include hbody

theorem length_underCrc : (underCrc body ref wgen).length = 4124 := by
  simp [underCrc, hbody]

theorem withTag_eq_append :
    withTag body ref wgen = underCrc body ref wgen ++ bytesLE 4 (crc32c (underCrc body ref wgen)) := by
  have htake : (underCrc body ref wgen).take 4124 = underCrc body ref wgen :=
    List.take_of_length_le (length_underCrc hbody ref wgen).le
  rw [withTag, ← underCrc, htake, withCrc, htake]

theorem length_withTag : (withTag body ref wgen).length = 4128 := by
  rw [withTag_eq_append hbody, List.length_append, length_underCrc hbody, length_bytesLE]

theorem take_body_withTag : (withTag body ref wgen).take 4112 = body := by
  rw [withTag_eq_append hbody, underCrc, List.append_assoc, List.append_assoc, List.take_left' hbody]

/-! ### Each field is read back as it was written -/

theorem tagRef_withTag : tagRef (withTag body ref wgen) = ref := by
  have hfield : ((withTag body ref wgen).drop 4112).take 8 = bytesLE 8 ref := by
    rw [withTag_eq_append hbody, underCrc, List.append_assoc, List.append_assoc, List.drop_left' hbody,
      List.take_left' (length_bytesLE 8 ref)]
  rw [tagRef, hfield, ofBytesLE_bytesLE_of_le (by decide), BitVec.ofNat_toNat, BitVec.setWidth_eq]

theorem tagWgen_withTag : tagWgen (withTag body ref wgen) = wgen.toNat := by
  have hbefore : (body ++ bytesLE 8 ref).length = 4120 := by simp [hbody]
  have hfield : ((withTag body ref wgen).drop 4120).take 4 = bytesLE 4 wgen := by
    rw [withTag_eq_append hbody, underCrc, List.append_assoc, List.drop_left' hbefore,
      List.take_left' (length_bytesLE 4 wgen)]
  rw [tagWgen, hfield, ofBytesLE_bytesLE_of_le (by decide)]

theorem tagCrcOk_withTag : tagCrcOk (withTag body ref wgen) = true := by
  have hlen := length_underCrc hbody ref wgen
  have hcrc : ((withTag body ref wgen).drop 4124).take 4 = bytesLE 4 (crc32c (underCrc body ref wgen)) := by
    rw [withTag_eq_append hbody, List.drop_left' hlen, List.take_of_length_le (length_bytesLE 4 _).le]
  have hunder : (withTag body ref wgen).take 4124 = underCrc body ref wgen := by
    rw [withTag_eq_append hbody, List.take_left' hlen]
  rw [tagCrcOk, hcrc, hunder, ofBytesLE_bytesLE_of_le (by decide)]
  exact decide_eq_true rfl

/-! ### The check (R251) -/

/-- The CRC holds by itself, so only the reference and the write generation decide. -/
theorem tagPass_withTag_iff (href : fld ref 63 44 = 0) (r : DWord) (g : Nat) :
    tagPass (some r) g (withTag body ref wgen) = true ↔ r = ref ∧ g = wgen.toNat := by
  simp only [tagPass, tagCrcOk_withTag hbody, tagWgen_withTag hbody, tagRef_withTag hbody, refOk, href, decide_true,
    Bool.true_and, Bool.and_eq_true, decide_eq_true_iff]
  exact ⟨fun ⟨hg, hr⟩ => ⟨hr.symm, hg.symm⟩, fun ⟨hr, hg⟩ => ⟨hg.symm, hr.symm⟩⟩

end

/-- Settles O33: the fields of the written tag are those of the check, and a check with another reference or another
write generation differs from it in one of the two. -/
theorem aWrittenMediaTagPassesItsCheck : Obligations.AWrittenMediaTagPassesItsCheck := by
  intro body ref wgen hbody href
  refine ⟨length_withTag hbody ref wgen, take_body_withTag hbody ref wgen,
    (tagPass_withTag_iff hbody ref wgen href ref _).mpr ⟨rfl, rfl⟩, fun other g hne => ?_⟩
  rw [Bool.eq_false_iff, ne_eq, tagPass_withTag_iff hbody ref wgen href]
  exact not_and_or.mpr hne

end Sys2Proof.Machine
end

section
/-!
PROOFS. A refused write of P_ZTB_UPDATE (R250): the word is recorded in ZTB_LASTREF, ZTB_INTSTAT shows it, and its context
is told, while the Zone Table stays as it was.
-/
namespace Sys2Proof.Machine

variable {s : State} {c : CtxId} {w : DWord}

/-! ### What a refused update word does -/

/-- P_PERR of a refused transfer gives the port beside the reason of `State.refuseCtx_shows`. -/
theorem State.refuseCtx_port {port reason : Nat} (hp : port < 256) (hr : reason < 16) :
    fld ((s.refuseCtx c port reason).ctx c).perr 39 32 = port := by
  rw [State.refuseCtx, State.modCtx_ctx_self]
  exact perr_port hp hr

theorem State.regB_setStat_same {k i : Nat} (hi : i < 32) (h : swf regInit s.regs = true) :
    (s.setStat k i).regB k i = true := by
  rw [State.regB, State.setStat, State.modReg, State.reg_setReg_same h]
  exact bit_setBit_same _ hi

/-- What a refused write of P_ZTB_UPDATE does, for any word `r` that ZTB_LASTREF records of it. -/
def State.ztbRefusal (s : State) (c : CtxId) (r : Word) : State :=
  ((s.modZtb (fun z => { z with lastRef := r })).ztbInt 1).refuseCtx c 0xC9 5

theorem State.ztbUpdate_of_refused (hup : s.ztbUp = true) (href : ztbApply (s.zent (fld w 16 0)) w = none) :
    s.ztbUpdate c w = s.ztbRefusal c (ztbRef w) := by
  simp only [State.ztbUpdate, hup, href, Bool.true_eq_false, if_false, State.ztbRefusal]

section
variable (r : Word)

@[simp] theorem State.ztbRefusal_ztb : (s.ztbRefusal c r).ztb = { s.ztb with lastRef := r } := rfl

theorem State.ztbRefusal_frame :
    s.ztbRefusal c r =
      { s with core := (s.ztbRefusal c r).core, regs := (s.ztbRefusal c r).regs, ztb := { s.ztb with lastRef := r } } := rfl

theorem State.ztbRefusal_intstat (h : swf regInit s.regs = true) : (s.ztbRefusal c r).regB R_ZTB_INTSTAT 1 = true :=
  State.regB_setStat_same (s := s.modZtb (fun z => { z with lastRef := r })) (by decide) h

/-- The context's line 2 is pending, and P_PERR gives the port of P_ZTB_UPDATE with reason 5. -/
theorem State.ztbRefusal_ctx :
    bit ((s.ztbRefusal c r).ctx c).pend 2 = true ∧ fld ((s.ztbRefusal c r).ctx c).perr 39 32 = 0xC9 ∧
      fld ((s.ztbRefusal c r).ctx c).perr 3 0 = 5 := by
  obtain ⟨hline, hreason⟩ := State.refuseCtx_shows (s := (s.modZtb (fun z => { z with lastRef := r })).ztbInt 1) (c := c)
    (show 0xC9 < 256 by decide) (show 5 < 16 by decide)
  exact ⟨hline, State.refuseCtx_port (by decide) (by decide), hreason⟩

end

/-! ### The commands of Table 11.7 -/

theorem exec_ztbUpdateRefused_of_unlisted (hlive : s.ridgeLive c.ridge = true) (hcode : fld w 63 60 = 0 ∨ 7 < fld w 63 60) :
    exec (.ztbUpdateRefused c w) s = .next (s.ztbUpdate c w) := by
  have hnot : ¬(1 ≤ fld w 63 60 ∧ fld w 63 60 ≤ 7) := by omega
  calc exec (.ztbUpdateRefused c w) s
    _ = .next (if 1 ≤ fld w 63 60 ∧ fld w 63 60 ≤ 7 then s else s.ztbUpdate c w) :=
      congrArg Host.Outcome.next (State.byCtx_of_live hlive _)
    _ = .next (s.ztbUpdate c w) := by rw [if_neg hnot]

/-- Settles O28: each of the eight commands writes its word `v` to P_ZTB_UPDATE, and a refused word touches ZTB_LASTREF,
ZTB_INTSTAT and the context alone. -/
theorem refusedZoneUpdateChangesNoEntry : Obligations.RefusedZoneUpdateChangesNoEntry := by
  intro s c w v i hcmd hlive hup hwf href
  have hwrite : exec i s = .next (s.ztbUpdate c v) := by
    obtain ⟨rfl, rfl, hcode⟩ | ⟨rfl, rfl⟩ | ⟨rfl, rfl⟩ | ⟨rfl, rfl⟩ | ⟨rfl, rfl⟩ | ⟨rfl, rfl⟩ | ⟨rfl, rfl⟩ | ⟨rfl, rfl⟩ :=
      hcmd
    · exact exec_ztbUpdateRefused_of_unlisted hlive hcode
    all_goals exact congrArg Host.Outcome.next (State.byCtx_of_live hlive _)
  rw [State.ztbUpdate_of_refused hup href] at hwrite
  obtain ⟨hline, hport, hreason⟩ := State.ztbRefusal_ctx (s := s) (c := c) (ztbRef v)
  refine ⟨_, hwrite, ?entries, ?lastRef, State.ztbRefusal_intstat _ hwf, hline, hport, hreason, ?frame⟩
  case entries => rw [State.ztbRefusal_ztb]
  case lastRef => rw [State.ztbRefusal_ztb, ztbRef]
  case frame =>
    rw [State.ztbRefusal_ztb]
    exact State.ztbRefusal_frame _

end Sys2Proof.Machine
end

section
/-!
PROOFS. The fetch of a command (R310, R311): the command is admitted with the next ASN, line 10 follows an Admin command,
and the bits of NVE_INTSTAT that tell of the limit are set on the state after the admission.
-/
namespace Sys2Proof.Machine

variable {s : State} {n : Nat} {x : Sq} {sqe : Sqe}

/-! ### What a fetch is made of -/

/-- The admitted command: in a free context, with the next ASN and the host of its controller. -/
def State.admitted (s : State) (n : Nat) (x : Sq) (sqe : Sqe) : Cmd :=
  Cmd.new s.freeCmd s.nve.asn n x.qid sqe (s.ctrl n).hostId

/-- The entry leaves its queue, the command enters its context and the ASN rises. -/
def State.enterCmd (s : State) (n : Nat) (x : Sq) (sqe : Sqe) : State :=
  ((s.traffic (portOf n)).modCtrl n
    (fun k => (k.modSq x.qid (fun y => { y with head := (y.head + 1) % y.size })).took x.qid)).modNve
    (fun v => { v with
      cmds := v.cmds ++ [s.admitted n x sqe], asn := v.asn + 1, highCtx := max v.highCtx (v.cmds.length + 1) })

/-- NVE_INTSTAT shows that the limit is within 2^20 of the next ASN, and that it is reached. -/
def State.asnNotice (s : State) : State :=
  let s := if s.nve.limit ≤ s.nve.asn + 2 ^ 20 then s.nveInt 0 else s
  if s.asnStop then s.nveInt 1 else s

theorem State.fetch_eq :
    s.fetch n x sqe =
      (if x.qid = 0 then (s.enterCmd n x sqe).hostqLine else s.enterCmd n x sqe).asnNotice := rfl

theorem State.nveInt_ite_kept {p : Nat × State} {P : Prop} [Decidable P] {i : Nat} (hm : Sub 0x4 p) (h : s.Kept p) :
    (if P then s.nveInt i else s).Kept p := by
  split
  · exact State.nveInt_kept hm h
  · exact h

/-- The notice of the limit changes registers alone. -/
theorem State.asnNotice_kept_self : s.asnNotice.Kept (0x4, s) :=
  have hm : Sub 0x4 (0x4, s) := Nat.and_self 0x4
  State.nveInt_ite_kept hm (State.nveInt_ite_kept hm .refl)

theorem State.asnNotice_nve : s.asnNotice.nve = s.nve :=
  State.asnNotice_kept_self.nve (by decide : Nat.testBit 0x4 24 = false)

theorem State.asnNotice_core : s.asnNotice.core = s.core :=
  State.asnNotice_kept_self.core (by decide : Nat.testBit 0x4 3 = false)

theorem State.hostqLine_nve : s.hostqLine.nve = s.nve :=
  (State.hostqLine_kept (Nat.and_self 0x8) .refl : s.hostqLine.Kept (0x8, s)).nve
    (by decide : Nat.testBit 0x8 24 = false)

/-! ### What a fetch changes and what it leaves -/

/-- Neither line 10 nor the notice touches what the NVE holds after the admission. -/
theorem State.fetch_nve : (s.fetch n x sqe).nve = (s.enterCmd n x sqe).nve := by
  rw [State.fetch_eq, State.asnNotice_nve]
  split
  · exact State.hostqLine_nve
  · rfl

theorem State.fetch_asn : (s.fetch n x sqe).nve.asn = s.nve.asn + 1 := by
  rw [State.fetch_nve]
  rfl

theorem State.fetch_cmds : (s.fetch n x sqe).nve.cmds = s.nve.cmds ++ [s.admitted n x sqe] := by
  rw [State.fetch_nve]
  rfl

/-- A fetch changes registers, contexts, the NVE and the host ports alone. -/
theorem State.fetch_kept_self : (s.fetch n x sqe).Kept (0x500000C, s) :=
  State.fetch_kept (Nat.and_self 0x500000C) .refl

theorem State.fetch_dram : (s.fetch n x sqe).dram = s.dram :=
  State.fetch_kept_self.dram (by decide : Nat.testBit 0x500000C 14 = false)

theorem State.fetch_tile : (s.fetch n x sqe).tile = s.tile :=
  State.fetch_kept_self.tile (by decide : Nat.testBit 0x500000C 5 = false)

/-- Line 10 is for Admin commands (log 110): the fetch of an I/O command leaves every context as it was. -/
theorem State.fetch_core_of_io (hio : x.qid ≠ 0) : (s.fetch n x sqe).core = s.core := by
  rw [State.fetch_eq, State.asnNotice_core, if_neg hio]
  rfl

/-! ### The command -/

theorem Ctrl.qid_of_sqOf {c : Ctrl} {q : Nat} (h : c.sqOf q = some x) : x.qid = q :=
  eq_of_beq (List.find?_some (p := fun y : Sq => y.qid == q) h)

theorem exec_commandFetch_of_due {q : Nat} (hq : (s.ctrl n).sqOf q = some x) (hon : s.fetchOn q sqe.opc = true)
    (hen : (s.ctrl n).en = true) (hrdy : (s.ctrl n).rdy = true) (hserve : (s.ctrl n).mayServe x = true)
    (hturn : s.inTurn (s.ctrl n) x = true) (hasn : s.asnStop = false) :
    exec (.commandFetch n q sqe) s = .next (s.fetch n x sqe) := by
  change execCommandFetch n q sqe s = _
  simp only [execCommandFetch, hq, hon, hen, hrdy, hserve, hturn, hasn, Bool.and_self, if_true, Bool.false_eq_true,
    if_false]

/-- Settles O30: the fetch appends `State.admitted`, whose ASN is the one that stood before it. -/
theorem fetchStampsTheNextAdmissionNumber : Obligations.FetchStampsTheNextAdmissionNumber := by
  intro s n q sqe x hq hon hen hrdy hserve hturn hasn
  have hio : q ≠ 0 → x.qid ≠ 0 := fun h => (Ctrl.qid_of_sqOf hq).trans_ne h
  exact ⟨_, s.admitted n x sqe, exec_commandFetch_of_due hq hon hen hrdy hserve hturn hasn, State.fetch_asn,
    State.fetch_cmds, rfl, rfl, rfl, State.fetch_dram, State.fetch_tile, fun h => State.fetch_core_of_io (hio h)⟩

end Sys2Proof.Machine
end

section
/-!
PROOFS. A fence (R353, R355, R356, R363): the state of a Ridge is apart from its contexts, so what ends sectors, drops
gates and raises lines leaves it as it is, and a fence is the stage that names the state between stages that keep it.
-/
namespace Sys2Proof.Machine

variable {s : State}

/-! ### The state of a Ridge is apart from its contexts -/

/-- What writes no context leaves the Ridges as they are. -/
theorem State.ridgeSt_of_kept {m : Nat} {t : State} (hm : m.testBit 3 = false) (h : Sub m (m, s) → t.Kept (m, s))
    (x : Side) : t.ridgeSt x = s.ridgeSt x := by
  rw [State.ridgeSt, (h (Nat.and_self m)).core hm, State.ridgeSt]

theorem State.foldl_ridgeSt {α : Type} {f : State → α → State} {x : Side}
    (hf : ∀ s a, (f s a).ridgeSt x = s.ridgeSt x) (l : List α) : (l.foldl f s).ridgeSt x = s.ridgeSt x := by
  induction l generalizing s with
  | nil => rfl
  | cons a l ih => rw [List.foldl_cons, ih, hf]

section
variable (x : Side) (t : Quad)

theorem State.setRidge_ridgeSt (r : Side) (st : RidgeState) :
    (s.setRidge r st).ridgeSt x = if x = r then st else s.ridgeSt x := by
  simp only [State.setRidge, State.ridgeSt, State.modCore_core, Two.get_set]
  split
  · rfl
  · rfl

@[simp] theorem State.setReg_ridgeSt (k : Nat) (v : Word) : (s.setReg k v).ridgeSt x = s.ridgeSt x := rfl

@[simp] theorem State.modTile_ridgeSt (f : Tile → Tile) : (s.modTile t f).ridgeSt x = s.ridgeSt x := rfl

@[simp] theorem State.modRlg_ridgeSt (f : Ledger → Ledger) : (s.modRlg f).ridgeSt x = s.ridgeSt x := rfl

@[simp] theorem State.freeBy_ridgeSt (n : Nat) : (s.freeBy n).ridgeSt x = s.ridgeSt x := rfl

@[simp] theorem State.bump_ridgeSt (k hi lo n : Nat) : (s.bump k hi lo n).ridgeSt x = s.ridgeSt x := rfl

@[simp] theorem State.event_ridgeSt (code src : BitVec 16) (ps : List (Nat × Word)) :
    (s.event code src ps).ridgeSt x = s.ridgeSt x := by
  rw [State.ridgeSt, State.event_core, State.ridgeSt]

@[simp] theorem State.raiseRoute_ridgeSt (r : Side) (spur ctx n : Nat) :
    (s.raiseRoute r spur ctx n).ridgeSt x = s.ridgeSt x := by
  unfold State.raiseRoute
  split
  · exact State.modCtx_ridgeSt _ _ _ _
  · rfl

@[simp] theorem State.modCtxs_ridgeSt (cs : List CtxId) (f : Ctx → Ctx) : (s.modCtxs cs f).ridgeSt x = s.ridgeSt x :=
  State.foldl_ridgeSt (fun s _ => s.modCtx_ridgeSt _ f x) cs

/-! ### The end of a sector -/

@[simp] theorem State.enterStatus_ridgeSt (w : DWord) : (s.enterStatus t w).ridgeSt x = s.ridgeSt x := by
  simp only [State.enterStatus]
  repeat' split
  all_goals simp

@[simp] theorem State.drainStatus_ridgeSt (l : List (Nat × Option DWord)) :
    (s.drainStatus t l).ridgeSt x = s.ridgeSt x := by
  induction l generalizing s with
  | nil => rfl
  | cons p l ih =>
    obtain ⟨n, _ | w⟩ := p
    · rfl
    · rw [State.drainStatus, ih, State.enterStatus_ridgeSt]

@[simp] theorem State.endStatus_ridgeSt (n : Nat) (w : Option DWord) : (s.endStatus t n w).ridgeSt x = s.ridgeSt x :=
  State.drainStatus_ridgeSt x t _

@[simp] theorem State.postStatus_ridgeSt (w : DWord) : (s.postStatus t w).ridgeSt x = s.ridgeSt x :=
  State.endStatus_ridgeSt x t 16 _

@[simp] theorem State.endWrite_ridgeSt (y : Sector) (out : SecOut) : (s.endWrite t y out).ridgeSt x = s.ridgeSt x := by
  rw [State.endWrite, State.postStatus_ridgeSt, State.modTile_ridgeSt]
  exact State.ridgeSt_of_kept (m := 0x20) (by decide) (fun hm => State.logWrite_kept hm .refl) x

@[simp] theorem State.toDecode_ridgeSt (y : Sector) (out : SecOut) (n : Nat) :
    (s.toDecode t y out n).ridgeSt x = s.ridgeSt x := by
  simp only [State.toDecode]
  split
  · exact State.endStatus_ridgeSt x t _ _
  · exact State.postStatus_ridgeSt x t _

@[simp] theorem State.endRead_ridgeSt (y : Sector) (out : SecOut) : (s.endRead t y out).ridgeSt x = s.ridgeSt x := by
  simp only [State.endRead]
  split
  · exact State.postStatus_ridgeSt x t _
  · exact State.toDecode_ridgeSt x t _ _ _

/-! ### A gate that falls -/

@[simp] theorem State.sendData_ridgeSt : (s.sendData t).ridgeSt x = s.ridgeSt x :=
  State.ridgeSt_of_kept (m := 0x22) (by decide) (fun hm => State.sendData_kept hm .refl) x

@[simp] theorem State.settleSkew_ridgeSt : (s.settleSkew t).ridgeSt x = s.ridgeSt x :=
  State.ridgeSt_of_kept (m := 0x10) (by decide) (fun hm => State.settleSkew_kept hm .refl) x

@[simp] theorem State.closeWin_ridgeSt (n : Nat) : (s.closeWin t n).ridgeSt x = s.ridgeSt x :=
  State.ridgeSt_of_kept (m := 0x24) (by decide) (fun hm => State.closeWin_kept hm .refl) x

@[simp] theorem State.takeFrag_ridgeSt (y : Sector) : (s.takeFrag t y).1.ridgeSt x = s.ridgeSt x :=
  State.ridgeSt_of_kept (m := 0x24) (by decide) (fun hm => State.takeFrag_kept hm .refl) x

@[simp] theorem State.putSector_ridgeSt (y : Sector) : (s.putSector t y).ridgeSt x = s.ridgeSt x := rfl

@[simp] theorem State.dropWg_ridgeSt : (s.dropWg t).ridgeSt x = s.ridgeSt x :=
  State.ridgeSt_of_kept (m := 0x34) (by decide) (fun hm => State.dropWg_kept hm .refl) x

@[simp] theorem State.dropRg_ridgeSt : (s.dropRg t).ridgeSt x = s.ridgeSt x :=
  State.ridgeSt_of_kept (m := 0x30) (by decide) (fun hm => State.dropRg_kept hm .refl) x

@[simp] theorem State.lowMark_ridgeSt (n : Nat) : (s.lowMark t n).ridgeSt x = s.ridgeSt x := by
  simp only [State.lowMark]
  split
  · rfl
  · split
    · exact State.raiseRoute_ridgeSt x _ _ _ _
    · rfl

@[simp] theorem State.cutRead_ridgeSt (y : Sector) : (s.cutRead t y).ridgeSt x = s.ridgeSt x := by
  simp only [State.cutRead]
  repeat' split
  all_goals simp

@[simp] theorem State.cutGate_ridgeSt : (s.cutGate t).ridgeSt x = s.ridgeSt x := by
  simp only [State.cutGate]
  repeat' split
  all_goals simp

@[simp] theorem State.forceLow_ridgeSt (once : Bool) : (s.forceLow t once).ridgeSt x = s.ridgeSt x := by
  simp only [State.forceLow]
  repeat' split
  all_goals simp

@[simp] theorem State.flushAeq_ridgeSt : (s.flushAeq t).ridgeSt x = s.ridgeSt x := by
  simp only [State.flushAeq, State.lowMark_ridgeSt, State.modTile_ridgeSt, State.dropRg_ridgeSt, State.dropWg_ridgeSt,
    State.cutGate_ridgeSt]

/-! ### The stages of a fence -/

@[simp] theorem State.crnLose_ridgeSt (r : Side) : (s.crnLose r).ridgeSt x = s.ridgeSt x :=
  State.ridgeSt_of_kept (m := 0x400206) (by decide) (fun hm => State.crnLose_kept hm .refl) x

@[simp] theorem State.calFence_ridgeSt (r : Side) : (s.calFence r).ridgeSt x = s.ridgeSt x :=
  State.ridgeSt_of_kept (m := 0x30024) (by decide) (fun hm => State.calFence_kept hm .refl) x

@[simp] theorem State.dropSwitch_ridgeSt : s.dropSwitch.ridgeSt x = s.ridgeSt x :=
  State.modCtxs_ridgeSt x _ _

@[simp] theorem State.safeStop_ridgeSt : s.safeStop.ridgeSt x = s.ridgeSt x := by
  rw [State.safeStop, State.event_ridgeSt]
  exact State.foldl_ridgeSt (fun s t => by rw [State.flushAeq_ridgeSt, State.forceLow_ridgeSt]) Quad.all

theorem State.safeStop_rlg : s.safeStop.rlg = s.rlg :=
  (State.safeStop_kept (Nat.and_self 0x427E) .refl : s.safeStop.Kept (0x427E, s)).rlg (by decide : Nat.testBit 0x427E 8 = false)

end

/-- The fence is recorded (R353): its cause in RLG_FENCE and RST_CAUSE, event 0x0010, and the state of the Ridge. -/
def State.markFenced (s : State) (r : Side) (cause : Nat) : State :=
  let s := s.setReg R_RLG_FENCE (BitVec.ofNat 32 (2 ^ 31 + r.idx * 2 ^ 24 + cause * 2 ^ 16 + s.fenceCount))
  (((s.rlgInt 0).event 0x0010 (srcBlock R_RLG_ID) []).fenceCause r cause).setRidge r .fenced

/-- What a fenced Ridge gives up (R355): the gates of its streams, its Cairn bank, its calibrations and a switch in
progress, and with cause 3 its Saddle half. -/
def State.giveUp (s : State) (r : Side) (cause : Nat) : State :=
  let s := Quad.all.foldl (fun (s : State) t => if s.owns r t then s.forceLow t true else s) s
  let s := (s.crnLose r).calFence r
  let s := s.dropSwitch.modCtxs (ridgeCtxs r.peer) Ctx.unmirror
  if cause = 3 then s.fenceHalf r else s

/-- What follows for the peer (R356, R363): its takeover is due, or the last Ridge in service stops safely. -/
def State.peerFollows (s : State) (r : Side) (was : RidgeState) : State :=
  if was ≠ .inService then s
  else if s.ridgeSt r.peer = .inService then s.modRlg (fun g => { g with tkDue := some r })
  else s.safeStop

variable {r : Side} {cause : Nat}

theorem State.fence_of_live (hlive : s.ridgeLive r = true) :
    s.fence r cause = ((s.markFenced r cause).giveUp r cause).peerFollows r (s.ridgeSt r) :=
  if_neg ((Bool.not_eq_false _).mpr hlive)

theorem State.fenceCause_ridgeSt (x : Side) : (s.fenceCause r cause).ridgeSt x = s.ridgeSt x :=
  State.ridgeSt_of_kept (m := 0x4) (by decide) (fun hm => State.fenceCause_kept hm .refl) x

theorem State.rlgInt_ridgeSt (i : Nat) (x : Side) : (s.rlgInt i).ridgeSt x = s.ridgeSt x := rfl

theorem State.markFenced_ridgeSt (x : Side) :
    (s.markFenced r cause).ridgeSt x = if x = r then .fenced else s.ridgeSt x := by
  rw [State.markFenced, State.setRidge_ridgeSt, State.fenceCause_ridgeSt, State.event_ridgeSt, State.rlgInt_ridgeSt,
    State.setReg_ridgeSt]

theorem State.giveUp_ridgeSt (x : Side) : (s.giveUp r cause).ridgeSt x = s.ridgeSt x := by
  have hforce (s : State) (t : Quad) : (if s.owns r t then s.forceLow t true else s).ridgeSt x = s.ridgeSt x := by
    split
    · exact State.forceLow_ridgeSt x t true
    · rfl
  have hhalf (s : State) : (if cause = 3 then s.fenceHalf r else s).ridgeSt x = s.ridgeSt x := by
    split
    · rfl
    · rfl
  rw [State.giveUp, hhalf, State.modCtxs_ridgeSt, State.dropSwitch_ridgeSt, State.calFence_ridgeSt,
    State.crnLose_ridgeSt, State.foldl_ridgeSt hforce]

theorem State.giveUp_sfence (hcause : cause = 3) : (s.giveUp r cause).rlg.sfence = some r := by
  rw [State.giveUp, if_pos hcause]
  rfl

theorem State.peerFollows_ridgeSt (was : RidgeState) (x : Side) : (s.peerFollows r was).ridgeSt x = s.ridgeSt x := by
  unfold State.peerFollows
  repeat' split
  all_goals simp

theorem State.peerFollows_sfence (was : RidgeState) : (s.peerFollows r was).rlg.sfence = s.rlg.sfence := by
  unfold State.peerFollows
  split
  · rfl
  · split
    · rfl
    · rw [State.safeStop_rlg]

theorem State.peerFollows_tkDue (hpeer : s.ridgeSt r.peer = .inService) :
    (s.peerFollows r .inService).rlg.tkDue = some r := by
  rw [State.peerFollows, if_neg (not_not_intro rfl), if_pos hpeer]
  rfl

theorem peer_ne (r : Side) : r.peer ≠ r := by
  cases r <;> decide

theorem exec_fence_of_holds (h : s.fenceHolds r cause = true) : exec (.fence r cause) s = .next (s.fence r cause) :=
  congrArg Host.Outcome.next (if_pos h)

/-- Settles O29: the Ridges are those of `State.markFenced`, which the later stages leave as they are. -/
theorem fenceTakesTheRidgeOutOfService : Obligations.FenceTakesTheRidgeOutOfService := by
  intro s r cause hholds hlive
  have hridges (x : Side) : (s.fence r cause).ridgeSt x = if x = r then .fenced else s.ridgeSt x := by
    rw [State.fence_of_live hlive, State.peerFollows_ridgeSt, State.giveUp_ridgeSt, State.markFenced_ridgeSt]
  have hself : (s.fence r cause).ridgeSt r = .fenced := by rw [hridges, if_pos rfl]
  refine ⟨s.fence r cause, exec_fence_of_holds hholds, hself, ?peer, ?dead, ?half, ?due⟩
  case peer => rw [hridges, if_neg (peer_ne r)]
  case dead => simp only [State.ridgeLive, hself, ne_eq, not_true_eq_false, false_and, decide_false]
  case half =>
    intro hcause
    rw [State.fence_of_live hlive, State.peerFollows_sfence, State.giveUp_sfence hcause]
  case due =>
    intro hwas hpeer
    have hpeer' : ((s.markFenced r cause).giveUp r cause).ridgeSt r.peer = .inService := by
      rw [State.giveUp_ridgeSt, State.markFenced_ridgeSt, if_neg (peer_ne r), hpeer]
    rw [State.fence_of_live hlive, hwas, State.peerFollows_tkDue hpeer']

end Sys2Proof.Machine
end

section
/-!
PROOFS. A credit release (R347): a refusal, or a lease that shrinks by the amount and leaves the ledger at 0.
-/
namespace Sys2Proof.Machine

variable {s : State} {c : CtxId} {data : DWord} {l : Lease}

theorem exec_creditRelease_of_live (hlive : s.ridgeLive c.ridge = true) (hup : s.rlgUp = true) :
    exec (.creditRelease c data) s = .next (s.creditRelease c data) :=
  congrArg Host.Outcome.next ((State.byCtx_of_live hlive _).trans (if_pos hup))

theorem State.creditRelease_of_absent (h : s.rlg.leases.find? (fun k => k.num == fld data 47 32) = none) :
    s.creditRelease c data = s.refuseCtx c 0xC2 5 := by
  simp only [State.creditRelease, h]

theorem State.creditRelease_of_refused (h : s.rlg.leases.find? (fun k => k.num == fld data 47 32) = some l)
    (href : l.owner ≠ .ctx c ∨ l.amount < fld data 31 0 ∨ l.isBuffer = true) :
    s.creditRelease c data = s.refuseCtx c 0xC2 5 := by
  simp only [State.creditRelease, h, if_pos href]

theorem State.creditRelease_of_held (h : s.rlg.leases.find? (fun k => k.num == fld data 47 32) = some l)
    (howner : l.owner = .ctx c) (hamount : fld data 31 0 ≤ l.amount) (hbuffer : l.isBuffer = false) :
    s.creditRelease c data = s.leaseDrop l (fld data 31 0) := by
  have htaken : ¬(l.owner ≠ .ctx c ∨ l.amount < fld data 31 0 ∨ l.isBuffer = true) := by
    simp only [howner, hbuffer, ne_eq, not_true_eq_false, Bool.false_eq_true, or_false, false_or, not_lt, hamount]
  simp only [State.creditRelease, h, if_neg htaken]

/-- The units that return or stay in transit are counted elsewhere in the ledger. -/
theorem State.leaseDrop_leases (amount : Nat) :
    (s.leaseDrop l amount).rlg.leases =
      if l.amount - amount = 0 then s.rlg.leases.filter (fun k => k.num != l.num)
      else lmod (fun k => k.num == l.num) (fun k => { k with amount := l.amount - amount }) s.rlg.leases := rfl

theorem State.leaseDrop_frame (amount : Nat) :
    s.leaseDrop l amount = { s with rlg := (s.leaseDrop l amount).rlg } := rfl

/-- A change that the search does not see changes the element that is found. -/
theorem find?_lmod {α : Type} {p : α → Bool} {f : α → α} (hf : ∀ a, p (f a) = p a) (ls : List α) :
    (lmod p f ls).find? p = (ls.find? p).map f := by
  have hseen : p ∘ (fun a => if p a then f a else a) = p := by
    funext a
    rw [Function.comp_apply]
    split
    · exact hf a
    · rfl
  rw [lmod, List.find?_map, hseen]
  cases hfind : ls.find? p with
  | none => rfl
  | some a => simp only [Option.map_some, List.find?_some hfind, if_true]

/-- Settles O27: a release is `State.refuseCtx`, or `State.leaseDrop` of the lease that its number finds. -/
theorem creditsAreReleasedByTheirHolderAlone : Obligations.CreditsAreReleasedByTheirHolderAlone := by
  refine ⟨?absent, ?refused, ?held⟩
  case absent =>
    intro s c data hlive hup hnone
    have hfind : s.rlg.leases.find? (fun k => k.num == fld data 47 32) = none :=
      List.find?_eq_none.mpr (fun l hl => by simpa using hnone l hl)
    rw [exec_creditRelease_of_live hlive hup, State.creditRelease_of_absent hfind]
  case refused =>
    intro s c data l hlive hup hfind href
    rw [exec_creditRelease_of_live hlive hup, State.creditRelease_of_refused hfind href]
  case held =>
    intro s c data l hlive hup hfind howner hamount hbuffer
    have hnum : l.num = fld data 47 32 := eq_of_beq (List.find?_some (p := fun k : Lease => k.num == fld data 47 32) hfind)
    refine ⟨s.leaseDrop l (fld data 31 0), ?next, ?ends, ?shrinks, State.leaseDrop_frame _⟩
    case next => rw [exec_creditRelease_of_live hlive hup, State.creditRelease_of_held hfind howner hamount hbuffer]
    case ends =>
      intro hall k hk
      rw [State.leaseDrop_leases, if_pos (by omega)] at hk
      simpa using (List.mem_filter.mp hk).2
    case shrinks =>
      intro hpart
      have hfind' : s.rlg.leases.find? (fun k => k.num == l.num) = some l := by rw [hnum, hfind]
      rw [State.leaseDrop_leases, if_neg (by omega),
        find?_lmod (f := fun k : Lease => { k with amount := l.amount - fld data 31 0 }) (fun _ => rfl), hfind',
        Option.map_some]

end Sys2Proof.Machine
end

section
/-!
PROOFS. A Ridge that releases no effects (R355): the gate that each command of a context, an accessor or a unit passes is
closed, and a mismatch or a watchdog of such a Ridge shows in RST_CAUSE alone (R397).
-/
namespace Sys2Proof.Machine

variable {s : State} {i : Instr} {c : CtxId} {x : Accessor} {r : Side} {f : State → State}

/-! ### The gates of a dead Ridge, one that is fenced or in reset -/

theorem exec_inert_of_byCtx (hi : exec i s = .next (s.byCtx c f)) (hdead : s.ridgeLive c.ridge = false) :
    exec i s = .next s := by
  rw [hi, State.byCtx, hdead, if_neg Bool.false_ne_true]

theorem exec_inert_of_byRidge (hi : exec i s = .next (s.byRidge r f)) (hdead : s.ridgeLive r = false) :
    exec i s = .next s := by
  rw [hi, State.byRidge, hdead, if_neg Bool.false_ne_true]

theorem State.access_of_dead (hdead : s.ridgeLive x.ridge = false) (key : Nat) (owned : Bool) :
    s.access x key owned f = s := if_pos hdead

theorem exec_inert_of_access {key : Nat} {owned : Bool} (hi : exec i s = .next (s.access x key owned f))
    (hdead : s.ridgeLive x.ridge = false) : exec i s = .next s := by
  rw [hi, State.access_of_dead hdead]

theorem exec_inert_of_tileAccess {t : Quad} (hi : exec i s = .next (s.tileAccess x t f))
    (hdead : s.ridgeLive x.ridge = false) : exec i s = .next s := by
  rw [hi, State.tileAccess, if_pos hdead]

/-- No context of a dead Ridge issues a word. -/
theorem exec_inert_of_seqRow {w : MicroWord} {ce : Bool} {seq : Nat → Bool}
    (hi : exec i s = .next (s.seqRow c w ce seq)) (hdead : s.ridgeLive c.ridge = false) : exec i s = .next s := by
  rw [hi, State.seqRow, State.canIssue, hdead]
  simp only [Bool.false_and, Bool.and_false, Bool.false_eq_true, if_false]

theorem exec_inert_of_guard {g : Bool} {t : State} (hi : exec i s = .next (if g then t else s)) (hg : g = false) :
    exec i s = .next s := by
  rw [hi, hg, if_neg Bool.false_ne_true]

theorem exec_inert_of_liveAnd {g : Bool} {t : State} (hi : exec i s = .next (if s.ridgeLive r && g then t else s))
    (hdead : s.ridgeLive r = false) : exec i s = .next s :=
  exec_inert_of_guard hi (by rw [hdead, Bool.false_and])

theorem State.steOn_of_dead (hdead : s.ridgeLive r = false) : s.steOn r = false := by
  rw [State.steOn, hdead, Bool.and_false]

theorem State.cenUp_of_dead (hdead : s.ridgeLive r = false) : s.cenUp r = false := by
  rw [State.cenUp, hdead, Bool.and_false]

theorem State.passReady_of_dead (hdead : s.ridgeLive r = false) (q : Quad) : s.passReady r q = false := by
  simp only [State.passReady, State.cenUp_of_dead hdead, Bool.false_and]

theorem exec_snapshotReceive_of_dead (hdead : s.ridgeLive c.ridge = false) : exec (.snapshotReceive c) s = .next s :=
  congrArg Host.Outcome.next (if_pos hdead)

/-- Whether the command is listed or not, it is ignored. -/
theorem exec_cryptoCmdIgnored_of_dead (hdead : s.ridgeLive x.ridge = false) (data : Word) :
    exec (.cryptoCmdIgnored x data) s = .next s := by
  change execCryptoCmdIgnored x data s = _
  rw [execCryptoCmdIgnored, State.cryRow, State.access_of_dead hdead, ite_self]

/-! ### A mismatch or a watchdog of a dead Ridge (R397) -/

theorem State.fence_of_dead (hdead : s.ridgeLive r = false) (cause : Nat) : s.fence r cause = s.fenceCause r cause :=
  if_pos hdead

theorem State.fenceCause_only_regs (cause : Nat) : ∃ regs, s.fenceCause r cause = { s with regs := regs } := by
  unfold State.fenceCause
  split
  · exact ⟨_, rfl⟩
  · split
    · exact ⟨_, rfl⟩
    · exact ⟨s.regs, rfl⟩

theorem State.fenceCause_reg_other {k : Nat} (cause : Nat) (hk : k ≠ R_RST_CAUSE) (hwf : swf regInit s.regs = true) :
    (s.fenceCause r cause).reg k = s.reg k := by
  unfold State.fenceCause
  split
  · exact State.reg_setReg_other hk hwf
  · split
    · exact State.reg_setReg_other hk hwf
    · rfl

theorem exec_lockstepMismatch_of_dead (hdead : s.ridgeLive r = false) (sp : SpurId) :
    exec (.lockstepMismatch r sp) s = .next (s.fenceCause r 1) :=
  congrArg Host.Outcome.next (if_pos hdead)

theorem lockstepMismatch_of_dead_shows (hdead : s.ridgeLive r = false) (sp : SpurId) :
    ∃ t, exec (.lockstepMismatch r sp) s = .next t ∧ t = { s with regs := t.regs } ∧
      (∀ k, k ≠ R_RST_CAUSE → swf regInit s.regs = true → t.reg k = s.reg k) := by
  refine ⟨s.fenceCause r 1, exec_lockstepMismatch_of_dead hdead sp, ?_, fun k hk => State.fenceCause_reg_other 1 hk⟩
  obtain ⟨regs, hregs⟩ := State.fenceCause_only_regs (s := s) (r := r) 1
  rw [hregs]

theorem exec_ridgeWatchdog_of_running (hrun : s.ridgeExpired r = false) : exec (.ridgeWatchdog r) s = .next s :=
  congrArg Host.Outcome.next (if_pos hrun)

theorem exec_ridgeWatchdog_of_dead (hdead : s.ridgeLive r = false) (hexp : s.ridgeExpired r = true) :
    exec (.ridgeWatchdog r) s = .next ((s.fenceCause r 4).kickRidge r) := by
  change execRidgeWatchdog r s = _
  rw [execRidgeWatchdog, if_neg ((Bool.not_eq_false _).mpr hexp), if_neg ((Bool.not_eq_true _).mpr hdead),
    State.fence_of_dead hdead]

theorem ridgeWatchdog_of_dead_shows (hdead : s.ridgeLive r = false) :
    ∃ t, exec (.ridgeWatchdog r) s = .next t ∧ t = { s with regs := t.regs, rcp := t.rcp } ∧
      (∀ k, k ≠ R_RST_CAUSE → swf regInit s.regs = true → t.reg k = s.reg k) := by
  cases hexp : s.ridgeExpired r with
  | false => exact ⟨s, exec_ridgeWatchdog_of_running hexp, rfl, fun _ _ _ => rfl⟩
  | true =>
    refine ⟨_, exec_ridgeWatchdog_of_dead hdead hexp, ?_, fun k hk => State.fenceCause_reg_other 4 hk⟩
    obtain ⟨regs, hregs⟩ := State.fenceCause_only_regs (s := s) (r := r) 4
    rw [hregs]
    rfl

/-- Settles O60: the clauses in the order of the statement, each run of them by the gate that its commands pass. -/
theorem aFencedRidgeHasNoEffect : Obligations.AFencedRidgeHasNoEffect := by
  iterate 4 refine ⟨by intros; exact exec_inert_of_access rfl ‹_›, ?_⟩ -- asnWrite to namespaceConfigWrite
  iterate 53 refine ⟨by intros; exact exec_inert_of_byCtx rfl ‹_›, ?_⟩ -- hedgeLookup to illalu
  iterate 4 refine ⟨by intros; exact exec_inert_of_byRidge rfl ‹_›, ?_⟩ -- registerWrite to legacyWindowWrite
  refine ⟨by intros; exact exec_inert_of_byCtx rfl ‹_›, ?_⟩ -- cairnAppend
  iterate 5 refine ⟨by intros; exact exec_inert_of_tileAccess rfl ‹_›, ?_⟩ -- bankSwapRequest to writeEnableWrite
  iterate 2 refine ⟨by intros; exact exec_inert_of_byCtx rfl ‹_›, ?_⟩ -- decoderSubmit, decoderResultPop
  refine ⟨by intros; exact exec_inert_of_tileAccess rfl ‹_›, ?_⟩ -- skipListSelect
  refine ⟨by intros; exact exec_inert_of_byCtx rfl ‹_›, ?_⟩ -- sectorStatusPop
  iterate 3 refine ⟨by intros; exact exec_inert_of_tileAccess rfl ‹_›, ?_⟩ -- descriptorWordWrite to formatterCmdIgnored
  iterate 8 refine ⟨by intros; exact exec_inert_of_access rfl ‹_›, ?_⟩ -- hash to devpub
  refine ⟨fun _ _ data h => exec_cryptoCmdIgnored_of_dead h data, ?_⟩ -- cryptoCmdIgnored
  iterate 7 refine ⟨by intros; exact exec_inert_of_access rfl ‹_›, ?_⟩ -- drbgRead to ledgerCmdIgnored
  iterate 3 refine ⟨by intros; exact exec_inert_of_liveAnd rfl ‹_›, ?_⟩ -- switch to rejoin
  iterate 2 refine ⟨by intros; exact exec_inert_of_access rfl ‹_›, ?_⟩ -- retrain, reequalize
  iterate 4 refine ⟨by intros; exact exec_inert_of_byCtx rfl ‹_›, ?_⟩ -- creditAcquire to creditRelease
  iterate 11 refine ⟨by intros; exact exec_inert_of_access rfl ‹_›, ?_⟩ -- vcCalWindow to currentSenseSpare
  iterate 11 refine ⟨by intros; exact exec_inert_of_byCtx rfl ‹_›, ?_⟩ -- sig0 to waitRelease
  iterate 7 refine ⟨by intros; exact exec_inert_of_access rfl ‹_›, ?_⟩ -- linkStart to pairMapWrite
  refine ⟨by intros; exact exec_inert_of_byCtx rfl ‹_›, ?_⟩ -- eventPost
  iterate 4 refine ⟨by intros; exact exec_inert_of_access rfl ‹_›, ?_⟩ -- evrOtLatch to watchdogKick
  iterate 10 refine ⟨by intros; exact exec_inert_of_byCtx rfl ‹_›, ?_⟩ -- modeRequest to waitCycleBound
  refine ⟨fun _ _ h => exec_snapshotReceive_of_dead h, ?_⟩ -- snapshotReceive
  iterate 5 refine ⟨by intros; exact exec_inert_of_byCtx rfl ‹_›, ?_⟩ -- contextStart to contextCmdReserved
  refine ⟨by intros; exact exec_inert_of_guard rfl ‹_›, ?_⟩ -- debugDataWrite
  iterate 2 refine ⟨by intros; exact exec_inert_of_access rfl ‹_›, ?_⟩ -- loadWordStore, loadAddressWrite
  refine ⟨by intros; exact exec_inert_of_guard rfl ‹_›, ?_⟩ -- matchWrite
  refine ⟨by intros; exact exec_inert_of_byCtx rfl ‹_›, ?_⟩ -- cstPeerRefetch
  refine ⟨by intros; exact exec_inert_of_guard rfl ‹_›, ?_⟩ -- bootlockSet
  iterate 3 refine ⟨by intros; exact exec_inert_of_byCtx rfl ‹_›, ?_⟩ -- stripeBufferAcquire to chunkMove
  refine ⟨fun _ _ h => exec_inert_of_guard rfl (State.steOn_of_dead h), ?_⟩ -- sectorLanding
  iterate 3 refine ⟨by intros; exact exec_inert_of_byCtx rfl ‹_›, ?_⟩ -- reconstructionRequest to scrubResultPop
  iterate 13 refine ⟨by intros; exact exec_inert_of_seqRow rfl ‹_›, ?_⟩ -- next to illseq
  refine ⟨by intros; exact exec_inert_of_byCtx rfl ‹_›, ?_⟩ -- spurStep
  refine ⟨by intros; exact exec_inert_of_access rfl ‹_›, ?_⟩ -- ztbWindowWrite
  iterate 8 refine ⟨by intros; exact exec_inert_of_byCtx rfl ‹_›, ?_⟩ -- ztbState to ztbUpdateRefused
  refine ⟨by intros; exact exec_inert_of_access rfl ‹_›, ?_⟩ -- zoneScan
  refine ⟨by intros; exact exec_inert_of_guard rfl ‹_›, ?_⟩ -- cairnResync
  refine ⟨by intros; exact exec_inert_of_liveAnd rfl ‹_›, ?_⟩ -- skewWrite
  iterate 3 refine ⟨by intros; exact exec_inert_of_guard rfl (State.cenUp_of_dead ‹_›), ?_⟩ -- rampGo to traceForce
  refine ⟨fun _ _ q _ _ h => exec_inert_of_guard rfl (State.passReady_of_dead h q), ?_⟩ -- taskPass
  refine ⟨by intros; exact exec_inert_of_guard rfl (State.cenUp_of_dead ‹_›), ?_⟩ -- nodeSync
  exact ⟨fun _ _ sp h => lockstepMismatch_of_dead_shows h sp, fun _ _ h => ridgeWatchdog_of_dead_shows h⟩

end Sys2Proof.Machine
end

section
/-!
PROOFS. Writes to DRAM (R366 to R368): the bytes of a channel after a write, the line that a partial write reads and
writes back, and what neither of them changes.
-/
namespace Sys2Proof.Machine

variable {s : State} {c d : DramCh} {x : Side} {a b n : Nat} {bs : List Byte} {es : List Flips}

/-! ### The bytes of a channel -/

theorem DramCh.byte_of_bytes (h : c.bytes = d.bytes) (b : Nat) : c.byte b = d.byte b := by
  rw [DramCh.byte, h, DramCh.byte]

theorem DramCh.markWords_bytes (v : Bool) : (c.markWords a n v).bytes = c.bytes :=
  List.foldlRecOn (motive := fun d : DramCh => d.bytes = c.bytes) _ _ rfl (fun _ h _ _ => h)

theorem DramCh.byte_putByte (hc : Memory.wf c = true) (v : Byte) :
    (c.putByte a v).byte b = if b = a then v else c.byte b := by
  have hbytes : swf (kconst 0) c.bytes = true := (Bool.and_eq_true_iff.mp hc).1
  split
  case isTrue h => subst h; exact sg_sp_same hbytes
  case isFalse h => exact sg_sp_other h hbytes

theorem DramCh.byte_putBytes (hc : Memory.wf c = true) :
    (c.putBytes a bs).byte b = if a ≤ b ∧ b < a + bs.length then bs.getD (b - a) 0 else c.byte b := by
  induction bs generalizing c a with
  | nil => exact (if_neg (by simp)).symm
  | cons v t ih =>
    rw [DramCh.putBytes, ih (DramCh.putByte_wf hc), DramCh.byte_putByte hc, List.length_cons]
    obtain hlt | rfl | hgt := Nat.lt_trichotomy b a
    · rw [if_neg (by omega), if_neg (by omega), if_neg (by omega)]
    · rw [if_neg (by omega), if_pos rfl, if_pos (by omega), Nat.sub_self, List.getD_cons_zero]
    · have htail : b - a = b - (a + 1) + 1 := by omega
      rw [htail, List.getD_cons_succ, if_neg (by omega : ¬ b = a)]
      exact if_congr (by omega) rfl rfl

/-- A write stores its bytes and no other; marking the words whole in it touches no byte. -/
theorem DramCh.byte_write (hc : Memory.wf c = true) :
    (c.write a bs).byte b = if a ≤ b ∧ b < a + bs.length then bs.getD (b - a) 0 else c.byte b := by
  rw [DramCh.write, DramCh.byte_of_bytes (DramCh.markWords_bytes false), DramCh.byte_putBytes hc]

theorem DramCh.byte_write_inside (hc : Memory.wf c = true) {i : Nat} (hi : i < bs.length) :
    (c.write a bs).byte (a + i) = bs.getD i 0 := by
  rw [DramCh.byte_write hc, if_pos (by omega), Nat.add_sub_cancel_left]

theorem DramCh.byte_write_outside (hc : Memory.wf c = true) (hb : b < a ∨ a + bs.length ≤ b) :
    (c.write a bs).byte b = c.byte b := by
  rw [DramCh.byte_write hc, if_neg (by omega)]

/-- Writing back a line stores within its 64 bytes: each of its eight words is written or only marked. -/
theorem DramCh.byte_lineWrite_outside (hc : Memory.wf c = true) (ws : List (Lattice × DWord))
    (hb : b < a ∨ a + 64 ≤ b) : (c.lineWrite a ws).byte b = c.byte b := by
  refine (List.foldlRecOn (motive := fun d : DramCh => Memory.wf d = true ∧ d.byte b = c.byte b) _ _ ⟨hc, rfl⟩ ?_).2
  rintro d ⟨hd, hbyte⟩ p hp
  have hword : p.1 < 8 := List.mem_range.mp (List.of_mem_zip hp).1
  split
  · have hout : b < a + 8 * p.1 ∨ a + 8 * p.1 + (bytesLE 8 p.2.2).length ≤ b := by
      rw [length_bytesLE]
      omega
    exact ⟨DramCh.write_wf hd, (DramCh.byte_write_outside hd hout).trans hbyte⟩
  · exact ⟨DramCh.setPoison_wf hd, hbyte⟩

/-! ### The line of a partial write -/

theorem Two.set_get {α : Type} (t : Two α) (x : Side) : t.set x (t.get x) = t := by cases x <;> rfl

theorem Two.get_set_same {α : Type} (t : Two α) (x : Side) (v : α) : (t.set x v).get x = v := by
  rw [Two.get_set, if_pos rfl]

theorem Two.get_set_peer {α : Type} (t : Two α) (x : Side) (v : α) : (t.set x v).get x.peer = t.get x.peer := by
  rw [Two.get_set, if_neg (peer_ne x)]

theorem State.event_dram (code src : BitVec 16) (ps : List (Nat × Word)) : (s.event code src ps).dram = s.dram :=
  (State.event_kept_self code src ps).dram (by decide : Nat.testBit 0x206 14 = false)

/-- The DRAM of the second state is that of the first but for what one channel holds beside its
bytes and its poison. -/
def State.SameDramData (s : State) (x : Side) (t : State) : Prop :=
  ∃ c : DramCh, t.dram = s.dram.set x c ∧ c.bytes = (s.dram.get x).bytes ∧ c.poison = (s.dram.get x).poison

/-- Corrected errors of a channel fill its bucket (R371). -/
theorem State.dramCe_sameDramData (line n : Nat) : s.SameDramData x (s.dramCe x line n) := by
  unfold State.dramCe
  split
  · exact ⟨_, (Two.set_get _ _).symm, rfl, rfl⟩
  · dsimp only
    split
    · exact ⟨_, State.event_dram _ _ _, rfl, rfl⟩
    · exact ⟨_, rfl, rfl, rfl⟩

theorem State.dramUe_dram (line : Nat) : (s.dramUe x line).dram = s.dram := State.event_dram _ _ _

/-- The state in which the errors of a line read as `ws` are counted. -/
def State.lineCounted (s : State) (x : Side) (a : Nat) (ws : List (Lattice × DWord)) : State :=
  let s := s.dramCe x (a / 64) (ws.filter (fun p => decide (p.1 = .corrected))).length
  if ws.any (fun p => decide (p.1 = .uncorrectable)) then s.dramUe x (a / 64) else s

theorem State.lineCounted_sameDramData (ws : List (Lattice × DWord)) : s.SameDramData x (s.lineCounted x a ws) := by
  unfold State.lineCounted
  dsimp only
  split
  · rw [State.SameDramData, State.dramUe_dram]
    exact State.dramCe_sameDramData _ _
  · exact State.dramCe_sameDramData _ _

/-- The state in which a line read as `ws` is repaired from the other channel (R369), or written back corrected or
marked. -/
def State.lineRestored (s : State) (x : Side) (a : Nat) (ws : List (Lattice × DWord)) : State :=
  if ws.any (fun p => decide (p.1 = .uncorrectable ∨ p.1 = .poison)) && s.mirrored a && s.dramOk x.peer a 64 &&
      !(s.dram.get x.peer).anyPoison a 64 then
    (s.modDram x (fun c => c.write a ((s.dram.get x.peer).read a 64))).setStat R_DRC_INTSTAT 2
  else s.modDram x (fun c => c.lineWrite a ws)

theorem State.dramLine_eq :
    s.dramLine x a es false =
      (s.lineCounted x a ((s.dram.get x).lineRead a es)).lineRestored x a ((s.dram.get x).lineRead a es) := rfl

theorem DramCh.length_read : (c.read a n).length = n := by
  rw [DramCh.read, List.length_map, List.length_range]

theorem State.lineRestored_get_peer (ws : List (Lattice × DWord)) :
    (s.lineRestored x a ws).dram.get x.peer = s.dram.get x.peer := by
  unfold State.lineRestored
  split <;> exact Two.get_set_peer _ _ _

theorem State.byte_lineRestored_outside (hc : Memory.wf (s.dram.get x) = true) (ws : List (Lattice × DWord))
    (hb : b < a ∨ a + 64 ≤ b) : ((s.lineRestored x a ws).dram.get x).byte b = (s.dram.get x).byte b := by
  unfold State.lineRestored
  split
  · rw [State.setStat, State.modReg_dram, State.modDram_dram, Two.get_set_same]
    exact DramCh.byte_write_outside hc (DramCh.length_read.symm ▸ hb)
  · rw [State.modDram_dram, Two.get_set_same]
    exact DramCh.byte_lineWrite_outside hc ws hb

/-- The read and correction of a line writes its own channel alone, and that within its 64 bytes. -/
theorem State.dramLine_shows (hs : s.WF) :
    (s.dramLine x a es false).dram.get x.peer = s.dram.get x.peer ∧
      ∀ b, b < a ∨ a + 64 ≤ b → ((s.dramLine x a es false).dram.get x).byte b = (s.dram.get x).byte b := by
  rw [State.dramLine_eq]
  generalize (s.dram.get x).lineRead a es = ws
  obtain ⟨c, hdram, hbytes, hpoison⟩ := State.lineCounted_sameDramData (s := s) (x := x) (a := a) ws
  have hown : (s.lineCounted x a ws).dram.get x = c := by rw [hdram, Two.get_set_same]
  have hc : Memory.wf c = true := DramCh.keep_wf (hs.dram x) hbytes hpoison
  refine ⟨?_, fun b hb => ?_⟩
  · rw [State.lineRestored_get_peer, hdram, Two.get_set_peer]
  · rw [State.byte_lineRestored_outside (hown ▸ hc) _ hb, hown, DramCh.byte_of_bytes hbytes]

theorem State.dramLine_kept_self (stored : Bool) : (s.dramLine x a es stored).Kept (0x4206, s) :=
  State.dramLine_kept (Nat.and_self 0x4206) .refl

/-! ### The two writes -/

theorem State.dramWrite_of_unmirrored (h : s.mirrored a = false) :
    s.dramWrite x a bs = s.modDram x (fun c => c.write a bs) := by
  rw [State.dramWrite, h, if_neg Bool.false_ne_true]

/-- Outside the mirror a write stores its bytes in its own channel and changes nothing else. -/
theorem State.dramWrite_shows (hs : s.WF) (h : s.mirrored a = false) (x : Side) (bs : List Byte) :
    (∀ i, i < bs.length → ((s.dramWrite x a bs).dram.get x).byte (a + i) = bs.getD i 0) ∧
    (∀ b, b < a ∨ a + bs.length ≤ b → ((s.dramWrite x a bs).dram.get x).byte b = (s.dram.get x).byte b) ∧
    (s.dramWrite x a bs).dram.get x.peer = s.dram.get x.peer ∧
    s.dramWrite x a bs = { s with dram := (s.dramWrite x a bs).dram } := by
  rw [State.dramWrite_of_unmirrored h, State.modDram_dram, Two.get_set_same, Two.get_set_peer]
  exact ⟨fun _ => DramCh.byte_write_inside (hs.dram x), fun _ => DramCh.byte_write_outside (hs.dram x), rfl, rfl⟩

theorem exec_dramPartialWrite_of_due {addr : BitVec 48} {data : List Byte} (hdata : data.length ≠ 0)
    (hline : addr.toNat % 64 + data.length ≤ 64) (hok : s.dramOk x addr.toNat data.length = true) :
    exec (.dramPartialWrite x addr data es) s =
      .next ((s.dramLine x (addr.toNat / 64 * 64) es false).dramWrite x addr.toNat data) :=
  congrArg Host.Outcome.next (if_pos ⟨hdata, Nat.lt_succ_of_le hline, hok⟩)

/-- Settles O23: a write outside the mirror is `DramCh.write` of its own channel, and so is the partial write after its
line, whose read and correction stays within the line's 64 bytes. -/
theorem dramWriteStoresItsBytesAlone : Obligations.DramWriteStoresItsBytesAlone := by
  refine ⟨fun s x a bs hs hmir => State.dramWrite_shows hs hmir x bs, ?_⟩
  intro s x addr data es hs hdata hline hok hmir
  have hread : (s.dramLine x (addr.toNat / 64 * 64) es false).WF := by
    rw [State.WF, (State.dramLine_kept_self false).pending (by decide : Nat.testBit 0x4206 0 = false)]
    exact State.dramLine_inv hs
  obtain ⟨hin, hout, hpeer, hframe⟩ := State.dramWrite_shows hread hmir x data
  obtain ⟨hotherLine, houtLine⟩ := State.dramLine_shows (x := x) (a := addr.toNat / 64 * 64) (es := es) hs
  refine ⟨_, exec_dramPartialWrite_of_due hdata hline hok, hin, hout, fun b hb => ?_, ?_, ?_, ?_⟩
  · rw [hout b (by omega), houtLine b (by omega)]
  · rw [hpeer, hotherLine]
  · rw [hframe]
    exact (State.dramLine_kept_self false).core (by decide : Nat.testBit 0x4206 3 = false)
  · rw [hframe]
    exact (State.dramLine_kept_self false).tile (by decide : Nat.testBit 0x4206 5 = false)

end Sys2Proof.Machine
end

section
/-!
PROOFS. The event recorder: who may post the code of a chain event (R380), and the calendar that a write of
EVR_CALSET_HI sets (R377).
-/
namespace Sys2Proof.Machine

variable {s : State} {c : CtxId} {code : BitVec 16} {e : Evr} {g : EvGroup} {rom : Bool}

/-! ### The intake (R379 to R383) -/

theorem Evr.suppress_intake : (e.suppress code).intake = e.intake := rfl

theorem Evr.suppress_cal : (e.suppress code).cal = e.cal := rfl

theorem Evr.takeToken_cal : (e.takeToken code).cal = e.cal := by
  unfold Evr.takeToken
  dsimp only
  split <;> rfl

theorem evExempt_of_chainCode (h : chainCode code.toNat = true) : evExempt code = true := by
  rw [evExempt, show decide (0x0100 ≤ code.toNat ∧ code.toNat ≤ 0x01FF) = true from h, Bool.or_true]

theorem Evr.hasToken_of_exempt (h : evExempt code = true) : e.hasToken code = true := by
  rw [Evr.hasToken, h, Bool.true_or, Bool.true_or]

theorem Evr.takeToken_of_exempt (h : evExempt code = true) : e.takeToken code = e := by
  rw [Evr.takeToken, h, Bool.true_or, if_pos rfl]

/-- A code that needs no token enters an intake with room. -/
theorem State.postGroup_of_exempt (hon : s.regB R_EVR_CTL 0 = true) (hroom : s.evr.used + g.entries ≤ 64)
    (h : evExempt code = true) :
    (s.postGroup code g).1 = s.modEvr (fun e => { e with intake := e.intake ++ [g] }) := by
  simp only [State.postGroup, hon, Nat.not_lt.mpr hroom, Evr.hasToken_of_exempt h, Evr.takeToken_of_exempt h, ite_self,
    Bool.true_eq_false, Bool.not_true, Bool.and_false, Bool.false_eq_true, if_false]
  rfl

/-- Posting a group, taken or not, leaves the running calendar as it is. -/
theorem State.postGroup_cal : (s.postGroup code g).1.evr.cal = s.evr.cal := by
  unfold State.postGroup
  split
  · exact Evr.suppress_cal
  · split
    · exact Evr.suppress_cal
    · split
      · exact Evr.suppress_cal
      · dsimp only [State.modEvr_evr]
        split
        · exact Evr.takeToken_cal
        · rfl

/-! ### Posts of a chain event (R380) -/

theorem exec_eventPost_of_live (h : s.ridgeLive c.ridge = true) :
    exec (.eventPost c rom) s = .next (s.evrPost c rom) :=
  congrArg Host.Outcome.next (State.byCtx_of_live h _)

theorem chainCode_iff {n : Nat} : chainCode n = true ↔ 0x0100 ≤ n ∧ n ≤ 0x01FF := decide_eq_true_iff

/-- A refused transfer changes no part of the recorder and shows its port in P_PERR. -/
theorem State.refuseCtx_evr_port {port reason : Nat} (hp : port < 256) (hr : reason < 16) :
    (s.refuseCtx c port reason).evr = s.evr ∧ fld ((s.refuseCtx c port reason).ctx c).perr 39 32 = port := by
  rw [State.refuseCtx, State.modCtx_ctx_self]
  exact ⟨rfl, perr_port hp hr⟩

/-- The three refusals of a chain event from a word outside ROM: recorder off, posting off, and the code itself. -/
theorem State.evrPost_of_chain_outside_rom (hcode : chainCode (fld ((s.ctx c).stagedAt 0xD5) 15 0) = true) :
    ∃ u : State, s.evrPost c false = u.refuseCtx c 0xD9 5 ∧ u.evr.intake = s.evr.intake := by
  unfold State.evrPost
  dsimp only
  split
  · exact ⟨s, rfl, rfl⟩
  · split
    · exact ⟨_, rfl, Evr.suppress_intake⟩
    · rw [if_pos (.inr (.inl ⟨hcode, rfl⟩))]
      exact ⟨s, rfl, rfl⟩

/-- The code 0x01F0 (SEAL) is set apart: it also needs an open span. -/
theorem State.evrPost_of_chain_from_rom (hup : s.evrUp = true) (hon : s.regB R_EVR_CTL 0 = true)
    (hcode : chainCode (fld ((s.ctx c).stagedAt 0xD5) 15 0) = true)
    (hseal : fld ((s.ctx c).stagedAt 0xD5) 15 0 ≠ 0x01F0) (hfirst : bit ((s.ctx c).stagedAt 0xD5) 19 = false) :
    ∃ cls, s.evrPost c true = s.postFirst c (BitVec.ofNat 16 (fld ((s.ctx c).stagedAt 0xD5) 15 0))
      (fld ((s.ctx c).stagedAt 0xD5) 18 16) cls (s.ctx c).evParams := by
  obtain ⟨-, hhigh⟩ := chainCode_iff.mp hcode
  have hlow : ¬ 0x0800 ≤ fld ((s.ctx c).stagedAt 0xD5) 15 0 := by omega
  unfold State.evrPost
  simp only [hup, hon, hseal, hfirst, hlow, Bool.true_eq_false, Bool.false_eq_true, false_and, and_false, or_self,
    if_false]
  exact ⟨_, rfl⟩

theorem State.dropGroup_of_none (h : s.evr.groupOf c = none) : s.dropGroup c = s := by
  rw [State.dropGroup, h]

/-- The group that the first record of a chain event opens is appended to the intake. -/
theorem State.postFirst_of_chain (hon : s.regB R_EVR_CTL 0 = true) (hgroup : s.evr.groupOf c = none)
    (hcode : chainCode code.toNat = true) {cont : Nat} (hroom : s.evr.used + cont + 1 ≤ 64) (cls : Bool)
    (ps : List Word) :
    s.postFirst c code cont cls ps =
      s.modEvr (fun e => { e with intake := e.intake ++ [⟨[s.evr.mkRec code cls 0 (srcCtx c) ps], cont, some c⟩] }) := by
  have hentries : s.evr.used + EvGroup.entries ⟨[s.evr.mkRec code cls 0 (srcCtx c) ps], cont, some c⟩ ≤ 64 := by
    simp only [EvGroup.entries, List.length_singleton]
    omega
  simp only [State.postFirst, State.dropGroup_of_none hgroup, Nat.not_lt.mpr hroom, decide_false, Bool.and_false,
    Bool.false_eq_true, if_false]
  exact State.postGroup_of_exempt hon hentries (evExempt_of_chainCode hcode)

/-- Settles O25: outside ROM every branch of the post is a refusal, from ROM it is `State.postFirst`, whose group needs
no token. -/
theorem chainEventsComeFromRomWords : Obligations.ChainEventsComeFromRomWords := by
  refine ⟨?outsideRom, ?fromRom⟩
  case outsideRom =>
    intro s c hlive hlow hhigh
    obtain ⟨u, hpost, hintake⟩ := State.evrPost_of_chain_outside_rom (chainCode_iff.mpr ⟨hlow, hhigh⟩)
    obtain ⟨hevr, hport⟩ := State.refuseCtx_evr_port (s := u) (c := c) (port := 0xD9) (reason := 5) (by decide) (by decide)
    obtain ⟨hpend, hreason⟩ := State.refuseCtx_shows (s := u) (c := c) (port := 0xD9) (reason := 5) (by decide) (by decide)
    refine ⟨_, exec_eventPost_of_live hlive, ?_⟩
    rw [hpost]
    exact ⟨(congrArg Evr.intake hevr).trans hintake, hpend, hport, hreason⟩
  case fromRom =>
    intro s c hlive hup hon hgroup hlow hhigh hseal hfirst hroom
    have hcode := chainCode_iff.mpr ⟨hlow, hhigh⟩
    obtain ⟨cls, hpost⟩ := State.evrPost_of_chain_from_rom hup hon hcode hseal hfirst
    have hcode16 : (BitVec.ofNat 16 (fld ((s.ctx c).stagedAt 0xD5) 15 0)).toNat = fld ((s.ctx c).stagedAt 0xD5) 15 0 :=
      Nat.mod_eq_of_lt (fld_lt _ 15 0)
    have hexec := exec_eventPost_of_live (rom := true) hlive
    rw [hpost, State.postFirst_of_chain hon hgroup (hcode16.symm ▸ hcode) hroom] at hexec
    exact ⟨_, _, _, hexec, rfl, rfl, hcode16, rfl, rfl⟩

/-! ### The calendar (R377) -/

theorem exec_calendarSet_of_up (data : Word) (h : s.evrUp = true) :
    exec (.calendarSet data) s = .next (s.calendarSet data) :=
  congrArg Host.Outcome.next (if_pos h)

theorem State.ownRecord_cal (flags : Nat) (ps : List (Nat × Word)) :
    (s.ownRecord code flags ps).evr.cal = s.evr.cal := State.postGroup_cal

/-- The value is in force whichever record the write makes: the first setting, a step, or none. -/
theorem State.calendarSet_cal (data : Word) :
    (s.calendarSet data).evr.cal = some (BitVec.ofNat 64 (fld data 15 0 * 2 ^ 32 + s.evr.calStaged.toNat)) := by
  unfold State.calendarSet
  dsimp only
  split
  · exact State.ownRecord_cal _ _
  · split
    · exact State.ownRecord_cal _ _
    · rfl

theorem State.calendarSet_kept_self (data : Word) : (s.calendarSet data).Kept (0x206, s) :=
  State.calendarSet_kept (Nat.and_self 0x206) .refl

/-- Settles O26: `State.calendarSet_cal`, and the write touches the recorder, its registers and the free counter alone. -/
theorem calendarWriteSetsTheRunningCalendar : Obligations.CalendarWriteSetsTheRunningCalendar := by
  intro s data hup
  have hkept := State.calendarSet_kept_self (s := s) data
  exact ⟨_, exec_calendarSet_of_up data hup, State.calendarSet_cal data,
    hkept.core (by decide : Nat.testBit 0x206 3 = false), hkept.tile (by decide : Nat.testBit 0x206 5 = false),
    hkept.dram (by decide : Nat.testBit 0x206 14 = false)⟩

end Sys2Proof.Machine
end

section
/-!
PROOFS. The step: every command answers a next state, keeps the invariant, and leaves the queue and each part that
`mayChange` does not list; an idle step is a millisecond; the state at reset.
-/
namespace Sys2Proof.Machine

variable {s t : State} {i : Instr} {q : List Instr} {part : Part} {ps : List Part}

/-! ### The parts of the state in the mask of `State.Kept` -/

/-- The bit of a part in the mask of `State.Kept`, where the parts follow the queue and the counter of free values. -/
def Part.bit (part : Part) : Nat := part.ctorIdx + 2

/-- The bits of `m` lie in `acc` or are those of listed parts. -/
def Part.covers (m : Nat) : Nat → List Part → Bool
  | acc, [] => (m &&& acc) == m
  | acc, part :: ps => Part.covers m (acc ||| 2 ^ part.bit) ps

theorem Part.bit_injective : Function.Injective Part.bit := fun _ _ h =>
  Function.LeftInverse.injective Part.ofNat_ctorIdx (Nat.add_right_cancel h)

theorem Part.testBit_of_covers {m acc : Nat} (hcovers : Part.covers m acc ps = true) (hpart : part ∉ ps)
    (hacc : acc.testBit part.bit = false) : m.testBit part.bit = false := by
  induction ps generalizing acc with
  | nil =>
    rw [← eq_of_beq (show ((m &&& acc) == m) = true from hcovers), Nat.testBit_and, hacc, Bool.and_false]
  | cons head rest ih =>
    obtain ⟨hhead, hrest⟩ := not_or.mp (List.mem_cons.not.mp hpart)
    refine ih (acc := acc ||| 2 ^ head.bit) hcovers hrest ?_
    rw [Nat.testBit_or, hacc, Nat.testBit_two_pow_of_ne (Part.bit_injective.ne (Ne.symm hhead)), Bool.or_false]

/-- The counter of free values is no part. -/
theorem Part.testBit_two (part : Part) : Nat.testBit 2 part.bit = false :=
  Nat.testBit_two_pow_of_ne (n := 1) (Nat.ne_of_lt (Nat.le_add_left 2 part.ctorIdx))

/-- A part whose bit the mask leaves out is as it was. -/
theorem State.Kept.part_same {m : Nat} (h : t.Kept (m, s)) (hbit : m.testBit part.bit = false) : part.same s t := by
  cases part with
  | regs => exact h.regs hbit
  | core => exact h.core hbit
  | ang => exact h.ang hbit
  | tile => exact h.tile hbit
  | dec => exact h.dec hbit
  | link => exact h.link hbit
  | rlg => exact h.rlg hbit
  | evr => exact h.evr hbit
  | cry => exact h.cry hbit
  | rcp => exact h.rcp hbit
  | fus => exact h.fus hbit
  | mem => exact h.mem hbit
  | dram => exact h.dram hbit
  | cen => exact h.cen hbit
  | mtr => exact h.mtr hbit
  | mon => exact h.mon hbit
  | ste => exact h.ste hbit
  | ztb => exact h.ztb hbit
  | member => exact h.member hbit
  | redun => exact h.redun hbit
  | crn => exact h.crn hbit
  | win => exact h.win hbit
  | nve => exact h.nve hbit
  | hdg => exact h.hdg hbit
  | hpt => exact h.hpt hbit
  | mgmt => exact h.mgmt hbit
  | pins => exact h.pins hbit

/-! ### What every command keeps -/

/-- The end of the kick is a change of the spindle's state, which moves MTR registers and the motor alone. -/
theorem execKickObserverValid_kept_mtr {p : Nat × State} (hm : Sub 0x10004 p) (h : s.Kept p) :
    ∃ u, execKickObserverValid s = .next u ∧ u.Kept p := by
  refine ⟨_, rfl, ?_⟩
  split
  · exact State.setSp_kept hm h
  · exact h

/-- A command answers a next state, which agrees with the one before in all that `mayChange` does not list but the counter
of free values (bit 1; log 2), and which meets the invariant if that one did. -/
structure Instr.Keeps (i : Instr) : Prop where
  kept : ∃ m, (∀ {p : Nat × State} {s : State}, Sub m p → s.Kept p → ∃ t, exec i s = .next t ∧ t.Kept p) ∧
    Part.covers m 2 (mayChange i) = true
  inv : ∀ {q : List Instr} {s : State}, s.Inv q → ∃ t, exec i s = .next t ∧ t.Inv q

/-- Each row's meaning has its two lemmas under Laws/, and `mayChange` covers the mask of the first by computation. -/
theorem instr_keeps : ∀ i, Instr.Keeps i
  | .heartbeatLoss => ⟨⟨_, execHeartbeatLoss_kept, rfl⟩, execHeartbeatLoss_inv⟩
  | .heartbeat => ⟨⟨_, execHeartbeat_kept, rfl⟩, execHeartbeat_inv⟩
  | .heartbeatKick .. => ⟨⟨_, execHeartbeatKick_kept, rfl⟩, execHeartbeatKick_inv⟩
  | .hbtoExpiry => ⟨⟨_, execHbtoExpiry_kept, rfl⟩, execHbtoExpiry_inv⟩
  | .flushSpeedStop .. => ⟨⟨_, execFlushSpeedStop_kept, rfl⟩, execFlushSpeedStop_inv⟩
  | .fence .. => ⟨⟨_, execFence_kept, rfl⟩, execFence_inv⟩
  | .lockstepMismatch .. => ⟨⟨_, execLockstepMismatch_kept, rfl⟩, execLockstepMismatch_inv⟩
  | .duplicateMismatch .. => ⟨⟨_, execDuplicateMismatch_kept, rfl⟩, execDuplicateMismatch_inv⟩
  | .cstPeerRefetch .. => ⟨⟨_, execCstPeerRefetch_kept, rfl⟩, execCstPeerRefetch_inv⟩
  | .portReadReturn .. => ⟨⟨_, execPortReadReturn_kept, rfl⟩, execPortReadReturn_inv⟩
  | .portTimeout .. => ⟨⟨_, execPortTimeout_kept, rfl⟩, execPortTimeout_inv⟩
  | .waitRelease .. => ⟨⟨_, execWaitRelease_kept, rfl⟩, execWaitRelease_inv⟩
  | .waitTimeout .. => ⟨⟨_, execWaitTimeout_kept, rfl⟩, execWaitTimeout_inv⟩
  | .waitCycleBound .. => ⟨⟨_, execWaitCycleBound_kept, rfl⟩, execWaitCycleBound_inv⟩
  | .urgentEntry .. => ⟨⟨_, execUrgentEntry_kept, rfl⟩, execUrgentEntry_inv⟩
  | .segmentWarning .. => ⟨⟨_, execSegmentWarning_kept, rfl⟩, execSegmentWarning_inv⟩
  | .snapshotReceive .. => ⟨⟨_, execSnapshotReceive_kept, rfl⟩, execSnapshotReceive_inv⟩
  | .snapshotAck .. => ⟨⟨_, execSnapshotAck_kept, rfl⟩, execSnapshotAck_inv⟩
  | .contextStart .. => ⟨⟨_, execContextStart_kept, rfl⟩, execContextStart_inv⟩
  | .contextStop .. => ⟨⟨_, execContextStop_kept, rfl⟩, execContextStop_inv⟩
  | .contextResume .. => ⟨⟨_, execContextResume_kept, rfl⟩, execContextResume_inv⟩
  | .spurStep .. => ⟨⟨_, execSpurStep_kept, rfl⟩, execSpurStep_inv⟩
  | .contextRelease .. => ⟨⟨_, execContextRelease_kept, rfl⟩, execContextRelease_inv⟩
  | .contextCmdReserved .. => ⟨⟨_, execContextCmdReserved_kept, rfl⟩, execContextCmdReserved_inv⟩
  | .debugDataWrite .. => ⟨⟨_, execDebugDataWrite_kept, rfl⟩, execDebugDataWrite_inv⟩
  | .loadWordStore .. => ⟨⟨_, execLoadWordStore_kept, rfl⟩, execLoadWordStore_inv⟩
  | .loadAddressWrite .. => ⟨⟨_, execLoadAddressWrite_kept, rfl⟩, execLoadAddressWrite_inv⟩
  | .matchWrite .. => ⟨⟨_, execMatchWrite_kept, rfl⟩, execMatchWrite_inv⟩
  | .bootlockSet .. => ⟨⟨_, execBootlockSet_kept, rfl⟩, execBootlockSet_inv⟩
  | .next .. => ⟨⟨_, execNext_kept, rfl⟩, execNext_inv⟩
  | .jump .. => ⟨⟨_, execJump_kept, rfl⟩, execJump_inv⟩
  | .call .. => ⟨⟨_, execCall_kept, rfl⟩, execCall_inv⟩
  | .ret .. => ⟨⟨_, execRet_kept, rfl⟩, execRet_inv⟩
  | .brt .. => ⟨⟨_, execBrt_kept, rfl⟩, execBrt_inv⟩
  | .brf .. => ⟨⟨_, execBrf_kept, rfl⟩, execBrf_inv⟩
  | .wait .. => ⟨⟨_, execWait_kept, rfl⟩, execWait_inv⟩
  | .poll .. => ⟨⟨_, execPoll_kept, rfl⟩, execPoll_inv⟩
  | .disp .. => ⟨⟨_, execDisp_kept, rfl⟩, execDisp_inv⟩
  | .yield .. => ⟨⟨_, execYield_kept, rfl⟩, execYield_inv⟩
  | .halt .. => ⟨⟨_, execHalt_kept, rfl⟩, execHalt_inv⟩
  | .loop .. => ⟨⟨_, execLoop_kept, rfl⟩, execLoop_inv⟩
  | .illseq .. => ⟨⟨_, execIllseq_kept, rfl⟩, execIllseq_inv⟩
  | .nop .. => ⟨⟨_, execNop_kept, rfl⟩, execNop_inv⟩
  | .mov .. => ⟨⟨_, execMov_kept, rfl⟩, execMov_inv⟩
  | .movh .. => ⟨⟨_, execMovh_kept, rfl⟩, execMovh_inv⟩
  | .add .. => ⟨⟨_, execAdd_kept, rfl⟩, execAdd_inv⟩
  | .adc .. => ⟨⟨_, execAdc_kept, rfl⟩, execAdc_inv⟩
  | .sub .. => ⟨⟨_, execSub_kept, rfl⟩, execSub_inv⟩
  | .sbc .. => ⟨⟨_, execSbc_kept, rfl⟩, execSbc_inv⟩
  | .cmp .. => ⟨⟨_, execCmp_kept, rfl⟩, execCmp_inv⟩
  | .cmn .. => ⟨⟨_, execCmn_kept, rfl⟩, execCmn_inv⟩
  | .neg .. => ⟨⟨_, execNeg_kept, rfl⟩, execNeg_inv⟩
  | .abs .. => ⟨⟨_, execAbs_kept, rfl⟩, execAbs_inv⟩
  | .and .. => ⟨⟨_, execAnd_kept, rfl⟩, execAnd_inv⟩
  | .or .. => ⟨⟨_, execOr_kept, rfl⟩, execOr_inv⟩
  | .xor .. => ⟨⟨_, execXor_kept, rfl⟩, execXor_inv⟩
  | .andn .. => ⟨⟨_, execAndn_kept, rfl⟩, execAndn_inv⟩
  | .orn .. => ⟨⟨_, execOrn_kept, rfl⟩, execOrn_inv⟩
  | .not .. => ⟨⟨_, execNot_kept, rfl⟩, execNot_inv⟩
  | .tst .. => ⟨⟨_, execTst_kept, rfl⟩, execTst_inv⟩
  | .shl .. => ⟨⟨_, execShl_kept, rfl⟩, execShl_inv⟩
  | .shr .. => ⟨⟨_, execShr_kept, rfl⟩, execShr_inv⟩
  | .sar .. => ⟨⟨_, execSar_kept, rfl⟩, execSar_inv⟩
  | .rol .. => ⟨⟨_, execRol_kept, rfl⟩, execRol_inv⟩
  | .ror .. => ⟨⟨_, execRor_kept, rfl⟩, execRor_inv⟩
  | .min .. => ⟨⟨_, execMin_kept, rfl⟩, execMin_inv⟩
  | .max .. => ⟨⟨_, execMax_kept, rfl⟩, execMax_inv⟩
  | .minu .. => ⟨⟨_, execMinu_kept, rfl⟩, execMinu_inv⟩
  | .maxu .. => ⟨⟨_, execMaxu_kept, rfl⟩, execMaxu_inv⟩
  | .mul .. => ⟨⟨_, execMul_kept, rfl⟩, execMul_inv⟩
  | .muls .. => ⟨⟨_, execMuls_kept, rfl⟩, execMuls_inv⟩
  | .addsu .. => ⟨⟨_, execAddsu_kept, rfl⟩, execAddsu_inv⟩
  | .subsu .. => ⟨⟨_, execSubsu_kept, rfl⟩, execSubsu_inv⟩
  | .bfx .. => ⟨⟨_, execBfx_kept, rfl⟩, execBfx_inv⟩
  | .bfxs .. => ⟨⟨_, execBfxs_kept, rfl⟩, execBfxs_inv⟩
  | .bfi .. => ⟨⟨_, execBfi_kept, rfl⟩, execBfi_inv⟩
  | .bfc .. => ⟨⟨_, execBfc_kept, rfl⟩, execBfc_inv⟩
  | .popc .. => ⟨⟨_, execPopc_kept, rfl⟩, execPopc_inv⟩
  | .clz .. => ⟨⟨_, execClz_kept, rfl⟩, execClz_inv⟩
  | .ctz .. => ⟨⟨_, execCtz_kept, rfl⟩, execCtz_inv⟩
  | .bswap .. => ⟨⟨_, execBswap_kept, rfl⟩, execBswap_inv⟩
  | .sxt .. => ⟨⟨_, execSxt_kept, rfl⟩, execSxt_inv⟩
  | .zxt .. => ⟨⟨_, execZxt_kept, rfl⟩, execZxt_inv⟩
  | .crc .. => ⟨⟨_, execCrc_kept, rfl⟩, execCrc_inv⟩
  | .crcb .. => ⟨⟨_, execCrcb_kept, rfl⟩, execCrcb_inv⟩
  | .gfmul .. => ⟨⟨_, execGfmul_kept, rfl⟩, execGfmul_inv⟩
  | .gfmac .. => ⟨⟨_, execGfmac_kept, rfl⟩, execGfmac_inv⟩
  | .selz .. => ⟨⟨_, execSelz_kept, rfl⟩, execSelz_inv⟩
  | .selc .. => ⟨⟨_, execSelc_kept, rfl⟩, execSelc_inv⟩
  | .tstb .. => ⟨⟨_, execTstb_kept, rfl⟩, execTstb_inv⟩
  | .illalu .. => ⟨⟨_, execIllalu_kept, rfl⟩, execIllalu_inv⟩
  | .eventAck .. => ⟨⟨_, execEventAck_kept, rfl⟩, execEventAck_inv⟩
  | .sig0 .. => ⟨⟨_, execSig0_kept, rfl⟩, execSig0_inv⟩
  | .sig1 .. => ⟨⟨_, execSig1_kept, rfl⟩, execSig1_inv⟩
  | .ffSet .. => ⟨⟨_, execFfSet_kept, rfl⟩, execFfSet_inv⟩
  | .ffClear .. => ⟨⟨_, execFfClear_kept, rfl⟩, execFfClear_inv⟩
  | .arm .. => ⟨⟨_, execArm_kept, rfl⟩, execArm_inv⟩
  | .disarm .. => ⟨⟨_, execDisarm_kept, rfl⟩, execDisarm_inv⟩
  | .post .. => ⟨⟨_, execPost_kept, rfl⟩, execPost_inv⟩
  | .angRead .. => ⟨⟨_, execAngRead_kept, rfl⟩, execAngRead_inv⟩
  | .aeqFlush .. => ⟨⟨_, execAeqFlush_kept, rfl⟩, execAeqFlush_inv⟩
  | .clockMark .. => ⟨⟨_, execClockMark_kept, rfl⟩, execClockMark_inv⟩
  | .flywheelEntry .. => ⟨⟨_, execFlywheelEntry_kept, rfl⟩, execFlywheelEntry_inv⟩
  | .flywrExpiry .. => ⟨⟨_, execFlywrExpiry_kept, rfl⟩, execFlywrExpiry_inv⟩
  | .flywheelFallback .. => ⟨⟨_, execFlywheelFallback_kept, rfl⟩, execFlywheelFallback_inv⟩
  | .referenceStreamChange .. => ⟨⟨_, execReferenceStreamChange_kept, rfl⟩, execReferenceStreamChange_inv⟩
  | .observerValidChange .. => ⟨⟨_, execObserverValidChange_kept, rfl⟩, execObserverValidChange_inv⟩
  | .angleCrosscheckFault .. => ⟨⟨_, execAngleCrosscheckFault_kept, rfl⟩, execAngleCrosscheckFault_inv⟩
  | .sampleTick .. => ⟨⟨_, execSampleTick_kept, rfl⟩, execSampleTick_inv⟩
  | .comparatorHit .. => ⟨⟨_, execComparatorHit_kept, rfl⟩, execComparatorHit_inv⟩
  | .skewWrite .. => ⟨⟨_, execSkewWrite_kept, rfl⟩, execSkewWrite_inv⟩
  | .aeqNop .. => ⟨⟨_, execAeqNop_kept, rfl⟩, execAeqNop_inv⟩
  | .aeqWgOn .. => ⟨⟨_, execAeqWgOn_kept, rfl⟩, execAeqWgOn_inv⟩
  | .aeqWgOff .. => ⟨⟨_, execAeqWgOff_kept, rfl⟩, execAeqWgOff_inv⟩
  | .aeqRdOn .. => ⟨⟨_, execAeqRdOn_kept, rfl⟩, execAeqRdOn_inv⟩
  | .aeqRdOff .. => ⟨⟨_, execAeqRdOff_kept, rfl⟩, execAeqRdOff_inv⟩
  | .aeqAsPre .. => ⟨⟨_, execAeqAsPre_kept, rfl⟩, execAeqAsPre_inv⟩
  | .aeqAsOn .. => ⟨⟨_, execAeqAsOn_kept, rfl⟩, execAeqAsOn_inv⟩
  | .aeqAsOff .. => ⟨⟨_, execAeqAsOff_kept, rfl⟩, execAeqAsOff_inv⟩
  | .aeqSyncOpen .. => ⟨⟨_, execAeqSyncOpen_kept, rfl⟩, execAeqSyncOpen_inv⟩
  | .aeqSyncClose .. => ⟨⟨_, execAeqSyncClose_kept, rfl⟩, execAeqSyncClose_inv⟩
  | .aeqHsw .. => ⟨⟨_, execAeqHsw_kept, rfl⟩, execAeqHsw_inv⟩
  | .aeqGsamp .. => ⟨⟨_, execAeqGsamp_kept, rfl⟩, execAeqGsamp_inv⟩
  | .aeqAsLvl .. => ⟨⟨_, execAeqAsLvl_kept, rfl⟩, execAeqAsLvl_inv⟩
  | .aeqIllegalAction .. => ⟨⟨_, execAeqIllegalAction_kept, rfl⟩, execAeqIllegalAction_inv⟩
  | .angAcLatch .. => ⟨⟨_, execAngAcLatch_kept, rfl⟩, execAngAcLatch_inv⟩
  | .counterReadClear .. => ⟨⟨_, execCounterReadClear_kept, rfl⟩, execCounterReadClear_inv⟩
  | .clockRangeFault .. => ⟨⟨_, execClockRangeFault_kept, rfl⟩, execClockRangeFault_inv⟩
  | .bankSwapRequest .. => ⟨⟨_, execBankSwapRequest_kept, rfl⟩, execBankSwapRequest_inv⟩
  | .bankWordWrite .. => ⟨⟨_, execBankWordWrite_kept, rfl⟩, execBankWordWrite_inv⟩
  | .spareStepStart .. => ⟨⟨_, execSpareStepStart_kept, rfl⟩, execSpareStepStart_inv⟩
  | .spareTakeover .. => ⟨⟨_, execSpareTakeover_kept, rfl⟩, execSpareTakeover_inv⟩
  | .spareReturn .. => ⟨⟨_, execSpareReturn_kept, rfl⟩, execSpareReturn_inv⟩
  | .freezeSpanStart .. => ⟨⟨_, execFreezeSpanStart_kept, rfl⟩, execFreezeSpanStart_inv⟩
  | .freezeSpanEnd .. => ⟨⟨_, execFreezeSpanEnd_kept, rfl⟩, execFreezeSpanEnd_inv⟩
  | .recordRelease .. => ⟨⟨_, execRecordRelease_kept, rfl⟩, execRecordRelease_inv⟩
  | .sectorComplete .. => ⟨⟨_, execSectorComplete_kept, rfl⟩, execSectorComplete_inv⟩
  | .sourceUnderrun .. => ⟨⟨_, execSourceUnderrun_kept, rfl⟩, execSourceUnderrun_inv⟩
  | .decodeComplete .. => ⟨⟨_, execDecodeComplete_kept, rfl⟩, execDecodeComplete_inv⟩
  | .writeEnableWrite .. => ⟨⟨_, execWriteEnableWrite_kept, rfl⟩, execWriteEnableWrite_inv⟩
  | .decoderSubmit .. => ⟨⟨_, execDecoderSubmit_kept, rfl⟩, execDecoderSubmit_inv⟩
  | .decoderResultPop .. => ⟨⟨_, execDecoderResultPop_kept, rfl⟩, execDecoderResultPop_inv⟩
  | .wedgeRead .. => ⟨⟨_, execWedgeRead_kept, rfl⟩, execWedgeRead_inv⟩
  | .keepoutEntry .. => ⟨⟨_, execKeepoutEntry_kept, rfl⟩, execKeepoutEntry_inv⟩
  | .syncMatch .. => ⟨⟨_, execSyncMatch_kept, rfl⟩, execSyncMatch_inv⟩
  | .skipEntryApply .. => ⟨⟨_, execSkipEntryApply_kept, rfl⟩, execSkipEntryApply_inv⟩
  | .skipListSelect .. => ⟨⟨_, execSkipListSelect_kept, rfl⟩, execSkipListSelect_inv⟩
  | .sectorStatusPop .. => ⟨⟨_, execSectorStatusPop_kept, rfl⟩, execSectorStatusPop_inv⟩
  | .descriptorWordWrite .. => ⟨⟨_, execDescriptorWordWrite_kept, rfl⟩, execDescriptorWordWrite_inv⟩
  | .trackidWrite .. => ⟨⟨_, execTrackidWrite_kept, rfl⟩, execTrackidWrite_inv⟩
  | .formatterCmdIgnored .. => ⟨⟨_, execFormatterCmdIgnored_kept, rfl⟩, execFormatterCmdIgnored_inv⟩
  | .frameSlot .. => ⟨⟨_, execFrameSlot_kept, rfl⟩, execFrameSlot_inv⟩
  | .idle .. => ⟨⟨_, execIdle_kept, rfl⟩, execIdle_inv⟩
  | .rdrsp .. => ⟨⟨_, execRdrsp_kept, rfl⟩, execRdrsp_inv⟩
  | .status .. => ⟨⟨_, execStatus_kept, rfl⟩, execStatus_inv⟩
  | .fault .. => ⟨⟨_, execFault_kept, rfl⟩, execFault_inv⟩
  | .upstreamIgnoredType .. => ⟨⟨_, execUpstreamIgnoredType_kept, rfl⟩, execUpstreamIgnoredType_inv⟩
  | .upstreamLock .. => ⟨⟨_, execUpstreamLock_kept, rfl⟩, execUpstreamLock_inv⟩
  | .upstreamLockLoss .. => ⟨⟨_, execUpstreamLockLoss_kept, rfl⟩, execUpstreamLockLoss_inv⟩
  | .upstreamSilence .. => ⟨⟨_, execUpstreamSilence_kept, rfl⟩, execUpstreamSilence_inv⟩
  | .retriesExhausted .. => ⟨⟨_, execRetriesExhausted_kept, rfl⟩, execRetriesExhausted_inv⟩
  | .registerAccessTimeout .. => ⟨⟨_, execRegisterAccessTimeout_kept, rfl⟩, execRegisterAccessTimeout_inv⟩
  | .linkStart .. => ⟨⟨_, execLinkStart_kept, rfl⟩, execLinkStart_inv⟩
  | .linkStartTimeout .. => ⟨⟨_, execLinkStartTimeout_kept, rfl⟩, execLinkStartTimeout_inv⟩
  | .linkStop .. => ⟨⟨_, execLinkStop_kept, rfl⟩, execLinkStop_inv⟩
  | .preampRegisterRead .. => ⟨⟨_, execPreampRegisterRead_kept, rfl⟩, execPreampRegisterRead_inv⟩
  | .preampRegisterWrite .. => ⟨⟨_, execPreampRegisterWrite_kept, rfl⟩, execPreampRegisterWrite_inv⟩
  | .heaterCommand .. => ⟨⟨_, execHeaterCommand_kept, rfl⟩, execHeaterCommand_inv⟩
  | .safeCommand .. => ⟨⟨_, execSafeCommand_kept, rfl⟩, execSafeCommand_inv⟩
  | .pairMapWrite .. => ⟨⟨_, execPairMapWrite_kept, rfl⟩, execPairMapWrite_inv⟩
  | .preampFaultLine .. => ⟨⟨_, execPreampFaultLine_kept, rfl⟩, execPreampFaultLine_inv⟩
  | .preampFaultRelease .. => ⟨⟨_, execPreampFaultRelease_kept, rfl⟩, execPreampFaultRelease_inv⟩
  | .assistLeadLimit .. => ⟨⟨_, execAssistLeadLimit_kept, rfl⟩, execAssistLeadLimit_inv⟩
  | .assistTailLimit .. => ⟨⟨_, execAssistTailLimit_kept, rfl⟩, execAssistTailLimit_inv⟩
  | .taskPass .. => ⟨⟨_, execTaskPass_kept, rfl⟩, execTaskPass_inv⟩
  | .staleLimitExpiry .. => ⟨⟨_, execStaleLimitExpiry_kept, rfl⟩, execStaleLimitExpiry_inv⟩
  | .nodeWrite .. => ⟨⟨_, execNodeWrite_kept, rfl⟩, execNodeWrite_inv⟩
  | .coefWrite .. => ⟨⟨_, execCoefWrite_kept, rfl⟩, execCoefWrite_inv⟩
  | .modeRequest .. => ⟨⟨_, execModeRequest_kept, rfl⟩, execModeRequest_inv⟩
  | .modeSwitch .. => ⟨⟨_, execModeSwitch_kept, rfl⟩, execModeSwitch_inv⟩
  | .seekRequest .. => ⟨⟨_, execSeekRequest_kept, rfl⟩, execSeekRequest_inv⟩
  | .rampGo .. => ⟨⟨_, execRampGo_kept, rfl⟩, execRampGo_inv⟩
  | .outputCrosscheckFault .. => ⟨⟨_, execOutputCrosscheckFault_kept, rfl⟩, execOutputCrosscheckFault_inv⟩
  | .nodeSync .. => ⟨⟨_, execNodeSync_kept, rfl⟩, execNodeSync_inv⟩
  | .nodeSyncDone .. => ⟨⟨_, execNodeSyncDone_kept, rfl⟩, execNodeSyncDone_inv⟩
  | .traceArm .. => ⟨⟨_, execTraceArm_kept, rfl⟩, execTraceArm_inv⟩
  | .traceForce .. => ⟨⟨_, execTraceForce_kept, rfl⟩, execTraceForce_inv⟩
  | .spindleStart .. => ⟨⟨_, execSpindleStart_kept, rfl⟩, execSpindleStart_inv⟩
  | .spindleStop .. => ⟨⟨_, execSpindleStop_kept, rfl⟩, execSpindleStop_inv⟩
  | .spindleStep .. => ⟨⟨_, execSpindleStep_kept, rfl⟩, execSpindleStep_inv⟩
  | .coast .. => ⟨⟨_, execCoast_kept, rfl⟩, execCoast_inv⟩
  | .clrflt .. => ⟨⟨_, execClrflt_kept, rfl⟩, execClrflt_inv⟩
  | .spindleCmdIgnored .. => ⟨⟨_, execSpindleCmdIgnored_kept, rfl⟩, execSpindleCmdIgnored_inv⟩
  | .probeEnd .. => ⟨⟨_, execProbeEnd_kept, rfl⟩, execProbeEnd_inv⟩
  | .ipdDone => ⟨⟨_, execIpdDone_kept, rfl⟩, execIpdDone_inv⟩
  | .kickObserverValid => ⟨⟨_, execKickObserverValid_kept_mtr, rfl⟩, execKickObserverValid_inv⟩
  | .kickTimeout => ⟨⟨_, execKickTimeout_kept, rfl⟩, execKickTimeout_inv⟩
  | .atSpeedSet => ⟨⟨_, execAtSpeedSet_kept, rfl⟩, execAtSpeedSet_inv⟩
  | .atSpeedClear => ⟨⟨_, execAtSpeedClear_kept, rfl⟩, execAtSpeedClear_inv⟩
  | .spinupTimeout => ⟨⟨_, execSpinupTimeout_kept, rfl⟩, execSpinupTimeout_inv⟩
  | .stepComplete => ⟨⟨_, execStepComplete_kept, rfl⟩, execStepComplete_inv⟩
  | .brakeComplete => ⟨⟨_, execBrakeComplete_kept, rfl⟩, execBrakeComplete_inv⟩
  | .chopperEngage .. => ⟨⟨_, execChopperEngage_kept, rfl⟩, execChopperEngage_inv⟩
  | .chopperRelease .. => ⟨⟨_, execChopperRelease_kept, rfl⟩, execChopperRelease_inv⟩
  | .chopperSelftest .. => ⟨⟨_, execChopperSelftest_kept, rfl⟩, execChopperSelftest_inv⟩
  | .chopperSelftestDone .. => ⟨⟨_, execChopperSelftestDone_kept, rfl⟩, execChopperSelftestDone_inv⟩
  | .chopperFault .. => ⟨⟨_, execChopperFault_kept, rfl⟩, execChopperFault_inv⟩
  | .overvoltageClamp .. => ⟨⟨_, execOvervoltageClamp_kept, rfl⟩, execOvervoltageClamp_inv⟩
  | .clampRelease .. => ⟨⟨_, execClampRelease_kept, rfl⟩, execClampRelease_inv⟩
  | .overcurrentTrip .. => ⟨⟨_, execOvercurrentTrip_kept, rfl⟩, execOvercurrentTrip_inv⟩
  | .powerLoss .. => ⟨⟨_, execPowerLoss_kept, rfl⟩, execPowerLoss_inv⟩
  | .isolationFetClose .. => ⟨⟨_, execIsolationFetClose_kept, rfl⟩, execIsolationFetClose_inv⟩
  | .genLowVmotRetract .. => ⟨⟨_, execGenLowVmotRetract_kept, rfl⟩, execGenLowVmotRetract_inv⟩
  | .vmotCollapse .. => ⟨⟨_, execVmotCollapse_kept, rfl⟩, execVmotCollapse_inv⟩
  | .powerReturn => ⟨⟨_, execPowerReturn_kept, rfl⟩, execPowerReturn_inv⟩
  | .retractCommand .. => ⟨⟨_, execRetractCommand_kept, rfl⟩, execRetractCommand_inv⟩
  | .retractDone .. => ⟨⟨_, execRetractDone_kept, rfl⟩, execRetractDone_inv⟩
  | .retractTimeout .. => ⟨⟨_, execRetractTimeout_kept, rfl⟩, execRetractTimeout_inv⟩
  | .powerDieThermalTrip => ⟨⟨_, execPowerDieThermalTrip_kept, rfl⟩, execPowerDieThermalTrip_inv⟩
  | .currentSenseSpare .. => ⟨⟨_, execCurrentSenseSpare_kept, rfl⟩, execCurrentSenseSpare_inv⟩
  | .calibrationStart .. => ⟨⟨_, execCalibrationStart_kept, rfl⟩, execCalibrationStart_inv⟩
  | .calibrationResult .. => ⟨⟨_, execCalibrationResult_kept, rfl⟩, execCalibrationResult_inv⟩
  | .calibrationApplyStep .. => ⟨⟨_, execCalibrationApplyStep_kept, rfl⟩, execCalibrationApplyStep_inv⟩
  | .calibrationAbort .. => ⟨⟨_, execCalibrationAbort_kept, rfl⟩, execCalibrationAbort_inv⟩
  | .vcCalWindow .. => ⟨⟨_, execVcCalWindow_kept, rfl⟩, execVcCalWindow_inv⟩
  | .vcCalDone .. => ⟨⟨_, execVcCalDone_kept, rfl⟩, execVcCalDone_inv⟩
  | .thermalWarning .. => ⟨⟨_, execThermalWarning_kept, rfl⟩, execThermalWarning_inv⟩
  | .thermalTrip .. => ⟨⟨_, execThermalTrip_kept, rfl⟩, execThermalTrip_inv⟩
  | .thermalTripRelease .. => ⟨⟨_, execThermalTripRelease_kept, rfl⟩, execThermalTripRelease_inv⟩
  | .voltageFault .. => ⟨⟨_, execVoltageFault_kept, rfl⟩, execVoltageFault_inv⟩
  | .avsUpdate .. => ⟨⟨_, execAvsUpdate_kept, rfl⟩, execAvsUpdate_inv⟩
  | .avsClamp => ⟨⟨_, execAvsClamp_kept, rfl⟩, execAvsClamp_inv⟩
  | .powerDieSensorRead .. => ⟨⟨_, execPowerDieSensorRead_kept, rfl⟩, execPowerDieSensorRead_inv⟩
  | .stripeBufferAcquire .. => ⟨⟨_, execStripeBufferAcquire_kept, rfl⟩, execStripeBufferAcquire_inv⟩
  | .stripeBufferRelease .. => ⟨⟨_, execStripeBufferRelease_kept, rfl⟩, execStripeBufferRelease_inv⟩
  | .chunkMove .. => ⟨⟨_, execChunkMove_kept, rfl⟩, execChunkMove_inv⟩
  | .sectorLanding .. => ⟨⟨_, execSectorLanding_kept, rfl⟩, execSectorLanding_inv⟩
  | .reconstructionRequest .. => ⟨⟨_, execReconstructionRequest_kept, rfl⟩, execReconstructionRequest_inv⟩
  | .scrubCheck .. => ⟨⟨_, execScrubCheck_kept, rfl⟩, execScrubCheck_inv⟩
  | .scrubResultPop .. => ⟨⟨_, execScrubResultPop_kept, rfl⟩, execScrubResultPop_inv⟩
  | .ztbWindowWrite .. => ⟨⟨_, execZtbWindowWrite_kept, rfl⟩, execZtbWindowWrite_inv⟩
  | .ztbState .. => ⟨⟨_, execZtbState_kept, rfl⟩, execZtbState_inv⟩
  | .ztbWp .. => ⟨⟨_, execZtbWp_kept, rfl⟩, execZtbWp_inv⟩
  | .ztbHwp .. => ⟨⟨_, execZtbHwp_kept, rfl⟩, execZtbHwp_inv⟩
  | .ztbStgadd .. => ⟨⟨_, execZtbStgadd_kept, rfl⟩, execZtbStgadd_inv⟩
  | .ztbReset .. => ⟨⟨_, execZtbReset_kept, rfl⟩, execZtbReset_inv⟩
  | .ztbDegset .. => ⟨⟨_, execZtbDegset_kept, rfl⟩, execZtbDegset_inv⟩
  | .ztbFree .. => ⟨⟨_, execZtbFree_kept, rfl⟩, execZtbFree_inv⟩
  | .ztbUpdateRefused .. => ⟨⟨_, execZtbUpdateRefused_kept, rfl⟩, execZtbUpdateRefused_inv⟩
  | .zoneScan .. => ⟨⟨_, execZoneScan_kept, rfl⟩, execZoneScan_inv⟩
  | .zoneScanDone => ⟨⟨_, execZoneScanDone_kept, rfl⟩, execZoneScanDone_inv⟩
  | .memberStateChange .. => ⟨⟨_, execMemberStateChange_kept, rfl⟩, execMemberStateChange_inv⟩
  | .rebuildBandGroup .. => ⟨⟨_, execRebuildBandGroup_kept, rfl⟩, execRebuildBandGroup_inv⟩
  | .migrationCutover .. => ⟨⟨_, execMigrationCutover_kept, rfl⟩, execMigrationCutover_inv⟩
  | .rebuildWait .. => ⟨⟨_, execRebuildWait_kept, rfl⟩, execRebuildWait_inv⟩
  | .rebuildCheckpoint .. => ⟨⟨_, execRebuildCheckpoint_kept, rfl⟩, execRebuildCheckpoint_inv⟩
  | .mediaWindowShare .. => ⟨⟨_, execMediaWindowShare_kept, rfl⟩, execMediaWindowShare_inv⟩
  | .lbaPoison .. => ⟨⟨_, execLbaPoison_kept, rfl⟩, execLbaPoison_inv⟩
  | .generationSwitch .. => ⟨⟨_, execGenerationSwitch_kept, rfl⟩, execGenerationSwitch_inv⟩
  | .actuatorLoss .. => ⟨⟨_, execActuatorLoss_kept, rfl⟩, execActuatorLoss_inv⟩
  | .scrubStripe .. => ⟨⟨_, execScrubStripe_kept, rfl⟩, execScrubStripe_inv⟩
  | .scrubPassLate .. => ⟨⟨_, execScrubPassLate_kept, rfl⟩, execScrubPassLate_inv⟩
  | .cairnAppend .. => ⟨⟨_, execCairnAppend_kept, rfl⟩, execCairnAppend_inv⟩
  | .replay .. => ⟨⟨_, execReplay_kept, rfl⟩, execReplay_inv⟩
  | .cairnBankLoss .. => ⟨⟨_, execCairnBankLoss_kept, rfl⟩, execCairnBankLoss_inv⟩
  | .cairnResync .. => ⟨⟨_, execCairnResync_kept, rfl⟩, execCairnResync_inv⟩
  | .cairnResyncDone .. => ⟨⟨_, execCairnResyncDone_kept, rfl⟩, execCairnResyncDone_inv⟩
  | .windowAdmit .. => ⟨⟨_, execWindowAdmit_kept, rfl⟩, execWindowAdmit_inv⟩
  | .emergencyFlush .. => ⟨⟨_, execEmergencyFlush_kept, rfl⟩, execEmergencyFlush_inv⟩
  | .deferredError .. => ⟨⟨_, execDeferredError_kept, rfl⟩, execDeferredError_inv⟩
  | .pcieLinkDown .. => ⟨⟨_, execPcieLinkDown_kept, rfl⟩, execPcieLinkDown_inv⟩
  | .hotReset .. => ⟨⟨_, execHotReset_kept, rfl⟩, execHotReset_inv⟩
  | .perst .. => ⟨⟨_, execPerst_kept, rfl⟩, execPerst_inv⟩
  | .flr .. => ⟨⟨_, execFlr_kept, rfl⟩, execFlr_inv⟩
  | .poisonedTlp .. => ⟨⟨_, execPoisonedTlp_kept, rfl⟩, execPoisonedTlp_inv⟩
  | .retrain .. => ⟨⟨_, execRetrain_kept, rfl⟩, execRetrain_inv⟩
  | .reequalize .. => ⟨⟨_, execReequalize_kept, rfl⟩, execReequalize_inv⟩
  | .sqTailDoorbell .. => ⟨⟨_, execSqTailDoorbell_kept, rfl⟩, execSqTailDoorbell_inv⟩
  | .cqHeadDoorbell .. => ⟨⟨_, execCqHeadDoorbell_kept, rfl⟩, execCqHeadDoorbell_inv⟩
  | .commandFetch .. => ⟨⟨_, execCommandFetch_kept, rfl⟩, execCommandFetch_inv⟩
  | .hedgeEntryGrant .. => ⟨⟨_, execHedgeEntryGrant_kept, rfl⟩, execHedgeEntryGrant_inv⟩
  | .hostCommandPop .. => ⟨⟨_, execHostCommandPop_kept, rfl⟩, execHostCommandPop_inv⟩
  | .completionPost .. => ⟨⟨_, execCompletionPost_kept, rfl⟩, execCompletionPost_inv⟩
  | .hedgeLookup .. => ⟨⟨_, execHedgeLookup_kept, rfl⟩, execHedgeLookup_inv⟩
  | .hedgeRemove .. => ⟨⟨_, execHedgeRemove_kept, rfl⟩, execHedgeRemove_inv⟩
  | .hedgeUnblock .. => ⟨⟨_, execHedgeUnblock_kept, rfl⟩, execHedgeUnblock_inv⟩
  | .zoneWriteCascade .. => ⟨⟨_, execZoneWriteCascade_kept, rfl⟩, execZoneWriteCascade_inv⟩
  | .controllerEnable .. => ⟨⟨_, execControllerEnable_kept, rfl⟩, execControllerEnable_inv⟩
  | .controllerReset .. => ⟨⟨_, execControllerReset_kept, rfl⟩, execControllerReset_inv⟩
  | .normalShutdown .. => ⟨⟨_, execNormalShutdown_kept, rfl⟩, execNormalShutdown_inv⟩
  | .abruptShutdown .. => ⟨⟨_, execAbruptShutdown_kept, rfl⟩, execAbruptShutdown_inv⟩
  | .deleteIoSq .. => ⟨⟨_, execDeleteIoSq_kept, rfl⟩, execDeleteIoSq_inv⟩
  | .createIoSq .. => ⟨⟨_, execCreateIoSq_kept, rfl⟩, execCreateIoSq_inv⟩
  | .getLogPage .. => ⟨⟨_, execGetLogPage_kept, rfl⟩, execGetLogPage_inv⟩
  | .deleteIoCq .. => ⟨⟨_, execDeleteIoCq_kept, rfl⟩, execDeleteIoCq_inv⟩
  | .createIoCq .. => ⟨⟨_, execCreateIoCq_kept, rfl⟩, execCreateIoCq_inv⟩
  | .identify .. => ⟨⟨_, execIdentify_kept, rfl⟩, execIdentify_inv⟩
  | .abort .. => ⟨⟨_, execAbort_kept, rfl⟩, execAbort_inv⟩
  | .setFeatures .. => ⟨⟨_, execSetFeatures_kept, rfl⟩, execSetFeatures_inv⟩
  | .getFeatures .. => ⟨⟨_, execGetFeatures_kept, rfl⟩, execGetFeatures_inv⟩
  | .asynchronousEventRequest .. => ⟨⟨_, execAsynchronousEventRequest_kept, rfl⟩, execAsynchronousEventRequest_inv⟩
  | .asyncEventPost .. => ⟨⟨_, execAsyncEventPost_kept, rfl⟩, execAsyncEventPost_inv⟩
  | .namespaceManagement .. => ⟨⟨_, execNamespaceManagement_kept, rfl⟩, execNamespaceManagement_inv⟩
  | .namespaceAttachment .. => ⟨⟨_, execNamespaceAttachment_kept, rfl⟩, execNamespaceAttachment_inv⟩
  | .firmwareCommit .. => ⟨⟨_, execFirmwareCommit_kept, rfl⟩, execFirmwareCommit_inv⟩
  | .firmwareImageDownload .. => ⟨⟨_, execFirmwareImageDownload_kept, rfl⟩, execFirmwareImageDownload_inv⟩
  | .deviceSelfTest .. => ⟨⟨_, execDeviceSelfTest_kept, rfl⟩, execDeviceSelfTest_inv⟩
  | .virtualizationManagement .. => ⟨⟨_, execVirtualizationManagement_kept, rfl⟩, execVirtualizationManagement_inv⟩
  | .nvmeMiSend .. => ⟨⟨_, execNvmeMiSend_kept, rfl⟩, execNvmeMiSend_inv⟩
  | .nvmeMiReceive .. => ⟨⟨_, execNvmeMiReceive_kept, rfl⟩, execNvmeMiReceive_inv⟩
  | .formatNvm .. => ⟨⟨_, execFormatNvm_kept, rfl⟩, execFormatNvm_inv⟩
  | .securitySend .. => ⟨⟨_, execSecuritySend_kept, rfl⟩, execSecuritySend_inv⟩
  | .securityReceive .. => ⟨⟨_, execSecurityReceive_kept, rfl⟩, execSecurityReceive_inv⟩
  | .sanitize .. => ⟨⟨_, execSanitize_kept, rfl⟩, execSanitize_inv⟩
  | .invalidOpcode .. => ⟨⟨_, execInvalidOpcode_kept, rfl⟩, execInvalidOpcode_inv⟩
  | .flush .. => ⟨⟨_, execFlush_kept, rfl⟩, execFlush_inv⟩
  | .write .. => ⟨⟨_, execWrite_kept, rfl⟩, execWrite_inv⟩
  | .read .. => ⟨⟨_, execRead_kept, rfl⟩, execRead_inv⟩
  | .writeZeroes .. => ⟨⟨_, execWriteZeroes_kept, rfl⟩, execWriteZeroes_inv⟩
  | .datasetManagement .. => ⟨⟨_, execDatasetManagement_kept, rfl⟩, execDatasetManagement_inv⟩
  | .verify .. => ⟨⟨_, execVerify_kept, rfl⟩, execVerify_inv⟩
  | .reservationRegister .. => ⟨⟨_, execReservationRegister_kept, rfl⟩, execReservationRegister_inv⟩
  | .reservationReport .. => ⟨⟨_, execReservationReport_kept, rfl⟩, execReservationReport_inv⟩
  | .reservationAcquire .. => ⟨⟨_, execReservationAcquire_kept, rfl⟩, execReservationAcquire_inv⟩
  | .reservationRelease .. => ⟨⟨_, execReservationRelease_kept, rfl⟩, execReservationRelease_inv⟩
  | .zoneManagementSend .. => ⟨⟨_, execZoneManagementSend_kept, rfl⟩, execZoneManagementSend_inv⟩
  | .zoneManagementReceive .. => ⟨⟨_, execZoneManagementReceive_kept, rfl⟩, execZoneManagementReceive_inv⟩
  | .zoneAppend .. => ⟨⟨_, execZoneAppend_kept, rfl⟩, execZoneAppend_inv⟩
  | .nvmeMiBasicCommand .. => ⟨⟨_, execNvmeMiBasicCommand_kept, rfl⟩, execNvmeMiBasicCommand_inv⟩
  | .getVersion => ⟨⟨_, execGetVersion_kept, rfl⟩, execGetVersion_inv⟩
  | .getCapabilities => ⟨⟨_, execGetCapabilities_kept, rfl⟩, execGetCapabilities_inv⟩
  | .negotiateAlgorithms .. => ⟨⟨_, execNegotiateAlgorithms_kept, rfl⟩, execNegotiateAlgorithms_inv⟩
  | .getDigests => ⟨⟨_, execGetDigests_kept, rfl⟩, execGetDigests_inv⟩
  | .getCertificate .. => ⟨⟨_, execGetCertificate_kept, rfl⟩, execGetCertificate_inv⟩
  | .challenge .. => ⟨⟨_, execChallenge_kept, rfl⟩, execChallenge_inv⟩
  | .getMeasurements .. => ⟨⟨_, execGetMeasurements_kept, rfl⟩, execGetMeasurements_inv⟩
  | .keyExchange => ⟨⟨_, execKeyExchange_kept, rfl⟩, execKeyExchange_inv⟩
  | .asnWrite .. => ⟨⟨_, execAsnWrite_kept, rfl⟩, execAsnWrite_inv⟩
  | .asnLimitWrite .. => ⟨⟨_, execAsnLimitWrite_kept, rfl⟩, execAsnLimitWrite_inv⟩
  | .queueAllocationWrite .. => ⟨⟨_, execQueueAllocationWrite_kept, rfl⟩, execQueueAllocationWrite_inv⟩
  | .namespaceConfigWrite .. => ⟨⟨_, execNamespaceConfigWrite_kept, rfl⟩, execNamespaceConfigWrite_inv⟩
  | .creditAcquire .. => ⟨⟨_, execCreditAcquire_kept, rfl⟩, execCreditAcquire_inv⟩
  | .creditRelease .. => ⟨⟨_, execCreditRelease_kept, rfl⟩, execCreditRelease_inv⟩
  | .mediaReserve .. => ⟨⟨_, execMediaReserve_kept, rfl⟩, execMediaReserve_inv⟩
  | .creditAvailable .. => ⟨⟨_, execCreditAvailable_kept, rfl⟩, execCreditAvailable_inv⟩
  | .ledgerAudit => ⟨⟨_, execLedgerAudit_kept, rfl⟩, execLedgerAudit_inv⟩
  | .takeover .. => ⟨⟨_, execTakeover_kept, rfl⟩, execTakeover_inv⟩
  | .switch .. => ⟨⟨_, execSwitch_kept, rfl⟩, execSwitch_inv⟩
  | .handback .. => ⟨⟨_, execHandback_kept, rfl⟩, execHandback_inv⟩
  | .rejoin .. => ⟨⟨_, execRejoin_kept, rfl⟩, execRejoin_inv⟩
  | .testFence .. => ⟨⟨_, execTestFence_kept, rfl⟩, execTestFence_inv⟩
  | .ledgerCmdIgnored .. => ⟨⟨_, execLedgerCmdIgnored_kept, rfl⟩, execLedgerCmdIgnored_inv⟩
  | .switchTimeout .. => ⟨⟨_, execSwitchTimeout_kept, rfl⟩, execSwitchTimeout_inv⟩
  | .lastRidgeFence .. => ⟨⟨_, execLastRidgeFence_kept, rfl⟩, execLastRidgeFence_inv⟩
  | .ridgeSelftestDone .. => ⟨⟨_, execRidgeSelftestDone_kept, rfl⟩, execRidgeSelftestDone_inv⟩
  | .memoryScrubStep .. => ⟨⟨_, execMemoryScrubStep_kept, rfl⟩, execMemoryScrubStep_inv⟩
  | .bucketLeak .. => ⟨⟨_, execBucketLeak_kept, rfl⟩, execBucketLeak_inv⟩
  | .dramPartialWrite .. => ⟨⟨_, execDramPartialWrite_kept, rfl⟩, execDramPartialWrite_inv⟩
  | .eventPost .. => ⟨⟨_, execEventPost_kept, rfl⟩, execEventPost_inv⟩
  | .groupExpiry .. => ⟨⟨_, execGroupExpiry_kept, rfl⟩, execGroupExpiry_inv⟩
  | .tokenRefill .. => ⟨⟨_, execTokenRefill_kept, rfl⟩, execTokenRefill_inv⟩
  | .recordWrite => ⟨⟨_, execRecordWrite_kept, rfl⟩, execRecordWrite_inv⟩
  | .otCheckpoint => ⟨⟨_, execOtCheckpoint_kept, rfl⟩, execOtCheckpoint_inv⟩
  | .ringScan => ⟨⟨_, execRingScan_kept, rfl⟩, execRingScan_inv⟩
  | .calendarSet .. => ⟨⟨_, execCalendarSet_kept, rfl⟩, execCalendarSet_inv⟩
  | .evrOtLatch .. => ⟨⟨_, execEvrOtLatch_kept, rfl⟩, execEvrOtLatch_inv⟩
  | .sealSign .. => ⟨⟨_, execSealSign_kept, rfl⟩, execSealSign_inv⟩
  | .hash .. => ⟨⟨_, execHash_kept, rfl⟩, execHash_inv⟩
  | .verifySignature .. => ⟨⟨_, execVerifySignature_kept, rfl⟩, execVerifySignature_inv⟩
  | .drbg .. => ⟨⟨_, execDrbg_kept, rfl⟩, execDrbg_inv⟩
  | .derive .. => ⟨⟨_, execDerive_kept, rfl⟩, execDerive_inv⟩
  | .sign .. => ⟨⟨_, execSign_kept, rfl⟩, execSign_inv⟩
  | .keyload .. => ⟨⟨_, execKeyload_kept, rfl⟩, execKeyload_inv⟩
  | .zeroize .. => ⟨⟨_, execZeroize_kept, rfl⟩, execZeroize_inv⟩
  | .devpub .. => ⟨⟨_, execDevpub_kept, rfl⟩, execDevpub_inv⟩
  | .cryptoCmdIgnored .. => ⟨⟨_, execCryptoCmdIgnored_kept, rfl⟩, execCryptoCmdIgnored_inv⟩
  | .cryptoDone => ⟨⟨_, execCryptoDone_kept, rfl⟩, execCryptoDone_inv⟩
  | .drbgRead .. => ⟨⟨_, execDrbgRead_kept, rfl⟩, execDrbgRead_inv⟩
  | .powerOnReset .. => ⟨⟨_, execPowerOnReset_kept, rfl⟩, execPowerOnReset_inv⟩
  | .resetN => ⟨⟨_, execResetN_kept, rfl⟩, execResetN_inv⟩
  | .vmotUndervoltageReset => ⟨⟨_, execVmotUndervoltageReset_kept, rfl⟩, execVmotUndervoltageReset_inv⟩
  | .softwareFullReset .. => ⟨⟨_, execSoftwareFullReset_kept, rfl⟩, execSoftwareFullReset_inv⟩
  | .softwareBlockReset .. => ⟨⟨_, execSoftwareBlockReset_kept, rfl⟩, execSoftwareBlockReset_inv⟩
  | .blockResetDone => ⟨⟨_, execBlockResetDone_kept, rfl⟩, execBlockResetDone_inv⟩
  | .blockWatchdog .. => ⟨⟨_, execBlockWatchdog_kept, rfl⟩, execBlockWatchdog_inv⟩
  | .ridgeWatchdog .. => ⟨⟨_, execRidgeWatchdog_kept, rfl⟩, execRidgeWatchdog_inv⟩
  | .watchdogKick .. => ⟨⟨_, execWatchdogKick_kept, rfl⟩, execWatchdogKick_inv⟩
  | .ridgeReset .. => ⟨⟨_, execRidgeReset_kept, rfl⟩, execRidgeReset_inv⟩
  | .fullReset => ⟨⟨_, execFullReset_kept, rfl⟩, execFullReset_inv⟩
  | .resetRelease .. => ⟨⟨_, execResetRelease_kept, rfl⟩, execResetRelease_inv⟩
  | .noxtal => ⟨⟨_, execNoxtal_kept, rfl⟩, execNoxtal_inv⟩
  | .measuredBoot .. => ⟨⟨_, execMeasuredBoot_kept, rfl⟩, execMeasuredBoot_inv⟩
  | .domainOn .. => ⟨⟨_, execDomainOn_kept, rfl⟩, execDomainOn_inv⟩
  | .domainOff .. => ⟨⟨_, execDomainOff_kept, rfl⟩, execDomainOff_inv⟩
  | .domainRet .. => ⟨⟨_, execDomainRet_kept, rfl⟩, execDomainRet_inv⟩
  | .domainStarted .. => ⟨⟨_, execDomainStarted_kept, rfl⟩, execDomainStarted_inv⟩
  | .domainStopped .. => ⟨⟨_, execDomainStopped_kept, rfl⟩, execDomainStopped_inv⟩
  | .powerStateSelect .. => ⟨⟨_, execPowerStateSelect_kept, rfl⟩, execPowerStateSelect_inv⟩
  | .wedgeCountMismatch .. => ⟨⟨_, execWedgeCountMismatch_kept, rfl⟩, execWedgeCountMismatch_inv⟩
  | .legacyWindowWrite .. => ⟨⟨_, execLegacyWindowWrite_kept, rfl⟩, execLegacyWindowWrite_inv⟩
  | .gpioEdge .. => ⟨⟨_, execGpioEdge_kept, rfl⟩, execGpioEdge_inv⟩
  | .pwrdisRise => ⟨⟨_, execPwrdisRise_kept, rfl⟩, execPwrdisRise_inv⟩
  | .pwrdisFall => ⟨⟨_, execPwrdisFall_kept, rfl⟩, execPwrdisFall_inv⟩
  | .jtagInstruction .. => ⟨⟨_, execJtagInstruction_kept, rfl⟩, execJtagInstruction_inv⟩
  | .registerWrite .. => ⟨⟨_, execRegisterWrite_kept, rfl⟩, execRegisterWrite_inv⟩
  | .powerDiePowerOn => ⟨⟨_, execPowerDiePowerOn_kept, rfl⟩, execPowerDiePowerOn_inv⟩
  | .v5Undervoltage .. => ⟨⟨_, execV5Undervoltage_kept, rfl⟩, execV5Undervoltage_inv⟩
  | .currentSenseSpareReturn => ⟨⟨_, execCurrentSenseSpareReturn_kept, rfl⟩, execCurrentSenseSpareReturn_inv⟩
  | .upstreamFrameFailure .. => ⟨⟨_, execUpstreamFrameFailure_kept, rfl⟩, execUpstreamFrameFailure_inv⟩
  | .perstRelease .. => ⟨⟨_, execPerstRelease_kept, rfl⟩, execPerstRelease_inv⟩
  | .smbusTimeout => ⟨⟨_, execSmbusTimeout_kept, rfl⟩, execSmbusTimeout_inv⟩
  | .hostPushLength .. => ⟨⟨_, execHostPushLength_kept, rfl⟩, execHostPushLength_inv⟩
  | .uartImageReceived .. => ⟨⟨_, execUartImageReceived_kept, rfl⟩, execUartImageReceived_inv⟩
  | .actNBlink => ⟨⟨_, execActNBlink_kept, rfl⟩, execActNBlink_inv⟩

theorem exec_next (i : Instr) (s : State) : ∃ t, exec i s = .next t := by
  obtain ⟨m, hkept, -⟩ := (instr_keeps i).kept
  obtain ⟨t, ht, -⟩ := hkept (p := (m, s)) (Nat.and_self m) State.Kept.refl
  exact ⟨t, ht⟩

/-- A part that the command does not list is as it was. -/
theorem exec_part_same (hexec : exec i s = .next t) (hpart : part ∉ mayChange i) : part.same s t := by
  obtain ⟨m, hkept, hcovers⟩ := (instr_keeps i).kept
  obtain ⟨u, hu, hsame⟩ := hkept (p := (m, s)) (Nat.and_self m) State.Kept.refl
  obtain rfl : u = t := Host.Outcome.next.inj (hu.symm.trans hexec)
  exact hsame.part_same (Part.testBit_of_covers hcovers hpart part.testBit_two)

theorem exec_keeps_inv (h : s.Inv q) (hexec : exec i s = .next t) : t.Inv q := by
  obtain ⟨u, hu, hinv⟩ := (instr_keeps i).inv h
  obtain rfl : u = t := Host.Outcome.next.inj (hu.symm.trans hexec)
  exact hinv

/-- A state that meets the invariant for a queue meets that of its own queue. -/
theorem State.Inv.wf (h : s.Inv q) : s.WF := by
  obtain rfl := h.queue
  exact h

/-- The invariant says of the queue what it is; a command that leaves it does not change what the invariant says. -/
theorem State.WF.dequeue (h : s.WF) (rest : List Instr) : State.Inv rest { s with pending := rest } :=
  ⟨rfl, h.regs, h.dram, h.core, h.aeq⟩

/-! ### The step -/

theorem step_of_empty (h : s.pending = []) : step s = .next s.millisecond := by
  rw [step, h]

theorem step_of_cons {rest : List Instr} (h : s.pending = i :: rest) : step s = exec i { s with pending := rest } := by
  rw [step, h]

/-- Settles O7: an idle step is `State.millisecond_inv`, and a command keeps the invariant of the queue behind it. -/
theorem everyStepKeepsTheInvariant : Obligations.EveryStepKeepsTheInvariant := by
  intro s t hwf hstep
  cases hq : s.pending with
  | nil =>
    rw [step_of_empty hq] at hstep
    obtain rfl := Host.Outcome.next.inj hstep
    exact (State.millisecond_inv hwf).wf
  | cons i rest =>
    rw [step_of_cons hq] at hstep
    exact (exec_keeps_inv (hwf.dequeue rest) hstep).wf

/-- Settles O9: the frames under Laws/, of which `mayChange` covers the masks. -/
theorem everyCommandKeepsTheOtherParts : Obligations.EveryCommandKeepsTheOtherParts := fun _ _ _ _ hexec hpart =>
  exec_part_same hexec hpart

/-- Settles O8: the invariant names the queue, and the command keeps the invariant. -/
theorem commandsLeaveTheQueue : Obligations.CommandsLeaveTheQueue := by
  intro i s t hwf hexec
  exact (exec_keeps_inv hwf hexec).queue

/-- Settles O1: `step_of_cons`. -/
theorem stepRunsTheFrontCommand : Obligations.StepRunsTheFrontCommand := by
  intro s i rest h
  exact step_of_cons h

/-- Settles O2: the millisecond of the recorder, the watchdogs and, in GEN, the power loss. -/
theorem emptyQueueStepIsAMillisecond : Obligations.EmptyQueueStepIsAMillisecond := by
  intro s h
  rw [step_of_empty h]
  by_cases hgen : s.mtr.sp = .gen
  · rw [if_pos hgen]
    exact congrArg Host.Outcome.next (if_pos hgen)
  · rw [if_neg hgen]
    exact congrArg Host.Outcome.next (if_neg hgen)

/-- Settles O3: a millisecond on an empty queue, and otherwise the command's own next state. -/
theorem everyStepAnswersANextState : Obligations.EveryStepAnswersANextState := by
  intro s
  cases hq : s.pending with
  | nil => exact ⟨_, step_of_empty hq⟩
  | cons i rest =>
    obtain ⟨t, ht⟩ := exec_next i { s with pending := rest }
    exact ⟨t, (step_of_cons hq).trans ht⟩

/-- Settles O4: both answers are the definitions' own. -/
theorem noTableRowSpellsAWord : Obligations.NoTableRowSpellsAWord := fun _ _ _ => ⟨rfl, rfl⟩

/-! ### The state at reset -/

/-- Settles O5: each field of `State.reset` is read off, for each Ridge, link, stream and channel. -/
theorem resetStandsBeforeItsRelease : Obligations.ResetStandsBeforeItsRelease := by
  refine ⟨rfl, rfl, ?ridges, rfl, ?links, ?angles, ?streams, ?dram, rfl, rfl, rfl, ?latemax⟩
  case ridges | links | angles => intro x; cases x <;> rfl
  case streams => intro t; cases t <;> exact ⟨rfl, rfl, rfl⟩
  case dram => intro ch b; cases ch <;> rfl
  case latemax => intro r; cases r <;> decide

/-- Settles O6: the stores are empty, and so are the stacks and the queues. -/
theorem resetKeepsTheInvariant : Obligations.ResetKeepsTheInvariant := by
  refine ⟨rfl, rfl, ?dram, ?core, ?aeq⟩
  case dram => intro ch; cases ch <;> rfl
  case core => intro r; cases r <;> exact Core.reset_fits
  case aeq => intro t; cases t <;> exact Nat.zero_le _

end Sys2Proof.Machine
end

section
/-!
PROOFS. Accesses through the bus to a place that answers with an error (R441) and to the peer window (R442, R443).
-/
namespace Sys2Proof.Machine

variable {s : State} {x : Accessor} {addr data : Word} {r : Side}

/-! ### An access that fails -/

theorem State.placeFails_of_down {p : Place} (h : s.placeUp p = false) : s.placeFails r p = true := by
  unfold State.placeFails
  rw [h, Bool.not_false, Bool.true_or]

theorem State.busRead_of_fails (h : s.placeFails x.ridge (place x.ridge addr) = true) :
    s.busRead x addr = (s.refuse x 5, none) := if_pos h

theorem exec_registerWrite_of_fails (hlive : s.ridgeLive x.ridge = true)
    (h : s.placeFails x.ridge (place x.ridge addr) = true) :
    exec (.registerWrite x addr data) s = .next (s.refuse x 5) := by
  rw [exec_registerWrite, execRegisterWrite, State.byRidge, if_pos hlive, State.busWrite, if_pos h]

/-- Settles O20: the failing access is refused before its place is looked at. -/
theorem poweredDownBlocksRefuseAccess : Obligations.PoweredDownBlocksRefuseAccess := by
  refine ⟨?domOn, ?refused, ?context, ?host, ?always⟩
  case domOn => exact fun s d => decide_eq_true_iff
  case refused =>
    intro s x addr data hlive hdown
    have hfails := State.placeFails_of_down (r := x.ridge) hdown
    exact ⟨exec_registerWrite_of_fails hlive hfails, State.busRead_of_fails hfails⟩
  case context =>
    intro s c x hctx
    rw [State.refuse, hctx]
    rfl
  case host =>
    intro s x hctx
    rw [State.refuse, hctx]
  case always =>
    intro s r
    cases r <;> exact ⟨rfl, rfl, rfl, rfl, rfl, rfl⟩

/-! ### The peer window (R443) -/

/-- An address of the peer window names a register or an engine memory of the peer, or nothing. -/
inductive Place.InPeerWindow : Place → Prop
  | reg (k : Nat) : InPeerWindow (.peerReg k)
  | mem (r : Side) (off : Nat) : InPeerWindow (.cenMem r off true)
  | unmapped : InPeerWindow .unmapped

theorem place_inPeerWindow (hlo : 0x1000000 ≤ addr.toNat) (hhi : addr.toNat < 0x2000000) :
    (place r addr).InPeerWindow := by
  simp only [place]
  rw [if_neg (by omega), if_neg (by omega)]
  split
  · exact .reg _
  · split
    · exact .mem _ _
    · rw [if_neg (by omega), if_neg (by omega), if_neg (by omega), if_neg (by omega), if_neg (by omega)]
      exact .unmapped

theorem State.peerServes_iff : s.peerServes r = true ↔ s.ridgeSt r.peer ≠ .reset ∧ s.ridgeSt r.peer ≠ .selftest :=
  decide_eq_true_iff

theorem State.placeFails_of_silent {p : Place} (h : p.InPeerWindow) (hpeer : s.peerServes r = false) :
    s.placeFails r p = true := by
  cases h with
  | unmapped => exact State.placeFails_of_down rfl
  | reg k => simp only [State.placeFails, hpeer, Bool.not_false, Bool.or_true]
  | mem q off => simp only [State.placeFails, hpeer, Bool.not_false, Bool.and_self, Bool.or_true]

theorem State.placeFails_of_serving {p : Place} (h : p.InPeerWindow) (hup : s.placeUp p = true)
    (hpeer : s.peerServes r = true) : s.placeFails r p = false := by
  cases h with
  | unmapped => cases hup
  | reg k => simp only [State.placeFails, hup, hpeer, Bool.not_true, Bool.or_self]
  | mem q off => simp only [State.placeFails, hup, hpeer, Bool.not_true, Bool.and_false, Bool.or_self]

/-- A read there has no side effect. -/
theorem State.busRead_of_peerWindow (h : (place x.ridge addr).InPeerWindow)
    (hanswers : s.placeFails x.ridge (place x.ridge addr) = false) :
    s.busRead x addr = (s.freeNext, some (s.peekAt x.ridge (place x.ridge addr))) := by
  unfold State.busRead
  generalize place x.ridge addr = p at h hanswers
  simp only [hanswers, Bool.false_eq_true, if_false]
  cases h <;> rfl

theorem State.busWrite_of_peerWindow (h : (place x.ridge addr).InPeerWindow) :
    s.busWrite x addr data = s.refuse x 5 := by
  unfold State.busWrite
  generalize place x.ridge addr = p at h
  dsimp only
  split
  · rfl
  · cases h <;> rfl

/-- Settles O22: every place of the window fails while the peer is silent, and is peeked at while it serves. -/
theorem peerWindowAnswersByThePeerState : Obligations.PeerWindowAnswersByThePeerState := by
  refine ⟨?silent, ?serving, fun _ _ _ => rfl⟩
  case silent =>
    intro s x addr data hlive hlo hhi hpeer
    have hsilent : s.peerServes x.ridge = false := by
      rw [Bool.eq_false_iff, ne_eq, State.peerServes_iff]
      rcases hpeer with h | h <;> simp [h]
    have hfails := State.placeFails_of_silent (place_inPeerWindow (r := x.ridge) hlo hhi) hsilent
    exact ⟨exec_registerWrite_of_fails hlive hfails, State.busRead_of_fails hfails⟩
  case serving =>
    intro s x addr data hlive hlo hhi hup hpeer
    have hserves : s.peerServes x.ridge = true := by
      rw [State.peerServes_iff]
      rcases hpeer with h | h | h <;> simp [h]
    have hwindow := place_inPeerWindow (r := x.ridge) hlo hhi
    refine ⟨State.busRead_of_peerWindow hwindow (State.placeFails_of_serving hwindow hup hserves), ?_⟩
    rw [exec_registerWrite, execRegisterWrite, State.byRidge, if_pos hlive, State.busWrite_of_peerWindow hwindow]

end Sys2Proof.Machine
end

section
/-!
PROOFS. A write of the mirrored region of the DRAM (R369): both channels take its bytes, each if it can.
-/
namespace Sys2Proof.Machine

variable {s : State} {a : Nat} {bs : List Byte}

/-- The write of a channel that can take it; one that cannot is as it was. -/
def State.channelWrite (s : State) (ch : Side) (a : Nat) (bs : List Byte) : State :=
  if s.dramOk ch a bs.length then s.modDram ch (fun c => c.write a bs) else s

theorem State.dramWrite_of_mirrored (h : s.mirrored a = true) (x : Side) :
    s.dramWrite x a bs = (s.channelWrite .a a bs).channelWrite .b a bs := if_pos h

theorem State.channelWrite_get_self (ch : Side) :
    (s.channelWrite ch a bs).dram.get ch =
      if s.dramOk ch a bs.length then (s.dram.get ch).write a bs else s.dram.get ch := by
  unfold State.channelWrite
  split
  · exact Two.get_set_same _ _ _
  · rfl

theorem State.channelWrite_get_peer (ch : Side) : (s.channelWrite ch a bs).dram.get ch.peer = s.dram.get ch.peer := by
  unfold State.channelWrite
  split
  · exact Two.get_set_peer _ _ _
  · rfl

/-- Whether a channel can take an access is seen of its own device, not of the other's bytes. -/
theorem State.channelWrite_dramOk_peer (ch : Side) (n : Nat) :
    (s.channelWrite ch a bs).dramOk ch.peer a n = s.dramOk ch.peer a n := by
  unfold State.channelWrite
  split
  · cases ch <;> rfl
  · rfl

theorem State.dramWrite_get_of_mirrored (h : s.mirrored a = true) (x ch : Side) :
    (s.dramWrite x a bs).dram.get ch =
      if s.dramOk ch a bs.length then (s.dram.get ch).write a bs else s.dram.get ch := by
  rw [State.dramWrite_of_mirrored h]
  cases ch with
  | a => exact (State.channelWrite_get_peer .b).trans (State.channelWrite_get_self .a)
  | b =>
    rw [State.channelWrite_get_self .b]
    rw [show (s.channelWrite .a a bs).dramOk .b a bs.length = s.dramOk .b a bs.length from
      State.channelWrite_dramOk_peer .a bs.length,
      show (s.channelWrite .a a bs).dram.get .b = s.dram.get .b from State.channelWrite_get_peer .a]

/-- Settles O24: by the two channel writes one after the other, of which neither sees the other's bytes. -/
theorem mirroredDramWriteReachesBothChannels : Obligations.MirroredDramWriteReachesBothChannels := by
  intro s x ch a bs hwf hmirrored
  rw [State.dramWrite_get_of_mirrored hmirrored]
  refine ⟨fun htakes i hi => ?takes, fun hout => ?out, fun b hb => ?outside⟩
  case takes =>
    rw [if_pos htakes]
    exact DramCh.byte_write_inside (hwf.dram ch) hi
  case out => rw [hout, if_neg Bool.false_ne_true]
  case outside =>
    split
    · exact DramCh.byte_write_outside (hwf.dram ch) hb
    · rfl

end Sys2Proof.Machine
end

section
/-!
PROOFS. The outputs in reset (Table 19.4): what a FULL and a POWER-ON reset leave of the state that drives them.
-/
namespace Sys2Proof.Machine

variable {s t : State} {mon : Bool} {b : Ball} {l : Level}

/-! ### Registers that a reset drops -/

theorem sget_of_notMem {α : Type} {d : Nat → α} {k : Nat} :
    ∀ {m : Sparse α}, (∀ e ∈ m, e.1 ≠ k) → sget d m k = d k
  | [], _ => rfl
  | (i, v) :: rest, h => by
    rw [sget, if_neg (h (i, v) List.mem_cons_self), sget_of_notMem (fun e he => h e (List.mem_cons_of_mem _ he)), ite_self]

theorem mem_sins {α : Type} {k : Nat} {v : α} {e : Nat × α} : ∀ {m : Sparse α}, e ∈ sins k v m → e = (k, v) ∨ e ∈ m
  | [], h => Or.inl (List.mem_singleton.mp h)
  | (i, w) :: rest, h => by
    unfold sins at h
    split at h
    · exact (List.mem_cons.mp h).imp id (List.mem_cons_of_mem _)
    · split at h
      · exact List.mem_cons.mp h
      · rcases List.mem_cons.mp h with hhead | hrest
        · exact Or.inr (List.mem_cons.mpr (Or.inl hhead))
        · exact (mem_sins hrest).imp id (List.mem_cons_of_mem _)

theorem mem_of_mem_sdel {α : Type} {k : Nat} {e : Nat × α} : ∀ {m : Sparse α}, e ∈ sdel k m → e ∈ m
  | [], h => h
  | (i, w) :: rest, h => by
    unfold sdel at h
    split at h
    · exact List.mem_cons_of_mem _ h
    · split at h
      · exact h
      · exact (List.mem_cons.mp h).elim (fun hhead => List.mem_cons.mpr (Or.inl hhead))
          (fun hrest => List.mem_cons_of_mem _ (mem_of_mem_sdel hrest))

theorem key_of_mem_sput {α : Type} [DecidableEq α] {d : Nat → α} {m : Sparse α} {k : Nat} {v : α} {e : Nat × α}
    (h : e ∈ sput d m k v) : e.1 = k ∨ e ∈ m := by
  unfold sput at h
  split at h
  · exact Or.inr (mem_of_mem_sdel h)
  · exact (mem_sins h).imp (fun he => congrArg Prod.fst he) id

/-! ### The state that a reset leaves -/

/-- What drives the outputs stands as a reset leaves it: the gates, the links, the clock and reset unit, the rebuild,
the stripe engines, the host commands, and every register that does not outlive a FULL reset. -/
structure State.HeldInReset (t : State) (mon : Bool) : Prop where
  tile : t.tile = Four.all Tile.reset
  link : t.link = Two.all Link.reset
  asserted : t.rcp.asserted = true
  phase : t.rcp.phase = .reset
  redun : t.redun = Two.all Redun.reset
  ste : t.ste = Two.all Ste.reset
  cmds : t.nve.cmds = []
  reg : ∀ {k}, keptReg mon k = false → t.reg k = regInit k

theorem State.fullReset_heldInReset (mon : Bool) : (s.fullReset mon).HeldInReset mon := by
  refine ⟨rfl, rfl, rfl, rfl, rfl, rfl, rfl, fun {k} hk => sget_of_notMem fun e he hkey => ?_⟩
  have hkept : keptReg mon e.1 = true := (List.mem_filter.mp he).2
  rw [hkey, hk] at hkept
  cases hkept

/-- Of the registers, MTR_PDFLT and RST_CAUSE alone are not at their reset values. -/
theorem State.powerOn_heldInReset (groups : BitVec 4) : (s.powerOn groups).HeldInReset false := by
  refine ⟨rfl, rfl, rfl, rfl, rfl, rfl, rfl, fun {k} hk => sget_of_notMem fun e he hkey => ?_⟩
  have hkept : keptReg false k = true := by
    rcases key_of_mem_sput he with hcause | hmem
    · rw [← hkey, hcause]
      rfl
    · rw [← hkey, eq_of_beq (List.mem_filter.mp hmem).2]
      rfl
  rw [hk] at hkept
  cases hkept

theorem State.HeldInReset.saddleOut (h : t.HeldInReset mon) : t.saddleOut = false := by
  rw [State.saddleOut, h.asserted, Bool.not_true, Bool.false_and]

theorem State.HeldInReset.regB (h : t.HeldInReset mon) {k : Nat} (hk : keptReg mon k = false) (n : Nat) :
    t.regB k n = bit (regInit k) n := congrArg (fun w => bit w n) (h.reg hk)

/-- No ball is an output or carries an alternate function; GPIO0 may carry AVS_PWM where the monitors are kept (R226). -/
theorem State.HeldInReset.gpioInput (h : t.HeldInReset mon) {n : Nat} (hmon : mon = false ∨ n ≠ 0) :
    t.gpioInput n = true := by
  have htrace : t.gpioTrace n = false := by
    rw [State.gpioTrace, h.regB (k := R_GPD_DBGCTL) (by cases mon <;> rfl),
      show bit (regInit R_GPD_DBGCTL) 2 = false from rfl, Bool.and_false]
  have hdir : t.regB R_GPD_DIR n = false := by
    rw [h.regB (by cases mon <;> rfl), show regInit R_GPD_DIR = 0#32 from rfl]
    exact BitVec.getLsbD_zero
  have havs : (decide (n = 0) && t.regB R_MON_CTL 4) = false := by
    rcases hmon with rfl | hn
    · rw [h.regB rfl, show bit (regInit R_MON_CTL) 4 = false from rfl, Bool.and_false]
    · rw [decide_eq_false hn, Bool.false_and]
  rw [State.gpioInput, htrace, havs, hdir]
  rfl

/-- ACT_N is not driven: its source is the host commands and the media work, of which there is none. -/
theorem State.HeldInReset.actLow (h : t.HeldInReset mon) : t.actLow = false := by
  have hcfg : t.regF R_GPD_ACTCFG 1 0 = 2 := by
    rw [State.regF, h.reg (by cases mon <;> rfl)]
    rfl
  have hwork : t.mediaWork = false := by
    rw [State.mediaWork, h.redun, h.ste]
    rfl
  have hcommands : t.actLow = if t.mediaWork then t.pins.blinkLow else t.nve.cmds.any (fun c => decide (c.sq ≠ 0)) := by
    rw [State.actLow, hcfg]
    rfl
  rw [hcommands, hwork, h.cmds]
  rfl

/-- The outputs stand as Table 19.4 says. -/
theorem State.HeldInReset.ball (h : t.HeldInReset mon) (hlevel : b.resetLevel = some l) (hmon : mon = false ∨ b ≠ .gpio 0) :
    t.ball b = l := by
  cases b with
  | wg q | ag q =>
    cases hlevel
    rw [State.ball, State.tl, h.tile]
    cases q <;> rfl
  | wd q =>
    cases hlevel
    rw [State.ball, h.regB (by cases mon <;> cases q <;> rfl)]
    cases q <;> rfl
  | qlk x =>
    cases hlevel
    rw [State.ball, h.link]
    cases x <;> rfl
  | pet p =>
    cases hlevel
    rw [State.ball, h.saddleOut, Bool.and_false]
    rfl
  | clkreq p | uartTx =>
    cases hlevel
    rw [State.ball, h.saddleOut]
    rfl
  | qspiCs =>
    cases hlevel
    rw [State.ball, h.phase]
    rfl
  | gpio n =>
    cases hlevel
    have hn : mon = false ∨ n.toNat ≠ 0 :=
      hmon.imp id fun hne hzero => hne (congrArg Ball.gpio (BitVec.eq_of_toNat_eq hzero))
    rw [State.ball, h.gpioInput hn]
    rfl
  | act =>
    cases hlevel
    rw [State.ball, h.actLow]
    rfl
  | smb | tdo => cases hlevel; rfl
  | phases | coil | brk | isog | dramBus | thermtrip => cases hlevel

/-- Settles O31: both resets leave `State.HeldInReset`. -/
theorem resetHoldsTheOutputs : Obligations.ResetHoldsTheOutputs := fun _ _ _ hlevel =>
  ⟨(State.fullReset_heldInReset false).ball hlevel (Or.inl rfl),
    fun groups => (State.powerOn_heldInReset groups).ball hlevel (Or.inl rfl),
    fun hgpio => (State.fullReset_heldInReset true).ball hlevel (Or.inr hgpio)⟩

end Sys2Proof.Machine
end

section
/-!
PROOFS. How a command completes: what each gate answers when it lets the command through. The hypothesis `hi` of a gate's
lemma names the gate of the command and `rfl` proves it; `ht` says what the command does behind the gate.
-/
namespace Sys2Proof.Machine

variable {s t u v : State} {i : Instr} {c : CtxId} {x : Accessor} {r : Side} {f : State → State} {key : Nat} {owned : Bool}

/-! ### Conditions -/

theorem exec_of_eq (hi : exec i s = .next t) (ht : t = u) : exec i s = .next u := hi.trans (congrArg Host.Outcome.next ht)

theorem exec_of_if {p : Prop} {dec : Decidable p} (hi : exec i s = .next (if p then t else v)) (hp : p)
    (ht : t = u := by rfl) : exec i s = .next u := exec_of_eq hi ((if_pos hp).trans ht)

theorem exec_of_else {p : Prop} {dec : Decidable p} (hi : exec i s = .next (if p then v else t)) (hp : ¬p)
    (ht : t = u := by rfl) : exec i s = .next u := exec_of_eq hi ((if_neg hp).trans ht)

/-! ### A live Ridge, and an access that is not refused -/

theorem exec_of_byCtx (hi : exec i s = .next (s.byCtx c f)) (hlive : s.ridgeLive c.ridge = true)
    (ht : f s = t := by rfl) : exec i s = .next t := exec_of_eq hi ((State.byCtx_of_live hlive f).trans ht)

theorem exec_of_byRidge (hi : exec i s = .next (s.byRidge r f)) (hlive : s.ridgeLive r = true)
    (ht : f s = t := by rfl) : exec i s = .next t := exec_of_if hi hlive ht

theorem State.access_of_granted (h : s.Granted x key owned) (f : State → State) : s.access x key owned f = f s := by
  obtain ⟨hlive, hup, howned⟩ := h
  simp only [State.access, hlive, hup, howned, Bool.true_eq_false, if_false]

theorem exec_of_access (hi : exec i s = .next (s.access x key owned f)) (h : s.Granted x key owned)
    (ht : f s = t := by rfl) : exec i s = .next t := exec_of_eq hi ((State.access_of_granted h f).trans ht)

theorem State.tileAccess_of_granted {q : Quad} (h : s.TileGranted x q) (f : State → State) :
    s.tileAccess x q f = f s := by
  obtain ⟨hlive, hon, howned⟩ := h
  simp only [State.tileAccess, hlive, hon, howned, Bool.true_eq_false, if_false]

theorem exec_of_tileAccess {q : Quad} (hi : exec i s = .next (s.tileAccess x q f)) (h : s.TileGranted x q)
    (ht : f s = t := by rfl) : exec i s = .next t := exec_of_eq hi ((State.tileAccess_of_granted h f).trans ht)

end Sys2Proof.Machine
end

section
/-!
PROOFS. The commands of CRY and of the power domains complete.
-/
namespace Sys2Proof.Machine

variable {s : State} {i : Instr} {x : Accessor} {op slot : Nat}

/-! ### CRY -/

theorem State.cryCmd_of_taken (hon : s.regB R_CRY_CTL 0 = true) (hidle : s.cry.busy = none)
    (hop : cryOpListed op = true) (hrom : op = 4 ∨ op = 5 → x.rom = true) (huse : op = 6 ∨ op = 7 → s.slotUse slot = 0) :
    s.cryCmd x op slot = s.cryTake op slot := by
  have htaken : ¬(s.regB R_CRY_CTL 0 = false ∨ s.cry.busy.isSome = true ∨ cryOpListed op = false) := by
    simp [hon, hidle, hop]
  have hallowed : ¬((op = 4 ∨ op = 5) ∧ x.rom = false) := fun h => by simp [hrom h.1] at h
  have hunused : ¬((op = 6 ∨ op = 7) ∧ s.slotUse slot ≠ 0) := fun h => h.2 (huse h.1)
  rw [State.cryCmd, if_neg htaken, if_neg hallowed, if_neg hunused]
  rfl

theorem exec_of_cryRow (hi : exec i s = .next (s.cryRow x op slot)) (h : s.CryReady x) (hop : cryOpListed op = true)
    (hrom : op = 4 ∨ op = 5 → x.rom = true) (huse : op = 6 ∨ op = 7 → s.slotUse slot = 0) :
    exec i s = .next (s.cryTake op slot) := by
  obtain ⟨hgranted, hon, hidle⟩ := h
  exact exec_of_access hi hgranted (State.cryCmd_of_taken hon hidle hop hrom huse)

/-- Settles O41: a command that is taken passes the three checks of CRY. -/
theorem cryptoCommandsComplete : Obligations.CryptoCommandsComplete := by
  refine ⟨?hash, ?verify, ?drbg, ?derive, ?sign, ?keyload, ?zeroize, ?devpub, ?ignored, ?done, ?drbgRead⟩
  case hash | verify | drbg | devpub =>
    intro s x hready
    exact exec_of_cryRow rfl hready rfl (by omega) (by omega)
  case derive | sign =>
    intro s x hready hrom
    exact exec_of_cryRow rfl hready rfl (fun _ => hrom) (by omega)
  case keyload | zeroize =>
    intro s x slot hready huse
    exact exec_of_cryRow rfl hready rfl (by omega) (fun _ => huse)
  case ignored =>
    intro s x data hgranted hrefused
    refine exec_of_else rfl ?untaken ((State.access_of_granted hgranted _).trans (if_pos hrefused))
    case untaken => rcases hrefused with h | h | h <;> simp [h, ← Option.not_isSome]
  case done =>
    intro s o hbusy hseal
    exact exec_of_eq rfl (by simp only [hbusy, hseal, Bool.false_eq_true, if_false])
  case drbgRead =>
    intro s x hgranted
    exact exec_of_access rfl hgranted

/-! ### Power domains -/

/-- Settles O42: a request by its access, its end by the state of the domain. -/
theorem powerDomainCommandsComplete : Obligations.PowerDomainCommandsComplete := by
  refine ⟨?state, ?on, ?off, ?ret, ?started, ?stopped, ?count⟩
  case state =>
    intro s x v hgranted
    exact exec_of_access rfl hgranted
  case on | off | ret =>
    intro s x hgranted
    exact exec_of_access rfl hgranted
  case started =>
    intro s d hstarting
    exact exec_of_if rfl hstarting
  case stopped =>
    intro s d hstopping hwaits
    exact exec_of_if rfl ⟨hstopping, hwaits⟩
  case count =>
    intro s x count hwsc hcount
    exact exec_of_if rfl (by simp [hwsc, hcount])

end Sys2Proof.Machine
end

section
/-!
PROOFS. The events of the angle synthesizers and the commands of the servo control engines complete.
-/
namespace Sys2Proof.Machine

variable {s : State} {r act : Side} {k : Nat} {ac : DWord} {sk : Option DWord}

/-! ### Angle synthesizers -/

/-- Settles O37: each event's guard holds. -/
theorem angleSynthesizerEventsComplete : Obligations.AngleSynthesizerEventsComplete := by
  refine ⟨?mark, ?flywheel, ?expiry, ?fallback, ?reference, ?observer, ?crosscheck, ?comparator, ?skew⟩
  case mark =>
    intro s r absent phase rate idx hen href howes
    exact exec_of_if rfl (by simp [hen, href, howes])
  case flywheel =>
    intro s r htracking
    exact exec_of_if rfl htracking
  case expiry =>
    intro s r periods hsrc hexpired
    exact exec_of_if rfl ⟨hsrc, hexpired⟩
  case fallback =>
    intro s r periods hsrc hspent
    exact exec_of_if rfl ⟨hsrc, hspent⟩
  case reference =>
    intro s r hup
    exact exec_of_if rfl hup
  case observer =>
    intro s rpm
    rfl
  case crosscheck =>
    intro s r hover herr
    exact exec_of_if rfl ⟨hover, by rw [herr]; rfl⟩
  case comparator =>
    intro s r n now harmed hreach hvalue
    exact exec_of_if rfl (by simp [harmed, hreach, hvalue])
  case skew =>
    intro s r data hlive hup
    exact exec_of_if rfl (by simp [hlive, hup])

/-! ### Servo control engines -/

/-- The switch of one engine alone. -/
theorem exec_modeSwitch_of_due_a (hpend : (s.modeOf .a act).pend = some (k, ac, sk)) (hdue : s.switchDue .a act = true)
    (hother : (s.applyMode .a act k sk).switchDue .b act = false) :
    exec (.modeSwitch act) s = .next (s.applyMode .a act k sk).genParked := by
  refine exec_of_if rfl (by simp [hdue]) ?_
  simp only [hpend, hdue, hother]

/-- Settles O55: each command's guard holds. -/
theorem servoControlCommandsComplete : Obligations.ServoControlCommandsComplete := by
  refine ⟨?pass, ?ramp, ?modeRequest, ?modeSwitch, ?seek, ?tick, ?hold, ?stale, ?node, ?coef, ?crosscheck, ?sync,
    ?syncDone, ?arm, ?force⟩
  case pass =>
    intro s r q blocks inp hready
    exact exec_of_if rfl hready
  case ramp | arm | force =>
    intro s r data hup
    exact exec_of_if rfl hup
  case modeRequest | seek | node | coef =>
    intro s c data hlive
    exact exec_of_byCtx rfl hlive
  case modeSwitch =>
    rintro s act k ac sk s1 hpend hdue rfl hother
    exact exec_modeSwitch_of_due_a hpend hdue hother
  case tick =>
    intro s r series now g rpm hup hsrc hseries hreach hdue
    exact exec_of_if rfl (by simp [hup, hsrc, hseries, hreach, hdue])
  case hold =>
    intro s r dest hup hout hhold
    exact exec_of_if rfl (by simp [hup, hout]) (if_pos hhold)
  case stale =>
    intro s r dest hup hout hhold hidle
    refine exec_of_if rfl (by simp [hup, hout]) ?_
    simp only [hhold, hidle, Bool.true_eq_false, Bool.false_eq_true, if_false]
  case crosscheck =>
    intro s r hrun
    exact exec_of_if rfl hrun
  case sync =>
    intro s r hup
    exact exec_of_if rfl hup
  case syncDone =>
    intro s r hcopying
    exact exec_of_if rfl hcopying

end Sys2Proof.Machine
end

section
/-!
PROOFS. The commands of the event recorder, of the ledger and of the stripe engines complete.
-/
namespace Sys2Proof.Machine

variable {s : State} {c : CtxId}

/-! ### Event recorder -/

/-- A post of a class that the recorder takes. -/
theorem exec_eventPost_of_taken {rom : Bool} {w : DWord} {code : Nat} (hw : w = (s.ctx c).stagedAt 0xD5)
    (hcode : code = fld w 15 0) (hlive : s.ridgeLive c.ridge = true) (hup : s.evrUp = true)
    (hon : s.regB R_EVR_CTL 0 = true) (hfirst : bit w 19 = false) (hrange : code < 0x0800 ∨ 0x7FFF < code)
    (hchain : chainCode code = false ∨ rom = true) (hspan : code ≠ 0x01F0 ∨ s.evr.spanOpen = true) :
    exec (.eventPost c rom) s = .next (s.postFirst c (BitVec.ofNat 16 code) (fld w 18 16)
      (if 0x8000 ≤ code then bit w 20 else evClass1 (BitVec.ofNat 16 code)) (s.ctx c).evParams) := by
  have hlisted : ¬(((0x0800 ≤ code ∧ code ≤ 0x7FFF) ∨ (chainCode code = true ∧ rom = false) ∨
      (code = 0x01F0 ∧ bit w 19 = false ∧ s.evr.spanOpen = false))) := by
    rintro (h | ⟨h, hrom⟩ | ⟨h, -, hclosed⟩)
    · omega
    · simp [h, hrom] at hchain
    · simp [h, hclosed] at hspan
  subst hw hcode
  refine exec_of_eq (exec_eventPost_of_live hlive) ?_
  simp only [State.evrPost, hup, hon, Bool.true_eq_false, if_false]
  rw [if_neg hlisted, if_neg (Bool.eq_false_iff.mp hfirst)]

/-- CRY has nothing to do before the seal: what it is busy with waits behind it. -/
theorem State.noneBefore_seal (h : s.cry.busy.all (fun o => s.sealFirst o) = true) :
    s.cry.busy.any (fun o => !s.sealFirst o) = false := by
  cases hbusy : s.cry.busy with
  | none => rfl
  | some o => simpa [hbusy] using h

/-- Settles O53: each row's guard holds, and a seal is signed or not by the key there is. -/
theorem recorderCommandsComplete : Obligations.RecorderCommandsComplete := by
  refine ⟨?post, ?expiry, ?refill, ?record, ?checkpoint, ?scanEmpty, ?scanFound, ?calendar, ?latch, ?signed, ?unsigned⟩
  case post =>
    intro s c rom hlive hup hon hfirst hrange hchain hspan
    exact exec_eventPost_of_taken rfl rfl hlive hup hon hfirst hrange hchain hspan
  case expiry =>
    intro s c
    rfl
  case refill =>
    intro s bucket
    rfl
  case record =>
    intro s hup
    exact exec_of_if rfl hup
  case checkpoint =>
    intro s hperiod hup hdue
    exact exec_of_else rfl (by simp [hperiod, hup, hdue])
  case scanEmpty =>
    intro s hscan hnone
    refine exec_of_else rfl (by simp [hscan]) ?_
    simp only [hnone]
  case scanFound =>
    intro s w hscan hfound
    refine exec_of_else rfl (by simp [hscan]) ?_
    simp only [hfound]
  case calendar =>
    intro s data hup
    exact exec_calendarSet_of_up data hup
  case latch =>
    intro s x hgranted
    exact exec_of_access rfl hgranted
  case signed =>
    rintro s ok seq h k hpend hbusy rfl hkey
    have hkey' : (s.modEvr (fun e => { e with sealPend := none })).cry.aliasKey = some k := hkey
    refine exec_of_eq rfl ?_
    simp only [hpend, State.noneBefore_seal hbusy, hkey', Bool.false_eq_true, if_false, if_true]
  case unsigned =>
    rintro s ok seq h hpend hbusy rfl
    exact exec_of_eq rfl (by simp only [hpend, State.noneBefore_seal hbusy, Bool.false_eq_true, if_false])

/-! ### Ledger -/

/-- Settles O45: every port of the ledger asks for its power domain alone. -/
theorem ledgerCommandsComplete : Obligations.LedgerCommandsComplete := by
  refine ⟨?acquire, ?window, ?media, ?release, ?available, ?audit⟩
  case acquire | window | media =>
    intro s c reg hlive hup
    exact exec_of_byCtx rfl hlive (if_pos hup)
  case release =>
    intro s c data l hlive hup hlease howner hamount hbuffer
    exact (exec_creditRelease_of_live hlive hup).trans
      (congrArg _ (State.creditRelease_of_held hlease howner hamount hbuffer))
  case available =>
    intro s c w hwait hfits
    exact exec_of_eq rfl (by simp only [hwait, hfits, if_true])
  case audit =>
    intro s hup
    exact exec_of_if rfl hup

/-! ### Stripe engines -/

/-- Settles O57: every port of a stripe engine asks for its power domain and its enable. -/
theorem stripeEngineCommandsComplete : Obligations.StripeEngineCommandsComplete := by
  refine ⟨?acquire, ?release, ?move, ?landing, ?recon, ?scrub, ?pop⟩
  case acquire | pop =>
    intro s c reg hlive hon
    exact exec_of_byCtx rfl hlive (if_pos hon)
  case release | move | recon | scrub =>
    intro s c data hlive hon
    exact exec_of_byCtx rfl hlive (if_pos hon)
  case landing =>
    intro s r hdom hen hlive
    exact exec_of_if rfl (by simp [hdom, hen, hlive])

end Sys2Proof.Machine
end

section
/-!
PROOFS. The commands of the Spurs complete: their local ports, their contexts and their words.
-/
namespace Sys2Proof.Machine

variable {s : State} {i : Instr} {c : CtxId} {w : MicroWord} {ce : Bool}

/-! ### Spur-local ports -/

/-- Settles O51: the queue ports by their owner, the comparators by their synthesizer's power domain. -/
theorem spurLocalPortsComplete : Obligations.SpurLocalPortsComplete := by
  refine ⟨?sig0, ?sig1, ?ffSet, ?ffClear, ?ack, ?arm, ?disarm, ?post, ?angRead, ?flush, ?release⟩
  case sig0 | sig1 | ffSet | ffClear | ack =>
    intro s c data hlive
    exact exec_of_byCtx rfl hlive
  case arm | disarm =>
    intro s c n hlive hup
    exact exec_of_byCtx rfl hlive (if_pos hup)
  case post =>
    intro s c t hlive hon hown hslot hroom
    have hpair : ¬(s.wsc = true ∧ t.slot = .b) := by
      rintro ⟨hwsc, hb⟩
      simp [hwsc, hb] at hslot
    exact (exec_post_of_live hlive).trans (congrArg _ (State.post_of_room hon hown hpair hroom))
  case angRead =>
    intro s c src hlive
    exact exec_of_byCtx rfl hlive
  case flush =>
    intro s c t hlive hon hown
    exact (exec_aeqFlush_of_live hlive).trans (congrArg _ (State.aeqAccess_of_owner hon hown _))
  case release =>
    intro s c w hlive hwait hcond
    exact exec_of_byCtx rfl hlive (by simp only [hwait, hcond, if_true])

/-! ### Contexts -/

theorem State.ctxCmd_stop {addr : CsAddr} (hadopt : (s.ctx c).st ≠ .adopt) (hruns : (s.ctx c).st.runs = true) :
    s.ctxCmd c 2 addr = s.modCtx c (fun x => if x.committing then { x with stopReq := true } else x.halted) := by
  simp only [State.ctxCmd, State.ctxCmd?, if_neg hadopt, hruns, if_true, Option.getD_some]

theorem State.ctxCmd_release {addr : CsAddr} (hhalt : (s.ctx c).st = .halt) :
    s.ctxCmd c 5 addr =
      (s.setCtx c { s.ctx c with st := .idle, snap := none, adopted := false, stepReq := false }).adoptEntry := by
  simp only [State.ctxCmd, State.ctxCmd?, hhalt, if_true, Option.getD_some]

theorem State.ctxCmd?_of_reserved {cmd : Nat} (h : 6 ≤ cmd) (addr : CsAddr) : s.ctxCmd? c cmd addr = none := by
  obtain ⟨k, rfl⟩ := Nat.exists_eq_add_of_le' h
  rfl

/-- Settles O56: each command's guard holds, and a context command is one of Table 2.8. -/
theorem spurContextCommandsComplete : Obligations.SpurContextCommandsComplete := by
  refine ⟨?readReturn, ?portTimeout, ?urgent, ?segment, ?waitTimeout, ?waitBound, ?adopts, ?overruns, ?ack, ?start,
    ?stop, ?resume, ?release, ?reserved, ?debug, ?load, ?loadAddress, ?matchWrite, ?refetch, ?bootlock⟩
  case readReturn =>
    intro s c port o hlive hread
    exact exec_of_byCtx rfl hlive (by simp only [hread])
  case portTimeout =>
    intro s c port hlive
    exact exec_of_byCtx rfl hlive
  case urgent =>
    intro s c n sn hlive hruns hcommit hgive hline hsnap
    exact exec_urgentEntry_of_ready hlive hruns hcommit hgive hline hsnap
  case segment =>
    intro s c hlive hmax hwarned hfetches
    exact exec_of_byCtx rfl hlive (if_neg (by simp [hmax, hwarned, hfetches]))
  case waitTimeout | waitBound =>
    intro s c w hlive hwait hspent
    exact exec_of_byCtx rfl hlive (by simp only [hwait, hspent, if_true])
  case adopts | overruns =>
    intro s c m rest hlive hinbox hst
    refine exec_of_else rfl (by simp [hlive]) ?_
    simp only [hinbox, hst, decide_true, decide_false, if_true, Bool.false_eq_true, if_false]
  case ack =>
    intro s c hacks
    exact exec_of_else rfl hacks
  case start =>
    intro s c addr hlive hst
    exact (exec_contextStart_of_live hlive addr).trans (congrArg _ (State.ctxCmd_start hst))
  case stop =>
    intro s c hlive hadopt hruns
    exact exec_of_byCtx rfl hlive (State.ctxCmd_stop hadopt hruns)
  case resume =>
    intro s c sn hlive hst hsnap
    exact (exec_contextResume_of_live hlive).trans (congrArg _ (State.ctxCmd_resume hst hsnap))
  case release =>
    intro s c hlive hhalt
    exact (exec_contextRelease_of_live hlive).trans (congrArg _ (State.ctxCmd_release hhalt))
  case reserved =>
    intro s c cmd hlive hcmd
    exact exec_of_byCtx rfl hlive (if_neg (by simp [State.ctxCmd?_of_reserved hcmd]))
  case debug | bootlock =>
    intros
    exact exec_of_if rfl ‹_›
  case load | loadAddress =>
    intro s x data hgranted
    exact exec_of_access rfl hgranted
  case matchWrite =>
    intro s r off data hlive
    exact exec_of_if rfl hlive
  case refetch =>
    intro s c hlive hfetches hfetch
    exact exec_of_byCtx rfl hlive (if_pos (by simp [hfetches, hfetch]))

/-! ### Words -/

theorem exec_of_seqRow {q : Nat} {seq : Nat → Bool} (hi : exec i s = .next (s.seqRow c w ce seq)) (hseq : seq q = true)
    (h : s.WordDue c w ce q) : exec i s = .next ((s.afterFetch c ce).runWord c w) := by
  have hrun := State.issue_of_due h
  obtain ⟨hq, hissue, hword, -⟩ := h
  refine exec_of_eq hi ?_
  rw [State.seqRow_of_seq (hq ▸ hseq), hissue, hword, Bool.and_self, if_pos rfl, hrun]

/-- A word of a reserved encoding raises a fault wherever it stands. -/
theorem Ctx.wordFaults_any_of_reserved (x : Ctx) (h : 12 ≤ wSeq w) : (x.wordFaults w).any = true := by
  unfold Ctx.wordFaults
  split
  · rfl
  · simp only [FaultSet.any, h, decide_true, Bool.true_or]

theorem State.issue_of_reserved (h : 12 ≤ wSeq w) :
    s.issue c w ce = (s.afterFetch c ce).ctxFault c
      ((s.afterFetch c ce).fetchAddr c.ridge ((s.afterFetch c ce).ctx c).pc) (((s.afterFetch c ce).ctx c).wordFaults w) :=
  if_pos (Ctx.wordFaults_any_of_reserved _ h)

/-- Settles O58: each command takes the words of its own encoding. -/
theorem microwordsComplete : Obligations.MicrowordsComplete := by
  refine ⟨?next, ?jump, ?call, ?ret, ?brt, ?brf, ?wait, ?poll, ?disp, ?yield, ?halt, ?loop, ?illseq, ?step⟩
  case next | jump | call | ret | brt | brf | wait | poll | disp | yield | halt | loop =>
    intro s c w ce hdue
    exact exec_of_seqRow rfl rfl hdue
  case illseq =>
    intro s c w ce hseq hissue hword
    refine exec_of_eq rfl ((State.seqRow_of_seq (decide_eq_true hseq)).trans ?_)
    rw [hissue, hword, Bool.and_self, if_pos rfl, State.issue_of_reserved hseq]
  case step =>
    intro s c w ce hlive hhalt hreq hissue
    exact exec_of_byCtx rfl hlive ((if_pos ⟨hhalt, hreq⟩).trans (if_pos hissue))

end Sys2Proof.Machine
end

section
/-!
PROOFS. The commands of the Zone Table complete: an update that its rule takes is stored, and every one bumps the
generation.
-/
namespace Sys2Proof.Machine

variable {s : State} {i : Instr} {c : CtxId} {w : DWord} {k : Nat} {e : ZEntry}

/-- The operation that a command puts in its word is the one the table reads there. -/
theorem fld_ztbOp (hk : k < 16) : fld (ztbOp k w) 63 60 = k := by
  simp only [fld, ztbOp, putFld, BitVec.toNat_or, BitVec.toNat_and, Nat.shiftRight_or_distrib,
    Nat.shiftRight_and_distrib]
  rw [show (~~~(BitVec.ofNat 64 ((2 ^ (63 + 1 - 60) - 1) <<< 60))).toNat >>> 60 = 0 by decide, Nat.and_zero, Nat.zero_or]
  revert k
  decide

theorem ztbApply_of_unlisted (h : fld w 63 60 = 0 ∨ 7 < fld w 63 60) : ztbApply e w = none := by
  unfold ztbApply
  split
  case h_8 => rfl
  all_goals omega

/-- The update that a command's rule takes (Table 11.7). -/
theorem exec_of_ztbApply (hi : exec i s = .next (s.byCtx c (fun s => s.ztbUpdate c (ztbOp k w)))) (hk : k < 16)
    (hlive : s.ridgeLive c.ridge = true) (hup : s.ztbUp = true)
    (happly : ztbApply (s.zent (fld (ztbOp k w) 16 0)) (ztbOp k w) = some e) :
    exec i s = .next (when_ (decide (k = 5)) (fun s => s.zoneCleared (fld (ztbOp k w) 16 0) e)
      (s.putZent (fld (ztbOp k w) 16 0) e).bumpGen) := by
  refine exec_of_byCtx hi hlive ?_
  simp only [State.ztbUpdate, hup, happly, fld_ztbOp hk, Bool.true_eq_false, if_false]

/-- Settles O59: every update by `exec_of_ztbApply`, of which RESET alone clears its zone. -/
theorem zoneTableCommandsComplete : Obligations.ZoneTableCommandsComplete := by
  refine ⟨?window, ?state, ?wp, ?hwp, ?stgadd, ?reset, ?degset, ?free, ?refused, ?scan, ?found, ?notFound⟩
  case window =>
    intro s x off data hgranted
    exact exec_of_access rfl hgranted
  case scan =>
    intro s x data hgranted
    exact exec_of_access rfl hgranted
  case state | wp | hwp | stgadd | reset | degset | free =>
    intro s c w e hlive hup happly
    exact exec_of_ztbApply rfl (by decide) hlive hup happly
  case refused =>
    intro s c w hlive hup hcode
    exact (exec_ztbUpdateRefused_of_unlisted hlive hcode).trans
      (congrArg _ (State.ztbUpdate_of_refused hup (ztbApply_of_unlisted hcode)))
  case found | notFound =>
    intros
    refine exec_of_if rfl ‹_› ?_
    simp only [*]

end Sys2Proof.Machine
end

section
/-!
PROOFS. Register accesses, and the commands of the read/write channel and of the Cairn journal complete.
-/
namespace Sys2Proof.Machine

variable {s : State} {x : Accessor} {addr data : Word} {k : Nat} {t : Quad} {now : DWord} {smps : List Smp}

/-! ### Register accesses -/

/-- A read of a register that has a side effect, through a port that may have one (R6). -/
theorem State.busRead_of_rs (h : s.BusReaches x addr (.reg k)) (hrs : isRs k = true) (hport : x.port ≠ 0xE1) :
    (s.busRead x addr).1 = (s.rsEffect k).freeNext := by
  obtain ⟨-, hplace, hanswers⟩ := h
  simp only [State.busRead, hplace, hanswers, State.placeRs, State.readEffect, hrs, hport, decide_false, Bool.and_false,
    Bool.false_eq_true, if_false, if_true]

theorem place_angAcLo (r : Side) : place r (BitVec.ofNat 32 R_ANG_AC_LO) = .reg (rk r R_ANG_AC_LO) := by
  cases r <;> rfl

theorem isRs_angAcLo (r : Side) : isRs (rk r R_ANG_AC_LO) = true := by
  cases r <;> decide

/-- The read of the low half latches the Angle Count. -/
theorem State.rsEffect_angAcLo (r : Side) :
    s.rsEffect (rk r R_ANG_AC_LO) = s.modAng r (fun a => { a with acLatch := a.ac }) := by
  cases r <;> rfl

/-- Settles O38: the bus reaches the register, and its own rule follows. -/
theorem busAccessesComplete : Obligations.BusAccessesComplete := by
  refine ⟨?stored, ?special, ?counter, ?angle, ?legacy⟩
  case stored =>
    intro s x addr data k hreach hrefused hspecial
    rw [exec_registerWrite_of_busReaches hreach, State.regWrite_stored hrefused hspecial]
  case special =>
    intro s x addr data k u hreach hrefused hspecial
    rw [exec_registerWrite_of_busReaches hreach]
    simp only [State.regWrite, hrefused, hspecial]
  case counter =>
    intro s x addr k hreach hrs hport
    exact exec_of_byRidge rfl hreach.1 (State.busRead_of_rs hreach hrs hport)
  case angle =>
    intro s x k hreach hport
    obtain ⟨hlive, hplace, -⟩ := id hreach
    obtain rfl : rk x.ridge R_ANG_AC_LO = k := Place.reg.inj ((place_angAcLo x.ridge).symm.trans hplace)
    refine exec_of_byRidge rfl hlive ?_
    rw [State.busRead_of_rs hreach (isRs_angAcLo x.ridge) hport, State.rsEffect_angAcLo]
  case legacy =>
    intro s x addr data t o hreach hown
    obtain ⟨hlive, hplace, hanswers⟩ := hreach
    refine exec_of_byRidge rfl hlive ?_
    simp only [hplace, State.busWrite, hanswers, hown, Bool.false_eq_true, if_false, if_true]

/-! ### Read/write channel -/

/-- A write's last codeword bit. -/
theorem exec_sectorComplete_of_write {sec : Sector} {s1 : State} (hreach : s.canReach (s.angSide t) now = true)
    (hs1 : s1 = ((s.reach t now).takeSmps t smps).skipsDue t (s.streamAcAt t now)) (hsec : (s1.tl t).sector = some sec)
    (hopen : sec.gateOpen = true) (hdone : sec.done = false) (hwrite : sec.isWrite = true)
    (hend : (s1.closeFrag t sec (s1.bitsFrom t sec.run.rise (s.streamAcAt t now))).2.2 = true) :
    exec (.sectorComplete t now smps) s = .next (s1.putSector t { sec with done := true, pos := 36864 }) := by
  subst hs1
  refine exec_of_eq rfl ?_
  simp only [hsec, hreach, hopen, hdone, hwrite, hend, Bool.not_false, Bool.and_self, if_true]

/-- A read's last codeword bit: its window closes, and its last fragment is taken. -/
theorem exec_sectorComplete_of_read {sec closed : Sector} {s1 s2 : State} (hreach : s.canReach (s.angSide t) now = true)
    (hs1 : s1 = ((s.reach t now).takeSmps t smps).skipsDue t (s.streamAcAt t now)) (hsec : (s1.tl t).sector = some sec)
    (hopen : sec.gateOpen = true) (hdone : sec.done = false) (hread : sec.isWrite = false)
    (hend : (s1.closeFrag t sec sec.run.smps.length).2.2 = true) (hs2 : s2 = s1.closeWin t sec.run.smps.length)
    (hclosed : (s2.tl t).sector = some closed) :
    exec (.sectorComplete t now smps) s = .next ((s2.takeFrag t { closed with pos := 36864 }).1.endRead t
      (s2.takeFrag t { closed with pos := 36864 }).2 .ok) := by
  subst hs1 hs2
  refine exec_of_eq rfl ?_
  simp only [hsec, hreach, hopen, hdone, hread, hend, hclosed, Bool.not_false, Bool.and_self, Bool.false_eq_true,
    if_true, if_false]

/-- The pattern of a window is found in the samples up to `now`. -/
theorem exec_syncMatch_of_found {win : SyncWin} {sec : Sector} {p : Nat} {s1 : State} (hwin : (s.tl t).win = some win)
    (hreach : s.canReach (s.angSide t) now = true) (hfirst : win.found = false)
    (hs1 : s1 = (s.reach t now).takeSmps t smps) (hsec : (s1.tl t).sector = some sec)
    (hfound : win.search (sec.run.smps.map Smp.hard) (sec.run.smps.map Smp.hard).length = some p) :
    exec (.syncMatch t now smps) s = .next (s1.syncFound t win p) := by
  subst hs1
  refine exec_of_eq rfl ?_
  simp only [hwin, hreach, hfirst, hsec, Option.map_some, Option.getD_some, hfound, Bool.not_false, Bool.and_self,
    if_true]

/-- Settles O40: each event's guard holds, and the two ends of a sector by the lemmas above. -/
theorem channelCommandsComplete : Obligations.ChannelCommandsComplete := by
  refine ⟨?clock, ?swap, ?bank, ?spareStart, ?takeover, ?spareReturn, ?asperity, ?dropout, ?freezeEnd, ?release,
    ?writeEnd, ?readEnd, ?underrun, ?onTheFly, ?request, ?enable, ?submit, ?pop, ?wedge, ?keepout, ?sync, ?skip,
    ?skipList, ?status, ?descriptor, ?trackid, ?ignored⟩
  case clock =>
    intro s t hfault
    exact exec_of_if rfl hfault
  case swap =>
    intro s x t hgranted
    exact exec_of_tileAccess rfl hgranted
  case bank =>
    intro s x t sel data hgranted
    exact exec_of_tileAccess rfl hgranted
  case spareStart | release | enable | skipList | trackid =>
    intro s x t v hgranted
    exact exec_of_tileAccess rfl hgranted
  case descriptor =>
    intro s x t slot word data hgranted
    exact exec_of_tileAccess rfl hgranted
  case takeover =>
    intro s t k u hspare
    exact exec_of_eq rfl (by simp only [hspare])
  case spareReturn =>
    intro s t k u hspare hunused hgate
    refine exec_of_eq rfl ?_
    rcases hspare with hstanding | hwaiting
    · simp only [hstanding, hunused hstanding, hgate, Bool.false_eq_true, if_false]
    · simp only [hwaiting, hgate, Bool.false_eq_true, if_false]
  case asperity | dropout =>
    rintro s t level smps x at_ s1 hkind hsec hrg hread hopen rfl rfl
    refine exec_of_eq rfl ?_
    simp only [hkind, hsec, hrg, hread, hopen, Bool.not_false, Bool.and_self, if_true]
  case freezeEnd =>
    intro s t level smps k lo x hfreeze hsec hrg hkind
    refine exec_of_eq rfl ?_
    simp only [hfreeze, hsec, hrg, hkind, Option.isNone_none, Bool.and_self, if_true]
  case writeEnd =>
    intro s t now smps x s1 hreach hs1 hsec hopen hdone hwrite hend
    exact exec_sectorComplete_of_write hreach hs1 hsec hopen hdone hwrite hend
  case readEnd =>
    intro s t now smps x y s1 s2 hreach hs1 hsec hopen hdone hread hend hs2 hclosed
    exact exec_sectorComplete_of_read hreach hs1 hsec hopen hdone hread hend hs2 hclosed
  case underrun =>
    intro s t x hsec hwrite hopen hdone hwg
    exact exec_of_eq rfl (by simp only [hsec, hwrite, hopen, hdone, hwg, Bool.not_false, Bool.and_self, if_true])
  case onTheFly =>
    intro s r slot res n q k st m hjob
    exact exec_of_eq rfl (by simp only [hjob])
  case request =>
    rintro s r slot res n c w0 w1 w2 w3 s1 hjob rfl hhere
    exact exec_of_eq rfl (by simp only [hjob, hhere, if_true])
  case submit =>
    intro s c hlive
    exact exec_of_byCtx rfl hlive
  case pop =>
    intro s c reg hlive
    exact exec_of_byCtx rfl hlive
  case wedge =>
    intro s t now w hreach hon hhead
    exact exec_of_if rfl (by simp [hreach, hon, hhead])
  case keepout =>
    intro s t now hreach hwg hin
    exact exec_of_if rfl (by simp [hreach, hwg, hin])
  case sync =>
    intro s t now smps w x p s1 hwin hreach hfirst hs1 hsec hfound
    exact exec_syncMatch_of_found hwin hreach hfirst hs1 hsec hfound
  case skip =>
    intro s t now hreach
    exact exec_of_if rfl hreach
  case status =>
    intro s c t reg hlive hon
    exact exec_of_byCtx rfl hlive (if_pos hon)
  case ignored =>
    intro s x t w hgranted hdesc htrack
    exact exec_of_tileAccess rfl hgranted (if_neg (by simp [hdesc, htrack]))

/-! ### Cairn -/

/-- A step of the emergency flush: `k` sectors of its list are now on the media. -/
theorem exec_emergencyFlush_of_due {u r : Side} {n k : Nat} {s1 : State} (hunit : s.rlg.unit.get u = some r)
    (hgen : s.mtr.sp = .gen) (hflushing : s.win.flushing.get u = true) (hservice : s.ridgeSt r = .inService)
    (hspeed : s.tooSlow = false) (hk : k = min (pieceSectors (s.flushList u)) (s.win.flushed.get u + n))
    (hs1 : s1 = (s.modWin (fun w =>
      { w with
        flushed := w.flushed.set u k
        unread := w.unread.set u
          (w.unread.get u ++ s.unreadable r (s.flushList u) (s.win.flushed.get u) k) })).pfAt 5) :
    exec (.emergencyFlush u n) s = .next (if k = pieceSectors (s.flushList u) then s1.flushEnd u [] else s1) := by
  subst hk hs1
  refine exec_of_eq rfl ?_
  simp only [hunit, hgen, hflushing, hservice, hspeed, and_self, if_true]

/-- Settles O39: each event's guard holds, and the flush ends with its last sector. -/
theorem cairnCommandsComplete : Obligations.CairnCommandsComplete := by
  refine ⟨?append, ?bankLoss, ?resync, ?resyncDone, ?deferred, ?powerLoss, ?flushGoes, ?flushEnds, ?tooSlow, ?replay⟩
  case append =>
    intro s c hlive
    exact exec_of_byCtx rfl hlive
  case bankLoss =>
    intro s r hdown
    exact exec_of_else rfl (Bool.eq_false_iff.mp hdown)
  case resync =>
    intro s x hlive
    exact exec_of_if rfl hlive
  case resyncDone =>
    intro s r
    rfl
  case deferred =>
    intro s asn lba cause p hpiece hlo hhi
    refine exec_of_eq rfl ?_
    simp only [hpiece, hlo, hhi, and_self, if_true]
  case powerLoss =>
    intro s pfail vmot hloss
    exact exec_of_if rfl (by simpa using hloss)
  case flushGoes =>
    intro s x n r k s1 hunit hgen hflushing hservice hspeed hk hs1 hmore
    exact (exec_emergencyFlush_of_due hunit hgen hflushing hservice hspeed hk hs1).trans
      (congrArg _ (if_neg hmore.ne))
  case flushEnds =>
    intro s x n r k s1 hunit hgen hflushing hservice hspeed hk hlast hs1
    have hmin : k = min (pieceSectors (s.flushList x)) (s.win.flushed.get x + n) := by omega
    exact (exec_emergencyFlush_of_due hunit hgen hflushing hservice hspeed hmin hs1).trans (congrArg _ (if_pos hk))
  case tooSlow =>
    intro s x hflushing hstop
    exact exec_of_if rfl ⟨hflushing, hstop⟩
  case replay =>
    intro s r img hservice hfirst hreplayed
    exact exec_of_if rfl ⟨hservice, hfirst, hreplayed⟩

end Sys2Proof.Machine
end

section
/-!
PROOFS. Fences, takeovers and rejoins, and the commands of the host ports and of management complete.
-/
namespace Sys2Proof.Machine

variable {s : State} {i : Instr} {x : Accessor} {p : Side} {f : State → State}

/-! ### Fences and takeovers -/

/-- Settles O43: each command's guard holds, and the branch within it is the one its hypotheses choose. -/
theorem fenceAndTakeoverCommandsComplete : Obligations.FenceAndTakeoverCommandsComplete := by
  refine ⟨?fence, ?last, ?lockstepFirst, ?lockstepAgain, ?engine, ?stripe, ?saddle, ?test, ?ignored, ?takeover, ?switch,
    ?handback, ?sameImage, ?otherImage, ?rejoin, ?reset, ?standby, ?rejoins⟩
  case fence =>
    intro s r cause hcause
    exact exec_fence_of_holds hcause
  case last =>
    intro s r cause hlast hcause
    exact exec_of_if rfl (by simp [hlast, hcause])
  case lockstepFirst | lockstepAgain =>
    intro s r sp hlive hseen
    refine exec_of_else rfl (by simp [hlive]) ?_
    simp only [hseen, Bool.false_eq_true, if_false, if_true]
  case engine =>
    rintro s k r rfl
    rfl
  case stripe =>
    rintro s k r buf rfl hlive
    exact exec_of_if rfl hlive
  case saddle =>
    rintro s k aErr bErr rfl hfree
    exact exec_of_else rfl (by simp [hfree])
  case test =>
    intro s x hgranted hcause
    exact exec_of_access rfl hgranted (if_pos hcause)
  case ignored =>
    intro s x data hgranted hcode
    exact exec_of_access rfl hgranted (if_neg (by omega))
  case takeover =>
    intro s r t6 t8 hdue hservice
    exact exec_of_if rfl ⟨hdue, hservice⟩
  case switch =>
    intro s r hlive hup
    exact exec_of_if rfl (by simp [hlive, hup])
  case handback =>
    intro s r work hlive hup
    exact exec_of_if rfl (by simp [hlive, hup])
  case sameImage =>
    intro s c hswitching hgiving htags
    exact exec_of_if rfl (by simp [hswitching, hgiving]) (if_pos htags)
  case otherImage =>
    intro s c hswitching hgiving htags
    exact exec_of_if rfl (by simp [hswitching, hgiving]) (if_neg htags)
  case rejoin =>
    intro s r syncOk hlive hup
    exact exec_of_if rfl (by simp [hlive, hup])
  case reset =>
    intro s r hfenced
    exact exec_of_if rfl hfenced
  case standby =>
    rintro s r syncOk s1 hselftest rfl hauto
    exact exec_of_if rfl hselftest (if_neg (by simp [hauto]))
  case rejoins =>
    rintro s r syncOk s1 hselftest rfl hauto hwarm hup
    exact exec_of_if rfl hselftest (if_pos (by simp [hauto, hwarm, hup]))

/-! ### Host ports -/

/-- An access to a port that is on. -/
theorem exec_of_hptAccess {t : State} (hi : exec i s = .next (s.hptAccess x p f))
    (h : s.Granted x (lk p R_HPT_ID) true) (hon : s.portOn p = true) (ht : f s = t := by rfl) : exec i s = .next t :=
  exec_of_access hi h ((if_pos hon).trans ht)

/-- A request of SPDM after the algorithms are agreed. -/
theorem exec_of_spdm {t : State} (hi : exec i s = .next (s.spdm f)) (h : s.mgmt.spdmAlgs = true)
    (ht : f s = t := by rfl) : exec i s = .next t := exec_of_if hi h ht

/-- Settles O44: each event's guard holds, and an SPDM request follows the ones before it. -/
theorem hostPortCommandsComplete : Obligations.HostPortCommandsComplete := by
  refine ⟨?linkDown, ?hotReset, ?perst, ?perstRelease, ?retrain, ?reequalize, ?flr, ?poisonNone, ?poisonWrite, ?basic,
    ?smbus, ?version, ?capabilities, ?algorithms, ?digests, ?certificate, ?challenge, ?all, ?one, ?keyExchange⟩
  case linkDown =>
    intro s p hon hdl
    exact exec_of_if rfl (by simp [hon, hdl])
  case hotReset =>
    intro s p hon hdl
    exact exec_of_if rfl (by simp [hon, hdl])
  case perst =>
    intro s p hon hperst
    exact exec_of_if rfl (by simp [hon, hperst])
  case perstRelease =>
    rintro s p speed width s1 hon hperst hasserted rfl
    refine exec_of_if rfl (by simp [hon, hperst, hasserted]) ?_
    simp only [Bool.or_eq_true, Bool.and_eq_true, decide_eq_true_eq]
  case retrain =>
    intro s x p speed width hgranted hon
    exact exec_of_hptAccess rfl hgranted hon
  case reequalize =>
    intro s x p hgranted hon
    exact exec_of_hptAccess rfl hgranted hon
  case flr =>
    intro s p f hon hreset
    exact exec_of_if rfl (by simp [hon, hreset])
  case poisonNone =>
    rintro s p n s1 hon rfl hnone
    exact exec_of_if rfl hon (by simp only [hnone])
  case poisonWrite =>
    rintro s p n c s1 hon rfl hsome hwrite hsq hport hchecked hcommitted
    refine exec_of_if rfl hon ?_
    simp only [hsome, hwrite, hsq, hport, hchecked, hcommitted, ne_eq, not_false_eq_true, and_self, decide_true,
      Bool.not_false, Bool.and_self, if_true]
  case basic =>
    intro s addr haddr
    exact exec_of_if rfl haddr
  case smbus | version | keyExchange =>
    intro s
    rfl
  case capabilities =>
    intro s hversion
    exact exec_of_if rfl hversion
  case algorithms =>
    intro s p384 sha384 hcaps hp hsha
    exact exec_of_else rfl (by simp [hcaps]) (if_pos (by simp [hp, hsha]))
  case digests =>
    intro s halgs
    exact exec_of_spdm rfl halgs
  case certificate =>
    intro s slot halgs
    exact exec_of_spdm rfl halgs
  case challenge =>
    intro s nonce k halgs hfree hkey
    exact exec_of_spdm rfl halgs (by simp only [hfree, hkey, Bool.false_eq_true, if_false])
  case all =>
    intro s idx halgs hfree hidx
    exact exec_of_spdm rfl halgs (by simp only [hfree, hidx, Bool.false_eq_true, if_false, if_true])
  case one =>
    intro s idx halgs hfree hlo hhi
    have hone : idx ≠ 0xFF := by
      rintro rfl
      exact absurd hhi (by decide)
    exact exec_of_spdm rfl halgs (by simp only [hfree, hone, hlo, hhi, Bool.false_eq_true, if_false, and_self, if_true])

end Sys2Proof.Machine
end

section
/-!
PROOFS. The commands of memory protection, of the pins and of reset and boot complete.
-/
namespace Sys2Proof.Machine

variable {s : State}

/-- Settles O47: a scrub step and a leak by the kind of the memory. -/
theorem memoryProtectionCommandsComplete : Obligations.MemoryProtectionCommandsComplete := by
  refine ⟨?ridgeScrub, ?dramScrub, ?ridgeLeak, ?dramLeak, ?unaligned⟩
  case ridgeScrub =>
    rintro s m es stored last part r i rfl hon
    exact exec_of_else rfl (by simp [hon])
  case dramScrub =>
    rintro s m es stored last part x rfl hon
    exact exec_of_else rfl (by simp [hon])
  case ridgeLeak =>
    rintro s m r i rfl hi
    exact exec_of_if rfl hi
  case dramLeak =>
    rintro s m x rfl
    rfl
  case unaligned =>
    intro s x addr data es hdata hline hok
    exact exec_dramPartialWrite_of_due hdata (Nat.le_of_lt_succ hline) hok

/-- Settles O50: each event's guard holds, and a JTAG instruction by its code and the debug lock. -/
theorem packagePinsComplete : Obligations.PackagePinsComplete := by
  refine ⟨?edge, ?rise, ?fall, ?idcode, ?bypass, ?debug, ?blink⟩
  case edge =>
    rintro s n rising s1 hup hinput hon hchange rfl
    exact exec_of_if rfl (by simp [hup, hinput, hon, hchange])
  case rise =>
    intro s hlow
    exact exec_of_else rfl (by simp [hlow])
  case fall =>
    intro s hhigh
    exact exec_of_if rfl hhigh
  case idcode =>
    intro s ir hir
    exact exec_of_if rfl hir
  case bypass =>
    intro s ir hir
    have hnotId : ir ≠ 1 := by omega
    exact exec_of_else rfl hnotId (if_pos (hir.imp id And.right))
  case debug =>
    intro s ir hnotBypass hnotId hopen
    exact exec_of_else rfl hnotId (if_neg (by simp [hnotBypass, hopen]))
  case blink =>
    intro s hblinks
    exact exec_of_if rfl hblinks

/-- Settles O54: each command's guard holds. -/
theorem resetAndBootCommandsComplete : Obligations.ResetAndBootCommandsComplete := by
  refine ⟨?powerOn, ?resetN, ?vmot, ?softwareFull, ?full, ?trip, ?tripRelease, ?softwareBlock, ?blockDone,
    ?blockWatchdog, ?ridgeWatchdog, ?kick, ?release, ?noxtal, ?push, ?uart, ?boot⟩
  case powerOn =>
    intro s groups hgroups
    exact exec_of_else rfl hgroups
  case resetN | vmot =>
    intro s
    rfl
  case softwareFull | softwareBlock =>
    intro s x data hgranted
    exact exec_of_access rfl hgranted
  case full =>
    intro s hgen
    exact exec_of_else rfl hgen
  case trip =>
    intro s n t hn ht
    exact exec_of_if rfl ⟨hn, ht⟩
  case tripRelease =>
    intro s temps hhold hlength hcool
    exact exec_of_if rfl ⟨hhold, hlength, hcool⟩
  case blockDone =>
    intro s hbusy
    exact exec_of_if rfl hbusy
  case blockWatchdog =>
    intro s r blk b hbase hon hup
    exact exec_of_eq rfl (by simp only [hbase, hon, hup, Bool.and_self, if_true])
  case ridgeWatchdog =>
    intro s r hexpired
    exact exec_of_else rfl (by simp [hexpired])
  case kick =>
    intro s x r hgranted
    exact exec_of_access rfl hgranted
  case release =>
    intro s straps fuse0 fuse1 hasserted hhold
    exact exec_of_if rfl (by simp [hasserted, hhold])
  case noxtal =>
    intro s hasserted hhold
    exact exec_of_if rfl (by simp [hasserted, hhold])
  case push =>
    intro s p len hphase hsource
    exact exec_of_if rfl ⟨hphase, hsource⟩
  case uart =>
    intro s len hsource
    exact exec_of_if rfl hsource
  case boot =>
    intro s r b hready
    exact exec_of_if rfl hready

end Sys2Proof.Machine
end

section
/-!
PROOFS. The commands of the host complete: controllers, Admin commands, doorbells, I/O commands, reservations and the
hedge.
-/
namespace Sys2Proof.Machine

variable {s s1 t : State} {i : Instr} {n : Nat} {opc : Byte} {c : Cmd} {f : State → Cmd → State}

/-! ### Controllers and Admin commands -/

/-- An Admin command that NVE serves now. -/
theorem exec_of_adminCmd (hi : exec i s = .next (s.adminCmd n opc f)) (h : s.AdminDue n opc c)
    (ht : f s c = t := by rfl) : exec i s = .next t := by
  obtain ⟨hcmd, hopc, hsq, hroom, hlimited⟩ := h
  have hserved :
      ¬(c.sqe.opc ≠ opc ∨ c.sq ≠ 0 ∨ s.cplRoom c = false ∨ (s.rcp.limited = true ∧ limitedOpc opc = false)) := by
    rcases hlimited with h | h <;> simp [hopc, hsq, hroom, h]
  exact exec_of_eq hi (by simp only [State.adminCmd, hcmd, if_neg hserved, ht])

theorem State.getLog_of_listed {s2 : State} (hlisted : logListed (fld c.sqe.c10 7 0) = true)
    (hlimited : s.rcp.limited = false ∨ fld c.sqe.c10 7 0 = 0xC0 ∨ fld c.sqe.c10 7 0 = 0xC3)
    (hs1 : s1 = if bit c.sqe.c10 15 then s else s.modCtrl c.ctrl (fun k => k.unmask (fld c.sqe.c10 7 0)))
    (hs2 : s2 = if fld c.sqe.c10 7 0 = 0xC0 then s1.recorderPage c.logOff c.logLen else s1) :
    s.getLog c = (s2.dataBack c.logLen (fun k => s2.logByte (fld c.sqe.c10 7 0) (c.logOff + k))).completeOk c := by
  have hserved : ¬(s.rcp.limited = true ∧ fld c.sqe.c10 7 0 ≠ 0xC0 ∧ fld c.sqe.c10 7 0 ≠ 0xC3) := by
    rintro ⟨hlim, hnotRecorder, hnotBoot⟩
    simp [hlim, hnotRecorder, hnotBoot] at hlimited
  subst hs1 hs2
  simp only [State.getLog, hlisted, if_neg hserved, Bool.true_eq_false, if_false]

/-- Settles O34: a controller command by its guard, an Admin command by `exec_of_adminCmd`. -/
theorem adminCommandsComplete : Obligations.AdminCommandsComplete := by
  refine ⟨?enable, ?reset, ?normal, ?abrupt, ?deleteSq, ?createSq, ?deleteCq, ?createCq, ?getLog, ?identify, ?abort,
    ?setFeatures, ?getFeatures, ?eventRequest, ?eventPost, ?nsManage, ?nsAttach, ?fwCommit, ?fwDownload, ?selfTest,
    ?virtual, ?miSend, ?miReceive, ?secSend, ?secReceive, ?format, ?sanitize, ?invalid⟩
  case enable =>
    intro s n asqs acqs wrr hup hfn hen
    exact exec_of_if rfl (by simp [hup, hfn, hen])
  case reset | abrupt =>
    intro s n hen
    exact exec_of_if rfl hen
  case normal =>
    intro s n hen hidle hlast hwindow
    refine exec_of_else rfl (by simp [hen]) ?_
    simp only [hidle, hlast, hwindow, Bool.true_eq_false, Bool.false_eq_true, ne_eq, not_true_eq_false, if_false]
  case deleteSq | createSq | deleteCq | createCq | abort | selfTest | virtual | miSend | miReceive | secSend | secReceive
      | format | sanitize =>
    intro s n c hdue
    exact exec_of_adminCmd rfl hdue
  case getLog =>
    intro s n c s1 s2 hdue hlisted hlimited hs1 hs2
    exact exec_of_adminCmd rfl hdue (State.getLog_of_listed hlisted hlimited hs1 hs2)
  case identify =>
    intro s n c hdue hlisted
    exact exec_of_adminCmd rfl hdue (if_pos hlisted)
  case setFeatures =>
    intro s n hid ts c hdue
    exact exec_of_adminCmd rfl hdue
  case getFeatures =>
    intro s n c hdue hlisted
    exact exec_of_adminCmd rfl hdue (if_pos hlisted)
  case eventRequest =>
    intro s n c hdue hfirst hroom
    exact exec_of_adminCmd rfl hdue
      ((if_neg (Bool.eq_false_iff.mp hfirst)).trans (if_neg (Nat.not_le.mpr hroom)))
  case eventPost =>
    intro s n k ks a as_ c hevents haers hcmd hroom
    exact exec_of_eq rfl (by simp only [hevents, haers, hcmd, hroom, Bool.true_eq_false, if_false])
  case nsManage =>
    intro s n zoned size lbaf c hdue
    exact exec_of_adminCmd rfl hdue
  case nsAttach | fwCommit | fwDownload =>
    intro s n v c hdue
    exact exec_of_adminCmd rfl hdue
  case invalid =>
    intro s n c hcmd hopc
    exact exec_of_eq rfl (by simp only [hcmd, hopc, Bool.false_eq_true, if_false])

/-! ### Doorbells -/

/-- A completion queue's new head, and what was waiting for room in it. -/
theorem exec_cqHeadDoorbell_of_listed {q head : Nat} {x : Cq} (hup : s.nveUp = true)
    (hq : (s.ctrl n).cqOf q = some x) (hhead : head < x.size)
    (htaken : (head + x.size - x.head) % x.size ≤ x.entries.length)
    (hs1 : s1 = (s.traffic (portOf n)).modCtrl n (fun c => c.modCq q (fun y =>
      { y with head := head, entries := y.entries.drop ((head + x.size - x.head) % x.size) }))) :
    exec (.cqHeadDoorbell n q head) s = .next (s1.drainStage s1.nve.staging.length n q) := by
  subst hs1
  refine exec_of_else rfl (by simp [hup]) ?_
  simp only [hq]
  exact if_neg (by omega)

/-! ### I/O commands -/

/-- An I/O command whose checks pass. -/
theorem exec_of_ioCmd (hi : exec i s = .next (s.ioCmd n opc f)) (h : s.IoDue n opc c)
    (hchecks : s.checkSteps c = (s1, none)) (ht : f s1 c = t := by rfl) : exec i s = .next t := by
  obtain ⟨hcmd, hopc, hsq, hfirst, holder, hroom⟩ := h
  have hnext : ¬(c.sqe.opc ≠ opc ∨ c.sq = 0 ∨ c.checked = true ∨ s.olderUnchecked c = true ∨ s.cplRoom c = false) := by
    simp [hopc, hsq, hfirst, holder, hroom]
  exact exec_of_eq hi (by simp only [State.ioCmd, hcmd, if_neg hnext, hchecks, ht])

/-- A command is checked once. -/
theorem State.ioCmd_of_checked (h : s.IoChecked n opc c) (f : State → Cmd → State) : s.ioCmd n opc f = s := by
  obtain ⟨hcmd, -, -, hchecked⟩ := h
  simp only [State.ioCmd, hcmd]
  exact if_pos (Or.inr (Or.inr (Or.inl hchecked)))

/-- A read whose sources are chosen is tried on the media. -/
theorem State.readRow_of_released {xfer : Bool} {tries : List (List ReadTry)} (h : s.IoChecked n opc c)
    (hreleased : c.released = true) (htries : tries.length = c.blocks) (hread : c.readOk = false)
    (habort : c.abortReq = false) : s.readRow n opc xfer tries = s.readMedia c xfer tries := by
  have hio := State.ioCmd_of_checked h
  obtain ⟨hcmd, hopc, hsq, -⟩ := h
  simp only [State.readRow, hio, hcmd, hreleased, hopc, hsq, htries, hread, habort, ne_eq, not_false_eq_true, and_self,
    decide_true, Bool.not_true, Bool.not_false, Bool.and_false, Bool.false_and, Bool.and_self, Bool.false_eq_true,
    if_false, if_true]

/-- A read whose hedge entry is free of older ones chooses its sources; the tries given are for another one. -/
theorem State.readRow_of_clear {xfer : Bool} {tries : List (List ReadTry)} (h : s.IoChecked n opc c)
    (hreleased : c.released = false) (hclear : s.entryClear c = true) (hs1 : s1 = s.releaseRead c)
    (htries : (s1.cmd n).all (fun k => tries.length != k.blocks) = true) : s.readRow n opc xfer tries = s1 := by
  have hio := State.ioCmd_of_checked h
  obtain ⟨hcmd, hopc, hsq, hchecked⟩ := h
  subst hs1
  simp only [State.readRow, hio, hcmd, hreleased, hopc, hsq, hchecked, hclear, ne_eq, not_false_eq_true, and_self,
    decide_true, Bool.not_false, Bool.and_self, if_true]
  split
  next k hk =>
    have hlength : tries.length ≠ k.blocks := by simpa [hk] using htries
    exact if_neg (by simp [hlength])
  next => rfl

/-- A FLUSH that no older write holds back. -/
theorem exec_flush_of_done (h : s.IoChecked n 0x00 c) (hdone : s.flushDone c = true) :
    exec (.flush n) s = .next (s.completeOk c) := by
  have hio := State.ioCmd_of_checked h
  obtain ⟨hcmd, hopc, hsq, hchecked⟩ := h
  refine exec_of_eq rfl ?_
  simp only [hio, hcmd, hopc, hsq, hchecked, hdone, ne_eq, not_false_eq_true, and_self, decide_true, Bool.and_self,
    if_true]

/-- An action on one zone that its rule takes. -/
theorem exec_zoneManagementSend_of_taken {d : Cmd} (h : s.IoChecked n 0x79 c) (habort : c.abortReq = false)
    (hspans : c.spans = []) (hclear : s.entryClear c = true) (hop : s.zoneOp c = (s1, true)) (hd : s1.cmd n = some d) :
    exec (.zoneManagementSend n) s = .next (s1.completeOk d) := by
  have hio := State.ioCmd_of_checked h
  obtain ⟨hcmd, hopc, hsq, hchecked⟩ := h
  refine exec_of_eq rfl ?_
  simp only [hio, hcmd, hopc, hsq, hchecked, habort, hspans, hclear, hop, hd, ne_eq, not_false_eq_true, not_true_eq_false,
    and_self, decide_true, Bool.false_and, Bool.not_false, Bool.and_self, true_or, if_false, if_true]

/-! ### Reservations -/

theorem exec_reservationAcquire_of_due {crkey prkey : DWord} (h : s.IoDue n 0x11 c)
    (hchecks : s.checkSteps c = (s, none)) (ht : s.resvAcquire c crkey prkey = t) :
    exec (.reservationAcquire n crkey prkey) s = .next t := by
  have hio : exec (.reservationAcquire n crkey prkey) s =
      .next (s.ioCmd n 0x11 (fun s c => s.resvAcquire c crkey prkey)) := by
    obtain ⟨hcmd, -, -, hfirst, -⟩ := h
    exact exec_of_eq rfl (by simp only [hcmd, hfirst, Bool.false_eq_true, if_false])
  exact exec_of_ioCmd hio h hchecks ht

section
variable {crkey prkey : DWord} {r : Resv} (hr : r = Resv.ofNs (s.ns c.ns)) (hkey : r.keyOf c.host = some crkey)
  (hlo : 1 ≤ fld c.sqe.c10 15 8) (hhi : fld c.sqe.c10 15 8 ≤ 6)
include hr hkey hlo hhi

/-- The type asked for is that of a free namespace or the holder's own. -/
theorem State.resvAcquire_of_free (haction : fld c.sqe.c10 2 0 = 0)
    (hfree : r.rtype = 0 ∨ (r.holder = some c.host ∧ r.rtype = fld c.sqe.c10 15 8)) :
    s.resvAcquire c crkey prkey =
      (s.modResv c.ns (fun x => { x with rtype := fld c.sqe.c10 15 8, holder := some c.host })).completeOk c := by
  have hregistered : ¬(r.keyOf c.host ≠ some crkey) := not_not_intro hkey
  have htype : ¬(fld c.sqe.c10 15 8 = 0 ∨ 6 < fld c.sqe.c10 15 8) := by omega
  have hopen : ¬(r.rtype ≠ 0 ∧ (r.holder ≠ some c.host ∨ r.rtype ≠ fld c.sqe.c10 15 8)) := by
    rintro ⟨htaken, hother⟩
    simp only [htaken, false_or] at hfree
    exact hother.elim (fun h => h hfree.1) (fun h => h hfree.2)
  subst hr
  simp only [State.resvAcquire, if_neg hregistered, if_neg htype, haction, if_neg hopen]

/-- A preemption, with or without an abort of the commands of the hosts that lose their keys. -/
theorem State.resvAcquire_of_preempt {m : Nat} (hm : m = 1 ∨ m = 2) (haction : fld c.sqe.c10 2 0 = m)
    (hs1 : s1 = s.modResv c.ns (fun x => x.preempt (r.others prkey c.host) prkey (fld c.sqe.c10 15 8) c.host)) :
    s.resvAcquire c crkey prkey =
      if m = 1 ∨ s1.preempted c (r.others prkey c.host) = [] then s1.completeOk c
      else s1.abortAll c (s1.preempted c (r.others prkey c.host)) := by
  have hregistered : ¬(r.keyOf c.host ≠ some crkey) := not_not_intro hkey
  have htype : ¬(fld c.sqe.c10 15 8 = 0 ∨ 6 < fld c.sqe.c10 15 8) := by omega
  subst hr hs1
  rw [State.resvAcquire, if_neg hregistered, if_neg htype, haction]
  rcases hm with rfl | rfl <;> rfl

end

/-! ### Ends of uncommitted writes -/

section
variable (h : s.IoChecked n c.sqe.opc c) (hcommitted : c.committed = false) (hzoned : s.nsZoned c.ns = true)
  (hopc : c.sqe.opc = 0x01 ∨ c.sqe.opc = 0x08 ∨ c.sqe.opc = 0x7D)
include h hcommitted hzoned hopc

theorem exec_zoneWriteCascade_of_abort (habort : c.abortReq = true) :
    exec (.zoneWriteCascade n 0) s = .next (s.endUncommitted c c.abortStat) := by
  obtain ⟨hcmd, -, hsq, hchecked⟩ := h
  refine exec_of_eq rfl ?_
  simp only [hcmd, hsq, hchecked, hcommitted, hzoned, hopc, habort, ne_eq, not_false_eq_true, and_self, decide_true,
    Bool.not_false, Bool.and_self, if_true]

/-- A write whose data fail: by their protection information, or by a poisoned transfer. -/
theorem exec_zoneWriteCascade_of_error {cause : Nat} (hlo : 1 ≤ cause) (hhi : cause ≤ 4) :
    exec (.zoneWriteCascade n cause) s =
      .next (s.endUncommitted c (if cause = 4 then stat 0 0x04 else piStatus (cause - 1))) := by
  obtain ⟨hcmd, -, hsq, hchecked⟩ := h
  obtain rfl | rfl | rfl | rfl : cause = 1 ∨ cause = 2 ∨ cause = 3 ∨ cause = 4 := by omega
  all_goals
    refine exec_of_eq rfl ?_
    simp only [hcmd, hsq, hchecked, hcommitted, hzoned, hopc, ne_eq, not_false_eq_true, and_self, decide_true,
      Bool.not_false, Bool.and_self, if_true, reduceIte, Nat.reduceEqDiff, Nat.reduceSub]

end

/-- Settles O35: a doorbell and a port by their guards, an I/O command by its checks or behind them. -/
theorem admissionAndIoCommandsComplete : Obligations.AdmissionAndIoCommandsComplete := by
  refine ⟨?sqTail, ?cqHead, ?fetch, ?asn, ?asnLimit, ?qalloc, ?nscfg, ?write, ?zeroes, ?append, ?read, ?readRelease,
    ?verify, ?verifyRelease, ?dsm, ?flush, ?zoneSend, ?zoneReceive, ?register, ?report, ?acquire, ?preempt,
    ?preemptAbort, ?acquireEnds, ?release, ?grant, ?lookup, ?remove, ?unblock, ?cascadeAbort, ?cascadeError, ?pop, ?post⟩
  case sqTail =>
    intro s n q tail x hup hq htail
    refine exec_of_else rfl (by simp [hup]) ?_
    simp only [hq, htail, if_true]
  case cqHead =>
    intro s n q upto x s1 hup hq hhead htaken hs1
    exact exec_cqHeadDoorbell_of_listed hup hq hhead htaken hs1
  case fetch =>
    intro s n q sqe x hq hon hen hrdy hserve hturn hasn
    rw [exec_commandFetch_of_due hq hon hen hrdy hserve hturn hasn]
  case asn | asnLimit | qalloc | nscfg =>
    intro s x data hgranted
    exact exec_of_access rfl hgranted
  case write | append =>
    intro s n din data c s1 hdue hchecks
    exact exec_of_ioCmd rfl hdue hchecks
  case zeroes | report =>
    intro s n c s1 hdue hchecks
    exact exec_of_ioCmd rfl hdue hchecks
  case read | verify =>
    intro s n tries c hchecked hreleased htries hread habort
    exact exec_of_eq rfl (State.readRow_of_released hchecked hreleased htries hread habort)
  case readRelease | verifyRelease =>
    intro s n tries c s1 hchecked hreleased hclear hs1 htries
    exact exec_of_eq rfl (State.readRow_of_clear hchecked hreleased hclear hs1 htries)
  case dsm | release =>
    intro s n v c s1 hdue hchecks
    exact exec_of_ioCmd rfl hdue hchecks
  case flush =>
    intro s n c hchecked hdone
    exact exec_flush_of_done hchecked hdone
  case zoneSend =>
    intro s n c d s1 hchecked habort hspans hclear hop hd
    exact exec_zoneManagementSend_of_taken hchecked habort hspans hclear hop hd
  case zoneReceive =>
    intro s n c s1 hdue hchecks hzoned hslba
    exact exec_of_ioCmd rfl hdue hchecks ((if_pos hzoned).trans (if_neg (Nat.not_lt.mpr hslba)))
  case register =>
    intro s n nrkey crkey c s1 hdue hchecks
    exact exec_of_ioCmd rfl hdue hchecks
  case acquire =>
    intro s n crkey prkey c r hdue hchecks hr hkey hlo hhi haction hfree
    exact exec_reservationAcquire_of_due hdue hchecks (State.resvAcquire_of_free hr hkey hlo hhi haction hfree)
  case preempt =>
    intro s n crkey prkey c r s1 hdue hchecks hr hkey hlo hhi hs1 haction
    refine exec_reservationAcquire_of_due hdue hchecks ?_
    rcases haction with haction | ⟨haction, hnone⟩
    · exact (State.resvAcquire_of_preempt hr hkey hlo hhi (Or.inl rfl) haction hs1).trans (if_pos (Or.inl rfl))
    · exact (State.resvAcquire_of_preempt hr hkey hlo hhi (Or.inr rfl) haction hs1).trans (if_pos (Or.inr hnone))
  case preemptAbort =>
    intro s n crkey prkey c r s1 hdue hchecks hr hkey hlo hhi hs1 haction hsome
    refine exec_reservationAcquire_of_due hdue hchecks ?_
    exact (State.resvAcquire_of_preempt hr hkey hlo hhi (Or.inr rfl) haction hs1).trans (if_neg (by simp [hsome]))
  case acquireEnds =>
    intro s n crkey prkey c hchecked hwaits
    obtain ⟨hcmd, hopc, hsq, hdone⟩ := hchecked
    exact exec_of_eq rfl (by simp only [hcmd, hdone, hopc, hsq, hwaits, ne_eq, not_false_eq_true, and_self, if_true])
  case grant =>
    intro s n c hcmd hwait
    exact exec_of_eq rfl (by simp only [hcmd, hwait, if_true])
  case lookup | pop =>
    intro s c reg hlive hup
    exact exec_of_byCtx rfl hlive (if_pos hup)
  case remove | post =>
    intro s c data hlive hup
    exact exec_of_byCtx rfl hlive (if_pos hup)
  case unblock =>
    intro s e x hent hcommitted
    exact exec_of_eq rfl (by simp only [hent, hcommitted, if_true])
  case cascadeAbort =>
    rintro s n cause c hchecked hcommitted hzoned hopc rfl habort
    exact exec_zoneWriteCascade_of_abort hchecked hcommitted hzoned hopc habort
  case cascadeError =>
    intro s n cause c hchecked hcommitted hzoned hopc hlo hhi
    exact exec_zoneWriteCascade_of_error hchecked hcommitted hzoned hopc hlo hhi

end Sys2Proof.Machine
end

section
/-!
PROOFS. The commands of the members and the rebuild, and of calibration and the monitors complete.
-/
namespace Sys2Proof.Machine

variable {s s1 : State} {x : Side} {h trig n : Nat}

/-! ### Members, rebuild, scrub -/

section
variable (hhead : h < 12) (hholds : s.trigHolds x h trig n = true)
include hhead hholds

theorem State.memberTrigger_of_online (hst : (s.memberAt x h).st = .online) :
    s.memberTrigger x h trig n =
      if trig = 2 ∨ trig = 4 ∨ trig = 6 ∨ trig = 7 then s.memberFail x h trig
      else if trig ≤ 7 then s.memberTo x h .suspect trig else s := by
  have htaken : ¬(12 ≤ h ∨ s.trigHolds x h trig n = false) := by simp [hhead, hholds]
  simp only [State.memberTrigger, if_neg htaken, hst, decide_eq_true_eq]

theorem State.memberTrigger_of_suspect (hst : (s.memberAt x h).st = .suspect) :
    s.memberTrigger x h trig n = if trig = 9 then s.memberTo x h .online trig else s.memberFail x h trig := by
  have htaken : ¬(12 ≤ h ∨ s.trigHolds x h trig n = false) := by simp [hhead, hholds]
  simp only [State.memberTrigger, if_neg htaken, hst]

end

/-- The soft triggers of Table 12.3, which make a head suspect, and the hard ones, at which it fails. -/
theorem toNat_of_soft {k : BitVec 4} (h : k = 0 ∨ k = 1 ∨ k = 3 ∨ k = 5) :
    ¬(k.toNat = 2 ∨ k.toNat = 4 ∨ k.toNat = 6 ∨ k.toNat = 7) ∧ k.toNat ≤ 7 := by
  rcases h with rfl | rfl | rfl | rfl <;> decide

theorem toNat_of_hard {k : BitVec 4} (h : k = 2 ∨ k = 4 ∨ k = 6 ∨ k = 7) :
    k.toNat = 2 ∨ k.toNat = 4 ∨ k.toNat = 6 ∨ k.toNat = 7 := by
  rcases h with rfl | rfl | rfl | rfl <;> decide

theorem State.modRedun_congr {f g : Redun → Redun} (h : f (s.redun.get x) = g (s.redun.get x)) :
    s.modRedun x f = s.modRedun x g := congrArg (fun r => { s with redun := s.redun.set x r }) h

/-- Settles O46: a member's state by its trigger, the rest by their guards. -/
theorem memberAndRebuildCommandsComplete : Obligations.MemberAndRebuildCommandsComplete := by
  refine ⟨?suspects, ?failsOnline, ?failsSuspect, ?recovers, ?band, ?wait, ?checkpoint, ?cutover, ?share, ?poison,
    ?generation, ?loss, ?stripe, ?passEnd, ?late⟩
  case suspects =>
    intro s x h trig n hhead hholds hst htrig
    obtain ⟨hsoft, hle⟩ := toNat_of_soft htrig
    exact exec_of_eq rfl
      ((State.memberTrigger_of_online hhead hholds hst).trans ((if_neg hsoft).trans (if_pos hle)))
  case failsOnline =>
    intro s x h trig n hhead hholds hst htrig
    exact exec_of_eq rfl ((State.memberTrigger_of_online hhead hholds hst).trans (if_pos (toNat_of_hard htrig)))
  case failsSuspect =>
    intro s x h trig n hhead hholds hst htrig
    have hstays : trig.toNat ≠ 9 := fun hnine => htrig (BitVec.eq_of_toNat_eq hnine)
    exact exec_of_eq rfl ((State.memberTrigger_of_suspect hhead hholds hst).trans (if_neg hstays))
  case recovers =>
    rintro s x h trig n hhead hholds hst rfl
    exact exec_of_eq rfl ((State.memberTrigger_of_suspect hhead hholds hst).trans (if_pos rfl))
  case band =>
    rintro s x call i e s1 rfl rfl hreplayed hhalted hlost hcur hnext hroom
    refine exec_of_eq rfl ?_
    simp only [hreplayed, hhalted, hlost, hcur, hnext, hroom, Bool.true_eq_false, Bool.false_eq_true, ne_eq,
      not_true_eq_false, or_self, and_false, if_false]
  case wait =>
    intro s x i e hnext hlo hhi hroom hwaiting
    exact exec_of_eq rfl (by simp only [hnext, hlo, hhi, hroom, hwaiting, and_self, if_true])
  case checkpoint =>
    intro s x i hcur
    refine exec_of_eq rfl ?_
    simp only [hcur]
    exact congrArg (fun t => State.libAppend t s.kSide 0x0008) (State.modRedun_congr rfl)
  case cutover =>
    intro s x i n b hcur htarget hdone
    exact exec_of_eq rfl (by simp only [hcur, htarget, hdone, if_true])
  case share | late =>
    intros
    rfl
  case poison =>
    intro s i stripe off er conv hbound huse hmany hoff hstripe
    exact exec_of_if rfl (by simp [hbound, huse, hmany, hoff, hstripe])
  case generation =>
    intro s x s1 s2 hmoved hall hs1 hs2
    rw [hs2, hs1]
    exact exec_of_else rfl (fun h => h.elim hmoved (Bool.eq_false_iff.mp hall))
  case loss =>
    intro s x cause hholds
    exact exec_of_if rfl hholds
  case stripe =>
    intro s x out m gen bitmap off er conv i e stripe hnext huse hgen
    exact exec_of_eq rfl (by simp only [hnext, huse, hgen, ne_eq, not_true_eq_false, or_self, if_false])
  case passEnd =>
    rintro s x out m gen bitmap off er conv s1 hnext rfl
    exact exec_of_eq rfl (by simp only [hnext])

/-! ### Calibration and monitors -/

/-- Settles O48: each event's guard holds. -/
theorem calibrationAndMonitorCommandsComplete : Obligations.CalibrationAndMonitorCommandsComplete := by
  refine ⟨?start, ?result, ?applyStep, ?abort, ?window, ?done, ?warm, ?cool, ?sensors, ?undervolt, ?overvolt, ?avs, ?clamp⟩
  case start =>
    intro s r addr t request d hread hdue hfree hreason
    refine exec_of_eq rfl ?_
    simp only [hread, hdue, hfree, hreason, Bool.not_true, Bool.or_self, Bool.false_eq_true, if_false]
  case result =>
    intro s addr res given pairs x d hrun hread hcovered
    exact exec_of_eq rfl (by simp only [hrun, hread, hcovered, if_true])
  case applyStep =>
    intro s addr x d hrun hread hkind hreturning hcovered hmark
    have hmoved : ¬((s.stepMark x d.stepUnit).isSome = true ∧ s.stepMark x d.stepUnit = x.mark) := by
      rintro ⟨hsome, hsame⟩
      rcases hmark with h | h
      · exact h hsame
      · simp [h] at hsome
    refine exec_of_eq rfl ?_
    simp only [hrun, hread, State.calApply, hkind, hreturning, hcovered, if_neg hmoved, Bool.true_eq_false,
      Bool.false_eq_true, if_false]
  case abort =>
    intro s addr x n hrun hreason
    exact exec_of_eq rfl (by simp only [hrun, hreason])
  case window =>
    intro s x data hgranted
    exact exec_of_access rfl hgranted
  case done =>
    intro s act ofs us hopen hlong
    exact exec_of_if rfl ⟨hopen, hlong⟩
  case warm =>
    rintro s n t s1 hn hon rfl hwarm ht
    refine exec_of_if rfl ⟨hn, hon⟩ ?_
    simp only [hwarm, ht, Bool.false_eq_true, if_false, if_true]
  case cool =>
    rintro s n t s1 hn hon rfl hwarm ht
    refine exec_of_if rfl ⟨hn, hon⟩ ?_
    simp only [hwarm, ht, if_true]
  case sensors =>
    intro s t0 t1 t2 t3 hon hlink
    exact exec_of_else rfl (by simp [hon]) (if_pos hlink)
  case undervolt =>
    rintro s n mv s1 hn hon rfl hlow
    exact exec_of_if rfl ⟨hn, hon⟩ (if_pos hlow)
  case overvolt =>
    rintro s n mv s1 hn hon rfl hnotLow hhigh
    exact exec_of_if rfl ⟨hn, hon⟩ ((if_neg (Nat.not_lt.mpr hnotLow)).trans (if_pos hhigh))
  case avs =>
    rintro s counts ms s1 rfl
    rfl
  case clamp =>
    intro s hon hend
    exact exec_of_if rfl ⟨hon, hend⟩

end Sys2Proof.Machine
end

section
/-!
PROOFS. The commands of the spindle and the retract complete.
-/
namespace Sys2Proof.Machine

variable {s t : State} {i : Instr} {x : Accessor} {f : State → State} {code : Nat}

/-! ### Writes of MTR_SPCMD -/

theorem exec_of_mtrAccess (hi : exec i s = .next (s.mtrAccess x f)) (h : s.MtrGranted x) (ht : f s = t := by rfl) :
    exec i s = .next t := exec_of_access hi h ht

/-- A spindle command that its rule takes. -/
theorem exec_of_spCmd (hi : exec i s = .next (s.mtrAccess x (fun s => s.spWrite code))) (h : s.MtrGranted x)
    (hcmd : s.spCmd code = some t) : exec i s = .next t :=
  exec_of_mtrAccess hi h (by rw [State.spWrite, hcmd, Option.getD_some])

/-- START, STOP, STEP and CLRFLT are carried and enabled. -/
theorem State.spEnabled_of_ready (h : s.SpReady x) :
    s.mtr.linkUp = true ∧ (s.regB R_MTR_CTL 0 && decide (s.rcp.phase ≠ .recovery) && !s.rcp.limited) = true := by
  obtain ⟨-, hlink, hen, hphase, hlimited⟩ := h
  exact ⟨hlink, by simp [hen, hphase, hlimited]⟩

theorem State.spCmd_start (h : s.SpReady x) (hpar : s.reg R_MTR_MOTPAR ≠ 0) (hsp : s.mtr.sp = .off) :
    s.spCmd 1 = some s.spStart := by
  obtain ⟨hlink, hen⟩ := State.spEnabled_of_ready h
  simp only [State.spCmd, hlink, hen, hpar, hsp]
  rfl

/-- A START in BRAKE waits for its end. -/
theorem State.spCmd_startLatched (h : s.SpReady x) (hpar : s.reg R_MTR_MOTPAR ≠ 0) (hsp : s.mtr.sp = .brake) :
    s.spCmd 1 = some (s.modMtr (fun m => { m with startLatched := true })) := by
  obtain ⟨hlink, hen⟩ := State.spEnabled_of_ready h
  simp only [State.spCmd, hlink, hen, hpar, hsp]
  rfl

theorem State.spCmd_stop (h : s.SpReady x) (hoff : s.mtr.sp ≠ .off) (hbrake : s.mtr.sp ≠ .brake)
    (hgen : s.mtr.sp ≠ .gen) (hfault : s.mtr.sp ≠ .fault) : s.spCmd 2 = some s.spStop := by
  obtain ⟨hlink, hen⟩ := State.spEnabled_of_ready h
  simp only [State.spCmd, hlink, hen, hoff, hbrake, hgen, hfault, ne_eq, not_false_eq_true, and_self, decide_true]
  rfl

theorem State.spCmd_step (h : s.SpReady x) (hsp : s.mtr.sp = .run ∨ s.mtr.sp = .step) : s.spCmd 3 = some s.spStep := by
  obtain ⟨hlink, hen⟩ := State.spEnabled_of_ready h
  rcases hsp with hsp | hsp
  all_goals
    simp only [State.spCmd, hlink, hen, hsp]
    rfl

theorem State.spCmd_coast (hlink : s.mtr.linkUp = true) (hoff : s.mtr.sp ≠ .off) (hgen : s.mtr.sp ≠ .gen)
    (hfault : s.mtr.sp ≠ .fault) (hparked : s.mtr.allParked = true) :
    s.spCmd 4 = some (s.modMtr (fun m => { m with startLatched := false })).spOff := by
  by_cases hbrake : s.mtr.sp = .brake
  all_goals
    simp only [State.spCmd, hlink, hoff, hgen, hfault, hparked, hbrake, ne_eq, not_false_eq_true, and_self, decide_true]
    rfl

theorem State.spCmd_clrflt (h : s.SpReady x) (hsp : s.mtr.sp = .fault) : s.spCmd 5 = some s.spOff := by
  obtain ⟨hlink, hen⟩ := State.spEnabled_of_ready h
  simp only [State.spCmd, hlink, hen, hsp]
  rfl

/-- Settles O49: the commands of MTR_SPCMD by their rules, each event by its guard. -/
theorem spindleAndRetractCommandsComplete : Obligations.SpindleAndRetractCommandsComplete := by
  refine ⟨?heartbeat, ?kick, ?hbto, ?heartbeatLoss, ?start, ?startLatched, ?stop, ?step, ?coast, ?clrflt, ?ignored,
    ?retract, ?probe, ?ipd, ?observer, ?kickFails, ?kickAgain, ?atSpeed, ?notAtSpeed, ?spinup, ?stepDone, ?revbrk, ?brake,
    ?chopper, ?chopperOff, ?selftest, ?selftestDone, ?chopperFault, ?clamp, ?clampOff, ?trip, ?tripFault, ?isolation,
    ?genLow, ?collapse, ?powerReturn, ?retractDone, ?retractTimeout, ?thermal, ?powerOn, ?v5, ?spare, ?spareReturn⟩
  case heartbeat | heartbeatLoss =>
    intro s hguard
    exact exec_of_if rfl hguard
  case kick | selftest =>
    intro s x hgranted
    exact exec_of_mtrAccess rfl hgranted
  case hbto | thermal | powerOn =>
    intro s
    rfl
  case start =>
    intro s x hready hpar hsp
    exact exec_of_spCmd rfl hready.1 (State.spCmd_start hready hpar hsp)
  case startLatched =>
    intro s x hready hpar hsp
    exact exec_of_spCmd rfl hready.1 (State.spCmd_startLatched hready hpar hsp)
  case stop =>
    intro s x hready hoff hbrake hgen hfault
    exact exec_of_spCmd rfl hready.1 (State.spCmd_stop hready hoff hbrake hgen hfault)
  case step =>
    intro s x hready hsp
    exact exec_of_spCmd rfl hready.1 (State.spCmd_step hready hsp)
  case coast =>
    intro s x hgranted hlink hoff hgen hfault hparked
    exact exec_of_spCmd rfl hgranted (State.spCmd_coast hlink hoff hgen hfault hparked)
  case clrflt =>
    intro s x hready hsp
    exact exec_of_spCmd rfl hready.1 (State.spCmd_clrflt hready hsp)
  case ignored =>
    intro s x data hgranted hnone
    exact exec_of_mtrAccess rfl hgranted (if_pos (by rw [hnone]; rfl))
  case retract =>
    intro s x data hgranted
    exact exec_of_access rfl hgranted
  case probe =>
    intro s rev rpm hsp
    exact exec_of_if rfl hsp
  case ipd =>
    intro s hsp
    exact exec_of_if rfl hsp
  case observer =>
    intro s hsp hvalid
    exact exec_of_if rfl ⟨hsp, hvalid⟩
  case kickFails =>
    rintro s s1 hsp rfl hlast
    exact exec_of_if rfl hsp (if_pos hlast)
  case kickAgain =>
    rintro s s1 hsp rfl hmore
    exact exec_of_if rfl hsp (if_neg (Nat.not_le.mpr hmore))
  case atSpeed =>
    intro s hsp hfirst hband
    exact exec_of_if rfl ⟨hsp, hfirst, hband⟩
  case notAtSpeed =>
    intro s hfar
    exact exec_of_else rfl (Bool.eq_false_iff.mp hfar)
  case spinup =>
    intro s hreached hsp
    exact exec_of_if rfl ⟨hreached, hsp⟩
  case stepDone =>
    intro s hsp hnear
    exact exec_of_if rfl ⟨hsp, hnear⟩
  case revbrk | brake =>
    intro s hslow hsp
    exact exec_of_else rfl (by simp [hslow]) (by simp only [hsp])
  case chopper =>
    intro s vmot hoff hhigh
    exact exec_of_if rfl ⟨hoff, hhigh⟩
  case chopperOff =>
    intro s vmot hlow
    exact exec_of_if rfl hlow
  case selftestDone =>
    intro s vmot on off hrunning
    exact exec_of_if rfl hrunning
  case chopperFault =>
    intro s rising vmot cur hon hbad
    exact exec_of_if rfl (by rcases hbad with h | h <;> simp [hon, h])
  case clamp =>
    intro s vmot hclamp hhigh
    exact exec_of_else rfl (by simp only [hclamp, hhigh, Bool.or_self, Bool.false_eq_true, not_false_eq_true])
  case clampOff =>
    intro s vmot hclamp hlow
    exact exec_of_if rfl ⟨hclamp, hlow⟩
  case trip =>
    rintro s succ cur s1 hcur rfl hfew
    exact exec_of_else rfl (Nat.not_le.mpr hcur) (if_neg (Nat.not_le.mpr hfew))
  case tripFault =>
    rintro s succ cur s1 hcur rfl hmany
    exact exec_of_else rfl (Nat.not_le.mpr hcur) (if_pos hmany)
  case isolation =>
    intro s vmot hsp hopen hhigh
    exact exec_of_if rfl ⟨hsp, hopen, hhigh⟩
  case genLow =>
    intro s vmot hsp hlow
    exact exec_of_if rfl ⟨hsp, hlow⟩
  case collapse =>
    rintro s vmot s1 hlow rfl
    exact exec_of_else rfl (Nat.not_le.mpr hlow)
  case powerReturn =>
    intro s hsp hretract hseen hflushA hflushB
    exact exec_of_if rfl (by simp [hsp, hretract, hseen, hflushA, hflushB])
  case retractDone =>
    intro s act emf cur hretracting hslow hcur
    exact exec_of_if rfl ⟨hretracting, hslow, hcur⟩
  case retractTimeout =>
    intro s act ms hretracting hlong
    exact exec_of_if rfl ⟨hretracting, hlong⟩
  case v5 =>
    intro s v5 hlow
    exact exec_of_if rfl hlow
  case spare =>
    intro s x ch hgranted
    exact exec_of_mtrAccess rfl hgranted
  case spareReturn =>
    intro s ch hspare hheld
    exact exec_of_eq rfl (by simp only [hspare, hheld, Bool.false_eq_true, if_false])

end Sys2Proof.Machine
end

section
/-!
PROOFS. A FAULT frame of the preamp link: the command logs the fault at the frame's head besides, which the statement of
its completion leaves out.
-/
namespace Sys2Proof.Machine

variable {s t : State} {i : Instr} {l : Side} {w : BitVec 40} {typ : Nat → Bool} {f : State → State}

/-- A frame of a listed type on a link that is locked. -/
theorem exec_of_onUp (hi : exec i s = .next (s.onUp l w typ f)) (hok : frameOk w = true)
    (htyp : typ (fld w 35 32) = true) (hlistens : (s.lnk l).listens = true) (hlock : (s.lnk l).ulock = true)
    (ht : f (s.upSlot l true (bit w 36) true) = t := by rfl) : exec i s = .next t := by
  refine exec_of_eq hi (Eq.trans ?_ ht)
  simp only [State.onUp, hok, htyp, hlistens, hlock, Bool.and_self, if_true]

/-- What a FAULT frame does: the log of the head comes before the registers. -/
theorem exec_fault_of_heard (hok : frameOk w = true) (htyp : fld w 35 32 = 10) (hlistens : (s.lnk l).listens = true)
    (hlock : (s.lnk l).ulock = true) :
    exec (.fault l w) s = .next ((((s.upSlot l true (bit w 36) true).logFault l (fld w 23 20)).setReg (lk l R_QLK_PFLT)
      (BitVec.ofNat 32 (0x80000000 + fld w 31 8))).setStat (lk l R_QLK_INTSTAT) 3) :=
  exec_of_onUp rfl hok (beq_iff_eq.mpr htyp) hlistens hlock

/-- Link A in RUN with its upstream locked, and no fault logged. -/
def lockedLink : State :=
  { State.reset with link := State.reset.link.set .a { State.reset.link.a with st := .run, ulock := true } }

/-- A FAULT frame that names head 0. -/
def faultOfHead0 : BitVec 40 := frameBits false 10 0

/-- Refutes O52: a FAULT frame that names head 0 enters the fault log of link A, which the clause of the command leaves
empty. -/
theorem not_preampLinkCommandsComplete : ¬ Obligations.PreampLinkCommandsComplete := by
  rintro ⟨-, -, -, -, hfault, -⟩
  have hok : frameOk faultOfHead0 = true := by decide +kernel
  have htyp : fld faultOfHead0 35 32 = 10 := by decide +kernel
  have hstated := hfault lockedLink .a faultOfHead0 hok htyp (by decide) (by decide)
  have hlogged := exec_fault_of_heard (s := lockedLink) (l := .a) hok htyp (by decide) (by decide)
  have hlog := congrArg (fun t => (t.lnk .a).faultLog) (Host.Outcome.next.inj (hstated.symm.trans hlogged))
  exact absurd hlog (by decide +kernel)

end Sys2Proof.Machine
end
